-- ==== Sys2Proof/Word.lean ====
section
/-! DEFINITION. The word types of the G9 and their names: register contents, addresses, vector images and the
register numbers of each stream (spec/01_conventions.md R8, spec/03_encodings.md R46). -/

namespace Sys2Proof

/-- One byte of memory. -/
abbrev Byte := BitVec 8

/-- A 32-bit word: an instruction word, an FP32 pattern, a vector lane (R42, R8). -/
abbrev W32 := BitVec 32

/-- The contents of an x-register (R8). -/
abbrev XWord := BitVec 64

/-- The contents of an a-register: 48 bits, arithmetic modulo 2^48 (R8). -/
abbrev AWord := BitVec 48

/-- The contents of a vector register: 2,048 bits (R8, R107). -/
abbrev VWord := BitVec 2048

/-- The contents of a predicate register: one bit per 32-bit lane (R8). -/
abbrev PWord := BitVec 64

/-- A 64-byte descriptor image or tile tag (R135, R220). -/
abbrev Image := BitVec 512

/-- The number of an x-register (R46). -/
abbrev XReg := Fin 64

/-- The number of an f-register (R46). -/
abbrev FReg := Fin 32

/-- The number of an a-register (R46). -/
abbrev AReg := Fin 16

/-- The number of a vector name `v0` to `v55`, before rotation (R9). -/
abbrev VReg := Fin 56

/-- The number of a predicate name `p0` to `p7`, before rotation (R9). -/
abbrev PReg := Fin 8

/-- The number of an edge register `e0` to `e15` (R251). -/
abbrev EReg := Fin 16

/-- A core of the device: die · 16 + core within the die (R1). -/
abbrev CoreId := Fin 64

/-- A crew within its core (R2). -/
abbrev CrewIx := Fin 4

/-- A C-die (R1). -/
abbrev DieId := Fin 4

/-- A context (R282). -/
abbrev CtxId := Fin 64

end Sys2Proof
end

