-- ==== Sys2Proof/Syntax.lean ====
section
/-! DEFINITION. The instructions and steps of the G9: one constructor of `Instr` for every row of
spec/opcode_table.json (words of the four streams and of the firmware context, edge-op words, engine steps, SCP
commands and outside events). -/

namespace Sys2Proof

/-- The four streams of a crew (R2, R11). -/
inductive Stream where
  | x | l | c | s
  deriving DecidableEq, Repr

/-- The two streams that issue transfer words (R57). -/
inductive XferStream where
  | l | s
  deriving DecidableEq, Repr

/-- Who executes a word: the four sequencers of a crew, the firmware context of a core (R320), or Hinge (R58). -/
inductive Role where
  | x | l | c | s | fw | hinge
  deriving DecidableEq, Repr

/-- The token bits [31:28] of a word (R11, R43). -/
structure Tok where
  /-- bit 31, `<p`: pop one token from the predecessor's queue -/
  popP : Bool
  /-- bit 30, `<n`: pop one token from the successor's queue -/
  popN : Bool
  /-- bit 29, `>p`: push one token to the predecessor -/
  pushP : Bool
  /-- bit 28, `>n`: push one token to the successor -/
  pushN : Bool
  deriving DecidableEq, Repr

/-- A word with no annotation. -/
def Tok.zero : Tok := ⟨false, false, false, false⟩

/-- The scopes of Table 3.4 and R172, in the order of their codes. -/
inductive Scope where
  | crew | core | team | die | dev | dom
  deriving DecidableEq, Repr

/-- A source operand of a vector word (Table 1.2). -/
inductive VSrc where
  | reg (n : VReg)
  /-- codes 56 to 59: `ia`, `ib`, `ic`, `id` -/
  | port (n : Fin 4)
  /-- code 62: `vz`, reads zero -/
  | zero
  deriving DecidableEq, Repr

/-- A destination operand of a vector word (Table 1.2). -/
inductive VDst where
  | reg (n : VReg)
  /-- codes 60 and 61: `oa`, `ob` -/
  | port (n : Fin 2)
  /-- code 62: `vz`, discards the result -/
  | zero
  deriving DecidableEq, Repr

/-- The source of `vst` and of `vmva`: a vector register or `vz` (R55, R121). -/
inductive VPlain where
  | reg (n : VReg)
  | zero
  deriving DecidableEq, Repr

/-- The descriptor classes of `mset` (R56). -/
inductive MClass where
  | ring | tile | drain
  deriving DecidableEq, Repr

/-- The CSRs of Table 5.1. -/
inductive Csr where
  | blockid | teamid | teamsz | nblocks | crewid | coreid | dieid | devid | ctxid | dom
  | b (i : Fin 16)
  | part | desctab | cycle | rep | rung | epoch | waitlim
  | trapcause | trapaddr | trappc | trapseq | trapcrew | fwshare
  deriving DecidableEq, Repr

/-- An SCP message as it reaches the N-die (R306): the session on whose connection it came, the 32-byte header as one
number (Table 19.2), the transport message's length, and the payload bytes. `accepted` marks a command that has passed
the checks of R308 and waits in its session's queue to be applied (R310). -/
structure ScpMsg where
  conn : BitVec 16
  hdr : BitVec 256
  len : Nat
  payload : List Byte
  accepted : Bool
  deriving DecidableEq, Repr

/-- A peer's answer to a get (R202, R287): the 64 bytes of the line, or a refusal. -/
inductive GetAnswer where
  | line (bytes : List Byte)
  | refused
  deriving DecidableEq, Repr

/-- One constructor for each row of spec/opcode_table.json. A word of a sequencer carries its token bits first
(R43). -/
inductive Instr where
  /-- NOP, R61 -/
  | nop
  /-- TOK, R61 -/
  | tok (tk : Tok)
  /-- JMP, R83 -/
  | jmp (tk : Tok) (off : BitVec 22)
  /-- LOOP, R63 -/
  | loop (tk : Tok) (count : BitVec 10) (len : BitVec 11)
  /-- LOOP_REG_X, R63 -/
  | loopRegX (tk : Tok) (r : XReg) (len : BitVec 11)
  /-- LOOP_REG, R63 -/
  | loopReg (tk : Tok) (r : AReg) (len : BitVec 11)
  /-- LOOPR, R64 -/
  | loopr (tk : Tok) (count : BitVec 10) (len : BitVec 11)
  /-- LOOPR_REG, R64 -/
  | looprReg (tk : Tok) (r : AReg) (len : BitVec 11)
  /-- LOOPX, R65 -/
  | loopx (tk : Tok) (aC : AReg) (aN : AReg) (len : BitVec 11)
  /-- BRC, R66 -/
  | brc (tk : Tok) (r : XReg) (off : BitVec 16)
  /-- HALT, R67 -/
  | halt (tk : Tok)
  /-- WAIT, R68 -/
  | wait (tk : Tok)
  /-- RSTP, R69 -/
  | rstp (tk : Tok) (mask : BitVec 16)
  /-- ADD, R71 -/
  | add (tk : Tok) (rd : XReg) (ra : XReg) (rb : XReg)
  /-- SUB, R71 -/
  | sub (tk : Tok) (rd : XReg) (ra : XReg) (rb : XReg)
  /-- AND, R71 -/
  | and (tk : Tok) (rd : XReg) (ra : XReg) (rb : XReg)
  /-- OR, R71 -/
  | or (tk : Tok) (rd : XReg) (ra : XReg) (rb : XReg)
  /-- XOR, R71 -/
  | xor (tk : Tok) (rd : XReg) (ra : XReg) (rb : XReg)
  /-- SHL, R71 -/
  | shl (tk : Tok) (rd : XReg) (ra : XReg) (rb : XReg)
  /-- SHR, R71 -/
  | shr (tk : Tok) (rd : XReg) (ra : XReg) (rb : XReg)
  /-- SRA, R71 -/
  | sra (tk : Tok) (rd : XReg) (ra : XReg) (rb : XReg)
  /-- SLT, R71 -/
  | slt (tk : Tok) (rd : XReg) (ra : XReg) (rb : XReg)
  /-- SLTN, R71 -/
  | sltn (tk : Tok) (rd : XReg) (ra : XReg) (rb : XReg)
  /-- MIN, R71 -/
  | min (tk : Tok) (rd : XReg) (ra : XReg) (rb : XReg)
  /-- MAX, R71 -/
  | max (tk : Tok) (rd : XReg) (ra : XReg) (rb : XReg)
  /-- MINN, R71 -/
  | minn (tk : Tok) (rd : XReg) (ra : XReg) (rb : XReg)
  /-- MAXN, R71 -/
  | maxn (tk : Tok) (rd : XReg) (ra : XReg) (rb : XReg)
  /-- MUL, R71 -/
  | mul (tk : Tok) (rd : XReg) (ra : XReg) (rb : XReg)
  /-- MULH, R71 -/
  | mulh (tk : Tok) (rd : XReg) (ra : XReg) (rb : XReg)
  /-- MULHN, R71 -/
  | mulhn (tk : Tok) (rd : XReg) (ra : XReg) (rb : XReg)
  /-- DIV, R72 -/
  | div (tk : Tok) (rd : XReg) (ra : XReg) (rb : XReg)
  /-- DIVN, R72 -/
  | divn (tk : Tok) (rd : XReg) (ra : XReg) (rb : XReg)
  /-- REM, R72 -/
  | rem (tk : Tok) (rd : XReg) (ra : XReg) (rb : XReg)
  /-- REMN, R72 -/
  | remn (tk : Tok) (rd : XReg) (ra : XReg) (rb : XReg)
  /-- CLZ, R71 -/
  | clz (tk : Tok) (rd : XReg) (ra : XReg)
  /-- CTZ, R71 -/
  | ctz (tk : Tok) (rd : XReg) (ra : XReg)
  /-- POPC, R71 -/
  | popc (tk : Tok) (rd : XReg) (ra : XReg)
  /-- BSWAP, R71 -/
  | bswap (tk : Tok) (rd : XReg) (ra : XReg)
  /-- SEXTB, R71 -/
  | sextb (tk : Tok) (rd : XReg) (ra : XReg)
  /-- SEXTH, R71 -/
  | sexth (tk : Tok) (rd : XReg) (ra : XReg)
  /-- SEXTW, R71 -/
  | sextw (tk : Tok) (rd : XReg) (ra : XReg)
  /-- ZEXTW, R71 -/
  | zextw (tk : Tok) (rd : XReg) (ra : XReg)
  /-- ANDN, R71 -/
  | andn (tk : Tok) (rd : XReg) (ra : XReg) (rb : XReg)
  /-- ORN, R71 -/
  | orn (tk : Tok) (rd : XReg) (ra : XReg) (rb : XReg)
  /-- ADDI, R73 -/
  | addi (tk : Tok) (rd : XReg) (ra : XReg) (imm : BitVec 10)
  /-- ANDI, R73 -/
  | andi (tk : Tok) (rd : XReg) (ra : XReg) (imm : BitVec 10)
  /-- ORI, R73 -/
  | ori (tk : Tok) (rd : XReg) (ra : XReg) (imm : BitVec 10)
  /-- XORI, R73 -/
  | xori (tk : Tok) (rd : XReg) (ra : XReg) (imm : BitVec 10)
  /-- SHI_SHL, R74 -/
  | shiShl (tk : Tok) (rd : XReg) (ra : XReg) (n : BitVec 6)
  /-- SHI_SHR, R74 -/
  | shiShr (tk : Tok) (rd : XReg) (ra : XReg) (n : BitVec 6)
  /-- SHI_SRA, R74 -/
  | shiSra (tk : Tok) (rd : XReg) (ra : XReg) (n : BitVec 6)
  /-- SLTI, R73 -/
  | slti (tk : Tok) (rd : XReg) (ra : XReg) (imm : BitVec 10)
  /-- SLTNI, R73 -/
  | sltni (tk : Tok) (rd : XReg) (ra : XReg) (imm : BitVec 10)
  /-- LIM, R75 -/
  | lim (tk : Tok) (rd : XReg) (imm : BitVec 16)
  /-- LIMS, R75 -/
  | lims (tk : Tok) (rd : XReg) (imm : BitVec 16)
  /-- FADD, R76 -/
  | fadd (tk : Tok) (fd : FReg) (fa : FReg) (fb : FReg)
  /-- FSUB, R76 -/
  | fsub (tk : Tok) (fd : FReg) (fa : FReg) (fb : FReg)
  /-- FMUL, R76 -/
  | fmul (tk : Tok) (fd : FReg) (fa : FReg) (fb : FReg)
  /-- FDIV, R76 -/
  | fdiv (tk : Tok) (fd : FReg) (fa : FReg) (fb : FReg)
  /-- FSQRT, R76 -/
  | fsqrt (tk : Tok) (fd : FReg) (fa : FReg)
  /-- FMIN, R76 -/
  | fmin (tk : Tok) (fd : FReg) (fa : FReg) (fb : FReg)
  /-- FMAX, R76 -/
  | fmax (tk : Tok) (fd : FReg) (fa : FReg) (fb : FReg)
  /-- FABS, R76 -/
  | fabs (tk : Tok) (fd : FReg) (fa : FReg)
  /-- FNEG, R76 -/
  | fneg (tk : Tok) (fd : FReg) (fa : FReg)
  /-- FSGNJ, R76 -/
  | fsgnj (tk : Tok) (fd : FReg) (fa : FReg) (fb : FReg)
  /-- FFMA, R77 -/
  | ffma (tk : Tok) (fd : FReg) (fa : FReg) (fb : FReg) (fc : FReg)
  /-- FFMS, R77 -/
  | ffms (tk : Tok) (fd : FReg) (fa : FReg) (fb : FReg) (fc : FReg)
  /-- FFNMA, R77 -/
  | ffnma (tk : Tok) (fd : FReg) (fa : FReg) (fb : FReg) (fc : FReg)
  /-- FFNMS, R77 -/
  | ffnms (tk : Tok) (fd : FReg) (fa : FReg) (fb : FReg) (fc : FReg)
  /-- FCVTXF, R78 -/
  | fcvtxf (tk : Tok) (rd : XReg) (fa : FReg)
  /-- FCVTXFZ, R78 -/
  | fcvtxfz (tk : Tok) (rd : XReg) (fa : FReg)
  /-- FCVTFX, R78 -/
  | fcvtfx (tk : Tok) (fd : FReg) (ra : XReg)
  /-- FMVXF, R78 -/
  | fmvxf (tk : Tok) (rd : XReg) (fa : FReg)
  /-- FMVFX, R78 -/
  | fmvfx (tk : Tok) (fd : FReg) (ra : XReg)
  /-- FEQ, R78 -/
  | feq (tk : Tok) (rd : XReg) (fa : FReg) (fb : FReg)
  /-- FLT, R78 -/
  | flt (tk : Tok) (rd : XReg) (fa : FReg) (fb : FReg)
  /-- FLE, R78 -/
  | fle (tk : Tok) (rd : XReg) (fa : FReg) (fb : FReg)
  /-- LD, R79 -/
  | ld (tk : Tok) (sz : BitVec 2) (rd : XReg) (ra : XReg) (off : BitVec 8)
  /-- LDN, R79 -/
  | ldn (tk : Tok) (sz : BitVec 2) (rd : XReg) (ra : XReg) (off : BitVec 8)
  /-- ST, R79 -/
  | st (tk : Tok) (sz : BitVec 2) (rs : XReg) (ra : XReg) (off : BitVec 8)
  /-- PLD, R79 -/
  | pld (tk : Tok) (sz : BitVec 2) (rd : XReg) (ra : XReg) (off : BitVec 8)
  /-- PLDN, R79 -/
  | pldn (tk : Tok) (sz : BitVec 2) (rd : XReg) (ra : XReg) (off : BitVec 8)
  /-- PST, R79 -/
  | pst (tk : Tok) (sz : BitVec 2) (rs : XReg) (ra : XReg) (off : BitVec 8)
  /-- FLD, R79 -/
  | fld (tk : Tok) (fd : FReg) (ra : XReg) (off : BitVec 8)
  /-- FST, R79 -/
  | fst (tk : Tok) (fs : FReg) (ra : XReg) (off : BitVec 8)
  /-- PFLD, R79 -/
  | pfld (tk : Tok) (fd : FReg) (ra : XReg) (off : BitVec 8)
  /-- PFST, R79 -/
  | pfst (tk : Tok) (fs : FReg) (ra : XReg) (off : BitVec 8)
  /-- BEQ, R82 -/
  | beq (tk : Tok) (ra : XReg) (rb : XReg) (off : BitVec 10)
  /-- BNE, R82 -/
  | bne (tk : Tok) (ra : XReg) (rb : XReg) (off : BitVec 10)
  /-- BLT, R82 -/
  | blt (tk : Tok) (ra : XReg) (rb : XReg) (off : BitVec 10)
  /-- BGE, R82 -/
  | bge (tk : Tok) (ra : XReg) (rb : XReg) (off : BitVec 10)
  /-- BLTN, R82 -/
  | bltn (tk : Tok) (ra : XReg) (rb : XReg) (off : BitVec 10)
  /-- BGEN, R82 -/
  | bgen (tk : Tok) (ra : XReg) (rb : XReg) (off : BitVec 10)
  /-- CALL, R83 -/
  | call (tk : Tok) (off : BitVec 22)
  /-- JR, R83 -/
  | jr (tk : Tok) (ra : XReg)
  /-- CSRR, R84 -/
  | csrr (tk : Tok) (rd : XReg) (csr : Csr)
  /-- CSRW, R84 -/
  | csrw (tk : Tok) (csr : Csr) (rs : XReg)
  /-- WAITLIM_WRITE, R87 -/
  | waitlimWrite (tk : Tok) (rs : XReg)
  /-- DESCTAB_WRITE, R88 -/
  | desctabWrite (tk : Tok) (rs : XReg)
  /-- FWSHARE_WRITE, R86 -/
  | fwshareWrite (tk : Tok) (rs : XReg)
  /-- TRAP, R90 -/
  | trap (tk : Tok) (imm : BitVec 16)
  /-- ERET, R91 -/
  | eret (tk : Tok)
  /-- BINIT, R95 -/
  | binit (tk : Tok) (ra : XReg) (rb : XReg)
  /-- BARV, R95 -/
  | barv (tk : Tok) (ra : XReg)
  /-- BARD, R95 -/
  | bard (tk : Tok) (ra : XReg)
  /-- BART, R95 -/
  | bart (tk : Tok) (ra : XReg) (rb : XReg)
  /-- BWAIT, R95 -/
  | bwait (tk : Tok) (ra : XReg) (rb : XReg)
  /-- BTEST, R95 -/
  | btest (tk : Tok) (rd : XReg) (ra : XReg)
  /-- PUB, R97 -/
  | pub (tk : Tok) (scope : Scope)
  /-- ACQ, R97 -/
  | acq (tk : Tok) (scope : Scope)
  /-- MBPUT, R99 -/
  | mbput (tk : Tok) (ra : XReg) (rb : XReg)
  /-- MBGET, R99 -/
  | mbget (tk : Tok) (rd : XReg) (ra : XReg)
  /-- MBPOLL, R99 -/
  | mbpoll (tk : Tok) (rd : XReg) (ra : XReg)
  /-- DISCARD, R100 -/
  | discard (tk : Tok) (ra : XReg) (rb : XReg)
  /-- PAMO_ADD, R101 -/
  | pamoAdd (tk : Tok) (rd : XReg) (ra : XReg) (rb : XReg)
  /-- PAMO_ADDD, R101 -/
  | pamoAddd (tk : Tok) (rd : XReg) (ra : XReg) (rb : XReg)
  /-- PAMO_MIN, R101 -/
  | pamoMin (tk : Tok) (rd : XReg) (ra : XReg) (rb : XReg)
  /-- PAMO_MAX, R101 -/
  | pamoMax (tk : Tok) (rd : XReg) (ra : XReg) (rb : XReg)
  /-- PAMO_MINN, R101 -/
  | pamoMinn (tk : Tok) (rd : XReg) (ra : XReg) (rb : XReg)
  /-- PAMO_MAXN, R101 -/
  | pamoMaxn (tk : Tok) (rd : XReg) (ra : XReg) (rb : XReg)
  /-- PAMO_SWP, R101 -/
  | pamoSwp (tk : Tok) (rd : XReg) (ra : XReg) (rb : XReg)
  /-- PAMO_CAS, R101 -/
  | pamoCas (tk : Tok) (rd : XReg) (ra : XReg) (rb : XReg)
  /-- GNEW, R103 -/
  | gnew (tk : Tok) (rd : XReg) (ra : XReg)
  /-- GFORK, R233 -/
  | gfork (tk : Tok) (rd : XReg) (ra : XReg)
  /-- GADV, R232 -/
  | gadv (tk : Tok) (rd : XReg) (ra : XReg) (rb : XReg)
  /-- GMASK, R103 -/
  | gmask (tk : Tok) (ra : XReg) (rb : XReg)
  /-- GROLL, R233 -/
  | groll (tk : Tok) (rd : XReg) (ra : XReg) (rb : XReg)
  /-- GFREE, R233 -/
  | gfree (tk : Tok) (ra : XReg)
  /-- GSTAT, R103 -/
  | gstat (tk : Tok) (rd : XReg) (ra : XReg)
  /-- SDRAW, R104 -/
  | sdraw (tk : Tok) (rd : XReg) (ra : XReg)
  /-- SSTAT, R104 -/
  | sstat (tk : Tok) (rd : XReg) (ra : XReg)
  /-- HSET, R105 -/
  | hset (tk : Tok) (ra : XReg) (rb : XReg)
  /-- HRUN, R105 -/
  | hrun (tk : Tok) (ra : XReg)
  /-- HSTAT, R105 -/
  | hstat (tk : Tok) (rd : XReg) (ra : XReg)
  /-- HFORCE, R105 -/
  | hforce (tk : Tok) (ra : XReg)
  /-- A_ADD, R70 -/
  | aAdd (tk : Tok) (ad : AReg) (aa : AReg) (ab : AReg)
  /-- A_SUB, R70 -/
  | aSub (tk : Tok) (ad : AReg) (aa : AReg) (ab : AReg)
  /-- A_SHL, R70 -/
  | aShl (tk : Tok) (ad : AReg) (aa : AReg) (ab : AReg)
  /-- A_SHR, R70 -/
  | aShr (tk : Tok) (ad : AReg) (aa : AReg) (ab : AReg)
  /-- A_SRA, R70 -/
  | aSra (tk : Tok) (ad : AReg) (aa : AReg) (ab : AReg)
  /-- A_MUL, R70 -/
  | aMul (tk : Tok) (ad : AReg) (aa : AReg) (ab : AReg)
  /-- A_MIN, R70 -/
  | aMin (tk : Tok) (ad : AReg) (aa : AReg) (ab : AReg)
  /-- A_MAX, R70 -/
  | aMax (tk : Tok) (ad : AReg) (aa : AReg) (ab : AReg)
  /-- A_AND, R70 -/
  | aAnd (tk : Tok) (ad : AReg) (aa : AReg) (ab : AReg)
  /-- A_OR, R70 -/
  | aOr (tk : Tok) (ad : AReg) (aa : AReg) (ab : AReg)
  /-- A_XOR, R70 -/
  | aXor (tk : Tok) (ad : AReg) (aa : AReg) (ab : AReg)
  /-- AADDI, R70 -/
  | aaddi (tk : Tok) (ad : AReg) (aa : AReg) (imm : BitVec 14)
  /-- ALI, R70 -/
  | ali (tk : Tok) (ad : AReg) (imm : BitVec 16)
  /-- ALIS, R70 -/
  | alis (tk : Tok) (ad : AReg) (imm : BitVec 16)
  /-- VADD, R112 -/
  | vadd (tk : Tok) (pg : PReg) (vd : VDst) (va : VSrc) (vb : VSrc)
  /-- VSUB, R112 -/
  | vsub (tk : Tok) (pg : PReg) (vd : VDst) (va : VSrc) (vb : VSrc)
  /-- VMUL, R112 -/
  | vmul (tk : Tok) (pg : PReg) (vd : VDst) (va : VSrc) (vb : VSrc)
  /-- VFMA, R112 -/
  | vfma (tk : Tok) (pg : PReg) (vd : VDst) (va : VSrc) (vb : VSrc)
  /-- VMIN, R112 -/
  | vmin (tk : Tok) (pg : PReg) (vd : VDst) (va : VSrc) (vb : VSrc)
  /-- VMAX, R112 -/
  | vmax (tk : Tok) (pg : PReg) (vd : VDst) (va : VSrc) (vb : VSrc)
  /-- VABS, R112 -/
  | vabs (tk : Tok) (pg : PReg) (vd : VDst) (va : VSrc)
  /-- VNEG, R112 -/
  | vneg (tk : Tok) (pg : PReg) (vd : VDst) (va : VSrc)
  /-- VAND, R112 -/
  | vand (tk : Tok) (pg : PReg) (vd : VDst) (va : VSrc) (vb : VSrc)
  /-- VOR, R112 -/
  | vor (tk : Tok) (pg : PReg) (vd : VDst) (va : VSrc) (vb : VSrc)
  /-- VXOR, R112 -/
  | vxor (tk : Tok) (pg : PReg) (vd : VDst) (va : VSrc) (vb : VSrc)
  /-- VSHL, R112 -/
  | vshl (tk : Tok) (pg : PReg) (vd : VDst) (va : VSrc) (vb : VSrc)
  /-- VSHR, R112 -/
  | vshr (tk : Tok) (pg : PReg) (vd : VDst) (va : VSrc) (vb : VSrc)
  /-- VSRA, R112 -/
  | vsra (tk : Tok) (pg : PReg) (vd : VDst) (va : VSrc) (vb : VSrc)
  /-- VCMPEQ, R114 -/
  | vcmpeq (tk : Tok) (pg : PReg) (pd : PReg) (va : VSrc) (vb : VSrc)
  /-- VCMPLT, R114 -/
  | vcmplt (tk : Tok) (pg : PReg) (pd : PReg) (va : VSrc) (vb : VSrc)
  /-- VCMPLE, R114 -/
  | vcmple (tk : Tok) (pg : PReg) (pd : PReg) (va : VSrc) (vb : VSrc)
  /-- VSEL, R115 -/
  | vsel (tk : Tok) (pg : PReg) (vd : VDst) (va : VSrc) (vb : VSrc)
  /-- VCVT, R117 -/
  | vcvt (tk : Tok) (pg : PReg) (vd : VDst) (va : VSrc) (ty : BitVec 4)
  /-- VCVTS, R117 -/
  | vcvts (tk : Tok) (pg : PReg) (vd : VDst) (va : VSrc) (ty : BitVec 4)
  /-- VRSQ, R118 -/
  | vrsq (tk : Tok) (pg : PReg) (vd : VDst) (va : VSrc)
  /-- VRCP, R118 -/
  | vrcp (tk : Tok) (pg : PReg) (vd : VDst) (va : VSrc)
  /-- VLOG2, R118 -/
  | vlog2 (tk : Tok) (pg : PReg) (vd : VDst) (va : VSrc)
  /-- VEXP2, R118 -/
  | vexp2 (tk : Tok) (pg : PReg) (vd : VDst) (va : VSrc)
  /-- VPERM, R119 -/
  | vperm (tk : Tok) (pg : PReg) (vd : VDst) (va : VSrc) (vb : VSrc)
  /-- VBC_A, R120 -/
  | vbcA (tk : Tok) (pg : PReg) (vd : VDst) (aS : AReg)
  /-- VBC_LANE, R120 -/
  | vbcLane (tk : Tok) (pg : PReg) (vd : VDst) (va : VSrc) (k : BitVec 6)
  /-- VMAXI, R123 -/
  | vmaxi (tk : Tok) (pg : PReg) (vd : VDst) (va : VSrc) (vb : VSrc)
  /-- VSUM, R122 -/
  | vsum (tk : Tok) (pg : PReg) (vd : VDst) (va : VSrc)
  /-- VRNG, R124 -/
  | vrng (tk : Tok) (pg : PReg) (vd : VDst) (va : VSrc) (vb : VSrc)
  /-- VLD, R128 -/
  | vld (tk : Tok) (pg : PReg) (vd : VReg) (aB : AReg) (off : BitVec 9)
  /-- VST, R128 -/
  | vst (tk : Tok) (pg : PReg) (vs : VPlain) (aB : AReg) (off : BitVec 9)
  /-- VMVA_LANE, R121 -/
  | vmvaLane (tk : Tok) (aD : AReg) (va : VPlain) (k : BitVec 6)
  /-- VMVA_VSH, R121 -/
  | vmvaVsh (tk : Tok) (aD : AReg)
  /-- VSETSH, R111 -/
  | vsetsh (tk : Tok) (ty : BitVec 4) (pack : BitVec 2) (cnt : BitVec 8)
  /-- VSETSH_REG, R111 -/
  | vsetshReg (tk : Tok) (ty : BitVec 4) (pack : BitVec 2) (aC : AReg)
  /-- VPORT, R130 -/
  | vport (tk : Tok) (port : Fin 6) (aB : AReg) (aR : AReg)
  /-- VPORT_IDLE, R130 -/
  | vportIdle (tk : Tok) (port : Fin 6)
  /-- VREP, R133 -/
  | vrep (tk : Tok) (count : BitVec 8) (sd : BitVec 2) (sa : BitVec 2) (sb : BitVec 2)
  /-- VREP_REG, R133 -/
  | vrepReg (tk : Tok) (aC : AReg) (sd : BitVec 2) (sa : BitVec 2) (sb : BitVec 2)
  /-- PLOG_AND, R116 -/
  | plogAnd (tk : Tok) (pd : PReg) (pa : PReg) (pb : PReg)
  /-- PLOG_OR, R116 -/
  | plogOr (tk : Tok) (pd : PReg) (pa : PReg) (pb : PReg)
  /-- PLOG_XOR, R116 -/
  | plogXor (tk : Tok) (pd : PReg) (pa : PReg) (pb : PReg)
  /-- PLOG_ANDN, R116 -/
  | plogAndn (tk : Tok) (pd : PReg) (pa : PReg) (pb : PReg)
  /-- PLOG_NOT, R116 -/
  | plogNot (tk : Tok) (pd : PReg) (pa : PReg)
  /-- VRQNT, R125 -/
  | vrqnt (tk : Tok) (pg : PReg) (vd : VDst) (va : VSrc) (vb : VSrc)
  /-- VCLAMP, R126 -/
  | vclamp (tk : Tok) (pg : PReg) (vd : VDst) (va : VSrc) (vb : VSrc)
  /-- VPOPC, R127 -/
  | vpopc (tk : Tok) (pg : PReg) (vd : VDst) (va : VSrc)
  /-- MLEASE, R141 -/
  | mlease (tk : Tok)
  /-- MFREE, R141 -/
  | mfree (tk : Tok)
  /-- MSET_IMAGE, R142 -/
  | msetImage (tk : Tok) (cls : MClass) (idx : Fin 16) (aS : AReg)
  /-- MSET_FIELD, R142 -/
  | msetField (tk : Tok) (cls : MClass) (idx : Fin 16) (field : BitVec 4) (aS : AReg)
  /-- MZERO, R143 -/
  | mzero (tk : Tok) (mask : BitVec 16)
  /-- MMA, R144 -/
  | mma (tk : Tok) (t : Fin 16) (ra : Fin 16) (rb : Fin 16) (n : BitVec 8) (ov : Bool) (ck : Bool)
  /-- MMAG, R145 -/
  | mmag (tk : Tok) (t : Fin 16) (ra : Fin 16) (rb : Fin 16) (n : BitVec 8) (ov : Bool) (ck : Bool)
  /-- MHAD, R146 -/
  | mhad (tk : Tok) (rd : Fin 16) (rs : Fin 16) (order : BitVec 2) (sign : BitVec 2)
  /-- MDRAIN, R147 -/
  | mdrain (tk : Tok) (t : Fin 16) (dd : Fin 16)
  /-- MTAG, R148 -/
  | mtag (tk : Tok) (t : Fin 16) (aP : AReg)
  /-- MTAG_CHK, R148 -/
  | mtagChk (tk : Tok) (aP : AReg)
  /-- MREPLAY, R149 -/
  | mreplay (tk : Tok) (t : Fin 16) (aP : AReg)
  /-- MREPLAY_CHK, R149 -/
  | mreplayChk (tk : Tok) (t : Fin 16)
  /-- MCHK, R150 -/
  | mchk (tk : Tok) (t : Fin 16)
  /-- MRING_RESET, R151 -/
  | mringReset (tk : Tok) (rg : Fin 16)
  /-- MRING_POP, R151 -/
  | mringPop (tk : Tok) (rg : Fin 16)
  /-- MRING_READ, R151 -/
  | mringRead (tk : Tok) (rg : Fin 16) (aD : AReg)
  /-- TLD, R159 -/
  | tld (tk : Tok) (td : Fin 64) (aP : AReg) (aB : AReg) (tr : Bool) (tg : Bool) (cv : Bool) (ck : Bool) (rg : Bool)
  /-- TST, R160 -/
  | tst (tk : Tok) (td : Fin 64) (aP : AReg) (aB : AReg) (tr : Bool) (tg : Bool) (cv : Bool) (ck : Bool)
  /-- TCPY, R161 -/
  | tcpy (tk : Tok) (td : Fin 64) (aP : AReg) (aB : AReg) (tr : Bool) (tg : Bool) (rg : Bool)
  /-- TSEND, R162 -/
  | tsend (tk : Tok) (td : Fin 64) (aP : AReg) (aB : AReg)
  /-- TADD, R163 -/
  | tadd (tk : Tok) (td : Fin 64) (aP : AReg) (aB : AReg)
  /-- TGAT, R164 -/
  | tgat (tk : Tok) (td : Fin 64) (aP : AReg) (aB : AReg) (cv : Bool)
  /-- TSCT, R164 -/
  | tsct (tk : Tok) (td : Fin 64) (aP : AReg) (aB : AReg) (cv : Bool)
  /-- TCRC, R165 -/
  | tcrc (tk : Tok) (td : Fin 64) (aB : AReg)
  /-- TDESC, R166 -/
  | tdesc (tk : Tok) (td : Fin 64) (aP : AReg)
  /-- TTOUCH, R167 -/
  | ttouch (tk : Tok) (td : Fin 64)
  /-- EEND, R251 -/
  | eend
  /-- EMOV, R251 -/
  | emov (d : EReg) (a : EReg)
  /-- ELI, R251 -/
  | eli (d : EReg) (imm : BitVec 15)
  /-- EADD, R251 -/
  | eadd (d : EReg) (a : EReg) (b : EReg)
  /-- ESUB, R251 -/
  | esub (d : EReg) (a : EReg) (b : EReg)
  /-- EMUL, R251 -/
  | emul (d : EReg) (a : EReg) (b : EReg)
  /-- EMIN, R251 -/
  | emin (d : EReg) (a : EReg) (b : EReg)
  /-- EMAX, R251 -/
  | emax (d : EReg) (a : EReg) (b : EReg)
  /-- EAND, R251 -/
  | eand (d : EReg) (a : EReg) (b : EReg)
  /-- EOR, R251 -/
  | eor (d : EReg) (a : EReg) (b : EReg)
  /-- ESHL, R251 -/
  | eshl (d : EReg) (a : EReg) (b : EReg)
  /-- ESHR, R251 -/
  | eshr (d : EReg) (a : EReg) (b : EReg)
  /-- ECMP, R251 -/
  | ecmp (d : EReg) (a : EReg) (b : EReg) (cond : BitVec 3)
  /-- ESEL, R251 -/
  | esel (d : EReg) (a : EReg) (b : EReg) (e : EReg)
  /-- EMSG, R251 -/
  | emsg (a : EReg)
  /-- EFIN, R251 -/
  | efin (a : EReg)
  /-- TOKEN_PUSH, R180 -/
  | tokenPush
  /-- TOKEN_TIMEOUT, R182 -/
  | tokenTimeout
  /-- BAR_TIMEOUT, R95 -/
  | barTimeout
  /-- MBOX_TIMEOUT, R99 -/
  | mboxTimeout
  /-- COMBINE_UPDATE, R96 -/
  | combineUpdate (core : CoreId)
  /-- TRANSFER_RETIRE, R156 -/
  | transferRetire (core : CoreId) (crew : CrewIx) (st : XferStream)
  /-- TRANSFER_FAULT, R157 -/
  | transferFault (core : CoreId) (crew : CrewIx) (st : XferStream)
  /-- MATRIX_CHUNK, R144 -/
  | matrixChunk (core : CoreId) (crew : CrewIx)
  /-- EPOCH_BOUNDARY, R216 -/
  | epochBoundary
  /-- CALENDAR_FRAME, R185 -/
  | calendarFrame
  /-- PORTBUD_PERIOD, R305 -/
  | portbudPeriod
  /-- FWSHARE_WINDOW, R184 -/
  | fwshareWindow
  /-- DISPATCH_TEAM, R176 -/
  | dispatchTeam
  /-- BLOCK_START, R170 -/
  | blockStart (ctx : CtxId) (launch : Nat) (team : Nat)
  /-- GMASK_COMPLETE, R234 -/
  | gmaskComplete (die : DieId) (h : Fin 16384)
  /-- SAMPLER_SERVE, R237 -/
  | samplerServe (die : DieId)
  /-- HINGE_PUSH_SUPERSTEP, R254 -/
  | hingePushSuperstep (core : CoreId) (crew : CrewIx)
  /-- HINGE_PULL_SUPERSTEP, R255 -/
  | hingePullSuperstep (core : CoreId) (crew : CrewIx)
  /-- HINGE_FINALIZE, R256 -/
  | hingeFinalize (core : CoreId) (crew : CrewIx)
  /-- HINGE_COMPLETION, R257 -/
  | hingeCompletion (core : CoreId) (crew : CrewIx)
  /-- TRAP_ENTRY, R89 -/
  | trapEntry (core : CoreId)
  /-- FIRMWARE_STOP, R322 -/
  | firmwareStop (core : CoreId)
  /-- CONTEXT_SAVE, R300 -/
  | contextSave (ctx : CtxId)
  /-- RESUME_RESTORE, R302 -/
  | resumeRestore (ctx : CtxId)
  /-- BOOT_START, R325 -/
  | bootStart
  /-- READY, R325 -/
  | ready
  /-- READY_TIMEOUT, R325 -/
  | readyTimeout
  /-- FATAL_CONDITION, R325 -/
  | fatalCondition
  /-- POWER_CHECK, R331 -/
  | powerCheck (watts : Nat)
  /-- POWER_SHUTDOWN, R331 -/
  | powerShutdown
  /-- FRAME_DROP, R304 -/
  | frameDrop (port : Fin 12)
  /-- HOST_RMA_WRITE, R316 -/
  | hostRmaWrite (port : Fin 12) (ctx : CtxId) (va : XWord) (bytes : List Byte)
  /-- HOST_RMA_READ, R316 -/
  | hostRmaRead (port : Fin 12) (ctx : CtxId) (va : XWord) (n : Nat)
  /-- REMOTE_PUT, R201 -/
  | remotePut (pa : BitVec 52) (bytes : List Byte)
  /-- PUT_ACK, R201 -/
  | putAck (port : Fin 12) (put : Nat) (ok : Bool)
  /-- REMOTE_GET, R202 -/
  | remoteGet (pa : BitVec 52)
  /-- SCP_UNKNOWN_OPCODE, R308 -/
  | scpUnknownOpcode (m : ScpMsg)
  /-- SESSION_OPEN, R307 -/
  | sessionOpen (m : ScpMsg)
  /-- SLOT_LOAD, R311 -/
  | slotLoad (m : ScpMsg)
  /-- SLOT_PIN, R311 -/
  | slotPin (m : ScpMsg)
  /-- SLOT_REVOKE, R312 -/
  | slotRevoke (m : ScpMsg)
  /-- INVOKE, R312 -/
  | invoke (m : ScpMsg)
  /-- CONTRACT_SET, R212 -/
  | contractSet (m : ScpMsg)
  /-- CONTRACT_SET_PARAMS, R313 -/
  | contractSetParams (m : ScpMsg)
  /-- CONTRACT_SET_PEER, R313 -/
  | contractSetPeer (m : ScpMsg)
  /-- CONTRACT_SET_DEVID, R313 -/
  | contractSetDevid (m : ScpMsg)
  /-- CONTRACT_SET_KEY, R313 -/
  | contractSetKey (m : ScpMsg)
  /-- MAP, R339 -/
  | map (m : ScpMsg)
  /-- UNMAP, R339 -/
  | unmap (m : ScpMsg)
  /-- MIGRATE_PAGE, R294 -/
  | migratePage (m : ScpMsg)
  /-- MIGRATE_EXPORT, R244 -/
  | migrateExport (m : ScpMsg)
  /-- MIGRATE_IMPORT, R244 -/
  | migrateImport (m : ScpMsg)
  /-- KEY_LOAD, R328 -/
  | keyLoad (m : ScpMsg)
  /-- KEY_ERASE, R314 -/
  | keyErase (m : ScpMsg)
  /-- PREEMPT, R299 -/
  | preempt (m : ScpMsg)
  /-- RESUME, R302 -/
  | resume (m : ScpMsg)
  /-- RESUME_RETRY, R297 -/
  | resumeRetry (m : ScpMsg)
  /-- RESUME_REFUSE, R297 -/
  | resumeRefuse (m : ScpMsg)
  /-- CTX_RESET, R315 -/
  | ctxReset (m : ScpMsg)
  /-- RESYNC, R318 -/
  | resync (m : ScpMsg)
  /-- TELEMETRY_POWER, R319 -/
  | telemetryPower (m : ScpMsg)
  /-- TELEMETRY_SHUTTER, R333 -/
  | telemetryShutter (m : ScpMsg)
  /-- TELEMETRY_FAULTS, R335 -/
  | telemetryFaults (m : ScpMsg)
  /-- TELEMETRY_PORTS, R319 -/
  | telemetryPorts (m : ScpMsg)
  /-- FW_UPDATE, R326 -/
  | fwUpdate (m : ScpMsg)
  /-- GUILT_CLEAR, R309 -/
  | guiltClear (m : ScpMsg)
  /-- CALENDAR_SET, R185 -/
  | calendarSet (m : ScpMsg)
  /-- ILLEGAL_OP, R44 -/
  | illegalOp
  /-- INST_PERM, R286 -/
  | instPerm (addr : XWord)
  /-- POWER_LOSS, R325 -/
  | powerLoss
  /-- GET_RESPONSE, R202 -/
  | getResponse (port : Fin 12) (core : CoreId) (peer : BitVec 10) (pa : BitVec 52) (answer : GetAnswer)
  deriving DecidableEq, Repr

end Sys2Proof
end

