-- ==== Sys2Proof/WellFormed.lean ====
section
/-! DEFINITION. Which instructions are words of which agent: the stream's map accepts them (R47, R50, R51, R53, R57,
R58) and their operands are ones an encoding of spec/03_encodings.md can hold and tests 1 to 4 of R44 pass. -/

namespace Sys2Proof

/-- The streams whose words the X map gives: X and the firmware context (R50, R320). -/
def Role.isX (role : Role) : Bool := role == .x || role == .fw

/-- The streams with a-registers (R51). -/
def Role.isA (role : Role) : Bool := role == .l || role == .c || role == .s

/-- The streams that issue transfer words (R57). -/
def Role.isT (role : Role) : Bool := role == .l || role == .s

/-- Everything but Hinge executes sequencer words (R43). -/
def Role.isSeq (role : Role) : Bool := !(role == .hinge)

/-- CSRs 0x030 to 0x035, marked firmware in Table 5.1. -/
def Csr.firmwareOnly : Csr → Bool
  | .trapcause | .trapaddr | .trappc | .trapseq | .trapcrew | .fwshare => true
  | .blockid | .teamid | .teamsz | .nblocks | .crewid | .coreid | .dieid | .devid | .ctxid | .dom | .b _ | .part
  | .desctab | .cycle | .rep | .rung | .epoch | .waitlim => false

/-- A `csrr` may name the CSR in this context (R84). -/
def Csr.readable (csr : Csr) (role : Role) : Bool := !csr.firmwareOnly || role == .fw

/-- A `csrw` may name the CSR in this context (R84, the Access column of Table 5.1). -/
def Csr.writable (csr : Csr) (role : Role) : Bool :=
  csr == .desctab || csr == .waitlim || (csr.firmwareOnly && role == .fw)

/-- The three CSRs whose writes are rows of the opcode table of their own. -/
def Csr.hasOwnRow (csr : Csr) : Bool := csr == .waitlim || csr == .desctab || csr == .fwshare

/-- The `mset` field numbers that a descriptor layout assigns, the image apart (R136, R138, R139). -/
def MClass.hasField : MClass → Nat → Bool
  | .ring, f => f ≤ 8
  | .tile, f => f ≤ 3
  | .drain, f => f ≤ 6

/-- A dest of an edge op: `e0`, or `e6` to `e15` (R58). -/
def destOk (d : EReg) : Bool := d == 0 || 6 ≤ d.val

/-- Tests 1 to 4 of R44 hold of the instruction in this agent's map; rows of the opcode table that are no words are
well formed for nobody. -/
def Instr.wf (role : Role) : Instr → Bool
  | .nop | .jmp .. | .halt .. | .wait .. => role.isSeq
  | .rstp .. | .vadd .. | .vsub .. | .vmul .. | .vfma .. | .vmin .. | .vmax .. | .vabs .. | .vneg .. | .vand ..
  | .vor .. | .vxor .. | .vshl .. | .vshr .. | .vsra .. | .vcmpeq .. | .vcmplt .. | .vcmple .. | .vsel ..
  | .vcvt .. | .vcvts .. | .vrsq .. | .vrcp .. | .vlog2 .. | .vexp2 .. | .vperm .. | .vbcA .. | .vbcLane ..
  | .vmaxi .. | .vsum .. | .vrng .. | .vld .. | .vst .. | .vmvaLane .. | .vmvaVsh .. | .vport .. | .vportIdle ..
  | .vrep .. | .plogAnd .. | .plogOr .. | .plogXor .. | .plogAndn .. | .plogNot .. | .vrqnt .. | .vclamp ..
  | .vpopc .. | .mlease .. | .mfree .. | .msetImage .. | .mzero .. | .mma .. | .mmag .. | .mhad .. | .mdrain ..
  | .mtag .. | .mtagChk .. | .mreplay .. | .mreplayChk .. | .mchk .. | .mringReset .. | .mringPop ..
  | .mringRead .. => role == .c
  | .add .. | .sub .. | .and .. | .or .. | .xor .. | .shl .. | .shr .. | .sra .. | .slt .. | .sltn .. | .min ..
  | .max .. | .minn .. | .maxn .. | .mul .. | .mulh .. | .mulhn .. | .div .. | .divn .. | .rem .. | .remn ..
  | .clz .. | .ctz .. | .popc .. | .bswap .. | .sextb .. | .sexth .. | .sextw .. | .zextw .. | .andn .. | .orn ..
  | .addi .. | .andi .. | .ori .. | .xori .. | .shiShl .. | .shiShr .. | .shiSra .. | .slti .. | .sltni ..
  | .lim .. | .lims .. | .fadd .. | .fsub .. | .fmul .. | .fdiv .. | .fsqrt .. | .fmin .. | .fmax .. | .fabs ..
  | .fneg .. | .fsgnj .. | .ffma .. | .ffms .. | .ffnma .. | .ffnms .. | .fcvtxf .. | .fcvtxfz .. | .fcvtfx ..
  | .fmvxf .. | .fmvfx .. | .feq .. | .flt .. | .fle .. | .ld .. | .ldn .. | .st .. | .pld .. | .pldn .. | .pst ..
  | .fld .. | .fst .. | .pfld .. | .pfst .. | .beq .. | .bne .. | .blt .. | .bge .. | .bltn .. | .bgen ..
  | .call .. | .jr .. | .waitlimWrite .. | .desctabWrite .. | .trap .. | .binit .. | .barv .. | .bard .. | .bart ..
  | .bwait .. | .btest .. | .pub .. | .acq .. | .mbput .. | .mbget .. | .mbpoll .. | .discard .. | .pamoAdd ..
  | .pamoAddd .. | .pamoMin .. | .pamoMax .. | .pamoMinn .. | .pamoMaxn .. | .pamoSwp .. | .pamoCas .. | .gnew ..
  | .gfork .. | .gadv .. | .gmask .. | .groll .. | .gfree .. | .gstat .. | .sdraw .. | .sstat .. | .hset ..
  | .hrun .. | .hstat .. | .hforce .. => role.isX
  | .fwshareWrite .. | .eret .. => role == .fw
  | .aAdd .. | .aSub .. | .aShl .. | .aShr .. | .aSra .. | .aMul .. | .aMin .. | .aMax .. | .aAnd .. | .aOr ..
  | .aXor .. | .aaddi .. | .ali .. | .alis .. => role.isA
  | .tsend .. | .tadd .. | .tgat .. | .tsct .. | .tcrc .. | .tdesc .. | .ttouch .. => role.isT
  | .eend | .emsg .. | .efin .. => role == .hinge
  | .tokenPush | .tokenTimeout | .barTimeout | .mboxTimeout | .combineUpdate .. | .transferRetire ..
  | .transferFault .. | .matrixChunk .. | .epochBoundary | .calendarFrame | .portbudPeriod | .fwshareWindow
  | .dispatchTeam | .blockStart .. | .gmaskComplete .. | .samplerServe .. | .hingePushSuperstep ..
  | .hingePullSuperstep .. | .hingeFinalize .. | .hingeCompletion .. | .trapEntry .. | .firmwareStop ..
  | .contextSave .. | .resumeRestore .. | .bootStart | .ready | .readyTimeout | .fatalCondition | .powerCheck ..
  | .powerShutdown | .frameDrop .. | .hostRmaWrite .. | .hostRmaRead .. | .remotePut .. | .putAck ..
  | .remoteGet .. | .scpUnknownOpcode .. | .sessionOpen .. | .slotLoad .. | .slotPin .. | .slotRevoke ..
  | .invoke .. | .contractSet .. | .contractSetParams .. | .contractSetPeer .. | .contractSetDevid ..
  | .contractSetKey .. | .map .. | .unmap .. | .migratePage .. | .migrateExport .. | .migrateImport ..
  | .keyLoad .. | .keyErase .. | .preempt .. | .resume .. | .resumeRetry .. | .resumeRefuse .. | .ctxReset ..
  | .resync .. | .telemetryPower .. | .telemetryShutter .. | .telemetryFaults .. | .telemetryPorts ..
  | .fwUpdate .. | .guiltClear .. | .calendarSet .. | .illegalOp | .instPerm .. | .powerLoss | .getResponse .. => false
  | .tok tk => role.isSeq && !(tk == Tok.zero)
  | .loop _ _ len => role.isSeq && !(len == 0)
  | .loopRegX _ _ len => role.isX && !(len == 0)
  | .loopReg _ _ len => role.isA && !(len == 0)
  | .loopr _ _ len => role == .c && !(len == 0)
  | .looprReg _ _ len => role == .c && !(len == 0)
  | .loopx _ aC _ len => (role == .l || role == .c) && !(len == 0) && !(aC == 0)
  | .brc _ r _ => role.isSeq && !(r == 0) && (role.isX || r.val < 16)
  | .csrr _ _ csr => role.isX && csr.readable role
  | .csrw _ csr _ => role.isX && csr.writable role && !csr.hasOwnRow
  | .vsetsh _ _ pack _ => role == .c && !(pack == 3)
  | .vsetshReg _ _ pack aC => role == .c && !(pack == 3) && !(aC == 0)
  | .vrepReg _ aC _ _ _ => role == .c && !(aC == 0)
  | .msetField _ cls _ field _ => role == .c && cls.hasField field.toNat
  | .tld _ _ _ _ tr tg _ _ _ => role.isT && (tr || !tg)
  | .tst _ _ _ _ tr tg _ _ => role.isT && (tr || !tg)
  | .tcpy _ _ _ _ tr tg _ => role.isT && (tr || !tg)
  | .emov d _ => role == .hinge && destOk d
  | .eli d _ => role == .hinge && destOk d
  | .eadd d _ _ => role == .hinge && destOk d
  | .esub d _ _ => role == .hinge && destOk d
  | .emul d _ _ => role == .hinge && destOk d
  | .emin d _ _ => role == .hinge && destOk d
  | .emax d _ _ => role == .hinge && destOk d
  | .eand d _ _ => role == .hinge && destOk d
  | .eor d _ _ => role == .hinge && destOk d
  | .eshl d _ _ => role == .hinge && destOk d
  | .eshr d _ _ => role == .hinge && destOk d
  | .ecmp d _ _ cond => role == .hinge && destOk d && cond.toNat < 6
  | .esel d _ _ _ => role == .hinge && destOk d

end Sys2Proof
end

