-- ==== Sys2Proof/Decode.lean ====
section
/-! DEFINITION. From words to instructions and back (spec/03_encodings.md R42 to R58): the decoder of each stream's
map, total and rejecting what the tests 1 to 4 of R44 reject, and the encoder from the same tables. Test 5 of R44 needs
the word after a `vrep` and is made where a word is fetched (Machine/Ops.lean). -/

namespace Sys2Proof

/-- Bits [lo + n - 1 : lo] of a word (R18). -/
def bits (w lo n : Nat) : Nat := w / 2 ^ lo % 2 ^ n

/-- Test 3 and test 4 of R44 on one word: nothing is decoded when the condition fails. -/
def only (ok : Bool) (i : Option Instr) : Option Instr := if ok then i else none

/-- The x-register (or any 6-bit number) named at bit `lo` (R46). -/
def xAt (w lo : Nat) : Fin 64 := ⟨bits w lo 6, Nat.mod_lt _ (by decide)⟩

/-- The f-register named by a 5-bit field at `lo` (R46, Table 3.3). -/
def fAt (w lo : Nat) : FReg := ⟨bits w lo 5, Nat.mod_lt _ (by decide)⟩

/-- The f-register named by a 6-bit field at `lo`: bit 5 must be zero (R46). -/
def f6At (w lo : Nat) : Option FReg := if bits w (lo + 5) 1 = 0 then some (fAt w lo) else none

/-- The a-register (or any 4-bit number) named at bit `lo` (R46). -/
def aAt (w lo : Nat) : Fin 16 := ⟨bits w lo 4, Nat.mod_lt _ (by decide)⟩

/-- The predicate named at bit `lo` (R54). -/
def pAt (w lo : Nat) : PReg := ⟨bits w lo 3, Nat.mod_lt _ (by decide)⟩

/-- The immediate of `n` bits at bit `lo`. -/
def bvAt (w lo n : Nat) : BitVec n := BitVec.ofNat n (bits w lo n)

/-- One qualifier bit (R13). -/
def flagAt (w lo : Nat) : Bool := bits w lo 1 == 1

/-- A source operand code (R10, Table 1.2). -/
def vsrcAt (w lo : Nat) : Option VSrc :=
  if h : bits w lo 6 < 56 then some (.reg ⟨bits w lo 6, h⟩)
  else if h : bits w lo 6 - 56 < 4 then some (.port ⟨bits w lo 6 - 56, h⟩)
  else if bits w lo 6 = 62 then some .zero else none

/-- A destination operand code (R10, R54). -/
def vdstAt (w lo : Nat) : Option VDst :=
  if h : bits w lo 6 < 56 then some (.reg ⟨bits w lo 6, h⟩)
  else if bits w lo 6 = 60 then some (.port 0)
  else if bits w lo 6 = 61 then some (.port 1)
  else if bits w lo 6 = 62 then some .zero else none

/-- The destination of `vld`: codes 0 to 55 (R55). -/
def vregAt (w lo : Nat) : Option VReg :=
  if h : bits w lo 6 < 56 then some ⟨bits w lo 6, h⟩ else none

/-- The source of `vst` and `vmva`: codes 0 to 55 or 62 (R54, R55). -/
def vplainAt (w lo : Nat) : Option VPlain :=
  if h : bits w lo 6 < 56 then some (.reg ⟨bits w lo 6, h⟩)
  else if bits w lo 6 = 62 then some .zero else none

/-- The port of `vport`: 0 to 5 (R55). -/
def portAt (w lo : Nat) : Option (Fin 6) := if h : bits w lo 3 < 6 then some ⟨bits w lo 3, h⟩ else none

/-- The scope of `pub` and `acq`: codes 0 to 5 (Table 3.4). -/
def scopeAt (w lo : Nat) : Option Scope :=
  match bits w lo 3 with
  | 0 => some .crew
  | 1 => some .core
  | 2 => some .team
  | 3 => some .die
  | 4 => some .dev
  | 5 => some .dom
  | _ => none

/-- The class of `mset`: 0 to 2 (R56). -/
def classAt (w lo : Nat) : Option MClass :=
  match bits w lo 4 with
  | 0 => some .ring
  | 1 => some .tile
  | 2 => some .drain
  | _ => none

/-- The CSR of a number of Table 5.1 (R85). -/
def csrAt (w lo : Nat) : Option Csr :=
  match bits w lo 12 with
  | 0x000 => some .blockid
  | 0x001 => some .teamid
  | 0x002 => some .teamsz
  | 0x003 => some .nblocks
  | 0x004 => some .crewid
  | 0x005 => some .coreid
  | 0x006 => some .dieid
  | 0x007 => some .devid
  | 0x008 => some .ctxid
  | 0x009 => some .dom
  | 0x020 => some .part
  | 0x021 => some .desctab
  | 0x022 => some .cycle
  | 0x023 => some .rep
  | 0x024 => some .rung
  | 0x025 => some .epoch
  | 0x026 => some .waitlim
  | 0x030 => some .trapcause
  | 0x031 => some .trapaddr
  | 0x032 => some .trappc
  | 0x033 => some .trapseq
  | 0x034 => some .trapcrew
  | 0x035 => some .fwshare
  | _ => if bits w (lo + 4) 8 = 1 then some (.b (aAt w lo)) else none

/-- The dest of an edge op: `e0` or `e6` to `e15` (R58). -/
def edestAt (w lo : Nat) : Option EReg :=
  if bits w lo 4 = 0 || 6 ≤ bits w lo 4 then some (aAt w lo) else none

/-- The token bits of a word (R43). -/
def tokAt (w : Nat) : Tok := ⟨flagAt w 31, flagAt w 30, flagAt w 29, flagAt w 28⟩

/-- The common control words, majors 0x00 to 0x07, in the streams that accept them (R47, Table 3.2). -/
def decodeCommon (role : Role) (tk : Tok) (major w : Nat) : Option Instr :=
  match major with
  | 0 => only (bits w 0 22 == 0) (some (if tk = Tok.zero then .nop else .tok tk))
  | 1 => some (.jmp tk (bvAt w 0 22))
  | 2 => only (!(bits w 0 11 == 0))
      (if bits w 21 1 = 0 then some (.loop tk (bvAt w 11 10) (bvAt w 0 11))
       else if role.isX then only (bits w 17 4 == 0) (some (.loopRegX tk (xAt w 11) (bvAt w 0 11)))
       else only (bits w 15 6 == 0) (some (.loopReg tk (aAt w 11) (bvAt w 0 11))))
  | 3 => only (role == .c && !(bits w 0 11 == 0))
      (if bits w 21 1 = 0 then some (.loopr tk (bvAt w 11 10) (bvAt w 0 11))
       else only (bits w 15 6 == 0) (some (.looprReg tk (aAt w 11) (bvAt w 0 11))))
  | 4 => only ((role == .l || role == .c) && bits w 11 3 == 0 && !(bits w 0 11 == 0) && !(bits w 18 4 == 0))
      (some (.loopx tk (aAt w 18) (aAt w 14) (bvAt w 0 11)))
  | 5 => only (!(bits w 16 6 == 0) && (role.isX || bits w 20 2 == 0)) (some (.brc tk (xAt w 16) (bvAt w 0 16)))
  | 6 => only (bits w 0 22 == 0) (some (.halt tk))
  | 7 => only (bits w 4 2 == 0) (match bits w 0 4 with
    | 0 => only (bits w 6 16 == 0) (some (.wait tk))
    | 1 => only (role == .c) (some (.rstp tk (bvAt w 6 16)))
    | _ => none)
  | _ => none

/-- The X majors 0x08 to 0x33 (R50, R52). -/
def decodeX (role : Role) (tk : Tok) (major w : Nat) : Option Instr :=
  match major with
  | 8 => (match bits w 0 4 with
    | 0 => some (.add tk (xAt w 16) (xAt w 10) (xAt w 4))
    | 1 => some (.sub tk (xAt w 16) (xAt w 10) (xAt w 4))
    | 2 => some (.and tk (xAt w 16) (xAt w 10) (xAt w 4))
    | 3 => some (.or tk (xAt w 16) (xAt w 10) (xAt w 4))
    | 4 => some (.xor tk (xAt w 16) (xAt w 10) (xAt w 4))
    | 5 => some (.shl tk (xAt w 16) (xAt w 10) (xAt w 4))
    | 6 => some (.shr tk (xAt w 16) (xAt w 10) (xAt w 4))
    | 7 => some (.sra tk (xAt w 16) (xAt w 10) (xAt w 4))
    | 8 => some (.slt tk (xAt w 16) (xAt w 10) (xAt w 4))
    | 9 => some (.sltn tk (xAt w 16) (xAt w 10) (xAt w 4))
    | 10 => some (.min tk (xAt w 16) (xAt w 10) (xAt w 4))
    | 11 => some (.max tk (xAt w 16) (xAt w 10) (xAt w 4))
    | 12 => some (.minn tk (xAt w 16) (xAt w 10) (xAt w 4))
    | 13 => some (.maxn tk (xAt w 16) (xAt w 10) (xAt w 4))
    | 14 => some (.mul tk (xAt w 16) (xAt w 10) (xAt w 4))
    | 15 => some (.mulh tk (xAt w 16) (xAt w 10) (xAt w 4))
    | _ => none)
  | 9 => (match bits w 0 4 with
    | 0 => some (.mulhn tk (xAt w 16) (xAt w 10) (xAt w 4))
    | 1 => some (.div tk (xAt w 16) (xAt w 10) (xAt w 4))
    | 2 => some (.divn tk (xAt w 16) (xAt w 10) (xAt w 4))
    | 3 => some (.rem tk (xAt w 16) (xAt w 10) (xAt w 4))
    | 4 => some (.remn tk (xAt w 16) (xAt w 10) (xAt w 4))
    | 5 => only (bits w 4 6 == 0) (some (.clz tk (xAt w 16) (xAt w 10)))
    | 6 => only (bits w 4 6 == 0) (some (.ctz tk (xAt w 16) (xAt w 10)))
    | 7 => only (bits w 4 6 == 0) (some (.popc tk (xAt w 16) (xAt w 10)))
    | 8 => only (bits w 4 6 == 0) (some (.bswap tk (xAt w 16) (xAt w 10)))
    | 9 => only (bits w 4 6 == 0) (some (.sextb tk (xAt w 16) (xAt w 10)))
    | 10 => only (bits w 4 6 == 0) (some (.sexth tk (xAt w 16) (xAt w 10)))
    | 11 => only (bits w 4 6 == 0) (some (.sextw tk (xAt w 16) (xAt w 10)))
    | 12 => only (bits w 4 6 == 0) (some (.zextw tk (xAt w 16) (xAt w 10)))
    | 13 => some (.andn tk (xAt w 16) (xAt w 10) (xAt w 4))
    | 14 => some (.orn tk (xAt w 16) (xAt w 10) (xAt w 4))
    | _ => none)
  | 10 => some (.addi tk (xAt w 16) (xAt w 10) (bvAt w 0 10))
  | 11 => some (.andi tk (xAt w 16) (xAt w 10) (bvAt w 0 10))
  | 12 => some (.ori tk (xAt w 16) (xAt w 10) (bvAt w 0 10))
  | 13 => some (.xori tk (xAt w 16) (xAt w 10) (bvAt w 0 10))
  | 14 => (match bits w 8 2 with
    | 0 => only (bits w 6 2 == 0) (some (.shiShl tk (xAt w 16) (xAt w 10) (bvAt w 0 6)))
    | 1 => only (bits w 6 2 == 0) (some (.shiShr tk (xAt w 16) (xAt w 10) (bvAt w 0 6)))
    | 2 => only (bits w 6 2 == 0) (some (.shiSra tk (xAt w 16) (xAt w 10) (bvAt w 0 6)))
    | _ => none)
  | 15 => some (.slti tk (xAt w 16) (xAt w 10) (bvAt w 0 10))
  | 16 => some (.sltni tk (xAt w 16) (xAt w 10) (bvAt w 0 10))
  | 17 => some (.lim tk (xAt w 16) (bvAt w 0 16))
  | 18 => some (.lims tk (xAt w 16) (bvAt w 0 16))
  | 19 => (match bits w 2 5 with
    | 0 => only (bits w 0 2 == 0) (some (.fadd tk (fAt w 17) (fAt w 12) (fAt w 7)))
    | 1 => only (bits w 0 2 == 0) (some (.fsub tk (fAt w 17) (fAt w 12) (fAt w 7)))
    | 2 => only (bits w 0 2 == 0) (some (.fmul tk (fAt w 17) (fAt w 12) (fAt w 7)))
    | 3 => only (bits w 0 2 == 0) (some (.fdiv tk (fAt w 17) (fAt w 12) (fAt w 7)))
    | 4 => only (bits w 0 2 == 0 && bits w 7 5 == 0) (some (.fsqrt tk (fAt w 17) (fAt w 12)))
    | 5 => only (bits w 0 2 == 0) (some (.fmin tk (fAt w 17) (fAt w 12) (fAt w 7)))
    | 6 => only (bits w 0 2 == 0) (some (.fmax tk (fAt w 17) (fAt w 12) (fAt w 7)))
    | 7 => only (bits w 0 2 == 0 && bits w 7 5 == 0) (some (.fabs tk (fAt w 17) (fAt w 12)))
    | 8 => only (bits w 0 2 == 0 && bits w 7 5 == 0) (some (.fneg tk (fAt w 17) (fAt w 12)))
    | 9 => only (bits w 0 2 == 0) (some (.fsgnj tk (fAt w 17) (fAt w 12) (fAt w 7)))
    | _ => none)
  | 20 => (match bits w 0 2 with
    | 0 => some (.ffma tk (fAt w 17) (fAt w 12) (fAt w 7) (fAt w 2))
    | 1 => some (.ffms tk (fAt w 17) (fAt w 12) (fAt w 7) (fAt w 2))
    | 2 => some (.ffnma tk (fAt w 17) (fAt w 12) (fAt w 7) (fAt w 2))
    | 3 => some (.ffnms tk (fAt w 17) (fAt w 12) (fAt w 7) (fAt w 2))
    | _ => none)
  | 21 => (match bits w 0 4 with
    | 0 => only (bits w 4 6 == 0) ((f6At w 10).bind fun fa => some (.fcvtxf tk (xAt w 16) fa))
    | 1 => only (bits w 4 6 == 0) ((f6At w 10).bind fun fa => some (.fcvtxfz tk (xAt w 16) fa))
    | 2 => only (bits w 4 6 == 0) ((f6At w 16).bind fun fd => some (.fcvtfx tk fd (xAt w 10)))
    | 3 => only (bits w 4 6 == 0) ((f6At w 10).bind fun fa => some (.fmvxf tk (xAt w 16) fa))
    | 4 => only (bits w 4 6 == 0) ((f6At w 16).bind fun fd => some (.fmvfx tk fd (xAt w 10)))
    | 5 => (f6At w 10).bind fun fa => (f6At w 4).bind fun fb => some (.feq tk (xAt w 16) fa fb)
    | 6 => (f6At w 10).bind fun fa => (f6At w 4).bind fun fb => some (.flt tk (xAt w 16) fa fb)
    | 7 => (f6At w 10).bind fun fa => (f6At w 4).bind fun fb => some (.fle tk (xAt w 16) fa fb)
    | _ => none)
  | 22 => some (.ld tk (bvAt w 8 2) (xAt w 16) (xAt w 10) (bvAt w 0 8))
  | 23 => some (.ldn tk (bvAt w 8 2) (xAt w 16) (xAt w 10) (bvAt w 0 8))
  | 24 => some (.st tk (bvAt w 8 2) (xAt w 16) (xAt w 10) (bvAt w 0 8))
  | 25 => some (.pld tk (bvAt w 8 2) (xAt w 16) (xAt w 10) (bvAt w 0 8))
  | 26 => some (.pldn tk (bvAt w 8 2) (xAt w 16) (xAt w 10) (bvAt w 0 8))
  | 27 => some (.pst tk (bvAt w 8 2) (xAt w 16) (xAt w 10) (bvAt w 0 8))
  | 28 => only (bits w 8 2 == 2) ((f6At w 16).bind fun fd => some (.fld tk fd (xAt w 10) (bvAt w 0 8)))
  | 29 => only (bits w 8 2 == 2) ((f6At w 16).bind fun fs => some (.fst tk fs (xAt w 10) (bvAt w 0 8)))
  | 30 => only (bits w 8 2 == 2) ((f6At w 16).bind fun fd => some (.pfld tk fd (xAt w 10) (bvAt w 0 8)))
  | 31 => only (bits w 8 2 == 2) ((f6At w 16).bind fun fs => some (.pfst tk fs (xAt w 10) (bvAt w 0 8)))
  | 32 => some (.beq tk (xAt w 16) (xAt w 10) (bvAt w 0 10))
  | 33 => some (.bne tk (xAt w 16) (xAt w 10) (bvAt w 0 10))
  | 34 => some (.blt tk (xAt w 16) (xAt w 10) (bvAt w 0 10))
  | 35 => some (.bge tk (xAt w 16) (xAt w 10) (bvAt w 0 10))
  | 36 => some (.bltn tk (xAt w 16) (xAt w 10) (bvAt w 0 10))
  | 37 => some (.bgen tk (xAt w 16) (xAt w 10) (bvAt w 0 10))
  | 38 => some (.call tk (bvAt w 0 22))
  | 39 => only (bits w 0 10 == 0 && bits w 16 6 == 0) (some (.jr tk (xAt w 10)))
  | 40 => only (bits w 12 4 == 0) ((csrAt w 0).bind fun csr =>
      only (csr.readable role) (some (.csrr tk (xAt w 16) csr)))
  | 41 => only (bits w 12 4 == 0) ((csrAt w 0).bind fun csr =>
      only (csr.writable role) (some (match csr with
        | .waitlim => .waitlimWrite tk (xAt w 16)
        | .desctab => .desctabWrite tk (xAt w 16)
        | .fwshare => .fwshareWrite tk (xAt w 16)
        | c => .csrw tk c (xAt w 16))))
  | 42 => only (bits w 16 6 == 0) (some (.trap tk (bvAt w 0 16)))
  | 43 => only (role == .fw && bits w 0 22 == 0) (some (.eret tk))
  | 44 => (match bits w 0 4 with
    | 0 => only (bits w 16 6 == 0) (some (.binit tk (xAt w 10) (xAt w 4)))
    | 1 => only (bits w 4 6 == 0 && bits w 16 6 == 0) (some (.barv tk (xAt w 10)))
    | 2 => only (bits w 4 6 == 0 && bits w 16 6 == 0) (some (.bard tk (xAt w 10)))
    | 3 => only (bits w 16 6 == 0) (some (.bart tk (xAt w 10) (xAt w 4)))
    | 4 => only (bits w 16 6 == 0) (some (.bwait tk (xAt w 10) (xAt w 4)))
    | 5 => only (bits w 4 6 == 0) (some (.btest tk (xAt w 16) (xAt w 10)))
    | _ => none)
  | 45 => (match bits w 0 4 with
    | 0 => only (bits w 4 3 == 0 && bits w 10 12 == 0) ((scopeAt w 7).bind fun scope => some (.pub tk scope))
    | 1 => only (bits w 4 3 == 0 && bits w 10 12 == 0) ((scopeAt w 7).bind fun scope => some (.acq tk scope))
    | _ => none)
  | 46 => (match bits w 0 4 with
    | 0 => only (bits w 16 6 == 0) (some (.mbput tk (xAt w 10) (xAt w 4)))
    | 1 => only (bits w 4 6 == 0) (some (.mbget tk (xAt w 16) (xAt w 10)))
    | 2 => only (bits w 4 6 == 0) (some (.mbpoll tk (xAt w 16) (xAt w 10)))
    | _ => none)
  | 47 => only (bits w 16 6 == 0 && bits w 0 4 == 0) (some (.discard tk (xAt w 10) (xAt w 4)))
  | 48 => (match bits w 0 4 with
    | 0 => some (.pamoAdd tk (xAt w 16) (xAt w 10) (xAt w 4))
    | 1 => some (.pamoAddd tk (xAt w 16) (xAt w 10) (xAt w 4))
    | 2 => some (.pamoMin tk (xAt w 16) (xAt w 10) (xAt w 4))
    | 3 => some (.pamoMax tk (xAt w 16) (xAt w 10) (xAt w 4))
    | 4 => some (.pamoMinn tk (xAt w 16) (xAt w 10) (xAt w 4))
    | 5 => some (.pamoMaxn tk (xAt w 16) (xAt w 10) (xAt w 4))
    | 6 => some (.pamoSwp tk (xAt w 16) (xAt w 10) (xAt w 4))
    | 7 => some (.pamoCas tk (xAt w 16) (xAt w 10) (xAt w 4))
    | _ => none)
  | 49 => (match bits w 0 4 with
    | 0 => only (bits w 4 6 == 0) (some (.gnew tk (xAt w 16) (xAt w 10)))
    | 1 => only (bits w 4 6 == 0) (some (.gfork tk (xAt w 16) (xAt w 10)))
    | 2 => some (.gadv tk (xAt w 16) (xAt w 10) (xAt w 4))
    | 3 => only (bits w 16 6 == 0) (some (.gmask tk (xAt w 10) (xAt w 4)))
    | 4 => some (.groll tk (xAt w 16) (xAt w 10) (xAt w 4))
    | 5 => only (bits w 4 6 == 0 && bits w 16 6 == 0) (some (.gfree tk (xAt w 10)))
    | 6 => only (bits w 4 6 == 0) (some (.gstat tk (xAt w 16) (xAt w 10)))
    | _ => none)
  | 50 => (match bits w 0 4 with
    | 0 => only (bits w 4 6 == 0) (some (.sdraw tk (xAt w 16) (xAt w 10)))
    | 1 => only (bits w 4 6 == 0) (some (.sstat tk (xAt w 16) (xAt w 10)))
    | _ => none)
  | 51 => (match bits w 0 4 with
    | 0 => only (bits w 16 6 == 0) (some (.hset tk (xAt w 10) (xAt w 4)))
    | 1 => only (bits w 4 6 == 0 && bits w 16 6 == 0) (some (.hrun tk (xAt w 10)))
    | 2 => only (bits w 4 6 == 0) (some (.hstat tk (xAt w 16) (xAt w 10)))
    | 3 => only (bits w 4 6 == 0 && bits w 16 6 == 0) (some (.hforce tk (xAt w 10)))
    | _ => none)
  | _ => none

/-- The a-register words of L, C and S, majors 0x08 to 0x0B (R51, R52). -/
def decodeA (tk : Tok) (major w : Nat) : Option Instr :=
  match major with
  | 8 => (match bits w 0 4 with
    | 0 => only (bits w 4 6 == 0) (some (.aAdd tk (aAt w 18) (aAt w 14) (aAt w 10)))
    | 1 => only (bits w 4 6 == 0) (some (.aSub tk (aAt w 18) (aAt w 14) (aAt w 10)))
    | 2 => only (bits w 4 6 == 0) (some (.aShl tk (aAt w 18) (aAt w 14) (aAt w 10)))
    | 3 => only (bits w 4 6 == 0) (some (.aShr tk (aAt w 18) (aAt w 14) (aAt w 10)))
    | 4 => only (bits w 4 6 == 0) (some (.aSra tk (aAt w 18) (aAt w 14) (aAt w 10)))
    | 5 => only (bits w 4 6 == 0) (some (.aMul tk (aAt w 18) (aAt w 14) (aAt w 10)))
    | 6 => only (bits w 4 6 == 0) (some (.aMin tk (aAt w 18) (aAt w 14) (aAt w 10)))
    | 7 => only (bits w 4 6 == 0) (some (.aMax tk (aAt w 18) (aAt w 14) (aAt w 10)))
    | 8 => only (bits w 4 6 == 0) (some (.aAnd tk (aAt w 18) (aAt w 14) (aAt w 10)))
    | 9 => only (bits w 4 6 == 0) (some (.aOr tk (aAt w 18) (aAt w 14) (aAt w 10)))
    | 10 => only (bits w 4 6 == 0) (some (.aXor tk (aAt w 18) (aAt w 14) (aAt w 10)))
    | _ => none)
  | 9 => some (.aaddi tk (aAt w 18) (aAt w 14) (bvAt w 0 14))
  | 10 => only (bits w 16 2 == 0) (some (.ali tk (aAt w 18) (bvAt w 0 16)))
  | 11 => only (bits w 16 2 == 0) (some (.alis tk (aAt w 18) (bvAt w 0 16)))
  | _ => none

/-- The vector and matrix majors of C, 0x0C to 0x3B (R53 to R56). -/
def decodeC (tk : Tok) (major w : Nat) : Option Instr :=
  match major with
  | 12 => only (bits w 0 1 == 0)
      ((vdstAt w 13).bind fun vd => (vsrcAt w 7).bind fun va => (vsrcAt w 1).bind fun vb => some (.vadd tk (pAt w 19) vd va vb))
  | 13 => only (bits w 0 1 == 0)
      ((vdstAt w 13).bind fun vd => (vsrcAt w 7).bind fun va => (vsrcAt w 1).bind fun vb => some (.vsub tk (pAt w 19) vd va vb))
  | 14 => only (bits w 0 1 == 0)
      ((vdstAt w 13).bind fun vd => (vsrcAt w 7).bind fun va => (vsrcAt w 1).bind fun vb => some (.vmul tk (pAt w 19) vd va vb))
  | 15 => only (bits w 0 1 == 0)
      ((vdstAt w 13).bind fun vd => (vsrcAt w 7).bind fun va => (vsrcAt w 1).bind fun vb => some (.vfma tk (pAt w 19) vd va vb))
  | 16 => only (bits w 0 1 == 0)
      ((vdstAt w 13).bind fun vd => (vsrcAt w 7).bind fun va => (vsrcAt w 1).bind fun vb => some (.vmin tk (pAt w 19) vd va vb))
  | 17 => only (bits w 0 1 == 0)
      ((vdstAt w 13).bind fun vd => (vsrcAt w 7).bind fun va => (vsrcAt w 1).bind fun vb => some (.vmax tk (pAt w 19) vd va vb))
  | 18 => (match bits w 0 1 with
    | 0 => only (bits w 1 6 == 62)
        ((vdstAt w 13).bind fun vd => (vsrcAt w 7).bind fun va => some (.vabs tk (pAt w 19) vd va))
    | 1 => only (bits w 1 6 == 62)
        ((vdstAt w 13).bind fun vd => (vsrcAt w 7).bind fun va => some (.vneg tk (pAt w 19) vd va))
    | _ => none)
  | 19 => only (bits w 0 1 == 0)
      ((vdstAt w 13).bind fun vd => (vsrcAt w 7).bind fun va => (vsrcAt w 1).bind fun vb => some (.vand tk (pAt w 19) vd va vb))
  | 20 => only (bits w 0 1 == 0)
      ((vdstAt w 13).bind fun vd => (vsrcAt w 7).bind fun va => (vsrcAt w 1).bind fun vb => some (.vor tk (pAt w 19) vd va vb))
  | 21 => only (bits w 0 1 == 0)
      ((vdstAt w 13).bind fun vd => (vsrcAt w 7).bind fun va => (vsrcAt w 1).bind fun vb => some (.vxor tk (pAt w 19) vd va vb))
  | 22 => only (bits w 0 1 == 0)
      ((vdstAt w 13).bind fun vd => (vsrcAt w 7).bind fun va => (vsrcAt w 1).bind fun vb => some (.vshl tk (pAt w 19) vd va vb))
  | 23 => (match bits w 0 1 with
    | 0 => (vdstAt w 13).bind fun vd => (vsrcAt w 7).bind fun va => (vsrcAt w 1).bind fun vb =>
        some (.vshr tk (pAt w 19) vd va vb)
    | 1 => (vdstAt w 13).bind fun vd => (vsrcAt w 7).bind fun va => (vsrcAt w 1).bind fun vb =>
        some (.vsra tk (pAt w 19) vd va vb)
    | _ => none)
  | 24 => only (bits w 16 3 == 0 && bits w 0 1 == 0)
      ((vsrcAt w 7).bind fun va => (vsrcAt w 1).bind fun vb => some (.vcmpeq tk (pAt w 19) (pAt w 13) va vb))
  | 25 => only (bits w 16 3 == 0 && bits w 0 1 == 0)
      ((vsrcAt w 7).bind fun va => (vsrcAt w 1).bind fun vb => some (.vcmplt tk (pAt w 19) (pAt w 13) va vb))
  | 26 => only (bits w 16 3 == 0 && bits w 0 1 == 0)
      ((vsrcAt w 7).bind fun va => (vsrcAt w 1).bind fun vb => some (.vcmple tk (pAt w 19) (pAt w 13) va vb))
  | 27 => only (bits w 0 1 == 0)
      ((vdstAt w 13).bind fun vd => (vsrcAt w 7).bind fun va => (vsrcAt w 1).bind fun vb => some (.vsel tk (pAt w 19) vd va vb))
  | 28 => (match bits w 0 1 with
    | 0 => only (bits w 5 2 == 0)
        ((vdstAt w 13).bind fun vd => (vsrcAt w 7).bind fun va => some (.vcvt tk (pAt w 19) vd va (bvAt w 1 4)))
    | 1 => only (bits w 5 2 == 0)
        ((vdstAt w 13).bind fun vd => (vsrcAt w 7).bind fun va => some (.vcvts tk (pAt w 19) vd va (bvAt w 1 4)))
    | _ => none)
  | 29 => only (bits w 1 6 == 62 && bits w 0 1 == 0)
      ((vdstAt w 13).bind fun vd => (vsrcAt w 7).bind fun va => some (.vrsq tk (pAt w 19) vd va))
  | 30 => only (bits w 1 6 == 62 && bits w 0 1 == 0)
      ((vdstAt w 13).bind fun vd => (vsrcAt w 7).bind fun va => some (.vrcp tk (pAt w 19) vd va))
  | 31 => only (bits w 1 6 == 62 && bits w 0 1 == 0)
      ((vdstAt w 13).bind fun vd => (vsrcAt w 7).bind fun va => some (.vlog2 tk (pAt w 19) vd va))
  | 32 => only (bits w 1 6 == 62 && bits w 0 1 == 0)
      ((vdstAt w 13).bind fun vd => (vsrcAt w 7).bind fun va => some (.vexp2 tk (pAt w 19) vd va))
  | 33 => only (bits w 0 1 == 0)
      ((vdstAt w 13).bind fun vd => (vsrcAt w 7).bind fun va => (vsrcAt w 1).bind fun vb => some (.vperm tk (pAt w 19) vd va vb))
  | 34 => (match bits w 0 1 with
    | 0 => only (bits w 1 6 == 0 && bits w 11 2 == 0)
        ((vdstAt w 13).bind fun vd => some (.vbcA tk (pAt w 19) vd (aAt w 7)))
    | 1 => (vdstAt w 13).bind fun vd => (vsrcAt w 7).bind fun va => some (.vbcLane tk (pAt w 19) vd va (bvAt w 1 6))
    | _ => none)
  | 35 => only (bits w 0 1 == 0)
      ((vdstAt w 13).bind fun vd => (vsrcAt w 7).bind fun va => (vsrcAt w 1).bind fun vb => some (.vmaxi tk (pAt w 19) vd va vb))
  | 36 => only (bits w 1 6 == 62 && bits w 0 1 == 0)
      ((vdstAt w 13).bind fun vd => (vsrcAt w 7).bind fun va => some (.vsum tk (pAt w 19) vd va))
  | 37 => only (bits w 0 1 == 0)
      ((vdstAt w 13).bind fun vd => (vsrcAt w 7).bind fun va => (vsrcAt w 1).bind fun vb => some (.vrng tk (pAt w 19) vd va vb))
  | 38 => (vregAt w 13).bind fun vd => some (.vld tk (pAt w 19) vd (aAt w 9) (bvAt w 0 9))
  | 39 => (vplainAt w 13).bind fun vs => some (.vst tk (pAt w 19) vs (aAt w 9) (bvAt w 0 9))
  | 40 => (match bits w 0 1 with
    | 0 => only (bits w 17 5 == 0) ((vplainAt w 7).bind fun va => some (.vmvaLane tk (aAt w 13) va (bvAt w 1 6)))
    | 1 => only (bits w 1 12 == 0 && bits w 17 5 == 0) (some (.vmvaVsh tk (aAt w 13)))
    | _ => none)
  | 41 => only (!(bits w 16 2 == 3) && bits w 0 4 == 0)
      (if bits w 4 4 = 0 then some (.vsetsh tk (bvAt w 18 4) (bvAt w 16 2) (bvAt w 8 8))
       else only (bits w 8 8 == 0) (some (.vsetshReg tk (bvAt w 18 4) (bvAt w 16 2) (aAt w 4))))
  | 42 => (portAt w 19).bind fun port => only (bits w 0 10 == 0)
      (if bits w 10 1 = 0 then some (.vport tk port (aAt w 15) (aAt w 11))
       else only (bits w 11 8 == 0) (some (.vportIdle tk port)))
  | 43 => only (bits w 0 4 == 0)
      (if bits w 4 4 = 0 then some (.vrep tk (bvAt w 14 8) (bvAt w 12 2) (bvAt w 10 2) (bvAt w 8 2))
       else only (bits w 14 8 == 0) (some (.vrepReg tk (aAt w 4) (bvAt w 12 2) (bvAt w 10 2) (bvAt w 8 2))))
  | 44 => (match bits w 10 3 with
    | 0 => only (bits w 0 10 == 0) (some (.plogAnd tk (pAt w 19) (pAt w 16) (pAt w 13)))
    | 1 => only (bits w 0 10 == 0) (some (.plogOr tk (pAt w 19) (pAt w 16) (pAt w 13)))
    | 2 => only (bits w 0 10 == 0) (some (.plogXor tk (pAt w 19) (pAt w 16) (pAt w 13)))
    | 3 => only (bits w 0 10 == 0) (some (.plogAndn tk (pAt w 19) (pAt w 16) (pAt w 13)))
    | 4 => only (bits w 0 10 == 0 && bits w 13 3 == 0) (some (.plogNot tk (pAt w 19) (pAt w 16)))
    | _ => none)
  | 45 => only (bits w 0 1 == 0)
      ((vdstAt w 13).bind fun vd => (vsrcAt w 7).bind fun va => (vsrcAt w 1).bind fun vb => some (.vrqnt tk (pAt w 19) vd va vb))
  | 46 => only (bits w 0 1 == 0)
      ((vdstAt w 13).bind fun vd => (vsrcAt w 7).bind fun va => (vsrcAt w 1).bind fun vb => some (.vclamp tk (pAt w 19) vd va vb))
  | 47 => only (bits w 1 6 == 62 && bits w 0 1 == 0)
      ((vdstAt w 13).bind fun vd => (vsrcAt w 7).bind fun va => some (.vpopc tk (pAt w 19) vd va))
  | 48 => only (bits w 0 22 == 0) (some (.mlease tk))
  | 49 => only (bits w 0 22 == 0) (some (.mfree tk))
  | 50 => (classAt w 18).bind fun cls => only (bits w 0 6 == 0)
      (if bits w 10 4 = 15 then some (.msetImage tk cls (aAt w 14) (aAt w 6))
       else only (cls.hasField (bits w 10 4)) (some (.msetField tk cls (aAt w 14) (bvAt w 10 4) (aAt w 6))))
  | 51 => only (bits w 0 6 == 0) (some (.mzero tk (bvAt w 6 16)))
  | 52 => some (.mma tk (aAt w 18) (aAt w 14) (aAt w 10) (bvAt w 2 8) (flagAt w 1) (flagAt w 0))
  | 53 => some (.mmag tk (aAt w 18) (aAt w 14) (aAt w 10) (bvAt w 2 8) (flagAt w 1) (flagAt w 0))
  | 54 => only (bits w 0 10 == 0) (some (.mhad tk (aAt w 18) (aAt w 14) (bvAt w 12 2) (bvAt w 10 2)))
  | 55 => only (bits w 0 14 == 0) (some (.mdrain tk (aAt w 18) (aAt w 14)))
  | 56 => only (bits w 0 13 == 0)
      (if bits w 13 1 = 0 then some (.mtag tk (aAt w 18) (aAt w 14))
       else only (bits w 18 4 == 0) (some (.mtagChk tk (aAt w 14))))
  | 57 => only (bits w 0 13 == 0)
      (if bits w 13 1 = 0 then some (.mreplay tk (aAt w 18) (aAt w 14))
       else only (bits w 14 4 == 0) (some (.mreplayChk tk (aAt w 18))))
  | 58 => only (bits w 0 18 == 0) (some (.mchk tk (aAt w 18)))
  | 59 => (match bits w 16 2 with
    | 0 => only (bits w 0 16 == 0) (some (.mringReset tk (aAt w 18)))
    | 1 => only (bits w 0 16 == 0) (some (.mringPop tk (aAt w 18)))
    | 2 => only (bits w 0 12 == 0) (some (.mringRead tk (aAt w 18) (aAt w 12)))
    | _ => none)
  | _ => none

/-- The transfer majors of L and S, 0x0C to 0x15 (R57). -/
def decodeT (tk : Tok) (major w : Nat) : Option Instr :=
  match major with
  | 12 => only (bits w 0 3 == 0 && !(bits w 6 1 == 1 && bits w 7 1 == 0))
      (some (.tld tk (xAt w 16) (aAt w 12) (aAt w 8) (flagAt w 7) (flagAt w 6) (flagAt w 5) (flagAt w 4) (flagAt w 3)))
  | 13 => only (bits w 0 4 == 0 && !(bits w 6 1 == 1 && bits w 7 1 == 0))
      (some (.tst tk (xAt w 16) (aAt w 12) (aAt w 8) (flagAt w 7) (flagAt w 6) (flagAt w 5) (flagAt w 4)))
  | 14 => only (bits w 0 3 == 0 && bits w 4 2 == 0 && !(bits w 6 1 == 1 && bits w 7 1 == 0))
      (some (.tcpy tk (xAt w 16) (aAt w 12) (aAt w 8) (flagAt w 7) (flagAt w 6) (flagAt w 3)))
  | 15 => only (bits w 0 8 == 0) (some (.tsend tk (xAt w 16) (aAt w 12) (aAt w 8)))
  | 16 => only (bits w 0 8 == 0) (some (.tadd tk (xAt w 16) (aAt w 12) (aAt w 8)))
  | 17 => only (bits w 0 5 == 0 && bits w 6 2 == 0) (some (.tgat tk (xAt w 16) (aAt w 12) (aAt w 8) (flagAt w 5)))
  | 18 => only (bits w 0 5 == 0 && bits w 6 2 == 0) (some (.tsct tk (xAt w 16) (aAt w 12) (aAt w 8) (flagAt w 5)))
  | 19 => only (bits w 0 8 == 0 && bits w 12 4 == 0) (some (.tcrc tk (xAt w 16) (aAt w 8)))
  | 20 => only (bits w 0 12 == 0) (some (.tdesc tk (xAt w 16) (aAt w 12)))
  | 21 => only (bits w 0 16 == 0) (some (.ttouch tk (xAt w 16)))
  | _ => none

/-- An edge-op word (R58, Tables 3.12 and 3.13). -/
def decodeEdge (w : Nat) : Option Instr :=
  match bits w 27 5 with
  | 0 => only (bits w 0 27 == 0) (some .eend)
  | 1 => only (bits w 0 19 == 0) ((edestAt w 23).bind fun d => some (.emov d (aAt w 19)))
  | 2 => only (bits w 15 8 == 0) ((edestAt w 23).bind fun d => some (.eli d (bvAt w 0 15)))
  | 3 => only (bits w 0 15 == 0) ((edestAt w 23).bind fun d => some (.eadd d (aAt w 19) (aAt w 15)))
  | 4 => only (bits w 0 15 == 0) ((edestAt w 23).bind fun d => some (.esub d (aAt w 19) (aAt w 15)))
  | 5 => only (bits w 0 15 == 0) ((edestAt w 23).bind fun d => some (.emul d (aAt w 19) (aAt w 15)))
  | 6 => only (bits w 0 15 == 0) ((edestAt w 23).bind fun d => some (.emin d (aAt w 19) (aAt w 15)))
  | 7 => only (bits w 0 15 == 0) ((edestAt w 23).bind fun d => some (.emax d (aAt w 19) (aAt w 15)))
  | 8 => only (bits w 0 15 == 0) ((edestAt w 23).bind fun d => some (.eand d (aAt w 19) (aAt w 15)))
  | 9 => only (bits w 0 15 == 0) ((edestAt w 23).bind fun d => some (.eor d (aAt w 19) (aAt w 15)))
  | 10 => only (bits w 0 15 == 0) ((edestAt w 23).bind fun d => some (.eshl d (aAt w 19) (aAt w 15)))
  | 11 => only (bits w 0 15 == 0) ((edestAt w 23).bind fun d => some (.eshr d (aAt w 19) (aAt w 15)))
  | 12 => only (bits w 3 12 == 0 && (bits w 0 3 < 6 : Bool))
      ((edestAt w 23).bind fun d => some (.ecmp d (aAt w 19) (aAt w 15) (bvAt w 0 3)))
  | 13 => only (bits w 4 11 == 0) ((edestAt w 23).bind fun d => some (.esel d (aAt w 19) (aAt w 15) (aAt w 0)))
  | 14 => only (bits w 0 19 == 0 && bits w 23 4 == 0) (some (.emsg (aAt w 19)))
  | 15 => only (bits w 0 19 == 0 && bits w 23 4 == 0) (some (.efin (aAt w 19)))
  | _ => none

/-- A word whose major is in [27:22], in the map of one sequencer (R43, R47, R50, R51, R53, R57). -/
def decodeSeq (role : Role) (w : Nat) : Option Instr :=
  if bits w 22 6 < 8 then decodeCommon role (tokAt w) (bits w 22 6) w
  else if role.isX then decodeX role (tokAt w) (bits w 22 6) w
  else if bits w 22 6 < 12 then decodeA (tokAt w) (bits w 22 6) w
  else if role = .c then decodeC (tokAt w) (bits w 22 6) w
  else decodeT (tokAt w) (bits w 22 6) w

/-- Tests 1 to 4 of R44 and the reading of a word by the agent that fetched it; `none` is ILLEGAL_OP (for Hinge,
HINGE_FAULT). -/
def decode (role : Role) (w : W32) : Option Instr :=
  if role = .hinge then decodeEdge w.toNat else decodeSeq role w.toNat

/-! ### The encoder -/

/-- Table 1.2, sources. -/
def VSrc.code : VSrc → Nat
  | .reg n => n.val
  | .port n => 56 + n.val
  | .zero => 62

/-- Table 1.2, destinations. -/
def VDst.code : VDst → Nat
  | .reg n => n.val
  | .port n => 60 + n.val
  | .zero => 62

/-- Table 1.2, the sources of `vst` and `vmva`. -/
def VPlain.code : VPlain → Nat
  | .reg n => n.val
  | .zero => 62

/-- Table 3.4, scopes. -/
def Scope.code : Scope → Nat
  | .crew => 0
  | .core => 1
  | .team => 2
  | .die => 3
  | .dev => 4
  | .dom => 5

/-- R56, classes. -/
def MClass.code : MClass → Nat
  | .ring => 0
  | .tile => 1
  | .drain => 2

/-- Table 5.1, CSR numbers. -/
def Csr.code : Csr → Nat
  | .blockid => 0x000
  | .teamid => 0x001
  | .teamsz => 0x002
  | .nblocks => 0x003
  | .crewid => 0x004
  | .coreid => 0x005
  | .dieid => 0x006
  | .devid => 0x007
  | .ctxid => 0x008
  | .dom => 0x009
  | .b i => 0x010 + i.val
  | .part => 0x020
  | .desctab => 0x021
  | .cycle => 0x022
  | .rep => 0x023
  | .rung => 0x024
  | .epoch => 0x025
  | .waitlim => 0x026
  | .trapcause => 0x030
  | .trapaddr => 0x031
  | .trappc => 0x032
  | .trapseq => 0x033
  | .trapcrew => 0x034
  | .fwshare => 0x035

/-- The token field (Table 3.1). -/
def Tok.code (tk : Tok) : Nat :=
  tk.popP.toNat * 8 + tk.popN.toNat * 4 + tk.pushP.toNat * 2 + tk.pushN.toNat

/-- The sum of format fields, each a value and the bit it starts at. -/
def fieldSum : List (Nat × Nat) → Nat
  | [] => 0
  | (v, lo) :: rest => v * 2 ^ lo + fieldSum rest

/-- A sequencer word from its token bits, its major and its format fields (Table 3.1). -/
def wordOf (tk : Tok) (major : Nat) (fields : List (Nat × Nat)) : Nat :=
  tk.code * 2 ^ 28 + (major * 2 ^ 22 + fieldSum fields)

/-- An edge-op word from its op and its fields (Table 3.12). -/
def edgeWordOf (op : Nat) (fields : List (Nat × Nat)) : Nat := op * 2 ^ 27 + fieldSum fields

/-- The word of an instruction as a number, from the encoding tables of spec/03_encodings.md; 0 for a row that is no
word. -/
def encodeNat : Instr → Nat
  | .nop => 0
  | .tok tk => wordOf tk 0 []
  | .jmp tk off => wordOf tk 1 [(off.toNat, 0)]
  | .loop tk count len => wordOf tk 2 [(count.toNat, 11), (len.toNat, 0)]
  | .loopRegX tk r len => wordOf tk 2 [(1, 21), (r.val, 11), (len.toNat, 0)]
  | .loopReg tk r len => wordOf tk 2 [(1, 21), (r.val, 11), (len.toNat, 0)]
  | .loopr tk count len => wordOf tk 3 [(count.toNat, 11), (len.toNat, 0)]
  | .looprReg tk r len => wordOf tk 3 [(1, 21), (r.val, 11), (len.toNat, 0)]
  | .loopx tk aC aN len => wordOf tk 4 [(aC.val, 18), (aN.val, 14), (len.toNat, 0)]
  | .brc tk r off => wordOf tk 5 [(r.val, 16), (off.toNat, 0)]
  | .halt tk => wordOf tk 6 []
  | .wait tk => wordOf tk 7 []
  | .rstp tk mask => wordOf tk 7 [(mask.toNat, 6), (1, 0)]
  | .add tk rd ra rb => wordOf tk 8 [(rd.val, 16), (ra.val, 10), (rb.val, 4)]
  | .sub tk rd ra rb => wordOf tk 8 [(rd.val, 16), (ra.val, 10), (rb.val, 4), (1, 0)]
  | .and tk rd ra rb => wordOf tk 8 [(rd.val, 16), (ra.val, 10), (rb.val, 4), (2, 0)]
  | .or tk rd ra rb => wordOf tk 8 [(rd.val, 16), (ra.val, 10), (rb.val, 4), (3, 0)]
  | .xor tk rd ra rb => wordOf tk 8 [(rd.val, 16), (ra.val, 10), (rb.val, 4), (4, 0)]
  | .shl tk rd ra rb => wordOf tk 8 [(rd.val, 16), (ra.val, 10), (rb.val, 4), (5, 0)]
  | .shr tk rd ra rb => wordOf tk 8 [(rd.val, 16), (ra.val, 10), (rb.val, 4), (6, 0)]
  | .sra tk rd ra rb => wordOf tk 8 [(rd.val, 16), (ra.val, 10), (rb.val, 4), (7, 0)]
  | .slt tk rd ra rb => wordOf tk 8 [(rd.val, 16), (ra.val, 10), (rb.val, 4), (8, 0)]
  | .sltn tk rd ra rb => wordOf tk 8 [(rd.val, 16), (ra.val, 10), (rb.val, 4), (9, 0)]
  | .min tk rd ra rb => wordOf tk 8 [(rd.val, 16), (ra.val, 10), (rb.val, 4), (10, 0)]
  | .max tk rd ra rb => wordOf tk 8 [(rd.val, 16), (ra.val, 10), (rb.val, 4), (11, 0)]
  | .minn tk rd ra rb => wordOf tk 8 [(rd.val, 16), (ra.val, 10), (rb.val, 4), (12, 0)]
  | .maxn tk rd ra rb => wordOf tk 8 [(rd.val, 16), (ra.val, 10), (rb.val, 4), (13, 0)]
  | .mul tk rd ra rb => wordOf tk 8 [(rd.val, 16), (ra.val, 10), (rb.val, 4), (14, 0)]
  | .mulh tk rd ra rb => wordOf tk 8 [(rd.val, 16), (ra.val, 10), (rb.val, 4), (15, 0)]
  | .mulhn tk rd ra rb => wordOf tk 9 [(rd.val, 16), (ra.val, 10), (rb.val, 4)]
  | .div tk rd ra rb => wordOf tk 9 [(rd.val, 16), (ra.val, 10), (rb.val, 4), (1, 0)]
  | .divn tk rd ra rb => wordOf tk 9 [(rd.val, 16), (ra.val, 10), (rb.val, 4), (2, 0)]
  | .rem tk rd ra rb => wordOf tk 9 [(rd.val, 16), (ra.val, 10), (rb.val, 4), (3, 0)]
  | .remn tk rd ra rb => wordOf tk 9 [(rd.val, 16), (ra.val, 10), (rb.val, 4), (4, 0)]
  | .clz tk rd ra => wordOf tk 9 [(rd.val, 16), (ra.val, 10), (5, 0)]
  | .ctz tk rd ra => wordOf tk 9 [(rd.val, 16), (ra.val, 10), (6, 0)]
  | .popc tk rd ra => wordOf tk 9 [(rd.val, 16), (ra.val, 10), (7, 0)]
  | .bswap tk rd ra => wordOf tk 9 [(rd.val, 16), (ra.val, 10), (8, 0)]
  | .sextb tk rd ra => wordOf tk 9 [(rd.val, 16), (ra.val, 10), (9, 0)]
  | .sexth tk rd ra => wordOf tk 9 [(rd.val, 16), (ra.val, 10), (10, 0)]
  | .sextw tk rd ra => wordOf tk 9 [(rd.val, 16), (ra.val, 10), (11, 0)]
  | .zextw tk rd ra => wordOf tk 9 [(rd.val, 16), (ra.val, 10), (12, 0)]
  | .andn tk rd ra rb => wordOf tk 9 [(rd.val, 16), (ra.val, 10), (rb.val, 4), (13, 0)]
  | .orn tk rd ra rb => wordOf tk 9 [(rd.val, 16), (ra.val, 10), (rb.val, 4), (14, 0)]
  | .addi tk rd ra imm => wordOf tk 10 [(rd.val, 16), (ra.val, 10), (imm.toNat, 0)]
  | .andi tk rd ra imm => wordOf tk 11 [(rd.val, 16), (ra.val, 10), (imm.toNat, 0)]
  | .ori tk rd ra imm => wordOf tk 12 [(rd.val, 16), (ra.val, 10), (imm.toNat, 0)]
  | .xori tk rd ra imm => wordOf tk 13 [(rd.val, 16), (ra.val, 10), (imm.toNat, 0)]
  | .shiShl tk rd ra n => wordOf tk 14 [(rd.val, 16), (ra.val, 10), (n.toNat, 0)]
  | .shiShr tk rd ra n => wordOf tk 14 [(rd.val, 16), (ra.val, 10), (1, 8), (n.toNat, 0)]
  | .shiSra tk rd ra n => wordOf tk 14 [(rd.val, 16), (ra.val, 10), (2, 8), (n.toNat, 0)]
  | .slti tk rd ra imm => wordOf tk 15 [(rd.val, 16), (ra.val, 10), (imm.toNat, 0)]
  | .sltni tk rd ra imm => wordOf tk 16 [(rd.val, 16), (ra.val, 10), (imm.toNat, 0)]
  | .lim tk rd imm => wordOf tk 17 [(rd.val, 16), (imm.toNat, 0)]
  | .lims tk rd imm => wordOf tk 18 [(rd.val, 16), (imm.toNat, 0)]
  | .fadd tk fd fa fb => wordOf tk 19 [(fd.val, 17), (fa.val, 12), (fb.val, 7)]
  | .fsub tk fd fa fb => wordOf tk 19 [(fd.val, 17), (fa.val, 12), (fb.val, 7), (1, 2)]
  | .fmul tk fd fa fb => wordOf tk 19 [(fd.val, 17), (fa.val, 12), (fb.val, 7), (2, 2)]
  | .fdiv tk fd fa fb => wordOf tk 19 [(fd.val, 17), (fa.val, 12), (fb.val, 7), (3, 2)]
  | .fsqrt tk fd fa => wordOf tk 19 [(fd.val, 17), (fa.val, 12), (4, 2)]
  | .fmin tk fd fa fb => wordOf tk 19 [(fd.val, 17), (fa.val, 12), (fb.val, 7), (5, 2)]
  | .fmax tk fd fa fb => wordOf tk 19 [(fd.val, 17), (fa.val, 12), (fb.val, 7), (6, 2)]
  | .fabs tk fd fa => wordOf tk 19 [(fd.val, 17), (fa.val, 12), (7, 2)]
  | .fneg tk fd fa => wordOf tk 19 [(fd.val, 17), (fa.val, 12), (8, 2)]
  | .fsgnj tk fd fa fb => wordOf tk 19 [(fd.val, 17), (fa.val, 12), (fb.val, 7), (9, 2)]
  | .ffma tk fd fa fb fc => wordOf tk 20 [(fd.val, 17), (fa.val, 12), (fb.val, 7), (fc.val, 2)]
  | .ffms tk fd fa fb fc => wordOf tk 20 [(fd.val, 17), (fa.val, 12), (fb.val, 7), (fc.val, 2), (1, 0)]
  | .ffnma tk fd fa fb fc => wordOf tk 20 [(fd.val, 17), (fa.val, 12), (fb.val, 7), (fc.val, 2), (2, 0)]
  | .ffnms tk fd fa fb fc => wordOf tk 20 [(fd.val, 17), (fa.val, 12), (fb.val, 7), (fc.val, 2), (3, 0)]
  | .fcvtxf tk rd fa => wordOf tk 21 [(rd.val, 16), (fa.val, 10)]
  | .fcvtxfz tk rd fa => wordOf tk 21 [(rd.val, 16), (fa.val, 10), (1, 0)]
  | .fcvtfx tk fd ra => wordOf tk 21 [(fd.val, 16), (ra.val, 10), (2, 0)]
  | .fmvxf tk rd fa => wordOf tk 21 [(rd.val, 16), (fa.val, 10), (3, 0)]
  | .fmvfx tk fd ra => wordOf tk 21 [(fd.val, 16), (ra.val, 10), (4, 0)]
  | .feq tk rd fa fb => wordOf tk 21 [(rd.val, 16), (fa.val, 10), (fb.val, 4), (5, 0)]
  | .flt tk rd fa fb => wordOf tk 21 [(rd.val, 16), (fa.val, 10), (fb.val, 4), (6, 0)]
  | .fle tk rd fa fb => wordOf tk 21 [(rd.val, 16), (fa.val, 10), (fb.val, 4), (7, 0)]
  | .ld tk sz rd ra off => wordOf tk 22 [(rd.val, 16), (ra.val, 10), (sz.toNat, 8), (off.toNat, 0)]
  | .ldn tk sz rd ra off => wordOf tk 23 [(rd.val, 16), (ra.val, 10), (sz.toNat, 8), (off.toNat, 0)]
  | .st tk sz rs ra off => wordOf tk 24 [(rs.val, 16), (ra.val, 10), (sz.toNat, 8), (off.toNat, 0)]
  | .pld tk sz rd ra off => wordOf tk 25 [(rd.val, 16), (ra.val, 10), (sz.toNat, 8), (off.toNat, 0)]
  | .pldn tk sz rd ra off => wordOf tk 26 [(rd.val, 16), (ra.val, 10), (sz.toNat, 8), (off.toNat, 0)]
  | .pst tk sz rs ra off => wordOf tk 27 [(rs.val, 16), (ra.val, 10), (sz.toNat, 8), (off.toNat, 0)]
  | .fld tk fd ra off => wordOf tk 28 [(fd.val, 16), (ra.val, 10), (2, 8), (off.toNat, 0)]
  | .fst tk fs ra off => wordOf tk 29 [(fs.val, 16), (ra.val, 10), (2, 8), (off.toNat, 0)]
  | .pfld tk fd ra off => wordOf tk 30 [(fd.val, 16), (ra.val, 10), (2, 8), (off.toNat, 0)]
  | .pfst tk fs ra off => wordOf tk 31 [(fs.val, 16), (ra.val, 10), (2, 8), (off.toNat, 0)]
  | .beq tk ra rb off => wordOf tk 32 [(ra.val, 16), (rb.val, 10), (off.toNat, 0)]
  | .bne tk ra rb off => wordOf tk 33 [(ra.val, 16), (rb.val, 10), (off.toNat, 0)]
  | .blt tk ra rb off => wordOf tk 34 [(ra.val, 16), (rb.val, 10), (off.toNat, 0)]
  | .bge tk ra rb off => wordOf tk 35 [(ra.val, 16), (rb.val, 10), (off.toNat, 0)]
  | .bltn tk ra rb off => wordOf tk 36 [(ra.val, 16), (rb.val, 10), (off.toNat, 0)]
  | .bgen tk ra rb off => wordOf tk 37 [(ra.val, 16), (rb.val, 10), (off.toNat, 0)]
  | .call tk off => wordOf tk 38 [(off.toNat, 0)]
  | .jr tk ra => wordOf tk 39 [(ra.val, 10)]
  | .csrr tk rd csr => wordOf tk 40 [(rd.val, 16), (csr.code, 0)]
  | .csrw tk csr rs => wordOf tk 41 [(rs.val, 16), (csr.code, 0)]
  | .waitlimWrite tk rs => wordOf tk 41 [(rs.val, 16), (38, 0)]
  | .desctabWrite tk rs => wordOf tk 41 [(rs.val, 16), (33, 0)]
  | .fwshareWrite tk rs => wordOf tk 41 [(rs.val, 16), (53, 0)]
  | .trap tk imm => wordOf tk 42 [(imm.toNat, 0)]
  | .eret tk => wordOf tk 43 []
  | .binit tk ra rb => wordOf tk 44 [(ra.val, 10), (rb.val, 4)]
  | .barv tk ra => wordOf tk 44 [(ra.val, 10), (1, 0)]
  | .bard tk ra => wordOf tk 44 [(ra.val, 10), (2, 0)]
  | .bart tk ra rb => wordOf tk 44 [(ra.val, 10), (rb.val, 4), (3, 0)]
  | .bwait tk ra rb => wordOf tk 44 [(ra.val, 10), (rb.val, 4), (4, 0)]
  | .btest tk rd ra => wordOf tk 44 [(rd.val, 16), (ra.val, 10), (5, 0)]
  | .pub tk scope => wordOf tk 45 [(scope.code, 7)]
  | .acq tk scope => wordOf tk 45 [(scope.code, 7), (1, 0)]
  | .mbput tk ra rb => wordOf tk 46 [(ra.val, 10), (rb.val, 4)]
  | .mbget tk rd ra => wordOf tk 46 [(rd.val, 16), (ra.val, 10), (1, 0)]
  | .mbpoll tk rd ra => wordOf tk 46 [(rd.val, 16), (ra.val, 10), (2, 0)]
  | .discard tk ra rb => wordOf tk 47 [(ra.val, 10), (rb.val, 4)]
  | .pamoAdd tk rd ra rb => wordOf tk 48 [(rd.val, 16), (ra.val, 10), (rb.val, 4)]
  | .pamoAddd tk rd ra rb => wordOf tk 48 [(rd.val, 16), (ra.val, 10), (rb.val, 4), (1, 0)]
  | .pamoMin tk rd ra rb => wordOf tk 48 [(rd.val, 16), (ra.val, 10), (rb.val, 4), (2, 0)]
  | .pamoMax tk rd ra rb => wordOf tk 48 [(rd.val, 16), (ra.val, 10), (rb.val, 4), (3, 0)]
  | .pamoMinn tk rd ra rb => wordOf tk 48 [(rd.val, 16), (ra.val, 10), (rb.val, 4), (4, 0)]
  | .pamoMaxn tk rd ra rb => wordOf tk 48 [(rd.val, 16), (ra.val, 10), (rb.val, 4), (5, 0)]
  | .pamoSwp tk rd ra rb => wordOf tk 48 [(rd.val, 16), (ra.val, 10), (rb.val, 4), (6, 0)]
  | .pamoCas tk rd ra rb => wordOf tk 48 [(rd.val, 16), (ra.val, 10), (rb.val, 4), (7, 0)]
  | .gnew tk rd ra => wordOf tk 49 [(rd.val, 16), (ra.val, 10)]
  | .gfork tk rd ra => wordOf tk 49 [(rd.val, 16), (ra.val, 10), (1, 0)]
  | .gadv tk rd ra rb => wordOf tk 49 [(rd.val, 16), (ra.val, 10), (rb.val, 4), (2, 0)]
  | .gmask tk ra rb => wordOf tk 49 [(ra.val, 10), (rb.val, 4), (3, 0)]
  | .groll tk rd ra rb => wordOf tk 49 [(rd.val, 16), (ra.val, 10), (rb.val, 4), (4, 0)]
  | .gfree tk ra => wordOf tk 49 [(ra.val, 10), (5, 0)]
  | .gstat tk rd ra => wordOf tk 49 [(rd.val, 16), (ra.val, 10), (6, 0)]
  | .sdraw tk rd ra => wordOf tk 50 [(rd.val, 16), (ra.val, 10)]
  | .sstat tk rd ra => wordOf tk 50 [(rd.val, 16), (ra.val, 10), (1, 0)]
  | .hset tk ra rb => wordOf tk 51 [(ra.val, 10), (rb.val, 4)]
  | .hrun tk ra => wordOf tk 51 [(ra.val, 10), (1, 0)]
  | .hstat tk rd ra => wordOf tk 51 [(rd.val, 16), (ra.val, 10), (2, 0)]
  | .hforce tk ra => wordOf tk 51 [(ra.val, 10), (3, 0)]
  | .aAdd tk ad aa ab => wordOf tk 8 [(ad.val, 18), (aa.val, 14), (ab.val, 10)]
  | .aSub tk ad aa ab => wordOf tk 8 [(ad.val, 18), (aa.val, 14), (ab.val, 10), (1, 0)]
  | .aShl tk ad aa ab => wordOf tk 8 [(ad.val, 18), (aa.val, 14), (ab.val, 10), (2, 0)]
  | .aShr tk ad aa ab => wordOf tk 8 [(ad.val, 18), (aa.val, 14), (ab.val, 10), (3, 0)]
  | .aSra tk ad aa ab => wordOf tk 8 [(ad.val, 18), (aa.val, 14), (ab.val, 10), (4, 0)]
  | .aMul tk ad aa ab => wordOf tk 8 [(ad.val, 18), (aa.val, 14), (ab.val, 10), (5, 0)]
  | .aMin tk ad aa ab => wordOf tk 8 [(ad.val, 18), (aa.val, 14), (ab.val, 10), (6, 0)]
  | .aMax tk ad aa ab => wordOf tk 8 [(ad.val, 18), (aa.val, 14), (ab.val, 10), (7, 0)]
  | .aAnd tk ad aa ab => wordOf tk 8 [(ad.val, 18), (aa.val, 14), (ab.val, 10), (8, 0)]
  | .aOr tk ad aa ab => wordOf tk 8 [(ad.val, 18), (aa.val, 14), (ab.val, 10), (9, 0)]
  | .aXor tk ad aa ab => wordOf tk 8 [(ad.val, 18), (aa.val, 14), (ab.val, 10), (10, 0)]
  | .aaddi tk ad aa imm => wordOf tk 9 [(ad.val, 18), (aa.val, 14), (imm.toNat, 0)]
  | .ali tk ad imm => wordOf tk 10 [(ad.val, 18), (imm.toNat, 0)]
  | .alis tk ad imm => wordOf tk 11 [(ad.val, 18), (imm.toNat, 0)]
  | .vadd tk pg vd va vb => wordOf tk 12 [(pg.val, 19), (vd.code, 13), (va.code, 7), (vb.code, 1)]
  | .vsub tk pg vd va vb => wordOf tk 13 [(pg.val, 19), (vd.code, 13), (va.code, 7), (vb.code, 1)]
  | .vmul tk pg vd va vb => wordOf tk 14 [(pg.val, 19), (vd.code, 13), (va.code, 7), (vb.code, 1)]
  | .vfma tk pg vd va vb => wordOf tk 15 [(pg.val, 19), (vd.code, 13), (va.code, 7), (vb.code, 1)]
  | .vmin tk pg vd va vb => wordOf tk 16 [(pg.val, 19), (vd.code, 13), (va.code, 7), (vb.code, 1)]
  | .vmax tk pg vd va vb => wordOf tk 17 [(pg.val, 19), (vd.code, 13), (va.code, 7), (vb.code, 1)]
  | .vabs tk pg vd va => wordOf tk 18 [(pg.val, 19), (vd.code, 13), (va.code, 7), (62, 1)]
  | .vneg tk pg vd va => wordOf tk 18 [(pg.val, 19), (vd.code, 13), (va.code, 7), (62, 1), (1, 0)]
  | .vand tk pg vd va vb => wordOf tk 19 [(pg.val, 19), (vd.code, 13), (va.code, 7), (vb.code, 1)]
  | .vor tk pg vd va vb => wordOf tk 20 [(pg.val, 19), (vd.code, 13), (va.code, 7), (vb.code, 1)]
  | .vxor tk pg vd va vb => wordOf tk 21 [(pg.val, 19), (vd.code, 13), (va.code, 7), (vb.code, 1)]
  | .vshl tk pg vd va vb => wordOf tk 22 [(pg.val, 19), (vd.code, 13), (va.code, 7), (vb.code, 1)]
  | .vshr tk pg vd va vb => wordOf tk 23 [(pg.val, 19), (vd.code, 13), (va.code, 7), (vb.code, 1)]
  | .vsra tk pg vd va vb => wordOf tk 23 [(pg.val, 19), (vd.code, 13), (va.code, 7), (vb.code, 1), (1, 0)]
  | .vcmpeq tk pg pd va vb => wordOf tk 24 [(pg.val, 19), (pd.val, 13), (va.code, 7), (vb.code, 1)]
  | .vcmplt tk pg pd va vb => wordOf tk 25 [(pg.val, 19), (pd.val, 13), (va.code, 7), (vb.code, 1)]
  | .vcmple tk pg pd va vb => wordOf tk 26 [(pg.val, 19), (pd.val, 13), (va.code, 7), (vb.code, 1)]
  | .vsel tk pg vd va vb => wordOf tk 27 [(pg.val, 19), (vd.code, 13), (va.code, 7), (vb.code, 1)]
  | .vcvt tk pg vd va ty => wordOf tk 28 [(pg.val, 19), (vd.code, 13), (va.code, 7), (ty.toNat, 1)]
  | .vcvts tk pg vd va ty => wordOf tk 28 [(pg.val, 19), (vd.code, 13), (va.code, 7), (ty.toNat, 1), (1, 0)]
  | .vrsq tk pg vd va => wordOf tk 29 [(pg.val, 19), (vd.code, 13), (va.code, 7), (62, 1)]
  | .vrcp tk pg vd va => wordOf tk 30 [(pg.val, 19), (vd.code, 13), (va.code, 7), (62, 1)]
  | .vlog2 tk pg vd va => wordOf tk 31 [(pg.val, 19), (vd.code, 13), (va.code, 7), (62, 1)]
  | .vexp2 tk pg vd va => wordOf tk 32 [(pg.val, 19), (vd.code, 13), (va.code, 7), (62, 1)]
  | .vperm tk pg vd va vb => wordOf tk 33 [(pg.val, 19), (vd.code, 13), (va.code, 7), (vb.code, 1)]
  | .vbcA tk pg vd aS => wordOf tk 34 [(pg.val, 19), (vd.code, 13), (aS.val, 7)]
  | .vbcLane tk pg vd va k => wordOf tk 34 [(pg.val, 19), (vd.code, 13), (va.code, 7), (k.toNat, 1), (1, 0)]
  | .vmaxi tk pg vd va vb => wordOf tk 35 [(pg.val, 19), (vd.code, 13), (va.code, 7), (vb.code, 1)]
  | .vsum tk pg vd va => wordOf tk 36 [(pg.val, 19), (vd.code, 13), (va.code, 7), (62, 1)]
  | .vrng tk pg vd va vb => wordOf tk 37 [(pg.val, 19), (vd.code, 13), (va.code, 7), (vb.code, 1)]
  | .vld tk pg vd aB off => wordOf tk 38 [(pg.val, 19), (vd.val, 13), (aB.val, 9), (off.toNat, 0)]
  | .vst tk pg vs aB off => wordOf tk 39 [(pg.val, 19), (vs.code, 13), (aB.val, 9), (off.toNat, 0)]
  | .vmvaLane tk aD va k => wordOf tk 40 [(aD.val, 13), (va.code, 7), (k.toNat, 1)]
  | .vmvaVsh tk aD => wordOf tk 40 [(aD.val, 13), (1, 0)]
  | .vsetsh tk ty pack cnt => wordOf tk 41 [(ty.toNat, 18), (pack.toNat, 16), (cnt.toNat, 8)]
  | .vsetshReg tk ty pack aC => wordOf tk 41 [(ty.toNat, 18), (pack.toNat, 16), (aC.val, 4)]
  | .vport tk port aB aR => wordOf tk 42 [(port.val, 19), (aB.val, 15), (aR.val, 11)]
  | .vportIdle tk port => wordOf tk 42 [(port.val, 19), (1, 10)]
  | .vrep tk count sd sa sb => wordOf tk 43 [(count.toNat, 14), (sd.toNat, 12), (sa.toNat, 10), (sb.toNat, 8)]
  | .vrepReg tk aC sd sa sb => wordOf tk 43 [(sd.toNat, 12), (sa.toNat, 10), (sb.toNat, 8), (aC.val, 4)]
  | .plogAnd tk pd pa pb => wordOf tk 44 [(pd.val, 19), (pa.val, 16), (pb.val, 13)]
  | .plogOr tk pd pa pb => wordOf tk 44 [(pd.val, 19), (pa.val, 16), (pb.val, 13), (1, 10)]
  | .plogXor tk pd pa pb => wordOf tk 44 [(pd.val, 19), (pa.val, 16), (pb.val, 13), (2, 10)]
  | .plogAndn tk pd pa pb => wordOf tk 44 [(pd.val, 19), (pa.val, 16), (pb.val, 13), (3, 10)]
  | .plogNot tk pd pa => wordOf tk 44 [(pd.val, 19), (pa.val, 16), (4, 10)]
  | .vrqnt tk pg vd va vb => wordOf tk 45 [(pg.val, 19), (vd.code, 13), (va.code, 7), (vb.code, 1)]
  | .vclamp tk pg vd va vb => wordOf tk 46 [(pg.val, 19), (vd.code, 13), (va.code, 7), (vb.code, 1)]
  | .vpopc tk pg vd va => wordOf tk 47 [(pg.val, 19), (vd.code, 13), (va.code, 7), (62, 1)]
  | .mlease tk => wordOf tk 48 []
  | .mfree tk => wordOf tk 49 []
  | .msetImage tk cls idx aS => wordOf tk 50 [(cls.code, 18), (idx.val, 14), (15, 10), (aS.val, 6)]
  | .msetField tk cls idx field aS => wordOf tk 50 [(cls.code, 18), (idx.val, 14), (field.toNat, 10), (aS.val, 6)]
  | .mzero tk mask => wordOf tk 51 [(mask.toNat, 6)]
  | .mma tk t ra rb n ov ck => wordOf tk 52 [(t.val, 18), (ra.val, 14), (rb.val, 10), (n.toNat, 2),
      (ov.toNat, 1), (ck.toNat, 0)]
  | .mmag tk t ra rb n ov ck => wordOf tk 53 [(t.val, 18), (ra.val, 14), (rb.val, 10), (n.toNat, 2),
      (ov.toNat, 1), (ck.toNat, 0)]
  | .mhad tk rd rs order sign => wordOf tk 54 [(rd.val, 18), (rs.val, 14), (order.toNat, 12), (sign.toNat, 10)]
  | .mdrain tk t dd => wordOf tk 55 [(t.val, 18), (dd.val, 14)]
  | .mtag tk t aP => wordOf tk 56 [(t.val, 18), (aP.val, 14)]
  | .mtagChk tk aP => wordOf tk 56 [(aP.val, 14), (1, 13)]
  | .mreplay tk t aP => wordOf tk 57 [(t.val, 18), (aP.val, 14)]
  | .mreplayChk tk t => wordOf tk 57 [(t.val, 18), (1, 13)]
  | .mchk tk t => wordOf tk 58 [(t.val, 18)]
  | .mringReset tk rg => wordOf tk 59 [(rg.val, 18)]
  | .mringPop tk rg => wordOf tk 59 [(rg.val, 18), (1, 16)]
  | .mringRead tk rg aD => wordOf tk 59 [(rg.val, 18), (2, 16), (aD.val, 12)]
  | .tld tk td aP aB tr tg cv ck rg => wordOf tk 12 [(td.val, 16), (aP.val, 12), (aB.val, 8), (tr.toNat, 7),
      (tg.toNat, 6), (cv.toNat, 5), (ck.toNat, 4), (rg.toNat, 3)]
  | .tst tk td aP aB tr tg cv ck => wordOf tk 13 [(td.val, 16), (aP.val, 12), (aB.val, 8), (tr.toNat, 7),
      (tg.toNat, 6), (cv.toNat, 5), (ck.toNat, 4)]
  | .tcpy tk td aP aB tr tg rg => wordOf tk 14 [(td.val, 16), (aP.val, 12), (aB.val, 8), (tr.toNat, 7),
      (tg.toNat, 6), (rg.toNat, 3)]
  | .tsend tk td aP aB => wordOf tk 15 [(td.val, 16), (aP.val, 12), (aB.val, 8)]
  | .tadd tk td aP aB => wordOf tk 16 [(td.val, 16), (aP.val, 12), (aB.val, 8)]
  | .tgat tk td aP aB cv => wordOf tk 17 [(td.val, 16), (aP.val, 12), (aB.val, 8), (cv.toNat, 5)]
  | .tsct tk td aP aB cv => wordOf tk 18 [(td.val, 16), (aP.val, 12), (aB.val, 8), (cv.toNat, 5)]
  | .tcrc tk td aB => wordOf tk 19 [(td.val, 16), (aB.val, 8)]
  | .tdesc tk td aP => wordOf tk 20 [(td.val, 16), (aP.val, 12)]
  | .ttouch tk td => wordOf tk 21 [(td.val, 16)]
  | .eend => edgeWordOf 0 []
  | .emov d a => edgeWordOf 1 [(d.val, 23), (a.val, 19)]
  | .eli d imm => edgeWordOf 2 [(d.val, 23), (imm.toNat, 0)]
  | .eadd d a b => edgeWordOf 3 [(d.val, 23), (a.val, 19), (b.val, 15)]
  | .esub d a b => edgeWordOf 4 [(d.val, 23), (a.val, 19), (b.val, 15)]
  | .emul d a b => edgeWordOf 5 [(d.val, 23), (a.val, 19), (b.val, 15)]
  | .emin d a b => edgeWordOf 6 [(d.val, 23), (a.val, 19), (b.val, 15)]
  | .emax d a b => edgeWordOf 7 [(d.val, 23), (a.val, 19), (b.val, 15)]
  | .eand d a b => edgeWordOf 8 [(d.val, 23), (a.val, 19), (b.val, 15)]
  | .eor d a b => edgeWordOf 9 [(d.val, 23), (a.val, 19), (b.val, 15)]
  | .eshl d a b => edgeWordOf 10 [(d.val, 23), (a.val, 19), (b.val, 15)]
  | .eshr d a b => edgeWordOf 11 [(d.val, 23), (a.val, 19), (b.val, 15)]
  | .ecmp d a b cond => edgeWordOf 12 [(d.val, 23), (a.val, 19), (b.val, 15), (cond.toNat, 0)]
  | .esel d a b e => edgeWordOf 13 [(d.val, 23), (a.val, 19), (b.val, 15), (e.val, 0)]
  | .emsg a => edgeWordOf 14 [(a.val, 19)]
  | .efin a => edgeWordOf 15 [(a.val, 19)]
  | .tokenPush
  | .tokenTimeout
  | .barTimeout
  | .mboxTimeout
  | .combineUpdate _
  | .transferRetire _ _ _
  | .transferFault _ _ _
  | .matrixChunk _ _
  | .epochBoundary
  | .calendarFrame
  | .portbudPeriod
  | .fwshareWindow
  | .dispatchTeam
  | .blockStart _ _ _
  | .gmaskComplete _ _
  | .samplerServe _
  | .hingePushSuperstep _ _
  | .hingePullSuperstep _ _
  | .hingeFinalize _ _
  | .hingeCompletion _ _
  | .trapEntry _
  | .firmwareStop _
  | .contextSave _
  | .resumeRestore _
  | .bootStart
  | .ready
  | .readyTimeout
  | .fatalCondition
  | .powerCheck _
  | .powerShutdown
  | .frameDrop _
  | .hostRmaWrite _ _ _ _
  | .hostRmaRead _ _ _ _
  | .remotePut _ _
  | .putAck _ _ _
  | .remoteGet _
  | .scpUnknownOpcode _
  | .sessionOpen _
  | .slotLoad _
  | .slotPin _
  | .slotRevoke _
  | .invoke _
  | .contractSet _
  | .contractSetParams _
  | .contractSetPeer _
  | .contractSetDevid _
  | .contractSetKey _
  | .map _
  | .unmap _
  | .migratePage _
  | .migrateExport _
  | .migrateImport _
  | .keyLoad _
  | .keyErase _
  | .preempt _
  | .resume _
  | .resumeRetry _
  | .resumeRefuse _
  | .ctxReset _
  | .resync _
  | .telemetryPower _
  | .telemetryShutter _
  | .telemetryFaults _
  | .telemetryPorts _
  | .fwUpdate _
  | .guiltClear _
  | .calendarSet _
  | .illegalOp
  | .instPerm _
  | .powerLoss
  | .getResponse _ _ _ _ _ => 0

/-- The word of an instruction (R42 to R58). -/
def encode (i : Instr) : W32 := BitVec.ofNat 32 (encodeNat i)

/-- The four bytes of a word as memory holds it, little-endian (R42). -/
def wordBytes (w : W32) : List Byte :=
  [w.extractLsb' 0 8, w.extractLsb' 8 8, w.extractLsb' 16 8, w.extractLsb' 24 8]

/-- The word that four bytes hold, little-endian (R42). -/
def bytesWord (b : List Byte) : W32 :=
  BitVec.ofNat 32 ((b.getD 0 0).toNat + (b.getD 1 0).toNat * 2 ^ 8 + (b.getD 2 0).toNat * 2 ^ 16
    + (b.getD 3 0).toNat * 2 ^ 24)

/-! ### Reading a row of the opcode table

A word alone does not say which stream it belongs to: `spec/03_encodings.md` gives 0x9305_2338 three readings, one in L,
one in C and one in X. Where a row's bits are given without their stream, the reading taken is the one whose row fixes
the most bits (DESIGN CHOICE, log 14). -/

/-- About how many bits of a word the tables fix, for a word of this agent's map with this major. -/
def fixedBits (role : Role) (w : Nat) : Nat :=
  match role with
  | .hinge =>
    match bits w 27 5 with
    | 0 => 32
    | 1 => 24
    | 2 => 13
    | 12 => 17
    | 13 => 16
    | 14 => 28
    | 15 => 28
    | _ => 20
  | .x | .fw =>
    match bits w 22 6 with
    | 0 => 32
    | 8 => 10
    | 9 => if 5 ≤ bits w 0 4 && bits w 0 4 ≤ 12 then 16 else 10
    | 14 => 10
    | 19 => 13
    | 20 => 8
    | 21 => 13
    | 28 | 29 | 30 | 31 => 9
    | 39 => 22
    | 40 | 41 | 48 => 10
    | 42 => 12
    | 43 => 28
    | 44 | 46 | 47 | 49 | 50 | 51 => 16
    | 45 => 25
    | _ => 6
  | .c | .l | .s =>
    match bits w 22 6 with
    | 8 => 16
    | 9 => 6
    | 10 | 11 => 8
    | m => if role = .c then
        (if m < 38 then (if bits w 1 6 = 62 then 13 else 7)
         else match m with
          | 38 | 39 => 6
          | 40 => 9
          | 41 | 42 | 43 => 14
          | 44 => 16
          | 45 | 46 => 7
          | 47 => 13
          | 48 | 49 => 28
          | 50 | 51 => 12
          | 52 | 53 => 6
          | 54 => 16
          | 55 | 56 | 57 | 58 | 59 => 20
          | _ => 6)
      else (match m with
        | 12 => 9
        | 13 => 10
        | 14 => 11
        | 20 => 18
        | 21 => 22
        | _ => 14)

/-- The better of two readings, the first where they are equal. -/
def moreFixed (w : Nat) (a b : Option (Role × Instr)) : Option (Role × Instr) :=
  match a, b with
  | some x, some y => if fixedBits x.1 w < fixedBits y.1 w then some y else some x
  | some x, none => some x
  | none, y => y

/-- Words that are a row's own bits with every operand bit 0, where the count of fixed bits would take another row's
reading (log 14). -/
def ownRow (w : Nat) : Option Role :=
  if [0x08400000, 0x0B000000, 0x0B800000, 0x0BC00000, 0x0C800000, 0x0CC00000].contains w then some .x
  else if [0x0A000001, 0x0B000400, 0x0B000800, 0x0B000C00, 0x0B001000, 0x0C803C00, 0x0D000000, 0x0D400000, 0x0D800000,
      0x0DC00000, 0x0E000000, 0x0E400000, 0x0E800000, 0x0EC00000].contains w then some .c
  else if [0x10000000, 0x20000000, 0x30000000, 0x40000000, 0x50000000, 0x60000000, 0x70000000].contains w then some .hinge
  else none

/-- The reading of a bare word, and the agent whose word it is (log 14). -/
def tableReading (w : W32) : Option (Role × Instr) :=
  let as_ (r : Role) : Option (Role × Instr) := (decode r w).map fun i => (r, i)
  match ownRow w.toNat with
  | some r => as_ r
  | none =>
    moreFixed w.toNat (moreFixed w.toNat (moreFixed w.toNat (moreFixed w.toNat (as_ .x) (as_ .fw)) (as_ .c)) (as_ .l))
      (as_ .hinge)

/-- The word of an opcode-table row's bits: bit 0 the least significant, every bit from `nbits` up zero. -/
def tableWord (nbits w : Nat) : W32 := BitVec.ofNat 32 (w % 2 ^ nbits)

/-- What the decoder reads from a word numbered as the opcode table numbers it, laid out as four bytes, little-endian. -/
def decodeTableWord (nbits w : Nat) : Option Instr :=
  (tableReading (bytesWord (wordBytes (tableWord nbits w)))).map fun x => x.2

end Sys2Proof
end

