-- ==== Sys2Proof/Config.lean ====
section
/-! DEFINITION. What an implementation fixes, and the free values: constants with no body stand for what the spec
leaves open (notes/assumptions), so nothing can be proved of their values. -/

namespace Sys2Proof

/-- One turn of the machine: who moves next, and the inputs that arrive from outside (log 1). -/
inductive Turn where
  /-- a clock ends: combine ports, token queues and the periodic work of this clock are settled (R181, R96) -/
  | clock
  /-- a sequencer tries its next word (R177) -/
  | seq (core : CoreId) (crew : CrewIx) (stream : Stream)
  /-- the firmware context of a core takes an issue slot (R184) -/
  | fw (core : CoreId)
  /-- Hinge of a core executes the next word of the edge program it is evaluating (R250) -/
  | hinge (core : CoreId)
  /-- a copy engine reads units of its source and writes units of its destination, of the `n`-th transfer that a sequencer has
  in flight (R156, R204) -/
  | move (core : CoreId) (crew : CrewIx) (st : XferStream) (n : Nat) (reads writes : List Nat)
  /-- a step of an engine, of the N-die, or an event from outside: a row of the opcode table that is no word. An SCP
  command reaches the N-die (R308), or, with `accepted` set, is applied (R310) -/
  | event (i : Instr)
  /-- an uncorrectable pool word (R303): core and word number -/
  | poolUpset (core : CoreId) (word : Nat)
  /-- an uncorrectable HBM word (R303): physical address / 8 -/
  | hbmUpset (word : Nat)
  /-- a corrected single-bit error of a bank (`pool`) or of a stack (R303) -/
  | corrected (pool : Bool) (unit : Nat)
  /-- a parity error in a register of a sequencer (R303): register file and number; `dup` when a duplicate repairs it -/
  | regUpset (core : CoreId) (crew : CrewIx) (file : Nat) (reg : Nat) (dup : Bool)
  /-- the temperature of a C-die, or of the N-die, is measured (R319) -/
  | temperature (die : Option DieId) (value : Nat)
  /-- no agent moves -/
  | idle
  deriving DecidableEq, Repr, Inhabited

namespace Config

/-- Who moves when the agenda is empty: the interleaving of agents is not fixed (R338; log 1). -/
opaque freeTurn : Nat → Turn

/-- A free value of up to `2 ^ w` values, one for each use (log 7, 8, 10, 16, 17). -/
opaque freeNat : Nat → Nat → Nat

/-- A free byte, for each use and place (log 8). -/
opaque freeByte : Nat → Nat → Byte

/-- SM4 under a key, which the spec names and does not define (R329; log 10). The first byte of a block is its lowest. -/
opaque sm4 : BitVec 128 → BitVec 128 → BitVec 128

/-- SM4 decryption (R329; log 10). -/
opaque sm4Inv : BitVec 128 → BitVec 128 → BitVec 128

/-- The key of a physical page that no stage-2 leaf maps when a peer reaches it (R287; log 49). -/
opaque unmappedKey : Nat → BitVec 256

/-- SM3, which the spec names and does not define (R324, R327; log 10). -/
opaque sm3 : List Byte → BitVec 256

/-- SM2 verification: public key, message, signature (R324; log 10). -/
opaque sm2Verify : BitVec 512 → List Byte → BitVec 512 → Bool

/-- SM2 signature under the fused identity key (R327; log 10). -/
opaque sm2Sign : List Byte → BitVec 512

/-- Whether the SM2 key exchange of a SESSION_OPEN succeeds: the context's key and the payload (R307; log 10). -/
opaque exchangeOk : BitVec 512 → List Byte → Bool

/-- The device's confirmation in a SESSION_OPEN completion (R307; log 10). -/
opaque confirmation : BitVec 512 → List Byte → List Byte

/-- The boot ROM's bytes, measured by `mrom` (R327; log 10). -/
opaque bootRom : List Byte

/-- The fused SM3 hash of the root key (R324; log 4). -/
opaque rootKeyHash : BitVec 256

/-- Context 0's SM2 key in module flash (R307; log 4). -/
opaque ownerKey : BitVec 512

/-- Whether the links and stacks train at a start (R325 step 4; log 18). -/
opaque selfTestOk : Nat → Bool

/-- Whether the pool banks of a core pass their tests in Sage mode (R326; log 36). -/
opaque poolTestOk : Nat → Nat → Bool

/-- The capacity of the HBM in bytes: 12 stacks of 64 GiB (R1, Table 0.1). -/
def hbmBytes : Nat := 12 * 64 * 2 ^ 30

/-- Where the firmware carve-out begins in physical memory: the last 4 GiB (DESIGN CHOICE, log 11). -/
def carveBase : Nat := hbmBytes - 2 ^ 32

/-- Where the firmware body of a C-die lies (R325 step 5; DESIGN CHOICE, log 11). -/
def fwBody (die : Nat) : Nat := carveBase + die * 2 ^ 28

/-- How many bytes of code and data the firmware tables map for each die, from virtual address 0 (log 11). -/
def fwSpan : Nat := 2 ^ 27

/-- The table region of the carve-out, where stage-2 tables lie (R339; log 11). -/
def tableBase : Nat := carveBase + 2 ^ 31

/-- The number of 4 KiB tables of the table region (log 11). -/
def tableCount : Nat := 2 ^ 17

/-- The NoC link directions: 48 in the 4 × 4 mesh of each C-die (R1, R185; DEDUCED, log 41). -/
def nocLinks : Nat := 192

/-- The die link directions: those between the C-dies, and those between each and the N-die (R1, R185; DEDUCED, log 41). -/
def dieLinks : Nat := 20

/-- The HBM channels, whose number the spec does not give (log 41). -/
opaque hbmChannels : Nat

/-- What a byte of pool or HBM that nothing has written reads as (DESIGN CHOICE, logs 5 and 6). -/
def freshByte : Byte := 0

end Config

end Sys2Proof
end

