-- ==== Sys2Proof/Machine/State.lean ====
section
/-! DEFINITION. The state of a G9 module: everything the spec gives the machine, as plain data, and the state at
power-on (INVENTORY.md, ## State). -/

namespace Sys2Proof.Machine

/-- Bytes by address in canonical form (Laws/Pool.lean): addresses strictly rising, no entry equal to what an unlisted
address reads as. -/
abbrev Memory := List Host.Cell

/-- A trap that an effect raises (R59): the code, `trapcause.info`, and `trapaddr`. -/
structure TrapReq where
  code : BitVec 8
  info : BitVec 16
  addr : XWord
  deriving DecidableEq, Repr

/-! ### Sequencers -/

/-- The kinds of a loop entry ("The loop stack"). -/
inductive LoopKind where
  | plain | rotating | cursor
  deriving DecidableEq, Repr

/-- An entry of a loop stack (spec/04_isa_scalar.md, "The loop stack"). -/
structure LoopEntry where
  first : XWord
  last : XWord
  left : Nat
  kind : LoopKind
  outer : Nat
  cur : AReg
  deriving DecidableEq, Repr

/-- Where a sequencer stands: no block, issuing, stopped by `halt` (R67), or stopped in a trap (R89). -/
inductive SeqStatus where
  | idle | running | halted | trapped
  deriving DecidableEq, Repr

/-- What a word that has not issued, or a held push, waits for. The first four are bounded by `waitlim` (R87); a
`bwait` and a mailbox word keep the offset or the index that their timeout reports (Table 5.3). -/
inductive WaitKind where
  | pops | push | barrier (off : Nat) | mailbox (box : Nat) | other
  deriving DecidableEq, Repr

/-- A wait in progress: its kind, the clock it began in, and the crew's clocks in held traps at that time (R296). -/
structure Wait where
  kind : WaitKind
  since : Nat
  held0 : Nat
  deriving DecidableEq, Repr

/-- What a token carries: the ids of the global stores that its popper acquires (R196). -/
abbrev Token := List Nat

/-- The pushes of one word, held until the word and every earlier pushing word have retired (R180). `at_` is the
serial at its issue; `cmd` the engine command it belongs to; `whole` marks a `wait`, which reports every earlier
command (R196). -/
structure HeldPush where
  at_ : Nat
  cmd : Option Nat
  whole : Bool
  /-- how many tokens go to each neighbour: two from a `vrep` and its target (R133) -/
  toP : Nat
  toN : Nat
  deriving DecidableEq, Repr

/-- A token popped since the oldest transfer in flight, so that an abandoned word's token can be returned (R157). -/
structure Popped where
  at_ : Nat
  fromP : Bool
  tok : Token
  deriving DecidableEq, Repr

/-- One sequencer (R2, R42, R177 to R182). -/
structure Seq where
  status : SeqStatus
  pc : XWord
  /-- the loop stack, innermost first -/
  loops : List LoopEntry
  wait : Option Wait
  /-- the wait of the oldest held push for a queue with room, which runs beside any wait of the next word (R180, R182) -/
  pushWait : Option Wait
  held : List HeldPush
  /-- a word has issued in this clock (R177) -/
  issued : Bool
  /-- stores acquired through tokens and barriers: part 3 of Vis (R189) -/
  acq : List Nat
  /-- commands that have retired (their stores are found by their writer) -/
  retired : List Nat
  /-- commands whose retirement a performed push has reported (R196) -/
  reported : List Nat
  /-- the fetch line held: its address and its 64 bytes (R295) -/
  line : Option (XWord × List Byte)
  popLog : List Popped
  /-- the trap of a word that has retired, raised once its pushes have been performed (R19, R90) -/
  trapDue : Option TrapReq
  deriving DecidableEq, Repr

/-- One direction between two neighbours (R178, R181): tokens that can be popped, pops taken in this clock, and pushes
that land at the end of it. -/
structure Queue where
  toks : List Token
  popped : Nat
  incoming : List Token
  deriving DecidableEq, Repr

/-! ### Vector slice and matrix descriptors -/

/-- A pool port (R129 to R131): the parameter record and the walk's position, or idle. -/
structure Port where
  active : Bool
  base : BitVec 48
  record : BitVec 128
  pos : Nat
  deriving DecidableEq, Repr

/-- C's restart snapshot (R69): pc, registers, loop stack, ports (R132) and the tile mask. -/
structure Snapshot where
  pc : XWord
  a : Vector AWord 16
  vsh : W32
  vbase : BitVec 5
  pbase : BitVec 2
  rep : W32
  loops : List LoopEntry
  ports : Vector Port 6
  mask : BitVec 16
  deriving DecidableEq, Repr

/-- Conversion counts: saturations, flushes and non-finite values (R137). -/
structure ConvRec where
  sat : Nat
  flush : Nat
  nfin : Nat
  deriving DecidableEq, Repr

/-- A ring descriptor with its counts (R136, R137). `recs` holds slot records that are not zero. -/
structure Ring where
  img : Image
  set : Bool
  head : Nat
  tail : Nat
  resv : Nat
  rhead : Nat
  recs : List (Nat × ConvRec)
  deriving DecidableEq, Repr

/-- An armed replay trail with its run's progress, and the same as it stood at the restart point (R149). -/
structure Replay where
  trail : Image
  armed : Bool
  begun : Bool
  count : Nat
  trailOld : Image
  old : Bool
  begunOld : Bool
  countOld : Nat
  deriving DecidableEq, Repr

/-- A tile descriptor, its tag (R138, R220), and the run's state: checksums complete so far, chunks run, whether the
next step word continues a fresh run (R221). -/
structure Tile where
  img : Image
  set : Bool
  tag : Image
  complete : Bool
  chunks : Nat
  fresh : Bool
  replay : Replay
  deriving DecidableEq, Repr

/-- A drain descriptor (R139). -/
structure Drain where
  img : Image
  set : Bool
  deriving DecidableEq, Repr

/-- The crew's check tag (R148); `used` when an `mreplay.chk` after the restart point has armed from it (R149). -/
structure CheckTag where
  img : Image
  valid : Bool
  tile : Fin 16
  used : Bool
  deriving DecidableEq, Repr

/-- A `vrep` between two of its repetitions (R133): the next one, their number, the target as it was decoded at the first,
and the tokens it popped. -/
structure RepRun where
  next : Nat
  total : Nat
  target : Instr
  toksP : List Token
  toksN : List Token
  deriving DecidableEq, Repr

/-- The matrix words that the array takes in C's order (R140): with their operands. -/
inductive MatOp where
  /-- `mma`, or `mmag` when `gather`; `n` chunks -/
  | mma (gather : Bool) (t ra rb : Fin 16) (n : Nat) (ov ck : Bool)
  | mhad (rd rs : Fin 16) (order sign : BitVec 2)
  | mdrain (t dd : Fin 16)
  | mzero (mask : BitVec 16)
  | mtag (t : Fin 16)
  | mtagChk
  | mchk (t : Fin 16)
  | pop (rg : Fin 16)
  | mlease
  | mfree
  deriving DecidableEq, Repr

/-- A chunk in progress: the quanta it still needs, and the share it keeps to its end when its lease was contracted at its
start (R215, R217). -/
structure Chunk where
  left : Nat
  share : Option Nat
  deriving DecidableEq, Repr

/-- Where C stood before a matrix word: the tokens counted in its credits, its a-registers and its loops, rotation bases and `rep`. -/
structure CPoint where
  creditL : Nat
  creditS : Nat
  a : Vector AWord 16
  loops : List LoopEntry
  vbase : BitVec 5
  pbase : BitVec 2
  rep : W32
  deriving DecidableEq, Repr

/-- A matrix word issued and not retired, in C's order (R140, R179): where C stood before it (R19), what it took from registers at
issue (`addr` a pool offset, `glist` the rows of `mmag`), the slot it reserved, whether its rings held every slot it needs when it
issued (R219), the chunks started, the one in progress, whether it is ready to start its first one, the clocks of its first start and
last end, and whether every chunk so far was contracted and followed no trail (R333). -/
structure MatCmd where
  id : Nat
  op : MatOp
  pc : XWord
  before : CPoint
  addr : Nat
  glist : List Nat
  slot : Option (Fin 16 × Nat)
  stocked : Bool
  done : Nat
  chunk : Option Chunk
  wants : Bool
  start : Nat
  ends : Nat
  clean : Bool
  deriving DecidableEq, Repr

/-- A crew's lease (R213 to R217): whether it is held, the clocks of a request for one and of the `mfree` that ends the
one held, its kind, rung and share, the step words issued and boundaries spanned since the last arbitration (`due`: the
clock of the 64th step word), and the crews whose chunk in progress its first chunk waits for. -/
structure Lease where
  held : Bool
  request : Option Nat
  ending : Option Nat
  contracted : Bool
  rung : Nat
  share : Nat
  steps : Nat
  due : Option Nat
  spans : Nat
  joined : Nat
  gate : List CrewIx
  deriving DecidableEq, Repr

/-- A lease that ended with its crew in an epoch's boundary clock, whose quanta return at the next boundary (R213, R225): its share if it
was contracted, else nothing, and the clock. -/
structure Leaving where
  contracted : Bool
  share : Nat
  clock : Nat
  deriving DecidableEq, Repr

/-! ### Transfers -/

/-- The transfer majors that an engine carries out (Table 7.7). -/
inductive XferKind where
  | tld | tst | tcpy | tsend | tadd | tgat | tsct | tcrc
  deriving DecidableEq, Repr

/-- A transfer word: its major and its qualifiers (R57). -/
structure XferOp where
  kind : XferKind
  tr : Bool
  tg : Bool
  cv : Bool
  ck : Bool
  rg : Bool
  deriving DecidableEq, Repr

/-- A transfer issued and not retired (R155 to R157): its descriptor and the descriptor's place, the place of its pool
source, of its pool destination with the headers there and the core that holds it, the position in the team that it sends
to, the barrier object it names, the row list of `tgat` and `tsct`, the ring slot it reserved, and the sequencer's state
before the word, with the length of its `popLog` then. `got` holds the aligned 8-byte units of its source that it has read, and
`put` those of its destination that it has written, with what it wrote, each unit at a time of its own (R156, R204).
`combined` is the progress of a `tadd`; `moved` holds the bytes written, the conversions and what `ck` runs over once every byte
is written (R156, R158). -/
structure Xfer where
  id : Nat
  op : XferOp
  desc : Image
  table : Nat
  src : Nat
  dstCore : CoreId
  dst : Nat
  hdr : Nat
  team : Option Nat
  bar : Option (CoreId × Nat)
  list : List Nat
  slot : Option (Fin 16 × Nat)
  pc : XWord
  a : Vector AWord 16
  loops : List LoopEntry
  pops0 : Nat
  combined : Nat
  got : List (Nat × List Byte)
  put : List (Nat × List (Option Byte))
  moved : Option (Nat × Nat × List Byte)
  deriving DecidableEq, Repr

/-- A ring slot held for an abandoned transfer (R157), and for `tadd` its saved progress. -/
structure HeldSlot where
  ring : Fin 16
  slot : Nat
  deriving DecidableEq, Repr

/-! ### Hinge -/

/-- The states `hstat` reports (R105). -/
inductive HingeState where
  | idle | queued | running | done | stopped
  deriving DecidableEq, Repr

/-- Where a run stands within its superstep (R254 to R256). -/
inductive HingePhase where
  /-- ready to begin the next superstep -/
  | ready
  /-- processing vertex `i`: edge `j` of it in push; in pull the finished part at 0, edge `j` − 1 after -/
  | edges (i : Nat) (j : Nat)
  /-- in pull: the finished part on the entry of vertex `i` as the combine of edge `j` − 1 has left it -/
  | check (i : Nat) (j : Nat)
  /-- arrived, waiting for the finalize signal -/
  | arrived
  /-- signalled: step `i` of the finalize: V origin values, the activity bitmap, the frontier, V vertices of the
  statistics, their record, the update -/
  | finalize (i : Nat)
  /-- finalize update made, waiting for the phase -/
  | phase
  deriving DecidableEq, Repr

/-- An evaluation of one part of the edge program (R250, R252): which part, the vertex a message goes to, where it stands,
the registers, and what came out. -/
structure HingeEval where
  finished : Bool
  target : Nat
  index : Nat
  e : Vector XWord 16
  result : Option XWord
  /-- its message has been counted in `nedge` -/
  counted : Bool
  deriving DecidableEq, Repr

/-- A crew's Hinge run (R105), with the descriptors and the program that `hrun` checked, and the clock and crew that order
it among the core's runs. -/
structure HingeRun where
  state : HingeState
  gd : Image
  rd : Image
  prog : List W32
  /-- the X command of `hrun` while it has not retired -/
  cmd : Option Nat
  order : Nat
  bar : XWord
  setting : Nat
  pull : Bool
  nss : Nat
  nsw : Nat
  nedge : Nat
  nf : Option Nat
  /-- the vertices of the first superstep's `fcur`, kept when its finalize overwrites it (R257, R277) -/
  first : Option Nat
  fault : Bool
  phase : HingePhase
  eval : Option HingeEval
  /-- the sums of the statistics record being made (Table 12.4) -/
  nfs : Nat
  mf : Nat
  mu : Nat
  /-- the completion of the phase that the run has arrived in, once there is one: its clock, its failure flag and its scope -/
  ended : Option (Nat × Bool × Scope)
  deriving DecidableEq, Repr

/-! ### Blocks and crews -/

/-- The block a crew runs (R168 to R170), with what the command processor gave its launch. -/
structure Block where
  ctx : CtxId
  launch : Nat
  blockid : Nat
  teamid : Nat
  teamsz : Nat
  nblocks : Nat
  domid : W32
  scopes : BitVec 6
  b : Vector XWord 16
  slot : Nat
  cva : Nat
  words : Nat
  loader : CtxId
  cref : Bool
  /-- a SLOT_REVOKE with `force` has taken execute from its code (R295, R312) -/
  revoked : Bool
  /-- its team has begun (R169, R170) -/
  started : Bool
  deriving DecidableEq, Repr

/-- An `sdraw` that X waits on (R104, R237): its command, its destination, its request, the tokens it popped and the
pushes that follow it. -/
structure Draw where
  id : Nat
  rd : XReg
  off : Nat
  tokP : List Token
  tokN : List Token
  toP : Nat
  toN : Nat
  deriving DecidableEq, Repr

/-- One crew: its four sequencers, their registers, its queues and its records (R2, R8). -/
structure Crew where
  x : Vector XWord 64
  f : Vector W32 32
  aL : Vector AWord 16
  aC : Vector AWord 16
  aS : Vector AWord 16
  v : Vector VWord 56
  p : Vector PWord 8
  vsh : W32
  vbase : BitVec 5
  pbase : BitVec 2
  ports : Vector Port 6
  seqX : Seq
  seqL : Seq
  seqC : Seq
  seqS : Seq
  /-- index 2·stream + (0 to the successor, 1 to the predecessor) -/
  queues : Vector Queue 8
  creditL : List Token
  creditS : List Token
  snap : Snapshot
  rings : Vector Ring 16
  tiles : Vector Tile 16
  drains : Vector Drain 16
  check : CheckTag
  mq : List MatCmd
  lease : Lease
  lq : List Xfer
  sq : List Xfer
  heldL : List HeldSlot
  heldS : List HeldSlot
  taddL : Nat
  taddS : Nat
  pair : Option (Nat × Nat)
  hinge : HingeRun
  desctab : BitVec 23
  waitlim : BitVec 48
  rep : W32
  repRun : Option RepRun
  /-- first bank, V, S and A banks (Table 5.2) -/
  part : XWord
  block : Option Block
  draw : Option Draw
  /-- X commands issued and not retired, besides `draw`: an `hrun` -/
  xcmds : List Nat
  accFails : Nat
  /-- C has gone back to its restart point and has not yet executed the `rstp` there again (R69, R323) -/
  restarted : Bool
  /-- its block has started, and its four sequencers issue their entry words as the next clock begins (R170) -/
  entry : Bool
  trapHeld : Nat
  /-- registers with an unrepairable parity error: file and number (R303) -/
  badRegs : List (Nat × Nat)
  deriving DecidableEq, Repr

/-! ### Cores -/

/-- What reaches a barrier object through the combine port (R96). -/
inductive CombKind where
  /-- a plain arrival -/
  | arrive
  | drop
  | bytes (n : Int)
  /-- a completing transfer: bytes written, conversions, failure, the command -/
  | copy (written : Nat) (conv : Nat) (fail : Bool) (cmd : Nat)
  /-- the arrival of a `gmask` -/
  | mask (fail : Bool)
  /-- the arrival of the Hinge run that an `hrun` command made -/
  | hingeArrive (run : Nat) (fail : Bool)
  | hingeFinal (fail : Bool)
  | init (count : BitVec 24) (scope : BitVec 3)
  deriving DecidableEq, Repr

/-- One operation waiting for this clock's update: the object's byte address in the core's pool, and the operation. -/
structure CombOp where
  addr : Nat
  kind : CombKind
  deriving DecidableEq, Repr

/-- What the combine port keeps of a barrier object besides its 16 bytes (R96, R197): the Hinge runs that have arrived in the
current phase and have not been signalled, and those that wait for a phase to complete, each by its `hrun` command; the commands
whose completions reached the current phase and the last completed one; and the clock of the update that completed it, if one has
since the last `binit`. -/
structure BarSide where
  addr : Nat
  unsignalled : List Nat
  runs : List Nat
  cmdsNow : List Nat
  cmdsDone : List Nat
  doneAt : Option Nat
  deriving DecidableEq, Repr

/-- A mailbox entry: the value, and the clock of its append (R99, R191). -/
structure MailEntry where
  value : XWord
  at_ : Nat
  deriving DecidableEq, Repr

/-- A mailbox (R98): the launch that has claimed it, and its entries, oldest first. -/
structure Mailbox where
  claim : Option (CtxId × Nat)
  entries : List MailEntry
  deriving DecidableEq, Repr

/-- A remote line in a core's view (R202). -/
structure RemoteLine where
  peer : Nat
  pa : Nat
  bytes : List Byte
  /-- the serial at which it was asked for: puts acknowledged before then are in it -/
  at_ : Nat
  /-- the puts that were on their way since then, or sent later, and that the peer performed before it served the line
  (R202; log 7) -/
  has : List Nat
  deriving DecidableEq, Repr

/-- A trap raised and waiting for the firmware context, or in service (R89). -/
structure Trap where
  crew : CrewIx
  ctx : CtxId
  stream : Stream
  code : BitVec 8
  info : BitVec 16
  addr : XWord
  pc : XWord
  clock : Nat
  /-- saved by a pre-emption and restored: the crew issues nothing before it is presented (R300) -/
  restored : Bool
  /-- where its sequencer goes on when a pre-emption has abandoned its work since: an abandoned transfer, or C's restart point
  (R91, R157) -/
  back : Option XWord
  deriving DecidableEq, Repr

/-- What the firmware context serves (R89, R299). -/
inductive Serving where
  | nothing
  /-- Thaper runs without an entry (release at a start) -/
  | boot
  /-- `back` is where the sequencer goes on in place of `trappc` (R91) -/
  | trap (back : Option XWord)
  | preempt (ctx : CtxId)
  deriving DecidableEq, Repr

/-- The firmware context of a core (R320 to R322, Table 5.1). -/
structure Fw where
  seq : Seq
  x : Vector XWord 64
  f : Vector W32 32
  cause : BitVec 24
  addr : XWord
  tpc : XWord
  tseq : BitVec 2
  tcrew : BitVec 14
  share : BitVec 5
  waitlim : BitVec 48
  serving : Serving
  /-- the handler is about to execute its `eret` (log 13) -/
  eretDue : Bool
  /-- sequencers held for a fault notice whose RESUME has come (R297) -/
  retries : List Trap
  /-- a trap of its own, which has no handler (R322) -/
  fault : Option Trap
  stopped : Bool
  /-- slots taken from each crew in this window (R184) -/
  taken : Vector Nat 4
  /-- the crew that the last slot was taken from (R184) -/
  lastTaken : CrewIx
  deriving DecidableEq, Repr

/-- A fault notice that waits for a RESUME (R297); `holds` while its sequencer is held for it, which ends when a
pre-emption saves the crew (R300). -/
structure Notice where
  num : Nat
  core : CoreId
  trap : Trap
  holds : Bool
  deriving DecidableEq, Repr

/-- The rung of an owner on a core (R216). -/
structure Owner where
  ctx : CtxId
  rung : Nat
  deriving DecidableEq, Repr

/-- A translation held by a TLB of a core (R290): which TLB, the context (`none` the firmware's own tables), the page and its
size, that of the smaller of the two leaves, both leaves with the page's `key`, `dead` and `rem`, and where the stage-2 leaf
lies. Only time and the reading of a bad table word depend on it (log 9). -/
structure TlbEntry where
  unit : Nat
  ctx : Option CtxId
  page : Nat
  size : Nat
  leaf1 : XWord
  leaf2 : XWord
  at2 : Nat
  deriving DecidableEq, Repr

/-- A non-leaf entry that the walks of a core share (R290): the context, where it lies, and the entry. -/
structure WalkEntry where
  ctx : CtxId
  at_ : Nat
  entry : XWord
  deriving DecidableEq, Repr

/-- One core (R2). -/
structure Core where
  pool : Memory
  crews : Vector Crew 4
  /-- banks locked by a transfer or a matrix word: bank, and the command that holds it (R156, R138) -/
  locks : List (Nat × Nat)
  comb : List CombOp
  /-- barrier objects updated or tested in this clock (R197) -/
  settled : List Nat
  bars : List BarSide
  boxes : Vector Mailbox 8
  /-- acquired stores: part 2 of Vis (R189) -/
  view : List Nat
  lines : List RemoteLine
  traps : List Trap
  fw : Fw
  owners : List Owner
  leaving : List Leaving
  hingeCur : Option CrewIx
  tlb : List TlbEntry
  walks : List WalkEntry
  /-- uncorrectable 64-bit words of the pool, by word number (R303) -/
  badPool : List Nat
  deriving DecidableEq, Repr

/-! ### Casement and sampler -/

/-- A checkpoint (Table 11.4). -/
structure Ckpt where
  state : Nat
  top : Nat
  depth : Nat
  fin : Bool
  deriving DecidableEq, Repr

/-- A sequence grammar record (R230), by handle, with the header that `gnew` read (R229) and the ids of the stores its
image is read with (R207). The newest checkpoint is first. `ckhead` is the ring slot of the newest one. -/
structure Sgr where
  handle : Nat
  ctx : CtxId
  gaddr : Nat
  hdr : Image
  state : Nat
  top : Nat
  depth : Nat
  fin : Bool
  fail : Bool
  ckpts : List Ckpt
  ckhead : Nat
  view : List Nat
  deriving DecidableEq, Repr

/-- A stack node (R231), with the context whose quota it counts against. -/
structure Node where
  num : Nat
  ctx : CtxId
  sym : Nat
  rc : Nat
  parent : Nat
  deriving DecidableEq, Repr

/-- A `gmask` accepted and not complete (R103, R234), with the places of its mask and of its barrier in the core's
pool. -/
structure GMask where
  core : CoreId
  crew : CrewIx
  handle : Nat
  off : Nat
  bar : Nat
  deriving DecidableEq, Repr

/-- A crew whose `gau` word has reached Casement and waits for the masks of its handle, or for a word that does: commands act in the
order in which they reach it (R102, R207, R235). -/
structure GWait where
  core : CoreId
  crew : CrewIx
  deriving DecidableEq, Repr

/-- An `sdraw` at the sampler (R237). -/
structure DrawReq where
  core : CoreId
  crew : CrewIx
  id : Nat
  deriving DecidableEq, Repr

/-- One C-die's Casement and sampler (R1). `drawn` and `reason` are by context (R104). -/
structure Die where
  sgrs : List Sgr
  nodes : List Node
  masks : List GMask
  waits : List GWait
  draws : List DrawReq
  drawn : List (CtxId × Nat)
  reason : List (CtxId × Nat)
  temp : Nat
  deriving DecidableEq, Repr

/-! ### Global memory -/

/-- Who performed a global store (R187). -/
inductive Writer where
  | seq (core : CoreId) (crew : CrewIx) (role : Role)
  /-- a sequencer of a block that has left its crew: completed, ended, or saved by a pre-emption -/
  | away (ctx : CtxId) (launch : Nat) (blockid : Nat) (role : Role)
  | cmd (id : Nat)
  | host (ctx : CtxId)
  | npu
  | peer
  deriving DecidableEq, Repr

/-- A completed publication (R190): its scope and clock, and where its issuer stands. -/
structure Pub where
  scope : Scope
  clock : Nat
  core : CoreId
  crew : CrewIx
  ctx : CtxId
  launch : Nat
  team : Nat
  deriving DecidableEq, Repr

/-- A key of the memory encryption: an SM4 data key and a tweak key (R328). -/
abbrev MemKey := BitVec 256

/-- A global store to local memory, in coherence order in `Global.stores` (R188). An aligned 8-byte unit of an engine is one
store, whose bytes outside the engine's elements are `none`. `key` is the key of the leaf it was written through (R288,
R329; log 49). -/
structure GStore where
  id : Nat
  pa : Nat
  bytes : List (Option Byte)
  key : Option MemKey
  writer : Writer
  pubs : List Pub
  /-- unpublished when a `discard` took its page: the place of the dead leaf that its publication revives, and the size of
  the page (R100) -/
  under : Option (Nat × Nat)
  deriving DecidableEq, Repr

/-- A store to remote memory, in coherence order in `Global.remote` (R188): a sequencer's, held until a dom publication
sends it; a command's, sent as the engine writes it (R201); or the zeros of a dead page's first write, which the N-die
sends (`.npu`, with `size` zeros; R289). It keeps its place in visible sets after its put is acknowledged (R189, R193). -/
structure RemoteStore where
  id : Nat
  peer : Nat
  pa : Nat
  va : XWord
  bytes : List (Option Byte)
  size : Nat
  writer : Writer
  ctx : CtxId
  pubs : List Pub
  /-- unpublished when a `discard` took its page: the place of the dead leaf and the page's size (R100) -/
  under : Option (Nat × Nat)
  /-- the put it was sent as -/
  put : Option Nat
  refused : Bool
  /-- the serial at its acknowledgement -/
  acked : Option Nat
  /-- the serial at which a line that the peer served showed that it had performed the put (R202) -/
  shown : Option Nat
  deriving DecidableEq, Repr

/-- A get awaiting its answer (R202): its number, the serial at which it was asked; the agent whose load asked, and the context
its bytes count for. What it answers is `stale`, and no line of the view, once its core has acquired at dom scope, the page has
been discarded, or its asker has gone. -/
structure Get where
  num : Nat
  stale : Bool
  core : CoreId
  crew : CrewIx
  role : Role
  ctx : CtxId
  peer : Nat
  pa : Nat
  deriving DecidableEq, Repr

/-- A peer's refusal of a get, kept until the load that asked for it has met it (R287). -/
structure GetRefusal where
  core : CoreId
  crew : CrewIx
  role : Role
  peer : Nat
  pa : Nat
  deriving DecidableEq, Repr

/-! ### The N-die -/

/-- Traffic of a context other than SCP messages (R305): an RMA access of the host, a peer's answer to a put, and one to a get, with
the puts that the line it brings holds. -/
inductive Traffic where
  | rmaWrite (va : XWord) (bytes : List Byte)
  | rmaRead (va : XWord) (n : Nat)
  | put (num : Nat) (ok : Bool)
  | get (num : Nat) (answer : GetAnswer) (has : List Nat)
  deriving DecidableEq, Repr

/-- Traffic that waits at the N-die for its port's next µs, with the bytes that have not passed (R305). -/
structure Waiting where
  port : Nat
  ctx : CtxId
  left : Nat
  what : Traffic
  deriving DecidableEq, Repr

/-- An RMA access of the host that reaches pages at a peer, and waits for the peer's answers (R316, R287). `bytes` is `none` of a
read. A write holds the ids of its stores; a read the gets it has asked, by number, peer and line, and the lines answered. -/
structure Rma where
  num : Nat
  ctx : CtxId
  va : XWord
  size : Nat
  bytes : Option (List Byte)
  stores : List Nat
  asks : List (Nat × Nat × Nat)
  lines : List RemoteLine
  deriving DecidableEq, Repr

/-- The states of a context (R282). -/
inductive CtxState where
  | idle | running | preempting | preempted | resuming
  deriving DecidableEq, Repr

/-- A launch queued or running (R168, R175). -/
structure Launch where
  num : Nat
  slot : Nat
  hdr : Image
  loader : CtxId
  prio : Nat
  b : Vector XWord 16
  deps : List Nat
  cookie : XWord
  /-- `dom.id` and `dom.scopes`, the same for every block, once its first team is placed (R168, R172, R313) -/
  dom : Option (W32 × BitVec 6)
  /-- the load of its slot that it came from, and whether that load has been revoked (R312) -/
  gen : Nat
  revoked : Bool
  placed : Nat
  done : Nat
  deriving DecidableEq, Repr

/-- How far a PREEMPT has come (R299, R300): accepted in a clock, every crew halted, the firmware contexts entered with the
bytes of the save that have not passed the ports. -/
inductive Halting where
  | no
  | due (clock : Nat)
  | halted
  | entered (left : Nat)
  deriving DecidableEq, Repr

/-- A context (R282, R313). -/
structure Ctx where
  root1 : Option Nat
  root2 : Option Nat
  state : CtxState
  halting : Halting
  params : BitVec 256
  /-- the bytes per µs and port in force in this µs (R305, R313) -/
  bud : Nat
  contract : BitVec 128
  /-- records admitted and waiting for a boundary, each with its clock, oldest first (R225) -/
  pending : List (BitVec 128 × Nat)
  guilt : Nat
  barred : Bool
  session : Option (BitVec 16)
  key : BitVec 512
  /-- oldest first within a priority -/
  launches : List Launch
  /-- launches that have completed: number and success (R175) -/
  finished : List (Nat × Bool)
  nextLaunch : Nat
  nextNotice : Nat
  notices : List Notice
  /-- refusals and retries queued for the firmware -/
  preemptFor : Option ScpMsg
  resumeFor : Option ScpMsg
  deriving DecidableEq, Repr

/-- A slot that a context has begun to load (R311): the parts of its image received, as starts and lengths, and the number
of this load. -/
structure Slot where
  num : Nat
  owner : CtxId
  hdr : Image
  got : List (Nat × Nat)
  resident : Bool
  gen : Nat
  deriving DecidableEq, Repr

/-- A pinned page: its physical page number, its slot, and the load that pinned it, or `none` for SLOT_PIN (R295, R311). -/
structure Pin where
  ctx : CtxId
  page : Nat
  slot : Nat
  gen : Option Nat
  deriving DecidableEq, Repr

/-- An open session (R307, R308): its context and the number expected next. -/
structure Session where
  id : BitVec 16
  ctx : CtxId
  expected : Nat
  deriving DecidableEq, Repr

/-- A command that the N-die has checked and that has not taken its whole effect (R308, R310): the message, the context it
counts for, the status that its check gave (0 accepted), whether it has been applied and waits for its completion, and the
clock of its check. -/
structure Cmd where
  msg : ScpMsg
  ctx : CtxId
  status : Nat
  begun : Bool
  at_ : Nat
  deriving DecidableEq, Repr

/-- A message the device sends (R306, R307, R318): header fields and payload; `frame` marks answers of the transport
that are no SCP message (R316, R201, R202). -/
structure OutMsg where
  sess : BitVec 16
  ctx : CtxId
  kind : Nat
  opcode : Nat
  status : Nat
  seq : Nat
  cookie : XWord
  payload : List Byte
  frame : Bool
  deriving DecidableEq, Repr

/-- A team selected by the dispatcher whose blocks have not started (R174, R176). -/
structure Placed where
  ctx : CtxId
  launch : Nat
  team : Nat
  clock : Nat
  deriving DecidableEq, Repr

/-- The calendar's owners of one unit: kind (0 NoC link, 1 die link, 2 HBM channel), index, 512 owner bytes (R185). -/
structure CalUnit where
  kind : Nat
  index : Nat
  owners : List Byte
  deriving DecidableEq, Repr

/-- A saved crew (R301): its slot of the save area, and what is kept of it besides the bytes there (log 35). -/
structure Saved where
  ctx : CtxId
  slot : Nat
  core : CoreId
  crew : CrewIx
  rec_ : Crew
  pool : List Byte
  boxes : List (Nat × Mailbox)
  bars : List BarSide
  traps : List Trap
  deriving DecidableEq, Repr

/-- A Shutter statistics record (Table 21.3). -/
structure ShutterStat where
  ctx : CtxId
  core : CoreId
  ep : Vector Nat 4
  nword : Nat
  margin : Int
  deriving DecidableEq, Repr

/-- Where the module stands (R325, R326, R4). -/
inductive Stage where
  | off
  /-- powered, before the next step 1 of a start -/
  | powered
  /-- steps 1 to 5 done, not yet ready -/
  | starting
  | ready
  | sage
  deriving DecidableEq, Repr

/-- Module flash, fuses and the start (R324, R325). -/
structure Boot where
  bankA : List Byte
  bankB : List Byte
  record : BitVec 128
  minSvn : Nat
  faults : List (BitVec 256)
  nextFault : Nat
  /-- the tile that an ACC_CHECK limit's record names, by the record's number: Table 21.4 has no bits for it (R323; log 54) -/
  faultTiles : List (Nat × Fin 16)
  stage : Stage
  running : Bool
  starts : Nat
  startKey : Nat
  deriving DecidableEq, Repr

/-- The N-die and what belongs to the device as a whole. -/
structure NDie where
  ctxs : Vector Ctx 64
  slots : List Slot
  pins : List Pin
  sessions : List Session
  nextSess : BitVec 16
  /-- checked commands in the order of their checks (R310) -/
  cmds : List Cmd
  /-- the clock and the session of the last check -/
  lastCheck : Option (Nat × Nat)
  nextGen : Nat
  /-- occupied key slots (R328) -/
  keys : List (Nat × BitVec 256)
  peers : List (Nat × BitVec 256)
  devid : BitVec 16
  domid : W32
  calendar : List CalUnit
  calNext : List CalUnit
  placed : List Placed
  lastServed : CtxId
  lastTurn : Option Nat
  /-- free and used tables of the table region: numbers in use (R339) -/
  tables2 : List Nat
  /-- stage-1 tables in use: context and physical address -/
  tables1 : List (CtxId × Nat)
  saves : List Saved
  /-- bytes of each port and context in this µs, and since the start (R305, R319) -/
  portUsed : List (Nat × CtxId × Nat)
  portBytes : List (Nat × CtxId × Nat)
  /-- traffic that waits for the next µs, oldest first (R305) -/
  waiting : List Waiting
  /-- RMA accesses of the host that wait for peers, oldest first (R316) -/
  rmas : List Rma
  dropped : Vector Nat 12
  stats : List ShutterStat
  /-- measured words since the last boundary: context, core, L − `lat` (R333) -/
  measured : List (CtxId × CoreId × Int)
  /-- errors counted (R303, R319): kind (0 bank, 1 stack, 2 register file), unit, count -/
  soft : List (Nat × Nat × Nat)
  /-- the N-die's own temperature (R319) -/
  temp : Nat
  power : Nat
  overSince : Option Nat
  withheldSlots : Bool
  withheldQuanta : Bool
  out : List OutMsg
  deriving DecidableEq, Repr

/-- Global memory (R187 to R202). -/
structure Global where
  hbm : Memory
  stores : List GStore
  badHbm : List Nat
  /-- ranges of `hbm` that were written under a key: start, size, key (R329) -/
  keyed : List (Nat × Nat × MemKey)
  remote : List RemoteStore
  gets : List Get
  refusals : List GetRefusal
  deriving DecidableEq, Repr

/-- The agent a step runs for. -/
structure Cur where
  core : CoreId
  crew : CrewIx
  role : Role
  deriving DecidableEq, Repr

/-- The whole machine. `agenda`, `tick`, `cur`, `serial`, `marks`, `quiet` and `pos` are the model's own (log 1). -/
structure State where
  cores : Vector Core 64
  dies : Vector Die 4
  mem : Global
  npu : NDie
  boot : Boot
  cycle : Nat
  agenda : List Turn
  tick : Nat
  cur : Cur
  serial : Nat
  /-- the clock + 1 in which each periodic step was last made: epoch boundary, calendar frame, port budgets, firmware
  window -/
  marks : Vector Nat 4
  /-- no agent has moved in this clock but the dispatcher, which works on the state at its start (R176) -/
  quiet : Bool
  /-- how far the order of this clock has come (Turns.lean, `rank`) -/
  pos : Nat
  deriving DecidableEq, Repr

/-- What stops a run. Each names who raises it and whether that is safe or unsafe. -/
inductive Fault where
  /-- Raised by an access whose translation ends at a local physical address beyond the module's 768 GiB of HBM
  (Table 0.1), which the spec gives no memory. Safe: a run stops where the spec gives no meaning. -/
  | noSuchPhysical
  deriving DecidableEq, Repr

/-- What the model gives no meaning. -/
inductive Refusal where
  /-- Raised by an arm of `exec` that has no meaning yet, with the mnemonic of its row. Safe: nothing is claimed of it. -/
  | notModelled (mnemonic : String)
  deriving DecidableEq, Repr

/-! ### The state at power-on -/

/-- A sequencer with no block. -/
def Seq.idle : Seq :=
  { status := .idle, pc := 0, loops := [], wait := none, pushWait := none, held := [], issued := false, acq := [], retired := [],
    reported := [], line := none, popLog := [], trapDue := none }

/-- An idle port (R170). -/
def Port.idle : Port := { active := false, base := 0, record := 0, pos := 0 }

/-- `vsh` at block start: f32, 64 active, no packing (Table 1.1, R106). -/
def vshReset : W32 := 0x00000040

/-- An unset ring descriptor (R135). -/
def Ring.unset : Ring := { img := 0, set := false, head := 0, tail := 0, resv := 0, rhead := 0, recs := [] }

/-- Nothing armed (R149). -/
def Replay.off : Replay :=
  { trail := 0, armed := false, begun := false, count := 0, trailOld := 0, old := false, begunOld := false,
    countOld := 0 }

/-- An unset tile descriptor (R135). -/
def Tile.unset : Tile :=
  { img := 0, set := false, tag := 0, complete := true, chunks := 0, fresh := false, replay := Replay.off }

/-- No lease (R170). -/
def Lease.idle : Lease :=
  { held := false, request := Option.none, ending := Option.none, contracted := false, rung := 0, share := 0, steps := 0,
    due := Option.none, spans := 0, joined := 0, gate := [] }

/-- No run (R105). -/
def HingeRun.idle : HingeRun :=
  { state := .idle, gd := 0, rd := 0, prog := [], cmd := Option.none, order := 0, bar := 0, setting := 0, pull := false, nss := 0, nsw := 0,
    nedge := 0, nf := Option.none, first := Option.none, fault := false, phase := .ready, eval := Option.none, nfs := 0, mf := 0, mu := 0,
    ended := Option.none }

/-- The predicates at block start (Table 1.1). -/
def predReset : Vector PWord 8 := (Vector.replicate 8 (0 : PWord)).set 0 (BitVec.allOnes 64)

/-- A crew with no block, its registers at the values of Table 1.1 (R8; before the first block, log 4). -/
def Crew.idle : Crew :=
  { x := Vector.replicate 64 0, f := Vector.replicate 32 0, aL := Vector.replicate 16 0, aC := Vector.replicate 16 0,
    aS := Vector.replicate 16 0, v := Vector.replicate 56 0, p := predReset, vsh := vshReset, vbase := 0, pbase := 0,
    ports := Vector.replicate 6 Port.idle, seqX := Seq.idle, seqL := Seq.idle, seqC := Seq.idle, seqS := Seq.idle,
    queues := Vector.replicate 8 { toks := [], popped := 0, incoming := [] }, creditL := [], creditS := [],
    snap := { pc := 0, a := Vector.replicate 16 0, vsh := vshReset, vbase := 0, pbase := 0, rep := 0, loops := [],
              ports := Vector.replicate 6 Port.idle, mask := 0 },
    rings := Vector.replicate 16 Ring.unset, tiles := Vector.replicate 16 Tile.unset,
    drains := Vector.replicate 16 { img := 0, set := false }, check := { img := 0, valid := false, tile := 0, used := false },
    mq := [], lease := Lease.idle, lq := [], sq := [], heldL := [], heldS := [], taddL := 0, taddS := 0,
    pair := none, hinge := HingeRun.idle, desctab := 0, waitlim := 0x100000000, rep := 0, repRun := none, part := 0, block := none,
    draw := none, xcmds := [], accFails := 0, restarted := false, entry := false, trapHeld := 0, badRegs := [] }

/-- A firmware context before its release (Table 5.1, R325). -/
def Fw.reset : Fw :=
  { seq := Seq.idle, x := Vector.replicate 64 0, f := Vector.replicate 32 0, cause := 0, addr := 0, tpc := 0, tseq := 0,
    tcrew := 0, share := 4, waitlim := 0x100000000, serving := .nothing, eretDue := false, retries := [], fault := none,
    stopped := false, taken := Vector.replicate 4 0, lastTaken := 3 }

/-- A core at power-on. -/
def Core.reset : Core :=
  { pool := [], crews := Vector.replicate 4 Crew.idle, locks := [], comb := [], settled := [], bars := [],
    boxes := Vector.replicate 8 { claim := none, entries := [] }, view := [], lines := [], traps := [], fw := Fw.reset,
    owners := [], leaving := [], hingeCur := none, tlb := [], walks := [], badPool := [] }

/-- A C-die's engines at power-on: no sequence live, every node free (R230, R231). -/
def Die.reset : Die :=
  { sgrs := [], nodes := [], masks := [], waits := [], draws := [], drawn := [], reason := [], temp := 0 }

/-- The parameters of Table 19.4 at reset, for context 0 and for every other. -/
def paramsReset (owner : Bool) : BitVec 256 :=
  BitVec.ofNat 256 (16777215 * 2 ^ 168 + 16384 * 2 ^ 153 + 64 * 2 ^ 137 + (if owner then 256 else 0) * 2 ^ 128
    + (if owner then 0x3F else 0x03) * 2 ^ 122 + 200000 * 2 ^ 104)

/-- A context at reset (R282, R210, Table 19.4, Table 21.1). -/
def Ctx.reset (owner : Bool) : Ctx :=
  { root1 := none, root2 := none, state := .idle, halting := .no, params := paramsReset owner, bud := 200000, contract := 0, pending := [], guilt := 0,
    barred := false, session := none, key := if owner then Config.ownerKey else 0, launches := [], finished := [],
    nextLaunch := 1, nextNotice := 1, notices := [], preemptFor := none, resumeFor := none }

/-- The N-die at power-on. -/
def NDie.reset : NDie :=
  { ctxs := (Vector.replicate 64 (Ctx.reset false)).set 0 (Ctx.reset true), slots := [], pins := [], sessions := [],
    nextSess := 1, cmds := [], lastCheck := none, nextGen := 1, keys := [], peers := [], devid := 0, domid := 0, calendar := [], calNext := [], placed := [],
    lastServed := 63, lastTurn := none, tables2 := [], tables1 := [], saves := [], portUsed := [], portBytes := [],
    waiting := [], rmas := [], dropped := Vector.replicate 12 0, stats := [], measured := [], soft := [], temp := 0, power := 0, overSince := none,
    withheldSlots := false, withheldQuanta := false, out := [] }

/-- Flash and fuses as the model takes them, and the module powered, before its first start (R324; log 4). -/
def Boot.reset : Boot :=
  { bankA := [], bankB := [], record := 1, minSvn := 0, faults := [], nextFault := 0, faultTiles := [], stage := .powered, running := false,
    starts := 0, startKey := 0 }

/-- No global store yet, no HBM byte listed (log 5). -/
def Global.reset : Global := { hbm := [], stores := [], badHbm := [], keyed := [], remote := [], gets := [], refusals := [] }

/-- The module at power-on, before BOOT_START (R325; log 3). -/
def State.reset : State :=
  { cores := Vector.replicate 64 Core.reset, dies := Vector.replicate 4 Die.reset, mem := Global.reset,
    npu := NDie.reset, boot := Boot.reset, cycle := 0, agenda := [], tick := 0,
    cur := { core := 0, crew := 0, role := .x }, serial := 1, marks := Vector.replicate 4 0, quiet := true, pos := 0 }

end Sys2Proof.Machine
end

