-- ==== Sys2Proof/Machine/Pool.lean ====
section
/-! DEFINITION. Memory as canonical cells, little-endian numbers, the bytes of a core's pool and the checks of a pool
access (R16, R24, R42, R80, R173). -/

namespace Sys2Proof.Machine

/-! ### Canonical cells -/

/-- The byte at an address. -/
def memGet (m : Memory) (a : Nat) : Byte :=
  match m with
  | [] => Config.freshByte
  | (k, b) :: rest => if a = k then b else if a < k then Config.freshByte else memGet rest a

/-- Writing one byte keeps the canonical form. -/
def memSet (m : Memory) (a : Nat) (v : Byte) : Memory :=
  match m with
  | [] => if v = Config.freshByte then [] else [(a, v)]
  | (k, b) :: rest =>
    if a < k then (if v = Config.freshByte then (k, b) :: rest else (a, v) :: (k, b) :: rest)
    else if a = k then (if v = Config.freshByte then rest else (a, v) :: rest)
    else (k, b) :: memSet rest a v

/-- The `n` bytes from an address, in ascending order. -/
def memGets (m : Memory) (a : Nat) : Nat → List Byte
  | 0 => []
  | n + 1 => memGet m a :: memGets m (a + 1) n

/-- Writing bytes from an address, in ascending order. -/
def memSets (m : Memory) (a : Nat) : List Byte → Memory
  | [] => m
  | b :: rest => memSets (memSet m a b) (a + 1) rest

/-- Clearing a range to the fresh byte. -/
def memClear (m : Memory) (a n : Nat) : Memory := m.filter fun c => c.1 < a || a + n ≤ c.1

/-- The canonical form: addresses strictly rising from `lo`, no entry holding the fresh byte. -/
def memWfFrom (lo : Nat) : Memory → Bool
  | [] => true
  | (k, b) :: rest => lo ≤ k && !(b == Config.freshByte) && memWfFrom (k + 1) rest

/-- The canonical form of a memory. -/
def memWf (m : Memory) : Bool := memWfFrom 0 m

/-! ### Little-endian numbers (R24) -/

/-- The number that bytes hold, the first least significant. -/
def leNat : List Byte → Nat
  | [] => 0
  | b :: rest => b.toNat + 256 * leNat rest

/-- The `n` low bytes of a number, the first least significant. -/
def natLe : Nat → Nat → List Byte
  | 0, _ => []
  | n + 1, v => BitVec.ofNat 8 v :: natLe n (v / 256)

/-- Field [hi:lo] of a number (R18). -/
def field (v hi lo : Nat) : Nat := v / 2 ^ lo % 2 ^ (hi + 1 - lo)

/-- A number with field [hi:lo] replaced. -/
def setField (v hi lo x : Nat) : Nat :=
  v / 2 ^ (hi + 1) * 2 ^ (hi + 1) + x % 2 ^ (hi + 1 - lo) * 2 ^ lo + v % 2 ^ lo

/-- The signed value of the low `w` bits (R18, sext). -/
def sext (v w : Nat) : Int :=
  let u := v % 2 ^ w
  if 2 * u < 2 ^ w then (u : Int) else (u : Int) - (2 ^ w : Nat)

/-! ### The allotment (R16, R173) -/

/-- Bytes of a bank: 128 KiB. -/
def bankBytes : Nat := 131072

/-- `part.nv` (Table 5.2). -/
def partNv (part : XWord) : Nat := field part.toNat 6 0

/-- `part.ns` (Table 5.2). -/
def partNs (part : XWord) : Nat := field part.toNat 14 8

/-- `part.na` (Table 5.2). -/
def partNa (part : XWord) : Nat := field part.toNat 22 16

/-- `part.base` (Table 5.2). -/
def partBase (part : XWord) : Nat := field part.toNat 29 24

/-- The first offset of the S-partition (R16). -/
def sBegin (part : XWord) : Nat := partNv part * bankBytes

/-- The first offset of the A-partition (R16). -/
def aBegin (part : XWord) : Nat := (partNv part + partNs part) * bankBytes

/-- The first offset past the allotment (R16). -/
def allotEnd (part : XWord) : Nat := (partNv part + partNs part + partNa part) * bankBytes

/-- The place in the core's pool of an offset of the allotment (R16, R173). -/
def poolPlace (part : XWord) (off : Nat) : Nat := partBase part * bankBytes + off

/-! ### Trap codes (Table 5.3) -/

def codeIllegalOp : BitVec 8 := 0x01
def codeIllegalType : BitVec 8 := 0x02
def codeRegRange : BitVec 8 := 0x03
def codeMmaCombo : BitVec 8 := 0x04
def codePoolPart : BitVec 8 := 0x05
def codePoolRange : BitVec 8 := 0x06
def codeAtomPlace : BitVec 8 := 0x07
def codeAlign : BitVec 8 := 0x08
def codePageNp : BitVec 8 := 0x10
def codePagePerm : BitVec 8 := 0x11
def codeInstPerm : BitVec 8 := 0x12
def codeStage2 : BitVec 8 := 0x14
def codeTokenTimeout : BitVec 8 := 0x20
def codeBarTimeout : BitVec 8 := 0x21
def codeMboxTimeout : BitVec 8 := 0x22
def codeAccCheck : BitVec 8 := 0x30
def codeRegParity : BitVec 8 := 0x31
def codePoolEcc : BitVec 8 := 0x32
def codeHbmEcc : BitVec 8 := 0x33
def codeTrapInsn : BitVec 8 := 0x40
def codeRungRange : BitVec 8 := 0x41
def codeScope : BitVec 8 := 0x42
def codeGauFault : BitVec 8 := 0x50
def codeSamplerFault : BitVec 8 := 0x51
def codeHingeFault : BitVec 8 := 0x52
def codePreempt : BitVec 8 := 0x60

/-- A trap whose `trapaddr` is 0. -/
def trapOf (code : BitVec 8) : TrapReq := { code := code, info := 0, addr := 0 }

/-- A trap that names an address or an offset. -/
def trapAt (code : BitVec 8) (addr : Nat) : TrapReq := { code := code, info := 0, addr := BitVec.ofNat 64 addr }

/-- The checks of a pool access of `n` bytes at an offset, in order: ALIGN, POOL_RANGE, POOL_PART (R80). -/
def poolCheck (part : XWord) (off n align : Nat) : Option TrapReq :=
  if off % align ≠ 0 then some (trapAt codeAlign off)
  else if 2 ^ 23 < off + n then some (trapAt codePoolRange off)
  else if off < sBegin part || allotEnd part < off + n then some (trapAt codePoolPart off)
  else none

/-- The checks of an atomic or barrier place: as a pool access, then ATOM_PLACE in the S-partition (R94, R101). -/
def atomCheck (part : XWord) (off n align : Nat) : Option TrapReq :=
  (poolCheck part off n align).orElse fun _ =>
    if off < aBegin part then some (trapAt codeAtomPlace off) else none

end Sys2Proof.Machine
end

