-- ==== Sys2Proof/Machine/Ops.lean ====
section
/-! DEFINITION. The named operations of the machine: reaching a core, a crew, a sequencer and a register; tokens and
held pushes (R178 to R182); taking a trap and returning from one (R59, R89, R91); the loop stack (R60, R62, R65); and
the frame of every instruction (R59). -/

namespace Sys2Proof

/-- The role of a stream. -/
def Stream.role : Stream → Role
  | .x => .x
  | .l => .l
  | .c => .c
  | .s => .s

/-- The stream of a role; the firmware context and Hinge count as X (R322). -/
def Role.stream : Role → Stream
  | .l => .l
  | .c => .c
  | .s => .s
  | .x | .fw | .hinge => .x

/-- The ring X→L→C→S→X: the successor of a stream (Table 1.3). -/
def Stream.succ : Stream → Stream
  | .x => .l
  | .l => .c
  | .c => .s
  | .s => .x

/-- The predecessor of a stream (Table 1.3). -/
def Stream.pred : Stream → Stream
  | .x => .s
  | .l => .x
  | .c => .l
  | .s => .c

/-- The number of a stream in `trapseq` and in queue indexes (Table 5.1). -/
def Stream.num : Stream → Fin 4
  | .x => 0
  | .l => 1
  | .c => 2
  | .s => 3

/-- A stream from its number. -/
def Stream.ofNum (n : Nat) : Stream :=
  match n with
  | 0 => .x
  | 1 => .l
  | 2 => .c
  | _ => .s

end Sys2Proof

namespace Sys2Proof.Machine

/-- The four crews of a core. -/
def crewIxs : List CrewIx := [0, 1, 2, 3]

/-- All 64 cores, in order. -/
def coreIds : List CoreId := (List.range 64).map fun n => ⟨n % 64, by omega⟩

/-- All 64 contexts, in order. -/
def ctxIds : List CtxId := (List.range 64).map fun n => ⟨n % 64, by omega⟩

/-- All 256 crews, by die, core and crew. -/
def crewIds : List (CoreId × CrewIx) := coreIds.flatMap fun c => crewIxs.map fun k => (c, k)

/-! ### Reaching the parts of the state -/

def State.core (s : State) (c : CoreId) : Core := s.cores.get c

def State.setCore (s : State) (c : CoreId) (v : Core) : State := { s with cores := s.cores.set c v }

def State.modCore (s : State) (c : CoreId) (f : Core → Core) : State := s.setCore c (f (s.core c))

def Core.crew (c : Core) (k : CrewIx) : Crew := c.crews.get k

def Core.setCrew (c : Core) (k : CrewIx) (v : Crew) : Core := { c with crews := c.crews.set k v }

def State.crewAt (s : State) (c : CoreId) (k : CrewIx) : Crew := (s.core c).crew k

def State.setCrewAt (s : State) (c : CoreId) (k : CrewIx) (v : Crew) : State :=
  s.setCore c ((s.core c).setCrew k v)

def State.modCrewAt (s : State) (c : CoreId) (k : CrewIx) (f : Crew → Crew) : State :=
  s.setCrewAt c k (f (s.crewAt c k))

/-- The crew the step runs for. -/
def State.crew (s : State) : Crew := s.crewAt s.cur.core s.cur.crew

def State.setCrew (s : State) (v : Crew) : State := s.setCrewAt s.cur.core s.cur.crew v

def State.modCrew (s : State) (f : Crew → Crew) : State := s.setCrew (f s.crew)

/-- The core the step runs on. -/
def State.here (s : State) : Core := s.core s.cur.core

def State.modHere (s : State) (f : Core → Core) : State := s.modCore s.cur.core f

def State.modNpu (s : State) (f : NDie → NDie) : State := { s with npu := f s.npu }

def State.modDie (s : State) (d : DieId) (f : Die → Die) : State :=
  { s with dies := s.dies.set d (f (s.dies.get d)) }

def State.ctx (s : State) (k : CtxId) : Ctx := s.npu.ctxs.get k

def State.modCtx (s : State) (k : CtxId) (f : Ctx → Ctx) : State :=
  s.modNpu fun n => { n with ctxs := n.ctxs.set k (f (n.ctxs.get k)) }

/-- The C-die of a core (R1). -/
def dieOf (c : CoreId) : DieId := ⟨c.val / 16, by have := c.isLt; omega⟩

/-- A core from its die and its number there. -/
def coreOf (d : DieId) (n : Nat) : CoreId := ⟨d.val * 16 + n % 16, by have := d.isLt; omega⟩

/-- The agent that the step runs for becomes one of a crew. -/
def State.actAs (s : State) (core : CoreId) (crew : CrewIx) (role : Role) : State :=
  { s with cur := { core := core, crew := crew, role := role } }

/-- A number of its own for a command, a store or a put. -/
def State.fresh (s : State) : Nat × State := (s.serial, { s with serial := s.serial + 1 })

/-- A periodic step is due in this clock: its boundary, and not made yet. -/
def State.due (s : State) (k : Fin 4) (period : Nat) : Bool := s.cycle % period = 0 && s.marks.get k ≠ s.cycle + 1

/-- A periodic step has been made in this clock. -/
def State.mark (s : State) (k : Fin 4) : State := { s with marks := s.marks.set k (s.cycle + 1) }

/-- A free value below `2 ^ w`: the next of the unconstrained sequence (log 1). -/
def State.free (s : State) (w : Nat) : Nat := Config.freeNat w s.tick % 2 ^ w

/-! ### Sequencers -/

def Crew.seq (c : Crew) : Stream → Seq
  | .x => c.seqX
  | .l => c.seqL
  | .c => c.seqC
  | .s => c.seqS

def Crew.setSeq (c : Crew) (st : Stream) (q : Seq) : Crew :=
  match st with
  | .x => { c with seqX := q }
  | .l => { c with seqL := q }
  | .c => { c with seqC := q }
  | .s => { c with seqS := q }

/-- The sequencer the step runs for. -/
def State.seq (s : State) : Seq :=
  if s.cur.role = .fw then s.here.fw.seq else s.crew.seq s.cur.role.stream

def State.setSeq (s : State) (q : Seq) : State :=
  if s.cur.role = .fw then s.modHere fun c => { c with fw := { c.fw with seq := q } }
  else s.setCrew (s.crew.setSeq s.cur.role.stream q)

def State.modSeq (s : State) (f : Seq → Seq) : State := s.setSeq (f s.seq)

/-- Every crew of the context has halted for a pre-emption and none has been restored (R299). -/
def Ctx.frozen (k : Ctx) : Bool :=
  match k.halting with
  | .halted | .entered _ => true
  | .no | .due _ => false

/-- The executing crew has halted for a pre-emption. -/
def State.frozen (s : State) : Bool :=
  match s.crew.block with
  | some b => (s.ctx b.ctx).frozen
  | none => false

/-- PC: the address of the word being executed (R59). -/
def State.pc (s : State) : XWord := s.seq.pc

/-! ### Registers (R8, R46) -/

/-- A register as parity covers it (R303): the file (0 x, 1 f, 2 to 4 a of L, C, S, 5 v, 6 p) and the number. -/
abbrev RegRef := Nat × Nat

def Crew.clearBad (c : Crew) (r : RegRef) : Crew := { c with badRegs := c.badRegs.filter fun q => !(q == r) }

/-- `x[n]` of the executing stream: `x0` reads zero; the firmware context has its own file (R59, R320). -/
def State.getX (s : State) (r : XReg) : XWord :=
  if r = 0 then 0 else if s.cur.role = .fw then s.here.fw.x.get r else s.crew.x.get r

/-- A write to `x0` is discarded (R59). -/
def State.setX (s : State) (r : XReg) (v : XWord) : State :=
  if r = 0 then s
  else if s.cur.role = .fw then s.modHere fun c => { c with fw := { c.fw with x := c.fw.x.set r v } }
  else s.modCrew fun c => { c with x := c.x.set r v }.clearBad (0, r.val)

def State.getF (s : State) (r : FReg) : W32 :=
  if s.cur.role = .fw then s.here.fw.f.get r else s.crew.f.get r

def State.setF (s : State) (r : FReg) (v : W32) : State :=
  if s.cur.role = .fw then s.modHere fun c => { c with fw := { c.fw with f := c.fw.f.set r v } }
  else s.modCrew fun c => { c with f := c.f.set r v }.clearBad (1, r.val)

/-- The a-register file of a stream (R8). -/
def Crew.aFile (c : Crew) : Stream → Vector AWord 16
  | .l => c.aL
  | .c => c.aC
  | .s => c.aS
  | .x => c.aC

def Crew.setAFile (c : Crew) (st : Stream) (a : Vector AWord 16) : Crew :=
  match st with
  | .l => { c with aL := a }
  | .s => { c with aS := a }
  | .c | .x => { c with aC := a }

/-- The parity number of a stream's a-register file. -/
def aFileNo : Stream → Nat
  | .l => 2
  | .c | .x => 3
  | .s => 4

/-- `a[n]` of the executing stream: `a0` reads zero (R59). -/
def State.getA (s : State) (r : AReg) : AWord :=
  if r = 0 then 0 else (s.crew.aFile s.cur.role.stream).get r

/-- A write to `a0` is discarded (R59). -/
def State.setA (s : State) (r : AReg) (v : AWord) : State :=
  if r = 0 then s
  else s.modCrew fun c =>
    (c.setAFile s.cur.role.stream ((c.aFile s.cur.role.stream).set r v)).clearBad (aFileNo s.cur.role.stream, r.val)

/-- The physical vector that a name selects (R9). -/
def vPhys (vbase : BitVec 5) (n : VReg) : Fin 56 :=
  if n.val < 24 then n else ⟨24 + (n.val - 24 + vbase.toNat) % 32, by omega⟩

/-- The physical predicate that a name selects (R9). -/
def pPhys (pbase : BitVec 2) (n : PReg) : Fin 8 :=
  if n.val < 4 then n else ⟨4 + (n.val - 4 + pbase.toNat) % 4, by omega⟩

def State.getV (s : State) (n : VReg) : VWord := s.crew.v.get (vPhys s.crew.vbase n)

def State.setV (s : State) (n : VReg) (v : VWord) : State :=
  s.modCrew fun c => { c with v := c.v.set (vPhys c.vbase n) v }.clearBad (5, (vPhys c.vbase n).val)

/-- `p0` reads all true (R8). -/
def State.getP (s : State) (n : PReg) : PWord :=
  if n = 0 then BitVec.allOnes 64 else s.crew.p.get (pPhys s.crew.pbase n)

/-- A write to `p0` is discarded (R8). -/
def State.setP (s : State) (n : PReg) (v : PWord) : State :=
  if n = 0 then s
  else s.modCrew fun c => { c with p := c.p.set (pPhys c.pbase n) v }.clearBad (6, (pPhys c.pbase n).val)

/-- A register named by a word, for the parity check of R303. -/
def refX (r : XReg) : State → List RegRef := fun s => if r = 0 || s.cur.role = .fw then [] else [(0, r.val)]

def refF (r : FReg) : State → List RegRef := fun s => if s.cur.role = .fw then [] else [(1, r.val)]

def refA (r : AReg) : State → List RegRef := fun s =>
  if r = 0 then [] else [(aFileNo s.cur.role.stream, r.val)]

def refV (n : VReg) : State → List RegRef := fun s => [(5, (vPhys s.crew.vbase n).val)]

def refP (n : PReg) : State → List RegRef := fun s => if n = 0 then [] else [(6, (pPhys s.crew.pbase n).val)]

/-- Whether one of the registers a word reads has a parity error that nothing repairs (R303). -/
def State.parityBad (s : State) (reads : List (State → List RegRef)) : Bool :=
  reads.any fun r => (r s).any fun q => s.crew.badRegs.contains q

/-! ### Tokens (R11, R178, R181, R196) -/

/-- The queue from a stream to its successor. -/
def queueToSucc (st : Stream) : Fin 8 := ⟨2 * st.num.val, by have := st.num.isLt; omega⟩

/-- The queue from a stream to its predecessor. -/
def queueToPred (st : Stream) : Fin 8 := ⟨2 * st.num.val + 1, by have := st.num.isLt; omega⟩

/-- The queue that `<p` pops (R11). -/
def popQueueP (st : Stream) : Fin 8 := queueToSucc st.pred

/-- The queue that `<n` pops (R11). -/
def popQueueN (st : Stream) : Fin 8 := queueToPred st.succ

/-- The count a queue held at the start of the clock (R181). -/
def Queue.start (q : Queue) : Nat := q.toks.length + q.popped

/-- A push of `k` tokens is performed only when the queue then held at most 15 (R133, R180, R181). Several held pushes of one sequencer
may reach a queue in one clock, each counting those of the clock before it toward the 15 (DEDUCED, log 59). -/
def Queue.takes (q : Queue) (k : Nat) : Bool := k = 0 || q.start + q.incoming.length + k ≤ 15

def Crew.modQueue (c : Crew) (i : Fin 8) (f : Queue → Queue) : Crew :=
  { c with queues := c.queues.set i (f (c.queues.get i)) }

/-- Whether a queue holds `n` tokens to pop (R178). -/
def Crew.canPop (c : Crew) (i : Fin 8) (n : Nat) : Bool := n ≤ (c.queues.get i).toks.length

/-- How many tokens a word and its `vrep` target pop from each neighbour (R178, R133). -/
structure Pops where
  p : Nat
  n : Nat
  deriving DecidableEq, Repr

def popsOf (tk : Tok) : Pops := { p := tk.popP.toNat, n := tk.popN.toNat }

/-- How many tokens a word pushes to each neighbour. -/
def pushesOf (tk : Tok) : Pops := { p := tk.pushP.toNat, n := tk.pushN.toNat }

/-- Every queue the word pops holds enough tokens; the firmware context has no neighbours (log 12). -/
def State.popsReady (s : State) (k : Pops) : Bool :=
  if s.cur.role = .fw then true
  else s.crew.canPop (popQueueP s.cur.role.stream) k.p && s.crew.canPop (popQueueN s.cur.role.stream) k.n

/-- Union of id lists. -/
def addIds (a b : List Nat) : List Nat := b.foldl (fun acc i => if acc.contains i then acc else i :: acc) a

/-- One token leaves the front of a queue. -/
def Queue.pop (q : Queue) : Queue := { q with toks := q.toks.tail, popped := q.popped + 1 }

/-- Tokens go back to the front of a queue (R157, R69), and count in the tests of the clock in which they do (DEDUCED, log 59). -/
def Queue.giveBack (l : List Token) (q : Queue) : Queue := { q with toks := l ++ q.toks }

/-- A pop: the token leaves, its stores are acquired (R196), C's credit counts it (R69), and L and S keep it while a
transfer is in flight (R157). -/
def State.popOne (s : State) (fromP : Bool) : State :=
  let st := s.cur.role.stream
  let i := if fromP then popQueueP st else popQueueN st
  let tok := (s.crew.queues.get i).toks.headD []
  let s := s.modCrew fun c => c.modQueue i Queue.pop
  let s := s.modSeq fun q => { q with acq := addIds q.acq tok }
  let s := if st = .c then
      s.modCrew fun c => if fromP then { c with creditL := c.creditL ++ [tok] } else { c with creditS := c.creditS ++ [tok] }
    else s
  if st = .l || st = .s then
    s.modSeq fun q => { q with popLog := q.popLog ++ [{ at_ := s.serial, fromP := fromP, tok := tok }] }
  else s

def State.popN (s : State) (fromP : Bool) : Nat → State
  | 0 => s
  | n + 1 => (s.popOne fromP).popN fromP n

/-- What L and S keep of popped tokens ends when no transfer is in flight (R157). -/
def State.trimPopLog (s : State) : State :=
  if (s.cur.role = .l && s.crew.lq.isEmpty) || (s.cur.role = .s && s.crew.sq.isEmpty) then
    s.modSeq fun q => { q with popLog := [] }
  else s

/-- The pops of a word (R19). -/
def State.doPops (s : State) (k : Pops) : State :=
  if s.cur.role = .fw then s else (s.trimPopLog.popN true k.p).popN false k.n

/-- A pop that would raise a credit of C above 255 traps REG_RANGE (R69), be it a pop of an `rstp` that would start the credit anew
(DEDUCED, log 57). -/
def State.creditFull (s : State) (k : Pops) : Bool :=
  s.cur.role = .c && (255 < s.crew.creditL.length + k.p || 255 < s.crew.creditS.length + k.n)

/-- The commands of a sequencer that have issued and not retired (R179). -/
def Crew.outstanding (c : Crew) : Stream → List Nat
  | .x => (match c.draw with
      | some d => [d.id]
      | none => []) ++ c.xcmds
  | .l => c.lq.map fun t => t.id
  | .c => c.mq.map fun m => m.id
  | .s => c.sq.map fun t => t.id

/-- Whether the oldest held push can be performed as far as retirement goes (R180). -/
def Crew.pushReady (c : Crew) (st : Stream) (h : HeldPush) : Bool :=
  match st with
  | .l | .s => (c.outstanding st).all fun id => h.at_ < id
  | .x | .c => match h.cmd with
    | some id => !(c.outstanding st).contains id
    | none => true

/-- Whether the queues a held push goes to take it in this clock (R180, R181). -/
def Crew.pushFits (c : Crew) (st : Stream) (h : HeldPush) : Bool :=
  (c.queues.get (queueToPred st)).takes h.toP && (c.queues.get (queueToSucc st)).takes h.toN

/-- The stores whose ids a token carries: those of reported commands, the pusher's own published stores, and what it
has itself acquired (R196). -/
def State.tokenOf (s : State) (q : Seq) : Token :=
  let carried (w : Writer) (pubs : List Pub) : Bool := match w with
    | .cmd id => q.reported.contains id
    | .seq c k r => !pubs.isEmpty && c == s.cur.core && k == s.cur.crew && r == s.cur.role
    | .away .. | .host _ | .npu | .peer => false
  addIds q.acq (((s.mem.stores.filter fun g => carried g.writer g.pubs).map fun g => g.id)
    ++ (s.mem.remote.filter fun r => carried r.writer r.pubs).map fun r => r.id)

/-- Performing the oldest held push: both neighbours in one clock (R180). -/
def State.pushHead (s : State) (h : HeldPush) (rest : List HeldPush) : State :=
  let st := s.cur.role.stream
  let s := s.modSeq fun q => { q with
    held := rest
    pushWait := none
    reported := (if h.whole then addIds q.reported q.retired else q.reported) ++ h.cmd.toList }
  let tok := s.tokenOf s.seq
  let land (k : Nat) (q : Queue) : Queue := { q with incoming := q.incoming ++ List.replicate k tok }
  s.modCrew fun c => (c.modQueue (queueToSucc st) (land h.toN)).modQueue (queueToPred st) (land h.toP)

/-- Performing held pushes in order while they are ready and fit. -/
def State.pushAll (s : State) : Nat → State
  | 0 => s
  | n + 1 =>
    match s.seq.held with
    | [] => s
    | h :: rest =>
      if s.crew.pushReady s.cur.role.stream h && s.crew.pushFits s.cur.role.stream h then (s.pushHead h rest).pushAll n
      else s

/-! ### Waiting (R87, R182, R296) -/

/-- The clocks a wait has lasted, those in which a sequencer of the crew was held in a trap apart (R296). -/
def State.waited (s : State) (w : Wait) : Nat :=
  if s.cur.role = .fw then s.cycle - w.since else (s.cycle - w.since) - (s.crew.trapHeld - w.held0)

/-- The wait limit of the executing agent (R87). -/
def State.waitlim (s : State) : Nat := if s.cur.role = .fw then s.here.fw.waitlim.toNat else s.crew.waitlim.toNat

/-- A wait begins, or goes on when it is of the same kind. -/
def State.setWait (s : State) (k : WaitKind) : State :=
  match s.seq.wait with
  | some w => if w.kind = k then s
      else s.modSeq fun q => { q with wait := some { kind := k, since := s.cycle, held0 := s.crew.trapHeld } }
  | none => s.modSeq fun q => { q with wait := some { kind := k, since := s.cycle, held0 := s.crew.trapHeld } }

def State.clearWait (s : State) : State := s.modSeq fun q => { q with wait := none }

/-- The oldest held push finds a queue full (R180). -/
def State.pushStuck (s : State) : Bool :=
  match s.seq.held with
  | h :: _ => s.crew.pushReady s.cur.role.stream h && !s.crew.pushFits s.cur.role.stream h
  | [] => false

/-- A push that finds its queue full makes its sequencer wait from this clock; its wait is its own, and ends with it (R180,
R182). -/
def State.notePushWait (s : State) : State :=
  if s.pushStuck && s.seq.pushWait.isNone then
    s.modSeq fun q => { q with pushWait := some { kind := .push, since := s.cycle, held0 := s.crew.trapHeld } }
  else s

/-- A wait in progress that has outlasted the limit: of the oldest held push, or of the next word (R87, R182). -/
def State.timedOut (s : State) : Option WaitKind :=
  let past (w : Option Wait) : Option WaitKind :=
    w.bind fun w => if s.waitlim < s.waited w then some w.kind else none
  (past s.seq.pushWait).orElse fun _ => past s.seq.wait

/-- The pushes of a retiring word join the held ones, and those that can be performed are (R180). -/
def State.pushes (s : State) (pu : Pops) (cmd : Option Nat) (whole : Bool) : State :=
  if s.cur.role = .fw then s
  else
    let s := if 0 < pu.p || 0 < pu.n then
        s.modSeq fun q => { q with held := q.held ++
          [{ at_ := s.serial - 1, cmd := cmd, whole := whole, toP := pu.p, toN := pu.n }] }
      else s
    (s.pushAll s.seq.held.length).notePushWait

/-! ### Traps (R59, R89 to R92) -/

/-- The order in which waiting traps are served: by clock, crew and stream (R89). -/
def Trap.before (a b : Trap) : Bool :=
  a.clock < b.clock || (a.clock = b.clock && (a.crew.val < b.crew.val
    || (a.crew = b.crew && a.stream.num.val ≤ b.stream.num.val)))

/-- A raised trap takes its place among those that wait. -/
def insertTrap (t : Trap) : List Trap → List Trap
  | [] => [t]
  | u :: rest => if t.before u && !(u.before t) then t :: u :: rest else u :: insertTrap t rest

/-- The context that a crew's block belongs to. -/
def Crew.ctx (c : Crew) : CtxId :=
  match c.block with
  | some b => b.ctx
  | none => 0

/-- The context the executing agent acts for; the firmware context counts as context 0 (log 21). -/
def State.ctxHere (s : State) : CtxId := if s.cur.role = .fw then 0 else s.crew.ctx

/-- TAKING A TRAP: the sequencer stops at its word, and the trap waits for the core's firmware context (R89). A trap of
the firmware context itself has no handler and stops it (R322). The state given is the one before the word (R59). -/
def raise (t : TrapReq) (s : State) : State :=
  let trap : Trap := { crew := s.cur.crew, ctx := s.crew.ctx, stream := s.cur.role.stream, code := t.code, info := t.info,
                       addr := t.addr, pc := s.pc, clock := s.cycle, restored := false, back := none }
  if s.cur.role = .fw then
    s.modHere fun c => { c with fw := { c.fw with
      fault := some trap, stopped := true, seq := { c.fw.seq with status := .trapped, wait := none } } }
  else
    (s.modSeq fun q => { q with status := .trapped, wait := none, pushWait := none, issued := true }).modHere fun c =>
      { c with traps := insertTrap trap c.traps }

/-- ENTERING THE FIRMWARE CONTEXT for the oldest waiting trap: the trap CSRs are written (R89, Table 5.2). -/
def enterTrap (core : CoreId) (t : Trap) (s : State) : State :=
  s.modCore core fun c => { c with fw := { c.fw with
    cause := t.info ++ t.code,
    addr := t.addr,
    tpc := t.pc,
    tseq := BitVec.ofNat 2 t.stream.num.val,
    tcrew := BitVec.ofNat 14 (t.ctx.val * 256 + t.crew.val),
    serving := .trap t.back } }

/-- Entering for a pre-emption once every crew of the context has halted (R89, R299). -/
def enterPreempt (core : CoreId) (ctx : CtxId) (s : State) : State :=
  s.modCore core fun c => { c with fw := { c.fw with
    cause := (0 : BitVec 16) ++ codePreempt, addr := 0, tpc := 0, tseq := 0, tcrew := BitVec.ofNat 14 (ctx.val * 256),
    serving := .preempt ctx } }

/-- The address of the word that an address lies in: what a pc may hold (R42). -/
def wordStart (a : XWord) : XWord := a &&& 0xFFFFFFFFFFFFFFFC

/-- RETURNING FROM A TRAP to the sequencer that `trapseq` and `trapcrew` name: it resumes at `trappc` (R91). C abandoned
by ACC_CHECK has gone back to its restart point before this (R69). -/
def resumeSeq (core : CoreId) (crew : CrewIx) (st : Stream) (pc : Option XWord) (s : State) : State :=
  s.modCrewAt core crew fun c =>
    c.setSeq st { c.seq st with
      status := .running, wait := none, pushWait := none, pc := pc.getD (c.seq st).pc }

/-! ### What an effect answers -/

/-- The outcome of an effect before retirement (R59). -/
inductive Res where
  /-- the word retires; its pushes follow -/
  | done (s : State)
  /-- the word retires with a taken control transfer (R60) -/
  | taken (s : State) (target : XWord)
  /-- a loop word skips its body, whose last word is at `last` (R62) -/
  | skip (s : State) (last : XWord)
  /-- the last repetition of a `vrep` is done and its target, at `last`, closes its loops; a trap of the closing leaves `onTrap` (R133,
  R134) -/
  | closing (s : State) (last : XWord) (onTrap : State)
  /-- the word has issued an engine command; its pushes wait for the command (R179, R180) -/
  | issued (s : State) (cmd : Nat)
  /-- the word has issued a command and issues nothing more until it retires: the pc stays (R104) -/
  | held (s : State)
  /-- the word does not issue yet; `note` is what its waiting leaves in the state it started from -/
  | block (k : WaitKind) (note : State → State)
  /-- a trap, with every register, byte and queue as before the word (R59) -/
  | trap (t : TrapReq)
  /-- a trap together with a state that the entry says it leaves behind (R134, R223) -/
  | trapLeaving (t : TrapReq) (s : State)
  /-- a trap, with the state before the word as `note` changes it (R287) -/
  | trapNoting (t : TrapReq) (note : State → State)
  /-- the word retires and a trap then stops the sequencer at the next word (R90) -/
  | thenTrap (s : State) (t : TrapReq)
  /-- the word retires and its sequencer stops (R67) -/
  | halted (s : State)
  /-- a stop of the model -/
  | stop (f : Fault)

def Res.ofTrap (t : Option TrapReq) (k : Res) : Res :=
  match t with
  | some t => .trap t
  | none => k

/-! ### The loop stack (R60, R62, R65) -/

/-- An uncorrectable word among the bytes of a pool access (R80, R303). -/
def Core.poolBad (c : Core) (place n : Nat) : Bool := c.badPool.any fun w => place < 8 * w + 8 && 8 * w < place + n

/-- Whether another agent holds a bank of the range locked (R156). -/
def Core.bankLocked (c : Core) (holder : Option Nat) (place n : Nat) : Bool :=
  c.locks.any fun l => some l.2 ≠ holder && place / bankBytes ≤ l.1 && l.1 * bankBytes < place + n

/-- Whether a plain access waits: for a bank lock (R156), or for the next clock because the combine port has made this
clock's update of an object in the range, which a plain access of the same clock precedes (R197). -/
def Core.lockedFor (c : Core) (holder : Option Nat) (place n : Nat) : Bool :=
  c.bankLocked holder place n || c.settled.any fun o => o < place + n && place < o + 16

/-- A pool read of a sequencer: the value as little-endian bytes, a wait on a locked bank, or a trap (R81, R110). -/
inductive PoolRead where
  | bytes (b : List Byte)
  | locked
  | trap (t : TrapReq)
  deriving DecidableEq, Repr

/-- The allotment of the executing agent: its crew's `part`, and an empty one for the firmware context, which the spec
gives none (log 21). -/
def State.part (s : State) : XWord := if s.cur.role = .fw then 0 else s.crew.part

/-- Reading `n` bytes at an offset of the crew's allotment. -/
def State.poolRead (s : State) (off n align : Nat) : PoolRead :=
  match poolCheck s.part off n align with
  | some t => .trap t
  | none =>
    let place := poolPlace s.part off
    if s.here.lockedFor none place n then .locked
    else if s.here.poolBad place n then .trap (trapAt codePoolEcc off)
    else .bytes (memGets s.here.pool place n)

/-- A write of pool bytes makes the words it touches correctable again (R303). -/
def Core.poolWrite (c : Core) (place : Nat) (b : List Byte) : Core :=
  { c with
    pool := memSets c.pool place b,
    badPool := c.badPool.filter fun w => !(place < 8 * w + 8 && 8 * w < place + b.length) }

/-- Writing bytes at an offset of the crew's allotment, checks made. -/
def State.poolStore (s : State) (off : Nat) (b : List Byte) : State :=
  s.modHere fun c => c.poolWrite (poolPlace s.part off) b

/-- The answer of a closing or of a row read: the state, a wait on a locked bank, or a trap. -/
inductive Closed where
  | next (s : State) (npc : XWord)
  | locked
  | trap (t : TrapReq)

/-- One row read of NextRow (R65): the cursor register, whose parity is tested (R303), and the two row pointers at it, which
can trap POOL_RANGE, POOL_PART or POOL_ECC and never ALIGN. -/
def State.rowRead (s : State) (cur : AReg) : PoolRead :=
  if s.parityBad [refA cur] then .trap (trapOf codeRegParity)
  else match s.poolRead (s.getA cur).toNat 4 1 with
  | .bytes b0 => match s.poolRead ((s.getA cur).toNat + 4) 4 1 with
    | .bytes b1 => .bytes (b0 ++ b1)
    | r => r
  | r => r

/-- NextRow: reads row pointers until a step has iterations or none is left (R65). `fuel` is the outer steps left. -/
def nextRow (e : LoopEntry) (s : State) (fuel : Nat) : Except PoolRead (LoopEntry × State) :=
  match fuel with
  | 0 => .ok ({ e with left := 0 }, s)
  | n + 1 =>
    match s.rowRead e.cur with
    | .bytes b =>
      let rp0 := leNat (b.take 4)
      let rp1 := leNat (b.drop 4)
      let s := s.setA e.cur (s.getA e.cur + 4)
      let e := { e with outer := n, left := rp1 - rp0 }
      if rp1 - rp0 = 0 then nextRow e s n else .ok (e, s)
    | r => .error r

/-- LoopClose for a word at `at_` that completed without a taken transfer (R62). `fuel` is the depth of the stack. -/
def loopClose (at_ : XWord) (npc : XWord) (s : State) : Nat → Closed
  | 0 => .next s npc
  | n + 1 =>
    match s.seq.loops with
    | [] => .next s npc
    | top :: rest =>
      if at_ ≠ top.last then .next s npc
      else
        let s := if top.kind = .rotating then
            s.modCrew fun c => { c with vbase := c.vbase - 1, pbase := c.pbase - 1 }
          else s
        let left := top.left - 1
        if 0 < left then
          .next (s.modSeq fun q => { q with loops := { top with left := left } :: rest }) top.first
        else if top.kind = .cursor && 0 < top.outer then
          match nextRow top s top.outer with
          | .ok (e, s) =>
            if 0 < e.left then .next (s.modSeq fun q => { q with loops := e :: rest }) top.first
            else loopClose at_ npc (s.modSeq fun q => { q with loops := rest }) n
          | .error (.trap t) => .trap t
          | .error _ => .locked
        else loopClose at_ npc (s.modSeq fun q => { q with loops := rest }) n

/-- Whether an address lies in the body of a loop. -/
def LoopEntry.holds (e : LoopEntry) (a : XWord) : Bool := e.first.toNat ≤ a.toNat && a.toNat ≤ e.last.toNat

/-- A transfer ends every loop whose body does not hold the target, and the loops nested inside it (R60). -/
def leaveLoops (target : XWord) (loops : List LoopEntry) : List LoopEntry :=
  if loops.all fun e => e.holds target then loops
  else match loops with
    | [] => []
    | _ :: rest => leaveLoops target rest

/-! ### The frame of every instruction (R59) -/

/-- The state that an attempt at a word leaves when the word does not issue. -/
def waitOn (k : WaitKind) (s : State) : State := (s.setWait k).modSeq fun q => { q with issued := true }

/-- Retirement of a word whose next address is known: the pc moves, the wait ends, the pushes are made. -/
def retire (pu : Pops) (cmd : Option Nat) (whole : Bool) (npc : XWord) (s : State) : State :=
  (s.modSeq fun q => { q with pc := npc, wait := none, issued := true }).pushes pu cmd whole

/-- Steps 3 and 4 of R59 for a word that completed: LoopClose, the next address, retirement. `s0` is the state before
the word. A row read that traps while a loop word of count 0 skips its body, and so closes an enclosing loop, is reported at
the loop word (DEDUCED, log 57). -/
def finish (pu : Pops) (cmd : Option Nat) (whole : Bool) (at_ npc : XWord) (s0 s : State) :
    Host.Outcome State Fault Refusal :=
  match loopClose at_ npc s (s.seq.loops.length + 1) with
  | .next s npc => .next (retire pu cmd whole npc s)
  | .locked => .next (waitOn .other s0)
  | .trap t => .next (raise t s0)

/-- A word that traps once it has retired stops its sequencer when its pushes, and those held before them, have been
performed (R19, R90). -/
def raiseWhenPushed (t : TrapReq) (s : State) : State :=
  if s.seq.held.isEmpty then raise t s else s.modSeq fun q => { q with trapDue := some t }

/-- THE FRAME OF EVERY INSTRUCTION (R59): the pops named by the word, the effect, then retirement and the pushes. A
word that waits holds no token (R183): its pops stand only when its effect is performed. A parity error of a register it
reads comes before a credit that its pops would raise above 255, and that before the word's own checks (DEDUCED, log 57). -/
def runWith (pops pu : Pops) (whole : Bool) (reads : List (State → List RegRef)) (s : State)
    (effect : State → Res) : Host.Outcome State Fault Refusal :=
  if !s.popsReady pops then .next (waitOn .pops s)
  else if s.parityBad reads then .next (raise (trapOf codeRegParity) s)
  else if s.creditFull pops then .next (raise (trapOf codeRegRange) s)
  else
    match effect (s.doPops pops) with
    | .done t => finish pu none whole s.pc (s.pc + 4) s t
    | .taken t target =>
      .next (retire pu none whole target (t.modSeq fun q => { q with loops := leaveLoops target q.loops }))
    | .skip t last => finish pu none whole last (last + 4) s t
    | .closing t last u => match loopClose last (last + 4) t (t.seq.loops.length + 1) with
      | .next t npc => .next (retire pu none whole npc t)
      | .locked => .next (waitOn .other s)
      | .trap r => .next (raise r u)
    | .issued t cmd => finish pu (some cmd) whole s.pc (s.pc + 4) s t
    | .held t => .next (t.modSeq fun q => { q with wait := none, issued := true })
    | .block k note => .next (waitOn k (note s))
    | .trap t => .next (raise t s)
    | .trapLeaving t u => .next (raise t u)
    | .trapNoting t note => .next (raise t (note s))
    | .thenTrap u t => match loopClose s.pc (s.pc + 4) u (u.seq.loops.length + 1) with
      | .next u npc => .next (raiseWhenPushed t (retire pu none whole npc u))
      | .locked => .next (waitOn .other s)
      | .trap t => .next (raise t s)
    | .halted t =>
      .next ((retire pu none true s.pc t).modSeq fun q => { q with status := .halted })
    | .stop f => .fault f

/-- The frame for a word with its own pops. -/
def runWord (tk : Tok) (reads : List (State → List RegRef)) (s : State) (effect : State → Res) :
    Host.Outcome State Fault Refusal :=
  runWith (popsOf tk) (pushesOf tk) false reads s effect

end Sys2Proof.Machine
end

