-- ==== Sys2Proof/Machine/Global.lean ====
section
/-! DEFINITION. Global memory under phase consistency (R187 to R204): where an agent stands, what it sees, stores in
coherence order, publication and acquisition. -/

namespace Sys2Proof.Machine

/-! ### Scopes (R172) -/

/-- Where an agent stands, for reckoning scopes: its core, crew and block. -/
structure Spot where
  core : CoreId
  crew : CrewIx
  ctx : CtxId
  launch : Nat
  team : Nat
  deriving DecidableEq, Repr

/-- Where a crew stands. Launch 0 is no launch: numbers count from 1 (R312). -/
def State.spot (s : State) (core : CoreId) (crew : CrewIx) : Spot :=
  match (s.crewAt core crew).block with
  | some b => { core := core, crew := crew, ctx := b.ctx, launch := b.launch, team := b.teamid }
  | none => { core := core, crew := crew, ctx := 0, launch := 0, team := 0 }

/-- Where the executing agent stands; the firmware context belongs to its core alone (log 21). -/
def State.spotHere (s : State) : Spot :=
  if s.cur.role = .fw then { core := s.cur.core, crew := 0, ctx := 0, launch := 0, team := 0 }
  else s.spot s.cur.core s.cur.crew

def Pub.spot (p : Pub) : Spot := { core := p.core, crew := p.crew, ctx := p.ctx, launch := p.launch, team := p.team }

/-- `a` lies within a scope as reckoned from `q` (R172). -/
def within (sc : Scope) (q a : Spot) : Bool :=
  match sc with
  | .crew => q == a
  | .core => q.core == a.core
  | .team => q.launch ≠ 0 && q.ctx == a.ctx && q.launch == a.launch && q.team == a.team
  | .die => dieOf q.core == dieOf a.core
  | .dev => true
  | .dom => true

/-- The width of a scope (R172). -/
def scopeRank : Scope → Nat
  | .crew => 0
  | .core => 1
  | .team => 2
  | .die => 3
  | .dev => 4
  | .dom => 5

/-- A publication reaches an agent at its scope, or at a narrower one, as which it also counts (R190; log 23). One at die scope
reaches the agents of its issuer's C-die alone (R200). -/
def Pub.reaches (p : Pub) (a : Spot) : Bool :=
  ([Scope.crew, .core, .team, .die, .dev, .dom].any fun k => scopeRank k ≤ scopeRank p.scope && within k p.spot a)
    && !(p.scope = .die && !within .die p.spot a)

/-- A scope from its code; codes 6 and 7 name none (R95). -/
def scopeOf (n : Nat) : Option Scope :=
  match n with
  | 0 => some .crew
  | 1 => some .core
  | 2 => some .team
  | 3 => some .die
  | 4 => some .dev
  | 5 => some .dom
  | _ => none

/-- `dom.scopes` of the executing agent: the block's, and crew and core alone with no block (R172; log 21). -/
def State.scopes (s : State) : BitVec 6 :=
  if s.cur.role = .fw then 3 else match s.crew.block with
    | some b => b.scopes ||| 3
    | none => 3

/-- A scope is admitted (R172). -/
def State.admits (s : State) (sc : Scope) : Bool := s.scopes.getLsbD (scopeRank sc)

/-! ### Entries of tables (R285) -/

/-- Bit `i` of an entry. -/
def ebit (e i : Nat) : Bool := e / 2 ^ i % 2 == 1

def entryValid (e : Nat) : Bool := ebit e 0
def entryLeaf (e : Nat) : Bool := ebit e 1
def entryR (e : Nat) : Bool := ebit e 2
def entryW (e : Nat) : Bool := ebit e 3
def entryX (e : Nat) : Bool := ebit e 4
def entryTbl (e : Nat) : Bool := ebit e 5
def entryRem (e : Nat) : Bool := ebit e 52
def entryDead (e : Nat) : Bool := ebit e 63
def entryKey (e : Nat) : Nat := field e 62 53

/-- The address an entry holds: bits [51:12] in place. -/
def entryAddr (e : Nat) : Nat := field e 51 12 * 2 ^ 12

/-- The entry at a place in HBM: tables are written by the N-die alone and lie in no program's store (R339). -/
def readEntry (hbm : Memory) (at_ : Nat) : Nat := leNat (memGets hbm at_ 8)

/-- The leaf that a walk ends at: its entry, where it lies, and its level. -/
structure Leaf where
  entry : Nat
  at_ : Nat
  level : Nat
  deriving DecidableEq, Repr

/-- The lowest address bit that a level indexes (Table 18.1). -/
def levelShift : Nat → Nat
  | 1 => 39
  | 2 => 30
  | 3 => 21
  | _ => 16

/-- The bytes of the page that a leaf maps (Table 18.1). -/
def Leaf.size (l : Leaf) : Nat := 2 ^ levelShift l.level

/-- The entries of a table of a level (Table 18.1). -/
def levelEntries (level : Nat) : Nat := if level = 4 then 32 else 512

/-- The places of the valid entries of a table, ascending: an entry that nothing has written is not valid. -/
def validEntries (hbm : Memory) (table level : Nat) : List Nat :=
  (hbm.filter fun c => table ≤ c.1 && c.1 < table + 8 * levelEntries level && (c.1 - table) % 8 = 0 && c.2.getLsbD 0).map Prod.fst

/-- The leaves of a stage-2 tree from a table, with the CPA of each page, in ascending CPA. -/
def leavesFrom (hbm : Memory) (table base level : Nat) : Nat → List (Nat × Leaf)
  | 0 => []
  | fuel + 1 =>
    (validEntries hbm table level).flatMap fun at_ =>
      let e := readEntry hbm at_
      let cpa := base + (at_ - table) / 8 * 2 ^ levelShift level
      if entryLeaf e then [(cpa, { entry := e, at_ := at_, level := level })]
      else leavesFrom hbm (entryAddr e) cpa (level + 1) fuel

/-- The stage-2 leaves of a context. -/
def State.leaves2 (s : State) (ctx : CtxId) : List (Nat × Leaf) :=
  match (s.ctx ctx).root2 with
  | some t => leavesFrom s.mem.hbm t 0 1 4
  | none => []

/-! ### Keys (R288, R328, R329; log 49) -/

/-- The key in the slot that an entry names; none in an empty slot. -/
def State.keyOf (s : State) (e : Nat) : Option MemKey := (s.npu.keys.find? fun q => q.1 == entryKey e).map Prod.snd

/-- The start key, under which the firmware carve-out is kept (R328). -/
def State.startKey (s : State) : MemKey := BitVec.ofNat 256 s.boot.startKey

/-- The key that the initial bytes at an address were written under, if any was. -/
def Global.keyAt (m : Global) (pa : Nat) : Option MemKey :=
  (m.keyed.find? fun r => r.1 ≤ pa && pa < r.1 + r.2.1).map fun r => r.2.2

/-- Two keys are one, or one of the two is that of bytes which nothing has written. -/
def sameKey (a b : Option MemKey) : Bool := a.isNone || b.isNone || a == b

/-- A tweak multiplied by α in GF(2^128), as XTS defines it (R329). -/
def alphaTimes (t : BitVec 128) : BitVec 128 := (t <<< 1) ^^^ (if t.msb then 0x87 else 0)

/-- The tweak of block `k` of memory, 16 bytes from 16·k: SM4 under the tweak key of bits [51:6] of its line's address, multiplied by
α once for each earlier block of the line (R329). -/
def tweakOf (key : MemKey) (k : Nat) : BitVec 128 :=
  (List.range (k % 4)).foldl (fun t _ => alphaTimes t) (Config.sm4 (key.extractLsb' 128 128) (BitVec.ofNat 128 (k / 4 % 2 ^ 46)))

/-- A block as HBM holds it, encrypted under a key (R329). -/
def xtsEncrypt (key : MemKey) (k : Nat) (b : BitVec 128) : BitVec 128 :=
  Config.sm4 (key.extractLsb' 0 128) (b ^^^ tweakOf key k) ^^^ tweakOf key k

/-- A block as it reads under a key (R329). -/
def xtsDecrypt (key : MemKey) (k : Nat) (c : BitVec 128) : BitVec 128 :=
  Config.sm4Inv (key.extractLsb' 0 128) (c ^^^ tweakOf key k) ^^^ tweakOf key k

/-- The 16 bytes of a block written under one key, as they read under another (R288, R329). -/
def recast (old new : Option MemKey) (k : Nat) (b : List Byte) : List Byte :=
  match old, new with
  | some o, some n =>
    if o = n then b else natLe 16 (xtsDecrypt n k (xtsEncrypt o k (BitVec.ofNat 128 (leNat b)))).toNat
  | some _, none | none, _ => b

/-- A range has been written under a key. -/
def Global.setKey (m : Global) (pa size : Nat) (key : Option MemKey) : Global :=
  let rest := m.keyed.filter fun r => !(pa ≤ r.1 && r.1 + r.2.1 ≤ pa + size)
  { m with keyed := match key with
    | some k => (pa, size, k) :: rest
    | none => rest }

/-! ### Visible sets (R189) -/

/-- Vis of a sequencer or of the firmware context, by a store's writer and id: its own stores, its core's view, and what it
has acquired. -/
def State.seesBy (s : State) (core : CoreId) (crew : CrewIx) (role : Role) (w : Writer) (id : Nat) : Bool :=
  w == .seq core crew role
    || (s.core core).view.contains id
    || (match role with
      | .fw => (s.core core).fw.seq.acq.contains id
      | .x | .l | .c | .s | .hinge => ((s.crewAt core crew).seq role.stream).acq.contains id)

/-- A store to local memory in Vis. -/
def State.sees (s : State) (core : CoreId) (crew : CrewIx) (role : Role) (g : GStore) : Bool :=
  g.under.isNone && s.seesBy core crew role g.writer g.id

/-- Vis of the executing agent. -/
def State.seesHere (s : State) (g : GStore) : Bool := s.sees s.cur.core s.cur.crew s.cur.role g

/-- A store to remote memory in Vis of the executing agent. -/
def State.seesFar (s : State) (r : RemoteStore) : Bool :=
  r.under.isNone && s.seesBy s.cur.core s.cur.crew s.cur.role r.writer r.id

/-- A writer is one of some commands. -/
def Writer.isCmd (w : Writer) (cmds : List Nat) : Bool :=
  match w with
  | .cmd id => cmds.contains id
  | .seq .. | .away .. | .host _ | .npu | .peer => false

/-- What the commands of the executing sequencer read with: its set, and what its retired commands wrote (R193, R204). -/
def State.seesCmd (s : State) (g : GStore) : Bool :=
  s.seesHere g || (g.under.isNone && g.writer.isCmd s.seq.retired)

/-- The same for stores to remote memory. -/
def State.seesFarCmd (s : State) (r : RemoteStore) : Bool :=
  s.seesFar r || (r.under.isNone && r.writer.isCmd s.seq.retired)

/-- The stores of a set of ids. -/
def seesIds (ids : List Nat) (g : GStore) : Bool := ids.contains g.id

/-- The byte that a store holds for an address. -/
def GStore.byteAt (g : GStore) (pa : Nat) : Option Byte := if g.pa ≤ pa then (g.bytes[pa - g.pa]?).join else none

/-- The byte that a store to remote memory holds for an address of its peer. -/
def RemoteStore.byteAt (r : RemoteStore) (pa : Nat) : Option Byte :=
  if r.pa ≤ pa && pa < r.pa + r.size then
    (if r.writer = .npu then some 0 else (r.bytes[pa - r.pa]?).join)
  else none

/-- The coherence-latest visible byte, or the initial value (R189). -/
def Global.held (m : Global) (sees : GStore → Bool) (pa : Nat) : Byte :=
  m.stores.foldl (fun b g => if sees g then (g.byteAt pa).getD b else b) (memGet m.hbm pa)

/-- A store writes bytes of a block. -/
def GStore.meets (g : GStore) (k : Nat) : Bool := (List.range 16).any fun i => (g.byteAt (16 * k + i)).isSome

/-- The bytes of a block after a store to some of them. -/
def GStore.over (g : GStore) (k : Nat) (b : List Byte) : List Byte :=
  b.zipIdx.map fun x => (g.byteAt (16 * k + x.2)).getD x.1

/-- A block of what an agent sees holds bytes written under another key than the one it is read under. -/
def Global.mixed (m : Global) (sees : GStore → Bool) (key : Option MemKey) (k : Nat) : Bool :=
  !sameKey (m.keyAt (16 * k)) key || m.stores.any fun g => !sameKey g.key key && g.meets k && sees g

/-- A block that an agent sees, read under a key: each store takes what the block held, as it reads under the store's own key, and
lays its bytes over it (R189, R288, R329). -/
def Global.block (m : Global) (sees : GStore → Bool) (key : Option MemKey) (k : Nat) : List Byte :=
  let h := m.stores.foldl (fun (h : List Byte × Option MemKey) g =>
      if sees g && g.meets k then (g.over k (recast h.2 g.key k h.1), g.key.orElse fun _ => h.2) else h)
    (memGets m.hbm (16 * k) 16, m.keyAt (16 * k))
  recast h.2 key k h.1

/-- The byte a load through a leaf with a key returns (R189, R288). -/
def Global.load (m : Global) (sees : GStore → Bool) (key : Option MemKey) (pa : Nat) : Byte :=
  if m.mixed sees key (pa / 16) then (m.block sees key (pa / 16)).getD (pa % 16) 0 else m.held sees pa

/-- The bytes a load returns. -/
def Global.loads (m : Global) (sees : GStore → Bool) (key : Option MemKey) (pa : Nat) : Nat → List Byte
  | 0 => []
  | n + 1 => m.load sees key pa :: m.loads sees key (pa + 1) n

/-! ### Coherence order (R188) -/

/-- Where a new store of an agent may stand at the earliest: after every store to its bytes that the agent sees. -/
def coherenceFloor (sees : GStore → Bool) (pa n : Nat) (stores : List GStore) : Nat :=
  (stores.zipIdx.filter fun x => sees x.1 && x.1.pa < pa + n && pa < x.1.pa + x.1.bytes.length).foldl
    (fun m x => Max.max m (x.2 + 1)) 0

/-- Inserting at a position. -/
def insertNth (g : GStore) (l : List GStore) : Nat → List GStore
  | 0 => g :: l
  | n + 1 => match l with
    | [] => [g]
    | h :: t => h :: insertNth g t n

/-- A store is performed whole: it takes a free place among the stores its agent does not see (R188; log 7), and its words
are correctable again (R303). -/
def State.gStore (s : State) (writer : Writer) (sees : GStore → Bool) (pubs : List Pub) (key : Option MemKey) (pa : Nat)
    (b : List (Option Byte)) : State :=
  let lo := coherenceFloor (fun g => sees g || g.writer == writer) pa b.length s.mem.stores
  let room := s.mem.stores.length - lo
  let at_ := if room = 0 then lo else lo + Config.freeNat 34 s.serial % (room + 1)
  let g : GStore := { id := s.serial, pa := pa, bytes := b, key := key, writer := writer, pubs := pubs, under := none }
  { s with
    serial := s.serial + 1
    mem := { s.mem with
      stores := insertNth g s.mem.stores at_
      badHbm := s.mem.badHbm.filter fun w => !(pa < 8 * w + 8 && 8 * w < pa + b.length) } }

/-- An uncorrectable HBM word among the bytes of an access (R303). -/
def Global.bad (m : Global) (pa n : Nat) : Bool := m.badHbm.any fun w => pa < 8 * w + 8 && 8 * w < pa + n

/-! ### Dead pages (R100, R194, R289) -/

/-- A page becomes zeros, written under a key: its initial bytes, and the stores to it that a predicate picks go. -/
def Global.zeroPage (m : Global) (gone : GStore → Bool) (key : Option MemKey) (page size : Nat) : Global :=
  { (m.setKey page size key) with
    hbm := memClear m.hbm page size
    stores := m.stores.filter fun g => !(page ≤ g.pa && g.pa < page + size && gone g)
    badHbm := m.badHbm.filter fun w => !(page ≤ 8 * w && 8 * w < page + size) }

/-- The dead bit of the stage-2 leaf at a place of HBM, with every TLB that holds it (R100, R289). -/
def State.setDead (s : State) (at_ v : Nat) : State :=
  { s with
    mem := { s.mem with hbm := memSets s.mem.hbm at_ (natLe 8 (setField (readEntry s.mem.hbm at_) 63 63 v)) }
    cores := s.cores.map fun c => { c with
      tlb := c.tlb.map fun t => if t.at2 = at_ then { t with leaf2 := BitVec.ofNat 64 (setField t.leaf2.toNat 63 63 v) } else t } }

/-- The N-die sends the zeros of a dead page's first write to the peer that holds it; every core sees them (R194, R289). -/
def State.zeroPeer (s : State) (ctx : CtxId) (peer pa size : Nat) : State :=
  let r : RemoteStore :=
    { id := s.serial, peer := peer, pa := pa, va := 0, bytes := [], size := size, writer := .npu, ctx := ctx, pubs := [],
      under := none, put := some s.serial, refused := false, acked := none, shown := none }
  { s with
    serial := s.serial + 1
    mem := { s.mem with remote := s.mem.remote ++ [r] }
    cores := s.cores.map fun c => { c with view := r.id :: c.view } }

/-- THE FIRST WRITE TO A DEAD PAGE: the whole page becomes zeros and its dead bit is cleared (R289); of its stores those stay that
nothing has published. A leaf whose word is uncorrectable is not rewritten (R303). -/
def State.reviveAt (s : State) (ctx : CtxId) (at_ size : Nat) : State :=
  let e := readEntry s.mem.hbm at_
  if !entryDead e || s.mem.bad at_ 8 then s
  else
    let s := s.setDead at_ 0
    if entryRem e then s.zeroPeer ctx (entryKey e) (entryAddr e) size
    else { s with mem := s.mem.zeroPage (fun g => !g.pubs.isEmpty || g.writer == .peer) (s.keyOf e) (entryAddr e) size }

/-- The same for the leaf that a write goes through. -/
def State.revive (s : State) (ctx : CtxId) (l : Leaf) : State :=
  if entryDead l.entry then s.reviveAt ctx l.at_ l.size else s

/-- The dead leaves of every context. -/
def State.deadLeaves (s : State) : List Leaf :=
  ctxIds.flatMap fun k => ((s.leaves2 k).map Prod.snd).filter fun l => entryDead l.entry

/-- A leaf maps bytes of a range of local memory, or of a peer's. -/
def Leaf.over (l : Leaf) (peer : Option Nat) (pa n : Nat) : Bool :=
  peer == (if entryRem l.entry then some (entryKey l.entry) else none) && entryAddr l.entry < pa + n && pa < entryAddr l.entry + l.size

/-- A STORE THAT IS PUBLISHED revives its page, whichever context's `discard` has marked it: every dead leaf that maps it (R100,
R194). -/
def State.reviveFor (s : State) (ctx : CtxId) (peer : Option Nat) (pa n : Nat) : State :=
  (s.deadLeaves.filter fun l => l.over peer pa n).foldl (fun s l => s.reviveAt ctx l.at_ l.size) s

/-- Where no leaf is dead nothing is revived. -/
theorem State.reviveFor_alive {s : State} (h : s.deadLeaves = []) (ctx : CtxId) (peer : Option Nat) (pa n : Nat) :
    s.reviveFor ctx peer pa n = s := by simp [State.reviveFor, h]

/-! ### Publication and acquisition (R190, R191, R197) -/

/-- A publication now, by an agent that stands at a spot. -/
def State.pubNow (s : State) (sc : Scope) (p : Spot) : Pub :=
  { scope := sc, clock := s.cycle, core := p.core, crew := p.crew, ctx := p.ctx, launch := p.launch, team := p.team }

/-- An earlier publication reaches every agent that a later one of the same issuer would: it is at that scope or wider, but a
die's does not reach a team that stands on several dies (R190, R200). -/
def Pub.covers (q p : Pub) : Bool :=
  scopeRank p.scope ≤ scopeRank q.scope && !(q.scope = .die && p.scope = .team) && (4 ≤ scopeRank q.scope || p.spot == q.spot)

/-- The publications of a store after one more. -/
def addPub (p : Pub) (pubs : List Pub) : List Pub := if pubs.any fun q => q.covers p then pubs else p :: pubs

/-- Stores that a predicate on their writers picks are published. -/
def Global.publish (m : Global) (mine : Writer → Bool) (p : Pub) : Global :=
  { m with
    stores := m.stores.map fun g => if mine g.writer then { g with pubs := addPub p g.pubs, under := none } else g
    remote := (m.remote.filter fun r => !(mine r.writer && r.under.isSome)).map (fun r =>
        if mine r.writer then { r with pubs := addPub p r.pubs } else r)
      ++ (m.remote.filter fun r => mine r.writer && r.under.isSome).map fun r =>
        { r with pubs := addPub p r.pubs, under := none } }

/-- The pages of the stores that nothing has published and a predicate on writers picks are revived. -/
def State.reviveStored (s : State) (ctx : CtxId) (mine : Writer → Bool) : State :=
  (s.mem.stores.filter fun g => mine g.writer && g.pubs.isEmpty).foldl (fun s g => s.reviveFor ctx none g.pa g.bytes.length) s

theorem State.reviveStored_alive {s : State} (h : s.deadLeaves = []) (ctx : CtxId) (mine : Writer → Bool) :
    s.reviveStored ctx mine = s := by
  unfold State.reviveStored
  induction s.mem.stores.filter _ with
  | nil => rfl
  | cons g l ih => rw [List.foldl_cons, State.reviveFor_alive h, ih]

/-- A publication of what a predicate on writers picks. A store that a `discard` found unpublished on its page, and one made since,
land on the revived page (R100, R194). -/
def State.publishAs (s : State) (ctx : CtxId) (mine : Writer → Bool) (p : Pub) : State :=
  let leaves := ((s.mem.stores.filter fun g => mine g.writer).filterMap fun g => g.under)
    ++ (s.mem.remote.filter fun r => mine r.writer).filterMap fun r => r.under
  let s := (leaves.foldl (fun s l => s.reviveAt ctx l.1 l.2) s).reviveStored ctx mine
  { s with mem := s.mem.publish mine p }

/-- The stores a publication of the executing sequencer covers: its own and those of its retired commands (R97). -/
def State.coversMine (s : State) (w : Writer) : Bool :=
  w == .seq s.cur.core s.cur.crew s.cur.role || w.isCmd s.seq.retired

/-- `pub`, in the issuer's own device (R97, R190). The tokens that the sequencer pushes later carry what it has published of its
retired commands (R196). -/
def State.publish (s : State) (sc : Scope) : State :=
  (s.publishAs s.ctxHere s.coversMine (s.pubNow sc s.spotHere)).modSeq fun q => { q with reported := addIds q.reported q.retired }

/-- A store's publications bring it into an acquisition at a scope by an agent, given which publication clocks count
(R191). -/
def pubsReach (sc : Scope) (a : Spot) (ok : Nat → Bool) (pubs : List Pub) : Bool :=
  pubs.any fun p => ok p.clock && p.reaches a && within sc a p.spot

/-- The stores an acquisition at a scope brings in (R191). Puts of peers come in at dom scope alone (R201). -/
def Global.acquired (m : Global) (sc : Scope) (a : Spot) (ok : Nat → Bool) : List Nat :=
  ((m.stores.filter fun g => (sc = .dom || !(g.writer == .peer)) && pubsReach sc a ok g.pubs).map fun g => g.id)
    ++ (m.remote.filter fun r => pubsReach sc a ok r.pubs).map fun r => r.id

/-- What the gets of a core answer is stale, as their lines may be older than its acquisition, and what they were refused is
forgotten: its loads ask again (R202). -/
def Global.dropGets (m : Global) (core : CoreId) : Global :=
  { m with
    gets := m.gets.map fun g => if g.core = core then { g with stale := true } else g
    refusals := m.refusals.filter fun r => !(r.core == core) }

/-- An acquisition by an agent of a core: the core's view grows (R191); at dom scope its remote lines go (R202). -/
def State.acquire (s : State) (core : CoreId) (a : Spot) (sc : Scope) (ok : Nat → Bool) : State :=
  let ids := s.mem.acquired sc a ok
  let s : State := if sc = .dom then { s with mem := s.mem.dropGets core } else s
  s.modCore core fun c => { c with
    view := addIds c.view ids,
    lines := if sc = .dom then [] else c.lines }

/-- The stores of a set of commands. -/
def Global.ofCmds (m : Global) (cmds : List Nat) : List Nat :=
  ((m.stores.filter fun g => g.writer.isCmd cmds).map fun g => g.id)
    ++ (m.remote.filter fun r => r.writer.isCmd cmds).map fun r => r.id

/-- A sequencer acquires the bytes of retired commands (R196, R197). -/
def State.acquireCmds (s : State) (cmds : List Nat) : State :=
  s.modSeq fun q => { q with acq := addIds q.acq (s.mem.ofCmds cmds) }

/-! ### Publication to peers (R201, R287) -/

/-- A store to remote memory whose put its device has not acknowledged. -/
def RemoteStore.open_ (r : RemoteStore) : Bool := r.acked.isNone

/-- The executing agent's stores to remote memory that a publication at dom scope covers and that are not delivered. -/
def State.remoteMine (s : State) (r : RemoteStore) : Bool :=
  r.writer == .seq s.cur.core s.cur.crew s.cur.role && r.open_

/-- Revival of the pages that held stores of an agent lie on, where a `discard` has taken them (R100, R194). -/
def State.reviveHeld (s : State) (mine : RemoteStore → Bool) : State :=
  let s := (s.mem.remote.filter fun r => mine r && r.put.isNone).foldl (fun s r => s.reviveFor r.ctx (some r.peer) r.pa r.size) s
  let held := s.mem.remote.filter fun r => mine r && r.under.isSome
  let s := held.foldl (fun s r => match r.under with
    | some l => s.reviveAt r.ctx l.1 l.2
    | none => s) s
  let others := s.mem.remote.filter fun r => !(mine r && r.under.isSome)
  { s with mem := { s.mem with remote := others ++ held.map (fun r => { r with under := none }) } }

/-- The zeros of a page are on their way to a peer, and a put to that page has to be performed after them (R201, R289). -/
def Global.zerosOpen (m : Global) (peer pa : Nat) : Bool :=
  m.remote.any fun z => z.writer == .npu && z.open_ && !z.refused && z.peer == peer && z.pa ≤ pa && pa < z.pa + z.size

/-- Two stores to one peer have bytes in common. -/
def RemoteStore.meets (r h : RemoteStore) : Bool := r.peer == h.peer && r.pa < h.pa + h.size && h.pa < r.pa + r.size

/-- An agent's loads, or its commands, see a store to remote memory. -/
def State.viewsFar (s : State) (core : CoreId) (crew : CrewIx) (role : Role) (r : RemoteStore) : Bool :=
  r.under.isNone && (s.seesBy core crew (if role = .hinge then .x else role) r.writer r.id
    || r.writer.isCmd (match role with
      | .fw => (s.core core).fw.seq.retired
      | .x | .l | .c | .s => ((s.crewAt core crew).seq role.stream).retired
      | .hinge => (s.crewAt core crew).hinge.cmd.toList ++ (s.crewAt core crew).seqX.retired))

/-- Some agent sees both of two stores to remote memory: it has read them in the order in which they stand, or may (R189, R198). -/
def State.bothSeen (s : State) (r h : RemoteStore) : Bool :=
  crewIds.any fun q => ([.x, .l, .c, .s, .hinge, .fw] : List Role).any fun k => s.viewsFar q.1 q.2 k r && s.viewsFar q.1 q.2 k h

/-- A store that is sent stands before an earlier one in coherence order: they share no byte, or the other is still held, its
sender does not see it, and nobody sees both (R188; log 7). -/
def State.passes (s : State) (sees : RemoteStore → Bool) (r h : RemoteStore) : Bool :=
  !r.meets h || (h.put.isNone && !sees h && !s.bothSeen r h)

/-- A store that is sent takes its place among those before it, the latest of them first. -/
def RemoteStore.place (r : RemoteStore) (passes : RemoteStore → Bool) : List RemoteStore → List RemoteStore
  | [] => [r]
  | h :: l => if passes h then h :: r.place passes l else r :: h :: l

/-- Sending, as puts, the held stores that a predicate picks, but for those to a page whose zeros are on their way: each takes a
number (R201), and its place in coherence order, which for stores of agents that do not see each other is the order in which
they are sent (DESIGN CHOICE, log 7). `sees` tells what the sender of the first store sees. -/
def State.sendOwn (s : State) (mine : RemoteStore → Bool) (sees : RemoteStore → RemoteStore → Bool) : State :=
  let out := s.mem.remote.foldl (fun (acc : List RemoteStore × Nat) r =>
    if mine r && r.put.isNone && !s.mem.zerosOpen r.peer r.pa then
      (({ r with put := some acc.2 } : RemoteStore).place (s.passes (sees r) r) acc.1, acc.2 + 1)
    else (r :: acc.1, acc.2)) ([], s.serial)
  { s with mem := { s.mem with remote := out.1.reverse }, serial := out.2 }

/-- The puts of the executing sequencer, once the pages that a `discard` took are revived: the zeros of such a page go first
(R100, R289). -/
def State.sendPuts (s : State) : State := (s.reviveHeld s.remoteMine).sendOwn s.remoteMine fun _ => s.seesFar

/-- After a refused put has been reported, its store is held again. -/
def State.holdRefused (s : State) : State :=
  let back (r : RemoteStore) : RemoteStore :=
    if s.remoteMine r && r.refused then { r with put := none, refused := false, shown := none } else r
  { s with mem := { s.mem with remote := s.mem.remote.map back } }

/-- Where a publication at dom scope stands: puts to send or unacknowledged, one refused, or all delivered. -/
inductive Delivery where
  | unsent
  | waiting
  | refused (va : XWord)
  | delivered
  deriving DecidableEq, Repr

def State.delivery (s : State) (mine : RemoteStore → Bool) : Delivery :=
  let l := s.mem.remote.filter mine
  if l.any (fun r => r.put.isNone && (r.under.isSome || !s.mem.zerosOpen r.peer r.pa)) then .unsent
  else if l.any (fun r => !r.refused) then .waiting
  else match l with
    | r :: _ => .refused r.va
    | [] => .delivered

/-- What an agent has asked of peers, and their refusals, are forgotten. -/
def Global.forgetGets (m : Global) (core : CoreId) (crew : CrewIx) (ok : Role → Bool) : Global :=
  { m with
    gets := m.gets.map fun g => if g.core = core && g.crew = crew && ok g.role then { g with stale := true } else g
    refusals := m.refusals.filter fun g => !(g.core == core && g.crew == crew && ok g.role) }

/-! ### Moving a page (R294) -/

/-- A page holds bytes written under another key than its leaf's. -/
def Global.foreign (m : Global) (pa size : Nat) (key : Option MemKey) : Bool :=
  (m.keyed.any fun r => r.1 < pa + size && pa < r.1 + r.2.1 && !sameKey (some r.2.2) key)
    || m.stores.any fun g => pa ≤ g.pa && g.pa < pa + size && !sameKey g.key key

/-- The bytes of a page as they read under its leaf's key, whatever key each was written under: the initial ones, and each store
under another key as whole blocks, with what the stores before it had left there (R329). -/
def Global.recastPage (m : Global) (pa size : Nat) (key : Option MemKey) : Global :=
  let alien (g : GStore) : Bool := pa ≤ g.pa && g.pa < pa + size && !sameKey g.key key
  let whole (before : List GStore) (g : GStore) : GStore :=
    let lo := g.pa / 16
    let n := (g.pa + g.bytes.length + 15) / 16 - lo
    let m : Global := { m with stores := before ++ [g] }
    { g with pa := 16 * lo, key := key
             bytes := (List.range n).flatMap fun i => (m.block (fun h => h.under.isNone || h == g) key (lo + i)).map some }
  let out := m.stores.foldl (fun (acc : List GStore × List GStore) g =>
    (acc.1 ++ [g], acc.2 ++ [if alien g then whole acc.1 g else g])) ([], [])
  { (m.setKey pa size key) with
    hbm := (List.range (size / 16)).foldl (fun h i =>
      let k := pa / 16 + i
      if sameKey (m.keyAt (16 * k)) key then h else memSets h (16 * k) (recast (m.keyAt (16 * k)) key k (memGets m.hbm (16 * k) 16)))
      m.hbm
    stores := out.2 }

/-- Moving the contents of a page to another place: its initial bytes and its stores, decrypted at the old place and encrypted
at the new under the key of its leaf (R294, R329). -/
def Global.movePage (m : Global) (src dst size : Nat) (key : Option MemKey) : Global :=
  let inside (a : Nat) : Bool := src ≤ a && a < src + size
  let m := if m.foreign src size key then m.recastPage src size key else m
  { (m.setKey dst size key) with
    hbm := (m.hbm.filter fun c => inside c.1).foldl (fun h c => memSet h (c.1 - src + dst) c.2) (memClear m.hbm dst size)
    stores := (m.stores.filter fun g => !(dst ≤ g.pa && g.pa < dst + size)).map fun g =>
      if inside g.pa then { g with pa := g.pa - src + dst } else g
    badHbm := m.badHbm.filter fun w => !(dst ≤ 8 * w && 8 * w < dst + size) }

end Sys2Proof.Machine
end

