-- ==== Sys2Proof/Machine/Translate.lean ====
section
/-! DEFINITION. Two-stage translation (R282 to R293), code fetch (R286, R295) and the global accesses of an agent
(R80, R189, R201, R202). -/

namespace Sys2Proof

/-- The opcode of a message (Table 19.2). -/
def ScpMsg.opcode (m : ScpMsg) : Nat := Machine.field m.hdr.toNat 55 48

/-- Byte `i` of a payload. -/
def ScpMsg.byte (m : ScpMsg) (i : Nat) : Nat := (m.payload.getD i 0).toNat

/-- `n` bytes of a payload from byte `i`, as a number. -/
def ScpMsg.num (m : ScpMsg) (i n : Nat) : Nat := Machine.leNat ((m.payload.drop i).take n)

end Sys2Proof

namespace Sys2Proof.Machine

/-! ### Tables and entries (R284, R285) -/

/-- The access kinds of `trapcause.info` (Table 5.2): 0 read, 1 write, 2 fetch. -/
inductive Access where
  | read | write | fetch
  deriving DecidableEq, Repr

def Access.num : Access → BitVec 16
  | .read => 0
  | .write => 1
  | .fetch => 2

/-- The index that an address has at a level. -/
def levelIndex (level a : Nat) : Nat := a / 2 ^ levelShift level % levelEntries level

/-- An entry is malformed at a level (R285). -/
def entryMalformed (stage1 : Bool) (level e : Nat) : Bool :=
  field e 11 6 ≠ 0
    || (entryLeaf e && level = 1) || (!entryLeaf e && level = 4)
    || (entryLeaf e && entryAddr e % 2 ^ levelShift level ≠ 0)
    || (stage1 && (ebit e 63 || field e 62 53 ≠ 0 || ebit e 52 || ebit e 5 || field e 51 48 ≠ 0))

/-- The address that a leaf gives for an address. -/
def Leaf.target (l : Leaf) (a : Nat) : Nat := entryAddr l.entry + a % 2 ^ levelShift l.level

/-- The stage-2 walk from a table (R283): `none` at an invalid or malformed entry. -/
def walk2From (hbm : Memory) (table a : Nat) (level : Nat) : Nat → Option Leaf
  | 0 => none
  | fuel + 1 =>
    let at_ := table + 8 * levelIndex level a
    let e := readEntry hbm at_
    if !entryValid e || entryMalformed false level e then none
    else if entryLeaf e then some { entry := e, at_ := at_, level := level }
    else walk2From hbm (entryAddr e) a (level + 1) fuel

/-- The stage-2 walk of a context (R283). -/
def walk2 (hbm : Memory) (root : Option Nat) (cpa : Nat) : Option Leaf :=
  match root with
  | some t => walk2From hbm t cpa 1 4
  | none => none

/-- The places of the entries that a stage-2 walk reads. -/
def places2From (hbm : Memory) (table a : Nat) (level : Nat) : Nat → List Nat
  | 0 => []
  | fuel + 1 =>
    let at_ := table + 8 * levelIndex level a
    let e := readEntry hbm at_
    at_ :: (if !entryValid e || entryMalformed false level e || entryLeaf e then []
      else places2From hbm (entryAddr e) a (level + 1) fuel)

def places2 (hbm : Memory) (root : Option Nat) (cpa : Nat) : List Nat :=
  match root with
  | some t => places2From hbm t cpa 1 4
  | none => []

/-- Where the stage-1 walk ends: its leaf, a stage-1 fault, or a stage-2 fault on a table (R283, Table 18.3). -/
inductive Walk1 where
  | leaf (l : Leaf)
  | fault1
  | fault2
  deriving DecidableEq, Repr

/-- The stage-1 walk from a table given as a CPA; every table is reached through stage 2, and read by `rd` under the key of
its page, or not at all where that key's slot is empty (R283, R339). The places of all entries read come with it. -/
def walk1From (hbm : Memory) (rd : Leaf → Nat → Option Nat) (root2 : Option Nat) (table va : Nat) (level : Nat) :
    Nat → Walk1 × List Nat
  | 0 => (.fault1, [])
  | fuel + 1 =>
    let p := places2 hbm root2 table
    match walk2 hbm root2 table with
    | none => (.fault2, p)
    | some l =>
      let at_ := l.target table + 8 * levelIndex level va
      match rd l at_ with
      | none => (.fault2, p)
      | some e =>
        if !entryValid e || entryMalformed true level e then (.fault1, p ++ [at_])
        else if entryLeaf e then (.leaf { entry := e, at_ := at_, level := level }, p ++ [at_])
        else
          let r := walk1From hbm rd root2 (entryAddr e) va (level + 1) fuel
          (r.1, p ++ at_ :: r.2)

/-- A stage-1 entry as the walk reads it, under the key of its table's page (R339, R329). -/
def State.tableEntry (s : State) (l : Leaf) (at_ : Nat) : Option Nat :=
  match s.keyOf l.entry with
  | none => none
  | some k => some (leNat (s.mem.loads (fun _ => false) (some k) at_ 8))

/-- The stage-1 walk of a context. -/
def State.walk1 (s : State) (ctx : CtxId) (va : Nat) : Walk1 × List Nat :=
  match (s.ctx ctx).root1 with
  | some t => walk1From s.mem.hbm s.tableEntry (s.ctx ctx).root2 t va 1 4
  | none => (.fault1, [])

/-! ### Translation (R286) -/

/-- A complete translation: the physical address, both leaves, the bytes of the page that both map whole, the key, and the places
of the entries that the walk read. -/
structure Xlat where
  pa : Nat
  size : Nat
  leaf1 : Nat
  leaf2 : Leaf
  key : Option MemKey
  places : List Nat
  deriving DecidableEq, Repr

/-- The peer that holds the page of a translation, if one does. -/
def Xlat.peer (x : Xlat) : Option Nat := if entryRem x.leaf2.entry then some (entryKey x.leaf2.entry) else none

/-- The end of a translation. -/
inductive Tr where
  | ok (x : Xlat)
  | fault (code : BitVec 8)
  deriving DecidableEq, Repr

/-- A peer entry is valid (R313); where it is not, no peer can serve the access (R287; log 38). -/
def State.peerValid (s : State) (i : Nat) : Bool := s.npu.peers.any fun q => q.1 == i && q.2.getLsbD 0

/-- A stage-1 MAP of a page has been accepted and not acknowledged: an access may find the old entry already invalid (R292,
R293; log 9). -/
def State.breaking (s : State) (ctx : CtxId) (va : Nat) : Bool :=
  (s.npu.cmds.any fun c =>
    let m := c.msg
    c.status = 0 && m.opcode = 7 && m.byte 0 = 1 && m.byte 1 = ctx.val && m.num 8 8 ≤ va
      && va < m.num 8 8 + m.num 24 8 * 2 ^ levelShift (m.byte 2))
  && Config.freeNat 35 (s.tick * 2 ^ 48 + va / 65536) % 2 = 1

/-- By what an access is translated: a TLB of the executing core; the tables alone, for an agent without a TLB; or the command
processor, which is past every MAP that it has applied and before every later one (R290, R310). -/
inductive Via where
  | tlb (unit : Nat)
  | walk
  | ndie
  deriving DecidableEq, Repr

/-- A held translation serves an address of a context. -/
def TlbEntry.serves (t : TlbEntry) (unit : Nat) (tag : Option CtxId) (va : Nat) : Bool :=
  t.unit == unit && t.ctx == tag && t.page * 65536 ≤ va && va < t.page * 65536 + t.size

/-- An uncorrectable word among the entries that a walk reads, unless the TLB that serves the access spares the walk, or the walk
cache of its core that entry (R303, R290). -/
def State.walkBad (s : State) (via : Via) (ctx : CtxId) (va : Nat) (places : List Nat) : Bool :=
  match via with
  | .tlb u => !(s.here.tlb.any fun t => t.serves u (some ctx) va)
      && places.any fun a => s.mem.bad a 8 && !s.here.walks.any fun w => w.ctx == ctx && w.at_ == a
  | .walk | .ndie => places.any fun a => s.mem.bad a 8

/-- Table 18.3: the first condition that fails decides; an uncorrectable word of a table that the walk consumes traps HBM_ECC, and so
does that of a dead leaf which a write would rewrite (R303, R289). -/
def State.translate (s : State) (via : Via) (ctx : CtxId) (va : Nat) (acc : Access) : Tr :=
  let code (c : BitVec 8) : BitVec 8 := if acc = .fetch then codeInstPerm else c
  let root2 := (s.ctx ctx).root2
  if 2 ^ 48 ≤ va then .fault (code codePageNp)
  else
    let w := s.walk1 ctx va
    if s.walkBad via ctx va w.2 then .fault codeHbmEcc
    else match w.1 with
    | .fault1 => .fault (code codePageNp)
    | .fault2 => .fault (code codeStage2)
    | .leaf l1 =>
      let cpa := l1.target va
      let p := places2 s.mem.hbm root2 cpa
      if via ≠ .ndie && s.breaking ctx va then .fault (code codePageNp)
      else if s.walkBad via ctx va p then .fault codeHbmEcc
      else match walk2 s.mem.hbm root2 cpa with
      | none => .fault (code codeStage2)
      | some l2 =>
        let may (e : Nat) : Bool := match acc with
          | .read => entryR e
          | .write => entryW e
          | .fetch => entryX e
        if !may l1.entry then .fault (code codePagePerm)
        else if !may l2.entry || (acc = .write && entryTbl l2.entry) then .fault (code codeStage2)
        else if !entryRem l2.entry && (s.keyOf l2.entry).isNone then .fault (code codeStage2)
        else if acc = .fetch && entryRem l2.entry then .fault codeInstPerm
        else if entryRem l2.entry && !s.peerValid (entryKey l2.entry) then .fault codeStage2
        else if acc = .write && entryDead l2.entry && s.mem.bad l2.at_ 8 then .fault codeHbmEcc
        else .ok { pa := l2.target cpa, size := Min.min l1.size l2.size, leaf1 := l1.entry, leaf2 := l2
                   key := if entryRem l2.entry then none else s.keyOf l2.entry, places := w.2 ++ p }

/-- The firmware tables (R283, R321): the body and data of the core's die from address 0, the table region read-only
from 2^40, nothing else (log 11); the carve-out is kept under the start key (R328). -/
def State.fwTranslate (s : State) (core : CoreId) (va : Nat) (acc : Access) : Tr :=
  let leaf : Leaf := { entry := 0, at_ := 0, level := 4 }
  let x (pa : Nat) : Xlat := { pa := pa, size := 65536, leaf1 := 0, leaf2 := leaf, key := some s.startKey, places := [] }
  if va < Config.fwSpan then .ok (x (Config.fwBody (dieOf core).val + va))
  else if 2 ^ 40 ≤ va && va < 2 ^ 40 + Config.tableCount * 4096 then
    (match acc with
    | .read => .ok (x (Config.tableBase + (va - 2 ^ 40)))
    | .write => .fault codePagePerm
    | .fetch => .fault codeInstPerm)
  else .fault (if acc = .fetch then codeInstPerm else codePageNp)

/-- The TLB that serves a stream's data (R290). -/
def tlbOf : Role → Nat
  | .c => 2
  | .l => 3
  | .s => 4
  | .hinge => 5
  | .x | .fw => 0

/-- Translation for the executing agent: a block's context, or the firmware tables. -/
def State.translateHere (s : State) (va : Nat) (acc : Access) : Tr :=
  if s.cur.role = .fw then s.fwTranslate s.cur.core va acc else s.translate (.tlb (tlbOf s.cur.role)) s.crew.ctx va acc

/-- The trap of a translation fault: `trapaddr` the virtual address, the access kind in `info` (Table 5.2). -/
def xlatTrap (code : BitVec 8) (va : Nat) (acc : Access) : TrapReq :=
  { code := code, info := acc.num, addr := BitVec.ofNat 64 va }

/-! ### TLBs (R290) -/

/-- Entries of a TLB: scalar 0; vector 1, matrix 2, copy 3 and 4, Hinge 5. -/
def tlbSize (unit : Nat) : Nat := if unit = 0 then 96 else 32

/-- The context that tags the executing agent's translations; `none` for the firmware's own tables. -/
def State.tlbTag (s : State) : Option CtxId := if s.cur.role = .fw then none else some s.crew.ctx

/-- A translation that succeeded enters its TLB, the oldest entry leaving when it is full, and the non-leaf entries of its
walk enter the cache that the walks of the core share (R290). -/
def State.tlbFill (s : State) (core : CoreId) (unit : Nat) (tag : Option CtxId) (va : Nat) (x : Xlat) : State :=
  let page := va / x.size * x.size / 65536
  let e : TlbEntry := { unit := unit, ctx := tag, page := page, size := x.size, leaf1 := BitVec.ofNat 64 x.leaf1,
                        leaf2 := BitVec.ofNat 64 x.leaf2.entry, at2 := x.leaf2.at_ }
  let w : List WalkEntry := match tag with
    | some k => (x.places.filter fun a => !entryLeaf (readEntry s.mem.hbm a) && !s.mem.bad a 8).map fun a =>
        { ctx := k, at_ := a, entry := BitVec.ofNat 64 (readEntry s.mem.hbm a) }
    | none => []
  s.modCore core fun c =>
    let same (t : TlbEntry) : Bool := t.unit == unit && t.ctx == tag && t.page == page
    let mine := c.tlb.filter fun t => t.unit == unit && !same t
    let others := c.tlb.filter fun t => !(t.unit == unit)
    { c with
      tlb := (e :: mine).take (tlbSize unit) ++ others
      walks := w.foldl (fun l e => if l.contains e then l else e :: l) c.walks }

/-- A stream TLB that has translated a page also fetches the translation of the next one in the direction of its command's walk; a
fault met leaves nothing (R291). -/
def State.tlbNext (s : State) (ctx : CtxId) (unit : Nat) (va : Nat) (x : Xlat) (acc : Access) (down : Bool) : State :=
  let first := va / x.size * x.size
  if down && first = 0 then s
  else
    let page := if down then first - 65536 else first + x.size
    match s.translate (.tlb unit) ctx page acc with
    | .ok y => s.tlbFill s.cur.core unit (some ctx) page y
    | .fault _ => s

/-- A translation for a command enters its stream TLB, and the next page's with it (R290, R291). -/
def State.tlbWalk (s : State) (ctx : CtxId) (unit : Nat) (va : Nat) (x : Xlat) (acc : Access) (down : Bool) : State :=
  (s.tlbFill s.cur.core unit (some ctx) va x).tlbNext ctx unit va x acc down

/-- The executing agent's translation enters its TLB; that of an image, or of a descriptor in memory, brings the next page's
(R290, R291). -/
def State.tlbHere (s : State) (va : Nat) (x : Xlat) (acc : Access) : State :=
  match s.cur.role with
  | .l | .c | .s | .hinge => s.tlbWalk s.crew.ctx (tlbOf s.cur.role) va x acc false
  | .x | .fw => s.tlbFill s.cur.core (tlbOf s.cur.role) s.tlbTag va x

/-- Invalidation of every TLB and walk cache of the device for a context (R292). -/
def State.tlbDrop (s : State) (ctx : CtxId) : State :=
  { s with cores := s.cores.map fun c => { c with
    tlb := c.tlb.filter fun t => !(t.ctx == some ctx)
    walks := c.walks.filter fun t => !(t.ctx == ctx) } }

/-! ### Global accesses of a sequencer (R80, R189, R201, R202) -/

/-- The end of a global access. -/
inductive MemRes where
  | bytes (b : List Byte) (s : State)
  | stored (s : State)
  | trap (t : TrapReq)
  /-- waits for an answer from a peer; the state notes the get -/
  | wait (note : State → State)
  | stop (f : Fault)

/-- A peer had performed a put by a point of time: it had been acknowledged, or a line had shown it (R201, R202). -/
def RemoteStore.doneBy (r : RemoteStore) (at_ : Nat) : Bool := r.acked.any (· < at_) || r.shown.any (· < at_)

/-- A peer's line holds a store: its put was known to be performed before the line was asked for, or was performed before it was
served (R202). -/
def RemoteLine.holds (l : RemoteLine) (r : RemoteStore) : Bool := !r.refused && r.put.any fun p => l.has.contains p || r.doneBy l.at_

/-- The coherence-latest byte of a peer's line and of the stores of a visible set: a store that the line holds gives way to what the
line holds (R189, R193, R202). -/
def State.remoteByte (s : State) (sees : RemoteStore → Bool) (line : RemoteLine) (pa : Nat) : Byte :=
  let held := line.bytes.getD (pa - line.pa) 0
  s.mem.remote.foldl (fun b r =>
    if r.peer ≠ line.peer then b
    else match r.byteAt pa with
      | none => b
      | some v => if line.holds r then held else if sees r then v else b) held

/-- The bytes from an address, each by a function. -/
def bytesFrom (f : Nat → Byte) (a : Nat) : Nat → List Byte
  | 0 => []
  | n + 1 => f a :: bytesFrom f (a + 1) n

/-- A load from a peer: from the view, or a get (R202); a refused get raises STAGE2 (R287). -/
def State.remoteLoad (s : State) (sees : RemoteStore → Bool) (va peer pa n : Nat) : MemRes :=
  let base := pa / 64 * 64
  match s.here.lines.find? fun l => l.peer == peer && l.pa == base with
  | some l => .bytes (bytesFrom (s.remoteByte sees l) pa n) s
  | none =>
    if s.mem.refusals.any fun r =>
        r.core == s.cur.core && r.crew == s.cur.crew && r.role == s.cur.role && r.peer == peer && r.pa == base then
      .trap (xlatTrap codeStage2 va .read)
    else .wait fun s =>
      if s.mem.gets.any fun g =>
          !g.stale && g.core == s.cur.core && g.crew == s.cur.crew && g.role == s.cur.role && g.peer == peer && g.pa == base then s
      else { s with
        serial := s.serial + 1
        mem := { s.mem with gets := s.mem.gets ++
          [{ num := s.serial, stale := false, core := s.cur.core, crew := s.cur.crew, role := s.cur.role, ctx := s.ctxHere,
             peer := peer, pa := base }] } }

/-- A load of `n` bytes within one page by the executing sequencer, with a visible set: steps 2 to 4 of R80. -/
def State.memLoadBy (s : State) (sees : GStore → Bool) (far : RemoteStore → Bool) (va n : Nat) : MemRes :=
  match s.translateHere va .read with
  | .fault c => .trap (xlatTrap c va .read)
  | .ok x =>
    let s := s.tlbHere va x .read
    if entryDead x.leaf2.entry then .bytes (List.replicate n 0) s
    else if entryRem x.leaf2.entry then s.remoteLoad far va (entryKey x.leaf2.entry) x.pa n
    else if Config.hbmBytes < x.pa + n then .stop .noSuchPhysical
    else if s.mem.bad x.pa n then .trap (xlatTrap codeHbmEcc va .read)
    else .bytes (s.mem.loads sees x.key x.pa n) s

/-- A load with the sequencer's own visible set (R189). -/
def State.memLoad (s : State) (va n : Nat) : MemRes := s.memLoadBy s.seesHere s.seesFar va n

/-- A store to remote memory joins those of its device (R201): a sequencer's is held, a command's is sent. It stands last in
coherence order until it is sent (DESIGN CHOICE where another agent's store is not ordered with it, log 7). -/
def State.farStore (s : State) (writer : Writer) (ctx : CtxId) (x : Xlat) (va : Nat) (b : List (Option Byte)) : State :=
  let r : RemoteStore :=
    { id := s.serial, peer := entryKey x.leaf2.entry, pa := x.pa, va := BitVec.ofNat 64 va, bytes := b, size := b.length,
      writer := writer, ctx := ctx, pubs := [], under := none, put := none, refused := false, acked := none, shown := none }
  { s with serial := s.serial + 1, mem := { s.mem with remote := s.mem.remote ++ [r] } }

/-- A store by the executing sequencer, performed in its own view (R81, R190, R201). -/
def State.memStore (s : State) (va : Nat) (b : List Byte) : MemRes :=
  match s.translateHere va .write with
  | .fault c => .trap (xlatTrap c va .write)
  | .ok x =>
    let writer := Writer.seq s.cur.core s.cur.crew s.cur.role
    if entryRem x.leaf2.entry then
      .stored (((s.tlbHere va x .write).revive s.ctxHere x.leaf2).farStore writer s.ctxHere x va (b.map some))
    else if Config.hbmBytes < x.pa + b.length then .stop .noSuchPhysical
    else
      let s := (s.tlbHere va x .write).revive s.ctxHere x.leaf2
      .stored (s.gStore writer s.seesHere [] x.key x.pa (b.map some))

/-! ### Code fetch (R42, R286, R295) -/

/-- The end of a fetch: the word, the line now held and the translation it took, or the address that faults INST_PERM. -/
inductive Fetched where
  | word (w : W32) (line : XWord × List Byte) (x : Option Xlat)
  | perm
  /-- an uncorrectable HBM word in the line, or in a table on the way to it (R303) -/
  | ecc
  | stop (f : Fault)

/-- The word at an offset of a line. -/
def lineWord (b : List Byte) (pc : XWord) : W32 := bytesWord ((b.drop (pc.toNat % 64)).take 4)

/-- A fault of a fetch's translation. -/
def Fetched.ofFault (code : BitVec 8) : Fetched := if code = codeHbmEcc then .ecc else .perm

/-- Taking a word from another line than the one held: the code range, then translation through the loader's tables
(R286, R311), then the 64 bytes of the line; a dead page reads as zeros and reads no HBM (R289). -/
def State.fetchLine (s : State) (pc : XWord) : Fetched :=
  let base := pc.toNat / 64 * 64
  let load (x : Xlat) : Fetched :=
    let got (b : List Byte) : Fetched := .word (lineWord b pc) (BitVec.ofNat 64 base, b) (some x)
    if entryDead x.leaf2.entry then got (List.replicate 64 0)
    else if Config.hbmBytes < x.pa + 64 then .stop .noSuchPhysical
    else if s.mem.bad x.pa 64 then .ecc
    else got (s.mem.loads s.seesHere x.key x.pa 64)
  if s.cur.role = .fw then
    (match s.fwTranslate s.cur.core base .fetch with
    | .ok x => load x
    | .fault c => .ofFault c)
  else match s.crew.block with
    | none => .perm
    | some k =>
      if k.revoked || pc.toNat < k.cva || k.cva + 4 * k.words ≤ pc.toNat then .perm
      else match s.translate (.tlb 1) k.loader base .fetch with
        | .ok x => load x
        | .fault c => .ofFault c

/-- The word at an address, from the line held or from another (R295). -/
def State.fetch (s : State) (pc : XWord) : Fetched :=
  match s.seq.line with
  | some (base, b) =>
    if base.toNat = pc.toNat / 64 * 64 then
      (match s.cur.role, s.crew.block with
      | .fw, _ => .word (lineWord b pc) (base, b) none
      | _, some k =>
        if pc.toNat < k.cva || k.cva + 4 * k.words ≤ pc.toNat then .perm else .word (lineWord b pc) (base, b) none
      | _, none => .perm)
    else s.fetchLine pc
  | none => s.fetchLine pc

/-- The context whose tables a sequencer fetches its code through (R311). -/
def State.fetchTag (s : State) : Option CtxId :=
  if s.cur.role = .fw then none else s.crew.block.map fun k => k.loader

/-- The line that a fetch took is held, and its translation enters the vector stream's TLB (R290, R295). -/
def State.holdLine (s : State) (pc : XWord) (line : XWord × List Byte) (x : Option Xlat) : State :=
  let s := s.modSeq fun q => { q with line := some line }
  match x with
  | some x => s.tlbFill s.cur.core 1 s.fetchTag pc.toNat x
  | none => s

/-- Test 5 of R44 for a `vrep` prefix: what its target is (R55). -/
inductive Target where
  | v3 (i : Instr)
  | other
  | perm (addr : XWord)
  /-- an uncorrectable HBM word in the target's line (R303) -/
  | ecc (addr : XWord)
  | stop (f : Fault)

/-- The target of the `vrep` at the pc: a V3 word of majors 0x0C to 0x25 or 0x2D to 0x2F, or not. A word of those majors that fails
tests 2 to 4 of R44 itself is taken for no V3 word, and the prefix fails test 5 (DESIGN CHOICE, log 57). -/
def State.vrepTarget (s : State) : Target :=
  match s.fetch (s.pc + 4) with
  | .word w _ _ =>
    let major := bits w.toNat 22 6
    if (12 ≤ major && major ≤ 37) || (45 ≤ major && major ≤ 47) then
      (match decode .c w with
      | some i => .v3 i
      | none => .other)
    else .other
  | .perm => .perm (s.pc + 4)
  | .ecc => .ecc (s.pc + 4)
  | .stop f => .stop f

end Sys2Proof.Machine
end

