-- ==== Sys2Proof/Machine/Operands.lean ====
section
/-! DEFINITION. Operand forms of the memory words: the addresses they form (R79, R128, R93), and the pool and global
accesses of a sequencer as effects (R80, R81). -/

namespace Sys2Proof.Machine

/-! ### X memory operands (R79) -/

/-- A := x[ra] + sext(off8, 8)·2^size, mod 2^64 (R79). -/
def xmAddr (base : XWord) (off : BitVec 8) (size : Nat) : XWord := base + off.signExtend 64 * BitVec.ofNat 64 (2 ^ size)

/-- The bytes of a size code: 2^size (R79). -/
def sizeBytes (sz : BitVec 2) : Nat := 2 ^ sz.toNat

/-- A loaded value, sign- or zero-extended to 64 bits (Table 4.9). -/
def extend (signed : Bool) (b : List Byte) : XWord :=
  if signed then BitVec.ofInt 64 (sext (leNat b) (8 * b.length)) else BitVec.ofNat 64 (leNat b)

/-! ### Accesses as effects (R80, R81) -/

/-- A pool load of `n` bytes: its checks, the wait on a locked bank, then what the value gives. -/
def State.poolLoad (s : State) (a : XWord) (n : Nat) (k : List Byte → Res) : Res :=
  match s.poolRead a.toNat n n with
  | .bytes b => k b
  | .locked => .block .other id
  | .trap t => .trap t

/-- A pool store of bytes: its checks, the wait on a locked bank, then the write. -/
def State.poolWriteAt (s : State) (a : XWord) (b : List Byte) : Res :=
  match poolCheck s.part a.toNat b.length b.length with
  | some t => .trap t
  | none =>
    if s.here.lockedFor none (poolPlace s.part a.toNat) b.length then .block .other id
    else .done (s.poolStore a.toNat b)

/-- A global load of `n` bytes: ALIGN, then PAGE_NP for high bits and the translation faults (R80). -/
def State.globalLoad (s : State) (a : XWord) (n : Nat) (k : List Byte → State → Res) : Res :=
  if a.toNat % n ≠ 0 then .trap (trapAt codeAlign a.toNat)
  else match s.memLoad a.toNat n with
    | .bytes b s => k b s
    | .stored s => .done s
    | .trap t => .trap t
    | .wait note => .block .other note
    | .stop f => .stop f

/-- A global store of bytes. -/
def State.globalStore (s : State) (a : XWord) (b : List Byte) : Res :=
  if a.toNat % b.length ≠ 0 then .trap (trapAt codeAlign a.toNat)
  else match s.memStore a.toNat b with
    | .bytes _ s => .done s
    | .stored s => .done s
    | .trap t => .trap t
    | .wait note => .block .other note
    | .stop f => .stop f

/-! ### Barrier and system operands (R93, R94) -/

/-- The low 32 bits of a register that gives a pool offset, and the bits above (R93). -/
def lowOff (v : XWord) : Nat := v.toNat % 2 ^ 32

end Sys2Proof.Machine
end

