-- ==== Sys2Proof/Machine/Flags.lean ====
section
/-! DEFINITION. What the G9 has in place of flags: the device keeps no condition flags and no floating-point exception
flags (R23). Comparisons write 0 or 1 into a register or bits into a predicate; the conversion counts of tags and
transfers are the only record of lost range. This file holds the comparisons and the saturating counts. -/

namespace Sys2Proof.Machine

/-- The result of a comparison word: 1 or 0 in a 64-bit register (R71, R73, R78). -/
def boolX (b : Bool) : XWord := if b then 1 else 0

/-- A count that saturates at the maximum of a field of `w` bits (R28, R221, R96). -/
def satCount (w n : Nat) : Nat := if 2 ^ w ≤ n then 2 ^ w - 1 else n

/-- Counting up, saturating. -/
def satAdd (w a b : Nat) : Nat := satCount w (a + b)

end Sys2Proof.Machine
end

