-- ==== Sys2Proof/Machine/Formats.lean ====
section
/-! DEFINITION. Number formats and exact arithmetic (spec/02_number_formats.md R21 to R41): exact values, their single
rounding into each format, the BX block family, and the chunk-sum rule. -/

namespace Sys2Proof.Machine

/-! ### Exact values -/

/-- A value as it stands between roundings: NaN, an infinity, or the exact `(-1)^neg · n / d · 2^e` with `d > 0`. A
zero keeps its sign (R23). -/
inductive FV where
  | nan
  | inf (neg : Bool)
  | num (neg : Bool) (n d : Nat) (e : Int)
  deriving DecidableEq, Repr

/-- `2 ^ k` for a natural or a negative exponent, as the factor of a numerator. -/
def pow2 (k : Int) : Nat := 2 ^ k.toNat

/-- `floor (log2 (n / d · 2^e))` for `n, d > 0`. -/
def flog2 (n d : Nat) (e : Int) : Int :=
  let l : Int := (n.log2 : Int) - (d.log2 : Int)
  if d * pow2 l ≤ n * pow2 (-l) then l + e else l - 1 + e

/-- `n / d · 2^e` rounded to the nearest integer, ties to even (R29). -/
def roundNat (n d : Nat) (e : Int) : Nat :=
  let a := n * pow2 e
  let b := d * pow2 (-e)
  let q := a / b
  let r := a % b
  if b < 2 * r || (2 * r = b && q % 2 = 1) then q + 1 else q

/-- `n / d · 2^e` truncated to an integer (R18, RoundZ). -/
def truncNat (n d : Nat) (e : Int) : Nat := n * pow2 e / (d * pow2 (-e))

/-- The exact value of an integer. -/
def FV.ofInt (i : Int) : FV := .num (i < 0) i.natAbs 1 0

/-- Zero. -/
def FV.zero : FV := .num false 0 1 0

def FV.neg : FV → FV
  | .nan => .nan
  | .inf s => .inf (!s)
  | .num s n d e => .num (!s) n d e

def FV.abs : FV → FV
  | .nan => .nan
  | .inf _ => .inf false
  | .num _ n d e => .num false n d e

def FV.isNan : FV → Bool
  | .nan => true
  | _ => false

def FV.isFinite : FV → Bool
  | .num .. => true
  | _ => false

/-- A finite value is zero. -/
def FV.isZero : FV → Bool
  | .num _ n _ _ => n == 0
  | _ => false

/-- The exact sum; an exact zero is +0 unless both terms are −0 (R23). -/
def FV.add : FV → FV → FV
  | .nan, _ => .nan
  | _, .nan => .nan
  | .inf a, .inf b => if a = b then .inf a else .nan
  | .inf a, _ => .inf a
  | _, .inf b => .inf b
  | .num s n d e, .num s' n' d' e' =>
    let m := if e ≤ e' then e else e'
    let a : Int := (n * d' * pow2 (e - m) : Nat)
    let b : Int := (n' * d * pow2 (e' - m) : Nat)
    let t : Int := (if s then -a else a) + (if s' then -b else b)
    if t = 0 then .num (s && s' && n = 0 && n' = 0) 0 1 0 else .num (t < 0) t.natAbs (d * d') m

def FV.sub (a b : FV) : FV := a.add b.neg

/-- The exact product; 0 × ±inf is NaN (R76). -/
def FV.mul : FV → FV → FV
  | .nan, _ => .nan
  | _, .nan => .nan
  | .inf a, .inf b => .inf (a != b)
  | .inf a, .num s n _ _ => if n = 0 then .nan else .inf (a != s)
  | .num s n _ _, .inf b => if n = 0 then .nan else .inf (s != b)
  | .num s n d e, .num s' n' d' e' => .num (s != s') (n * n') (d * d') (e + e')

/-- The exact quotient with the special cases of Table 4.7. -/
def FV.div : FV → FV → FV
  | .nan, _ => .nan
  | _, .nan => .nan
  | .inf _, .inf _ => .nan
  | .inf a, .num s _ _ _ => .inf (a != s)
  | .num s _ _ _, .inf b => .num (s != b) 0 1 0
  | .num s n d e, .num s' n' d' e' =>
    if n' = 0 then (if n = 0 then .nan else .inf (s != s')) else .num (s != s') (n * d') (d * n') (e - e')

/-- Comparison of values that are not NaN; the zeros are equal (R78). -/
def FV.lt : FV → FV → Bool
  | .nan, _ => false
  | _, .nan => false
  | .inf a, .inf b => a && !b
  | .inf a, _ => a
  | _, .inf b => !b
  | .num s n d e, .num s' n' d' e' =>
    let m := if e ≤ e' then e else e'
    let a : Int := (n * d' * pow2 (e - m) : Nat)
    let b : Int := (n' * d * pow2 (e' - m) : Nat)
    (if s then -a else a) < (if s' then -b else b)

def FV.eqv (a b : FV) : Bool := !a.isNan && !b.isNan && !a.lt b && !b.lt a

def FV.le (a b : FV) : Bool := a.lt b || a.eqv b

/-- The sign bit a value is written with. -/
def FV.sign : FV → Bool
  | .nan => false
  | .inf s => s
  | .num s _ _ _ => s

/-! ### Type codes (R21, Table 2.1) -/

/-- Width in bits of an element; for BX, without the header. -/
def typeWidth : Nat → Nat
  | 0 => 32
  | 1 => 16
  | 2 => 16
  | 3 => 8
  | 4 => 8
  | 5 => 8
  | 6 => 6
  | 7 => 4
  | 8 => 32
  | 9 => 16
  | 10 => 8
  | 11 => 4
  | 12 => 32
  | 13 => 16
  | 14 => 8
  | _ => 0

def typeFloat (t : Nat) : Bool := t ≤ 4

def typeBx (t : Nat) : Bool := 5 ≤ t && t ≤ 7

def typeInt (t : Nat) : Bool := 8 ≤ t && t ≤ 14

def typeSigned (t : Nat) : Bool := 8 ≤ t && t ≤ 11

/-! ### Floating layouts (R22, Table 2.2) -/

/-- Exponent bits, mantissa bits, bias, largest finite code, and whether the format has infinities. -/
structure FFmt where
  eb : Nat
  mb : Nat
  bias : Int
  maxCode : Nat
  hasInf : Bool
  nan : Nat
  deriving DecidableEq, Repr

/-- The layout of a floating type code; FP32 for codes that are none. -/
def ffmt : Nat → FFmt
  | 1 => { eb := 8, mb := 7, bias := 127, maxCode := 0x7F7F, hasInf := true, nan := 0x7FC0 }
  | 2 => { eb := 5, mb := 10, bias := 15, maxCode := 0x7BFF, hasInf := true, nan := 0x7E00 }
  | 3 => { eb := 4, mb := 3, bias := 7, maxCode := 0x7E, hasInf := false, nan := 0x7F }
  | 4 => { eb := 5, mb := 2, bias := 15, maxCode := 0x7B, hasInf := true, nan := 0x7E }
  | _ => { eb := 8, mb := 23, bias := 127, maxCode := 0x7F7FFFFF, hasInf := true, nan := 0x7FC00000 }

/-- The value of a floating code. -/
def decodeFloat (t : Nat) (code : Nat) : FV :=
  let f := ffmt t
  let neg := code / 2 ^ (f.eb + f.mb) % 2 = 1
  let ex := code / 2 ^ f.mb % 2 ^ f.eb
  let man := code % 2 ^ f.mb
  if f.hasInf && ex = 2 ^ f.eb - 1 then (if man = 0 then .inf neg else .nan)
  else if !f.hasInf && ex = 2 ^ f.eb - 1 && man = 2 ^ f.mb - 1 then .nan
  else if ex = 0 then .num neg man 1 (1 - f.bias - f.mb)
  else .num neg (man + 2 ^ f.mb) 1 (ex - f.bias - f.mb)

/-- Conversion counts of one element (R28, R154): saturated, flushed to zero, non-finite (log 20). -/
def countSat : ConvRec := { sat := 1, flush := 0, nfin := 0 }

def countFlush : ConvRec := { sat := 0, flush := 1, nfin := 0 }

def countNfin : ConvRec := { sat := 0, flush := 0, nfin := 1 }

def countNone : ConvRec := { sat := 0, flush := 0, nfin := 0 }

def ConvRec.plus (a b : ConvRec) : ConvRec :=
  { sat := a.sat + b.sat, flush := a.flush + b.flush, nfin := a.nfin + b.nfin }

/-- The number of elements counted. -/
def ConvRec.total (a : ConvRec) : Nat := a.sat + a.flush + a.nfin

/-- One rounding of an exact value into a floating format, with the target's rules (R29, Table 2.6), and its count. A finite
value above 448 that rounds to 448 in E4M3 is no saturation: one is counted where the rounded value passes the largest code
(DEDUCED, log 20). -/
def encodeFloat (t : Nat) (v : FV) : Nat × ConvRec :=
  let f := ffmt t
  let signBit (s : Bool) : Nat := if s then 2 ^ (f.eb + f.mb) else 0
  let infCode : Nat := (2 ^ f.eb - 1) * 2 ^ f.mb
  match v with
  | .nan => (f.nan, countNfin)
  | .inf s => (signBit s + (if f.hasInf then infCode else f.maxCode), countNfin)
  | .num s n d e =>
    if n = 0 then (signBit s, countNone)
    else
      let lo : Int := 1 - f.bias - f.mb
      let x := flog2 n d e - f.mb
      let q := if x < lo then lo else x
      let sig := roundNat n d (e - q)
      if sig = 0 then (signBit s, countFlush)
      else
        let mag := if sig < 2 ^ f.mb then sig else (q + f.mb + f.bias).toNat * 2 ^ f.mb + sig - 2 ^ f.mb
        if f.maxCode < mag then (if f.hasInf then (signBit s + infCode, countNfin) else (signBit s + f.maxCode, countSat))
        else (signBit s + mag, countNone)

/-- The code alone. -/
def roundTo (t : Nat) (v : FV) : Nat := (encodeFloat t v).1

/-- An FP32 pattern's value. -/
def f32 (w : W32) : FV := decodeFloat 0 w.toNat

/-- RoundNE to FP32 (R76). -/
def toF32 (v : FV) : W32 := BitVec.ofNat 32 (roundTo 0 v)

/-- The canonical NaN (R23). -/
def nan32 : W32 := 0x7FC00000

/-! ### Integers (R24, R30, R31) -/

/-- The value of an integer code. -/
def decodeInt (t : Nat) (code : Nat) : Int :=
  if typeSigned t then sext code (typeWidth t) else ((code % 2 ^ typeWidth t : Nat) : Int)

/-- The least and the greatest value of an integer type. -/
def intMin (t : Nat) : Int := if typeSigned t then -(2 ^ (typeWidth t - 1) : Nat) else 0

def intMax (t : Nat) : Int :=
  if typeSigned t then ((2 ^ (typeWidth t - 1) : Nat) : Int) - 1 else ((2 ^ typeWidth t : Nat) : Int) - 1

/-- Sat (Table 1.5) into [lo, hi]. -/
def clampInt (lo hi x : Int) : Int := if x < lo then lo else if hi < x then hi else x

/-- The code of an integer: its low bits in two's complement. -/
def intCode (w : Nat) (x : Int) : Nat := (x % (2 ^ w : Nat)).toNat

/-- A finite value rounded to an integer, RoundNE or RoundZ (R30). -/
def FV.roundInt (rz : Bool) : FV → Int
  | .num s n d e =>
    let m : Int := ((if rz then truncNat n d e else roundNat n d e : Nat) : Int)
    if s then -m else m
  | _ => 0

/-- Conversion from floating to an integer range: rounded, saturated, NaN gives 0 (R30), with its count. -/
def toIntRange (rz : Bool) (lo hi : Int) (v : FV) : Int × ConvRec :=
  match v with
  | .nan => (0, countNfin)
  | .inf s => (if s then lo else hi, countNfin)
  | .num s n d e =>
    let x := FV.roundInt rz (.num s n d e)
    if x < lo then (lo, countSat) else if hi < x then (hi, countSat)
    else (x, if x = 0 && n ≠ 0 then countFlush else countNone)

/-- The value of an element code of a type that is not BX. -/
def decodeElem (t : Nat) (code : Nat) : FV :=
  if typeInt t then FV.ofInt (decodeInt t code) else decodeFloat t code

/-- One rounding of an exact value into a type that is not BX, with its count (R29, R30). -/
def encodeElem (t : Nat) (v : FV) : Nat × ConvRec :=
  if typeInt t then
    let r := toIntRange false (intMin t) (intMax t) v
    (intCode (typeWidth t) r.1, r.2)
  else encodeFloat t v

/-! ### Square root (R76) -/

/-- The greatest `r` below `2 ^ k` times the starting bits with `r * r ≤ n`, bit by bit. -/
def isqrtFrom (n r : Nat) : Nat → Nat
  | 0 => r
  | k + 1 => if (r + 2 ^ k) * (r + 2 ^ k) ≤ n then isqrtFrom n (r + 2 ^ k) k else isqrtFrom n r k

/-- The integer square root. -/
def isqrt (n : Nat) : Nat := isqrtFrom n 0 (n.log2 / 2 + 1)

/-- A value whose every rounding to 40 bits or fewer equals that of √(n·2^e): the root to 64 bits with a sticky bit. -/
def sqrtValue (n : Nat) (e : Int) : FV :=
  let odd := (e % 2).toNat
  let m := n * 2 ^ odd * 2 ^ 128
  let r := isqrt m
  let sticky := if r * r = m then 0 else 1
  .num false (2 * r + sticky) 1 ((e - odd) / 2 - 64 - 1)

/-- √a with the special cases of Table 4.7. -/
def FV.sqrt : FV → FV
  | .nan => .nan
  | .inf s => if s then .nan else .inf false
  | .num s n d e =>
    if n = 0 then .num s 0 1 0 else if s then .nan
    else if d = 1 then sqrtValue n e else sqrtValue (n * d) (e - 2 * (d.log2 : Int))

/-! ### The BX block family (R25 to R28) -/

/-- The magnitude width w (Table 2.3). -/
def bxW (t : Nat) : Nat := typeWidth t - 2

/-- The value of a BX element under its header and a tensor scale (R27). -/
def bxValue (t : Nat) (header code : Nat) (tscale : FV) : FV :=
  let w := bxW t
  let mag := code % 2 ^ w
  let neg := code / 2 ^ w % 2 = 1
  let e : Nat := if code / 2 ^ (w + 1) % 2 = 1 then header / 4096 % 16 else header / 256 % 16
  let bs := decodeFloat 3 (header % 256)
  if mag = 0 || bs.isNan then FV.zero
  else ((FV.num neg mag 1 ((e : Int) - 15 - w)).mul bs).mul tscale

/-- A header whose block scale is a NaN code (R27). -/
def bxNanHeader (header : Nat) : Bool := (decodeFloat 3 (header % 256)).isNan

/-- The greatest of the finite magnitudes of a block, as a value; zero if none (R28). -/
def bxMax (l : List FV) : FV := l.foldl (fun m v => if v.isFinite && m.lt v.abs then v.abs else m) FV.zero

/-- The distance between |z| and a decoded magnitude q·2^(E − 15 − w), over a common power of two. -/
def bxDist (n d : Nat) (ez : Int) (q : Nat) (ev : Int) (g : Int) : Nat :=
  (((n * pow2 (ez - g) : Nat) : Int) - ((q * d * pow2 (ev - g) : Nat) : Int)).natAbs

/-- One element of a BX conversion with block exponent `k` and the two selector exponents (R28). -/
def bxElem (w : Nat) (k e1 e0 : Int) (zeroBlock : Bool) (y : FV) : Nat × ConvRec :=
  let top := 2 ^ w - 1
  let code (sel : Nat) (neg : Bool) (mag : Nat) : Nat := sel * 2 ^ (w + 1) + (if neg then 2 ^ w else 0) + mag
  match y with
  | .nan => (0, countNfin)
  | .inf s => (code 1 s top, countNfin)
  | .num s n d e =>
    if n = 0 || zeroBlock then (0, countNone)
    else
      let ez := e - k
      let q1 := roundNat n d (ez + w + 15 - e1)
      let q0 := roundNat n d (ez + w + 15 - e0)
      let ok1 := q1 ≤ top
      let ok0 := q0 ≤ top
      let v1 := e1 - 15 - w
      let v0 := e0 - 15 - w
      let g := Min.min ez (Min.min v1 v0)
      let near1 := bxDist n d ez q1 v1 g ≤ bxDist n d ez q0 v0 g
      if !ok1 && !ok0 then (code 1 s top, countSat)
      else if ok1 && (!ok0 || near1) then (if q1 = 0 then (0, countFlush) else (code 1 s q1, countNone))
      else if q0 = 0 then (0, countFlush) else (code 0 s q0, countNone)

/-- Conversion of a block into a BX format: the header, the element codes, and the counts (R28). `ys` holds x · sc. -/
def bxEncode (t : Nat) (ys : List FV) : Nat × List Nat × ConvRec :=
  let w := bxW t
  match bxMax ys with
  | .num _ n d e =>
    let zero := n = 0
    let l := flog2 n d e
    let k := clampInt (-9) 8 (l + 1)
    let e1 := clampInt 0 15 (l - k + 16)
    let e0 := if e1 - (w + 1) < 0 then 0 else e1 - (w + 1)
    let els := ys.map fun y => bxElem w k e1 e0 zero y
    let header := if zero then 0
      else e1.toNat * 4096 + e0.toNat * 256 + roundTo 3 (.num false 1 1 k)
    (header, els.map fun x => x.1, els.foldl (fun a x => a.plus x.2) countNone)
  | _ => (0, [], countNone)

/-! ### The chunk-sum rule (R32, R34) -/

/-- `floor (v / 2^u)` of a finite value. -/
def floorUnits (u : Int) : FV → Int
  | .num s n d e =>
    let a : Int := ((n * pow2 (e - u) : Nat) : Int)
    let b : Int := ((d * pow2 (u - e) : Nat) : Int)
    if s then (-a) / b else a / b
  | _ => 0

/-- The largest `floor (log2 |p|)` over products that are not zero. -/
def chunkEmax : List FV → Option Int
  | [] => none
  | .num _ n d e :: rest =>
    if n = 0 then chunkEmax rest
    else match chunkEmax rest with
      | none => some (flog2 n d e)
      | some m => some (if m < flog2 n d e then flog2 n d e else m)
  | _ :: rest => chunkEmax rest

/-- ChunkSum of exact products: an FP32 pattern (R32). -/
def chunkSumOf (ps : List FV) : W32 :=
  if ps.any FV.isNan then nan32
  else if ps.contains (.inf false) && ps.contains (.inf true) then nan32
  else if ps.contains (.inf false) then toF32 (.inf false)
  else if ps.contains (.inf true) then toF32 (.inf true)
  else match chunkEmax ps with
    | none => 0
    | some m =>
      let u := m - 76
      let t := (ps.map (floorUnits u)).foldl (fun a x => a + x) 0
      if t = 0 then 0 else toF32 (.num (t < 0) t.natAbs 1 u)

/-- ChunkSum of two operand chunks (R32). -/
def chunkSum (a b : List FV) : W32 := chunkSumOf (List.zipWith FV.mul a b)

/-- A non-finite FP32 pattern. -/
def nonFinite32 (w : W32) : Bool := !(f32 w).isFinite

/-- RoundNE(acc + term, f32) (R32). -/
def accAdd (acc term : W32) : W32 := toF32 ((f32 acc).add (f32 term))

/-- The sum of products of integer operands (R34). -/
def intDot (a b : List Int) : Int := (List.zipWith (fun x y => x * y) a b).foldl (fun s x => s + x) 0

/-! ### Requantisation and operand pairings (R35, R36, R38) -/

/-- `(acc · M + h) >> s`, exact, toward −∞ (R38). -/
def requant (acc mult : Int) (shift : Nat) : Int :=
  (acc * mult + (if shift = 0 then 0 else ((2 ^ (shift - 1) : Nat) : Int))) / ((2 ^ shift : Nat) : Int)

/-- The accumulator type of a pairing of Table 2.7: `some false` FP32, `some true` INT32. -/
def pairing (a b : Nat) : Option Bool :=
  let half (t : Nat) : Bool := t = 1 || t = 2
  let byte (t : Nat) : Bool := t = 3 || t = 4 || t = 5
  if half a && half b then some false
  else if byte a && byte b then some false
  else if a = 6 && b = 6 then some false
  else if a = 7 && b = 7 then some false
  else if (a = 10 || a = 11) && (b = 10 || b = 11) then some true
  else none

/-- Quanta per MAC of one format (Table 2.7). -/
def quanta (t : Nat) : Nat :=
  if t = 1 || t = 2 then 16 else if t = 3 || t = 4 || t = 5 || t = 10 then 4 else if t = 6 then 2 else 1

/-- Formats the matrix array refuses outright (R36 step 1). -/
def matrixType (t : Nat) : Bool := t = 1 || t = 2 || typeBx t || t = 3 || t = 4 || t = 10 || t = 11

/-! ### The lane hash and the greatest-first order are in Machine/Vector.lean (R123, R124) -/

end Sys2Proof.Machine
end

