-- ==== Sys2Proof/Machine/Scalar.lean ====
section
/-! DEFINITION. X integer instructions (spec/04_isa_scalar.md R71 to R75) and the a-register group of L, C and S
(R70). -/

namespace Sys2Proof.Machine

/-! ### Shared operations -/

/-- A word that writes a function of two x-registers (R71). -/
def aluRR (tk : Tok) (rd ra rb : XReg) (s : State) (f : XWord → XWord → XWord) : Host.Outcome State Fault Refusal :=
  runWord tk [refX ra, refX rb] s fun s => .done (s.setX rd (f (s.getX ra) (s.getX rb)))

/-- A word that writes a function of one x-register (R71, R73, R74). -/
def aluR (tk : Tok) (rd ra : XReg) (s : State) (f : XWord → XWord) : Host.Outcome State Fault Refusal :=
  runWord tk [refX ra] s fun s => .done (s.setX rd (f (s.getX ra)))

/-- A shift count: b[5:0] (Table 4.4). -/
def shiftCount (b : XWord) : Nat := b.toNat % 64

/-- imm = sext(imm10, 64) (R73). -/
def imm10 (i : BitVec 10) : XWord := i.signExtend 64

/-- Bits [127:64] of the product of signed values (Table 4.4). -/
def mulHigh (a b : XWord) : XWord := BitVec.ofInt 64 (a.toInt * b.toInt / 2 ^ 64)

/-- Bits [127:64] of the product of unsigned values. -/
def mulHighN (a b : XWord) : XWord := BitVec.ofNat 64 (a.toNat * b.toNat / 2 ^ 64)

/-- Signed quotient truncated toward zero; all ones by zero; −2^63 by −1 gives −2^63 (R72). -/
def divS (a b : XWord) : XWord := if b = 0 then BitVec.allOnes 64 else BitVec.ofInt 64 (a.toInt.tdiv b.toInt)

/-- Unsigned quotient; all ones by zero (R72). -/
def divU (a b : XWord) : XWord := if b = 0 then BitVec.allOnes 64 else BitVec.ofNat 64 (a.toNat / b.toNat)

/-- Signed remainder with the sign of a; the dividend by zero; 0 for −2^63 by −1 (R72). -/
def remS (a b : XWord) : XWord := if b = 0 then a else BitVec.ofInt 64 (a.toInt.tmod b.toInt)

/-- Unsigned remainder; the dividend by zero (R72). -/
def remU (a b : XWord) : XWord := if b = 0 then a else BitVec.ofNat 64 (a.toNat % b.toNat)

/-- The number of leading zero bits among `n` low bits of a number. -/
def clzFrom (v : Nat) : Nat → Nat
  | 0 => 0
  | n + 1 => if v / 2 ^ n % 2 = 1 then 0 else 1 + clzFrom v n

/-- The number of trailing zero bits among `n`. -/
def ctzFrom (v : Nat) : Nat → Nat
  | 0 => 0
  | n + 1 => if v % 2 = 1 then 0 else 1 + ctzFrom (v / 2) n

/-- The number of set bits among `n`. -/
def popcFrom (v : Nat) : Nat → Nat
  | 0 => 0
  | n + 1 => v % 2 + popcFrom (v / 2) n

/-- The 8 bytes in reverse order (Table 4.4). -/
def byteSwap (a : XWord) : XWord := BitVec.ofNat 64 (leNat (natLe 8 a.toNat).reverse)

/-- sext of the low `w` bits to 64 (R18). -/
def sextLow (w : Nat) (a : XWord) : XWord := BitVec.ofInt 64 (sext a.toNat w)

/-! ### R71, R72: `alu`, `alu2` -/

def execAdd (tk : Tok) (rd ra rb : XReg) (s : State) : Host.Outcome State Fault Refusal :=
  aluRR tk rd ra rb s fun a b => a + b

def execSub (tk : Tok) (rd ra rb : XReg) (s : State) : Host.Outcome State Fault Refusal :=
  aluRR tk rd ra rb s fun a b => a - b

def execAnd (tk : Tok) (rd ra rb : XReg) (s : State) : Host.Outcome State Fault Refusal :=
  aluRR tk rd ra rb s fun a b => a &&& b

def execOr (tk : Tok) (rd ra rb : XReg) (s : State) : Host.Outcome State Fault Refusal :=
  aluRR tk rd ra rb s fun a b => a ||| b

def execXor (tk : Tok) (rd ra rb : XReg) (s : State) : Host.Outcome State Fault Refusal :=
  aluRR tk rd ra rb s fun a b => a ^^^ b

def execShl (tk : Tok) (rd ra rb : XReg) (s : State) : Host.Outcome State Fault Refusal :=
  aluRR tk rd ra rb s fun a b => a <<< shiftCount b

def execShr (tk : Tok) (rd ra rb : XReg) (s : State) : Host.Outcome State Fault Refusal :=
  aluRR tk rd ra rb s fun a b => a >>> shiftCount b

def execSra (tk : Tok) (rd ra rb : XReg) (s : State) : Host.Outcome State Fault Refusal :=
  aluRR tk rd ra rb s fun a b => a.sshiftRight (shiftCount b)

def execSlt (tk : Tok) (rd ra rb : XReg) (s : State) : Host.Outcome State Fault Refusal :=
  aluRR tk rd ra rb s fun a b => boolX (a.slt b)

def execSltn (tk : Tok) (rd ra rb : XReg) (s : State) : Host.Outcome State Fault Refusal :=
  aluRR tk rd ra rb s fun a b => boolX (a.ult b)

def execMin (tk : Tok) (rd ra rb : XReg) (s : State) : Host.Outcome State Fault Refusal :=
  aluRR tk rd ra rb s fun a b => if a.slt b then a else b

def execMax (tk : Tok) (rd ra rb : XReg) (s : State) : Host.Outcome State Fault Refusal :=
  aluRR tk rd ra rb s fun a b => if a.slt b then b else a

def execMinn (tk : Tok) (rd ra rb : XReg) (s : State) : Host.Outcome State Fault Refusal :=
  aluRR tk rd ra rb s fun a b => if a.ult b then a else b

def execMaxn (tk : Tok) (rd ra rb : XReg) (s : State) : Host.Outcome State Fault Refusal :=
  aluRR tk rd ra rb s fun a b => if a.ult b then b else a

def execMul (tk : Tok) (rd ra rb : XReg) (s : State) : Host.Outcome State Fault Refusal :=
  aluRR tk rd ra rb s fun a b => a * b

def execMulh (tk : Tok) (rd ra rb : XReg) (s : State) : Host.Outcome State Fault Refusal :=
  aluRR tk rd ra rb s mulHigh

def execMulhn (tk : Tok) (rd ra rb : XReg) (s : State) : Host.Outcome State Fault Refusal :=
  aluRR tk rd ra rb s mulHighN

def execDiv (tk : Tok) (rd ra rb : XReg) (s : State) : Host.Outcome State Fault Refusal :=
  aluRR tk rd ra rb s divS

def execDivn (tk : Tok) (rd ra rb : XReg) (s : State) : Host.Outcome State Fault Refusal :=
  aluRR tk rd ra rb s divU

def execRem (tk : Tok) (rd ra rb : XReg) (s : State) : Host.Outcome State Fault Refusal :=
  aluRR tk rd ra rb s remS

def execRemn (tk : Tok) (rd ra rb : XReg) (s : State) : Host.Outcome State Fault Refusal :=
  aluRR tk rd ra rb s remU

def execClz (tk : Tok) (rd ra : XReg) (s : State) : Host.Outcome State Fault Refusal :=
  aluR tk rd ra s fun a => BitVec.ofNat 64 (clzFrom a.toNat 64)

def execCtz (tk : Tok) (rd ra : XReg) (s : State) : Host.Outcome State Fault Refusal :=
  aluR tk rd ra s fun a => BitVec.ofNat 64 (ctzFrom a.toNat 64)

def execPopc (tk : Tok) (rd ra : XReg) (s : State) : Host.Outcome State Fault Refusal :=
  aluR tk rd ra s fun a => BitVec.ofNat 64 (popcFrom a.toNat 64)

def execBswap (tk : Tok) (rd ra : XReg) (s : State) : Host.Outcome State Fault Refusal :=
  aluR tk rd ra s byteSwap

def execSextb (tk : Tok) (rd ra : XReg) (s : State) : Host.Outcome State Fault Refusal :=
  aluR tk rd ra s (sextLow 8)

def execSexth (tk : Tok) (rd ra : XReg) (s : State) : Host.Outcome State Fault Refusal :=
  aluR tk rd ra s (sextLow 16)

def execSextw (tk : Tok) (rd ra : XReg) (s : State) : Host.Outcome State Fault Refusal :=
  aluR tk rd ra s (sextLow 32)

def execZextw (tk : Tok) (rd ra : XReg) (s : State) : Host.Outcome State Fault Refusal :=
  aluR tk rd ra s fun a => BitVec.ofNat 64 (a.toNat % 2 ^ 32)

def execAndn (tk : Tok) (rd ra rb : XReg) (s : State) : Host.Outcome State Fault Refusal :=
  aluRR tk rd ra rb s fun a b => a &&& ~~~b

def execOrn (tk : Tok) (rd ra rb : XReg) (s : State) : Host.Outcome State Fault Refusal :=
  aluRR tk rd ra rb s fun a b => a ||| ~~~b

/-! ### R73, R74: immediates -/

def execAddi (tk : Tok) (rd ra : XReg) (imm : BitVec 10) (s : State) : Host.Outcome State Fault Refusal :=
  aluR tk rd ra s fun a => a + imm10 imm

def execAndi (tk : Tok) (rd ra : XReg) (imm : BitVec 10) (s : State) : Host.Outcome State Fault Refusal :=
  aluR tk rd ra s fun a => a &&& imm10 imm

def execOri (tk : Tok) (rd ra : XReg) (imm : BitVec 10) (s : State) : Host.Outcome State Fault Refusal :=
  aluR tk rd ra s fun a => a ||| imm10 imm

def execXori (tk : Tok) (rd ra : XReg) (imm : BitVec 10) (s : State) : Host.Outcome State Fault Refusal :=
  aluR tk rd ra s fun a => a ^^^ imm10 imm

def execSlti (tk : Tok) (rd ra : XReg) (imm : BitVec 10) (s : State) : Host.Outcome State Fault Refusal :=
  aluR tk rd ra s fun a => boolX (a.slt (imm10 imm))

def execSltni (tk : Tok) (rd ra : XReg) (imm : BitVec 10) (s : State) : Host.Outcome State Fault Refusal :=
  aluR tk rd ra s fun a => boolX (a.ult (imm10 imm))

def execShiShl (tk : Tok) (rd ra : XReg) (n : BitVec 6) (s : State) : Host.Outcome State Fault Refusal :=
  aluR tk rd ra s fun a => a <<< n.toNat

def execShiShr (tk : Tok) (rd ra : XReg) (n : BitVec 6) (s : State) : Host.Outcome State Fault Refusal :=
  aluR tk rd ra s fun a => a >>> n.toNat

def execShiSra (tk : Tok) (rd ra : XReg) (n : BitVec 6) (s : State) : Host.Outcome State Fault Refusal :=
  aluR tk rd ra s fun a => a.sshiftRight n.toNat

/-! ### R75: `lim`, `lims` -/

def execLim (tk : Tok) (rd : XReg) (imm : BitVec 16) (s : State) : Host.Outcome State Fault Refusal :=
  runWord tk [] s fun s => .done (s.setX rd (imm.signExtend 64))

def execLims (tk : Tok) (rd : XReg) (imm : BitVec 16) (s : State) : Host.Outcome State Fault Refusal :=
  aluR tk rd rd s fun a => a <<< 16 ||| imm.zeroExtend 64

/-! ### R70: the a-register group -/

/-- A word that writes a function of two a-registers (Table 4.3). -/
def aopRR (tk : Tok) (ad aa ab : AReg) (s : State) (f : AWord → AWord → AWord) : Host.Outcome State Fault Refusal :=
  runWord tk [refA aa, refA ab] s fun s => .done (s.setA ad (f (s.getA aa) (s.getA ab)))

/-- s = b[5:0] (Table 4.3). -/
def aShift (b : AWord) : Nat := b.toNat % 64

def execAAdd (tk : Tok) (ad aa ab : AReg) (s : State) : Host.Outcome State Fault Refusal :=
  aopRR tk ad aa ab s fun a b => a + b

def execASub (tk : Tok) (ad aa ab : AReg) (s : State) : Host.Outcome State Fault Refusal :=
  aopRR tk ad aa ab s fun a b => a - b

def execAShl (tk : Tok) (ad aa ab : AReg) (s : State) : Host.Outcome State Fault Refusal :=
  aopRR tk ad aa ab s fun a b => a <<< aShift b

def execAShr (tk : Tok) (ad aa ab : AReg) (s : State) : Host.Outcome State Fault Refusal :=
  aopRR tk ad aa ab s fun a b => a >>> aShift b

def execASra (tk : Tok) (ad aa ab : AReg) (s : State) : Host.Outcome State Fault Refusal :=
  aopRR tk ad aa ab s fun a b => a.sshiftRight (aShift b)

def execAMul (tk : Tok) (ad aa ab : AReg) (s : State) : Host.Outcome State Fault Refusal :=
  aopRR tk ad aa ab s fun a b => a * b

def execAMin (tk : Tok) (ad aa ab : AReg) (s : State) : Host.Outcome State Fault Refusal :=
  aopRR tk ad aa ab s fun a b => if a.slt b then a else b

def execAMax (tk : Tok) (ad aa ab : AReg) (s : State) : Host.Outcome State Fault Refusal :=
  aopRR tk ad aa ab s fun a b => if a.slt b then b else a

def execAAnd (tk : Tok) (ad aa ab : AReg) (s : State) : Host.Outcome State Fault Refusal :=
  aopRR tk ad aa ab s fun a b => a &&& b

def execAOr (tk : Tok) (ad aa ab : AReg) (s : State) : Host.Outcome State Fault Refusal :=
  aopRR tk ad aa ab s fun a b => a ||| b

def execAXor (tk : Tok) (ad aa ab : AReg) (s : State) : Host.Outcome State Fault Refusal :=
  aopRR tk ad aa ab s fun a b => a ^^^ b

def execAaddi (tk : Tok) (ad aa : AReg) (imm : BitVec 14) (s : State) : Host.Outcome State Fault Refusal :=
  runWord tk [refA aa] s fun s => .done (s.setA ad (s.getA aa + imm.signExtend 48))

def execAli (tk : Tok) (ad : AReg) (imm : BitVec 16) (s : State) : Host.Outcome State Fault Refusal :=
  runWord tk [] s fun s => .done (s.setA ad (imm.signExtend 48))

def execAlis (tk : Tok) (ad : AReg) (imm : BitVec 16) (s : State) : Host.Outcome State Fault Refusal :=
  runWord tk [refA ad] s fun s => .done (s.setA ad (s.getA ad <<< 16 ||| imm.zeroExtend 48))

end Sys2Proof.Machine
end

