-- ==== Sys2Proof/Machine/Shutter.lean ====
section
/-! DEFINITION. The Shutter: contract records and demands (R210 to R212), leases (R213, R214), shares (R215), the epoch
computation (R216, R217, R225) and the records kept of it (R333). -/

namespace Sys2Proof.Machine

/-! ### Contract records (Table 10.1) -/

/-- `valid` of a contract record. -/
def ctValid (c : BitVec 128) : Bool := c.getLsbD 0

/-- `nrung`: the number of rungs − 1. -/
def ctNrung (c : BitVec 128) : Nat := field c.toNat 49 48

/-- The type code of a rung. -/
def ctRung (c : BitVec 128) (i : Nat) : Nat := field c.toNat (35 + 4 * i) (32 + 4 * i)

/-- `lmax`: contracted leases per core. -/
def ctLmax (c : BitVec 128) : Nat := field c.toNat 58 56

/-- `rank`. -/
def ctRank (c : BitVec 128) : Nat := field c.toNat 63 60

/-- M, N, K and L of the reference shape. -/
def ctM (c : BitVec 128) : Nat := field c.toNat 87 80 + 1

def ctN (c : BitVec 128) : Nat := field c.toNat 95 88 + 1

def ctK (c : BitVec 128) : Nat := 32 * (field c.toNat 103 96 + 1)

def ctL (c : BitVec 128) : Nat := field c.toNat 127 104

/-- The quanta of the array per clock. -/
def arrayQuanta : Nat := 262144

/-- Integer division rounding up. -/
def ceilDiv (a b : Nat) : Nat := (a + b - 1) / b

/-- d(r) (R212). -/
def demand (c : BitVec 128) (r : Nat) : Nat :=
  256 * ceilDiv (ctM c * ctN c * ctK c * quanta (ctRung c r)) (256 * ctL c)

/-! ### Leases (R213, R214) -/

/-- The crew holds a lease that its next matrix word may use. -/
def Lease.usable (l : Lease) : Bool := l.held && l.ending.isNone

/-- A request for a lease, unless one stands or a lease is held (R140, R141). -/
def State.requestLease (s : State) : State :=
  s.modCrew fun c =>
    if c.lease.usable || c.lease.request.isSome then c
    else { c with lease := { c.lease with request := some s.cycle } }

/-- The launch's slot has `cref` (R311). -/
def Crew.cref (c : Crew) : Bool :=
  match c.block with
  | some b => b.cref
  | none => false

/-- The `rung` CSR (Table 5.2). -/
def State.rungCsr (s : State) : BitVec 16 :=
  let l := s.crew.lease
  if l.held then
    BitVec.ofNat 16 (256 + (if l.contracted then 16 * ctRung (s.ctx s.crew.ctx).contract l.rung + l.rung else 0))
  else 0

/-! ### The epoch computation (R216) -/

/-- An owner on a core: its context, its rung, and the number of its contracted leases. -/
structure Own where
  ctx : CtxId
  rung : Nat
  n : Nat
  deriving DecidableEq, Repr

/-- D of R216. -/
def totalDemand (ct : CtxId → BitVec 128) (os : List Own) : Nat :=
  os.foldl (fun a o => a + o.n * demand (ct o.ctx) o.rung) 0

/-- The owner that a strict order puts first among those that a predicate picks. -/
def pickOwn (ok : Own → Bool) (before : Own → Own → Bool) : List Own → Option Own
  | [] => none
  | o :: rest =>
    match pickOwn ok before rest with
    | none => if ok o then some o else none
    | some p => if ok o && before o p then some o else some p

/-- One owner's rung replaced. -/
def setRung (os : List Own) (k : CtxId) (r : Nat) : List Own := os.map fun o => if o.ctx = k then { o with rung := r } else o

/-- The narrowing loop of R216, beside `gone` quanta that have not returned (R213). -/
def narrowOwners (ct : CtxId → BitVec 128) (gone : Nat) (os : List Own) : Nat → List Own
  | 0 => os
  | n + 1 =>
    if totalDemand ct os + gone ≤ arrayQuanta then os
    else match pickOwn (fun o => o.rung < ctNrung (ct o.ctx))
        (fun a b => ctRank (ct a.ctx) < ctRank (ct b.ctx)
          || (ctRank (ct a.ctx) = ctRank (ct b.ctx) && b.ctx.val < a.ctx.val)) os with
      | none => os
      | some o => narrowOwners ct gone (setRung os o.ctx (o.rung + 1)) n

/-- The widening loop of R216. -/
def widenOwners (ct : CtxId → BitVec 128) (gone : Nat) (os : List Own) : Nat → List Own
  | 0 => os
  | n + 1 =>
    match pickOwn (fun o => 0 < o.rung)
        (fun a b => ctRank (ct b.ctx) < ctRank (ct a.ctx)
          || (ctRank (ct a.ctx) = ctRank (ct b.ctx) && a.ctx.val < b.ctx.val)) os with
    | none => os
    | some o =>
      if 245760 < totalDemand ct (setRung os o.ctx (o.rung - 1)) + gone then os
      else widenOwners ct gone (setRung os o.ctx (o.rung - 1)) n

/-- The rungs that R216 decides: at most four owners of four rungs each on a core. -/
def decideRungs (ct : CtxId → BitVec 128) (gone : Nat) (os : List Own) : List Own :=
  widenOwners ct gone (narrowOwners ct gone os 16) 16

/-- Leases that end, join and are counted at boundary `b`: requests and releases of earlier clocks (R213, R214). A
lease that re-arbitrates has both counts reset; the second component says that its kind is decided here. -/
def Lease.atBoundary (l : Lease) (b : Nat) : Lease × Bool :=
  let l := match l.ending with
    | some c => if c < b then { Lease.idle with request := l.request } else l
    | none => l
  if l.held then
    let due := 4 ≤ l.spans + 1 || (match l.due with
      | some c => c < b
      | none => false)
    if due then ({ l with spans := 0, steps := 0, due := none }, true) else ({ l with spans := l.spans + 1 }, false)
  else match l.request with
    | some c => if c < b then ({ Lease.idle with held := true, joined := b }, true) else (l, false)
    | none => (l, false)

/-- A lease's claim to be contracted: earlier joins first, then ascending crews (R213). -/
def Crew.claim (c : Crew) (k : CrewIx) : Nat := c.lease.joined * 4 + k.val

/-- Whether a lease qualifies for a contract (R213). -/
def Crew.qualifies (ct : CtxId → BitVec 128) (c : Crew) : Bool := c.lease.held && ctValid (ct c.ctx) && c.cref

/-- A best-effort crew: its lease is best-effort, or it holds none and cannot have a contracted one (R213, R311). -/
def Crew.bestEffort (ct : BitVec 128) (c : Crew) : Bool :=
  if c.lease.held then !c.lease.contracted else !(ctValid ct && c.cref)

/-- The kind of a crew's lease after the boundary: contracted leases that still qualify keep their places, earliest
joined first; those left over go to the qualifying leases whose kind is decided here (R213, R225). -/
def decideKind (ct : CtxId → BitVec 128) (crews : Vector Crew 4) (deciding : CrewIx → Bool) (k : CrewIx) : Bool :=
  let c := crews.get k
  let keeps (j : CrewIx) : Bool := (crews.get j).ctx == c.ctx && (crews.get j).lease.contracted
    && (crews.get j).qualifies ct
  let wants (j : CrewIx) : Bool := (crews.get j).ctx == c.ctx && !(crews.get j).lease.contracted && deciding j
    && (crews.get j).qualifies ct
  let ahead (p : CrewIx → Bool) : Nat :=
    (crewIxs.filter fun j => p j && (crews.get j).claim j < c.claim k).length
  let kept := (crewIxs.filter keeps).length
  if keeps k then ahead keeps < ctLmax (ct c.ctx)
  else wants k && kept + ahead wants < ctLmax (ct c.ctx)

/-- The contexts that hold contracted leases, each with its count and the rung it starts the computation at: kept from
before and at most the floor, or 0 (R216, R225). -/
def ownersOf (ct : CtxId → BitVec 128) (crews : Vector Crew 4) (before : List Owner) : List Own :=
  crewIxs.foldl (fun os k =>
    let c := crews.get k
    if !(c.lease.held && c.lease.contracted) then os
    else if os.any fun o => o.ctx == c.ctx then os.map fun o => if o.ctx = c.ctx then { o with n := o.n + 1 } else o
    else
      let r := match before.find? fun o => o.ctx == c.ctx with
        | some o => Min.min o.rung (ctNrung (ct c.ctx))
        | none => 0
      os ++ [{ ctx := c.ctx, rung := r, n := 1 }]) []

/-- The rung an owner has in a list, 0 if none. -/
def rungIn (os : List Own) (k : CtxId) : Nat := ((os.find? fun o => o.ctx == k).map Own.rung).getD 0

/-- The equal part of best-effort leases (R215). -/
def bestShare (ct : CtxId → BitVec 128) (gone : Nat) (os : List Own) (nbest : Nat) : Nat :=
  (arrayQuanta - (totalDemand ct os + gone)) / nbest / 256 * 256

/-- The context held a contracted lease on the core until this boundary; an owner that holds none keeps no rung (R216). -/
def Core.owned (c : Core) (k : CtxId) : Bool :=
  crewIxs.any fun j => (c.crew j).ctx == k && (c.crew j).lease.held && (c.crew j).lease.contracted

/-- A chunk of the crew's oldest matrix word is in progress. -/
def Crew.chunking (c : Crew) : Bool :=
  match c.mq with
  | m :: _ => m.chunk.isSome
  | [] => false

/-- A crew's lease ends with the crew: in a boundary clock its quanta stay taken until the next boundary (R213, R225). -/
def Core.leave (k : CrewIx) (cycle : Nat) (c : Core) : Core :=
  let l := (c.crew k).lease
  if l.held && cycle % 1024 = 0 && l.ending.all fun e => e = cycle then
    { c with leaving := c.leaving ++ [{ contracted := l.contracted, share := if l.contracted then l.share else 0, clock := cycle }] }
  else c

/-- A chunk in progress as its crew's lease becomes contracted finishes at the share it had (R217); a share of nothing would never end
it, and it takes the new one (DEDUCED, log 16). -/
def Crew.keepShare (was new : Lease) (c : Crew) : Crew :=
  if was.held && !was.contracted && new.contracted then
    { c with mq := match c.mq with
      | m :: rest => { m with chunk := m.chunk.map fun h =>
          if h.share.isSome then h else { h with share := some (if was.share = 0 then new.share else was.share) } } :: rest
      | [] => [] }
  else c

/-- One core at boundary `b`: ends, joins and re-arbitrations, kinds, then R216 once, then shares and gates (R213 to R217,
R225). `changed` marks the contexts whose contract changes here: every lease of one has its kind decided again, none of
them keeping it. -/
def Core.boundary (ct : CtxId → BitVec 128) (changed : CtxId → Bool) (b : Nat) (c : Core) : Core :=
  let due (k : CrewIx) : Bool := ((c.crew k).lease.atBoundary b).2 || changed (c.crew k).ctx
  let crews := c.crews.map fun w => { w with lease := { (w.lease.atBoundary b).1 with
    contracted := (w.lease.atBoundary b).1.contracted && !changed w.ctx } }
  let crews := (crewIxs.foldl (fun v k =>
    v.set k { v.get k with lease := { (v.get k).lease with contracted := decideKind ct crews due k } }) crews)
  let os0 := ownersOf ct crews (c.owners.filter fun o => c.owned o.ctx)
  let gone := c.leaving.filter fun g => b ≤ g.clock
  let left := gone.foldl (fun n g => n + g.share) 0
  let os := decideRungs ct left os0
  let narrowed (k : CtxId) : Bool := rungIn os0 k < rungIn os k
  let gate := crewIxs.filter fun k =>
    (crews.get k).lease.held && (crews.get k).lease.contracted && narrowed (crews.get k).ctx && (crews.get k).chunking
  let nbest := (crews.toList.filter fun w => w.lease.held && !w.lease.contracted).length
    + (gone.filter fun g => !g.contracted).length
  let decided (w : Crew) : Crew :=
    if !w.lease.held then w
    else { w with lease := { w.lease with
      rung := if w.lease.contracted then rungIn os w.ctx else 0
      share := if w.lease.contracted then demand (ct w.ctx) (rungIn os w.ctx) else bestShare ct left os nbest
      gate := if w.lease.joined = b then gate else w.lease.gate } }
  { c with
    crews := Vector.ofFn fun k => (decided (crews.get k)).keepShare (c.crew k).lease (decided (crews.get k)).lease
    leaving := gone
    owners := os.map fun o => { ctx := o.ctx, rung := o.rung } }

/-! ### Records of what was delivered (R333) -/

/-- A record before its first epoch (Table 21.3). -/
def ShutterStat.fresh (ctx : CtxId) (core : CoreId) : ShutterStat :=
  { ctx := ctx, core := core, ep := Vector.replicate 4 0, nword := 0, margin := 0x7FFFFFFF }

/-- One epoch counted for an owner on a core. -/
def countEpoch (core : CoreId) (l : List ShutterStat) (o : Owner) : List ShutterStat :=
  let l := if l.any fun r => r.ctx == o.ctx && r.core == core then l else l ++ [ShutterStat.fresh o.ctx core]
  l.map fun r =>
    if r.ctx = o.ctx && r.core = core then
      let i : Fin 4 := ⟨o.rung % 4, by omega⟩
      { r with ep := r.ep.set i (Min.min (r.ep.get i + 1) (2 ^ 32 - 1)) }
    else r

/-- A measured word joins its record. -/
def countWord (l : List ShutterStat) (m : CtxId × CoreId × Int) : List ShutterStat :=
  l.map fun r =>
    if r.ctx = m.1 && r.core = m.2.1 then
      { r with nword := Min.min (r.nword + 1) (2 ^ 32 - 1), margin := if m.2.2 < r.margin then m.2.2 else r.margin }
    else r

/-- A record admitted in a clock before boundary `b` takes effect there (R225). -/
def Ctx.changes (k : Ctx) (b : Nat) : Bool :=
  k.pending.any fun p => p.2 < b

/-- The latest of the records admitted before boundary `b`, or the one in force (R225). -/
def Ctx.inForceAt (k : Ctx) (b : Nat) : BitVec 128 :=
  (((k.pending.filter fun p => p.2 < b).getLast?).map Prod.fst).getD k.contract

/-- The fields of a record return to their reset values (R333). -/
def ShutterStat.cleared (r : ShutterStat) : ShutterStat := ShutterStat.fresh r.ctx r.core

/-- The epoch boundary of clock `b` on the whole device (R216, R225, R333). -/
def State.epochBoundary (s : State) (b : Nat) : State :=
  let changed (k : CtxId) : Bool := (s.ctx k).changes b
  let s := s.modNpu fun n => { n with
    stats := n.stats.map fun r => if changed r.ctx then r.cleared else r
    ctxs := n.ctxs.map fun k =>
      { k with contract := k.inForceAt b, pending := k.pending.filter fun p => b ≤ p.2 } }
  let ct (k : CtxId) : BitVec 128 := (s.ctx k).contract
  let s := { s with cores := s.cores.map (Core.boundary ct changed b) }
  s.modNpu fun n => { n with
    stats := (n.measured.filter fun m => !changed m.1).foldl countWord
      (coreIds.foldl (fun l c => (s.core c).owners.foldl (countEpoch c) l) n.stats)
    measured := [] }

/-- EPOCH_BOUNDARY at the end of a clock with `cycle` mod 1,024 = 0 (R216); in any other clock nothing is due. -/
def execEpochBoundary (s : State) : Host.Outcome State Fault Refusal :=
  .next (if s.due 0 1024 then (s.epochBoundary s.cycle).mark 0 else s)

end Sys2Proof.Machine
end

