-- ==== Sys2Proof/Machine/System.lean ====
section
/-! DEFINITION. System words of X (spec/05_isa_system.md): control and status registers (R84 to R88), `trap` (R90),
publication and acquisition (R97), mailboxes (R98, R99), `discard` (R100) and pool atomics (R101). -/

namespace Sys2Proof.Machine

/-! ### CSRs (Tables 5.1 and 5.2) -/

/-- A value that the crew's block gives, 0 with no block (log 4) and in the firmware context (log 21). -/
def State.ofBlock (s : State) (f : Block → XWord) : XWord :=
  if s.cur.role = .fw then 0 else match s.crew.block with
    | some b => f b
    | none => 0

/-- zext(CSR, 64) (R84). -/
def State.csr (s : State) : Csr → XWord
  | .blockid => s.ofBlock fun b => BitVec.ofNat 64 b.blockid
  | .teamid => s.ofBlock fun b => BitVec.ofNat 64 b.teamid
  | .teamsz => s.ofBlock fun b => BitVec.ofNat 64 b.teamsz
  | .nblocks => s.ofBlock fun b => BitVec.ofNat 64 b.nblocks
  | .crewid => s.ofBlock fun _ => BitVec.ofNat 64 s.cur.crew.val
  | .coreid => BitVec.ofNat 64 (s.cur.core.val % 16)
  | .dieid => BitVec.ofNat 64 (s.cur.core.val / 16)
  | .devid => s.npu.devid.zeroExtend 64
  | .ctxid => s.ofBlock fun b => BitVec.ofNat 64 b.ctx.val
  | .dom => s.ofBlock (fun b => b.domid ++ (0 : BitVec 32)) ||| s.scopes.zeroExtend 64
  | .b i => s.ofBlock fun b => b.b.get i
  | .part => s.part
  | .desctab => if s.cur.role = .fw then 0 else s.crew.desctab.zeroExtend 64
  | .cycle => BitVec.ofNat 64 s.cycle
  | .rep => if s.cur.role = .fw then 0 else s.crew.rep.zeroExtend 64
  | .rung => if s.cur.role = .fw then 0 else s.rungCsr.zeroExtend 64
  | .epoch => BitVec.ofNat 64 (s.cycle / 1024)
  | .waitlim => BitVec.ofNat 64 s.waitlim
  | .trapcause => s.here.fw.cause.zeroExtend 64
  | .trapaddr => s.here.fw.addr
  | .trappc => s.here.fw.tpc
  | .trapseq => s.here.fw.tseq.zeroExtend 64
  | .trapcrew => s.here.fw.tcrew.zeroExtend 64
  | .fwshare => s.here.fw.share.zeroExtend 64

def State.modFw (s : State) (f : Fw → Fw) : State := s.modHere fun c => { c with fw := f c.fw }

/-- The write rules of the trap CSRs: bits that Table 5.2 does not list ignore writes. CSRs that are read-only in every
context are left as they are; `waitlim`, `desctab` and `fwshare` have words of their own. -/
def State.writeCsr (s : State) (csr : Csr) (v : XWord) : State :=
  match csr with
  | .trapcause => s.modFw fun w => { w with cause := v.setWidth 24 }
  | .trapaddr => s.modFw fun w => { w with addr := v }
  | .trappc => s.modFw fun w => { w with tpc := v }
  | .trapseq => s.modFw fun w => { w with tseq := v.setWidth 2 }
  | .trapcrew => s.modFw fun w => { w with tcrew := v.setWidth 14 &&& 0x3F03 }
  | .blockid | .teamid | .teamsz | .nblocks | .crewid | .coreid | .dieid | .devid | .ctxid | .dom | .b _ | .part
  | .desctab | .cycle | .rep | .rung | .epoch | .waitlim | .fwshare => s

/-- `waitlim` takes the value mod 2^48, and 1,024 for less (R87). -/
def waitlimValue (v : XWord) : BitVec 48 := if v.toNat % 2 ^ 48 < 1024 then 1024 else v.setWidth 48

/-- `fwshare.share`: 0 takes 1, above 16 takes 16 (Table 5.2). -/
def fwshareValue (v : XWord) : BitVec 5 :=
  if v.toNat % 32 = 0 then 1 else if 16 < v.toNat % 32 then 16 else v.setWidth 5

/-- The checks of a `desctab` value, in order (R88). -/
def desctabCheck (part : XWord) (v : XWord) : Option TrapReq :=
  if v.toNat % 64 ≠ 0 then some (trapAt codeAlign v.toNat)
  else if 2 ^ 23 < v.toNat + 4096 then some (trapAt codePoolRange v.toNat)
  else if v.toNat < sBegin part || aBegin part < v.toNat + 4096 then some (trapAt codePoolPart v.toNat)
  else none

def execCsrr (tk : Tok) (rd : XReg) (csr : Csr) (s : State) : Host.Outcome State Fault Refusal :=
  runWord tk [] s fun s => .done (s.setX rd (s.csr csr))

def execCsrw (tk : Tok) (csr : Csr) (rs : XReg) (s : State) : Host.Outcome State Fault Refusal :=
  runWord tk [refX rs] s fun s => .done (s.writeCsr csr (s.getX rs))

/-- The firmware context has a wait limit of its own: Table 5.1 gives each crew one, and names none for the firmware
(DEDUCED, log 21). -/
def execWaitlimWrite (tk : Tok) (rs : XReg) (s : State) : Host.Outcome State Fault Refusal :=
  runWord tk [refX rs] s fun s =>
    let v := waitlimValue (s.getX rs)
    .done (if s.cur.role = .fw then s.modFw fun w => { w with waitlim := v }
      else s.modCrew fun c => { c with waitlim := v })

def execDesctabWrite (tk : Tok) (rs : XReg) (s : State) : Host.Outcome State Fault Refusal :=
  runWord tk [refX rs] s fun s =>
    .ofTrap (desctabCheck s.part (s.getX rs))
      (.done (s.modCrew fun c => { c with desctab := (s.getX rs).setWidth 23 }))

def execFwshareWrite (tk : Tok) (rs : XReg) (s : State) : Host.Outcome State Fault Refusal :=
  runWord tk [refX rs] s fun s => .done (s.modFw fun w => { w with share := fwshareValue (s.getX rs) })

/-! ### R90: `trap` -/

/-- `trap` retires, and the trap then stops the sequencer at the next word, with the immediate in `trapcause.info`
(R90). -/
def execTrap (tk : Tok) (imm : BitVec 16) (s : State) : Host.Outcome State Fault Refusal :=
  runWord tk [] s fun s => .thenTrap s { code := codeTrapInsn, info := imm, addr := 0 }

/-! ### R97: `pub`, `acq` -/

/-- The walk to a leaf of some context's stage-2 tree meets an uncorrectable word, its own among them. -/
def State.leafBad (s : State) (l : Leaf) : Bool :=
  ctxIds.any fun k => (s.leaves2 k).any fun q =>
    q.2 == l && (places2 s.mem.hbm (s.ctx k).root2 q.1).any fun a => s.mem.bad a 8

/-- A publication of the executing sequencer revives a page whose leaf's word is uncorrectable, or a table's on the way to it: a leaf
that a `discard` has marked over a store of its own, or any dead leaf over what it has not published (R303, R194). -/
def State.reviveBad (s : State) (dom : Bool) : Bool :=
  !s.mem.badHbm.isEmpty
    && ((s.mem.stores.any fun g => s.coversMine g.writer && g.under.any fun l => s.mem.bad l.1 8)
      || (s.mem.remote.any fun r => s.coversMine r.writer && r.under.any fun l => s.mem.bad l.1 8)
      || s.deadLeaves.any fun l => s.leafBad l
        && ((s.mem.stores.any fun g => s.coversMine g.writer && g.pubs.isEmpty && l.over none g.pa g.bytes.length)
          || (dom && s.mem.remote.any fun r => s.remoteMine r && r.put.isNone && l.over (some r.peer) r.pa r.size)))

/-- A publication at a scope, then what follows it in the same clock; one that meets an uncorrectable leaf traps HBM_ECC with nothing
done (R303; log 9). At dom scope held stores to remote memory are sent and acknowledged first; a refused one traps STAGE2 with every
queue as before the word, its store being held again (R19, R201, R287). -/
def State.publishing (s : State) (sc : Scope) (k : State → Res) : Res :=
  if s.reviveBad (sc = .dom) then .trap (xlatTrap codeHbmEcc 0 .write)
  else if sc = .dom then
    match s.delivery s.remoteMine with
    | .unsent => .block .other State.sendPuts
    | .waiting => .block .other id
    | .refused va => .trapNoting (xlatTrap codeStage2 va.toNat .write) State.holdRefused
    | .delivered => k (s.publish sc)
  else k (s.publish sc)

def execPub (tk : Tok) (scope : Scope) (s : State) : Host.Outcome State Fault Refusal :=
  runWord tk [] s fun s => if s.admits scope then s.publishing scope .done else .trap (trapOf codeScope)

/-- `acq` brings in publications of earlier clocks (R191). -/
def execAcq (tk : Tok) (scope : Scope) (s : State) : Host.Outcome State Fault Refusal :=
  runWord tk [] s fun s =>
    if s.admits scope then .done (s.acquire s.cur.core s.spotHere scope fun c => c < s.cycle)
    else .trap (trapOf codeScope)

/-! ### R98, R99: mailboxes -/

def Core.modBox (c : Core) (i : Fin 8) (f : Mailbox → Mailbox) : Core := { c with boxes := c.boxes.set i (f (c.boxes.get i)) }

/-- The launch that names a mailbox; the firmware context claims none (log 21). -/
def State.claimant (s : State) : Option (CtxId × Nat) :=
  if s.cur.role = .fw then none else s.crew.block.map fun b => (b.ctx, b.launch)

/-- The first naming of a mailbox claims it (R98). -/
def State.claimBox (s : State) (i : Fin 8) : State :=
  s.modHere fun c => c.modBox i fun m => if m.claim.isNone then { m with claim := s.claimant } else m

/-- A mailbox word: its index and its claim checked (R98, R99). -/
def State.withBox (s : State) (idx : XWord) (k : Fin 8 → Res) : Res :=
  if 7 < idx.toNat then .trap (trapOf codeRegRange)
  else
    let i : Fin 8 := ⟨idx.toNat % 8, by omega⟩
    let m := s.here.boxes.get i
    if m.claim.isSome && m.claim ≠ s.claimant then .trap (trapOf codeScope) else k i

def execMbput (tk : Tok) (ra rb : XReg) (s : State) : Host.Outcome State Fault Refusal :=
  runWord tk [refX ra, refX rb] s fun s =>
    s.withBox (s.getX ra) fun i =>
      if 16 ≤ (s.here.boxes.get i).entries.length then .block (.mailbox i.val) fun s => s.claimBox i
      else
        let v := s.getX rb
        s.publishing .core fun s =>
          .done ((s.claimBox i).modHere fun c => c.modBox i fun m =>
            { m with entries := m.entries ++ [{ value := v, at_ := s.cycle }] })

def execMbget (tk : Tok) (rd ra : XReg) (s : State) : Host.Outcome State Fault Refusal :=
  runWord tk [refX ra] s fun s =>
    s.withBox (s.getX ra) fun i =>
      match (s.here.boxes.get i).entries with
      | [] => .block (.mailbox i.val) fun s => s.claimBox i
      | e :: rest =>
        let s := (s.claimBox i).modHere fun c => c.modBox i fun m => { m with entries := rest }
        .done ((s.setX rd e.value).acquire s.cur.core s.spotHere .core fun c => c ≤ e.at_)

def execMbpoll (tk : Tok) (rd ra : XReg) (s : State) : Host.Outcome State Fault Refusal :=
  runWord tk [refX ra] s fun s =>
    s.withBox (s.getX ra) fun i =>
      .done ((s.claimBox i).setX rd (BitVec.ofNat 64 (s.here.boxes.get i).entries.length))

/-! ### R100, R194: `discard` -/

/-- A page that `discard` marks: the stage-2 leaf, the key, and where its contents lie. -/
structure DeadPage where
  leaf : Leaf
  key : Option MemKey
  pa : Nat
  size : Nat
  deriving DecidableEq, Repr

/-- The pages that meet [lo, hi), each translated for writing and wholly inside, or the trap (R100). A page is what one translation
maps, the smaller of its two leaves. The word of a leaf that the dead bit goes to has to be correctable (R303). -/
def State.discardPages (s : State) (lo hi : Nat) (va : Nat) : Nat → Except TrapReq (List Xlat)
  | 0 => .ok []
  | fuel + 1 =>
    if hi ≤ va then .ok []
    else match s.translateHere va .write with
      | .fault c => .error (xlatTrap c va .write)
      | .ok x =>
        let first := va / x.size * x.size
        if s.cur.role ≠ .fw && s.mem.bad x.leaf2.at_ 8 then .error (xlatTrap codeHbmEcc va .write)
        else if first < lo || hi < first + x.size then .error (trapAt codeAlign va)
        else match s.discardPages lo hi (first + x.size) fuel with
          | .ok l => .ok ({ x with pa := x.pa / x.size * x.size } :: l)
          | .error t => .error t

/-- Pages of a range make up the whole page of a stage-2 leaf, which carries one dead bit for all of it. -/
def wholeLeaf (l : List Xlat) (x : Xlat) : Bool :=
  (List.range (x.leaf2.size / 65536)).all fun i =>
    let a := x.pa / x.leaf2.size * x.leaf2.size + 65536 * i
    l.any fun y => y.leaf2 == x.leaf2 && y.pa ≤ a && a < y.pa + y.size

/-- What a `discard` marks: each stage-2 leaf of its range once, which its pages make up whole; a page of a larger leaf of which the
range does not hold all is not wholly inside the range and traps ALIGN (DESIGN CHOICE, log 22). -/
def State.discardLeaves (s : State) (lo hi : Nat) : Except TrapReq (List DeadPage) :=
  match s.discardPages lo hi lo ((hi - lo) / 65536) with
  | .error t => .error t
  | .ok l =>
    if l.any fun x => x.size < x.leaf2.size && !wholeLeaf l x then .error (trapAt codeAlign lo)
    else .ok ((l.map fun x =>
      { leaf := x.leaf2, key := x.key, pa := x.pa / x.leaf2.size * x.leaf2.size, size := x.leaf2.size : DeadPage }).dedup)

/-- The peer that holds a page, if one does. -/
def DeadPage.peer (p : DeadPage) : Option Nat := if entryRem p.leaf.entry then some (entryKey p.leaf.entry) else none

/-- A store to remote memory lies on a page. -/
def DeadPage.holds (p : DeadPage) (r : RemoteStore) : Bool :=
  p.peer == some r.peer && p.pa ≤ r.pa && r.pa < p.pa + p.size

/-- Puts to a page are on their way to its peer; a `discard` waits for their answers, as what it marks must come after them
(R194). -/
def State.putsOpen (s : State) (p : DeadPage) : Bool :=
  s.mem.remote.any fun r => p.holds r && r.put.isSome && r.open_ && !r.refused

/-- A `discard` takes a store away: one of the issuer, or one published before it (R194). -/
def State.discards (s : State) (w : Writer) (pubs : List Pub) : Bool :=
  s.coversMine w || !pubs.isEmpty || (match w with
    | .host _ | .npu | .peer => true
    | .seq .. | .away .. | .cmd _ => false)

/-- What another agent has not published lands on the revived page, and is seen by nobody before (R100, R194). -/
def DeadPage.keep (p : DeadPage) (m : Global) : Global :=
  { m with
    stores := m.stores.map fun g =>
      if p.peer.isNone && p.pa ≤ g.pa && g.pa < p.pa + p.size then { g with under := some (p.leaf.at_, p.size) } else g
    remote := m.remote.map fun r => if p.holds r then { r with under := some (p.leaf.at_, p.size) } else r }

/-- The lines of a page at a peer go, gets of it are stale and refusals of them forgotten: nobody reads what it held (R194). -/
def State.dropLines (s : State) (peer pa size : Nat) : State :=
  { s with
    mem := { s.mem with
      gets := s.mem.gets.map fun g => if g.peer = peer && pa ≤ g.pa && g.pa < pa + size then { g with stale := true } else g
      refusals := s.mem.refusals.filter fun r => !(r.peer == peer && pa ≤ r.pa && r.pa < pa + size) }
    cores := s.cores.map fun c =>
      { c with lines := c.lines.filter fun l => !(l.peer == peer && pa ≤ l.pa && l.pa < pa + size) } }

/-- ONE PAGE BECOMES DEAD: zeros for every agent, and its leaf carries the dead bit (R100, R194). The firmware's own pages
have no such leaf and are only zeroed (log 21). -/
def State.killPage (s : State) (p : DeadPage) : State :=
  let s := match p.peer with
    | some peer =>
      ({ s with mem := { s.mem with remote := s.mem.remote.filter fun r => !(p.holds r && s.discards r.writer r.pubs) } }
        : State).dropLines peer p.pa p.size
    | none => { s with mem := s.mem.zeroPage (fun g => s.discards g.writer g.pubs) p.key p.pa p.size }
  if s.cur.role = .fw then s
  else ({ s with mem := p.keep s.mem } : State).setDead p.leaf.at_ 1

def execDiscard (tk : Tok) (ra rb : XReg) (s : State) : Host.Outcome State Fault Refusal :=
  runWord tk [refX ra, refX rb] s fun s =>
    let a := (s.getX ra).toNat
    let n := (s.getX rb).toNat
    if 16 ≤ (s.crew.outstanding .x).length && !(s.cur.role = .fw) then .block .other id
    else if n = 0 then .done s
    else if a % 65536 ≠ 0 then .trap (trapAt codeAlign a)
    else if n % 65536 ≠ 0 then .trap (trapAt codeAlign a)
    else if 2 ^ 48 < a + n then .trap (xlatTrap codePageNp a .write)
    else match s.discardLeaves a (a + n) with
      | .error t => .trap t
      | .ok l => if l.any s.putsOpen then .block .other id else .done (l.foldl State.killPage s)

/-! ### R101: `pamo` -/

/-- A pool atomic: the checks, then the old value to `rd` and the new value to the pool (R101). -/
def pamo (tk : Tok) (n : Nat) (more : List (State → List RegRef)) (rd ra rb : XReg) (s : State) (f : XWord → XWord → XWord → XWord) :
    Host.Outcome State Fault Refusal :=
  runWord tk ([refX ra, refX rb] ++ more) s fun s =>
    let off := (s.getX ra).toNat
    match atomCheck s.part off n n with
    | some t => .trap t
    | none =>
      let place := poolPlace s.part off
      if s.here.lockedFor none place n then .block .other id
      else if s.here.poolBad place n then .trap (trapAt codePoolEcc off)
      else
        let old := BitVec.ofNat 64 (leNat (memGets s.here.pool place n))
        let new := f old (s.getX rb) (s.getX rd)
        .done ((s.poolStore off (natLe n new.toNat)).setX rd old)

def execPamoAdd (tk : Tok) (rd ra rb : XReg) (s : State) : Host.Outcome State Fault Refusal :=
  pamo tk 8 [] rd ra rb s fun old b _ => old + b

def execPamoAddd (tk : Tok) (rd ra rb : XReg) (s : State) : Host.Outcome State Fault Refusal :=
  pamo tk 4 [] rd ra rb s fun old b _ => (accAdd (old.setWidth 32) (b.setWidth 32)).zeroExtend 64

def execPamoMin (tk : Tok) (rd ra rb : XReg) (s : State) : Host.Outcome State Fault Refusal :=
  pamo tk 8 [] rd ra rb s fun old b _ => if b.slt old then b else old

def execPamoMax (tk : Tok) (rd ra rb : XReg) (s : State) : Host.Outcome State Fault Refusal :=
  pamo tk 8 [] rd ra rb s fun old b _ => if old.slt b then b else old

def execPamoMinn (tk : Tok) (rd ra rb : XReg) (s : State) : Host.Outcome State Fault Refusal :=
  pamo tk 8 [] rd ra rb s fun old b _ => if b.ult old then b else old

def execPamoMaxn (tk : Tok) (rd ra rb : XReg) (s : State) : Host.Outcome State Fault Refusal :=
  pamo tk 8 [] rd ra rb s fun old b _ => if old.ult b then b else old

def execPamoSwp (tk : Tok) (rd ra rb : XReg) (s : State) : Host.Outcome State Fault Refusal :=
  pamo tk 8 [] rd ra rb s fun _ b _ => b

/-- `pamo.cas` reads `x[rd]` as the expected value (R101). -/
def execPamoCas (tk : Tok) (rd ra rb : XReg) (s : State) : Host.Outcome State Fault Refusal :=
  pamo tk 8 [refX rd] rd ra rb s fun old b e => if old = e then b else old

end Sys2Proof.Machine
end

