-- ==== Sys2Proof/Machine/Barrier.lean ====
section
/-! DEFINITION. Barrier objects (spec/05_isa_system.md R93 to R96; spec/09_memory_model.md R197): the barrier words, the
combine port's update, and the steps that end bounded waits (R180, R182, R95, R99). -/

namespace Sys2Proof.Machine

/-! ### Barrier addresses (R94) -/

/-- The crew that runs a block of a launch. -/
def State.findBlock (s : State) (ctx : CtxId) (launch blockid : Nat) : Option (CoreId × CrewIx) :=
  crewIds.find? fun q => match (s.crewAt q.1 q.2).block with
    | some b => b.ctx == ctx && b.launch == launch && b.blockid == blockid
    | none => false

/-- The crew at a team position of the executing crew's team; `none` once its block has completed (R171). -/
def State.teamMember (s : State) (pos : Nat) : Option (CoreId × CrewIx) :=
  match s.crew.block with
  | some b => s.findBlock b.ctx b.launch (b.teamid * b.teamsz + pos)
  | none => none

/-- The size of the executing crew's team. -/
def State.teamSize (s : State) : Nat :=
  if s.cur.role = .fw then 0 else match s.crew.block with
    | some b => b.teamsz
    | none => 0

/-- A barrier object as an address names it: the core, its byte address in that core's pool, and the offset. -/
structure BarRef where
  core : CoreId
  place : Nat
  off : Nat
  deriving DecidableEq, Repr

/-- The checks of a barrier address (Table 5.5, R94). -/
def State.barRef (s : State) (v : XWord) (onlyHere : Bool) : Except TrapReq BarRef :=
  let n := v.toNat
  let off := field n 22 0
  let far := field n 63 63 = 1
  if field n 62 56 ≠ 0 || field n 47 23 ≠ 0 then .error (trapOf codeRegRange)
  else if far && (onlyHere || s.teamSize ≤ field n 55 48) then .error (trapOf codeRegRange)
  else if far then
    match s.teamMember (field n 55 48) with
    | none => .error (trapOf codeScope)
    | some q =>
      let part := (s.crewAt q.1 q.2).part
      match atomCheck part off 16 16 with
      | some t => .error t
      | none => .ok { core := q.1, place := poolPlace part off, off := off }
  else
    match atomCheck s.part off 16 16 with
    | some t => .error t
    | none => .ok { core := s.cur.core, place := poolPlace s.part off, off := off }

/-! ### The object (Table 5.4) -/

/-- The 16 bytes of an object as one number. -/
def Core.barObj (c : Core) (place : Nat) : Nat := leNat (memGets c.pool place 16)

/-- Operations that reach an object in this clock and have not been applied. -/
def Core.barPending (c : Core) (place : Nat) : Bool := c.comb.any fun o => o.addr == place

/-- The scope of an object, of a `binit` of the same clock if there is one (R197). A code that names no scope releases
and acquires as `crew` (log 23). -/
def Core.barScope (c : Core) (place : Nat) : Scope :=
  let code := c.comb.foldl (fun v o => match o.kind with
    | .init _ sc => if o.addr = place then sc.toNat else v
    | _ => v) (field (c.barObj place) 103 97)
  (scopeOf code).getD .crew

/-- What the port keeps of an object. -/
def BarSide.fresh (place : Nat) : BarSide :=
  { addr := place, unsignalled := [], runs := [], cmdsNow := [], cmdsDone := [], doneAt := none }

def Core.barSide (c : Core) (place : Nat) : BarSide := (c.bars.find? fun b => b.addr == place).getD (BarSide.fresh place)

/-- An operation joins those that reach an object in this clock. -/
def State.combine (s : State) (core : CoreId) (place : Nat) (k : CombKind) : State :=
  s.modCore core fun c => { c with comb := c.comb ++ [{ addr := place, kind := k }] }

/-! ### The update (R96) -/

/-- Arrivals and drops of an operation. -/
def CombKind.arrivals : CombKind → Int
  | .arrive | .drop | .bytes _ | .mask _ | .hingeArrive .. => 1
  | .copy .. | .hingeFinal .. | .init .. => 0

def CombKind.drops : CombKind → Int
  | .drop => 1
  | .arrive | .bytes _ | .mask _ | .hingeArrive .. | .copy .. | .hingeFinal .. | .init .. => 0

/-- What an operation adds to `bytes`. -/
def CombKind.byteSum : CombKind → Int
  | .bytes n => n
  | .copy w _ _ _ => -(w : Int)
  | .hingeArrive .. => 1
  | .hingeFinal .. => -1
  | .arrive | .drop | .mask _ | .init .. => 0

def CombKind.fails : CombKind → Bool
  | .copy _ _ f _ | .mask f | .hingeArrive _ f | .hingeFinal f => f
  | .arrive | .drop | .bytes _ | .init .. => false

def CombKind.convs : CombKind → Nat
  | .copy _ n _ _ => n
  | .arrive | .drop | .bytes _ | .mask _ | .hingeArrive .. | .hingeFinal .. | .init .. => 0

/-- The Hinge run that an operation brings to the record. -/
def CombKind.hinge? : CombKind → Option Nat
  | .hingeArrive r _ => some r
  | .arrive | .drop | .bytes _ | .mask _ | .copy .. | .hingeFinal .. | .init .. => none

def CombKind.cmd? : CombKind → Option Nat
  | .copy _ _ _ id => some id
  | .arrive | .drop | .bytes _ | .mask _ | .hingeArrive .. | .hingeFinal .. | .init .. => none

def sumInt (l : List Int) : Int := l.foldl (fun a x => a + x) 0

/-- An object after a `binit` (R95). -/
def barInit (count : BitVec 24) (scope : BitVec 3) : Nat := count.toNat + count.toNat * 2 ^ 32 + scope.toNat * 2 ^ 97

/-- The object and its record after the `binit`s of a clock (R197). A Hinge run that waits for a phase goes on waiting. -/
def afterInit (place : Nat) (o : Nat × BarSide) : CombKind → Nat × BarSide
  | .init c sc => (barInit c sc, { BarSide.fresh place with runs := o.2.runs })
  | .arrive | .drop | .bytes _ | .mask _ | .hingeArrive .. | .copy .. | .hingeFinal .. => o

/-- What an update tells the Hinge runs that wait at an object: nothing, the finalize signal (R96, R256), or that their phase has
completed, with its clock, its failure flag and its scope (R256, R257). -/
inductive BarNews where
  | none
  | signal (runs : List Nat)
  | done (runs : List Nat) (clock : Nat) (fail : Bool) (scope : Scope)
  deriving DecidableEq, Repr

/-- All operations of one clock on one object as a single update, then one test of completion (R96): the object, its
record, and what the Hinge runs hear of it. -/
def barUpdate (clock place : Nat) (o : Nat × BarSide) (ops : List CombKind) : Nat × BarSide × BarNews :=
  let o := ops.foldl (afterInit place) o
  let pending := intCode 32 (sext (field o.1 31 0) 32 - sumInt (ops.map CombKind.arrivals))
  let reset := intCode 32 (sext (field o.1 63 32) 32 - sumInt (ops.map CombKind.drops))
  let bytes := intCode 32 (sext (field o.1 95 64) 32 + sumInt (ops.map CombKind.byteSum))
  let fail := field o.1 104 104 = 1 || ops.any CombKind.fails
  let conv := Min.min (field o.1 127 112 + (ops.map CombKind.convs).foldl (fun a x => a + x) 0) 65535
  let phase := field o.1 96 96
  let side := { o.2 with
    unsignalled := o.2.unsignalled ++ ops.filterMap CombKind.hinge?
    runs := o.2.runs ++ ops.filterMap CombKind.hinge?
    cmdsNow := o.2.cmdsNow ++ ops.filterMap CombKind.cmd? }
  let pack (pending phase : Nat) : Nat :=
    pending + reset * 2 ^ 32 + bytes * 2 ^ 64 + phase * 2 ^ 96 + field o.1 103 97 * 2 ^ 97
      + (if fail then 2 ^ 104 else 0) + conv * 2 ^ 112
  if pending = 0 && bytes = 0 && 0 < sext reset 32 then
    (pack reset (1 - phase), { side with unsignalled := [], runs := [], cmdsNow := [], cmdsDone := side.cmdsNow, doneAt := some clock },
      .done side.runs clock fail ((scopeOf (field o.1 103 97)).getD .crew))
  else if pending = 0 && 0 < sext bytes 32 then
    (pack pending phase, { side with unsignalled := [] }, .signal side.unsignalled)
  else (pack pending phase, side, .none)

/-- The objects that have operations waiting and have not been updated in this clock. -/
def Core.dueObjects (c : Core) : List Nat :=
  ((c.comb.map fun o => o.addr).filter fun a => !c.settled.contains a).dedup

/-- An operation that overwrites the object whole. -/
def CombKind.isInit : CombKind → Bool
  | .init .. => true
  | .arrive | .drop | .bytes _ | .mask _ | .hingeArrive .. | .copy .. | .hingeFinal .. => false

/-- The update of one object of a core. An object that became uncorrectable after its operations had reached it is not
updated, unless a `binit` overwrites it: its words stay uncorrectable for whoever reads them next (DEDUCED, log 57). -/
def Core.updateObject (clock : Nat) (acc : Core × List BarNews) (place : Nat) : Core × List BarNews :=
  let c := acc.1
  let ops := (c.comb.filter fun o => o.addr == place).map fun o => o.kind
  let taken (c : Core) : Core :=
    { c with comb := c.comb.filter fun o => !(o.addr == place), settled := place :: c.settled }
  if c.poolBad place 16 && !ops.any CombKind.isInit then (taken c, acc.2)
  else
    let r := barUpdate clock place (c.barObj place, c.barSide place) ops
    ({ taken (c.poolWrite place (natLe 16 r.1)) with bars := r.2.1 :: c.bars.filter fun b => !(b.addr == place) },
      acc.2 ++ [r.2.2])

/-- A run that has arrived hears of its barrier: the signal begins its finalize, the completion of its phase is noted (R256). -/
def HingeRun.hear (r : HingeRun) (n : BarNews) : HingeRun :=
  let mine (runs : List Nat) : Bool := r.cmd.any fun id => runs.contains id
  match n with
  | .none => r
  | .signal runs => if mine runs && r.phase = .arrived then { r with phase := .finalize 0 } else r
  | .done runs t fail sc => if mine runs then { r with ended := some (t, fail, sc) } else r

/-- The runs that an update tells something, wherever they are: a pre-emption may have put them by. -/
def State.tellHinges (s : State) (n : BarNews) : State :=
  let tell (c : Crew) : Crew := { c with hinge := c.hinge.hear n }
  match n with
  | .none | .signal [] | .done [] .. => s
  | .signal (_ :: _) | .done (_ :: _) .. =>
    { s with
      cores := s.cores.map fun c => { c with crews := c.crews.map tell }
      npu := { s.npu with saves := s.npu.saves.map fun v => { v with rec_ := tell v.rec_ } } }

/-- The combine port's updates of a clock on a core: each object once (R96). -/
def State.combineCore (s : State) (core : CoreId) : State :=
  let r := (s.core core).dueObjects.foldl (Core.updateObject s.cycle) (s.core core, [])
  r.2.foldl State.tellHinges (s.setCore core r.1)

def execCombineUpdate (core : CoreId) (s : State) : Host.Outcome State Fault Refusal := .next (s.combineCore core)

/-! ### The barrier words (R95) -/

/-- A barrier word on the object that `x[ra]` names: the address is checked before any effect, a locked bank is waited
for (R156), and an uncorrectable object is reported. -/
def State.withBar (s : State) (v : XWord) (onlyHere reads : Bool) (wait : Nat → WaitKind) (k : BarRef → Res) : Res :=
  match s.barRef v onlyHere with
  | .error t => .trap t
  | .ok b =>
    if (s.core b.core).bankLocked none b.place 16 then .block (wait b.off) id
    else if reads && (s.core b.core).poolBad b.place 16 then .trap (trapAt codePoolEcc b.off)
    else k b

/-- An arrival: the issuer's earlier global stores are released at the object's scope, then the operation reaches the
object (R95, R197). -/
def arrival (tk : Tok) (ra : XReg) (reads : List (State → List RegRef)) (s : State) (kind : State → CombKind) :
    Host.Outcome State Fault Refusal :=
  runWord tk (refX ra :: reads) s fun s =>
    s.withBar (s.getX ra) false true (fun _ => .other) fun b =>
      s.publishing ((s.core b.core).barScope b.place) fun s => .done (s.combine b.core b.place (kind s))

def execBinit (tk : Tok) (ra rb : XReg) (s : State) : Host.Outcome State Fault Refusal :=
  runWord tk [refX ra, refX rb] s fun s =>
    s.withBar (s.getX ra) true false (fun _ => .other) fun b =>
      let v := (s.getX rb).toNat
      if field v 63 27 ≠ 0 || field v 23 0 = 0 then .trap (trapOf codeRegRange)
      else match scopeOf (field v 26 24) with
        | none => .trap (trapOf codeScope)
        | some sc =>
          if s.admits sc then
            .done (s.combine b.core b.place (.init (BitVec.ofNat 24 (field v 23 0)) (BitVec.ofNat 3 (field v 26 24))))
          else .trap (trapOf codeScope)

def execBarv (tk : Tok) (ra : XReg) (s : State) : Host.Outcome State Fault Refusal :=
  arrival tk ra [] s fun _ => .arrive

def execBard (tk : Tok) (ra : XReg) (s : State) : Host.Outcome State Fault Refusal :=
  arrival tk ra [] s fun _ => .drop

def execBart (tk : Tok) (ra rb : XReg) (s : State) : Host.Outcome State Fault Refusal :=
  arrival tk ra [refX rb] s fun s => .bytes (sext (s.getX rb).toNat 32)

/-- What a returning `bwait` acquires: for its core, publications completed no later than the update that completed the
phase; for its sequencer, the bytes of the transfers that updated the object in it (R191, R197). -/
def State.acquireBar (s : State) (b : BarRef) : State :=
  let side := (s.core b.core).barSide b.place
  match side.doneAt with
  | some t => (s.acquire s.cur.core s.spotHere ((s.core b.core).barScope b.place) fun c => c ≤ t).acquireCmds side.cmdsDone
  | none => s

def execBwait (tk : Tok) (ra rb : XReg) (s : State) : Host.Outcome State Fault Refusal :=
  runWord tk [refX ra, refX rb] s fun s =>
    s.withBar (s.getX ra) true true .barrier fun b =>
      if !s.here.barPending b.place && field (s.here.barObj b.place) 96 96 ≠ (s.getX rb).toNat % 2 then
        .done (s.acquireBar b)
      else .block (.barrier b.off) id

def execBtest (tk : Tok) (rd ra : XReg) (s : State) : Host.Outcome State Fault Refusal :=
  runWord tk [refX ra] s fun s =>
    s.withBar (s.getX ra) true true (fun _ => .other) fun b =>
      if s.here.barPending b.place then .block .other id
      else .done (s.setX rd (BitVec.ofNat 64 (field (s.here.barObj b.place) 103 96)))

/-! ### Held pushes and the ends of bounded waits (R180, R182, R95, R99) -/

/-- TOKEN_PUSH: the held pushes of the sequencer whose turn it is are performed in order, as far as they can be; a wait
for a full queue begins with the push that finds it full and ends with that push (R180, R182). -/
def execTokenPush (s : State) : Host.Outcome State Fault Refusal := .next (s.pushAll s.seq.held.length).notePushWait

/-- TOKEN_TIMEOUT of a pop wait or of a push wait beyond the limit; held pushes stay held (R182). -/
def execTokenTimeout (s : State) : Host.Outcome State Fault Refusal :=
  .next (match s.timedOut with
    | some .pops | some .push => raise (trapOf codeTokenTimeout) s
    | _ => s)

/-- BAR_TIMEOUT of a `bwait`, with the barrier's offset (R95, Table 5.3). -/
def execBarTimeout (s : State) : Host.Outcome State Fault Refusal :=
  .next (match s.timedOut with
    | some (.barrier off) => raise (trapAt codeBarTimeout off) s
    | _ => s)

/-- MBOX_TIMEOUT of a mailbox word, with the mailbox index (R99, Table 5.3). -/
def execMboxTimeout (s : State) : Host.Outcome State Fault Refusal :=
  .next (match s.timedOut with
    | some (.mailbox i) => raise (trapAt codeMboxTimeout i) s
    | _ => s)

end Sys2Proof.Machine
end

