-- ==== Sys2Proof/Machine/Records.lean ====
section
/-! DEFINITION. Fault records and soft-error counts (R303, R334, R335). -/

namespace Sys2Proof.Machine

/-- What a fault record says besides its number and its time (Table 21.4). -/
structure FaultRec where
  kind : Nat
  code : BitVec 8
  ctx : CtxId
  core : CoreId
  crew : CrewIx
  stream : Stream
  pc : XWord
  addr : XWord
  deriving DecidableEq, Repr

/-- The 32 bytes of a fault record (Table 21.4). `when_` is `cycle`, with the start number for kinds 6 and 7. -/
def FaultRec.pack (r : FaultRec) (num when_ : Nat) : BitVec 256 :=
  BitVec.ofNat 256 (r.addr.toNat * 2 ^ 192 + r.pc.toNat * 2 ^ 128 + when_ % 2 ^ 64 * 2 ^ 64 + r.kind % 256 * 2 ^ 56
    + r.code.toNat * 2 ^ 48 + r.ctx.val * 2 ^ 42 + r.core.val / 16 * 2 ^ 40 + r.core.val % 16 * 2 ^ 36
    + r.crew.val * 2 ^ 34 + r.stream.num.val * 2 ^ 32 + num % 2 ^ 32)

/-- Writing a fault record: the ring in module flash keeps the newest 1,024 (R335). -/
def State.faultRecord (s : State) (r : FaultRec) : State :=
  let when_ := if r.kind = 6 || r.kind = 7 then s.cycle % 2 ^ 48 + s.boot.starts % 2 ^ 16 * 2 ^ 48 else s.cycle
  let l := s.boot.faults ++ [r.pack s.boot.nextFault when_]
  { s with boot := { s.boot with faults := l.drop (l.length - 1024), nextFault := s.boot.nextFault + 1 } }

/-- A record of something that happened on a core to a trap's owner. -/
def faultOfTrap (kind : Nat) (core : CoreId) (t : Trap) : FaultRec :=
  { kind := kind, code := t.code, ctx := t.ctx, core := core, crew := t.crew, stream := t.stream, pc := t.pc,
    addr := t.addr }

/-- A corrected error is counted: kind 0 a pool bank, 1 an HBM stack, 2 a register (R303, R319). -/
def countSoft (kind unit : Nat) (l : List (Nat × Nat × Nat)) : List (Nat × Nat × Nat) :=
  if l.any fun q => q.1 == kind && q.2.1 == unit then
    l.map fun q => if q.1 = kind && q.2.1 = unit then (q.1, q.2.1, q.2.2 + 1) else q
  else l ++ [(kind, unit, 1)]

end Sys2Proof.Machine
end

