-- ==== Sys2Proof/Machine/Boot.lean ====
section
/-! DEFINITION. Starting, power and shutdown of the module (spec/20_firmware_security.md R324 to R326, R331). -/

namespace Sys2Proof.Machine

/-! ### Images and the boot record (Tables 20.2 and 20.3) -/

/-- The header of a bank as a number of 2,048 bits. -/
def bankHeader (bank : List Byte) : Nat := leNat (bank.take 256)

def imMagic (h : Nat) : Nat := field h 31 0
def imVersion (h : Nat) : Nat := field h 63 32
def imSvn (h : Nat) : Nat := field h 95 64
def imLen (h : Nat) : Nat := field h 127 96
def imEntry (h : Nat) : Nat := field h 159 128
def imBurn (h : Nat) : Bool := field h 160 160 = 1
def imDigest (h : Nat) : BitVec 256 := BitVec.ofNat 256 (field h 511 256)
def imPub (h : Nat) : BitVec 512 := BitVec.ofNat 512 (field h 1023 512)
def imSig (h : Nat) : BitVec 512 := BitVec.ofNat 512 (field h 1535 1024)

/-- The body of an image. -/
def bankBody (bank : List Byte) : List Byte := (bank.drop 256).take (imLen (bankHeader bank))

/-- A bank verifies: the conditions that R324 lists. That `entry` is a multiple of 4 is no condition of them. -/
def bankVerifies (minSvn : Nat) (bank : List Byte) : Bool :=
  let h := bankHeader bank
  imMagic h = 0x4B574648 && field h 2047 1536 = 0 && field h 255 161 = 0
    && imLen h % 64 = 0 && imLen h ≤ 2 ^ 24 && minSvn ≤ imSvn h
    && Config.sm3 (natLe 64 (imPub h).toNat) = Config.rootKeyHash
    && Config.sm2Verify (imPub h) (bank.take 128) (imSig h)
    && Config.sm3 (bankBody bank) = imDigest h

/-- A field of the boot record. -/
def Boot.get (b : Boot) (hi lo : Nat) : Nat := field b.record.toNat hi lo

/-- A field of the boot record is written; the write reaches flash at once (R325). -/
def Boot.put (b : Boot) (hi lo v : Nat) : Boot :=
  { b with record := BitVec.ofNat 128 (setField b.record.toNat hi lo v) }

def Boot.fails (b : Boot) : Nat := b.get 23 16

/-- `pref`: true for bank B. -/
def Boot.pref (b : Boot) : Bool := b.get 8 8 = 1

/-- A bank by its letter: true for B. -/
def Boot.bank (b : Boot) (second : Bool) : List Byte := if second then b.bankB else b.bankA

def Boot.setBank (b : Boot) (second : Bool) (l : List Byte) : Boot :=
  if second then { b with bankB := l } else { b with bankA := l }

/-- Pushing a reason (R325 step 2). -/
def Boot.push (b : Boot) (reason : Nat) : Boot :=
  ((b.put 63 56 (b.get 55 48)).put 55 48 (b.get 47 40)).put 47 40 reason

/-- Popping the newest reason (R325 step 6). -/
def Boot.pop (b : Boot) : Boot :=
  ((b.put 47 40 (b.get 55 48)).put 55 48 (b.get 63 56)).put 63 56 0

/-- The header of the running image. -/
def Boot.runningHeader (b : Boot) : Nat := bankHeader (b.bank b.running)

/-! ### What a start or a loss of power leaves (R325, R4) -/

/-- Everything but module flash, the fuses and what has left the device is as at power-on; the module stands at a stage. The
model's own schedule goes on (log 1). -/
def State.clear (s : State) (stage : Stage) : State :=
  { State.reset with
    npu := { NDie.reset with out := s.npu.out }
    boot := { s.boot with stage := stage, running := false, startKey := 0 }
    agenda := s.agenda, tick := s.tick, serial := s.serial, cur := s.cur }

/-- A failed start replaces the newest reason, and the module restarts from step 1 (R325 step 7). -/
def State.failStart (s : State) (reason : Nat) : State :=
  let s := s.clear .powered
  { s with boot := s.boot.put 47 40 reason }

/-- A kind-7 record of Sage mode (Table 21.4): a code, and the core it is of. -/
def sageRecord (code : Nat) (core : CoreId) : FaultRec :=
  { kind := 7, code := BitVec.ofNat 8 code, ctx := 0, core := core, crew := 0, stream := .x, pc := 0, addr := 0 }

/-- Sage mode: the boot ROM runs the self-tests of step 4, recorded with the newest reason or the one of their failure, and the pool
bank tests, of which each core that fails is recorded under the newest reason (R326; log 36). -/
def State.enterSage (s : State) : State :=
  let s := s.clear .sage
  let s := s.faultRecord (sageRecord (if Config.selfTestOk s.tick then s.boot.get 47 40 else 4) 0)
  coreIds.foldl (fun s c => if Config.poolTestOk s.tick c.val then s else s.faultRecord (sageRecord (s.boot.get 47 40) c)) s

/-- The firmware context of a core as it is released at an entry (R325 step 5): at the word that the entry lies in, should an image
give no multiple of 4 (R42; DESIGN CHOICE, log 57). -/
def Fw.released (entry : Nat) : Fw :=
  { Fw.reset with seq := { Seq.idle with status := .running, pc := wordStart (BitVec.ofNat 64 entry) }, serving := .boot }

/-- Release: the body lies in the carve-out of every C-die, kept under the start key, drawn here, and every firmware context runs
(R325 step 5, R328). -/
def State.release (s : State) (second : Bool) : State :=
  let s := s.clear .starting
  let bank := s.boot.bank second
  let body := bankBody bank
  let hbm := ([0, 1, 2, 3] : List Nat).foldl (fun m d => memSets m (Config.fwBody d) body) s.mem.hbm
  let key := s.free 256
  { s with
    mem := { (s.mem.setKey Config.carveBase (2 ^ 32) (some (BitVec.ofNat 256 key))) with hbm := hbm }
    cores := s.cores.map fun c => { c with fw := Fw.released (imEntry (bankHeader bank)) }
    boot := { s.boot with running := second, startKey := key } }

/-- Steps 2 to 5 of a start (R325). -/
def State.start (s : State) : State :=
  let fails := s.boot.fails
  let first := if fails % 2 = 0 then s.boot.pref else !s.boot.pref
  let s : State := { s with boot := (s.boot.put 23 16 (fails + 1)).push 6 }
  let ok (second : Bool) : Bool := bankVerifies s.boot.minSvn (s.boot.bank second)
  if !ok first && !ok !first then s.failStart 1
  else if !Config.selfTestOk s.tick then s.failStart 4
  else s.release (if ok first then first else !first)

/-- BOOT_START (R325, R326): a module with power and no start in progress begins one, and the starts are counted (R335). -/
def execBootStart (s : State) : Host.Outcome State Fault Refusal :=
  .next (
    if s.boot.stage ≠ .off && s.boot.stage ≠ .powered then s
    else
      let s : State := { s with boot := { s.boot with starts := s.boot.starts + 1 } }
      if s.boot.fails = 3 then s.enterSage else s.start)

/-- READY: every firmware context has gone idle (R325 step 6); Thaper writes `fwshare` 4 (R320). -/
def execReady (s : State) : Host.Outcome State Fault Refusal :=
  .next (
    let idle (w : Fw) : Bool := !w.stopped && w.serving = .nothing && w.seq.status ≠ .running
    if s.boot.stage ≠ .starting || !s.cores.all fun c => idle c.fw then s
    else
      let b := (s.boot.pop.put 23 16 0).put 8 8 s.boot.running.toNat
      let h := b.runningHeader
      { s with
        boot := { b with stage := .ready, minSvn := if imBurn h then imSvn h else b.minSvn }
        cores := s.cores.map fun c => { c with fw := { c.fw with share := 4 } }
        cycle := 0, marks := #v[0, 1, 1, 1] })

/-- READY_TIMEOUT: not ready 2 s after the release (R325 step 7). Time before ready is an input (log 18). -/
def execReadyTimeout (s : State) : Host.Outcome State Fault Refusal :=
  .next (if s.boot.stage = .starting then s.failStart 3 else s)

/-- FATAL_CONDITION, reported by firmware before ready (R325 step 7). -/
def execFatalCondition (s : State) : Host.Outcome State Fault Refusal :=
  .next (if s.boot.stage = .starting then s.failStart 5 else s)

/-- POWER_LOSS: nothing is kept but module flash and fuses (R325, R336). -/
def execPowerLoss (s : State) : Host.Outcome State Fault Refusal := .next (s.clear .off)

/-! ### Power (R331) -/

/-- The power above which the N-die acts, in watts. -/
def powerLimit : Nat := 2800

/-- 10 ms in clocks. -/
def shutdownClocks : Nat := 19000000

/-- POWER_CHECK: a measurement of board power. Above the limit unowned slots and then leftover quanta are withheld; at or
below it nothing is (R331; log 37). -/
def execPowerCheck (watts : Nat) (s : State) : Host.Outcome State Fault Refusal :=
  .next (
    if s.boot.stage ≠ .ready then s
    else s.modNpu fun n =>
      if powerLimit < watts then
        { n with
          power := watts, withheldSlots := true, withheldQuanta := true
          overSince := match n.overSince with
            | some t => some t
            | none => some s.cycle }
      else { n with power := watts, withheldSlots := false, withheldQuanta := false, overSince := none })

/-- POWER_SHUTDOWN: power has stayed above the limit for 10 ms with both withheld (R331). -/
def execPowerShutdown (s : State) : Host.Outcome State Fault Refusal :=
  .next (
    if s.boot.stage = .ready && s.npu.withheldSlots && s.npu.withheldQuanta
        && s.npu.overSince.any fun t => t + shutdownClocks ≤ s.cycle then
      (s.faultRecord { kind := 5, code := 0, ctx := 0, core := 0, crew := 0, stream := .x, pc := 0, addr := 0 }).clear .off
    else s)

end Sys2Proof.Machine
end

