-- ==== Sys2Proof/Machine/Casement.lean ====
section
/-! DEFINITION. Casement (spec/11_grammar_sampler.md R226 to R236, R244; spec/05_isa_system.md R102, R103): grammar images,
sequences and stack nodes, the `gau` words, the completion of a mask, export and import. -/

namespace Sys2Proof.Machine

/-! ### The grammar image (R226 to R229) -/

/-- A 32-bit field of an image header by its lowest bit (Table 11.1). -/
def ghField (h : Image) (lo : Nat) : Nat := field h.toNat (lo + 31) lo

def ghStart (h : Image) : Nat := field h.toNat 63 48
def ghV (h : Image) : Nat := ghField h 64
def ghNstate (h : Image) : Nat := ghField h 96
def ghEndtok (h : Image) : Nat := ghField h 128
def ghNtrie (h : Image) : Nat := ghField h 160
def ghTrans (h : Image) : Nat := ghField h 192
def ghAccept (h : Image) : Nat := ghField h 224
def ghTnode (h : Image) : Nat := ghField h 256
def ghTedge (h : Image) : Nat := ghField h 288
def ghSpell (h : Image) : Nat := ghField h 320
def ghSbytes (h : Image) : Nat := ghField h 352
def ghMindex (h : Image) : Nat := ghField h 384
def ghMdata (h : Image) : Nat := ghField h 416

/-- The bytes of a mask: ceil(V/8). -/
def maskBytes (h : Image) : Nat := ceilDiv (ghV h) 8

/-- The header conditions of R229. -/
def headerBad (h : Image) : Bool :=
  ghField h 0 ≠ 0x47534D31 || field h.toNat 47 32 ≠ 1 || field h.toNat 511 448 ≠ 0
    || ghV h = 0 || 262144 < ghV h || ghNstate h = 0 || 65536 < ghNstate h || ghNtrie h = 0 || 2 ^ 24 < ghNtrie h
    || ghNstate h ≤ ghStart h || (ghV h ≤ ghEndtok h && ghEndtok h ≠ 0xFFFFFFFF)
    || [ghTrans h, ghAccept h, ghTnode h, ghTedge h, ghSpell h, ghSbytes h].any fun o => o = 0 || o % 64 ≠ 0

/-- What stops a read of an image: a fault at an address (R229), or an address the module does not have. -/
inductive CasErr where
  | fault (va : Nat)
  | stop
  deriving DecidableEq, Repr

/-- Bytes of one page, with the stores of a set. A page that is no local memory, or an uncorrectable word, faults
(R102, R303; log 29). -/
def State.casPage (s : State) (via : Via) (ctx : CtxId) (view : List Nat) (va n : Nat) : Except CasErr (List Byte) :=
  match s.translate via ctx va .read with
  | .fault _ => .error (.fault va)
  | .ok x =>
    if entryRem x.leaf2.entry then .error (.fault va)
    else if entryDead x.leaf2.entry then .ok (List.replicate n 0)
    else if Config.hbmBytes < x.pa + n then .error .stop
    else if s.mem.bad x.pa n then .error (.fault va)
    else .ok (s.mem.loads (seesIds view) x.key x.pa n)

/-- At most 64 KiB from an address: two pages at most. -/
def State.casBytes (s : State) (via : Via) (ctx : CtxId) (view : List Nat) (va n : Nat) : Except CasErr (List Byte) :=
  let k := Min.min n (65536 - va % 65536)
  if k = n then s.casPage via ctx view va n
  else match s.casPage via ctx view va k with
    | .error e => .error e
    | .ok b => match s.casPage via ctx view (va + k) (n - k) with
      | .error e => .error e
      | .ok c => .ok (b ++ c)

/-- A number at an offset of a sequence's image. -/
def State.casNum (s : State) (g : Sgr) (off n : Nat) : Except CasErr Nat :=
  match s.casBytes .walk g.ctx g.view (g.gaddr + off) n with
  | .error e => .error e
  | .ok b => .ok (leNat b)

/-! ### Configurations (R227) -/

/-- A configuration: pushes of the running command, the newest first, above a node of the pool. -/
structure Cfg where
  state : Nat
  depth : Nat
  pushed : List Nat
  top : Nat
  deriving DecidableEq, Repr

/-- The end of a step of a configuration. -/
inductive Stepped where
  | ok (c : Cfg)
  | reject
  | lack
  | err (e : CasErr)
  deriving DecidableEq, Repr

/-- A sequence's configuration. -/
def Sgr.cfg (g : Sgr) : Cfg := { state := g.state, depth := g.depth, pushed := [], top := g.top }

/-- A state past `nstate` rejects (R227). -/
def Sgr.land (g : Sgr) (c : Cfg) : Stepped := if ghNstate g.hdr ≤ c.state then .reject else .ok c

/-- Step (R227); `room` says whether one more node can be had. -/
def State.casStep (s : State) (d : Die) (g : Sgr) (room : Cfg → Bool) (c : Cfg) (b : Nat) : Stepped :=
  match s.casNum g (ghTrans g.hdr + 4 * (256 * c.state + b)) 4 with
  | .error e => .err e
  | .ok e =>
    let next := field e 15 0
    match field e 17 16 with
    | 0 => g.land { c with state := next }
    | 1 =>
      if c.depth = 65535 then .reject
      else if ghNstate g.hdr ≤ next then .reject
      else if !room c then .lack
      else .ok { c with state := next, depth := c.depth + 1, pushed := field e 31 18 :: c.pushed }
    | 2 =>
      (match c.pushed with
      | y :: rest => g.land { c with state := y, depth := c.depth - 1, pushed := rest }
      | [] => match d.nodes.find? fun n => n.num == c.top with
        | some n => g.land { c with state := n.sym, depth := c.depth - 1, top := n.parent }
        | none => .reject)
    | _ => .reject

/-- The bytes of a spelling from number `i`, in order (R232). -/
def State.casSpell (s : State) (d : Die) (g : Sgr) (room : Cfg → Bool) (off i : Nat) (c : Cfg) : Nat → Stepped
  | 0 => .ok c
  | n + 1 =>
    match s.casNum g (ghSbytes g.hdr + off + i) 1 with
    | .error e => .err e
    | .ok b => match s.casStep d g room c b with
      | .ok c => s.casSpell d g room off (i + 1) c n
      | r => r

/-- Whether the state of a sequence accepts (R228). -/
def State.casAccepts (s : State) (g : Sgr) : Except CasErr Bool :=
  match s.casNum g (ghAccept g.hdr + g.state / 8) 1 with
  | .error e => .error e
  | .ok v => .ok (v / 2 ^ (g.state % 8) % 2 = 1)

/-! ### Records and nodes (R230, R231) -/

/-- A live sequence by handle. -/
def Die.sgr? (d : Die) (h : Nat) : Option Sgr := d.sgrs.find? fun g => g.handle == h

def Die.setSgr (d : Die) (g : Sgr) : Die := { d with sgrs := d.sgrs.map fun q => if q.handle = g.handle then g else q }

/-- The references that a node holds (R231). -/
def Die.refs (d : Die) (n : Nat) : Nat :=
  (d.nodes.filter fun m => m.parent == n).length
    + (d.sgrs.map fun g => (if g.top = n then 1 else 0) + (g.ckpts.filter fun k => k.top == n).length).sum

/-- Counts of references renewed, and nodes without any freed, until none is left to free (R231). -/
def Die.settle (d : Die) : Nat → Die
  | 0 => d
  | n + 1 =>
    let l := (d.nodes.map fun m => { m with rc := d.refs m.num }).filter fun m => m.rc ≠ 0
    if l.length = d.nodes.length then { d with nodes := l } else ({ d with nodes := l } : Die).settle n

/-- Every count as R231 gives it after a command. -/
def Die.settled (d : Die) : Die := d.settle (d.nodes.length + 1)

/-- A count above 65,535 (R231). -/
def Die.tooMany (d : Die) : Bool := d.nodes.any fun m => 65535 < m.rc

/-- The stack-node and record quotas of a context (Table 19.4). -/
def Ctx.nodeQuota (k : Ctx) : Nat := field k.params.toNat 191 168

def Ctx.recQuota (k : Ctx) : Nat := field k.params.toNat 167 153

/-- A node can be had above a configuration: one of the unit's is free, the quota allows it, and the node below can take a
reference (R231). Of the running command the pushes that stand at that moment count, not those that it has popped again (DESIGN CHOICE,
log 61). -/
def State.nodeRoom (s : State) (d : Die) (ctx : CtxId) (c : Cfg) : Bool :=
  d.nodes.length + c.pushed.length < 2 ^ 24 - 1
    && (d.nodes.filter fun m => m.ctx == ctx).length + c.pushed.length < (s.ctx ctx).nodeQuota
    && (!c.pushed.isEmpty || !d.nodes.any fun m => m.num == c.top && 65535 ≤ m.rc)

/-- A record can be had by a context (R231). -/
def State.recRoom (s : State) (d : Die) (ctx : CtxId) : Bool :=
  d.sgrs.length < 16384 && (d.sgrs.filter fun g => g.ctx == ctx).length < (s.ctx ctx).recQuota

/-- The first number from `k` that no node has, 1 following 2^24 − 1. -/
def freeNode (l : List Node) (k : Nat) : Nat → Nat
  | 0 => k
  | n + 1 => if l.any fun m => m.num == k then freeNode l (k % (2 ^ 24 - 1) + 1) n else k

/-- A free node: which one is not fixed (log 17). -/
def Die.anyNode (d : Die) (tick : Nat) : Nat :=
  freeNode d.nodes (Config.freeNat 24 (tick * 2 ^ 24 + d.nodes.length) % (2 ^ 24 - 1) + 1) (d.nodes.length + 1)

/-- Nodes for symbols, the lowest first, above a node: the die and the new top. -/
def Die.push (d : Die) (tick : Nat) (ctx : CtxId) (top : Nat) : List Nat → Die × Nat
  | [] => (d, top)
  | y :: rest =>
    let k := d.anyNode tick
    ({ d with nodes := { num := k, ctx := ctx, sym := y, rc := 1, parent := top } :: d.nodes } : Die).push tick ctx k rest

/-- A free handle: which one is not fixed (log 17). -/
def freeHandle (d : Die) (h : Nat) : Nat → Nat
  | 0 => h % 16384
  | n + 1 => if (d.sgr? (h % 16384)).isSome then freeHandle d (h + 1) n else h % 16384

/-! ### Commands (R232 to R234) -/

/-- PushCkpt (R232). The head of the ring moves on first, so the first checkpoint after `gnew` lies in slot 1 (DESIGN CHOICE, log 61). -/
def Sgr.pushCkpt (g : Sgr) : Sgr :=
  { g with
    ckpts := ({ state := g.state, top := g.top, depth := g.depth, fin := g.fin } :: g.ckpts).take 8
    ckhead := (g.ckhead + 1) % 8 }

/-- `gadv` on a sequence: the status and the die (R232). -/
def State.casAdvance (s : State) (d : Die) (g : Sgr) (t : Nat) : Except CasErr (Nat × Die) :=
  let commit (d : Die) (g : Sgr) (old : Die) : Nat × Die :=
    let d := (d.setSgr g).settled
    if d.tooMany then (3, old) else (0, d)
  if ghV g.hdr ≤ t then .ok (2, d)
  else if g.fin then .ok (1, d)
  else if t = ghEndtok g.hdr then
    (match s.casAccepts g with
    | .error e => .error e
    | .ok a => .ok (if a && g.depth = 0 then commit d { g.pushCkpt with fin := true } d else (1, d)))
  else match s.casNum g (ghSpell g.hdr + 4 * t) 4 with
    | .error e => .error e
    | .ok e =>
      if field e 31 24 = 0 then .ok (1, d)
      else match s.casSpell d g (s.nodeRoom d g.ctx) (field e 23 0) 0 g.cfg (field e 31 24) with
        | .err e => .error e
        | .reject => .ok (1, d)
        | .lack => .ok (3, d)
        | .ok c =>
          let p := d.push s.tick g.ctx c.top c.pushed.reverse
          .ok (commit p.1 { g.pushCkpt with state := c.state, top := p.2, depth := c.depth } d)

/-- `groll` on a sequence (R233). -/
def Sgr.roll (g : Sgr) (k : Nat) : Sgr :=
  match (g.ckpts.take k).getLast? with
  | none => g
  | some q =>
    { g with state := q.state, top := q.top, depth := q.depth, fin := q.fin, ckpts := g.ckpts.drop k,
             ckhead := (g.ckhead + 8 - k) % 8 }

/-- The status word (Table 5.8). -/
def Sgr.status (g : Sgr) (acc : Bool) : Nat :=
  g.state + g.depth * 2 ^ 16 + g.ckpts.length * 2 ^ 32 + acc.toNat * 2 ^ 40 + g.fin.toNat * 2 ^ 41
    + g.fail.toNat * 2 ^ 42

/-! ### Masks (R234) -/

/-- The children of a trie node whose edge byte is stepped without rejection, each with its configuration. -/
def State.casKids (s : State) (d : Die) (g : Sgr) (c : Cfg) (edge : Nat) : Nat → Except CasErr (List (Nat × Cfg))
  | 0 => .ok []
  | n + 1 =>
    match s.casNum g (ghTedge g.hdr + 4 * edge) 4 with
    | .error e => .error e
    | .ok e =>
      match s.casStep d g (fun _ => true) c (field e 7 0) with
      | .err e => .error e
      | .ok k => (match s.casKids d g c (edge + 1) n with
        | .error e => .error e
        | .ok l => .ok ((field e 31 8, k) :: l))
      | .reject | .lack => s.casKids d g c (edge + 1) n

/-- The trie walk: visits in order, each with its configuration; `none` when it does not come to an end in 2^64 visits, as
in an image whose edges form a cycle (R234; log 29). -/
def State.casWalk (s : State) (d : Die) (g : Sgr) (fuel : Nat) (work : List (Nat × Cfg)) (bits : Nat) :
    Option (Except CasErr Nat) :=
  match fuel with
  | 0 => none
  | fuel + 1 =>
    match work with
    | [] => some (.ok bits)
    | (i, c) :: rest =>
      match s.casNum g (ghTnode g.hdr + 8 * i) 8 with
      | .error e => some (.error e)
      | .ok v =>
        let bits := if field v 18 18 = 1 && field v 17 0 < ghV g.hdr then Nat.lor bits (2 ^ field v 17 0) else bits
        match s.casKids d g c (field v 63 40) (field v 39 31) with
        | .error e => some (.error e)
        | .ok l => s.casWalk d g fuel (l ++ rest) bits

/-- The end-token bit of a mask: 1 exactly when the state accepts at depth 0 (R234). -/
def endBit (h : Image) (on : Bool) (bits : Nat) : Nat :=
  if ghEndtok h < ghV h then setField bits (ghEndtok h) (ghEndtok h) on.toNat else bits

/-- The mask of a sequence as a number, bit t for token t (R234). An image with no mask data has no precomputed mask, be there an index
(DESIGN CHOICE, log 61). -/
def State.casMask (s : State) (d : Die) (g : Sgr) : Option (Except CasErr Nat) :=
  if g.fin then some (.ok 0)
  else match s.casAccepts g with
    | .error e => some (.error e)
    | .ok a =>
      let out (v : Nat) : Nat := endBit g.hdr (a && g.depth = 0) v
      let walk : Option (Except CasErr Nat) :=
        match s.casWalk d g (2 ^ 64) [(0, g.cfg)] 0 with
        | some (.ok v) => some (.ok (out v))
        | r => r
      if ghMindex g.hdr = 0 || ghMdata g.hdr = 0 then walk
      else match s.casNum g (ghMindex g.hdr + 4 * g.state) 4 with
        | .error e => some (.error e)
        | .ok k =>
          if k = 0xFFFFFFFF then walk
          else match s.casNum g (ghMdata g.hdr + k * 64 * ceilDiv (ghV g.hdr) 512) (maskBytes g.hdr) with
            | .error e => some (.error e)
            | .ok v => some (.ok (out (v % 2 ^ ghV g.hdr)))

/-- A mask is complete: its bytes, its failure, its arrival (R103, R234). -/
def State.finishMask (s : State) (die : DieId) (m : GMask) (g : Sgr) (bits : Option Nat) : State :=
  let s := s.modDie die fun d =>
    let first := d.masks.findIdx fun q => q.handle == m.handle
    { d.setSgr { g with fail := bits.isNone } with masks := d.masks.eraseIdx first }
  let s := match bits with
    | some v => s.modCore m.core fun c => c.poolWrite m.off (natLe (maskBytes g.hdr) v)
    | none => s
  s.combine m.core m.bar (.mask bits.isNone)

/-- GMASK_COMPLETE of the oldest mask that a handle waits for. Its banks may be locked, or its walk endless. -/
def execGmaskComplete (die : DieId) (h : Fin 16384) (s : State) : Host.Outcome State Fault Refusal :=
  let d := s.dies.get die
  match d.masks.find? fun m => m.handle == h.val with
  | none => .next s
  | some m =>
    match d.sgr? h.val with
    | none => .next (s.modDie die fun d => { d with masks := d.masks.filter fun q => !(q.handle == h.val) })
    | some g =>
      if (s.core m.core).lockedFor none m.off (maskBytes g.hdr) then .next s
      else match s.casMask d g with
        | none => .next s
        | some (.error .stop) => .fault .noSuchPhysical
        | some (.error (.fault _)) => .next (s.finishMask die m g none)
        | some (.ok v) => .next (s.finishMask die m g (some v))

/-! ### The words (R102, R103) -/

/-- The die of the executing core. -/
def State.dieHere (s : State) : Die := s.dies.get (dieOf s.cur.core)

def State.setDieHere (s : State) (d : Die) : State := s.modDie (dieOf s.cur.core) fun _ => d

/-- The executing crew no longer waits at Casement. -/
def State.dropGWait (s : State) : State :=
  s.modDie (dieOf s.cur.core) fun d => { d with waits := d.waits.filter fun w => !(w.core == s.cur.core && w.crew == s.cur.crew) }

/-- The executing crew takes its place among those that wait at Casement. -/
def State.noteGWait (s : State) : State :=
  s.modDie (dieOf s.cur.core) fun d =>
    let w : GWait := { core := s.cur.core, crew := s.cur.crew }
    if d.waits.contains w then d else { d with waits := d.waits ++ [w] }

/-- A word of another crew that reached Casement earlier still waits: each command acts on what every earlier one has left, the nodes
and the quotas among it (R102, R235). -/
def State.gBehind (s : State) (d : Die) : Bool :=
  match d.waits.head? with
  | some w => !(w.core == s.cur.core && w.crew == s.cur.crew)
  | none => false

/-- A trap gives up the crew's place. -/
def Res.leaveGau : Res → Res
  | .trap t => .trapNoting t State.dropGWait
  | r => r

/-- A word on a handle waits for the words that reached Casement before it (R235); then GAU_FAULT for a handle that names no live
sequence of the context (R102), and it waits until the masks of the handle are complete when `waits` (R103, R207). The firmware context
has no sequence (log 21). -/
def State.withSgr (s : State) (h : XWord) (waits : Bool) (k : State → Die → Sgr → Res) : Res :=
  let d := s.dieHere
  if s.cur.role = .fw then .trap (trapOf codeGauFault)
  else if s.gBehind d then .block .other State.noteGWait
  else Res.leaveGau <| match d.sgr? h.toNat with
    | none => .trap (trapOf codeGauFault)
    | some g =>
      if g.ctx ≠ s.crew.ctx then .trap (trapOf codeGauFault)
      else if waits && d.masks.any fun m => m.handle == g.handle then .block .other State.noteGWait
      else k s.dropGWait s.dropGWait.dieHere g

/-- A read of an image that fails at a synchronous command (R102). -/
def CasErr.res : CasErr → Res
  | .fault va => .trap (trapAt codeGauFault va)
  | .stop => .stop .noSuchPhysical

/-- The stores that an image is read with: the core's view, and what the issuer sees published at dev scope (R207;
log 29). -/
def State.casView (s : State) : List Nat :=
  (s.mem.stores.filter fun g => s.here.view.contains g.id
    || (s.seesHere g && g.pubs.any fun p => 4 ≤ scopeRank p.scope)).map fun g => g.id

/-- `gnew`: the header is read once (R229); all ones when no record can be had. -/
def execGnew (tk : Tok) (rd ra : XReg) (s : State) : Host.Outcome State Fault Refusal :=
  runWord tk [refX ra] s fun s =>
    let a := (s.getX ra).toNat
    if s.cur.role = .fw || a % 64 ≠ 0 then .trap (trapAt codeGauFault a)
    else if s.gBehind s.dieHere then .block .other State.noteGWait
    else Res.leaveGau <| match s.casBytes .walk s.crew.ctx s.casView a 64 with
      | .error e => e.res
      | .ok b =>
        let s := s.dropGWait
        let h : Image := BitVec.ofNat 512 (leNat b)
        if headerBad h then .trap (trapAt codeGauFault a)
        else if !s.recRoom s.dieHere s.crew.ctx then .done (s.setX rd (BitVec.allOnes 64))
        else
          let k := freeHandle s.dieHere (s.free 14) 16384
          let g : Sgr := { handle := k, ctx := s.crew.ctx, gaddr := a, hdr := h, state := ghStart h, top := 0, depth := 0,
                           fin := false, fail := false, ckpts := [], ckhead := 0, view := s.casView }
          .done ((s.setDieHere { s.dieHere with sgrs := g :: s.dieHere.sgrs }).setX rd (BitVec.ofNat 64 k))

/-- `gfork` (R233). -/
def execGfork (tk : Tok) (rd ra : XReg) (s : State) : Host.Outcome State Fault Refusal :=
  runWord tk [refX ra] s fun s =>
    s.withSgr (s.getX ra) true fun s d g =>
      let k := freeHandle d (s.free 14) 16384
      let d2 := ({ d with sgrs := { g with handle := k, fail := false } :: d.sgrs } : Die).settled
      if !s.recRoom d g.ctx || d2.tooMany then .done (s.setX rd (BitVec.allOnes 64))
      else .done ((s.setDieHere d2).setX rd (BitVec.ofNat 64 k))

/-- `gadv` (R232). -/
def execGadv (tk : Tok) (rd ra rb : XReg) (s : State) : Host.Outcome State Fault Refusal :=
  runWord tk [refX ra, refX rb] s fun s =>
    s.withSgr (s.getX ra) true fun s d g =>
      match s.casAdvance d g (s.getX rb).toNat with
      | .error e => e.res
      | .ok r => .done ((s.setDieHere r.2).setX rd (BitVec.ofNat 64 r.1))

/-- `gmask`: its targets are checked, and the command is accepted (R103). -/
def execGmask (tk : Tok) (ra rb : XReg) (s : State) : Host.Outcome State Fault Refusal :=
  runWord tk [refX ra, refX rb] s fun s =>
    s.withSgr (s.getX ra) false fun s d g =>
      let v := (s.getX rb).toNat
      let off := field v 22 0
      let bar := field v 54 32
      if field v 31 23 ≠ 0 || field v 63 55 ≠ 0 then .trap (trapOf codeRegRange)
      else match (poolCheck s.part off (maskBytes g.hdr) 64).orElse fun _ => atomCheck s.part bar 16 16 with
        | some t => .trap t
        | none =>
          let m : GMask := { core := s.cur.core, crew := s.cur.crew, handle := g.handle, off := poolPlace s.part off,
                             bar := poolPlace s.part bar }
          .done (s.setDieHere { d with masks := d.masks ++ [m] })

/-- `groll` (R233). -/
def execGroll (tk : Tok) (rd ra rb : XReg) (s : State) : Host.Outcome State Fault Refusal :=
  runWord tk [refX ra, refX rb] s fun s =>
    s.withSgr (s.getX ra) true fun s d g =>
      let n := (s.getX rb).toNat
      if 8 < n then .trap (trapOf codeRegRange)
      else
        let k := Min.min n g.ckpts.length
        .done ((s.setDieHere (d.setSgr (g.roll k)).settled).setX rd (BitVec.ofNat 64 k))

/-- A sequence ends, and the nodes that only it held are freed (R233). -/
def Die.drop (d : Die) (h : Nat) : Die := ({ d with sgrs := d.sgrs.filter fun g => !(g.handle == h) } : Die).settled

/-- `gfree` (R233). -/
def execGfree (tk : Tok) (ra : XReg) (s : State) : Host.Outcome State Fault Refusal :=
  runWord tk [refX ra] s fun s =>
    s.withSgr (s.getX ra) true fun s d g => .done (s.setDieHere (d.drop g.handle))

/-- `gstat` (Table 5.8). -/
def execGstat (tk : Tok) (rd ra : XReg) (s : State) : Host.Outcome State Fault Refusal :=
  runWord tk [refX ra] s fun s =>
    s.withSgr (s.getX ra) true fun s _ g =>
      match s.casAccepts g with
      | .error e => e.res
      | .ok a => .done (s.setX rd (BitVec.ofNat 64 (g.status a)))

/-! ### Export and import (R244) -/

/-- The nodes below a top, the lowest first. -/
def stackOf (l : List Node) (top : Nat) : Nat → List Node
  | 0 => []
  | n + 1 =>
    match l.find? fun m => m.num == top with
    | some m => stackOf l m.parent n ++ [m]
    | none => []

/-- The nodes that an export holds, every parent before its children. -/
def Die.exported (d : Die) (g : Sgr) : List Node :=
  (g.top :: g.ckpts.map Ckpt.top).foldl (fun acc t =>
    acc ++ (stackOf d.nodes t (d.nodes.length + 1)).filter fun m => !acc.any fun q => q.num == m.num) []

/-- The number of a node in an export: from 1 in its order, 0 for the empty stack. -/
def exportNum (l : List Node) (n : Nat) : Nat :=
  if l.any fun m => m.num == n then (l.findIdx fun m => m.num == n) + 1 else 0

/-- A checkpoint as its slot holds it (Table 11.4). -/
def ckptWord (l : List Node) (k : Ckpt) : Nat :=
  k.state * 2 ^ 48 + exportNum l k.top * 2 ^ 24 + k.depth * 2 ^ 8 + k.fin.toNat * 2 ^ 7

/-- The record of a sequence (Table 11.4); slots that hold no checkpoint are zero. -/
def Sgr.pack (g : Sgr) (l : List Node) : Nat :=
  g.gaddr + g.ctx.val * 2 ^ 48 + g.state * 2 ^ 64 + exportNum l g.top * 2 ^ 80 + g.depth * 2 ^ 104 + g.ckhead * 2 ^ 120
    + g.ckpts.length * 2 ^ 123 + 2 ^ 127 + g.fin.toNat * 2 ^ 128 + g.fail.toNat * 2 ^ 129
    + (g.ckpts.zipIdx.map fun k => ckptWord l k.1 * 2 ^ (512 + 64 * ((g.ckhead + 8 - k.2) % 8))).sum

/-- The export of a sequence: its record, then its nodes (R244). -/
def Die.exportSgr (d : Die) (g : Sgr) : List Byte :=
  let l := d.exported g
  let within (n : Nat) : Nat :=
    (l.filter fun m => m.parent == n).length + ((g.top :: g.ckpts.map Ckpt.top).filter fun t => t == n).length
  natLe 128 (g.pack l) ++ l.flatMap fun m =>
    natLe 8 (exportNum l m.parent * 2 ^ 32 + within m.num * 2 ^ 16 + m.sym)

/-- Fresh nodes for an export's, in its order: `names` are the fresh numbers so far. `none` where a parent does not
precede its child. -/
def Die.importNodes (d : Die) (tick : Nat) (ctx : CtxId) (names : List Nat) : List Nat → Option (Die × List Nat)
  | [] => some (d, names)
  | v :: rest =>
    let p := field v 63 32
    if names.length < p then none
    else
      let k := d.anyNode tick
      let n : Node := { num := k, ctx := ctx, sym := field v 13 0, rc := 1, parent := if p = 0 then 0 else names.getD (p - 1) 0 }
      ({ d with nodes := n :: d.nodes } : Die).importNodes tick ctx (names ++ [k]) rest

/-- The end of an import. -/
inductive Imported where
  | made (d : Die) (handle : Nat)
  | malformed
  | lack
  deriving DecidableEq, Repr

/-- Import of an export's record and nodes as numbers into a die, under a free handle (R244). An export that is not well formed, with
`live` 0, more than 8 checkpoints, or a top or a parent that its nodes do not hold, makes nothing (DESIGN CHOICE, log 61). -/
def State.importSgr (s : State) (d : Die) (ctx : CtxId) (v : Nat) (nodes : List Nat) (hdr : Image) (view : List Nat) :
    Imported :=
  let used := (d.nodes.filter fun m => m.ctx == ctx).length
  let ckn := field v 126 123
  let tops := field v 103 80 :: (List.range ckn).map fun i =>
    field v (512 + 64 * ((field v 122 120 + 8 - i) % 8) + 47) (512 + 64 * ((field v 122 120 + 8 - i) % 8) + 24)
  if field v 127 127 = 0 || 8 < ckn || tops.any (fun t => nodes.length < t) then .malformed
  else if !s.recRoom d ctx || 2 ^ 24 - 1 < d.nodes.length + nodes.length || (s.ctx ctx).nodeQuota < used + nodes.length then
    .lack
  else match d.importNodes s.tick ctx [] nodes with
    | none => .malformed
    | some (d, names) =>
      let name (t : Nat) : Nat := if t = 0 then 0 else names.getD (t - 1) 0
      let ck (i : Nat) : Ckpt :=
        let w := field v (512 + 64 * ((field v 122 120 + 8 - i) % 8) + 63) (512 + 64 * ((field v 122 120 + 8 - i) % 8))
        { state := field w 63 48, top := name (field w 47 24), depth := field w 23 8, fin := field w 7 7 = 1 }
      let h := freeHandle d (s.free 14) 16384
      let g : Sgr := { handle := h, ctx := ctx, gaddr := field v 47 0, hdr := hdr, state := field v 79 64,
                       top := name (field v 103 80), depth := field v 119 104, fin := field v 128 128 = 1,
                       fail := field v 129 129 = 1, ckpts := (List.range ckn).map ck, ckhead := field v 122 120,
                       view := view }
      let d := ({ d with sgrs := g :: d.sgrs } : Die).settled
      if d.tooMany then .lack else .made d h

end Sys2Proof.Machine
end

