-- ==== Sys2Proof/Machine/Edge.lean ====
section
/-! DEFINITION. Edge-op words (spec/12_hinge.md R250 to R252): the evaluation that Hinge has in progress for the crew, its
registers, and the 16 ops. -/

namespace Sys2Proof.Machine

/-! ### The evaluation in progress -/

def State.modRun (s : State) (f : HingeRun → HingeRun) : State := s.modCrew fun c => { c with hinge := f c.hinge }

/-- An edge register of an evaluation: `e0` reads zero. -/
def HingeEval.reg (v : HingeEval) (r : EReg) : XWord := if r = 0 then 0 else v.e.get r

/-- A computing op writes its register, a write to `e0` being discarded, and the next word follows (R251). -/
def HingeEval.compute (v : HingeEval) (d : EReg) (x : XWord) : HingeEval :=
  { v with e := if d = 0 then v.e else v.e.set d x, index := v.index + 1 }

/-- `emsg` and `efin` end their part with a value. -/
def HingeEval.answer (v : HingeEval) (x : XWord) : HingeEval := { v with result := some x, index := v.index + 1 }

/-- An edge op acts on the evaluation in progress; with none there is nothing to act on. No edge op traps (R251). -/
def edgeOp (f : HingeEval → HingeEval) (s : State) : Host.Outcome State Fault Refusal :=
  .next (s.modRun fun r => { r with eval := r.eval.map f })

/-! ### The ops (Table 12.3) -/

/-- `eend` ends the program: nothing follows it. -/
def execEend (s : State) : Host.Outcome State Fault Refusal := edgeOp (fun v => { v with index := 64 }) s

def execEmov (d a : EReg) (s : State) : Host.Outcome State Fault Refusal := edgeOp (fun v => v.compute d (v.reg a)) s

def execEli (d : EReg) (imm : BitVec 15) (s : State) : Host.Outcome State Fault Refusal :=
  edgeOp (fun v => v.compute d (imm.signExtend 64)) s

def execEadd (d a b : EReg) (s : State) : Host.Outcome State Fault Refusal :=
  edgeOp (fun v => v.compute d (v.reg a + v.reg b)) s

def execEsub (d a b : EReg) (s : State) : Host.Outcome State Fault Refusal :=
  edgeOp (fun v => v.compute d (v.reg a - v.reg b)) s

def execEmul (d a b : EReg) (s : State) : Host.Outcome State Fault Refusal :=
  edgeOp (fun v => v.compute d (v.reg a * v.reg b)) s

def execEmin (d a b : EReg) (s : State) : Host.Outcome State Fault Refusal :=
  edgeOp (fun v => v.compute d (if (v.reg b).slt (v.reg a) then v.reg b else v.reg a)) s

def execEmax (d a b : EReg) (s : State) : Host.Outcome State Fault Refusal :=
  edgeOp (fun v => v.compute d (if (v.reg a).slt (v.reg b) then v.reg b else v.reg a)) s

def execEand (d a b : EReg) (s : State) : Host.Outcome State Fault Refusal :=
  edgeOp (fun v => v.compute d (v.reg a &&& v.reg b)) s

def execEor (d a b : EReg) (s : State) : Host.Outcome State Fault Refusal :=
  edgeOp (fun v => v.compute d (v.reg a ||| v.reg b)) s

def execEshl (d a b : EReg) (s : State) : Host.Outcome State Fault Refusal :=
  edgeOp (fun v => v.compute d (v.reg a <<< ((v.reg b).toNat % 64))) s

def execEshr (d a b : EReg) (s : State) : Host.Outcome State Fault Refusal :=
  edgeOp (fun v => v.compute d ((v.reg a).sshiftRight ((v.reg b).toNat % 64))) s

/-- The conditions of `ecmp`; 6 and 7 are refused at `hrun` (R58). -/
def edgeCond (c : BitVec 3) (a b : XWord) : Bool :=
  match c.toNat with
  | 0 => a == b
  | 1 => !(a == b)
  | 2 => a.slt b
  | 3 => a.sle b
  | 4 => a.ult b
  | 5 => a.ule b
  | _ => false

def execEcmp (d a b : EReg) (cond : BitVec 3) (s : State) : Host.Outcome State Fault Refusal :=
  edgeOp (fun v => v.compute d (if edgeCond cond (v.reg a) (v.reg b) then 1 else 0)) s

def execEsel (d a b e : EReg) (s : State) : Host.Outcome State Fault Refusal :=
  edgeOp (fun v => v.compute d (if v.reg b ≠ 0 then v.reg a else v.reg e)) s

def execEmsg (a : EReg) (s : State) : Host.Outcome State Fault Refusal := edgeOp (fun v => v.answer (v.reg a)) s

def execEfin (a : EReg) (s : State) : Host.Outcome State Fault Refusal :=
  edgeOp (fun v => v.answer (if v.reg a ≠ 0 then 1 else 0)) s

end Sys2Proof.Machine
end

