-- ==== Sys2Proof/Machine/Hinge.lean ====
section
/-! DEFINITION. Hinge (spec/12_hinge.md R246 to R259; spec/05_isa_system.md R105): descriptors and their checks, supersteps
in both directions, the finalize, completion, and the words `hset`, `hrun`, `hstat` and `hforce`. -/

namespace Sys2Proof.Machine

/-! ### Descriptors (Tables 12.1 and 12.2) -/

/-- An array of the graph descriptor: its byte address, from the field at a bit. -/
def gdArray (g : Image) (lo : Nat) : Nat := 64 * field g.toNat (lo + 41) lo

def gdCsro (g : Image) : Nat := gdArray g 0
def gdCsrt (g : Image) : Nat := gdArray g 42
def gdCsrw (g : Image) : Nat := gdArray g 84
def gdCsco (g : Image) : Nat := gdArray g 126
def gdCsci (g : Image) : Nat := gdArray g 168
def gdCscw (g : Image) : Nat := gdArray g 210
def gdOval (g : Image) : Nat := gdArray g 252
def gdOact (g : Image) : Nat := gdArray g 294
def gdNtot (g : Image) : Nat := field g.toNat 367 336
def gdVper (g : Image) : Nat := field g.toNat 388 368
def gdDval (g : Image) : Nat := field g.toNat 411 389
def gdFront (g : Image) : Nat := field g.toNat 434 412
def gdTstat (g : Image) : Nat := gdArray g 435

def rdProg (r : Image) : Nat := field r.toNat 22 0
def rdCop (r : Image) : Nat := field r.toNat 25 24
def rdVty (r : Image) : Nat := field r.toNat 27 26
def rdWty (r : Image) : Nat := field r.toNat 29 28
def rdForce (r : Image) : Nat := field r.toNat 31 30
def rdXs (r : Image) : Int := sext (field r.toNat 39 32) 8
def rdAlpha (r : Image) : Nat := field r.toNat 55 40
def rdBeta (r : Image) : Nat := field r.toNat 71 56
def rdMaxss (r : Image) : Nat := field r.toNat 103 72

/-- es (R249). -/
def entrySize (r : Image) : Nat := if rdVty r = 2 then 8 else 4

/-- R, the blocks a run needs (R246). -/
def runBlocks (g : Image) : Nat := ceilDiv (gdNtot g) (gdVper g)

/-- V of the block at a team position (R246). -/
def vertsAt (g : Image) (q : Nat) : Nat := Min.min (gdVper g) (gdNtot g - q * gdVper g)

/-- F for a block (Table 12.1). -/
def frontBytes (g : Image) (q : Nat) : Nat := 64 * ceilDiv (vertsAt g q) 512

/-- The refusals of R249 that lie with the graph descriptor. An empty range, as a block at position R or above has, must still begin in
its partition or at its end (DESIGN CHOICE, log 31). -/
def graphBad (part : XWord) (g r : Image) (q teamsz : Nat) : Bool :=
  field g.toNat 511 477 ≠ 0 || gdVper g = 0 || gdNtot g = 0 || 2 ^ 20 < gdVper g || teamsz < runBlocks g
    || (1 < runBlocks g && gdVper g % 512 ≠ 0)
    || gdDval g % 64 ≠ 0 || gdDval g < aBegin part || allotEnd part < gdDval g + entrySize r * vertsAt g q
    || gdFront g % 64 ≠ 0 || gdFront g < sBegin part || aBegin part < gdFront g + 2 * frontBytes g q

/-- The refusals of R249 that lie with the run descriptor. -/
def runBad (part : XWord) (r : Image) : Bool :=
  field r.toNat 511 240 ≠ 0 || field r.toNat 127 104 ≠ 0 || field r.toNat 23 23 ≠ 0
    || rdWty r = 3 || rdVty r = 3 || rdForce r = 3 || rdXs r < -62 || 62 < rdXs r
    || rdAlpha r = 0 || rdBeta r = 0 || rdMaxss r = 0
    || rdProg r < sBegin part || allotEnd part < rdProg r + 256

/-! ### The program check (R58, R250) -/

/-- The part of the program that the scan is in. -/
inductive ScanPart where
  | message | finished | last
  deriving DecidableEq, Repr

/-- A register that a part may read. -/
def mayRead (p : ScanPart) (r : EReg) : Bool :=
  match p with
  | .message => !(r = 3 || r = 5)
  | .finished => !(r = 1 || r = 2 || r = 4)
  | .last => false

/-- One word of the scan: the part after it, `none` where it breaks a rule; the flag says that the program ends. -/
def scanWord (p : ScanPart) (i : Instr) : Option (ScanPart × Bool) :=
  let reads (l : List EReg) : Option (ScanPart × Bool) :=
    if p ≠ .last && l.all (mayRead p) then some (p, false) else none
  match i with
  | .eend => if p = .last then some (.last, true) else none
  | .emov _ a => reads [a]
  | .eli _ _ => reads []
  | .eadd _ a b | .esub _ a b | .emul _ a b | .emin _ a b | .emax _ a b | .eand _ a b | .eor _ a b | .eshl _ a b
  | .eshr _ a b | .ecmp _ a b _ => reads [a, b]
  | .esel _ a b e => reads [a, b, e]
  | .emsg a => if p = .message && mayRead p a then some (.finished, false) else none
  | .efin a => if p = .finished && mayRead p a then some (.last, false) else none
  | _ => none

/-- The scan of a program: `none` when it is accepted, else the index of the first word that breaks a rule, 63 when no
`eend` stands within 64 words. -/
def scanProgram (p : ScanPart) (index : Nat) : List W32 → Option Nat
  | [] => some 63
  | w :: rest =>
    match decode .hinge w with
    | none => some index
    | some i => match scanWord p i with
      | none => some index
      | some (p, done) => if done then none else scanProgram p (index + 1) rest

/-! ### Values (R252, R253) -/

/-- In(v, type) (R252). -/
def hingeIn (xs : Int) (ty v : Nat) : XWord :=
  match ty with
  | 0 => BitVec.ofInt 64 (sext v 32)
  | 1 => BitVec.ofNat 64 v
  | _ => match decodeFloat 0 v with
    | .nan => 0
    | .inf s => if s then BitVec.intMin 64 else BitVec.intMax 64
    | .num s n d e =>
      BitVec.ofInt 64 (clampInt (-(2 ^ 63 : Int)) (2 ^ 63 - 1 : Int) ((FV.num s n d (e + xs)).roundInt false))

/-- Out(entry) (R252): the 4 bytes of an origin value. -/
def hingeOut (xs : Int) (ty : Nat) (e : XWord) : Nat :=
  if ty = 2 then roundTo 0 (.num (e.toInt < 0) e.toInt.natAbs 1 (-xs)) else e.toNat % 2 ^ 32

/-- An entry's bytes as `e3` (R252). -/
def entryValue (ty v : Nat) : XWord := if ty = 0 then BitVec.ofInt 64 (sext v 32) else BitVec.ofNat 64 v

/-- The new entry after a combine (R253). -/
def combineEntry (ty cop : Nat) (entry m : XWord) : XWord :=
  let narrow : XWord :=
    if ty = 2 then m
    else if 2 ≤ cop then BitVec.ofNat 64 (m.toNat % 2 ^ 32)
    else if ty = 0 then BitVec.ofInt 64 (clampInt (-(2 ^ 31 : Int)) (2 ^ 31 - 1 : Int) m.toInt)
    else BitVec.ofInt 64 (clampInt 0 (2 ^ 32 - 1 : Int) m.toInt)
  let below (a b : XWord) : Bool := if ty = 1 then a.ult b else a.slt b
  match cop with
  | 0 => if below narrow entry then narrow else entry
  | 1 => if below entry narrow then narrow else entry
  | 2 => entry ||| narrow
  | _ => entry + narrow

/-! ### Accesses -/

/-- What an access of Hinge gives: a value (from global memory with the translation it took), a fault of the run, a wait, or a
stop. -/
inductive HgRead where
  | val (v : Nat)
  | loaded (v : Nat) (va : Nat) (x : Xlat)
  | fault
  | waits (note : State → State)
  | stop

/-- The run of the executing Hinge. -/
def State.hgRun (s : State) : HingeRun := s.crew.hinge

/-- The command that a run belongs to. -/
def HingeRun.id (r : HingeRun) : Nat := r.cmd.getD 0

/-- Hinge reads as a command of its crew's X sequencer, with its own stores (R193, R204, R209). -/
def State.hgSeesBy (s : State) (w : Writer) (id : Nat) : Bool :=
  w.isCmd (s.hgRun.id :: s.crew.seqX.retired) || s.seesBy s.cur.core s.cur.crew .x w id

def State.hgSees (s : State) (g : GStore) : Bool := g.under.isNone && s.hgSeesBy g.writer g.id

def State.hgSeesFar (s : State) (r : RemoteStore) : Bool := r.under.isNone && s.hgSeesBy r.writer r.id

/-- A global read of `n` bytes within a page. -/
def State.hgLoad (s : State) (va n : Nat) : HgRead :=
  match s.translate (.tlb 5) s.crew.ctx va .read with
  | .fault _ => .fault
  | .ok x =>
    if entryDead x.leaf2.entry then .loaded 0 va x
    else if entryRem x.leaf2.entry then
      (match s.remoteLoad s.hgSeesFar va (entryKey x.leaf2.entry) x.pa n with
      | .bytes b _ => .loaded (leNat b) va x
      | .stored _ | .trap _ => .fault
      | .wait note => .waits note
      | .stop _ => .stop)
    else if Config.hbmBytes < x.pa + n then .stop
    else if s.mem.bad x.pa n then .fault
    else .loaded (leNat (s.mem.loads s.hgSees x.key x.pa n)) va x

/-- A pool read of `n` bytes at an offset of an allotment. -/
def Core.hgPool (c : Core) (part : XWord) (off n : Nat) : HgRead :=
  if c.lockedFor none (poolPlace part off) n then .waits id
  else if c.poolBad (poolPlace part off) n then .fault
  else .val (leNat (memGets c.pool (poolPlace part off) n))

/-- Going on with the value of a read, whose translation enters Hinge's TLB and brings the next page's with it (R290, R291):
a fault, a wait and a stop end the step as given. -/
def HgRead.andThen (r : HgRead) (s : State) (onFault : State) (k : State → Nat → Host.Outcome State Fault Refusal) :
    Host.Outcome State Fault Refusal :=
  match r with
  | .val v => k s v
  | .loaded v va x => k (s.tlbWalk s.crew.ctx 5 va x .read false) v
  | .fault => .next onFault
  | .waits note => .next (note s)
  | .stop => .fault .noSuchPhysical

/-- The bounds of a row of an offset array (R247). -/
def State.hgRow (s : State) (onFault : State) (array i : Nat) (k : State → Nat → Nat → Host.Outcome State Fault Refusal) :
    Host.Outcome State Fault Refusal :=
  (s.hgLoad (array + 4 * i) 4).andThen s onFault fun s lo =>
    (s.hgLoad (array + 4 * (i + 1)) 4).andThen s onFault fun s hi =>
      if hi < lo then .next onFault else k s lo hi

/-- The team position of the executing crew. -/
def State.hgPos (s : State) : Nat :=
  match s.crew.block with
  | some b => b.blockid % b.teamsz
  | none => 0

/-- V of the run. -/
def State.hgV (s : State) : Nat := vertsAt s.hgRun.gd s.hgPos

/-- base of the run. -/
def State.hgBase (s : State) : Nat := s.hgPos * gdVper s.hgRun.gd

/-- F of the run. -/
def State.hgF (s : State) : Nat := frontBytes s.hgRun.gd s.hgPos

/-- The counters of a run as the run descriptor shows them (Table 12.2). -/
def HingeRun.counters (r : HingeRun) : List Byte :=
  natLe 14 (r.nss % 2 ^ 32 + r.nsw * 2 ^ 32 + r.pull.toNat * 2 ^ 48 + r.nedge % 2 ^ 48 * 2 ^ 64)

/-- The place of the counters in the core's pool. -/
def State.hgCounterPlace (s : State) : Nat := poolPlace s.crew.part ((s.crew.pair.getD (0, 0)).2 + 16)

/-- Hinge writes the counters (R248). -/
def State.hgCount (s : State) : State := s.modHere fun c => c.poolWrite s.hgCounterPlace s.hgRun.counters

/-- A wait on a bank that Hinge is about to write. -/
def State.hgLocked (s : State) : Bool := s.here.lockedFor none s.hgCounterPlace 14

/-! ### Ends of a run and of a superstep (R256, R257, R259) -/

/-- What the run has asked of peers, and their refusals, are forgotten. -/
def State.hgForget (s : State) : State :=
  { s with mem := s.mem.forgetGets s.cur.core s.cur.crew fun r => r == .hinge }

/-- The run ends, and its `hrun` retires (R257). -/
def State.hgEnd (s : State) (st : HingeState) : State :=
  let id := s.hgRun.id
  let s := s.hgForget
  let s := s.modCrew fun c => { c with
    xcmds := c.xcmds.filter fun n => n ≠ id
    seqX := { c.seqX with retired := id :: c.seqX.retired }
    hinge := { c.hinge with state := st, phase := .ready, eval := none } }
  s.modHere fun c => { c with hingeCur := if c.hingeCur = some s.cur.crew then none else c.hingeCur }

/-- The barrier of the run, where Hinge can use it: the block that holds it has not completed, and its words are correctable
(log 31). -/
def State.hgBar (s : State) : Option BarRef :=
  match s.barRef s.hgRun.bar false with
  | .error _ => none
  | .ok b => if (s.core b.core).poolBad b.place 16 then none else some b

/-- Arrival at the superstep's end (R256): Hinge yields. With no barrier to use, the run stops (log 31). -/
def State.hgArrive (s : State) (fail : Bool) : State :=
  match s.hgBar with
  | none => s.hgEnd .stopped
  | some b =>
    let s := s.modRun fun r => { r with phase := .arrived, fault := fail, eval := none, ended := none }
    (s.modHere fun c => { c with hingeCur := none }).combine b.core b.place (.hingeArrive s.hgRun.id fail)

/-- A fault within a superstep: no further edge, and the superstep ends (R259). -/
def State.hgFault (s : State) : State := s.hgForget.hgArrive true

/-- The finished part is due on the new entry of a vertex (R255). -/
def State.hgCheck (s : State) (i j : Nat) : State := s.modRun fun r => { r with phase := .check i j, eval := none }

/-- The run moves to a vertex and an edge. -/
def State.hgAt (s : State) (i j : Nat) : State := s.modRun fun r => { r with phase := .edges i j, eval := none }

/-! ### Evaluations (R250, R252) -/

/-- The registers of the message part. -/
def messageRegs (ov w o : XWord) : Vector XWord 16 := (((Vector.replicate 16 (0 : XWord)).set 1 ov).set 2 w).set 4 o

/-- The registers of the finished part. -/
def finishedRegs (e id : XWord) : Vector XWord 16 := ((Vector.replicate 16 (0 : XWord)).set 3 e).set 5 id

/-- Where the finished part begins: after the `emsg`. -/
def finishedStart : List W32 → Nat
  | [] => 0
  | w :: rest => match decode .hinge w with
    | some (.emsg _) => 1
    | _ => finishedStart rest + 1

/-- An evaluation begins. -/
def State.hgEval (s : State) (finished : Bool) (target : Nat) (e : Vector XWord 16) : State :=
  s.modRun fun r => { r with eval := some {
    finished := finished, target := target, index := if finished then finishedStart r.prog else 0, e := e, result := none
    counted := false } }

/-- The evaluation of a message over an edge: the weight and the origin value are loaded (R252). -/
def State.hgMessage (s : State) (onFault : State) (weights edge origin target : Nat) : Host.Outcome State Fault Refusal :=
  let r := s.hgRun
  let go (s : State) (w : XWord) : Host.Outcome State Fault Refusal :=
    (s.hgLoad (gdOval r.gd + 4 * origin) 4).andThen s onFault fun s v =>
      .next (s.hgEval false target (messageRegs (hingeIn (rdXs r.rd) (rdVty r.rd) v) w (BitVec.ofNat 64 origin)))
  if weights = 0 then go s 0
  else (s.hgLoad (weights + 4 * edge) 4).andThen s onFault fun s w => go s (hingeIn (rdXs r.rd) (rdWty r.rd) w)

/-- The evaluation of the finished part of a local vertex. -/
def State.hgFinishedPart (s : State) (onFault : State) (i : Nat) : Host.Outcome State Fault Refusal :=
  let r := s.hgRun
  let es := entrySize r.rd
  (s.here.hgPool s.crew.part (gdDval r.gd + es * i) es).andThen s onFault fun s e =>
    .next (s.hgEval true i (finishedRegs (entryValue (rdVty r.rd) e) (BitVec.ofNat 64 (s.hgBase + i))))

/-! ### The combine port (R253, R254) -/

/-- Where a vertex's entry lies: the core and the crew that hold it, and its number there; `none` for a block that has
completed. -/
def State.hgOwner (s : State) (t : Nat) : Option (CoreId × CrewIx × Nat × Nat) :=
  let g := s.hgRun.gd
  if s.hgBase ≤ t && t < s.hgBase + s.hgV then some (s.cur.core, s.cur.crew, s.hgPos, t - s.hgBase)
  else
    let r := t / gdVper g
    (s.teamMember r).map fun q => (q.1, q.2, r, t - r * gdVper g)

/-- Where the `fnext` bits of a block's entries lie: by the graph descriptor of its own run, and before its `hrun` by the one that its
`hset` has named; with neither nobody knows yet, and a combine waits (R253, R254; log 31). -/
def State.hgFrontOf (s : State) (core : CoreId) (crew : CrewIx) (q : Nat) : Option Nat :=
  let c := s.crewAt core crew
  let front (g : Image) : Nat := gdFront g + frontBytes g q
  if c.hinge.state = .queued || c.hinge.state = .running then some (front c.hinge.gd)
  else c.pair.map fun p => front (BitVec.ofNat 512 (leNat (memGets (s.core core).pool (poolPlace c.part p.1) 64)))

/-- The message part of an edge has run: `nedge` rises before the message is combined (R254, R255). -/
def State.hgMessageRan (s : State) : Host.Outcome State Fault Refusal :=
  .next (if s.hgLocked then s
    else (s.modRun fun r => { r with nedge := r.nedge + 1, eval := r.eval.map fun v => { v with counted := true } }).hgCount)

/-- A message is combined into the entry of a vertex: one update of the entry and of its frontier bit (R253). -/
def State.hgCombine (s : State) (t : Nat) (m : XWord) (k : State → State) : Host.Outcome State Fault Refusal :=
  let r := s.hgRun
  let es := entrySize r.rd
  match s.hgOwner t with
  | none => .next s.hgFault
  | some (core, crew, q, i) =>
    match s.hgFrontOf core crew q with
    | none => .next s
    | some front =>
      let part := (s.crewAt core crew).part
      let eOff := gdDval r.gd + es * i
      let fOff := front + i / 8
      let c := s.core core
      (c.hgPool part eOff es).andThen s s.hgFault fun s e =>
        (c.hgPool part fOff 1).andThen s s.hgFault fun s f =>
          let new := combineEntry (rdVty r.rd) (rdCop r.rd) (entryValue (rdVty r.rd) e) m
          .next (k (s.modCore core fun c =>
            if new.toNat % 2 ^ (8 * es) = e then c
            else (c.poolWrite (poolPlace part eOff) (natLe es new.toNat)).poolWrite (poolPlace part fOff)
              [BitVec.ofNat 8 (Nat.lor f (2 ^ (i % 8)))]))

/-! ### Supersteps (R254, R255) -/

/-- One step of a push superstep at edge `j` of vertex `i`. -/
def State.pushStep (s : State) (i j : Nat) : Host.Outcome State Fault Refusal :=
  let r := s.hgRun
  match r.eval with
  | some v => (match v.result with
    | some m => if v.counted then s.hgCombine v.target m fun s => s.hgAt i (j + 1) else s.hgMessageRan
    | none => .next s)
  | none =>
    if s.hgV ≤ i then .next (s.hgArrive false)
    else (s.here.hgPool s.crew.part (gdFront r.gd + i / 8) 1).andThen s s.hgFault fun s f =>
      if f / 2 ^ (i % 8) % 2 = 0 then .next (s.hgAt (i + 1) 0)
      else s.hgRow s.hgFault (gdCsro r.gd) i fun s lo hi =>
        if hi ≤ lo + j then .next (s.hgAt (i + 1) 0)
        else (s.hgLoad (gdCsrt r.gd + 4 * (lo + j)) 4).andThen s s.hgFault fun s t =>
          if gdNtot r.gd ≤ t then .next s.hgFault
          else s.hgMessage s.hgFault (gdCsrw r.gd) (lo + j) (s.hgBase + i) t

/-- The finished part on the new entry of vertex `i` after edge `j` − 1: true ends the vertex (R255). -/
def State.checkStep (s : State) (i j : Nat) : Host.Outcome State Fault Refusal :=
  match s.hgRun.eval with
  | none => s.hgFinishedPart s.hgFault i
  | some v => match v.result with
    | none => .next s
    | some m => .next (if m ≠ 0 then s.hgAt (i + 1) 0 else s.hgAt i (j + 1))

/-- One step of a pull superstep at vertex `i`: at `j` = 0 its finished part, after that edge `j` − 1. -/
def State.pullStep (s : State) (i j : Nat) : Host.Outcome State Fault Refusal :=
  let r := s.hgRun
  match r.eval with
  | some v => (match v.result with
    | none => .next s
    | some m =>
      if v.finished then .next (if m ≠ 0 then s.hgAt (i + 1) 0 else s.hgAt i (j + 1))
      else if !v.counted then s.hgMessageRan
      else s.hgCombine (s.hgBase + i) m fun s => s.hgCheck i j)
  | none =>
    if s.hgV ≤ i then .next (s.hgArrive false)
    else if j = 0 then s.hgFinishedPart s.hgFault i
    else s.hgRow s.hgFault (gdCsco r.gd) i fun s lo hi =>
      if hi ≤ lo + (j - 1) then .next (s.hgAt (i + 1) 0)
      else (s.hgLoad (gdCsci r.gd + 4 * (lo + (j - 1))) 4).andThen s s.hgFault fun s o =>
        if gdNtot r.gd ≤ o then .next s.hgFault
        else (s.hgLoad (gdOact r.gd + o / 8) 1).andThen s s.hgFault fun s a =>
          if a / 2 ^ (o % 8) % 2 = 0 then .next (s.hgAt i (j + 1))
          else s.hgMessage s.hgFault (gdCscw r.gd) (lo + (j - 1)) o (s.hgBase + i)

/-! ### Choosing a run (R105) -/

def HingeRun.live (r : HingeRun) : Bool := r.state = .queued || r.state = .running

/-- A finalize signal is pending. -/
def HingeRun.signalled (r : HingeRun) : Bool :=
  match r.phase with
  | .finalize _ => r.live
  | .ready | .edges .. | .check .. | .arrived | .phase => false

/-- A superstep is ready to begin, or to go on after a pre-emption (R259). -/
def HingeRun.isReady (r : HingeRun) : Bool :=
  match r.phase with
  | .ready | .edges .. | .check .. => r.live
  | .arrived | .finalize _ | .phase => false

/-- The mode of the superstep that the run is in or is about to begin: the first runs pull when the setting is 2 (R257). -/
def HingeRun.mode (r : HingeRun) : Bool := if r.state = .queued then r.setting = 2 else r.pull

/-- Hinge works for a crew that runs a block and has not halted for a pre-emption (R259). -/
def State.hgActive (s : State) : Bool := s.crew.block.isSome && !s.frozen

/-- One more step of an evaluation whose message has been counted: its combine, where nothing keeps it (R254, R255). -/
def State.hgCombineNow (s : State) : State :=
  let go (o : Host.Outcome State Fault Refusal) : State := match o with
    | .next t => t
    | .fault _ | .refused _ => s
  match s.hgRun.phase with
  | .edges i j => if s.hgRun.pull then go (s.pullStep i j) else go (s.pushStep i j)
  | .ready | .check .. | .arrived | .finalize _ | .phase => s

/-- HINGE HALTS between two edge evaluations or two steps of the finalize (R259): an evaluation that has changed nothing yet begins
again, and one whose message has been counted comes to its end with its combine. A combine that something keeps goes on with the run:
the evaluation is saved as it stands (log 31). -/
def State.hgHalt (s : State) : State :=
  let s := match s.hgRun.eval with
    | none => s
    | some v => if v.counted then s.hgCombineNow else s.modRun fun r => { r with eval := none }
  s.modHere fun c => if c.hingeCur = some s.cur.crew then { c with hingeCur := none } else c

/-- Hinge takes this crew's superstep: it is at it, or it is free, no finalize is pending and this run is the first that is
ready (R105). -/
def State.hgTakes (s : State) : Bool :=
  s.hgActive && match s.here.hingeCur with
    | some k => k = s.cur.crew
    | none =>
      s.hgRun.isReady && !crewIxs.any (fun k => (s.here.crew k).hinge.signalled)
        && crewIxs.all fun k => !(s.here.crew k).hinge.isReady || s.hgRun.order ≤ (s.here.crew k).hinge.order

/-- Hinge takes this crew's finalize: it is free or at it, and no lower crew's is pending (R105). -/
def State.hgFinalizes (s : State) : Bool :=
  s.hgActive && s.hgRun.signalled && match s.here.hingeCur with
    | some k => k = s.cur.crew
    | none => crewIxs.all fun k => s.cur.crew.val ≤ k.val || !(s.here.crew k).hinge.signalled

/-- A superstep begins; the first sets the run's counters (R248, R257). -/
def State.hgBegin (s : State) : State :=
  let s := s.modRun fun r => { r with pull := r.mode, state := .running, phase := .edges 0 0, eval := none }
  s.hgCount.modHere fun c => { c with hingeCur := some s.cur.crew }

/-- A turn of Hinge at a superstep in a mode. -/
def hingeTurn (pull : Bool) (core : CoreId) (crew : CrewIx) (s0 : State) (step : State → Nat → Nat →
    Host.Outcome State Fault Refusal) : Host.Outcome State Fault Refusal :=
  let s := s0.actAs core crew .hinge
  if !s.hgTakes || s.hgRun.mode ≠ pull then .next s0
  else match s.hgRun.phase with
    | .ready => .next (if s.hgLocked then s0 else s.hgBegin)
    | .edges i j => step (s.modHere fun c => { c with hingeCur := some crew }) i j
    | .check i j => (s.modHere fun c => { c with hingeCur := some crew }).checkStep i j
    | .arrived | .finalize _ | .phase => .next s0

/-- HINGE_PUSH_SUPERSTEP: one step of a push superstep (R254). -/
def execHingePushSuperstep (core : CoreId) (crew : CrewIx) (s : State) : Host.Outcome State Fault Refusal :=
  hingeTurn false core crew s State.pushStep

/-- HINGE_PULL_SUPERSTEP: one step of a pull superstep (R255). -/
def execHingePullSuperstep (core : CoreId) (crew : CrewIx) (s : State) : Host.Outcome State Fault Refusal :=
  hingeTurn true core crew s State.pullStep

/-! ### The finalize (R256) -/

/-- A store of Hinge to global memory, published at dev scope as it is performed (R204), or sent to a peer (R201). -/
def State.hgStore (s : State) (onFault : State) (va : Nat) (b : List Byte) (k : State → State) :
    Host.Outcome State Fault Refusal :=
  match s.translate (.tlb 5) s.crew.ctx va .write with
  | .fault _ => .next onFault
  | .ok x =>
    let w := Writer.cmd s.hgRun.id
    if !entryRem x.leaf2.entry && Config.hbmBytes < x.pa + b.length then .fault .noSuchPhysical
    else
      let s := (s.tlbWalk s.crew.ctx 5 va x .write false).reviveFor s.crew.ctx x.peer x.pa b.length
      if entryRem x.leaf2.entry then
        (if s.mem.zerosOpen (entryKey x.leaf2.entry) x.pa then .next s
        else .next (k ((s.farStore w s.crew.ctx x va (b.map some)).sendOwn (fun r => r.writer == w) fun _ => s.hgSeesFar)))
      else .next (k (s.gStore w s.hgSees [s.pubNow .dev (s.spot s.cur.core s.cur.crew)] x.key x.pa (b.map some)))

/-- The finalize update: `bytes` falls by 1 (R256). -/
def State.hgUpdate (s : State) (fail : Bool) : State :=
  match s.hgBar with
  | none => s.hgEnd .stopped
  | some b =>
    ((s.modRun fun r => { r with phase := .phase, eval := none }).modHere fun c => { c with hingeCur := none }).combine b.core
      b.place (.hingeFinal fail)

/-- A fault of the finalize: no further write, and its update has failure status. -/
def State.hgFailFinal (s : State) : State := s.hgUpdate true

/-- The finalize moves on to step `i`. -/
def State.hgFinalAt (s : State) (i : Nat) : State := s.modRun fun r => { r with phase := .finalize i, eval := none }

/-- A bitmap of the frontier, all its F bytes: `fcur`, or `fnext` F bytes on. -/
def State.hgBitmap (s : State) (next : Bool) : HgRead :=
  s.here.hgPool s.crew.part (gdFront s.hgRun.gd + if next then s.hgF else 0) s.hgF

/-- The set bits of a bitmap of `v` bits. -/
def popBits (f v : Nat) : Nat := ((List.range v).filter fun i => f / 2 ^ i % 2 = 1).length

/-- The record of the statistics as a number (Table 12.4). -/
def HingeRun.record (r : HingeRun) : Nat := r.nfs % 2 ^ 64 + r.mf % 2 ^ 64 * 2 ^ 64 + r.mu % 2 ^ 64 * 2 ^ 128

/-- One step of the statistics: the finished part on a vertex's new entry, then its edges counted (Table 12.4). -/
def State.hgStat (s : State) (i at_ : Nat) : Host.Outcome State Fault Refusal :=
  let r := s.hgRun
  match r.eval with
  | none => s.hgFinishedPart s.hgFailFinal i
  | some v => match v.result with
    | none => .next s
    | some done =>
      s.hgRow s.hgFailFinal (gdCsro r.gd) i fun s lo hi =>
        (s.here.hgPool s.crew.part (gdFront r.gd + i / 8) 1).andThen s s.hgFailFinal fun s f =>
          let on := f / 2 ^ (i % 8) % 2
          .next ((s.modRun fun r => { r with
            nfs := r.nfs + on, mf := r.mf + on * (hi - lo), mu := r.mu + if done = 0 then hi - lo else 0 }).hgFinalAt at_)

/-- `fnext` is copied to `fcur`, all F bytes, and cleared; the old `fcur` is only written over, and how many bits the first
superstep's had stays in `first`, where its words are correctable (R256, R257). -/
def State.hgSwap (s : State) (i : Nat) : Host.Outcome State Fault Refusal :=
  let F := s.hgF
  let part := s.crew.part
  let front := gdFront s.hgRun.gd
  if s.here.lockedFor none (poolPlace part front) (2 * F) then .next s
  else (s.hgBitmap true).andThen s s.hgFailFinal fun s new =>
    let old : Option Nat :=
      if s.here.poolBad (poolPlace part front) F then none
      else some (popBits (leNat (memGets s.here.pool (poolPlace part front) F)) s.hgV)
    .next (((s.modHere fun c => (c.poolWrite (poolPlace part front) (natLe F new)).poolWrite
      (poolPlace part (front + F)) (List.replicate F 0)).modRun fun r =>
        { r with nfs := 0, mf := 0, mu := 0, first := r.first.orElse fun _ => old }).hgFinalAt (i + 1))

/-- The writes of a finalize have been performed when no put of them is on its way; a refused one is a fault of the finalize
(R256, R287). -/
def State.hgPerformed (s : State) : State :=
  let puts := s.mem.remote.filter fun q => q.writer == .cmd s.hgRun.id && q.open_
  if puts.any fun q => q.refused then
    ({ s with mem := { s.mem with remote := s.mem.remote.filter fun q =>
      !(q.writer == .cmd s.hgRun.id && q.open_) } } : State).hgFailFinal
  else if puts.isEmpty then s.hgUpdate false
  else s

/-- One step of the finalize (R256). -/
def State.finalStep (s : State) (i : Nat) : Host.Outcome State Fault Refusal :=
  let r := s.hgRun
  let v := s.hgV
  let es := entrySize r.rd
  let part := s.crew.part
  if r.fault then .next (s.hgUpdate false)
  else if i < v then
    (s.here.hgPool part (gdFront r.gd + s.hgF + i / 8) 1).andThen s s.hgFailFinal fun s f =>
      if f / 2 ^ (i % 8) % 2 = 0 then .next (s.hgFinalAt (i + 1))
      else (s.here.hgPool part (gdDval r.gd + es * i) es).andThen s s.hgFailFinal fun s e =>
        s.hgStore s.hgFailFinal (gdOval r.gd + 4 * (s.hgBase + i))
          (natLe 4 (hingeOut (rdXs r.rd) (rdVty r.rd) (entryValue (rdVty r.rd) e))) fun s => s.hgFinalAt (i + 1)
  else if i < v + ceilDiv v 8 then
    (s.here.hgPool part (gdFront r.gd + s.hgF + (i - v)) 1).andThen s s.hgFailFinal fun s f =>
      s.hgStore s.hgFailFinal (gdOact r.gd + s.hgBase / 8 + (i - v)) [BitVec.ofNat 8 f] fun s => s.hgFinalAt (i + 1)
  else
    let j := i - (v + ceilDiv v 8)
    if j = 0 then s.hgSwap i
    else if j ≤ v then s.hgStat (j - 1) (i + 1)
    else if j ≤ v + 4 then
      let u := j - v - 1
      s.hgStore s.hgFailFinal (gdTstat r.gd + 32 * s.hgPos + 8 * u) (natLe 8 (r.record / 2 ^ (64 * u))) fun s =>
        s.hgFinalAt (i + 1)
    else .next s.hgPerformed

/-- HINGE_FINALIZE: one step of the finalize of a run that has been signalled (R256). -/
def execHingeFinalize (core : CoreId) (crew : CrewIx) (s0 : State) : Host.Outcome State Fault Refusal :=
  let s := s0.actAs core crew .hinge
  if !s.hgFinalizes then .next s0
  else match s.hgRun.phase with
    | .finalize i => (s.modHere fun c => { c with hingeCur := some crew }).finalStep i
    | .ready | .edges .. | .check .. | .arrived | .phase => .next s0

/-! ### Completion (R256, R257) -/

/-- The sums of the team's records. -/
def State.hgSums (s : State) (onFault : State) (acc : Nat × Nat × Nat) (k : State → Nat × Nat × Nat → Host.Outcome State Fault Refusal) :
    Nat → Host.Outcome State Fault Refusal
  | 0 => k s acc
  | q + 1 =>
    let at_ := gdTstat s.hgRun.gd + 32 * q
    (s.hgLoad at_ 8).andThen s onFault fun s nf =>
      (s.hgLoad (at_ + 8) 8).andThen s onFault fun s mf =>
        (s.hgLoad (at_ + 16) 8).andThen s onFault fun s mu =>
          s.hgSums onFault (acc.1 + nf, acc.2.1 + mf, acc.2.2 + mu) k q

/-- The mode after a decision (R257). -/
def nextMode (r : HingeRun) (nf mf mu : Nat) : Bool :=
  if r.setting = 1 then false
  else if r.setting = 2 then true
  else if r.pull then !(nf * rdBeta r.rd < gdNtot r.gd * 256)
  else mu * 256 < mf * rdAlpha r.rd

/-- The decision at a completion (R257). -/
def State.hgDecide (s : State) (fail : Bool) (a : Nat × Nat × Nat) : State :=
  let s := s.modRun fun r => { r with nss := r.nss + 1, nf := some a.1 }
  let r := s.hgRun
  if fail then s.hgCount.hgEnd .stopped
  else if a.1 = 0 || r.nss = rdMaxss r.rd then s.hgCount.hgEnd .done
  else
    let m := nextMode r a.1 a.2.1 a.2.2
    (s.modRun fun r => { r with
      pull := m, nsw := if m ≠ r.pull then Min.min (r.nsw + 1) 65535 else r.nsw, phase := .ready }).hgCount

/-- HINGE_COMPLETION: the phase in which the run has arrived has completed, by an update since; Hinge acquires, reads the records and
decides by the failure flag that the completing update left, as every Hinge of the team does (R256, R257). A fault in reading them
stops the run, and so does the loss of its barrier before (log 31). -/
def execHingeCompletion (core : CoreId) (crew : CrewIx) (s0 : State) : Host.Outcome State Fault Refusal :=
  let s := s0.actAs core crew .hinge
  let r := s.hgRun
  if !s.hgActive || !r.live || r.phase ≠ .phase || s.hgLocked then .next s0
  else match r.ended with
    | none => .next (if s.hgBar.isNone then s.hgEnd .stopped else s0)
    | some (t, fail, sc) =>
      (s.acquire core (s.spot core crew) sc fun c => c ≤ t).hgSums (s.hgDecide true (0, 0, 0)) (0, 0, 0)
        (fun s a => .next (s.hgDecide fail a)) (runBlocks r.gd)

/-! ### The words (R105) -/

/-- This crew's run; the firmware context has none (log 21). -/
def State.runHere (s : State) : HingeRun := if s.cur.role = .fw then HingeRun.idle else s.crew.hinge

/-- This crew's pair of descriptors. -/
def State.pairHere (s : State) : Option (Nat × Nat) := if s.cur.role = .fw then none else s.crew.pair

/-- `hset`: a run in progress is reported before the offsets are checked, and the first offset's checks before the second's
(DEDUCED, log 43). -/
def execHset (tk : Tok) (ra rb : XReg) (s : State) : Host.Outcome State Fault Refusal :=
  runWord tk [refX ra, refX rb] s fun s =>
    let g := (s.getX ra).toNat
    let r := (s.getX rb).toNat
    if s.runHere.live then .trap (trapAt codeHingeFault g)
    else match (poolCheck s.part g 64 64).orElse fun _ => poolCheck s.part r 64 64 with
      | some t => .trap t
      | none => .done (s.modCrew fun c => { c with pair := some (g, r) })

/-- The checks of `hrun` after the barrier address: both descriptors, then the program (R249, R250). -/
def State.hrunChecks (s : State) (gOff rOff : Nat) (g r : Image) (k : List W32 → Res) : Res :=
  let part := s.part
  let teamsz := s.teamSize
  if graphBad part g r s.hgPos teamsz then .trap (trapAt codeHingeFault gOff)
  else if runBad part r then .trap (trapAt codeHingeFault rOff)
  else
    let place := poolPlace part (rdProg r)
    if s.here.lockedFor none place 256 then .block .other id
    else if s.here.poolBad place 256 then .trap (trapAt codePoolEcc (rdProg r))
    else
      let prog := (List.range 64).map fun i => bytesWord (memGets s.here.pool (place + 4 * i) 4)
      match scanProgram .message 0 prog with
      | some i => .trap { code := codeHingeFault, info := BitVec.ofNat 16 i, addr := BitVec.ofNat 64 rOff }
      | none => k prog

/-- `hrun`: its checks in the order of R105, then the run is queued. -/
def execHrun (tk : Tok) (ra : XReg) (s : State) : Host.Outcome State Fault Refusal :=
  runWord tk [refX ra] s fun s =>
    match s.pairHere with
    | none => .trap (trapOf codeHingeFault)
    | some (gOff, rOff) =>
      if s.runHere.live then .trap (trapAt codeHingeFault gOff)
      else match s.barRef (s.getX ra) false with
        | .error t => .trap t
        | .ok _ =>
          match s.poolRead gOff 64 64 with
          | .locked => .block .other id
          | .trap t => .trap t
          | .bytes gb => match s.poolRead rOff 64 64 with
            | .locked => .block .other id
            | .trap t => .trap t
            | .bytes rb =>
              let g : Image := BitVec.ofNat 512 (leNat gb)
              let r : Image := BitVec.ofNat 512 (leNat rb)
              s.hrunChecks gOff rOff g r fun prog =>
                let id := s.serial
                let run : HingeRun := { HingeRun.idle with
                  state := .queued, gd := g, rd := r, prog := prog, cmd := some id,
                  order := 4 * s.cycle + s.cur.crew.val, bar := s.getX ra, setting := rdForce r }
                .issued (({ s with serial := s.serial + 1 } : State).modCrew fun c =>
                  { c with hinge := run, xcmds := c.xcmds ++ [id] }) id

/-- The states as `hstat` codes them (R105). -/
def HingeState.code : HingeState → Nat
  | .idle => 0
  | .queued => 1
  | .running => 2
  | .done => 3
  | .stopped => 4

/-- `hstat`: before the first completion selector 4 counts this Hinge's own `fcur`, as the superstep had it (R257, R277). -/
def execHstat (tk : Tok) (rd ra : XReg) (s : State) : Host.Outcome State Fault Refusal :=
  runWord tk [refX ra] s fun s =>
    let r := s.runHere
    match (s.getX ra).toNat with
    | 0 => .done (s.setX rd (BitVec.ofNat 64 r.state.code))
    | 1 => .done (s.setX rd (BitVec.ofNat 64 r.nss))
    | 2 => .done (s.setX rd (boolX r.mode))
    | 3 => .done (s.setX rd (BitVec.ofNat 64 r.nsw))
    | 4 =>
      (match r.nf.orElse fun _ => r.first with
      | some n => .done (s.setX rd (BitVec.ofNat 64 n))
      | none =>
        if r.state = .idle then .done (s.setX rd 0)
        else match s.hgBitmap false with
          | .val f | .loaded f _ _ => .done (s.setX rd (BitVec.ofNat 64 (popBits f s.hgV)))
          | .waits _ => .block .other id
          | .fault | .stop => .trap (trapAt codePoolEcc (gdFront r.gd)))
    | 5 => .done (s.setX rd (BitVec.ofNat 64 r.nedge))
    | _ => .trap (trapOf codeRegRange)

def execHforce (tk : Tok) (ra : XReg) (s : State) : Host.Outcome State Fault Refusal :=
  runWord tk [refX ra] s fun s =>
    let v := (s.getX ra).toNat
    if 2 < v then .trap (trapOf codeRegRange)
    else .done (if s.runHere.live then s.modRun fun r => { r with setting := v } else s)

end Sys2Proof.Machine
end

