-- ==== Sys2Proof/Machine/Ports.lean ====
section
/-! DEFINITION. The twelve ports: bytes counted and budgets (R304, R305, R330, Table 19.4), and the messages that leave the
device (R306). -/

namespace Sys2Proof.Machine

/-- Adding bytes to the count of a port and a context. -/
def addBytes (port : Nat) (ctx : CtxId) (n : Nat) (l : List (Nat × CtxId × Nat)) : List (Nat × CtxId × Nat) :=
  if l.any fun q => q.1 == port && q.2.1 == ctx then
    l.map fun q => if q.1 = port && q.2.1 = ctx then (q.1, q.2.1, q.2.2 + n) else q
  else l ++ [(port, ctx, n)]

/-- The bytes counted for a port and a context. -/
def bytesAt (port : Nat) (ctx : CtxId) (l : List (Nat × CtxId × Nat)) : Nat :=
  match l.find? fun q => q.1 == port && q.2.1 == ctx with
  | some q => q.2.2
  | none => 0

/-- The bytes per µs and port that the parameters give: above 200,000 acts as 200,000 (Table 19.4). -/
def Ctx.portBudget (k : Ctx) : Nat := Min.min 200000 (field k.params.toNat 121 104)

/-- Every byte of a context on a port counts (R305). -/
def State.portCount (s : State) (port : Nat) (ctx : CtxId) (n : Nat) : State :=
  s.modNpu fun d => { d with portUsed := addBytes port ctx n d.portUsed, portBytes := addBytes port ctx n d.portBytes }

/-- What is left of a context's budget on a port in this µs: no other's is lent to it (R305, R330). -/
def State.portLeft (s : State) (port : Nat) (ctx : CtxId) : Nat :=
  (s.ctx ctx).bud - bytesAt port ctx s.npu.portUsed

/-- As many of `n` bytes as the budget has left pass, and count; the bytes that do not pass in this µs (R305). -/
def State.carry (s : State) (port : Nat) (ctx : CtxId) (n : Nat) : Nat × State :=
  let k := Min.min n (s.portLeft port ctx)
  (n - k, s.portCount port ctx k)

/-- Traffic beyond the budget waits for the next µs, and is never dropped (R305). -/
def State.awaitPort (s : State) (w : Waiting) : State := s.modNpu fun d => { d with waiting := d.waiting ++ [w] }

/-- A number of `w` bits at the bottom of what follows. -/
def below (w v rest : Nat) : Nat := v % 2 ^ w + rest * 2 ^ w

/-- The header of a message of the device (Table 19.2). -/
def OutMsg.header (m : OutMsg) : BitVec 256 :=
  BitVec.ofNat 256 <| below 16 0x5343 <| below 16 m.sess.toNat <| below 14 m.ctx.val <| below 2 m.kind <| below 8 m.opcode <| below 8 0 <|
    below 64 m.seq <| below 16 0 <| below 16 m.status <| below 32 m.payload.length m.cookie.toNat

/-- A message of the device as it is sent: header and payload (R306). -/
def OutMsg.bytes (m : OutMsg) : List Byte := natLe 32 m.header.toNat ++ m.payload

/-- The port of an SCP session's connection, which the spec does not name: a free one, and port 0 in Sage mode, where no
other is up (R317; log 39). -/
def State.scpPort (s : State) : Nat := if s.boot.stage = .sage then 0 else Config.freeNat (64 + s.npu.out.length) s.tick % 12

/-- A message leaves the device. The bytes of an SCP message count, and it is never held (R305); those of an answer of the
transport have been counted with its access. -/
def State.send (s : State) (m : OutMsg) : State :=
  (if m.frame then s else s.portCount s.scpPort m.ctx m.bytes.length).modNpu fun n => { n with out := n.out ++ [m] }

/-- A message leaves the device and counts for no context: the answer to an exchange that proved none (R307). -/
def State.sendFree (s : State) (m : OutMsg) : State := s.modNpu fun n => { n with out := n.out ++ [m] }

end Sys2Proof.Machine
end

