-- ==== Sys2Proof/Machine/VecMath.lean ====
section
/-! DEFINITION. Vector elements as numbers: containers of a vector image (R107), element operations (R112 to R114),
conversions (R117), seeds and elementary functions (R118), the lane hash and the greatest-first order (R123, R124). -/

namespace Sys2Proof.Machine

/-! ### Containers (R107) -/

/-- The first `n` containers of width `w` of a number, container 0 first. -/
def unpack (w : Nat) (v : Nat) : Nat → List Nat
  | 0 => []
  | n + 1 => v % 2 ^ w :: unpack w (v / 2 ^ w) n

/-- A number with containers replaced, from container 0: `none` keeps a container. -/
def packOver (w : Nat) (v : Nat) : List (Option Nat) → Nat
  | [] => v
  | o :: rest => o.getD v % 2 ^ w + 2 ^ w * packOver w (v / 2 ^ w) rest

/-- The values of a list numbered from 0, by a function. -/
def indexed {α β : Type} (f : Nat → α → β) (i : Nat) : List α → List β
  | [] => []
  | x :: rest => f i x :: indexed f (i + 1) rest

/-- Two lists combined by position. -/
def zip2 (f : Nat → Nat → Nat) (a b : List Nat) : List Nat := List.zipWith f a b

/-! ### Element operations (Table 6.4) -/

/-- A floating operation rounded once into the element type, or an integer operation mod 2^w (R112, R113). -/
def elemArith (ff : FV → FV → FV) (fi : Nat → Nat → Nat) (ty a b : Nat) : Nat :=
  if typeFloat ty then roundTo ty (ff (decodeFloat ty a) (decodeFloat ty b)) else fi a b % 2 ^ typeWidth ty

def elemAdd (ty a b : Nat) : Nat := elemArith FV.add (fun a b => a + b) ty a b

def elemSub (ty a b : Nat) : Nat := elemArith FV.sub (fun a b => a + 2 ^ typeWidth ty - b) ty a b

def elemMul (ty a b : Nat) : Nat := elemArith FV.mul (fun a b => a * b) ty a b

/-- a × b + d, rounded once (R113). -/
def elemFma (ty a b d : Nat) : Nat :=
  if typeFloat ty then roundTo ty (((decodeFloat ty a).mul (decodeFloat ty b)).add (decodeFloat ty d))
  else (a * b + d) % 2 ^ typeWidth ty

/-- Order of two codes: floating values with −0 below +0, integers by their type. -/
def elemBelow (ty a b : Nat) : Bool :=
  if typeFloat ty then
    let x := decodeFloat ty a
    let y := decodeFloat ty b
    x.lt y || (x.eqv y && x.sign && !y.sign)
  else decodeInt ty a < decodeInt ty b

/-- A NaN code of a floating type. -/
def elemNan (ty a : Nat) : Bool := typeFloat ty && (decodeFloat ty a).isNan

/-- The canonical NaN of a floating type (Table 2.2). -/
def canonNan (ty : Nat) : Nat := (ffmt ty).nan

/-- The rules of `fmin` and `fmax` over any type (R112). -/
def elemPick (less : Bool) (ty a b : Nat) : Nat :=
  if elemNan ty a then (if elemNan ty b then canonNan ty else b)
  else if elemNan ty b then a
  else if less then (if elemBelow ty b a then b else a) else if elemBelow ty a b then b else a

def elemMin (ty a b : Nat) : Nat := elemPick true ty a b

def elemMax (ty a b : Nat) : Nat := elemPick false ty a b

/-- |a|: sign 0; |a| mod 2^w for signed types, a for unsigned ones (Table 6.4). -/
def elemAbs (ty a : Nat) : Nat :=
  if elemNan ty a then canonNan ty
  else if typeFloat ty then a % 2 ^ (typeWidth ty - 1)
  else if typeSigned ty then (decodeInt ty a).natAbs % 2 ^ typeWidth ty else a

/-- −a: sign inverted; (−a) mod 2^w for integers. -/
def elemNeg (ty a : Nat) : Nat :=
  if elemNan ty a then canonNan ty
  else if typeFloat ty then (a + 2 ^ (typeWidth ty - 1)) % 2 ^ typeWidth ty
  else (2 ^ typeWidth ty - a) % 2 ^ typeWidth ty

/-- The shift count: the low 5, 4 or 3 bits (R112). -/
def elemShift (ty b : Nat) : Nat := b % typeWidth ty

def elemShl (ty a b : Nat) : Nat := a * 2 ^ elemShift ty b % 2 ^ typeWidth ty

def elemShr (ty a b : Nat) : Nat := a / 2 ^ elemShift ty b

def elemSra (ty a b : Nat) : Nat :=
  intCode (typeWidth ty) (sext a (typeWidth ty) / ((2 ^ elemShift ty b : Nat) : Int))

/-- The relations of R114: −0 equals +0, a NaN operand gives false. -/
def elemEq (ty a b : Nat) : Bool :=
  if typeFloat ty then (decodeFloat ty a).eqv (decodeFloat ty b) else a == b

def elemLt (ty a b : Nat) : Bool :=
  if typeFloat ty then (decodeFloat ty a).lt (decodeFloat ty b) else decodeInt ty a < decodeInt ty b

def elemLe (ty a b : Nat) : Bool := elemLt ty a b || elemEq ty a b

/-- Set bits of an element (R127). -/
def elemPopc (ty a : Nat) : Nat := popcFrom a (typeWidth ty)

/-! ### Conversions (Table 6.5) -/

/-- An element converted between type codes; `sat` chooses between wrapping and saturating integers (R117). -/
def elemCvt (sat : Bool) (src dst a : Nat) : Nat :=
  if typeInt src && typeInt dst then
    intCode (typeWidth dst) (if sat then clampInt (intMin dst) (intMax dst) (decodeInt src a) else decodeInt src a)
  else (encodeElem dst (decodeElem src a)).1

/-- The accepted targets of R117. -/
def cvtTarget (t : Nat) : Bool := t ≤ 4 || (8 ≤ t && t ≤ 10) || (12 ≤ t && t ≤ 14)

/-! ### Seeds (R118) -/

/-- RoundNE to 12 significant bits, or to the format's own precision where that is coarser, then to FP32. -/
def seed (v : FV) : Nat :=
  match v with
  | .num s n d e =>
    if n = 0 then roundTo 0 v
    else
      let x := flog2 n d e - 11
      let q := if x < -149 then -149 else x
      roundTo 0 (.num s (roundNat n d (e - q)) 1 q)
  | v => roundTo 0 v

/-- 1/√(n · 2^e) for n > 0, to well over 64 bits with a sticky bit: every rounding to 24 bits or fewer is that of the
exact value. -/
def rsqValue (n : Nat) (e : Int) : FV :=
  let odd := (e % 2).toNat
  let m := n * 2 ^ odd
  let k := m.log2 + 140
  let r := isqrt (2 ^ (2 * k) / m)
  let sticky := if r * r * m = 2 ^ (2 * k) then 0 else 1
  .num false (2 * r + sticky) 1 (-(k : Int) - 1 - (e - odd) / 2)

/-- `vrsq` (Table 6.6). -/
def vrsqBits (a : Nat) : Nat :=
  match decodeFloat 0 a with
  | .nan => canonNan 0
  | .inf s => if s then canonNan 0 else 0
  | .num s n _ e =>
    if n = 0 then roundTo 0 (.inf s) else if s then canonNan 0 else seed (rsqValue n e)

/-- `vrcp` (Table 6.6). -/
def vrcpBits (a : Nat) : Nat := seed ((FV.num false 1 1 0).div (decodeFloat 0 a))

/-! ### Elementary functions (R118) -/

/-- Bits of log2 of a mantissa in [1, 2), held as `m / 2^p`: `n` bits of the fraction by repeated squaring. -/
def log2Bits (p : Nat) (acc m : Nat) : Nat → Nat
  | 0 => acc
  | n + 1 =>
    let q := m * m / 2 ^ p
    if 2 ^ (p + 1) ≤ q then log2Bits p (2 * acc + 1) (q / 2) n else log2Bits p (2 * acc) q n

/-- log2 of n · 2^e for n > 0: exact for a power of two, else 112 bits of fraction and a sticky bit (log 24). -/
def log2Value (n : Nat) (e : Int) : FV :=
  let l := n.log2
  let k : Int := (l : Int) + e
  if n = 2 ^ l then FV.ofInt k
  else
    let f := log2Bits 320 0 (n * 2 ^ 320 / 2 ^ l) 112
    let t : Int := k * ((2 ^ 113 : Nat) : Int) + ((2 * f + 1 : Nat) : Int)
    .num (t < 0) t.natAbs 1 (-113)

/-- `vlog2` (Table 6.6). -/
def vlog2Bits (a : Nat) : Nat :=
  match decodeFloat 0 a with
  | .nan => canonNan 0
  | .inf s => if s then canonNan 0 else roundTo 0 (.inf false)
  | .num s n _ e => if n = 0 then roundTo 0 (.inf true) else if s then canonNan 0 else roundTo 0 (log2Value n e)

/-- The product of 2^(2^−j) over the set bits of a fraction `f / 2^n`, the bit of 1/2 first, held as a number over 2^192.
`r` is the root of the bit before. -/
def exp2Frac (f r acc : Nat) : Nat → Nat
  | 0 => acc
  | n + 1 =>
    let r := isqrt (r * 2 ^ 192)
    exp2Frac f r (if f / 2 ^ n % 2 = 1 then acc * r / 2 ^ 192 else acc) n

/-- 2^x for x = ±n · 2^e with |x| ≥ 2^−26: exact for an integer, else 192 bits and a sticky bit (log 24). -/
def exp2Value (neg : Bool) (n : Nat) (e : Int) : FV :=
  let m : Int := if neg then -(n : Int) else n
  let up := m * pow2 (e + 64) / pow2 (-(e + 64))
  let whole := up / ((2 ^ 64 : Nat) : Int)
  let frac := (up % ((2 ^ 64 : Nat) : Int)).toNat
  if frac = 0 then .num false 1 1 whole
  else .num false (2 * exp2Frac frac (2 * 2 ^ 192) (2 ^ 192) 64 + 1) 1 (whole - 193)

/-- `vexp2` (Table 6.6). Arguments below 2^−26 in magnitude round to 1. -/
def vexp2Bits (a : Nat) : Nat :=
  match decodeFloat 0 a with
  | .nan => canonNan 0
  | .inf s => if s then 0 else roundTo 0 (.inf false)
  | .num s n _ e =>
    if n = 0 || flog2 n 1 e < -26 then roundTo 0 (FV.ofInt 1)
    else if 9 < flog2 n 1 e then (if s then 0 else roundTo 0 (.inf false))
    else roundTo 0 (exp2Value s n e)

/-! ### Reductions (R122, R123) -/

/-- One level of the pairwise tree. -/
def pairUp (f : Nat → Nat → Nat) : List Nat → List Nat
  | a :: b :: rest => f a b :: pairUp f rest
  | l => l

/-- The fixed tree over 64 values (R122). -/
def tree64 (f : Nat → Nat → Nat) (l : List Nat) : Nat :=
  (pairUp f (pairUp f (pairUp f (pairUp f (pairUp f (pairUp f l)))))).headD 0

/-- `Above` of R123: every NaN below −inf, −0 equal to +0, ties to the lower index. -/
def aboveCand (c best : Nat × Nat) : Bool :=
  let x := decodeFloat 0 c.1
  let y := decodeFloat 0 best.1
  let greater := (!x.isNan && y.isNan) || y.lt x
  let equal := (x.isNan && y.isNan) || x.eqv y
  greater || (equal && c.2 < best.2)

/-- The running pair after a list of candidates (R123). -/
def foldMax (best : Nat × Nat) (cands : List (Nat × Nat)) : Nat × Nat :=
  cands.foldl (fun b c => if aboveCand c b then c else b) best

/-! ### The lane hash (R124) -/

/-- H(k0, k1, c) (R124). -/
def laneHash (k0 k1 c : Nat) : Nat :=
  let x := Nat.xor c k0 * 0x9E3779B9 % 2 ^ 32
  let x := Nat.xor x (x / 2 ^ 16)
  let x := x * 0x85EBCA6B % 2 ^ 32
  let x := Nat.xor x (x / 2 ^ 13)
  (x + k1) % 2 ^ 32

end Sys2Proof.Machine
end

