-- ==== Sys2Proof/Machine/Sampler.lean ====
section
/-! DEFINITION. The sampler (spec/11_grammar_sampler.md R237 to R241; spec/05_isa_system.md R104): requests, their checks,
the stages, the draw, and the words `sdraw` and `sstat`. -/

namespace Sys2Proof.Machine

/-! ### Requests and stage blocks (Tables 5.9 and 11.8) -/

/-- A request record. -/
structure Request where
  clean : Bool
  stages : Nat
  chain : Nat
  logits : Nat
  v : Nat
  step : Nat
  key : Nat
  deriving DecidableEq, Repr

/-- A request from its 256 bits (Table 5.9). -/
def requestOf (r : Nat) : Request :=
  { clean := field r 255 232 = 0 && field r 95 64 = 0, stages := field r 231 224, chain := field r 223 192,
    logits := field r 191 160, v := field r 159 128, step := field r 127 96, key := field r 63 0 }

def Request.stagesOk (r : Request) : Bool := 1 ≤ r.stages && r.stages ≤ 8

def Request.vOk (r : Request) : Bool := 1 ≤ r.v && r.v ≤ 262144

/-- The kind of a stage block. -/
def sbKind (b : Nat) : Nat := field b 3 0

/-- The second and third parameter words of a block. -/
def sbA (b : Nat) : Nat := field b 63 32

def sbB (b : Nat) : Nat := field b 95 64

/-- The first bit of a block past its parameters (Table 11.8, which names none for a kind above 6). -/
def sbEnd (b : Nat) : Nat :=
  match sbKind b with
  | 0 | 2 | 4 | 5 => 64
  | 1 => 96
  | 3 => 160
  | 6 => 33
  | _ => 32

/-- Reason 1: a must-be-0 bit of a block is set. -/
def sbDirty (b : Nat) : Bool := field b 31 4 ≠ 0 || field b 255 (sbEnd b) ≠ 0

/-- Reason 4: an offset of a block is misaligned. -/
def sbMisaligned (b : Nat) : Bool :=
  match sbKind b with
  | 1 => sbA b % 8 ≠ 0
  | 2 => sbA b % 64 ≠ 0
  | 3 => sbA b % 4 ≠ 0
  | _ => false

/-- Reason 5: a parameter outside Table 11.8. -/
def sbOutside (b : Nat) : Bool :=
  match sbKind b with
  | 0 | 2 | 6 => false
  | 1 | 3 => 4096 < sbB b
  | 4 => sbA b = 0
  | 5 => !(FV.zero.lt (decodeFloat 0 (sbA b)) && (decodeFloat 0 (sbA b)).le (FV.ofInt 1))
  | _ => true

/-- The pool range that a block names. -/
def sbRange (v b : Nat) : Nat × Nat :=
  match sbKind b with
  | 1 => (sbA b, 8 * sbB b)
  | 2 => (sbA b, ceilDiv v 8)
  | 3 => (sbA b, 4 * sbB b)
  | _ => (0, 0)

/-- Kinds strictly ascending and a draw last (R239). -/
def chainOrdered : List Nat → Bool
  | [] => false
  | [b] => sbKind b = 6
  | b :: c :: rest => sbKind b < sbKind c && chainOrdered (c :: rest)

/-- A range within the S- and A-partitions; an empty one lies anywhere. -/
def rangeIn (part : XWord) (r : Nat × Nat) : Bool :=
  r.2 = 0 || (sBegin part ≤ r.1 && r.1 + r.2 ≤ allotEnd part && r.1 + r.2 ≤ 2 ^ 23)

/-- The tokens that a block lists. -/
def sbTokens (b : Nat) (bytes : List Byte) : List Nat :=
  match sbKind b with
  | 1 => (List.range (sbB b)).map fun i => leNat ((bytes.drop (8 * i)).take 4)
  | 3 => (List.range (sbB b)).map fun i => leNat ((bytes.drop (4 * i)).take 4)
  | _ => []

/-! ### The stages (R238, R240, R241) -/

/-- −inf as FP32. -/
def negInf32 : Nat := 0xFF800000

/-- A logit replaced. -/
def setNth (l : List Nat) (i x : Nat) : List Nat := l.set i x

/-- Penalty of a logit with `c` occurrences: one rounding (Table 11.8). -/
def penalty (l pres freq c : Nat) : Nat :=
  roundTo 0 (((decodeFloat 0 l).sub (decodeFloat 0 pres)).sub ((decodeFloat 0 freq).mul (FV.ofInt c)))

/-- Logits with their tokens. -/
def withTokens (l : List Nat) : List (Nat × Nat) := l.zipIdx

/-- Insertion into an order by Above (R123). -/
def insertAbove (c : Nat × Nat) : List (Nat × Nat) → List (Nat × Nat)
  | [] => [c]
  | d :: rest => if aboveCand c d then c :: d :: rest else d :: insertAbove c rest

/-- Candidates in the order of Above, the greatest first. -/
def sortAbove (l : List (Nat × Nat)) : List (Nat × Nat) := l.foldr insertAbove []

/-- All but the listed tokens become −inf. -/
def keepOnly (l : List Nat) (keep : List Nat) : List Nat :=
  (withTokens l).map fun c => if keep.contains c.2 then c.1 else negInf32

/-- The first prefix of weights whose running sum reaches a bound: its tokens (R240 step 4). -/
def prefixTo (bound : FV) (sum : Nat) : List (Nat × Nat) → List Nat
  | [] => []
  | w :: rest =>
    let sum := elemAdd 0 sum w.1
    w.2 :: (if bound.le (decodeFloat 0 sum) then [] else prefixTo bound sum rest)

/-- Top-p (R240). `other` is the weight of a logit to which the spec gives none, +inf (log 30). -/
def topP (p : Nat) (other : Nat → Nat) (l : List Nat) : List Nat :=
  let fin := (withTokens l).filter fun c => (decodeFloat 0 c.1).isFinite
  match sortAbove fin with
  | [] => l
  | m :: _ =>
    let weight (c : Nat × Nat) : Nat :=
      match decodeFloat 0 c.1 with
      | .num .. => vexp2Bits (elemSub 0 c.1 m.1)
      | .inf false => other c.2
      | _ => 0
    let ws := (sortAbove (withTokens l)).map fun c => (weight c, c.2)
    let z := ws.foldl (fun a w => elemAdd 0 a w.1) 0
    keepOnly l (prefixTo (decodeFloat 0 (elemMul 0 p z)) 0 ws)

/-- One stage before the draw (Table 11.8), with the bytes of its range. -/
def stage (other : Nat → Nat) (l : List Nat) (b : Nat × List Byte) : List Nat :=
  match sbKind b.1 with
  | 0 => l.map fun x => elemMul 0 x (sbA b.1)
  | 1 => (List.range (sbB b.1)).foldl (fun l i =>
      let t := leNat ((b.2.drop (8 * i)).take 4)
      setNth l t (elemAdd 0 (l.getD t 0) (leNat ((b.2.drop (8 * i + 4)).take 4)))) l
  | 2 => (withTokens l).map fun c =>
      if (b.2.getD (c.2 / 8) 0).toNat / 2 ^ (c.2 % 8) % 2 = 1 then c.1 else negInf32
  | 3 =>
    let toks := sbTokens b.1 b.2
    (withTokens l).map fun c =>
      let n := (toks.filter fun t => t == c.2).length
      if n = 0 then c.1 else penalty c.1 (field b.1 127 96) (field b.1 159 128) n
  | 4 => if l.length ≤ sbA b.1 then l else keepOnly l (((sortAbove (withTokens l)).take (sbA b.1)).map fun c => c.2)
  | 5 => topP (sbA b.1) other l
  | _ => l

/-- The Gumbel term of a token (R241). -/
def gumbel (key step t : Nat) : Nat :=
  let h := laneHash (field key 31 0) (field key 63 32) (Nat.xor t (step * 2 ^ 18) % 2 ^ 32)
  let u := roundTo 0 (.num false (2 * (h / 2 ^ 9) + 1) 1 (-24))
  elemNeg 0 (vlog2Bits (elemNeg 0 (vlog2Bits u)))

/-- The draw (R241): the token and the status. -/
def drawToken (gum : Bool) (key step : Nat) (l : List Nat) : Nat × Nat :=
  let scores := (withTokens l).map fun c => (if gum then elemAdd 0 c.1 (gumbel key step c.2) else c.1, c.2)
  let live := scores.any fun c => !(decodeFloat 0 c.1).isNan && !(decodeFloat 0 c.1).eqv (.inf true)
  if live then ((foldMax (negInf32, l.length) scores).2, 0) else (l.length, 1)

/-! ### Serving a request (R239) -/

/-- The end of serving: a wait on a locked bank, a reason code, or the token and its status. -/
inductive Served where
  | locked
  | refused (reason : Nat)
  | token (t status : Nat)
  deriving DecidableEq, Repr

/-- The lowest reason of Table 11.9 among those that hold. -/
def lowestReason (l : List (Bool × Nat)) : Option Nat := (l.find? fun p => p.1).map fun p => p.2

/-- A request served: its checks, then its stages (R238 to R241). Blocks are examined when their number, alignment and range
are right, and lists when theirs are (log 30). -/
def serve (c : Core) (part : XWord) (off : Nat) (other : Nat → Nat) : Served :=
  let place (o : Nat) : Nat := poolPlace part o
  let locked (r : Nat × Nat) : Bool := r.2 ≠ 0 && rangeIn part r && c.lockedFor none (place r.1) r.2
  let bad (r : Nat × Nat) : Bool := r.2 ≠ 0 && rangeIn part r && c.poolBad (place r.1) r.2
  if locked (off, 32) then .locked
  else if bad (off, 32) then .refused 8
  else
    let r := requestOf (leNat (memGets c.pool (place off) 32))
    let chainR := (r.chain, 32 * r.stages)
    let logitsR := (r.logits, if r.vOk then 4 * r.v else 0)
    let seen := r.stagesOk && r.chain % 32 = 0 && rangeIn part chainR
    if (seen && locked chainR) || locked logitsR then .locked
    else
      let blocks := if seen then (List.range r.stages).map fun i => leNat (memGets c.pool (place (r.chain + 32 * i)) 32) else []
      let v := if r.vOk then r.v else 0
      let lists := blocks.map fun b => if sbOutside b then (0, 0) else sbRange v b
      if lists.any locked then .locked
      else
        let data := (blocks.zip lists).map fun p =>
          (p.1, if rangeIn part p.2 then memGets c.pool (place p.2.1) p.2.2 else [])
        match lowestReason [
            (!r.clean || blocks.any sbDirty, 1),
            (!r.stagesOk, 2),
            (!r.vOk, 3),
            (r.chain % 32 ≠ 0 || r.logits % 64 ≠ 0 || blocks.any sbMisaligned, 4),
            ((seen && !chainOrdered blocks) || blocks.any sbOutside, 5),
            ((r.stagesOk && !rangeIn part chainR) || !rangeIn part logitsR || lists.any fun q => !rangeIn part q, 6),
            (data.any fun p => (sbTokens p.1 p.2).any fun t => v ≤ t, 7),
            ((seen && bad chainR) || bad logitsR || lists.any bad, 8)] with
        | some n => .refused n
        | none =>
          let l := unpack 32 (leNat (memGets c.pool (place r.logits) (4 * r.v))) r.v
          let out := drawToken ((blocks.getLastD 0) / 2 ^ 32 % 2 = 1) r.key r.step (data.foldl (stage other) l)
          .token out.1 out.2

/-- A count for a context raised by one. -/
def bump (k : CtxId) (l : List (CtxId × Nat)) : List (CtxId × Nat) :=
  match l.find? fun p => p.1 == k with
  | some p => (k, p.2 + 1) :: l.filter fun q => !(q.1 == k)
  | none => (k, 1) :: l

/-- A value for a context replaced. -/
def putFor (k : CtxId) (v : Nat) (l : List (CtxId × Nat)) : List (CtxId × Nat) := (k, v) :: l.filter fun q => !(q.1 == k)

/-- The value for a context, 0 if none. -/
def valueFor (k : CtxId) (l : List (CtxId × Nat)) : Nat := ((l.find? fun p => p.1 == k).map fun p => p.2).getD 0

/-- An `sdraw` leaves X, and its tokens go back to the front of their queues (R59, Table 18.6). -/
def Crew.withdrawDraw (c : Crew) : Crew :=
  match c.draw with
  | none => c
  | some d =>
    ({ c with draw := none }.modQueue (popQueueP .x) (Queue.giveBack d.tokP)).modQueue (popQueueN .x)
      (Queue.giveBack d.tokN)

/-- The request at the head of a sampler's queue ends. -/
def State.dropRequest (s : State) (die : DieId) : State := s.modDie die fun d => { d with draws := d.draws.tail }

/-- SAMPLER_SERVE: the oldest request is served; X goes on at its next word, or traps at the `sdraw` (R104, R239). -/
def execSamplerServe (die : DieId) (s : State) : Host.Outcome State Fault Refusal :=
  match (s.dies.get die).draws with
  | [] => .next s
  | q :: _ =>
    let s := s.actAs q.core q.crew .x
    match s.crew.draw with
    | none => .next (s.dropRequest die)
    | some d =>
      if d.id ≠ q.id then .next (s.dropRequest die)
      else
        let ctx := s.crew.ctx
        let other (t : Nat) : Nat := leNat ((List.range 4).map fun i => Config.freeByte s.tick (4 * t + i))
        match serve s.here s.crew.part d.off other with
        | .locked => .next s
        | .refused n =>
          let s := ((s.dropRequest die).modDie die fun k => { k with reason := putFor ctx n k.reason }).modCrew
            Crew.withdrawDraw
          .next (raise (trapAt codeSamplerFault d.off) s)
        | .token t status =>
          let u := ((s.dropRequest die).modDie die fun k => { k with drawn := bump ctx k.drawn }).modCrew fun c =>
            { c with draw := none }
          finish { p := d.toP, n := d.toN } none false s.pc (s.pc + 4) s
            (u.setX d.rd (BitVec.ofNat 64 (t + status * 2 ^ 32)))

/-! ### The words (R104) -/

/-- The tokens that a word pops, before it does. -/
def State.tokensAt (s : State) (i : Fin 8) (n : Nat) : List Token := (s.crew.queues.get i).toks.take n

/-- `sdraw`: its offset is checked, the request joins the sampler's queue, and X waits for the token. -/
def execSdraw (tk : Tok) (rd ra : XReg) (s : State) : Host.Outcome State Fault Refusal :=
  if s.crew.draw.isSome && !(s.cur.role = .fw) then .next (s.modSeq fun q => { q with issued := true })
  else
    let before := s
    runWord tk [refX ra] s fun s =>
      let off := (s.getX ra).toNat
      match poolCheck s.part off 32 32 with
      | some t => .trap t
      | none =>
        let d : Draw := { id := s.serial, rd := rd, off := off,
                          tokP := before.tokensAt (popQueueP .x) (popsOf tk).p,
                          tokN := before.tokensAt (popQueueN .x) (popsOf tk).n,
                          toP := (pushesOf tk).p, toN := (pushesOf tk).n }
        let q : DrawReq := { core := s.cur.core, crew := s.cur.crew, id := s.serial }
        .held ((({ s with serial := s.serial + 1 } : State).modCrew fun c => { c with draw := some d }).modDie
          (dieOf s.cur.core) fun k => { k with draws := k.draws ++ [q] })

/-- `sstat`: requests waiting, draws completed for the context, or the last reason code. -/
def execSstat (tk : Tok) (rd ra : XReg) (s : State) : Host.Outcome State Fault Refusal :=
  runWord tk [refX ra] s fun s =>
    let d := s.dieHere
    match (s.getX ra).toNat with
    | 0 => .done (s.setX rd (BitVec.ofNat 64 (Min.min (d.draws.length - 1) 256)))
    | 1 => .done (s.setX rd (BitVec.ofNat 64 (valueFor s.ctxHere d.drawn)))
    | 2 => .done (s.setX rd (BitVec.ofNat 64 (valueFor s.ctxHere d.reason)))
    | _ => .trap (trapOf codeRegRange)

end Sys2Proof.Machine
end

