-- ==== Sys2Proof/Machine/MatrixMath.lean ====
section
/-! DEFINITION. The arithmetic of the matrix array: descriptor fields (Tables 7.1 to 7.3), operand rows (R27, R136),
narrowing (R144, R218), chunks (R32, R34, R144, R145), checksums (R223), drains (R37 to R39) and Hadamard passes (R40,
R41). -/

namespace Sys2Proof.Machine

/-! ### Descriptor images (Tables 7.1, 7.2, 7.3) -/

def rgBase (r : Image) : Nat := field r.toNat 22 0
def rgSsize (r : Image) : Nat := field r.toNat 46 24
def rgNslot (r : Image) : Nat := field r.toNat 54 48
def rgFmt (r : Image) : Nat := field r.toNat 59 56
def rgRows (r : Image) : Nat := field r.toNat 71 64 + 1
def rgCols (r : Image) : Nat := 32 * (field r.toNat 79 72 + 1)
def rgSbase (r : Image) : Nat := field r.toNat 102 80
def rgGlist (r : Image) : Nat := field r.toNat 126 104
def rgTscale (r : Image) : FV := decodeFloat 0 (field r.toNat 159 128)

def tlBase (t : Image) : Nat := field t.toNat 22 0
def tlM (t : Image) : Nat := field t.toNat 39 32 + 1
def tlN (t : Image) : Nat := field t.toNat 47 40 + 1
def tlAcc (t : Image) : Nat := field t.toNat 51 48

/-- Bytes of a tile's storage: accumulators, checksum row, checksum column (R138). -/
def tlBytes (t : Image) : Nat := 4 * (tlM t * tlN t + tlM t + tlN t)

def ddDst (d : Image) : Nat := field d.toNat 22 0
def ddRing (d : Image) : Fin 16 := ⟨field d.toNat 27 24 % 16, by omega⟩
def ddToring (d : Image) : Bool := field d.toNat 28 28 = 1
def ddFmt (d : Image) : Nat := field d.toNat 35 32
def ddDsbase (d : Image) : Nat := field d.toNat 62 40
def ddScale (d : Image) : FV := decodeFloat 0 (field d.toNat 95 64)
def ddMult (d : Image) : Int := sext (field d.toNat 127 96) 32
def ddShift (d : Image) : Nat := field d.toNat 135 128

/-! ### Slots and rows (R24, R25, R27, R136) -/

/-- Bytes of `n` elements of a type. -/
def elemBytes (ty n : Nat) : Nat := n * typeWidth ty / 8

/-- The offset of slot `q` (R136). -/
def slotOff (r : Image) (q : Nat) : Nat := rgBase r + q % rgNslot r * rgSsize r

/-- The offset of the headers of slot `q` (R136). -/
def slotHdr (r : Image) (q : Nat) : Nat := rgSbase r + q % rgNslot r * (rgRows r * rgCols r / 16)

/-- The element bytes and the header of the 32 elements of row `i` from column `k0` of slot `q`: offset and length. -/
def rowSpan (r : Image) (q i k0 : Nat) : Nat × Nat :=
  (slotOff r q + elemBytes (rgFmt r) (i * rgCols r + k0), elemBytes (rgFmt r) 32)

def rowHdr (r : Image) (q i k0 : Nat) : Nat := slotHdr r q + 2 * ((i * rgCols r + k0) / 32)

/-- The 32 values of a row's chunk from its bytes and its header, and whether the block's scale is a NaN code (R27). -/
def rowValues (r : Image) (bytes hdr : List Byte) : List FV × Bool :=
  let t := rgFmt r
  let codes := unpack (typeWidth t) (leNat bytes) 32
  if typeBx t then (codes.map fun c => bxValue t (leNat hdr) c (rgTscale r), bxNanHeader (leNat hdr))
  else (codes.map (decodeElem t), false)

/-- Reading one row's chunk from a pool, for an allotment that begins at `org`. -/
def readRow (pool : Memory) (org : Nat) (r : Image) (q i k0 : Nat) : List FV × Bool :=
  let sp := rowSpan r q i k0
  rowValues r (memGets pool (org + sp.1) sp.2) (memGets pool (org + rowHdr r q i k0) 2)

/-- Codes packed into bytes, 32 at a time (R24, R25). -/
def packCodes (w : Nat) (l : List Nat) : Nat → List Byte
  | 0 => []
  | fuel + 1 =>
    if l.isEmpty then []
    else natLe (((l.take 32).length * w + 7) / 8) (packOver w 0 ((l.take 32).map some)) ++ packCodes w (l.drop 32) fuel

/-- A list cut into blocks of 32. -/
def blocks32 {α : Type} (l : List α) : Nat → List (List α)
  | 0 => []
  | fuel + 1 => if l.isEmpty then [] else l.take 32 :: blocks32 (l.drop 32) fuel

/-! ### Narrowing (R144, R218) -/

/-- One value narrowed by RoundNE under Table 2.6, or by Sat into an integer, with its count. -/
def narrowOne (f : Nat) (v : FV) : FV × ConvRec := (decodeElem f (encodeElem f v).1, (encodeElem f v).2)

/-- Narrow of the 32 values of a chunk: for a BX rung one block under R28 with sc = 1. -/
def narrowRow (f : Nat) (vs : List FV) : List FV × ConvRec :=
  if typeBx f then
    let e := bxEncode f vs
    (e.2.1.map fun c => bxValue f e.1 c (FV.ofInt 1), e.2.2)
  else
    let l := vs.map (narrowOne f)
    (l.map fun x => x.1, l.foldl (fun a x => a.plus x.2) countNone)

/-- An operand row of a chunk under format `f`: narrowed, with its count, unless `f` is the stored format. -/
def operandRow (pool : Memory) (org : Nat) (r : Image) (f q i k0 : Nat) : List FV × ConvRec :=
  let v := readRow pool org r q i k0
  if f = rgFmt r then (v.1, countNone) else narrowRow f v.1

/-! ### A chunk (R32, R34, R144, R145) -/

/-- What the accumulators of a chunk follow: exact sums of integers, ChunkSum, or nothing the spec states. -/
inductive ChunkKind where
  | int
  | float
  | open_
  deriving DecidableEq, Repr

/-- Integers accumulate in INT32, everything else in FP32. What a later trail entry can bring about and no rule states (R34,
R222; DESIGN CHOICE, log 25): floating operands on an INT32 tile have no stated sum, and integer operands on an FP32 tile take
ChunkSum (DEDUCED). -/
def chunkKind (acc fa fb : Nat) : ChunkKind :=
  if acc = 8 then (if typeInt fa && typeInt fb then .int else .open_) else .float

/-- The values of a row as integers. -/
def rowInts (vs : List FV) : List Int := vs.map (FV.roundInt false)

/-- The sum of products of two rows: an FP32 pattern, or a number mod 2^32. -/
def chunkDot (k : ChunkKind) (a b : List FV) : Nat :=
  match k with
  | .int => intCode 32 (intDot (rowInts a) (rowInts b))
  | .float | .open_ => (chunkSum a b).toNat

/-- An accumulator, or a checksum, updated by a sum: overwritten, or added to. -/
def accStep (k : ChunkKind) (ow : Bool) (old new : Nat) : Nat :=
  if ow then new
  else match k with
    | .int => (old + new) % 2 ^ 32
    | .float | .open_ => (accAdd (BitVec.ofNat 32 old) (BitVec.ofNat 32 new)).toNat

/-- RoundNE (Σ v, f32) with the sum exact, or the sum of integers (R144). -/
def columnSum (k : ChunkKind) (vs : List FV) : FV :=
  match k with
  | .int => FV.ofInt ((rowInts vs).foldl (fun a x => a + x) 0)
  | .float | .open_ => match vs with
    | [] => FV.zero
    | v :: rest => f32 (toF32 (rest.foldl FV.add v))

/-- The sums of the columns of a list of rows. -/
def columnSums (k : ChunkKind) (rows : List (List FV)) : List FV :=
  (List.range 32).map fun j => columnSum k (rows.map fun r => r.getD j FV.zero)

/-- The products of a row that `mmag` fills with zeros are +0 (R145). -/
def rowDot (k : ChunkKind) (a : Option (List FV)) (b : List FV) : Nat :=
  match a with
  | some v => chunkDot k v b
  | none => 0

/-- One chunk: the accumulators, the checksum row and the checksum column, and the non-finite ChunkSums: one is counted for
each output element whose ChunkSum is non-finite, not one for the chunk of the whole tile (R32; DEDUCED, log 20). -/
def chunkWords (k : ChunkKind) (ow ck : Bool) (a : List (Option (List FV))) (b : List (List FV)) (old : List Nat)
    (fresh : Nat → Nat) : List Nat × Nat :=
  let sums := a.flatMap fun x => b.map fun y => rowDot k x y
  let mn := a.length * b.length
  let sa := columnSums k (a.map fun x => x.getD (List.replicate 32 FV.zero))
  let sb := columnSums k b
  let checks := if ck then (b.map fun y => chunkDot k sa y) ++ a.map fun x => rowDot k x sb else []
  let upd (l new : List Nat) : List Nat := List.zipWith (accStep k ow) l new
  let words := upd (old.take mn) sums ++ (if ck then upd (old.drop mn) checks else old.drop mn)
  match k with
  | .int => (words, 0)
  | .float => (words, (sums.filter fun v => nonFinite32 (BitVec.ofNat 32 v)).length)
  | .open_ => (indexed (fun i v => if i < mn || ck then fresh i else v) 0 words, 0)

/-! ### Checksums (R223) -/

/-- One pair of an FP32 tile: the checksum against the exact sum. -/
def pairOk (xs : List FV) (c : FV) : Bool :=
  if !c.isFinite || xs.any fun x => !x.isFinite then true
  else
    let m := xs.foldl (fun a x => a.add x.abs) FV.zero
    let s := xs.foldl FV.add FV.zero
    let lim := if m.lt c.abs then c.abs else m
    !(((FV.num false 1 1 (-10)).mul lim).lt (s.sub c).abs)

/-- One pair of an INT32 tile. -/
def pairOkInt (xs : List Nat) (c : Nat) : Bool := xs.foldl (fun a x => a + x) 0 % 2 ^ 32 = c

/-- Whether every checksum of a tile's words agrees. -/
def checksumsOk (acc m n : Nat) (words : List Nat) : Bool :=
  let at_ (i j : Nat) : Nat := words.getD (i * n + j) 0
  let one (xs : List Nat) (c : Nat) : Bool :=
    if acc = 8 then pairOkInt xs c else pairOk (xs.map (decodeFloat 0)) (decodeFloat 0 c)
  ((List.range n).all fun j => one ((List.range m).map fun i => at_ i j) (words.getD (m * n + j) 0))
    && ((List.range m).all fun i => one ((List.range n).map fun j => at_ i j) (words.getD (m * n + n + i) 0))

/-! ### Drains (R37 to R39) -/

/-- An accumulator's value. -/
def accValue (acc w : Nat) : FV := if acc = 8 then FV.ofInt (sext w 32) else decodeFloat 0 w

/-- amax: NaN skipped, +inf the greatest, integers by RoundNE to FP32 (R39). -/
def drainAmax (acc : Nat) (ws : List Nat) : FV :=
  ws.foldl (fun m w =>
    let v := (decodeFloat 0 (roundTo 0 (accValue acc w))).abs
    if v.isNan then m else if m.lt v then v else m) FV.zero

/-- One element through the paths of R37 that are not BX. An INT32 requantisation counts clamps alone: one that gives 0 from a
nonzero accumulator is no flush, unlike a conversion of a value to an integer (R38; DEDUCED, log 20). -/
def drainElem (d : Image) (acc w : Nat) : Nat × ConvRec :=
  let t := ddFmt d
  if acc = 8 && typeInt t then
    let q := requant (sext w 32) (ddMult d) (ddShift d)
    let c := clampInt (intMin t) (intMax t) q
    (intCode (typeWidth t) c, if c = q then countNone else countSat)
  else encodeElem t ((accValue acc w).mul (ddScale d))

/-- The result of a drain: element bytes, header bytes, counts. -/
def drainBytes (d : Image) (acc : Nat) (ws : List Nat) : List Byte × List Byte × ConvRec :=
  let t := ddFmt d
  if typeBx t then
    let bs := (blocks32 ws ws.length).map fun b => bxEncode t (b.map fun w => (accValue acc w).mul (ddScale d))
    (bs.flatMap fun b => packCodes (typeWidth t) b.2.1 1, bs.flatMap fun b => natLe 2 b.1,
      bs.foldl (fun a b => a.plus b.2.2) countNone)
  else
    let es := ws.map (drainElem d acc)
    (packCodes (typeWidth t) (es.map fun e => e.1) ws.length, [], es.foldl (fun a e => a.plus e.2) countNone)

/-! ### Hadamard passes (R40, R41) -/

/-- σ_j[i] is −1. -/
def signNeg (j i : Nat) : Bool := laneHash j 0 i / 2 ^ 31 % 2 = 1

/-- H_n[i][k] is −1. -/
def hadNeg (i k : Nat) : Bool := popcFrom (Nat.land i k) 9 % 2 = 1

/-- One output of a pass over a group of n elements: the chunk-sum rule over n/32 chunks, the first of which overwrites, as on
an `ov` word (R41; DEDUCED, log 25). -/
def hadOne (sign i : Nat) (xs : List FV) : W32 :=
  let terms := indexed (fun k x => if hadNeg i k != signNeg sign k then FV.neg x else x) 0 xs
  match blocks32 terms terms.length with
  | [] => 0
  | b :: rest => rest.foldl (fun a c => accAdd a (chunkSumOf c)) (chunkSumOf b)

/-- A group of n elements. -/
def hadGroup (sign : Nat) (xs : List FV) : List FV := (List.range xs.length).map fun i => f32 (hadOne sign i xs)

/-- A row cut into groups of n. -/
def hadRow (sign n : Nat) (xs : List FV) : Nat → List FV
  | 0 => []
  | fuel + 1 => if xs.isEmpty then [] else hadGroup sign (xs.take n) ++ hadRow sign n (xs.drop n) fuel

/-- The rows of a slot written in a ring's format: element bytes, header bytes, counts (R41). -/
def slotBytes (r : Image) (vs : List FV) : List Byte × List Byte × ConvRec :=
  let t := rgFmt r
  if typeBx t then
    let bs := (blocks32 vs vs.length).map fun b => bxEncode t (b.map fun y => y.div (rgTscale r))
    (bs.flatMap fun b => packCodes (typeWidth t) b.2.1 1, bs.flatMap fun b => natLe 2 b.1,
      bs.foldl (fun a b => a.plus b.2.2) countNone)
  else
    let es := vs.map (encodeElem t)
    (packCodes (typeWidth t) (es.map fun e => e.1) vs.length, [], es.foldl (fun a e => a.plus e.2) countNone)

end Sys2Proof.Machine
end

