-- ==== Sys2Proof/Machine/VecOps.lean ====
section
/-! DEFINITION. The frame of a vector word: the shape (R106 to R108), ports (R129 to R131), sources and destination in
the order of R109. -/

namespace Sys2Proof.Machine

/-! ### The shape (Table 6.1) -/

/-- `vsh`: the type, the packing, and the number of active elements. -/
structure Shape where
  ty : Nat
  pack : Nat
  cnt : Nat
  deriving DecidableEq, Repr

def State.shape (s : State) : Shape :=
  { ty := field s.crew.vsh.toNat 15 12, pack := field s.crew.vsh.toNat 11 10, cnt := field s.crew.vsh.toNat 8 0 }

/-- The container width W. -/
def Shape.cw (h : Shape) : Nat := 32 / 2 ^ h.pack

/-- The capacity 2,048/W. -/
def Shape.cap (h : Shape) : Nat := 2048 / h.cw

/-- The element type's width w. -/
def Shape.ew (h : Shape) : Nat := typeWidth h.ty

/-- Rows of Table 6.2. -/
def anyType (_ : Shape) : Bool := true

def intType (h : Shape) : Bool := typeInt h.ty

def f32Pack0 (h : Shape) : Bool := h.ty = 0 && h.pack = 0

def sumType (h : Shape) : Bool := (h.ty = 0 || h.ty = 8 || h.ty = 12) && h.pack = 0

def intPack0 (h : Shape) : Bool := typeInt h.ty && h.pack = 0

def pack0 (h : Shape) : Bool := h.pack = 0

/-- Bit lane(i) of a guard, for containers of width `cw` (R107). -/
def laneBit (g : PWord) (cw i : Nat) : Bool := g.getLsbD (i * cw / 32)

/-! ### Ports (Table 6.8) -/

/-- `esz`. -/
def recEsz (r : BitVec 128) : Nat := field r.toNat 121 120

/-- Bytes of a port's element. -/
def eszBytes (e : Nat) : Nat := 4 / 2 ^ e

def recCount (r : BitVec 128) : Nat → Nat
  | 0 => field r.toNat 87 72
  | 1 => field r.toNat 103 88
  | _ => field r.toNat 119 104

def recStride (r : BitVec 128) : Nat → Int
  | 0 => sext (field r.toNat 23 0) 24
  | 1 => sext (field r.toNat 47 24) 24
  | _ => sext (field r.toNat 71 48) 24

/-- The number of addresses of a walk (R129). -/
def walkLength (r : BitVec 128) : Nat := recCount r 0 * recCount r 1 * recCount r 2

/-- Address `k` of a walk (R129). -/
def walkAddr (base : Nat) (r : BitVec 128) (k : Nat) : Int :=
  (base : Int) + ((k / (recCount r 0 * recCount r 1) : Nat) : Int) * recStride r 2
    + ((k / recCount r 0 % recCount r 1 : Nat) : Int) * recStride r 1 + ((k % recCount r 0 : Nat) : Int) * recStride r 0

/-- The lowest and the highest address of a walk: each stride at its nearer or farther end (R130). -/
def walkBound (low : Bool) (base : Nat) (r : BitVec 128) : Int :=
  let ends (i : Nat) : Int :=
    let far := ((recCount r i - 1 : Nat) : Int) * recStride r i
    if (far < 0) = low then far else 0
  (base : Int) + ends 0 + ends 1 + ends 2

def Port.addr (p : Port) (k : Nat) : Nat := (walkAddr p.base.toNat p.record (p.pos + k)).toNat

def Port.left (p : Port) : Nat := walkLength p.record - p.pos

/-- The checks of naming a port, `used` addresses being spoken for by an earlier field of the word (R109 step 5, R131). An
idle port has no offset to name: `trapaddr` is 0 (DEDUCED, log 57). -/
def Port.check (p : Port) (h : Shape) (used : Nat) : Option TrapReq :=
  if !p.active then some (trapOf codePoolRange)
  else if recEsz p.record ≠ h.pack then some (trapOf codeIllegalType)
  else if p.left < used + h.cnt then some (trapAt codePoolRange p.base.toNat)
  else none

/-- The port of a source: `ia` to `id` are ports 0 to 3. -/
def srcPort : VSrc → Option (Fin 6)
  | .port n => some ⟨n.val, by omega⟩
  | .reg _ | .zero => none

/-- The port of a destination: `oa` and `ob` are ports 4 and 5. -/
def dstPort : VDst → Option (Fin 6)
  | .port n => some ⟨4 + n.val, by omega⟩
  | .reg _ | .zero => none

def State.port (s : State) (k : Fin 6) : Port := s.crew.ports.get k

def State.advance (s : State) (k : Fin 6) (n : Nat) : State :=
  s.modCrew fun c => { c with ports := c.ports.set k { c.ports.get k with pos := (c.ports.get k).pos + n } }

/-- The port checks of the source fields in turn, then of the destination (R109 steps 5 and 6). -/
def State.portChecks (s : State) (h : Shape) (srcs : List VSrc) (vd : Option VDst) (used : List (Fin 6)) :
    Option TrapReq :=
  match srcs with
  | [] => match vd.bind dstPort with
    | some k => (s.port k).check h 0
    | none => none
  | v :: rest => match srcPort v with
    | some k => ((s.port k).check h (h.cnt * (used.filter fun u => u == k).length)).orElse fun _ =>
        s.portChecks h rest vd (k :: used)
    | none => s.portChecks h rest vd used

/-! ### Reading (R109 step 7, R131) -/

/-- The elements a read port pops: one for each active element, in order. -/
def State.popElems (s : State) (p : Port) (bytes k : Nat) : Nat → Except Res (List Nat)
  | 0 => .ok []
  | n + 1 =>
    match s.poolRead (p.addr k) bytes 1 with
    | .bytes b => match s.popElems p bytes (k + 1) n with
      | .ok l => .ok (leNat b :: l)
      | .error r => .error r
    | .locked => .error (.block .other id)
    | .trap t => .error (.trap t)

/-- The containers of a source: a register, `vz`, or the vector a read port pops. -/
def State.readSrc (s : State) (h : Shape) (v : VSrc) : Except Res (List Nat × State) :=
  match v with
  | .reg n => .ok (unpack h.cw (s.getV n).toNat h.cap, s)
  | .zero => .ok (List.replicate h.cap 0, s)
  | .port n =>
    let k : Fin 6 := ⟨n.val, by omega⟩
    match s.popElems (s.port k) (eszBytes h.pack) 0 h.cnt with
    | .ok l => .ok (l ++ List.replicate (h.cap - h.cnt) 0, s.advance k h.cnt)
    | .error r => .error r

/-- All sources, `va` first. -/
def State.readSrcs (s : State) (h : Shape) : List VSrc → Except Res (List (List Nat) × State)
  | [] => .ok ([], s)
  | v :: rest =>
    match s.readSrc h v with
    | .error r => .error r
    | .ok (l, s) => match s.readSrcs h rest with
      | .error r => .error r
      | .ok (ls, s) => .ok (l :: ls, s)

/-- The destination read as an input: a write port or `vz` supplies zero (R109). -/
def State.readDst (s : State) (h : Shape) : VDst → List Nat
  | .reg n => unpack h.cw (s.getV n).toNat h.cap
  | .port _ | .zero => List.replicate h.cap 0

/-! ### Writing (R107, R109 step 8, R131) -/

/-- Storing the elements of a write port, one address for each of them. -/
def State.pushElems (s : State) (p : Port) (bytes k : Nat) : List (Option Nat) → Except Res State
  | [] => .ok s
  | none :: rest => s.pushElems p bytes (k + 1) rest
  | some v :: rest =>
    match poolCheck s.part (p.addr k) bytes 1 with
    | some t => .error (.trap t)
    | none =>
      if s.here.lockedFor none (poolPlace s.part (p.addr k)) bytes then .error (.block .other id)
      else (s.poolStore (p.addr k) (natLe bytes v)).pushElems p bytes (k + 1) rest

/-- Writing containers of width `cw`: `none` leaves a container as it is. A write port takes one address for each of the
`cnt` active elements. -/
def State.writeDst (s : State) (vd : VDst) (cw cnt : Nat) (vals : List (Option Nat)) : Res :=
  match vd with
  | .reg n => .done (s.setV n (BitVec.ofNat 2048 (packOver cw (s.getV n).toNat vals)))
  | .zero => .done s
  | .port n =>
    let k : Fin 6 := ⟨4 + n.val, by omega⟩
    match s.pushElems (s.port k) (cw / 8) 0 (vals.take cnt) with
    | .ok s => .done (s.advance k cnt)
    | .error r => r

/-- The written elements of a list of results: active, and their lane's guard bit set (R107). -/
def guarded (g : PWord) (cw cnt : Nat) (vals : List Nat) : List (Option Nat) :=
  indexed (fun i v => if i < cnt && laneBit g cw i then some v else none) 0 vals

/-- The low `w` bits of every container. -/
def elemsOf (w : Nat) (l : List Nat) : List Nat := l.map fun v => v % 2 ^ w

/-! ### The order of R109 -/

/-- C's entry for another command (R179). -/
def State.cEntry (s : State) (k : Res) : Res := if 16 ≤ s.crew.mq.length then .block .other id else k

/-- A V3 word: the `vsh` check, the value checks, the ports, the reads with the parity of the registers read (R303), and then
what `k` makes of the shape and the containers read. -/
def State.vec (s : State) (reads : List (State → List RegRef)) (types : Shape → Bool)
    (early : State → Shape → Option TrapReq) (vd : Option VDst) (srcs : List VSrc)
    (k : Shape → List (List Nat) → State → Res) : Res :=
  let h := s.shape
  s.cEntry <|
    if !types h then .trap (trapOf codeIllegalType)
    else .ofTrap ((early s h).orElse fun _ => s.portChecks h srcs vd []) <|
      if s.parityBad reads then .trap (trapOf codeRegParity)
      else match s.readSrcs h srcs with
      | .error r => r
      | .ok (ls, s) => k h ls s

/-- No value check. -/
def noCheck (_ : State) (_ : Shape) : Option TrapReq := none

/-- The parity references of a source and of a destination read as an input. -/
def refSrc : VSrc → List (State → List RegRef)
  | .reg n => [refV n]
  | .port _ | .zero => []

def refDst : VDst → List (State → List RegRef)
  | .reg n => [refV n]
  | .port _ | .zero => []

/-- What a word of the V3 format does once its tokens are there. -/
abbrev V3 := State → Res

/-- The frame of a V3 word. -/
def runV (tk : Tok) (v : V3) (s : State) : Host.Outcome State Fault Refusal := runWord tk [] s v

/-- An element word of two sources: `f` takes the type and the elements (R112). -/
def vBinary (types : Shape → Bool) (pg : PReg) (vd : VDst) (va vb : VSrc) (f : Nat → Nat → Nat → Nat) : V3 :=
  fun s =>
    s.vec (refP pg :: refSrc va ++ refSrc vb) types noCheck (some vd) [va, vb] fun h ls s =>
      let a := elemsOf h.ew (ls.getD 0 [])
      let b := elemsOf h.ew (ls.getD 1 [])
      s.writeDst vd h.cw h.cnt (guarded (s.getP pg) h.cw h.cnt (zip2 (f h.ty) a b))

/-- An element word of one source. -/
def vUnary (types : Shape → Bool) (pg : PReg) (vd : VDst) (va : VSrc) (f : Nat → Nat → Nat) : V3 :=
  fun s =>
    s.vec (refP pg :: refSrc va) types noCheck (some vd) [va] fun h ls s =>
      s.writeDst vd h.cw h.cnt
        (guarded (s.getP pg) h.cw h.cnt ((elemsOf h.ew (ls.getD 0 [])).map (f h.ty)))

/-- An element word of two sources and the old destination (`vfma`, `vclamp`). -/
def vTernary (types : Shape → Bool) (pg : PReg) (vd : VDst) (va vb : VSrc) (f : Nat → Nat → Nat → Nat → Nat) : V3 :=
  fun s =>
    s.vec (refP pg :: refSrc va ++ refSrc vb ++ refDst vd) types noCheck (some vd) [va, vb] fun h ls s =>
      let d := elemsOf h.ew (s.readDst h vd)
      let ab := List.zip (elemsOf h.ew (ls.getD 0 [])) (elemsOf h.ew (ls.getD 1 []))
      s.writeDst vd h.cw h.cnt
        (guarded (s.getP pg) h.cw h.cnt (List.zipWith (fun p d => f h.ty p.1 p.2 d) ab d))

/-- A compare: one bit for each guarded lane, true when the relation holds for every active element of the lane and
there is one (R114). -/
def vCompare (pg pd : PReg) (va vb : VSrc) (f : Nat → Nat → Nat → Bool) : V3 :=
  fun s =>
    s.vec (refP pg :: refSrc va ++ refSrc vb) anyType noCheck none [va, vb] fun h ls s =>
      let r := List.zipWith (f h.ty) (elemsOf h.ew (ls.getD 0 [])) (elemsOf h.ew (ls.getD 1 []))
      let per := 32 / h.cw
      let lane (j : Nat) : Bool :=
        let active := ((r.drop (per * j)).take per).take (h.cnt - per * j)
        !active.isEmpty && active.all id
      let g := s.getP pg
      let old := s.getP pd
      let bit (j : Nat) : Bool := if g.getLsbD j then lane j else old.getLsbD j
      .done (s.setP pd (BitVec.ofNat 64
        ((List.range 64).foldl (fun m j => if bit j then m + 2 ^ j else m) 0)))

end Sys2Proof.Machine
end

