-- ==== Sys2Proof/Machine/Matrix.lean ====
section
/-! DEFINITION. The matrix words of C (spec/07_isa_matrix_transfer.md R135 to R151), the array's queue and chunks (R140,
R217 to R219), tags (R220, R221), replay (R149, R222) and checksums (R223). -/

namespace Sys2Proof.Machine

/-! ### Rings (R136, R137) -/

def State.ring (s : State) (i : Fin 16) : Ring := s.crew.rings.get i

def State.modRing (s : State) (i : Fin 16) (f : Ring → Ring) : State :=
  s.modCrew fun c => { c with rings := c.rings.set i (f (c.rings.get i)) }

/-- No slot is free to producers. -/
def Ring.full (r : Ring) : Bool := rgNslot r.img ≤ r.resv - r.rhead

/-- A consumer finds `n` slots. -/
def Ring.ready (r : Ring) (n : Nat) : Bool := n ≤ r.tail - r.head

/-- A reservation: the record starts at zeros. -/
def Ring.reserve (r : Ring) : Ring := { r with resv := r.resv + 1, recs := r.recs.filter fun q => !(q.1 == r.resv) }

/-- The producer of the slot at `tail` retires. -/
def Ring.fill (r : Ring) : Ring := { r with tail := r.tail + 1 }

/-- A consumer of `n` slots retires. -/
def Ring.consume (n : Nat) (r : Ring) : Ring := { r with head := r.head + n }

/-- All counts at zero. -/
def Ring.zeroed (r : Ring) : Ring := { r with head := 0, tail := 0, resv := 0, rhead := 0, recs := [] }

/-- The conversion records of the next `n` slots to consume. -/
def Ring.records (r : Ring) (n : Nat) : ConvRec :=
  (r.recs.filter fun q => r.head ≤ q.1 && q.1 < r.head + n).foldl (fun a q => a.plus q.2) countNone

/-- A transfer of the crew that names a ring is in flight, or holds a slot of it (R151, R157). -/
def Crew.ringNamed (c : Crew) (i : Fin 16) : Bool :=
  ((c.lq ++ c.sq).any fun x => match x.slot with
    | some q => q.1 == i
    | none => false)
  || (c.heldL ++ c.heldS).any fun h => h.ring == i

/-! ### Tags (Tables 10.3 and 10.4, R221) -/

def tagSet (t : Image) (hi lo v : Nat) : Image := BitVec.ofNat 512 (setField t.toNat hi lo v)

/-- The tag at the beginning of a run. -/
def tagFresh (ctx : CtxId) (epoch : Nat) : Image := BitVec.ofNat 512 (epoch % 2 ^ 48 * 2 ^ 464 + ctx.val * 2 ^ 8)

/-- Counts added to a tag, saturating at 65,535. -/
def tagCount (t : Image) (c : ConvRec) : Image :=
  let add (t : Image) (hi lo n : Nat) : Image := tagSet t hi lo (Min.min (field t.toNat hi lo + n) 65535)
  add (add (add t 343 328 c.sat) 359 344 c.flush) 375 360 c.nfin

/-- What a chunk runs at: the formats of its operands, the trail entry's type, rung and `be`, and whether a trail chose
it (R218, R222). -/
structure ChunkPlan where
  fa : Nat
  fb : Nat
  ty : Nat
  rung : Nat
  be : Bool
  rpl : Bool
  deriving DecidableEq, Repr

/-- The trail entry of a chunk (Table 10.4). -/
def ChunkPlan.entry (p : ChunkPlan) (chunk : Nat) : Nat :=
  p.ty * 2 ^ 20 + p.rung * 2 ^ 18 + p.be.toNat * 2 ^ 16 + chunk

/-- The trail entry `i` of a tag. -/
def trailEntry (t : Image) (i : Nat) : Nat := field t.toNat (159 + 24 * i) (136 + 24 * i)

/-- The number of entries a tag holds. -/
def trailLength (t : Image) : Nat := Min.min (field t.toNat 135 132) 8

/-- The tag after chunk `idx` of a run. What makes a chunk's rung differ from the one before it is any change of its type, its rung
index or its `be`; and `mintype` is the type of the first chunk at the run's highest rung index, be a later one there of another type
(DESIGN CHOICE, log 62). -/
def tagChunk (t : Image) (p : ChunkPlan) (idx : Nat) : Image :=
  let n := trailLength t
  let changes := n = 0 || trailEntry t (n - 1) / 2 ^ 16 ≠ p.entry 0 / 2 ^ 16
  let t := if field t.toNat 131 131 = 1 || !changes then t
    else if 8 ≤ n || 65535 < idx then tagSet t 131 131 1
    else tagSet (tagSet t (159 + 24 * n) (136 + 24 * n) (p.entry idx)) 135 132 (n + 1)
  let t := if idx = 0 || field t.toNat 1 0 < p.rung then tagSet (tagSet t 1 0 p.rung) 7 4 p.ty else t
  let t := tagSet t 439 408 (Min.min (field t.toNat 439 408 + 1) (2 ^ 32 - 1))
  if p.rpl then tagSet t 128 128 1 else t

/-! ### Tiles (R138, R221) -/

def State.tile (s : State) (i : Fin 16) : Tile := s.crew.tiles.get i

def State.modTile (s : State) (i : Fin 16) (f : Tile → Tile) : State :=
  s.modCrew fun c => { c with tiles := c.tiles.set i (f (c.tiles.get i)) }

def State.drain (s : State) (i : Fin 16) : Drain := s.crew.drains.get i

/-- A run begins: at a load, an `mzero` or a zeroing (`fresh`), or at an overwriting chunk. -/
def Tile.begin_ (ctx : CtxId) (epoch : Nat) (fresh : Bool) (t : Tile) : Tile :=
  { t with tag := tagFresh ctx epoch, complete := true, chunks := 0, fresh := fresh }

/-- The place in the core's pool where the crew's allotment begins. -/
def Crew.org (c : Crew) : Nat := poolPlace c.part 0

/-- The tile's storage becomes zeros and a run begins (R143, R69). -/
def State.zeroTile (s : State) (i : Fin 16) : State :=
  let t := s.tile i
  (s.modHere fun c => c.poolWrite (s.crew.org + tlBase t.img) (List.replicate (tlBytes t.img) 0)).modTile i
    (Tile.begin_ s.crew.ctx (s.cycle / 1024) true)

/-- The tiles that a mask names. -/
def maskTiles (mask : BitVec 16) : List (Fin 16) :=
  ((List.range 16).map fun i => (⟨i % 16, by omega⟩ : Fin 16)).filter fun i => mask.getLsbD i.val

/-! ### Bank locks (R138, R156) -/

/-- The banks of a range. -/
def banksOf (place n : Nat) : List Nat :=
  if n = 0 then []
  else (List.range ((place + n - 1) / bankBytes + 1 - place / bankBytes)).map fun k => place / bankBytes + k

/-- No other holder has any of the banks. -/
def Core.banksFree (c : Core) (id : Nat) (banks : List Nat) : Bool :=
  banks.all fun b => c.locks.all fun l => l.1 ≠ b || l.2 = id

def Core.lock (c : Core) (id : Nat) (banks : List Nat) : Core :=
  { c with locks := c.locks ++ banks.map fun b => (b, id) }

def Core.unlock (c : Core) (id : Nat) : Core := { c with locks := c.locks.filter fun l => l.2 ≠ id }

/-- The banks of a tile of the crew. -/
def State.tileBanks (s : State) (i : Fin 16) : List Nat :=
  banksOf (s.crew.org + tlBase (s.tile i).img) (tlBytes (s.tile i).img)

/-! ### Replay (R149, R222) -/

/-- A format that pairs with itself in Table 2.7. -/
def selfPairing (t : Nat) : Bool := (pairing t t).isSome

/-- R222 accepts a trail entry: one with `be`, one that the contract's ladder holds at its rung, or for a best-effort crew one of a
format that pairs with itself. -/
def entryAllowed (ct : BitVec 128) (best : Bool) (e : Nat) : Bool :=
  field e 16 16 = 1
    || (ctValid ct && field e 19 18 ≤ ctNrung ct && ctRung ct (field e 19 18) = field e 23 20)
    || (best && selfPairing (field e 23 20))

/-- A tag may be armed as a trail. -/
def trailAllowed (ct : BitVec 128) (best : Bool) (t : Image) : Bool :=
  field t.toNat 131 131 = 0 && (List.range (trailLength t)).all fun i => entryAllowed ct best (trailEntry t i)

/-- The entry that governs chunk `c` of a replayed run: the last whose chunk index is at most `c`. -/
def governing (t : Image) (c : Nat) : Option Nat :=
  (List.range (trailLength t)).foldl (fun o i => if field (trailEntry t i) 15 0 ≤ c then some (trailEntry t i) else o) none

/-- Arming a trail. One armed while a run follows another trail replaces it at once, and governs the run that begins next
(DESIGN CHOICE, log 62). -/
def Replay.arm (img : Image) (r : Replay) : Replay := { r with trail := img, armed := true, begun := false, count := 0 }

/-- The run of an armed trail begins at the first chunk of a word that overwrites, or that is the tile's first since a
load or a zeroing. -/
def Replay.enter (begins : Bool) (r : Replay) : Replay :=
  if r.armed && !r.begun && begins then { r with begun := true, count := 0 } else r

/-- A replayed chunk has run. -/
def Replay.advance (k : Nat) (r : Replay) : Replay := if r.begun then { r with count := r.count + k } else r

/-- The run ends at an `mdrain`. -/
def Replay.finish (r : Replay) : Replay := if r.begun then { r with armed := false, begun := false } else r

/-- The trail and the `fresh` mark of a tile once the words before a new one have taken effect. -/
def aheadStep (t : Fin 16) (a : Replay × Bool) (m : MatCmd) : Replay × Bool :=
  match m.op with
  | .mma _ t' _ _ n ov _ =>
    if t' = t then ((a.1.enter (m.done = 0 && (ov || a.2))).advance (n - m.done), false) else a
  | .mdrain t' _ => if t' = t then (a.1.finish, a.2) else a
  | .mzero mask => if mask.getLsbD t.val then (a.1, true) else a
  | .mhad .. | .mtag _ | .mtagChk | .mchk _ | .pop _ | .mlease | .mfree => a

/-! ### The rung of a chunk (R217, R218) -/

/-- The formats of a chunk at a rung of format `f`: as stored when neither is wider. -/
def rungFormats (f sa sb : Nat) : Nat × Nat := if quanta sa ≤ quanta f && quanta sb ≤ quanta f then (sa, sb) else (f, f)

/-- The plan of a chunk: a governing trail entry, the rung of a contracted lease, or the stored formats. -/
def State.chunkPlan (s : State) (entry : Option Nat) (sa sb : Nat) : ChunkPlan :=
  let l := s.crew.lease
  match entry with
  | some e =>
    let ty := field e 23 20
    let rung := field e 19 18
    if field e 16 16 = 1 then { fa := sa, fb := sb, ty := ty, rung := rung, be := true, rpl := true }
    else
      let f := rungFormats ty sa sb
      { fa := f.1, fb := f.2, ty := ty, rung := rung, be := false, rpl := true }
  | none =>
    if l.usable && l.contracted then
      let ty := ctRung (s.ctx s.crew.ctx).contract l.rung
      let f := rungFormats ty sa sb
      { fa := f.1, fb := f.2, ty := ty, rung := l.rung, be := false, rpl := false }
    else { fa := sa, fb := sb, ty := sa, rung := 0, be := true, rpl := false }

/-- The quanta per MAC of a chunk's operands: those of the wider one (R35). FP32, which only `mhad` reads, counts as 16
(log 16). -/
def chunkQuanta (fa fb : Nat) : Nat :=
  let q (t : Nat) : Nat := if t = 0 then 16 else quanta t
  Max.max (q fa) (q fb)

/-! ### Issue (R140, R179) -/

/-- Where C stands before a word. -/
def State.cPoint (s : State) : CPoint :=
  let c := s.crew
  { creditL := c.creditL.length, creditS := c.creditS.length, a := c.aC, loops := c.seqC.loops, vbase := c.vbase, pbase := c.pbase,
    rep := c.rep }

/-- The slots of a ring that a word consumes. -/
def MatOp.takes (s : State) (rg : Fin 16) : MatOp → Nat
  | .mma _ _ ra rb n _ _ => if ra = rg || rb = rg then 32 * n / rgCols (s.ring rg).img else 0
  | .mhad _ rs _ _ => if rs = rg then 1 else 0
  | .pop r => if r = rg then 1 else 0
  | .mdrain .. | .mzero _ | .mtag _ | .mtagChk | .mchk _ | .mlease | .mfree => 0

/-- The rings of a word hold every slot that it needs, besides those that the words before it take (R219). -/
def State.stocked (s : State) (op : MatOp) : Bool :=
  (List.finRange 16).all fun rg => op.takes s rg = 0
    || (s.ring rg).ready ((s.crew.mq.map fun m => m.op.takes s rg).sum + op.takes s rg)

/-- The next word of the array's queue; `before` is where C stood before it. -/
def State.enqueue (s : State) (before : CPoint) (op : MatOp) (addr : Nat) (glist : List Nat) (slot : Option (Fin 16 × Nat)) : Res :=
  let f := s.fresh
  let m : MatCmd := { id := f.1, op := op, pc := s.pc, before := before, addr := addr, glist := glist, slot := slot, stocked := s.stocked op,
                      done := 0, chunk := none, wants := false, start := 0, ends := 0, clean := true }
  .issued (f.2.modCrew fun c => { c with mq := c.mq ++ [m] }) f.1

/-- A step word is counted toward re-arbitration and asks for a lease when the crew has none (R140, R214). Words issued while the
lease's request still waits, the one that asked among them, do not count toward the 64 (DEDUCED, log 45). -/
def State.stepWord (s : State) : State :=
  let s := s.modCrew fun c =>
    if c.lease.held then
      { c with lease := { c.lease with
        steps := c.lease.steps + 1
        due := if c.lease.steps + 1 = 64 then some s.cycle else c.lease.due } }
    else c
  s.requestLease

/-- The last check of a word that needs a lease (R140 step 5, R141). -/
def State.leaseCheck (s : State) : Option TrapReq :=
  if s.crew.lease.usable || 6 ≤ partNa s.part then none else some (trapOf codePoolPart)

/-- The formats that the pairing test of `mma` takes: of the trail entry that governs the word's first chunk its type for both
operands, or the stored formats for one with `be`; else those of the rung in force (R36, R218), and the stored formats where the crew
holds no lease yet (DEDUCED, log 45). -/
def State.testFormats (s : State) (t : Fin 16) (ov : Bool) (sa sb : Nat) : Nat × Nat :=
  let a := s.crew.mq.foldl (aheadStep t) ((s.tile t).replay, (s.tile t).fresh)
  let r := a.1.enter (ov || a.2)
  match (if r.armed && r.begun then governing r.trail r.count else none) with
  | some e => if field e 16 16 = 1 then (sa, sb) else (field e 23 20, field e 23 20)
  | none =>
    let p := s.chunkPlan none sa sb
    (p.fa, p.fb)

/-- Checks 1 to 3 of R140 for `mma` and `mmag` (R36, R144, R145). -/
def State.mmaCheck (s : State) (gather : Bool) (t ra rb : Fin 16) (n : Nat) (ov : Bool) : Option TrapReq :=
  let T := s.tile t
  let A := s.ring ra
  let B := s.ring rb
  let sa := rgFmt A.img
  let sb := rgFmt B.img
  let p := s.testFormats t ov sa sb
  if !T.set || !A.set || !B.set || !matrixType sa || !matrixType sb then some (trapOf codeIllegalType)
  else if pairing p.1 p.2 ≠ some (tlAcc T.img == 8) then some (trapOf codeMmaCombo)
  else if (!gather && rgRows A.img ≠ tlM T.img) || rgRows B.img ≠ tlN T.img
      || 32 * n % rgCols A.img ≠ 0 || 32 * n % rgCols B.img ≠ 0 then some (trapOf codeRegRange)
  else none

/-- N16 entries of bytes. -/
def halfWords : List Byte → List Nat
  | a :: b :: rest => leNat [a, b] :: halfWords rest
  | _ => []

/-- `mma` and `mmag` at issue. -/
def mmaIssue (before : CPoint) (gather : Bool) (t ra rb : Fin 16) (n : Nat) (ov ck : Bool) (s : State) : Res :=
  s.cEntry <|
    .ofTrap (s.mmaCheck gather t ra rb n ov) <|
      let go (gl : List Nat) : Res :=
        .ofTrap s.leaseCheck (s.stepWord.enqueue before (.mma gather t ra rb n ov ck) 0 gl none)
      if gather then
        match s.poolRead (rgGlist (s.ring ra).img) (2 * tlM (s.tile t).img) 2 with
        | .bytes b => go (halfWords b)
        | .locked => .block .other id
        | .trap t => .trap t
      else go []

/-- Checks of `mhad` (R146). -/
def State.mhadCheck (s : State) (rd rs : Fin 16) (order : BitVec 2) : Option TrapReq :=
  let D := s.ring rd
  let S := s.ring rs
  let fd := rgFmt D.img
  let fs := rgFmt S.img
  let okType (t : Nat) : Bool := typeFloat t || typeBx t
  if !D.set || !S.set || !okType fd || !okType fs then some (trapOf codeIllegalType)
  else if rd = rs || rgRows D.img ≠ rgRows S.img || rgCols D.img ≠ rgCols S.img
      || rgCols D.img % (32 * 2 ^ order.toNat) ≠ 0
      || (typeBx fd && (!(rgTscale D.img).isFinite || (rgTscale D.img).isZero)) then some (trapOf codeRegRange)
  else s.leaseCheck

def mhadIssue (before : CPoint) (rd rs : Fin 16) (order sign : BitVec 2) (s : State) : Res :=
  s.cEntry <|
    .ofTrap (s.mhadCheck rd rs order) <|
      if (s.ring rd).full then .block .other id
      else
        let slot := (s.ring rd).resv
        ((s.modRing rd Ring.reserve).stepWord).enqueue before (.mhad rd rs order sign) 0 [] (some (rd, slot))

/-- Bytes of the result of a drain, and of its headers (R147). -/
def drainSizes (t d : Image) : Nat × Nat :=
  (elemBytes (ddFmt d) (tlM t * tlN t), if typeBx (ddFmt d) then tlM t * tlN t / 16 else 0)

/-- Checks of `mdrain`: its descriptors cannot change before it runs, `mset` waiting for it (R140, R147). -/
def State.mdrainCheck (s : State) (t dd : Fin 16) : Option TrapReq :=
  let T := s.tile t
  let D := s.drain dd
  let G := s.ring (ddRing D.img)
  let f := ddFmt D.img
  if !T.set || !D.set || (ddToring D.img && !G.set) then some (trapOf codeIllegalType)
  else if 31 < ddShift D.img then some (trapOf codeRegRange)
  else if f = 15 || (typeBx f && tlN T.img % 32 ≠ 0) || (f = 11 && tlN T.img % 2 ≠ 0) then some (trapOf codeIllegalType)
  else if ddToring D.img then
    if rgFmt G.img ≠ f then some (trapOf codeIllegalType)
    else if rgRows G.img ≠ tlM T.img || rgCols G.img ≠ tlN T.img then some (trapOf codeRegRange)
    else none
  else
    (poolCheck s.part (ddDst D.img) (drainSizes T.img D.img).1 64).orElse fun _ =>
      if typeBx f then poolCheck s.part (ddDsbase D.img) (drainSizes T.img D.img).2 2 else none

/-! ### What the array does without chunks (R143, R147, R148, R150, R151) -/

/-- The end of one of those actions. -/
inductive Acted where
  | did (s : State)
  /-- not yet; the state may note a request -/
  | waits (s : State)
  | trap (t : TrapReq) (s : State)

/-- The banks of slot `q` of a ring, in an allotment that begins at `org`. -/
def slotBanks (org : Nat) (r : Image) (q : Nat) : List Nat :=
  banksOf (org + slotOff r q) (elemBytes (rgFmt r) (rgRows r * rgCols r))
    ++ (if typeBx (rgFmt r) then banksOf (org + slotHdr r q) (rgRows r * rgCols r / 16) else [])

/-- A reservation of C's is given back: later ones move down, and a transfer that holds one fills the slot it moves to from the
beginning, under that slot's locks (log 26). -/
def State.withdraw (s : State) (q : Fin 16 × Nat) : State :=
  let org := s.crew.org
  let img := (s.ring q.1).img
  let moves (x : Xfer) : Bool := match x.slot with
    | some p => p.1 = q.1 && q.2 < p.2
    | none => false
  let to_ (x : Xfer) : Nat := (x.slot.map Prod.snd).getD 0 - 1
  let shift (x : Xfer) : Xfer :=
    if moves x then
      { x with slot := some (q.1, to_ x), dst := org + slotOff img (to_ x), hdr := org + slotHdr img (to_ x), put := [],
               moved := none }
    else x
  let shiftH (h : HeldSlot) : HeldSlot := if h.ring = q.1 && q.2 < h.slot then { h with slot := h.slot - 1 } else h
  let s := ((s.crew.lq ++ s.crew.sq).filter moves).foldl (fun s x =>
    s.modHere fun c => (c.unlock x.id).lock x.id (slotBanks org img (to_ x))) s
  (s.modRing q.1 fun r => { r with resv := r.resv - 1, recs := r.recs.filter fun e => !(e.1 == q.2) }).modCrew fun c =>
    { c with lq := c.lq.map shift, sq := c.sq.map shift, heldL := c.heldL.map shiftH, heldS := c.heldS.map shiftH }

/-- Every matrix word in flight is abandoned: no head moves, its locks and its reservation go (R144, R69). -/
def State.dropMatrix (s : State) : State :=
  let ms := s.crew.mq
  let s := ms.reverse.foldl (fun s m => match m.slot with
    | some q => s.withdraw q
    | none => s) s
  let s := s.modHere fun c => ms.foldl (fun c m => c.unlock m.id) c
  s.modCrew fun c => { c with mq := [] }

/-- The first uncorrectable word of a tile's accumulators, and with `sums` of its checksums (R303). -/
def State.tileBad (s : State) (t : Tile) (sums : Bool) : Option Nat :=
  let n := if sums then tlBytes t.img / 4 else tlM t.img * tlN t.img
  ((List.range n).find? fun i => s.here.poolBad (s.crew.org + tlBase t.img + 4 * i) 4).map fun i => tlBase t.img + 4 * i

/-- The words of a tile's storage. -/
def State.tileWords (s : State) (t : Tile) : List Nat :=
  (List.range (tlBytes t.img / 4)).map fun i => leNat (memGets s.here.pool (s.crew.org + tlBase t.img + 4 * i) 4)

/-- The comparison of a drain or an `mchk` (R223), which reads the checksums where they are complete (R303): the status, and ACC_CHECK,
for which the failing tag becomes the crew's check tag and every later word of C's in flight is abandoned (R148, R224). -/
def State.compare (s : State) (t : Fin 16) (k : State → Acted) : Acted :=
  let T := s.tile t
  if !T.complete then k (s.modTile t fun T => { T with tag := tagSet T.tag 130 129 3 })
  else if let some off := s.tileBad T true then .trap (trapAt codePoolEcc off) s.dropMatrix
  else if checksumsOk (tlAcc T.img) (tlM T.img) (tlN T.img) (s.tileWords T) then
    k (s.modTile t fun T => { T with tag := tagSet T.tag 130 129 1 })
  else
    let s := s.modTile t fun T => { T with tag := tagSet T.tag 130 129 2 }
    .trap (trapOf codeAccCheck) ((s.modCrew fun c =>
      { c with check := { img := (s.tile t).tag, valid := true, tile := t, used := false } }).dropMatrix)

/-- `mdrain` at its turn: where the result goes, the comparison, the bytes, then the tag (R147, R37 to R39). -/
def State.actDrain (s : State) (m : MatCmd) (t dd : Fin 16) : Acted :=
  let T := s.tile t
  let D := s.drain dd
  let sizes := drainSizes T.img D.img
  let dst := match m.slot with
    | some q => (slotOff (s.ring q.1).img q.2, slotHdr (s.ring q.1).img q.2)
    | none => (ddDst D.img, ddDsbase D.img)
  let org := s.crew.org
  let inTurn := match m.slot with
    | some q => (s.ring q.1).tail = q.2
    | none => true
  if !inTurn || !s.here.banksFree m.id (s.tileBanks t ++ banksOf (org + dst.1) sizes.1 ++ banksOf (org + dst.2) sizes.2) then
    .waits s
  else if let some off := s.tileBad T false then .trap (trapAt codePoolEcc off) s.dropMatrix
  else
    s.compare t fun s =>
      let ws := (s.tileWords T).take (tlM T.img * tlN T.img)
      let b := drainBytes D.img (tlAcc T.img) ws
      let s := s.modHere fun c => (c.poolWrite (org + dst.1) b.1).poolWrite (org + dst.2) b.2.1
      let s := s.modTile t fun T =>
        let old := decodeFloat 0 (field T.tag.toNat 407 376)
        let new := drainAmax (tlAcc T.img) ws
        { T with
          tag := tagSet (tagCount T.tag b.2.2) 407 376 (roundTo 0 (if old.lt new then new else old))
          replay := T.replay.finish }
      .did (match m.slot with
        | some q => s.modRing q.1 Ring.fill
        | none => s)

/-- 64 bytes written to the pool by `mtag` (R148). -/
def State.actTag (s : State) (m : MatCmd) (banks : List Nat) (img : Image) : Acted :=
  if !s.here.banksFree m.id (banks ++ banksOf (s.crew.org + m.addr) 64) then .waits s
  else .did (s.modHere fun c => c.poolWrite (s.crew.org + m.addr) (natLe 64 img.toNat))

/-- The words that run no chunk, at their turn in C's order. -/
def State.act (s : State) (m : MatCmd) : Acted :=
  match m.op with
  | .mma .. | .mhad .. => .waits s
  | .mzero mask =>
    let ts := maskTiles mask
    if !s.here.banksFree m.id (ts.flatMap s.tileBanks) then .waits s else .did (ts.foldl State.zeroTile s)
  | .mdrain t dd => s.actDrain m t dd
  | .mtag t => s.actTag m (s.tileBanks t) (s.tile t).tag
  | .mtagChk => s.actTag m [] (if s.crew.check.valid then s.crew.check.img else 0)
  | .mchk t => if !s.here.banksFree m.id (s.tileBanks t) then .waits s else s.compare t .did
  | .pop rg => if (s.ring rg).ready 1 then .did (s.modRing rg (Ring.consume 1)) else .waits s
  | .mlease => if s.crew.lease.usable then .did s else .waits s.requestLease
  | .mfree =>
    .did (if s.crew.lease.usable then
      s.modCrew fun c => { c with lease := { c.lease with ending := some s.cycle } } else s)

/-- C goes back to a matrix word that traps in the array: the tokens that it and later words popped return and leave the credits, held
pushes from it on go, and C stands with the a-registers, loops, bases and `rep` that it had before it (R19, R59; log 58). A push of a
later word that has been performed by then, as R180 lets it be where this word pushes nothing, stays in its queue (DESIGN CHOICE,
log 58). -/
def State.atWord (s : State) (m : MatCmd) : State :=
  s.modCrew fun c =>
    let p := m.before
    let c := (c.modQueue (popQueueP .c) (Queue.giveBack (c.creditL.drop p.creditL))).modQueue (popQueueN .c)
      (Queue.giveBack (c.creditS.drop p.creditS))
    { c with
      creditL := c.creditL.take p.creditL, creditS := c.creditS.take p.creditS
      aC := p.a, vbase := p.vbase, pbase := p.pbase, rep := p.rep, repRun := none
      seqC := { c.seqC with pc := m.pc, loops := p.loops, held := c.seqC.held.filter fun h => h.at_ < m.id, trapDue := none } }

/-- A word that runs no chunk, at issue: it takes effect at once when nothing of C's is before it and it can. -/
def State.issueAct (s : State) (before : CPoint) (op : MatOp) (addr : Nat) (slot : Option (Fin 16 × Nat)) : Res :=
  let m : MatCmd := { id := s.serial, op := op, pc := s.pc, before := before, addr := addr, glist := [], slot := slot, stocked := s.stocked op,
                      done := 0, chunk := none, wants := false, start := 0, ends := 0, clean := true }
  if s.crew.mq.isEmpty then
    match s.act m with
    | .did s => .done s
    | .waits s => s.enqueue before op addr [] slot
    | .trap t u => .trapLeaving t ((match slot with
      | some q => u.withdraw q
      | none => u).atWord m)
  else s.enqueue before op addr [] slot

/-! ### Chunks (R144 to R146) -/

/-- The pool ranges of an operand's rows in a chunk: elements, and headers for BX (R136). -/
def operandSpans (r : Image) (q k0 : Nat) (rows : List Nat) : List (Nat × Nat) :=
  rows.flatMap fun i =>
    if i < rgRows r then
      rowSpan r q i k0 :: (if typeBx (rgFmt r) then [(rowHdr r q i k0, 2)] else [])
    else []

/-- Operands that another agent holds locked. -/
def State.spansLocked (s : State) (id : Nat) (l : List (Nat × Nat)) : Bool :=
  l.any fun p => s.here.lockedFor (some id) (s.crew.org + p.1) p.2

/-- The first uncorrectable operand range. -/
def State.spansBad (s : State) (l : List (Nat × Nat)) : Option Nat :=
  (l.find? fun p => s.here.poolBad (s.crew.org + p.1) p.2).map fun p => p.1

/-- A trap at a matrix word that C issued earlier, in the state `u` that abandoning C's matrix words leaves: C stops at that word. A C
that is held in a trap is served first. -/
def State.arrayTrap (s : State) (m : MatCmd) (t : TrapReq) (u : State) : State :=
  if s.seq.status = .trapped then s else raise t (u.atWord m)

/-- The head of the queue replaced. -/
def State.setHead (s : State) (m : MatCmd) : State := s.modCrew fun c => { c with mq := m :: c.mq.tail }

/-- The head of the queue retires: its locks are released (R138). -/
def State.retireHead (s : State) (m : MatCmd) : State :=
  (s.modHere fun c => c.unlock m.id).modCrew fun c => { c with mq := c.mq.tail }

/-- The lease may start a chunk now: it is held, its gate has passed (R213), and best-effort quanta are not withheld
(R331). -/
def State.mayChunk (s : State) : Bool :=
  let l := s.crew.lease
  l.usable && l.gate.isEmpty && (l.contracted || !s.npu.withheldQuanta)

/-- The rows of an operand of a chunk with their counts; `none` where `mmag` names no row (R145). -/
def State.operand (s : State) (r : Ring) (f g : Nat) (rows : List Nat) : List (Option (List FV)) × ConvRec :=
  let q := r.head + g / rgCols r.img
  let l := rows.map fun i =>
    if i < rgRows r.img then
      let v := operandRow s.here.pool s.crew.org r.img f q i (g % rgCols r.img)
      (some v.1, v.2)
    else (none, countNone)
  (l.map fun x => x.1, l.foldl (fun a x => a.plus x.2) countNone)

/-- The places of the block headers that a chunk reads of an operand and that hold a NaN scale (R27). -/
def State.nanBlocks (s : State) (r : Ring) (g : Nat) (rows : List Nat) : List Nat :=
  if !typeBx (rgFmt r.img) then []
  else
    let at_ (i : Nat) : Nat := s.crew.org + rowHdr r.img (r.head + g / rgCols r.img) i (g % rgCols r.img)
    ((rows.filter fun i => i < rgRows r.img).map at_).filter fun a => bxNanHeader (leNat (memGets s.here.pool a 2))

/-- The quanta of a chunk in progress, and the share it keeps (R215, R217). -/
def Lease.chunk (l : Lease) (work : Nat) : Chunk := { left := work, share := if l.contracted then some l.share else none }

/-- One chunk of `mma` or `mmag`: operands, accumulators, checksums and tag (R144). The operands are correctable and no
bank is locked. -/
def State.runChunk (s : State) (m : MatCmd) (gather : Bool) (t ra rb : Fin 16) (ov ck : Bool) : State :=
  let T := s.tile t
  let A := s.ring ra
  let B := s.ring rb
  let begins := m.done = 0 && (ov || T.fresh)
  let T := if m.done = 0 && ov then T.begin_ s.crew.ctx (s.cycle / 1024) false else { T with fresh := false }
  let r := T.replay.enter begins
  let p := s.chunkPlan (if r.armed && r.begun then governing r.trail r.count else none) (rgFmt A.img) (rgFmt B.img)
  let rowsA := if gather then m.glist else List.range (tlM T.img)
  let a := s.operand A p.fa (32 * m.done) rowsA
  let b := s.operand B p.fb (32 * m.done) (List.range (tlN T.img))
  let bad := (s.nanBlocks A (32 * m.done) rowsA ++ s.nanBlocks B (32 * m.done) (List.range (tlN T.img))).dedup
  let w := chunkWords (chunkKind (tlAcc T.img) p.fa p.fb) (ov && m.done = 0) ck a.1 (b.1.map fun x => x.getD [])
    (s.tileWords T) fun i => Config.freeNat 32 (s.tick * 2 ^ 17 + i) % 2 ^ 32
  let counts := (a.2.plus b.2).plus { sat := 0, flush := 0, nfin := w.2 + bad.length }
  let work := tlM T.img * tlN T.img * 32 * chunkQuanta p.fa p.fb
  let l := s.crew.lease
  let written := if ck then w.1 else w.1.take (tlM T.img * tlN T.img)
  let s := s.modHere fun c => c.poolWrite (s.crew.org + tlBase T.img) (written.flatMap (natLe 4))
  let s := s.modTile t fun _ =>
    { T with
      tag := tagCount (tagChunk T.tag p T.chunks) counts
      complete := T.complete && ck
      chunks := T.chunks + 1
      replay := r.advance 1 }
  s.setHead
    { m with
      done := m.done + 1
      start := if m.done = 0 then s.cycle else m.start
      chunk := some (l.chunk work)
      clean := m.clean && l.contracted && !p.rpl }

/-- A contracted word of the reference shape that follows no trail (R219). -/
def State.isReference (s : State) (m : MatCmd) (t : Fin 16) (n : Nat) : Bool :=
  let ct := (s.ctx s.crew.ctx).contract
  m.clean && ctValid ct && tlM (s.tile t).img = ctM ct && tlN (s.tile t).img = ctN ct && 32 * n = ctK ct

/-- R219 holds of the word, and its first chunk has started: nothing else delays its later chunks. -/
def State.promised (s : State) (m : MatCmd) (t : Fin 16) (n : Nat) : Bool :=
  0 < m.done && m.stocked && s.crew.lease.contracted && s.isReference m t n

/-- The word of the reference shape joins what the Shutter reports; a negative margin is recorded (R333, R334). -/
def State.measure (s : State) (m : MatCmd) (t : Fin 16) (n lat : Nat) : State :=
  if s.isReference m t n then
    let margin : Int := (ctL (s.ctx s.crew.ctx).contract : Int) - (lat : Int)
    let s := s.modNpu fun d => { d with measured := d.measured ++ [(s.crew.ctx, s.cur.core, margin)] }
    if margin < 0 then
      s.faultRecord { kind := 4, code := 0, ctx := s.crew.ctx, core := s.cur.core, crew := s.cur.crew, stream := .c,
                      pc := 0, addr := 0 }
    else s
  else s

/-- `mma` and `mmag` retire: `lat`, the records of the popped slots, the heads (R144, R220). -/
def State.retireMma (s : State) (m : MatCmd) (t ra rb : Fin 16) (n : Nat) : State :=
  let sa := 32 * n / rgCols (s.ring ra).img
  let sb := 32 * n / rgCols (s.ring rb).img
  let lat := Min.min (m.ends - m.start) (2 ^ 24 - 1)
  let recs := if ra = rb then (s.ring ra).records sa else ((s.ring ra).records sa).plus ((s.ring rb).records sb)
  let s := s.modTile t fun T => { T with tag := tagCount (tagSet T.tag 463 440 lat) recs }
  let s := s.modRing ra (Ring.consume sa)
  let s := if rb = ra then s else s.modRing rb (Ring.consume sb)
  (s.measure m t n lat).retireHead m

/-- A chunk of `mma` or `mmag` starts when its lease, its slots, its banks and its operands are there. It consumes the accumulators
unless it overwrites them (R303). The later chunks of a word that R219 makes its promise of wait for no bank that another holds locked
(log 16). -/
def State.chunkMma (s : State) (m : MatCmd) (gather : Bool) (t ra rb : Fin 16) (n : Nat) (ov ck : Bool) : State :=
  let A := s.ring ra
  let B := s.ring rb
  let g := 32 * m.done
  let spans := operandSpans A.img (A.head + g / rgCols A.img) (g % rgCols A.img)
      (if gather then m.glist else List.range (tlM (s.tile t).img))
    ++ operandSpans B.img (B.head + g / rgCols B.img) (g % rgCols B.img) (List.range (tlN (s.tile t).img))
  if !s.mayChunk || !A.ready (32 * n / rgCols A.img) || !B.ready (32 * n / rgCols B.img)
      || !s.here.banksFree m.id (s.tileBanks t) || (!s.promised m t n && s.spansLocked m.id spans) then s.requestLease
  else match (s.spansBad spans).orElse fun _ => if ov && m.done = 0 then none else s.tileBad (s.tile t) ck with
    | some off => s.arrayTrap m (trapAt codePoolEcc off) s.dropMatrix
    | none =>
      (if m.done = 0 then s.modHere (fun c => c.lock m.id (s.tileBanks t)) else s).runChunk m gather t ra rb ov ck

/-- The pass of `mhad`: every row of the source slot, in groups of the order, into the reserved slot (R146). A block whose scale is a
NaN counts in the destination slot's record, the pass having no consuming tile (R27; DEDUCED, log 60). -/
def State.chunkHad (s : State) (m : MatCmd) (rd rs : Fin 16) (order sign : BitVec 2) (slot : Nat) : State :=
  let S := s.ring rs
  let D := s.ring rd
  let rows := List.range (rgRows S.img)
  let cols := (List.range (rgCols S.img / 32)).map fun k => 32 * k
  let spans := cols.flatMap fun k0 => operandSpans S.img S.head k0 rows
  let org := s.crew.org
  let elems := elemBytes (rgFmt D.img) (rgRows D.img * rgCols D.img)
  let hdrs := if typeBx (rgFmt D.img) then rgRows D.img * rgCols D.img / 16 else 0
  if !s.mayChunk || !S.ready 1 || s.spansLocked m.id spans
      || !s.here.banksFree m.id (banksOf (org + slotOff D.img slot) elems ++ banksOf (org + slotHdr D.img slot) hdrs) then
    s.requestLease
  else match s.spansBad spans with
    | some off => s.arrayTrap m (trapAt codePoolEcc off) s.dropMatrix
    | none =>
      let n := 32 * 2 ^ order.toNat
      let read := rows.map fun i => cols.map fun k0 => readRow s.here.pool org S.img S.head i k0
      let bad := (read.flatten.filter fun x => x.2).length
      let ys := (read.map fun r => hadRow sign.toNat n (r.flatMap fun x => x.1) (rgCols S.img)).flatten
      let b := slotBytes D.img ys
      let rec_ := b.2.2.plus { sat := 0, flush := 0, nfin := bad }
      let work := rgRows S.img * rgCols S.img * n * chunkQuanta (rgFmt S.img) (rgFmt S.img)
      let s := s.modHere fun c =>
        (c.poolWrite (org + slotOff D.img slot) b.1).poolWrite (org + slotHdr D.img slot) b.2.1
      let s := s.modRing rd fun r => { r with recs := r.recs ++ [(slot, rec_)] }
      s.setHead { m with done := 1, start := s.cycle, chunk := some (s.crew.lease.chunk work) }

/-- `mhad` retires, its slot's turn having come: the source's head and the destination's tail advance (R146). Counts in the record of
the slot it pops go to no tile, `mhad` having none, and are dropped (R41, R137; DEDUCED, log 60). -/
def State.retireHad (s : State) (m : MatCmd) (rd rs : Fin 16) (slot : Nat) : State :=
  if (s.ring rd).tail = slot then
    ((s.modRing rs (Ring.consume 1)).modRing rd Ring.fill).retireHead m
  else s

/-- Words without chunks at the head of the queue take effect in order, as far as they can. -/
def State.drainQueue (s : State) : Nat → State
  | 0 => s
  | n + 1 =>
    match s.crew.mq with
    | [] => s
    | m :: _ =>
      match s.act m with
      | .did s => (s.retireHead m).drainQueue n
      | .waits s => s
      | .trap t u => s.arrayTrap m t u

/-- The next chunk of the word at the head of the queue starts, if it can. -/
def State.startChunk (s : State) (m : MatCmd) : State :=
  match m.op with
  | .mma gather t ra rb n ov ck => s.chunkMma m gather t ra rb n ov ck
  | .mhad rd rs order sign => s.chunkHad m rd rs order sign ((m.slot.map Prod.snd).getD 0)
  | .mdrain .. | .mzero _ | .mtag _ | .mtagChk | .mchk _ | .pop _ | .mlease | .mfree => s

/-- The chunks of a matrix word: those of `mma` and `mmag`, and the one pass of `mhad`. -/
def MatOp.chunks : MatOp → Nat
  | .mma _ _ _ _ n _ _ => n
  | .mhad .. => 1
  | .mdrain .. | .mzero _ | .mtag _ | .mtagChk | .mchk _ | .pop _ | .mlease | .mfree => 0

/-- The array's turn for a crew: a chunk in progress is left alone; the head of the queue starts its next chunk, or is ready
for quanta where its lease is best-effort (R215), or retires after its last; the words without chunks behind it follow. -/
def State.arrayTurn (s : State) : State :=
  match s.crew.mq with
  | [] => s
  | m :: _ =>
    if m.chunk.isSome then s
    else if m.done < m.op.chunks then
      (if s.crew.lease.usable && !s.crew.lease.contracted then s.setHead { m with wants := true } else s.startChunk m)
    else match m.op with
      | .mma _ t ra rb n _ _ => (s.retireMma m t ra rb n).drainQueue 16
      | .mhad rd rs _ _ => (s.retireHad m rd rs ((m.slot.map Prod.snd).getD 0)).drainQueue 16
      | .mdrain .. | .mzero _ | .mtag _ | .mtagChk | .mchk _ | .pop _ | .mlease | .mfree => s.drainQueue 16

/-! ### The quanta of a clock (R215, R217, R219) -/

/-- The array of a core turns to a crew. -/
def State.atCrew (s : State) (core : CoreId) (k : CrewIx) (f : State → State) : State :=
  { (f (s.actAs core k .c)) with cur := s.cur }

/-- The chunk in progress of a crew. -/
def Crew.chunkNow (c : Crew) : Option Chunk :=
  match c.mq with
  | m :: _ => m.chunk
  | [] => none

/-- Quanta given to the chunk in progress of a crew. -/
def Crew.give (c : Crew) (n : Nat) : Crew :=
  { c with mq := match c.mq with
    | m :: rest => { m with chunk := m.chunk.map fun h => { h with left := h.left - n } } :: rest
    | [] => [] }

/-- What goes on without waiting: the next chunk of a contracted word that has started (R219), and the retirement of such a
word within 32 clk of its last chunk's end. -/
def Crew.mustGoOn (c : Crew) (cycle : Nat) : Bool :=
  match c.mq with
  | m :: _ => m.chunk.isNone && 0 < m.done && c.lease.contracted
      && (if m.done < m.op.chunks then c.lease.usable else m.clean && m.ends + 31 ≤ cycle)
  | [] => false

/-- A best-effort chunk is ready to start. -/
def Crew.readyBest (c : Crew) : Bool :=
  match c.mq with
  | m :: _ => m.chunk.isNone && m.done < m.op.chunks && (m.wants || 0 < m.done) && c.lease.usable && !c.lease.contracted
  | [] => false

/-- The chunks of a contracted word of the reference shape, each rounded up to whole clocks, would pass L at some rung of its ladder: they
are counted together at every rung, so that the word's quanta of a clock go on to its next chunk, be it at another rung (R215, R219;
log 16). -/
def State.runsOn (s : State) (m : MatCmd) : Bool :=
  match m.op with
  | .mma _ t _ _ n _ _ =>
    let l := s.crew.lease
    let ct := (s.ctx s.crew.ctx).contract
    s.isReference m t n && l.usable && l.contracted && m.done < n
      && (List.range (ctNrung ct + 1)).any fun r => ctL ct < n * ceilDiv (ctM ct * ctN ct * 32 * quanta (ctRung ct r)) (demand ct r)
  | .mhad .. | .mdrain .. | .mzero _ | .mtag _ | .mtagChk | .mchk _ | .pop _ | .mlease | .mfree => false

/-- Quanta of its own for the crew's chunk in progress, and, where its word's chunks are counted together, what is over for the next. -/
def State.giveOwn (s : State) : Nat → Nat → State
  | 0, n => s.modCrew fun c => c.give n
  | k + 1, n =>
    match s.crew.mq, s.crew.chunkNow with
    | m :: _, some h =>
      if n ≤ h.left || !s.runsOn m then s.modCrew fun c => c.give n
      else
        let m : MatCmd := { m with chunk := none, ends := s.cycle + 1 }
        ((s.setHead m).startChunk m).giveOwn k (ceilDiv ((n - h.left) * s.crew.lease.share) (h.share.getD 1))
    | _, _ => s

/-- Steps 1 and 2 of R215 for one crew, with the quanta that are left: a chunk with a share of its own uses it whole, also where shares
kept over a boundary come to more than the array's quanta (R217, R219; log 16); a best-effort one uses its lease's equal part, of which
there is never more than an equal part of what the former leave. -/
def State.ownQuanta (s : State) (core : CoreId) (fixed : Bool) (part : Nat) (rest : Nat) (k : CrewIx) : State × Nat :=
  let c := s.crewAt core k
  match c.chunkNow with
  | none => (s, rest)
  | some h =>
    if h.share.isSome ≠ fixed then (s, rest)
    else
      let n := h.share.getD (Min.min (Min.min c.lease.share part) rest)
      (s.atCrew core k fun s => s.giveOwn 256 n, rest - n)

/-- Step 3 of R215 for one crew: a best-effort chunk in progress, or one ready to start, takes what it still needs of the
quanta left over. -/
def State.takeExcess (core : CoreId) (acc : State × Nat) (k : CrewIx) : State × Nat :=
  let s := acc.1
  let s := if 0 < acc.2 && (s.crewAt core k).readyBest then
      s.atCrew core k fun s => match s.crew.mq with
        | m :: _ => s.startChunk m
        | [] => s
    else s
  match (s.crewAt core k).chunkNow with
  | some h =>
    if h.share.isSome then (s, acc.2)
    else
      let n := Min.min h.left acc.2
      (s.modCrewAt core k fun c => c.give n, acc.2 - n)
  | none => (s, acc.2)

/-- A chunk that has all its quanta ends with this clock. -/
def Crew.endChunk (cycle : Nat) (c : Crew) : Crew :=
  { c with mq := match c.mq with
    | m :: rest =>
      (if (m.chunk.map Chunk.left) = some 0 then { m with chunk := none, ends := cycle + 1 } else m) :: rest
    | [] => [] }

/-- A CLOCK OF A CORE'S ARRAY: contracted words go on, its 262,144 quanta are given (R215) and best-effort leases get none that are
withheld (R331), chunks that have them end, and gates open
for leases whose narrowed neighbours have reached a chunk boundary (R213). -/
def State.arrayClock (s : State) (core : CoreId) : State :=
  if crewIxs.all fun k => (s.crewAt core k).mq.isEmpty then s
  else
    let withheld := s.npu.withheldQuanta
    let s := crewIxs.foldl (fun s k =>
      if (s.crewAt core k).mustGoOn s.cycle then s.atCrew core k State.arrayTurn else s) s
    let own := crewIxs.foldl (fun a k => a.1.ownQuanta core true 0 a.2 k) (s, arrayQuanta)
    let nbest := (crewIxs.filter fun k => (s.crewAt core k).lease.held && !(s.crewAt core k).lease.contracted).length
    let part := own.2 / nbest / 256 * 256
    let s := if withheld then own.1
      else (crewIxs.foldl (State.takeExcess core) (crewIxs.foldl (fun a k => a.1.ownQuanta core false part a.2 k) own)).1
    let cycle := s.cycle
    let s := s.modCore core fun c => { c with crews := c.crews.map (Crew.endChunk cycle) }
    s.modCore core fun c => { c with crews := c.crews.map fun w =>
      { w with lease := { w.lease with gate := w.lease.gate.filter fun k => (c.crew k).chunking } } }

def execMatrixChunk (core : CoreId) (crew : CrewIx) (s : State) : Host.Outcome State Fault Refusal :=
  .next ({ s with cur := { core := core, crew := crew, role := .c } }).arrayTurn

/-! ### `mset` (R142) -/

/-- The must-be-0 bits of an image (Tables 7.1 to 7.3). -/
def reservedBits (cls : MClass) (img : Nat) : Bool :=
  match cls with
  | .ring => field img 511 160 ≠ 0 || field img 127 127 ≠ 0 || field img 103 103 ≠ 0 || field img 63 60 ≠ 0
      || field img 55 55 ≠ 0 || field img 47 47 ≠ 0 || field img 23 23 ≠ 0
  | .tile => field img 511 52 ≠ 0 || field img 31 23 ≠ 0
  | .drain => field img 511 136 ≠ 0 || field img 63 63 ≠ 0 || field img 39 36 ≠ 0 || field img 31 29 ≠ 0
      || field img 23 23 ≠ 0

/-- The place and the stored value of a field from its natural value; `none` outside its natural range. -/
def fieldValue (cls : MClass) (f v : Nat) : Option (Nat × Nat × Nat) :=
  let raw (hi lo : Nat) : Option (Nat × Nat × Nat) := if v < 2 ^ (hi + 1 - lo) then some (hi, lo, v) else none
  let less1 (hi lo : Nat) : Option (Nat × Nat × Nat) := if 1 ≤ v && v ≤ 256 then some (hi, lo, v - 1) else none
  match cls, f with
  | .ring, 0 => raw 22 0
  | .ring, 1 => raw 46 24
  | .ring, 2 => if 2 ≤ v && v ≤ 64 then some (54, 48, v) else none
  | .ring, 3 => raw 59 56
  | .ring, 4 => less1 71 64
  | .ring, 5 => if 1 ≤ v && v ≤ 8192 && v % 32 = 0 then some (79, 72, v / 32 - 1) else none
  | .ring, 6 => raw 102 80
  | .ring, 7 => raw 126 104
  | .ring, 8 => raw 159 128
  | .tile, 0 => raw 22 0
  | .tile, 1 => less1 39 32
  | .tile, 2 => less1 47 40
  | .tile, 3 => raw 51 48
  | .drain, 0 => raw 22 0
  | .drain, 1 => raw 28 24
  | .drain, 2 => raw 35 32
  | .drain, 3 => raw 62 40
  | .drain, 4 => raw 95 64
  | .drain, 5 =>
    let i := sext v 48
    if -(2 ^ 31 : Int) ≤ i && i < 2 ^ 31 then some (127, 96, intCode 32 i) else none
  | .drain, 6 => raw 135 128
  | _, _ => none

/-- The ranges of a descriptor in the pool: offset and length (R136, R138). -/
def descRanges (cls : MClass) (d : Image) : List (Nat × Nat) :=
  match cls with
  | .ring => (rgBase d, rgNslot d * rgSsize d)
      :: (if typeBx (rgFmt d) then [(rgSbase d, rgNslot d * (rgRows d * rgCols d / 16))] else [])
  | .tile => [(tlBase d, tlBytes d)]
  | .drain => []

/-- The offsets of a descriptor and the alignment each must have (R136, R138, R139). -/
def descAligns (cls : MClass) (d : Image) : List (Nat × Nat) :=
  match cls with
  | .ring => [(rgBase d, 64), (rgSsize d, 64), (rgSbase d, 2), (rgGlist d, 2)]
  | .tile => [(tlBase d, 64)]
  | .drain => [(ddDst d, 64)]

/-- A range lies in the partitions it must lie in: S or A, and A alone for a tile. -/
def rangeInPart (cls : MClass) (part : XWord) (p : Nat × Nat) : Bool :=
  (if cls = .tile then aBegin part else sBegin part) ≤ p.1 && p.1 + p.2 ≤ allotEnd part

/-- The checks of a new image, in the order of R142. -/
def descCheck (cls : MClass) (part : XWord) (d : Image) : Option TrapReq :=
  if cls = .ring && (rgNslot d < 2 || 64 < rgNslot d) then some (trapOf codeRegRange)
  else if (cls = .ring && rgFmt d = 15) || (cls = .tile && tlAcc d ≠ 0 && tlAcc d ≠ 8) then some (trapOf codeIllegalType)
  else if cls = .ring && rgSsize d * 8 < rgRows d * rgCols d * typeWidth (rgFmt d) then some (trapOf codeRegRange)
  else match (descAligns cls d).find? fun p => p.1 % p.2 ≠ 0 with
    | some p => some (trapAt codeAlign p.1)
    | none => match (descRanges cls d).find? fun p => 2 ^ 23 < p.1 + p.2 with
      | some p => some (trapAt codePoolRange p.1)
      | none => match (descRanges cls d).find? fun p => !rangeInPart cls part p with
        | some p => some (trapAt codePoolPart p.1)
        | none => none

/-- The image held by a descriptor, if it is set. -/
def State.descriptor (s : State) (cls : MClass) (i : Fin 16) : Option Image :=
  match cls with
  | .ring => if (s.ring i).set then some (s.ring i).img else none
  | .tile => if (s.tile i).set then some (s.tile i).img else none
  | .drain => if (s.drain i).set then some (s.drain i).img else none

/-- The descriptor takes its new image; `keeps` is a ring's `tscale` alone (R142). -/
def State.setDescriptor (s : State) (cls : MClass) (i : Fin 16) (d : Image) (keeps : Bool) : State :=
  match cls with
  | .ring => s.modRing i fun r => if keeps then { r with img := d } else { r.zeroed with img := d, set := true }
  | .tile => s.modTile i fun t => { t.begin_ s.crew.ctx (s.cycle / 1024) true with img := d, set := true }
  | .drain => s.modCrew fun c => { c with drains := c.drains.set i { img := d, set := true } }

/-- The end of `mset` once the new image is known. -/
def State.msetTo (s : State) (cls : MClass) (i : Fin 16) (d : Image) (keeps : Bool) : Res :=
  .ofTrap (descCheck cls s.part d) <|
    if cls = .ring && !keeps && s.crew.ringNamed i then .block .other id
    else .done (s.setDescriptor cls i d keeps)

/-- C takes a matrix word that acts at issue: after every earlier one has retired (R140). -/
def State.afterArray (s : State) (k : Res) : Res := if s.crew.mq.isEmpty then k else .block .other id

def execMsetImage (tk : Tok) (cls : MClass) (idx : Fin 16) (aS : AReg) (s : State) : Host.Outcome State Fault Refusal :=
  runWord tk [refA aS] s fun s =>
    s.afterArray <|
      s.globalLoad ((s.getA aS).zeroExtend 64) 64 fun b s =>
        if reservedBits cls (leNat b) then .trap (trapOf codeRegRange)
        else s.msetTo cls idx (BitVec.ofNat 512 (leNat b)) false

def execMsetField (tk : Tok) (cls : MClass) (idx : Fin 16) (field : BitVec 4) (aS : AReg) (s : State) :
    Host.Outcome State Fault Refusal :=
  runWord tk [refA aS] s fun s =>
    s.afterArray <|
      match s.descriptor cls idx with
      | none => .trap (trapOf codeIllegalType)
      | some d => match fieldValue cls field.toNat (s.getA aS).toNat with
        | none => .trap (trapOf codeRegRange)
        | some p => s.msetTo cls idx (BitVec.ofNat 512 (setField d.toNat p.1 p.2.1 p.2.2)) (cls = .ring && field = 8)

/-! ### The other words -/

def execMlease (tk : Tok) (s : State) : Host.Outcome State Fault Refusal :=
  let p := s.cPoint
  runWord tk [] s fun s =>
    s.cEntry <|
      if partNa s.part < 6 then .trap (trapOf codePoolPart)
      else s.requestLease.issueAct p .mlease 0 none

def execMfree (tk : Tok) (s : State) : Host.Outcome State Fault Refusal :=
  let p := s.cPoint
  runWord tk [] s fun s => s.cEntry (s.issueAct p .mfree 0 none)

/-- `mzero`: every named tile must be set; a mask of zero retires at once (R143). -/
def execMzero (tk : Tok) (mask : BitVec 16) (s : State) : Host.Outcome State Fault Refusal :=
  let p := s.cPoint
  runWord tk [] s fun s =>
    if mask = 0 then .done s
    else s.cEntry <|
      if (maskTiles mask).any fun i => !(s.tile i).set then .trap (trapOf codeIllegalType)
      else s.issueAct p (.mzero mask) 0 none

def execMma (tk : Tok) (t ra rb : Fin 16) (n : BitVec 8) (ov ck : Bool) (s : State) :
    Host.Outcome State Fault Refusal :=
  let p := s.cPoint
  runWord tk [] s fun s => mmaIssue p false t ra rb (n.toNat + 1) ov ck s

def execMmag (tk : Tok) (t ra rb : Fin 16) (n : BitVec 8) (ov ck : Bool) (s : State) :
    Host.Outcome State Fault Refusal :=
  let p := s.cPoint
  runWord tk [] s fun s => mmaIssue p true t ra rb (n.toNat + 1) ov ck s

def execMhad (tk : Tok) (rd rs : Fin 16) (order sign : BitVec 2) (s : State) : Host.Outcome State Fault Refusal :=
  let p := s.cPoint
  runWord tk [] s fun s => mhadIssue p rd rs order sign s

/-- `mdrain`: a drain to a ring reserves its slot at issue and waits while none is free (R137, R147). -/
def execMdrain (tk : Tok) (t dd : Fin 16) (s : State) : Host.Outcome State Fault Refusal :=
  let p := s.cPoint
  runWord tk [] s fun s =>
    s.cEntry <|
      .ofTrap (s.mdrainCheck t dd) <|
        let D := (s.drain dd).img
        if ddToring D then
          let r := s.ring (ddRing D)
          if r.full then .block .other id
          else (s.modRing (ddRing D) Ring.reserve).issueAct p (.mdrain t dd) 0 (some (ddRing D, r.resv))
        else s.issueAct p (.mdrain t dd) 0 none

def execMtag (tk : Tok) (t : Fin 16) (aP : AReg) (s : State) : Host.Outcome State Fault Refusal :=
  let p := s.cPoint
  runWord tk [refA aP] s fun s =>
    s.cEntry <|
      if !(s.tile t).set then .trap (trapOf codeIllegalType)
      else .ofTrap (poolCheck s.part (s.getA aP).toNat 64 64) (s.issueAct p (.mtag t) (s.getA aP).toNat none)

def execMtagChk (tk : Tok) (aP : AReg) (s : State) : Host.Outcome State Fault Refusal :=
  let p := s.cPoint
  runWord tk [refA aP] s fun s =>
    s.cEntry <|
      .ofTrap (poolCheck s.part (s.getA aP).toNat 64 64) (s.issueAct p .mtagChk (s.getA aP).toNat none)

/-- Arming a tile with a trail that R222 accepts (R149). -/
def State.armTrail (s : State) (t : Fin 16) (img : Image) : Res :=
  let ct := (s.ctx s.crew.ctx).contract
  if trailAllowed ct (s.crew.bestEffort ct) img then
    .done (s.modTile t fun T => { T with replay := T.replay.arm img })
  else .trap (trapOf codeRungRange)

def execMreplay (tk : Tok) (t : Fin 16) (aP : AReg) (s : State) : Host.Outcome State Fault Refusal :=
  runWord tk [refA aP] s fun s =>
    if !(s.tile t).set then .trap (trapOf codeIllegalType)
    else s.afterArray <|
      match s.poolRead (s.getA aP).toNat 64 64 with
      | .bytes b => s.armTrail t (BitVec.ofNat 512 (leNat b))
      | .locked => .block .other id
      | .trap t => .trap t

/-- `mreplay.chk`: it arms from the check tag and clears its valid bit, or leaves everything as it is (R149). -/
def execMreplayChk (tk : Tok) (t : Fin 16) (s : State) : Host.Outcome State Fault Refusal :=
  runWord tk [] s fun s =>
    if !(s.tile t).set then .trap (trapOf codeIllegalType)
    else s.afterArray <|
      let k := s.crew.check
      if k.valid && k.tile = t then
        (s.modCrew fun c => { c with check := { c.check with valid := false, used := true } }).armTrail t k.img
      else .done s

def execMchk (tk : Tok) (t : Fin 16) (s : State) : Host.Outcome State Fault Refusal :=
  let p := s.cPoint
  runWord tk [] s fun s =>
    s.cEntry (if !(s.tile t).set then .trap (trapOf codeIllegalType) else s.issueAct p (.mchk t) 0 none)

/-- `mring.reset` waits until no word that names the ring is in flight in the crew (R151). -/
def execMringReset (tk : Tok) (rg : Fin 16) (s : State) : Host.Outcome State Fault Refusal :=
  runWord tk [] s fun s =>
    if !(s.ring rg).set then .trap (trapOf codeIllegalType)
    else s.afterArray <|
      if s.crew.ringNamed rg then .block .other id else .done (s.modRing rg Ring.zeroed)

def execMringPop (tk : Tok) (rg : Fin 16) (s : State) : Host.Outcome State Fault Refusal :=
  let p := s.cPoint
  runWord tk [] s fun s =>
    s.cEntry (if !(s.ring rg).set then .trap (trapOf codeIllegalType) else s.issueAct p (.pop rg) 0 none)

/-- The state word of a ring (Table 7.4). -/
def ringWord (r : Ring) : Nat :=
  let n := rgNslot r.img
  r.rhead % n * 2 ^ 32 + r.tail % n * 2 ^ 24 + r.head % n * 2 ^ 16 + (r.resv - r.rhead) % 256 * 2 ^ 8
    + (r.tail - r.head) % 256

def execMringRead (tk : Tok) (rg : Fin 16) (aD : AReg) (s : State) : Host.Outcome State Fault Refusal :=
  runWord tk [] s fun s =>
    if !(s.ring rg).set then .trap (trapOf codeIllegalType)
    else .done (s.setA aD (BitVec.ofNat 48 (ringWord (s.ring rg))))

end Sys2Proof.Machine
end

