-- ==== Sys2Proof/Machine/XferMath.lean ====
section
/-! DEFINITION. Tensor descriptors and boxes (R152, R153), conversion by the copy engines (R154), the units that a transfer reads
and writes (R156, R188, R204) and CRC-32C (R158). -/

namespace Sys2Proof.Machine

/-! ### Descriptor fields (Table 7.6) -/

def tdBase (d : Image) : Nat := field d.toNat 47 0
def tdMfmt (d : Image) : Nat := field d.toNat 51 48
def tdPfmt (d : Image) : Nat := field d.toNat 55 52
def tdNdim (d : Image) : Nat := field d.toNat 57 56
def tdCkm (d : Image) : Bool := field d.toNat 58 58 = 1
def tdCop (d : Image) : Nat := field d.toNat 61 60
def tdReserved (d : Image) : Bool := field d.toNat 63 62 ≠ 0
def tdSize (d : Image) (i : Nat) : Nat := field d.toNat (95 + 32 * i) (64 + 32 * i)
def tdStride (d : Image) (i : Nat) : Int := sext (field d.toNat (231 + 40 * i) (192 + 40 * i)) 40
def tdRows (d : Image) : Nat := field d.toNat 359 352 + 1
def tdCols (d : Image) : Nat := field d.toNat 367 360 + 1
def tdO0 (d : Image) : Int := sext (field d.toNat 399 368) 32
def tdO1 (d : Image) : Int := sext (field d.toNat 431 400) 32
def tdO2 (d : Image) : Nat := field d.toNat 439 432
def tdO3 (d : Image) : Nat := field d.toNat 447 440
def tdScale (d : Image) : FV := decodeFloat 0 (field d.toNat 479 448)
def tdCrc (d : Image) : Nat := field d.toNat 511 480

/-! ### Pool tiles (R153) -/

/-- Rows and columns of the pool tile. -/
def tileDims (tr : Bool) (d : Image) : Nat × Nat := if tr then (tdCols d, tdRows d) else (tdRows d, tdCols d)

/-- Bytes of the elements of `n` elements, the last byte of INT4 whole. -/
def packedBytes (ty n : Nat) : Nat := (n * typeWidth ty + 7) / 8

/-- Bytes of the headers of `n` elements. -/
def headerBytes (ty n : Nat) : Nat := if typeBx ty then n / 16 else 0

/-- Where the headers of a pool tile of `n` elements lie: the next multiple of 64 bytes. -/
def headerOff (ty n : Nat) : Nat := (packedBytes ty n + 63) / 64 * 64

/-- Bytes from the first to the last of a pool tile. -/
def tileSpan (ty n : Nat) : Nat := if typeBx ty then headerOff ty n + headerBytes ty n else packedBytes ty n

/-! ### Boxes (R153) -/

/-- The bytes of one address step: an element, the half-word that a BX record begins with, or a byte of two INT4
elements (log 27). -/
def addrUnit (ty : Nat) : Nat := if typeBx ty then 2 else Max.max 1 (typeWidth ty / 8)

/-- The bytes of a BX block record. -/
def recordBytes (ty : Nat) : Nat := 2 + 4 * typeWidth ty

/-- The index of a box row in dimension 1: from `o1`, or from the list of `tgat` and `tsct`. -/
def rowIndex (d : Image) (list : List Nat) (r : Nat) : Int :=
  match list with
  | [] => tdO1 d + r
  | l => (l.getD r 0 : Nat)

/-- An index is in bounds in a dimension, or the dimension is not in use. -/
def dimOk (d : Image) (i : Nat) (x : Int) : Bool := tdNdim d < i || (0 ≤ x && x < (tdSize d i : Int))

/-- A box element is in bounds. -/
def boxIn (d : Image) (list : List Nat) (r c : Nat) : Bool :=
  dimOk d 0 (tdO0 d + c) && dimOk d 1 (rowIndex d list r) && dimOk d 2 (tdO2 d) && dimOk d 3 (tdO3 d)

/-- The address of a box element, or of the BX record that holds it; two INT4 elements share a byte (log 27). -/
def boxAddr (d : Image) (list : List Nat) (r c : Nat) : Int :=
  let i0 := tdO0 d + c
  let d0 : Int :=
    if typeBx (tdMfmt d) then i0 / 32 * (recordBytes (tdMfmt d) : Int)
    else if tdMfmt d = 11 then i0 / 2 * tdStride d 0
    else i0 * tdStride d 0
  (tdBase d : Int) + d0 + rowIndex d list r * tdStride d 1 + (tdO2 d : Int) * tdStride d 2 + (tdO3 d : Int) * tdStride d 3

/-- The pool-tile position of a box element. -/
def tilePos (tr : Bool) (d : Image) (r c : Nat) : Nat := if tr then c * tdRows d + r else r * tdCols d + c

/-- The pieces of a box in box order: row, first column, columns. One element each, or a BX block. -/
def boxPieces (d : Image) : List (Nat × Nat) :=
  let step := if typeBx (tdMfmt d) then 32 else 1
  (List.range (tdRows d)).flatMap fun r => (List.range (tdCols d / step)).map fun c => (r, step * c)

/-- The pieces that lie in bounds. -/
def boxInside (d : Image) (list : List Nat) : List (Nat × Nat) := (boxPieces d).filter fun p => boxIn d list p.1 p.2

/-- The bytes of a piece in memory. -/
def pieceBytes (ty : Nat) : Nat := if typeBx ty then recordBytes ty else addrUnit ty

/-! ### Elements and their conversion (R154) -/

/-- An element as it is read: its code, the header of its block for BX, and whether it fills a place out of bounds. -/
structure Elem where
  code : Nat
  hdr : Nat
  fill : Bool := false
  deriving DecidableEq, Repr

/-- An element as it is written, with its conversion counted: 1 or 0. -/
structure Made where
  code : Nat
  hdr : Nat
  conv : Nat
  deriving DecidableEq, Repr

def Elem.value (ty : Nat) (e : Elem) : FV :=
  if typeBx ty then bxValue ty e.hdr e.code (FV.ofInt 1) else decodeElem ty e.code

/-- The exact product that a conversion rounds; a zero-filled element converts to zero whatever the scale (R154). -/
def Elem.scaled (ty : Nat) (scale : FV) (e : Elem) : FV := if e.fill then FV.zero else (e.value ty).mul scale

/-- The elements of a piece from its bytes in memory. -/
def pieceElems (ty : Nat) (i0 : Int) (b : List Byte) : List Elem :=
  if typeBx ty then
    (unpack (typeWidth ty) (leNat (b.drop 2)) 32).map fun c => { code := c, hdr := leNat (b.take 2) }
  else if ty = 11 then [{ code := leNat b / 2 ^ (4 * (i0 % 2).toNat) % 16, hdr := 0 }]
  else [{ code := leNat b, hdr := 0 }]

/-- Elements converted, or copied unchanged without `cv`. -/
def convElems (cv : Bool) (src dst : Nat) (scale : FV) (l : List Elem) : List Made :=
  if !cv then l.map fun e => { code := e.code, hdr := e.hdr, conv := 0 }
  else if typeBx dst then
    (blocks32 l l.length).flatMap fun b =>
      let e := bxEncode dst (b.map (Elem.scaled src scale))
      indexed (fun i c => { code := c, hdr := e.1, conv := if i = 0 then e.2.2.total else 0 }) 0 e.2.1
  else l.map fun x =>
    let e := encodeElem dst (x.scaled src scale)
    { code := e.1, hdr := 0, conv := e.2.total }

/-- The header of each block of a list of made elements. -/
def madeHeaders (ty : Nat) (l : List Made) : List Byte :=
  if typeBx ty then (blocks32 l l.length).flatMap fun b => natLe 2 ((b.map Made.hdr).headD 0) else []

def madeBody (ty : Nat) (l : List Made) : List Byte := packCodes (typeWidth ty) (l.map Made.code) l.length

/-- The bytes of a piece in memory, over the byte that an INT4 element shares. -/
def pieceOut (ty : Nat) (i0 : Int) (old : Byte) (l : List Made) : List Byte :=
  if typeBx ty then natLe 2 ((l.map Made.hdr).headD 0) ++ madeBody ty l
  else if ty = 11 then
    let k := 4 * (i0 % 2).toNat
    [BitVec.ofNat 8 (setField old.toNat (k + 3) k ((l.map Made.code).headD 0))]
  else natLe (addrUnit ty) ((l.map Made.code).headD 0)

/-! ### The units of a transfer (R156, R188, R204) -/

/-- The numbers of the aligned 8-byte units that ranges of addresses meet. -/
def unitsOf (l : List (Nat × Nat)) : List Nat :=
  (l.flatMap fun r => if r.2 = 0 then []
    else (List.range ((r.1 + r.2 - 1) / 8 + 1 - r.1 / 8)).map fun k => r.1 / 8 + k).dedup

/-- An address of a box in global memory. -/
def globalAddr (a : Int) : Nat := (a % (2 ^ 64 : Int)).toNat

/-- Transfers that read the box of their descriptor; the others read a pool tile. -/
def XferKind.fromBox : XferKind → Bool
  | .tld | .tcpy | .tgat | .tcrc => true
  | .tst | .tsend | .tadd | .tsct => false

/-- Transfers whose source lies in the pool. -/
def XferKind.fromPool : XferKind → Bool
  | .tcpy | .tst | .tsend | .tadd | .tsct => true
  | .tld | .tgat | .tcrc => false

/-- Transfers that write a pool tile. -/
def XferKind.toTile : XferKind → Bool
  | .tld | .tcpy | .tgat | .tsend => true
  | .tst | .tadd | .tsct | .tcrc => false

/-- Transfers that write the box of their descriptor. -/
def XferKind.toBox : XferKind → Bool
  | .tst | .tsct => true
  | .tld | .tcpy | .tgat | .tsend | .tadd | .tcrc => false

/-- The elements of a transfer's tile. -/
def Xfer.count (x : Xfer) : Nat := tdRows x.desc * tdCols x.desc

/-- The columns of a piece: one element, or a BX block. -/
def Xfer.step (x : Xfer) : Nat := if typeBx (tdMfmt x.desc) then 32 else 1

/-- Where a piece of the box lies: in global memory, or for `tcpy` in the core's pool, the allotment beginning at `src`. -/
def Xfer.pieceAt (x : Xfer) (p : Nat × Nat) : Nat :=
  let a := boxAddr x.desc x.list p.1 p.2
  if x.op.kind = .tcpy then x.src + a.toNat else globalAddr a

/-- The ranges of the pieces in bounds. -/
def Xfer.boxRanges (x : Xfer) : List (Nat × Nat) :=
  (boxInside x.desc x.list).map fun p => (x.pieceAt p, pieceBytes (tdMfmt x.desc))

/-- The ranges of a pool tile: elements, then headers. -/
def Xfer.tileRanges (x : Xfer) (body hdr : Nat) : List (Nat × Nat) :=
  [(body, packedBytes (tdPfmt x.desc) x.count), (hdr, headerBytes (tdPfmt x.desc) x.count)]

/-- Where the headers of a tile that is a source lie. -/
def Xfer.srcHdr (x : Xfer) : Nat := x.src + headerOff (tdPfmt x.desc) x.count

/-- The units that a transfer reads. -/
def Xfer.sources (x : Xfer) : List Nat :=
  unitsOf (if x.op.kind.fromBox then x.boxRanges else x.tileRanges x.src x.srcHdr)

/-- The units that it writes, combining apart. -/
def Xfer.targets (x : Xfer) : List Nat :=
  if x.op.kind.toTile then unitsOf (x.tileRanges x.dst x.hdr) else if x.op.kind.toBox then unitsOf x.boxRanges else []

def Xfer.hasRead (x : Xfer) (u : Nat) : Bool := x.got.any fun g => g.1 == u

def Xfer.hasPut (x : Xfer) (u : Nat) : Bool := x.put.any fun g => g.1 == u

/-- Its whole source has been read. -/
def Xfer.allRead (x : Xfer) : Bool := x.sources.all x.hasRead

/-- A byte of the source as it was read. -/
def Xfer.byteAt (x : Xfer) (a : Nat) : Byte := (((x.got.find? fun g => g.1 == a / 8).bind fun g => g.2[a % 8]?)).getD 0

/-- Bytes of the source as they were read. -/
def Xfer.bytes (x : Xfer) (a : Nat) : Nat → List Byte
  | 0 => []
  | n + 1 => x.byteAt a :: x.bytes (a + 1) n

/-- The place in the box of element `i` of the pool tile. -/
def Xfer.boxPos (x : Xfer) (i : Nat) : Nat × Nat :=
  if x.op.tr then (i % tdRows x.desc, i / tdRows x.desc) else (i / tdCols x.desc, i % tdCols x.desc)

/-- The piece of the box that holds element `i`, if it is in bounds. -/
def Xfer.pieceOf (x : Xfer) (i : Nat) : Option (Nat × Nat) :=
  let p := ((x.boxPos i).1, (x.boxPos i).2 / x.step * x.step)
  if boxIn x.desc x.list p.1 p.2 then some p else none

/-- The bytes that element `i` of the pool tile is read from. -/
def Xfer.elemRanges (x : Xfer) (i : Nat) : List (Nat × Nat) :=
  let w := typeWidth (tdPfmt x.desc)
  if x.op.kind.fromBox then (x.pieceOf i).toList.map fun p => (x.pieceAt p, pieceBytes (tdMfmt x.desc))
  else (x.src + i * w / 8, (i * w % 8 + w + 7) / 8) :: if typeBx (tdPfmt x.desc) then [(x.srcHdr + 2 * (i / 32), 2)] else []

/-- The elements that are converted together with element `i`: its block where a format has blocks. -/
def Xfer.group (x : Xfer) (i : Nat) : List Nat :=
  if typeBx (tdMfmt x.desc) || typeBx (tdPfmt x.desc) then (List.range 32).map fun k => i / 32 * 32 + k else [i]

/-- Element `i` of the source: zero where the box is out of bounds (R153, R159). -/
def Xfer.elem (x : Xfer) (i : Nat) : Elem :=
  let d := x.desc
  if x.op.kind.fromBox then
    match x.pieceOf i with
    | some p =>
      (pieceElems (tdMfmt d) (tdO0 d + (x.boxPos i).2) (x.bytes (x.pieceAt p) (pieceBytes (tdMfmt d)))).getD
        ((x.boxPos i).2 % x.step) { code := 0, hdr := 0, fill := true }
    | none => { code := 0, hdr := 0, fill := true }
  else
    let w := typeWidth (tdPfmt d)
    { code := leNat (x.bytes (x.src + i * w / 8) ((i * w % 8 + w + 7) / 8)) / 2 ^ (i * w % 8) % 2 ^ w
      hdr := if typeBx (tdPfmt d) then leNat (x.bytes (x.srcHdr + 2 * (i / 32)) 2) else 0 }

/-- Every element converted; those whose source has not been read stand for nothing. A BX target of `tst`, `tgat` and `tsct` is formed at
the descriptor's scale, as R154 says, where R28 gives 1 (DEDUCED, log 27). -/
def Xfer.made (x : Xfer) : List Made :=
  let d := x.desc
  convElems x.op.cv (if x.op.kind.fromBox then tdMfmt d else tdPfmt d) (if x.op.kind.fromBox then tdPfmt d else tdMfmt d)
    (tdScale d) ((List.range x.count).map x.elem)

/-- The elements that a unit of the destination holds some of. -/
def Xfer.elemsIn (x : Xfer) (u : Nat) : List Nat :=
  let w := typeWidth (tdPfmt x.desc)
  let meets (r : Nat × Nat) : Bool := r.1 < 8 * u + 8 && 8 * u < r.1 + r.2
  if x.op.kind.toBox then
    (boxInside x.desc x.list).flatMap fun p =>
      if meets (x.pieceAt p, pieceBytes (tdMfmt x.desc)) then
        (List.range x.step).map fun k => tilePos x.op.tr x.desc p.1 (p.2 + k)
      else []
  else
    (List.range x.count).filter fun i => meets (x.dst + i * w / 8, (i * w % 8 + w + 7) / 8)
      || (typeBx (tdPfmt x.desc) && meets (x.hdr + 2 * (i / 32), 2))

/-- A unit of the destination can be written: what it is made from has been read, all of it for `tcpy` (R156, R161). -/
def Xfer.canPut (x : Xfer) (u : Nat) : Bool :=
  if x.op.kind = .tcpy then x.allRead
  else (x.elemsIn u).all fun i => (x.group i).all fun k => (unitsOf (x.elemRanges k)).all x.hasRead

/-- The bytes of the pool tile that a transfer writes: elements, then headers. A sent tile keeps its bytes (R162). -/
def Xfer.tileBytes (x : Xfer) : List Byte × List Byte :=
  let t := tdPfmt x.desc
  if x.op.kind = .tsend then (x.bytes x.src (packedBytes t x.count), x.bytes x.srcHdr (headerBytes t x.count))
  else (madeBody t x.made, madeHeaders t x.made)

/-- The bytes of the pool tile that lie in a unit. -/
def Xfer.tileUnit (x : Xfer) (u : Nat) : List (Option Byte) :=
  let b := x.tileBytes
  (List.range 8).map fun k =>
    let a := 8 * u + k
    if x.dst ≤ a && a < x.dst + b.1.length then b.1[a - x.dst]?
    else if x.hdr ≤ a && a < x.hdr + b.2.length then b.2[a - x.hdr]?
    else none

/-- The bytes that a piece of the box is written as, over the byte that an INT4 element shares. -/
def Xfer.pieceBytesOut (x : Xfer) (made : List Made) (old : Byte) (p : Nat × Nat) : List Byte :=
  pieceOut (tdMfmt x.desc) (tdO0 x.desc + p.2) old
    ((List.range x.step).map fun i => made.getD (tilePos x.op.tr x.desc p.1 (p.2 + i)) { code := 0, hdr := 0, conv := 0 })

/-- The bytes of a unit with a run of bytes put over them. -/
def overlay (u : Nat) (acc : List (Option Byte)) (a : Nat) (b : List Byte) : List (Option Byte) :=
  indexed (fun k v => if a ≤ 8 * u + k && 8 * u + k < a + b.length then b[8 * u + k - a]? else v) 0 acc

/-- The bytes of the box that lie in a unit, later rows over earlier ones (R164); `old` gives the bytes that an INT4 element
shares with its neighbour. -/
def Xfer.boxUnit (x : Xfer) (old : Nat → Byte) (u : Nat) : List (Option Byte) :=
  (boxInside x.desc x.list).foldl (fun acc p =>
    let a := x.pieceAt p
    if a < 8 * u + 8 && 8 * u < a + pieceBytes (tdMfmt x.desc) then
      overlay u acc a (x.pieceBytesOut x.made (((acc[a - 8 * u]?).join).getD (old a)) p)
    else acc) (List.replicate 8 none)

/-- The bytes of a unit of which a `tst` in INT4 writes one half alone. -/
def Xfer.halves (x : Xfer) (u : Nat) : List Nat :=
  if tdMfmt x.desc ≠ 11 then []
  else
    let at_ (a : Nat) : List (Nat × Nat) := (boxInside x.desc x.list).filter fun p => x.pieceAt p == a
    let odd (p : Nat × Nat) : Bool := (tdO0 x.desc + p.2) % 2 = 1
    ((List.range 8).map fun k => 8 * u + k).filter fun a =>
      !(at_ a).isEmpty && !((at_ a).any odd && (at_ a).any fun p => !odd p)

/-- Bytes in box order, a byte that two INT4 elements share once. -/
def onceEach : List (Nat × List Byte) → List Byte
  | [] => []
  | [q] => q.2
  | q :: r :: rest => (if q.1 = r.1 then [] else q.2) ++ onceEach (r :: rest)

/-- A byte of memory as the transfer wrote it. -/
def Xfer.putByte (x : Xfer) (a : Nat) : Byte :=
  (((x.put.find? fun g => g.1 == a / 8).bind fun g => (g.2[a % 8]?).join)).getD 0

/-- The conversions counted in what a transfer writes (R154). -/
def Xfer.conv (x : Xfer) : Nat :=
  let m := x.made
  if x.op.kind.toBox then
    ((boxInside x.desc x.list).flatMap fun p => (List.range x.step).map fun i =>
      (m.getD (tilePos x.op.tr x.desc p.1 (p.2 + i)) { code := 0, hdr := 0, conv := 0 }).conv).foldl (fun a n => a + n) 0
  else (m.map Made.conv).foldl (fun a n => a + n) 0

/-- What a transfer reports once all is written: the bytes written, the conversions, and what `ck` runs over, in ascending
order of pool offset, or in box order for memory (R156, R158). -/
def Xfer.outcome (x : Xfer) : Nat × Nat × List Byte :=
  let d := x.desc
  let inside := boxInside d x.list
  match x.op.kind with
  | .tld | .tcpy | .tgat | .tsend =>
    let b := x.tileBytes
    (b.1.length + b.2.length, x.conv, if x.hdr < x.dst then b.2 ++ b.1 else b.1 ++ b.2)
  | .tst | .tsct =>
    (if typeBx (tdMfmt d) then pieceBytes (tdMfmt d) * inside.length else packedBytes (tdMfmt d) inside.length, x.conv,
      onceEach (inside.map fun p => (x.pieceAt p, x.pieceBytesOut x.made (x.putByte (x.pieceAt p)) p)))
  | .tadd => (4 * x.count, 0, [])
  | .tcrc => (0, 0, onceEach (inside.map fun p => (x.pieceAt p, x.bytes (x.pieceAt p) (pieceBytes (tdMfmt d)))))

/-- Every byte of a transfer is written, and for `tcrc` read. -/
def Xfer.complete (x : Xfer) : Bool :=
  match x.op.kind with
  | .tadd => x.count ≤ x.combined
  | .tcrc => x.allRead
  | .tld | .tst | .tcpy | .tsend | .tgat | .tsct => x.targets.all x.hasPut

/-! ### CRC-32C (R158) -/

/-- Eight steps of the reflected polynomial. -/
def crcByte (v : Nat) : Nat → Nat
  | 0 => v
  | n + 1 => crcByte (if v % 2 = 1 then Nat.xor (v / 2) 0x82F63B78 else v / 2) n

/-- The running value over bytes. -/
def crcRun (v : Nat) : List Byte → Nat
  | [] => v
  | b :: rest => crcRun (crcByte (Nat.xor v b.toNat) 8) rest

/-- NOT of the value run from NOT `crc`. -/
def crc32c (crc : Nat) (b : List Byte) : Nat := 2 ^ 32 - 1 - crcRun (2 ^ 32 - 1 - crc % 2 ^ 32) b

end Sys2Proof.Machine
end

