-- ==== Sys2Proof/Machine/Transfer.lean ====
section
/-! DEFINITION. The transfer words of L and S and the copy engines (spec/07_isa_matrix_transfer.md R155 to R167; R193,
R204, R205). -/

namespace Sys2Proof.Machine

/-! ### The queues of L and S -/

def Crew.xq (c : Crew) : Stream → List Xfer
  | .l => c.lq
  | .s => c.sq
  | .x | .c => []

def Crew.setXq (c : Crew) (st : Stream) (q : List Xfer) : Crew :=
  match st with
  | .l => { c with lq := q }
  | .s => { c with sq := q }
  | .x | .c => c

def Crew.heldOf (c : Crew) : Stream → List HeldSlot
  | .l => c.heldL
  | .s => c.heldS
  | .x | .c => []

def Crew.setHeld (c : Crew) (st : Stream) (h : List HeldSlot) : Crew :=
  match st with
  | .l => { c with heldL := h }
  | .s => { c with heldS := h }
  | .x | .c => c

/-- The progress saved of a `tadd` that a pre-emption stopped (R157). -/
def Crew.taddDone (c : Crew) : Stream → Nat
  | .l => c.taddL
  | .s => c.taddS
  | .x | .c => 0

def Crew.setTadd (c : Crew) (st : Stream) (n : Nat) : Crew :=
  match st with
  | .l => { c with taddL := n }
  | .s => { c with taddS := n }
  | .x | .c => c

def State.xq (s : State) : List Xfer := s.crew.xq s.cur.role.stream

def State.setXq (s : State) (q : List Xfer) : State := s.modCrew fun c => c.setXq s.cur.role.stream q

/-! ### Checks at issue (R155) -/

/-- Step 1: type codes. -/
def typeFault (op : XferOp) (d : Image) : Bool :=
  let m := tdMfmt d
  let p := tdPfmt d
  let readFrom := if op.kind = .tst then p else m
  m = 15 || p = 15 || (m ≠ p && !op.cv)
    || (op.tr && (typeBx m || typeBx p || typeWidth readFrom ≠ (if op.tg then 16 else 8)))
    || (op.kind = .tadd && !(p = 0 || p = 8 || (p = 12 && tdCop d ≠ 0)))

/-- Transfers that walk the box of their descriptor; the others take its shape alone. -/
def usesBox (k : XferKind) : Bool := !(k = .tsend || k = .tadd)

/-- Transfers that take row indices from a list. -/
def usesList (k : XferKind) : Bool := k = .tgat || k = .tsct

/-- Step 2: field limits, and the layouts of `a[aP]`. Where `base` holds a pool offset its bits [47:23] must be 0, for `tcpy` as R161
says and for `tsend` and `tadd` too, of which R162 names [22:0] alone (DESIGN CHOICE, log 27). -/
def limitFault (op : XferOp) (d : Image) (aP teamsz : Nat) : Bool :=
  let k := op.kind
  let n := tdNdim d
  let remote := k = .tsend || k = .tadd
  tdReserved d || tdCop d = 3
    || (usesBox k && ((n < 1 && !usesList k && (tdO1 d ≠ 0 || 1 < tdRows d)) || (n < 2 && tdO2 d ≠ 0)
      || (n < 3 && tdO3 d ≠ 0)))
    || (usesBox k && typeBx (tdMfmt d) && (tdO0 d % 32 ≠ 0 || tdCols d % 32 ≠ 0 || tdSize d 0 % 32 ≠ 0))
    || (typeBx (tdPfmt d) && k ≠ .tcrc && (tileDims op.tr d).2 % 32 ≠ 0)
    || ((remote || k = .tcpy) && 2 ^ 23 ≤ tdBase d)
    || (usesList k && (1 < n || 2 ^ 46 ≤ aP))
    || (remote && (2 ^ 31 ≤ aP || teamsz ≤ aP / 2 ^ 23))
    || (k = .tadd && 16384 < tdRows d * tdCols d)

/-- Step 3: alignment, with the place that fails. -/
def alignFault (op : XferOp) (d : Image) (aP : Nat) : Option Nat :=
  let k := op.kind
  let u := addrUnit (if usesBox k then tdMfmt d else tdPfmt d)
  let strides := (List.range 4).any fun i => i ≤ tdNdim d && !(i = 0 && typeBx (tdMfmt d)) && tdStride d i % (u : Int) ≠ 0
  if tdBase d % u ≠ 0 || (usesBox k && strides) then some (tdBase d)
  else if k = .tcrc || op.rg then none
  else if aP % 2 ^ 23 % 64 ≠ 0 then some (if usesList k || k = .tsend || k = .tadd then aP % 2 ^ 23 else aP)
  else if usesList k && aP / 2 ^ 23 % 4 ≠ 0 then some (aP / 2 ^ 23)
  else none

/-- The in-bounds source range of `tcpy`: lowest byte and length (R161). -/
def copySource (d : Image) : Option (Int × Nat) :=
  let addrs := (boxInside d []).map fun p => boxAddr d [] p.1 p.2
  match addrs with
  | [] => none
  | a :: rest =>
    let lo := rest.foldl (fun m x => if x < m then x else m) a
    let hi := rest.foldl (fun m x => if m < x then x else m) a
    some (lo, (hi - lo).toNat + pieceBytes (tdMfmt d))

/-- The check of a source range of `tcpy`. -/
def copySourceFault (part : XWord) (d : Image) : Option TrapReq :=
  match copySource d with
  | none => none
  | some r =>
    if r.1 < 0 then some { code := codePoolRange, info := 0, addr := BitVec.ofInt 64 r.1 }
    else poolCheck part r.1.toNat r.2 1

/-- Where a transfer's pool side lies, its checks made. -/
structure XferSide where
  src : Nat
  dstCore : CoreId
  dst : Nat
  hdr : Nat
  team : Option Nat
  bar : Option (CoreId × Nat)
  ring : Option (Fin 16)
  deriving DecidableEq, Repr

/-- The ring checks, which come first (R155). -/
def State.xferRing (s : State) (op : XferOp) (d : Image) (aP : Nat) : Except TrapReq (Option (Fin 16)) :=
  if !op.rg then .ok none
  else if h : aP < 16 then
    let r := s.ring ⟨aP, h⟩
    let t := tileDims op.tr d
    if !r.set || rgFmt r.img ≠ tdPfmt d then .error (trapOf codeIllegalType)
    else if t.1 ≠ rgRows r.img || t.2 ≠ rgCols r.img then .error (trapOf codeRegRange)
    else .ok (some ⟨aP, h⟩)
  else .error (trapOf codeRegRange)

/-- Step 5: the barrier of a transfer in the pool it writes, or of its own crew (R94, R155). -/
def barAt (part : XWord) (core : CoreId) (v : Nat) : Except TrapReq (Option (CoreId × Nat)) :=
  if 2 ^ 23 ≤ v then .error (trapOf codeRegRange)
  else match atomCheck part v 16 16 with
    | some t => .error t
    | none => .ok (some (core, poolPlace part v))

/-- The barrier of a transfer, if `aB` names one; for `tsend` and `tadd` a zero names none (R57, R162). -/
def barOf (part : XWord) (core : CoreId) (zeroIsNone : Bool) (bar : Option Nat) : Except TrapReq (Option (CoreId × Nat)) :=
  match bar with
  | some v => if zeroIsNone && v = 0 then .ok none else barAt part core v
  | none => .ok none

/-- Step 4 and step 5 for a transfer within the crew. -/
def State.localSide (s : State) (op : XferOp) (d : Image) (aP : Nat) (bar : Option Nat) (ring : Option (Fin 16)) :
    Except TrapReq XferSide :=
  let n := tdRows d * tdCols d
  let off := aP % (if usesList op.kind then 2 ^ 23 else 2 ^ 48)
  let tile := if op.kind = .tcrc || op.rg then none
    else (poolCheck s.part off (tileSpan (tdPfmt d) n) 64).orElse fun _ =>
      if usesList op.kind then poolCheck s.part (aP / 2 ^ 23) (4 * tdRows d) 4 else none
  let src := if op.kind = .tcpy then copySourceFault s.part d else none
  match tile.orElse fun _ => src with
  | some t => .error t
  | none =>
    match barOf s.part s.cur.core false bar with
    | .error t => .error t
    | .ok b =>
      .ok { src := if op.kind = .tcpy then s.crew.org else poolPlace s.part off, dstCore := s.cur.core, dst := poolPlace s.part off,
            hdr := poolPlace s.part (off + headerOff (tdPfmt d) n), team := none, bar := b, ring := ring }

/-- Step 4 and step 5 for `tsend` and `tadd`, made at the destination crew (R162, R163). -/
def State.remoteSide (s : State) (op : XferOp) (d : Image) (aP : Nat) (bar : Option Nat) : Except TrapReq XferSide :=
  let span := tileSpan (tdPfmt d) (tdRows d * tdCols d)
  match poolCheck s.part (tdBase d) span 1 with
  | some t => .error t
  | none => match s.teamMember (aP / 2 ^ 23) with
    | none => .error (trapOf codeScope)
    | some q =>
      let part := (s.crewAt q.1 q.2).part
      let off := aP % 2 ^ 23
      match (if op.kind = .tadd then atomCheck part off span 64 else poolCheck part off span 64) with
      | some t => .error t
      | none =>
        match barOf part q.1 true bar with
        | .error t => .error t
        | .ok b =>
          .ok { src := poolPlace s.part (tdBase d), dstCore := q.1, dst := poolPlace part off,
                hdr := poolPlace part (off + headerOff (tdPfmt d) (tdRows d * tdCols d)),
                team := some (aP / 2 ^ 23), bar := b, ring := none }

/-- The checks of R155 in their order. -/
def State.xferChecks (s : State) (op : XferOp) (d : Image) (aP : Nat) (bar : Option Nat) : Except TrapReq XferSide :=
  match s.xferRing op d aP with
  | .error t => .error t
  | .ok ring =>
    if typeFault op d then .error (trapOf codeIllegalType)
    else if limitFault op d aP s.teamSize then .error (trapOf codeRegRange)
    else match alignFault op d aP with
      | some a => .error (trapAt codeAlign a)
      | none => if usesBox op.kind then s.localSide op d aP bar ring else s.remoteSide op d aP bar

/-! ### Issue (R155 to R157) -/

/-- N32 entries of bytes. -/
def fullWords (b : List Byte) : Nat → List Nat
  | 0 => []
  | n + 1 => leNat (b.take 4) :: fullWords (b.drop 4) n

/-- The slot that a word fills: the one held for it, or the next, which it waits for (R137, R157). -/
def State.takeSlot (s : State) (ring : Option (Fin 16)) : Option (Option (Fin 16 × Nat) × State) :=
  let st := s.cur.role.stream
  match ring with
  | none => some (none, s)
  | some r =>
    let fresh : Option (Option (Fin 16 × Nat) × State) :=
      if (s.ring r).full then none else some (some (r, (s.ring r).resv), s.modRing r Ring.reserve)
    match s.crew.heldOf st with
    | h :: rest => if h.ring = r then some (some (r, h.slot), s.modCrew fun c => c.setHeld st rest) else fresh
    | [] => fresh

/-- The banks that a transfer writes in its own core, locked from issue to retirement (R156, R160, R162). -/
def xferBanks (op : XferOp) (d : Image) (dst hdr : Nat) : List Nat :=
  let n := tdRows d * tdCols d
  match op.kind with
  | .tld | .tcpy | .tgat => banksOf dst (packedBytes (tdPfmt d) n) ++ banksOf hdr (headerBytes (tdPfmt d) n)
  | .tst | .tsct | .tsend | .tadd | .tcrc => []

/-- The banks of the tile that a `tsend` or `tadd` writes (R162). -/
def Xfer.farBanks (x : Xfer) : List Nat := (x.tileRanges x.dst x.hdr).flatMap fun r => banksOf r.1 r.2

/-- Every unit of the destination is written, or every element combined. -/
def Xfer.allPut (x : Xfer) : Bool :=
  if x.op.kind = .tadd then x.combined = x.count else x.targets.all fun u => x.hasPut u

/-- An earlier transfer of the sequencer sends to one of these banks of a core and has not written its last byte: two transfers of one
sequencer take the locks of a bank in issue order (R193). -/
def farAhead (earlier : List Xfer) (core : CoreId) (banks : List Nat) : Bool :=
  earlier.any fun y => y.team.isSome && y.dstCore = core && !y.allPut && y.farBanks.any fun b => banks.contains b

/-- The word takes its place in its engine's queue. -/
def State.xferQueue (s : State) (tk : Tok) (op : XferOp) (d : Image) (table : Nat) (side : XferSide) (list : List Nat) :
    Res :=
  match s.takeSlot side.ring with
  | none => .block .other id
  | some (slot, t) =>
    let place := match slot with
      | some q => (s.crew.org + slotOff (s.ring q.1).img q.2, s.crew.org + slotHdr (s.ring q.1).img q.2)
      | none => (side.dst, side.hdr)
    let f := t.fresh
    let banks := xferBanks op d place.1 place.2
    if !s.here.banksFree f.1 banks || farAhead s.xq s.cur.core banks then .block .other id
    else
      let st := s.cur.role.stream
      let x : Xfer :=
        { id := f.1, op := op, desc := d, table := table, src := side.src, dstCore := side.dstCore, dst := place.1,
          hdr := place.2, team := side.team, bar := side.bar, list := list, slot := slot, pc := s.pc,
          a := s.crew.aFile st, loops := s.seq.loops, pops0 := s.seq.popLog.length - (popsOf tk).p - (popsOf tk).n,
          combined := if op.kind = .tadd then s.crew.taddDone st else 0, got := [], put := [], moved := none }
      let t := f.2.modHere fun c => c.lock f.1 banks
      let t := if op.kind = .tadd then t.modCrew fun c => c.setTadd st 0 else t
      .issued (t.modCrew fun c => c.setXq st (c.xq st ++ [x])) f.1

/-- A crew whose S-partition is empty has no descriptor table (R170); otherwise the entry's 64 bytes are read. -/
def State.withDesc (s : State) (td : Fin 64) (k : Image → Nat → Res) : Res :=
  if partNs s.part = 0 then .trap (trapAt codePoolPart s.crew.desctab.toNat)
  else match s.poolRead (s.crew.desctab.toNat + 64 * td.val) 64 64 with
    | .bytes b => k (BitVec.ofNat 512 (leNat b)) (poolPlace s.part (s.crew.desctab.toNat + 64 * td.val))
    | .locked => .block .other id
    | .trap t => .trap t

/-- A transfer step word at issue (R155). -/
def xferIssue (tk : Tok) (op : XferOp) (td : Fin 64) (aP aB : AReg) (s : State) : Host.Outcome State Fault Refusal :=
  runWord tk [refA aP, refA aB] s fun s =>
    if 16 ≤ s.xq.length then .block .other id
    else s.withDesc td fun d table =>
      let p := (s.getA aP).toNat
      match s.xferChecks op d p (if aB = 0 then none else some (s.getA aB).toNat) with
      | .error t => .trap t
      | .ok side =>
        if usesList op.kind then
          match s.poolRead (p / 2 ^ 23) (4 * tdRows d) 4 with
          | .bytes b =>
            let l := fullWords b (tdRows d)
            if tdNdim d = 0 && l.any fun i => i ≠ 0 then .trap (trapOf codeRegRange)
            else s.xferQueue tk op d table side l
          | .locked => .block .other id
          | .trap t => .trap t
        else s.xferQueue tk op d table side []

/-! ### Reading a unit (R156, R193, R204) -/

/-- The end of an engine's read of an aligned 8-byte unit: its bytes, with the translation that global memory took; a fault, a
wait or a stop. -/
inductive EngRead where
  | bytes (b : List Byte) (x : Option Xlat)
  | fault (t : TrapReq)
  | waits (note : State → State)
  | stop (f : Fault)

/-- A read of global memory by the copy engine, with the issuer's visible set as it is now (R204). -/
def State.engLoad (s : State) (va n : Nat) : EngRead :=
  match s.translate (.tlb (tlbOf s.cur.role)) s.crew.ctx va .read with
  | .fault c => .fault (xlatTrap c va .read)
  | .ok l =>
    if entryDead l.leaf2.entry then .bytes (List.replicate n 0) (some l)
    else if entryRem l.leaf2.entry then
      match s.remoteLoad s.seesFarCmd va (entryKey l.leaf2.entry) l.pa n with
      | .bytes b _ => .bytes b (some l)
      | .stored _ => .bytes [] none
      | .trap t => .fault t
      | .wait note => .waits note
      | .stop f => .stop f
    else if Config.hbmBytes < l.pa + n then .stop .noSuchPhysical
    else if s.mem.bad l.pa n then .fault (xlatTrap codeHbmEcc va .read)
    else .bytes (s.mem.loads s.seesCmd l.key l.pa n) (some l)

/-- A pool range of the source is locked by a command that issued before this one (log 28). -/
def Core.sourceLocked (c : Core) (id place n : Nat) : Bool :=
  c.locks.any fun l => l.2 < id && place / bankBytes ≤ l.1 && l.1 * bankBytes < place + n

/-- A read of the transfer's own pool. -/
def State.engPool (s : State) (x : Xfer) (place n : Nat) : EngRead :=
  if s.here.sourceLocked x.id place n || s.here.settled.any fun o => o < place + n && place < o + 16 then .waits id
  else if s.here.poolBad place n then .fault (trapAt codePoolEcc (place - s.crew.org))
  else .bytes (memGets s.here.pool place n) none

/-- A unit of the source. -/
def State.readUnit (s : State) (x : Xfer) (u : Nat) : EngRead :=
  if x.op.kind.fromPool then s.engPool x (8 * u) 8 else s.engLoad (8 * u) 8

/-- The walk of a transfer goes downwards: its last piece lies below its first. -/
def Xfer.down (x : Xfer) : Bool :=
  match x.boxRanges, x.boxRanges.getLast? with
  | a :: _, some b => b.1 < a.1
  | _, _ => false

/-- A transfer in flight replaced by what it has become. -/
def State.putXfer (s : State) (x : Xfer) : State := s.setXq (s.xq.map fun y => if y.id = x.id then x else y)

/-- A translation that a transfer took enters its stream's TLB, and the next page's with it (R290, R291). -/
def State.engFill (s : State) (x : Xfer) (va : Nat) (l : Xlat) (acc : Access) : State :=
  s.tlbWalk s.crew.ctx (tlbOf s.cur.role) va l acc x.down

/-- A step of an engine for a transfer: gone on with, a fault, a wait or a stop. -/
inductive EngStep where
  | did (s : State) (x : Xfer)
  | fault (t : TrapReq)
  | waits (note : State → State)
  | stop (f : Fault)

/-- One unit of the source is read. -/
def State.takeUnit (s : State) (x : Xfer) (u : Nat) : EngStep :=
  match s.readUnit x u with
  | .bytes b l =>
    let y := { x with got := x.got ++ [(u, b)] }
    let s := match l with
      | some l => s.engFill x (8 * u) l .read
      | none => s
    .did (s.putXfer y) y
  | .fault t => .fault t
  | .waits f => .waits f
  | .stop f => .stop f

/-! ### Writing a unit (R156, R188, R204) -/

/-- Chosen bytes of a unit written to a pool. -/
def Core.poolPut (c : Core) (place : Nat) : List (Option Byte) → Core
  | [] => c
  | none :: rest => c.poolPut (place + 1) rest
  | some b :: rest => (c.poolWrite place [b]).poolPut (place + 1) rest

/-- The target of `tsend` and `tadd` is still there (R171). -/
def State.targetGone (s : State) (x : Xfer) : Bool :=
  match x.team with
  | some pos => (s.teamMember pos).isNone
  | none => false

/-- The locks that a transfer holds on the banks of the tile it sends to (R162). -/
def State.farHeld (s : State) (x : Xfer) : Bool := (s.core x.dstCore).locks.any fun l => l.2 == x.id

/-- The first byte of a `tsend` or `tadd` can arrive, and its banks are not locked yet: a `tsend` has read the source of a unit, and a
`tadd`, the oldest of its sequencer, its whole source (R157, R162). -/
def State.farDue (s : State) (x : Xfer) : Bool :=
  x.team.isSome && !s.farHeld x &&
    (if x.op.kind = .tadd then x.allRead && x.combined < x.count && (s.xq.headD x).id == x.id
    else x.put.isEmpty && x.targets.any x.canPut)

/-- The transfers of the executing sequencer that issued before one. -/
def State.earlier (s : State) (x : Xfer) : List Xfer := s.xq.takeWhile fun y => !(y.id == x.id)

/-- The locks of the destination's banks are taken, all in one clock, or waited for (R156, R162, R163, R193). -/
def State.lockFar (s : State) (x : Xfer) : State :=
  if !s.targetGone x && !farAhead (s.earlier x) x.dstCore x.farBanks && (s.core x.dstCore).banksFree x.id x.farBanks then
    s.modCore x.dstCore fun c => c.lock x.id x.farBanks
  else s

/-- A transfer's last byte is written: its locks are released, though its retirement may have to wait for its turn (R156). -/
def State.unlockDone (s : State) (x : Xfer) : State :=
  (s.modHere fun c => c.unlock x.id).modCore x.dstCore fun c => c.unlock x.id

/-- A transfer that has written some of its destination takes the place of what it was. -/
def State.keepXfer (s : State) (x : Xfer) : State := if x.allPut then (s.putXfer x).unlockDone x else s.putXfer x

/-- A unit written to the pool tile. -/
def State.putTile (s : State) (x : Xfer) (u : Nat) : EngStep :=
  if s.targetGone x then .fault (trapOf codeScope)
  else if x.team.isSome && !s.farHeld x then .waits id
  else
    let y := { x with put := x.put ++ [(u, x.tileUnit u)] }
    .did ((s.modCore x.dstCore fun c => c.poolPut (8 * u) (x.tileUnit u)).keepXfer y) y

/-- The byte of which a `tst` in INT4 writes one half alone is read as it stands in memory, whatever the page's permissions. -/
def State.oldByte (s : State) (l : Xlat) (va : Nat) : EngRead :=
  let pa := l.pa - l.pa % 8 + va % 8
  if entryDead l.leaf2.entry then .bytes [0] none
  else if entryRem l.leaf2.entry then
    match s.remoteLoad s.seesFarCmd va (entryKey l.leaf2.entry) pa 1 with
    | .bytes b _ => .bytes b none
    | .stored _ => .bytes [] none
    | .trap t => .fault t
    | .wait note => .waits note
    | .stop f => .stop f
  else if s.mem.bad pa 1 then .fault (xlatTrap codeHbmEcc va .read)
  else .bytes [s.mem.load s.seesCmd l.key pa] none

/-- The bytes that a unit shares with elements that are not written. -/
def State.oldBytes (s : State) (l : Xlat) : List Nat → Except EngRead (List (Nat × Byte))
  | [] => .ok []
  | a :: rest =>
    match s.oldByte l a with
    | .bytes b _ => (match s.oldBytes l rest with
      | .ok r => .ok ((a, b.headD 0) :: r)
      | .error e => .error e)
    | e => .error e

/-- An earlier transfer of the sequencer has not written a unit at that place of memory yet; it writes it first (R193). -/
def State.writesBefore (s : State) (x : Xfer) (l : Xlat) : Bool :=
  (s.earlier x).any fun y =>
    y.op.kind.toBox && y.targets.any fun w => !y.hasPut w && (match s.translate (.tlb (tlbOf s.cur.role)) s.crew.ctx (8 * w) .write with
      | .ok k => k.pa / 8 == l.pa / 8 && entryRem k.leaf2.entry == entryRem l.leaf2.entry
      | .fault _ => false)

/-- The put of an earlier transfer of the sequencer to that place of a peer's memory has no answer yet: delivery is unordered, and the
later put has to be performed after it (R193, R201). -/
def State.putsBefore (s : State) (x : Xfer) (l : Xlat) : Bool :=
  let earlier := (s.earlier x).map Xfer.id
  entryRem l.leaf2.entry && s.mem.remote.any fun r =>
    r.writer.isCmd earlier && r.put.isSome && r.open_ && !r.refused && r.peer == entryKey l.leaf2.entry
      && r.pa < l.pa + 8 && l.pa < r.pa + r.size

/-- A unit written to global memory, one store, published at dev scope as it is written (R204), which revives its page (R100, R194), or
sent to a peer (R201). -/
def State.putBox (s : State) (x : Xfer) (u : Nat) : EngStep :=
  let va := 8 * u
  match s.translate (.tlb (tlbOf s.cur.role)) s.crew.ctx va .write with
  | .fault c => .fault (xlatTrap c va .write)
  | .ok l =>
    if !entryRem l.leaf2.entry && Config.hbmBytes < l.pa + 8 then .stop .noSuchPhysical
    else if s.writesBefore x l || s.putsBefore x l then .waits id
    else if entryRem l.leaf2.entry && (s.reviveFor s.crew.ctx l.peer l.pa 8).mem.zerosOpen (entryKey l.leaf2.entry) l.pa then
      .waits fun s => s.reviveFor s.crew.ctx l.peer l.pa 8
    else match s.oldBytes l (x.halves u) with
      | .error (.fault t) => .fault t
      | .error (.waits f) => .waits f
      | .error (.stop f) => .stop f
      | .error (.bytes ..) => .waits id
      | .ok old =>
        let b := x.boxUnit (fun a => ((old.find? fun o => o.1 == a).map Prod.snd).getD 0) u
        let y := { x with put := x.put ++ [(u, b)] }
        let w := Writer.cmd x.id
        let mine := s.xq.map Xfer.id
        let s := (s.engFill x va l .write).reviveFor s.crew.ctx l.peer l.pa 8
        let s := if entryRem l.leaf2.entry then (s.farStore w s.crew.ctx l va b).sendOwn (fun r => r.writer == w) fun _ => s.seesFarCmd
          else s.gStore w (fun g => s.seesCmd g || g.writer.isCmd mine) [s.pubNow .dev s.spotHere] l.key l.pa b
        .did (s.putXfer y) y

/-- A unit of the destination. -/
def State.putUnit (s : State) (x : Xfer) (u : Nat) : EngStep :=
  if x.op.kind.toTile then s.putTile x u else s.putBox x u

/-! ### `tadd` (R157, R163) -/

/-- One element combined at the target: `add`, `min` or `max` on FP32, INT32 or N32 (R163). -/
def taddStep (d : Image) (old new : Nat) : Nat :=
  match tdCop d with
  | 0 => elemAdd (tdPfmt d) old new
  | 1 => elemMin (tdPfmt d) old new
  | _ => elemMax (tdPfmt d) old new

/-- Where a place of the target's pool lies in its crew's allotment. -/
def State.farOff (s : State) (x : Xfer) (place : Nat) : Nat :=
  match x.team.bind s.teamMember with
  | some q => place - (s.crewAt q.1 q.2).org
  | none => place

/-- The next element is combined: its whole source is read, every earlier transfer has retired, and the banks are locked (R157,
R162). -/
def State.addElem (s : State) (x : Xfer) : EngStep :=
  let place := x.dst + 4 * x.combined
  if s.targetGone x then .fault (trapOf codeScope)
  else if (s.core x.dstCore).poolBad place 4 then .fault (trapAt codePoolEcc (s.farOff x place))
  else if !s.farHeld x then .waits id
  else
    let old := leNat (memGets (s.core x.dstCore).pool place 4)
    let y := { x with combined := x.combined + 1 }
    .did ((s.modCore x.dstCore fun c => c.poolWrite place (natLe 4 (taddStep x.desc old (x.elem x.combined).code))).keepXfer y) y

/-! ### The work of an engine -/

/-- Steps one after another, each on what the last has made of the transfer; the first that does not go on ends them. -/
def State.engSteps (s : State) (x : Xfer) (step : State → Xfer → Nat → EngStep) : List Nat → EngStep
  | [] => .did s x
  | u :: rest =>
    match step s x u with
    | .did s x => s.engSteps x step rest
    | .fault t => .fault t
    | .waits f => .waits f
    | .stop f => .stop f

/-- An engine reads some units of a transfer's source and writes some of its destination (R155, R156). A unit that is not the
transfer's, that has been read or written, or that cannot be written yet, is passed over; what cannot go on now is left for
another turn. -/
def State.moveTurn (s : State) (x : Xfer) (reads writes : List Nat) : Host.Outcome State Fault Refusal :=
  let take (s : State) (x : Xfer) (u : Nat) : EngStep :=
    if !x.sources.contains u || x.hasRead u then .did s x
    else match s.takeUnit x u with
      | .fault _ => .did s x
      | r => r
  let put (s : State) (x : Xfer) (u : Nat) : EngStep :=
    if !x.targets.contains u || x.hasPut u || !x.canPut u then .did s x
    else match s.putUnit x u with
      | .fault _ => .did s x
      | r => r
  match s.engSteps x take reads with
  | .fault _ => .next s
  | .waits f => .next (f s)
  | .stop f => .fault f
  | .did s x => match s.engSteps x put writes with
    | .did s _ => .next s
    | .fault _ => .next s
    | .waits f => .next (f s)
    | .stop f => .fault f

/-- All that is left of a transfer: every unit read, then every unit written, or every element combined. A `tsend` or `tadd` whose
destination is not locked yet stops at that point (R110, R162). -/
def State.finishWork (s : State) (x : Xfer) : EngStep :=
  match s.engSteps x (fun s x u => if x.hasRead u then .did s x else s.takeUnit x u) x.sources with
  | .did s x =>
    if s.farDue x then .did s x
    else if x.op.kind = .tadd then s.engSteps x (fun s x _ => s.addElem x) (List.range (x.count - x.combined))
    else s.engSteps x (fun s x u => if x.hasPut u then .did s x else s.putUnit x u) x.targets
  | r => r

/-! ### Retirement (R156, R158) -/

/-- Whether the word runs CRC-32C. -/
def XferOp.checks (op : XferOp) : Bool := op.ck || op.kind = .tcrc

/-- The failure status: a `ck` comparison that does not hold (R156, R158). -/
def ckFails (x : Xfer) (b : List Byte) : Bool :=
  x.op.checks && tdCkm x.desc && crc32c 0 b ≠ tdCrc x.desc

/-- What `ck` writes to the descriptor: the new `crc`, or `cfl` (R158). -/
def State.ckWrite (s : State) (x : Xfer) (b : List Byte) : State :=
  if !x.op.checks then s
  else if !tdCkm x.desc then
    s.modHere fun c => c.poolWrite (x.table + 60) (natLe 4 (crc32c (tdCrc x.desc) b))
  else if ckFails x b then
    s.modHere fun c => c.poolWrite (x.table + 7) [memGet c.pool (x.table + 7) ||| 0x08]
  else s

/-- The fault that a transfer meets as it retires: its target's block has completed (R171), or the descriptor byte whose `cfl` it
sets, or the barrier object that its update consumes, is uncorrectable (R303). -/
def State.retireFault (s : State) (x : Xfer) (m : Nat × Nat × List Byte) : Option TrapReq :=
  if s.targetGone x then some (trapOf codeScope)
  else if ckFails x m.2.2 && s.here.poolBad (x.table + 7) 1 then some (trapAt codePoolEcc (x.table + 7 - s.crew.org))
  else x.bar.bind fun b =>
    if (s.core b.1).poolBad b.2 16 then some (trapAt codePoolEcc (if x.team.isSome then s.farOff x b.2 else b.2 - s.crew.org))
    else none

/-- A command of another engine or of the array holds a bank locked (R110, R156). -/
def Core.lockedByOther (c : Core) (own : List Nat) (place n : Nat) : Bool :=
  c.locks.any fun l => !own.contains l.2 && (banksOf place n).contains l.1

/-- What a transfer writes as it retires lies in a bank that another engine or the array holds locked: the descriptor that `ck` writes,
or its barrier object (R156). -/
def State.retireLocked (s : State) (x : Xfer) (m : Nat × Nat × List Byte) : Bool :=
  let own := s.xq.map Xfer.id
  (x.op.checks && (!tdCkm x.desc || ckFails x m.2.2) && s.here.lockedByOther own x.table 64)
    || (match x.bar with
      | some b => (s.core b.1).lockedByOther own b.2 16
      | none => false)

/-- The puts of a command that are not acknowledged (R201, R287). -/
def State.cmdPuts (s : State) (id : Nat) : List RemoteStore := s.mem.remote.filter fun r => r.writer == .cmd id && r.open_

/-- The turn of a transfer's ring slot has come: every earlier one has been filled (R137). -/
def State.slotTurn (s : State) (x : Xfer) : Bool :=
  match x.slot with
  | some q => (s.ring q.1).tail = q.2
  | none => true

/-- RETIREMENT of a transfer whose bytes are all written and whose locks are released, in its ring's turn, with every put
acknowledged, no fault met and no bank it still writes locked by another: `ck` writes its descriptor, the tail advances and the barrier
takes its update (R137, R156, R158). -/
def State.xferRetire (s : State) (x : Xfer) (m : Nat × Nat × List Byte) : State :=
  if !s.slotTurn x || !(s.cmdPuts x.id).isEmpty || (s.retireFault x m).isSome || s.retireLocked x m then s
  else
    let s := s.ckWrite x m.2.2
    let s := match x.slot with
      | some q => s.modRing q.1 Ring.fill
      | none => s
    let s := match x.bar with
      | some b => s.combine b.1 b.2 (.copy m.1 m.2.1 (ckFails x m.2.2) x.id)
      | none => s
    let s := s.setXq s.xq.tail
    s.modSeq fun q => { q with retired := x.id :: q.retired }

/-- The turn of a copy engine for a sequencer: its oldest transfer is carried out and retires, or does not yet. -/
def State.xferTurn (s : State) : Host.Outcome State Fault Refusal :=
  match s.xq with
  | [] => .next s
  | x :: _ =>
    match x.moved with
    | some m => .next (s.xferRetire x m)
    | none =>
      if s.farDue x then .next (s.lockFar x)
      else match s.finishWork x with
      | .did s x =>
        if s.farDue x then .next s else
        let y := { x with moved := some x.outcome }
        .next (((s.putXfer y).unlockDone y).xferRetire y x.outcome)
      | .fault _ => .next s
      | .waits f => .next (f s)
      | .stop f => .fault f

/-- The role of a stream that issues transfers. -/
def xferRole : XferStream → Role
  | .l => .l
  | .s => .s

def execTransferRetire (core : CoreId) (crew : CrewIx) (st : XferStream) (s : State) :
    Host.Outcome State Fault Refusal :=
  (s.actAs core crew (xferRole st)).xferTurn

/-- A turn in which a copy engine moves units of the `n`-th transfer that a sequencer has in flight. A `tadd` that is the oldest
and has read its whole source combines its next element. -/
def State.engTurn (s : State) (core : CoreId) (crew : CrewIx) (st : XferStream) (n : Nat) (reads writes : List Nat) :
    Host.Outcome State Fault Refusal :=
  let s := s.actAs core crew (xferRole st)
  match s.xq[n]? with
  | none => .next s
  | some x =>
    if s.farDue x then .next (s.lockFar x)
    else if x.op.kind = .tadd && n = 0 && x.allRead && x.combined < x.count then
      (match s.addElem x with
      | .did s _ => .next s
      | .fault _ => .next s
      | .waits f => .next (f s)
      | .stop f => .fault f)
    else s.moveTurn x reads writes

/-! ### Faults and abandonment (R157) -/

/-- The first fault among steps that would be made from a state, each alone. -/
def firstStepFault (step : Nat → EngStep) : List Nat → Option TrapReq
  | [] => none
  | u :: rest =>
    match step u with
    | .fault t => some t
    | .did .. | .waits _ | .stop _ => firstStepFault step rest

/-- The fault that a transfer meets, if it meets one, the first in the order of its elements: in a unit not read, in one not written
(whether its source has been read or not, R271), in the next element of a `tadd` (which reads only when every earlier transfer has
retired), in a put that its peer refuses, or as it retires. -/
def State.xferFault (s : State) (x : Xfer) (first : Bool) : Option TrapReq :=
  match (s.cmdPuts x.id).find? fun r => r.refused with
  | some r => some (xlatTrap codeStage2 r.va.toNat .write)
  | none =>
    match x.moved with
    | some m => s.retireFault x m
    | none =>
      if x.op.kind = .tadd && !first then none
      else (firstStepFault (s.takeUnit x) (x.sources.filter fun u => !x.hasRead u)).orElse fun _ =>
        if x.op.kind = .tadd then
          (if x.allRead && x.combined < x.count then firstStepFault (fun _ => s.addElem x) [0] else none)
        else firstStepFault (s.putUnit x) (x.targets.filter fun u => !x.hasPut u)

/-- The first transfer in order that meets a fault: those before it, itself, its trap. -/
def State.firstFault (s : State) (before : List Xfer) : List Xfer → Option (List Xfer × Xfer × TrapReq)
  | [] => none
  | x :: rest =>
    match s.xferFault x before.isEmpty with
    | some t => some (before, x, t)
    | none => s.firstFault (before ++ [x]) rest

/-- The locks of abandoned transfers go, in the cores where they hold them. -/
def State.unlockAll (s : State) (xs : List Xfer) : State :=
  xs.foldl State.unlockDone s

/-- The refused puts of abandoned transfers are forgotten; what has been sent stays sent. -/
def State.forgetRefused (s : State) (xs : List Xfer) : State :=
  { s with mem := { s.mem with remote := s.mem.remote.filter fun r => !(r.refused && xs.any fun y => r.writer == .cmd y.id) } }

/-- Abandoning the transfers from the first of `xs` on: what they have written stays, locks go, slots are held, the
sequencer's state and its tokens return, and pushes of abandoned words are forgotten (R157). -/
def State.abandonXfers (s : State) (keep : List Xfer) (x : Xfer) (rest : List Xfer) : State :=
  let st := s.cur.role.stream
  let xs := x :: rest
  let back (fromP : Bool) : List Token :=
    ((s.seq.popLog.drop x.pops0).filter fun p => p.fromP == fromP).map fun p => p.tok
  let s := (s.unlockAll xs).forgetRefused xs
  let s := s.modCrew fun c => ((c.setXq st keep).setHeld st
    ((xs.filterMap fun y => y.slot.map fun q => ({ ring := q.1, slot := q.2 } : HeldSlot)) ++ c.heldOf st)).setTadd st
      (if x.op.kind = .tadd && 0 < x.combined then x.combined else c.taddDone st)
  let s := s.modCrew fun c => ((c.setAFile st x.a).modQueue (popQueueP st) (Queue.giveBack (back true))).modQueue
    (popQueueN st) (Queue.giveBack (back false))
  s.modSeq fun q => { q with
    pc := x.pc, loops := x.loops, wait := none, held := q.held.filter fun h => h.at_ < x.id
    popLog := q.popLog.take x.pops0 }

/-- TRANSFER_FAULT: the first transfer that meets a fault halts its sequencer at its word, and every later word of the
sequencer is abandoned with it (R157). -/
def State.faultTurn (s : State) : State :=
  if s.seq.status = .trapped then s
  else match s.firstFault [] s.xq with
    | none => s
    | some (keep, x, t) => raise t (s.abandonXfers keep x (s.xq.drop (keep.length + 1)))

def execTransferFault (core : CoreId) (crew : CrewIx) (st : XferStream) (s : State) :
    Host.Outcome State Fault Refusal :=
  .next (s.actAs core crew (xferRole st)).faultTurn

/-! ### The words -/

def execTld (tk : Tok) (td : Fin 64) (aP aB : AReg) (tr tg cv ck rg : Bool) (s : State) :
    Host.Outcome State Fault Refusal :=
  xferIssue tk { kind := .tld, tr := tr, tg := tg, cv := cv, ck := ck, rg := rg } td aP aB s

def execTst (tk : Tok) (td : Fin 64) (aP aB : AReg) (tr tg cv ck : Bool) (s : State) :
    Host.Outcome State Fault Refusal :=
  xferIssue tk { kind := .tst, tr := tr, tg := tg, cv := cv, ck := ck, rg := false } td aP aB s

def execTcpy (tk : Tok) (td : Fin 64) (aP aB : AReg) (tr tg rg : Bool) (s : State) :
    Host.Outcome State Fault Refusal :=
  xferIssue tk { kind := .tcpy, tr := tr, tg := tg, cv := false, ck := false, rg := rg } td aP aB s

def execTsend (tk : Tok) (td : Fin 64) (aP aB : AReg) (s : State) : Host.Outcome State Fault Refusal :=
  xferIssue tk { kind := .tsend, tr := false, tg := false, cv := false, ck := false, rg := false } td aP aB s

def execTadd (tk : Tok) (td : Fin 64) (aP aB : AReg) (s : State) : Host.Outcome State Fault Refusal :=
  xferIssue tk { kind := .tadd, tr := false, tg := false, cv := false, ck := false, rg := false } td aP aB s

def execTgat (tk : Tok) (td : Fin 64) (aP aB : AReg) (cv : Bool) (s : State) : Host.Outcome State Fault Refusal :=
  xferIssue tk { kind := .tgat, tr := false, tg := false, cv := cv, ck := false, rg := false } td aP aB s

def execTsct (tk : Tok) (td : Fin 64) (aP aB : AReg) (cv : Bool) (s : State) : Host.Outcome State Fault Refusal :=
  xferIssue tk { kind := .tsct, tr := false, tg := false, cv := cv, ck := false, rg := false } td aP aB s

/-- `tcrc` names no pool tile: its `aP` field is 0 (R165). -/
def execTcrc (tk : Tok) (td : Fin 64) (aB : AReg) (s : State) : Host.Outcome State Fault Refusal :=
  xferIssue tk { kind := .tcrc, tr := false, tg := false, cv := false, ck := false, rg := false } td 0 aB s

/-- `tdesc`: 64 bytes of global memory become the table's entry. The word retires in its sequencer's order, so it waits for
every transfer that issued before it (R155, R166), and reads as a command does (R193). -/
def execTdesc (tk : Tok) (td : Fin 64) (aP : AReg) (s : State) : Host.Outcome State Fault Refusal :=
  runWord tk [refA aP] s fun s =>
    let va := (s.getA aP).toNat
    if !s.xq.isEmpty then .block .other id
    else if partNs s.part = 0 then .trap (trapAt codePoolPart s.crew.desctab.toNat)
    else if va % 64 ≠ 0 then .trap (trapAt codeAlign va)
    else match s.memLoadBy s.seesCmd s.seesFarCmd va 64 with
      | .bytes b s => s.poolWriteAt (BitVec.ofNat 64 (s.crew.desctab.toNat + 64 * td.val)) b
      | .stored s => .done s
      | .trap t => .trap t
      | .wait note => .block .other note
      | .stop f => .stop f

/-- `ttouch`: the translations of the box's first page and of the one after it enter the stream TLB (R167). -/
def execTtouch (tk : Tok) (td : Fin 64) (s : State) : Host.Outcome State Fault Refusal :=
  runWord tk [] s fun s =>
    s.withDesc td fun d _ =>
      let a := globalAddr (boxAddr d [] 0 0)
      let unit := tlbOf s.cur.role
      .done (match s.translate (.tlb unit) s.crew.ctx a .read with
        | .ok l => s.tlbWalk s.crew.ctx unit a l .read false
        | .fault _ => match s.translate (.tlb unit) s.crew.ctx (a / 65536 * 65536 + 65536) .read with
          | .ok l => s.tlbFill s.cur.core unit (some s.crew.ctx) (a / 65536 * 65536 + 65536) l
          | .fault _ => s)

end Sys2Proof.Machine
end

