-- ==== Sys2Proof/Machine/Launch.lean ====
section
/-! DEFINITION. Launches and blocks (spec/08_execution_model.md R168 to R176; spec/18_translation_faults.md R298): slot
headers, messages of the device, placement, the start and the completion of a block, and the end of a launch. -/

namespace Sys2Proof

/-- More fields of an SCP header (Table 19.2). -/
def ScpMsg.seq (m : ScpMsg) : Nat := Machine.field m.hdr.toNat 127 64

def ScpMsg.sess (m : ScpMsg) : BitVec 16 := m.hdr.extractLsb' 16 16

def ScpMsg.cookie (m : ScpMsg) : XWord := m.hdr.extractLsb' 192 64

end Sys2Proof

namespace Sys2Proof.Machine

/-! ### Slot headers (Table 19.8) -/

def hdPart (h : Image) : Nat := field h.toNat 223 192
def hdNv (h : Image) : Nat := field (hdPart h) 6 0
def hdNs (h : Image) : Nat := field (hdPart h) 14 8
def hdNa (h : Image) : Nat := field (hdPart h) 22 16
def hdBanks (h : Image) : Nat := hdNv h + hdNs h + hdNa h
def hdCref (h : Image) : Bool := field h.toNat 227 227 = 1
def hdScopes (h : Image) : Nat := field h.toNat 233 228
def hdTeamsz (h : Image) : Nat := field h.toNat 239 234 + 1
def hdNblocks (h : Image) : Nat := field h.toNat 255 240 + 1
def hdLx (h : Image) : Nat := field h.toNat 271 256
def hdLl (h : Image) : Nat := field h.toNat 287 272
def hdLc (h : Image) : Nat := field h.toNat 303 288
def hdLs (h : Image) : Nat := field h.toNat 319 304
def hdWords (h : Image) : Nat := hdLx h + hdLl h + hdLc h + hdLs h
def hdCva (h : Image) : Nat := field h.toNat 367 320
def hdDlen (h : Image) : Nat := field h.toNat 399 368
def hdDva (h : Image) : Nat := field h.toNat 447 400

/-- The teams of a launch. -/
def hdTeams (h : Image) : Nat := ceilDiv (hdNblocks h) (hdTeamsz h)

/-! ### Messages of the device (Table 19.5, R306) -/

def stOk : Nat := 0
def stMalformed : Nat := 1
def stDenied : Nat := 2
def stReplay : Nat := 3
def stWindow : Nat := 4
def stBarred : Nat := 5
def stNotResident : Nat := 6
def stQuota : Nat := 7
def stRefused : Nat := 8
def stBusy : Nat := 9
def stInUse : Nat := 10
def stReset : Nat := 11
def stNoSpace : Nat := 12
def stFailed : Nat := 13
def stAuth : Nat := 14
def stCancelled : Nat := 15
def stSage : Nat := 16

/-- A message of the device's own on a context's session; with no session there is nowhere to send it (R307). -/
def State.post (s : State) (ctx : CtxId) (kind opcode status : Nat) (cookie : XWord) (payload : List Byte) : State :=
  match (s.ctx ctx).session with
  | none => s
  | some id => s.send { sess := id, ctx := ctx, kind := kind, opcode := opcode, status := status, seq := 0,
                        cookie := cookie, payload := payload, frame := false }

/-- The session of a connection. -/
def State.session (s : State) (id : BitVec 16) : Option Session := s.npu.sessions.find? fun q => q.id == id

/-- The completion of a command: its `seq`, `opcode` and `cookie`, a status and a payload (R310); its `sess`, which is 0 for
SESSION_OPEN (Table 19.2). -/
def answerOf (m : ScpMsg) (ctx : CtxId) (status : Nat) (payload : List Byte) : OutMsg :=
  { sess := if m.opcode = 1 then 0 else m.conn, ctx := ctx, kind := 1, opcode := m.opcode, status := status, seq := m.seq,
    cookie := m.cookie, payload := payload, frame := false }

/-- The command in progress that carries a message. -/
def State.cmdOf (s : State) (m : ScpMsg) : Option Cmd := s.npu.cmds.find? fun c => c.begun && c.msg == m

/-- A command in progress completes, and is no longer outstanding (R310). -/
def State.complete (s : State) (m : ScpMsg) (status : Nat) (payload : List Byte) : State :=
  match s.cmdOf m with
  | none => s
  | some c => (s.send (answerOf m c.ctx status payload)).modNpu fun n => { n with cmds := n.cmds.erase c }

/-- The same, with no context charged: the exchange that would have proved one has not succeeded (R307). -/
def State.completeFree (s : State) (m : ScpMsg) (status : Nat) : State :=
  match s.cmdOf m with
  | none => s
  | some c => (s.sendFree (answerOf m c.ctx status [])).modNpu fun n => { n with cmds := n.cmds.erase c }

/-! ### The end of a launch's books (R171, R175) -/

/-- What stands outside the cores sees what is published at dev scope or wider and the puts performed here (R202, R316). -/
def seesDev (g : GStore) : Bool := g.under.isNone && (g.writer == .peer || g.pubs.any fun p => 4 ≤ scopeRank p.scope)

/-- No agent's place: the host, the peers and the N-die stand outside the cores. -/
def outsideSpot : Spot := { core := 0, crew := 0, ctx := 0, launch := 0, team := 0 }

/-- What LAUNCH_DONE carries of a failure (R298). -/
structure EndInfo where
  code : BitVec 8
  stream : Stream
  blockid : Nat
  pc : XWord
  addr : XWord
  deriving DecidableEq, Repr

def EndInfo.none_ : EndInfo := { code := 0, stream := .x, blockid := 0, pc := 0, addr := 0 }

/-- The 48 bytes of a LAUNCH_DONE; their order is the model's (log 33). -/
def launchDone (num status : Nat) (i : EndInfo) : List Byte :=
  natLe 8 num ++ natLe 2 status ++ natLe 1 i.code.toNat ++ natLe 1 i.stream.num.val ++ natLe 4 i.blockid
    ++ natLe 8 i.pc.toNat ++ natLe 8 i.addr.toNat ++ natLe 16 0

/-- A load of a slot is in use: the slot still holds it, or one of its launches is queued or runs. -/
def NDie.genUsed (n : NDie) (g : Nat) : Bool :=
  n.slots.any (fun q => q.gen == g) || n.ctxs.toList.any fun k => k.launches.any fun l => l.gen == g

/-- Pins that a load made go with it (R312); those of SLOT_PIN stay (log 40). -/
def NDie.releasePins (n : NDie) : NDie :=
  { n with pins := n.pins.filter fun p => p.gen.all fun g => n.genUsed g }

/-- A launch leaves its context's queue, and LAUNCH_DONE is posted with the cookie of its INVOKE. -/
def State.closeLaunch (s : State) (ctx : CtxId) (l : Launch) (status : Nat) (i : EndInfo) : State :=
  let s := s.modNpu fun n => { n with placed := n.placed.filter fun p => !(p.ctx == ctx && p.launch == l.num) }
  let s := s.modCtx ctx fun k => { k with
    launches := k.launches.filter fun q => !(q.num == l.num)
    finished := k.finished ++ [(l.num, status == stOk)] }
  (s.modNpu NDie.releasePins).post ctx 3 0x40 status l.cookie (launchDone l.num status i)

/-- A launch that waits for a dependence that failed (R175). -/
def Ctx.doomed (k : Ctx) : Option Launch :=
  k.launches.find? fun l => l.deps.any fun d => k.finished.any fun f => f.1 == d && !f.2

/-- Cancelling every launch that depends on one that failed (R175). -/
def State.cancelDoomed (s : State) (ctx : CtxId) : Nat → State
  | 0 => s
  | n + 1 => match (s.ctx ctx).doomed with
    | none => s
    | some l => (s.closeLaunch ctx l stCancelled EndInfo.none_).cancelDoomed ctx n

/-- A context with nothing queued or placed is idle again (R282; log 32). -/
def State.settleCtx (s : State) (ctx : CtxId) : State :=
  s.modCtx ctx fun k => if k.state = .running && k.launches.isEmpty then { k with state := .idle } else k

/-- A launch ends with a status: its books are closed and its dependents are cancelled (R175). -/
def State.finishLaunch (s : State) (ctx : CtxId) (num status : Nat) (i : EndInfo) : State :=
  match (s.ctx ctx).launches.find? fun l => l.num == num with
  | none => s
  | some l =>
    let s := s.closeLaunch ctx l status i
    (s.cancelDoomed ctx (s.ctx ctx).launches.length).settleCtx ctx

/-! ### Releasing a crew (R171) -/

/-- A crew runs a block of a launch. -/
def Crew.runs (c : Crew) (ctx : CtxId) (launch : Nat) : Bool :=
  match c.block with
  | some b => b.ctx == ctx && b.launch == launch
  | none => false

/-- The mailboxes of a launch with no crew left on a core are emptied and released; `away` says that a pre-emption has saved one
(R98). -/
def Core.releaseBoxes (c : Core) (ctx : CtxId) (launch : Nat) (away : Bool) : Core :=
  if away || crewIxs.any fun k => (c.crew k).runs ctx launch then c
  else { c with boxes := c.boxes.map fun m => if m.claim = some (ctx, launch) then { claim := none, entries := [] } else m }

/-- The barrier records in a crew's allotment are forgotten. -/
def Core.dropBars (c : Core) (part : XWord) : Core :=
  let inside (a : Nat) : Bool := poolPlace part 0 ≤ a && a < poolPlace part (allotEnd part)
  { c with bars := c.bars.filter fun b => !inside b.addr }

/-- The stores of a crew's sequencers are those of a block that has left it. -/
def Global.leave (m : Global) (core : CoreId) (crew : CrewIx) (b : Block) : Global :=
  let left (w : Writer) : Writer := match w with
    | .seq k c r => if k = core && c = crew && r ≠ .fw then .away b.ctx b.launch b.blockid r else w
    | .away .. | .cmd _ | .host _ | .npu | .peer => w
  { m with
    stores := m.stores.map fun g => { g with writer := left g.writer }
    remote := m.remote.map fun r => { r with writer := left r.writer } }

/-- A sequencer whose block has left it: it stands where it stood. -/
def Seq.released (q : Seq) : Seq := { Seq.idle with pc := q.pc, loops := q.loops }

/-- A crew that its block has left: its registers, descriptors and `part` stay as they are until its next block starts (R171,
R170); its tokens are discarded and its lease, its work and its Hinge pair are gone. -/
def Crew.released (c : Crew) : Crew :=
  { c with
    seqX := c.seqX.released, seqL := c.seqL.released, seqC := c.seqC.released, seqS := c.seqS.released
    queues := Vector.replicate 8 { toks := [], popped := 0, incoming := [] }, creditL := [], creditS := []
    mq := [], lease := Lease.idle, lq := [], sq := [], heldL := [], heldS := [], taddL := 0, taddS := 0, pair := none
    hinge := { c.hinge with state := .idle, cmd := none, eval := none }
    repRun := none, block := none, draw := none, xcmds := [], accFails := 0, restarted := false, entry := false }

/-- Casement requests that still wait, those of the sampler, and masks of a crew are withdrawn (R298). -/
def Die.withdraw (d : Die) (core : CoreId) (crew : CrewIx) : Die :=
  { d with
    masks := d.masks.filter fun m => !(m.core == core && m.crew == crew)
    waits := d.waits.filter fun w => !(w.core == core && w.crew == crew)
    draws := d.draws.filter fun q => !(q.core == core && q.crew == crew) }

/-- A pre-emption has saved a crew of a launch on a core, which has not completed (R98, R300). -/
def State.launchAway (s : State) (core : CoreId) (ctx : CtxId) (launch : Nat) : Bool :=
  s.npu.saves.any fun v => v.core == core && v.rec_.runs ctx launch

/-- The crew, its allotment, its lease, its Hinge pair and its mailbox claims are free (R171). -/
def State.releaseCrew (s : State) (core : CoreId) (crew : CrewIx) : State :=
  let old := s.crewAt core crew
  match old.block with
  | none => s
  | some b =>
    let s := ((s.modCore core fun c => c.leave crew s.cycle).modCrewAt core crew Crew.released).modDie (dieOf core) fun d => d.withdraw core crew
    let s : State := { s with mem := (s.mem.leave core crew b).forgetGets core crew fun r => r ≠ .fw }
    s.modCore core fun c => ({ c with
      hingeCur := if c.hingeCur = some crew then none else c.hingeCur
      traps := c.traps.filter fun t => !(t.crew == crew)
      fw := { c.fw with retries := c.fw.retries.filter fun t => !(t.crew == crew) } }.dropBars old.part).releaseBoxes b.ctx
        b.launch (s.launchAway core b.ctx b.launch)

/-- The transfers of a stream in flight are abandoned for good: what they have written stays (R298). -/
def State.dropTransfers (s : State) (core : CoreId) (crew : CrewIx) (st : XferStream) : State :=
  let s := s.actAs core crew (xferRole st)
  ((s.unlockAll s.xq).forgetRefused s.xq).setXq []

/-- A block is stopped at once: its commands are abandoned, its requests withdrawn, its crew released (R298). -/
def State.cancelCrew (s : State) (core : CoreId) (crew : CrewIx) : State :=
  let cur := s.cur
  let ctx := (s.crewAt core crew).ctx
  let s := (s.dropTransfers core crew .l).dropTransfers core crew .s
  let s := (s.actAs core crew .c).dropMatrix
  let s := s.modCtx ctx fun k => { k with notices := k.notices.filter fun n => !(n.core == core && n.trap.crew == crew) }
  ({ s with cur := cur } : State).releaseCrew core crew

/-- ENDING A LAUNCH (R298): its blocks are stopped, and it completes with a status. -/
def State.endLaunch (s : State) (ctx : CtxId) (num status : Nat) (i : EndInfo) : State :=
  let s := s.modNpu fun n => { n with saves := n.saves.filter fun v => !(v.ctx == ctx && v.rec_.runs ctx num) }
  let s := (crewIds.filter fun q => (s.crewAt q.1 q.2).runs ctx num).foldl (fun s q => s.cancelCrew q.1 q.2) s
  let s : State := { s with cores := s.cores.map fun c => c.releaseBoxes ctx num false }
  s.finishLaunch ctx num status i

/-! ### Placement (R174, R176) -/

/-- An accepted command has not completed: its opcode, and what its payload names (R299, R302). -/
def State.accepted (s : State) (op : Nat) (names : ScpMsg → Bool) : Bool :=
  s.npu.cmds.any fun c => c.status = 0 && c.msg.opcode = op && names c.msg

/-- A RESUME of a context has been accepted, or it is resuming: nothing else is placed where its crews go (R302). -/
def State.resumes (s : State) (ctx : CtxId) : Bool :=
  (s.ctx ctx).state = .resuming || s.accepted 0x0C fun m => m.byte 0 = 0 && m.byte 1 = ctx.val

/-- A PREEMPT of a context has been accepted: no team of it is placed (R299). -/
def State.preempts (s : State) (ctx : CtxId) : Bool := s.accepted 0x0B fun m => m.byte 0 = ctx.val

/-- Runs of banks in use on a core: those of its crews, and those that a RESUME waits for (R302). -/
def State.banksUsed (s : State) (core : CoreId) : List (Nat × Nat) :=
  let run (part : XWord) : Nat × Nat := (partBase part, partNv part + partNs part + partNa part)
  (crewIxs.filterMap fun k =>
    let c := s.crewAt core k
    if c.block.isSome then some (run c.part) else none)
    ++ s.npu.saves.filterMap fun v =>
      if v.core = core && s.resumes v.ctx then some (run v.rec_.part) else none

/-- A crew is free for a block, its banks aside (R174, R302). -/
def State.crewFree (s : State) (core : CoreId) (k : CrewIx) : Bool :=
  (s.crewAt core k).block.isNone
    && !s.npu.saves.any fun v => v.core = core && v.crew = k && s.resumes v.ctx

/-- The lowest bank at which a run fits, from bank `b` (R174). -/
def lowestRun (used : List (Nat × Nat)) (n b : Nat) : Nat → Option Nat
  | 0 => none
  | fuel + 1 =>
    if 64 < b + n then none
    else if used.any fun u => u.1 < b + n && b < u.1 + u.2 then lowestRun used n (b + 1) fuel
    else some b

/-- The places of a core that could take a block of `n` banks each, crews ascending (R174). -/
def State.spotsOn (s : State) (n : Nat) (core : CoreId) : List (CoreId × CrewIx × Nat) :=
  if (s.core core).fw.stopped then []
  else (crewIxs.foldl (fun (a : List (CoreId × CrewIx × Nat) × List (Nat × Nat)) k =>
    if !s.crewFree core k then a
    else match lowestRun a.2 n 0 65 with
      | none => a
      | some b => (a.1 ++ [(core, k, b)], a.2 ++ [(b, n)])) ([], s.banksUsed core)).1

/-- Where a team of `k` blocks of `n` banks goes: the lowest die that holds it, or across dies (R174). -/
def State.placeTeam (s : State) (n k : Nat) : Option (List (CoreId × CrewIx × Nat)) :=
  let per := ([0, 1, 2, 3] : List DieId).map fun d => (List.range 16).flatMap fun i => s.spotsOn n (coreOf d i)
  match per.find? fun l => k ≤ l.length with
  | some l => some (l.take k)
  | none => if k ≤ per.flatten.length then some (per.flatten.take k) else none

/-- The blocks of a context placed now (R176). -/
def State.placedBlocks (s : State) (ctx : CtxId) : Nat :=
  (crewIds.filter fun q => match (s.crewAt q.1 q.2).block with
    | some b => b.ctx == ctx
    | none => false).length

/-- The crew quota and the scopes granted (Table 19.4). -/
def Ctx.crewQuota (k : Ctx) : Nat := field k.params.toNat 136 128

def Ctx.scopesGranted (k : Ctx) : Nat := field k.params.toNat 127 122

/-- A launch has a team left to place. -/
def Launch.unplaced (l : Launch) : Bool := l.placed < hdTeams l.hdr

/-- Every dependence of a launch has been posted (R175). -/
def Ctx.eligible (k : Ctx) (l : Launch) : Bool := l.deps.all fun d => k.finished.any fun f => f.1 == d && f.2

/-- The launch that a context's turn takes: the highest priority, the oldest there (R176). -/
def Ctx.turn (k : Ctx) : Option Launch :=
  (k.launches.filter fun l => l.unplaced && k.eligible l).foldl (fun best l => match best with
    | none => some l
    | some b => if b.prio < l.prio then some l else best) none

/-- The context whose turn it is: the next in rotation that has a team to place and is not being pre-empted (R176, R299). -/
def State.nextCtx (s : State) : Option CtxId :=
  let order := (ctxIds.filter fun k => s.npu.lastServed.val < k.val) ++ ctxIds.filter fun k => k.val ≤ s.npu.lastServed.val
  order.find? fun k =>
    ((s.ctx k).state = .idle || (s.ctx k).state = .running) && !s.preempts k && (s.ctx k).launches.any Launch.unplaced

/-- The partition word of an allotment (Table 5.2). -/
def partWord (h : Image) (base : Nat) : XWord :=
  BitVec.ofNat 64 (hdNv h + hdNs h * 2 ^ 8 + hdNa h * 2 ^ 16 + base * 2 ^ 24)

/-- `dom.id` and `dom.scopes` of a launch: one pair for all its blocks, fixed when its first team is placed (R168, R172,
R311, R313). -/
def State.domOf (s : State) (ctx : CtxId) (l : Launch) : W32 × BitVec 6 :=
  l.dom.getD (s.npu.domid, BitVec.ofNat 6 (Nat.lor (Nat.land (hdScopes l.hdr) (s.ctx ctx).scopesGranted) 3))

/-- The block at a position of a team (R168). -/
def blockOf (s : State) (ctx : CtxId) (l : Launch) (team pos : Nat) : Block :=
  let h := l.hdr
  { ctx := ctx, launch := l.num, blockid := team * hdTeamsz h + pos, teamid := team, teamsz := hdTeamsz h,
    nblocks := hdNblocks h, domid := (s.domOf ctx l).1, scopes := (s.domOf ctx l).2,
    b := l.b, slot := l.slot, cva := hdCva h, words := hdWords h, loader := l.loader, cref := hdCref h,
    revoked := l.revoked, started := false }

/-- A team takes its crews and its allotments, and its cores acquire at dev scope (R169, R191). -/
def State.placeBlocks (s : State) (ctx : CtxId) (l : Launch) (team : Nat) (spots : List (CoreId × CrewIx × Nat)) : State :=
  let dom := s.domOf ctx l
  let s := spots.zipIdx.foldl (fun s q =>
    s.modCrewAt q.1.1 q.1.2.1 fun c => { c with
      part := partWord l.hdr q.1.2.2, block := some (blockOf s ctx l team q.2) }) s
  let s := spots.foldl (fun s q => s.acquire q.1 (s.spot q.1 q.2.1) .dev fun c => c < s.cycle) s
  (s.modNpu fun n => { n with placed := n.placed ++ [{ ctx := ctx, launch := l.num, team := team, clock := s.cycle }] }).modCtx
    ctx fun k => { k with
      state := if k.state = .idle then .running else k.state
      launches := k.launches.map fun q => if q.num = l.num then { q with placed := team + 1, dom := some dom } else q }

/-- DISPATCH_TEAM: the dispatcher's turn, at most one every 16 clk, on the state at the start of the clock (R176). -/
def execDispatchTeam (s : State) : Host.Outcome State Fault Refusal :=
  .next (
    if !s.quiet || s.boot.stage ≠ .ready || s.npu.lastTurn.any (fun t => s.cycle < t + 16) then s
    else match s.nextCtx with
      | none => s
      | some k =>
        let s := s.modNpu fun n => { n with lastServed := k, lastTurn := some s.cycle }
        match (s.ctx k).turn with
        | none => s
        | some l =>
          if (s.ctx k).crewQuota < s.placedBlocks k + hdTeamsz l.hdr then s
          else match s.placeTeam (hdBanks l.hdr) (hdTeamsz l.hdr) with
            | none => s
            | some spots => s.placeBlocks k l l.placed spots)

/-! ### The start of a block (R170) -/

/-- A sequencer at its entry word. -/
def Seq.entry (pc : Nat) : Seq := { Seq.idle with status := .running, pc := BitVec.ofNat 64 pc }

/-- A crew as its block starts (R170): `lens` are the lengths of the X, L and C sections. -/
def Crew.start (c : Crew) (b : Block) (lx ll lc : Nat) : Crew :=
  let pcC := b.cva + 4 * (lx + ll)
  { Crew.idle with
    part := c.part
    block := some { b with started := true }
    desctab := BitVec.ofNat 23 (sBegin c.part)
    seqX := Seq.entry b.cva
    seqL := Seq.entry (b.cva + 4 * lx)
    seqC := Seq.entry pcC
    seqS := Seq.entry (pcC + 4 * lc)
    entry := true
    snap := { Crew.idle.snap with pc := BitVec.ofNat 64 pcC } }

/-- The allotment becomes zero bytes. -/
def Core.zeroAllotment (c : Core) (part : XWord) : Core :=
  let org := poolPlace part 0
  { c with
    pool := memClear c.pool org (allotEnd part)
    badPool := c.badPool.filter fun w => !(org ≤ 8 * w && 8 * w < org + allotEnd part) }.dropBars part

/-- The blocks of a placed team begin together (R169, R170). -/
def State.startTeam (s : State) (ctx : CtxId) (launch team : Nat) : State :=
  match (s.ctx ctx).launches.find? fun l => l.num == launch with
  | none => s
  | some l =>
    if !s.npu.placed.any (fun p => p.ctx == ctx && p.launch == launch && p.team == team) then s
    else
      let s := s.modNpu fun n => { n with
        placed := n.placed.filter fun p => !(p.ctx == ctx && p.launch == launch && p.team == team) }
      crewIds.foldl (fun s q =>
        let c := s.crewAt q.1 q.2
        match c.block with
        | some b =>
          if b.ctx = ctx && b.launch = launch && b.teamid = team && !b.started then
            (s.modCore q.1 fun k => k.zeroAllotment c.part).setCrewAt q.1 q.2
              (c.start b (hdLx l.hdr) (hdLl l.hdr) (hdLc l.hdr))
          else s
        | none => s) s

/-- BLOCK_START: a placed team's blocks begin (R169, R170). -/
def execBlockStart (ctx : CtxId) (launch team : Nat) (s : State) : Host.Outcome State Fault Refusal :=
  .next (s.startTeam ctx launch team)

/-- The clocks within which a team starts from its selection on (R174). -/
def startClocks : Nat := 2400

/-- Teams whose bound is reached start (R174). -/
def State.startDue (s : State) : State :=
  (s.npu.placed.filter fun p => p.clock + startClocks ≤ s.cycle).foldl (fun s p => s.startTeam p.ctx p.launch p.team) s

/-! ### The completion of a block (R171, R192) -/

/-- Every sequencer of a crew has halted and its pushes are made. -/
def Crew.halted (c : Crew) : Bool :=
  [c.seqX, c.seqL, c.seqC, c.seqS].all fun q => q.status = .halted && q.held.isEmpty

/-- A sequencer of a crew wrote it. -/
def Writer.ofCrew (core : CoreId) (crew : CrewIx) (w : Writer) : Bool :=
  match w with
  | .seq k c r => k == core && c == crew && r ≠ .fw
  | .cmd _ | .away .. | .host _ | .npu | .peer => false

/-- The commands of a crew that have retired. -/
def Crew.retired (c : Crew) : List Nat := c.seqX.retired ++ c.seqL.retired ++ c.seqC.retired ++ c.seqS.retired

/-- A block is over: its stores and its commands' are published at dev scope, its crew is released, and with the last block the
launch completes (R171, R192). -/
def State.closeBlock (s : State) (q : CoreId × CrewIx) (b : Block) : State :=
  let cmds := (s.crewAt q.1 q.2).retired
  let s := s.publishAs b.ctx (fun w => w.ofCrew q.1 q.2 || w.isCmd cmds) (s.pubNow .dev (s.spot q.1 q.2))
  let s := s.releaseCrew q.1 q.2
  let done := ((s.ctx b.ctx).launches.find? fun l => l.num == b.launch).any fun l => l.done + 1 = b.nblocks
  let s := s.modCtx b.ctx fun k => { k with
    launches := k.launches.map fun l => if l.num = b.launch then { l with done := l.done + 1 } else l }
  if done then s.finishLaunch b.ctx b.launch stOk EndInfo.none_ else s

/-- What the sequencer that wrote a store sees of the others. -/
def State.ownerSees (s : State) (r h : RemoteStore) : Bool :=
  match r.writer with
  | .seq c k role => h.under.isNone && s.seesBy c k role h.writer h.id
  | .away .. | .cmd _ | .host _ | .npu | .peer => false

/-- One crew at the end of a clock: a block whose sequencers have halted sends its remote stores, waits for their
acknowledgements and for its masks, and then is over (R171, R192). A put refused then has no word to report it and is dropped
(log 34). -/
def State.completeCrew (s : State) (q : CoreId × CrewIx) : State :=
  match (s.crewAt q.1 q.2).block with
  | none => s
  | some b =>
    let mine (r : RemoteStore) : Bool := r.writer.ofCrew q.1 q.2 && r.open_
    if !(s.crewAt q.1 q.2).halted || (s.dies.get (dieOf q.1)).masks.any (fun m => m.core == q.1 && m.crew == q.2) then s
    else match s.delivery mine with
      | .unsent => (s.reviveHeld mine).sendOwn mine s.ownerSees
      | .waiting => s
      | .refused _ => ({ s with mem := { s.mem with remote := s.mem.remote.filter fun r => !mine r } } : State).closeBlock q b
      | .delivered => s.closeBlock q b

/-- Every block that completes in this clock. -/
def State.completeBlocks (s : State) : State := crewIds.foldl State.completeCrew s

end Sys2Proof.Machine
end

