-- ==== Sys2Proof/Machine/Save.lean ====
section
/-! DEFINITION. The crew record of a save area (spec/18_translation_faults.md R301, Tables 18.7): its fields one after another, how
each is taken from a crew, and how it is put back. Where the table gives a group of fields no order, the order is the model's
(log 35). The address of a word is put back as the word that it lies in: a pc is always a multiple of 4 (R42, log 57). -/

namespace Sys2Proof.Machine

/-- What a record is made of: a crew, the traps it keeps (R300), and the mailboxes of its launch. -/
structure Packed where
  crew : Crew
  traps : List Trap
  boxes : List (Nat × Mailbox)
  deriving DecidableEq, Repr

/-- A field of a record: its bytes, its value, and putting a value back. -/
structure RecField where
  bytes : Nat
  get : Packed → Nat
  put : Nat → Packed → Packed

/-- Bytes that the table leaves unused: written as zeros. -/
def RecField.gap (n : Nat) : RecField := { bytes := n, get := fun _ => 0, put := fun _ r => r }

/-- A field of the crew. -/
def RecField.crew (n : Nat) (get : Crew → Nat) (put : Nat → Crew → Crew) : RecField :=
  { bytes := n, get := fun r => get r.crew, put := fun v r => { r with crew := put v r.crew } }

/-- One field for each position below `n`. -/
def fieldsFor (n : Nat) (f : Fin n → List RecField) : List RecField := (List.finRange n).flatMap f

/-- The streams in the order of Table 1.3. -/
def streams : List Stream := [.x, .l, .c, .s]

def Crew.modSeqOf (c : Crew) (st : Stream) (f : Seq → Seq) : Crew := c.setSeq st (f (c.seq st))

/-! ### Loop stacks and ports -/

/-- The code of a loop's kind; 0 is no entry. -/
def LoopKind.code : LoopKind → Nat
  | .plain => 1
  | .rotating => 2
  | .cursor => 3

def LoopKind.ofCode : Nat → LoopKind
  | 2 => .rotating
  | 3 => .cursor
  | _ => .plain

/-- A loop entry in 32 bytes. -/
def LoopEntry.pack (e : LoopEntry) : Nat :=
  below 64 e.first.toNat <| below 64 e.last.toNat <| below 64 e.left <| below 8 e.kind.code <| below 8 e.cur.val (e.outer % 2 ^ 48)

def LoopEntry.unpack (v : Nat) : LoopEntry :=
  { first := wordStart (BitVec.ofNat 64 v), last := wordStart (BitVec.ofNat 64 (v / 2 ^ 64)), left := field v 191 128
    kind := LoopKind.ofCode (field v 199 192), outer := field v 255 208, cur := ⟨field v 207 200 % 16, by omega⟩ }

/-- The four entries of a loop stack, innermost first. -/
def loopFields (get : Crew → List LoopEntry) (put : List LoopEntry → Crew → Crew) : List RecField :=
  [RecField.crew 128
    (fun c => ((get c).zipIdx.map fun e => e.1.pack * 2 ^ (256 * e.2)).sum)
    fun v => put (((List.range 4).map fun i => v / 2 ^ (256 * i) % 2 ^ 256).filter (fun e => field e 199 192 ≠ 0)
      |>.map LoopEntry.unpack)]

/-- A port in 32 bytes: active, base, record, position. -/
def Port.pack (p : Port) : Nat :=
  below 8 p.active.toNat <| below 56 p.base.toNat <| below 128 p.record.toNat (p.pos % 2 ^ 64)

def Port.unpack (v : Nat) : Port :=
  { active := v % 2 = 1, base := BitVec.ofNat 48 (v / 2 ^ 8), record := BitVec.ofNat 128 (v / 2 ^ 64), pos := field v 255 192 }

def portFields (get : Crew → Vector Port 6) (put : Vector Port 6 → Crew → Crew) : List RecField :=
  fieldsFor 6 fun i => [RecField.crew 32 (fun c => ((get c).get i).pack) fun v c => put ((get c).set i (Port.unpack v)) c]

/-! ### The head: 256 bytes -/

/-- A queue comes to hold `n` tokens: what each carries is the model's own (R196). -/
def Queue.fit (n : Nat) (q : Queue) : Queue :=
  { q with toks := q.toks.take n ++ List.replicate (n - q.toks.length) [] }

/-- Trap `i` in 20 bytes: `trapcause`, `trapseq` and a valid bit, `trappc`, `trapaddr`. -/
def trapField (i : Nat) : RecField :=
  { bytes := 20
    get := fun r => match r.traps[i]? with
      | some t => below 8 t.code.toNat <| below 16 t.info.toNat <| below 7 t.stream.num.val <| below 1 1 <|
          below 64 t.pc.toNat t.addr.toNat
      | none => 0
    put := fun v r =>
      if field v 31 31 = 1 then { r with traps := r.traps.modify i fun t => { t with
        code := BitVec.ofNat 8 v, info := BitVec.ofNat 16 (v / 2 ^ 8), pc := BitVec.ofNat 64 (v / 2 ^ 32)
        addr := BitVec.ofNat 64 (v / 2 ^ 96), stream := Stream.ofNum (field v 30 24) } }
      else r }

/-- The position of a Hinge run: phase, vertex or step, edge. -/
def HingePhase.pack : HingePhase → Nat
  | .ready => 0
  | .edges i j => below 8 1 <| below 32 i j
  | .arrived => 2
  | .finalize i => below 8 3 i
  | .phase => 4
  | .check i j => below 8 5 <| below 32 i j

def HingePhase.unpack (v : Nat) : HingePhase :=
  match v % 256 with
  | 1 => .edges (field v 39 8) (v / 2 ^ 40)
  | 2 => .arrived
  | 3 => .finalize (v / 2 ^ 8)
  | 4 => .phase
  | 5 => .check (field v 39 8) (v / 2 ^ 40)
  | _ => .ready

def headFields : List RecField :=
  (streams.map fun st => RecField.crew 8 (fun c => (c.seq st).pc.toNat) fun v c =>
    c.modSeqOf st fun q => { q with pc := wordStart (BitVec.ofNat 64 v) })
  ++ fieldsFor 8 (fun i => [RecField.crew 2 (fun c => (c.queues.get i).toks.length) fun v c => c.modQueue i (Queue.fit v)])
  ++ [RecField.crew 2 (fun c => c.creditL.length) fun v c => { c with creditL := c.creditL.take v },
      RecField.crew 2 (fun c => c.creditS.length) fun v c => { c with creditS := c.creditS.take v },
      RecField.crew 4 (fun c => c.desctab.toNat) fun v c => { c with desctab := BitVec.ofNat 23 v },
      RecField.crew 8 (fun c => c.waitlim.toNat) fun v c => { c with waitlim := BitVec.ofNat 48 v },
      RecField.crew 4 (fun c => c.rep.toNat) fun v c => { c with rep := BitVec.ofNat 32 v },
      RecField.gap 4]
  ++ (List.range 4).map trapField
  ++ [RecField.crew 16 (fun c => c.hinge.phase.pack) fun v c => { c with hinge := { c.hinge with phase := HingePhase.unpack v } },
      RecField.crew 4 (fun c => c.taddL) fun v c => { c with taddL := v },
      RecField.crew 4 (fun c => c.taddS) fun v c => { c with taddS := v },
      RecField.gap 80]

/-! ### Registers, loop stacks, vector state and the restart point: 2,304 bytes -/

/-- The a-registers of a file from `a1` on. -/
def aFields (get : Crew → Vector AWord 16) (put : Vector AWord 16 → Crew → Crew) : List RecField :=
  fieldsFor 15 fun i =>
    let r : Fin 16 := i.succ
    [RecField.crew 8 (fun c => ((get c).get r).toNat) fun v c => put ((get c).set r (BitVec.ofNat 48 v)) c]

def registerFields : List RecField :=
  fieldsFor 63 (fun i => [RecField.crew 8 (fun c => (c.x.get i.succ).toNat) fun v c =>
    { c with x := c.x.set i.succ (BitVec.ofNat 64 v) }])
  ++ fieldsFor 32 (fun i => [RecField.crew 4 (fun c => (c.f.get i).toNat) fun v c => { c with f := c.f.set i (BitVec.ofNat 32 v) }])
  ++ [RecField.gap 8]
  ++ aFields Crew.aL (fun a c => { c with aL := a }) ++ aFields Crew.aC (fun a c => { c with aC := a })
  ++ aFields Crew.aS (fun a c => { c with aS := a }) ++ [RecField.gap 24]
  ++ streams.flatMap fun st => loopFields (fun c => (c.seq st).loops) fun l c => c.modSeqOf st fun q => { q with loops := l }

def vectorFields : List RecField :=
  [RecField.crew 4 (fun c => c.vsh.toNat) fun v c => { c with vsh := BitVec.ofNat 32 v },
   RecField.crew 1 (fun c => c.vbase.toNat) fun v c => { c with vbase := BitVec.ofNat 5 v },
   RecField.crew 1 (fun c => c.pbase.toNat) fun v c => { c with pbase := BitVec.ofNat 2 v }, RecField.gap 2]
  ++ portFields Crew.ports (fun p c => { c with ports := p }) ++ [RecField.gap 312]

def Crew.modSnap (c : Crew) (f : Snapshot → Snapshot) : Crew := { c with snap := f c.snap }

def snapFields : List RecField :=
  [RecField.crew 8 (fun c => c.snap.pc.toNat) fun v c => c.modSnap fun q => { q with pc := wordStart (BitVec.ofNat 64 v) }]
  ++ aFields (fun c => c.snap.a) (fun a c => c.modSnap fun q => { q with a := a })
  ++ [RecField.crew 4 (fun c => c.snap.vsh.toNat) fun v c => c.modSnap fun q => { q with vsh := BitVec.ofNat 32 v },
      RecField.crew 1 (fun c => c.snap.vbase.toNat) fun v c => c.modSnap fun q => { q with vbase := BitVec.ofNat 5 v },
      RecField.crew 1 (fun c => c.snap.pbase.toNat) fun v c => c.modSnap fun q => { q with pbase := BitVec.ofNat 2 v },
      RecField.crew 2 (fun c => c.snap.mask.toNat) fun v c => c.modSnap fun q => { q with mask := BitVec.ofNat 16 v },
      RecField.crew 4 (fun c => c.snap.rep.toNat) fun v c => c.modSnap fun q => { q with rep := BitVec.ofNat 32 v },
      RecField.gap 4]
  ++ loopFields (fun c => c.snap.loops) (fun l c => c.modSnap fun q => { q with loops := l })
  ++ portFields (fun c => c.snap.ports) (fun p c => c.modSnap fun q => { q with ports := p }) ++ [RecField.gap 48]

/-! ### Descriptors, counts, tags, mailboxes and flags -/

def Crew.modRing (c : Crew) (i : Fin 16) (f : Ring → Ring) : Crew := { c with rings := c.rings.set i (f (c.rings.get i)) }
def Crew.modTile (c : Crew) (i : Fin 16) (f : Tile → Tile) : Crew := { c with tiles := c.tiles.set i (f (c.tiles.get i)) }
def Crew.modDrain (c : Crew) (i : Fin 16) (f : Drain → Drain) : Crew := { c with drains := c.drains.set i (f (c.drains.get i)) }

def descriptorFields : List RecField :=
  fieldsFor 16 (fun i => [RecField.crew 64 (fun c => (c.rings.get i).img.toNat) fun v c =>
    c.modRing i fun d => { d with img := BitVec.ofNat 512 v }])
  ++ fieldsFor 16 (fun i => [RecField.crew 64 (fun c => (c.tiles.get i).img.toNat) fun v c =>
    c.modTile i fun d => { d with img := BitVec.ofNat 512 v }])
  ++ fieldsFor 16 (fun i => [RecField.crew 64 (fun c => (c.drains.get i).img.toNat) fun v c =>
    c.modDrain i fun d => { d with img := BitVec.ofNat 512 v }])

/-- Held slot `i` of L's and then S's in 7 bytes: ring and slot; how many there are is the sequencer's (log 35). -/
def heldField (i : Nat) : RecField :=
  let code (h : HeldSlot) : Nat := h.ring.val + h.slot * 256
  let uncode (v : Nat) : HeldSlot := { ring := ⟨v % 16, by omega⟩, slot := v / 256 }
  RecField.crew 7
    (fun c => match (c.heldL ++ c.heldS)[i]? with
      | some h => code h
      | none => 0)
    fun v c =>
      if i < c.heldL.length then { c with heldL := c.heldL.set i (uncode v) }
      else { c with heldS := c.heldS.set (i - c.heldL.length) (uncode v) }

def countFields : List RecField :=
  fieldsFor 16 (fun i =>
    [RecField.crew 6 (fun c => (c.rings.get i).head) fun v c => c.modRing i fun d => { d with head := v },
     RecField.crew 6 (fun c => (c.rings.get i).tail) fun v c => c.modRing i fun d => { d with tail := v },
     RecField.crew 6 (fun c => (c.rings.get i).resv) fun v c => c.modRing i fun d => { d with resv := v },
     RecField.crew 6 (fun c => (c.rings.get i).rhead) fun v c => c.modRing i fun d => { d with rhead := v }])
  ++ (List.range 18).map heldField ++ [RecField.gap 2]

def tagFields : List RecField :=
  fieldsFor 16 fun i => [RecField.crew 64 (fun c => (c.tiles.get i).tag.toNat) fun v c =>
    c.modTile i fun t => { t with tag := BitVec.ofNat 512 v }]

/-- Entry `j` of mailbox `i`; how many there are is the mailbox's. -/
def boxField (i j : Nat) : RecField :=
  { bytes := 8
    get := fun r => match r.boxes.find? fun b => b.1 == i with
      | some b => match b.2.entries[j]? with
        | some e => e.value.toNat
        | none => 0
      | none => 0
    put := fun v r => { r with boxes := r.boxes.map fun b =>
      if b.1 = i then (b.1, { b.2 with entries := b.2.entries.modify j fun e => { e with value := BitVec.ofNat 64 v } }) else b } }

/-- A vector of 16 flags as a number. -/
def flags16 (f : Fin 16 → Bool) : Nat := ((List.finRange 16).map fun i => (f i).toNat * 2 ^ i.val).sum

def flagFields : List RecField :=
  [RecField.crew 2 (fun c => flags16 fun i => (c.rings.get i).set) fun v c =>
      { c with rings := Vector.ofFn fun i => { c.rings.get i with set := v.testBit i.val } },
   RecField.crew 2 (fun c => flags16 fun i => (c.tiles.get i).set) fun v c =>
      { c with tiles := Vector.ofFn fun i => { c.tiles.get i with set := v.testBit i.val } },
   RecField.crew 2 (fun c => flags16 fun i => (c.drains.get i).set) fun v c =>
      { c with drains := Vector.ofFn fun i => { c.drains.get i with set := v.testBit i.val } }]
  ++ fieldsFor 16 (fun i => [RecField.crew 3
      (fun c => below 1 (c.tiles.get i).replay.armed.toNat <| below 1 (c.tiles.get i).replay.begun.toNat (c.tiles.get i).replay.count)
      fun v c => c.modTile i fun t => { t with replay := { t.replay with
        armed := v.testBit 0, begun := v.testBit 1, count := v / 4, old := v.testBit 0, begunOld := v.testBit 1, countOld := v / 4 } }])
  ++ [RecField.crew 2 (fun c => below 8 c.check.valid.toNat c.check.tile.val) fun v c =>
        { c with check := { c.check with valid := v.testBit 0, tile := ⟨v / 256 % 16, by omega⟩, used := false } },
      RecField.gap 8,
      RecField.crew 64 (fun c => c.check.img.toNat) fun v c => { c with check := { c.check with img := BitVec.ofNat 512 v } }]
  ++ fieldsFor 16 fun i => [RecField.crew 64 (fun c => (c.tiles.get i).replay.trail.toNat) fun v c =>
      c.modTile i fun t => { t with replay := { t.replay with trail := BitVec.ofNat 512 v, trailOld := BitVec.ofNat 512 v } }]

/-- TABLE 18.7 up to the partitions. -/
def recordFields : List RecField :=
  headFields ++ registerFields ++ vectorFields ++ snapFields ++ descriptorFields ++ countFields ++ tagFields
    ++ ((List.range 8).flatMap fun i => (List.range 16).map (boxField i)) ++ flagFields ++ [RecField.gap (0x10000 - 0x2580)]

/-- The bytes of a record up to its partitions. -/
def Packed.bytes (r : Packed) : List Byte := recordFields.flatMap fun f => natLe f.bytes (f.get r)

/-- Putting the fields of a record back, one after another. -/
def putFields : List RecField → List Byte → Packed → Packed
  | [], _, r => r
  | f :: rest, b, r => putFields rest (b.drop f.bytes) (f.put (leNat (b.take f.bytes)) r)

def Packed.restore (b : List Byte) (r : Packed) : Packed := putFields recordFields b r

/-! ### The V partition: vector and predicate registers -/

/-- The bytes of the vector and predicate registers, which lie from the beginning of the V partition on (log 35). -/
def Crew.vBytes (c : Crew) : List Byte :=
  (c.v.toList.flatMap fun v => natLe 256 v.toNat) ++ c.p.toList.flatMap fun p => natLe 8 p.toNat

/-- The registers from those bytes. -/
def Crew.setVBytes (b : List Byte) (c : Crew) : Crew :=
  { c with
    v := Vector.ofFn fun i => BitVec.ofNat 2048 (leNat ((b.drop (256 * i.val)).take 256))
    p := Vector.ofFn fun i => BitVec.ofNat 64 (leNat ((b.drop (256 * 56 + 8 * i.val)).take 8)) }

/-- The length of those bytes. -/
def vBytesLen : Nat := 256 * 56 + 8 * 8

end Sys2Proof.Machine
end

