-- ==== Sys2Proof/Machine/Firmware.lean ====
section
/-! DEFINITION. The firmware context's work (spec/18_translation_faults.md R296 to R302; spec/20_firmware_security.md R320
to R323; spec/05_isa_system.md R89, R91): traps disposed of, `eret`, the stop of a firmware context, and the saving and
restoring of a context. -/

namespace Sys2Proof.Machine

/-! ### C abandoned to its restart point (R69, R149, R224) -/

/-- A trail after C has gone back to its restart point; `masked` when its tile is in the restart mask (R149). -/
def Replay.restart (masked : Bool) (r : Replay) : Replay :=
  { r with
    trail := r.trailOld
    armed := r.old
    begun := r.old && r.begunOld && !masked
    count := if r.old && r.begunOld && !masked then r.countOld else 0 }

/-- The crew's registers, heads, credits and trails as the restart gives them (R69). A check tag that an `mreplay.chk` after the restart
point has armed from is valid again, so that the word arms again when it executes again (R149; log 52). -/
def Crew.restart (c : Crew) : Crew :=
  let q := c.snap
  let c := { c with
    aC := q.a, vsh := q.vsh, vbase := q.vbase, pbase := q.pbase, rep := q.rep, ports := q.ports, repRun := none
    rings := c.rings.map fun (r : Ring) => if r.set then { r with head := r.rhead } else r
    tiles := Vector.ofFn fun i => { c.tiles.get i with replay := (c.tiles.get i).replay.restart (q.mask.getLsbD i.val) }
    check := { c.check with valid := c.check.valid || c.check.used, used := false }
    restarted := true }
  let c := (c.modQueue (popQueueP .c) (Queue.giveBack c.creditL)).modQueue (popQueueN .c) (Queue.giveBack c.creditS)
  { c with
    creditL := [], creditS := []
    seqC := { c.seqC with pc := q.pc, loops := q.loops, wait := none, held := [], status := .running } }

/-- ABANDONING C: its matrix words go, its tiles in the restart mask become zeros, and it stands at its restart point
(R69). The step's agent is that C. -/
def State.abandonC (s : State) : State :=
  let mask := s.crew.snap.mask
  let s := s.dropMatrix
  let s := (maskTiles mask).foldl (fun s i => if (s.tile i).set then s.zeroTile i else s) s
  s.modCrew Crew.restart

/-! ### Traps (Table 18.5) -/

/-- A translation fault that a host can service (Table 18.5). -/
def isXlatFault (code : BitVec 8) : Bool := code = codePageNp || code = codePagePerm || code = codeStage2

/-- A soft error that no code repairs (Table 18.5). -/
def isSoftFault (code : BitVec 8) : Bool := code = codeRegParity || code = codePoolEcc || code = codeHbmEcc

/-- A notice's payload: its number, `trapaddr`, the access kind or the immediate, and the code; the order is the model's
(log 33). -/
def noticeBytes (num : Nat) (t : Trap) : List Byte :=
  natLe 8 num ++ natLe 8 t.addr.toNat ++ natLe 2 t.info.toNat ++ natLe 1 t.code.toNat

/-- A notice is posted on the context's session and takes its number; `holds` keeps it open for a RESUME (R297). -/
def State.notice (s : State) (core : CoreId) (t : Trap) (holds : Bool) : State :=
  let num := (s.ctx t.ctx).nextNotice
  (s.post t.ctx 2 0x41 stOk 0 (noticeBytes num t)).modCtx t.ctx fun k => { k with
    nextNotice := num + 1
    notices := if holds then k.notices ++ [{ num := num, core := core, trap := t, holds := true }] else k.notices }

/-- The block number of a crew. -/
def Crew.blockid (c : Crew) : Nat :=
  match c.block with
  | some b => b.blockid
  | none => 0

/-- The launch of a trapped crew ends with the trap's status (R298). -/
def State.endByTrap (s : State) (core : CoreId) (t : Trap) : State :=
  match (s.crewAt core t.crew).block with
  | none => s
  | some b => s.endLaunch b.ctx b.launch stFailed
      { code := t.code, stream := t.stream, blockid := b.blockid, pc := t.pc, addr := t.addr }

/-- The firmware context of a core changes. -/
def State.modFwAt (s : State) (core : CoreId) (f : Fw → Fw) : State := s.modCore core fun c => { c with fw := f c.fw }

/-- Thaper's disposition of a trap, with the trap CSRs written (Table 18.5, R323). It ends in an `eret`, except where the
sequencer is held for a notice or its launch has ended (log 13). -/
def State.dispose (s : State) (core : CoreId) (t : Trap) : State :=
  let leave (s : State) : State := s.modFwAt core fun w => { w with serving := .nothing }
  let back (s : State) : State := s.modFwAt core fun w => { w with eretDue := true }
  if isXlatFault t.code then leave (s.notice core t true)
  else if t.code = codeTrapInsn then back (s.notice core t false)
  else if t.code = codeAccCheck then
    let n := (s.crewAt core t.crew).accFails + 1
    let s := s.modCrewAt core t.crew fun c => { c with accFails := n }
    if n < 4 then back s
    else
      let tile := (s.crewAt core t.crew).check.tile
      let s : State := { s with boot := { s.boot with faultTiles := s.boot.faultTiles ++ [(s.boot.nextFault, tile)] } }
      leave ((s.faultRecord (faultOfTrap 6 core t)).endByTrap core t)
  else if isSoftFault t.code then leave ((s.faultRecord (faultOfTrap 2 core t)).endByTrap core t)
  else leave ((s.faultRecord (faultOfTrap 1 core t)).endByTrap core t)

/-- A firmware context that can take a trap: it is idle. -/
def Fw.idle (w : Fw) : Bool := !w.stopped && w.serving = .nothing && !w.eretDue && w.seq.status ≠ .running

/-- TRAP_ENTRY: the firmware context of a core takes the word that a RESUME retries, or the oldest waiting trap, and
disposes of it. A trap is taken in a later clock than the one it was raised in, when every trap of that clock has its place
(R89, R297). A trap of a crew that has halted for a pre-emption is not taken: it is saved with the crew, and taken on resume
(R300). -/
def execTrapEntry (core : CoreId) (s : State) : Host.Outcome State Fault Refusal :=
  .next (
    let w := (s.core core).fw
    if !w.idle then s
    else match w.retries with
      | t :: rest =>
        (enterTrap core t s).modFwAt core fun w => { w with retries := rest, eretDue := true }
      | [] => match (s.core core).traps.find? fun t => !(s.ctx t.ctx).frozen with
        | none => s
        | some t =>
          if s.cycle ≤ t.clock then s
          else (enterTrap core t (s.modCore core fun c => { c with traps := c.traps.erase t })).dispose core t)

/-! ### `eret` (R91) -/

/-- The sequencer named by `trapseq` and `trapcrew` resumes at `trappc`, C abandoned by ACC_CHECK at its restart point, and one
whose work a pre-emption has abandoned where that work begins again, whatever `trappc` holds (R91, R157). One that is no
longer held in a trap is left alone. A pc is always a multiple of 4 (R42): where firmware has set `trappc` to another value the
sequencer resumes at the word that the address lies in (DESIGN CHOICE, log 57). -/
def State.returnTrap (s : State) (core : CoreId) : State :=
  let w := (s.core core).fw
  let crew : CrewIx := ⟨w.tcrew.toNat % 4, by omega⟩
  let st := Stream.ofNum w.tseq.toNat
  let back := match w.serving with
    | .trap b => b
    | .nothing | .boot | .preempt _ => none
  let c := s.crewAt core crew
  if c.block.isNone || (c.seq st).status ≠ .trapped || c.ctx.val ≠ field w.tcrew.toNat 13 8 then s
  else if st = .c && back.isNone && w.cause.toNat % 256 = codeAccCheck.toNat then
    let cur := s.cur
    { (s.actAs core crew .c).abandonC with cur := cur }
  else resumeSeq core crew st (some (wordStart (back.getD w.tpc))) { s with mem := s.mem.forgetGets core crew fun r => r == st.role }

/-- `eret` ends the handler: the trapped sequencer resumes, and the firmware context is idle (R91). Outside the firmware
context it fails decoding. -/
def execEret (_tk : Tok) (s : State) : Host.Outcome State Fault Refusal :=
  if s.cur.role ≠ .fw then .next (raise (trapOf codeIllegalOp) s)
  else
    let s := match s.here.fw.serving with
      | .trap _ => s.returnTrap s.cur.core
      | .nothing | .boot | .preempt _ => s
    .next (s.modFwAt s.cur.core fun w => { w with
      serving := .nothing, eretDue := false, seq := { w.seq with status := .idle, wait := none, issued := true } })

/-! ### FIRMWARE_STOP (R322) -/

/-- The launches with a crew on a core, each with its blocks' lowest number there. -/
def Core.launches (c : Core) : List (CtxId × Nat × Nat) :=
  crewIxs.foldl (fun l k => match (c.crew k).block with
    | none => l
    | some b => if l.any fun q => q.1 == b.ctx && q.2.1 == b.launch then l else l ++ [(b.ctx, b.launch, b.blockid)]) []

/-- FIRMWARE_STOP: a trap of the firmware context has stopped it; a record is written and every launch with a crew on the
core ends (R322). -/
def execFirmwareStop (core : CoreId) (s : State) : Host.Outcome State Fault Refusal :=
  .next (match (s.core core).fw.fault with
    | none => s
    | some t =>
      let s := s.faultRecord { faultOfTrap 3 core t with ctx := 0, crew := 0, stream := .x }
      let s := s.modFwAt core fun w => { w with fault := none, stopped := true, serving := .nothing, eretDue := false }
      (s.core core).launches.foldl (fun s q =>
        s.endLaunch q.1 q.2.1 stFailed { code := t.code, stream := .x, blockid := q.2.2, pc := t.pc, addr := t.addr }) s)

/-! ### Halting a context (R299, R300, Table 18.6) -/

/-- The crews of a context, by die, core and crew. -/
def State.crewsOf (s : State) (ctx : CtxId) : List (CoreId × CrewIx) :=
  crewIds.filter fun q => match (s.crewAt q.1 q.2).block with
    | some b => b.ctx == ctx
    | none => false

/-- A trapped sequencer keeps its trap through a pre-emption: it waits for the firmware or is in service, and is no translation
fault, whose word is simply executed again (R300). -/
def State.keepsTrap (s : State) (core : CoreId) (crew : CrewIx) (st : Stream) : Bool :=
  let w := (s.core core).fw
  (s.core core).traps.any (fun t => t.crew == crew && t.stream == st && !isXlatFault t.code)
    || match w.serving with
      | .trap _ => w.tcrew.toNat % 256 = crew.val && w.tseq.toNat = st.num.val && !isXlatFault (w.cause.setWidth 8)
      | .nothing | .boot | .preempt _ => false

/-- A sequencer whose trap is kept stands at its trapped word (R45), and goes on where its abandoned work begins again. -/
def State.standTrapped (s : State) (core : CoreId) (crew : CrewIx) (st : Stream) (pc : XWord) : State :=
  let back := some ((s.crewAt core crew).seq st).pc
  let s := s.modCrewAt core crew fun c => c.modSeqOf st fun q => { q with pc := pc, status := .trapped }
  s.modCore core fun c => { c with
    traps := c.traps.map fun t => if t.crew = crew && t.stream = st then { t with back := back } else t
    fw := { c.fw with serving := match c.fw.serving with
      | .trap b => if c.fw.tcrew.toNat % 256 = crew.val && c.fw.tseq.toNat = st.num.val then .trap back else .trap b
      | k => k } }

/-- The transfers of a stream are abandoned, to be executed in full on resume (R157, Table 18.6). -/
def State.haltTransfers (s : State) (core : CoreId) (crew : CrewIx) (st : XferStream) : State :=
  let role := xferRole st
  let s := s.actAs core crew role
  let q := s.seq
  match s.xq with
  | [] => s
  | x :: rest =>
    let t := s.abandonXfers [] x rest
    if q.status = .trapped && s.keepsTrap core crew role.stream then t.standTrapped core crew role.stream q.pc else t

/-- C's words since its restart point are abandoned; a C that has halted has none (Table 18.6, R69). -/
def State.haltMatrix (s : State) (core : CoreId) (crew : CrewIx) : State :=
  let s := s.actAs core crew .c
  let q := s.seq
  if q.status = .halted then s
  else if q.status = .trapped && s.keepsTrap core crew .c then s.abandonC.standTrapped core crew .c q.pc
  else s.abandonC

/-- A sequencer halts: what it waits for begins afresh on resume (Table 18.6). -/
def Seq.halt (refault : Bool) (q : Seq) : Seq :=
  { q with status := if refault then .running else q.status, wait := none, pushWait := none, line := none }

/-- A crew of a pre-empted context halts, its work in flight disposed of (Table 18.6); its pending translation faults are not
kept, and their notices stay open (R300). -/
def State.haltCrew (s : State) (core : CoreId) (crew : CrewIx) : State :=
  let s := ((s.haltTransfers core crew .l).haltTransfers core crew .s).haltMatrix core crew
  let s := (s.actAs core crew .hinge).hgHalt
  let kept (st : Stream) : Bool := s.keepsTrap core crew st
  let ctx := (s.crewAt core crew).ctx
  let s := (s.modCore core fun c => c.leave crew s.cycle).modCrewAt core crew fun c =>
    streams.foldl (fun c st => c.modSeqOf st fun q => q.halt (q.status = .trapped && !kept st))
      { c.withdrawDraw with lease := Lease.idle }
  let s := s.modDie (dieOf core) fun d => { d with
    draws := d.draws.filter fun q => !(q.core == core && q.crew == crew)
    waits := d.waits.filter fun w => !(w.core == core && w.crew == crew) }
  let s := s.modCore core fun c => { c with
    traps := c.traps.filter fun t => !(t.crew == crew && isXlatFault t.code)
    fw := { c.fw with retries := c.fw.retries.filter fun t => !(t.crew == crew) } }
  let s := s.modCtx ctx fun k => { k with notices := k.notices.map fun n =>
    if n.core = core && n.trap.crew = crew then { n with holds := false } else n }
  { s with mem := { s.mem with
    remote := s.mem.remote.map fun r =>
      if r.writer.ofCrew core crew && r.open_ then { r with put := none, refused := false } else r } }

/-- Every crew of a context halts; a team that has been selected and not started begins first, and halts at its entry words
(R169, R299). -/
def State.haltContext (s : State) (ctx : CtxId) : State :=
  let cur := s.cur
  let s := (s.npu.placed.filter fun p => p.ctx == ctx).foldl (fun s p => s.startTeam p.ctx p.launch p.team) s
  let s := (s.crewsOf ctx).foldl (fun s q => s.haltCrew q.1 q.2) s
  ({ s with cur := cur } : State).modCtx ctx fun k => { k with halting := .halted }

/-- The clocks within which every crew of a pre-empted context halts (R299). -/
def haltClocks : Nat := 1900

/-- A PREEMPT of a context has been accepted, its bound is reached, and it still waits for other commands (R299, R310). -/
def State.preemptLate (s : State) (ctx : CtxId) : Bool :=
  s.npu.cmds.any fun c => !c.begun && c.status = 0 && c.msg.opcode = 0x0B && c.msg.byte 0 = ctx.val && c.at_ + haltClocks ≤ s.cycle

/-- The contexts whose bound is reached halt, though their PREEMPT has not taken effect: the bound counts from its acceptance (R299;
log 32). -/
def State.haltLate (s : State) : State :=
  ctxIds.foldl (fun s k =>
    if (s.ctx k).state = .running && (s.ctx k).halting = .no && s.preemptLate k then s.haltContext k else s) s

/-- A context whose crews have halted for a PREEMPT that completes without effect goes on. -/
def State.thaw (s : State) (ctx : CtxId) : State :=
  s.modCtx ctx fun k => if k.halting = .halted && k.state ≠ .preempting then { k with halting := .no } else k

/-- The contexts whose bound is reached halt (R299). -/
def State.haltDue (s : State) : State :=
  ctxIds.foldl (fun s k => match (s.ctx k).halting with
    | .due t => if t + haltClocks ≤ s.cycle then s.haltContext k else s
    | .no | .halted | .entered _ => s) s

/-! ### Saving a context (R300, R301) -/

/-- The save area's address (Table 19.4). -/
def Ctx.saveArea (k : Ctx) : Nat := field k.params.toNat 255 192

/-- The address of a slot of a save area (R301). -/
def Ctx.saveSlot (k : Ctx) (i : Nat) : Nat := k.saveArea + 65536 + i * (8256 * 1024)

/-- The traps of a crew that are kept (R300). -/
def Core.keptTraps (c : Core) (crew : CrewIx) : List Trap :=
  (c.traps.filter fun t => t.crew == crew).map fun t => { t with restored := true }

/-- A store of the save engine in context 0's memory under the key of the leaf: one page's worth; what does not translate is not
written (R328; log 35). -/
def State.saveStore (s : State) (va : Nat) (b : List Byte) : State :=
  match s.translate .ndie 0 va .write with
  | .fault _ => s
  | .ok x =>
    if entryRem x.leaf2.entry || Config.hbmBytes < x.pa + b.length then s
    else (s.reviveFor 0 x.peer x.pa b.length).gStore .npu seesDev [s.pubNow .dev outsideSpot] x.key x.pa (b.map some)

/-- A read of the save engine: one page's worth, or nothing where it does not translate (log 35). -/
def State.saveLoad (s : State) (va n : Nat) : Option (List Byte) :=
  match s.translate .ndie 0 va .read with
  | .fault _ => none
  | .ok x =>
    if entryRem x.leaf2.entry || Config.hbmBytes < x.pa + n then none
    else if entryDead x.leaf2.entry then some (List.replicate n 0)
    else some (s.mem.loads seesDev x.key x.pa n)

/-- An uncorrectable word that the save engine consumes on the way to a page of an area, and, in a read of `n` bytes, there (R303). -/
def State.saveBad (s : State) (va n : Nat) : Bool :=
  match s.translate .ndie 0 va .read with
  | .fault c => c = codeHbmEcc
  | .ok x => !entryRem x.leaf2.entry && !entryDead x.leaf2.entry && s.mem.bad x.pa n

/-- The first page of slot `i` of an area, with the bytes read of each, that an uncorrectable word is met in. -/
def State.slotBad (s : State) (ctx : CtxId) (i bytes n : Nat) : Option Nat :=
  let base := (s.ctx ctx).saveSlot i
  if s.mem.badHbm.isEmpty then none
  else ((List.range ((bytes + 65535) / 65536)).map fun p => base + 65536 * p).find? fun va => s.saveBad va n

/-- Bytes stored page by page from a page's beginning. -/
def State.savePages (s : State) (va : Nat) (b : List Byte) : Nat → State
  | 0 => s
  | n + 1 => if b.isEmpty then s else (s.saveStore va (b.take 65536)).savePages (va + 65536) (b.drop 65536) n

/-- Bytes read page by page; a page that cannot be read gives what is kept of it. -/
def State.loadPages_ (s : State) (va : Nat) (old : List Byte) : Nat → List Byte
  | 0 => []
  | n + 1 =>
    if old.isEmpty then []
    else ((s.saveLoad va (old.take 65536).length).getD (old.take 65536)) ++ s.loadPages_ (va + 65536) (old.drop 65536) n

/-- An entry of the directory (R301): die, core, crew, `part`, launch, `blockid`, valid; their places are the model's (log 35). -/
def dirEntry (core : CoreId) (crew : CrewIx) (part : XWord) (launch blockid : Nat) : Nat :=
  below 32 part.toNat <| below 2 crew.val <| below 4 (core.val % 16) <| below 2 (core.val / 16) <| below 8 1 <| below 16 blockid
    (launch % 2 ^ 64)

/-- The directory of a context that is being saved. -/
def State.directory (s : State) (crews : List (CoreId × CrewIx)) : List Byte :=
  let l := crews.flatMap fun q =>
    let c := s.crewAt q.1 q.2
    match c.block with
    | some b => natLe 16 (dirEntry q.1 q.2 c.part b.launch b.blockid)
    | none => List.replicate 16 0
  l ++ List.replicate (65536 - l.length) 0

/-- The bytes that a save of some crews writes. -/
def State.saveBytes (s : State) (crews : List (CoreId × CrewIx)) : Nat :=
  65536 + (crews.map fun q => 65536 + allotEnd (s.crewAt q.1 q.2).part).sum

/-- A launch whose crew the save engine cannot save or restore ends as by the error that it met (R303, R4, Table 18.5; log 35). -/
def State.saveEnds (s : State) (q : CoreId × CrewIx) (code : BitVec 8) (addr : Nat) : State :=
  let c := s.crewAt q.1 q.2
  match c.block with
  | none => s
  | some b =>
    let t : Trap := { crew := q.2, ctx := b.ctx, stream := .x, code := code, info := 0, addr := BitVec.ofNat 64 addr, pc := c.seqX.pc,
                      clock := s.cycle, restored := false, back := none }
    (s.faultRecord (faultOfTrap 2 q.1 t)).endByTrap q.1 t

/-- THE SAVE ENGINE consumes every word of an allotment, and the tables on the way to the area: an uncorrectable one ends its launch
as POOL_ECC or HBM_ECC does, and one on the way to the directory every launch of the context (R303, R4, Table 18.5; log 35). -/
def State.saveFaults (s : State) (ctx : CtxId) (crews : List (CoreId × CrewIx)) : State :=
  let area := (s.ctx ctx).saveArea
  if !s.mem.badHbm.isEmpty && s.saveBad area 0 then crews.foldl (fun s q => s.saveEnds q codeHbmEcc area) s
  else crews.zipIdx.foldl (fun s x =>
    let q := x.1
    let part := (s.crewAt q.1 q.2).part
    let org := poolPlace part 0
    match (s.core q.1).badPool.find? fun w => org ≤ 8 * w && 8 * w < org + allotEnd part with
    | some w => s.saveEnds q codePoolEcc (8 * w - org)
    | none => match s.slotBad ctx x.2 (65536 + allotEnd part) 0 with
      | some va => s.saveEnds q codeHbmEcc va
      | none => s) s

/-- A crew is the lowest-numbered of its launch on its core: its record holds the launch's mailboxes (Table 18.7). -/
def State.lowestThere (s : State) (q : CoreId × CrewIx) : Bool :=
  match (s.crewAt q.1 q.2).block with
  | some b => crewIxs.all fun k => q.2.val ≤ k.val || !(s.crewAt q.1 k).runs b.ctx b.launch
  | none => false

/-- One crew's record is written to slot `i`, and the crew and its allotment are released (R300, R301); with the launch's mailboxes
where it is its lowest crew there. The mailboxes stay the launch's (R98). -/
def State.saveCrew (s : State) (ctx : CtxId) (i : Nat) (lowest : Bool) (q : CoreId × CrewIx) : State :=
  let core := q.1
  let crew := q.2
  let c := s.crewAt core crew
  let launch := match c.block with
    | some b => b.launch
    | none => 0
  let org := poolPlace c.part 0
  let pool := c.vBytes ++ (memGets (s.core core).pool org (allotEnd c.part)).drop vBytesLen
  let inside (a : Nat) : Bool := org ≤ a && a < org + allotEnd c.part
  let boxes := ((s.core core).boxes.toList.zipIdx.filter fun b => lowest && b.1.claim == some (ctx, launch)).map fun b => (b.2, b.1)
  let traps := (s.core core).keptTraps crew
  let v : Saved := { ctx := ctx, slot := i, core := core, crew := crew, rec_ := c, pool := pool, boxes := boxes,
                     bars := (s.core core).bars.filter fun b => inside b.addr, traps := traps }
  let s := s.modNpu fun n => { n with saves := n.saves ++ [v] }
  let base := (s.ctx ctx).saveSlot i
  let s := (s.saveStore base { crew := c, traps := traps, boxes := boxes : Packed }.bytes).savePages (base + 65536) pool 128
  s.releaseCrew core crew

/-- The records of a context's crews, one after another (R301). -/
def State.saveCrews (s : State) (ctx : CtxId) (crews : List (CoreId × CrewIx)) : State :=
  (crews.zipIdx.map fun q => (q, s.lowestThere q.1)).foldl (fun s q => s.saveCrew ctx q.1.2 q.2 q.1.1) s

/-- What each port carries of `left` bytes of save traffic in the owner's budget (R321): the bytes left. -/
def State.carrySave (s : State) (ctx : CtxId) (left : Nat) : Nat × State :=
  (List.range 12).foldl (fun a port => a.2.carry port ctx a.1) (left, s)

/-- The records of a halted context are written once its masks are complete and its bytes have passed, and the PREEMPT completes
(R300, R301). -/
def State.saveContext (s : State) (ctx : CtxId) (left : Nat) : State :=
  let crews := s.crewsOf ctx
  if crews.any fun q => (s.dies.get (dieOf q.1)).masks.any fun m => m.core == q.1 && m.crew == q.2 then s
  else
    let r := s.carrySave ctx left
    if 0 < r.1 then r.2.modCtx ctx fun k => { k with halting := .entered r.1 }
    else
      let s := r.2.saveFaults ctx crews
      let crews := s.crewsOf ctx
      let s := (s.saveStore (s.ctx ctx).saveArea (s.directory crews)).saveCrews ctx crews
      let s : State := { s with cores := s.cores.map fun c =>
        if c.fw.serving = .preempt ctx then { c with fw := { c.fw with eretDue := true } } else c }
      let m := (s.ctx ctx).preemptFor
      let s := s.modCtx ctx fun k => { k with state := .preempted, halting := .no, preemptFor := none }
      match m with
      | some m => s.complete m stOk []
      | none => s

/-- CONTEXT_SAVE, in its three steps: the crews halt at an instruction boundary, once what they have sent to barriers has been
applied; the firmware context of each core that holds one is entered with PREEMPT, once all are idle; and the records are
written (R299 to R301). -/
def execContextSave (ctx : CtxId) (s : State) : Host.Outcome State Fault Refusal :=
  .next (
    let crews := s.crewsOf ctx
    match (s.ctx ctx).halting with
    | .no => s
    | .due _ => if crews.all fun q => (s.core q.1).comb.isEmpty then s.haltContext ctx else s
    | .halted =>
      if (s.ctx ctx).state = .preempting && crews.all fun q => (s.core q.1).fw.idle then
        ((crews.map fun q => q.1).dedup.foldl (fun s core => enterPreempt core ctx s) s).modCtx ctx fun k =>
          { k with halting := .entered (s.saveBytes crews) }
      else s
    | .entered left => s.saveContext ctx left)

/-! ### Restoring a context (R302) -/

/-- The directory is read: a saved crew goes where its entry says, and one whose valid bit is clear is not restored (R301, R302). A
directory that cannot be read leaves what is kept (log 35). -/
def State.readDirectory (s : State) (ctx : CtxId) : State :=
  match s.saveLoad (s.ctx ctx).saveArea 4096 with
  | none => s
  | some b => s.modNpu fun n => { n with
    saves := n.saves.filterMap fun v =>
      let e := leNat ((b.drop (16 * v.slot)).take 16)
      if v.ctx ≠ ctx then some v
      else if field e 40 40 = 0 then none
      else some { v with
        core := coreOf ⟨field e 39 38 % 4, by omega⟩ (field e 37 34)
        crew := ⟨field e 33 32 % 4, by omega⟩
        rec_ := { v.rec_ with
          part := BitVec.ofNat 64 (field e 31 0)
          block := v.rec_.block.map fun k => { k with launch := field e 127 64, blockid := field e 63 48 } } } }

/-- The tables on the way to the directory of a context hold an uncorrectable word: a command that writes the directory consumes it and
is refused (R4, R303; log 40). -/
def State.directoryLost (s : State) (ctx : CtxId) : Bool :=
  (s.ctx ctx).saveArea ≠ 0 && !s.mem.badHbm.isEmpty && s.saveBad (s.ctx ctx).saveArea 0

/-- The valid bits of the directory are cleared (R315); a directory with an uncorrectable word becomes zeros, none valid. -/
def State.clearDirectory (s : State) (ctx : CtxId) : State :=
  if (s.ctx ctx).saveArea = 0 then s
  else if s.saveBad (s.ctx ctx).saveArea 4096 then s.saveStore (s.ctx ctx).saveArea (List.replicate 4096 0)
  else match s.saveLoad (s.ctx ctx).saveArea 4096 with
    | none => s
    | some b => s.saveStore (s.ctx ctx).saveArea (b.zipIdx.map fun x =>
        if x.2 % 16 = 5 then BitVec.ofNat 8 (x.1.toNat / 2 * 2) else x.1)

/-- The stores of a block that comes back to its crew are its own again. -/
def Global.comeBack (m : Global) (core : CoreId) (crew : CrewIx) (b : Block) : Global :=
  let own (w : Writer) : Writer := match w with
    | .away k l i r => if k = b.ctx && l = b.launch && i = b.blockid then .seq core crew r else w
    | .seq .. | .cmd _ | .host _ | .npu | .peer => w
  { m with
    stores := m.stores.map fun g => { g with writer := own g.writer }
    remote := m.remote.map fun r => { r with writer := own r.writer } }

/-- One crew is restored from its slot of the save area; what the record does not hold is as it was kept (R302; log 35). -/
def State.restoreCrew (s : State) (v : Saved) : State :=
  let base := (s.ctx v.ctx).saveSlot v.slot
  let kept : Packed := { crew := v.rec_, traps := v.traps, boxes := v.boxes }
  let r := match s.saveLoad base 65536 with
    | some b => kept.restore b
    | none => kept
  let pool := s.loadPages_ (base + 65536) v.pool 128
  let s := s.setCrewAt v.core v.crew (r.crew.setVBytes (pool.take vBytesLen))
  let s : State := match v.rec_.block with
    | some b => { s with mem := s.mem.comeBack v.core v.crew b }
    | none => s
  s.modCore v.core fun c => { (c.zeroAllotment v.rec_.part).poolWrite (poolPlace v.rec_.part 0) pool with
    bars := c.bars ++ v.bars
    traps := r.traps.foldl (fun l t => insertTrap t l) c.traps
    boxes := r.boxes.foldl (fun b p => b.set (p.1 % 8) p.2 (Nat.mod_lt _ (by omega))) c.boxes }

/-- Every crew and bank run named in the directory is free, and its core is in service (R302). -/
def State.mayRestore (s : State) (ctx : CtxId) : Bool :=
  (s.ctx ctx).state = .resuming && (s.npu.saves.filter fun v => v.ctx == ctx).all fun v =>
    (s.crewAt v.core v.crew).block.isNone && !(s.core v.core).fw.stopped
      && crewIxs.all fun k =>
        let c := s.crewAt v.core k
        c.block.isNone || partBase c.part + allotEnd c.part / bankBytes ≤ partBase v.rec_.part
          || partBase v.rec_.part + allotEnd v.rec_.part / bankBytes ≤ partBase c.part

/-- The mailboxes of the launches that come back are taken from where they stood; their records put them back (R98). -/
def State.unclaim (s : State) (saved : List Saved) : State :=
  let back (m : Mailbox) : Bool := saved.any fun v => m.claim.any fun q => v.rec_.runs q.1 q.2
  let clear (m : Mailbox) : Mailbox := if back m then { claim := none, entries := [] } else m
  { s with cores := s.cores.map fun c => { c with boxes := c.boxes.map clear } }

/-- A record with an uncorrectable word ends its launch (R303, Table 18.5; log 35). -/
def State.restoreFaults (s : State) (ctx : CtxId) (saved : List Saved) : State :=
  saved.foldl (fun s v => match s.slotBad ctx v.slot (65536 + allotEnd v.rec_.part) 65536 with
    | some va => s.saveEnds (v.core, v.crew) codeHbmEcc va
    | none => s) s

/-- RESUME_RESTORE: the records are restored, the teams restart together, and the RESUME completes (R302). -/
def execResumeRestore (ctx : CtxId) (s : State) : Host.Outcome State Fault Refusal :=
  .next (
    if !s.mayRestore ctx then s
    else
      let saved := s.npu.saves.filter fun v => v.ctx == ctx
      let s := s.unclaim saved
      let s := saved.foldl State.restoreCrew s
      let m := (s.ctx ctx).resumeFor
      let s := s.modNpu fun n => { n with saves := n.saves.filter fun v => !(v.ctx == ctx) }
      let late := s.preemptLate ctx
      let s := s.modCtx ctx fun k => { k with state := .running, resumeFor := none, halting := if late then .halted else .no }
      let s := match m with
        | some m => s.complete m stOk []
        | none => s
      s.restoreFaults ctx saved)

end Sys2Proof.Machine
end

