-- ==== Sys2Proof/Machine/Tables.lean ====
section
/-! DEFINITION. Building the tables (spec/18_translation_faults.md R284, R285, R292, R294, R339): leaves of a tree, free
tables, and the changes that MAP, UNMAP and MIGRATE make. A change either succeeds whole or gives a status. -/

namespace Sys2Proof.Machine

/-- Which tree of a context (R282). -/
inductive StageNo where
  | one | two
  deriving DecidableEq, Repr

/-- A change of a tree that does not succeed (Table 19.5). -/
inductive MapFail where
  | refused | inUse | noSpace
  deriving DecidableEq, Repr

/-- The end of a change. -/
abbrev Mapped := Except MapFail State

/-- The bytes of a page that a leaf of a level maps. -/
def pageBytes (level : Nat) : Nat := 2 ^ levelShift level

/-! ### Leaves and pins -/

/-- The tables of a stage-2 tree from one on, with the bytes of each. -/
def tablesFrom (hbm : Memory) (table level : Nat) : Nat → List (Nat × Nat)
  | 0 => []
  | fuel + 1 =>
    (table, 8 * levelEntries level) :: (validEntries hbm table level).flatMap fun at_ =>
      let e := readEntry hbm at_
      if entryLeaf e then [] else tablesFrom hbm (entryAddr e) (level + 1) fuel

/-- An uncorrectable word in the stage-2 tables of a context: a command that searches them consumes it (R4, R303; log 40). -/
def State.treeBad (s : State) (ctx : CtxId) : Bool :=
  !s.mem.badHbm.isEmpty && match (s.ctx ctx).root2 with
    | some t => (tablesFrom s.mem.hbm t 1 4).any fun t => s.mem.bad t.1 t.2
    | none => false

/-- The same of the tables of every context. -/
def State.treesBad (s : State) : Bool := ctxIds.any s.treeBad

/-- A leaf of some context names a key slot for a local page (R314). -/
def State.keyNamed (s : State) (key : Nat) : Bool :=
  ctxIds.any fun k => (s.leaves2 k).any fun l => !entryRem l.2.entry && entryKey l.2.entry == key

/-- A physical range holds a pinned page, whichever context's pin it is (R295, R314; log 40). -/
def State.pinned (s : State) (pa n : Nat) : Bool :=
  s.npu.pins.any fun p => pa < p.page * 65536 + 65536 && p.page * 65536 < pa + n

/-- A stage-1 table of a context in use lies in a physical range (R339). -/
def State.tableIn (s : State) (ctx : CtxId) (pa n : Nat) : Bool :=
  s.npu.tables1.any fun t => t.1 == ctx && pa ≤ t.2 && t.2 < pa + n

/-- A stage-2 leaf cannot change while its page holds stage-1 tables in use (R339). -/
def State.leafHeld (s : State) (ctx : CtxId) (e level : Nat) : Bool :=
  entryTbl e && !entryRem e && s.tableIn ctx (entryAddr e) (pageBytes level)

/-- A leaf of a stage maps a pinned page. -/
def State.leafPinned (s : State) (st : StageNo) (ctx : CtxId) (e level : Nat) : Bool :=
  match st with
  | .two => !entryRem e && s.pinned (entryAddr e) (pageBytes level)
  | .one => (List.range (pageBytes level / 65536)).any fun i =>
    match walk2 s.mem.hbm (s.ctx ctx).root2 (entryAddr e + 65536 * i) with
    | some l => !entryRem l.entry && s.pinned (l.target (entryAddr e + 65536 * i)) 65536
    | none => false

/-- An uncorrectable word on the way to what a stage-1 leaf maps: whether that is pinned cannot be told (R4, R303; log 40). -/
def State.leafLost (s : State) (st : StageNo) (ctx : CtxId) (e level : Nat) : Bool :=
  st = .one && !s.mem.badHbm.isEmpty && (List.range (pageBytes level / 65536)).any fun i =>
    (places2 s.mem.hbm (s.ctx ctx).root2 (entryAddr e + 65536 * i)).any fun a => s.mem.bad a 8

/-! ### Entries and tables -/

/-- Writing an entry. -/
def State.writeEntry (s : State) (at_ e : Nat) : State :=
  { s with mem := { s.mem with hbm := memSets s.mem.hbm at_ (natLe 8 e) } }

/-- A table has no valid entry. -/
def tableEmpty (hbm : Memory) (table level : Nat) : Bool := (validEntries hbm table level).isEmpty

/-- Where a table lies in physical memory: a stage-1 table is named by a CPA (R283), whose walk meets no uncorrectable word (R303;
log 40). -/
def State.tablePlace (s : State) (st : StageNo) (ctx : CtxId) (t : Nat) : Option Nat :=
  match st with
  | .two => some t
  | .one =>
    if (places2 s.mem.hbm (s.ctx ctx).root2 t).any fun a => s.mem.bad a 8 then none
    else (walk2 s.mem.hbm (s.ctx ctx).root2 t).map fun l => l.target t

/-- An old entry of a tree as the command processor reads it: not where its word is uncorrectable (R303; log 40). -/
def State.oldEntry (s : State) (at_ : Nat) : Option Nat := if s.mem.bad at_ 8 then none else some (readEntry s.mem.hbm at_)

/-- The lowest number not in a list, from `n`. -/
def lowestFree (used : List Nat) (n : Nat) : Nat → Nat
  | 0 => n
  | fuel + 1 => if used.contains n then lowestFree used (n + 1) fuel else n

/-- Zeros over a table, under a key: nothing that a program stored in its page is left there (R339). -/
def State.zeroTable (s : State) (key : Option MemKey) (pa : Nat) : State :=
  { s with mem := s.mem.zeroPage (fun _ => true) key pa 4096 }

/-- A place for a stage-1 table: its CPA, where it lies, and the key of its page. -/
structure TablePlace where
  cpa : Nat
  pa : Nat
  key : Option MemKey

/-- The places of a context's `tbl` pages for stage-1 tables, lowest first (R339). -/
def State.tablePlaces (s : State) (ctx : CtxId) : List TablePlace :=
  (s.leaves2 ctx).flatMap fun l =>
    if entryTbl l.2.entry && !entryRem l.2.entry then
      (List.range (pageBytes l.2.level / 4096)).map fun i =>
        { cpa := l.1 + 4096 * i, pa := entryAddr l.2.entry + 4096 * i, key := s.keyOf l.2.entry }
    else []

/-- A free table, zeroed: how entries name it, and where it lies (R339). The `tbl` pages of a context with an uncorrectable word in
its tables are not searched for one (R4, R303; log 40). -/
def State.takeTable (s : State) (st : StageNo) (ctx : CtxId) : Except MapFail (Nat × Nat × State) :=
  match st with
  | .two =>
    let n := lowestFree s.npu.tables2 0 (s.npu.tables2.length + 1)
    if Config.tableCount ≤ n then .error .noSpace
    else
      let pa := Config.tableBase + 4096 * n
      .ok (pa, pa, (s.zeroTable (some s.startKey) pa).modNpu fun d => { d with tables2 := n :: d.tables2 })
  | .one =>
    if s.treeBad ctx then .error .refused
    else match (s.tablePlaces ctx).find? fun p => !s.npu.tables1.any fun t => t.2 == p.pa with
    | none => .error .noSpace
    | some p => .ok (p.cpa, p.pa, (s.zeroTable p.key p.pa).modNpu fun d => { d with tables1 := (ctx, p.pa) :: d.tables1 })

/-- A table is free again. -/
def State.giveTable (s : State) (st : StageNo) (ctx : CtxId) (pa : Nat) : State :=
  match st with
  | .two => s.modNpu fun d => { d with tables2 := d.tables2.erase ((pa - Config.tableBase) / 4096) }
  | .one => s.modNpu fun d => { d with tables1 := d.tables1.erase (ctx, pa) }

def State.root (s : State) (st : StageNo) (ctx : CtxId) : Option Nat :=
  match st with
  | .one => (s.ctx ctx).root1
  | .two => (s.ctx ctx).root2

def State.setRoot (s : State) (st : StageNo) (ctx : CtxId) (r : Option Nat) : State :=
  s.modCtx ctx fun k => match st with
    | .one => { k with root1 := r }
    | .two => { k with root2 := r }

/-- The entry that links a table. -/
def linkEntry (t : Nat) : Nat := t + 1

/-! ### MAP (R339) -/

/-- Writing one leaf below a table that lies at a physical place. An uncorrectable entry on the way refuses it (R303; log 40). -/
def State.mapFrom (s : State) (st : StageNo) (ctx : CtxId) (place a level target e : Nat) : Nat → Mapped
  | 0 => .error .refused
  | fuel + 1 =>
    let at_ := place + 8 * levelIndex level a
    match s.oldEntry at_ with
    | none => .error .refused
    | some old =>
      if level = target then
        if entryValid old && !entryLeaf old then .error .refused
        else if entryValid old && st = .two && s.leafHeld ctx old level then .error .inUse
        else .ok (s.writeEntry at_ e)
      else if !entryValid old then
        match s.takeTable st ctx with
        | .error f => .error f
        | .ok (t, pa, s) => (s.writeEntry at_ (linkEntry t)).mapFrom st ctx pa a (level + 1) target e fuel
      else if entryLeaf old then .error .refused
      else match s.tablePlace st ctx (entryAddr old) with
        | none => .error .refused
        | some pa => s.mapFrom st ctx pa a (level + 1) target e fuel

/-- Writing one leaf; an empty tree gets its root. -/
def State.mapOne (s : State) (st : StageNo) (ctx : CtxId) (a target e : Nat) : Mapped :=
  match s.root st ctx with
  | some t => match s.tablePlace st ctx t with
    | none => .error .refused
    | some pa => s.mapFrom st ctx pa a 1 target e 4
  | none => match s.takeTable st ctx with
    | .error f => .error f
    | .ok (t, pa, s) => (s.setRoot st ctx (some t)).mapFrom st ctx pa a 1 target e 4

/-- The entry of page `i` of a MAP. -/
def entryAtPage (e level i : Nat) : Nat := e + i * pageBytes level

/-- An entry as a MAP writes it: `dead` is 0 (R289). -/
def mapEntry (e : Nat) : Nat := setField e 63 63 0

/-- A stage-2 leaf would map firmware memory: the carve-out, in which the table region lies that the N-die alone writes (R321, R339;
log 11). -/
def mapsCarve (st : StageNo) (level e : Nat) : Bool :=
  st = .two && !entryRem e && entryAddr e < Config.hbmBytes && Config.carveBase < entryAddr e + pageBytes level

/-- Writing the leaves of consecutive pages. -/
def State.mapPages (s : State) (st : StageNo) (ctx : CtxId) (a level e i : Nat) : Nat → Mapped
  | 0 => .ok s
  | n + 1 =>
    let ei := entryAtPage e level i
    let ai := a + i * pageBytes level
    if 2 ^ 48 ≤ ai || 2 ^ 64 ≤ ei || entryMalformed (st = .one) level ei || field ei 63 52 ≠ field e 63 52 || mapsCarve st level ei then
      .error .refused
    else match s.mapOne st ctx ai level ei with
      | .error f => .error f
      | .ok s => s.mapPages st ctx a level e (i + 1) n

/-- MAP: the first entry is a valid leaf, and the address is a page's (R339). The TLBs drop the context's translations
(R292; log 9). -/
def State.map (s : State) (st : StageNo) (ctx : CtxId) (a level e n : Nat) : Mapped :=
  let e := if st = .two then mapEntry e else e
  if !entryValid e || !entryLeaf e || a % pageBytes level ≠ 0 then .error .refused
  else match s.mapPages st ctx a level e 0 n with
    | .error f => .error f
    | .ok s => .ok (s.tlbDrop ctx)

/-! ### UNMAP (R339) -/

/-- Removing one leaf below a table, and whether the table is then empty. An uncorrectable entry of a table that is searched refuses it
(R303; log 40). -/
def State.unmapFrom (s : State) (st : StageNo) (ctx : CtxId) (place a level target : Nat) :
    Nat → Except MapFail (State × Bool)
  | 0 => .error .refused
  | fuel + 1 =>
    let at_ := place + 8 * levelIndex level a
    let drop (s : State) : State × Bool :=
      let s := s.writeEntry at_ 0
      (s, tableEmpty s.mem.hbm place level)
    match s.oldEntry at_ with
    | none => .error .refused
    | some old =>
      if !entryValid old then .ok (s, false)
      else if s.mem.bad place (8 * levelEntries level) then .error .refused
      else if level = target then
        if !entryLeaf old || s.leafLost st ctx old level then .error .refused
        else if (st = .two && s.leafHeld ctx old level) || s.leafPinned st ctx old level then .error .inUse
        else .ok (drop s)
      else if entryLeaf old then .error .refused
      else match s.tablePlace st ctx (entryAddr old) with
        | none => .error .refused
        | some pa => match s.unmapFrom st ctx pa a (level + 1) target fuel with
          | .error f => .error f
          | .ok (s, false) => .ok (s, false)
          | .ok (s, true) => .ok (drop (s.giveTable st ctx pa))

/-- Removing one leaf; the root of an empty tree is cleared. -/
def State.unmapOne (s : State) (st : StageNo) (ctx : CtxId) (a target : Nat) : Mapped :=
  match s.root st ctx with
  | none => .ok s
  | some t => match s.tablePlace st ctx t with
    | none => .error .refused
    | some pa => match s.unmapFrom st ctx pa a 1 target 4 with
      | .error f => .error f
      | .ok (s, false) => .ok s
      | .ok (s, true) => .ok ((s.giveTable st ctx pa).setRoot st ctx none)

/-- Removing the leaves of consecutive pages. -/
def State.unmapPages (s : State) (st : StageNo) (ctx : CtxId) (a level i : Nat) : Nat → Mapped
  | 0 => .ok s
  | n + 1 =>
    if 2 ^ 48 ≤ a + i * pageBytes level then .error .refused
    else match s.unmapOne st ctx (a + i * pageBytes level) level with
      | .error f => .error f
      | .ok s => s.unmapPages st ctx a level (i + 1) n

/-- UNMAP (R339, R292). -/
def State.unmap (s : State) (st : StageNo) (ctx : CtxId) (a level n : Nat) : Mapped :=
  if a % pageBytes level ≠ 0 then .error .refused
  else match s.unmapPages st ctx a level 0 n with
    | .error f => .error f
    | .ok s => .ok (s.tlbDrop ctx)

/-! ### MIGRATE of a page (R294, R295) -/

/-- Moving the page that a CPA maps to a new physical page. A page with an uncorrectable word stays where it is: the command that
consumes the word meets the error (R4, R303; log 40). -/
def State.migrate (s : State) (ctx : CtxId) (cpa dst : Nat) : Mapped :=
  match (if (places2 s.mem.hbm (s.ctx ctx).root2 cpa).any fun a => s.mem.bad a 8 then none else walk2 s.mem.hbm (s.ctx ctx).root2 cpa) with
  | none => .error .refused
  | some l =>
    let size := pageBytes l.level
    let src := entryAddr l.entry
    if entryRem l.entry || dst % size ≠ 0 || Config.carveBase < dst + size then .error .refused
    else if s.leafHeld ctx l.entry l.level || s.pinned src size then .error .inUse
    else if s.mem.bad src size then .error .refused
    else
      let s : State := { s with mem := s.mem.movePage src dst size (s.keyOf l.entry) }
      .ok ((s.writeEntry l.at_ (setField l.entry 51 12 (dst / 4096))).tlbDrop ctx)

end Sys2Proof.Machine
end

