-- ==== Sys2Proof/Machine/Network.lean ====
section
/-! DEFINITION. The network and the periods of the N-die: dropped frames, host RMA, puts and gets of peers and their
answers, those to host RMA at peers among them (R201, R202, R287, R304, R305, R316), the port budgets (R305, R330), the calendar
frame (R185) and the firmware window (R184). -/

namespace Sys2Proof.Machine

/-! ### Frames -/

/-- FRAME_DROP: a frame that asks for what the port does not implement is counted (R304); in Sage mode port 0 alone is up
(R317). -/
def execFrameDrop (port : Fin 12) (s : State) : Host.Outcome State Fault Refusal :=
  .next (if s.boot.stage = .sage && port ≠ 0 then s else s.modNpu fun n => { n with dropped := n.dropped.set port (n.dropped.get port + 1) })

/-- An answer of the transport (R201, R202, R316): what it answers, whether it is an error, the address, and its bytes.
The frame's layout is the model's (log 33). -/
def answerFrame (ctx : CtxId) (what : Nat) (bad : Bool) (addr : XWord) (b : List Byte) : OutMsg :=
  { sess := 0, ctx := ctx, kind := 1, opcode := what, status := bad.toNat, seq := 0, cookie := addr, payload := b,
    frame := true }

/-! ### Host RMA (R316) -/

/-- A range cut at boundaries of `unit` bytes, as pairs of an address and a length. -/
def splitAt (unit a n : Nat) : Nat → List (Nat × Nat)
  | 0 => []
  | fuel + 1 =>
    if n = 0 then []
    else
      let k := Min.min n (unit - a % unit)
      (a, k) :: splitAt unit (a + k) (n - k) fuel

/-- The pages of an access: 64 KiB at a time. -/
def Rma.pages (r : Rma) : List (Nat × Nat) := splitAt 65536 r.va.toNat r.size (r.size + 1)

/-- The translations of the pages of a range, or none when one faults or reaches past the HBM (R316; log 38). -/
def State.rmaPlaces (s : State) (ctx : CtxId) (acc : Access) : List (Nat × Nat) → Option (List (Xlat × Nat))
  | [] => some []
  | p :: rest =>
    match s.translate .walk ctx p.1 acc with
    | .fault _ => none
    | .ok x =>
      if !entryRem x.leaf2.entry && Config.hbmBytes < x.pa + p.2 then none
      else (s.rmaPlaces ctx acc rest).map fun l => (x, p.2) :: l

/-- An access that waits for peers is over. -/
def State.rmaGone (s : State) (r : Rma) : State := s.modNpu fun n => { n with rmas := n.rmas.filter fun q => !(q.num == r.num) }

/-- A store to remote memory that the host's accesses of a context see: its own, and what is published at dev scope or wider. -/
def farDev (ctx : CtxId) (r : RemoteStore) : Bool :=
  r.under.isNone && !r.refused && (r.writer == .host ctx || r.pubs.any fun p => 4 ≤ scopeRank p.scope)

/-- The stores of a write, 8-byte units in ascending order, under a key and published (R316, R329). -/
def State.storeUnits (s : State) (w : Writer) (pub : Pub) (key : Option MemKey) (pa : Nat) (b : List Byte) : State :=
  (splitAt 8 pa b.length (b.length + 1)).foldl (fun s u =>
    s.gStore w (fun g => seesDev g || g.writer == w) [pub] key u.1 (((b.drop (u.1 - pa)).take u.2).map some)) s

/-- The pages of a write that lie in local memory, in turn. -/
def State.rmaStore (s : State) (ctx : CtxId) : List (Xlat × Nat) → List Byte → State
  | [], _ => s
  | p :: rest, b =>
    (if entryRem p.1.leaf2.entry then s
      else (s.reviveFor ctx none p.1.pa p.2).storeUnits (.host ctx) (s.pubNow .dev outsideSpot) p.1.key p.1.pa (b.take p.2)).rmaStore
        ctx rest (b.drop p.2)

/-- The pages of a write that lie at peers, in turn: 8-byte stores to remote memory, the pages that a `discard` took revived first (R287,
R289). -/
def State.rmaFar (s : State) (ctx : CtxId) (va : Nat) : List (Xlat × Nat) → List Byte → State
  | [], _ => s
  | p :: rest, b =>
    (if entryRem p.1.leaf2.entry then
      (splitAt 8 p.1.pa p.2 (p.2 + 1)).foldl (fun s u =>
        s.farStore (.host ctx) ctx { p.1 with pa := u.1 } (va + (u.1 - p.1.pa)) (((b.drop (u.1 - p.1.pa)).take u.2).map some))
        (s.reviveFor ctx p.1.peer p.1.pa p.2)
      else s).rmaFar ctx (va + p.2) rest (b.drop p.2)

/-- The remote stores of a write, sent as puts (R287). -/
def State.rmaSend (s : State) (r : Rma) : State := s.sendOwn (fun q => r.stores.contains q.id) fun _ => farDev r.ctx

/-- A write is performed, published at dev scope and acknowledged; one that faults is answered with an error (R316; log 38). Its
stores at peers have been performed there before. -/
def State.rmaDone (s : State) (r : Rma) (b : List Byte) : State :=
  match s.rmaPlaces r.ctx .write r.pages with
  | none => s.send (answerFrame r.ctx 1 true r.va [])
  | some l =>
    let p := s.pubNow .dev outsideSpot
    let s := s.rmaStore r.ctx l b
    let pubbed (q : RemoteStore) : RemoteStore := if r.stores.contains q.id then { q with pubs := addPub p q.pubs } else q
    ({ s with mem := { s.mem with remote := s.mem.remote.map pubbed } } : State).send (answerFrame r.ctx 1 false r.va [])

/-- A write of the host: translated; with its pages in local memory it is performed at once, and where some lie at peers their puts go
first and it waits for the answers (R287, R316). A fault gives an error response and writes nothing (log 38). -/
def State.rmaWrite (s : State) (ctx : CtxId) (va : XWord) (bytes : List Byte) : State :=
  let r : Rma := { num := s.serial, ctx := ctx, va := va, size := bytes.length, bytes := some bytes, stores := [], asks := [], lines := [] }
  match s.rmaPlaces ctx .write r.pages with
  | none => s.send (answerFrame ctx 1 true va [])
  | some l =>
    if l.all fun p => !entryRem p.1.leaf2.entry then s.rmaDone r bytes
    else
      let t := ({ s with serial := s.serial + 1 } : State).rmaFar ctx va.toNat l bytes
      let r := { r with stores := (t.mem.remote.filter fun q => s.serial < q.id && q.writer == .host ctx).map RemoteStore.id }
      (t.modNpu fun n => { n with rmas := n.rmas ++ [r] }).rmaSend r

/-- A write that waits goes on once a put has been answered: what a page's zeros held back is sent, the other puts are waited for, and
then it is performed, or answered with an error where a peer has refused (R287, R316). -/
def State.rmaSettle (s : State) (r : Rma) : State :=
  match r.bytes with
  | none => s
  | some b =>
    let mine (q : RemoteStore) : Bool := r.stores.contains q.id
    if s.mem.remote.any fun q => mine q && q.put.isNone then s.rmaSend r
    else if s.mem.remote.any fun q => mine q && q.open_ && !q.refused then s
    else if s.mem.remote.any fun q => mine q && q.refused then
      ({ s.rmaGone r with mem := { s.mem with remote := s.mem.remote.filter fun q => !(mine q && q.refused) } } : State).send
        (answerFrame r.ctx 1 true r.va [])
    else (s.rmaGone r).rmaDone r b

/-- The bytes of a read, page by page: a dead page reads as zeros and reads no memory (R289), one at a peer as the lines hold it (R202);
none where an uncorrectable word is met (R303). -/
def State.rmaLoad (s : State) (ctx : CtxId) (lines : List RemoteLine) : List (Xlat × Nat) → Option (List Byte)
  | [] => some []
  | p :: rest =>
    if entryDead p.1.leaf2.entry then (s.rmaLoad ctx lines rest).map fun l => List.replicate p.2 0 ++ l
    else if entryRem p.1.leaf2.entry then
      let byte (pa : Nat) : Byte := match lines.find? fun l => l.peer == entryKey p.1.leaf2.entry && l.pa == pa / 64 * 64 with
        | some l => s.remoteByte (farDev ctx) l pa
        | none => 0
      (s.rmaLoad ctx lines rest).map fun l => bytesFrom byte p.1.pa p.2 ++ l
    else if s.mem.bad p.1.pa p.2 then none
    else (s.rmaLoad ctx lines rest).map fun l =>
      s.mem.loads (fun g => seesDev g || g.writer == .host ctx) p.1.key p.1.pa p.2 ++ l

/-- The lines at peers that a read needs, by peer and address. -/
def farLines (l : List (Xlat × Nat)) : List (Nat × Nat) :=
  ((l.filter fun p => entryRem p.1.leaf2.entry && !entryDead p.1.leaf2.entry).flatMap fun p =>
    (List.range ((p.1.pa % 64 + p.2 + 63) / 64)).map fun i => (entryKey p.1.leaf2.entry, p.1.pa / 64 * 64 + 64 * i)).eraseDups

/-- A read of the host goes on: it asks peers for the lines that it lacks, and is answered once it has them all (R202, R287, R316). -/
def State.rmaReadOn (s : State) (r : Rma) : State :=
  match s.rmaPlaces r.ctx .read r.pages with
  | none => (s.rmaGone r).send (answerFrame r.ctx 2 true r.va [])
  | some l =>
    let need := (farLines l).filter fun q => !r.lines.any fun h => h.peer == q.1 && h.pa == q.2
    if need.isEmpty then
      match s.rmaLoad r.ctx r.lines l with
      | none => (s.rmaGone r).send (answerFrame r.ctx 2 true r.va [])
      | some b => (s.rmaGone r).send (answerFrame r.ctx 2 false r.va b)
    else
      let asks := need.zipIdx.map fun q => (s.serial + q.2, q.1)
      ({ s.rmaGone r with serial := s.serial + need.length } : State).modNpu fun n => { n with rmas := n.rmas ++ [{ r with asks := asks }] }

/-- A read of the host (R316). -/
def State.rmaRead (s : State) (ctx : CtxId) (va : XWord) (n : Nat) : State :=
  ({ s with serial := s.serial + 1 } : State).rmaReadOn
    { num := s.serial, ctx := ctx, va := va, size := n, bytes := none, stores := [], asks := [], lines := [] }

/-- A peer answers a read that has asked it for a line (R202, R287). -/
def State.rmaLine (s : State) (r : Rma) (num : Nat) (answer : GetAnswer) (has : List Nat) : State :=
  match r.asks.find? fun q => q.1 == num, answer with
  | some q, .line b =>
    let line : RemoteLine := { peer := q.2.1, pa := q.2.2, bytes := (b ++ List.replicate 64 0).take 64, at_ := num, has := has }
    let r := { r with asks := r.asks.filter fun a => !(a.1 == num), lines := r.lines ++ [line] }
    if r.asks.isEmpty then s.rmaReadOn r
    else s.modNpu fun n => { n with rmas := n.rmas.map fun p => if p.num = r.num then r else p }
  | some _, .refused => (s.rmaGone r).send (answerFrame r.ctx 2 true r.va [])
  | none, _ => s

/-! ### Peers (R201, R202, R287) -/

/-- A peer's access reaches memory that peers may use: HBM outside the carve-out and outside stage-1 tables (R339, R321;
log 38). -/
def State.peerMay (s : State) (pa n : Nat) : Bool :=
  pa + n ≤ Config.carveBase && !s.npu.tables1.any fun t => t.2 < pa + n && pa < t.2 + 4096

/-- The stage-2 leaf of a context that maps a physical page of this device. -/
def State.leafOver (s : State) (ctx : CtxId) (pa : Nat) : Option Leaf :=
  ((s.leaves2 ctx).find? fun l =>
    !entryRem l.2.entry && entryAddr l.2.entry ≤ pa && pa < entryAddr l.2.entry + pageBytes l.2.level).map Prod.snd

/-- The device's own key for a page that a peer reaches (R287): that of the leaf that maps it, of the lowest context that has one; none
where that leaf's slot is empty, or a table that is searched holds an uncorrectable word (R4, R303; log 40); of a page that no leaf
maps, a free one (DEDUCED, log 49). -/
def State.peerKey (s : State) (pa : Nat) : Option MemKey :=
  match ctxIds.find? fun k => s.treeBad k || (s.leafOver k pa).isSome with
  | none => some (Config.unmappedKey (pa / 4096))
  | some k => if s.treeBad k then none else (s.leafOver k pa).bind fun l => s.keyOf l.entry

/-- The pieces of a peer's access that lie in one page each, with their keys; none where a page has no key. -/
def State.peerPlaces (s : State) : List (Nat × Nat) → Option (List (Nat × Nat × MemKey))
  | [] => some []
  | p :: rest =>
    match s.peerKey p.1, s.peerPlaces rest with
    | some k, some l => some ((p.1, p.2, k) :: l)
    | some _, none | none, _ => none

/-- The pages of a peer's put in turn: a page that a `discard` has taken is revived (R100, R194). -/
def State.peerStore (s : State) : List (Nat × Nat × MemKey) → List Byte → State
  | [], _ => s
  | p :: rest, b =>
    ((s.reviveFor 0 none p.1 p.2.1).storeUnits .peer (s.pubNow .dom outsideSpot) (some p.2.2) p.1 (b.take p.2.1)).peerStore rest
      (b.drop p.2.1)

/-- A page of a range is dead, and its leaf, which a write would rewrite, uncorrectable or out of reach (R4, R303). -/
def State.deadLost (s : State) (pa n : Nat) : Bool :=
  !s.mem.badHbm.isEmpty && s.deadLeaves.any fun l => l.over none pa n && s.leafBad l

/-- REMOTE_PUT: a put of another device is performed in this device's memory, under the keys of its pages, and acknowledged
(R201, R287). -/
def execRemotePut (pa : BitVec 52) (bytes : List Byte) (s : State) : Host.Outcome State Fault Refusal :=
  .next (
    let answer (bad : Bool) : OutMsg := answerFrame 0 3 bad (pa.zeroExtend 64) []
    if s.boot.stage ≠ .ready then s
    else if !s.peerMay pa.toNat bytes.length || s.deadLost pa.toNat bytes.length then s.send (answer true)
    else match s.peerPlaces (splitAt 65536 pa.toNat bytes.length (bytes.length + 1)) with
      | none => s.send (answer true)
      | some l => (s.peerStore l bytes).send (answer false))

/-- REMOTE_GET: a peer asks for the 64-byte line that holds an address (R202). -/
def execRemoteGet (pa : BitVec 52) (s : State) : Host.Outcome State Fault Refusal :=
  .next (
    let base := pa.toNat / 64 * 64
    let answer (bad : Bool) (b : List Byte) : OutMsg := answerFrame 0 4 bad (pa.zeroExtend 64) b
    if s.boot.stage ≠ .ready then s
    else if !s.peerMay base 64 || s.mem.bad base 64 then s.send (answer true [])
    else match s.peerKey base with
      | none => s.send (answer true [])
      | some k => s.send (answer false (s.mem.loads seesDev (some k) base 64)))

/-- A peer's answer to a put arrives: an acknowledged one is done and keeps its place among what its agents see; a refused one is
reported by the word that sent it, whatever a line seemed to show (R189, R201, R287). Writes of the host that wait for it go on. -/
def State.putAnswer (s : State) (put : Nat) (ok : Bool) : State :=
  let t : State := { s with
    serial := s.serial + 1
    mem := { s.mem with
      remote := s.mem.remote.map fun q =>
        if q.put = some put && q.open_ then
          (if ok then { q with acked := some s.serial } else { q with refused := true, shown := none })
        else q } }
  s.npu.rmas.foldl State.rmaSettle t

/-- The sent stores on a line that its peer may or may not have performed before it served a get: the get was asked before their puts
were known to be performed. -/
def State.mayHold (s : State) (g : Get) : List RemoteStore :=
  s.mem.remote.filter fun r =>
    r.peer == g.peer && r.put.isSome && !r.refused && r.pa < g.pa + 64 && g.pa < r.pa + r.size && !r.doneBy g.num

/-- A peer that has performed a store has performed an earlier one too: its put was known to be performed when the other's was sent, or
it stands before it in coherence order. -/
def needsFirst (r h : RemoteStore × Nat) : Bool := h.1.put.any r.1.doneBy || (r.2 < h.2 && r.1.meets h.1)

/-- With each store of a list the earlier ones that its peer has performed too. -/
def closeHas (l : List (RemoteStore × Nat)) (has : List (RemoteStore × Nat)) : Nat → List (RemoteStore × Nat)
  | 0 => has
  | n + 1 => closeHas l (l.filter fun r => has.contains r || has.any fun h => needsFirst r h) n

/-- The puts that a peer has performed when it serves a line, of those that were on their way: free ones, with all that it must have
performed before them (R201, R202; free, log 7). -/
def State.lineHas (s : State) (g : Get) : List Nat :=
  let l := (s.mayHold g).zipIdx
  (closeHas l (l.filter fun r => Config.freeNat 38 (s.serial * 2 ^ 40 + r.1.id) % 2 = 1) l.length).filterMap fun r => r.1.put

/-- A line has come that holds puts: its peer has performed them (R202). -/
def State.showPuts (s : State) (has : List Nat) : State :=
  let shows (r : RemoteStore) : RemoteStore := if r.put.any has.contains then { r with shown := r.shown.orElse fun _ => some s.serial } else r
  { s with serial := s.serial + 1, mem := { s.mem with remote := s.mem.remote.map shows } }

/-- A peer's answer to a get is performed: unless it is stale, the line joins the view of its core, or the load that asked meets the
refusal (R202, R287). One to a read of the host goes to it (R316). -/
def State.getAnswer (s : State) (num : Nat) (answer : GetAnswer) (has : List Nat) : State :=
  match s.mem.gets.find? fun g => g.num == num with
  | none => match s.npu.rmas.find? fun r => r.asks.any fun q => q.1 == num with
    | none => s
    | some r => s.rmaLine r num answer has
  | some g =>
    let t : State := { s with serial := s.serial + 1, mem := { s.mem with gets := s.mem.gets.filter fun h => !(h.num == num) } }
    if g.stale then t
    else match answer with
      | .line b => t.modCore g.core fun c =>
        if c.lines.any fun l => l.peer == g.peer && l.pa == g.pa then c
        else { c with lines := c.lines ++
          [{ peer := g.peer, pa := g.pa, bytes := (b ++ List.replicate 64 0).take 64, at_ := g.num, has := has }] }
      | .refused =>
        let no : GetRefusal := { core := g.core, crew := g.crew, role := g.role, peer := g.peer, pa := g.pa }
        { t with mem := { t.mem with refusals := t.mem.refusals ++ [no] } }

/-- What reads of the host have asked of peers, as gets: they stand at no core, and an answer for any core may be theirs. -/
def State.rmaGets (s : State) (core : CoreId) : List Get :=
  s.npu.rmas.flatMap fun r => r.asks.map fun q =>
    { num := q.1, stale := false, core := core, crew := 0, role := .x, ctx := r.ctx, peer := q.2.1, pa := q.2.2 }

/-- The gets of a core, or of the host, for a line that have no answer, nor one that waits at its port. -/
def State.getsFor (s : State) (core : CoreId) (peer pa : Nat) : List Get :=
  (s.mem.gets ++ s.rmaGets core).filter fun g => g.core == core && g.peer == peer && g.pa == pa && !s.npu.waiting.any fun w =>
    match w.what with
    | .get n _ _ => n == g.num
    | .rmaWrite .. | .rmaRead .. | .put .. => false

/-- The get that an answer is one to: of several, a free one, as delivery is unordered (log 7). -/
def State.getChosen (s : State) (core : CoreId) (peer pa : Nat) : Option Get :=
  match s.getsFor core peer pa with
  | [] => none
  | [g] => some g
  | g :: h :: l => (g :: h :: l)[Config.freeNat 39 s.serial % (l.length + 2)]?

/-! ### Budgets (R305, R330) -/

/-- Traffic whose bytes have all passed its port is performed. -/
def State.perform (s : State) (ctx : CtxId) (w : Traffic) : State :=
  match w with
  | .rmaWrite va b => s.rmaWrite ctx va b
  | .rmaRead va n => s.rmaRead ctx va n
  | .put n ok => s.putAnswer n ok
  | .get n a has => s.getAnswer n a has

/-- TRAFFIC OF A CONTEXT reaches a port: what its budget has left passes, and what lies beyond waits for the next µs (R305). -/
def State.arrives (s : State) (port : Nat) (ctx : CtxId) (n : Nat) (w : Traffic) : State :=
  let r := s.carry port ctx n
  if r.1 = 0 then r.2.perform ctx w else r.2.awaitPort { port := port, ctx := ctx, left := r.1, what := w }

/-- Traffic that waits, tried again in the order of its arrival. -/
def State.retryWaiting (s : State) : State :=
  s.npu.waiting.foldl (fun s w => s.arrives w.port w.ctx w.left w.what) (s.modNpu fun d => { d with waiting := [] })

/-- HOST_RMA_WRITE (R316). -/
def execHostRmaWrite (port : Fin 12) (ctx : CtxId) (va : XWord) (bytes : List Byte) (s : State) :
    Host.Outcome State Fault Refusal :=
  .next (if s.boot.stage ≠ .ready then s else s.arrives port.val ctx bytes.length (.rmaWrite va bytes))

/-- HOST_RMA_READ (R316). -/
def execHostRmaRead (port : Fin 12) (ctx : CtxId) (va : XWord) (n : Nat) (s : State) : Host.Outcome State Fault Refusal :=
  .next (if s.boot.stage ≠ .ready then s else s.arrives port.val ctx n (.rmaRead va n))

/-- PUT_ACK: a peer's answer to a put (R201). The bytes of the put count on the port of its answer (log 39). -/
def execPutAck (port : Fin 12) (put : Nat) (ok : Bool) (s : State) : Host.Outcome State Fault Refusal :=
  .next (
    match s.mem.remote.find? fun r => r.put == some put && r.open_ with
    | none => s
    | some r => s.arrives port.val r.ctx r.size (.put put ok))

/-- What a peer's answer shows it to have performed. -/
def State.shownBy (s : State) (g : Get) (answer : GetAnswer) : List Nat :=
  match answer with
  | .line _ => s.lineHas g
  | .refused => []

/-- GET_RESPONSE: a peer's answer to a get of a core (R202). What the line holds of the puts on their way stands as it comes to the
port. -/
def execGetResponse (port : Fin 12) (core : CoreId) (peer : BitVec 10) (pa : BitVec 52) (answer : GetAnswer) (s : State) :
    Host.Outcome State Fault Refusal :=
  .next (
    match s.getChosen core peer.toNat (pa.toNat / 64 * 64) with
    | none => s
    | some g => (s.showPuts (s.shownBy g answer)).arrives port.val g.ctx 64 (.get g.num answer (s.shownBy g answer)))

/-! ### Periods -/

/-- A changed unit of the calendar takes the place of its old owners (R185). -/
def calMerge (old : List CalUnit) (new_ : CalUnit) : List CalUnit :=
  if old.any fun u => u.kind == new_.kind && u.index == new_.index then
    old.map fun u => if u.kind = new_.kind && u.index = new_.index then new_ else u
  else old ++ [new_]

/-- CALENDAR_FRAME: at each 512-clk boundary the acknowledged changes take effect (R185). -/
def execCalendarFrame (s : State) : Host.Outcome State Fault Refusal :=
  .next (
    if s.due 1 512 then
      (s.modNpu fun n => { n with calendar := n.calNext.foldl calMerge n.calendar, calNext := [] }).mark 1
    else s)

/-- The budgets of a new µs: those that the parameters give now (R313). -/
def NDie.newBudgets (n : NDie) : NDie :=
  { n with portUsed := [], ctxs := n.ctxs.map fun k => { k with bud := k.portBudget } }

/-- PORTBUD_PERIOD: each µs, 1,900 clk, the budgets renew, and what waits goes on (R305). -/
def execPortbudPeriod (s : State) : Host.Outcome State Fault Refusal :=
  .next (if s.due 2 1900 then ((s.modNpu NDie.newBudgets).mark 2).retryWaiting else s)

/-- FWSHARE_WINDOW: each 64 clk the firmware's share of each crew's slots renews (R184). -/
def execFwshareWindow (s : State) : Host.Outcome State Fault Refusal :=
  .next (
    if s.due 3 64 then
      ({ s with cores := s.cores.map fun c => { c with fw := { c.fw with taken := Vector.replicate 4 0 } } } : State).mark 3
    else s)

/-! ### Words that fail at fetch or decoding -/

/-- ILLEGAL_OP: a word that fails decoding traps with nothing executed and no token moved (R44). -/
def execIllegalOp (s : State) : Host.Outcome State Fault Refusal := .next (raise (trapOf codeIllegalOp) s)

/-- INST_PERM: a fetch outside the code range or without execute permission faults at its word (R286, R295). -/
def execInstPerm (addr : XWord) (s : State) : Host.Outcome State Fault Refusal :=
  .next (raise (xlatTrap codeInstPerm addr.toNat .fetch) s)

end Sys2Proof.Machine
end

