-- ==== Sys2Proof/Machine/Scp.lean ====
section
/-! DEFINITION. The Sarty Command Protocol's frame (spec/19_host_protocol.md R306, R308 to R310, R317): the checks of a
message, guilt, the order in which commands take effect, and the frame of every command. -/

namespace Sys2Proof

/-- The bytes from `lo` to `hi` that a layout requires to be 0. -/
def ScpMsg.zeros (m : ScpMsg) (lo hi : Nat) : Bool := m.num lo (hi + 1 - lo) = 0

/-- The payload has exactly `n` bytes. -/
def ScpMsg.size (m : ScpMsg) (n : Nat) : Bool := m.payload.length = n

/-- A context named by a payload byte (0 to 63). -/
def ScpMsg.ctxAt (m : ScpMsg) (i : Nat) : CtxId := ⟨m.byte i % 64, by omega⟩

/-- A payload byte names a context. -/
def ScpMsg.isCtx (m : ScpMsg) (i : Nat) : Bool := m.byte i < 64

/-- The header fields that R308 checks, the context apart; `status` is 0 in commands (Table 19.2). -/
def ScpMsg.headerOk (m : ScpMsg) : Bool :=
  let h := m.hdr.toNat
  Machine.field h 15 0 = 0x5343 && Machine.field h 143 128 = 0 && Machine.field h 63 56 = 0
    && Machine.field h 159 144 = 0 && Machine.field h 45 38 = 0 && Machine.field h 47 46 = 0 && Machine.field h 191 160 = m.payload.length
    && m.len = m.payload.length + 32 && m.payload.length ≤ 65504

end Sys2Proof

namespace Sys2Proof.Machine

/-- The context of a header. -/
def ScpMsg.hdrCtx (m : ScpMsg) : Nat := field m.hdr.toNat 37 32

/-! ### Guilt (R309) -/

def Ctx.guiltLimit (k : Ctx) : Nat := field k.params.toNat 152 137

/-- A guilty command: the count rises, saturating, and a context other than 0 is barred above its limit (R309,
Table 21.1). -/
def State.addGuilt (s : State) (ctx : CtxId) : State :=
  s.modCtx ctx fun k =>
    let g := Min.min (k.guilt + 1) 65535
    { k with guilt := g, barred := k.barred || (ctx ≠ 0 && k.guiltLimit < g) }

/-- The statuses that add guilt (Table 19.5). -/
def guiltyStatus (st : Nat) : Bool := 1 ≤ st && st ≤ 4

/-- What decides whether a context is barred: its count, its limit, whether it is. -/
structure Standing where
  guilt : Nat
  limit : Nat
  barred : Bool
  deriving DecidableEq, Repr

/-- A parameters record breaks no limit (Table 19.4): it is admitted whole (R313). -/
def paramsOk (v : Nat) : Bool := field v 167 153 ≤ 16384 && field v 136 128 ≤ 256 && field v 255 192 % 65536 = 0

/-- A checked command that has not taken effect yet changes the standing of a context when it does (R309, R313). -/
def Standing.after (ctx : CtxId) (t : Standing) (c : Cmd) : Standing :=
  if c.begun then t
  else if guiltyStatus c.status then
    if c.ctx = ctx then
      let g := Min.min (t.guilt + 1) 65535
      { t with guilt := g, barred := t.barred || (ctx ≠ 0 && t.limit < g) }
    else t
  else if c.status = 0 && c.msg.opcode = 0x11 && c.msg.byte 0 = ctx.val then { t with guilt := 0, barred := false }
  else if c.status = 0 && c.msg.opcode = 6 && c.msg.byte 0 = 1 && c.msg.byte 1 = ctx.val && paramsOk (c.msg.num 16 32) then
    { t with limit := field (c.msg.num 16 32) 152 137 }
  else t

/-- A context is barred for a command checked now: commands checked before it take effect before it (R310). -/
def State.barredAhead (s : State) (ctx : CtxId) : Bool :=
  let k := s.ctx ctx
  (s.npu.cmds.foldl (Standing.after ctx) { guilt := k.guilt, limit := k.guiltLimit, barred := k.barred }).barred

/-! ### Checks (R308) -/

/-- Accepted commands of a session not yet completed. -/
def State.outstandingScp (s : State) (conn : BitVec 16) : Nat :=
  (s.npu.cmds.filter fun c => c.msg.conn == conn && c.status = 0 && c.msg.opcode ≠ 1).length

/-- The module serves SCP. -/
def State.serves (s : State) : Bool := s.boot.stage = .ready || s.boot.stage = .sage

/-- A message of a session with number `id` may be checked now: checks of one clock go by ascending session (R310). -/
def State.mayCheck (s : State) (id : Nat) : Bool :=
  match s.npu.lastCheck with
  | some (c, k) => c ≠ s.cycle || k ≤ id
  | none => true

/-- Refused commands take effect in their turn: guilt is added, and the completion is sent (R310). `n` bounds the number of
commands. -/
def State.flushRefused (s : State) : Nat → State
  | 0 => s
  | n + 1 => match s.npu.cmds.find? fun c => !c.begun with
    | some c =>
      if c.status = 0 then s
      else
        let s := if guiltyStatus c.status then s.addGuilt c.ctx else s
        ((s.send (answerOf c.msg c.ctx c.status [])).modNpu fun d => { d with cmds := d.cmds.erase c }).flushRefused n
    | none => s

def State.flush (s : State) : State := s.flushRefused s.npu.cmds.length

/-- The bytes of a message that a context sends count on a port (R305; log 39). -/
def State.countScp (s : State) (m : ScpMsg) (ctx : CtxId) : State := s.portCount s.scpPort ctx (32 + m.payload.length)

/-- A checked command takes its place in the order (R310). -/
def State.queueScp (s : State) (m : ScpMsg) (ctx : CtxId) (status id : Nat) : State :=
  let c : Cmd := { msg := { m with accepted := true }, ctx := ctx, status := status, begun := false, at_ := s.cycle }
  (s.modNpu fun n => { n with cmds := n.cmds ++ [c], lastCheck := some (s.cycle, id) }).flush

/-- THE CHECKS OF R308 for a command whose layout and whose sender's right are given. A message on no session's connection
reaches no session and is dropped (R305; log 40). -/
def State.check (s : State) (m : ScpMsg) (layout : Bool) (denied : CtxId → Bool) : State :=
  match s.session m.conn with
  | none => s
  | some q =>
    if !s.serves || !s.mayCheck q.id.toNat then s
    else
      let status :=
        if s.barredAhead q.ctx then stBarred
        else if !m.headerOk || ScpMsg.hdrCtx m ≠ q.ctx.val || !layout then stMalformed
        else if denied q.ctx then stDenied
        else if m.seq < q.expected then stReplay
        else if q.expected < m.seq || 64 ≤ s.outstandingScp m.conn then stWindow
        else stOk
      let s := if status = stOk then
          s.modNpu fun n => { n with sessions := n.sessions.map fun p =>
            if p.id = q.id then { p with expected := p.expected + 1 } else p }
        else s
      (s.countScp m q.ctx).queueScp m q.ctx status q.id.toNat

/-! ### Applying (R310) -/

/-- The context whose tables a MAP, an UNMAP or a MIGRATE of a page changes. -/
def tableTarget (m : ScpMsg) : Option CtxId :=
  if m.opcode = 7 || m.opcode = 8 || (m.opcode = 9 && m.byte 0 = 0) then some (m.ctxAt 1) else none

/-- A put of a context has been sent to the address that a leaf gave, and is not performed yet (R292). -/
def State.putsOut (s : State) (ctx : CtxId) : Bool :=
  s.mem.remote.any fun r => r.ctx == ctx && r.put.isSome && r.open_ && !r.refused

/-- A command may be applied now: it has been accepted and not begun, every command checked before it has taken effect or
begun, its session's earlier commands have completed, and a change of tables, which completes as it is applied, finds every access
by the old translation performed (R292). -/
def State.mayApply (s : State) (m : ScpMsg) : Bool :=
  match s.npu.cmds.find? fun c => !c.begun with
  | some c => s.serves && c.msg == m && c.status = 0 && (!s.npu.cmds.any fun d => d.begun && d.msg.conn == m.conn)
      && (tableTarget m).all fun k => !s.putsOut k
  | none => false

/-- The first command that has not begun begins. -/
def beginFirst : List Cmd → List Cmd
  | [] => []
  | c :: rest => if c.begun then c :: beginFirst rest else { c with begun := true } :: rest

def State.begin_ (s : State) : State := s.modNpu fun n => { n with cmds := beginFirst n.cmds }

/-- What Sage mode serves: RESYNC, TELEMETRY, FW_UPDATE, and SESSION_OPEN of context 0 (R317). -/
def inSage (m : ScpMsg) : Bool :=
  m.opcode = 0x0E || m.opcode = 0x0F || m.opcode = 0x10 || (m.opcode = 1 && m.byte 0 = 0)

/-- Applying a command. -/
def State.applyScp (s : State) (m : ScpMsg) (body : State → State) : State :=
  if !s.mayApply m then s
  else
    let s := s.begin_
    (if s.boot.stage = .sage && !inSage m then
      (if m.opcode = 1 then s.completeFree m stSage else s.complete m stSage [])
    else body s).flush

/-- THE FRAME OF EVERY SCP COMMAND: a message that arrives is checked (R308), and an accepted command is applied (R310).
`fits` says that the message is of the command's row; one that is not is another row's. -/
def runScp (fits layout : Bool) (denied : CtxId → Bool) (m : ScpMsg) (s : State) (body : State → State) :
    Host.Outcome State Fault Refusal :=
  .next (
    if !fits then s
    else if m.accepted then s.applyScp m body
    else s.check m layout denied)

/-- Only context 0 may send it (Table 19.3). -/
def ownerOnly (k : CtxId) : Bool := k ≠ 0

/-- A context other than 0 acts on itself alone (Table 19.3). -/
def ownOrOwner (target k : CtxId) : Bool := k ≠ 0 && k ≠ target

/-- Any context may send it. -/
def anySender (_ : CtxId) : Bool := false

/-- The context that a command in progress counts for. -/
def State.cmdCtx (s : State) (m : ScpMsg) : CtxId := ((s.cmdOf m).map Cmd.ctx).getD 0

/-- A payload longer than a message holds goes in several completions of the same command (R318; log 33). -/
def State.completeParts (s : State) (m : ScpMsg) (parts : List (List Byte)) : State :=
  match parts with
  | [] => s.complete m stOk []
  | [p] => s.complete m stOk p
  | p :: rest => (s.send (answerOf m (s.cmdCtx m) stOk p)).completeParts m rest

/-- Bytes cut into pieces of `n`. -/
def pieces (n : Nat) (l : List Byte) : Nat → List (List Byte)
  | 0 => []
  | fuel + 1 => if l.length ≤ n then [l] else l.take n :: pieces n (l.drop n) fuel

/-- SCP_UNKNOWN_OPCODE: an opcode that Table 19.3 does not list completes MALFORMED (R308). -/
def execScpUnknownOpcode (m : ScpMsg) (s : State) : Host.Outcome State Fault Refusal :=
  runScp (m.opcode = 0 || 0x13 ≤ m.opcode) false anySender m s fun s => s.complete m stMalformed []

/-- GUILT_CLEAR (R309). -/
def execGuiltClear (m : ScpMsg) (s : State) : Host.Outcome State Fault Refusal :=
  runScp (m.opcode = 0x11) (m.size 1 && m.isCtx 0) ownerOnly m s fun s =>
    (s.modCtx (m.ctxAt 0) fun k => { k with guilt := 0, barred := false }).complete m stOk []

end Sys2Proof.Machine
end

