-- ==== Sys2Proof/Machine/Slots.lean ====
section
/-! DEFINITION. Slots and launches by command (spec/19_host_protocol.md R311, R312; R295, R175, R176): SLOT_LOAD, SLOT_PIN,
SLOT_REVOKE and INVOKE. -/

namespace Sys2Proof.Machine

/-! ### Images (R311, Table 19.8) -/

/-- The bytes of the code of a slot. -/
def hdCodeBytes (h : Image) : Nat := 4 * hdWords h

/-- Where the data image begins in a slot image. -/
def hdDataAt (h : Image) : Nat := (64 + hdCodeBytes h + 63) / 64 * 64

/-- The length of a slot image: with no data it may end at its code or at the next 64 bytes. -/
def hdEnds (h : Image) (n : Nat) : Bool :=
  n = hdDataAt h + hdDlen h || (hdDlen h = 0 && n = 64 + hdCodeBytes h)

/-- A slot by its number. -/
def State.slot (s : State) (n : Nat) : Option Slot := s.npu.slots.find? fun q => q.num == n

/-- A slot is added or takes the place of what it was. -/
def State.setSlot (s : State) (q : Slot) : State :=
  s.modNpu fun d => { d with slots := d.slots.filter (fun p => p.num ≠ q.num) ++ [q] }

def State.dropSlot (s : State) (n : Nat) : State :=
  s.modNpu fun d => { d with slots := d.slots.filter fun p => p.num ≠ n }

/-- The 64 KiB pages of a range of virtual addresses. -/
def pagesOf (va n : Nat) : List Nat :=
  if n = 0 then [] else (List.range ((va + n - 1) / 65536 - va / 65536 + 1)).map fun i => (va / 65536 + i) * 65536

/-- `n` bytes lie where the command processor may fill: in local memory, within the HBM, and in no table page (R287, R339; log 40). -/
def Xlat.fills (x : Xlat) (n : Nat) : Bool :=
  !entryRem x.leaf2.entry && !entryTbl x.leaf2.entry && decide (x.pa + n ≤ Config.hbmBytes)

/-- The physical page number of a virtual page that the command processor may pin and fill: mapped for the accesses given,
local, within the HBM, and no table page (R339; log 40). -/
def State.loadPage (s : State) (ctx : CtxId) (accs : List Access) (va : Nat) : Option Nat :=
  if accs.any fun a => match s.translate .ndie ctx va a with
      | .ok _ => false
      | .fault _ => true then none
  else match s.translate .ndie ctx va .read with
    | .fault _ => none
    | .ok x =>
      if x.fills 65536 then some (x.pa / 65536) else none

/-- The physical pages of ranges, or none when a page is not mapped as it must be. -/
def State.loadPages (s : State) (ctx : CtxId) (accs : List Access) : List Nat → Option (List Nat)
  | [] => some []
  | va :: rest => match s.loadPage ctx accs va with
    | none => none
    | some p => (s.loadPages ctx accs rest).map fun l => p :: l

/-- The pages of a slot's code and data (R311): code `r` and `x`, data `r`. -/
def State.slotPages (s : State) (ctx : CtxId) (h : Image) : Option (List Nat) :=
  match s.loadPages ctx [.read, .fetch] (pagesOf (hdCva h) (hdCodeBytes h)), s.loadPages ctx [.read] (pagesOf (hdDva h) (hdDlen h)) with
  | some a, some b => some (a ++ b)
  | _, _ => none

/-- Writing bytes of an image to a virtual address through the loader's tables, a page at a time, published at dev
scope; none where a walk faults, on an uncorrectable word of a table among others, or where a MAP since the first part has put the page
at a peer or over a table page (R303, R311, R287, R339; log 40). -/
def State.loadBytes (s : State) (ctx : CtxId) (va : Nat) (b : List Byte) : Nat → Option State
  | 0 => some s
  | fuel + 1 =>
    if b.isEmpty then some s
    else
      let k := Min.min b.length (65536 - va % 65536)
      match s.translate .ndie ctx va .read with
      | .fault _ => none
      | .ok x =>
        if !x.fills k then none
        else ((s.reviveFor ctx none x.pa k).storeUnits .npu (s.pubNow .dev outsideSpot) x.key x.pa (b.take k)).loadBytes ctx (va + k)
          (b.drop k) fuel

/-- The part of a chunk at image offset `off` that falls into [lo, lo + n), and where it begins there. -/
def chunkPart (off : Nat) (b : List Byte) (lo n : Nat) : Nat × List Byte :=
  let a := Max.max off lo
  (a - lo, (b.drop (a - off)).take (lo + n - a))

/-- A chunk of a slot image goes to the code and to the data range. -/
def State.loadChunk (s : State) (ctx : CtxId) (h : Image) (off : Nat) (b : List Byte) : Option State :=
  let c := chunkPart off b 64 (hdCodeBytes h)
  let d := chunkPart off b (hdDataAt h) (hdDlen h)
  (s.loadBytes ctx (hdCva h + c.1) c.2 (c.2.length / 65536 + 2)).bind fun s =>
    s.loadBytes ctx (hdDva h + d.1) d.2 (d.2.length / 65536 + 2)

/-- How far the parts received cover an image from its beginning. -/
def coveredTo (got : List (Nat × Nat)) (r : Nat) : Nat → Nat
  | 0 => r
  | fuel + 1 => coveredTo got (got.foldl (fun m p => if p.1 ≤ m then Max.max m (p.1 + p.2) else m) r) fuel

/-- A C word that needs six A-banks (R17). -/
def needsLease (w : W32) : Bool :=
  match decode .c w with
  | some (.mlease ..) | some (.mma ..) | some (.mmag ..) | some (.mhad ..) => true
  | _ => false

/-- The words of a range of the loader's memory: the code that the parts have written there; none where a walk faults, a
page has gone to a peer or a table, or an uncorrectable word is met (R303; log 40). -/
def State.codeWords (s : State) (ctx : CtxId) (va : Nat) : Nat → Option (List W32)
  | 0 => some []
  | n + 1 =>
    match s.translate .ndie ctx va .read with
    | .fault _ => none
    | .ok x =>
      if !x.fills 4 then none
      else if entryDead x.leaf2.entry then (s.codeWords ctx (va + 4) n).map fun l => 0 :: l
      else if s.mem.bad x.pa 4 then none
      else (s.codeWords ctx (va + 4) n).map fun l => bytesWord (s.mem.loads seesDev x.key x.pa 4) :: l

/-- The limit of R17 on the A-partition: six banks where the C section holds `mlease`, `mma`, `mmag` or `mhad` (R173, R311). -/
def State.leaseBanks (s : State) (q : Slot) : Bool :=
  let h := q.hdr
  6 ≤ hdNa h || match s.codeWords q.owner (hdCva h + 4 * (hdLx h + hdLl h)) (hdLc h) with
    | some l => !l.any needsLease
    | none => false

/-- The checks of the final part on the header (R311, R17, R173). -/
def Slot.ok (q : Slot) : Bool :=
  let h := q.hdr
  let n := coveredTo q.got 0 (q.got.length + 1)
  field h.toNat 31 0 = 0x4B57534C && field h.toNat 226 224 = 0 && field h.toNat 191 40 = 0 && field h.toNat 39 32 = q.num
    && 1 ≤ hdLx h && 1 ≤ hdLl h && 1 ≤ hdLc h && 1 ≤ hdLs h
    && hdEnds h n && q.got.all (fun p => p.1 + p.2 ≤ n)
    && hdPart h = hdNv h + hdNs h * 2 ^ 8 + hdNa h * 2 ^ 16
    && 1 ≤ hdNv h && hdNa h ≤ 56 && hdBanks h ≤ 64
    && hdNblocks h % hdTeamsz h = 0
    && hdCva h % 65536 = 0 && hdDva h % 65536 = 0 && (hdDlen h ≠ 0 || hdDva h = 0)

/-- Pins of a load. -/
def State.pinPages (s : State) (ctx : CtxId) (slot : Nat) (gen : Option Nat) (pages : List Nat) : State :=
  s.modNpu fun d => { d with pins := d.pins ++ pages.map fun p => { ctx := ctx, page := p, slot := slot, gen := gen } }

/-- The chunk of a SLOT_LOAD or FW_UPDATE message. -/
def chunkOf (m : ScpMsg) : List Byte := m.payload.drop 16

/-- A SLOT_LOAD part is written, and a final one is checked. A part that cannot be written completes REFUSED and changes nothing. -/
def State.loadPart (s : State) (m : ScpMsg) (ctx : CtxId) (q : Slot) : State :=
  let off := m.num 8 8
  let q := { q with got := q.got ++ [(off, (chunkOf m).length)] }
  match s.loadChunk ctx q.hdr off (chunkOf m) with
  | none => s.complete m stRefused []
  | some s =>
    let s := s.setSlot q
    if m.byte 1 = 0 then s.complete m stOk []
    else if q.ok && s.leaseBanks q then (s.setSlot { q with resident := true }).complete m stOk []
    else s.complete m stRefused []

/-- The header that a first part begins with. -/
def firstHeader (m : ScpMsg) : Image := BitVec.ofNat 512 (leNat ((chunkOf m).take 64))

/-- A first part of a SLOT_LOAD sets `inv` bits besides the sender's own (R311). -/
def setsOthers (m : ScpMsg) (k : CtxId) : Bool :=
  m.num 8 8 = 0 && k ≠ 0 && setField (field (firstHeader m).toNat 511 448) k.val k.val 0 ≠ 0

/-- SLOT_LOAD (R311). -/
def execSlotLoad (m : ScpMsg) (s : State) : Host.Outcome State Fault Refusal :=
  runScp (m.opcode = 2)
    (16 ≤ m.payload.length && m.byte 1 ≤ 1 && m.zeros 2 7 && (m.num 8 8 ≠ 0 || 80 ≤ m.payload.length))
    (setsOthers m) m s fun s =>
      let ctx := s.cmdCtx m
      let n := m.byte 0
      let owned := (s.slot n).all fun q => q.owner = ctx && !q.resident
      if !owned then s.complete m stInUse []
      else if m.num 8 8 = 0 then
        match s.slotPages ctx (firstHeader m) with
        | none => s.complete m stRefused []
        | some pages =>
          let g := s.npu.nextGen
          let q : Slot := { num := n, owner := ctx, hdr := firstHeader m, got := [], resident := false, gen := g }
          let s := ((s.setSlot q).modNpu fun d => { d with nextGen := g + 1 }).modNpu NDie.releasePins
          (s.pinPages ctx n (some g) pages).loadPart m ctx q
      else match s.slot n with
        | none => s.complete m stRefused []
        | some q => s.loadPart m ctx q

/-- SLOT_PIN (R311, R295). -/
def execSlotPin (m : ScpMsg) (s : State) : Host.Outcome State Fault Refusal :=
  runScp (m.opcode = 3) (m.size 24) anySender m s fun s =>
    let ctx := s.cmdCtx m
    let va := m.num 8 8
    let len := m.num 16 8
    match s.slot (m.byte 0) with
    | none => s.complete m stNotResident []
    | some q =>
      if q.owner ≠ ctx then s.complete m stInUse []
      else if va % 65536 ≠ 0 || len % 65536 ≠ 0 || 2 ^ 48 < va + len then s.complete m stRefused []
      else match s.loadPages ctx [.read] (pagesOf va len) with
        | none => s.complete m stRefused []
        | some pages => (s.pinPages ctx q.num none pages).complete m stOk []

/-! ### SLOT_REVOKE (R312, R295) -/

/-- A launch of a load has a team placed. -/
def Launch.runs (l : Launch) (gen : Nat) : Bool := l.gen = gen && 0 < l.placed

/-- Cancelling the queued launches of a load, the newest first. -/
def State.cancelQueued (s : State) (gen : Nat) (k : CtxId) : State :=
  ((s.ctx k).launches.filter fun l => l.gen = gen && l.placed = 0).reverse.foldl
    (fun s l => s.finishLaunch k l.num stNotResident EndInfo.none_) s

/-- A block of a launch in a list loses its code. -/
def Crew.revoke (c : Crew) (ls : List (CtxId × Nat)) : Crew :=
  { c with block := c.block.map fun b => if ls.contains (b.ctx, b.launch) then { b with revoked := true } else b }

/-- Execute is revoked from the running launches of a load: those placed, those saved and the teams still to be placed. -/
def State.revokeExec (s : State) (gen : Nat) : State :=
  let ls := ctxIds.flatMap fun k => ((s.ctx k).launches.filter fun l => l.gen = gen).map fun l => (k, l.num)
  let s : State := { s with cores := s.cores.map fun c => { c with crews := c.crews.map fun w => w.revoke ls } }
  s.modNpu fun d => { d with
    saves := d.saves.map fun v => { v with rec_ := v.rec_.revoke ls }
    ctxs := d.ctxs.map fun k => { k with launches := k.launches.map fun l =>
      if l.gen = gen then { l with revoked := true } else l } }

/-- SLOT_REVOKE (R312). -/
def execSlotRevoke (m : ScpMsg) (s : State) : Host.Outcome State Fault Refusal :=
  runScp (m.opcode = 4) (m.size 2 && m.byte 1 ≤ 1) anySender m s fun s =>
    let ctx := s.cmdCtx m
    match s.slot (m.byte 0) with
    | none => s.complete m stNotResident []
    | some q =>
      if ctx ≠ 0 && q.owner ≠ ctx then s.complete m stInUse []
      else
        let running := ctxIds.any fun k => (s.ctx k).launches.any fun l => l.runs q.gen
        if running && m.byte 1 = 0 then s.complete m stBusy []
        else
          let s := (ctxIds.foldl (State.cancelQueued · q.gen) s).revokeExec q.gen
          ((s.dropSlot q.num).modNpu NDie.releasePins).complete m stOk []

/-! ### INVOKE (R312, R175, R176) -/

/-- The dependences that an INVOKE lists. -/
def depsOf (m : ScpMsg) : List Nat := (List.range (m.byte 2)).map fun i => m.num (136 + 8 * i) 8

/-- The launch that an INVOKE makes. -/
def launchOf (m : ScpMsg) (q : Slot) (num : Nat) : Launch :=
  { num := num, slot := q.num, hdr := q.hdr, loader := q.owner, prio := m.byte 1
    b := Vector.ofFn fun i => BitVec.ofNat 64 (m.num (8 + 8 * i.val) 8)
    deps := depsOf m, cookie := m.cookie, dom := none, gen := q.gen, revoked := false, placed := 0, done := 0 }

/-- INVOKE (R312). -/
def execInvoke (m : ScpMsg) (s : State) : Host.Outcome State Fault Refusal :=
  runScp (m.opcode = 5) (m.size 200 && m.byte 1 ≤ 7 && m.byte 2 ≤ 8 && m.zeros 3 7) anySender m s fun s =>
    let ctx := s.cmdCtx m
    match (s.slot (m.byte 0)).filter fun q => q.resident && (field q.hdr.toNat 511 448).testBit ctx.val with
    | none => s.complete m stNotResident []
    | some q =>
      let quota := (s.ctx ctx).crewQuota
      let num := (s.ctx ctx).nextLaunch
      if quota ≠ 0 && quota < hdTeamsz q.hdr then s.complete m stQuota []
      else if (depsOf m).any fun d => d = 0 || num ≤ d then s.complete m stRefused []
      else
        let s := s.modCtx ctx fun k => { k with launches := k.launches ++ [launchOf m q num], nextLaunch := num + 1 }
        let s := s.complete m stOk (natLe 8 num)
        s.cancelDoomed ctx (s.ctx ctx).launches.length

end Sys2Proof.Machine
end

