-- ==== Sys2Proof/Machine/Commands.lean ====
section
/-! DEFINITION. Commands that set records, tables, keys and states (spec/19_host_protocol.md R313 to R315, R185, R326;
spec/18_translation_faults.md R292 to R302, R339; spec/10_shutter.md R210 to R212): CONTRACT_SET, MAP, UNMAP, MIGRATE,
KEY_LOAD, PREEMPT, RESUME, CTX_RESET, CALENDAR_SET and FW_UPDATE. -/

namespace Sys2Proof.Machine

/-! ### Contracts (R210 to R212) -/

/-- The bytes of a record in a CONTRACT_SET. -/
def recordOf (m : ScpMsg) (n : Nat) : List Byte := (m.payload.drop 16).take n

/-- The layout of a CONTRACT_SET with a record of `n` bytes (Table 19.3). -/
def contractLayout (m : ScpMsg) (n : Nat) : Bool := m.size (16 + n) && m.zeros 2 15

/-- The must-be-0 bits of a contract record (Table 10.1). -/
def contractZeros (c : BitVec 128) : Bool :=
  field c.toNat 79 64 = 0 && field c.toNat 59 59 = 0 && field c.toNat 55 50 = 0 && field c.toNat 31 1 = 0

/-- The rungs of a ladder, the ceiling first. -/
def ctLadder (c : BitVec 128) : List Nat := (List.range (ctNrung c + 1)).map (ctRung c)

/-- A ladder is admissible (R211). -/
def ladderOk (c : BitVec 128) : Bool :=
  let l := ctLadder c
  l.all (fun t => (pairing t t).isSome && pairing t t = pairing (ctRung c 0) (ctRung c 0))
    && (l.zip l.tail).all fun p => quanta p.2 < quanta p.1

/-- The field limits of a record in force (Table 10.1). -/
def contractLimits (c : BitVec 128) : Bool :=
  64 ≤ ctL c && 1 ≤ ctLmax c && ctLmax c ≤ 4 && ctK c ≤ 8192
    && (List.range 4).all fun i => i ≤ ctNrung c || ctRung c i = 0

/-- What a record takes in the admission test (R212). -/
def floorDemand (c : BitVec 128) : Nat := if ctValid c then ctLmax c * demand c (ctNrung c) else 0

/-- The record that a context has been admitted with: the latest waiting for its boundary, or the one in force. -/
def Ctx.admitted (k : Ctx) : BitVec 128 :=
  (k.pending.getLast?.map Prod.fst).getD k.contract

/-- A record is admitted in place of a context's old one (R212). -/
def State.admits_ (s : State) (ctx : CtxId) (c : BitVec 128) : Bool :=
  if ctValid c then
    ladderOk c && contractLimits c
      && (ctxIds.map fun k => floorDemand (if k = ctx then c else (s.ctx k).admitted)).sum ≤ arrayQuanta
  else c = 0

/-- CONTRACT_SET, selector 0, and every selector that names no record (R212, R225). -/
def execContractSet (m : ScpMsg) (s : State) : Host.Outcome State Fault Refusal :=
  runScp (m.opcode = 6 && (m.byte 0 = 0 || 5 ≤ m.byte 0))
    (m.byte 0 = 0 && contractLayout m 16 && m.isCtx 1 && contractZeros (BitVec.ofNat 128 (m.num 16 16))) ownerOnly m s
    fun s =>
      let c := BitVec.ofNat 128 (m.num 16 16)
      if s.admits_ (m.ctxAt 1) c then
        (s.modCtx (m.ctxAt 1) fun k => { k with pending := k.pending ++ [(c, s.cycle)] }).complete m stOk []
      else s.complete m stRefused []

/-- CONTRACT_SET, selector 1: the context parameters (Table 19.4). -/
def execContractSetParams (m : ScpMsg) (s : State) : Host.Outcome State Fault Refusal :=
  runScp (m.opcode = 6 && m.byte 0 = 1) (contractLayout m 32 && m.isCtx 1 && m.zeros 16 28) ownerOnly m s fun s =>
    let v := m.num 16 32
    if !paramsOk v then s.complete m stRefused []
    else
      (s.modCtx (m.ctxAt 1) fun k => { k with params := BitVec.ofNat 256 (setField v 123 122 3) }).complete m stOk []

/-- CONTRACT_SET, selector 2: a peer entry (R313). -/
def execContractSetPeer (m : ScpMsg) (s : State) : Host.Outcome State Fault Refusal :=
  runScp (m.opcode = 6 && m.byte 0 = 2) (contractLayout m 32 && field (m.num 16 32) 111 1 = 0) ownerOnly m s fun s =>
    let put (l : List (Nat × BitVec 256)) : List (Nat × BitVec 256) :=
      l.filter (fun p => p.1 ≠ m.byte 1) ++ [(m.byte 1, BitVec.ofNat 256 (m.num 16 32))]
    (s.modNpu fun d => { d with peers := put d.peers }).complete m stOk []

/-- CONTRACT_SET, selector 3: `devid` and `dom.id` (R313). -/
def execContractSetDevid (m : ScpMsg) (s : State) : Host.Outcome State Fault Refusal :=
  runScp (m.opcode = 6 && m.byte 0 = 3) (contractLayout m 8) ownerOnly m s fun s =>
    (s.modNpu fun d => { d with devid := BitVec.ofNat 16 (m.num 16 2), domid := BitVec.ofNat 32 (m.num 20 4) }).complete m
      stOk []

/-- CONTRACT_SET, selector 4: the SM2 key of a context other than 0, whose own lies in module flash (R307, R313). -/
def execContractSetKey (m : ScpMsg) (s : State) : Host.Outcome State Fault Refusal :=
  runScp (m.opcode = 6 && m.byte 0 = 4) (contractLayout m 64 && m.isCtx 1) ownerOnly m s fun s =>
    if m.byte 1 = 0 then s.complete m stRefused []
    else (s.modCtx (m.ctxAt 1) fun k => { k with key := BitVec.ofNat 512 (leNat (recordOf m 64)) }).complete m stOk []

/-! ### Tables, pages and keys (R314, R339) -/

/-- The status of a change that failed (Table 19.5). -/
def MapFail.status : MapFail → Nat
  | .refused => stRefused
  | .inUse => stInUse
  | .noSpace => stNoSpace

/-- A change of tables completes: it stands whole, or nothing has changed. -/
def State.afterMap (s : State) (m : ScpMsg) (r : Mapped) : State :=
  match r with
  | .ok s => s.complete m stOk []
  | .error f => s.complete m f.status []

/-- The stage that a MAP or UNMAP names. -/
def stageOf (m : ScpMsg) : StageNo := if m.byte 0 = 1 then .one else .two

/-- The bytes that MAP and UNMAP begin with (Table 19.3). -/
def mapLayout (m : ScpMsg) (n : Nat) : Bool :=
  m.size n && (m.byte 0 = 1 || m.byte 0 = 2) && m.isCtx 1 && 2 ≤ m.byte 2 && m.byte 2 ≤ 4 && m.zeros 3 7

/-- Who may change a tree: stage 2 is context 0's (R282). -/
def mapDenied (m : ScpMsg) (k : CtxId) : Bool := ownOrOwner (m.ctxAt 1) k || (m.byte 0 = 2 && k ≠ 0)

/-- MAP (R339). -/
def execMap (m : ScpMsg) (s : State) : Host.Outcome State Fault Refusal :=
  runScp (m.opcode = 7) (mapLayout m 32) (mapDenied m) m s fun s =>
    s.afterMap m (s.map (stageOf m) (m.ctxAt 1) (m.num 8 8) (m.byte 2) (m.num 16 8) (m.num 24 8))

/-- UNMAP (R339): as MAP without the entry. -/
def execUnmap (m : ScpMsg) (s : State) : Host.Outcome State Fault Refusal :=
  runScp (m.opcode = 8) (mapLayout m 24) (mapDenied m) m s fun s =>
    s.afterMap m (s.unmap (stageOf m) (m.ctxAt 1) (m.num 8 8) (m.byte 2) (m.num 16 8))

/-- MIGRATE, kind 0, and every kind that names none (R294, R314). -/
def execMigratePage (m : ScpMsg) (s : State) : Host.Outcome State Fault Refusal :=
  runScp (m.opcode = 9 && (m.byte 0 = 0 || 3 ≤ m.byte 0)) (m.byte 0 = 0 && m.size 24 && m.isCtx 1) ownerOnly m s fun s =>
    s.afterMap m (s.migrate (m.ctxAt 1) (m.num 8 8) (m.num 16 8))

/-- The die that a MIGRATE names. -/
def dieOfMsg (m : ScpMsg) : DieId := ⟨m.byte 1 % 4, by omega⟩

/-- The sequence that an export names, where its sender may have it (R244). -/
def State.exportOf (s : State) (m : ScpMsg) : Option Sgr :=
  (s.dies.get (dieOfMsg m)).sgrs.find? fun g => g.handle == m.num 2 2 && (s.cmdCtx m = 0 || g.ctx == s.cmdCtx m)

/-- A sequence is exported, and freed if the command says so. -/
def State.exportNow (s : State) (m : ScpMsg) : State :=
  let d := s.dies.get (dieOfMsg m)
  match s.exportOf m with
  | none => s.complete m stRefused []
  | some g =>
    if 8172 < (d.exported g).length then s.complete m stNoSpace []
    else
      let s := if m.byte 4 = 1 then s.modDie (dieOfMsg m) fun d => d.drop g.handle else s
      s.complete m stOk (d.exportSgr g)

/-- An export that frees its sequence waits, as `gfree` does, for the masks of the handle that Casement has begun (R103, R235; DEDUCED,
log 29). -/
def State.exportWaits (s : State) (m : ScpMsg) : Bool :=
  m.byte 4 = 1 && (s.exportOf m).isSome && (s.dies.get (dieOfMsg m)).masks.any fun k => k.handle == m.num 2 2

/-- MIGRATE, kind 1: the export of a sequence (R244, R314). -/
def execMigrateExport (m : ScpMsg) (s : State) : Host.Outcome State Fault Refusal :=
  runScp (m.opcode = 9 && m.byte 0 = 1) (m.size 5 && m.byte 1 < 4 && m.byte 4 ≤ 1) anySender m s fun s =>
    if s.exportWaits m then s else s.exportNow m

/-- The exports that have waited for masks which are complete now. -/
def State.exportsDue (s : State) : State :=
  (s.npu.cmds.filter fun c => c.begun && c.msg.opcode = 9 && c.msg.byte 0 = 1).foldl
    (fun s c => if s.exportWaits c.msg then s else s.exportNow c.msg) s

/-- The nodes of an export: 8 bytes each. -/
def nodeWords (b : List Byte) : Nat → List Nat
  | 0 => []
  | n + 1 => leNat (b.take 8) :: nodeWords (b.drop 8) n

/-- MIGRATE, kind 2: the import of a sequence; its image's header is read again, through the sender's tables (R244, R314;
log 29). The sequence is the sender's, whatever context the export names, and an export that is not well formed completes REFUSED
(DESIGN CHOICE, log 61). -/
def execMigrateImport (m : ScpMsg) (s : State) : Host.Outcome State Fault Refusal :=
  runScp (m.opcode = 9 && m.byte 0 = 2)
    (130 ≤ m.payload.length && (m.payload.length - 130) % 8 = 0 && m.byte 1 < 4) anySender m s fun s =>
      let ctx := s.cmdCtx m
      let v := m.num 2 128
      let view := (s.mem.stores.filter seesDev).map fun g => g.id
      match s.casBytes .ndie ctx view (field v 47 0) 64 with
      | .error _ => s.complete m stRefused []
      | .ok b =>
        let h : Image := BitVec.ofNat 512 (leNat b)
        if headerBad h || field v 47 0 % 64 ≠ 0 then s.complete m stRefused []
        else
          let nodes := nodeWords (m.payload.drop 130) ((m.payload.length - 130) / 8)
          match s.importSgr (s.dies.get (dieOfMsg m)) ctx v nodes h view with
          | .made d k => (s.modDie (dieOfMsg m) fun _ => d).complete m stOk (natLe 2 k)
          | .malformed => s.complete m stRefused []
          | .lack => s.complete m stNoSpace []

/-- The layout of a KEY_LOAD (Table 19.3). -/
def keyLayout (m : ScpMsg) : Bool := m.size 48 && m.num 0 2 ≤ 1023 && m.byte 2 ≤ 1 && m.zeros 3 15

/-- KEY_LOAD: a slot is written, unless a stage-2 leaf names it (R314, R328). -/
def execKeyLoad (m : ScpMsg) (s : State) : Host.Outcome State Fault Refusal :=
  runScp (m.opcode = 0x0A && m.byte 2 ≠ 1) (keyLayout m) ownerOnly m s fun s =>
    if s.treesBad then s.complete m stRefused []
    else if s.keyNamed (m.num 0 2) then s.complete m stInUse []
    else
      let put (l : List (Nat × BitVec 256)) : List (Nat × BitVec 256) :=
        l.filter (fun k => k.1 ≠ m.num 0 2) ++ [(m.num 0 2, BitVec.ofNat 256 (m.num 16 32))]
      (s.modNpu fun d => { d with keys := put d.keys }).complete m stOk []

/-- KEY_LOAD with the erase flag (R314, R328). -/
def execKeyErase (m : ScpMsg) (s : State) : Host.Outcome State Fault Refusal :=
  runScp (m.opcode = 0x0A && m.byte 2 = 1) (keyLayout m) ownerOnly m s fun s =>
    if s.treesBad then s.complete m stRefused []
    else if s.keyNamed (m.num 0 2) then s.complete m stInUse []
    else (s.modNpu fun d => { d with keys := d.keys.filter fun k => k.1 ≠ m.num 0 2 }).complete m stOk []

/-! ### Pre-emption and notices (R297, R299, R302) -/

/-- PREEMPT: the context is `preempting`, its crews halt within the bound, which counts from the command's acceptance, or have halted at
it, and the command completes when they are saved (R299, R300; log 32). -/
def execPreempt (m : ScpMsg) (s : State) : Host.Outcome State Fault Refusal :=
  runScp (m.opcode = 0x0B) (m.size 1 && m.isCtx 0) ownerOnly m s fun s =>
    let k := m.ctxAt 0
    if (s.ctx k).state ≠ .running || (s.ctx k).saveArea = 0 then (s.thaw k).complete m stRefused []
    else if (s.ctx k).crewQuota < s.placedBlocks k then (s.thaw k).complete m stNoSpace []
    else s.modCtx k fun c => { c with
      state := .preempting, preemptFor := some m
      halting := if c.halting = .halted then .halted else .due (((s.cmdOf m).map Cmd.at_).getD s.cycle) }

/-- The layout of a RESUME (Table 19.3). -/
def resumeLayout (m : ScpMsg) : Bool := m.size 16 && m.byte 0 ≤ 2 && m.isCtx 1

/-- RESUME of a context: its directory says where its crews go (R302), and one with an uncorrectable word is refused (R303; log 40);
and every selector that names nothing. -/
def execResume (m : ScpMsg) (s : State) : Host.Outcome State Fault Refusal :=
  runScp (m.opcode = 0x0C && (m.byte 0 = 0 || 3 ≤ m.byte 0)) (resumeLayout m) ownerOnly m s fun s =>
    let k := m.ctxAt 1
    if (s.ctx k).state ≠ .preempted || s.saveBad (s.ctx k).saveArea 4096 then s.complete m stRefused []
    else (s.readDirectory k).modCtx k fun c => { c with state := .resuming, resumeFor := some m }

/-- A notice that is open. -/
def Ctx.notice (k : Ctx) (num : Nat) : Option Notice := k.notices.find? fun n => n.num == num

/-- A notice is closed. -/
def State.closeNotice (s : State) (k : CtxId) (num : Nat) : State :=
  s.modCtx k fun c => { c with notices := c.notices.filter fun n => n.num ≠ num }

/-- RESUME of a notice for a retry: the firmware context of its core will retry the word (R297). -/
def execResumeRetry (m : ScpMsg) (s : State) : Host.Outcome State Fault Refusal :=
  runScp (m.opcode = 0x0C && m.byte 0 = 1) (resumeLayout m) (ownOrOwner (m.ctxAt 1)) m s fun s =>
    let k := m.ctxAt 1
    match (s.ctx k).notice (m.num 8 8) with
    | none => s.complete m stRefused []
    | some n =>
      let s := s.closeNotice k n.num
      let s := if n.holds then s.modFwAt n.core fun w => { w with retries := w.retries ++ [n.trap] } else s
      s.complete m stOk []

/-- The launch that a notice belongs to: of its crew's block, or of the crew as saved. -/
def State.noticeBlock (s : State) (k : CtxId) (n : Notice) : Option Block :=
  if n.holds then (s.crewAt n.core n.trap.crew).block
  else match s.npu.saves.find? fun v => v.ctx == k && v.core == n.core && v.crew == n.trap.crew with
    | some v => v.rec_.block
    | none => (s.crewAt n.core n.trap.crew).block

/-- RESUME of a notice for a refusal: its launch ends (R297, R298). -/
def execResumeRefuse (m : ScpMsg) (s : State) : Host.Outcome State Fault Refusal :=
  runScp (m.opcode = 0x0C && m.byte 0 = 2) (resumeLayout m) (ownOrOwner (m.ctxAt 1)) m s fun s =>
    let k := m.ctxAt 1
    match (s.ctx k).notice (m.num 8 8) with
    | none => s.complete m stRefused []
    | some n =>
      let b := s.noticeBlock k n
      let s := s.closeNotice k n.num
      let s := match b with
        | none => s
        | some b =>
          if b.ctx ≠ k then s
          else (s.faultRecord (faultOfTrap 1 n.core n.trap)).endLaunch k b.launch stFailed
            { code := n.trap.code, stream := n.trap.stream, blockid := b.blockid, pc := n.trap.pc, addr := n.trap.addr }
      s.complete m stOk []

/-! ### CTX_RESET (R315) -/

/-- A command of a context in progress completes RESET. -/
def State.resetCmd (s : State) (m : Option ScpMsg) : State :=
  match m with
  | some m => s.complete m stReset []
  | none => s

/-- The sequences of a context end on a die, and its requests go (R235, R315). -/
def Die.resetCtx (d : Die) (k : CtxId) : Die :=
  ({ d with sgrs := d.sgrs.filter fun g => !(g.ctx == k) } : Die).settled

/-- CTX_RESET of a context (R315): launches end the newest first, so that none is cancelled by another's failure; a handler that
was entered to save the context ends. -/
def execCtxReset (m : ScpMsg) (s : State) : Host.Outcome State Fault Refusal :=
  runScp (m.opcode = 0x0D) (m.size 1 && m.isCtx 0) (ownOrOwner (m.ctxAt 0)) m s fun s =>
    let k := m.ctxAt 0
    if s.directoryLost k then s.complete m stRefused [] else
    let s := (s.ctx k).launches.reverse.foldl (fun s l => s.endLaunch k l.num stReset EndInfo.none_) s
    let s : State := { s with dies := s.dies.map fun d => d.resetCtx k }
    let s := (s.resetCmd (s.ctx k).preemptFor).resetCmd (s.ctx k).resumeFor
    let s := (s.modNpu fun d => { d with saves := d.saves.filter fun v => v.ctx ≠ k }).clearDirectory k
    let s : State := { s with cores := s.cores.map fun c =>
      if c.fw.serving = .preempt k then { c with fw := { c.fw with eretDue := true } } else c }
    (s.modCtx k fun c => { c with state := .idle, halting := .no, preemptFor := none, resumeFor := none, notices := [] }).complete m stOk []

/-! ### CALENDAR_SET (R185) and FW_UPDATE (R326) -/

/-- CALENDAR_SET: in force at the next frame boundary (R185); an owner byte is a context or unowned (Table 19.3; log 33). -/
def execCalendarSet (m : ScpMsg) (s : State) : Host.Outcome State Fault Refusal :=
  runScp (m.opcode = 0x12)
    (m.size 520 && m.byte 0 ≤ 2 && (m.payload.drop 8).all fun b => b.toNat < 64 || b.toNat = 255) ownerOnly m s fun s =>
      let put (l : List CalUnit) : List CalUnit :=
        calMerge l { kind := m.byte 0, index := m.num 1 3, owners := m.payload.drop 8 }
      (s.modNpu fun d => { d with calNext := put d.calNext }).complete m stOk []

/-- Bytes written at an offset of a bank; what lies before and was never written is 0. -/
def bankWrite (bank : List Byte) (off : Nat) (b : List Byte) : List Byte :=
  let head := bank.take off
  head ++ List.replicate (off - head.length) 0 ++ b ++ bank.drop (off + b.length)

/-- The bank that an FW_UPDATE writes: not the running one, and in Sage mode not the preferred one (R326). -/
def Boot.updateBank (b : Boot) : Bool := if b.stage = .sage then !b.pref else !b.running

/-- FW_UPDATE (R326): a chunk beyond the largest image is refused. -/
def execFwUpdate (m : ScpMsg) (s : State) : Host.Outcome State Fault Refusal :=
  runScp (m.opcode = 0x10) (16 ≤ m.payload.length && m.byte 0 ≤ 1) ownerOnly m s fun s =>
    let off := m.num 8 8
    let b := chunkOf m
    let side := s.boot.updateBank
    if 256 + 2 ^ 24 < off + b.length then s.complete m stRefused []
    else
      let s : State := { s with boot := s.boot.setBank side (bankWrite (s.boot.bank side) off b) }
      if m.byte 0 = 0 then s.complete m stOk []
      else if !bankVerifies s.boot.minSvn (s.boot.bank side) then s.complete m stRefused []
      else if s.boot.stage = .sage then
        let s : State := { s with boot := (s.boot.put 8 8 side.toNat).put 23 16 0 }
        (s.complete m stOk []).clear .powered
      else ({ s with boot := s.boot.put 8 8 side.toNat } : State).complete m stOk []

end Sys2Proof.Machine
end

