-- ==== Sys2Proof/Machine/Control.lean ====
section
/-! DEFINITION. The control words common to the streams (spec/04_isa_scalar.md R61 to R69, R82, R83): no operation,
loops, branches, `halt`, `wait`, `rstp`. -/

namespace Sys2Proof.Machine

/-! ### Shared operations -/

/-- PC + 4·sext(off, w) (R48). -/
def branchTarget {w : Nat} (pc : XWord) (off : BitVec w) : XWord := pc + 4 * off.signExtend 64

/-- The address of the last word of a body of `len` words (R62). -/
def bodyLast (pc : XWord) (len : BitVec 11) : XWord := pc + 4 * len.zeroExtend 64

/-- The two refusals of PushLoop (R62). -/
def loopRefused (s : State) (last : XWord) : Bool :=
  s.seq.loops.length = 4 || (match s.seq.loops with
    | top :: _ => top.last.toNat < last.toNat
    | [] => false)

/-- PushLoop (R62). -/
def pushLoop (kind : LoopKind) (count : Nat) (len : BitVec 11) (s : State) : Res :=
  let last := bodyLast s.pc len
  if loopRefused s last then .trap (trapOf codeRegRange)
  else if count = 0 then .skip s last
  else .done (s.modSeq fun q => { q with loops :=
    { first := s.pc + 4, last := last, left := count, kind := kind, outer := 0, cur := 0 } :: q.loops })

/-- Every command the sequencer has issued has retired (R67, R68). The firmware context has none in flight: its `discard`
completes as it issues (log 21). -/
def State.allRetired (s : State) : Bool := s.cur.role = .fw || (s.crew.outstanding s.cur.role.stream).isEmpty

/-- Whether a register of a branch is an x-register or an a-register of the stream (R66). -/
def State.getR (s : State) (r : XReg) : XWord :=
  if s.cur.role.isX then s.getX r else (s.getA ⟨r.val % 16, by omega⟩).zeroExtend 64

def State.setR (s : State) (r : XReg) (v : XWord) : State :=
  if s.cur.role.isX then s.setX r v else s.setA ⟨r.val % 16, by omega⟩ (v.setWidth 48)

/-- The reference of a register that is an x- or an a-register by stream. -/
def refR (r : XReg) : State → List RegRef := fun s =>
  if s.cur.role.isX then refX r s else refA ⟨r.val % 16, by omega⟩ s

/-- A conditional transfer (R82). -/
def branchIf (c : Bool) (s : State) (target : XWord) : Res := if c then .taken s target else .done s

/-! ### R61: `nop`, `tok` -/

def execNop (s : State) : Host.Outcome State Fault Refusal := runWord Tok.zero [] s fun s => .done s

def execTok (tk : Tok) (s : State) : Host.Outcome State Fault Refusal := runWord tk [] s fun s => .done s

/-! ### R63, R64: counted loops -/

def execLoop (tk : Tok) (count : BitVec 10) (len : BitVec 11) (s : State) : Host.Outcome State Fault Refusal :=
  runWord tk [] s fun s => pushLoop .plain count.toNat len s

def execLoopRegX (tk : Tok) (r : XReg) (len : BitVec 11) (s : State) : Host.Outcome State Fault Refusal :=
  runWord tk [refX r] s fun s => pushLoop .plain (s.getX r).toNat len s

def execLoopReg (tk : Tok) (r : AReg) (len : BitVec 11) (s : State) : Host.Outcome State Fault Refusal :=
  runWord tk [refA r] s fun s => pushLoop .plain (s.getA r).toNat len s

def execLoopr (tk : Tok) (count : BitVec 10) (len : BitVec 11) (s : State) : Host.Outcome State Fault Refusal :=
  runWord tk [] s fun s => pushLoop .rotating count.toNat len s

def execLooprReg (tk : Tok) (r : AReg) (len : BitVec 11) (s : State) : Host.Outcome State Fault Refusal :=
  runWord tk [refA r] s fun s => pushLoop .rotating (s.getA r).toNat len s

/-! ### R65: `loopx` -/

/-- The cursor loop with its checks, in the order of R65: ALIGN, the row-pointer array, PushLoop, NextRow. -/
def cursorLoop (aC aN : AReg) (len : BitVec 11) (s : State) : Res :=
  let n := (s.getA aN).toNat
  let last := bodyLast s.pc len
  if n = 0 then .skip s last
  else if (s.getA aC).toNat % 4 ≠ 0 then .trap (trapAt codeAlign (s.getA aC).toNat)
  else
    match poolCheck s.crew.part (s.getA aC).toNat (4 * (n + 1)) 4 with
    | some t => .trap t
    | none =>
      if loopRefused s last then .trap (trapOf codeRegRange)
      else
        let e : LoopEntry := { first := s.pc + 4, last := last, left := 0, kind := .cursor, outer := n, cur := aC }
        match nextRow e s n with
        | .ok (e, s) =>
          let s := s.modSeq fun q => { q with loops := e :: q.loops }
          if 0 < e.left then .done s else .skip s last
        | .error (.trap t) => .trap t
        | .error _ => .block .other id

def execLoopx (tk : Tok) (aC aN : AReg) (len : BitVec 11) (s : State) : Host.Outcome State Fault Refusal :=
  runWord tk [refA aC, refA aN] s fun s => cursorLoop aC aN len s

/-! ### R66, R82, R83: branches, calls and jumps -/

/-- Decrement and branch while nonzero (R66). -/
def branchCount (r : XReg) (off : BitVec 16) (s : State) : Res :=
  let v := if s.cur.role.isX then s.getR r - 1 else (((s.getR r).setWidth 48 - 1 : AWord)).zeroExtend 64
  branchIf (v ≠ 0) (s.setR r v) (branchTarget s.pc off)

def execBrc (tk : Tok) (r : XReg) (off : BitVec 16) (s : State) : Host.Outcome State Fault Refusal :=
  runWord tk [refR r] s fun s => branchCount r off s

def execJmp (tk : Tok) (off : BitVec 22) (s : State) : Host.Outcome State Fault Refusal :=
  runWord tk [] s fun s => .taken s (branchTarget s.pc off)

def execCall (tk : Tok) (off : BitVec 22) (s : State) : Host.Outcome State Fault Refusal :=
  runWord tk [] s fun s => .taken (s.setX 63 (s.pc + 4)) (branchTarget s.pc off)

/-- `jr` traps ALIGN at itself when the target is not a multiple of 4 (R42, R83). -/
def execJr (tk : Tok) (ra : XReg) (s : State) : Host.Outcome State Fault Refusal :=
  runWord tk [refX ra] s fun s =>
    if (s.getX ra).toNat % 4 ≠ 0 then .trap (trapAt codeAlign (s.getX ra).toNat) else .taken s (s.getX ra)

/-- A conditional branch of Table 4.10. -/
def condBranch (tk : Tok) (ra rb : XReg) (off : BitVec 10) (s : State) (c : XWord → XWord → Bool) :
    Host.Outcome State Fault Refusal :=
  runWord tk [refX ra, refX rb] s fun s => branchIf (c (s.getX ra) (s.getX rb)) s (branchTarget s.pc off)

def execBeq (tk : Tok) (ra rb : XReg) (off : BitVec 10) (s : State) : Host.Outcome State Fault Refusal :=
  condBranch tk ra rb off s fun a b => a == b

def execBne (tk : Tok) (ra rb : XReg) (off : BitVec 10) (s : State) : Host.Outcome State Fault Refusal :=
  condBranch tk ra rb off s fun a b => a != b

def execBlt (tk : Tok) (ra rb : XReg) (off : BitVec 10) (s : State) : Host.Outcome State Fault Refusal :=
  condBranch tk ra rb off s fun a b => a.slt b

def execBge (tk : Tok) (ra rb : XReg) (off : BitVec 10) (s : State) : Host.Outcome State Fault Refusal :=
  condBranch tk ra rb off s fun a b => !a.slt b

def execBltn (tk : Tok) (ra rb : XReg) (off : BitVec 10) (s : State) : Host.Outcome State Fault Refusal :=
  condBranch tk ra rb off s fun a b => a.ult b

def execBgen (tk : Tok) (ra rb : XReg) (off : BitVec 10) (s : State) : Host.Outcome State Fault Refusal :=
  condBranch tk ra rb off s fun a b => !a.ult b

/-! ### R67, R68: `halt`, `wait` -/

/-- `halt` waits for every command of its sequencer, pushes and stops (R67). -/
def execHalt (tk : Tok) (s : State) : Host.Outcome State Fault Refusal :=
  runWord tk [] s fun s => if s.allRetired then .halted s else .block .other id

/-- `wait` retires when every earlier command of its sequencer has (R68); its push reports them all (R196). -/
def execWait (tk : Tok) (s : State) : Host.Outcome State Fault Refusal :=
  runWith (popsOf tk) (pushesOf tk) true [] s fun s => if s.allRetired then .done s else .block .other id

/-! ### R69: `rstp` -/

/-- A trail as it stands at a restart point (R149). -/
def Replay.mark (r : Replay) : Replay := 
  { r with trailOld := r.trail, old := r.armed, begunOld := r.begun, countOld := r.count }

/-- The snapshot and the restart heads (R69). The `rstp` that C executes again at the restart point it went back to does
not end the count of failures (R323). -/
def restartPoint (tk : Tok) (mask : BitVec 16) (s : State) : Res :=
  if !s.allRetired then .block .other id
  else
    let again := s.crew.restarted && s.crew.snap.pc == s.pc
    .done (s.modCrew fun c =>
      { c with
        snap := { pc := s.pc, a := c.aC, vsh := c.vsh, vbase := c.vbase, pbase := c.pbase, rep := c.rep,
                  loops := c.seqC.loops, ports := c.ports, mask := mask }
        creditL := if tk.popP then c.creditL.drop (c.creditL.length - 1) else []
        creditS := if tk.popN then c.creditS.drop (c.creditS.length - 1) else []
        rings := c.rings.map fun r =>
          if r.set then { r with rhead := r.head, recs := r.recs.filter fun q => r.head ≤ q.1 } else r
        tiles := c.tiles.map fun t => { t with replay := t.replay.mark }
        check := { c.check with used := false }
        restarted := false
        accFails := if again then c.accFails else 0 })

def execRstp (tk : Tok) (mask : BitVec 16) (s : State) : Host.Outcome State Fault Refusal :=
  runWord tk [] s fun s => restartPoint tk mask s

end Sys2Proof.Machine
end

