-- ==== Sys2Proof/Machine/Reports.lean ====
section
/-! DEFINITION. What the device tells of itself (spec/19_host_protocol.md R307, R318, R319; spec/20_firmware_security.md
R327; spec/21_fleet.md R332, R333, R335): SESSION_OPEN with its attestation report, RESYNC and TELEMETRY. Layouts that the
spec does not give are the model's (log 33). -/

namespace Sys2Proof.Machine

/-! ### SESSION_OPEN (R307, R327) -/

/-- The host's ephemeral public key in a SESSION_OPEN. -/
def openKey (m : ScpMsg) : List Byte := (m.payload.drop 1).take 64

/-- The payload of a SESSION_OPEN names a context and holds a key; its header names the same context, session 0 and
`seq` 0 (R307, R308). -/
def openOk (m : ScpMsg) : Bool :=
  m.headerOk && 65 ≤ m.payload.length && m.isCtx 0 && ScpMsg.hdrCtx m = m.byte 0 && m.sess = 0 && m.seq = 0

/-- The units of a kind (log 41). -/
def unitsOfKind : Nat → Nat
  | 0 => Config.nocLinks
  | 1 => Config.dieLinks
  | _ => Config.hbmChannels

/-- The 512 owner bytes of a unit: unowned where no CALENDAR_SET has named it (R185). -/
def ownersOfUnit (l : List CalUnit) (kind index : Nat) : List Byte :=
  match l.find? fun u => u.kind == kind && u.index == index with
  | some u => u.owners
  | none => List.replicate 512 255

/-- Every unit's owner bytes, by kind and index (R318). -/
def calendarBytes (l : List CalUnit) : List (List Byte) :=
  ([0, 1, 2] : List Nat).flatMap fun k => (List.range (unitsOfKind k)).map (ownersOfUnit l k)

/-- The calendar after every CALENDAR_SET accepted and acknowledged so far (R327). -/
def NDie.calendarSet (n : NDie) : List CalUnit := n.calNext.foldl calMerge n.calendar

/-- The digest of every unit's owner bytes (Table 20.6). -/
def calDigest (l : List CalUnit) : BitVec 256 := Config.sm3 (calendarBytes l).flatten

/-- Bytes 0 to 255 of the attestation report (Table 20.6): a record accepted before and waiting for its boundary is measured
(R327). -/
def State.reportBody (s : State) (nonce : BitVec 256) : List Byte :=
  let sage := s.boot.stage = .sage
  let h := s.boot.runningHeader
  natLe 32 nonce.toNat ++ natLe 32 (Config.sm3 Config.bootRom).toNat
    ++ natLe 32 (if sage then 0 else (Config.sm3 (natLe 128 h)).toNat)
    ++ natLe 32 (calDigest s.npu.calendarSet).toNat
    ++ natLe 32 (Config.sm3 (ctxIds.flatMap fun k => natLe 16 (s.ctx k).admitted.toNat)).toNat
    ++ natLe 2 s.npu.keys.length ++ natLe 2 s.npu.devid.toNat ++ natLe 4 (if sage then 0 else imVersion h)
    ++ natLe 88 (if sage then 1 else 0)

/-- The attestation report (R327). -/
def State.report (s : State) (m : ScpMsg) : List Byte :=
  let b := s.reportBody (Config.sm3 (openKey m))
  b ++ natLe 64 (Config.sm2Sign b).toNat

/-- A session id that is not in use, from a candidate. -/
def freeSess (used : List (BitVec 16)) (n : BitVec 16) : Nat → BitVec 16
  | 0 => n
  | fuel + 1 => if n = 0 || used.contains n then freeSess used (n + 1) fuel else n

/-- A session is opened in place of the context's old one (R307). -/
def State.openSession (s : State) (m : ScpMsg) (k : CtxId) : State :=
  let id := freeSess (s.npu.sessions.map Session.id) s.npu.nextSess 66
  let s := s.modNpu fun d => { d with
    sessions := d.sessions.filter (fun q => q.ctx ≠ k) ++ [{ id := id, ctx := k, expected := 1 }]
    nextSess := id + 1 }
  let s := (s.modCtx k fun c => { c with session := some id }).countScp m k
  s.complete m stOk (natLe 2 id.toNat ++ Config.confirmation (s.ctx k).key m.payload ++ s.report m)

/-- SESSION_OPEN (R307): the exchange opens a session, or the completion carries AUTH, nothing is kept and no context is charged. It
takes its place among the commands by the session it opens (R327). -/
def execSessionOpen (m : ScpMsg) (s : State) : Host.Outcome State Fault Refusal :=
  .next (
    if m.opcode ≠ 1 then s
    else if m.accepted then
      s.applyScp m fun s =>
        let k := m.ctxAt 0
        if Config.exchangeOk (s.ctx k).key m.payload then s.openSession m k else s.completeFree m stAuth
    else if !s.serves || !s.mayCheck s.npu.nextSess.toNat then s
    else if !openOk m then s.sendFree (answerOf m 0 stMalformed [])
    else s.queueScp m (m.ctxAt 0) stOk s.npu.nextSess.toNat)

/-! ### RESYNC (R318) -/

/-- A section: its 8-byte count and its entries. -/
def section_ (l : List (List Byte)) : List Byte := natLe 8 l.length ++ l.flatten

/-- The contexts that a sender hears of. -/
def heard (k : CtxId) : List CtxId := if k = 0 then ctxIds else [k]

/-- The states of a context in a report (Table 21.1). -/
def CtxState.code : CtxState → Nat
  | .idle => 0
  | .running => 1
  | .preempting => 2
  | .preempted => 3
  | .resuming => 4

/-- A context's entry (Table 21.1). -/
def State.ctxEntry (s : State) (k : CtxId) : List Byte :=
  let c := s.ctx k
  natLe 16 (s.placedBlocks k * 2 ^ 32 + c.guilt * 2 ^ 16 + c.barred.toNat * 2 ^ 8 + c.state.code)

/-- A slot's entry: its owner, whether it is resident, its number, the bytes pinned for it. -/
def State.slotEntry (s : State) (n : Nat) : List Byte :=
  let pinned := 65536 * (s.npu.pins.filter fun p => p.slot == n).length
  match s.slot n with
  | none => natLe 16 (255 + n * 2 ^ 16 + pinned * 2 ^ 64)
  | some q => natLe 16 (q.owner.val + q.resident.toNat * 2 ^ 8 + n * 2 ^ 16 + pinned * 2 ^ 64)

/-- The slots that a sender hears of. -/
def State.slotsFor (s : State) (k : CtxId) : List Nat :=
  if k = 0 then List.range 256 else (s.npu.slots.filter fun q => q.owner == k).map fun q => q.num

/-- A contract's entry: the record, then the current rung on each core, 255 for none. -/
def State.contractEntry (s : State) (k : CtxId) : List Byte :=
  natLe 16 (s.ctx k).contract.toNat ++ coreIds.map fun c =>
    match (s.core c).owners.find? fun o => o.ctx == k with
    | some o => BitVec.ofNat 8 o.rung
    | none => 255

/-- A context's parameters (Table 19.4); R318 names the section and does not list its entries (log 33). -/
def State.paramsEntry (s : State) (k : CtxId) : List Byte := natLe 32 (s.ctx k).params.toNat

/-- A session's entry: its id and context, the `seq` expected, and those of accepted commands not completed. -/
def State.sessEntry (s : State) (q : Session) : List Byte :=
  let l := s.npu.cmds.filter fun c => c.msg.conn == q.id && c.status = 0 && c.msg.opcode ≠ 1
  natLe 2 q.id.toNat ++ natLe 6 q.ctx.val ++ natLe 8 q.expected ++ natLe 8 l.length ++ l.flatMap fun c => natLe 8 c.msg.seq

/-- The context of a fault record (Table 21.4). -/
def recordCtx (r : BitVec 256) : Nat := field r.toNat 47 42

/-- The fault records that a sender sees (R335). -/
def State.faultsFor (s : State) (k : CtxId) : List (List Byte) :=
  (s.boot.faults.filter fun r => k = 0 || recordCtx r = k.val).map fun r => natLe 32 r.toNat

/-- The key slots as a bitmap (R318). -/
def keyBitmap (keys : List (Nat × BitVec 256)) : Nat := (keys.map fun q => 2 ^ q.1).sum

/-- The summary for a sender: a context other than 0 receives its own entries only (R318). -/
def State.summary (s : State) (k : CtxId) : List Byte :=
  section_ ((heard k).map s.ctxEntry) ++ section_ ((s.slotsFor k).map s.slotEntry)
    ++ section_ ((heard k).map s.contractEntry) ++ section_ ((heard k).map s.paramsEntry)
    ++ section_ (if k = 0 then calendarBytes s.npu.calendar else [])
    ++ section_ ((s.npu.sessions.filter fun q => k = 0 || q.ctx == k).map s.sessEntry)
    ++ section_ (if k = 0 then [natLe 128 (keyBitmap s.npu.keys)] else [])
    ++ section_ (s.faultsFor k
      ++ if k = 0 then [natLe 16 s.boot.record.toNat, natLe 4 (imVersion s.boot.runningHeader)] else [])

/-- Pieces of a summary, each behind its final flag (R318). -/
def flagged : List (List Byte) → List (List Byte)
  | [] => []
  | [p] => [1 :: p]
  | p :: rest => (0 :: p) :: flagged rest

/-- RESYNC (R318). -/
def execResync (m : ScpMsg) (s : State) : Host.Outcome State Fault Refusal :=
  runScp (m.opcode = 0x0E) (m.size 0) anySender m s fun s =>
    let b := s.summary (s.cmdCtx m)
    s.completeParts m (flagged (pieces 65503 b b.length))

/-! ### TELEMETRY (R319, R333, R335) -/

/-- Records go in one completion, or in as many as they need. -/
def State.completeRecords (s : State) (m : ScpMsg) (b : List Byte) : State :=
  s.completeParts m (pieces 65504 b b.length)

/-- A Shutter statistics record (Table 21.3). -/
def ShutterStat.bytes (r : ShutterStat) : List Byte :=
  natLe 1 (r.core.val % 16 * 4 + r.core.val / 16 * 64) ++ natLe 7 r.ctx.val
    ++ (r.ep.toList.flatMap fun n => natLe 4 n) ++ natLe 4 r.nword ++ natLe 4 (r.margin % (2 ^ 32 : Int)).toNat

/-- TELEMETRY, selector 0, and every selector that names nothing: power, the temperature of each C-die and of the N-die, error
counts. These are no context's own, and a context other than 0 receives none of them (R319; log 33). -/
def execTelemetryPower (m : ScpMsg) (s : State) : Host.Outcome State Fault Refusal :=
  runScp (m.opcode = 0x0F && (m.byte 0 = 0 || 4 ≤ m.byte 0)) (m.size 1 && m.byte 0 = 0) anySender m s fun s =>
    if s.cmdCtx m ≠ 0 then s.completeRecords m []
    else s.completeRecords m (natLe 8 s.npu.power ++ (s.dies.toList.flatMap fun d => natLe 8 d.temp) ++ natLe 8 s.npu.temp
      ++ s.npu.soft.flatMap fun q => natLe 8 q.1 ++ natLe 8 q.2.1 ++ natLe 8 q.2.2)

/-- TELEMETRY, selector 1: Shutter statistics (R333). -/
def execTelemetryShutter (m : ScpMsg) (s : State) : Host.Outcome State Fault Refusal :=
  runScp (m.opcode = 0x0F && m.byte 0 = 1) (m.size 1) anySender m s fun s =>
    let k := s.cmdCtx m
    s.completeRecords m ((s.npu.stats.filter fun r => k = 0 || r.ctx == k).flatMap ShutterStat.bytes)

/-- TELEMETRY, selector 2: fault and soft-error records (R335). -/
def execTelemetryFaults (m : ScpMsg) (s : State) : Host.Outcome State Fault Refusal :=
  runScp (m.opcode = 0x0F && m.byte 0 = 2) (m.size 1) anySender m s fun s =>
    s.completeRecords m (s.faultsFor (s.cmdCtx m)).flatten

/-- TELEMETRY, selector 3: bytes per port and context, and dropped frames (R304, R319). -/
def execTelemetryPorts (m : ScpMsg) (s : State) : Host.Outcome State Fault Refusal :=
  runScp (m.opcode = 0x0F && m.byte 0 = 3) (m.size 1) anySender m s fun s =>
    let k := s.cmdCtx m
    s.completeRecords m (((s.npu.portBytes.filter fun q => k = 0 || q.2.1 == k).flatMap fun q =>
        natLe 1 q.1 ++ natLe 7 q.2.1.val ++ natLe 8 q.2.2)
      ++ if k = 0 then s.npu.dropped.toList.flatMap fun n => natLe 8 n else [])

end Sys2Proof.Machine
end

