-- ==== Sys2Proof/Machine/Vector.lean ====
section
/-! DEFINITION. The vector words of C (spec/06_isa_vector.md R111 to R134). -/

namespace Sys2Proof.Machine

/-! ### Shared forms -/

/-- `vsel`: the guard selects, and every active element is written (R115). -/
def vSelect (pg : PReg) (vd : VDst) (va vb : VSrc) : V3 :=
  fun s =>
    s.vec (refP pg :: refSrc va ++ refSrc vb) anyType noCheck (some vd) [va, vb] fun h ls s =>
      let g := s.getP pg
      let ab := List.zip (elemsOf h.ew (ls.getD 0 [])) (elemsOf h.ew (ls.getD 1 []))
      s.writeDst vd h.cw h.cnt
        (indexed (fun i p => if i < h.cnt then some (if laneBit g h.cw i then p.1 else p.2) else none) 0 ab)

/-- `vcvt` and `vcvts`: the targets, the capacity, and the results in containers of the target's width (R117). -/
def vConvert (sat : Bool) (pg : PReg) (vd : VDst) (va : VSrc) (ty : BitVec 4) : V3 :=
  let t := ty.toNat
  fun s =>
    s.vec (refP pg :: refSrc va) (fun h => cvtTarget t && h.cnt ≤ 2048 / typeWidth t) noCheck (some vd) [va] fun h ls s =>
      s.writeDst vd (typeWidth t) h.cnt
        (guarded (s.getP pg) (typeWidth t) h.cnt (((elemsOf h.ew (ls.getD 0 [])).take h.cnt).map (elemCvt sat h.ty t)))

/-- `vperm` (R119). -/
def vPermute (pg : PReg) (vd : VDst) (va vb : VSrc) : V3 :=
  fun s =>
    s.vec (refP pg :: refSrc va ++ refSrc vb) anyType noCheck (some vd) [va, vb] fun h ls s =>
      let a := elemsOf h.ew (ls.getD 0 [])
      s.writeDst vd h.cw h.cnt (guarded (s.getP pg) h.cw h.cnt
        ((elemsOf h.ew (ls.getD 1 [])).map fun i => if i < h.cnt then a.getD i 0 else 0))

/-- `vbc` from an a-register: its low w bits (R120). -/
def vBroadcastA (pg : PReg) (vd : VDst) (aS : AReg) : V3 :=
  fun s =>
    s.vec ([refP pg, refA aS]) anyType noCheck (some vd) [] fun h _ s =>
      s.writeDst vd h.cw h.cnt
        (guarded (s.getP pg) h.cw h.cnt (List.replicate h.cap ((s.getA aS).toNat % 2 ^ h.ew)))

/-- `vbc` from element `k` of a vector, active or not (R120). -/
def vBroadcastLane (pg : PReg) (vd : VDst) (va : VSrc) (k : BitVec 6) : V3 :=
  fun s =>
    s.vec (refP pg :: refSrc va) anyType noCheck (some vd) [va] fun h ls s =>
      s.writeDst vd h.cw h.cnt
        (guarded (s.getP pg) h.cw h.cnt (List.replicate h.cap ((elemsOf h.ew (ls.getD 0 [])).getD k.toNat 0)))

/-- Addition of the reduction tree: RoundNE to FP32, or mod 2^32 (R122). -/
def sumStep (ty a b : Nat) : Nat :=
  if ty = 0 then (accAdd (BitVec.ofNat 32 a) (BitVec.ofNat 32 b)).toNat else (a + b) % 2 ^ 32

/-- `vsum`: the guard selects inputs; the result is written whatever the guard and the count (R122). -/
def vSumLanes (pg : PReg) (vd : VDst) (va : VSrc) : V3 :=
  fun s =>
    s.vec (refP pg :: refSrc va) sumType noCheck (some vd) [va] fun h ls s =>
      let g := s.getP pg
      let unit := if h.ty = 0 then 0x80000000 else 0
      let t := tree64 (sumStep h.ty)
        (indexed (fun j v => if j < h.cnt && g.getLsbD j then v else unit) 0 (ls.getD 0 []))
      s.writeDst vd 32 h.cnt (some t :: List.replicate 63 (some 0))

/-- `vmaxi`: the running pair and the index base of `vb`, folded over the active, guarded lanes (R123). -/
def vMaxIndex (pg : PReg) (vd : VDst) (va vb : VSrc) : V3 :=
  fun s =>
    s.vec (refP pg :: refSrc va ++ refSrc vb) f32Pack0 noCheck (some vd) [va, vb] fun h ls s =>
      let g := s.getP pg
      let b := ls.getD 1 []
      let base := b.getD 2 0
      let cands := ((indexed (fun j v => (j, v)) 0 (ls.getD 0 [])).filter fun q => q.1 < h.cnt && g.getLsbD q.1).map
        fun q => (q.2, (base + q.1) % 2 ^ 32)
      let best := foldMax (b.getD 0 0, b.getD 1 0) cands
      s.writeDst vd 32 h.cnt
        (some best.1 :: some best.2 :: some ((base + h.cnt) % 2 ^ 32) :: List.replicate 61 (some 0))

/-- `vrng`: raw N32 lanes (R124). -/
def vHash (pg : PReg) (vd : VDst) (va vb : VSrc) : V3 :=
  fun s =>
    s.vec (refP pg :: refSrc va ++ refSrc vb) pack0 noCheck (some vd) [va, vb] fun h ls s =>
      let b := ls.getD 1 []
      s.writeDst vd 32 h.cnt
        (guarded (s.getP pg) 32 h.cnt ((ls.getD 0 []).map (laneHash (b.getD 0 0) (b.getD 1 0))))

/-- The shift of `vrqnt`, lane 1 of `vb`, must not exceed 31 (R125). -/
def requantCheck (l : List Nat) : Option TrapReq := if 31 < l.getD 1 0 then some (trapOf codeRegRange) else none

/-- `vrqnt`: a register's shift is checked before the ports, a read port's after the read (R109, R125). -/
def vRequant (pg : PReg) (vd : VDst) (va vb : VSrc) : V3 :=
  fun s =>
    s.vec (refP pg :: refSrc va ++ refSrc vb) intPack0
      (fun s h => match vb with
        | .reg n => if s.parityBad [refV n] then some (trapOf codeRegParity) else requantCheck (unpack h.cw (s.getV n).toNat h.cap)
        | .port _ | .zero => none)
      (some vd) [va, vb] fun h ls s =>
        let b := ls.getD 1 []
        .ofTrap (requantCheck b) <|
          s.writeDst vd 32 h.cnt (guarded (s.getP pg) 32 h.cnt ((ls.getD 0 []).map fun v =>
            intCode h.ew (clampInt (intMin h.ty) (intMax h.ty)
              (requant (sext v 32) (sext (b.getD 0 0) 32) (b.getD 1 0)))))

/-! ### The V3 words -/

def vaddV (pg : PReg) (vd : VDst) (va vb : VSrc) : V3 := vBinary anyType pg vd va vb elemAdd

def vsubV (pg : PReg) (vd : VDst) (va vb : VSrc) : V3 := vBinary anyType pg vd va vb elemSub

def vmulV (pg : PReg) (vd : VDst) (va vb : VSrc) : V3 := vBinary anyType pg vd va vb elemMul

def vfmaV (pg : PReg) (vd : VDst) (va vb : VSrc) : V3 := vTernary anyType pg vd va vb elemFma

def vminV (pg : PReg) (vd : VDst) (va vb : VSrc) : V3 := vBinary anyType pg vd va vb elemMin

def vmaxV (pg : PReg) (vd : VDst) (va vb : VSrc) : V3 := vBinary anyType pg vd va vb elemMax

def vabsV (pg : PReg) (vd : VDst) (va : VSrc) : V3 := vUnary anyType pg vd va elemAbs

def vnegV (pg : PReg) (vd : VDst) (va : VSrc) : V3 := vUnary anyType pg vd va elemNeg

def vandV (pg : PReg) (vd : VDst) (va vb : VSrc) : V3 := vBinary anyType pg vd va vb fun _ => Nat.land

def vorV (pg : PReg) (vd : VDst) (va vb : VSrc) : V3 := vBinary anyType pg vd va vb fun _ => Nat.lor

def vxorV (pg : PReg) (vd : VDst) (va vb : VSrc) : V3 := vBinary anyType pg vd va vb fun _ => Nat.xor

def vshlV (pg : PReg) (vd : VDst) (va vb : VSrc) : V3 := vBinary intType pg vd va vb elemShl

def vshrV (pg : PReg) (vd : VDst) (va vb : VSrc) : V3 := vBinary intType pg vd va vb elemShr

def vsraV (pg : PReg) (vd : VDst) (va vb : VSrc) : V3 := vBinary intType pg vd va vb elemSra

def vcmpeqV (pg pd : PReg) (va vb : VSrc) : V3 := vCompare pg pd va vb elemEq

def vcmpltV (pg pd : PReg) (va vb : VSrc) : V3 := vCompare pg pd va vb elemLt

def vcmpleV (pg pd : PReg) (va vb : VSrc) : V3 := vCompare pg pd va vb elemLe

def vselV (pg : PReg) (vd : VDst) (va vb : VSrc) : V3 := vSelect pg vd va vb

def vcvtV (pg : PReg) (vd : VDst) (va : VSrc) (ty : BitVec 4) : V3 := vConvert false pg vd va ty

def vcvtsV (pg : PReg) (vd : VDst) (va : VSrc) (ty : BitVec 4) : V3 := vConvert true pg vd va ty

def vrsqV (pg : PReg) (vd : VDst) (va : VSrc) : V3 := vUnary f32Pack0 pg vd va fun _ => vrsqBits

def vrcpV (pg : PReg) (vd : VDst) (va : VSrc) : V3 := vUnary f32Pack0 pg vd va fun _ => vrcpBits

def vlog2V (pg : PReg) (vd : VDst) (va : VSrc) : V3 := vUnary f32Pack0 pg vd va fun _ => vlog2Bits

def vexp2V (pg : PReg) (vd : VDst) (va : VSrc) : V3 := vUnary f32Pack0 pg vd va fun _ => vexp2Bits

def vpermV (pg : PReg) (vd : VDst) (va vb : VSrc) : V3 := vPermute pg vd va vb

def vbcAV (pg : PReg) (vd : VDst) (aS : AReg) : V3 := vBroadcastA pg vd aS

def vbcLaneV (pg : PReg) (vd : VDst) (va : VSrc) (k : BitVec 6) : V3 := vBroadcastLane pg vd va k

def vmaxiV (pg : PReg) (vd : VDst) (va vb : VSrc) : V3 := vMaxIndex pg vd va vb

def vsumV (pg : PReg) (vd : VDst) (va : VSrc) : V3 := vSumLanes pg vd va

def vrngV (pg : PReg) (vd : VDst) (va vb : VSrc) : V3 := vHash pg vd va vb

def vrqntV (pg : PReg) (vd : VDst) (va vb : VSrc) : V3 := vRequant pg vd va vb

def vclampV (pg : PReg) (vd : VDst) (va vb : VSrc) : V3 := vTernary anyType pg vd va vb fun ty a b d => elemMin ty (elemMax ty d a) b

def vpopcV (pg : PReg) (vd : VDst) (va : VSrc) : V3 := vUnary intType pg vd va elemPopc

/-! ### Majors 0x0C to 0x25, 0x2D to 0x2F -/

def execVadd (tk : Tok) (pg : PReg) (vd : VDst) (va vb : VSrc) (s : State) : Host.Outcome State Fault Refusal :=
  runV tk (vaddV pg vd va vb) s

def execVsub (tk : Tok) (pg : PReg) (vd : VDst) (va vb : VSrc) (s : State) : Host.Outcome State Fault Refusal :=
  runV tk (vsubV pg vd va vb) s

def execVmul (tk : Tok) (pg : PReg) (vd : VDst) (va vb : VSrc) (s : State) : Host.Outcome State Fault Refusal :=
  runV tk (vmulV pg vd va vb) s

def execVfma (tk : Tok) (pg : PReg) (vd : VDst) (va vb : VSrc) (s : State) : Host.Outcome State Fault Refusal :=
  runV tk (vfmaV pg vd va vb) s

def execVmin (tk : Tok) (pg : PReg) (vd : VDst) (va vb : VSrc) (s : State) : Host.Outcome State Fault Refusal :=
  runV tk (vminV pg vd va vb) s

def execVmax (tk : Tok) (pg : PReg) (vd : VDst) (va vb : VSrc) (s : State) : Host.Outcome State Fault Refusal :=
  runV tk (vmaxV pg vd va vb) s

def execVabs (tk : Tok) (pg : PReg) (vd : VDst) (va : VSrc) (s : State) : Host.Outcome State Fault Refusal :=
  runV tk (vabsV pg vd va) s

def execVneg (tk : Tok) (pg : PReg) (vd : VDst) (va : VSrc) (s : State) : Host.Outcome State Fault Refusal :=
  runV tk (vnegV pg vd va) s

def execVand (tk : Tok) (pg : PReg) (vd : VDst) (va vb : VSrc) (s : State) : Host.Outcome State Fault Refusal :=
  runV tk (vandV pg vd va vb) s

def execVor (tk : Tok) (pg : PReg) (vd : VDst) (va vb : VSrc) (s : State) : Host.Outcome State Fault Refusal :=
  runV tk (vorV pg vd va vb) s

def execVxor (tk : Tok) (pg : PReg) (vd : VDst) (va vb : VSrc) (s : State) : Host.Outcome State Fault Refusal :=
  runV tk (vxorV pg vd va vb) s

def execVshl (tk : Tok) (pg : PReg) (vd : VDst) (va vb : VSrc) (s : State) : Host.Outcome State Fault Refusal :=
  runV tk (vshlV pg vd va vb) s

def execVshr (tk : Tok) (pg : PReg) (vd : VDst) (va vb : VSrc) (s : State) : Host.Outcome State Fault Refusal :=
  runV tk (vshrV pg vd va vb) s

def execVsra (tk : Tok) (pg : PReg) (vd : VDst) (va vb : VSrc) (s : State) : Host.Outcome State Fault Refusal :=
  runV tk (vsraV pg vd va vb) s

def execVcmpeq (tk : Tok) (pg pd : PReg) (va vb : VSrc) (s : State) : Host.Outcome State Fault Refusal :=
  runV tk (vcmpeqV pg pd va vb) s

def execVcmplt (tk : Tok) (pg pd : PReg) (va vb : VSrc) (s : State) : Host.Outcome State Fault Refusal :=
  runV tk (vcmpltV pg pd va vb) s

def execVcmple (tk : Tok) (pg pd : PReg) (va vb : VSrc) (s : State) : Host.Outcome State Fault Refusal :=
  runV tk (vcmpleV pg pd va vb) s

def execVsel (tk : Tok) (pg : PReg) (vd : VDst) (va vb : VSrc) (s : State) : Host.Outcome State Fault Refusal :=
  runV tk (vselV pg vd va vb) s

def execVcvt (tk : Tok) (pg : PReg) (vd : VDst) (va : VSrc) (ty : BitVec 4) (s : State) : Host.Outcome State Fault Refusal :=
  runV tk (vcvtV pg vd va ty) s

def execVcvts (tk : Tok) (pg : PReg) (vd : VDst) (va : VSrc) (ty : BitVec 4) (s : State) : Host.Outcome State Fault Refusal :=
  runV tk (vcvtsV pg vd va ty) s

def execVrsq (tk : Tok) (pg : PReg) (vd : VDst) (va : VSrc) (s : State) : Host.Outcome State Fault Refusal :=
  runV tk (vrsqV pg vd va) s

def execVrcp (tk : Tok) (pg : PReg) (vd : VDst) (va : VSrc) (s : State) : Host.Outcome State Fault Refusal :=
  runV tk (vrcpV pg vd va) s

def execVlog2 (tk : Tok) (pg : PReg) (vd : VDst) (va : VSrc) (s : State) : Host.Outcome State Fault Refusal :=
  runV tk (vlog2V pg vd va) s

def execVexp2 (tk : Tok) (pg : PReg) (vd : VDst) (va : VSrc) (s : State) : Host.Outcome State Fault Refusal :=
  runV tk (vexp2V pg vd va) s

def execVperm (tk : Tok) (pg : PReg) (vd : VDst) (va vb : VSrc) (s : State) : Host.Outcome State Fault Refusal :=
  runV tk (vpermV pg vd va vb) s

def execVbcA (tk : Tok) (pg : PReg) (vd : VDst) (aS : AReg) (s : State) : Host.Outcome State Fault Refusal :=
  runV tk (vbcAV pg vd aS) s

def execVbcLane (tk : Tok) (pg : PReg) (vd : VDst) (va : VSrc) (k : BitVec 6) (s : State) : Host.Outcome State Fault Refusal :=
  runV tk (vbcLaneV pg vd va k) s

def execVmaxi (tk : Tok) (pg : PReg) (vd : VDst) (va vb : VSrc) (s : State) : Host.Outcome State Fault Refusal :=
  runV tk (vmaxiV pg vd va vb) s

def execVsum (tk : Tok) (pg : PReg) (vd : VDst) (va : VSrc) (s : State) : Host.Outcome State Fault Refusal :=
  runV tk (vsumV pg vd va) s

def execVrng (tk : Tok) (pg : PReg) (vd : VDst) (va vb : VSrc) (s : State) : Host.Outcome State Fault Refusal :=
  runV tk (vrngV pg vd va vb) s

def execVrqnt (tk : Tok) (pg : PReg) (vd : VDst) (va vb : VSrc) (s : State) : Host.Outcome State Fault Refusal :=
  runV tk (vrqntV pg vd va vb) s

def execVclamp (tk : Tok) (pg : PReg) (vd : VDst) (va vb : VSrc) (s : State) : Host.Outcome State Fault Refusal :=
  runV tk (vclampV pg vd va vb) s

def execVpopc (tk : Tok) (pg : PReg) (vd : VDst) (va : VSrc) (s : State) : Host.Outcome State Fault Refusal :=
  runV tk (vpopcV pg vd va) s

/-! ### `vrep` (R133, R134) -/

/-- A vector name `k` places on; the checks at the prefix keep it at most 55. -/
def bumpReg (n : VReg) (k : Nat) : VReg := ⟨(n.val + k) % 56, by omega⟩

def bumpS (v : VSrc) (k : Nat) : VSrc :=
  match v with
  | .reg n => .reg (bumpReg n k)
  | .port _ | .zero => v

def bumpD (v : VDst) (k : Nat) : VDst :=
  match v with
  | .reg n => .reg (bumpReg n k)
  | .port _ | .zero => v

/-- The vector name that a field holds, if it holds one. -/
def nameS : VSrc → Option Nat
  | .reg n => some n.val
  | .port _ | .zero => none

def nameD : VDst → Option Nat
  | .reg n => some n.val
  | .port _ | .zero => none

/-- A V3 word with its fields moved on by `d`, `a` and `b` names. -/
def v3At (d a b : Nat) : Instr → Option V3
  | .vadd _ pg vd va vb => some (vaddV pg (bumpD vd d) (bumpS va a) (bumpS vb b))
  | .vsub _ pg vd va vb => some (vsubV pg (bumpD vd d) (bumpS va a) (bumpS vb b))
  | .vmul _ pg vd va vb => some (vmulV pg (bumpD vd d) (bumpS va a) (bumpS vb b))
  | .vfma _ pg vd va vb => some (vfmaV pg (bumpD vd d) (bumpS va a) (bumpS vb b))
  | .vmin _ pg vd va vb => some (vminV pg (bumpD vd d) (bumpS va a) (bumpS vb b))
  | .vmax _ pg vd va vb => some (vmaxV pg (bumpD vd d) (bumpS va a) (bumpS vb b))
  | .vabs _ pg vd va => some (vabsV pg (bumpD vd d) (bumpS va a))
  | .vneg _ pg vd va => some (vnegV pg (bumpD vd d) (bumpS va a))
  | .vand _ pg vd va vb => some (vandV pg (bumpD vd d) (bumpS va a) (bumpS vb b))
  | .vor _ pg vd va vb => some (vorV pg (bumpD vd d) (bumpS va a) (bumpS vb b))
  | .vxor _ pg vd va vb => some (vxorV pg (bumpD vd d) (bumpS va a) (bumpS vb b))
  | .vshl _ pg vd va vb => some (vshlV pg (bumpD vd d) (bumpS va a) (bumpS vb b))
  | .vshr _ pg vd va vb => some (vshrV pg (bumpD vd d) (bumpS va a) (bumpS vb b))
  | .vsra _ pg vd va vb => some (vsraV pg (bumpD vd d) (bumpS va a) (bumpS vb b))
  | .vcmpeq _ pg pd va vb => some (vcmpeqV pg pd (bumpS va a) (bumpS vb b))
  | .vcmplt _ pg pd va vb => some (vcmpltV pg pd (bumpS va a) (bumpS vb b))
  | .vcmple _ pg pd va vb => some (vcmpleV pg pd (bumpS va a) (bumpS vb b))
  | .vsel _ pg vd va vb => some (vselV pg (bumpD vd d) (bumpS va a) (bumpS vb b))
  | .vcvt _ pg vd va ty => some (vcvtV pg (bumpD vd d) (bumpS va a) ty)
  | .vcvts _ pg vd va ty => some (vcvtsV pg (bumpD vd d) (bumpS va a) ty)
  | .vrsq _ pg vd va => some (vrsqV pg (bumpD vd d) (bumpS va a))
  | .vrcp _ pg vd va => some (vrcpV pg (bumpD vd d) (bumpS va a))
  | .vlog2 _ pg vd va => some (vlog2V pg (bumpD vd d) (bumpS va a))
  | .vexp2 _ pg vd va => some (vexp2V pg (bumpD vd d) (bumpS va a))
  | .vperm _ pg vd va vb => some (vpermV pg (bumpD vd d) (bumpS va a) (bumpS vb b))
  | .vbcA _ pg vd aS => some (vbcAV pg (bumpD vd d) aS)
  | .vbcLane _ pg vd va k => some (vbcLaneV pg (bumpD vd d) (bumpS va a) k)
  | .vmaxi _ pg vd va vb => some (vmaxiV pg (bumpD vd d) (bumpS va a) (bumpS vb b))
  | .vsum _ pg vd va => some (vsumV pg (bumpD vd d) (bumpS va a))
  | .vrng _ pg vd va vb => some (vrngV pg (bumpD vd d) (bumpS va a) (bumpS vb b))
  | .vrqnt _ pg vd va vb => some (vrqntV pg (bumpD vd d) (bumpS va a) (bumpS vb b))
  | .vclamp _ pg vd va vb => some (vclampV pg (bumpD vd d) (bumpS va a) (bumpS vb b))
  | .vpopc _ pg vd va => some (vpopcV pg (bumpD vd d) (bumpS va a))
  | .nop | .tok .. | .jmp .. | .loop .. | .loopRegX .. | .loopReg .. | .loopr .. | .looprReg .. | .loopx .. | .brc ..
  | .halt .. | .wait .. | .rstp .. | .add .. | .sub .. | .and .. | .or .. | .xor .. | .shl .. | .shr .. | .sra ..
  | .slt .. | .sltn .. | .min .. | .max .. | .minn .. | .maxn .. | .mul .. | .mulh .. | .mulhn .. | .div .. | .divn ..
  | .rem .. | .remn .. | .clz .. | .ctz .. | .popc .. | .bswap .. | .sextb .. | .sexth .. | .sextw .. | .zextw ..
  | .andn .. | .orn .. | .addi .. | .andi .. | .ori .. | .xori .. | .shiShl .. | .shiShr .. | .shiSra .. | .slti ..
  | .sltni .. | .lim .. | .lims .. | .fadd .. | .fsub .. | .fmul .. | .fdiv .. | .fsqrt .. | .fmin .. | .fmax ..
  | .fabs .. | .fneg .. | .fsgnj .. | .ffma .. | .ffms .. | .ffnma .. | .ffnms .. | .fcvtxf .. | .fcvtxfz ..
  | .fcvtfx .. | .fmvxf .. | .fmvfx .. | .feq .. | .flt .. | .fle .. | .ld .. | .ldn .. | .st .. | .pld .. | .pldn ..
  | .pst .. | .fld .. | .fst .. | .pfld .. | .pfst .. | .beq .. | .bne .. | .blt .. | .bge .. | .bltn .. | .bgen ..
  | .call .. | .jr .. | .csrr .. | .csrw .. | .waitlimWrite .. | .desctabWrite .. | .fwshareWrite .. | .trap ..
  | .eret .. | .binit .. | .barv .. | .bard .. | .bart .. | .bwait .. | .btest .. | .pub .. | .acq .. | .mbput ..
  | .mbget .. | .mbpoll .. | .discard .. | .pamoAdd .. | .pamoAddd .. | .pamoMin .. | .pamoMax .. | .pamoMinn ..
  | .pamoMaxn .. | .pamoSwp .. | .pamoCas .. | .gnew .. | .gfork .. | .gadv .. | .gmask .. | .groll .. | .gfree ..
  | .gstat .. | .sdraw .. | .sstat .. | .hset .. | .hrun .. | .hstat .. | .hforce .. | .aAdd .. | .aSub .. | .aShl ..
  | .aShr .. | .aSra .. | .aMul .. | .aMin .. | .aMax .. | .aAnd .. | .aOr .. | .aXor .. | .aaddi .. | .ali ..
  | .alis .. | .vld .. | .vst .. | .vmvaLane .. | .vmvaVsh .. | .vsetsh .. | .vsetshReg .. | .vport .. | .vportIdle ..
  | .vrep .. | .vrepReg .. | .plogAnd .. | .plogOr .. | .plogXor .. | .plogAndn .. | .plogNot .. | .mlease ..
  | .mfree .. | .msetImage .. | .msetField .. | .mzero .. | .mma .. | .mmag .. | .mhad .. | .mdrain .. | .mtag ..
  | .mtagChk .. | .mreplay .. | .mreplayChk .. | .mchk .. | .mringReset .. | .mringPop .. | .mringRead .. | .tld ..
  | .tst .. | .tcpy .. | .tsend .. | .tadd .. | .tgat .. | .tsct .. | .tcrc .. | .tdesc .. | .ttouch .. | .eend
  | .emov .. | .eli .. | .eadd .. | .esub .. | .emul .. | .emin .. | .emax .. | .eand .. | .eor .. | .eshl ..
  | .eshr .. | .ecmp .. | .esel .. | .emsg .. | .efin .. | .tokenPush | .tokenTimeout | .barTimeout | .mboxTimeout
  | .combineUpdate .. | .transferRetire .. | .transferFault .. | .matrixChunk .. | .epochBoundary | .calendarFrame
  | .portbudPeriod | .fwshareWindow | .dispatchTeam | .blockStart .. | .gmaskComplete .. | .samplerServe ..
  | .hingePushSuperstep .. | .hingePullSuperstep .. | .hingeFinalize .. | .hingeCompletion .. | .trapEntry ..
  | .firmwareStop .. | .contextSave .. | .resumeRestore .. | .bootStart | .ready | .readyTimeout | .fatalCondition
  | .powerCheck .. | .powerShutdown | .frameDrop .. | .hostRmaWrite .. | .hostRmaRead .. | .remotePut .. | .putAck ..
  | .remoteGet .. | .scpUnknownOpcode .. | .sessionOpen .. | .slotLoad .. | .slotPin .. | .slotRevoke .. | .invoke ..
  | .contractSet .. | .contractSetParams .. | .contractSetPeer .. | .contractSetDevid .. | .contractSetKey ..
  | .map .. | .unmap .. | .migratePage .. | .migrateExport .. | .migrateImport .. | .keyLoad .. | .keyErase ..
  | .preempt .. | .resume .. | .resumeRetry .. | .resumeRefuse .. | .ctxReset .. | .resync .. | .telemetryPower ..
  | .telemetryShutter .. | .telemetryFaults .. | .telemetryPorts .. | .fwUpdate .. | .guiltClear .. | .calendarSet ..
  | .illegalOp | .instPerm .. | .powerLoss | .getResponse .. => none

/-- The token bits of a V3 word, and the vector names that its `vd`, `va` and `vb` fields hold. -/
def v3Fields : Instr → Tok × Option Nat × Option Nat × Option Nat
  | .vadd tk _ vd va vb => (tk, nameD vd, nameS va, nameS vb)
  | .vsub tk _ vd va vb => (tk, nameD vd, nameS va, nameS vb)
  | .vmul tk _ vd va vb => (tk, nameD vd, nameS va, nameS vb)
  | .vfma tk _ vd va vb => (tk, nameD vd, nameS va, nameS vb)
  | .vmin tk _ vd va vb => (tk, nameD vd, nameS va, nameS vb)
  | .vmax tk _ vd va vb => (tk, nameD vd, nameS va, nameS vb)
  | .vabs tk _ vd va => (tk, nameD vd, nameS va, none)
  | .vneg tk _ vd va => (tk, nameD vd, nameS va, none)
  | .vand tk _ vd va vb => (tk, nameD vd, nameS va, nameS vb)
  | .vor tk _ vd va vb => (tk, nameD vd, nameS va, nameS vb)
  | .vxor tk _ vd va vb => (tk, nameD vd, nameS va, nameS vb)
  | .vshl tk _ vd va vb => (tk, nameD vd, nameS va, nameS vb)
  | .vshr tk _ vd va vb => (tk, nameD vd, nameS va, nameS vb)
  | .vsra tk _ vd va vb => (tk, nameD vd, nameS va, nameS vb)
  | .vcmpeq tk _ _ va vb => (tk, none, nameS va, nameS vb)
  | .vcmplt tk _ _ va vb => (tk, none, nameS va, nameS vb)
  | .vcmple tk _ _ va vb => (tk, none, nameS va, nameS vb)
  | .vsel tk _ vd va vb => (tk, nameD vd, nameS va, nameS vb)
  | .vcvt tk _ vd va _ => (tk, nameD vd, nameS va, none)
  | .vcvts tk _ vd va _ => (tk, nameD vd, nameS va, none)
  | .vrsq tk _ vd va => (tk, nameD vd, nameS va, none)
  | .vrcp tk _ vd va => (tk, nameD vd, nameS va, none)
  | .vlog2 tk _ vd va => (tk, nameD vd, nameS va, none)
  | .vexp2 tk _ vd va => (tk, nameD vd, nameS va, none)
  | .vperm tk _ vd va vb => (tk, nameD vd, nameS va, nameS vb)
  | .vbcA tk _ vd _ => (tk, nameD vd, none, none)
  | .vbcLane tk _ vd va _ => (tk, nameD vd, nameS va, none)
  | .vmaxi tk _ vd va vb => (tk, nameD vd, nameS va, nameS vb)
  | .vsum tk _ vd va => (tk, nameD vd, nameS va, none)
  | .vrng tk _ vd va vb => (tk, nameD vd, nameS va, nameS vb)
  | .vrqnt tk _ vd va vb => (tk, nameD vd, nameS va, nameS vb)
  | .vclamp tk _ vd va vb => (tk, nameD vd, nameS va, nameS vb)
  | .vpopc tk _ vd va => (tk, nameD vd, nameS va, none)
  | .nop | .tok .. | .jmp .. | .loop .. | .loopRegX .. | .loopReg .. | .loopr .. | .looprReg .. | .loopx .. | .brc ..
  | .halt .. | .wait .. | .rstp .. | .add .. | .sub .. | .and .. | .or .. | .xor .. | .shl .. | .shr .. | .sra ..
  | .slt .. | .sltn .. | .min .. | .max .. | .minn .. | .maxn .. | .mul .. | .mulh .. | .mulhn .. | .div .. | .divn ..
  | .rem .. | .remn .. | .clz .. | .ctz .. | .popc .. | .bswap .. | .sextb .. | .sexth .. | .sextw .. | .zextw ..
  | .andn .. | .orn .. | .addi .. | .andi .. | .ori .. | .xori .. | .shiShl .. | .shiShr .. | .shiSra .. | .slti ..
  | .sltni .. | .lim .. | .lims .. | .fadd .. | .fsub .. | .fmul .. | .fdiv .. | .fsqrt .. | .fmin .. | .fmax ..
  | .fabs .. | .fneg .. | .fsgnj .. | .ffma .. | .ffms .. | .ffnma .. | .ffnms .. | .fcvtxf .. | .fcvtxfz ..
  | .fcvtfx .. | .fmvxf .. | .fmvfx .. | .feq .. | .flt .. | .fle .. | .ld .. | .ldn .. | .st .. | .pld .. | .pldn ..
  | .pst .. | .fld .. | .fst .. | .pfld .. | .pfst .. | .beq .. | .bne .. | .blt .. | .bge .. | .bltn .. | .bgen ..
  | .call .. | .jr .. | .csrr .. | .csrw .. | .waitlimWrite .. | .desctabWrite .. | .fwshareWrite .. | .trap ..
  | .eret .. | .binit .. | .barv .. | .bard .. | .bart .. | .bwait .. | .btest .. | .pub .. | .acq .. | .mbput ..
  | .mbget .. | .mbpoll .. | .discard .. | .pamoAdd .. | .pamoAddd .. | .pamoMin .. | .pamoMax .. | .pamoMinn ..
  | .pamoMaxn .. | .pamoSwp .. | .pamoCas .. | .gnew .. | .gfork .. | .gadv .. | .gmask .. | .groll .. | .gfree ..
  | .gstat .. | .sdraw .. | .sstat .. | .hset .. | .hrun .. | .hstat .. | .hforce .. | .aAdd .. | .aSub .. | .aShl ..
  | .aShr .. | .aSra .. | .aMul .. | .aMin .. | .aMax .. | .aAnd .. | .aOr .. | .aXor .. | .aaddi .. | .ali ..
  | .alis .. | .vld .. | .vst .. | .vmvaLane .. | .vmvaVsh .. | .vsetsh .. | .vsetshReg .. | .vport .. | .vportIdle ..
  | .vrep .. | .vrepReg .. | .plogAnd .. | .plogOr .. | .plogXor .. | .plogAndn .. | .plogNot .. | .mlease ..
  | .mfree .. | .msetImage .. | .msetField .. | .mzero .. | .mma .. | .mmag .. | .mhad .. | .mdrain .. | .mtag ..
  | .mtagChk .. | .mreplay .. | .mreplayChk .. | .mchk .. | .mringReset .. | .mringPop .. | .mringRead .. | .tld ..
  | .tst .. | .tcpy .. | .tsend .. | .tadd .. | .tgat .. | .tsct .. | .tcrc .. | .tdesc .. | .ttouch .. | .eend
  | .emov .. | .eli .. | .eadd .. | .esub .. | .emul .. | .emin .. | .emax .. | .eand .. | .eor .. | .eshl ..
  | .eshr .. | .ecmp .. | .esel .. | .emsg .. | .efin .. | .tokenPush | .tokenTimeout | .barTimeout | .mboxTimeout
  | .combineUpdate .. | .transferRetire .. | .transferFault .. | .matrixChunk .. | .epochBoundary | .calendarFrame
  | .portbudPeriod | .fwshareWindow | .dispatchTeam | .blockStart .. | .gmaskComplete .. | .samplerServe ..
  | .hingePushSuperstep .. | .hingePullSuperstep .. | .hingeFinalize .. | .hingeCompletion .. | .trapEntry ..
  | .firmwareStop .. | .contextSave .. | .resumeRestore .. | .bootStart | .ready | .readyTimeout | .fatalCondition
  | .powerCheck .. | .powerShutdown | .frameDrop .. | .hostRmaWrite .. | .hostRmaRead .. | .remotePut .. | .putAck ..
  | .remoteGet .. | .scpUnknownOpcode .. | .sessionOpen .. | .slotLoad .. | .slotPin .. | .slotRevoke .. | .invoke ..
  | .contractSet .. | .contractSetParams .. | .contractSetPeer .. | .contractSetDevid .. | .contractSetKey ..
  | .map .. | .unmap .. | .migratePage .. | .migrateExport .. | .migrateImport .. | .keyLoad .. | .keyErase ..
  | .preempt .. | .resume .. | .resumeRetry .. | .resumeRefuse .. | .ctxReset .. | .resync .. | .telemetryPower ..
  | .telemetryShutter .. | .telemetryFaults .. | .telemetryPorts .. | .fwUpdate .. | .guiltClear .. | .calendarSet ..
  | .illegalOp | .instPerm .. | .powerLoss | .getResponse .. => (Tok.zero, none, none, none)

/-- The strides of a prefix. -/
structure Strides where
  d : Nat
  a : Nat
  b : Nat
  deriving DecidableEq, Repr

/-- A field with a stride holds a vector name and stays within v55 (R133). -/
def strideOk (name : Option Nat) (stride n : Nat) : Bool :=
  stride = 0 || (match name with
    | some f => f + (n - 1) * stride ≤ 55
    | none => false)

/-- The checks at the prefix, all before the first repetition (R133). -/
def State.repCheck (s : State) (n : Nat) (st : Strides) (i : Instr) : Option TrapReq :=
  let f := (v3Fields i).2
  if s.seq.loops.any fun e => e.last == s.pc then some (trapOf codeRegRange)
  else if s.crew.rep.getLsbD 31 && n < field s.crew.rep.toNat 15 0 then some (trapOf codeRegRange)
  else if strideOk f.1 st.d n && strideOk f.2.1 st.a n && strideOk f.2.2 st.b n then none
  else some (trapOf codeRegRange)

/-- `rep` after a trap in a repetition with `left` to go (R134). -/
def repTrapped (st : Strides) (left : Nat) : W32 :=
  BitVec.ofNat 32 (2 ^ 31 + st.b * 2 ^ 20 + st.a * 2 ^ 18 + st.d * 2 ^ 16 + left)

/-- Tokens that a trap in a repetition puts back: the queues are left as before the prefix (R134). -/
def Crew.unpop (c : Crew) (r : RepRun) : Crew :=
  let back (toks : List Token) (q : Queue) : Queue := { q with toks := toks ++ q.toks }
  let c := (c.modQueue (popQueueP .c) (back r.toksP)).modQueue (popQueueN .c) (back r.toksN)
  { c with
    creditL := c.creditL.take (c.creditL.length - r.toksP.length)
    creditS := c.creditS.take (c.creditS.length - r.toksN.length)
    repRun := none }

/-- One repetition of a `vrep` that has its tokens; `before` is the state a trap leaves, its tokens put back (R133,
R134). Between two repetitions the word has not retired, and a trap of the closing after the last one leaves that one to be made again.
The whole of `rep` reads 0 once the word has retired, as R134 has its value be (DEDUCED, log 50). -/
def repetition (st : Strides) (r : RepRun) (before : State) (s : State) : Res :=
  let last := s.pc + 4
  let ended (t : State) : State := t.modCrew fun c => { c with rep := 0, repRun := none }
  let trapped : State := before.modCrew fun c => { c with rep := repTrapped st (r.total - r.next), repRun := none }
  if r.total ≤ r.next then .closing (ended s) last before
  else match v3At (r.next * st.d) (r.next * st.a) (r.next * st.b) r.target with
    | none => .trap (trapOf codeIllegalOp)
    | some eff => match eff s with
      | .done t =>
        if r.next + 1 = r.total then .closing (ended t) last trapped
        else .held (t.modCrew fun c => { c with repRun := some { r with next := r.next + 1 } })
      | .trap t => .trapLeaving t trapped
      | res => res

/-- The pops of a prefix and its target, which count as one word (R133). -/
def repPops (tk : Tok) (i : Instr) : Pops :=
  { p := (popsOf tk).p + (popsOf (v3Fields i).1).p, n := (popsOf tk).n + (popsOf (v3Fields i).1).n }

/-- Their pushes. -/
def repPushes (tk : Tok) (i : Instr) : Pops :=
  { p := (pushesOf tk).p + (pushesOf (v3Fields i).1).p, n := (pushesOf tk).n + (pushesOf (v3Fields i).1).n }

/-- A `vrep` as its prefix begins it: `n` repetitions, those that `rep` counts as done left out, with the tokens it pops. -/
def State.repStart (s : State) (tk : Tok) (n : Nat) (i : Instr) : RepRun :=
  { next := if s.crew.rep.getLsbD 31 then n - field s.crew.rep.toNat 15 0 else 0
    total := n, target := i
    toksP := (s.crew.queues.get (popQueueP .c)).toks.take (repPops tk i).p
    toksN := (s.crew.queues.get (popQueueN .c)).toks.take (repPops tk i).n }

/-- A prefix: its target (test 5 of R44), its checks, the pops of both words, then repetition by repetition; the pushes
of both words follow the last one (R133). A repetition after the first does not issue the prefix again. -/
def vrepWord (tk : Tok) (count : State → Nat) (reads : List (State → List RegRef)) (st : Strides) (s : State) :
    Host.Outcome State Fault Refusal :=
  match s.crew.repRun with
  | some r => runWith { p := 0, n := 0 } (repPushes tk r.target) false [] s fun s =>
      repetition st r (s.modCrew fun c => c.unpop r) s
  | none => match s.vrepTarget with
    | .other => .next (raise (trapOf codeIllegalOp) s)
    | .perm a => .next (raise (xlatTrap codeInstPerm a.toNat .fetch) s)
    | .ecc a => .next (raise (xlatTrap codeHbmEcc a.toNat .fetch) s)
    | .stop f => .fault f
    | .v3 i =>
      if s.parityBad reads then .next (raise (trapOf codeRegParity) s)
      else match s.repCheck (count s) st i with
        | some t => .next (raise t s)
        | none => runWith (repPops tk i) (repPushes tk i) false [] s fun s1 =>
            s1.cEntry (repetition st (s.repStart tk (count s) i) s s1)

def execVrep (tk : Tok) (count : BitVec 8) (sd sa sb : BitVec 2) (s : State) : Host.Outcome State Fault Refusal :=
  vrepWord tk (fun _ => count.toNat) [] { d := sd.toNat, a := sa.toNat, b := sb.toNat } s

def execVrepReg (tk : Tok) (aC : AReg) (sd sa sb : BitVec 2) (s : State) : Host.Outcome State Fault Refusal :=
  vrepWord tk (fun s => (s.getA aC).toNat % 65536) [refA aC] { d := sd.toNat, a := sa.toNat, b := sb.toNat } s

/-! ### Predicate logic (R116) -/

/-- A predicate word. -/
def plog (tk : Tok) (pd pa pb : PReg) (s : State) (f : PWord → PWord → PWord) : Host.Outcome State Fault Refusal :=
  runWord tk [refP pa, refP pb] s fun s => s.cEntry (.done (s.setP pd (f (s.getP pa) (s.getP pb))))

def execPlogAnd (tk : Tok) (pd pa pb : PReg) (s : State) : Host.Outcome State Fault Refusal :=
  plog tk pd pa pb s fun a b => a &&& b

def execPlogOr (tk : Tok) (pd pa pb : PReg) (s : State) : Host.Outcome State Fault Refusal :=
  plog tk pd pa pb s fun a b => a ||| b

def execPlogXor (tk : Tok) (pd pa pb : PReg) (s : State) : Host.Outcome State Fault Refusal :=
  plog tk pd pa pb s fun a b => a ^^^ b

def execPlogAndn (tk : Tok) (pd pa pb : PReg) (s : State) : Host.Outcome State Fault Refusal :=
  plog tk pd pa pb s fun a b => a &&& ~~~b

def execPlogNot (tk : Tok) (pd pa : PReg) (s : State) : Host.Outcome State Fault Refusal :=
  plog tk pd pa pa s fun a _ => ~~~a

/-! ### Shape and moves (R111, R121) -/

/-- `vsetsh` with the count taken (R111). -/
def setShape (ty : BitVec 4) (pack : BitVec 2) (n : Nat) (s : State) : Res :=
  let t := ty.toNat
  let cw := 32 / 2 ^ pack.toNat
  if t = 5 || t = 6 || t = 7 || t = 11 || t = 15 then .trap (trapOf codeIllegalType)
  else if cw < typeWidth t then .trap (trapOf codeIllegalType)
  else if 2048 / cw < n then .trap (trapOf codeIllegalType)
  else .done (s.modCrew fun c => { c with vsh := BitVec.ofNat 32 (t * 2 ^ 12 + pack.toNat * 2 ^ 10 + n) })

def execVsetsh (tk : Tok) (ty : BitVec 4) (pack : BitVec 2) (cnt : BitVec 8) (s : State) :
    Host.Outcome State Fault Refusal :=
  runWord tk [] s fun s => s.cEntry (setShape ty pack (cnt.toNat + 1) s)

def execVsetshReg (tk : Tok) (ty : BitVec 4) (pack : BitVec 2) (aC : AReg) (s : State) :
    Host.Outcome State Fault Refusal :=
  runWord tk [refA aC] s fun s => s.cEntry (setShape ty pack (s.getA aC).toNat s)

/-- The image of a plain source: a vector register or `vz` (R55). -/
def State.plain (s : State) : VPlain → Nat
  | .reg n => (s.getV n).toNat
  | .zero => 0

def refPlain : VPlain → List (State → List RegRef)
  | .reg n => [refV n]
  | .zero => []

def execVmvaLane (tk : Tok) (aD : AReg) (va : VPlain) (k : BitVec 6) (s : State) : Host.Outcome State Fault Refusal :=
  runWord tk (refPlain va) s fun s =>
    s.cEntry (.done (s.setA aD (BitVec.ofNat 48 (s.plain va / 2 ^ (32 * k.toNat) % 2 ^ 32))))

def execVmvaVsh (tk : Tok) (aD : AReg) (s : State) : Host.Outcome State Fault Refusal :=
  runWord tk [] s fun s => s.cEntry (.done (s.setA aD (s.crew.vsh.zeroExtend 48)))

/-! ### Loads and stores (R128) -/

/-- The offset of a vector image; it may fall below 0. -/
def vmOffset (base : AWord) (off : BitVec 9) : Int := (base.toNat : Int) + 256 * off.toInt

/-- A trap that names a vector image's offset. -/
def vmTrap (code : BitVec 8) (o : Int) : TrapReq := { code := code, info := 0, addr := BitVec.ofInt 64 o }

/-- The checks of a vector image (R128). -/
def vmCheck (part : XWord) (o : Int) : Option TrapReq :=
  if o % 64 ≠ 0 then some (vmTrap codeAlign o)
  else if o < 0 || 2 ^ 23 < o + 256 then some (vmTrap codePoolRange o)
  else if o < sBegin part || (allotEnd part : Int) < o + 256 then some (vmTrap codePoolPart o)
  else none

/-- The written containers of a vector image, read in order. -/
def State.loadElems (s : State) (o bytes : Nat) : List Bool → Except Res (List (Option Nat))
  | [] => .ok []
  | false :: rest => match s.loadElems (o + bytes) bytes rest with
    | .ok l => .ok (none :: l)
    | .error r => .error r
  | true :: rest =>
    match s.poolRead o bytes 1 with
    | .bytes b => match s.loadElems (o + bytes) bytes rest with
      | .ok l => .ok (some (leNat b) :: l)
      | .error r => .error r
    | .locked => .error (.block .other id)
    | .trap t => .error (.trap t)

/-- The chosen containers of a vector image, written in order. -/
def State.storeElems (s : State) (o bytes : Nat) : List (Option Nat) → Except Res State
  | [] => .ok s
  | none :: rest => s.storeElems (o + bytes) bytes rest
  | some v :: rest =>
    if s.here.lockedFor none (poolPlace s.part o) bytes then .error (.block .other id)
    else (s.poolStore o (natLe bytes v)).storeElems (o + bytes) bytes rest

def execVld (tk : Tok) (pg : PReg) (vd : VReg) (aB : AReg) (off : BitVec 9) (s : State) :
    Host.Outcome State Fault Refusal :=
  runWord tk [refP pg, refA aB] s fun s =>
    s.cEntry <|
      let h := s.shape
      let o := vmOffset (s.getA aB) off
      .ofTrap (vmCheck s.part o) <|
        let g := s.getP pg
        match s.loadElems o.toNat (h.cw / 8) ((List.range h.cap).map fun i => i < h.cnt && laneBit g h.cw i) with
        | .ok vals => s.writeDst (.reg vd) h.cw h.cnt vals
        | .error r => r

def execVst (tk : Tok) (pg : PReg) (vs : VPlain) (aB : AReg) (off : BitVec 9) (s : State) :
    Host.Outcome State Fault Refusal :=
  runWord tk ([refP pg, refA aB] ++ refPlain vs) s fun s =>
    s.cEntry <|
      let h := s.shape
      let o := vmOffset (s.getA aB) off
      .ofTrap (vmCheck s.part o) <|
        match s.storeElems o.toNat (h.cw / 8) (guarded (s.getP pg) h.cw h.cnt (unpack h.cw (s.plain vs) h.cap)) with
        | .ok s => .done s
        | .error r => r

/-! ### Port configuration (R130) -/

/-- The checks of a port's record and walk, in order (R130). Steps 3 to 5 name the base offset, also where a stride is what is
misaligned, and in step 5 the last element may end where the A-partition does (DEDUCED, log 57). -/
def portConfig (part : XWord) (base : Nat) (r : BitVec 128) : Option TrapReq :=
  let size := eszBytes (recEsz r)
  let lo := walkBound true base r
  let hi := walkBound false base r + size
  if field r.toNat 127 122 ≠ 0 || recEsz r = 3 || recCount r 0 = 0 || recCount r 1 = 0 || recCount r 2 = 0 then
    some (trapOf codeRegRange)
  else if base % size ≠ 0 || recStride r 0 % size ≠ 0 || recStride r 1 % size ≠ 0 || recStride r 2 % size ≠ 0 then
    some (trapAt codeAlign base)
  else if lo < 0 || 2 ^ 23 ≤ hi then some (trapAt codePoolRange base)
  else if lo < sBegin part || (allotEnd part : Int) < hi then some (trapAt codePoolPart base)
  else none

def State.setPort (s : State) (k : Fin 6) (p : Port) : State := s.modCrew fun c => { c with ports := c.ports.set k p }

def execVport (tk : Tok) (port : Fin 6) (aB aR : AReg) (s : State) : Host.Outcome State Fault Refusal :=
  runWord tk [refA aB, refA aR] s fun s =>
    s.cEntry <|
      match s.poolRead (s.getA aR).toNat 16 16 with
      | .trap t => .trap t
      | .locked => .block .other id
      | .bytes b =>
        let r := BitVec.ofNat 128 (leNat b)
        .ofTrap (portConfig s.part (s.getA aB).toNat r)
          (.done (s.setPort port { active := true, base := s.getA aB, record := r, pos := 0 }))

def execVportIdle (tk : Tok) (port : Fin 6) (s : State) : Host.Outcome State Fault Refusal :=
  runWord tk [] s fun s => s.cEntry (.done (s.setPort port Port.idle))

end Sys2Proof.Machine
end

