-- ==== Sys2Proof/Machine/XFloat.lean ====
section
/-! DEFINITION. X floating instructions: FP32 arithmetic, fused multiply-add, conversions, moves and compares
(spec/04_isa_scalar.md R76 to R78). -/

namespace Sys2Proof.Machine

/-! ### Shared operations -/

/-- A word that writes a function of two f-registers (R76). -/
def fopRR (tk : Tok) (fd fa fb : FReg) (s : State) (f : W32 → W32 → W32) : Host.Outcome State Fault Refusal :=
  runWord tk [refF fa, refF fb] s fun s => .done (s.setF fd (f (s.getF fa) (s.getF fb)))

/-- A word that writes a function of one f-register (R76). -/
def fopR (tk : Tok) (fd fa : FReg) (s : State) (f : W32 → W32) : Host.Outcome State Fault Refusal :=
  runWord tk [refF fa] s fun s => .done (s.setF fd (f (s.getF fa)))

/-- A pattern that is a NaN. -/
def isNan32 (w : W32) : Bool := (f32 w).isNan

/-- The order of values with −0 below +0 (R76, `fmin`). -/
def ltSigned (a b : W32) : Bool := (f32 a).lt (f32 b) || ((f32 a).eqv (f32 b) && (f32 a).sign && !(f32 b).sign)

/-- The smaller of two values; one NaN gives the other operand, two give NaN (Table 4.7). -/
def fminBits (a b : W32) : W32 :=
  if isNan32 a then (if isNan32 b then nan32 else b) else if isNan32 b then a else if ltSigned b a then b else a

/-- The larger of two values (Table 4.7). -/
def fmaxBits (a b : W32) : W32 :=
  if isNan32 a then (if isNan32 b then nan32 else b) else if isNan32 b then a else if ltSigned a b then b else a

/-- A sign operation: NaN gives the canonical NaN (Table 4.7). -/
def signOp (a : W32) (r : W32) : W32 := if isNan32 a then nan32 else r

/-- The sign bit of a pattern in place. -/
def signBit32 (w : W32) : W32 := w &&& 0x80000000

/-- The bits of a pattern below its sign. -/
def magBits32 (w : W32) : W32 := w &&& 0x7FFFFFFF

/-- `RoundNE(±(a × b) ± c)`: one rounding (R77). -/
def fused (negP negC : Bool) (a b c : W32) : W32 :=
  let p := (f32 a).mul (f32 b)
  let p := if negP then p.neg else p
  let k := if negC then (f32 c).neg else f32 c
  toF32 (p.add k)

/-- A fused word (R77). -/
def ffmaWord (negP negC : Bool) (tk : Tok) (fd fa fb fc : FReg) (s : State) : Host.Outcome State Fault Refusal :=
  runWord tk [refF fa, refF fb, refF fc] s fun s =>
    .done (s.setF fd (fused negP negC (s.getF fa) (s.getF fb) (s.getF fc)))

/-- INT64 from FP32, saturating, NaN gives 0 (R30, R78). -/
def toInt64 (rz : Bool) (w : W32) : XWord :=
  BitVec.ofInt 64 (toIntRange rz (-(2 ^ 63)) (2 ^ 63 - 1) (f32 w)).1

/-- A compare of two f-registers into an x-register (R78). -/
def fcmp (tk : Tok) (rd : XReg) (fa fb : FReg) (s : State) (c : FV → FV → Bool) : Host.Outcome State Fault Refusal :=
  runWord tk [refF fa, refF fb] s fun s => .done (s.setX rd (boolX (c (f32 (s.getF fa)) (f32 (s.getF fb)))))

/-- A word from an f-register into an x-register (R78). -/
def fToX (tk : Tok) (rd : XReg) (fa : FReg) (s : State) (f : W32 → XWord) : Host.Outcome State Fault Refusal :=
  runWord tk [refF fa] s fun s => .done (s.setX rd (f (s.getF fa)))

/-- A word from an x-register into an f-register (R78). -/
def xToF (tk : Tok) (fd : FReg) (ra : XReg) (s : State) (f : XWord → W32) : Host.Outcome State Fault Refusal :=
  runWord tk [refX ra] s fun s => .done (s.setF fd (f (s.getX ra)))

/-! ### R76: `fop` -/

def execFadd (tk : Tok) (fd fa fb : FReg) (s : State) : Host.Outcome State Fault Refusal :=
  fopRR tk fd fa fb s fun a b => toF32 ((f32 a).add (f32 b))

def execFsub (tk : Tok) (fd fa fb : FReg) (s : State) : Host.Outcome State Fault Refusal :=
  fopRR tk fd fa fb s fun a b => toF32 ((f32 a).sub (f32 b))

def execFmul (tk : Tok) (fd fa fb : FReg) (s : State) : Host.Outcome State Fault Refusal :=
  fopRR tk fd fa fb s fun a b => toF32 ((f32 a).mul (f32 b))

def execFdiv (tk : Tok) (fd fa fb : FReg) (s : State) : Host.Outcome State Fault Refusal :=
  fopRR tk fd fa fb s fun a b => toF32 ((f32 a).div (f32 b))

def execFsqrt (tk : Tok) (fd fa : FReg) (s : State) : Host.Outcome State Fault Refusal :=
  fopR tk fd fa s fun a => toF32 (f32 a).sqrt

def execFmin (tk : Tok) (fd fa fb : FReg) (s : State) : Host.Outcome State Fault Refusal :=
  fopRR tk fd fa fb s fminBits

def execFmax (tk : Tok) (fd fa fb : FReg) (s : State) : Host.Outcome State Fault Refusal :=
  fopRR tk fd fa fb s fmaxBits

def execFabs (tk : Tok) (fd fa : FReg) (s : State) : Host.Outcome State Fault Refusal :=
  fopR tk fd fa s fun a => signOp a (magBits32 a)

def execFneg (tk : Tok) (fd fa : FReg) (s : State) : Host.Outcome State Fault Refusal :=
  fopR tk fd fa s fun a => signOp a (a ^^^ 0x80000000)

def execFsgnj (tk : Tok) (fd fa fb : FReg) (s : State) : Host.Outcome State Fault Refusal :=
  fopRR tk fd fa fb s fun a b => signOp a (signBit32 b ||| magBits32 a)

/-! ### R77: `ffma` -/

def execFfma (tk : Tok) (fd fa fb fc : FReg) (s : State) : Host.Outcome State Fault Refusal :=
  ffmaWord false false tk fd fa fb fc s

def execFfms (tk : Tok) (fd fa fb fc : FReg) (s : State) : Host.Outcome State Fault Refusal :=
  ffmaWord false true tk fd fa fb fc s

def execFfnma (tk : Tok) (fd fa fb fc : FReg) (s : State) : Host.Outcome State Fault Refusal :=
  ffmaWord true false tk fd fa fb fc s

def execFfnms (tk : Tok) (fd fa fb fc : FReg) (s : State) : Host.Outcome State Fault Refusal :=
  ffmaWord true true tk fd fa fb fc s

/-! ### R78: `fxc` -/

def execFcvtxf (tk : Tok) (rd : XReg) (fa : FReg) (s : State) : Host.Outcome State Fault Refusal :=
  fToX tk rd fa s (toInt64 false)

def execFcvtxfz (tk : Tok) (rd : XReg) (fa : FReg) (s : State) : Host.Outcome State Fault Refusal :=
  fToX tk rd fa s (toInt64 true)

def execFcvtfx (tk : Tok) (fd : FReg) (ra : XReg) (s : State) : Host.Outcome State Fault Refusal :=
  xToF tk fd ra s fun a => toF32 (FV.ofInt a.toInt)

def execFmvxf (tk : Tok) (rd : XReg) (fa : FReg) (s : State) : Host.Outcome State Fault Refusal :=
  fToX tk rd fa s fun a => a.zeroExtend 64

def execFmvfx (tk : Tok) (fd : FReg) (ra : XReg) (s : State) : Host.Outcome State Fault Refusal :=
  xToF tk fd ra s fun a => a.setWidth 32

def execFeq (tk : Tok) (rd : XReg) (fa fb : FReg) (s : State) : Host.Outcome State Fault Refusal :=
  fcmp tk rd fa fb s FV.eqv

def execFlt (tk : Tok) (rd : XReg) (fa fb : FReg) (s : State) : Host.Outcome State Fault Refusal :=
  fcmp tk rd fa fb s FV.lt

def execFle (tk : Tok) (rd : XReg) (fa fb : FReg) (s : State) : Host.Outcome State Fault Refusal :=
  fcmp tk rd fa fb s FV.le

end Sys2Proof.Machine
end

