-- ==== Sys2Proof/Machine/XMem.lean ====
section
/-! DEFINITION. X memory instructions (spec/04_isa_scalar.md R79 to R81). -/

namespace Sys2Proof.Machine

/-! ### Shared operations -/

/-- A global load of `n = 2^size` bytes into an x-register (Table 4.9). -/
def loadX (tk : Tok) (signed : Bool) (sz : BitVec 2) (rd ra : XReg) (off : BitVec 8) (s : State) :
    Host.Outcome State Fault Refusal :=
  runWord tk [refX ra] s fun s =>
    s.globalLoad (xmAddr (s.getX ra) off sz.toNat) (sizeBytes sz) fun b s => .done (s.setX rd (extend signed b))

/-- A pool load into an x-register (Table 4.9). -/
def poolLoadX (tk : Tok) (signed : Bool) (sz : BitVec 2) (rd ra : XReg) (off : BitVec 8) (s : State) :
    Host.Outcome State Fault Refusal :=
  runWord tk [refX ra] s fun s =>
    s.poolLoad (xmAddr (s.getX ra) off sz.toNat) (sizeBytes sz) fun b => .done (s.setX rd (extend signed b))

/-! ### R79: loads and stores -/

def execLd (tk : Tok) (sz : BitVec 2) (rd ra : XReg) (off : BitVec 8) (s : State) : Host.Outcome State Fault Refusal :=
  loadX tk true sz rd ra off s

def execLdn (tk : Tok) (sz : BitVec 2) (rd ra : XReg) (off : BitVec 8) (s : State) : Host.Outcome State Fault Refusal :=
  loadX tk false sz rd ra off s

def execSt (tk : Tok) (sz : BitVec 2) (rs ra : XReg) (off : BitVec 8) (s : State) : Host.Outcome State Fault Refusal :=
  runWord tk [refX rs, refX ra] s fun s =>
    s.globalStore (xmAddr (s.getX ra) off sz.toNat) (natLe (sizeBytes sz) (s.getX rs).toNat)

def execPld (tk : Tok) (sz : BitVec 2) (rd ra : XReg) (off : BitVec 8) (s : State) : Host.Outcome State Fault Refusal :=
  poolLoadX tk true sz rd ra off s

def execPldn (tk : Tok) (sz : BitVec 2) (rd ra : XReg) (off : BitVec 8) (s : State) : Host.Outcome State Fault Refusal :=
  poolLoadX tk false sz rd ra off s

def execPst (tk : Tok) (sz : BitVec 2) (rs ra : XReg) (off : BitVec 8) (s : State) : Host.Outcome State Fault Refusal :=
  runWord tk [refX rs, refX ra] s fun s =>
    s.poolWriteAt (xmAddr (s.getX ra) off sz.toNat) (natLe (sizeBytes sz) (s.getX rs).toNat)

def execFld (tk : Tok) (fd : FReg) (ra : XReg) (off : BitVec 8) (s : State) : Host.Outcome State Fault Refusal :=
  runWord tk [refX ra] s fun s =>
    s.globalLoad (xmAddr (s.getX ra) off 2) 4 fun b s => .done (s.setF fd (BitVec.ofNat 32 (leNat b)))

def execFst (tk : Tok) (fs : FReg) (ra : XReg) (off : BitVec 8) (s : State) : Host.Outcome State Fault Refusal :=
  runWord tk [refF fs, refX ra] s fun s =>
    s.globalStore (xmAddr (s.getX ra) off 2) (natLe 4 (s.getF fs).toNat)

def execPfld (tk : Tok) (fd : FReg) (ra : XReg) (off : BitVec 8) (s : State) : Host.Outcome State Fault Refusal :=
  runWord tk [refX ra] s fun s =>
    s.poolLoad (xmAddr (s.getX ra) off 2) 4 fun b => .done (s.setF fd (BitVec.ofNat 32 (leNat b)))

def execPfst (tk : Tok) (fs : FReg) (ra : XReg) (off : BitVec 8) (s : State) : Host.Outcome State Fault Refusal :=
  runWord tk [refF fs, refX ra] s fun s =>
    s.poolWriteAt (xmAddr (s.getX ra) off 2) (natLe 4 (s.getF fs).toNat)

end Sys2Proof.Machine
end

