-- ==== Sys2Proof/Machine/Dispatch.lean ====
section
/-! DEFINITION. One arm per instruction: its meaning. -/

namespace Sys2Proof.Machine

def exec (i : Instr) (s : State) : Host.Outcome State Fault Refusal :=
  match i with
  | .nop => Sys2Proof.Machine.execNop s
  | .tok tk => Sys2Proof.Machine.execTok tk s
  | .jmp tk off => Sys2Proof.Machine.execJmp tk off s
  | .loop tk count len => Sys2Proof.Machine.execLoop tk count len s
  | .loopRegX tk r len => Sys2Proof.Machine.execLoopRegX tk r len s
  | .loopReg tk r len => Sys2Proof.Machine.execLoopReg tk r len s
  | .loopr tk count len => Sys2Proof.Machine.execLoopr tk count len s
  | .looprReg tk r len => Sys2Proof.Machine.execLooprReg tk r len s
  | .loopx tk aC aN len => Sys2Proof.Machine.execLoopx tk aC aN len s
  | .brc tk r off => Sys2Proof.Machine.execBrc tk r off s
  | .halt tk => Sys2Proof.Machine.execHalt tk s
  | .wait tk => Sys2Proof.Machine.execWait tk s
  | .rstp tk mask => Sys2Proof.Machine.execRstp tk mask s
  | .add tk rd ra rb => Sys2Proof.Machine.execAdd tk rd ra rb s
  | .sub tk rd ra rb => Sys2Proof.Machine.execSub tk rd ra rb s
  | .and tk rd ra rb => Sys2Proof.Machine.execAnd tk rd ra rb s
  | .or tk rd ra rb => Sys2Proof.Machine.execOr tk rd ra rb s
  | .xor tk rd ra rb => Sys2Proof.Machine.execXor tk rd ra rb s
  | .shl tk rd ra rb => Sys2Proof.Machine.execShl tk rd ra rb s
  | .shr tk rd ra rb => Sys2Proof.Machine.execShr tk rd ra rb s
  | .sra tk rd ra rb => Sys2Proof.Machine.execSra tk rd ra rb s
  | .slt tk rd ra rb => Sys2Proof.Machine.execSlt tk rd ra rb s
  | .sltn tk rd ra rb => Sys2Proof.Machine.execSltn tk rd ra rb s
  | .min tk rd ra rb => Sys2Proof.Machine.execMin tk rd ra rb s
  | .max tk rd ra rb => Sys2Proof.Machine.execMax tk rd ra rb s
  | .minn tk rd ra rb => Sys2Proof.Machine.execMinn tk rd ra rb s
  | .maxn tk rd ra rb => Sys2Proof.Machine.execMaxn tk rd ra rb s
  | .mul tk rd ra rb => Sys2Proof.Machine.execMul tk rd ra rb s
  | .mulh tk rd ra rb => Sys2Proof.Machine.execMulh tk rd ra rb s
  | .mulhn tk rd ra rb => Sys2Proof.Machine.execMulhn tk rd ra rb s
  | .div tk rd ra rb => Sys2Proof.Machine.execDiv tk rd ra rb s
  | .divn tk rd ra rb => Sys2Proof.Machine.execDivn tk rd ra rb s
  | .rem tk rd ra rb => Sys2Proof.Machine.execRem tk rd ra rb s
  | .remn tk rd ra rb => Sys2Proof.Machine.execRemn tk rd ra rb s
  | .clz tk rd ra => Sys2Proof.Machine.execClz tk rd ra s
  | .ctz tk rd ra => Sys2Proof.Machine.execCtz tk rd ra s
  | .popc tk rd ra => Sys2Proof.Machine.execPopc tk rd ra s
  | .bswap tk rd ra => Sys2Proof.Machine.execBswap tk rd ra s
  | .sextb tk rd ra => Sys2Proof.Machine.execSextb tk rd ra s
  | .sexth tk rd ra => Sys2Proof.Machine.execSexth tk rd ra s
  | .sextw tk rd ra => Sys2Proof.Machine.execSextw tk rd ra s
  | .zextw tk rd ra => Sys2Proof.Machine.execZextw tk rd ra s
  | .andn tk rd ra rb => Sys2Proof.Machine.execAndn tk rd ra rb s
  | .orn tk rd ra rb => Sys2Proof.Machine.execOrn tk rd ra rb s
  | .addi tk rd ra imm => Sys2Proof.Machine.execAddi tk rd ra imm s
  | .andi tk rd ra imm => Sys2Proof.Machine.execAndi tk rd ra imm s
  | .ori tk rd ra imm => Sys2Proof.Machine.execOri tk rd ra imm s
  | .xori tk rd ra imm => Sys2Proof.Machine.execXori tk rd ra imm s
  | .shiShl tk rd ra n => Sys2Proof.Machine.execShiShl tk rd ra n s
  | .shiShr tk rd ra n => Sys2Proof.Machine.execShiShr tk rd ra n s
  | .shiSra tk rd ra n => Sys2Proof.Machine.execShiSra tk rd ra n s
  | .slti tk rd ra imm => Sys2Proof.Machine.execSlti tk rd ra imm s
  | .sltni tk rd ra imm => Sys2Proof.Machine.execSltni tk rd ra imm s
  | .lim tk rd imm => Sys2Proof.Machine.execLim tk rd imm s
  | .lims tk rd imm => Sys2Proof.Machine.execLims tk rd imm s
  | .fadd tk fd fa fb => Sys2Proof.Machine.execFadd tk fd fa fb s
  | .fsub tk fd fa fb => Sys2Proof.Machine.execFsub tk fd fa fb s
  | .fmul tk fd fa fb => Sys2Proof.Machine.execFmul tk fd fa fb s
  | .fdiv tk fd fa fb => Sys2Proof.Machine.execFdiv tk fd fa fb s
  | .fsqrt tk fd fa => Sys2Proof.Machine.execFsqrt tk fd fa s
  | .fmin tk fd fa fb => Sys2Proof.Machine.execFmin tk fd fa fb s
  | .fmax tk fd fa fb => Sys2Proof.Machine.execFmax tk fd fa fb s
  | .fabs tk fd fa => Sys2Proof.Machine.execFabs tk fd fa s
  | .fneg tk fd fa => Sys2Proof.Machine.execFneg tk fd fa s
  | .fsgnj tk fd fa fb => Sys2Proof.Machine.execFsgnj tk fd fa fb s
  | .ffma tk fd fa fb fc => Sys2Proof.Machine.execFfma tk fd fa fb fc s
  | .ffms tk fd fa fb fc => Sys2Proof.Machine.execFfms tk fd fa fb fc s
  | .ffnma tk fd fa fb fc => Sys2Proof.Machine.execFfnma tk fd fa fb fc s
  | .ffnms tk fd fa fb fc => Sys2Proof.Machine.execFfnms tk fd fa fb fc s
  | .fcvtxf tk rd fa => Sys2Proof.Machine.execFcvtxf tk rd fa s
  | .fcvtxfz tk rd fa => Sys2Proof.Machine.execFcvtxfz tk rd fa s
  | .fcvtfx tk fd ra => Sys2Proof.Machine.execFcvtfx tk fd ra s
  | .fmvxf tk rd fa => Sys2Proof.Machine.execFmvxf tk rd fa s
  | .fmvfx tk fd ra => Sys2Proof.Machine.execFmvfx tk fd ra s
  | .feq tk rd fa fb => Sys2Proof.Machine.execFeq tk rd fa fb s
  | .flt tk rd fa fb => Sys2Proof.Machine.execFlt tk rd fa fb s
  | .fle tk rd fa fb => Sys2Proof.Machine.execFle tk rd fa fb s
  | .ld tk sz rd ra off => Sys2Proof.Machine.execLd tk sz rd ra off s
  | .ldn tk sz rd ra off => Sys2Proof.Machine.execLdn tk sz rd ra off s
  | .st tk sz rs ra off => Sys2Proof.Machine.execSt tk sz rs ra off s
  | .pld tk sz rd ra off => Sys2Proof.Machine.execPld tk sz rd ra off s
  | .pldn tk sz rd ra off => Sys2Proof.Machine.execPldn tk sz rd ra off s
  | .pst tk sz rs ra off => Sys2Proof.Machine.execPst tk sz rs ra off s
  | .fld tk fd ra off => Sys2Proof.Machine.execFld tk fd ra off s
  | .fst tk fs ra off => Sys2Proof.Machine.execFst tk fs ra off s
  | .pfld tk fd ra off => Sys2Proof.Machine.execPfld tk fd ra off s
  | .pfst tk fs ra off => Sys2Proof.Machine.execPfst tk fs ra off s
  | .beq tk ra rb off => Sys2Proof.Machine.execBeq tk ra rb off s
  | .bne tk ra rb off => Sys2Proof.Machine.execBne tk ra rb off s
  | .blt tk ra rb off => Sys2Proof.Machine.execBlt tk ra rb off s
  | .bge tk ra rb off => Sys2Proof.Machine.execBge tk ra rb off s
  | .bltn tk ra rb off => Sys2Proof.Machine.execBltn tk ra rb off s
  | .bgen tk ra rb off => Sys2Proof.Machine.execBgen tk ra rb off s
  | .call tk off => Sys2Proof.Machine.execCall tk off s
  | .jr tk ra => Sys2Proof.Machine.execJr tk ra s
  | .csrr tk rd csr => Sys2Proof.Machine.execCsrr tk rd csr s
  | .csrw tk csr rs => Sys2Proof.Machine.execCsrw tk csr rs s
  | .waitlimWrite tk rs => Sys2Proof.Machine.execWaitlimWrite tk rs s
  | .desctabWrite tk rs => Sys2Proof.Machine.execDesctabWrite tk rs s
  | .fwshareWrite tk rs => Sys2Proof.Machine.execFwshareWrite tk rs s
  | .trap tk imm => Sys2Proof.Machine.execTrap tk imm s
  | .eret tk => Sys2Proof.Machine.execEret tk s
  | .binit tk ra rb => Sys2Proof.Machine.execBinit tk ra rb s
  | .barv tk ra => Sys2Proof.Machine.execBarv tk ra s
  | .bard tk ra => Sys2Proof.Machine.execBard tk ra s
  | .bart tk ra rb => Sys2Proof.Machine.execBart tk ra rb s
  | .bwait tk ra rb => Sys2Proof.Machine.execBwait tk ra rb s
  | .btest tk rd ra => Sys2Proof.Machine.execBtest tk rd ra s
  | .pub tk scope => Sys2Proof.Machine.execPub tk scope s
  | .acq tk scope => Sys2Proof.Machine.execAcq tk scope s
  | .mbput tk ra rb => Sys2Proof.Machine.execMbput tk ra rb s
  | .mbget tk rd ra => Sys2Proof.Machine.execMbget tk rd ra s
  | .mbpoll tk rd ra => Sys2Proof.Machine.execMbpoll tk rd ra s
  | .discard tk ra rb => Sys2Proof.Machine.execDiscard tk ra rb s
  | .pamoAdd tk rd ra rb => Sys2Proof.Machine.execPamoAdd tk rd ra rb s
  | .pamoAddd tk rd ra rb => Sys2Proof.Machine.execPamoAddd tk rd ra rb s
  | .pamoMin tk rd ra rb => Sys2Proof.Machine.execPamoMin tk rd ra rb s
  | .pamoMax tk rd ra rb => Sys2Proof.Machine.execPamoMax tk rd ra rb s
  | .pamoMinn tk rd ra rb => Sys2Proof.Machine.execPamoMinn tk rd ra rb s
  | .pamoMaxn tk rd ra rb => Sys2Proof.Machine.execPamoMaxn tk rd ra rb s
  | .pamoSwp tk rd ra rb => Sys2Proof.Machine.execPamoSwp tk rd ra rb s
  | .pamoCas tk rd ra rb => Sys2Proof.Machine.execPamoCas tk rd ra rb s
  | .gnew tk rd ra => Sys2Proof.Machine.execGnew tk rd ra s
  | .gfork tk rd ra => Sys2Proof.Machine.execGfork tk rd ra s
  | .gadv tk rd ra rb => Sys2Proof.Machine.execGadv tk rd ra rb s
  | .gmask tk ra rb => Sys2Proof.Machine.execGmask tk ra rb s
  | .groll tk rd ra rb => Sys2Proof.Machine.execGroll tk rd ra rb s
  | .gfree tk ra => Sys2Proof.Machine.execGfree tk ra s
  | .gstat tk rd ra => Sys2Proof.Machine.execGstat tk rd ra s
  | .sdraw tk rd ra => Sys2Proof.Machine.execSdraw tk rd ra s
  | .sstat tk rd ra => Sys2Proof.Machine.execSstat tk rd ra s
  | .hset tk ra rb => Sys2Proof.Machine.execHset tk ra rb s
  | .hrun tk ra => Sys2Proof.Machine.execHrun tk ra s
  | .hstat tk rd ra => Sys2Proof.Machine.execHstat tk rd ra s
  | .hforce tk ra => Sys2Proof.Machine.execHforce tk ra s
  | .aAdd tk ad aa ab => Sys2Proof.Machine.execAAdd tk ad aa ab s
  | .aSub tk ad aa ab => Sys2Proof.Machine.execASub tk ad aa ab s
  | .aShl tk ad aa ab => Sys2Proof.Machine.execAShl tk ad aa ab s
  | .aShr tk ad aa ab => Sys2Proof.Machine.execAShr tk ad aa ab s
  | .aSra tk ad aa ab => Sys2Proof.Machine.execASra tk ad aa ab s
  | .aMul tk ad aa ab => Sys2Proof.Machine.execAMul tk ad aa ab s
  | .aMin tk ad aa ab => Sys2Proof.Machine.execAMin tk ad aa ab s
  | .aMax tk ad aa ab => Sys2Proof.Machine.execAMax tk ad aa ab s
  | .aAnd tk ad aa ab => Sys2Proof.Machine.execAAnd tk ad aa ab s
  | .aOr tk ad aa ab => Sys2Proof.Machine.execAOr tk ad aa ab s
  | .aXor tk ad aa ab => Sys2Proof.Machine.execAXor tk ad aa ab s
  | .aaddi tk ad aa imm => Sys2Proof.Machine.execAaddi tk ad aa imm s
  | .ali tk ad imm => Sys2Proof.Machine.execAli tk ad imm s
  | .alis tk ad imm => Sys2Proof.Machine.execAlis tk ad imm s
  | .vadd tk pg vd va vb => Sys2Proof.Machine.execVadd tk pg vd va vb s
  | .vsub tk pg vd va vb => Sys2Proof.Machine.execVsub tk pg vd va vb s
  | .vmul tk pg vd va vb => Sys2Proof.Machine.execVmul tk pg vd va vb s
  | .vfma tk pg vd va vb => Sys2Proof.Machine.execVfma tk pg vd va vb s
  | .vmin tk pg vd va vb => Sys2Proof.Machine.execVmin tk pg vd va vb s
  | .vmax tk pg vd va vb => Sys2Proof.Machine.execVmax tk pg vd va vb s
  | .vabs tk pg vd va => Sys2Proof.Machine.execVabs tk pg vd va s
  | .vneg tk pg vd va => Sys2Proof.Machine.execVneg tk pg vd va s
  | .vand tk pg vd va vb => Sys2Proof.Machine.execVand tk pg vd va vb s
  | .vor tk pg vd va vb => Sys2Proof.Machine.execVor tk pg vd va vb s
  | .vxor tk pg vd va vb => Sys2Proof.Machine.execVxor tk pg vd va vb s
  | .vshl tk pg vd va vb => Sys2Proof.Machine.execVshl tk pg vd va vb s
  | .vshr tk pg vd va vb => Sys2Proof.Machine.execVshr tk pg vd va vb s
  | .vsra tk pg vd va vb => Sys2Proof.Machine.execVsra tk pg vd va vb s
  | .vcmpeq tk pg pd va vb => Sys2Proof.Machine.execVcmpeq tk pg pd va vb s
  | .vcmplt tk pg pd va vb => Sys2Proof.Machine.execVcmplt tk pg pd va vb s
  | .vcmple tk pg pd va vb => Sys2Proof.Machine.execVcmple tk pg pd va vb s
  | .vsel tk pg vd va vb => Sys2Proof.Machine.execVsel tk pg vd va vb s
  | .vcvt tk pg vd va ty => Sys2Proof.Machine.execVcvt tk pg vd va ty s
  | .vcvts tk pg vd va ty => Sys2Proof.Machine.execVcvts tk pg vd va ty s
  | .vrsq tk pg vd va => Sys2Proof.Machine.execVrsq tk pg vd va s
  | .vrcp tk pg vd va => Sys2Proof.Machine.execVrcp tk pg vd va s
  | .vlog2 tk pg vd va => Sys2Proof.Machine.execVlog2 tk pg vd va s
  | .vexp2 tk pg vd va => Sys2Proof.Machine.execVexp2 tk pg vd va s
  | .vperm tk pg vd va vb => Sys2Proof.Machine.execVperm tk pg vd va vb s
  | .vbcA tk pg vd aS => Sys2Proof.Machine.execVbcA tk pg vd aS s
  | .vbcLane tk pg vd va k => Sys2Proof.Machine.execVbcLane tk pg vd va k s
  | .vmaxi tk pg vd va vb => Sys2Proof.Machine.execVmaxi tk pg vd va vb s
  | .vsum tk pg vd va => Sys2Proof.Machine.execVsum tk pg vd va s
  | .vrng tk pg vd va vb => Sys2Proof.Machine.execVrng tk pg vd va vb s
  | .vld tk pg vd aB off => Sys2Proof.Machine.execVld tk pg vd aB off s
  | .vst tk pg vs aB off => Sys2Proof.Machine.execVst tk pg vs aB off s
  | .vmvaLane tk aD va k => Sys2Proof.Machine.execVmvaLane tk aD va k s
  | .vmvaVsh tk aD => Sys2Proof.Machine.execVmvaVsh tk aD s
  | .vsetsh tk ty pack cnt => Sys2Proof.Machine.execVsetsh tk ty pack cnt s
  | .vsetshReg tk ty pack aC => Sys2Proof.Machine.execVsetshReg tk ty pack aC s
  | .vport tk port aB aR => Sys2Proof.Machine.execVport tk port aB aR s
  | .vportIdle tk port => Sys2Proof.Machine.execVportIdle tk port s
  | .vrep tk count sd sa sb => Sys2Proof.Machine.execVrep tk count sd sa sb s
  | .vrepReg tk aC sd sa sb => Sys2Proof.Machine.execVrepReg tk aC sd sa sb s
  | .plogAnd tk pd pa pb => Sys2Proof.Machine.execPlogAnd tk pd pa pb s
  | .plogOr tk pd pa pb => Sys2Proof.Machine.execPlogOr tk pd pa pb s
  | .plogXor tk pd pa pb => Sys2Proof.Machine.execPlogXor tk pd pa pb s
  | .plogAndn tk pd pa pb => Sys2Proof.Machine.execPlogAndn tk pd pa pb s
  | .plogNot tk pd pa => Sys2Proof.Machine.execPlogNot tk pd pa s
  | .vrqnt tk pg vd va vb => Sys2Proof.Machine.execVrqnt tk pg vd va vb s
  | .vclamp tk pg vd va vb => Sys2Proof.Machine.execVclamp tk pg vd va vb s
  | .vpopc tk pg vd va => Sys2Proof.Machine.execVpopc tk pg vd va s
  | .mlease tk => Sys2Proof.Machine.execMlease tk s
  | .mfree tk => Sys2Proof.Machine.execMfree tk s
  | .msetImage tk cls idx aS => Sys2Proof.Machine.execMsetImage tk cls idx aS s
  | .msetField tk cls idx field aS => Sys2Proof.Machine.execMsetField tk cls idx field aS s
  | .mzero tk mask => Sys2Proof.Machine.execMzero tk mask s
  | .mma tk t ra rb n ov ck => Sys2Proof.Machine.execMma tk t ra rb n ov ck s
  | .mmag tk t ra rb n ov ck => Sys2Proof.Machine.execMmag tk t ra rb n ov ck s
  | .mhad tk rd rs order sign => Sys2Proof.Machine.execMhad tk rd rs order sign s
  | .mdrain tk t dd => Sys2Proof.Machine.execMdrain tk t dd s
  | .mtag tk t aP => Sys2Proof.Machine.execMtag tk t aP s
  | .mtagChk tk aP => Sys2Proof.Machine.execMtagChk tk aP s
  | .mreplay tk t aP => Sys2Proof.Machine.execMreplay tk t aP s
  | .mreplayChk tk t => Sys2Proof.Machine.execMreplayChk tk t s
  | .mchk tk t => Sys2Proof.Machine.execMchk tk t s
  | .mringReset tk rg => Sys2Proof.Machine.execMringReset tk rg s
  | .mringPop tk rg => Sys2Proof.Machine.execMringPop tk rg s
  | .mringRead tk rg aD => Sys2Proof.Machine.execMringRead tk rg aD s
  | .tld tk td aP aB tr tg cv ck rg => Sys2Proof.Machine.execTld tk td aP aB tr tg cv ck rg s
  | .tst tk td aP aB tr tg cv ck => Sys2Proof.Machine.execTst tk td aP aB tr tg cv ck s
  | .tcpy tk td aP aB tr tg rg => Sys2Proof.Machine.execTcpy tk td aP aB tr tg rg s
  | .tsend tk td aP aB => Sys2Proof.Machine.execTsend tk td aP aB s
  | .tadd tk td aP aB => Sys2Proof.Machine.execTadd tk td aP aB s
  | .tgat tk td aP aB cv => Sys2Proof.Machine.execTgat tk td aP aB cv s
  | .tsct tk td aP aB cv => Sys2Proof.Machine.execTsct tk td aP aB cv s
  | .tcrc tk td aB => Sys2Proof.Machine.execTcrc tk td aB s
  | .tdesc tk td aP => Sys2Proof.Machine.execTdesc tk td aP s
  | .ttouch tk td => Sys2Proof.Machine.execTtouch tk td s
  | .eend => Sys2Proof.Machine.execEend s
  | .emov d a => Sys2Proof.Machine.execEmov d a s
  | .eli d imm => Sys2Proof.Machine.execEli d imm s
  | .eadd d a b => Sys2Proof.Machine.execEadd d a b s
  | .esub d a b => Sys2Proof.Machine.execEsub d a b s
  | .emul d a b => Sys2Proof.Machine.execEmul d a b s
  | .emin d a b => Sys2Proof.Machine.execEmin d a b s
  | .emax d a b => Sys2Proof.Machine.execEmax d a b s
  | .eand d a b => Sys2Proof.Machine.execEand d a b s
  | .eor d a b => Sys2Proof.Machine.execEor d a b s
  | .eshl d a b => Sys2Proof.Machine.execEshl d a b s
  | .eshr d a b => Sys2Proof.Machine.execEshr d a b s
  | .ecmp d a b cond => Sys2Proof.Machine.execEcmp d a b cond s
  | .esel d a b e => Sys2Proof.Machine.execEsel d a b e s
  | .emsg a => Sys2Proof.Machine.execEmsg a s
  | .efin a => Sys2Proof.Machine.execEfin a s
  | .tokenPush => Sys2Proof.Machine.execTokenPush s
  | .tokenTimeout => Sys2Proof.Machine.execTokenTimeout s
  | .barTimeout => Sys2Proof.Machine.execBarTimeout s
  | .mboxTimeout => Sys2Proof.Machine.execMboxTimeout s
  | .combineUpdate core => Sys2Proof.Machine.execCombineUpdate core s
  | .transferRetire core crew st => Sys2Proof.Machine.execTransferRetire core crew st s
  | .transferFault core crew st => Sys2Proof.Machine.execTransferFault core crew st s
  | .matrixChunk core crew => Sys2Proof.Machine.execMatrixChunk core crew s
  | .epochBoundary => Sys2Proof.Machine.execEpochBoundary s
  | .calendarFrame => Sys2Proof.Machine.execCalendarFrame s
  | .portbudPeriod => Sys2Proof.Machine.execPortbudPeriod s
  | .fwshareWindow => Sys2Proof.Machine.execFwshareWindow s
  | .dispatchTeam => Sys2Proof.Machine.execDispatchTeam s
  | .blockStart ctx launch team => Sys2Proof.Machine.execBlockStart ctx launch team s
  | .gmaskComplete die h => Sys2Proof.Machine.execGmaskComplete die h s
  | .samplerServe die => Sys2Proof.Machine.execSamplerServe die s
  | .hingePushSuperstep core crew => Sys2Proof.Machine.execHingePushSuperstep core crew s
  | .hingePullSuperstep core crew => Sys2Proof.Machine.execHingePullSuperstep core crew s
  | .hingeFinalize core crew => Sys2Proof.Machine.execHingeFinalize core crew s
  | .hingeCompletion core crew => Sys2Proof.Machine.execHingeCompletion core crew s
  | .trapEntry core => Sys2Proof.Machine.execTrapEntry core s
  | .firmwareStop core => Sys2Proof.Machine.execFirmwareStop core s
  | .contextSave ctx => Sys2Proof.Machine.execContextSave ctx s
  | .resumeRestore ctx => Sys2Proof.Machine.execResumeRestore ctx s
  | .bootStart => Sys2Proof.Machine.execBootStart s
  | .ready => Sys2Proof.Machine.execReady s
  | .readyTimeout => Sys2Proof.Machine.execReadyTimeout s
  | .fatalCondition => Sys2Proof.Machine.execFatalCondition s
  | .powerCheck watts => Sys2Proof.Machine.execPowerCheck watts s
  | .powerShutdown => Sys2Proof.Machine.execPowerShutdown s
  | .frameDrop port => Sys2Proof.Machine.execFrameDrop port s
  | .hostRmaWrite port ctx va bytes => Sys2Proof.Machine.execHostRmaWrite port ctx va bytes s
  | .hostRmaRead port ctx va n => Sys2Proof.Machine.execHostRmaRead port ctx va n s
  | .remotePut pa bytes => Sys2Proof.Machine.execRemotePut pa bytes s
  | .putAck port put ok => Sys2Proof.Machine.execPutAck port put ok s
  | .remoteGet pa => Sys2Proof.Machine.execRemoteGet pa s
  | .scpUnknownOpcode m => Sys2Proof.Machine.execScpUnknownOpcode m s
  | .sessionOpen m => Sys2Proof.Machine.execSessionOpen m s
  | .slotLoad m => Sys2Proof.Machine.execSlotLoad m s
  | .slotPin m => Sys2Proof.Machine.execSlotPin m s
  | .slotRevoke m => Sys2Proof.Machine.execSlotRevoke m s
  | .invoke m => Sys2Proof.Machine.execInvoke m s
  | .contractSet m => Sys2Proof.Machine.execContractSet m s
  | .contractSetParams m => Sys2Proof.Machine.execContractSetParams m s
  | .contractSetPeer m => Sys2Proof.Machine.execContractSetPeer m s
  | .contractSetDevid m => Sys2Proof.Machine.execContractSetDevid m s
  | .contractSetKey m => Sys2Proof.Machine.execContractSetKey m s
  | .map m => Sys2Proof.Machine.execMap m s
  | .unmap m => Sys2Proof.Machine.execUnmap m s
  | .migratePage m => Sys2Proof.Machine.execMigratePage m s
  | .migrateExport m => Sys2Proof.Machine.execMigrateExport m s
  | .migrateImport m => Sys2Proof.Machine.execMigrateImport m s
  | .keyLoad m => Sys2Proof.Machine.execKeyLoad m s
  | .keyErase m => Sys2Proof.Machine.execKeyErase m s
  | .preempt m => Sys2Proof.Machine.execPreempt m s
  | .resume m => Sys2Proof.Machine.execResume m s
  | .resumeRetry m => Sys2Proof.Machine.execResumeRetry m s
  | .resumeRefuse m => Sys2Proof.Machine.execResumeRefuse m s
  | .ctxReset m => Sys2Proof.Machine.execCtxReset m s
  | .resync m => Sys2Proof.Machine.execResync m s
  | .telemetryPower m => Sys2Proof.Machine.execTelemetryPower m s
  | .telemetryShutter m => Sys2Proof.Machine.execTelemetryShutter m s
  | .telemetryFaults m => Sys2Proof.Machine.execTelemetryFaults m s
  | .telemetryPorts m => Sys2Proof.Machine.execTelemetryPorts m s
  | .fwUpdate m => Sys2Proof.Machine.execFwUpdate m s
  | .guiltClear m => Sys2Proof.Machine.execGuiltClear m s
  | .calendarSet m => Sys2Proof.Machine.execCalendarSet m s
  | .illegalOp => Sys2Proof.Machine.execIllegalOp s
  | .instPerm addr => Sys2Proof.Machine.execInstPerm addr s
  | .powerLoss => Sys2Proof.Machine.execPowerLoss s
  | .getResponse port core peer pa answer => Sys2Proof.Machine.execGetResponse port core peer pa answer s

end Sys2Proof.Machine
end

