-- ==== Sys2Proof/Machine/Turns.lean ====
section
/-! DEFINITION. The turns of the machine (log 1): the order that the spec fixes among the agents of one clock, a sequencer's turn,
the firmware context's (R184, R320) and Hinge's next word (R250), the end of a clock (R96, R171, R181, R216), and what reaches
the module from outside (R303, R319). -/

namespace Sys2Proof.Machine

/-- The combine ports' updates of a clock (R96). -/
def State.combineAll (s : State) : State := coreIds.foldl State.combineCore s

/-! ### The order within a clock -/

/-- A place in the order of a clock: the class of the work, and the place of its agent within the class. -/
def place (cls within : Nat) : Nat := cls * 65536 + within

/-- Crews in the order of core and crew (R99, R102, R235). -/
def crewNo (core : CoreId) (crew : CrewIx) : Nat := 4 * core.val + crew.val

/-- A V3 word whose destination is an output port stores to the pool (R109). -/
def storesByPort (w : W32) : Bool :=
  let major := bits w.toNat 22 6
  ((12 ≤ major && major ≤ 37) || (45 ≤ major && major ≤ 47)) && 60 ≤ bits w.toNat 13 6 && bits w.toNat 13 6 ≤ 61

/-- Where a word stands in its clock. A transfer takes its bank locks and its ring slot first, L's before S's (R110, R137); a plain
store comes before every plain read and every update of a barrier object (R197); X words that reach a shared unit go by core
and crew (R99, R101, R102, R105, R235); a phase is tested after the clock's updates (R197). -/
def Cur.wordPlace (cur : Cur) (w : W32) (i : Instr) : Nat :=
  let who := crewNo cur.core cur.crew
  match i with
  | .tld .. | .tst .. | .tcpy .. | .tsend .. | .tadd .. | .tgat .. | .tsct .. | .tcrc .. =>
    place (if cur.role = .l then 0 else 1) who
  | .pst .. | .pfst .. | .vst .. => place 2 0
  | .bwait .. | .btest .. => place 10 0
  | _ =>
    if cur.role = .x then place 3 who
    else if cur.role = .c && storesByPort w then place 2 0
    else place 4 0

/-- The combine that a Hinge is about to make goes to another block, be it of the same core: a remote operation (R101, R253, R254). -/
def State.hingeFar (s : State) (core : CoreId) : Bool :=
  match (s.core core).hingeCur with
  | none => false
  | some k =>
    let s := s.actAs core k .hinge
    match s.hgRun.eval with
    | none => false
    | some v => v.result.isSome && v.counted && match s.hgOwner v.target with
      | some q => q.1 ≠ core || q.2.1 ≠ k
      | none => false

/-- A transfer in flight writes in another core. -/
def State.xferFar (s : State) (core : CoreId) (crew : CrewIx) (st : XferStream) (n : Nat) : Bool :=
  match ((s.crewAt core crew).xq (xferRole st).stream)[n]? with
  | some x => x.dstCore ≠ core
  | none => false

/-- Where bank locks stand that are taken after a word's issue: before every access of C's (R110). -/
def lockPlace : Nat := place 1 65535

/-- The next thing a transfer in flight does is to lock the banks that it sends to (R162). -/
def State.takesLock (s : State) (core : CoreId) (crew : CrewIx) (st : XferStream) (n : Nat) : Bool :=
  let s := s.actAs core crew (xferRole st)
  match s.xq[n]? with
  | some x => s.farDue x
  | none => false

/-- Where a copy engine stands: 0 before 1, and what goes to another core after both (R101, R156); a lock that it takes comes first. -/
def State.enginePlace (s : State) (core : CoreId) (crew : CrewIx) (st : XferStream) (n : Nat) : Nat :=
  if s.takesLock core crew st n then lockPlace
  else if s.xferFar core crew st n then place 8 0 else if xferRole st = .l then place 6 0 else place 7 0

/-- Where the turns that are no word stand: the array, which locks tiles, before C's accesses (R110, R138), Hinge after X, the engines
after Hinge, what goes to another core after them, and then the updates of barrier objects (R101, R156, R197). The others have no
place. -/
def State.turnPlace (s : State) (t : Turn) : Option Nat :=
  match t with
  | .hinge core => some (if s.hingeFar core then place 8 0 else place 5 0)
  | .event (.matrixChunk ..) => some lockPlace
  | .move core crew st n _ _ => some (s.enginePlace core crew st n)
  | .event (.hingePushSuperstep core _) | .event (.hingePullSuperstep core _) | .event (.hingeFinalize core _)
  | .event (.hingeCompletion core _) => some (if s.hingeFar core then place 8 0 else place 5 0)
  | .event (.transferRetire core crew st) | .event (.transferFault core crew st) => some (s.enginePlace core crew st 0)
  | .event (.combineUpdate _) | .event (.gmaskComplete ..) => some (place 9 0)
  | _ => none

/-- Work has its place in the clock: what would come before work already done in it waits for the next clock, and anything goes on
otherwise. -/
def State.inOrder (s : State) (p : Nat) (k : State → Host.Outcome State Fault Refusal) : Host.Outcome State Fault Refusal :=
  if p < s.pos then .next s else k { s with pos := p }

/-! ### A word: fetch, decoding, execution -/

/-- The word at an agent's pc is fetched, decoded and, in its place in the clock, executed on what `before` makes of the state: a fetch
without permission faults INST_PERM (R286), an uncorrectable line HBM_ECC (R303), and a word that fails decoding ILLEGAL_OP (R44). -/
def State.runAfter (s : State) (before : Instr → State → State) : Host.Outcome State Fault Refusal :=
  match s.fetch s.pc with
  | .stop f => .fault f
  | .perm => execInstPerm s.pc s
  | .ecc => .next (raise (xlatTrap codeHbmEcc s.pc.toNat .fetch) s)
  | .word w line x => match decode s.cur.role w with
    | none => execIllegalOp (s.holdLine s.pc line x)
    | some i => s.inOrder (s.cur.wordPlace w i) fun s => exec i (before i (s.holdLine s.pc line x))

/-- The word at an agent's pc has its place in this clock still before it. -/
def State.wordInOrder (s : State) : Bool :=
  match s.fetch s.pc with
  | .word w _ _ => (match decode s.cur.role w with
    | some i => s.pos ≤ s.cur.wordPlace w i
    | none => true)
  | .stop _ | .perm | .ecc => true

/-- The next state of an outcome, and the state itself where there is none. -/
def nextOf (s : State) (o : Host.Outcome State Fault Refusal) : State :=
  match o with
  | .next t => t
  | .fault _ | .refused _ => s

/-- The oldest held push can be performed now (R180). -/
def State.pushDue (s : State) : Bool :=
  match s.seq.held with
  | h :: _ => s.crew.pushReady s.cur.role.stream h && s.crew.pushFits s.cur.role.stream h
  | [] => false

/-- The crew may issue: its block has started and has not halted for a pre-emption, and no trap saved by one waits to be presented
(R170, R299, R300). -/
def State.crewMay (s : State) : Bool :=
  (match s.crew.block with
    | some b => b.started
    | none => false)
  && !s.frozen && !s.here.traps.any fun t => t.crew == s.cur.crew && t.restored

/-- The crew issues: it may, and its entry words are issued (R170). -/
def State.crewLive (s : State) : Bool := s.crewMay && !s.crew.entry

/-- A sequencer waits at a mailbox (R99). -/
def Seq.atBox (q : Seq) : Bool :=
  q.status = .running && match q.wait with
    | some w => (match w.kind with
      | .mailbox _ => true
      | .pops | .push | .barrier _ | .other => false)
    | none => false

/-- An X that waits at a `bwait`. -/
def Seq.atBarrier (q : Seq) : Bool :=
  q.status = .running && match q.wait with
    | some w => (match w.kind with
      | .barrier _ => true
      | .pops | .push | .mailbox _ | .other => false)
    | none => false

/-- A wait in progress that has outlasted the limit traps (R87, R182, R95, R99); `k` goes on otherwise. A mailbox word is tried once
more, and traps when it still waits. -/
def State.orTimeout (s : State) (k : Host.Outcome State Fault Refusal) : Host.Outcome State Fault Refusal :=
  match s.timedOut with
  | some .pops | some .push => exec .tokenTimeout s
  | some (.barrier _) => exec .barTimeout s
  | some (.mailbox _) => (match k with
    | .next t => if t.seq.atBox && t.seq.issued then exec .mboxTimeout s else k
    | .fault _ | .refused _ => k)
  | some .other | none => k

/-- Nothing of the sequencer comes before the word that it waits at. -/
def State.mayRetry (s : State) : Bool :=
  s.crewLive && s.seq.trapDue.isNone && !s.pushDue && !s.pushStuck && !s.seq.issued

/-- The X of a crew of the core, which waits at a mailbox, reaches it again: once in every clock, in the order of crews (R99). -/
def State.retryBox (s : State) (core : CoreId) (k : CrewIx) : State :=
  let t : State := { s.actAs core k .x with pos := 0 }
  if t.seq.atBox && t.mayRetry then { nextOf t (t.orTimeout (t.runAfter fun _ s => s)) with cur := s.cur, pos := s.pos } else s

/-- What comes before a word in its clock: a word that tests a phase does so after this clock's updates (R197), and a mailbox word
follows those of lower crews that wait at one (R99). -/
def State.beforeWord (s : State) (i : Instr) : State :=
  match i with
  | .bwait .. | .btest .. => s.combineAll
  | .mbput .. | .mbget .. | .mbpoll .. =>
    (crewIxs.filter fun k => k.val < s.cur.crew.val).foldl (fun s k => s.retryBox s.cur.core k) s
  | _ => s

/-- The next word of an agent. -/
def State.runNext (s : State) : Host.Outcome State Fault Refusal := s.runAfter fun i s => s.beforeWord i

/-! ### A sequencer's turn (R177, R180, R300) -/

/-- A sequencer that may issue: the trap of its last word comes first, once its pushes are made (R19, R90). -/
def State.issueNext (s : State) : Host.Outcome State Fault Refusal :=
  match s.seq.trapDue with
  | some t =>
    .next (if s.seq.held.isEmpty then raise t (s.modSeq fun q => { q with trapDue := none }) else s.notePushWait)
  | none =>
    if s.pushStuck then .next s.notePushWait
    else if s.seq.issued then .next s
    else s.runNext

/-- The turn of the sequencer that the state names. While it is held in a trap it performs no push, be the commands of earlier words
retired meanwhile (DEDUCED, log 59). -/
def State.seqTurn (s : State) : Host.Outcome State Fault Refusal :=
  if !s.crewLive then .next s
  else match s.seq.status with
    | .idle | .trapped => .next s
    | .halted =>
      s.orTimeout (if s.pushDue then exec .tokenPush s else .next s.notePushWait)
    | .running =>
      s.orTimeout (if s.pushDue then exec .tokenPush s else s.issueNext)

/-! ### The firmware context's turn (R184, R320) -/

/-- The crews in ascending rotation after the one that gave the last slot. -/
def Fw.rotation (w : Fw) : List CrewIx :=
  (crewIxs.filter fun k => w.lastTaken.val < k.val) ++ crewIxs.filter fun k => k.val ≤ w.lastTaken.val

/-- The crew whose slot the firmware context takes: the next in rotation that has a slot left in this window, in a clock in which it
has issued no X word (R184). -/
def Core.slotFor (c : Core) : Option CrewIx :=
  (c.fw.rotation.find? fun k => c.fw.taken.get k < c.fw.share.toNat).filter fun k => !(c.crew k).seqX.issued

/-- A slot is taken: it counts toward the window, and that crew's X issues nothing in this clock (R184). -/
def Core.takeSlot (c : Core) (k : CrewIx) : Core :=
  { c with
    fw := { c.fw with taken := c.fw.taken.set k (c.fw.taken.get k + 1), lastTaken := k }
    crews := c.crews.set k { c.crew k with seqX := { (c.crew k).seqX with issued := true } } }

/-- What the firmware context does in a slot: the `eret` that ends a handler (log 13), or its next word. -/
def State.fwWord (s : State) : Host.Outcome State Fault Refusal :=
  if s.here.fw.eretDue then exec (.eret Tok.zero) s else s.orTimeout s.runNext

/-- The turn of the firmware context that the state names: idle, or with a word whose place in the clock has passed, it takes no slot;
before ready, when no crew runs, every slot is its own (R184; log 18). -/
def State.fwTurn (s : State) : Host.Outcome State Fault Refusal :=
  let w := s.here.fw
  if w.stopped || w.seq.issued || (!w.eretDue && w.seq.status ≠ .running) then .next s
  else if s.boot.stage ≠ .ready then s.fwWord
  else if !w.eretDue && s.timedOut.isNone && !s.wordInOrder then .next s
  else match s.here.slotFor with
    | none => .next s
    | some k => (s.modHere fun c => c.takeSlot k).fwWord

/-! ### Hinge's turn (R250) -/

/-- The word that Hinge of the core evaluates next: its run, its part and its index. -/
def Crew.edgeWord (c : Crew) : Option W32 :=
  match c.hinge.eval with
  | some e => if e.result.isSome then none else c.hinge.prog[e.index]?
  | none => none

/-- The turn of a core's Hinge within an evaluation. -/
def State.hingeTurn (s : State) (core : CoreId) : Host.Outcome State Fault Refusal :=
  match (s.core core).hingeCur with
  | none => .next s
  | some k =>
    let s := s.actAs core k .hinge
    match s.crew.edgeWord with
    | none => .next s
    | some w => match decode .hinge w with
      | none => .next s
      | some i => exec i s

/-! ### The end of a clock -/

/-- The count a queue has at the next clock (R181). -/
def Queue.commit (q : Queue) : Queue := { toks := q.toks ++ q.incoming, popped := 0, incoming := [] }

/-- A sequencer at the next clock. -/
def Seq.nextClock (q : Seq) : Seq := { q with issued := false }

/-- A sequencer of the crew is held in a trap (R296). -/
def Crew.anyTrapped (c : Crew) : Bool :=
  [c.seqX, c.seqL, c.seqC, c.seqS].any fun q => q.status = .trapped

/-- A crew at the next clock: its queues, its issue slots, and the clocks that a held trap takes from its waits (R296). -/
def Crew.nextClock (c : Crew) : Crew :=
  { c with
    queues := c.queues.map Queue.commit
    seqX := c.seqX.nextClock, seqL := c.seqL.nextClock, seqC := c.seqC.nextClock, seqS := c.seqS.nextClock
    trapHeld := c.trapHeld + c.anyTrapped.toNat }

/-- A core at the next clock. -/
def Core.nextClock (c : Core) : Core :=
  { c with
    settled := []
    crews := c.crews.map Crew.nextClock
    fw := { c.fw with seq := c.fw.seq.nextClock } }

/-- What is due as a clock begins: the calendar frame, the port budgets, the firmware window (R185, R305, R184). -/
def State.beginClock (s : State) : State :=
  let s := nextOf s (exec .calendarFrame s)
  let s := nextOf s (exec .portbudPeriod s)
  nextOf s (exec .fwshareWindow s)

/-- A blocked `bwait` reaches its object again in every clock, after its update (R197). -/
def State.retestBarriers (s : State) : State :=
  let cur := s.cur
  { (crewIds.filter fun q => (s.crewAt q.1 q.2).seqX.atBarrier).foldl (fun s q =>
    let s := s.actAs q.1 q.2 .x
    if !s.crewLive || s.seq.trapDue.isSome || s.pushDue || s.pushStuck then s
    else nextOf s (s.orTimeout s.runNext)) s with cur := cur }

/-- The mailbox words that still wait and have not been tried in this clock (R99). -/
def State.retryBoxes (s : State) : State := crewIds.foldl (fun s q => s.retryBox q.1 q.2) s

/-- The commands as the rows of the table that Table 19.3 gives a message: the row of another opcode or selector leaves the state. -/
def scpRows (m : ScpMsg) : List (State → Host.Outcome State Fault Refusal) :=
  [execScpUnknownOpcode m, execSessionOpen m, execSlotLoad m, execSlotPin m, execSlotRevoke m, execInvoke m, execContractSet m,
    execContractSetParams m, execContractSetPeer m, execContractSetDevid m, execContractSetKey m, execMap m, execUnmap m,
    execMigratePage m, execMigrateExport m, execMigrateImport m, execKeyLoad m, execKeyErase m, execPreempt m, execResume m,
    execResumeRetry m, execResumeRefuse m, execCtxReset m, execResync m, execTelemetryPower m, execTelemetryShutter m,
    execTelemetryFaults m, execTelemetryPorts m, execFwUpdate m, execGuiltClear m, execCalendarSet m]

/-- The oldest command that has not begun is applied (R310). -/
def State.applyNext (s : State) : State :=
  match s.npu.cmds.find? fun c => !c.begun with
  | some c => (scpRows c.msg).foldl (fun s f => nextOf s (f s)) s
  | none => s

/-- An accepted PREEMPT whose bound is reached takes effect, and the commands before it do so first, as far as they may (R299, R310;
log 32). -/
def State.preemptDue (s : State) : Nat → State
  | 0 => s
  | n + 1 =>
    if s.npu.cmds.any fun c => !c.begun && c.status = 0 && c.msg.opcode = 0x0B && c.at_ + haltClocks ≤ s.cycle then
      s.applyNext.preemptDue n
    else s

/-- The clocks of every core's array (R215). -/
def State.arrayClocks (s : State) : State :=
  let cur := s.cur
  { coreIds.foldl State.arrayClock s with cur := cur }

/-- Where the entry word of a sequencer stands in its clock. -/
def State.entryPlace (s : State) (core : CoreId) (crew : CrewIx) (st : Stream) : Nat :=
  let s := s.actAs core crew st.role
  match s.fetch s.pc with
  | .word w _ _ => (match decode s.cur.role w with
    | some i => s.cur.wordPlace w i
    | none => 0)
  | .stop _ | .perm | .ecc => 0

/-- A sequencer takes its place among others, by the places of their entry words. -/
def insertEntry (e : Nat × CoreId × CrewIx × Stream) : List (Nat × CoreId × CrewIx × Stream) → List (Nat × CoreId × CrewIx × Stream)
  | [] => [e]
  | h :: l => if e.1 < h.1 then e :: h :: l else h :: insertEntry e l

/-- ALL FOUR SEQUENCERS of a crew that has begun issue their entry words in the same clock, the first that it runs in (R170). -/
def State.enterCrews (s : State) : State :=
  match crewIds.filter fun q => (s.crewAt q.1 q.2).entry && (s.actAs q.1 q.2 .x).crewMay with
  | [] => s
  | q :: rest =>
    let t := (q :: rest).foldl (fun s q => s.modCrewAt q.1 q.2 fun c => { c with entry := false }) s
    let words := (q :: rest).flatMap fun q => streams.map fun st => (t.entryPlace q.1 q.2 st, q.1, q.2, st)
    { (words.foldl (fun l e => insertEntry e l) []).foldl (fun s e =>
      nextOf s (s.actAs e.2.1 e.2.2.1 e.2.2.2.role).seqTurn) t with cur := s.cur }

/-- A CLOCK ENDS: words that wait at mailboxes try them (R99), the combine ports update their objects (R96) and waiting `bwait`s test
them (R197), the arrays give their quanta (R215), an epoch boundary decides rungs (R216), teams start and crews halt that have reached
their bounds (R174, R299), blocks complete (R171), exports that waited for masks end (R235), queues take their new counts (R181), and
the next clock begins, in which the sequencers of the crews that have begun issue their entry words (R170); `cycle` counts from ready
(Table 5.1). -/
def State.clockTurn (s : State) : Host.Outcome State Fault Refusal :=
  let s := s.retryBoxes.combineAll.retestBarriers.arrayClocks
  let s := nextOf s (exec .epochBoundary s)
  let s := (s.startDue.preemptDue s.npu.cmds.length).haltLate.haltDue.completeBlocks.exportsDue
  let s : State := { s with
    cores := s.cores.map Core.nextClock
    cycle := if s.boot.stage = .ready then s.cycle + 1 else s.cycle
    quiet := true, pos := 0 }
  .next s.beginClock.enterCrews

/-! ### What reaches the module from outside (R303, R319) -/

/-- An error of a register that a duplicate repairs is counted for its crew's register file; another waits for the word that reads it (R303). -/
def State.regUpset (s : State) (core : CoreId) (crew : CrewIx) (file reg : Nat) (dup : Bool) : State :=
  if dup then s.modNpu fun n => { n with soft := countSoft 2 (8 * crewNo core crew + file) n.soft }
  else s.modCrewAt core crew fun c => { c with badRegs := (file, reg) :: c.badRegs }

/-! ### Events -/

/-- A row of the table that may come as a turn of its own: the steps of engines, of the N-die and of the outside. Words come
from memory, and what is due within a clock or a sequencer's turn comes there. -/
def isEvent (i : Instr) : Bool :=
  match i with
  | .combineUpdate .. | .transferRetire .. | .transferFault .. | .matrixChunk .. | .dispatchTeam | .blockStart ..
  | .gmaskComplete .. | .samplerServe .. | .hingePushSuperstep .. | .hingePullSuperstep .. | .hingeFinalize ..
  | .hingeCompletion .. | .trapEntry .. | .firmwareStop .. | .contextSave .. | .resumeRestore .. | .bootStart | .ready
  | .readyTimeout | .fatalCondition | .powerCheck .. | .powerShutdown | .powerLoss | .frameDrop .. | .hostRmaWrite ..
  | .hostRmaRead .. | .remotePut .. | .putAck .. | .remoteGet .. | .getResponse .. | .scpUnknownOpcode .. | .sessionOpen ..
  | .slotLoad .. | .slotPin .. | .slotRevoke .. | .invoke .. | .contractSet .. | .contractSetParams ..
  | .contractSetPeer .. | .contractSetDevid .. | .contractSetKey .. | .map .. | .unmap .. | .migratePage ..
  | .migrateExport .. | .migrateImport .. | .keyLoad .. | .keyErase .. | .preempt .. | .resume .. | .resumeRetry ..
  | .resumeRefuse .. | .ctxReset .. | .resync .. | .telemetryPower .. | .telemetryShutter .. | .telemetryFaults ..
  | .telemetryPorts .. | .fwUpdate .. | .guiltClear .. | .calendarSet .. => true
  | _ => false

/-- Whether a turn leaves the state as the dispatcher of this clock must find it (R176). -/
def keepsQuiet (t : Turn) : Bool :=
  match t with
  | .event .dispatchTeam | .idle => true
  | _ => false

/-- A turn that has no place in the order of its clock, or has it. -/
def State.turn (s : State) (t : Turn) : Host.Outcome State Fault Refusal :=
  match t with
  | .clock => s.clockTurn
  | .seq core crew st => (s.actAs core crew st.role).seqTurn
  | .fw core => (s.actAs core 0 .fw).fwTurn
  | .hinge core => s.hingeTurn core
  | .move core crew st n reads writes => s.engTurn core crew st n reads writes
  | .event i => if isEvent i then exec i s else .next s
  | .poolUpset core word =>
    .next (s.modCore core fun c => { c with badPool := if c.badPool.contains word then c.badPool else word :: c.badPool })
  | .hbmUpset word =>
    .next { s with mem := { s.mem with badHbm := if s.mem.badHbm.contains word then s.mem.badHbm else word :: s.mem.badHbm } }
  | .corrected pool unit => .next (s.modNpu fun n => { n with soft := countSoft (if pool then 0 else 1) unit n.soft })
  | .regUpset core crew file reg dup => .next (s.regUpset core crew file reg dup)
  | .temperature (some die) value => .next (s.modDie die fun d => { d with temp := value })
  | .temperature none value => .next (s.modNpu fun n => { n with temp := value })
  | .idle => .next s

/-- ONE TURN, in its place in the clock. -/
def State.runTurn (s : State) (t : Turn) : Host.Outcome State Fault Refusal :=
  match s.turnPlace t with
  | some p => s.inOrder p fun s => s.turn t
  | none => s.turn t

/-- Whose turn it is: the agenda's first, and where it is empty a free one (log 1). -/
def State.nextTurn (s : State) : Turn :=
  match s.agenda with
  | t :: _ => t
  | [] => Config.freeTurn s.tick

/-- The state that a turn runs in. -/
def State.forTurn (s : State) (t : Turn) : State :=
  { s with agenda := s.agenda.tail, tick := s.tick + 1, quiet := s.quiet && keepsQuiet t }

end Sys2Proof.Machine
end

