-- ==== Sys2Proof/Machine/Step.lean ====
section
/-! DEFINITION. One step of the machine, and placing an instruction where a step fetches it. -/

namespace Sys2Proof.Machine

/-- ONE STEP: the agent whose turn it is moves once (log 1). -/
def step (s : State) : Host.Outcome State Fault Refusal := (s.forTurn s.nextTurn).runTurn s.nextTurn

/-- The address at which `withFetchWord` places an instruction. -/
def placeAt : XWord := 0x10000

/-- A line of 64 bytes that begins with a word; the words after it are 0. -/
def lineOf (w : W32) : List Byte := wordBytes w ++ List.replicate 60 0

/-- A sequencer that holds the line of an instruction and stands at it: where it takes its next word from (R295). -/
def Seq.placed (w : W32) : Seq :=
  { Seq.idle with status := .running, pc := placeAt, line := some (placeAt, lineOf w) }

/-- A block of one launch of context 0 whose code holds one line. -/
def placedBlock : Block :=
  { ctx := 0, launch := 1, blockid := 0, teamid := 0, teamsz := 1, nblocks := 1, domid := 0, scopes := 3,
    b := Vector.replicate 16 0, slot := 0, cva := placeAt.toNat, words := 16, loader := 0, cref := false, revoked := false,
    started := true }

/-- The sequencer of a stream stands at an instruction, in a started block of crew 0 of core 0; the next turn is its. -/
def State.placeSeq (s : State) (st : Stream) (w : W32) : State :=
  let s := s.modCrewAt 0 0 fun c => { c.setSeq st (Seq.placed w) with block := some placedBlock }
  { s with agenda := .seq 0 0 st :: s.agenda }

/-- The firmware context of core 0 stands at an instruction; the next turn is its. -/
def State.placeFw (s : State) (w : W32) : State :=
  let s := s.modCore 0 fun c => { c with fw := { c.fw with seq := Seq.placed w, stopped := false, eretDue := false } }
  { s with agenda := .fw 0 :: s.agenda }

/-- Hinge of core 0 evaluates an edge program that begins with a word; the next turn is its. -/
def State.placeHinge (s : State) (w : W32) : State :=
  let e : HingeEval := { finished := false, target := 0, index := 0, e := Vector.replicate 16 0, result := none, counted := false }
  let s := s.modCrewAt 0 0 fun c => { c with hinge := { c.hinge with state := .running, prog := [w], eval := some e } }
  let s := s.modCore 0 fun c => { c with hingeCur := some 0 }
  { s with agenda := .hinge 0 :: s.agenda }

/-- The state with an instruction placed. -/
def State.placeWord (s : State) (word : W32) : State :=
  match tableReading word with
  | some (.x, _) | none => s.placeSeq .x word
  | some (.l, _) => s.placeSeq .l word
  | some (.c, _) => s.placeSeq .c word
  | some (.s, _) => s.placeSeq .s word
  | some (.fw, _) => s.placeFw word
  | some (.hinge, _) => s.placeHinge word

/-- The state with an instruction stored where the very next step fetches it (logs 3 and 14): the words of the opcode table
belong to different agents, and the one whose word it reads as takes it, at the beginning of a clock's order. -/
def State.withFetchWord (s : State) (nbits w : Nat) : State := { s with pos := 0 }.placeWord (tableWord nbits w)

end Sys2Proof.Machine
end

