-- ==== Sys2Proof/Safety.lean ====
section
/-! DEFINITION. The terms that claims use: what a word changes apart from sequencing and tokens, when a word issues, what
it is for an instruction to run, and the machine's invariants. -/

namespace Sys2Proof

/-- The token bits of an instruction: those of its word, and none where it is no word or its word has none (R11, R43, R58). -/
def Instr.tokens : Instr → Option Tok
  | .tok tk .. | .jmp tk .. | .loop tk .. | .loopRegX tk .. | .loopReg tk .. | .loopr tk .. | .looprReg tk .. | .loopx tk ..
  | .brc tk .. | .halt tk .. | .wait tk .. | .rstp tk .. | .add tk .. | .sub tk .. | .and tk .. | .or tk .. | .xor tk ..
  | .shl tk .. | .shr tk .. | .sra tk .. | .slt tk .. | .sltn tk .. | .min tk .. | .max tk .. | .minn tk .. | .maxn tk ..
  | .mul tk .. | .mulh tk .. | .mulhn tk .. | .div tk .. | .divn tk .. | .rem tk .. | .remn tk .. | .clz tk .. | .ctz tk ..
  | .popc tk .. | .bswap tk .. | .sextb tk .. | .sexth tk .. | .sextw tk .. | .zextw tk .. | .andn tk .. | .orn tk ..
  | .addi tk .. | .andi tk .. | .ori tk .. | .xori tk .. | .shiShl tk .. | .shiShr tk .. | .shiSra tk .. | .slti tk ..
  | .sltni tk .. | .lim tk .. | .lims tk .. | .fadd tk .. | .fsub tk .. | .fmul tk .. | .fdiv tk .. | .fsqrt tk ..
  | .fmin tk .. | .fmax tk .. | .fabs tk .. | .fneg tk .. | .fsgnj tk .. | .ffma tk .. | .ffms tk .. | .ffnma tk ..
  | .ffnms tk .. | .fcvtxf tk .. | .fcvtxfz tk .. | .fcvtfx tk .. | .fmvxf tk .. | .fmvfx tk .. | .feq tk .. | .flt tk ..
  | .fle tk .. | .ld tk .. | .ldn tk .. | .st tk .. | .pld tk .. | .pldn tk .. | .pst tk .. | .fld tk .. | .fst tk ..
  | .pfld tk .. | .pfst tk .. | .beq tk .. | .bne tk .. | .blt tk .. | .bge tk .. | .bltn tk .. | .bgen tk .. | .call tk ..
  | .jr tk .. | .csrr tk .. | .csrw tk .. | .waitlimWrite tk .. | .desctabWrite tk .. | .fwshareWrite tk .. | .trap tk ..
  | .eret tk .. | .binit tk .. | .barv tk .. | .bard tk .. | .bart tk .. | .bwait tk .. | .btest tk .. | .pub tk ..
  | .acq tk .. | .mbput tk .. | .mbget tk .. | .mbpoll tk .. | .discard tk .. | .pamoAdd tk .. | .pamoAddd tk ..
  | .pamoMin tk .. | .pamoMax tk .. | .pamoMinn tk .. | .pamoMaxn tk .. | .pamoSwp tk .. | .pamoCas tk .. | .gnew tk ..
  | .gfork tk .. | .gadv tk .. | .gmask tk .. | .groll tk .. | .gfree tk .. | .gstat tk .. | .sdraw tk .. | .sstat tk ..
  | .hset tk .. | .hrun tk .. | .hstat tk .. | .hforce tk .. | .aAdd tk .. | .aSub tk .. | .aShl tk .. | .aShr tk ..
  | .aSra tk .. | .aMul tk .. | .aMin tk .. | .aMax tk .. | .aAnd tk .. | .aOr tk .. | .aXor tk .. | .aaddi tk .. | .ali tk ..
  | .alis tk .. | .vadd tk .. | .vsub tk .. | .vmul tk .. | .vfma tk .. | .vmin tk .. | .vmax tk .. | .vabs tk .. | .vneg tk ..
  | .vand tk .. | .vor tk .. | .vxor tk .. | .vshl tk .. | .vshr tk .. | .vsra tk .. | .vcmpeq tk .. | .vcmplt tk ..
  | .vcmple tk .. | .vsel tk .. | .vcvt tk .. | .vcvts tk .. | .vrsq tk .. | .vrcp tk .. | .vlog2 tk .. | .vexp2 tk ..
  | .vperm tk .. | .vbcA tk .. | .vbcLane tk .. | .vmaxi tk .. | .vsum tk .. | .vrng tk .. | .vld tk .. | .vst tk ..
  | .vmvaLane tk .. | .vmvaVsh tk .. | .vsetsh tk .. | .vsetshReg tk .. | .vport tk .. | .vportIdle tk .. | .vrep tk ..
  | .vrepReg tk .. | .plogAnd tk .. | .plogOr tk .. | .plogXor tk .. | .plogAndn tk .. | .plogNot tk .. | .vrqnt tk ..
  | .vclamp tk .. | .vpopc tk .. | .mlease tk .. | .mfree tk .. | .msetImage tk .. | .msetField tk .. | .mzero tk ..
  | .mma tk .. | .mmag tk .. | .mhad tk .. | .mdrain tk .. | .mtag tk .. | .mtagChk tk .. | .mreplay tk .. | .mreplayChk tk ..
  | .mchk tk .. | .mringReset tk .. | .mringPop tk .. | .mringRead tk .. | .tld tk .. | .tst tk .. | .tcpy tk .. | .tsend tk ..
  | .tadd tk .. | .tgat tk .. | .tsct tk .. | .tcrc tk .. | .tdesc tk .. | .ttouch tk .. => some tk
  | .nop .. | .eend .. | .emov .. | .eli .. | .eadd .. | .esub .. | .emul .. | .emin .. | .emax .. | .eand .. | .eor ..
  | .eshl .. | .eshr .. | .ecmp .. | .esel .. | .emsg .. | .efin .. | .tokenPush .. | .tokenTimeout .. | .barTimeout ..
  | .mboxTimeout .. | .combineUpdate .. | .transferRetire .. | .transferFault .. | .matrixChunk .. | .epochBoundary ..
  | .calendarFrame .. | .portbudPeriod .. | .fwshareWindow .. | .dispatchTeam .. | .blockStart .. | .gmaskComplete ..
  | .samplerServe .. | .hingePushSuperstep .. | .hingePullSuperstep .. | .hingeFinalize .. | .hingeCompletion ..
  | .trapEntry .. | .firmwareStop .. | .contextSave .. | .resumeRestore .. | .bootStart .. | .ready .. | .readyTimeout ..
  | .fatalCondition .. | .powerCheck .. | .powerShutdown .. | .frameDrop .. | .hostRmaWrite .. | .hostRmaRead ..
  | .remotePut .. | .putAck .. | .remoteGet .. | .scpUnknownOpcode .. | .sessionOpen .. | .slotLoad .. | .slotPin ..
  | .slotRevoke .. | .invoke .. | .contractSet .. | .contractSetParams .. | .contractSetPeer .. | .contractSetDevid ..
  | .contractSetKey .. | .map .. | .unmap .. | .migratePage .. | .migrateExport .. | .migrateImport .. | .keyLoad ..
  | .keyErase .. | .preempt .. | .resume .. | .resumeRetry .. | .resumeRefuse .. | .ctxReset .. | .resync ..
  | .telemetryPower .. | .telemetryShutter .. | .telemetryFaults .. | .telemetryPorts .. | .fwUpdate .. | .guiltClear ..
  | .calendarSet .. | .illegalOp .. | .instPerm .. | .powerLoss .. | .getResponse .. => none

end Sys2Proof

namespace Sys2Proof.Machine

/-! ### Sequencing and tokens set apart -/

/-- A sequencer without its place in the program and its tokens: what R59, R62, R178 and R180 change around the effect of
a word. -/
def Seq.bare (q : Seq) : Seq :=
  { q with
    pc := 0, loops := [], wait := none, pushWait := none, trapDue := none, held := [], issued := false, acq := [], reported := [],
    popLog := [] }

/-- A queue with nothing in it. -/
def Queue.empty : Queue := { toks := [], popped := 0, incoming := [] }

/-- A crew without its queues and credits, and the rotation bases, which `loopr` moves (R64). -/
def Crew.loose (c : Crew) : Crew :=
  { c with queues := Vector.replicate 8 Queue.empty, creditL := [], creditS := [], vbase := 0, pbase := 0 }

/-- THE STATE APART FROM ISSUE: everything the machine holds but the executing agent's place in its program and its crew's
tokens. Two states that agree apart from issue hold the same registers, memory, descriptors and engines. -/
def State.apart (s : State) : State := (s.modSeq Seq.bare).modCrew Crew.loose

/-! ### When a word issues and what running is -/

/-- No cursor loop has its last word at the pc: closing such a loop reads its next row pointers (R65). -/
def State.noRowClose (s : State) : Prop := ∀ e ∈ s.seq.loops, e.kind = .cursor → e.last ≠ s.pc

/-- No loop has its last word at the pc (R62). -/
def State.inLine (s : State) : Prop := ∀ e ∈ s.seq.loops, e.last ≠ s.pc

/-- Nothing but its own checks keeps a word with these token bits from its effect: the tokens it pops are there (R178), no
register of the crew has a parity error (R303), and C's credits have room (R69). -/
structure State.Issues (s : State) (tk : Tok) : Prop where
  tokens : s.popsReady (popsOf tk) = true
  parity : s.crew.badRegs = []
  credits : s.creditFull (popsOf tk) = false

/-- The word issues, and no cursor loop closes at it. -/
structure State.Clear (s : State) (tk : Tok) : Prop extends s.Issues tk where
  rows : s.noRowClose

/-- The outcome is a next state that is `t` apart from issue; the pc is at the next word unless a loop closes here (R59,
R62). -/
def Reaches (o : Host.Outcome State Fault Refusal) (s t : State) : Prop :=
  ∃ u, o = .next u ∧ u.apart = t.apart ∧ (s.inLine → u.pc = s.pc + 4)

/-- AN INSTRUCTION RUNS: `exec` answers a next state, which is `t` apart from issue. -/
def Runs (i : Instr) (s t : State) : Prop := Reaches (exec i s) s t

/-- An instruction traps: the state before it, with the trap raised (R59, R89). -/
def Traps (i : Instr) (s : State) (t : TrapReq) : Prop := exec i s = .next (raise t s)

/-- `exec` answers a next state of which `p` holds. -/
def Answers (i : Instr) (s : State) (p : State → Prop) : Prop := ∃ u, exec i s = .next u ∧ p u

/-- A word waits: it issues nothing and changes nothing but its sequencer's record of the wait. -/
def Waits (i : Instr) (s : State) : Prop := Answers i s fun u => u.apart = s.apart ∧ u.pc = s.pc

/-- What a transfer to a target leaves of the active loops: those whose bodies hold it, and every loop ended is nested
inside one that does not, or is that one (R60). Innermost first. -/
def LoopsLeft (target : XWord) (old new : List LoopEntry) : Prop :=
  (∀ e ∈ new, e.holds target = true) ∧ ∃ ended, old = ended ++ new ∧ ∀ e ∈ ended.getLast?, e.holds target = false

/-- A word transfers control: the state is `t` apart from issue, the pc is at the target, and loops end as R60 says. -/
def Jumps (i : Instr) (s t : State) (target : XWord) : Prop :=
  Answers i s fun u => u.apart = t.apart ∧ u.pc = target ∧ LoopsLeft target s.seq.loops u.seq.loops

/-- An aligned access of `n` bytes at an offset of the allotment, in no locked bank (R80, R156). -/
structure State.PoolOpen (s : State) (off n : Nat) : Prop where
  checked : poolCheck s.part off n n = none
  unlocked : s.here.lockedFor none (poolPlace s.part off) n = false

/-- And with no uncorrectable word among its bytes (R303). -/
structure State.PoolFree (s : State) (off n : Nat) : Prop extends s.PoolOpen off n where
  sound : s.here.poolBad (poolPlace s.part off) n = false

/-- The bytes of the pool of a core from a place. -/
def State.poolBytes (s : State) (place n : Nat) : List Byte := memGets s.here.pool place n

/-! ### Invariants -/

/-- ANTI-ROLLBACK (R324): the image of a module that starts or is ready has at least the security version that the fuses
demand. -/
def State.SvnOk (s : State) : Prop :=
  s.boot.stage = .starting ∨ s.boot.stage = .ready → s.boot.minSvn ≤ imSvn s.boot.runningHeader

end Sys2Proof.Machine
end

