-- ==== Sys2Proof/Certificates/Slice0/Obligations.lean ====
section
/-! DEFINITION. The statements for the provers (OBLIGATIONS.json). -/

section Statements

open Sys2Proof Sys2Proof.Machine

/-! ### Registers and sequencing -/

/-- R59, R8: a write to `x0` or `a0` is discarded, both read zero, and `p0` reads all true and keeps that. -/
def Obligations.HardWiredRegisters : Prop :=
  ∀ (s : State) (v : XWord) (w : AWord) (p : PWord),
    s.setX 0 v = s ∧ s.getX 0 = 0 ∧ s.setA 0 w = s ∧ s.getA 0 = 0 ∧ s.setP 0 p = s ∧ s.getP 0 = BitVec.allOnes 64

/-- R61, R67, R68: `nop` does nothing and a bare token word only moves tokens; `halt` stops the sequencer and `wait` goes on once
every command the sequencer has issued has retired, and before that both wait. The firmware context has no command in flight
(log 21), so there both complete at once. -/
def Obligations.ControlWords : Prop :=
  (∀ (s : State) (tk : Tok), (s.Clear Tok.zero → Runs .nop s s) ∧ (s.Clear tk → Runs (.tok tk) s s))
  ∧ (∀ (s : State) (tk : Tok), s.Clear tk →
     ((s.cur.role = .fw ∨ s.crew.outstanding s.cur.role.stream = [] →
         Answers (.halt tk) s (fun u =>
           u.apart = (s.modSeq fun q => { q with status := .halted }).apart ∧ u.seq.status = .halted)
         ∧ Runs (.wait tk) s s)
       ∧ (s.cur.role ≠ .fw → s.crew.outstanding s.cur.role.stream ≠ [] → Waits (.halt tk) s ∧ Waits (.wait tk) s)))

/-- R178, R183: a word that pops from a queue without a token changes nothing but its wait: it issues nothing, the pc stays
and the queues stay. Said of every word that has token bits, `vrep` with its target's; the firmware context has no neighbours
(log 12), and `eret` is a word of that context alone. -/
def Obligations.PopWaits : Prop :=
  ∀ (s : State) (tk : Tok) (i : Instr), i.tokens = some tk →
    let waits : Prop := Answers i s fun u => u.apart = s.apart ∧ u.pc = s.pc ∧ u.crew.queues = s.crew.queues
    let isVrep : Prop := (∃ count sd sa sb, i = .vrep tk count sd sa sb) ∨ (∃ aC sd sa sb, i = .vrepReg tk aC sd sa sb)
    (i ≠ .eret tk → ¬isVrep → s.popsReady (popsOf tk) = false → waits)
    ∧ ∀ (target : Instr) (t : Tok) (n : Nat) (st : Strides), s.cur.role = .c → s.crew.badRegs = [] → s.crew.repRun = none →
        s.vrepTarget = .v3 target → (v3At 0 0 0 target).isSome → target.tokens = some t → s.repCheck n st target = none →
        (∃ (count : BitVec 8) (aC : AReg) (sd sa sb : BitVec 2), st = { d := sd.toNat, a := sa.toNat, b := sb.toNat }
          ∧ ((i = .vrep tk count sd sa sb ∧ n = count.toNat)
            ∨ (i = .vrepReg tk aC sd sa sb ∧ n = (s.getA aC).toNat % 65536))) →
        s.popsReady { p := tk.popP.toNat + t.popP.toNat, n := tk.popN.toNat + t.popN.toNat } = false → waits

/-- R62, R63, R64, R65: a loop word, with room on the stack and its body within the innermost active one, pushes an entry with its
count and kind and goes on at the body; with count 0 it skips the body, and nothing else changes. At depth 4, or with a body
that would end after the innermost active one's, every one traps REG_RANGE. `loopx` reads row pointers, advancing the cursor by 4 a
row, up to the first row that has iterations, and runs the body for it; with no such row it skips the body. A misaligned cursor and
row pointers outside the S- and A-partitions trap. -/
def Obligations.LoopWords : Prop :=
  (∀ (s : State) (tk : Tok) (count : BitVec 10) (r : XReg) (ra : AReg) (len : BitVec 11), s.Clear tk → len ≠ 0 →
     let last := s.pc + 4 * len.zeroExtend 64
     s.seq.loops.length < 4 → (∀ top ∈ s.seq.loops.head?, last.toNat ≤ top.last.toNat) →
     let does (kind : LoopKind) (n : Nat) (u : State) : Prop :=
       u.apart = s.apart ∧
         (0 < n → u.pc = s.pc + 4 ∧ u.seq.loops =
           { first := s.pc + 4, last := last, left := n, kind := kind, outer := 0, cur := 0 } :: s.seq.loops) ∧
         (n = 0 → (∀ e ∈ s.seq.loops, e.last ≠ last) → u.pc = last + 4 ∧ u.seq.loops = s.seq.loops)
     (∀ e ∈ s.seq.loops, e.kind = .cursor → e.last ≠ last) →
       Answers (.loop tk count len) s (does .plain count.toNat)
       ∧ Answers (.loopr tk count len) s (does .rotating count.toNat)
       ∧ Answers (.loopRegX tk r len) s (does .plain (s.getX r).toNat)
       ∧ Answers (.loopReg tk ra len) s (does .plain (s.getA ra).toNat)
       ∧ Answers (.looprReg tk ra len) s (does .rotating (s.getA ra).toNat))
  ∧ (∀ (s : State) (tk : Tok) (count : BitVec 10) (len : BitVec 11), s.Issues tk →
     (s.seq.loops.length = 4 ∨ ∃ top ∈ s.seq.loops.head?, top.last.toNat < (s.pc + 4 * len.zeroExtend 64).toNat) →
     Traps (.loop tk count len) s { code := 0x03, info := 0, addr := 0 }
       ∧ Traps (.loopr tk count len) s { code := 0x03, info := 0, addr := 0 })
  ∧ (∀ (s : State) (tk : Tok) (r : XReg) (ra : AReg) (len : BitVec 11), s.Issues tk →
     (s.seq.loops.length = 4 ∨ ∃ top ∈ s.seq.loops.head?, top.last.toNat < (s.pc + 4 * len.zeroExtend 64).toNat) →
     Traps (.loopReg tk ra len) s { code := 0x03, info := 0, addr := 0 }
       ∧ Traps (.looprReg tk ra len) s { code := 0x03, info := 0, addr := 0 }
       ∧ Traps (.loopRegX tk r len) s { code := 0x03, info := 0, addr := 0 })
  ∧ (∀ (s : State) (tk : Tok) (aC aN : AReg) (len : BitVec 11), s.Issues tk → s.cur.role ≠ .fw → aC ≠ 0 →
     let a := (s.getA aC).toNat
     let n := (s.getA aN).toNat
     0 < n →
     (a % 4 ≠ 0 → Traps (.loopx tk aC aN len) s { code := 0x08, info := 0, addr := BitVec.ofNat 64 a })
     ∧ (a % 4 = 0 → ∀ t, poolCheck s.part a (4 * (n + 1)) 4 = some t → Traps (.loopx tk aC aN len) s t)
     ∧ (a % 4 = 0 → poolCheck s.part a (4 * (n + 1)) 4 = none →
        (s.seq.loops.length = 4 ∨ ∃ top ∈ s.seq.loops.head?, top.last.toNat < (s.pc + 4 * len.zeroExtend 64).toNat) →
        Traps (.loopx tk aC aN len) s { code := 0x03, info := 0, addr := 0 }))
  ∧ (∀ (s : State) (tk : Tok) (aC aN : AReg) (len : BitVec 11), s.Clear tk → s.cur.role ≠ .fw → aC ≠ 0 → len ≠ 0 →
     let last := s.pc + 4 * len.zeroExtend 64
     let a := (s.getA aC).toNat
     let n := (s.getA aN).toNat
     (n = 0 → (∀ e ∈ s.seq.loops, e.last ≠ last) →
       Answers (.loopx tk aC aN len) s fun u => u.apart = s.apart ∧ u.pc = last + 4 ∧ u.seq.loops = s.seq.loops)
     ∧ (0 < n → a % 4 = 0 → poolCheck s.part a (4 * (n + 1)) 4 = none → s.seq.loops.length < 4 →
       (∀ top ∈ s.seq.loops.head?, last.toNat ≤ top.last.toNat) → s.PoolFree a 4 → s.PoolFree (a + 4) 4 → a + 4 < 2 ^ 48 →
       let rp0 := leNat (s.poolBytes (poolPlace s.part a) 4)
       let rp1 := leNat (s.poolBytes (poolPlace s.part (a + 4)) 4)
       rp0 < rp1 →
       Answers (.loopx tk aC aN len) s fun u =>
         u.apart = (s.setA aC (s.getA aC + 4)).apart ∧ u.pc = s.pc + 4 ∧ u.seq.loops =
           { first := s.pc + 4, last := last, left := rp1 - rp0, kind := .cursor, outer := n - 1, cur := aC } :: s.seq.loops)
     ∧ (0 < n → a % 4 = 0 → poolCheck s.part a (4 * (n + 1)) 4 = none → s.seq.loops.length < 4 →
       (∀ top ∈ s.seq.loops.head?, last.toNat ≤ top.last.toNat) →
       let rp (i : Nat) : Nat := leNat (s.poolBytes (poolPlace s.part (a + 4 * i)) 4)
       (∀ k, k < n → (∀ i, i ≤ k + 1 → s.PoolFree (a + 4 * i) 4) → (∀ i, i < k → rp (i + 1) ≤ rp i) → rp k < rp (k + 1) →
         Answers (.loopx tk aC aN len) s fun u =>
           u.apart = (s.setA aC (BitVec.ofNat 48 (a + 4 * (k + 1)))).apart ∧ u.pc = s.pc + 4 ∧ u.seq.loops =
             { first := s.pc + 4, last := last, left := rp (k + 1) - rp k, kind := .cursor, outer := n - 1 - k, cur := aC }
               :: s.seq.loops)
       ∧ ((∀ i, i ≤ n → s.PoolFree (a + 4 * i) 4) → (∀ i, i < n → rp (i + 1) ≤ rp i) → (∀ e ∈ s.seq.loops, e.last ≠ last) →
         Answers (.loopx tk aC aN len) s fun u =>
           u.apart = (s.setA aC (BitVec.ofNat 48 (a + 4 * n))).apart ∧ u.pc = last + 4 ∧ u.seq.loops = s.seq.loops)))

/-- R62, R64: at the last word of the innermost loop the count falls by one; while it stays above zero the next address is the
body's first, and at zero the entry is popped. Each closing of a rotating loop lowers `vbase` and `pbase` by one. -/
def Obligations.LoopClose : Prop :=
  ∀ (s : State) (tk : Tok) (top : LoopEntry) (rest : List LoopEntry), s.Issues tk → s.seq.loops = top :: rest →
    top.last = s.pc → top.kind ≠ .cursor → (∀ e ∈ rest, e.last ≠ s.pc) →
    Answers (.tok tk) s fun u =>
      u.apart = s.apart
      ∧ (1 < top.left → u.pc = top.first ∧ u.seq.loops = { top with left := top.left - 1 } :: rest)
      ∧ (top.left ≤ 1 → u.pc = s.pc + 4 ∧ u.seq.loops = rest)
      ∧ (top.kind = .rotating → u.crew.vbase = s.crew.vbase - 1 ∧ u.crew.pbase = s.crew.pbase - 1)
      ∧ (top.kind = .plain → u.crew.vbase = s.crew.vbase ∧ u.crew.pbase = s.crew.pbase)

/-- R66, R82, R83: transfers of control. A taken transfer goes to PC + 4·sext(offset) and ends loops as R60 says; a branch
not taken only goes on. `brc` writes its register, `call` writes `x63`. -/
def Obligations.Transfers : Prop :=
  ∀ (s : State) (tk : Tok) (ra rb r : XReg) (off10 : BitVec 10) (off16 : BitVec 16) (off22 : BitVec 22), s.Clear tk →
    let a := s.getX ra
    let b := s.getX rb
    let branch (i : Instr) (c : Prop) : Prop :=
      (c → Jumps i s s (s.pc + 4 * off10.signExtend 64)) ∧ (¬c → Runs i s s)
    Jumps (.jmp tk off22) s s (s.pc + 4 * off22.signExtend 64)
    ∧ Jumps (.call tk off22) s (s.setX 63 (s.pc + 4)) (s.pc + 4 * off22.signExtend 64)
    ∧ (a.toNat % 4 = 0 → Jumps (.jr tk ra) s s a)
    ∧ (a.toNat % 4 ≠ 0 → Traps (.jr tk ra) s { code := 0x08, info := 0, addr := a })
    ∧ branch (.beq tk ra rb off10) (a = b) ∧ branch (.bne tk ra rb off10) (a ≠ b)
    ∧ branch (.blt tk ra rb off10) (a.toInt < b.toInt) ∧ branch (.bge tk ra rb off10) (b.toInt ≤ a.toInt)
    ∧ branch (.bltn tk ra rb off10) (a.toNat < b.toNat) ∧ branch (.bgen tk ra rb off10) (b.toNat ≤ a.toNat)
    ∧ (s.cur.role.isX = true → s.getX r - 1 ≠ 0 →
        Jumps (.brc tk r off16) s (s.setX r (s.getX r - 1)) (s.pc + 4 * off16.signExtend 64))
    ∧ (s.cur.role.isX = true → s.getX r - 1 = 0 → Runs (.brc tk r off16) s (s.setX r 0))
    ∧ ∀ ar : AReg, s.cur.role.isX = false → r.val = ar.val →
        (s.getA ar - 1 ≠ 0 → Jumps (.brc tk r off16) s (s.setA ar (s.getA ar - 1)) (s.pc + 4 * off16.signExtend 64))
        ∧ (s.getA ar - 1 = 0 → Runs (.brc tk r off16) s (s.setA ar 0))

/-! ### X integer words and the a-register group -/

/-- R71, R72, Table 4.4: every two-operand integer word of X writes the result its row gives and changes nothing else. Division
never traps: quotients are truncated toward zero and remainders take the sign of the dividend; by zero the quotient is all
ones and the remainder the dividend; −2^63 by −1 gives −2^63 and 0. -/
def Obligations.IntegerArithmetic : Prop :=
  (∀ (s : State) (tk : Tok) (rd ra rb : XReg), s.Clear tk →
     let a := s.getX ra
     let b := s.getX rb
     let n := b.toNat % 64
     let writes (i : Instr) (v : XWord) : Prop := Runs i s (s.setX rd v)
     writes (.add tk rd ra rb) (BitVec.ofNat 64 (a.toNat + b.toNat))
     ∧ writes (.sub tk rd ra rb) (BitVec.ofInt 64 (a.toInt - b.toInt))
     ∧ writes (.and tk rd ra rb) (a &&& b) ∧ writes (.or tk rd ra rb) (a ||| b) ∧ writes (.xor tk rd ra rb) (a ^^^ b)
     ∧ writes (.andn tk rd ra rb) (a &&& ~~~b) ∧ writes (.orn tk rd ra rb) (a ||| ~~~b)
     ∧ writes (.shl tk rd ra rb) (BitVec.ofNat 64 (a.toNat * 2 ^ n))
     ∧ writes (.shr tk rd ra rb) (BitVec.ofNat 64 (a.toNat / 2 ^ n))
     ∧ writes (.sra tk rd ra rb) (BitVec.ofInt 64 (a.toInt / 2 ^ n))
     ∧ writes (.slt tk rd ra rb) (if a.toInt < b.toInt then 1 else 0)
     ∧ writes (.sltn tk rd ra rb) (if a.toNat < b.toNat then 1 else 0)
     ∧ writes (.min tk rd ra rb) (BitVec.ofInt 64 (Min.min a.toInt b.toInt))
     ∧ writes (.max tk rd ra rb) (BitVec.ofInt 64 (Max.max a.toInt b.toInt))
     ∧ writes (.minn tk rd ra rb) (BitVec.ofNat 64 (Min.min a.toNat b.toNat))
     ∧ writes (.maxn tk rd ra rb) (BitVec.ofNat 64 (Max.max a.toNat b.toNat))
     ∧ writes (.mul tk rd ra rb) (BitVec.ofNat 64 (a.toNat * b.toNat))
     ∧ writes (.mulh tk rd ra rb) (BitVec.ofInt 64 (a.toInt * b.toInt / 2 ^ 64))
     ∧ writes (.mulhn tk rd ra rb) (BitVec.ofNat 64 (a.toNat * b.toNat / 2 ^ 64)))
  ∧ (∀ (s : State) (tk : Tok) (rd ra rb : XReg), s.Clear tk →
     let a := s.getX ra
     let b := s.getX rb
     let writes (i : Instr) (v : XWord) : Prop := Runs i s (s.setX rd v)
     (b = 0 → writes (.div tk rd ra rb) (BitVec.allOnes 64) ∧ writes (.divn tk rd ra rb) (BitVec.allOnes 64)
       ∧ writes (.rem tk rd ra rb) a ∧ writes (.remn tk rd ra rb) a)
     ∧ (a.toInt = -(2 ^ 63) → b.toInt = -1 → writes (.div tk rd ra rb) a ∧ writes (.rem tk rd ra rb) 0)
     ∧ (b ≠ 0 → writes (.divn tk rd ra rb) (BitVec.ofNat 64 (a.toNat / b.toNat))
       ∧ writes (.remn tk rd ra rb) (BitVec.ofNat 64 (a.toNat % b.toNat)))
     ∧ (b ≠ 0 → ∃ q m : Int, a.toInt = q * b.toInt + m ∧ m.natAbs < b.toInt.natAbs ∧ (m = 0 ∨ (0 < m ↔ 0 < a.toInt))
       ∧ writes (.div tk rd ra rb) (BitVec.ofInt 64 q) ∧ writes (.rem tk rd ra rb) (BitVec.ofInt 64 m)))

/-- R71, R73, R74, R75: the unary and the immediate integer words. `clz` and `ctz` count the zero bits above the highest and below
the lowest set bit, `popc` the set bits; `bswap` reverses the bytes; extensions keep the low bits and copy the sign or zero
above. The immediate is sext(imm10, 64), the count of a shift imm[5:0]; `lim` writes sext(imm16, 64) and `lims` shifts 16
bits in. -/
def Obligations.OneOperandWords : Prop :=
  (∀ (s : State) (tk : Tok) (rd ra : XReg), s.Clear tk →
     let a := s.getX ra
     let writes (i : Instr) (v : XWord) : Prop := Runs i s (s.setX rd v)
     let extends_ (i : Instr) (w : Nat) : Prop := ∃ v : XWord, writes i v ∧
       (∀ j, j < w → v.getLsbD j = a.getLsbD j) ∧ ∀ j, w ≤ j → j < 64 → v.getLsbD j = a.getLsbD (w - 1)
     (∃ n, n ≤ 64 ∧ (∀ j, 64 - n ≤ j → a.getLsbD j = false) ∧ (n < 64 → a.getLsbD (63 - n) = true)
       ∧ writes (.clz tk rd ra) (BitVec.ofNat 64 n))
     ∧ (∃ n, n ≤ 64 ∧ (∀ j, j < n → a.getLsbD j = false) ∧ (n < 64 → a.getLsbD n = true)
       ∧ writes (.ctz tk rd ra) (BitVec.ofNat 64 n))
     ∧ writes (.popc tk rd ra) (BitVec.ofNat 64 ((List.range 64).countP fun j => a.getLsbD j))
     ∧ (∃ v : XWord, writes (.bswap tk rd ra) v ∧ ∀ j, j < 64 → v.getLsbD j = a.getLsbD (56 - j / 8 * 8 + j % 8))
     ∧ extends_ (.sextb tk rd ra) 8 ∧ extends_ (.sexth tk rd ra) 16 ∧ extends_ (.sextw tk rd ra) 32
     ∧ writes (.zextw tk rd ra) (BitVec.ofNat 64 (a.toNat % 2 ^ 32)))
  ∧ (∀ (s : State) (tk : Tok) (rd ra : XReg) (imm : BitVec 10) (n : BitVec 6) (imm16 : BitVec 16), s.Clear tk →
     let a := s.getX ra
     let writes (i : Instr) (v : XWord) : Prop := Runs i s (s.setX rd v)
     writes (.addi tk rd ra imm) (BitVec.ofInt 64 (a.toInt + imm.toInt))
     ∧ writes (.andi tk rd ra imm) (a &&& BitVec.ofInt 64 imm.toInt)
     ∧ writes (.ori tk rd ra imm) (a ||| BitVec.ofInt 64 imm.toInt)
     ∧ writes (.xori tk rd ra imm) (a ^^^ BitVec.ofInt 64 imm.toInt)
     ∧ writes (.slti tk rd ra imm) (if a.toInt < imm.toInt then 1 else 0)
     ∧ writes (.sltni tk rd ra imm) (if a.toNat < (BitVec.ofInt 64 imm.toInt).toNat then 1 else 0)
     ∧ writes (.shiShl tk rd ra n) (BitVec.ofNat 64 (a.toNat * 2 ^ n.toNat))
     ∧ writes (.shiShr tk rd ra n) (BitVec.ofNat 64 (a.toNat / 2 ^ n.toNat))
     ∧ writes (.shiSra tk rd ra n) (BitVec.ofInt 64 (a.toInt / 2 ^ n.toNat))
     ∧ writes (.lim tk rd imm16) (BitVec.ofInt 64 imm16.toInt)
     ∧ writes (.lims tk rd imm16) (BitVec.ofNat 64 ((s.getX rd).toNat * 2 ^ 16 + imm16.toNat)))

/-- R70, Tables 4.2 and 4.3: the a-register words, on 48-bit values. -/
def Obligations.ARegisterWords : Prop :=
  ∀ (s : State) (tk : Tok) (ad aa ab : AReg) (imm14 : BitVec 14) (imm16 : BitVec 16), s.Clear tk →
    let a := s.getA aa
    let b := s.getA ab
    let n := b.toNat % 64
    let writes (i : Instr) (v : AWord) : Prop := Runs i s (s.setA ad v)
    writes (.aAdd tk ad aa ab) (BitVec.ofNat 48 (a.toNat + b.toNat))
    ∧ writes (.aSub tk ad aa ab) (BitVec.ofInt 48 (a.toInt - b.toInt))
    ∧ writes (.aShl tk ad aa ab) (BitVec.ofNat 48 (a.toNat * 2 ^ n))
    ∧ writes (.aShr tk ad aa ab) (BitVec.ofNat 48 (a.toNat / 2 ^ n))
    ∧ writes (.aSra tk ad aa ab) (BitVec.ofInt 48 (a.toInt / 2 ^ n))
    ∧ writes (.aMul tk ad aa ab) (BitVec.ofNat 48 (a.toNat * b.toNat))
    ∧ writes (.aMin tk ad aa ab) (BitVec.ofInt 48 (Min.min a.toInt b.toInt))
    ∧ writes (.aMax tk ad aa ab) (BitVec.ofInt 48 (Max.max a.toInt b.toInt))
    ∧ writes (.aAnd tk ad aa ab) (a &&& b) ∧ writes (.aOr tk ad aa ab) (a ||| b) ∧ writes (.aXor tk ad aa ab) (a ^^^ b)
    ∧ writes (.aaddi tk ad aa imm14) (BitVec.ofInt 48 (a.toInt + imm14.toInt))
    ∧ writes (.ali tk ad imm16) (BitVec.ofInt 48 imm16.toInt)
    ∧ writes (.alis tk ad imm16) (BitVec.ofNat 48 ((s.getA ad).toNat * 2 ^ 16 + imm16.toNat))
/-! ### X floating words -/

/-- R23, R29, R76 to R78: the float words of X write the rounding to FP32 of their exact result (`f32` is a pattern's exact value,
`toF32` its one rounding), and change nothing else; conversion to INT64 rounds to the nearest (`fcvtxf`) or toward zero
(`fcvtxfz`), saturates, and gives 0 for NaN (R30). -/
def Obligations.FloatWords : Prop :=
  (∀ (s : State) (tk : Tok) (fd fa fb fc : FReg) (rd ra : XReg), s.Clear tk →
     let pa := s.getF fa
     let pb := s.getF fb
     let a := f32 pa
     let b := f32 pb
     let c := f32 (s.getF fc)
     let writes (i : Instr) (v : FV) : Prop := Runs i s (s.setF fd (toF32 v))
     let writesX (i : Instr) (v : XWord) : Prop := Runs i s (s.setX rd v)
     writes (.fadd tk fd fa fb) (a.add b) ∧ writes (.fsub tk fd fa fb) (a.sub b) ∧ writes (.fmul tk fd fa fb) (a.mul b)
     ∧ writes (.fdiv tk fd fa fb) (a.div b) ∧ writes (.fsqrt tk fd fa) a.sqrt
     ∧ writes (.ffma tk fd fa fb fc) ((a.mul b).add c) ∧ writes (.ffms tk fd fa fb fc) ((a.mul b).add c.neg)
     ∧ writes (.ffnma tk fd fa fb fc) ((a.mul b).neg.add c) ∧ writes (.ffnms tk fd fa fb fc) ((a.mul b).neg.add c.neg)
     ∧ writes (.fcvtfx tk fd ra) (FV.ofInt (s.getX ra).toInt)
     ∧ Runs (.fmvfx tk fd ra) s (s.setF fd ((s.getX ra).setWidth 32))
     ∧ writesX (.fmvxf tk rd fa) (pa.zeroExtend 64)
     ∧ writesX (.feq tk rd fa fb) (if a.eqv b then 1 else 0) ∧ writesX (.flt tk rd fa fb) (if a.lt b then 1 else 0)
     ∧ writesX (.fle tk rd fa fb) (if a.lt b || a.eqv b then 1 else 0))
  ∧ (∀ (s : State) (tk : Tok) (rd : XReg) (fa : FReg), s.Clear tk →
     let a := f32 (s.getF fa)
     let both (v : XWord) : Prop := Runs (.fcvtxf tk rd fa) s (s.setX rd v) ∧ Runs (.fcvtxfz tk rd fa) s (s.setX rd v)
     (a.isNan = true → both 0) ∧ (a = .inf false → both 0x7FFFFFFFFFFFFFFF) ∧ (a = .inf true → both 0x8000000000000000)
     ∧ (a.isFinite = true →
         let sat (i : Int) : XWord := BitVec.ofInt 64 (Max.max (-(2 ^ 63)) (Min.min (2 ^ 63 - 1) i))
         Runs (.fcvtxf tk rd fa) s (s.setX rd (sat (a.roundInt false)))
         ∧ Runs (.fcvtxfz tk rd fa) s (s.setX rd (sat (a.roundInt true)))))

/-- R76: `fmin`, `fmax`, `fabs`, `fneg` and `fsgnj` never round; a NaN gives the canonical NaN 0x7FC0_0000, but one NaN of
`fmin` or `fmax` gives the other operand, and −0 is below +0. -/
def Obligations.FloatSelections : Prop :=
  ∀ (s : State) (tk : Tok) (fd fa fb : FReg), s.Clear tk →
    let a := s.getF fa
    let b := s.getF fb
    let nan (w : W32) : Bool := (f32 w).isNan
    let writes (i : Instr) (v : W32) : Prop := Runs i s (s.setF fd v)
    (nan a = true → writes (.fabs tk fd fa) 0x7FC00000 ∧ writes (.fneg tk fd fa) 0x7FC00000
      ∧ writes (.fsgnj tk fd fa fb) 0x7FC00000)
    ∧ (nan a = false → writes (.fabs tk fd fa) (a &&& 0x7FFFFFFF) ∧ writes (.fneg tk fd fa) (a ^^^ 0x80000000)
      ∧ writes (.fsgnj tk fd fa fb) ((a &&& 0x7FFFFFFF) ||| (b &&& 0x80000000)))
    ∧ (nan a = true → nan b = true → writes (.fmin tk fd fa fb) 0x7FC00000 ∧ writes (.fmax tk fd fa fb) 0x7FC00000)
    ∧ (nan a = true → nan b = false → writes (.fmin tk fd fa fb) b ∧ writes (.fmax tk fd fa fb) b)
    ∧ (nan a = false → nan b = true → writes (.fmin tk fd fa fb) a ∧ writes (.fmax tk fd fa fb) a)
    ∧ (nan a = false → nan b = false → (f32 a).lt (f32 b) = true →
        writes (.fmin tk fd fa fb) a ∧ writes (.fmax tk fd fa fb) b)
    ∧ (nan a = false → nan b = false → (f32 b).lt (f32 a) = true →
        writes (.fmin tk fd fa fb) b ∧ writes (.fmax tk fd fa fb) a)
    ∧ (a = 0x80000000 → b = 0 → writes (.fmin tk fd fa fb) a ∧ writes (.fmax tk fd fa fb) b)
    ∧ (a = 0 → b = 0x80000000 → writes (.fmin tk fd fa fb) b ∧ writes (.fmax tk fd fa fb) a)

/-- R23, R29: rounding keeps every value that FP32 holds, infinities and signed zeros with it, and makes the canonical NaN
of a NaN. -/
def Obligations.RoundingKeepsValues : Prop :=
  ∀ w : W32, ((f32 w).isNan = false → toF32 (f32 w) = w) ∧ ((f32 w).isNan = true → toF32 (f32 w) = 0x7FC00000)

/-! ### Pool accesses of X -/

/-- R79, R80: a pool load of an aligned, correctable and unlocked place of the allotment writes the little-endian value at
x[ra] + sext(off8)·2^size, sign- or zero-extended, and changes nothing else. -/
def Obligations.PoolLoads : Prop :=
  ∀ (s : State) (tk : Tok) (sz : BitVec 2) (rd ra : XReg) (fd : FReg) (off : BitVec 8), s.Clear tk →
    let n : Nat := 2 ^ sz.toNat
    let a : XWord := BitVec.ofInt 64 ((s.getX ra).toInt + off.toInt * n)
    let v := leNat (s.poolBytes (poolPlace s.part a.toNat) n)
    let a4 : XWord := BitVec.ofInt 64 ((s.getX ra).toInt + off.toInt * 4)
    (s.PoolFree a.toNat n →
      Runs (.pldn tk sz rd ra off) s (s.setX rd (BitVec.ofNat 64 v))
      ∧ Runs (.pld tk sz rd ra off) s
          (s.setX rd (BitVec.ofInt 64 (if v < 2 ^ (8 * n - 1) then (v : Int) else (v : Int) - (2 ^ (8 * n) : Nat)))))
    ∧ (s.PoolFree a4.toNat 4 →
      Runs (.pfld tk fd ra off) s (s.setF fd (BitVec.ofNat 32 (leNat (s.poolBytes (poolPlace s.part a4.toNat) 4)))))

/-- R79, R81: a pool store writes the low bytes of its source, little-endian, at x[ra] + sext(off8)·2^size; every other byte
of the pool reads as before, no register and no global memory changes, and the stored bytes read back. -/
def Obligations.PoolStores : Prop :=
  ∀ (s : State) (tk : Tok) (sz : BitVec 2) (rs ra : XReg) (fs : FReg) (off : BitVec 8), s.Clear tk →
    memWf s.here.pool = true →
    let n : Nat := 2 ^ sz.toNat
    let a : XWord := BitVec.ofInt 64 ((s.getX ra).toInt + off.toInt * n)
    let a4 : XWord := BitVec.ofInt 64 ((s.getX ra).toInt + off.toInt * 4)
    let stores (off n v : Nat) (u : State) : Prop :=
      let place := poolPlace s.part off
      u.apart = (s.poolStore off (natLe n v)).apart
      ∧ (∀ x, x < place ∨ place + n ≤ x → memGet u.here.pool x = memGet s.here.pool x)
      ∧ leNat (memGets u.here.pool place n) = v % 2 ^ (8 * n)
      ∧ (∀ r, u.getX r = s.getX r) ∧ (∀ r, u.getF r = s.getF r) ∧ u.mem = s.mem
      ∧ (∀ c, c ≠ s.cur.core → u.core c = s.core c)
    (s.PoolOpen a.toNat n → Answers (.pst tk sz rs ra off) s (stores a.toNat n (s.getX rs).toNat))
    ∧ (s.PoolOpen a4.toNat 4 → Answers (.pfst tk fs ra off) s (stores a4.toNat 4 (s.getF fs).toNat))

/-- R80, Table 18.3: the checks of an access in order. In the pool ALIGN, then POOL_RANGE, then POOL_PART, each with the offset in
`trapaddr`; of global memory ALIGN, then the translation's code with the access kind in `trapcause.info`. The trap leaves the
state before the word. Said of the integer and of the floating loads and stores. -/
def Obligations.AccessChecks : Prop :=
  (∀ (s : State) (tk : Tok) (sz : BitVec 2) (rd ra : XReg) (off : BitVec 8), s.Issues tk →
     let n : Nat := 2 ^ sz.toNat
     let a : XWord := BitVec.ofInt 64 ((s.getX ra).toInt + off.toInt * n)
     let traps (code : BitVec 8) : Prop :=
       Traps (.pld tk sz rd ra off) s { code := code, info := 0, addr := a }
       ∧ Traps (.pldn tk sz rd ra off) s { code := code, info := 0, addr := a }
       ∧ Traps (.pst tk sz rd ra off) s { code := code, info := 0, addr := a }
     (a.toNat % n ≠ 0 → traps 0x08)
     ∧ (a.toNat % n = 0 → 2 ^ 23 < a.toNat + n → traps 0x06)
     ∧ (a.toNat % n = 0 → a.toNat + n ≤ 2 ^ 23 → (a.toNat < sBegin s.part ∨ allotEnd s.part < a.toNat + n) → traps 0x05))
  ∧ (∀ (s : State) (tk : Tok) (sz : BitVec 2) (rd ra : XReg) (off : BitVec 8) (code : BitVec 8), s.Issues tk →
     let n : Nat := 2 ^ sz.toNat
     let a : XWord := BitVec.ofInt 64 ((s.getX ra).toInt + off.toInt * n)
     (a.toNat % n ≠ 0 → Traps (.ld tk sz rd ra off) s { code := 0x08, info := 0, addr := a }
       ∧ Traps (.st tk sz rd ra off) s { code := 0x08, info := 0, addr := a })
     ∧ (a.toNat % n = 0 → s.translateHere a.toNat .read = .fault code →
         Traps (.ld tk sz rd ra off) s { code := code, info := 0, addr := a })
     ∧ (a.toNat % n = 0 → s.translateHere a.toNat .write = .fault code →
         Traps (.st tk sz rd ra off) s { code := code, info := 1, addr := a }))
  ∧ (∀ (s : State) (tk : Tok) (sz : BitVec 2) (rd ra : XReg) (off : BitVec 8) (code : BitVec 8), s.Issues tk →
     let n : Nat := 2 ^ sz.toNat
     let a : XWord := BitVec.ofInt 64 ((s.getX ra).toInt + off.toInt * n)
     (a.toNat % n ≠ 0 → Traps (.ldn tk sz rd ra off) s { code := 0x08, info := 0, addr := a })
     ∧ (a.toNat % n = 0 → s.translateHere a.toNat .read = .fault code →
         Traps (.ldn tk sz rd ra off) s { code := code, info := 0, addr := a }))
  ∧ (∀ (s : State) (tk : Tok) (fd : FReg) (ra : XReg) (off : BitVec 8) (code : BitVec 8), s.Issues tk →
     let a : XWord := BitVec.ofInt 64 ((s.getX ra).toInt + off.toInt * 4)
     let traps (code : BitVec 8) : Prop :=
       Traps (.pfld tk fd ra off) s { code := code, info := 0, addr := a }
       ∧ Traps (.pfst tk fd ra off) s { code := code, info := 0, addr := a }
     (a.toNat % 4 ≠ 0 → traps 0x08 ∧ Traps (.fld tk fd ra off) s { code := 0x08, info := 0, addr := a }
       ∧ Traps (.fst tk fd ra off) s { code := 0x08, info := 0, addr := a })
     ∧ (a.toNat % 4 = 0 → 2 ^ 23 < a.toNat + 4 → traps 0x06)
     ∧ (a.toNat % 4 = 0 → a.toNat + 4 ≤ 2 ^ 23 → (a.toNat < sBegin s.part ∨ allotEnd s.part < a.toNat + 4) → traps 0x05)
     ∧ (a.toNat % 4 = 0 → s.translateHere a.toNat .read = .fault code →
         Traps (.fld tk fd ra off) s { code := code, info := 0, addr := a })
     ∧ (a.toNat % 4 = 0 → s.translateHere a.toNat .write = .fault code →
         Traps (.fst tk fd ra off) s { code := code, info := 1, addr := a }))

/-- R101, Table 5.7: a pool atomic returns the old value and stores the new one, in one step; nothing else changes. -/
def Obligations.PoolAtomics : Prop :=
  ∀ (s : State) (tk : Tok) (rd ra rb : XReg), s.Clear tk →
    let off := (s.getX ra).toNat
    let b := s.getX rb
    let old (n : Nat) : XWord := BitVec.ofNat 64 (leNat (s.poolBytes (poolPlace s.part off) n))
    let free (n : Nat) : Prop := s.PoolFree off n ∧ aBegin s.part ≤ off
    let does (i : Instr) (n : Nat) (new : XWord) : Prop :=
      free n → Runs i s ((s.poolStore off (natLe n new.toNat)).setX rd (old n))
    does (.pamoAdd tk rd ra rb) 8 (BitVec.ofNat 64 ((old 8).toNat + b.toNat))
    ∧ does (.pamoMin tk rd ra rb) 8 (BitVec.ofInt 64 (Min.min (old 8).toInt b.toInt))
    ∧ does (.pamoMax tk rd ra rb) 8 (BitVec.ofInt 64 (Max.max (old 8).toInt b.toInt))
    ∧ does (.pamoMinn tk rd ra rb) 8 (BitVec.ofNat 64 (Min.min (old 8).toNat b.toNat))
    ∧ does (.pamoMaxn tk rd ra rb) 8 (BitVec.ofNat 64 (Max.max (old 8).toNat b.toNat))
    ∧ does (.pamoSwp tk rd ra rb) 8 b
    ∧ does (.pamoCas tk rd ra rb) 8 (if old 8 = s.getX rd then b else old 8)
    ∧ does (.pamoAddd tk rd ra rb) 4 ((accAdd ((old 4).setWidth 32) (b.setWidth 32)).zeroExtend 64)
    ∧ ((s.PoolOpen off 8 ∧ off < aBegin s.part) →
        Traps (.pamoAdd tk rd ra rb) s { code := 0x07, info := 0, addr := s.getX ra })

/-! ### Global memory -/

/-- R189, R288, R329: a load returns the byte of the coherence-latest visible store that holds one for the address, or the initial
value, where no byte of its 16-byte block that the agent sees was written under another key than the leaf's. A block all of whose
bytes were written under one key reads under a key as those bytes encrypted under the first and decrypted under the second. (How
blocks are written under several keys is log 49's.) -/
def Obligations.LoadReturnsLatest : Prop :=
  ∀ (m : Global) (sees : GStore → Bool) (key : Option MemKey) (pa : Nat),
    let k := pa / 16
    let latest (a : Nat) (v : Byte) : Prop :=
      (∃ g pre post, m.stores = pre ++ g :: post ∧ sees g = true ∧ g.byteAt a = some v
        ∧ ∀ h ∈ post, sees h = true → h.byteAt a = none)
      ∨ ((∀ h ∈ m.stores, sees h = true → h.byteAt a = none) ∧ memGet m.hbm a = v)
    (m.mixed sees key k = false → latest pa (m.load sees key pa))
    ∧ ∀ old : MemKey, m.keyAt (16 * k) = some old → (∀ g ∈ m.stores, sees g = true → g.meets k = true → g.key = some old) →
        ∃ plain : List Byte, plain.length = 16 ∧ (∀ i v, plain[i]? = some v → latest (16 * k + i) v)
          ∧ m.load sees key pa = (recast (some old) key k plain).getD (pa % 16) 0

/-- R79, R80, R189, R202: a global load that translates to correctable local memory writes what the sequencer sees there after its
pops, and on a dead page zeros (R289); apart from the register only its TLB changes. A load of a page at a peer reads the line that
its core holds of it, under the stores that the sequencer sees; without that line it waits and asks for it, and where the peer has
refused it, it traps STAGE2 (R287). -/
def Obligations.GlobalLoads : Prop :=
  ∀ (s : State) (tk : Tok) (sz : BitVec 2) (rd ra : XReg) (fd : FReg) (off : BitVec 8) (x : Xlat), s.Clear tk →
    let n : Nat := 2 ^ sz.toNat
    let a : XWord := BitVec.ofInt 64 ((s.getX ra).toInt + off.toInt * n)
    let dead := entryDead x.leaf2.entry
    let reads (a n : Nat) : Prop := a % n = 0 ∧ s.translateHere a .read = .ok x ∧ (dead = true
      ∨ (entryRem x.leaf2.entry = false ∧ x.pa + n ≤ Config.hbmBytes ∧ s.mem.bad x.pa n = false))
    let filled (a : Nat) : State := s.tlbHere a x .read
    let seen (n : Nat) : List Byte := if dead then List.replicate n 0
      else s.mem.loads (s.doPops (popsOf tk)).seesHere x.key x.pa n
    let signed (v : Nat) : XWord := BitVec.ofInt 64 (if v < 2 ^ (8 * n - 1) then (v : Int) else (v : Int) - (2 ^ (8 * n) : Nat))
    let v := leNat (seen n)
    let a4 : XWord := BitVec.ofInt 64 ((s.getX ra).toInt + off.toInt * 4)
    let base := x.pa / 64 * 64
    let far (a n : Nat) : Prop := a % n = 0 ∧ s.translateHere a .read = .ok x ∧ dead = false ∧ entryRem x.leaf2.entry = true
    let line : Option RemoteLine := s.here.lines.find? fun l => l.peer == entryKey x.leaf2.entry && l.pa == base
    let mine (core : CoreId) (crew : CrewIx) (role : Role) (peer pa : Nat) : Prop :=
      core = s.cur.core ∧ crew = s.cur.crew ∧ role = s.cur.role ∧ peer = entryKey x.leaf2.entry ∧ pa = base
    let refused : Prop := ∃ r ∈ s.mem.refusals, mine r.core r.crew r.role r.peer r.pa
    let farSeen (l : RemoteLine) (n : Nat) : Nat :=
      leNat (bytesFrom (s.remoteByte (s.doPops (popsOf tk)).seesFar l) x.pa n)
    let asks (i : Instr) : Prop := Answers i s fun u => u.pc = s.pc ∧ (∀ r, u.getX r = s.getX r) ∧ (∀ r, u.getF r = s.getF r)
      ∧ u.mem.stores = s.mem.stores ∧ u.mem.remote = s.mem.remote ∧ (∀ c, (u.core c).pool = (s.core c).pool)
      ∧ ∃ g ∈ u.mem.gets, mine g.core g.crew g.role g.peer g.pa ∧ g.stale = false
    (reads a.toNat n →
      Runs (.ldn tk sz rd ra off) s ((filled a.toNat).setX rd (BitVec.ofNat 64 v))
      ∧ Runs (.ld tk sz rd ra off) s ((filled a.toNat).setX rd (signed v)))
    ∧ (reads a4.toNat 4 →
      Runs (.fld tk fd ra off) s ((filled a4.toNat).setF fd (BitVec.ofNat 32 (leNat (seen 4)))))
    ∧ (far a.toNat n →
      (∀ l, line = some l →
        Runs (.ldn tk sz rd ra off) s ((filled a.toNat).setX rd (BitVec.ofNat 64 (farSeen l n)))
        ∧ Runs (.ld tk sz rd ra off) s ((filled a.toNat).setX rd (signed (farSeen l n))))
      ∧ (line = none → refused → let t : TrapReq := { code := 0x14, info := 0, addr := a }
        Traps (.ld tk sz rd ra off) s t ∧ Traps (.ldn tk sz rd ra off) s t)
      ∧ (line = none → ¬refused → asks (.ld tk sz rd ra off) ∧ asks (.ldn tk sz rd ra off)))
    ∧ (far a4.toNat 4 →
      (∀ l, line = some l → Runs (.fld tk fd ra off) s ((filled a4.toNat).setF fd (BitVec.ofNat 32 (farSeen l 4))))
      ∧ (line = none → refused → Traps (.fld tk fd ra off) s { code := 0x14, info := 0, addr := a4 })
      ∧ (line = none → ¬refused → asks (.fld tk fd ra off)))

/-- R81, R188, R189, R201: a global store to local memory is seen at once by its own sequencer: its bytes read back as stored,
where no byte that it sees of the blocks they lie in was written under another key. It changes no register and no pool, and no
store performed before it or initial byte, unless its page was dead: the page then becomes zeros first (R289). A store to a page
at a peer is held (that it stands last in the order until it is sent is the model's choice, log 7), and a `pub` at dom scope sends
every held store of its sequencer as a put and waits; said of a module in which no page is dead. -/
def Obligations.GlobalStores : Prop :=
  ∀ (s : State) (tk : Tok) (sz : BitVec 2) (rs ra : XReg) (fs : FReg) (off : BitVec 8) (x : Xlat), s.Clear tk →
    let t := s.revive s.ctxHere x.leaf2
    let keeps (u : State) : Prop :=
      (∀ r, u.getX r = s.getX r) ∧ (∀ r, u.getF r = s.getF r) ∧ ∀ c, (u.core c).pool = (s.core c).pool
    let does (i : Instr) (a : XWord) (n v : Nat) : Prop :=
      a.toNat % n = 0 → s.translateHere a.toNat .write = .ok x →
      (entryRem x.leaf2.entry = false → x.pa + n ≤ Config.hbmBytes →
       Answers i s fun u =>
        ((∀ k, x.pa < 16 * k + 16 → 16 * k < x.pa + n → t.mem.mixed (s.doPops (popsOf tk)).seesHere x.key k = false) →
          u.mem.loads u.seesHere x.key x.pa n = natLe n v)
        ∧ keeps u
        ∧ (∃ g pre post, t.mem.stores = pre ++ post ∧ u.mem.stores = pre ++ g :: post
            ∧ g.pa = x.pa ∧ g.bytes = (natLe n v).map some ∧ g.key = x.key ∧ g.pubs = [] ∧ g.under = none
            ∧ g.writer = .seq s.cur.core s.cur.crew s.cur.role)
        ∧ u.mem.hbm = t.mem.hbm
        ∧ (entryDead x.leaf2.entry = false → t.mem = s.mem))
      ∧ (entryRem x.leaf2.entry = true → Answers i s fun u =>
        keeps u ∧ (s.inLine → u.pc = s.pc + 4) ∧ u.mem.stores = t.mem.stores ∧ u.mem.hbm = t.mem.hbm
        ∧ ∃ r, u.mem.remote = t.mem.remote ++ [r] ∧ r.peer = entryKey x.leaf2.entry ∧ r.pa = x.pa ∧ r.va = a
            ∧ r.bytes = (natLe n v).map some ∧ r.size = n ∧ r.put = none ∧ r.acked = none ∧ r.pubs = [] ∧ r.under = none
            ∧ r.writer = .seq s.cur.core s.cur.crew s.cur.role)
    does (.st tk sz rs ra off) (BitVec.ofInt 64 ((s.getX ra).toInt + off.toInt * (2 ^ sz.toNat : Nat))) (2 ^ sz.toNat)
        (s.getX rs).toNat
    ∧ does (.fst tk fs ra off) (BitVec.ofInt 64 ((s.getX ra).toInt + off.toInt * 4)) 4 (s.getF fs).toNat
    ∧ (s.admits .dom = true → s.delivery s.remoteMine = .unsent → s.reviveBad true = false → s.deadLeaves = [] →
      (∀ r ∈ s.mem.remote, s.remoteMine r = true → r.under = none) → Answers (.pub tk .dom) s fun u =>
        u.pc = s.pc ∧ keeps u ∧ u.mem.stores = s.mem.stores ∧ u.mem.remote.length = s.mem.remote.length
        ∧ ∀ r ∈ s.mem.remote, s.remoteMine r = true → s.mem.zerosOpen r.peer r.pa = false →
            ∃ q ∈ u.mem.remote, q.put.isSome = true ∧ q.id = r.id ∧ q.peer = r.peer ∧ q.pa = r.pa ∧ q.bytes = r.bytes
              ∧ q.writer = r.writer)

/-- R97, R190, R191, R201: `pub` at an admitted scope marks every store of its sequencer, and of its retired commands, as published
at that scope or a wider one, and changes no other store's bytes, place or order while no page is dead; a store that a discard found
unpublished joins the revived page, as does one made since (R100). At dom scope it first waits until every put is acknowledged, and a
refused one traps STAGE2. Where the leaf of a page that it would revive is uncorrectable it traps HBM_ECC (log 9: the model's choice).
A scope that is not admitted traps SCOPE. After `acq` every agent of the core sees the stores whose publication, of an earlier
clock, and the acquisition lie within each other's scope; puts of peers come in at dom scope alone. Stores seen before stay
seen. -/
def Obligations.Publication : Prop :=
  (∀ (s : State) (tk : Tok) (sc : Scope), s.Clear tk →
     let mine (w : Writer) : Prop := s.coversMine w = true
     (s.admits sc = true → s.reviveBad (sc = .dom) = true → Traps (.pub tk sc) s { code := 0x33, info := 1, addr := 0 })
     ∧ (s.admits sc = true → s.reviveBad (sc = .dom) = false → (sc = .dom → s.delivery s.remoteMine = .delivered) →
       Answers (.pub tk sc) s fun u =>
         u.apart = (s.publish sc).apart
         ∧ (∀ g ∈ s.mem.stores, mine g.writer → g.pubs = [] → ∃ h ∈ u.mem.stores, h.id = g.id ∧ h.pa = g.pa
             ∧ h.bytes = g.bytes ∧ h.writer = g.writer ∧ h.under = none ∧ ∃ p ∈ h.pubs, p.scope = sc ∧ p.clock = s.cycle)
         ∧ (∀ r ∈ s.mem.remote, mine r.writer → ∃ q ∈ u.mem.remote, q.id = r.id ∧ q.bytes = r.bytes ∧ q.under = none
             ∧ ∃ p ∈ q.pubs, scopeRank sc ≤ scopeRank p.scope)
         ∧ (s.deadLeaves = [] → (∀ g ∈ s.mem.stores, mine g.writer → g.under = none) →
           (∀ r ∈ s.mem.remote, mine r.writer → r.under = none) →
           u.mem.stores.length = s.mem.stores.length
           ∧ ∀ (i : Nat) (g : GStore), s.mem.stores[i]? = some g → ∃ h, u.mem.stores[i]? = some h ∧ h.pa = g.pa ∧ h.bytes = g.bytes
             ∧ h.id = g.id ∧ h.writer = g.writer
             ∧ (mine g.writer → ∃ p ∈ h.pubs, scopeRank sc ≤ scopeRank p.scope)
             ∧ (s.coversMine g.writer = false → h = g)))
     ∧ (s.admits .dom = true → s.reviveBad true = false →
       (s.delivery s.remoteMine = .waiting → Waits (.pub tk .dom) s)
       ∧ (∀ va, s.delivery s.remoteMine = .refused va →
           exec (.pub tk .dom) s = .next (raise { code := 0x14, info := 1, addr := va } s.holdRefused)))
     ∧ (s.admits sc = false → Traps (.pub tk sc) s { code := 0x42, info := 0, addr := 0 }
         ∧ Traps (.acq tk sc) s { code := 0x42, info := 0, addr := 0 }))
  ∧ (∀ (s : State) (tk : Tok) (sc : Scope), s.Clear tk → s.admits sc = true →
     Answers (.acq tk sc) s fun u =>
       u.apart = (s.acquire s.cur.core s.spotHere sc fun c => c < s.cycle).apart
       ∧ u.mem.stores = s.mem.stores
       ∧ (let reached (pubs : List Pub) : Prop :=
            ∃ p ∈ pubs, p.clock < s.cycle ∧ within p.scope p.spot s.spotHere = true ∧ within sc s.spotHere p.spot = true
          (∀ g ∈ s.mem.stores, g.under = none → (g.writer = .peer → sc = .dom) → reached g.pubs → u.seesHere g = true)
          ∧ ∀ r ∈ s.mem.remote, r.under = none → reached r.pubs → u.seesFar r = true)
       ∧ (sc = .dom → u.here.lines = [])
       ∧ (∀ g, s.seesHere g = true → u.seesHere g = true))

/-! ### System words -/

/-- R84, R85, Tables 5.1 and 5.2: what `csrr` reads in a block; and the firmware context reads and writes the trap CSRs, bits that
the table does not list staying zero. -/
def Obligations.CsrReads : Prop :=
  (∀ (s : State) (tk : Tok) (rd : XReg) (b : Block) (i : Fin 16), s.Clear tk → s.cur.role ≠ .fw → s.crew.block = some b →
     let reads (csr : Csr) (v : Nat) : Prop := Runs (.csrr tk rd csr) s (s.setX rd (BitVec.ofNat 64 v))
     reads .blockid b.blockid ∧ reads .teamid b.teamid ∧ reads .teamsz b.teamsz ∧ reads .nblocks b.nblocks
     ∧ reads .crewid s.cur.crew.val ∧ reads .coreid (s.cur.core.val % 16) ∧ reads .dieid (s.cur.core.val / 16)
     ∧ reads .devid s.npu.devid.toNat ∧ reads .ctxid b.ctx.val
     ∧ reads .dom (b.domid.toNat * 2 ^ 32 + (b.scopes ||| 3).toNat)
     ∧ reads (.b i) (b.b.get i).toNat ∧ reads .part s.crew.part.toNat ∧ reads .desctab s.crew.desctab.toNat
     ∧ reads .cycle s.cycle ∧ reads .epoch (s.cycle / 1024) ∧ reads .rep s.crew.rep.toNat
     ∧ reads .waitlim s.crew.waitlim.toNat ∧ reads .rung s.rungCsr.toNat)
  ∧ (∀ (s : State) (tk : Tok) (r : XReg), s.Clear tk → s.cur.role = .fw →
     let w := s.here.fw
     let v := s.getX r
     let reads (csr : Csr) (v : Nat) : Prop := Runs (.csrr tk r csr) s (s.setX r (BitVec.ofNat 64 v))
     let writes (csr : Csr) (w2 : Fw) : Prop := Runs (.csrw tk csr r) s (s.modHere fun c => { c with fw := w2 })
     reads .trapcause w.cause.toNat ∧ reads .trapaddr w.addr.toNat ∧ reads .trappc w.tpc.toNat
     ∧ reads .trapseq w.tseq.toNat ∧ reads .trapcrew w.tcrew.toNat ∧ reads .fwshare w.share.toNat
     ∧ writes .trapcause { w with cause := v.setWidth 24 } ∧ writes .trapaddr { w with addr := v }
     ∧ writes .trappc { w with tpc := v } ∧ writes .trapseq { w with tseq := v.setWidth 2 }
     ∧ writes .trapcrew { w with tcrew := BitVec.ofNat 14 (v.toNat % 4 + v.toNat / 256 % 64 * 256) })

/-- R86, R87, R88, Table 5.2: `waitlim` takes its source mod 2^48, and 1,024 for less; the firmware context's is its own (log 21).
`desctab` takes an aligned offset whose 4,096 bytes lie in the S-partition, and traps otherwise in the order of R88. `fwshare`
takes 1 to 16, of the low 5 bits of its source (log 46: the model's reading). -/
def Obligations.CsrWriteRules : Prop :=
  ∀ (s : State) (tk : Tok) (rs : XReg), s.Clear tk →
    let v := (s.getX rs).toNat
    let limit : BitVec 48 := BitVec.ofNat 48 (Max.max 1024 (v % 2 ^ 48))
    (s.cur.role ≠ .fw → Runs (.waitlimWrite tk rs) s (s.modCrew fun c => { c with waitlim := limit }))
    ∧ (s.cur.role = .fw → Runs (.waitlimWrite tk rs) s (s.modHere fun c => { c with fw := { c.fw with waitlim := limit } }))
    ∧ (s.cur.role ≠ .fw → v % 64 = 0 → v + 4096 ≤ 2 ^ 23 → sBegin s.part ≤ v → v + 4096 ≤ aBegin s.part →
        Runs (.desctabWrite tk rs) s (s.modCrew fun c => { c with desctab := BitVec.ofNat 23 v }))
    ∧ (v % 64 ≠ 0 → Traps (.desctabWrite tk rs) s { code := 0x08, info := 0, addr := s.getX rs })
    ∧ (v % 64 = 0 → 2 ^ 23 < v + 4096 → Traps (.desctabWrite tk rs) s { code := 0x06, info := 0, addr := s.getX rs })
    ∧ (v % 64 = 0 → v + 4096 ≤ 2 ^ 23 → (v < sBegin s.part ∨ aBegin s.part < v + 4096) →
        Traps (.desctabWrite tk rs) s { code := 0x05, info := 0, addr := s.getX rs })
    ∧ Runs (.fwshareWrite tk rs) s (s.modHere fun c =>
        { c with fw := { c.fw with share := BitVec.ofNat 5 (Max.max 1 (Min.min 16 (v % 32))) } })

/-- R89, R90: taking a trap. The sequencer stops at its word, and the trap, with its cause, the stream, the crew, the context and
the pc, waits for the core's firmware context; nothing else changes, and a trap of the firmware context stops it (R322).
`trap` retires first, and then, once the pushes held have been performed (R19), stops its sequencer at the next word with
TRAP_INSN and its immediate. -/
def Obligations.TakingATrap : Prop :=
  (∀ (s : State) (t : TrapReq),
     (s.cur.role ≠ .fw →
       let u := raise t s
       u.seq.status = .trapped ∧ u.pc = s.pc
       ∧ (∃ r ∈ u.here.traps, r.crew = s.cur.crew ∧ r.stream = s.cur.role.stream ∧ r.ctx = s.crew.ctx ∧ r.code = t.code
           ∧ r.info = t.info ∧ r.addr = t.addr ∧ r.pc = s.pc ∧ r.clock = s.cycle)
       ∧ u.here.traps.length = s.here.traps.length + 1 ∧ (∀ r ∈ s.here.traps, r ∈ u.here.traps)
       ∧ u.apart = ((s.modSeq fun q => { q with status := .trapped }).modHere fun c => { c with traps := u.here.traps }).apart)
     ∧ (s.cur.role = .fw →
       let u := raise t s
       u.here.fw.stopped = true ∧ u.seq.status = .trapped ∧ (∃ r, u.here.fw.fault = some r ∧ r.code = t.code ∧ r.pc = s.pc)
       ∧ u.mem = s.mem ∧ u.here.traps = s.here.traps ∧ u.here.crews = s.here.crews))
  ∧ (∀ (s : State) (tk : Tok) (imm : BitVec 16), s.Clear tk → s.cur.role ≠ .fw →
     Answers (.trap tk imm) s fun u =>
       (s.inLine → u.pc = s.pc + 4) ∧ (∀ r, u.getX r = s.getX r) ∧ u.mem = s.mem ∧ u.here.pool = s.here.pool
       ∧ (s.seq.held = [] → tk.pushP = false → tk.pushN = false → u.seq.held = [])
       ∧ (u.seq.held = [] → u.seq.status = .trapped
         ∧ ∃ r ∈ u.here.traps, r.code = 0x40 ∧ r.info = imm ∧ r.addr = 0 ∧ r.pc = u.pc ∧ r.crew = s.cur.crew)
       ∧ (u.seq.held ≠ [] → u.here.traps = s.here.traps
         ∧ u.seq.trapDue = some { code := 0x40, info := imm, addr := 0 }))

/-- R89, R91, Table 5.2: TRAP_ENTRY of an idle firmware context takes the oldest waiting trap, in a later clock than its own, and
writes the five trap CSRs, but no trap of a crew that has halted for a pre-emption (R300); `eret` of a handler that serves a trap
resumes the sequencer that `trapseq` and `trapcrew` name at `trappc`, one whose work a pre-emption has abandoned where that work begins
again (R157), and after ACC_CHECK C at its restart point (R69); a pc that is no multiple of 4 is not given (R42; where firmware has
written one the model's choice is the word it lies in, log 57); the firmware context is idle again. In any other sequencer `eret` is an illegal word. -/
def Obligations.ServingATrap : Prop :=
  (∀ (s : State) (core : CoreId) (t : Trap) (rest : List Trap), (s.core core).fw.idle = true →
     (s.core core).fw.retries = [] → (s.core core).traps = t :: rest → t.clock < s.cycle →
     (s.ctx t.ctx).frozen = false → Answers (.trapEntry core) s fun u =>
       let w := (u.core core).fw
       w.cause = t.info ++ t.code ∧ w.addr = t.addr ∧ w.tpc = t.pc ∧ w.tseq.toNat = t.stream.num.val
       ∧ w.tcrew.toNat = t.ctx.val * 256 + t.crew.val)
  ∧ (∀ (s : State) (core : CoreId), (s.core core).fw.retries = [] → (∀ t ∈ (s.core core).traps, (s.ctx t.ctx).frozen = true) →
     exec (.trapEntry core) s = .next s)
  ∧ (∀ (s : State) (tk : Tok) (crew : CrewIx) (st : Stream) (ctx : CtxId) (back : Option XWord),
     let w := s.here.fw
     (s.cur.role = .fw → w.serving = .trap back → w.tcrew.toNat = ctx.val * 256 + crew.val → w.tseq.toNat = st.num.val →
       (∃ b, (s.here.crew crew).block = some b ∧ b.ctx = ctx) → ((s.here.crew crew).seq st).status = .trapped →
       (back ≠ none ∨ st ≠ .c ∨ w.cause.toNat % 256 ≠ 0x30 →
         Answers (.eret tk) s fun u =>
           ((u.here.crew crew).seq st).status = .running ∧ ((u.here.crew crew).seq st).pc.toNat % 4 = 0
           ∧ ((back.getD w.tpc).toNat % 4 = 0 → ((u.here.crew crew).seq st).pc = back.getD w.tpc)
           ∧ u.here.fw.serving = .nothing ∧ u.here.fw.seq.status = .idle
           ∧ (∀ r, (u.here.crew crew).x.get r = (s.here.crew crew).x.get r) ∧ u.here.pool = s.here.pool)
       ∧ (back = none → st = .c → w.cause.toNat % 256 = 0x30 →
         Answers (.eret tk) s fun u =>
           let snap := (s.here.crew crew).snap
           (u.here.crew crew).seqC.status = .running ∧ (u.here.crew crew).seqC.pc = snap.pc ∧ (u.here.crew crew).aC = snap.a
           ∧ (u.here.crew crew).mq = [] ∧ u.here.fw.serving = .nothing ∧ u.here.fw.seq.status = .idle))
     ∧ (s.cur.role ≠ .fw → Traps (.eret tk) s { code := 0x01, info := 0, addr := 0 }))

/-! ### Synchronisation words -/

/-- R98, R99, R190, R191: a mailbox is claimed by the launch that names it first; `mbput` appends while fewer than 16 values are held and
waits otherwise, its sequencer's stores first published at core scope; `mbget` takes the oldest value and waits while there is none, and
its core acquires at core scope what was published no later than the value came; `mbpoll` reads the number of values. An index
above 7 traps REG_RANGE, a mailbox of another launch SCOPE. -/
def Obligations.Mailboxes : Prop :=
  ∀ (s : State) (tk : Tok) (rd ra rb : XReg) (i : Fin 8), s.Clear tk →
    let m := s.here.boxes.get i
    let mine : Prop := (s.getX ra).toNat = i.val ∧ (m.claim = none ∨ m.claim = s.claimant)
    let claim : Option (CtxId × Nat) := if m.claim.isNone then s.claimant else m.claim
    (mine → m.entries.length < 16 → s.reviveBad false = false → Answers (.mbput tk ra rb) s fun u =>
        u.here.boxes.get i = { claim := claim, entries := m.entries ++ [{ value := s.getX rb, at_ := s.cycle }] }
        ∧ u.mem = (s.publish .core).mem
        ∧ (∀ g ∈ s.mem.stores, s.coversMine g.writer = true → g.pubs = [] →
            ∃ h ∈ u.mem.stores, h.id = g.id ∧ h.bytes = g.bytes ∧ ∃ p ∈ h.pubs, p.scope = .core ∧ p.clock = s.cycle)
        ∧ (∀ j, j ≠ i → u.here.boxes.get j = s.here.boxes.get j) ∧ (∀ r, u.getX r = s.getX r)
        ∧ u.here.pool = s.here.pool)
    ∧ (mine → 16 ≤ m.entries.length → Answers (.mbput tk ra rb) s fun u =>
        u.pc = s.pc ∧ (u.here.boxes.get i).entries = m.entries ∧ u.seq.issued = true)
    ∧ (∀ e rest, mine → m.entries = e :: rest → Answers (.mbget tk rd ra) s fun u =>
        u.here.boxes.get i = { claim := claim, entries := rest } ∧ u.getX rd = (if rd = 0 then 0 else e.value)
        ∧ (let reached (pubs : List Pub) : Prop :=
            ∃ p ∈ pubs, p.clock ≤ e.at_ ∧ within p.scope p.spot s.spotHere = true ∧ within .core s.spotHere p.spot = true
          (∀ g ∈ s.mem.stores, g.under = none → g.writer ≠ .peer → reached g.pubs → u.seesHere g = true)
          ∧ (∀ q ∈ s.mem.remote, q.under = none → reached q.pubs → u.seesFar q = true)
          ∧ (∀ g, s.seesHere g = true → u.seesHere g = true))
        ∧ (∀ j, j ≠ i → u.here.boxes.get j = s.here.boxes.get j) ∧ (∀ r, r ≠ rd → u.getX r = s.getX r)
        ∧ u.here.pool = s.here.pool)
    ∧ (mine → m.entries = [] → Answers (.mbget tk rd ra) s fun u =>
        u.pc = s.pc ∧ (u.here.boxes.get i).entries = [] ∧ ∀ r, u.getX r = s.getX r)
    ∧ (mine → Answers (.mbpoll tk rd ra) s fun u =>
        u.here.boxes.get i = { claim := claim, entries := m.entries }
        ∧ u.getX rd = (if rd = 0 then 0 else BitVec.ofNat 64 m.entries.length) ∧ (∀ r, r ≠ rd → u.getX r = s.getX r)
        ∧ u.here.pool = s.here.pool)
    ∧ (7 < (s.getX ra).toNat → Traps (.mbput tk ra rb) s { code := 0x03, info := 0, addr := 0 }
        ∧ Traps (.mbget tk rd ra) s { code := 0x03, info := 0, addr := 0 }
        ∧ Traps (.mbpoll tk rd ra) s { code := 0x03, info := 0, addr := 0 })
    ∧ ((s.getX ra).toNat = i.val → m.claim.isSome → m.claim ≠ s.claimant →
        Traps (.mbput tk ra rb) s { code := 0x42, info := 0, addr := 0 }
        ∧ Traps (.mbget tk rd ra) s { code := 0x42, info := 0, addr := 0 }
        ∧ Traps (.mbpoll tk rd ra) s { code := 0x42, info := 0, addr := 0 })

/-- R100, R194: `discard` of nothing does nothing; an address or a length that is no multiple of 65,536 traps ALIGN, and a page that
does not translate for writing, or is not wholly inside, its own trap. Of whole pages it completes once no put to them is
unanswered. Each page's stage-2 entry then carries the dead bit and the page reads as zeros for every agent; stores and bytes
elsewhere, registers and pools are unchanged. That it waits for unanswered puts is the model's choice (log 22), as is what it does where
a stage-2 leaf maps more than the range holds (log 22), and so is `trapaddr` where a page, not the operands, is what fails (log 43). -/
def Obligations.Discard : Prop :=
  ∀ (s : State) (tk : Tok) (ra rb : XReg), s.Clear tk → (s.crew.outstanding .x).length < 16 →
    let a := (s.getX ra).toNat
    let n := (s.getX rb).toNat
    let traps (code : BitVec 8) (info : BitVec 16) (addr : XWord) : Prop :=
      Traps (.discard tk ra rb) s { code := code, info := info, addr := addr }
    let does (p : State → Prop) : Prop := Answers (.discard tk ra rb) s fun u =>
      p u ∧ (∀ r, u.getX r = s.getX r) ∧ (∀ c, (u.core c).pool = (s.core c).pool) ∧ (s.inLine → u.pc = s.pc + 4)
    (n = 0 → Runs (.discard tk ra rb) s s)
    ∧ (0 < n → a % 65536 ≠ 0 → traps 0x08 0 (s.getX ra))
    ∧ (0 < n → a % 65536 = 0 → n % 65536 ≠ 0 → traps 0x08 0 (s.getX ra))
    ∧ (0 < n → a % 65536 = 0 → n % 65536 = 0 →
      (2 ^ 48 < a + n → traps 0x10 1 (s.getX ra))
      ∧ (a + n ≤ 2 ^ 48 →
        (∀ c, s.translateHere a .write = .fault c → traps c 1 (s.getX ra))
        ∧ (∀ x, s.translateHere a .write = .ok x → s.mem.bad x.leaf2.at_ 8 = false → n < x.size → traps 0x08 0 (s.getX ra))
        ∧ (∀ t, s.discardLeaves a (a + n) = .error t → Traps (.discard tk ra rb) s t)
        ∧ ∀ l, s.discardLeaves a (a + n) = .ok l →
          (l.any s.putsOpen = true → Waits (.discard tk ra rb) s)
          ∧ (l.any s.putsOpen = false → does fun u => u.apart = (l.foldl State.killPage s).apart)))
    -- one page of 65,536 bytes of the crew's context: what becomes dead
    ∧ (∀ x : Xlat, s.cur.role ≠ .fw → a % 65536 = 0 → n = 65536 → a + n ≤ 2 ^ 48 → s.translateHere a .write = .ok x →
      x.leaf2.level = 4 → x.size = 65536 → x.pa % 65536 = 0 → s.mem.bad x.leaf2.at_ 8 = false →
      let page (q : Nat) : Prop := x.pa ≤ q ∧ q < x.pa + 65536
      let entry (q : Nat) : Prop := x.leaf2.at_ ≤ q ∧ q < x.leaf2.at_ + 8
      (entryRem x.leaf2.entry = false → memWf s.mem.hbm = true → (∀ q, page q → ¬entry q) →
        (∀ g ∈ s.mem.stores, ∀ q, g.byteAt q ≠ none → (page q ↔ page g.pa)) → does fun u =>
          entryDead (readEntry u.mem.hbm x.leaf2.at_) = true
          ∧ (∀ core crew role q, page q → u.mem.load (u.sees core crew role) x.key q = 0)
          ∧ (∀ g, ¬page g.pa → (g ∈ u.mem.stores ↔ g ∈ s.mem.stores))
          ∧ ∀ q, ¬page q → ¬entry q → memGet u.mem.hbm q = memGet s.mem.hbm q)
      ∧ (entryRem x.leaf2.entry = true → memWf s.mem.hbm = true →
        let there (peer pa : Nat) : Prop := peer = entryKey x.leaf2.entry ∧ page pa
        (∀ r ∈ s.mem.remote, there r.peer r.pa → r.put = none ∨ r.acked ≠ none ∨ r.refused = true) → does fun u =>
          entryDead (readEntry u.mem.hbm x.leaf2.at_) = true
          ∧ (∀ r ∈ u.mem.remote, there r.peer r.pa → r.under ≠ none ∧ s.coversMine r.writer = false)
          ∧ (∀ c, ∀ l ∈ (u.core c).lines, ¬there l.peer l.pa)
          ∧ u.mem.stores = s.mem.stores
          ∧ ∀ q, ¬entry q → memGet u.mem.hbm q = memGet s.mem.hbm q))

/-- R94, R95, R191, R197: `binit`, `barv`, `bard` and `bart` on an object that can be reached, the barrier's scope covered, reach it
through the combine port in this clock, the issuer's stores released at the object's scope; the object's bytes change only in
the port's update. An address that fails its checks traps, a locked bank is waited for, and an uncorrectable object traps
POOL_ECC. `bwait` goes on once the phase differs from its operand's bit 0, and acquires at the object's scope what was
published no later than the phase completed, with the bytes of the transfers that updated it; it waits before that. `btest`
reads the phase with bits [103:97]. `binit` makes the same checks of its address, of its own core alone, waits for a locked bank and reads
no object. The wait for a locked bank, the scope of a code that names none and the order of `binit`'s checks are the model's readings
(DEDUCED, log 23). -/
def Obligations.BarrierWords : Prop :=
  (∀ (s : State) (tk : Tok) (ra rb : XReg) (b : BarRef), s.Clear tk →
     let v := (s.getX rb).toNat
     let c := s.core b.core
     let arrivals (p : Instr → Prop) : Prop := p (.barv tk ra) ∧ p (.bard tk ra) ∧ p (.bart tk ra rb)
     let sends (i : Instr) (k : CombKind) : Prop := Answers i s fun u =>
       u.apart = ((s.publish (c.barScope b.place)).combine b.core b.place k).apart ∧ (u.core b.core).pool = c.pool
     (field (s.getX ra).toNat 62 56 ≠ 0 → arrivals fun i => Traps i s { code := 0x03, info := 0, addr := 0 })
     ∧ (∀ t, s.barRef (s.getX ra) false = .error t → arrivals fun i => Traps i s t)
     ∧ (s.barRef (s.getX ra) false = .ok b →
       (c.bankLocked none b.place 16 = true → arrivals fun i => Waits i s)
       ∧ (c.bankLocked none b.place 16 = false →
         (c.poolBad b.place 16 = true → arrivals fun i => Traps i s { code := 0x32, info := 0, addr := BitVec.ofNat 64 b.off })
         ∧ (c.poolBad b.place 16 = false →
           (s.reviveBad (c.barScope b.place = .dom) = false →
             ((c.barScope b.place = .dom → s.delivery s.remoteMine = .delivered) →
             sends (.barv tk ra) .arrive ∧ sends (.bard tk ra) .drop ∧ sends (.bart tk ra rb) (.bytes (sext v 32)))
             ∧ (c.barScope b.place = .dom → s.delivery s.remoteMine = .waiting → arrivals fun i => Waits i s)
             ∧ ∀ va, c.barScope b.place = .dom → s.delivery s.remoteMine = .refused va → arrivals fun i =>
               exec i s = .next (raise { code := 0x14, info := 1, addr := va } s.holdRefused)))))
     ∧ (∀ t, s.barRef (s.getX ra) true = .error t → Traps (.binit tk ra rb) s t)
     ∧ (s.barRef (s.getX ra) true = .ok b → c.bankLocked none b.place 16 = true → Waits (.binit tk ra rb) s)
     ∧ (let off := field (s.getX ra).toNat 22 0
       (field (s.getX ra).toNat 62 56 ≠ 0 ∨ field (s.getX ra).toNat 47 23 ≠ 0 ∨ field (s.getX ra).toNat 63 63 = 1 →
         Traps (.binit tk ra rb) s { code := 0x03, info := 0, addr := 0 })
       ∧ (field (s.getX ra).toNat 62 56 = 0 → field (s.getX ra).toNat 47 23 = 0 → field (s.getX ra).toNat 63 63 = 0 →
         ∀ t, atomCheck s.part off 16 16 = some t → Traps (.binit tk ra rb) s t))
     ∧ (s.barRef (s.getX ra) true = .ok b → c.bankLocked none b.place 16 = false →
       let traps (code : BitVec 8) : Prop := Traps (.binit tk ra rb) s { code := code, info := 0, addr := 0 }
       ((2 ^ 27 ≤ v ∨ v % 2 ^ 24 = 0) → traps 0x03)
       ∧ (v < 2 ^ 27 → v % 2 ^ 24 ≠ 0 →
         (6 ≤ v / 2 ^ 24 → traps 0x42)
         ∧ ∀ sc, scopeOf (v / 2 ^ 24) = some sc →
           (s.admits sc = false → traps 0x42)
           ∧ (s.admits sc = true → Runs (.binit tk ra rb) s
               (s.combine b.core b.place (.init (BitVec.ofNat 24 (v % 2 ^ 24)) (BitVec.ofNat 3 (v / 2 ^ 24))))))))
  ∧ (∀ (s : State) (tk : Tok) (rd ra rb : XReg) (b : BarRef), s.Clear tk →
     (∀ t, s.barRef (s.getX ra) true = .error t → Traps (.bwait tk ra rb) s t ∧ Traps (.btest tk rd ra) s t)
     ∧ (s.barRef (s.getX ra) true = .ok b →
       (s.here.bankLocked none b.place 16 = true → Waits (.bwait tk ra rb) s ∧ Waits (.btest tk rd ra) s)
       ∧ (s.here.bankLocked none b.place 16 = false → s.here.poolBad b.place 16 = true →
         let t : TrapReq := { code := 0x32, info := 0, addr := BitVec.ofNat 64 b.off }
         Traps (.bwait tk ra rb) s t ∧ Traps (.btest tk rd ra) s t)
       ∧ (s.here.bankLocked none b.place 16 = false → s.here.poolBad b.place 16 = false → s.here.barPending b.place = false →
         let phase := s.here.barObj b.place / 2 ^ 96 % 2
         let scope := s.here.barScope b.place
         let side := s.here.barSide b.place
         (phase ≠ (s.getX rb).toNat % 2 → Answers (.bwait tk ra rb) s fun u =>
             (s.inLine → u.pc = s.pc + 4) ∧ u.apart = (s.acquireBar b).apart ∧ (∀ r, u.getX r = s.getX r)
             ∧ u.here.pool = s.here.pool ∧ u.mem.stores = s.mem.stores
             ∧ (∀ g, s.seesHere g = true → u.seesHere g = true)
             ∧ ∀ t, side.doneAt = some t → ∀ g ∈ s.mem.stores, g.under = none →
                 ((g.writer = .peer → scope = .dom)
                   → (∃ p ∈ g.pubs, p.clock ≤ t ∧ within p.scope p.spot s.spotHere = true ∧ within scope s.spotHere p.spot = true)
                   → u.seesHere g = true)
                 ∧ ∀ id ∈ side.cmdsDone, g.writer = .cmd id → u.seesHere g = true)
         ∧ (phase = (s.getX rb).toNat % 2 → Waits (.bwait tk ra rb) s)
         ∧ Runs (.btest tk rd ra) s (s.setX rd (BitVec.ofNat 64 (s.here.barObj b.place / 2 ^ 96 % 2 ^ 8))))))

/-- R96: one update applies every operation of its clock and then tests completion once: a phase completes exactly when
`pending` and `bytes` are both 0 with `reset` above 0, which inverts the phase bit and loads `pending` with `reset`. -/
def Obligations.BarrierUpdate : Prop :=
  ∀ (clock place obj : Nat) (side : BarSide) (ops : List CombKind),
    (∀ k ∈ ops, match k with
      | .init .. => False
      | _ => True) →
    let r := (barUpdate clock place (obj, side) ops).1
    let pending := (field obj 31 0 + 2 ^ 32 * ops.length - (ops.map fun k => k.arrivals.toNat).sum) % 2 ^ 32
    let reset := (field obj 63 32 + 2 ^ 32 * ops.length - (ops.map fun k => k.drops.toNat).sum) % 2 ^ 32
    let bytes := (((field obj 95 64 : Int) + (ops.map CombKind.byteSum).foldl (fun a x => a + x) 0) % 2 ^ 32).toNat
    let completes := pending = 0 ∧ bytes = 0 ∧ 0 < reset ∧ reset < 2 ^ 31
    (completes → field r 96 96 = 1 - field obj 96 96 ∧ field r 31 0 = reset)
    ∧ (¬completes → field r 96 96 = field obj 96 96 ∧ field r 31 0 = pending)
    ∧ field r 63 32 = reset ∧ field r 95 64 = bytes ∧ field r 103 97 = field obj 103 97

/-- R180, R181, R182, R87, R95, R99: a wait that has outlasted `waitlim` traps, TOKEN_TIMEOUT for a pop or a held push,
BAR_TIMEOUT with the barrier's offset, MBOX_TIMEOUT with the mailbox index, and no wait below the limit does. TOKEN_PUSH performs
the oldest held push in both neighbours' queues at once when it is ready and fits; at the end of the clock, after its other
work, each queue takes the tokens pushed in it, before the crews that have begun issue their entry words in the next (R170). -/
def Obligations.PushesAndTimeouts : Prop :=
  (∀ s : State,
     (∀ p, s.seq.pushWait = some p → p.kind = .push → s.waitlim < s.waited p →
       Traps .tokenTimeout s { code := 0x20, info := 0, addr := 0 })
     ∧ (∀ w, s.seq.wait = some w → s.waitlim < s.waited w → (∀ p, s.seq.pushWait = some p → s.waited p ≤ s.waitlim) →
       (w.kind = .pops → Traps .tokenTimeout s { code := 0x20, info := 0, addr := 0 })
       ∧ (∀ off, w.kind = .barrier off → Traps .barTimeout s { code := 0x21, info := 0, addr := BitVec.ofNat 64 off })
       ∧ (∀ i, w.kind = .mailbox i → Traps .mboxTimeout s { code := 0x22, info := 0, addr := BitVec.ofNat 64 i }))
     ∧ ((∀ p, s.seq.pushWait = some p → s.waited p ≤ s.waitlim) → (∀ w, s.seq.wait = some w → s.waited w ≤ s.waitlim) →
       exec .tokenTimeout s = .next s ∧ exec .barTimeout s = .next s ∧ exec .mboxTimeout s = .next s))
  ∧ (∀ (s : State) (h : HeldPush), s.cur.role ≠ .fw → s.seq.held = [h] →
     s.crew.pushReady s.cur.role.stream h = true → s.crew.pushFits s.cur.role.stream h = true →
     Answers .tokenPush s fun u =>
       u.apart = s.apart ∧ u.pc = s.pc ∧ u.seq.held = [] ∧ u.seq.pushWait = none
       ∧ (u.crew.queues.get (queueToSucc s.cur.role.stream)).incoming.length
           = (s.crew.queues.get (queueToSucc s.cur.role.stream)).incoming.length + h.toN
       ∧ (u.crew.queues.get (queueToPred s.cur.role.stream)).incoming.length
           = (s.crew.queues.get (queueToPred s.cur.role.stream)).incoming.length + h.toP
       ∧ ∀ i, (u.crew.queues.get i).toks = (s.crew.queues.get i).toks)
  ∧ (∀ (s : State) (h : HeldPush), s.seq.held = [h] → s.seq.pushWait = none →
     s.crew.pushReady s.cur.role.stream h = true → s.crew.pushFits s.cur.role.stream h = false →
     Answers .tokenPush s fun u =>
       u.apart = s.apart ∧ u.pc = s.pc ∧ u.seq.held = [h] ∧ u.seq.wait = s.seq.wait
       ∧ u.seq.pushWait = some { kind := .push, since := s.cycle, held0 := s.crew.trapHeld })
  ∧ ∀ s : State,
     let worked := s.retryBoxes.combineAll.retestBarriers.arrayClocks
     let epoch := nextOf worked (exec .epochBoundary worked)
     let m := (epoch.startDue.preemptDue epoch.npu.cmds.length).haltLate.haltDue.completeBlocks.exportsDue
     -- `u` is the next clock before the crews that have begun issue their entry words in it
     ∃ u : State, s.clockTurn = .next u.enterCrews ∧ u.pos = 0 ∧ u.cycle = (if m.boot.stage = .ready then m.cycle + 1 else m.cycle)
       ∧ ((∀ core crew, (u.crewAt core crew).entry = false) → u.enterCrews = u)
       ∧ ∀ core crew i, (u.crewAt core crew).queues.get i =
           { toks := ((m.crewAt core crew).queues.get i).toks ++ ((m.crewAt core crew).queues.get i).incoming
             popped := 0, incoming := [] }

/-! ### Casement and the sampler -/

/-- R102, R103, R229, R232, R233: the `gau` words on a live sequence of the context whose masks are complete, when no word that
reached Casement before waits; else they wait in their turn (R235). `gstat` reads the fields of Table 5.8; `gadv` gives status 2 for a token
of V or above and 1 after `fin`, changes nothing unless its status is 0, and then pushes a checkpoint; `gfork` copies under a free
handle; `groll` takes the last checkpoint that it removes; `gfree` ends the sequence; `gmask` queues a mask. A handle that names
no such sequence traps GAU_FAULT. `gnew` makes a sequence in its image's start state under a handle that no live sequence has, and
gives all ones when no record can be had; a misaligned address or a header that R229 refuses traps GAU_FAULT with the address.
That these words of the firmware context, which is of no context, trap GAU_FAULT is the model's choice (log 21). -/
def Obligations.SequenceWords : Prop :=
  (∀ (s : State) (tk : Tok) (rd ra rb : XReg) (g : Sgr), s.Clear tk → s.cur.role ≠ .fw →
     let d := s.dropGWait.dieHere
     let h := (s.getX ra).toNat
     let v := (s.getX rb).toNat
     let sets (i : Instr) (d2 : Die) (x : Nat) : Prop := Runs i s ((s.setDieHere d2).setX rd (BitVec.ofNat 64 x))
     let traps (i : Instr) (code : BitVec 8) : Prop :=
       exec i s = .next (raise { code := code, info := 0, addr := 0 } s.dropGWait)
     let behind : Prop := s.gBehind s.dieHere = true
     let waits (i : Instr) : Prop := Answers i s fun u => u.apart = s.noteGWait.apart ∧ u.pc = s.pc
     (∀ i : Instr, (i = .gfork tk rd ra ∨ i = .gadv tk rd ra rb ∨ i = .groll tk rd ra rb ∨ i = .gfree tk ra
           ∨ i = .gstat tk rd ra) →
         (behind ∨ (d.sgr? h = some g ∧ g.ctx = s.crew.ctx ∧ ∃ m ∈ d.masks, m.handle = g.handle)) → waits i)
     ∧ (behind → waits (.gmask tk ra rb))
     ∧ (d.sgr? h = some g → g.ctx = s.crew.ctx → ¬behind → (∀ m ∈ d.masks, m.handle ≠ g.handle) →
       (∀ acc, s.casAccepts g = .ok acc → Runs (.gstat tk rd ra) s (s.dropGWait.setX rd (BitVec.ofNat 64
         (g.state + g.depth * 2 ^ 16 + g.ckpts.length * 2 ^ 32 + acc.toNat * 2 ^ 40 + g.fin.toNat * 2 ^ 41
           + g.fail.toNat * 2 ^ 42))))
       ∧ (ghV g.hdr ≤ v → sets (.gadv tk rd ra rb) d 2)
       ∧ (v < ghV g.hdr → g.fin = true → sets (.gadv tk rd ra rb) d 1)
       ∧ (∀ r, s.casAdvance d g v = .ok r → sets (.gadv tk rd ra rb) r.2 r.1 ∧ (r.1 ≠ 0 → r.2 = d)
           ∧ (r.1 = 0 → ∃ g2, r.2.sgr? h = some g2 ∧ g2.ckpts =
               ({ state := g.state, top := g.top, depth := g.depth, fin := g.fin } :: g.ckpts).take 8))
       ∧ (s.recRoom d g.ctx = true → (∀ m ∈ d.nodes, d.refs m.num + 1 + g.ckpts.length ≤ 65535) →
           ∃ k d2, k < 16384 ∧ d.sgr? k = none ∧ d2.sgrs = { g with handle := k, fail := false } :: d.sgrs
             ∧ sets (.gfork tk rd ra) d2 k)
       ∧ (s.recRoom d g.ctx = false → Runs (.gfork tk rd ra) s (s.dropGWait.setX rd (BitVec.allOnes 64)))
       ∧ (v ≤ 8 → ∃ d2 g2, sets (.groll tk rd ra rb) d2 (Min.min v g.ckpts.length) ∧ d2.sgr? h = some g2
           ∧ g2.ckpts = g.ckpts.drop v ∧ (Min.min v g.ckpts.length = 0 → g2 = g)
           ∧ ∀ k q, Min.min v g.ckpts.length = k + 1 → g.ckpts[k]? = some q →
               g2.state = q.state ∧ g2.top = q.top ∧ g2.depth = q.depth ∧ g2.fin = q.fin)
       ∧ (8 < v → traps (.groll tk rd ra rb) 0x03)
       ∧ (∃ d2, Runs (.gfree tk ra) s (s.setDieHere d2) ∧ d2.sgr? h = none ∧ (∀ q ∈ d2.sgrs, q ∈ d.sgrs)
           ∧ ∀ m ∈ d2.nodes, 0 < m.rc ∧ m.rc = d2.refs m.num)
       ∧ (field v 31 23 = 0 → field v 63 55 = 0 → poolCheck s.part (field v 22 0) (maskBytes g.hdr) 64 = none →
           atomCheck s.part (field v 54 32) 16 16 = none →
           Runs (.gmask tk ra rb) s (s.setDieHere { d with masks := d.masks ++
             [{ core := s.cur.core, crew := s.cur.crew, handle := h, off := poolPlace s.part (field v 22 0),
                bar := poolPlace s.part (field v 54 32) }] })))
     ∧ (¬behind → (d.sgr? h = none ∨ ∃ q, d.sgr? h = some q ∧ q.ctx ≠ s.crew.ctx) →
       ∀ i : Instr, (i = .gfork tk rd ra ∨ i = .gadv tk rd ra rb ∨ i = .gmask tk ra rb ∨ i = .groll tk rd ra rb
           ∨ i = .gfree tk ra ∨ i = .gstat tk rd ra) → traps i 0x50))
  ∧ (∀ (s : State) (tk : Tok) (rd ra rb : XReg) (i : Instr), s.cur.role = .fw →
     (i = .gfork tk rd ra ∨ i = .gadv tk rd ra rb ∨ i = .gmask tk ra rb ∨ i = .groll tk rd ra rb ∨ i = .gfree tk ra
       ∨ i = .gstat tk rd ra) → Traps i s { code := 0x50, info := 0, addr := 0 })
  ∧ (∀ (s : State) (tk : Tok) (rd ra : XReg), s.Clear tk → s.cur.role ≠ .fw →
     let a := (s.getX ra).toNat
     let p := s.doPops (popsOf tk)
     let d := s.dropGWait.dieHere
     (a % 64 ≠ 0 → Traps (.gnew tk rd ra) s { code := 0x50, info := 0, addr := s.getX ra })
     ∧ (a % 64 = 0 → s.gBehind s.dieHere = true →
         Answers (.gnew tk rd ra) s fun u => u.apart = s.noteGWait.apart ∧ u.pc = s.pc)
     ∧ ∀ b, a % 64 = 0 → s.gBehind s.dieHere = false → p.casBytes .walk s.crew.ctx p.casView a 64 = .ok b →
         let hdr : Image := BitVec.ofNat 512 (leNat b)
         (headerBad hdr = true →
           exec (.gnew tk rd ra) s = .next (raise { code := 0x50, info := 0, addr := s.getX ra } s.dropGWait))
         ∧ (headerBad hdr = false → s.recRoom d s.crew.ctx = false →
             Runs (.gnew tk rd ra) s (s.dropGWait.setX rd (BitVec.allOnes 64)))
         ∧ (headerBad hdr = false → s.recRoom d s.crew.ctx = true → ∃ k g, k < 16384 ∧ d.sgr? k = none
             ∧ g.handle = k ∧ g.ctx = s.crew.ctx ∧ g.gaddr = a ∧ g.hdr = hdr ∧ g.state = ghStart hdr ∧ g.depth = 0
             ∧ g.top = 0 ∧ g.fin = false ∧ g.fail = false ∧ g.ckpts = []
             ∧ Runs (.gnew tk rd ra) s ((s.setDieHere { d with sgrs := g :: d.sgrs }).setX rd (BitVec.ofNat 64 k))))

/-- R103, R234: a mask that completes writes all ⌈V/8⌉ bytes and arrives on its barrier; one that meets a fault of its image
writes none, sets the sequence's `fail`, and arrives with failure all the same. After `fin` every bit of it is 0. -/
def Obligations.MaskCompletion : Prop :=
  ∀ (s : State) (die : DieId) (h : Fin 16384) (m : GMask) (g : Sgr),
    let d := s.dies.get die
    d.masks.find? (fun q => q.handle == h.val) = some m → d.sgr? h.val = some g →
    (s.core m.core).lockedFor none m.off (maskBytes g.hdr) = false → memWf (s.core m.core).pool = true →
    let ends (fail : Bool) (u : State) : Prop :=
      (∃ q, (u.dies.get die).sgr? h.val = some q ∧ q.fail = fail ∧ q.state = g.state ∧ q.ckpts = g.ckpts)
      ∧ (u.core m.core).comb = (s.core m.core).comb ++ [{ addr := m.bar, kind := .mask fail }]
      ∧ (u.dies.get die).masks.length + 1 = d.masks.length ∧ u.mem = s.mem
    (∀ v, s.casMask d g = some (.ok v) → Answers (.gmaskComplete die h) s fun u => ends false u
        ∧ memGets (u.core m.core).pool m.off (maskBytes g.hdr) = natLe (maskBytes g.hdr) v
        ∧ ∀ x, x < m.off ∨ m.off + maskBytes g.hdr ≤ x → memGet (u.core m.core).pool x = memGet (s.core m.core).pool x)
    ∧ (∀ va, s.casMask d g = some (.error (.fault va)) → Answers (.gmaskComplete die h) s fun u => ends true u
        ∧ (u.core m.core).pool = (s.core m.core).pool)
    ∧ (g.fin = true → s.casMask d g = some (.ok 0))

/-- R104, R123, R237, R239, R241: `sdraw` queues a request and X waits at it; served, it writes the token with its status and goes
on, and a refused request traps SAMPLER_FAULT. `sstat` reads the requests waiting, the context's draws or its last reason.
The draw takes the greatest score, the lower token of two equal ones, and never a NaN: a score is the logit, or its sum with
the Gumbel term; with no score above −inf the token is V with status 1. Said of a request whose chain is one draw, whose
checks fail with the lowest code of Table 11.9; that its blocks are examined when `stages` and their place allow it is the model's
reading (DEDUCED, log 30). -/
def Obligations.SamplerWords : Prop :=
  (∀ (s : State) (tk : Tok) (rd ra : XReg), s.Clear tk →
    let v := (s.getX ra).toNat
    let d := s.dieHere
    (s.crew.draw = none → poolCheck s.part v 32 32 = none → Answers (.sdraw tk rd ra) s fun u =>
        u.pc = s.pc ∧ (∃ q, u.crew.draw = some q ∧ q.rd = rd ∧ q.off = v ∧ q.id = s.serial)
        ∧ u.dieHere.draws = d.draws ++ [{ core := s.cur.core, crew := s.cur.crew, id := s.serial }]
        ∧ (∀ r, u.getX r = s.getX r) ∧ u.mem = s.mem ∧ u.here.pool = s.here.pool)
    ∧ (∀ t, s.crew.draw = none → poolCheck s.part v 32 32 = some t → Traps (.sdraw tk rd ra) s t)
    ∧ (v = 0 → Runs (.sstat tk rd ra) s (s.setX rd (BitVec.ofNat 64 (Min.min (d.draws.length - 1) 256))))
    ∧ (v = 1 → Runs (.sstat tk rd ra) s (s.setX rd (BitVec.ofNat 64 (valueFor s.ctxHere d.drawn))))
    ∧ (v = 2 → Runs (.sstat tk rd ra) s (s.setX rd (BitVec.ofNat 64 (valueFor s.ctxHere d.reason))))
    ∧ (2 < v → Traps (.sstat tk rd ra) s { code := 0x03, info := 0, addr := 0 })
    ∧ ∀ (die : DieId) (q : DrawReq) (rest : List DrawReq) (w : Draw) (other : Nat → Nat),
        let a := s.actAs q.core q.crew .x
        (s.dies.get die).draws = q :: rest → a.crew.draw = some w → w.id = q.id → a.noRowClose →
        (other = fun t => leNat ((List.range 4).map fun i => Config.freeByte s.tick (4 * t + i))) →
        (∀ t st, serve a.here a.crew.part w.off other = .token t st → Answers (.samplerServe die) s fun u =>
            u.crew.draw = none ∧ u.getX w.rd = (if w.rd = 0 then 0 else BitVec.ofNat 64 (t + st * 2 ^ 32))
            ∧ (∀ r, r ≠ w.rd → u.getX r = a.getX r) ∧ (a.inLine → u.pc = a.pc + 4)
            ∧ (u.dies.get die).draws = rest ∧ u.here.pool = a.here.pool)
        ∧ (∀ n, serve a.here a.crew.part w.off other = .refused n → Answers (.samplerServe die) s fun u =>
            u.seq.status = .trapped ∧ u.pc = a.pc ∧ u.crew.draw = none ∧ (∀ r, u.getX r = a.getX r)
            ∧ (∃ r ∈ u.here.traps, r.code = 0x51 ∧ r.addr = BitVec.ofNat 64 w.off)
            ∧ valueFor a.crew.ctx (u.dies.get die).reason = n)
        ∧ (serve a.here a.crew.part w.off other = .locked → Answers (.samplerServe die) s fun u => u = a))
  ∧ (∀ (gum : Bool) (key step : Nat) (l : List Nat),
    let score (t : Nat) : Nat := if gum then elemAdd 0 (l.getD t 0) (gumbel key step t) else l.getD t 0
    let value (t : Nat) : FV := decodeFloat 0 (score t)
    let r := drawToken gum key step l
    (r.2 = 0 → r.1 < l.length ∧ (value r.1).isNan = false ∧ (value r.1).eqv (.inf true) = false
      ∧ ∀ t, t < l.length → (value t).isNan = false →
          (value r.1).lt (value t) = false ∧ ((value r.1).eqv (value t) = true → r.1 ≤ t))
    ∧ (r.2 = 1 ↔ ∀ t, t < l.length → (value t).isNan = true ∨ (value t).eqv (.inf true) = true)
    ∧ (r.2 = 1 → r.1 = l.length) ∧ r.2 ≤ 1)
  ∧ (∀ key step t : Nat,
    let h := laneHash (field key 31 0) (field key 63 32) (Nat.xor t (step * 2 ^ 18) % 2 ^ 32)
    gumbel key step t
      = elemNeg 0 (vlog2Bits (elemNeg 0 (vlog2Bits (roundTo 0 (.num false (2 * (h / 2 ^ 9) + 1) 1 (-24)))))))
  ∧ ∀ (c : Core) (part : XWord) (off : Nat) (other : Nat → Nat), c.locks = [] → c.settled = [] → c.badPool = [] →
    let r := requestOf (leNat (memGets c.pool (poolPlace part off) 32))
    let b := leNat (memGets c.pool (poolPlace part r.chain) 32)
    let answers (x : Served) : Prop := serve c part off other = x
    let inside (o n : Nat) : Prop := n = 0 ∨ (sBegin part ≤ o ∧ o + n ≤ allotEnd part ∧ o + n ≤ 2 ^ 23)
    let vOk : Prop := 1 ≤ r.v ∧ r.v ≤ 262144
    (r.clean = false → answers (.refused 1))
    ∧ (r.clean = true → (r.stages = 0 ∨ 8 < r.stages) → answers (.refused 2))
    ∧ (r.clean = true → r.stages = 1 → r.chain % 32 = 0 → inside r.chain 32 →
      -- one stage block with nothing set but a draw's own bits
      (field b 31 4 ≠ 0 → answers (.refused 1))
      ∧ (b % 16 = 6 → field b 31 4 = 0 → field b 255 33 = 0 →
        (¬vOk → answers (.refused 3))
        ∧ (vOk → r.logits % 64 ≠ 0 → answers (.refused 4))
        ∧ (vOk → r.logits % 64 = 0 → ¬inside r.logits (4 * r.v) → answers (.refused 6))
        ∧ (vOk → r.logits % 64 = 0 → inside r.logits (4 * r.v) →
          let l := (List.range r.v).map fun t => leNat (memGets c.pool (poolPlace part r.logits + 4 * t) 4)
          let d := drawToken (field b 32 32 = 1) r.key r.step l
          answers (.token d.1 d.2)))
      ∧ (7 ≤ b % 16 → field b 31 4 = 0 → field b 255 32 ≠ 0 → answers (.refused 1))
      ∧ (7 ≤ b % 16 → field b 31 4 = 0 → field b 255 32 = 0 → vOk → r.logits % 64 = 0 → answers (.refused 5)))

/-! ### Hinge -/

/-- R251, Table 12.3: each edge op computes as its row says on the evaluation in progress, a write to `e0` being discarded,
and goes on at the next word; `emsg` and `efin` end their parts. Nothing else changes, and none traps. -/
def Obligations.EdgeOps : Prop :=
  ∀ (s : State) (v : HingeEval) (d a b e : EReg) (imm : BitVec 15), s.crew.hinge.eval = some v →
    let reg (r : EReg) : XWord := if r = 0 then 0 else v.e.get r
    let A := reg a
    let B := reg b
    let becomes (i : Instr) (w : HingeEval) : Prop :=
      exec i s = .next (s.modCrew fun c => { c with hinge := { c.hinge with eval := some w } })
    let computes (i : Instr) (x : XWord) : Prop :=
      becomes i { v with e := if d = 0 then v.e else v.e.set d x, index := v.index + 1 }
    let test (c : Prop) [Decidable c] : XWord := if c then 1 else 0
    computes (.emov d a) A ∧ computes (.eli d imm) (BitVec.ofInt 64 imm.toInt)
    ∧ computes (.eadd d a b) (BitVec.ofNat 64 (A.toNat + B.toNat)) ∧ computes (.esub d a b) (BitVec.ofInt 64 (A.toInt - B.toInt))
    ∧ computes (.emul d a b) (BitVec.ofNat 64 (A.toNat * B.toNat))
    ∧ computes (.emin d a b) (BitVec.ofInt 64 (Min.min A.toInt B.toInt))
    ∧ computes (.emax d a b) (BitVec.ofInt 64 (Max.max A.toInt B.toInt))
    ∧ computes (.eand d a b) (A &&& B) ∧ computes (.eor d a b) (A ||| B)
    ∧ computes (.eshl d a b) (BitVec.ofNat 64 (A.toNat * 2 ^ (B.toNat % 64)))
    ∧ computes (.eshr d a b) (BitVec.ofInt 64 (A.toInt / 2 ^ (B.toNat % 64)))
    ∧ computes (.ecmp d a b 0) (test (A = B)) ∧ computes (.ecmp d a b 1) (test (A ≠ B))
    ∧ computes (.ecmp d a b 2) (test (A.toInt < B.toInt)) ∧ computes (.ecmp d a b 3) (test (A.toInt ≤ B.toInt))
    ∧ computes (.ecmp d a b 4) (test (A.toNat < B.toNat)) ∧ computes (.ecmp d a b 5) (test (A.toNat ≤ B.toNat))
    ∧ computes (.esel d a b e) (if B ≠ 0 then A else reg e)
    ∧ becomes (.emsg a) { v with result := some A, index := v.index + 1 }
    ∧ becomes (.efin a) { v with result := some (test (A ≠ 0)), index := v.index + 1 }
    ∧ becomes .eend { v with index := 64 }

/-- R105, R248: `hset` takes the pair of descriptors unless the crew's run is live; `hrun`, its checks passed, queues a run and
issues a command; `hforce` sets the mode setting of a live run and else does nothing; `hstat` reads the run. That `hset` tests the
live run first and names its first operand is the model's choice (log 43), and what `hstat` 4 reads before a count is known too
(log 31). -/
def Obligations.HingeWords : Prop :=
  ∀ (s : State) (tk : Tok) (rd ra rb : XReg), s.Clear tk → s.cur.role ≠ .fw →
    let r := s.crew.hinge
    let a := (s.getX ra).toNat
    let live : Prop := r.state = .queued ∨ r.state = .running
    let reads (sel : Nat) (v : Nat) : Prop := a = sel → Runs (.hstat tk rd ra) s (s.setX rd (BitVec.ofNat 64 v))
    (¬live → poolCheck s.part a 64 64 = none → poolCheck s.part (s.getX rb).toNat 64 64 = none →
        Runs (.hset tk ra rb) s (s.modCrew fun c => { c with pair := some (a, (s.getX rb).toNat) }))
    ∧ (live → Traps (.hset tk ra rb) s { code := 0x52, info := 0, addr := s.getX ra })
    ∧ (s.crew.pair = none → Traps (.hrun tk ra) s { code := 0x52, info := 0, addr := 0 })
    ∧ (∀ g d b gb db, s.crew.pair = some (g, d) → ¬live → s.barRef (s.getX ra) false = .ok b →
        s.poolRead g 64 64 = .bytes gb → s.poolRead d 64 64 = .bytes db →
        let gi : Image := BitVec.ofNat 512 (leNat gb)
        let di : Image := BitVec.ofNat 512 (leNat db)
        let place := poolPlace s.part (rdProg di)
        let prog := (List.range 64).map fun i => bytesWord (memGets s.here.pool (place + 4 * i) 4)
        graphBad s.part gi di s.hgPos s.teamSize = false → runBad s.part di = false →
        s.here.lockedFor none place 256 = false → s.here.poolBad place 256 = false →
        scanProgram .message 0 prog = none →
        Runs (.hrun tk ra) s (({ s with serial := s.serial + 1 } : State).modCrew fun c => { c with
          xcmds := c.xcmds ++ [s.serial]
          hinge := { HingeRun.idle with state := .queued, gd := gi, rd := di, prog := prog, cmd := some s.serial,
                                        order := 4 * s.cycle + s.cur.crew.val, bar := s.getX ra, setting := rdForce di } }))
    ∧ (a ≤ 2 → live → Runs (.hforce tk ra) s (s.modCrew fun c => { c with hinge := { c.hinge with setting := a } }))
    ∧ (a ≤ 2 → ¬live → Runs (.hforce tk ra) s s)
    ∧ (2 < a → Traps (.hforce tk ra) s { code := 0x03, info := 0, addr := 0 })
    ∧ reads 0 (match r.state with
        | .idle => 0
        | .queued => 1
        | .running => 2
        | .done => 3
        | .stopped => 4)
    ∧ reads 1 r.nss ∧ reads 2 (if r.state = .queued then (if r.setting = 2 then 1 else 0) else r.pull.toNat)
    ∧ reads 3 r.nsw ∧ (∀ n, r.nf = some n → reads 4 n)
    ∧ (∀ n, r.nf = none → r.first = some n → reads 4 n) ∧ (r.nf = none → r.first = none → r.state = .idle → reads 4 0) ∧ reads 5 r.nedge
    ∧ (5 < a → Traps (.hstat tk rd ra) s { code := 0x03, info := 0, addr := 0 })

/-- R105, R252 to R257: a superstep begins, and with no vertex left it arrives on its barrier. Push takes the vertices whose
`fcur` bit is set and their out-edges, pull the vertices whose finished part is false and their in-edges from active origins; for
each edge the message part runs on the registers that R252 gives, counts in `nedge`, and its message is combined into the entry,
which sets the entry's `fnext` bit where it changes; a row or a vertex that does not exist, and a word that cannot be corrected,
end the superstep in a fault. The finalize writes the changed entries to `oval`, `fnext` to `oact` and over `fcur`, and the
statistics, and ends in its update, with failure status where a write faults. Only an update that completes the phase tells a run that
waits so; a completed phase whose barrier failed stops the run, and else the sums of the records decide the next mode. The model's own readings (DEDUCED, log 31): where the frontier bit of an
entry of another block lies, and that a combine waits until that is known; the order in which a message is counted and combined; what
`hstat` 4 keeps of the first superstep; that NF is reported on a stop by failure too. -/
def Obligations.HingeRuns : Prop :=
  ∀ (s : State) (core : CoreId) (crew : CrewIx) (b : BarRef),
    let a := s.actAs core crew .hinge
    let r := a.crew.hinge
    let g := r.gd
    let d := r.rd
    let V := a.hgV
    let base := a.hgBase
    let es := entrySize d
    let vty := rdVty d
    let part := a.crew.part
    let pool := a.here.pool
    let run (u : State) : HingeRun := (u.crewAt core crew).hinge
    let step : Instr := if a.hgRun.mode then .hingePullSuperstep core crew else .hingePushSuperstep core crew
    let sent (k : CombKind) (u : State) : Prop :=
      (u.core b.core).comb = (s.core b.core).comb ++ [{ addr := b.place, kind := k }] ∧ (u.core core).hingeCur = none
    let pools (u : State) : Prop := ∀ c, (u.core c).pool = (s.core c).pool
    let free (place n : Nat) : Prop := a.here.lockedFor none place n = false ∧ a.here.poolBad place n = false
    let holds (off n v : Nat) : Prop := free (poolPlace part off) n ∧ leNat (memGets pool (poolPlace part off) n) = v
    -- a global read succeeds even where no TLB entry spares the walk of the tables
    let walked (q : State) : State := q.modHere fun c => { c with tlb := [] }
    let loads (va n v : Nat) : Prop := ∃ w x, (walked a).hgLoad va n = .loaded v w x
    let becomes (i : Instr) (h : HingeRun) : Prop := Answers i s fun u => run u = h ∧ pools u ∧ u.mem = s.mem
    let goes (i : Instr) (p : HingePhase) : Prop := becomes i { r with phase := p, eval := none }
    let arrives (fail : Bool) : Prop := Answers step s fun u =>
      (run u).phase = .arrived ∧ (run u).fault = fail ∧ sent (.hingeArrive a.hgRun.id fail) u ∧ pools u
    let row (array i lo hi : Nat) : Prop := loads (array + 4 * i) 4 lo ∧ loads (array + 4 * (i + 1)) 4 hi
    let regs : Vector XWord 16 := Vector.replicate 16 0
    let value (ty v : Nat) : XWord := if ty = 0 then BitVec.ofInt 64 (sext v 32) else BitVec.ofNat 64 v
    let evaluates (i : Instr) (finished : Bool) (target : Nat) (e : Vector XWord 16) : Prop :=
      becomes i { r with
        eval := some { finished := finished, target := target, index := if finished then finishedStart r.prog else 0, e := e,
                       result := none, counted := false } }
    let message (weights edge origin target : Nat) : Prop := ∀ ov w, loads (gdOval g + 4 * origin) 4 ov →
      (weights = 0 ∧ w = 0) ∨ (weights ≠ 0 ∧ ∃ v, loads (weights + 4 * edge) 4 v ∧ w = hingeIn (rdXs d) (rdWty d) v) →
      evaluates step false target (((regs.set 1 (hingeIn (rdXs d) vty ov)).set 2 w).set 4 (BitVec.ofNat 64 origin))
    let finished (i : Instr) (n : Nat) : Prop := ∀ e, holds (gdDval g + es * n) es e →
      evaluates i true n ((regs.set 3 (value vty e)).set 5 (BitVec.ofNat 64 (base + n)))
    let combines (v : HingeEval) (m : XWord) (after : Nat → State → Prop) : Prop :=
      ∀ oc ow q n fr, a.hgOwner v.target = some (oc, ow, q, n) → a.hgFrontOf oc ow q = some fr → memWf (s.core oc).pool = true →
        let p := (s.crewAt oc ow).part
        let ePlace := poolPlace p (gdDval g + es * n)
        let fPlace := poolPlace p (fr + n / 8)
        let clear (place k : Nat) : Prop := (s.core oc).lockedFor none place k = false ∧ (s.core oc).poolBad place k = false
        let old := leNat (memGets (s.core oc).pool ePlace es)
        let new := (combineEntry vty (rdCop d) (value vty old) m).toNat % 2 ^ (8 * es)
        clear ePlace es → clear fPlace 1 → (fPlace < ePlace ∨ ePlace + es ≤ fPlace) →
        Answers step s fun u =>
          leNat (memGets (u.core oc).pool ePlace es) = new
          ∧ (memGet (u.core oc).pool fPlace).toNat =
              (if new = old then (memGet (s.core oc).pool fPlace).toNat
                else Nat.lor (memGet (s.core oc).pool fPlace).toNat (2 ^ (n % 8)))
          ∧ (∀ x, x ≠ fPlace → x < ePlace ∨ ePlace + es ≤ x → memGet (u.core oc).pool x = memGet (s.core oc).pool x)
          ∧ (∀ c, c ≠ oc → (u.core c).pool = (s.core c).pool) ∧ u.mem = s.mem ∧ after new u
    let stores (i : Instr) (va : Nat) (bytes : List Byte) (n : Nat) : Prop :=
      (∀ x, a.translate (.tlb 5) a.crew.ctx va .write = .ok x → entryRem x.leaf2.entry = false → x.pa + bytes.length ≤ Config.hbmBytes →
        Answers i s fun u => run u = { r with phase := .finalize n, eval := none } ∧ pools u
          ∧ ∃ st ∈ u.mem.stores, st.pa = x.pa ∧ st.bytes = bytes.map some ∧ st.key = x.key ∧ st.writer = .cmd a.hgRun.id
            ∧ ∃ p ∈ st.pubs, p.scope = .dev ∧ p.clock = s.cycle)
      ∧ ∀ c, a.translate (.tlb 5) a.crew.ctx va .write = .fault c → Answers i s fun u =>
          (run u).phase = .phase ∧ sent (.hingeFinal true) u ∧ u.mem = s.mem ∧ pools u
    a.barRef r.bar false = .ok b → (s.core b.core).poolBad b.place 16 = false → memWf pool = true →
    (a.hgTakes = true →
      (r.phase = .ready → a.hgLocked = false → Answers step s fun u =>
        run u = { r with pull := r.mode, state := .running, phase := .edges 0 0, eval := none }
        ∧ (u.core core).hingeCur = some crew)
      ∧ (∀ i j, r.phase = .check i j → a.hgRun.mode = true →
        (r.eval = none → finished step i)
        ∧ ∀ v m, r.eval = some v → v.result = some m → goes step (if m ≠ 0 then .edges (i + 1) 0 else .edges i (j + 1)))
      ∧ ∀ i j, r.phase = .edges i j →
        (r.eval = none → V ≤ i → arrives false)
        ∧ (∀ v m, r.eval = some v → v.result = some m → v.finished = false →
          (v.counted = false → a.hgLocked = false → Answers step s fun u =>
            let h := { r with nedge := r.nedge + 1, eval := some { v with counted := true } }
            run u = h ∧ memGets (u.core core).pool a.hgCounterPlace 14 = h.counters
            ∧ (∀ x, x < a.hgCounterPlace ∨ a.hgCounterPlace + 14 ≤ x → memGet (u.core core).pool x = memGet pool x)
            ∧ u.mem = s.mem)
          ∧ (v.counted = true → a.hgRun.mode = false → combines v m fun _ u => run u = { r with phase := .edges i (j + 1), eval := none })
          ∧ (v.counted = true → a.hgRun.mode = false → ∀ oc ow q n, a.hgOwner v.target = some (oc, ow, q, n) →
              a.hgFrontOf oc ow q = none → Answers step s fun u => run u = r ∧ pools u ∧ u.mem = s.mem)
          ∧ (v.counted = true → a.hgRun.mode = true → v.target = base + i → i < V →
              combines v m fun _ u => run u = { r with phase := .check i j, eval := none }))
        ∧ (a.hgRun.mode = false → r.eval = none → i < V →
          (a.here.lockedFor none (poolPlace part (gdFront g + i / 8)) 1 = false →
            a.here.poolBad (poolPlace part (gdFront g + i / 8)) 1 = true → arrives true)
          ∧ (∀ f, holds (gdFront g + i / 8) 1 f → f / 2 ^ (i % 8) % 2 = 0 → goes step (.edges (i + 1) 0))
          ∧ ∀ f lo hi, holds (gdFront g + i / 8) 1 f → f / 2 ^ (i % 8) % 2 = 1 → row (gdCsro g) i lo hi →
            (hi < lo → arrives true) ∧ (lo ≤ hi → hi ≤ lo + j → goes step (.edges (i + 1) 0))
            ∧ ∀ t, lo + j < hi → loads (gdCsrt g + 4 * (lo + j)) 4 t →
              (gdNtot g ≤ t → arrives true) ∧ (t < gdNtot g → message (gdCsrw g) (lo + j) (base + i) t))
        ∧ (a.hgRun.mode = true → r.eval = none → i < V →
          (j = 0 → finished step i)
          ∧ ∀ lo hi, j ≠ 0 → row (gdCsco g) i lo hi →
            (hi < lo → arrives true) ∧ (lo ≤ hi → hi ≤ lo + (j - 1) → goes step (.edges (i + 1) 0))
            ∧ ∀ o, lo + (j - 1) < hi → loads (gdCsci g + 4 * (lo + (j - 1))) 4 o →
              (gdNtot g ≤ o → arrives true)
              ∧ ∀ act, o < gdNtot g → loads (gdOact g + o / 8) 1 act →
                (act / 2 ^ (o % 8) % 2 = 0 → goes step (.edges i (j + 1)))
                ∧ (act / 2 ^ (o % 8) % 2 = 1 → message (gdCscw g) (lo + (j - 1)) o (base + i)))
        ∧ ∀ v m, a.hgRun.mode = true → r.eval = some v → v.result = some m → v.finished = true →
            goes step (if m ≠ 0 then .edges (i + 1) 0 else .edges i (j + 1)))
    ∧ (a.hgFinalizes = true → ∀ i, r.phase = .finalize i →
      let fin : Instr := .hingeFinalize core crew
      let F := a.hgF
      let acts := V + ceilDiv V 8
      let front := poolPlace part (gdFront g)
      let ended : Prop := Answers fin s fun u => (run u).phase = .phase ∧ sent (.hingeFinal false) u
      (r.fault = true → ended)
      ∧ (r.fault = false →
        (∀ f, i < V → holds (gdFront g + F + i / 8) 1 f →
          (f / 2 ^ (i % 8) % 2 = 0 → goes fin (.finalize (i + 1)))
          ∧ ∀ e, f / 2 ^ (i % 8) % 2 = 1 → holds (gdDval g + es * i) es e →
              stores fin (gdOval g + 4 * (base + i)) (natLe 4 (hingeOut (rdXs d) vty (value vty e))) (i + 1))
        ∧ (∀ f, V ≤ i → i < acts → holds (gdFront g + F + (i - V)) 1 f →
            stores fin (gdOact g + base / 8 + (i - V)) [BitVec.ofNat 8 f] (i + 1))
        ∧ (i = acts → free front (2 * F) → poolPlace part (gdFront g + F) = front + F → Answers fin s fun u =>
            run u = { r with phase := .finalize (i + 1), eval := none, nfs := 0, mf := 0, mu := 0
                             first := r.first.orElse fun _ => some (popBits (leNat (memGets pool front F)) V) }
            ∧ memGets (u.core core).pool front F = memGets pool (front + F) F
            ∧ memGets (u.core core).pool (front + F) F = List.replicate F 0
            ∧ (∀ x, x < front ∨ front + 2 * F ≤ x → memGet (u.core core).pool x = memGet pool x) ∧ u.mem = s.mem)
        ∧ (∀ k, i = acts + 1 + k → k < V →
          (r.eval = none → finished fin k)
          ∧ ∀ v done lo hi f, r.eval = some v → v.result = some done → row (gdCsro g) k lo hi → lo ≤ hi →
            holds (gdFront g + k / 8) 1 f →
            let on := f / 2 ^ (k % 8) % 2
            becomes fin { r with phase := .finalize (i + 1), eval := none, nfs := r.nfs + on, mf := r.mf + on * (hi - lo)
                                 mu := r.mu + if done = 0 then hi - lo else 0 })
        ∧ (∀ k, i = acts + 1 + V + k → k < 4 → stores fin (gdTstat g + 32 * a.hgPos + 8 * k)
            (natLe 8 ([r.nfs % 2 ^ 64, r.mf % 2 ^ 64, r.mu % 2 ^ 64, 0].getD k 0)) (i + 1))
        ∧ (acts + 1 + V + 4 ≤ i → (∀ q ∈ s.mem.remote, q.writer = .cmd a.hgRun.id → q.open_ = false) → ended)))
    ∧ (∀ t fail sc, a.hgActive = true → (r.state = .queued ∨ r.state = .running) → r.phase = .phase → a.hgLocked = false →
      r.ended = some (t, fail, sc) →
      let p := a.acquire core (a.spot core crew) sc fun c => c ≤ t
      ∀ nf mf mu : Nat → Nat,
        (∀ q, q < runBlocks g → ∀ k, k < 3 → ∃ w x, (walked p).hgLoad (gdTstat g + 32 * q + 8 * k) 8 =
          .loaded ((if k = 0 then nf else if k = 1 then mf else mu) q) w x) →
        let sum (f : Nat → Nat) : Nat := ((List.range (runBlocks g)).map f).sum
        Answers (.hingeCompletion core crew) s fun u =>
          let ends (st : HingeState) : Prop := (run u).state = st ∧ ∀ id, r.cmd = some id → id ∉ (u.crewAt core crew).xcmds
          (run u).nss = r.nss + 1 ∧ (run u).nf = some (sum nf)
          ∧ (fail = true → ends .stopped)
          ∧ (fail = false → (sum nf = 0 ∨ r.nss + 1 = rdMaxss d) → ends .done)
          ∧ (fail = false → sum nf ≠ 0 → r.nss + 1 ≠ rdMaxss d →
              let m : Bool := if r.setting = 1 then false else if r.setting = 2 then true
                else if r.pull then !(sum nf * rdBeta d < gdNtot g * 256) else sum mu * 256 < sum mf * rdAlpha d
              (run u).state = r.state ∧ (run u).phase = .ready ∧ (run u).pull = m
              ∧ (r.nsw < 65535 → (run u).nsw = if m ≠ r.pull then r.nsw + 1 else r.nsw)))
    ∧ (a.hgActive = true → r.phase = .phase → r.ended = none → Answers (.hingeCompletion core crew) s fun u =>
        run u = r ∧ pools u ∧ u.mem = s.mem)
    ∧ (∀ (h : HingeRun) (id : Nat) (runs : List Nat) (t : Nat) (fail : Bool) (sc : Scope), h.cmd = some id →
        (h.hear (.done runs t fail sc)).ended = (if id ∈ runs then some (t, fail, sc) else h.ended))
    ∧ ∀ (ty cop : Nat) (e m : XWord), cop < 4 →
        let narrow : XWord := if ty = 2 then m else if 2 ≤ cop then m &&& 0xFFFFFFFF
          else if ty = 0 then BitVec.ofInt 64 (Max.max (-2147483648) (Min.min 2147483647 m.toInt))
          else BitVec.ofInt 64 (Max.max 0 (Min.min 4294967295 m.toInt))
        let below (x y : XWord) : Prop := if ty = 1 then x.toNat < y.toNat else x.toInt < y.toInt
        (cop = 0 → (below narrow e → combineEntry ty cop e m = narrow) ∧ (¬ below narrow e → combineEntry ty cop e m = e))
        ∧ (cop = 1 → (below e narrow → combineEntry ty cop e m = narrow) ∧ (¬ below e narrow → combineEntry ty cop e m = e))
        ∧ (cop = 2 → combineEntry ty cop e m = e ||| narrow) ∧ (cop = 3 → combineEntry ty cop e m = e + narrow)

/-! ### Vector words of C -/

/-- R107, R109, R112, R113, R117 to R120, R124 to R127: a vector word on registers writes, in its destination, every container
that is active and whose lane's guard bit is set with the value that its table gives for the elements of its sources, and
changes nothing else. -/
def Obligations.VectorElements : Prop :=
  ∀ (s : State) (tk : Tok) (pg : PReg) (d a b : VReg) (aS : AReg) (lane : BitVec 6), s.Clear tk → s.crew.mq.length < 16 →
    let h := s.shape
    let container (v : VWord) (k : Nat) : Nat := v.toNat / 2 ^ (h.cw * k) % 2 ^ h.cw
    let elem (r : VReg) (k : Nat) : Nat := container (s.getV r) k % 2 ^ h.ew
    let A := elem a
    let B := elem b
    let D := elem d
    let x (k : Nat) : FV := decodeFloat h.ty (A k)
    let y (k : Nat) : FV := decodeFloat h.ty (B k)
    let f : Bool := typeFloat h.ty
    let writes (i : Instr) (g : Nat → Nat) : Prop := ∃ v, Runs i s (s.setV d v) ∧
      ∀ k, k < h.cap → container v k =
        if k < h.cnt ∧ laneBit (s.getP pg) h.cw k = true then g k % 2 ^ h.cw else container (s.getV d) k
    let int : Bool := typeInt h.ty
    let flat : Prop := h.ty = 0 ∧ h.pack = 0
    let rd : VDst := .reg d
    let ra : VSrc := .reg a
    let rb : VSrc := .reg b
    writes (.vadd tk pg rd ra rb) (fun k => if f then roundTo h.ty ((x k).add (y k)) else (A k + B k) % 2 ^ h.ew)
    ∧ writes (.vsub tk pg rd ra rb) (fun k =>
        if f then roundTo h.ty ((x k).sub (y k)) else (A k + (2 ^ h.ew - B k)) % 2 ^ h.ew)
    ∧ writes (.vmul tk pg rd ra rb) (fun k => if f then roundTo h.ty ((x k).mul (y k)) else A k * B k % 2 ^ h.ew)
    ∧ writes (.vfma tk pg rd ra rb) (fun k => if f then roundTo h.ty (((x k).mul (y k)).add (decodeFloat h.ty (D k)))
        else (A k * B k + D k) % 2 ^ h.ew)
    ∧ writes (.vmin tk pg rd ra rb) (fun k => elemMin h.ty (A k) (B k))
    ∧ writes (.vmax tk pg rd ra rb) (fun k => elemMax h.ty (A k) (B k))
    ∧ writes (.vclamp tk pg rd ra rb) (fun k => elemMin h.ty (elemMax h.ty (D k) (A k)) (B k))
    ∧ writes (.vabs tk pg rd ra) (fun k => elemAbs h.ty (A k)) ∧ writes (.vneg tk pg rd ra) (fun k => elemNeg h.ty (A k))
    ∧ writes (.vand tk pg rd ra rb) (fun k => Nat.land (A k) (B k))
    ∧ writes (.vor tk pg rd ra rb) (fun k => Nat.lor (A k) (B k))
    ∧ writes (.vxor tk pg rd ra rb) (fun k => Nat.xor (A k) (B k))
    ∧ (int = true → writes (.vshl tk pg rd ra rb) (fun k => A k * 2 ^ (B k % h.ew) % 2 ^ h.ew)
        ∧ writes (.vshr tk pg rd ra rb) (fun k => A k / 2 ^ (B k % h.ew))
        ∧ writes (.vsra tk pg rd ra rb) (fun k => elemSra h.ty (A k) (B k))
        ∧ writes (.vpopc tk pg rd ra) (fun k => elemPopc h.ty (A k)))
    ∧ (int = false → Traps (.vshl tk pg rd ra rb) s { code := 0x02, info := 0, addr := 0 })
    ∧ (flat → writes (.vrsq tk pg rd ra) (fun k => vrsqBits (A k)) ∧ writes (.vrcp tk pg rd ra) (fun k => vrcpBits (A k))
        ∧ writes (.vlog2 tk pg rd ra) (fun k => vlog2Bits (A k)) ∧ writes (.vexp2 tk pg rd ra) (fun k => vexp2Bits (A k)))
    ∧ writes (.vperm tk pg rd ra rb) (fun k => if B k < h.cnt then (if B k < h.cap then A (B k) else 0) else 0)
    ∧ writes (.vbcA tk pg rd aS) (fun _ => (s.getA aS).toNat % 2 ^ h.ew)
    ∧ writes (.vbcLane tk pg rd ra lane) (fun _ => if lane.toNat < h.cap then A lane.toNat else 0)
    ∧ (h.pack = 0 → writes (.vrng tk pg rd ra rb) (fun k =>
        laneHash (container (s.getV b) 0) (container (s.getV b) 1) (container (s.getV a) k)))
    ∧ (int = true → h.pack = 0 → container (s.getV b) 1 ≤ 31 → writes (.vrqnt tk pg rd ra rb) (fun k =>
        intCode h.ew (clampInt (intMin h.ty) (intMax h.ty)
          (requant (sext (container (s.getV a) k) 32) (sext (container (s.getV b) 0) 32) (container (s.getV b) 1)))))
    ∧ (int = true → h.pack = 0 → 31 < container (s.getV b) 1 →
        Traps (.vrqnt tk pg rd ra rb) s { code := 0x03, info := 0, addr := 0 })

/-- R114, R115, R117, R122, R123: compares set the bit of each guarded lane that has an active element when the relation
holds for all of them; `vsel` writes every active container; conversions write containers of the target's width; `vsum` and
`vmaxi` write every lane. Nothing else changes. -/
def Obligations.VectorSelections : Prop :=
  ∀ (s : State) (tk : Tok) (pg pd : PReg) (d a b : VReg) (ty : BitVec 4), s.Clear tk → s.crew.mq.length < 16 →
    let h := s.shape
    let container (w : Nat) (v : VWord) (k : Nat) : Nat := v.toNat / 2 ^ (w * k) % 2 ^ w
    let elem (r : VReg) (k : Nat) : Nat := container h.cw (s.getV r) k % 2 ^ h.ew
    let g := s.getP pg
    let tests (i : Instr) (rel : Nat → Nat → Bool) : Prop := ∃ p : PWord, Runs i s (s.setP pd p) ∧ ∀ j, j < 64 →
      (p.getLsbD j = true ↔ if g.getLsbD j = true then
          (∃ k, k < h.cnt ∧ k < h.cap ∧ k * h.cw / 32 = j)
          ∧ ∀ k, k < h.cnt → k < h.cap → k * h.cw / 32 = j → rel (elem a k) (elem b k) = true
        else (s.getP pd).getLsbD j = true)
    let w := typeWidth ty.toNat
    let writes (i : Instr) (w n : Nat) (f : Nat → Option Nat) : Prop := ∃ v, Runs i s (s.setV d v) ∧
      ∀ k, k < n → container w v k = match f k with
        | some x => x % 2 ^ w
        | none => container w (s.getV d) k
    let lane (r : VReg) (k : Nat) : Nat := container 32 (s.getV r) k
    tests (.vcmpeq tk pg pd (.reg a) (.reg b)) (elemEq h.ty) ∧ tests (.vcmplt tk pg pd (.reg a) (.reg b)) (elemLt h.ty)
    ∧ tests (.vcmple tk pg pd (.reg a) (.reg b)) (elemLe h.ty)
    ∧ writes (.vsel tk pg (.reg d) (.reg a) (.reg b)) h.cw h.cap (fun k =>
        if k < h.cnt then some (if laneBit g h.cw k then elem a k else elem b k) else none)
    ∧ (cvtTarget ty.toNat = true → h.cnt ≤ 2048 / w → h.cnt ≤ h.cap →
        writes (.vcvt tk pg (.reg d) (.reg a) ty) w (2048 / w) (fun k =>
          if k < h.cnt ∧ laneBit g w k = true then some (elemCvt false h.ty ty.toNat (elem a k)) else none)
        ∧ writes (.vcvts tk pg (.reg d) (.reg a) ty) w (2048 / w) (fun k =>
          if k < h.cnt ∧ laneBit g w k = true then some (elemCvt true h.ty ty.toNat (elem a k)) else none))
    ∧ (cvtTarget ty.toNat = false →
        Traps (.vcvt tk pg (.reg d) (.reg a) ty) s { code := 0x02, info := 0, addr := 0 })
    ∧ (sumType h = true → writes (.vsum tk pg (.reg d) (.reg a)) 32 64 (fun k => some (if k = 0 then
        tree64 (sumStep h.ty) ((List.range 64).map fun j =>
          if j < h.cnt ∧ g.getLsbD j = true then lane a j else if h.ty = 0 then 0x80000000 else 0) else 0)))
    ∧ (h.ty = 0 → h.pack = 0 →
        let best := ((List.range 64).filter fun j => decide (j < h.cnt) && g.getLsbD j).foldl
          (fun best j => if aboveCand (lane a j, (lane b 2 + j) % 2 ^ 32) best then (lane a j, (lane b 2 + j) % 2 ^ 32) else best)
          (lane b 0, lane b 1)
        writes (.vmaxi tk pg (.reg d) (.reg a) (.reg b)) 32 64 (fun k => some (if k = 0 then best.1
          else if k = 1 then best.2 else if k = 2 then lane b 2 + h.cnt else 0)))

/-- R111, R116, R121, R130: `vsetsh`, the predicate words, `vmva` and the port words write what their operands give and change
nothing else; an unaccepted type, or a count above the capacity, traps ILLEGAL_TYPE. -/
def Obligations.VectorSettings : Prop :=
  ∀ (s : State) (tk : Tok) (pd pa pb : PReg) (ty : BitVec 4) (pack : BitVec 2) (cnt : BitVec 8) (aC aB : AReg) (v : VReg)
    (lane : BitVec 6) (port : Fin 6) (b : List Byte), s.Clear tk → s.crew.mq.length < 16 →
    let p := s.getP pa
    let q := s.getP pb
    let t := ty.toNat
    let cw := 32 / 2 ^ pack.toNat
    let fits (n : Nat) : Prop := t ≠ 5 ∧ t ≠ 6 ∧ t ≠ 7 ∧ t ≠ 11 ∧ t ≠ 15 ∧ typeWidth t ≤ cw ∧ n ≤ 2048 / cw
    let shapes (i : Instr) (n : Nat) : Prop :=
      (fits n → Runs i s (s.modCrew fun c => { c with vsh := BitVec.ofNat 32 (t * 2 ^ 12 + pack.toNat * 2 ^ 10 + n) }))
      ∧ (¬fits n → Traps i s { code := 0x02, info := 0, addr := 0 })
    shapes (.vsetsh tk ty pack cnt) (cnt.toNat + 1) ∧ shapes (.vsetshReg tk ty pack aC) (s.getA aC).toNat
    ∧ Runs (.plogAnd tk pd pa pb) s (s.setP pd (p &&& q)) ∧ Runs (.plogOr tk pd pa pb) s (s.setP pd (p ||| q))
    ∧ Runs (.plogXor tk pd pa pb) s (s.setP pd (p ^^^ q)) ∧ Runs (.plogAndn tk pd pa pb) s (s.setP pd (p &&& ~~~q))
    ∧ Runs (.plogNot tk pd pa) s (s.setP pd (~~~p))
    ∧ Runs (.vmvaLane tk aC (.reg v) lane) s
        (s.setA aC (BitVec.ofNat 48 ((s.getV v).toNat / 2 ^ (32 * lane.toNat) % 2 ^ 32)))
    ∧ Runs (.vmvaLane tk aC .zero lane) s (s.setA aC 0)
    ∧ Runs (.vmvaVsh tk aC) s (s.setA aC (BitVec.ofNat 48 s.crew.vsh.toNat))
    ∧ Runs (.vportIdle tk port) s (s.setPort port Port.idle)
    ∧ (s.poolRead (s.getA aC).toNat 16 16 = .bytes b →
        portConfig s.part (s.getA aB).toNat (BitVec.ofNat 128 (leNat b)) = none →
        Runs (.vport tk port aB aC) s
          (s.setPort port { active := true, base := s.getA aB, record := BitVec.ofNat 128 (leNat b), pos := 0 }))

/-- R128, R131, R109: `vld` and `vst` move the active, guarded containers of the 256 bytes at a[B] + 256·sext(off9); a read
port gives one element for each active container and moves on by their number, a write port takes one; `vz` reads zero and discards, and
`vst` of it stores zeros; every byte of the pool outside the stored containers reads as before. That an idle port traps with
`trapaddr` 0 is the model's choice (log 57). -/
def Obligations.VectorMemory : Prop :=
  ∀ (s : State) (tk : Tok) (pg : PReg) (d a : VReg) (aB : AReg) (off : BitVec 9) (port : Fin 4), s.Clear tk →
    s.crew.mq.length < 16 → s.shape.pack ≤ 2 → s.shape.cnt ≤ s.shape.cap →
    let h := s.shape
    let bytes := h.cw / 8
    let g := s.getP pg
    let container (v : VWord) (k : Nat) : Nat := v.toNat / 2 ^ (h.cw * k) % 2 ^ h.cw
    let on (k : Nat) : Prop := k < h.cnt ∧ laneBit g h.cw k = true
    let o : Int := ((s.getA aB).toNat : Int) + 256 * off.toInt
    let place (k : Nat) : Nat := poolPlace s.part (o.toNat + bytes * k)
    (vmCheck s.part o = none → (∀ k, k < h.cap → s.PoolFree (o.toNat + bytes * k) bytes) →
      ∃ v, Runs (.vld tk pg d aB off) s (s.setV d v) ∧ ∀ k, k < h.cap →
        (on k → container v k = leNat (s.poolBytes (place k) bytes)) ∧ (¬on k → container v k = container (s.getV d) k))
    ∧ (vmCheck s.part o = none → (∀ k, k < h.cap → s.here.lockedFor none (place k) bytes = false) →
      memWf s.here.pool = true →
      let stores (src : VPlain) (val : Nat → Nat) : Prop := Answers (.vst tk pg src aB off) s fun u =>
        (s.inLine → u.pc = s.pc + 4) ∧ u.mem = s.mem ∧ (∀ r, u.getA r = s.getA r) ∧ (∀ r, u.crew.v.get r = s.crew.v.get r)
        ∧ (∀ k, on k → memGets u.here.pool (place k) bytes = natLe bytes (val k))
        ∧ ∀ q, (∀ k, on k → q < place k ∨ place k + bytes ≤ q) → memGet u.here.pool q = memGet s.here.pool q
      stores (.reg a) (container (s.getV a)) ∧ stores .zero fun _ => 0)
    ∧ (∀ w : Fin 2,
      let n : Fin 6 := ⟨4 + w.val, by omega⟩
      let p := s.crew.ports.get n
      let i : Instr := .vor tk pg (.port w) (.reg a) .zero
      let at_ (k : Nat) : Nat := poolPlace s.part (p.addr k)
      (p.active = false → Traps i s { code := 0x06, info := 0, addr := 0 })
      ∧ (p.active = true → recEsz p.record ≠ h.pack → Traps i s { code := 0x02, info := 0, addr := 0 })
      ∧ (p.active = true → recEsz p.record = h.pack → p.left < h.cnt →
          Traps i s { code := 0x06, info := 0, addr := BitVec.ofNat 64 p.base.toNat })
      ∧ (p.active = true → recEsz p.record = h.pack → h.cnt ≤ p.left → memWf s.here.pool = true →
        (∀ k, on k → poolCheck s.part (p.addr k) bytes 1 = none ∧ s.here.lockedFor none (at_ k) bytes = false) →
        Answers i s fun u =>
          (s.inLine → u.pc = s.pc + 4) ∧ u.mem = s.mem ∧ (∀ r, u.getA r = s.getA r) ∧ (∀ r, u.crew.v.get r = s.crew.v.get r)
          ∧ u.crew.ports = s.crew.ports.set n { p with pos := p.pos + h.cnt }
          ∧ (∀ k, on k → (∀ j, on j → k < j → at_ j + bytes ≤ at_ k ∨ at_ k + bytes ≤ at_ j) →
              memGets u.here.pool (at_ k) bytes = natLe bytes (container (s.getV a) k % 2 ^ h.ew))
          ∧ ∀ q, (∀ k, on k → q < at_ k ∨ at_ k + bytes ≤ q) → memGet u.here.pool q = memGet s.here.pool q))
    ∧ (let p := s.crew.ports.get ⟨port.val, by omega⟩
      (p.active = false → Traps (.vabs tk pg (.reg d) (.port port)) s { code := 0x06, info := 0, addr := 0 })
      ∧ (p.active = true → recEsz p.record = h.pack → h.cnt ≤ p.left → (∀ k, k < h.cnt → s.PoolFree (p.addr k) bytes) →
        ∃ v, Runs (.vor tk pg (.reg d) (.port port) .zero) s ((s.advance ⟨port.val, by omega⟩ h.cnt).setV d v)
          ∧ ∀ k, k < h.cap →
          (on k → container v k = leNat (s.poolBytes (poolPlace s.part (p.addr k)) bytes) % 2 ^ h.ew)
          ∧ (¬on k → container v k = container (s.getV d) k)))
    ∧ Runs (.vadd tk pg .zero (.reg a) (.reg a)) s s

/-- R133, R134: a `vrep` whose target is a V3 word, its range checks passed, takes the tokens of both words and does the target
once for each repetition, the vector names moved on by the strides; `n` is the count field or a[aC][15:0], and repetitions that
`rep` counts as done are left out. Between two of them the word has not retired; after the last the next word is the one after the
target, with `rep` 0 (the whole register, the model's reading, log 50). Count 0 skips the target. A failing range check traps
REG_RANGE, another target ILLEGAL_OP (R55). A trap in a repetition leaves the repetitions left and the strides in `rep`, and gives
the tokens back. Both forms complete on every target `vadd` of registers whose checks pass: repetition by repetition, with no
hypothesis on what the target does. -/
def Obligations.Repetition : Prop :=
  -- the word that `vadd` leaves in `v[d]`, FP32 (R112, R113)
  let IsSum (s : State) (pg : PReg) (d a b : VReg) (w : VWord) : Prop :=
    let h := s.shape
    let container (v : VWord) (k : Nat) : Nat := v.toNat / 2 ^ (h.cw * k) % 2 ^ h.cw
    let value (r : VReg) (k : Nat) : FV := decodeFloat 0 (container (s.getV r) k % 2 ^ h.ew)
    ∀ k, k < h.cap → container w k =
      if k < h.cnt ∧ laneBit (s.getP pg) h.cw k = true then roundTo 0 ((value a k).add (value b k)) % 2 ^ h.cw
      else container (s.getV d) k
  (∀ (s : State) (tk tk2 : Tok) (count : BitVec 8) (aC : AReg) (sd sa sb : BitVec 2) (target i : Instr) (n : Nat),
    s.cur.role = .c → s.crew.badRegs = [] →
    ((i = .vrep tk count sd sa sb ∧ n = count.toNat) ∨ (i = .vrepReg tk aC sd sa sb ∧ n = (s.getA aC).toNat % 65536)) →
    let regRange : TrapReq := { code := 0x03, info := 0, addr := 0 }
    let after (u : State) : Prop := u.pc = s.pc + 8
    let finished (t : State) : State := t.modCrew fun c => { c with repRun := none, rep := 0 }
    -- repetition `k` of `n`, on the state `b` that has the tokens; `p` and `q` are the tokens that a trap gives back
    let goes (b : State) (k n : Nat) (p q : List Token) : Prop :=
      ∀ v, v3At (k * sd.toNat) (k * sa.toNat) (k * sb.toNat) target = some v →
        (∀ t, v b = .done t → (∀ e ∈ t.seq.loops, e.last ≠ s.pc + 4) → Answers i s fun u =>
          (k + 1 = n → after u ∧ u.apart = (finished t).apart)
          ∧ (k + 1 < n → u.pc = t.pc ∧ ∃ r, u.crew.repRun = some r ∧ r.next = k + 1 ∧ r.total = n ∧ r.target = target
              ∧ u.apart = (t.modCrew fun c => { c with repRun := some r }).apart))
        ∧ ∀ t, v b = .trap t → n < 65536 → Answers i s fun u =>
            let rep := u.crew.rep.toNat
            u.seq.status = .trapped ∧ u.pc = s.pc ∧ u.crew.repRun = none ∧ u.crew.v = s.crew.v ∧ u.crew.p = s.crew.p ∧ u.mem = s.mem
            ∧ field rep 31 31 = 1 ∧ field rep 21 20 = sb.toNat ∧ field rep 19 18 = sa.toNat ∧ field rep 17 16 = sd.toNat
            ∧ field rep 15 0 = n - k
            ∧ (u.crew.queues.get (popQueueP .c)).toks = p ++ (s.crew.queues.get (popQueueP .c)).toks
            ∧ (u.crew.queues.get (popQueueN .c)).toks = q ++ (s.crew.queues.get (popQueueN .c)).toks
            ∧ ∃ r ∈ u.here.traps, r.code = t.code ∧ r.info = t.info ∧ r.addr = t.addr ∧ r.pc = s.pc
    (s.crew.repRun = none →
      (s.vrepTarget = .other → Traps i s { code := 0x01, info := 0, addr := 0 })
      ∧ (∀ a, s.vrepTarget = .perm a → Traps i s { code := 0x12, info := 2, addr := a })
      ∧ (s.vrepTarget = .v3 target → (v3At 0 0 0 target).isSome → target.tokens = some tk2 → s.crew.mq.length < 16 →
        let pops : Pops := { p := tk.popP.toNat + tk2.popP.toNat, n := tk.popN.toNat + tk2.popN.toNat }
        let left := field s.crew.rep.toNat 15 0
        let valid := s.crew.rep.getLsbD 31
        let k := if valid then n - left else 0
        let moves (name : Option Nat) (stride : BitVec 2) : Prop :=
          stride ≠ 0 → ∃ f, name = some f ∧ f + (n - 1) * stride.toNat ≤ 55
        let names := (v3Fields target).2
        let ok : Prop := (∀ e ∈ s.seq.loops, e.last ≠ s.pc) ∧ (valid = true → left ≤ n) ∧ moves names.1 sd ∧ moves names.2.1 sa
          ∧ moves names.2.2 sb
        (¬ok → Traps i s regRange)
        ∧ (ok → s.popsReady pops = true → s.creditFull pops = false →
          (n ≤ k → (∀ e ∈ s.seq.loops, e.last ≠ s.pc + 4) → Answers i s fun u => after u ∧ u.apart = (finished s).apart)
          ∧ (k < n → goes (s.doPops pops) k n [] []))))
    ∧ ∀ r, s.crew.repRun = some r → r.target = target → r.next < r.total → s.crew.creditL.length ≤ 255 →
        s.crew.creditS.length ≤ 255 → goes (s.doPops { p := 0, n := 0 }) r.next r.total r.toksP r.toksN)
  -- what a repetition of `vadd` does: the names are moved on by its number times the strides
  ∧ (∀ (s : State) (tk : Tok) (pg : PReg) (d a b d' a' b' : VReg) (k sd sa sb : Nat) (v : V3), s.crew.mq.length < 16 →
      s.crew.badRegs = [] → s.shape.ty = 0 → d'.val = d.val + k * sd → a'.val = a.val + k * sa → b'.val = b.val + k * sb →
      v3At (k * sd) (k * sa) (k * sb) (.vadd tk pg (.reg d) (.reg a) (.reg b)) = some v →
      ∃ w, v s = .done (s.setV d' w) ∧ IsSum s pg d' a' b' w)
  -- COMPLETION: a prefix of `n` repetitions of such a `vadd`, and each of its later repetitions
  ∧ ∀ (s : State) (tk tk2 : Tok) (pg : PReg) (d a b : VReg) (count : BitVec 8) (aC : AReg) (sd sa sb : BitVec 2) (i : Instr) (n : Nat),
      let target : Instr := .vadd tk2 pg (.reg d) (.reg a) (.reg b)
      let pops : Pops := { p := tk.popP.toNat + tk2.popP.toNat, n := tk.popN.toNat + tk2.popN.toNat }
      let finished (t : State) : State := t.modCrew fun c => { c with repRun := none, rep := 0 }
      ((i = .vrep tk count sd sa sb ∧ n = count.toNat) ∨ (i = .vrepReg tk aC sd sa sb ∧ n = (s.getA aC).toNat % 65536)) →
      s.cur.role = .c → s.crew.badRegs = [] → s.crew.mq.length < 16 → s.shape.ty = 0 →
      (∀ e ∈ s.seq.loops, e.last ≠ s.pc ∧ e.last ≠ s.pc + 4) →
      (s.crew.repRun = none → s.vrepTarget = .v3 target → s.crew.rep.getLsbD 31 = false →
        d.val + (n - 1) * sd.toNat ≤ 55 → a.val + (n - 1) * sa.toNat ≤ 55 → b.val + (n - 1) * sb.toNat ≤ 55 →
        s.popsReady pops = true → s.creditFull pops = false →
        (n = 0 → Answers i s fun u => u.pc = s.pc + 8 ∧ u.apart = (finished s).apart)
        ∧ (n = 1 → ∃ w, IsSum s pg d a b w ∧ Answers i s fun u => u.pc = s.pc + 8 ∧ u.apart = (finished (s.setV d w)).apart)
        ∧ (1 < n → ∃ w, IsSum s pg d a b w ∧ Answers i s fun u => u.pc = s.pc ∧ ∃ r, u.crew.repRun = some r ∧ r.next = 1
            ∧ r.total = n ∧ r.target = target ∧ u.apart = ((s.setV d w).modCrew fun c => { c with repRun := some r }).apart))
      ∧ (∀ (r : RepRun) (d' a' b' : VReg), s.crew.repRun = some r → r.target = target → r.next < r.total →
          s.crew.creditL.length ≤ 255 → s.crew.creditS.length ≤ 255 → d'.val = d.val + r.next * sd.toNat →
          a'.val = a.val + r.next * sa.toNat → b'.val = b.val + r.next * sb.toNat →
          ∃ w, IsSum s pg d' a' b' w ∧ Answers i s fun u =>
            (r.next + 1 = r.total → u.pc = s.pc + 8 ∧ u.apart = (finished (s.setV d' w)).apart)
            ∧ (r.next + 1 < r.total → u.pc = s.pc ∧ u.crew.repRun = some { r with next := r.next + 1 }
                ∧ u.apart = ((s.setV d' w).modCrew fun c => { c with repRun := some { r with next := r.next + 1 } }).apart))

/-! ### Matrix words -/

/-- R69: `rstp`, every earlier command of C retired, takes the snapshot, starts each credit at the tokens it popped from that
queue, and sets each set ring's restart head to its head; before that it waits. -/
def Obligations.RestartPoint : Prop :=
  ∀ (s : State) (tk : Tok) (mask : BitVec 16), s.Clear tk → s.cur.role = .c →
    (s.crew.mq = [] → Answers (.rstp tk mask) s fun u =>
      let c := s.crew
      u.crew.snap = { pc := s.pc, a := c.aC, vsh := c.vsh, vbase := c.vbase, pbase := c.pbase, rep := c.rep,
                      loops := c.seqC.loops, ports := c.ports, mask := mask }
      ∧ u.crew.creditL.length = tk.popP.toNat ∧ u.crew.creditS.length = tk.popN.toNat
      ∧ (∀ i, (u.crew.rings.get i).head = (c.rings.get i).head
          ∧ (u.crew.rings.get i).rhead = if (c.rings.get i).set then (c.rings.get i).head else (c.rings.get i).rhead)
      ∧ (s.inLine → u.pc = s.pc + 4) ∧ u.crew.aC = c.aC ∧ u.crew.v = c.v ∧ u.mem = s.mem ∧ u.here.pool = s.here.pool)
    ∧ (s.crew.mq ≠ [] → Waits (.rstp tk mask) s)

/-- R141, R142, R149, R151: the matrix words that set descriptors, trails, rings and leases, when no earlier matrix word is in
flight. A loaded ring has all its counts at 0; a trail that R222 refuses traps RUNG_RANGE, from `mreplay.chk` with the check tag's valid
bit as it was, and for a best-effort crew a format that pairs with itself is allowed (that one whose tag is used may arm again after a
restart is the model's reading, log 52); a crew with less than six A-partition banks gets
no lease. -/
def Obligations.MatrixSettings : Prop :=
  ∀ (s : State) (tk : Tok) (cls : MClass) (idx : Fin 16) (f : BitVec 4) (a : AReg) (d img : Image) (b : List Byte) (x : Xlat)
    (p : Nat × Nat × Nat), s.Clear tk → s.cur.role = .c → s.crew.mq = [] →
    let v := (s.getA a).toNat
    let keeps : Bool := cls = .ring && f = 8
    let T := s.tile idx
    let R := s.ring idx
    let l := s.crew.lease
    let allowed (i : Image) : Bool :=
      trailAllowed (s.ctx s.crew.ctx).contract (s.crew.bestEffort (s.ctx s.crew.ctx).contract) i
    let unset (i : Instr) : Prop := Traps i s { code := 0x02, info := 0, addr := 0 }
    (s.descriptor cls idx = some d → fieldValue cls f.toNat v = some p →
      img = BitVec.ofNat 512 (setField d.toNat p.1 p.2.1 p.2.2) → descCheck cls s.part img = none →
      (cls = .ring → keeps = false → s.crew.ringNamed idx = false) →
      Runs (.msetField tk cls idx f a) s (s.setDescriptor cls idx img keeps))
    ∧ (s.descriptor cls idx = none → unset (.msetField tk cls idx f a))
    ∧ (v % 64 = 0 → s.translateHere v .read = .ok x → entryRem x.leaf2.entry = false → entryDead x.leaf2.entry = false →
      x.pa + 64 ≤ Config.hbmBytes → s.mem.bad x.pa 64 = false →
      b = s.mem.loads (s.doPops (popsOf tk)).seesHere x.key x.pa 64 → reservedBits cls (leNat b) = false →
      descCheck cls s.part (BitVec.ofNat 512 (leNat b)) = none → (cls = .ring → s.crew.ringNamed idx = false) →
      Runs (.msetImage tk cls idx a) s
        ((s.tlbHere v x .read).setDescriptor cls idx (BitVec.ofNat 512 (leNat b)) false))
    ∧ (v % 64 ≠ 0 → Traps (.msetImage tk cls idx a) s { code := 0x08, info := 0, addr := BitVec.ofNat 64 v })
    ∧ (s.setDescriptor .ring idx img false).ring idx =
        { img := img, set := true, head := 0, tail := 0, resv := 0, rhead := 0, recs := [] }
    ∧ (T.set = true → s.poolRead v 64 64 = .bytes b → img = BitVec.ofNat 512 (leNat b) →
      (allowed img = true → Runs (.mreplay tk idx a) s
        (s.modTile idx fun t => { t with replay := { t.replay with trail := img, armed := true, begun := false, count := 0 } }))
      ∧ (allowed img = false →
        Traps (.mreplay tk idx a) s { code := 0x41, info := 0, addr := 0 }))
    ∧ (T.set = true → s.crew.check.valid = true → s.crew.check.tile = idx →
      allowed s.crew.check.img = true →
      Runs (.mreplayChk tk idx) s ((s.modCrew fun c => { c with check := { c.check with valid := false, used := true } }).modTile idx
        fun t => { t with replay := { t.replay with trail := s.crew.check.img, armed := true, begun := false, count := 0 } }))
    ∧ (T.set = true → s.crew.check.valid = true → s.crew.check.tile = idx → allowed s.crew.check.img = false →
      Traps (.mreplayChk tk idx) s { code := 0x41, info := 0, addr := 0 })
    ∧ (T.set = true → (s.crew.check.valid = false ∨ s.crew.check.tile ≠ idx) → Runs (.mreplayChk tk idx) s s)
    ∧ (T.set = false → unset (.mreplay tk idx a) ∧ unset (.mreplayChk tk idx) ∧ unset (.mchk tk idx)
        ∧ unset (.mtag tk idx a))
    ∧ (R.set = true →
      (s.crew.ringNamed idx = false → Runs (.mringReset tk idx) s
        (s.modRing idx fun r => { r with head := 0, tail := 0, resv := 0, rhead := 0, recs := [] }))
      ∧ (R.head < R.tail → Runs (.mringPop tk idx) s (s.modRing idx fun r => { r with head := r.head + 1 }))
      ∧ Runs (.mringRead tk idx a) s (s.setA a (BitVec.ofNat 48
          (R.rhead % rgNslot R.img * 2 ^ 32 + R.tail % rgNslot R.img * 2 ^ 24 + R.head % rgNslot R.img * 2 ^ 16
            + (R.resv - R.rhead) % 256 * 2 ^ 8 + (R.tail - R.head) % 256))))
    ∧ (R.set = false → unset (.mringReset tk idx) ∧ unset (.mringPop tk idx) ∧ unset (.mringRead tk idx a))
    ∧ (6 ≤ partNa s.part → l.held = true → l.ending = none → Runs (.mlease tk) s s)
    ∧ (partNa s.part < 6 → Traps (.mlease tk) s { code := 0x05, info := 0, addr := 0 })
    ∧ (l.held = true → l.ending = none →
      Runs (.mfree tk) s (s.modCrew fun c => { c with lease := { c.lease with ending := some s.cycle } }))
    ∧ (l.held = false → Runs (.mfree tk) s s)

/-- R36, R137, R140, R143 to R148, R150, R151: a matrix word whose checks pass joins the array's queue, after its lease has been asked
for and its ring slot reserved, and changes no register and no byte (that it keeps
where C stood before it, for a trap in the array, is the model's, log 58); the checks run in the order of R140 and the first to fail
traps with nothing changed; a word that reserves waits while its ring is full. With nothing of C's in flight, `mzero` writes
zeros to its tiles, `mtag` copies the tag, a drain writes its result to its offset or its slot, and a checksum that fails traps
ACC_CHECK with the tag kept as the check tag. -/
def Obligations.MatrixWords : Prop :=
  ∀ (s : State) (tk : Tok) (t ra rb : Fin 16) (n : BitVec 8) (ov ck : Bool) (order sign : BitVec 2) (mask : BitVec 16)
    (a : AReg) (b : List Byte), s.Clear tk → s.cur.role = .c → s.crew.mq.length < 16 →
    let queued (i : Instr) (op : MatOp) (addr : Nat) (gl : List Nat) (slot : Option (Fin 16 × Nat)) (pre : State) : Prop :=
      Runs i s (({ pre with serial := s.serial + 1 } : State).modCrew fun c => { c with mq := c.mq ++
        [{ id := s.serial, op := op, pc := s.pc, before := s.cPoint, addr := addr, glist := gl, slot := slot, stocked := pre.stocked op, done := 0,
           chunk := none, wants := false, start := 0, ends := 0, clean := true }] })
    let traps (i : Instr) (code : BitVec 8) : Prop := Traps i s { code := code, info := 0, addr := 0 }
    let T := s.tile t
    let A := s.ring ra
    let B := s.ring rb
    let D := (s.drain ra).img
    let G := s.ring (ddRing D)
    let m := tlM T.img
    let k := 32 * (n.toNat + 1)
    let org := poolPlace s.crew.part 0
    let v := (s.getA a).toNat
    let ws := (s.tileWords T).take (m * tlN T.img)
    let status (u : State) : Nat := field (u.crew.tiles.get t).tag.toNat 130 129
    let leased : Prop := s.crew.lease.usable = true ∨ 6 ≤ partNa s.part
    let free (l : List Nat) : Prop := s.here.banksFree s.serial l = true
    let sound (sums : Bool) : Prop := s.tileBad T sums = none
    let accumulates (gather : Bool) (i : Instr) : Prop :=
      let f := s.testFormats t ov (rgFmt A.img) (rgFmt B.img)
      let formed : Prop := T.set = true ∧ A.set = true ∧ B.set = true
        ∧ matrixType (rgFmt A.img) = true ∧ matrixType (rgFmt B.img) = true
      let paired : Prop := pairing f.1 f.2 = some (tlAcc T.img == 8)
      let shaped : Prop := (gather = true ∨ rgRows A.img = m) ∧ rgRows B.img = tlN T.img
        ∧ k % rgCols A.img = 0 ∧ k % rgCols B.img = 0
      let list := poolCheck s.part (rgGlist A.img) (2 * m) 2
      let listed : Prop := gather = true → s.poolRead (rgGlist A.img) (2 * m) 2 = .bytes b
      (¬ formed → traps i 0x02) ∧ (formed → ¬ paired → traps i 0x04) ∧ (formed → paired → ¬ shaped → traps i 0x03)
      ∧ (formed → paired → shaped →
          (∀ x, gather = true → list = some x → Traps i s x)
          ∧ (listed → ¬ leased → traps i 0x05)
          ∧ (listed → leased →
              queued i (.mma gather t ra rb (n.toNat + 1) ov ck) 0 (if gather then halfWords b else []) none s.stepWord))
    let rotates : Prop :=
      let i : Instr := .mhad tk ra rb order sign
      let okType (f : Nat) : Prop := typeFloat f = true ∨ typeBx f = true
      let formed : Prop := A.set = true ∧ B.set = true ∧ okType (rgFmt A.img) ∧ okType (rgFmt B.img)
      let scaled : Prop := typeBx (rgFmt A.img) = true →
        (rgTscale A.img).isFinite = true ∧ (rgTscale A.img).isZero = false
      let shaped : Prop := ra ≠ rb ∧ rgRows A.img = rgRows B.img ∧ rgCols A.img = rgCols B.img
        ∧ rgCols A.img % (32 * 2 ^ order.toNat) = 0 ∧ scaled
      (¬ formed → traps i 0x02) ∧ (formed → ¬ shaped → traps i 0x03) ∧ (formed → shaped → ¬ leased → traps i 0x05)
      ∧ (formed → shaped → leased → A.full = true → Waits i s)
      ∧ (formed → shaped → leased → A.full = false →
          queued i (.mhad ra rb order sign) 0 [] (some (ra, A.resv)) (s.modRing ra Ring.reserve).stepWord)
    let drains : Prop :=
      let i : Instr := .mdrain tk t ra
      let f := ddFmt D
      let sizes := drainSizes T.img D
      let formed : Prop := T.set = true ∧ (s.drain ra).set = true ∧ (ddToring D = true → G.set = true)
      let typed : Prop := f ≠ 15 ∧ (typeBx f = true → tlN T.img % 32 = 0) ∧ (f = 11 → tlN T.img % 2 = 0)
      let fits : Prop := rgRows G.img = m ∧ rgCols G.img = tlN T.img
      let place := poolCheck s.part (ddDst D) sizes.1 64
      let heads := if typeBx f then poolCheck s.part (ddDsbase D) sizes.2 2 else none
      let intact : Prop := sound false ∧ (T.complete = true → sound true ∧ checksumsOk (tlAcc T.img) m (tlN T.img) (s.tileWords T) = true)
      let writes (dst hdr : Nat) (rings : Vector Ring 16) : Prop :=
        let out := drainBytes D (tlAcc T.img) ws
        free (s.tileBanks t ++ banksOf (org + dst) sizes.1 ++ banksOf (org + hdr) sizes.2) → intact →
        Answers i s fun u => status u = (if T.complete then 1 else 3) ∧ u.mem = s.mem ∧ u.crew.rings = rings
          ∧ (s.inLine → u.pc = s.pc + 4)
          ∧ (∀ p, p < org + dst ∨ org + dst + out.1.length ≤ p → p < org + hdr ∨ org + hdr + out.2.1.length ≤ p →
              memGet u.here.pool p = memGet s.here.pool p)
          ∧ (typeBx f = false → memGets u.here.pool (org + dst) out.1.length = out.1)
      (¬ formed → traps i 0x02) ∧ (formed → 31 < ddShift D → traps i 0x03)
      ∧ (formed → ddShift D ≤ 31 → ¬ typed → traps i 0x02)
      ∧ (formed → ddShift D ≤ 31 → typed → ddToring D = true →
          (rgFmt G.img ≠ f → traps i 0x02) ∧ (rgFmt G.img = f → ¬ fits → traps i 0x03)
          ∧ (rgFmt G.img = f → fits →
              let r := s.modRing (ddRing D) Ring.reserve
              (G.full = true → Waits i s)
              ∧ (G.full = false → (s.crew.mq ≠ [] ∨ G.tail ≠ G.resv) →
                  queued i (.mdrain t ra) 0 [] (some (ddRing D, G.resv)) r)
              ∧ (G.full = false → s.crew.mq = [] → G.tail = G.resv → memWf s.here.pool = true →
                  writes (slotOff G.img G.resv) (slotHdr G.img G.resv)
                    (r.modRing (ddRing D) fun g => { g with tail := G.resv + 1 }).crew.rings)))
      ∧ (formed → ddShift D ≤ 31 → typed → ddToring D = false →
          (∀ x, place = some x → Traps i s x) ∧ (∀ x, place = none → heads = some x → Traps i s x)
          ∧ (place = none → heads = none →
              (s.crew.mq ≠ [] → queued i (.mdrain t ra) 0 [] none s)
              ∧ (s.crew.mq = [] → memWf s.here.pool = true → writes (ddDst D) (ddDsbase D) s.crew.rings)))
    accumulates false (.mma tk t ra rb n ov ck) ∧ accumulates true (.mmag tk t ra rb n ov ck) ∧ rotates ∧ drains
    ∧ (let f := s.testFormats t ov (rgFmt A.img) (rgFmt B.img)
      let l := s.crew.lease
      s.crew.mq = [] →
      (T.replay.armed = false → (l.usable = false ∨ l.contracted = false) → f = (rgFmt A.img, rgFmt B.img))
      ∧ (T.replay.armed = false → l.usable = true → l.contracted = true →
          f = rungFormats (ctRung (s.ctx s.crew.ctx).contract l.rung) (rgFmt A.img) (rgFmt B.img))
      ∧ (∀ e, T.replay.armed = true → T.replay.begun = false → (ov = true ∨ T.fresh = true) →
          governing T.replay.trail 0 = some e →
          f = if field e 16 16 = 1 then (rgFmt A.img, rgFmt B.img) else (field e 23 20, field e 23 20)))
    ∧ Runs (.mzero tk 0) s s
    ∧ (mask ≠ 0 → (∃ i ∈ maskTiles mask, (s.tile i).set = false) → traps (.mzero tk mask) 0x02)
    ∧ (∀ x, T.set = true → poolCheck s.part v 64 64 = some x → Traps (.mtag tk t a) s x)
    ∧ (∀ x, poolCheck s.part v 64 64 = some x → Traps (.mtagChk tk a) s x)
    ∧ (s.crew.mq ≠ [] →
      (mask ≠ 0 → (∀ i ∈ maskTiles mask, (s.tile i).set = true) → queued (.mzero tk mask) (.mzero mask) 0 [] none s)
      ∧ (T.set = true → poolCheck s.part v 64 64 = none → queued (.mtag tk t a) (.mtag t) v [] none s)
      ∧ (poolCheck s.part v 64 64 = none → queued (.mtagChk tk a) .mtagChk v [] none s)
      ∧ (T.set = true → queued (.mchk tk t) (.mchk t) 0 [] none s)
      ∧ queued (.mfree tk) .mfree 0 [] none s)
    ∧ (A.set = true → (s.crew.mq ≠ [] ∨ A.tail ≤ A.head) → queued (.mringPop tk ra) (.pop ra) 0 [] none s)
    ∧ (6 ≤ partNa s.part → (s.crew.mq ≠ [] ∨ s.crew.lease.usable = false) →
        queued (.mlease tk) .mlease 0 [] none s.requestLease)
    ∧ (s.crew.mq = [] → memWf s.here.pool = true →
      (mask ≠ 0 → (∀ i ∈ maskTiles mask, (s.tile i).set = true) → free ((maskTiles mask).flatMap s.tileBanks) →
        Answers (.mzero tk mask) s fun u =>
          (s.inLine → u.pc = s.pc + 4) ∧ u.mem = s.mem ∧ u.crew.rings = s.crew.rings
          ∧ (∀ i ∈ maskTiles mask, ∀ j, j < tlBytes (s.tile i).img →
              memGet u.here.pool (org + tlBase (s.tile i).img + j) = 0)
          ∧ ∀ q, (∀ i ∈ maskTiles mask, q < org + tlBase (s.tile i).img
              ∨ org + tlBase (s.tile i).img + tlBytes (s.tile i).img ≤ q) → memGet u.here.pool q = memGet s.here.pool q)
      ∧ (T.set = true → poolCheck s.part v 64 64 = none → free (s.tileBanks t ++ banksOf (org + v) 64) →
        Answers (.mtag tk t a) s fun u => memGets u.here.pool (org + v) 64 = natLe 64 T.tag.toNat ∧ u.mem = s.mem
          ∧ u.crew.tiles = s.crew.tiles)
      ∧ (poolCheck s.part v 64 64 = none → free (banksOf (org + v) 64) →
        Answers (.mtagChk tk a) s fun u => u.mem = s.mem ∧ u.crew.tiles = s.crew.tiles ∧
          memGets u.here.pool (org + v) 64 = if s.crew.check.valid then natLe 64 s.crew.check.img.toNat else List.replicate 64 0)
      ∧ (∀ off, T.set = true → T.complete = true → free (s.tileBanks t) → s.tileBad T true = some off →
        Answers (.mchk tk t) s fun u => u.seq.status = .trapped ∧ u.pc = s.pc ∧ u.here.pool = s.here.pool
          ∧ (∃ r ∈ u.here.traps, r.code = 0x32 ∧ r.addr = BitVec.ofNat 64 off ∧ r.pc = s.pc))
      ∧ (T.set = true → free (s.tileBanks t) → (T.complete = true → sound true) →
        let sums := checksumsOk (tlAcc T.img) m (tlN T.img) (s.tileWords T)
        (T.complete = false → Answers (.mchk tk t) s fun u => status u = 3 ∧ u.here.pool = s.here.pool)
        ∧ (T.complete = true → sums = true → Answers (.mchk tk t) s fun u => status u = 1 ∧ u.here.pool = s.here.pool)
        ∧ (T.complete = true → sums = false →
            Answers (.mchk tk t) s fun u => status u = 2 ∧ u.here.pool = s.here.pool ∧ u.seq.status = .trapped
              ∧ u.pc = s.pc ∧ u.crew.check.valid = true ∧ u.crew.check.tile = t
              ∧ u.crew.check.img = (u.crew.tiles.get t).tag ∧ ∃ r ∈ u.here.traps, r.code = 0x30 ∧ r.pc = s.pc)))

/-- R32, R34, R144, R215, R219, R303: one chunk updates each accumulator once, RoundNE(acc + ChunkSum) on an FP32 tile, the integer sum
mod 2^32 on an INT32 one, overwriting on the first chunk of an `ov` word. The array's turn starts one chunk of a contracted word
at the share of its lease, and writes no pool byte outside the tile's storage and no global memory; a best-effort one is made
ready for the quanta that are left (how it comes to start is the model's choice, log 16). A bank that a transfer holds keeps a word
from starting, and keeps no later chunk of a word that R219 promises an end (log 16); an uncorrectable accumulator that the chunk
consumes traps POOL_ECC at the word. A clock gives a contracted chunk its whole share and a best-effort one, alone on its core, all the
array's quanta, none where they are withheld (log 37); a chunk that has what it needs ends with that clock, and the word of the
reference shape whose chunks, each rounded up to whole clocks, would pass L at some rung goes on to its next in it (log 16).
After the last chunk the word retires and its rings' heads move on. -/
def Obligations.MatrixChunks : Prop :=
  (∀ (k : ChunkKind) (ow ck : Bool) (rows cols : List (List FV)) (old : List Nat) (other : Nat → Nat) (i j : Nat)
      (ri cj : List FV), k ≠ .open_ → rows[i]? = some ri → cols[j]? = some cj → rows.length * cols.length ≤ old.length →
    let acc := old.getD (i * cols.length + j) 0
    (chunkWords k ow ck (rows.map some) cols old other).1.getD (i * cols.length + j) 0 = match k with
      | .int => if ow then intCode 32 (intDot (rowInts ri) (rowInts cj))
          else (acc + intCode 32 (intDot (rowInts ri) (rowInts cj))) % 2 ^ 32
      | .float | .open_ => if ow then (chunkSum ri cj).toNat
          else (toF32 ((f32 (BitVec.ofNat 32 acc)).add (f32 (chunkSum ri cj)))).toNat)
  ∧ (∀ (s : State) (core : CoreId) (crew : CrewIx) (m : MatCmd) (rest : List MatCmd) (t ra rb : Fin 16) (n : Nat)
      (gather ov ck : Bool),
    let a := s.actAs core crew .c
    let A := a.ring ra
    let B := a.ring rb
    let T := a.tile t
    let l := a.crew.lease
    let g := 32 * m.done
    let spans := operandSpans A.img (A.head + g / rgCols A.img) (g % rgCols A.img)
        (if gather then m.glist else List.range (tlM T.img))
      ++ operandSpans B.img (B.head + g / rgCols B.img) (g % rgCols B.img) (List.range (tlN T.img))
    a.crew.mq = m :: rest → m.chunk = none → m.op = .mma gather t ra rb n ov ck → memWf a.here.pool = true →
    (m.done < n → l.contracted = true → a.mayChunk = true → A.ready (32 * n / rgCols A.img) = true →
      B.ready (32 * n / rgCols B.img) = true →
      a.here.banksFree m.id (a.tileBanks t) = true → (a.spansLocked m.id spans = true → a.promised m t n = true) →
      a.spansBad spans = none →
      (∀ off, (ov = false ∨ 0 < m.done) → a.tileBad T ck = some off → a.seq.status ≠ .trapped → Answers (.matrixChunk core crew) s fun u =>
        let c := u.crewAt core crew
        c.seqC.status = .trapped ∧ c.seqC.pc = m.pc ∧ c.aC = m.before.a ∧ c.mq = [] ∧ (u.core core).pool = a.here.pool ∧ u.mem = s.mem
        ∧ ∃ q ∈ (u.core core).traps, q.code = 0x32 ∧ q.addr = BitVec.ofNat 64 off ∧ q.pc = m.pc)
      ∧ ((ov = true ∧ m.done = 0) ∨ a.tileBad T ck = none → Answers (.matrixChunk core crew) s fun u =>
        let c := u.crewAt core crew
        (∃ m2 h, c.mq = m2 :: rest ∧ m2.done = m.done + 1 ∧ m2.id = m.id ∧ m2.op = m.op ∧ m2.chunk = some h
          ∧ h.share = some l.share
          ∧ (T.replay.armed = false →
              let p := a.chunkPlan none (rgFmt A.img) (rgFmt B.img)
              h.left = tlM T.img * tlN T.img * 32 * chunkQuanta p.fa p.fb))
        ∧ c.rings = a.crew.rings ∧ c.v = a.crew.v ∧ c.aC = a.crew.aC ∧ u.mem = s.mem
        ∧ (∀ o, o ≠ core → u.core o = s.core o)
        ∧ ∀ q, q < a.crew.org + tlBase T.img ∨ a.crew.org + tlBase T.img + tlBytes T.img ≤ q →
            memGet (u.core core).pool q = memGet a.here.pool q))
    ∧ (m.done < n → l.usable = true → l.contracted = false → Answers (.matrixChunk core crew) s fun u =>
        (u.crewAt core crew).mq = { m with wants := true } :: rest ∧ (u.crewAt core crew).lease = l
        ∧ (u.core core).pool = a.here.pool ∧ u.mem = s.mem)
    ∧ (n ≤ m.done → rest = [] → Answers (.matrixChunk core crew) s fun u =>
        let c := u.crewAt core crew
        c.mq = [] ∧ (c.rings.get ra).head = A.head + 32 * n / rgCols A.img
        ∧ (rb ≠ ra → (c.rings.get rb).head = B.head + 32 * n / rgCols B.img)
        ∧ (u.core core).pool = a.here.pool ∧ u.mem = s.mem))
  ∧ ∀ (s : State) (core : CoreId) (crew : CrewIx) (m : MatCmd) (rest : List MatCmd) (h : Chunk),
    let ended : MatCmd := { m with chunk := none, ends := s.cycle + 1 }
    let after := ((s.arrayClock core).crewAt core crew).mq
    let a := s.actAs core crew .c
    (s.crewAt core crew).mq = m :: rest → m.chunk = some h → (∀ k, k ≠ crew → (s.crewAt core k).mq = []) →
    (∀ share, h.share = some share → h.left < share → a.runsOn m = true →
      let rest_ := ceilDiv ((share - h.left) * a.crew.lease.share) share
      after = ((((a.setHead ended).startChunk ended).giveOwn 255 rest_).crew.endChunk s.cycle).mq)
    ∧ (∀ share, h.share = some share → (h.left < share → a.runsOn m = false) →
      after = (if h.left ≤ share then ended else { m with chunk := some { h with left := h.left - share } }) :: rest)
    ∧ (h.share = none → s.npu.withheldQuanta = false → a.runsOn m = false → h.left ≤ 262144 →
        after = ended :: rest)
    ∧ (h.share = none → s.npu.withheldQuanta = true → 0 < h.left → after = m :: rest)

/-! ### Transfers of L and S -/

/-- R57, R94, R137, R155 to R157, R162, R163, R166, R167: a transfer word, with room in its queue, reads its descriptor and makes
its checks in the order of R155; the first that fails traps with nothing changed. A word that passes takes its ring slot, the one
held for it or the next, locks the banks it writes and joins its engine's queue, and changes no register and no byte; it waits
while its queue or its ring is full, a bank is locked, or an earlier `tsend` or `tadd` has still to write to one (R193). `tdesc` copies 64 bytes of memory, as the sequencer's commands see it,
into its table entry once every earlier transfer has retired, and `ttouch` changes nothing but a TLB. The model's readings (DEDUCED):
that a limit traps with `trapaddr` 0, that the strides in use alone are tested, and the units of INT4 and BX (log 27), and that a
misaligned base or stride names the base (log 43). -/
def Obligations.TransferWords : Prop :=
  ∀ (s : State) (tk : Tok) (td : Fin 64) (aP aB : AReg) (tr tg cv ck rg : Bool) (b : List Byte), s.Clear tk →
    s.cur.role = .l ∨ s.cur.role = .s →
    let st := s.cur.role.stream
    let entry := s.crew.desctab.toNat + 64 * td.val
    let p := (s.getA aP).toNat
    let bar : Option Nat := if aB = 0 then none else some (s.getA aB).toNat
    let traps (i : Instr) (code : BitVec 8) (a : Nat) : Prop := Traps i s { code := code, info := 0, addr := BitVec.ofNat 64 a }
    let plain (k : XferKind) : XferOp := { kind := k, tr := false, tg := false, cv := false, ck := false, rg := false }
    let load : Instr := .tld tk td aP aB tr tg cv ck rg
    let store : Instr := .tst tk td aP aB tr tg cv ck
    let loadOp : XferOp := { kind := .tld, tr := tr, tg := tg, cv := cv, ck := ck, rg := rg }
    let storeOp : XferOp := { loadOp with kind := .tst, rg := false }
    let words : List Instr := [load, store, .tcpy tk td aP aB tr tg rg, .tsend tk td aP aB, .tadd tk td aP aB,
      .tgat tk td aP aB cv, .tsct tk td aP aB cv, .tcrc tk td aB]
    (∀ i ∈ words, (16 ≤ s.xq.length → Waits i s)
      ∧ (s.xq.length < 16 → partNs s.part = 0 → traps i 0x05 s.crew.desctab.toNat)
      ∧ ∀ x, s.xq.length < 16 → partNs s.part ≠ 0 → s.poolRead entry 64 64 = .trap x → Traps i s x)
    ∧ (∀ r rest slot, s.crew.heldOf st = [] →
        ((s.ring r).full = true → s.takeSlot (some r) = none)
        ∧ ((s.ring r).full = false →
            s.takeSlot (some r) = some (some (r, (s.ring r).resv), s.modRing r fun q => q.reserve))
        ∧ (∀ u : State, u.crew.heldOf u.cur.role.stream = { ring := r, slot := slot } :: rest →
            u.takeSlot (some r) = some (some (r, slot), u.modCrew fun c => c.setHeld u.cur.role.stream rest)))
    ∧ (s.xq.length < 16 → partNs s.part ≠ 0 → s.poolRead entry 64 64 = .bytes b →
      let d : Image := BitVec.ofNat 512 (leNat b)
      let m := tdMfmt d
      let f := tdPfmt d
      let count := tdRows d * tdCols d
      let span := tileSpan f count
      let joins (i : Instr) (op : XferOp) (side : XferSide) (list : List Nat) : Prop :=
        (s.takeSlot side.ring = none → Waits i s)
        ∧ ∀ slot t, s.takeSlot side.ring = some (slot, t) →
          let place : Nat × Nat := match slot with
            | some q => (s.crew.org + slotOff (s.ring q.1).img q.2, s.crew.org + slotHdr (s.ring q.1).img q.2)
            | none => (side.dst, side.hdr)
          let banks := xferBanks op d place.1 place.2
          (s.here.banksFree s.serial banks = false ∨ farAhead s.xq s.cur.core banks = true → Waits i s)
          ∧ (s.here.banksFree s.serial banks = true → farAhead s.xq s.cur.core banks = false →
            ∃ x : Xfer, x.id = s.serial ∧ x.op = op ∧ x.desc = d ∧ x.table = poolPlace s.part entry ∧ x.src = side.src
              ∧ x.dstCore = side.dstCore ∧ x.dst = place.1 ∧ x.hdr = place.2 ∧ x.team = side.team ∧ x.bar = side.bar
              ∧ x.list = list ∧ x.slot = slot ∧ x.pc = s.pc ∧ x.loops = s.seq.loops ∧ x.a = s.crew.aFile st
              ∧ x.combined = (if op.kind = .tadd then s.crew.taddDone st else 0)
              ∧ x.got = [] ∧ x.put = [] ∧ x.moved = none
              ∧ Runs i s ((({ t with serial := s.serial + 1 } : State).modHere fun c => c.lock s.serial banks).modCrew fun c =>
                  (if op.kind = .tadd then c.setTadd st 0 else c).setXq st (c.xq st ++ [x])))
      let queues (i : Instr) (op : XferOp) (q : Nat) (list : List Nat) : Prop :=
        (∀ t, s.xferChecks op d q bar = .error t → Traps i s t)
        ∧ ∀ side, s.xferChecks op d q bar = .ok side → joins i op side list
      let barOk (part : XWord) (v : Nat) : Prop := v < 2 ^ 23 ∧ atomCheck part v 16 16 = none
      let barTraps (i : Instr) (part : XWord) (v : Nat) : Prop :=
        (2 ^ 23 ≤ v → traps i 0x03 0) ∧ ∀ x, v < 2 ^ 23 → atomCheck part v 16 16 = some x → Traps i s x
      let aligned (ty : Nat) (strides : Bool) : Prop := tdBase d % addrUnit ty = 0
        ∧ (strides = true → ∀ k, k ≤ tdNdim d → ¬ (k = 0 ∧ typeBx m = true) → tdStride d k % (addrUnit ty : Int) = 0)
      let box (i : Instr) (op : XferOp) (readFrom : Nat) : Prop :=
        let typed : Prop := m ≠ 15 ∧ f ≠ 15 ∧ (m ≠ f → cv = true)
          ∧ (tr = true → typeBx m = false ∧ typeBx f = false ∧ typeWidth readFrom = if tg then 16 else 8)
        let limited : Prop := tdReserved d = false ∧ tdCop d ≠ 3 ∧ (tdNdim d < 1 → tdO1 d = 0 ∧ tdRows d ≤ 1)
          ∧ (tdNdim d < 2 → tdO2 d = 0) ∧ (tdNdim d < 3 → tdO3 d = 0)
          ∧ (typeBx m = true → tdO0 d % 32 = 0 ∧ tdCols d % 32 = 0 ∧ tdSize d 0 % 32 = 0)
          ∧ (typeBx f = true → (if tr then tdRows d else tdCols d) % 32 = 0)
        (¬ typed → traps i 0x02 0) ∧ (typed → ¬ limited → traps i 0x03 0)
        ∧ (typed → limited → (¬ aligned m true → traps i 0x08 (tdBase d)) ∧ (aligned m true →
          (p % 64 ≠ 0 → traps i 0x08 p)
          ∧ (p % 64 = 0 → 2 ^ 23 < p + span → traps i 0x06 p)
          ∧ (p % 64 = 0 → p + span ≤ 2 ^ 23 → (p < sBegin s.part ∨ allotEnd s.part < p + span) → traps i 0x05 p)
          ∧ (p % 64 = 0 → p + span ≤ 2 ^ 23 → sBegin s.part ≤ p → p + span ≤ allotEnd s.part →
            (∀ v, bar = some v → barTraps i s.part v)
            ∧ ((∀ v, bar = some v → barOk s.part v) →
                joins i op
                 { src := poolPlace s.part p, dstCore := s.cur.core, dst := poolPlace s.part p,
                   hdr := poolPlace s.part (p + headerOff f count), team := none,
                   bar := bar.map (fun v => (s.cur.core, poolPlace s.part v)), ring := none } []))))
      let sent (i : Instr) (k : XferKind) : Prop :=
        let off := p % 2 ^ 23
        let typed : Prop := m ≠ 15 ∧ f ≠ 15 ∧ m = f ∧ (k = .tadd → f = 0 ∨ f = 8 ∨ (f = 12 ∧ tdCop d ≠ 0))
        let limited : Prop := tdReserved d = false ∧ tdCop d ≠ 3 ∧ (typeBx f = true → tdCols d % 32 = 0) ∧ tdBase d < 2 ^ 23
          ∧ p < 2 ^ 31 ∧ p / 2 ^ 23 < s.teamSize ∧ (k = .tadd → count ≤ 16384)
        (¬ typed → traps i 0x02 0) ∧ (typed → ¬ limited → traps i 0x03 0)
        ∧ (typed → limited → (¬ aligned f false → traps i 0x08 (tdBase d)) ∧ (aligned f false →
          (off % 64 ≠ 0 → traps i 0x08 off)
          ∧ (off % 64 = 0 → (∀ x, poolCheck s.part (tdBase d) span 1 = some x → Traps i s x)
            ∧ (poolCheck s.part (tdBase d) span 1 = none →
              (s.teamMember (p / 2 ^ 23) = none → traps i 0x42 0)
              ∧ ∀ q, s.teamMember (p / 2 ^ 23) = some q →
                let part := (s.crewAt q.1 q.2).part
                (∀ x, poolCheck part off span 64 = some x → Traps i s x)
                ∧ (poolCheck part off span 64 = none →
                  (k = .tadd → off < aBegin part → traps i 0x07 off)
                  ∧ ((k = .tadd → aBegin part ≤ off) →
                    (∀ v, bar = some v → v ≠ 0 → barTraps i part v)
                    ∧ ((∀ v, bar = some v → v ≠ 0 → barOk part v) →
                        joins i (plain k)
                         { src := poolPlace s.part (tdBase d), dstCore := q.1, dst := poolPlace part off,
                           hdr := poolPlace part (off + headerOff f count), team := some (p / 2 ^ 23),
                           bar := (bar.filter fun v => v ≠ 0).map (fun v => (q.1, poolPlace part v)), ring := none } [])))))))
      (rg = false → box load loadOp m) ∧ box store storeOp f ∧ sent (.tsend tk td aP aB) .tsend ∧ sent (.tadd tk td aP aB) .tadd
      ∧ (rg = true → (16 ≤ p → traps load 0x03 0)
        ∧ ∀ h : p < 16,
          let r := s.ring ⟨p, h⟩
          (r.set = false ∨ rgFmt r.img ≠ f → traps load 0x02 0)
          ∧ (r.set = true → rgFmt r.img = f →
              ((if tr then (tdCols d, tdRows d) else (tdRows d, tdCols d)) ≠ (rgRows r.img, rgCols r.img) → traps load 0x03 0)))
      ∧ queues load loadOp p [] ∧ queues store storeOp p []
      ∧ queues (.tcpy tk td aP aB tr tg rg) { plain .tcpy with tr := tr, tg := tg, rg := rg } p []
      ∧ queues (.tsend tk td aP aB) (plain .tsend) p [] ∧ queues (.tadd tk td aP aB) (plain .tadd) p []
      ∧ queues (.tcrc tk td aB) (plain .tcrc) 0 []
      ∧ (∀ l, s.poolRead (p / 2 ^ 23) (4 * tdRows d) 4 = .bytes l →
          (tdNdim d = 0 → ∀ i ∈ fullWords l (tdRows d), i = 0) →
          queues (.tgat tk td aP aB cv) { plain .tgat with cv := cv } p (fullWords l (tdRows d))
          ∧ queues (.tsct tk td aP aB cv) { plain .tsct with cv := cv } p (fullWords l (tdRows d)))
      ∧ Answers (.ttouch tk td) s fun u =>
          (s.inLine → u.pc = s.pc + 4) ∧ (∀ r, u.getA r = s.getA r) ∧ u.mem = s.mem
          ∧ (∀ c, (u.core c).pool = (s.core c).pool) ∧ u.xq = s.xq)
    ∧ (s.xq ≠ [] → Waits (.tdesc tk td aP) s)
    ∧ (s.xq = [] → partNs s.part ≠ 0 →
      (p % 64 ≠ 0 → traps (.tdesc tk td aP) 0x08 p)
      ∧ ∀ x : Xlat, p % 64 = 0 → s.translateHere p .read = .ok x → s.PoolOpen entry 64 → memWf s.here.pool = true →
        let dead := entryDead x.leaf2.entry
        (dead = true ∨ (entryRem x.leaf2.entry = false ∧ x.pa + 64 ≤ Config.hbmBytes ∧ s.mem.bad x.pa 64 = false)) →
        Answers (.tdesc tk td aP) s fun u =>
          let place := poolPlace s.part entry
          memGets u.here.pool place 64 =
            (if dead then List.replicate 64 0 else s.mem.loads (s.doPops (popsOf tk)).seesCmd x.key x.pa 64)
          ∧ (∀ q, q < place ∨ place + 64 ≤ q → memGet u.here.pool q = memGet s.here.pool q)
          ∧ (∀ r, u.getA r = s.getA r) ∧ u.mem = s.mem ∧ u.xq = s.xq ∧ (s.inLine → u.pc = s.pc + 4))

/-- R137, R153, R156, R157, R159, R162, R163, R171, R204: the oldest transfer of a sequencer is carried out by its engine.
Retired, it has left the queue with its locks, and its barrier takes one update, of the bytes written and the conversions; while
its barrier or its descriptor lies in a bank that another holds locked it waits (the model's reading of R156, log 28). A `tsend`
or `tadd` takes the locks of its target's tile together, or waits, before its first byte arrives, and a transfer's locks are released
with its last byte, be its own turn to retire yet to come. A `tld` writes each in-bounds
element of its box to its place of the tile, as the engine's reads of aligned 8-byte units give its bytes, and zero elsewhere; a
`tadd` combines one element at a time, under the locks of the whole tile. A fault, the first unread unit's translation among them,
stops the sequencer at the transfer's word with its registers and loops as before the word, keeps what is written and the reserved
slot, and abandons every later transfer. -/
def Obligations.TransferSteps : Prop :=
  ∀ (s : State) (core : CoreId) (crew : CrewIx) (st : XferStream) (x y : Xfer) (rest : List Xfer) (t : State),
    let a := s.actAs core crew (xferRole st)
    let d := x.desc
    let target (u : State) : Memory := (u.core x.dstCore).pool
    a.xq = x :: rest →
    (x.moved = none → x.slot = none → x.op.checks = false → (∀ z ∈ rest, z.id ≠ x.id) → a.farDue x = false → a.finishWork x = .did t y →
      t.farDue y = false → t.cmdPuts x.id = [] → t.retireFault y y.outcome = none → t.retireLocked y y.outcome = false →
      Answers (.transferRetire core crew st) s fun u =>
        u.xq = rest ∧ u.mem = t.mem ∧ (∀ c, (u.core c).pool = (t.core c).pool)
        ∧ (∀ l ∈ (u.core core).locks ++ (u.core x.dstCore).locks, l.2 ≠ x.id) ∧ x.id ∈ u.seq.retired ∧ u.pc = a.pc
        ∧ (∀ c o, x.bar = some (c, o) →
            (u.core c).comb = (t.core c).comb ++ [{ addr := o, kind := .copy y.outcome.1 y.outcome.2.1 false x.id }]))
    ∧ (x.moved = none → a.farDue x = true → Answers (.transferRetire core crew st) s fun u =>
      let free := !a.targetGone x && (s.core x.dstCore).banksFree x.id x.farBanks
      (u.core x.dstCore).locks = (s.core x.dstCore).locks ++ (if free then x.farBanks.map fun b => (b, x.id) else [])
      ∧ u.xq = x :: rest ∧ u.mem = s.mem ∧ ∀ c, (u.core c).pool = (s.core c).pool)
    ∧ (∀ m, x.moved = some m → a.retireFault x m = none → a.retireLocked x m = true →
      Answers (.transferRetire core crew st) s fun u => u = a)
    ∧ (x.moved = none → a.farDue x = false → a.finishWork x = .did t y → t.farDue y = false → (∀ z ∈ rest, z.id ≠ x.id) →
      t.xq = y :: rest → t.slotTurn y = false → Answers (.transferRetire core crew st) s fun u =>
        u.xq = { y with moved := some y.outcome } :: rest ∧ u.mem = t.mem ∧ (∀ c, (u.core c).pool = (t.core c).pool)
        ∧ ∀ l ∈ (u.core core).locks ++ (u.core x.dstCore).locks, l.2 ≠ x.id)
    ∧ (x.op = { kind := .tld, tr := false, tg := false, cv := false, ck := false, rg := false } → x.list = [] → x.team = none →
      tdPfmt d = tdMfmt d → typeBx (tdMfmt d) = false → 8 ≤ typeWidth (tdMfmt d) → memWf (target s) = true →
      x.got = [] → x.put = [] → a.finishWork x = .did t y →
      let k := typeWidth (tdMfmt d) / 8
      y.outcome.1 = k * (tdRows d * tdCols d) ∧ y.outcome.2.1 = 0 ∧ t.mem = s.mem
      ∧ ∀ i j q, i < tdRows d → j < tdCols d → q < k →
        let va := globalAddr (boxAddr d [] i j) + q
        let byte := memGet (target t) (x.dst + k * (i * tdCols d + j) + q)
        (boxIn d [] i j = false → byte = 0)
        ∧ ∀ b l, boxIn d [] i j = true → a.engLoad (8 * (va / 8)) 8 = .bytes b l → byte = b.getD (va % 8) 0)
    ∧ (x.op.kind = .tadd → a.targetGone x = false → memWf (target s) = true →
      let place := x.dst + 4 * x.combined
      let old := leNat (memGets (target s) place 4)
      let new := (x.elem x.combined).code
      a.farHeld x = true → (s.core x.dstCore).poolBad place 4 = false →
      ∃ u, a.addElem x = .did u { x with combined := x.combined + 1 } ∧ u.mem = s.mem
        ∧ (x.combined + 1 < x.count → (u.core x.dstCore).locks = (s.core x.dstCore).locks)
        ∧ (x.combined + 1 = x.count → ∀ l ∈ (u.core x.dstCore).locks, l.2 ≠ x.id)
        ∧ memGets (target u) place 4 = natLe 4 (taddStep d old new)
        ∧ (tdCop d = 0 → tdPfmt d = 8 → taddStep d old new = (old + new) % 2 ^ 32)
        ∧ (tdCop d = 0 → tdPfmt d = 0 → taddStep d old new =
            (toF32 ((f32 (BitVec.ofNat 32 old)).add (f32 (BitVec.ofNat 32 new)))).toNat)
        ∧ (tdCop d = 1 → tdPfmt d = 12 → taddStep d old new = Min.min old new)
        ∧ (tdCop d = 2 → tdPfmt d = 12 → taddStep d old new = Max.max old new)
        ∧ ∀ q, q < place ∨ place + 4 ≤ q → memGet (target u) q = memGet (target s) q)
    ∧ (∀ tr, a.xferFault x true = some tr → a.seq.status ≠ .trapped →
      Answers (.transferFault core crew st) s fun u =>
        u.seq.status = .trapped ∧ u.pc = x.pc ∧ u.seq.loops = x.loops ∧ u.xq = []
        ∧ u.crew.aFile u.cur.role.stream = x.a ∧ u.crew.rings = a.crew.rings ∧ u.mem.stores = s.mem.stores
        ∧ (∀ c, (u.core c).pool = (s.core c).pool)
        ∧ (∀ q, x.slot = some q → { ring := q.1, slot := q.2 } ∈ u.crew.heldOf u.cur.role.stream)
        ∧ ∃ r ∈ u.here.traps, r.code = tr.code ∧ r.info = tr.info ∧ r.addr = tr.addr ∧ r.pc = x.pc ∧ r.crew = crew)
    ∧ ∀ u c more, x.op.kind = .tld → x.moved = none → a.cmdPuts x.id = [] → (x.sources.filter fun u => !x.hasRead u) = u :: more →
      a.translate (.tlb (tlbOf a.cur.role)) a.crew.ctx (8 * u) .read = .fault c →
      a.xferFault x true = some { code := c, info := 0, addr := BitVec.ofNat 64 (8 * u) }

/-! ### Clocks, blocks and contexts -/

/-- R96, R184, R185, R213, R214, R216, R225, R305: what the periods do. A combine port makes one update of the object that its
clock's operations name; an epoch boundary gives a lease that was asked for in an earlier clock, ends one that `mfree` gave back,
and puts an admitted contract in force, and the rungs it decides never ask for more than the array has, less what a lease lost in
the boundary clock still takes (the model's reading, log 45), as long as the floors fit; a calendar frame takes the changed units;
a port's budgets begin again at what the parameters give, and traffic that waits passes as far as they let it (that it passes in
parts, and is performed when its last byte has, is the model's choice, log 39); the firmware's window begins again. -/
def Obligations.Periods : Prop :=
  (∀ (s : State) (core : CoreId) (place : Nat) (ops : List CombKind),
    (s.core core).comb = ops.map (fun k => { addr := place, kind := k }) → ops ≠ [] → place ∉ (s.core core).settled →
    memWf (s.core core).pool = true →
    let r := barUpdate s.cycle place ((s.core core).barObj place, (s.core core).barSide place) ops
    Answers (.combineUpdate core) s fun u =>
      (u.core core).comb = [] ∧ (u.core core).barObj place = r.1 ∧ (u.core core).settled = place :: (s.core core).settled
      ∧ (∀ q, q < place ∨ place + 16 ≤ q → memGet (u.core core).pool q = memGet (s.core core).pool q) ∧ u.mem = s.mem)
  ∧ (∀ s : State, s.due 0 1024 = true → Answers .epochBoundary s fun u =>
      (∀ k p, (s.ctx k).pending.getLast? = some p → (∀ q ∈ (s.ctx k).pending, q.2 < s.cycle) →
          (u.ctx k).contract = p.1 ∧ (u.ctx k).pending = [])
      ∧ (∀ k, (∀ q ∈ (s.ctx k).pending, s.cycle ≤ q.2) →
          (u.ctx k).contract = (s.ctx k).contract ∧ (u.ctx k).pending = (s.ctx k).pending)
      ∧ (∀ c k n, (s.crewAt c k).lease.request = some n → n < s.cycle → (s.crewAt c k).lease.held = false →
          (s.crewAt c k).lease.ending = none →
          (u.crewAt c k).lease.held = true ∧ (u.crewAt c k).lease.request = none)
      ∧ (∀ c k e, (s.crewAt c k).lease.ending = some e → e < s.cycle → (s.crewAt c k).lease.request = none →
          (u.crewAt c k).lease.held = false)
      ∧ u.mem = s.mem ∧ u.due 0 1024 = false)
  ∧ (∀ (ct : CtxId → BitVec 128) (gone : Nat) (os : List Own), (os.map Own.ctx).Nodup → os.length ≤ 4 →
      (∀ o ∈ os, o.rung ≤ ctNrung (ct o.ctx)) →
      (os.map fun o => o.n * demand (ct o.ctx) (ctNrung (ct o.ctx))).sum + gone ≤ arrayQuanta →
      let l := decideRungs ct gone os
      totalDemand ct l + gone ≤ arrayQuanta ∧ l.map Own.ctx = os.map Own.ctx ∧ l.map Own.n = os.map Own.n
      ∧ ∀ o ∈ l, o.rung ≤ ctNrung (ct o.ctx))
  ∧ (∀ (s : State) (v : CalUnit), s.due 1 512 = true → s.npu.calNext = [v] → Answers .calendarFrame s fun u =>
      u.npu.calNext = [] ∧ v ∈ u.npu.calendar
      ∧ (∀ w ∈ s.npu.calendar, (w.kind, w.index) ≠ (v.kind, v.index) → w ∈ u.npu.calendar) ∧ u.cores = s.cores)
  ∧ (∀ s : State, s.due 2 1900 = true → Answers .portbudPeriod s fun u =>
      let budget (k : CtxId) : Nat := Min.min 200000 (field (s.ctx k).params.toNat 121 104)
      (∀ k, (u.ctx k).bud = budget k)
      ∧ (s.npu.waiting = [] → u.npu.portUsed = [] ∧ u.npu.portBytes = s.npu.portBytes ∧ u.cores = s.cores)
      ∧ ∀ w, s.npu.waiting = [w] →
          bytesAt w.port w.ctx u.npu.portUsed = Min.min w.left (budget w.ctx)
          ∧ (budget w.ctx < w.left → u.npu.waiting = [{ w with left := w.left - budget w.ctx }] ∧ u.cores = s.cores ∧ u.mem = s.mem))
  ∧ ∀ s : State, s.due 3 64 = true → Answers .fwshareWindow s fun u =>
      ∀ c k, (u.core c).fw.taken.get k = 0 ∧ (u.core c).fw.share = (s.core c).fw.share ∧ (u.crewAt c k) = s.crewAt c k

/-- R168 to R170, R174, R176, R299 to R302, R322: the dispatcher places the next team of the context whose turn it is and
counts its turn; a placed team's blocks start together, each with its registers at Table 1.1's values, its sequencers at
their entry words and its allotment zero. A firmware context that its own trap has stopped writes a record, and no crew of its
core keeps a block. A PREEMPT halts the context's crews, within 1,900 clk of its acceptance, with their transfers abandoned to their
words, C at its restart point and their leases gone; once it has taken effect the firmware context of each core that holds one is
entered with PREEMPT; and the
context is saved, its masks complete and its bytes past the ports, and `preempted` with no crew left. One that may be restored
has its crews as the records in its save area give them, whose fields lie where Table 18.7 puts them. The order inside the groups of a
record, the directory's fields and the kept record of a page that cannot be read are the model's choices (log 35), as are a save and a
restore of which no word is uncorrectable being told apart here, and a retry's return to its word (log 32). -/
def Obligations.BlocksAndContexts : Prop :=
  (∀ (s : State) (k : CtxId) (l : Launch) (spots : List (CoreId × CrewIx × Nat)),
    s.quiet = true → s.boot.stage = .ready → (∀ t ∈ s.npu.lastTurn, t + 16 ≤ s.cycle) → s.nextCtx = some k →
    (s.ctx k).turn = some l → s.placedBlocks k + hdTeamsz l.hdr ≤ (s.ctx k).crewQuota →
    s.placeTeam (hdBanks l.hdr) (hdTeamsz l.hdr) = some spots →
    Answers .dispatchTeam s fun u =>
      u.npu.lastServed = k ∧ u.npu.lastTurn = some s.cycle
      ∧ u.npu.placed = s.npu.placed ++ [{ ctx := k, launch := l.num, team := l.placed, clock := s.cycle }]
      ∧ ∀ (i : Nat) (core : CoreId) (crew : CrewIx) (bank : Nat), spots[i]? = some (core, crew, bank) →
          (s.crewAt core crew).block = none ∧ (u.crewAt core crew).part = partWord l.hdr bank
          ∧ ∃ b, (u.crewAt core crew).block = some b ∧ b.ctx = k ∧ b.launch = l.num ∧ b.teamid = l.placed
            ∧ b.blockid = l.placed * hdTeamsz l.hdr + i ∧ b.started = false)
  ∧ (∀ (s : State) (ctx : CtxId) (launch team : Nat) (l : Launch) (core : CoreId) (crew : CrewIx) (b : Block),
    (s.ctx ctx).launches.find? (fun l => l.num == launch) = some l →
    s.npu.placed.any (fun p => p.ctx == ctx && p.launch == launch && p.team == team) = true →
    (s.crewAt core crew).block = some b → b.ctx = ctx → b.launch = launch → b.teamid = team → b.started = false →
    Answers (.blockStart ctx launch team) s fun u =>
      let c := u.crewAt core crew
      let part := (s.crewAt core crew).part
      let pc (words : Nat) : XWord := BitVec.ofNat 64 (b.cva + 4 * words)
      let lx := hdLx l.hdr
      let ll := hdLl l.hdr
      c.block = some { b with started := true } ∧ c.part = part ∧ (∀ r, c.x.get r = 0) ∧ (∀ r, c.f.get r = 0)
      ∧ c.vsh = 0x40 ∧ c.desctab = BitVec.ofNat 23 (sBegin part) ∧ c.waitlim = 0x100000000 ∧ (∀ i, (c.rings.get i).set = false)
      ∧ c.seqX.pc = pc 0 ∧ c.seqL.pc = pc lx ∧ c.seqC.pc = pc (lx + ll) ∧ c.seqS.pc = pc (lx + ll + hdLc l.hdr)
      ∧ (∀ st, (c.seq st).status = .running) ∧ c.snap.pc = c.seqC.pc ∧ c.entry = true
      ∧ ∀ o, o < allotEnd part → memGet (u.core core).pool (poolPlace part o) = 0)
  -- a crew that waits for the clock in which all four of its sequencers issue their entry words issues nothing of its own
  ∧ (∀ (s : State) (core : CoreId) (crew : CrewIx) (st : Stream), (s.crewAt core crew).entry = true →
      let a := s.actAs core crew st.role
      a.seqTurn = .next a)
  ∧ (∀ (s : State) (core : CoreId) (t : Trap), (s.core core).fw.fault = some t → Answers (.firmwareStop core) s fun u =>
      (u.core core).fw.stopped = true ∧ (u.core core).fw.fault = none ∧ (∀ k, (u.crewAt core k).block = none)
      ∧ ∃ r, u.boot.faults.getLast? = some r ∧ field r.toNat 63 56 = 3 ∧ field r.toNat 55 48 = t.code.toNat
          ∧ field r.toNat 191 128 = t.pc.toNat)
  ∧ (∀ (s : State) (ctx : CtxId) (t : Nat), (s.ctx ctx).halting = .due t →
      (t + 1900 ≤ s.cycle → (s.haltDue.ctx ctx).halting = .halted)
      ∧ ((∀ q ∈ s.crewsOf ctx, (s.core q.1).comb = []) → (∀ p ∈ s.npu.placed, p.ctx ≠ ctx) →
        Answers (.contextSave ctx) s fun u =>
          (u.ctx ctx).halting = .halted ∧ u.mem.stores = s.mem.stores ∧ ∀ q ∈ s.crewsOf ctx,
            let c := s.crewAt q.1 q.2
            let h := u.crewAt q.1 q.2
            h.block = c.block ∧ h.part = c.part ∧ h.lq = [] ∧ h.sq = [] ∧ h.lease = Lease.idle ∧ h.draw = none ∧ h.x = c.x
            ∧ h.v = c.v
            ∧ (c.seqC.status = .running → h.mq = [] ∧ h.seqC.pc = c.snap.pc ∧ h.aC = c.snap.a)
            ∧ ∀ x rest, c.lq = x :: rest → c.seqL.status = .running → h.seqL.pc = x.pc ∧ h.aL = x.a))
  -- a PREEMPT that 1,900 clk after its acceptance still waits for other commands
  ∧ (∀ (s : State) (ctx : CtxId) (c : Cmd), c ∈ s.npu.cmds → c.begun = false → c.status = 0 → c.msg.opcode = 0x0B →
      c.msg.byte 0 = ctx.val → c.at_ + 1900 ≤ s.cycle → (s.ctx ctx).state = .running → (s.ctx ctx).halting = .no →
      (s.haltLate.ctx ctx).halting = .halted ∧ (s.haltLate.ctx ctx).state = .running)
  ∧ (∀ (s : State) (ctx : CtxId), (s.ctx ctx).halting = .halted → (s.ctx ctx).state ≠ .preempting →
      exec (.contextSave ctx) s = .next s)
  ∧ (∀ (s : State) (ctx : CtxId), (s.ctx ctx).halting = .halted → (s.ctx ctx).state = .preempting →
      (∀ q ∈ s.crewsOf ctx, (s.core q.1).fw.idle = true) →
      Answers (.contextSave ctx) s fun u =>
        (u.ctx ctx).halting = .entered (s.saveBytes (s.crewsOf ctx)) ∧ ∀ q ∈ s.crewsOf ctx,
          (u.core q.1).fw.serving = .preempt ctx ∧ (u.core q.1).fw.cause.toNat % 256 = 0x60
          ∧ u.crewAt q.1 q.2 = s.crewAt q.1 q.2)
  ∧ (∀ (s : State) (ctx : CtxId) (left : Nat), (s.ctx ctx).halting = .entered left →
      let masked : Prop := ∃ q ∈ s.crewsOf ctx, ∃ m ∈ (s.dies.get (dieOf q.1)).masks, m.core = q.1 ∧ m.crew = q.2
      (masked → exec (.contextSave ctx) s = .next s)
      ∧ (¬ masked → 0 < (s.carrySave ctx left).1 → Answers (.contextSave ctx) s fun u =>
          (u.ctx ctx).halting = .entered (s.carrySave ctx left).1 ∧ u.cores = s.cores ∧ u.mem = s.mem)
      ∧ (¬ masked → (s.carrySave ctx left).1 = 0 → (∀ q ∈ s.crewsOf ctx, (s.core q.1).badPool = []) → s.mem.badHbm = [] →
        Answers (.contextSave ctx) s fun u =>
          (u.ctx ctx).state = .preempted ∧ (u.ctx ctx).halting = .no ∧ ∀ q ∈ s.crewsOf ctx,
            (u.crewAt q.1 q.2).block = none ∧ ∃ v ∈ u.npu.saves, v.ctx = ctx ∧ v.core = q.1 ∧ v.crew = q.2
              ∧ v.rec_ = s.crewAt q.1 q.2 ∧ v.traps = (s.core q.1).keptTraps q.2))
  ∧ (∀ (s : State) (va : Nat) (b : List Byte) (x : Xlat), s.translate .ndie 0 va .write = .ok x → entryRem x.leaf2.entry = false →
      x.pa + b.length ≤ Config.hbmBytes → (s.saveStore va b).mem.loads seesDev x.key x.pa b.length = b)
  ∧ (∀ r k : Packed, r.bytes.length = 65536
      ∧ leNat (r.bytes.take 8) = r.crew.seqX.pc.toNat ∧ leNat ((r.bytes.drop 16).take 8) = r.crew.seqC.pc.toNat
      ∧ (∀ i : Fin 63, leNat ((r.bytes.drop (0x100 + 8 * i.val)).take 8) = (r.crew.x.get i.succ).toNat
          ∧ (k.restore r.bytes).crew.x.get i.succ = r.crew.x.get i.succ)
      ∧ (∀ st, ((k.restore r.bytes).crew.seq st).pc.toNat % 4 = 0)
      ∧ (k.crew.setVBytes r.crew.vBytes).v = r.crew.v ∧ (k.crew.setVBytes r.crew.vBytes).p = r.crew.p)
  ∧ ∀ (s : State) (ctx : CtxId), s.mayRestore ctx = true → s.mem.badHbm = [] →
      (s.npu.saves.filter fun v => v.ctx == ctx).Pairwise (fun v w => (v.core, v.crew) ≠ (w.core, w.crew)) →
      Answers (.resumeRestore ctx) s fun u =>
        (u.ctx ctx).state = .running ∧ (∀ v ∈ u.npu.saves, v.ctx ≠ ctx)
        ∧ ∀ v ∈ s.npu.saves, v.ctx = ctx →
          let base := (s.ctx ctx).saveSlot v.slot
          let kept : Packed := { crew := v.rec_, traps := v.traps, boxes := v.boxes }
          let record : Packed := match s.saveLoad base 65536 with
            | some b => kept.restore b
            | none => kept
          u.crewAt v.core v.crew = record.crew.setVBytes ((s.loadPages_ (base + 65536) v.pool 128).take vBytesLen)

/-! ### Starts, power and the network -/

/-- R4, R324, R325, R326, R331: a start. With three failed starts the module enters Sage mode; otherwise the start is counted
with reason 6, a bank that verifies is released, the preferred one on an even count, its body in every C-die's carve-out and
every firmware context at its entry; with no such bank the start fails with reason 1. READY clears the count, keeps the bank
as preferred, and raises the minimum version where the image says so. A loss of power, or 10 ms above the power limit, leaves
nothing but flash and fuses. That slots and quanta are withheld together is the model's choice (log 37), and so is the word that an
entry which is no multiple of 4 names (log 57). -/
def Obligations.Starts : Prop :=
  ∀ s : State,
    let b := s.boot
    let kept (u : State) : Prop := u.boot.bankA = b.bankA ∧ u.boot.bankB = b.bankB
    let clear (u : State) : Prop := u.mem = Global.reset ∧ u.npu.ctxs = NDie.reset.ctxs ∧ (∀ c, (u.core c).pool = []) ∧ kept u
    let recorded (u : State) (kind : Nat) : Prop := ∃ r, u.boot.faults.getLast? = some r ∧ field r.toNat 63 56 = kind
    let first := if b.fails % 2 = 0 then b.pref else !b.pref
    let counted (u : State) : Prop := u.boot.fails = (b.fails + 1) % 256 ∧ u.boot.minSvn = b.minSvn
    (b.stage = .off ∨ b.stage = .powered →
      (b.fails = 3 → Answers .bootStart s fun u => u.boot.stage = .sage ∧ u.boot.fails = 3 ∧ clear u ∧ recorded u 7)
      ∧ (b.fails ≠ 3 → (∀ k, bankVerifies b.minSvn (b.bank k) = false) → Answers .bootStart s fun u =>
          u.boot.stage = .powered ∧ counted u ∧ u.boot.get 47 40 = 1 ∧ clear u)
      ∧ (b.fails ≠ 3 → Config.selfTestOk s.tick = true → bankVerifies b.minSvn (b.bank first) = true →
          Answers .bootStart s fun u =>
            u.boot.stage = .starting ∧ u.boot.running = first ∧ counted u ∧ u.boot.get 47 40 = 6 ∧ kept u
            ∧ (∀ c, (u.core c).fw.seq.status = .running
                ∧ (u.core c).fw.seq.pc = BitVec.ofNat 64 (imEntry (bankHeader (b.bank first)) / 4 * 4))
            ∧ ∀ d, d < 4 → memGets u.mem.hbm (Config.fwBody d) (bankBody (b.bank first)).length = bankBody (b.bank first)))
    ∧ (b.stage = .starting →
      ((∀ c, (s.core c).fw.stopped = false ∧ (s.core c).fw.serving = .nothing ∧ (s.core c).fw.seq.status ≠ .running) →
        Answers .ready s fun u =>
          u.boot.stage = .ready ∧ u.cycle = 0 ∧ u.boot.fails = 0 ∧ u.boot.pref = b.running ∧ u.boot.get 47 40 = b.get 55 48
          ∧ u.boot.minSvn = (if imBurn b.runningHeader then imSvn b.runningHeader else b.minSvn)
          ∧ ∀ c, (u.core c).fw.share = 4)
      ∧ Answers .readyTimeout s (fun u => u.boot.stage = .powered ∧ u.boot.get 47 40 = 3 ∧ clear u)
      ∧ Answers .fatalCondition s (fun u => u.boot.stage = .powered ∧ u.boot.get 47 40 = 5 ∧ clear u))
    ∧ Answers .powerLoss s (fun u => u.boot.stage = .off ∧ clear u ∧ u.boot.record = b.record ∧ u.boot.faults = b.faults)
    ∧ (b.stage = .ready → ∀ w, Answers (.powerCheck w) s fun u =>
        u.npu.power = w ∧ (w ≤ 2800 → u.npu.withheldSlots = false ∧ u.npu.withheldQuanta = false ∧ u.npu.overSince = none)
        ∧ (2800 < w → u.npu.withheldSlots = true ∧ u.npu.withheldQuanta = true
            ∧ u.npu.overSince = some (s.npu.overSince.getD s.cycle)))
    ∧ (∀ t, b.stage = .ready → s.npu.withheldSlots = true → s.npu.withheldQuanta = true → s.npu.overSince = some t →
        t + 19000000 ≤ s.cycle → Answers .powerShutdown s fun u => u.boot.stage = .off ∧ clear u ∧ recorded u 5)

/-- R44, R189, R201, R202, R286, R287, R305, R316, R317: the network. A frame that a port that is up does not implement is
counted; a host's write within one page, in its budget, is translated, performed, seen at dev scope and acknowledged, and one
that faults writes nothing and is answered with an error; a read answers what is published at dev scope; one whose page lies at a
peer is kept until the peer has answered its puts, or its gets for the lines that it names; what lies beyond the
budget waits with nothing done. A peer's put is performed and acknowledged, its get is answered with the line; an acknowledged
put is done, its store kept among what its agents see, and a refused one marked; a line that a core asked for joins its view, with the
puts that it holds, which are performed from then on, unless an acquisition has made the get stale, and a refusal is kept for the load that asked. The layout of
the answer frames (log 33), the key of a page that a peer reaches (log 49), what peers may reach (log 38) and the waiting of traffic
(log 39) are the model's choices. A word that fails decoding, or that may not be fetched, traps. -/
def Obligations.Network : Prop :=
  ∀ (s : State) (port : Fin 12) (ctx : CtxId) (va : XWord) (b : List Byte) (pa : BitVec 52),
    let n := b.length
    let answers (u : State) (ctx : CtxId) (what : Nat) (bad : Bool) (addr : XWord) (p : List Byte) : Prop :=
      u.npu.out = s.npu.out ++ [answerFrame ctx what bad addr p]
    let page : Prop := 0 < n ∧ va.toNat % 65536 + n ≤ 65536
    let left := s.portLeft port.val ctx
    let pools (u : State) : Prop := ∀ c, (u.core c).pool = (s.core c).pool
    let line := pa.toNat / 64 * 64
    -- no leaf that a `discard` has marked maps the bytes
    let alive (peer : Option Nat) (at_ : Nat) : Prop := ∀ l ∈ s.deadLeaves, l.over peer at_ n = false
    (s.boot.stage ≠ .sage ∨ port = 0 → Answers (.frameDrop port) s fun u =>
      u.npu.dropped.get port = s.npu.dropped.get port + 1
      ∧ (∀ p, p ≠ port → u.npu.dropped.get p = s.npu.dropped.get p) ∧ u.cores = s.cores ∧ u.mem = s.mem)
    ∧ Traps .illegalOp s { code := 0x01, info := 0, addr := 0 }
    ∧ Traps (.instPerm va) s { code := 0x12, info := 2, addr := va }
    ∧ (s.boot.stage = .ready →
      (page → n ≤ left →
        (∀ x, s.translate .walk ctx va.toNat .write = .ok x → entryRem x.leaf2.entry = false → x.pa + n ≤ Config.hbmBytes →
          Answers (.hostRmaWrite port ctx va b) s fun u =>
            u.mem.loads seesDev x.key x.pa n = b ∧ answers u ctx 1 false va [] ∧ pools u
            ∧ (alive none x.pa → u.cores = s.cores ∧ u.mem.hbm = s.mem.hbm))
        ∧ (∀ x, s.translate .walk ctx va.toNat .write = .ok x → entryRem x.leaf2.entry = true → alive x.peer x.pa →
          Answers (.hostRmaWrite port ctx va b) s fun u => u.mem.stores = s.mem.stores ∧ pools u
            ∧ ∃ r ∈ u.npu.rmas, r.ctx = ctx ∧ r.va = va ∧ r.bytes = some b ∧ r.size = n)
        ∧ (∀ x, s.translate .walk ctx va.toNat .read = .ok x → entryRem x.leaf2.entry = true → entryDead x.leaf2.entry = false →
          Answers (.hostRmaRead port ctx va n) s fun u => u.mem = s.mem ∧ u.cores = s.cores ∧ u.npu.out = s.npu.out
            ∧ ∃ r ∈ u.npu.rmas, r.ctx = ctx ∧ r.va = va ∧ r.bytes = none ∧ r.asks.map Prod.snd = farLines [(x, n)])
        ∧ (∀ c, s.translate .walk ctx va.toNat .write = .fault c →
            Answers (.hostRmaWrite port ctx va b) s fun u => u.mem = s.mem ∧ answers u ctx 1 true va [] ∧ u.cores = s.cores)
        ∧ (∀ x, s.translate .walk ctx va.toNat .read = .ok x → entryRem x.leaf2.entry = false → entryDead x.leaf2.entry = false →
            x.pa + n ≤ Config.hbmBytes → s.mem.bad x.pa n = false → Answers (.hostRmaRead port ctx va n) s fun u =>
              answers u ctx 2 false va (s.mem.loads (fun g => seesDev g || g.writer == .host ctx) x.key x.pa n)
              ∧ u.mem = s.mem ∧ u.cores = s.cores))
      ∧ (left < n → Answers (.hostRmaWrite port ctx va b) s fun u =>
          u.npu.waiting = s.npu.waiting ++ [{ port := port.val, ctx := ctx, left := n - left, what := .rmaWrite va b }]
          ∧ u.npu.out = s.npu.out ∧ u.mem = s.mem ∧ u.cores = s.cores)
      ∧ (s.peerMay pa.toNat n = true → 0 < n → pa.toNat % 65536 + n ≤ 65536 →
          (∀ key, s.peerKey pa.toNat = some key → s.deadLost pa.toNat n = false → Answers (.remotePut pa b) s fun u =>
            u.mem.loads seesDev (some key) pa.toNat n = b ∧ answers u 0 3 false (pa.zeroExtend 64) [] ∧ pools u
            ∧ (alive none pa.toNat → u.cores = s.cores))
          ∧ (s.peerKey pa.toNat = none → Answers (.remotePut pa b) s fun u =>
            answers u 0 3 true (pa.zeroExtend 64) [] ∧ u.mem = s.mem ∧ u.cores = s.cores))
      ∧ ((s.peerMay pa.toNat n = false ∨ s.deadLost pa.toNat n = true) → Answers (.remotePut pa b) s fun u =>
          answers u 0 3 true (pa.zeroExtend 64) [] ∧ u.mem = s.mem ∧ u.cores = s.cores)
      ∧ (∀ key, s.peerMay line 64 = true → s.mem.bad line 64 = false → s.peerKey line = some key → Answers (.remoteGet pa) s fun u =>
          answers u 0 4 false (pa.zeroExtend 64) (s.mem.loads seesDev (some key) line 64) ∧ u.mem = s.mem)
      ∧ ((s.peerMay line 64 = false ∨ s.mem.bad line 64 = true ∨ s.peerKey line = none) → Answers (.remoteGet pa) s fun u =>
          answers u 0 4 true (pa.zeroExtend 64) [] ∧ u.mem = s.mem))
    ∧ (∀ put r, s.mem.remote.find? (fun r => r.put == some put && r.open_) = some r → r.size ≤ s.portLeft port.val r.ctx →
        s.npu.rmas = [] →
        let same (u : State) : Prop := u.mem.remote.map RemoteStore.id = s.mem.remote.map RemoteStore.id
          ∧ (∀ q ∈ s.mem.remote, q.put ≠ some put → q ∈ u.mem.remote) ∧ u.mem.stores = s.mem.stores ∧ u.cores = s.cores
        Answers (.putAck port put true) s (fun u => (∀ q ∈ u.mem.remote, q.put = some put → q.open_ = false) ∧ same u)
        ∧ Answers (.putAck port put false) s (fun u =>
            (∀ q ∈ u.mem.remote, q.put = some put → q.open_ = true → q.refused = true) ∧ same u))
    ∧ ∀ (core : CoreId) (peer : BitVec 10) (g : Get) (l : List Byte),
        let answered (u : State) : Prop := u.mem.gets = s.mem.gets.filter (fun h => !(h.num == g.num)) ∧ pools u
        s.getChosen core peer.toNat line = some g → 64 ≤ s.portLeft port.val g.ctx → l.length = 64 →
        g.core = core ∧ g.peer = peer.toNat ∧ g.pa = line
        ∧ (g ∈ s.mem.gets → g.stale = false → (∀ h ∈ s.mem.gets, h.num = g.num → h = g) →
          ((∀ r ∈ (s.core core).lines, r.peer = peer.toNat → r.pa ≠ line) →
            Answers (.getResponse port core peer pa (.line l)) s fun u =>
              (u.core core).lines = (s.core core).lines
                ++ [{ peer := peer.toNat, pa := line, bytes := l, at_ := g.num, has := s.lineHas g }] ∧ answered u
              ∧ ∀ q ∈ u.mem.remote, q.put.any (s.lineHas g).contains = true → q.shown.isSome = true)
          ∧ Answers (.getResponse port core peer pa .refused) s fun u =>
            { core := g.core, crew := g.crew, role := g.role, peer := g.peer, pa := g.pa } ∈ u.mem.refusals
            ∧ answered u ∧ u.cores = s.cores)
        ∧ (g ∈ s.mem.gets → g.stale = true → (∀ h ∈ s.mem.gets, h.num = g.num → h = g) →
          Answers (.getResponse port core peer pa (.line l)) s fun u => answered u ∧ u.cores = s.cores)

/-! ### The command protocol -/

/-- R306, R308, R309, R310: the checks of a message on an open session, with no command waiting. BARRED comes first, then
MALFORMED, DENIED, REPLAY and WINDOW; a refused one is answered at once, adds guilt where its status does, and moves no `seq`;
an accepted one waits to take effect and moves it on. Guilt stops at 65,535, and above its limit bars a context other than 0. A
command that finds 64 of its session accepted and not completed is answered WINDOW, in its turn after those checked before it. Said of
an opcode that the table does not list, and of commands with every kind of sender's right. That a value out of the range that Table
19.3 names is MALFORMED is the model's choice (log 33), as is the order of sessions in a clock (log 40), which `mayCheck` keeps. -/
def Obligations.MessageChecks : Prop :=
  (∀ (s : State) (m : ScpMsg) (q : Session), m.accepted = false → s.session m.conn = some q → s.serves = true →
    s.mayCheck q.id.toNat = true → s.npu.cmds = [] →
    let k := s.ctx q.ctx
    let n := m.payload.length
    let target (i : Nat) : Prop := q.ctx = 0 ∨ q.ctx.val = m.byte i % 64
    let checked (i : Instr) (layout denied : Prop) : Prop :=
      let ends (st : Nat) : Prop := Answers i s fun u =>
        u.npu.out = s.npu.out ++ [answerOf m q.ctx st []] ∧ u.npu.cmds = [] ∧ u.npu.sessions = s.npu.sessions
        ∧ (u.ctx q.ctx).guilt = (if st = 5 then k.guilt else Min.min (k.guilt + 1) 65535)
        ∧ (u.ctx q.ctx).barred = (k.barred || (decide (st ≠ 5) && decide (q.ctx ≠ 0) && decide (k.guiltLimit < Min.min (k.guilt + 1) 65535)))
        ∧ u.cores = s.cores ∧ u.mem = s.mem
      let fields : Prop := m.headerOk = true ∧ field m.hdr.toNat 37 32 = q.ctx.val ∧ layout
      (k.barred = true → ends 5)
      ∧ (k.barred = false →
        (¬fields → ends 1) ∧ (fields → denied → ends 2) ∧ (fields → ¬denied → m.seq < q.expected → ends 3)
        ∧ (fields → ¬denied → q.expected < m.seq → ends 4)
        ∧ (fields → ¬denied → m.seq = q.expected → Answers i s fun u =>
            u.npu.out = s.npu.out
            ∧ u.npu.cmds = [{ msg := { m with accepted := true }, ctx := q.ctx, status := 0, begun := false, at_ := s.cycle }]
            ∧ u.npu.sessions = s.npu.sessions.map (fun p => if p.id = q.id then { p with expected := p.expected + 1 } else p)
            ∧ u.npu.ctxs = s.npu.ctxs ∧ u.cores = s.cores ∧ u.mem = s.mem))
    (m.opcode = 0 ∨ 0x13 ≤ m.opcode → checked (.scpUnknownOpcode m) False False)
    ∧ (m.opcode = 0x11 → checked (.guiltClear m) (n = 1 ∧ m.byte 0 < 64) (q.ctx ≠ 0))
    ∧ (m.opcode = 0x0B → checked (.preempt m) (n = 1 ∧ m.byte 0 < 64) (q.ctx ≠ 0))
    ∧ (m.opcode = 0x0D → checked (.ctxReset m) (n = 1 ∧ m.byte 0 < 64) (¬target 0))
    ∧ (m.opcode = 5 → checked (.invoke m) (n = 200 ∧ m.byte 1 ≤ 7 ∧ m.byte 2 ≤ 8 ∧ m.num 3 5 = 0) False)
    ∧ (m.opcode = 7 → checked (.map m)
        (n = 32 ∧ (m.byte 0 = 1 ∨ m.byte 0 = 2) ∧ m.byte 1 < 64 ∧ 2 ≤ m.byte 2 ∧ m.byte 2 ≤ 4 ∧ m.num 3 5 = 0)
        (¬target 1 ∨ (m.byte 0 = 2 ∧ q.ctx ≠ 0)))
    ∧ (m.opcode = 0x12 → checked (.calendarSet m)
        (n = 520 ∧ m.byte 0 ≤ 2 ∧ ∀ o ∈ m.payload.drop 8, o.toNat < 64 ∨ o.toNat = 255) (q.ctx ≠ 0)))
  ∧ ∀ (s : State) (m : ScpMsg) (q : Session) (i : Instr), m.accepted = false → s.session m.conn = some q → s.serves = true →
    s.mayCheck q.id.toNat = true → s.barredAhead q.ctx = false → m.headerOk = true → field m.hdr.toNat 37 32 = q.ctx.val →
    ((m.opcode = 0x11 ∧ i = .guiltClear m ∧ m.payload.length = 1 ∧ m.byte 0 < 64 ∧ q.ctx = 0)
      ∨ (m.opcode = 0x0D ∧ i = .ctxReset m ∧ m.payload.length = 1 ∧ m.byte 0 < 64 ∧ (q.ctx = 0 ∨ q.ctx.val = m.byte 0))
      ∨ (m.opcode = 5 ∧ i = .invoke m ∧ m.payload.length = 200 ∧ m.byte 1 ≤ 7 ∧ m.byte 2 ≤ 8 ∧ m.num 3 5 = 0)) →
    m.seq = q.expected →
    (64 ≤ s.outstandingScp m.conn → (∀ c ∈ s.npu.cmds, c.begun = true) → Answers i s fun u =>
      u.npu.out = s.npu.out ++ [answerOf m q.ctx 4 []] ∧ u.npu.cmds = s.npu.cmds ∧ u.npu.sessions = s.npu.sessions
      ∧ (u.ctx q.ctx).guilt = Min.min ((s.ctx q.ctx).guilt + 1) 65535 ∧ u.cores = s.cores ∧ u.mem = s.mem)
    ∧ (∀ c, s.npu.cmds.find? (fun c => !c.begun) = some c → c.status = 0 →
      let st := if 64 ≤ s.outstandingScp m.conn then 4 else 0
      Answers i s fun u =>
        u.npu.out = s.npu.out
        ∧ u.npu.cmds = s.npu.cmds ++ [{ msg := { m with accepted := true }, ctx := q.ctx, status := st, begun := false, at_ := s.cycle }]
        ∧ u.npu.sessions = s.npu.sessions.map (fun p => if p.id = q.id ∧ st = 0 then { p with expected := p.expected + 1 } else p)
        ∧ u.npu.ctxs = s.npu.ctxs ∧ u.cores = s.cores ∧ u.mem = s.mem)

/-- R175, R307, R310, R311, R312: an accepted command of a session, the only one waiting, when it takes effect: SESSION_OPEN
opens one session of its context, or answers AUTH; SLOT_LOAD's first part pins its pages and makes the slot the loader's,
resident once its final part passes; SLOT_PIN pins; SLOT_REVOKE frees the slot and takes execute from running blocks, or
answers BUSY; INVOKE queues a launch with the next number. Each completes with its own `seq` and cookie. The layout of a SESSION_OPEN
(log 33) and the statuses NOT_RESIDENT and REFUSED of SLOT_PIN and SLOT_REVOKE (log 40) are the model's choices. -/
def Obligations.SlotCommands : Prop :=
  ∀ (s : State) (m : ScpMsg) (k : CtxId) (clk : Nat), m.accepted = true → s.boot.stage = .ready →
    s.npu.cmds = [{ msg := m, ctx := k, status := 0, begun := false, at_ := clk }] →
    let b := s.begin_
    let sent (u : State) (st : Nat) (p : List Byte) : Prop :=
      u.npu.out = s.npu.out ++ [answerOf m k st p] ∧ u.npu.cmds = []
    let ends (i : Instr) (st : Nat) (t : State) : Prop :=
      exec i s = .next ((t.send (answerOf m k st [])).modNpu fun n => { n with cmds := [] })
    let own := m.ctxAt 0
    (m.opcode = 1 →
      (Config.exchangeOk (s.ctx own).key m.payload = false → Answers (.sessionOpen m) s fun u =>
          u = { b with npu := { b.npu with out := s.npu.out ++ [answerOf m k 14 []], cmds := [] } })
      ∧ (Config.exchangeOk (s.ctx own).key m.payload = true → s.npu.sessions.length ≤ 64 → Answers (.sessionOpen m) s fun u =>
          ∃ id : BitVec 16, (u.ctx own).session = some id ∧ id ≠ 0 ∧ { id := id, ctx := own, expected := 1 } ∈ u.npu.sessions
            ∧ (∀ q ∈ s.npu.sessions, q.id ≠ id) ∧ (∀ q ∈ u.npu.sessions, q.ctx = own → q.id = id)
            ∧ (∀ q ∈ s.npu.sessions, q.ctx ≠ own → q ∈ u.npu.sessions) ∧ u.npu.cmds = []
            ∧ u.npu.out.length = s.npu.out.length + 1))
    ∧ (m.opcode = 2 → m.num 8 8 = 0 →
      ((∃ q, s.slot (m.byte 0) = some q ∧ (q.owner ≠ k ∨ q.resident = true)) → ends (.slotLoad m) 10 b)
      ∧ ((∀ q ∈ s.slot (m.byte 0), q.owner = k ∧ q.resident = false) →
        (b.slotPages k (firstHeader m) = none → ends (.slotLoad m) 8 b)
        ∧ ∀ pages, b.slotPages k (firstHeader m) = some pages → Answers (.slotLoad m) s fun u =>
            let alive : Prop := ∀ l ∈ s.deadLeaves, ∀ p ∈ pages, l.over none (65536 * p) 65536 = false
            ∃ q st, u.slot (m.byte 0) = some q ∧ q.owner = k ∧ q.hdr = firstHeader m
              ∧ (alive → q.got = [(0, (m.payload.drop 16).length)])
              ∧ sent u st [] ∧ (m.byte 1 = 0 → (alive → st = 0) ∧ q.resident = false)
              ∧ (m.byte 1 ≠ 0 → (st = 0 ∧ q.resident = true) ∨ (st = 8 ∧ q.resident = false))
              ∧ ∀ p ∈ pages, ∃ w ∈ u.npu.pins, w.ctx = k ∧ w.page = p ∧ w.slot = m.byte 0 ∧ w.gen = some s.npu.nextGen))
    ∧ (m.opcode = 3 →
      let va := m.num 8 8
      let len := m.num 16 8
      (s.slot (m.byte 0) = none → ends (.slotPin m) 6 b)
      ∧ ∀ q, s.slot (m.byte 0) = some q → q.owner = k → va % 65536 = 0 → len % 65536 = 0 → va + len ≤ 2 ^ 48 →
          (b.loadPages k [.read] (pagesOf va len) = none → ends (.slotPin m) 8 b)
          ∧ ∀ pages, b.loadPages k [.read] (pagesOf va len) = some pages →
              ends (.slotPin m) 0 (b.pinPages k q.num none pages))
    ∧ (m.opcode = 4 →
      (s.slot (m.byte 0) = none → ends (.slotRevoke m) 6 b)
      ∧ ∀ q, s.slot (m.byte 0) = some q → (k = 0 ∨ q.owner = k) →
          (m.byte 1 = 0 → (∃ c, ∃ l ∈ (s.ctx c).launches, l.gen = q.gen ∧ 0 < l.placed) → ends (.slotRevoke m) 9 b)
          ∧ ((m.byte 1 ≠ 0 ∨ ∀ c, ∀ l ∈ (s.ctx c).launches, l.gen ≠ q.gen) →
            (∀ c, ∀ l ∈ (s.ctx c).launches, l.gen = q.gen → 0 < l.placed) → q.num = m.byte 0 → Answers (.slotRevoke m) s fun u =>
              u.slot q.num = none ∧ sent u 0 []
              ∧ ∀ c w x, (s.crewAt c w).block = some x → (∃ l ∈ (s.ctx x.ctx).launches, l.num = x.launch ∧ l.gen = q.gen) →
                (u.crewAt c w).block = some { x with revoked := true }))
    ∧ (m.opcode = 5 →
      let c := s.ctx k
      let invited (q : Slot) : Prop := q.resident = true ∧ (field q.hdr.toNat 511 448).testBit k.val = true
      ((∀ q ∈ s.slot (m.byte 0), ¬invited q) → ends (.invoke m) 6 b)
      ∧ ∀ q, s.slot (m.byte 0) = some q → invited q →
          (c.crewQuota ≠ 0 → c.crewQuota < hdTeamsz q.hdr → ends (.invoke m) 7 b)
          ∧ ((c.crewQuota = 0 ∨ hdTeamsz q.hdr ≤ c.crewQuota) → (∀ d ∈ depsOf m, 0 < d ∧ d < c.nextLaunch) →
            (∀ d ∈ depsOf m, (d, false) ∉ c.finished) → c.doomed = none → Answers (.invoke m) s fun u =>
              ∃ l, (u.ctx k).launches = c.launches ++ [l] ∧ l.num = c.nextLaunch ∧ l.hdr = q.hdr ∧ l.prio = m.byte 1
                ∧ l.deps = depsOf m ∧ l.cookie = m.cookie ∧ l.placed = 0
                ∧ (∀ i : Fin 16, l.b.get i = BitVec.ofNat 64 (m.num (8 + 8 * i.val) 8))
                ∧ (u.ctx k).nextLaunch = c.nextLaunch + 1 ∧ sent u 0 (natLe 8 c.nextLaunch)))

/-- R185, R212, R292, R294, R309, R313, R314, R326, R328, R339: commands that set records, tables and keys, in effect: a
contract that R212 admits waits for its boundary, parameters, peers, the device number and keys are set, a change of tables
stands whole or gives its status, once no put of its context is unanswered, a key slot that a leaf names is in use, an export that frees
its sequence waits for the masks of its handle (DEDUCED, log 29), calendar owners
wait for their frame, an image goes to the bank that does not run and becomes preferred only when it verifies. The model's choices:
where UNMAP and MIGRATE carry their fields (log 33), that a key for context 0 is REFUSED and CONTRACT_SET completes as it is admitted
(log 40), that a key slot is REFUSED where a table that would be searched is uncorrectable (log 40), the wait of a table change for puts
(log 9), and the reading of an imported image (log 29). -/
def Obligations.RecordCommands : Prop :=
  ∀ (s : State) (m : ScpMsg) (k : CtxId) (clk : Nat), m.accepted = true → s.boot.stage = .ready →
    s.npu.cmds = [{ msg := m, ctx := k, status := 0, begun := false, at_ := clk }] →
    let b := s.begin_
    let endsWith (i : Instr) (st : Nat) (p : List Byte) (t : State) : Prop :=
      exec i s = .next ((t.send (answerOf m k st p)).modNpu fun n => { n with cmds := [] })
    let ends (i : Instr) (st : Nat) (t : State) : Prop := endsWith i st [] t
    let record (n : Nat) : Nat := m.num 16 n
    let of (i : Nat) : CtxId := m.ctxAt i
    let changes (i : Instr) (r : Mapped) : Prop :=
      (s.putsOut (of 1) = true → exec i s = .next s)
      ∧ (s.putsOut (of 1) = false →
        (∀ t, r = .ok t → ends i 0 t) ∧ (r = .error .refused → ends i 8 b) ∧ (r = .error .inUse → ends i 10 b)
        ∧ (r = .error .noSpace → ends i 12 b))
    (m.opcode = 6 →
      (m.byte 0 = 0 →
        (b.admits_ (of 1) (BitVec.ofNat 128 (record 16)) = true → ends (.contractSet m) 0
          (b.modCtx (of 1) fun c => { c with pending := c.pending ++ [(BitVec.ofNat 128 (record 16), s.cycle)] }))
        ∧ (b.admits_ (of 1) (BitVec.ofNat 128 (record 16)) = false → ends (.contractSet m) 8 b))
      ∧ (m.byte 0 = 1 →
        let ok : Prop := field (record 32) 167 153 ≤ 16384 ∧ field (record 32) 136 128 ≤ 256 ∧ field (record 32) 255 192 % 65536 = 0
        (ok → ends (.contractSetParams m) 0
          (b.modCtx (of 1) fun c => { c with params := BitVec.ofNat 256 (setField (record 32) 123 122 3) }))
        ∧ (¬ok → ends (.contractSetParams m) 8 b))
      ∧ (m.byte 0 = 2 → ends (.contractSetPeer m) 0 (b.modNpu fun n => { n with
          peers := n.peers.filter (fun p => p.1 ≠ m.byte 1) ++ [(m.byte 1, BitVec.ofNat 256 (record 32))] }))
      ∧ (m.byte 0 = 3 → ends (.contractSetDevid m) 0 (b.modNpu fun n => { n with
          devid := BitVec.ofNat 16 (record 2), domid := BitVec.ofNat 32 (m.num 20 4) }))
      ∧ (m.byte 0 = 4 →
        (m.byte 1 ≠ 0 → ends (.contractSetKey m) 0
          (b.modCtx (of 1) fun c => { c with key := BitVec.ofNat 512 (record 64) }))
        ∧ (m.byte 1 = 0 → ends (.contractSetKey m) 8 b)))
    ∧ (m.opcode = 7 → changes (.map m) (b.map (stageOf m) (of 1) (m.num 8 8) (m.byte 2) (m.num 16 8) (m.num 24 8)))
    ∧ (m.opcode = 8 → changes (.unmap m) (b.unmap (stageOf m) (of 1) (m.num 8 8) (m.byte 2) (m.num 16 8)))
    ∧ (m.opcode = 9 →
      (m.byte 0 = 0 → changes (.migratePage m) (b.migrate (of 1) (m.num 8 8) (m.num 16 8)))
      ∧ (m.byte 0 = 1 →
        let d := s.dies.get (dieOfMsg m)
        let mine (g : Sgr) : Bool := g.handle == m.num 2 2 && (k = 0 || g.ctx == k)
        (d.sgrs.find? mine = none → ends (.migrateExport m) 8 b)
        ∧ ∀ g, d.sgrs.find? mine = some g →
            let masked : Prop := ∃ w ∈ d.masks, w.handle = m.num 2 2
            (m.byte 4 = 1 → masked → exec (.migrateExport m) s = .next b)
            ∧ ((m.byte 4 = 1 → ¬masked) → (d.exported g).length ≤ 8172 → endsWith (.migrateExport m) 0 (d.exportSgr g)
                (if m.byte 4 = 1 then b.modDie (dieOfMsg m) fun d => d.drop g.handle else b)))
      ∧ (m.byte 0 = 2 →
        let v := m.num 2 128
        let view := (s.mem.stores.filter seesDev).map fun g => g.id
        let nodes := nodeWords (m.payload.drop 130) ((m.payload.length - 130) / 8)
        (∀ e, b.casBytes .ndie k view (field v 47 0) 64 = .error e → ends (.migrateImport m) 8 b)
        ∧ ∀ h d n, b.casBytes .ndie k view (field v 47 0) 64 = .ok h → headerBad (BitVec.ofNat 512 (leNat h)) = false →
            field v 47 0 % 64 = 0 →
            b.importSgr (b.dies.get (dieOfMsg m)) k v nodes (BitVec.ofNat 512 (leNat h)) view = .made d n →
            endsWith (.migrateImport m) 0 (natLe 2 n) (b.modDie (dieOfMsg m) fun _ => d)))
    ∧ (m.opcode = 0x0A →
      let slot := m.num 0 2
      let others (n : NDie) : List (Nat × BitVec 256) := n.keys.filter fun q => q.1 ≠ slot
      let does (i : Instr) (new_ : List (Nat × BitVec 256)) : Prop :=
        (b.treesBad = false → b.keyNamed slot = false → ends i 0 (b.modNpu fun n => { n with keys := others n ++ new_ }))
        ∧ (b.treesBad = false → b.keyNamed slot = true → ends i 10 b) ∧ (b.treesBad = true → ends i 8 b)
      (m.byte 2 ≠ 1 → does (.keyLoad m) [(slot, BitVec.ofNat 256 (record 32))]) ∧ (m.byte 2 = 1 → does (.keyErase m) []))
    ∧ (m.opcode = 0x12 →
      ends (.calendarSet m) 0 (b.modNpu fun n => { n with
        calNext := calMerge n.calNext { kind := m.byte 0, index := m.num 1 3, owners := m.payload.drop 8 } }))
    ∧ (m.opcode = 0x10 → m.num 8 8 + (m.payload.drop 16).length ≤ 256 + 2 ^ 24 →
      let side := !s.boot.running
      let bank := bankWrite (s.boot.bank side) (m.num 8 8) (m.payload.drop 16)
      let t : State := { b with boot := s.boot.setBank side bank }
      (m.byte 0 = 0 → ends (.fwUpdate m) 0 t)
      ∧ (m.byte 0 ≠ 0 →
        (bankVerifies s.boot.minSvn bank = true → ends (.fwUpdate m) 0 { t with boot := t.boot.put 8 8 side.toNat })
        ∧ (bankVerifies s.boot.minSvn bank = false → ends (.fwUpdate m) 8 t)))
    ∧ (m.opcode = 0x11 →
      ends (.guiltClear m) 0 (b.modCtx (of 0) fun c => { c with guilt := 0, barred := false }))

/-- R297, R298, R299, R302, R315, R318, R319, R333, R335: commands on a context's state, and what the device tells of itself. A
running context with a save area becomes `preempting`, its crews to halt by the bound that counts from the acceptance, and a preempted
one `resuming`, the commands in progress until their work is done; a notice closes with its word to be retried or its launch ended; a reset leaves the context idle with no launch
and no notice; RESYNC and TELEMETRY answer with the records that the sender hears of, whose layout is the model's (log 33). That PREEMPT and
RESUME in another state complete REFUSED is the model's choice (log 32), as is a directory with an uncorrectable word (log 40). -/
def Obligations.ContextCommands : Prop :=
  ∀ (s : State) (m : ScpMsg) (k : CtxId) (clk : Nat), m.accepted = true → s.boot.stage = .ready →
    s.npu.cmds = [{ msg := m, ctx := k, status := 0, begun := false, at_ := clk }] →
    let b := s.begin_
    let sent (u : State) (st : Nat) : Prop := u.npu.out = s.npu.out ++ [answerOf m k st []] ∧ u.npu.cmds = []
    let ends (i : Instr) (st : Nat) (t : State) : Prop :=
      exec i s = .next ((t.send (answerOf m k st [])).modNpu fun n => { n with cmds := [] })
    let goesOn (u : State) : Prop :=
      u.npu.cmds = [{ msg := m, ctx := k, status := 0, begun := true, at_ := clk }] ∧ u.npu.out = s.npu.out ∧ u.cores = s.cores
    let tells (i : Instr) (cut : List Byte → List Byte) (l : List Byte) : Prop := Answers i s fun u =>
      u.npu.cmds = [] ∧ u.cores = s.cores ∧ u.mem = s.mem ∧ ∃ parts : List (List Byte),
        u.npu.out = s.npu.out ++ parts.map (answerOf m k 0) ∧ (parts.map cut).flatten = l
        ∧ ∀ p ∈ parts, p.length ≤ 65504
    let t0 := m.ctxAt 0
    let t1 := m.ctxAt 1
    let hears (c : CtxId) : Prop := k = 0 ∨ c = k
    (m.opcode = 0x0B →
      ((s.ctx t0).state = .running → (s.ctx t0).saveArea ≠ 0 → s.placedBlocks t0 ≤ (s.ctx t0).crewQuota →
        Answers (.preempt m) s fun u => (u.ctx t0).state = .preempting ∧ (u.ctx t0).preemptFor = some m ∧ goesOn u
          ∧ (u.ctx t0).halting = if (s.ctx t0).halting = .halted then .halted else .due clk)
      ∧ ((s.ctx t0).state ≠ .running → ends (.preempt m) 8 (b.thaw t0))
      ∧ ((s.ctx t0).saveArea = 0 → ends (.preempt m) 8 (b.thaw t0))
      ∧ ((s.ctx t0).halting ≠ .halted → b.thaw t0 = b))
    ∧ (m.opcode = 0x0C →
      (m.byte 0 = 0 →
        ((s.ctx t1).state = .preempted → b.saveBad (s.ctx t1).saveArea 4096 = false → Answers (.resume m) s fun u =>
          (u.ctx t1).state = .resuming ∧ (u.ctx t1).resumeFor = some m ∧ goesOn u)
        ∧ ((s.ctx t1).state ≠ .preempted ∨ b.saveBad (s.ctx t1).saveArea 4096 = true → ends (.resume m) 8 b))
      ∧ (m.byte 0 = 1 →
        ((s.ctx t1).notice (m.num 8 8) = none → ends (.resumeRetry m) 8 b)
        ∧ ∀ n, (s.ctx t1).notice (m.num 8 8) = some n → Answers (.resumeRetry m) s fun u =>
          (u.ctx t1).notice (m.num 8 8) = none ∧ sent u 0
          ∧ (n.holds = true → (u.core n.core).fw.retries = (s.core n.core).fw.retries ++ [n.trap])
          ∧ (n.holds = false → u.cores = s.cores))
      ∧ (m.byte 0 = 2 →
        ((s.ctx t1).notice (m.num 8 8) = none → ends (.resumeRefuse m) 8 b)
        ∧ ∀ n x, (s.ctx t1).notice (m.num 8 8) = some n → b.noticeBlock t1 n = some x → x.ctx = t1 →
          Answers (.resumeRefuse m) s fun u =>
            (∀ l ∈ (u.ctx t1).launches, l.num ≠ x.launch) ∧ (∀ c w, (u.crewAt c w).runs t1 x.launch = false)
            ∧ u.npu.cmds = [] ∧ ∃ r, u.boot.faults.getLast? = some r ∧ field r.toNat 63 56 = 1
              ∧ field r.toNat 55 48 = n.trap.code.toNat))
    ∧ (m.opcode = 0x0D → b.directoryLost t0 = true → ends (.ctxReset m) 8 b)
    ∧ (m.opcode = 0x0D → b.directoryLost t0 = false → Answers (.ctxReset m) s fun u =>
        (u.ctx t0).state = .idle ∧ (u.ctx t0).launches = [] ∧ (u.ctx t0).notices = [] ∧ u.npu.cmds = []
        ∧ (∀ d, ∀ g ∈ (u.dies.get d).sgrs, g.ctx ≠ t0)
        ∧ ∀ c w, ∀ l ∈ (s.ctx t0).launches, (u.crewAt c w).runs t0 l.num = false)
    ∧ (m.opcode = 0x0E → tells (.resync m) List.tail (b.summary k))
    ∧ (m.opcode = 0x0F →
      (m.byte 0 = 0 →
        (k = 0 → tells (.telemetryPower m) id (natLe 8 s.npu.power ++ (s.dies.toList.flatMap fun d => natLe 8 d.temp)
          ++ natLe 8 s.npu.temp ++ s.npu.soft.flatMap fun q => natLe 8 q.1 ++ natLe 8 q.2.1 ++ natLe 8 q.2.2))
        ∧ (k ≠ 0 → tells (.telemetryPower m) id []))
      ∧ (m.byte 0 = 1 → tells (.telemetryShutter m) id
          ((s.npu.stats.filter fun r => decide (hears r.ctx)).flatMap ShutterStat.bytes))
      ∧ (m.byte 0 = 2 → tells (.telemetryFaults m) id (s.faultsFor k).flatten)
      ∧ (m.byte 0 = 3 → tells (.telemetryPorts m) id
          (((s.npu.portBytes.filter fun q => decide (hears q.2.1)).flatMap fun q =>
              natLe 1 q.1 ++ natLe 7 q.2.1.val ++ natLe 8 q.2.2)
            ++ if k = 0 then s.npu.dropped.toList.flatMap fun n => natLe 8 n else [])))

/-! ### Encodings, steps and the whole machine -/

/-- R42 to R58: words written out from the tables of spec/03_encodings.md decode to the instructions they stand for, in the
streams that have them. -/
def Obligations.DecodeSanity : Prop :=
  let tk := Tok.zero
  decode .x 0x0204146E = some (.mul tk 4 5 6) ∧ decode .x 0x02851FFD = some (.addi tk 5 7 (-3))
  ∧ decode .x 0x04470123 = some (.lim tk 7 0x0123) ∧ decode .x 0x05022190 = some (.ffma tk 1 2 3 4)
  ∧ decode .l 0x024CC040 = some (.aaddi tk 3 3 64) ∧ decode .c 0x00808003 = some (.loop tk 16 3)
  ∧ decode .c 0x08C14598 = some (.vmaxi tk 0 (.reg 10) (.reg 11) (.reg 12))
  ∧ decode .c 0x0D0C043F = some (.mma tk 3 0 1 15 true true)
  ∧ decode .hinge 0x641C8002 = some (.ecmp 8 3 9 2) ∧ decode .x 0x0D0C043F ≠ decode .c 0x0D0C043F
  ∧ decode .fw 0x00000000 = some .nop ∧ decode .x 0x10000000 = some (.tok { tk with pushN := true })

/-- R42 to R58: decoding what the encoder makes of an instruction that is well formed for an agent gives the instruction back,
every operand at every value; and a word that decodes is the encoding of an instruction well formed for its agent, so that
each word has one meaning and no bit of it goes unread. -/
def Obligations.DecodeEncode : Prop :=
  (∀ (role : Role) (i : Instr), i.wf role = true → decode role (encode i) = some i)
  ∧ ∀ (role : Role) (w : W32) (i : Instr), decode role w = some i → i.wf role = true ∧ encode i = w

/-- R44, R59, R99, R177, R184, R197, R250, R295: a step runs the decoded instruction. When it is a sequencer's turn, in a started
block and with nothing to wait for, and its fetch gives a word that decodes to `i`, the step is `exec i` on the state whose turn
it is, with the fetch line held, once its place in the order of the clock is kept: a word that would come before work already
done in this clock leaves the state for the next, a test of a phase comes after the clock's combine updates, and a mailbox
word after the retries of the lower crews that wait at one (the order within a clock is the model's choice, log 1). So in the firmware
context, which takes a slot of a crew once the module is ready and its word is in its place, and every slot before ready (log 18), and in
Hinge. A word that does not decode is
`illegalOp`, and a turn of an engine or of the outside is that row. -/
def Obligations.StepRunsDecoded : Prop :=
  ∀ (s : State),
    let f := s.forTurn s.nextTurn
    let inPlace (a : State) (p : Nat) (k : State → Host.Outcome State Fault Refusal) : Prop :=
      (p < a.pos → step s = .next a) ∧ (a.pos ≤ p → step s = k { a with pos := p })
    let runs (a : State) (role : Role) (w : W32) (line : XWord × List Byte) (x : Option Xlat) : Prop :=
      (∀ i, decode role w = some i → inPlace a (a.cur.wordPlace w i) fun b =>
        let h := b.holdLine a.pc line x
        match i with
        | .bwait .. | .btest .. => exec i h.combineAll
        | .mbput .. | .mbget .. | .mbpoll .. =>
          exec i ((crewIxs.filter fun k => k.val < a.cur.crew.val).foldl (fun t k => t.retryBox a.cur.core k) h)
        | _ => exec i h)
      ∧ (decode role w = none → step s = exec .illegalOp (a.holdLine a.pc line x))
    (∀ core crew st w line x, s.nextTurn = .seq core crew st →
      let a := f.actAs core crew st.role
      a.crewLive = true → a.seq.status = .running → a.timedOut = none → a.pushDue = false → a.pushStuck = false →
      a.seq.trapDue = none → a.seq.issued = false → a.fetch a.pc = .word w line x → runs a st.role w line x)
    ∧ (∀ core w line x, s.nextTurn = .fw core →
      let a := f.actAs core 0 .fw
      let q := a.here.fw
      q.stopped = false → q.eretDue = false → q.seq.status = .running → q.seq.issued = false →
      (s.boot.stage ≠ .ready → a.timedOut = none → a.fetch a.pc = .word w line x → runs a .fw w line x)
      ∧ (s.boot.stage = .ready → a.timedOut = none → a.wordInOrder = false ∨ a.here.slotFor = none → step s = .next a)
      ∧ ∀ k, s.boot.stage = .ready → a.timedOut = none → a.wordInOrder = true → a.here.slotFor = some k →
          let b := a.modHere fun c => c.takeSlot k
          b.timedOut = none → b.fetch b.pc = .word w line x → runs b .fw w line x)
    ∧ (∀ core k w i p, s.nextTurn = .hinge core → f.turnPlace (.hinge core) = some p →
      let a := f.actAs core k .hinge
      (f.core core).hingeCur = some k → a.crew.edgeWord = some w → decode .hinge w = some i →
      (p < f.pos → step s = .next f) ∧ (f.pos ≤ p → step s = exec i { a with pos := p }))
    ∧ ∀ i, s.nextTurn = .event i → isEvent i = true →
      (f.turnPlace (.event i) = none → step s = exec i f)
      ∧ ∀ p, f.turnPlace (.event i) = some p → inPlace f p (exec i)

/-- Every row of the opcode table has a meaning: no instruction is refused in any state. -/
def Obligations.NeverRefused : Prop :=
  ∀ (i : Instr) (s : State) (r : Refusal), exec i s ≠ .refused r

/-- R324: whatever happens, the image that starts or runs has the security version that the fuses demand: every step keeps
`SvnOk`, words, commands, updates of the idle bank, starts and losses of power alike. -/
def Obligations.AntiRollback : Prop :=
  ∀ s t : State, s.SvnOk → step s = .next t → t.SvnOk

/-- R4, R8, R170, R210, R230, R320, Table 19.4, Table 21.1: the module at power-on: powered and not started, with `SvnOk`; no
block, no live sequence, no table, no open session; every context idle with the parameters of Table 19.4; the firmware
contexts stand at `fwshare` 4. -/
def Obligations.AtReset : Prop :=
  let s := State.reset
  s.SvnOk ∧ s.boot.stage = .powered ∧ s.cycle = 0 ∧ s.npu.sessions = [] ∧ s.npu.slots = []
  ∧ (∀ c k, (s.crewAt c k).block = none ∧ (s.crewAt c k).lease.held = false ∧ (s.crewAt c k).vsh = 0x40
      ∧ (s.crewAt c k).hinge.state = .idle ∧ (s.crewAt c k).waitlim = 0x100000000)
  ∧ (∀ c, (s.core c).fw.share = 4 ∧ (s.core c).traps = [])
  ∧ (∀ d, (s.dies.get d).sgrs = [] ∧ (s.dies.get d).nodes = [])
  ∧ ∀ k, (s.ctx k).state = .idle ∧ (s.ctx k).root1 = none ∧ (s.ctx k).root2 = none ∧ (s.ctx k).contract = 0
      ∧ (s.ctx k).guilt = 0 ∧ (s.ctx k).barred = false ∧ (s.ctx k).crewQuota = (if k = 0 then 256 else 0)
      ∧ (s.ctx k).scopesGranted = (if k = 0 then 0x3F else 0x03) ∧ (s.ctx k).portBudget = 200000
      ∧ (s.ctx k).guiltLimit = 64

end Statements
end

