-- ==== Sys2Proof/Laws/State.lean ====
section
/-! SUPPORT. What each update of the state leaves as it was, one lemma per field and update, so that no proof unfolds a
record update. -/

namespace Sys2Proof.Machine

/-! ### `State.setCore` -/

@[simp] theorem State.setCore_dies (s : State) (c : CoreId) (v : Core) : (s.setCore c v).dies = s.dies := rfl
@[simp] theorem State.setCore_mem (s : State) (c : CoreId) (v : Core) : (s.setCore c v).mem = s.mem := rfl
@[simp] theorem State.setCore_npu (s : State) (c : CoreId) (v : Core) : (s.setCore c v).npu = s.npu := rfl
@[simp] theorem State.setCore_boot (s : State) (c : CoreId) (v : Core) : (s.setCore c v).boot = s.boot := rfl
@[simp] theorem State.setCore_cycle (s : State) (c : CoreId) (v : Core) : (s.setCore c v).cycle = s.cycle := rfl
@[simp] theorem State.setCore_agenda (s : State) (c : CoreId) (v : Core) : (s.setCore c v).agenda = s.agenda := rfl
@[simp] theorem State.setCore_tick (s : State) (c : CoreId) (v : Core) : (s.setCore c v).tick = s.tick := rfl
@[simp] theorem State.setCore_cur (s : State) (c : CoreId) (v : Core) : (s.setCore c v).cur = s.cur := rfl
@[simp] theorem State.setCore_serial (s : State) (c : CoreId) (v : Core) : (s.setCore c v).serial = s.serial := rfl
@[simp] theorem State.setCore_marks (s : State) (c : CoreId) (v : Core) : (s.setCore c v).marks = s.marks := rfl
@[simp] theorem State.setCore_quiet (s : State) (c : CoreId) (v : Core) : (s.setCore c v).quiet = s.quiet := rfl
@[simp] theorem State.setCore_pos (s : State) (c : CoreId) (v : Core) : (s.setCore c v).pos = s.pos := rfl

/-! ### `State.modCore` -/

@[simp] theorem State.modCore_dies (s : State) (c : CoreId) (f : Core → Core) : (s.modCore c f).dies = s.dies := rfl
@[simp] theorem State.modCore_mem (s : State) (c : CoreId) (f : Core → Core) : (s.modCore c f).mem = s.mem := rfl
@[simp] theorem State.modCore_npu (s : State) (c : CoreId) (f : Core → Core) : (s.modCore c f).npu = s.npu := rfl
@[simp] theorem State.modCore_boot (s : State) (c : CoreId) (f : Core → Core) : (s.modCore c f).boot = s.boot := rfl
@[simp] theorem State.modCore_cycle (s : State) (c : CoreId) (f : Core → Core) : (s.modCore c f).cycle = s.cycle := rfl
@[simp] theorem State.modCore_agenda (s : State) (c : CoreId) (f : Core → Core) : (s.modCore c f).agenda = s.agenda := rfl
@[simp] theorem State.modCore_tick (s : State) (c : CoreId) (f : Core → Core) : (s.modCore c f).tick = s.tick := rfl
@[simp] theorem State.modCore_cur (s : State) (c : CoreId) (f : Core → Core) : (s.modCore c f).cur = s.cur := rfl
@[simp] theorem State.modCore_serial (s : State) (c : CoreId) (f : Core → Core) : (s.modCore c f).serial = s.serial := rfl
@[simp] theorem State.modCore_marks (s : State) (c : CoreId) (f : Core → Core) : (s.modCore c f).marks = s.marks := rfl
@[simp] theorem State.modCore_quiet (s : State) (c : CoreId) (f : Core → Core) : (s.modCore c f).quiet = s.quiet := rfl
@[simp] theorem State.modCore_pos (s : State) (c : CoreId) (f : Core → Core) : (s.modCore c f).pos = s.pos := rfl

/-! ### `State.setCrewAt` -/

@[simp] theorem State.setCrewAt_dies (s : State) (c : CoreId) (k : CrewIx) (v : Crew) : (s.setCrewAt c k v).dies = s.dies := rfl
@[simp] theorem State.setCrewAt_mem (s : State) (c : CoreId) (k : CrewIx) (v : Crew) : (s.setCrewAt c k v).mem = s.mem := rfl
@[simp] theorem State.setCrewAt_npu (s : State) (c : CoreId) (k : CrewIx) (v : Crew) : (s.setCrewAt c k v).npu = s.npu := rfl
@[simp] theorem State.setCrewAt_boot (s : State) (c : CoreId) (k : CrewIx) (v : Crew) : (s.setCrewAt c k v).boot = s.boot := rfl
@[simp] theorem State.setCrewAt_cycle (s : State) (c : CoreId) (k : CrewIx) (v : Crew) : (s.setCrewAt c k v).cycle = s.cycle := rfl
@[simp] theorem State.setCrewAt_agenda (s : State) (c : CoreId) (k : CrewIx) (v : Crew) : (s.setCrewAt c k v).agenda = s.agenda := rfl
@[simp] theorem State.setCrewAt_tick (s : State) (c : CoreId) (k : CrewIx) (v : Crew) : (s.setCrewAt c k v).tick = s.tick := rfl
@[simp] theorem State.setCrewAt_cur (s : State) (c : CoreId) (k : CrewIx) (v : Crew) : (s.setCrewAt c k v).cur = s.cur := rfl
@[simp] theorem State.setCrewAt_serial (s : State) (c : CoreId) (k : CrewIx) (v : Crew) : (s.setCrewAt c k v).serial = s.serial := rfl
@[simp] theorem State.setCrewAt_marks (s : State) (c : CoreId) (k : CrewIx) (v : Crew) : (s.setCrewAt c k v).marks = s.marks := rfl
@[simp] theorem State.setCrewAt_quiet (s : State) (c : CoreId) (k : CrewIx) (v : Crew) : (s.setCrewAt c k v).quiet = s.quiet := rfl
@[simp] theorem State.setCrewAt_pos (s : State) (c : CoreId) (k : CrewIx) (v : Crew) : (s.setCrewAt c k v).pos = s.pos := rfl

/-! ### `State.modCrewAt` -/

@[simp] theorem State.modCrewAt_dies (s : State) (c : CoreId) (k : CrewIx) (f : Crew → Crew) : (s.modCrewAt c k f).dies = s.dies := rfl
@[simp] theorem State.modCrewAt_mem (s : State) (c : CoreId) (k : CrewIx) (f : Crew → Crew) : (s.modCrewAt c k f).mem = s.mem := rfl
@[simp] theorem State.modCrewAt_npu (s : State) (c : CoreId) (k : CrewIx) (f : Crew → Crew) : (s.modCrewAt c k f).npu = s.npu := rfl
@[simp] theorem State.modCrewAt_boot (s : State) (c : CoreId) (k : CrewIx) (f : Crew → Crew) : (s.modCrewAt c k f).boot = s.boot := rfl
@[simp] theorem State.modCrewAt_cycle (s : State) (c : CoreId) (k : CrewIx) (f : Crew → Crew) : (s.modCrewAt c k f).cycle = s.cycle := rfl
@[simp] theorem State.modCrewAt_agenda (s : State) (c : CoreId) (k : CrewIx) (f : Crew → Crew) : (s.modCrewAt c k f).agenda = s.agenda := rfl
@[simp] theorem State.modCrewAt_tick (s : State) (c : CoreId) (k : CrewIx) (f : Crew → Crew) : (s.modCrewAt c k f).tick = s.tick := rfl
@[simp] theorem State.modCrewAt_cur (s : State) (c : CoreId) (k : CrewIx) (f : Crew → Crew) : (s.modCrewAt c k f).cur = s.cur := rfl
@[simp] theorem State.modCrewAt_serial (s : State) (c : CoreId) (k : CrewIx) (f : Crew → Crew) : (s.modCrewAt c k f).serial = s.serial := rfl
@[simp] theorem State.modCrewAt_marks (s : State) (c : CoreId) (k : CrewIx) (f : Crew → Crew) : (s.modCrewAt c k f).marks = s.marks := rfl
@[simp] theorem State.modCrewAt_quiet (s : State) (c : CoreId) (k : CrewIx) (f : Crew → Crew) : (s.modCrewAt c k f).quiet = s.quiet := rfl
@[simp] theorem State.modCrewAt_pos (s : State) (c : CoreId) (k : CrewIx) (f : Crew → Crew) : (s.modCrewAt c k f).pos = s.pos := rfl

/-! ### `State.setCrew` -/

@[simp] theorem State.setCrew_dies (s : State) (v : Crew) : (s.setCrew v).dies = s.dies := rfl
@[simp] theorem State.setCrew_mem (s : State) (v : Crew) : (s.setCrew v).mem = s.mem := rfl
@[simp] theorem State.setCrew_npu (s : State) (v : Crew) : (s.setCrew v).npu = s.npu := rfl
@[simp] theorem State.setCrew_boot (s : State) (v : Crew) : (s.setCrew v).boot = s.boot := rfl
@[simp] theorem State.setCrew_cycle (s : State) (v : Crew) : (s.setCrew v).cycle = s.cycle := rfl
@[simp] theorem State.setCrew_agenda (s : State) (v : Crew) : (s.setCrew v).agenda = s.agenda := rfl
@[simp] theorem State.setCrew_tick (s : State) (v : Crew) : (s.setCrew v).tick = s.tick := rfl
@[simp] theorem State.setCrew_cur (s : State) (v : Crew) : (s.setCrew v).cur = s.cur := rfl
@[simp] theorem State.setCrew_serial (s : State) (v : Crew) : (s.setCrew v).serial = s.serial := rfl
@[simp] theorem State.setCrew_marks (s : State) (v : Crew) : (s.setCrew v).marks = s.marks := rfl
@[simp] theorem State.setCrew_quiet (s : State) (v : Crew) : (s.setCrew v).quiet = s.quiet := rfl
@[simp] theorem State.setCrew_pos (s : State) (v : Crew) : (s.setCrew v).pos = s.pos := rfl

/-! ### `State.modCrew` -/

@[simp] theorem State.modCrew_dies (s : State) (f : Crew → Crew) : (s.modCrew f).dies = s.dies := rfl
@[simp] theorem State.modCrew_mem (s : State) (f : Crew → Crew) : (s.modCrew f).mem = s.mem := rfl
@[simp] theorem State.modCrew_npu (s : State) (f : Crew → Crew) : (s.modCrew f).npu = s.npu := rfl
@[simp] theorem State.modCrew_boot (s : State) (f : Crew → Crew) : (s.modCrew f).boot = s.boot := rfl
@[simp] theorem State.modCrew_cycle (s : State) (f : Crew → Crew) : (s.modCrew f).cycle = s.cycle := rfl
@[simp] theorem State.modCrew_agenda (s : State) (f : Crew → Crew) : (s.modCrew f).agenda = s.agenda := rfl
@[simp] theorem State.modCrew_tick (s : State) (f : Crew → Crew) : (s.modCrew f).tick = s.tick := rfl
@[simp] theorem State.modCrew_cur (s : State) (f : Crew → Crew) : (s.modCrew f).cur = s.cur := rfl
@[simp] theorem State.modCrew_serial (s : State) (f : Crew → Crew) : (s.modCrew f).serial = s.serial := rfl
@[simp] theorem State.modCrew_marks (s : State) (f : Crew → Crew) : (s.modCrew f).marks = s.marks := rfl
@[simp] theorem State.modCrew_quiet (s : State) (f : Crew → Crew) : (s.modCrew f).quiet = s.quiet := rfl
@[simp] theorem State.modCrew_pos (s : State) (f : Crew → Crew) : (s.modCrew f).pos = s.pos := rfl

/-! ### `State.modHere` -/

@[simp] theorem State.modHere_dies (s : State) (f : Core → Core) : (s.modHere f).dies = s.dies := rfl
@[simp] theorem State.modHere_mem (s : State) (f : Core → Core) : (s.modHere f).mem = s.mem := rfl
@[simp] theorem State.modHere_npu (s : State) (f : Core → Core) : (s.modHere f).npu = s.npu := rfl
@[simp] theorem State.modHere_boot (s : State) (f : Core → Core) : (s.modHere f).boot = s.boot := rfl
@[simp] theorem State.modHere_cycle (s : State) (f : Core → Core) : (s.modHere f).cycle = s.cycle := rfl
@[simp] theorem State.modHere_agenda (s : State) (f : Core → Core) : (s.modHere f).agenda = s.agenda := rfl
@[simp] theorem State.modHere_tick (s : State) (f : Core → Core) : (s.modHere f).tick = s.tick := rfl
@[simp] theorem State.modHere_cur (s : State) (f : Core → Core) : (s.modHere f).cur = s.cur := rfl
@[simp] theorem State.modHere_serial (s : State) (f : Core → Core) : (s.modHere f).serial = s.serial := rfl
@[simp] theorem State.modHere_marks (s : State) (f : Core → Core) : (s.modHere f).marks = s.marks := rfl
@[simp] theorem State.modHere_quiet (s : State) (f : Core → Core) : (s.modHere f).quiet = s.quiet := rfl
@[simp] theorem State.modHere_pos (s : State) (f : Core → Core) : (s.modHere f).pos = s.pos := rfl

/-! ### `State.modNpu` -/

@[simp] theorem State.modNpu_cores (s : State) (f : NDie → NDie) : (s.modNpu f).cores = s.cores := rfl
@[simp] theorem State.modNpu_dies (s : State) (f : NDie → NDie) : (s.modNpu f).dies = s.dies := rfl
@[simp] theorem State.modNpu_mem (s : State) (f : NDie → NDie) : (s.modNpu f).mem = s.mem := rfl
@[simp] theorem State.modNpu_boot (s : State) (f : NDie → NDie) : (s.modNpu f).boot = s.boot := rfl
@[simp] theorem State.modNpu_cycle (s : State) (f : NDie → NDie) : (s.modNpu f).cycle = s.cycle := rfl
@[simp] theorem State.modNpu_agenda (s : State) (f : NDie → NDie) : (s.modNpu f).agenda = s.agenda := rfl
@[simp] theorem State.modNpu_tick (s : State) (f : NDie → NDie) : (s.modNpu f).tick = s.tick := rfl
@[simp] theorem State.modNpu_cur (s : State) (f : NDie → NDie) : (s.modNpu f).cur = s.cur := rfl
@[simp] theorem State.modNpu_serial (s : State) (f : NDie → NDie) : (s.modNpu f).serial = s.serial := rfl
@[simp] theorem State.modNpu_marks (s : State) (f : NDie → NDie) : (s.modNpu f).marks = s.marks := rfl
@[simp] theorem State.modNpu_quiet (s : State) (f : NDie → NDie) : (s.modNpu f).quiet = s.quiet := rfl
@[simp] theorem State.modNpu_pos (s : State) (f : NDie → NDie) : (s.modNpu f).pos = s.pos := rfl

/-! ### `State.modDie` -/

@[simp] theorem State.modDie_cores (s : State) (d : DieId) (f : Die → Die) : (s.modDie d f).cores = s.cores := rfl
@[simp] theorem State.modDie_mem (s : State) (d : DieId) (f : Die → Die) : (s.modDie d f).mem = s.mem := rfl
@[simp] theorem State.modDie_npu (s : State) (d : DieId) (f : Die → Die) : (s.modDie d f).npu = s.npu := rfl
@[simp] theorem State.modDie_boot (s : State) (d : DieId) (f : Die → Die) : (s.modDie d f).boot = s.boot := rfl
@[simp] theorem State.modDie_cycle (s : State) (d : DieId) (f : Die → Die) : (s.modDie d f).cycle = s.cycle := rfl
@[simp] theorem State.modDie_agenda (s : State) (d : DieId) (f : Die → Die) : (s.modDie d f).agenda = s.agenda := rfl
@[simp] theorem State.modDie_tick (s : State) (d : DieId) (f : Die → Die) : (s.modDie d f).tick = s.tick := rfl
@[simp] theorem State.modDie_cur (s : State) (d : DieId) (f : Die → Die) : (s.modDie d f).cur = s.cur := rfl
@[simp] theorem State.modDie_serial (s : State) (d : DieId) (f : Die → Die) : (s.modDie d f).serial = s.serial := rfl
@[simp] theorem State.modDie_marks (s : State) (d : DieId) (f : Die → Die) : (s.modDie d f).marks = s.marks := rfl
@[simp] theorem State.modDie_quiet (s : State) (d : DieId) (f : Die → Die) : (s.modDie d f).quiet = s.quiet := rfl
@[simp] theorem State.modDie_pos (s : State) (d : DieId) (f : Die → Die) : (s.modDie d f).pos = s.pos := rfl

/-! ### `State.actAs` -/

@[simp] theorem State.actAs_cores (s : State) (c : CoreId) (k : CrewIx) (r : Role) : (s.actAs c k r).cores = s.cores := rfl
@[simp] theorem State.actAs_dies (s : State) (c : CoreId) (k : CrewIx) (r : Role) : (s.actAs c k r).dies = s.dies := rfl
@[simp] theorem State.actAs_mem (s : State) (c : CoreId) (k : CrewIx) (r : Role) : (s.actAs c k r).mem = s.mem := rfl
@[simp] theorem State.actAs_npu (s : State) (c : CoreId) (k : CrewIx) (r : Role) : (s.actAs c k r).npu = s.npu := rfl
@[simp] theorem State.actAs_boot (s : State) (c : CoreId) (k : CrewIx) (r : Role) : (s.actAs c k r).boot = s.boot := rfl
@[simp] theorem State.actAs_cycle (s : State) (c : CoreId) (k : CrewIx) (r : Role) : (s.actAs c k r).cycle = s.cycle := rfl
@[simp] theorem State.actAs_agenda (s : State) (c : CoreId) (k : CrewIx) (r : Role) : (s.actAs c k r).agenda = s.agenda := rfl
@[simp] theorem State.actAs_tick (s : State) (c : CoreId) (k : CrewIx) (r : Role) : (s.actAs c k r).tick = s.tick := rfl
@[simp] theorem State.actAs_serial (s : State) (c : CoreId) (k : CrewIx) (r : Role) : (s.actAs c k r).serial = s.serial := rfl
@[simp] theorem State.actAs_marks (s : State) (c : CoreId) (k : CrewIx) (r : Role) : (s.actAs c k r).marks = s.marks := rfl
@[simp] theorem State.actAs_quiet (s : State) (c : CoreId) (k : CrewIx) (r : Role) : (s.actAs c k r).quiet = s.quiet := rfl
@[simp] theorem State.actAs_pos (s : State) (c : CoreId) (k : CrewIx) (r : Role) : (s.actAs c k r).pos = s.pos := rfl

/-! ### `State.setSeq` -/

@[simp] theorem State.setSeq_dies (s : State) (q : Seq) : (s.setSeq q).dies = s.dies := by unfold State.setSeq; split <;> rfl
@[simp] theorem State.setSeq_mem (s : State) (q : Seq) : (s.setSeq q).mem = s.mem := by unfold State.setSeq; split <;> rfl
@[simp] theorem State.setSeq_npu (s : State) (q : Seq) : (s.setSeq q).npu = s.npu := by unfold State.setSeq; split <;> rfl
@[simp] theorem State.setSeq_boot (s : State) (q : Seq) : (s.setSeq q).boot = s.boot := by unfold State.setSeq; split <;> rfl
@[simp] theorem State.setSeq_cycle (s : State) (q : Seq) : (s.setSeq q).cycle = s.cycle := by unfold State.setSeq; split <;> rfl
@[simp] theorem State.setSeq_agenda (s : State) (q : Seq) : (s.setSeq q).agenda = s.agenda := by unfold State.setSeq; split <;> rfl
@[simp] theorem State.setSeq_tick (s : State) (q : Seq) : (s.setSeq q).tick = s.tick := by unfold State.setSeq; split <;> rfl
@[simp] theorem State.setSeq_cur (s : State) (q : Seq) : (s.setSeq q).cur = s.cur := by unfold State.setSeq; split <;> rfl
@[simp] theorem State.setSeq_serial (s : State) (q : Seq) : (s.setSeq q).serial = s.serial := by unfold State.setSeq; split <;> rfl
@[simp] theorem State.setSeq_marks (s : State) (q : Seq) : (s.setSeq q).marks = s.marks := by unfold State.setSeq; split <;> rfl
@[simp] theorem State.setSeq_quiet (s : State) (q : Seq) : (s.setSeq q).quiet = s.quiet := by unfold State.setSeq; split <;> rfl
@[simp] theorem State.setSeq_pos (s : State) (q : Seq) : (s.setSeq q).pos = s.pos := by unfold State.setSeq; split <;> rfl

/-! ### `State.modSeq` -/

@[simp] theorem State.modSeq_dies (s : State) (f : Seq → Seq) : (s.modSeq f).dies = s.dies := by simp [State.modSeq]
@[simp] theorem State.modSeq_mem (s : State) (f : Seq → Seq) : (s.modSeq f).mem = s.mem := by simp [State.modSeq]
@[simp] theorem State.modSeq_npu (s : State) (f : Seq → Seq) : (s.modSeq f).npu = s.npu := by simp [State.modSeq]
@[simp] theorem State.modSeq_boot (s : State) (f : Seq → Seq) : (s.modSeq f).boot = s.boot := by simp [State.modSeq]
@[simp] theorem State.modSeq_cycle (s : State) (f : Seq → Seq) : (s.modSeq f).cycle = s.cycle := by simp [State.modSeq]
@[simp] theorem State.modSeq_agenda (s : State) (f : Seq → Seq) : (s.modSeq f).agenda = s.agenda := by simp [State.modSeq]
@[simp] theorem State.modSeq_tick (s : State) (f : Seq → Seq) : (s.modSeq f).tick = s.tick := by simp [State.modSeq]
@[simp] theorem State.modSeq_cur (s : State) (f : Seq → Seq) : (s.modSeq f).cur = s.cur := by simp [State.modSeq]
@[simp] theorem State.modSeq_serial (s : State) (f : Seq → Seq) : (s.modSeq f).serial = s.serial := by simp [State.modSeq]
@[simp] theorem State.modSeq_marks (s : State) (f : Seq → Seq) : (s.modSeq f).marks = s.marks := by simp [State.modSeq]
@[simp] theorem State.modSeq_quiet (s : State) (f : Seq → Seq) : (s.modSeq f).quiet = s.quiet := by simp [State.modSeq]
@[simp] theorem State.modSeq_pos (s : State) (f : Seq → Seq) : (s.modSeq f).pos = s.pos := by simp [State.modSeq]

/-! ### `State.setX` -/

@[simp] theorem State.setX_dies (s : State) (r : XReg) (v : XWord) : (s.setX r v).dies = s.dies := by unfold State.setX; split; rfl; split <;> rfl
@[simp] theorem State.setX_mem (s : State) (r : XReg) (v : XWord) : (s.setX r v).mem = s.mem := by unfold State.setX; split; rfl; split <;> rfl
@[simp] theorem State.setX_npu (s : State) (r : XReg) (v : XWord) : (s.setX r v).npu = s.npu := by unfold State.setX; split; rfl; split <;> rfl
@[simp] theorem State.setX_boot (s : State) (r : XReg) (v : XWord) : (s.setX r v).boot = s.boot := by unfold State.setX; split; rfl; split <;> rfl
@[simp] theorem State.setX_cycle (s : State) (r : XReg) (v : XWord) : (s.setX r v).cycle = s.cycle := by unfold State.setX; split; rfl; split <;> rfl
@[simp] theorem State.setX_agenda (s : State) (r : XReg) (v : XWord) : (s.setX r v).agenda = s.agenda := by unfold State.setX; split; rfl; split <;> rfl
@[simp] theorem State.setX_tick (s : State) (r : XReg) (v : XWord) : (s.setX r v).tick = s.tick := by unfold State.setX; split; rfl; split <;> rfl
@[simp] theorem State.setX_cur (s : State) (r : XReg) (v : XWord) : (s.setX r v).cur = s.cur := by unfold State.setX; split; rfl; split <;> rfl
@[simp] theorem State.setX_serial (s : State) (r : XReg) (v : XWord) : (s.setX r v).serial = s.serial := by unfold State.setX; split; rfl; split <;> rfl
@[simp] theorem State.setX_marks (s : State) (r : XReg) (v : XWord) : (s.setX r v).marks = s.marks := by unfold State.setX; split; rfl; split <;> rfl
@[simp] theorem State.setX_quiet (s : State) (r : XReg) (v : XWord) : (s.setX r v).quiet = s.quiet := by unfold State.setX; split; rfl; split <;> rfl
@[simp] theorem State.setX_pos (s : State) (r : XReg) (v : XWord) : (s.setX r v).pos = s.pos := by unfold State.setX; split; rfl; split <;> rfl

/-! ### `State.setF` -/

@[simp] theorem State.setF_dies (s : State) (r : FReg) (v : W32) : (s.setF r v).dies = s.dies := by unfold State.setF; split <;> rfl
@[simp] theorem State.setF_mem (s : State) (r : FReg) (v : W32) : (s.setF r v).mem = s.mem := by unfold State.setF; split <;> rfl
@[simp] theorem State.setF_npu (s : State) (r : FReg) (v : W32) : (s.setF r v).npu = s.npu := by unfold State.setF; split <;> rfl
@[simp] theorem State.setF_boot (s : State) (r : FReg) (v : W32) : (s.setF r v).boot = s.boot := by unfold State.setF; split <;> rfl
@[simp] theorem State.setF_cycle (s : State) (r : FReg) (v : W32) : (s.setF r v).cycle = s.cycle := by unfold State.setF; split <;> rfl
@[simp] theorem State.setF_agenda (s : State) (r : FReg) (v : W32) : (s.setF r v).agenda = s.agenda := by unfold State.setF; split <;> rfl
@[simp] theorem State.setF_tick (s : State) (r : FReg) (v : W32) : (s.setF r v).tick = s.tick := by unfold State.setF; split <;> rfl
@[simp] theorem State.setF_cur (s : State) (r : FReg) (v : W32) : (s.setF r v).cur = s.cur := by unfold State.setF; split <;> rfl
@[simp] theorem State.setF_serial (s : State) (r : FReg) (v : W32) : (s.setF r v).serial = s.serial := by unfold State.setF; split <;> rfl
@[simp] theorem State.setF_marks (s : State) (r : FReg) (v : W32) : (s.setF r v).marks = s.marks := by unfold State.setF; split <;> rfl
@[simp] theorem State.setF_quiet (s : State) (r : FReg) (v : W32) : (s.setF r v).quiet = s.quiet := by unfold State.setF; split <;> rfl
@[simp] theorem State.setF_pos (s : State) (r : FReg) (v : W32) : (s.setF r v).pos = s.pos := by unfold State.setF; split <;> rfl

/-! ### `State.setA` -/

@[simp] theorem State.setA_dies (s : State) (r : AReg) (v : AWord) : (s.setA r v).dies = s.dies := by unfold State.setA; split <;> rfl
@[simp] theorem State.setA_mem (s : State) (r : AReg) (v : AWord) : (s.setA r v).mem = s.mem := by unfold State.setA; split <;> rfl
@[simp] theorem State.setA_npu (s : State) (r : AReg) (v : AWord) : (s.setA r v).npu = s.npu := by unfold State.setA; split <;> rfl
@[simp] theorem State.setA_boot (s : State) (r : AReg) (v : AWord) : (s.setA r v).boot = s.boot := by unfold State.setA; split <;> rfl
@[simp] theorem State.setA_cycle (s : State) (r : AReg) (v : AWord) : (s.setA r v).cycle = s.cycle := by unfold State.setA; split <;> rfl
@[simp] theorem State.setA_agenda (s : State) (r : AReg) (v : AWord) : (s.setA r v).agenda = s.agenda := by unfold State.setA; split <;> rfl
@[simp] theorem State.setA_tick (s : State) (r : AReg) (v : AWord) : (s.setA r v).tick = s.tick := by unfold State.setA; split <;> rfl
@[simp] theorem State.setA_cur (s : State) (r : AReg) (v : AWord) : (s.setA r v).cur = s.cur := by unfold State.setA; split <;> rfl
@[simp] theorem State.setA_serial (s : State) (r : AReg) (v : AWord) : (s.setA r v).serial = s.serial := by unfold State.setA; split <;> rfl
@[simp] theorem State.setA_marks (s : State) (r : AReg) (v : AWord) : (s.setA r v).marks = s.marks := by unfold State.setA; split <;> rfl
@[simp] theorem State.setA_quiet (s : State) (r : AReg) (v : AWord) : (s.setA r v).quiet = s.quiet := by unfold State.setA; split <;> rfl
@[simp] theorem State.setA_pos (s : State) (r : AReg) (v : AWord) : (s.setA r v).pos = s.pos := by unfold State.setA; split <;> rfl

/-! ### `State.setP` -/

@[simp] theorem State.setP_dies (s : State) (r : PReg) (v : PWord) : (s.setP r v).dies = s.dies := by unfold State.setP; split <;> rfl
@[simp] theorem State.setP_mem (s : State) (r : PReg) (v : PWord) : (s.setP r v).mem = s.mem := by unfold State.setP; split <;> rfl
@[simp] theorem State.setP_npu (s : State) (r : PReg) (v : PWord) : (s.setP r v).npu = s.npu := by unfold State.setP; split <;> rfl
@[simp] theorem State.setP_boot (s : State) (r : PReg) (v : PWord) : (s.setP r v).boot = s.boot := by unfold State.setP; split <;> rfl
@[simp] theorem State.setP_cycle (s : State) (r : PReg) (v : PWord) : (s.setP r v).cycle = s.cycle := by unfold State.setP; split <;> rfl
@[simp] theorem State.setP_agenda (s : State) (r : PReg) (v : PWord) : (s.setP r v).agenda = s.agenda := by unfold State.setP; split <;> rfl
@[simp] theorem State.setP_tick (s : State) (r : PReg) (v : PWord) : (s.setP r v).tick = s.tick := by unfold State.setP; split <;> rfl
@[simp] theorem State.setP_cur (s : State) (r : PReg) (v : PWord) : (s.setP r v).cur = s.cur := by unfold State.setP; split <;> rfl
@[simp] theorem State.setP_serial (s : State) (r : PReg) (v : PWord) : (s.setP r v).serial = s.serial := by unfold State.setP; split <;> rfl
@[simp] theorem State.setP_marks (s : State) (r : PReg) (v : PWord) : (s.setP r v).marks = s.marks := by unfold State.setP; split <;> rfl
@[simp] theorem State.setP_quiet (s : State) (r : PReg) (v : PWord) : (s.setP r v).quiet = s.quiet := by unfold State.setP; split <;> rfl
@[simp] theorem State.setP_pos (s : State) (r : PReg) (v : PWord) : (s.setP r v).pos = s.pos := by unfold State.setP; split <;> rfl

/-! ### `State.setV` -/

@[simp] theorem State.setV_dies (s : State) (r : VReg) (v : VWord) : (s.setV r v).dies = s.dies := rfl
@[simp] theorem State.setV_mem (s : State) (r : VReg) (v : VWord) : (s.setV r v).mem = s.mem := rfl
@[simp] theorem State.setV_npu (s : State) (r : VReg) (v : VWord) : (s.setV r v).npu = s.npu := rfl
@[simp] theorem State.setV_boot (s : State) (r : VReg) (v : VWord) : (s.setV r v).boot = s.boot := rfl
@[simp] theorem State.setV_cycle (s : State) (r : VReg) (v : VWord) : (s.setV r v).cycle = s.cycle := rfl
@[simp] theorem State.setV_agenda (s : State) (r : VReg) (v : VWord) : (s.setV r v).agenda = s.agenda := rfl
@[simp] theorem State.setV_tick (s : State) (r : VReg) (v : VWord) : (s.setV r v).tick = s.tick := rfl
@[simp] theorem State.setV_cur (s : State) (r : VReg) (v : VWord) : (s.setV r v).cur = s.cur := rfl
@[simp] theorem State.setV_serial (s : State) (r : VReg) (v : VWord) : (s.setV r v).serial = s.serial := rfl
@[simp] theorem State.setV_marks (s : State) (r : VReg) (v : VWord) : (s.setV r v).marks = s.marks := rfl
@[simp] theorem State.setV_quiet (s : State) (r : VReg) (v : VWord) : (s.setV r v).quiet = s.quiet := rfl
@[simp] theorem State.setV_pos (s : State) (r : VReg) (v : VWord) : (s.setV r v).pos = s.pos := rfl

/-! ### `State.poolStore` -/

@[simp] theorem State.poolStore_dies (s : State) (off : Nat) (b : List Byte) : (s.poolStore off b).dies = s.dies := rfl
@[simp] theorem State.poolStore_mem (s : State) (off : Nat) (b : List Byte) : (s.poolStore off b).mem = s.mem := rfl
@[simp] theorem State.poolStore_npu (s : State) (off : Nat) (b : List Byte) : (s.poolStore off b).npu = s.npu := rfl
@[simp] theorem State.poolStore_boot (s : State) (off : Nat) (b : List Byte) : (s.poolStore off b).boot = s.boot := rfl
@[simp] theorem State.poolStore_cycle (s : State) (off : Nat) (b : List Byte) : (s.poolStore off b).cycle = s.cycle := rfl
@[simp] theorem State.poolStore_agenda (s : State) (off : Nat) (b : List Byte) : (s.poolStore off b).agenda = s.agenda := rfl
@[simp] theorem State.poolStore_tick (s : State) (off : Nat) (b : List Byte) : (s.poolStore off b).tick = s.tick := rfl
@[simp] theorem State.poolStore_cur (s : State) (off : Nat) (b : List Byte) : (s.poolStore off b).cur = s.cur := rfl
@[simp] theorem State.poolStore_serial (s : State) (off : Nat) (b : List Byte) : (s.poolStore off b).serial = s.serial := rfl
@[simp] theorem State.poolStore_marks (s : State) (off : Nat) (b : List Byte) : (s.poolStore off b).marks = s.marks := rfl
@[simp] theorem State.poolStore_quiet (s : State) (off : Nat) (b : List Byte) : (s.poolStore off b).quiet = s.quiet := rfl
@[simp] theorem State.poolStore_pos (s : State) (off : Nat) (b : List Byte) : (s.poolStore off b).pos = s.pos := rfl

end Sys2Proof.Machine
end

