-- ==== Sys2Proof/Laws/Ops.lean ====
section
/-! SUPPORT. What the shared operations do: reads after writes of cores, crews and sequencers, what changes only
sequencing and tokens, and the frame of every instruction. -/

namespace Sys2Proof.Machine

/-! ### Vectors read after a write -/

theorem vget_set_same {α : Type} {n : Nat} (v : Vector α n) (i : Fin n) (x : α) : (v.set i x).get i = x := by
  simp [Vector.get_eq_getElem]

theorem vget_set_ne {α : Type} {n : Nat} (v : Vector α n) (i j : Fin n) (x : α) (h : i ≠ j) :
    (v.set i x).get j = v.get j := by
  simp [Vector.get_eq_getElem, Fin.val_ne_of_ne h]

theorem vset_get {α : Type} {n : Nat} (v : Vector α n) (i : Fin n) : v.set i (v.get i) = v := by
  simp [Vector.get_eq_getElem]

/-! ### Cores and crews -/

@[simp] theorem State.core_setCore (s : State) (c : CoreId) (v : Core) : (s.setCore c v).core c = v :=
  vget_set_same _ _ _

theorem State.core_setCore_ne (s : State) {c d : CoreId} (v : Core) (h : c ≠ d) : (s.setCore c v).core d = s.core d :=
  vget_set_ne _ _ _ _ h

@[simp] theorem State.setCore_setCore (s : State) (c : CoreId) (v w : Core) :
    (s.setCore c v).setCore c w = s.setCore c w := by
  simp [State.setCore]

@[simp] theorem State.setCore_core (s : State) (c : CoreId) : s.setCore c (s.core c) = s := by
  simp only [State.setCore, State.core, vset_get]

@[simp] theorem Core.crew_setCrew (c : Core) (k : CrewIx) (v : Crew) : (c.setCrew k v).crew k = v := vget_set_same _ _ _

@[simp] theorem Core.setCrew_setCrew (c : Core) (k : CrewIx) (v w : Crew) :
    (c.setCrew k v).setCrew k w = c.setCrew k w := by
  simp [Core.setCrew]

@[simp] theorem Core.setCrew_crew (c : Core) (k : CrewIx) : c.setCrew k (c.crew k) = c := by
  simp only [Core.setCrew, Core.crew, vset_get]

@[simp] theorem State.crew_setCrew (s : State) (v : Crew) : (s.setCrew v).crew = v := by
  simp [State.crew, State.setCrew, State.setCrewAt, State.crewAt, State.setCore_cur]

@[simp] theorem State.setCrew_setCrew (s : State) (v w : Crew) : (s.setCrew v).setCrew w = s.setCrew w := by
  simp [State.setCrew, State.setCrewAt]

@[simp] theorem State.setCrew_crew (s : State) : s.setCrew s.crew = s := by
  simp [State.setCrew, State.setCrewAt, State.crew, State.crewAt]

theorem State.modCrew_eq (s : State) (f : Crew → Crew) : s.modCrew f = s.setCrew (f s.crew) := rfl

theorem State.modHere_eq (s : State) (f : Core → Core) : s.modHere f = s.setCore s.cur.core (f s.here) := rfl

@[simp] theorem State.here_setCore (s : State) (v : Core) : (s.setCore s.cur.core v).here = v := by
  simp [State.here, State.setCore_cur]

theorem State.here_setCrew (s : State) (v : Crew) : (s.setCrew v).here = s.here.setCrew s.cur.crew v := by
  simp [State.here, State.setCrew, State.setCrewAt, State.setCore_cur]

/-! ### One core: updates of it compose -/

@[simp] theorem State.here_modHere (s : State) (f : Core → Core) : (s.modHere f).here = f s.here := by
  simp [State.modHere_eq]

@[simp] theorem State.modHere_modHere (s : State) (f g : Core → Core) :
    (s.modHere f).modHere g = s.modHere fun c => g (f c) := by
  simp [State.modHere_eq]

/-- An update of the crew is one of its core. -/
theorem State.modCrew_modHere (s : State) (f : Crew → Crew) :
    s.modCrew f = s.modHere fun c => c.setCrew s.cur.crew (f (c.crew s.cur.crew)) := rfl

theorem State.crew_here (s : State) : s.crew = s.here.crew s.cur.crew := rfl

@[simp] theorem State.crew_modCrew (s : State) (f : Crew → Crew) : (s.modCrew f).crew = f s.crew := by
  simp [State.modCrew_eq]

@[simp] theorem State.modCrew_modCrew (s : State) (f g : Crew → Crew) :
    (s.modCrew f).modCrew g = s.modCrew fun c => g (f c) := by
  simp [State.modCrew_eq]

/-! ### Sequencers -/

@[simp] theorem Crew.seq_setSeq (c : Crew) (st : Stream) (q : Seq) : (c.setSeq st q).seq st = q := by cases st <;> rfl

@[simp] theorem Crew.setSeq_setSeq (c : Crew) (st : Stream) (q r : Seq) :
    (c.setSeq st q).setSeq st r = c.setSeq st r := by
  cases st <;> rfl

@[simp] theorem Crew.setSeq_seq (c : Crew) (st : Stream) : c.setSeq st (c.seq st) = c := by cases st <;> rfl

@[simp] theorem Crew.loose_setSeq (c : Crew) (st : Stream) (q : Seq) : (c.setSeq st q).loose = c.loose.setSeq st q := by
  cases st <;> rfl

@[simp] theorem Crew.seq_loose (c : Crew) (st : Stream) : c.loose.seq st = c.seq st := by cases st <;> rfl

@[simp] theorem Crew.seq_modQueue (c : Crew) (i : Fin 8) (f : Queue → Queue) (st : Stream) :
    (c.modQueue i f).seq st = c.seq st := by
  cases st <;> rfl

@[simp] theorem Crew.loose_modQueue (c : Crew) (i : Fin 8) (f : Queue → Queue) : (c.modQueue i f).loose = c.loose := rfl

theorem State.modSeq_fw {s : State} (f : Seq → Seq) (h : s.cur.role = .fw) :
    s.modSeq f = s.modHere fun c => { c with fw := { c.fw with seq := f c.fw.seq } } := by
  simp [State.modSeq, State.setSeq, State.seq, h, State.modHere_eq]

theorem State.modSeq_crew {s : State} (f : Seq → Seq) (h : s.cur.role ≠ .fw) :
    s.modSeq f = s.modCrew fun c => c.setSeq s.cur.role.stream (f (c.seq s.cur.role.stream)) := by
  simp [State.modSeq, State.setSeq, State.seq, h, State.modCrew_eq]

theorem State.seq_fw {s : State} (h : s.cur.role = .fw) : s.seq = s.here.fw.seq := by simp [State.seq, h]

theorem State.seq_crew {s : State} (h : s.cur.role ≠ .fw) : s.seq = s.crew.seq s.cur.role.stream := by
  simp [State.seq, h]

@[simp] theorem State.seq_modSeq (s : State) (f : Seq → Seq) : (s.modSeq f).seq = f s.seq := by
  by_cases h : s.cur.role = .fw
  · rw [State.seq_fw (by simpa using h), State.modSeq_fw f h, State.seq_fw h]
    simp
  · rw [State.seq_crew (by simpa using h), State.modSeq_crew f h, State.seq_crew h]
    simp

@[simp] theorem State.modSeq_modSeq (s : State) (f g : Seq → Seq) :
    (s.modSeq f).modSeq g = s.modSeq fun q => g (f q) := by
  by_cases h : s.cur.role = .fw
  · rw [State.modSeq_fw f h, State.modSeq_fw g (by simpa using h), State.modSeq_fw _ h]
    simp
  · rw [State.modSeq_crew f h, State.modSeq_crew g (by simpa using h), State.modSeq_crew _ h]
    simp

/-- An update of the crew that leaves its sequencers leaves the executing one. -/
theorem State.seq_modCrew {s : State} {f : Crew → Crew} (hf : ∀ st, (f s.crew).seq st = s.crew.seq st) :
    (s.modCrew f).seq = s.seq := by
  by_cases h : s.cur.role = .fw
  · rw [State.seq_fw (by simpa using h), State.seq_fw h, State.modCrew_modHere, State.here_modHere]
    rfl
  · rw [State.seq_crew (by simpa using h), State.seq_crew h]
    simp [hf]

/-! ### What sets apart sequencing and tokens -/

/-- A core whose firmware context has another sequencer record. -/
def Core.setFwSeq (c : Core) (q : Seq) : Core := { c with fw := { c.fw with seq := q } }

theorem State.apart_fw {s : State} (h : s.cur.role = .fw) :
    s.apart = s.modHere fun c => (c.setCrew s.cur.crew (c.crew s.cur.crew).loose).setFwSeq c.fw.seq.bare := by
  rw [State.apart, State.modSeq_fw _ h, State.modCrew_modHere, State.modHere_modHere]
  rfl

theorem State.apart_crew {s : State} (h : s.cur.role ≠ .fw) :
    s.apart = s.modCrew fun c => c.loose.setSeq s.cur.role.stream (c.seq s.cur.role.stream).bare := by
  rw [State.apart, State.modSeq_crew _ h, State.modCrew_modCrew]
  simp

/-- A change of the executing sequencer's sequencing alone. -/
theorem State.apart_modSeq {s : State} {f : Seq → Seq} (hf : (f s.seq).bare = s.seq.bare) :
    (s.modSeq f).apart = s.apart := by
  unfold State.apart
  rw [State.modSeq_modSeq]
  by_cases h : s.cur.role = .fw
  · rw [State.seq_fw h] at hf
    rw [State.modSeq_fw _ h, State.modSeq_fw _ h]
    simp [State.modHere_eq, hf]
  · rw [State.seq_crew h] at hf
    rw [State.modSeq_crew _ h, State.modSeq_crew _ h]
    simp [State.modCrew_eq, hf]

/-- A change of the crew's tokens and rotation alone. -/
theorem State.apart_modCrew {s : State} {f : Crew → Crew} (hf : (f s.crew).loose = s.crew.loose) :
    (s.modCrew f).apart = s.apart := by
  by_cases h : s.cur.role = .fw
  · rw [State.apart_fw (by simpa using h), State.apart_fw h, State.modCrew_modHere, State.modHere_modHere]
    rw [State.crew_here] at hf
    simp only [State.modHere_eq]
    congr 1
    simp only [State.setCore_cur, Core.crew_setCrew, hf]
    simp [Core.setCrew, Core.setFwSeq]
  · rw [State.apart_crew (by simpa using h), State.apart_crew h, State.modCrew_modCrew]
    have hq : (f s.crew).seq s.cur.role.stream = s.crew.seq s.cur.role.stream := by
      rw [← Crew.seq_loose, hf, Crew.seq_loose]
    simp [State.modCrew_eq, hf, hq]

@[simp] theorem State.apart_cur (s : State) : s.apart.cur = s.cur := by simp [State.apart]

/-! ### Tokens (R178, R180, R196) -/

theorem State.apart_modSeq_modCrew {s t : State} {f : Crew → Crew} (h : t.apart = s.apart)
    (hf : (f t.crew).loose = t.crew.loose) : (t.modCrew f).apart = s.apart := (State.apart_modCrew hf).trans h

@[simp] theorem State.popOne_cur (s : State) (b : Bool) : (s.popOne b).cur = s.cur := by
  unfold State.popOne
  simp only []
  split <;> split <;> simp

/-- A pop changes tokens and what the sequencer has acquired, nothing else. -/
theorem State.apart_popOne (s : State) (b : Bool) : (s.popOne b).apart = s.apart := by
  unfold State.popOne
  simp only []
  have h1 : ∀ (t : State) (i : Fin 8), (t.modCrew fun c => c.modQueue i Queue.pop).apart = t.apart :=
    fun t i => State.apart_modCrew rfl
  have h2 : ∀ (t : State) (a : List Nat), (t.modSeq fun q => { q with acq := addIds q.acq a }).apart = t.apart :=
    fun t a => State.apart_modSeq rfl
  have h3 : ∀ (t : State) (a : Token), (t.modCrew fun c =>
      if b then { c with creditL := c.creditL ++ [a] } else { c with creditS := c.creditS ++ [a] }).apart = t.apart :=
    fun t a => State.apart_modCrew (by cases b <;> rfl)
  have h4 : ∀ (t : State) (p : Popped), (t.modSeq fun q => { q with popLog := q.popLog ++ [p] }).apart = t.apart :=
    fun t p => State.apart_modSeq rfl
  split <;> split <;> simp only [h1, h2, h3, h4]

@[simp] theorem State.popN_cur (s : State) (b : Bool) (n : Nat) : (s.popN b n).cur = s.cur := by
  induction n generalizing s with
  | zero => rfl
  | succ n ih => simp [State.popN, ih]

theorem State.apart_popN (s : State) (b : Bool) (n : Nat) : (s.popN b n).apart = s.apart := by
  induction n generalizing s with
  | zero => rfl
  | succ n ih => rw [State.popN, ih, State.apart_popOne]

@[simp] theorem State.trimPopLog_cur (s : State) : s.trimPopLog.cur = s.cur := by
  unfold State.trimPopLog
  split <;> simp

theorem State.apart_trimPopLog (s : State) : s.trimPopLog.apart = s.apart := by
  unfold State.trimPopLog
  split
  · exact State.apart_modSeq rfl
  · rfl

@[simp] theorem State.doPops_cur (s : State) (k : Pops) : (s.doPops k).cur = s.cur := by
  unfold State.doPops
  split <;> simp

/-- The pops of a word change tokens and what the sequencer has acquired, nothing else. -/
theorem State.apart_doPops (s : State) (k : Pops) : (s.doPops k).apart = s.apart := by
  unfold State.doPops
  split
  · rfl
  · rw [State.apart_popN, State.apart_popN, State.apart_trimPopLog]

theorem State.apart_setWait (s : State) (k : WaitKind) : (s.setWait k).apart = s.apart := by
  unfold State.setWait
  split
  · split
    · rfl
    · exact State.apart_modSeq rfl
  · exact State.apart_modSeq rfl

@[simp] theorem State.setWait_cur (s : State) (k : WaitKind) : (s.setWait k).cur = s.cur := by
  unfold State.setWait
  split
  · split <;> simp
  · simp

theorem State.apart_pushHead (s : State) (h : HeldPush) (rest : List HeldPush) : (s.pushHead h rest).apart = s.apart := by
  unfold State.pushHead
  dsimp only
  rw [State.apart_modCrew (by simp), State.apart_modSeq (by simp [Seq.bare])]

theorem State.apart_pushAll (s : State) (n : Nat) : (s.pushAll n).apart = s.apart := by
  induction n generalizing s with
  | zero => rfl
  | succ n ih =>
    unfold State.pushAll
    split
    · rfl
    · split
      · rw [ih, State.apart_pushHead]
      · rfl

theorem State.apart_pushes (s : State) (pu : Pops) (cmd : Option Nat) (w : Bool) :
    (s.pushes pu cmd w).apart = s.apart := by
  have hn : ∀ t : State, t.notePushWait.apart = t.apart := fun t => by
    unfold State.notePushWait
    split
    · exact State.apart_modSeq rfl
    · rfl
  unfold State.pushes
  split
  · rfl
  · rw [hn, State.apart_pushAll]
    split
    · exact State.apart_modSeq rfl
    · rfl

/-! ### Where a sequencer stands through pops and pushes -/

/-- Two records of a sequencer that stand at the same place in the same loops. -/
def Seq.SamePlace (q r : Seq) : Prop := q.loops = r.loops ∧ q.pc = r.pc

theorem State.popOne_place (s : State) (b : Bool) : (s.popOne b).seq.SamePlace s.seq := by
  unfold State.popOne
  simp only []
  have h1 : ∀ (t : State) (i : Fin 8), (t.modCrew fun c => c.modQueue i Queue.pop).seq = t.seq :=
    fun t i => State.seq_modCrew fun st => by simp
  have h3 : ∀ (t : State) (a : Token), (t.modCrew fun c =>
      if b then { c with creditL := c.creditL ++ [a] } else { c with creditS := c.creditS ++ [a] }).seq = t.seq :=
    fun t a => State.seq_modCrew fun st => by cases b <;> cases st <;> rfl
  split <;> split <;> simp [h1, h3, Seq.SamePlace]

theorem State.popN_place (s : State) (b : Bool) (n : Nat) : (s.popN b n).seq.SamePlace s.seq := by
  induction n generalizing s with
  | zero => exact ⟨rfl, rfl⟩
  | succ n ih => exact ⟨(ih _).1.trans (s.popOne_place b).1, (ih _).2.trans (s.popOne_place b).2⟩

/-- The pops of a word leave the place in the program. -/
theorem State.doPops_place (s : State) (k : Pops) : (s.doPops k).seq.SamePlace s.seq := by
  unfold State.doPops
  split
  · exact ⟨rfl, rfl⟩
  · have h : s.trimPopLog.seq.SamePlace s.seq := by
      unfold State.trimPopLog
      split
      · simp [Seq.SamePlace]
      · exact ⟨rfl, rfl⟩
    exact ⟨((State.popN_place ..).1.trans (State.popN_place ..).1).trans h.1,
      ((State.popN_place ..).2.trans (State.popN_place ..).2).trans h.2⟩

@[simp] theorem State.doPops_pc (s : State) (k : Pops) : (s.doPops k).pc = s.pc := (s.doPops_place k).2

/-! ### The pc of a state whose pushes are made -/

theorem State.seq_pushHead_pc (s : State) (h : HeldPush) (rest : List HeldPush) : (s.pushHead h rest).pc = s.pc := by
  unfold State.pushHead State.pc
  rw [State.seq_modCrew]
  · simp
  · intro st
    simp

theorem State.setWait_pc (s : State) (k : WaitKind) : (s.setWait k).pc = s.pc := by
  unfold State.setWait State.pc
  split
  · split <;> simp
  · simp

theorem State.pushAll_pc (s : State) (n : Nat) : (s.pushAll n).pc = s.pc := by
  induction n generalizing s with
  | zero => rfl
  | succ n ih =>
    unfold State.pushAll
    split
    · rfl
    · split
      · rw [ih, State.seq_pushHead_pc]
      · rfl

theorem State.pushes_pc (s : State) (pu : Pops) (cmd : Option Nat) (w : Bool) : (s.pushes pu cmd w).pc = s.pc := by
  have hn : ∀ t : State, t.notePushWait.pc = t.pc := fun t => by
    unfold State.notePushWait
    split
    · simp [State.pc]
    · rfl
  unfold State.pushes
  split
  · rfl
  · rw [hn, State.pushAll_pc]
    split
    · simp [State.pc]
    · rfl

/-- Retirement changes sequencing and tokens alone. -/
theorem apart_retire (pu : Pops) (cmd : Option Nat) (w : Bool) (npc : XWord) (s : State) :
    (retire pu cmd w npc s).apart = s.apart := by
  unfold retire
  rw [State.apart_pushes]
  exact State.apart_modSeq rfl

/-- After retirement the pc is at the next address. -/
theorem retire_pc (pu : Pops) (cmd : Option Nat) (w : Bool) (npc : XWord) (s : State) :
    (retire pu cmd w npc s).pc = npc := by
  unfold retire
  rw [State.pushes_pc]
  simp [State.pc]

/-! ### What a pc may hold (R42) -/

/-- What a pc is given is a multiple of 4 (R42). -/
theorem wordStart_mod (a : XWord) : (wordStart a).toNat % 4 = 0 := by
  rw [wordStart, BitVec.toNat_and]
  exact (Nat.and_mod_two_pow (n := 2)).trans (by simp)

/-- An address of a word is the word that it lies in. -/
theorem wordStart_of_aligned {a : XWord} (h : a.toNat % 4 = 0) : wordStart a = a := by
  ext i hi
  have h0 : a.getLsbD 0 = false := by
    rw [← BitVec.testBit_toNat, Nat.testBit_zero]; simp; omega
  have h1 : a.getLsbD 1 = false := by
    rw [← BitVec.testBit_toNat, Nat.testBit_succ, Nat.testBit_zero]; simp; omega
  interval_cases i <;> simp_all [wordStart, BitVec.getLsbD_eq_getElem]

/-! ### LoopClose (R62) -/

/-- Where no loop ends at a word, closing goes on to the next address. -/
theorem loopClose_inLine {a npc : XWord} {s : State} (h : ∀ e ∈ s.seq.loops, e.last ≠ a) (n : Nat) :
    loopClose a npc s n = .next s npc := by
  cases n with
  | zero => rfl
  | succ n =>
    unfold loopClose
    split
    · rfl
    · rename_i top rest hl
      rw [if_pos]
      exact fun e => h top (by simp [hl]) e.symm

/-- Where no cursor loop ends at a word, closing loops succeeds and changes sequencing and rotation alone. -/
theorem loopClose_noRow {a npc : XWord} (n : Nat) {s : State}
    (h : ∀ e ∈ s.seq.loops, e.kind = .cursor → e.last ≠ a) :
    ∃ u npc', loopClose a npc s n = .next u npc' ∧ u.apart = s.apart ∧ u.cur = s.cur := by
  induction n generalizing s with
  | zero => exact ⟨s, npc, rfl, rfl, rfl⟩
  | succ n ih =>
    unfold loopClose
    split
    · exact ⟨s, npc, rfl, rfl, rfl⟩
    · rename_i top rest hl
      split
      · exact ⟨s, npc, rfl, rfl, rfl⟩
      · rename_i he
        have he : a = top.last := by simpa using he
        have hk : top.kind ≠ .cursor := fun hc => h top (by simp [hl]) hc he.symm
        simp only [hk, decide_false, Bool.false_and, Bool.false_eq_true, if_false]
        generalize ht : (if top.kind = .rotating then
          s.modCrew fun c => { c with vbase := c.vbase - 1, pbase := c.pbase - 1 } else s) = t
        have ha : t.apart = s.apart := by
          rw [← ht]
          split
          · exact State.apart_modCrew rfl
          · rfl
        have hc : t.cur = s.cur := by
          rw [← ht]
          split <;> simp
        have hq : t.seq = s.seq := by
          rw [← ht]
          split
          · exact State.seq_modCrew (fun st => by cases st <;> rfl)
          · rfl
        split
        · exact ⟨_, _, rfl, (State.apart_modSeq rfl).trans ha, by simpa using hc⟩
        · obtain ⟨u, p, hu, hua, huc⟩ := ih (s := t.modSeq fun q => { q with loops := rest }) (fun e he' => by
            refine h e ?_
            simp only [State.seq_modSeq] at he'
            simp [hl, he'])
          exact ⟨u, p, hu, hua.trans ((State.apart_modSeq rfl).trans ha), huc.trans (by simpa using hc)⟩

/-! ### The frame of every instruction (R59) -/

/-- A completing word reaches the state that its effect gives, apart from issue. -/
theorem finish_reaches {pu : Pops} {cmd : Option Nat} {w : Bool} {s0 s t : State} (hl : t.seq.loops = s.seq.loops)
    (hr : s.noRowClose) : Reaches (finish pu cmd w s.pc (s.pc + 4) s0 t) s t := by
  unfold finish
  obtain ⟨u, npc, hu, ha, -⟩ := loopClose_noRow (npc := s.pc + 4) (t.seq.loops.length + 1) (s := t) (a := s.pc)
    (fun e he => hr e (by rwa [← hl]))
  rw [hu]
  refine ⟨_, rfl, (apart_retire ..).trans ha, fun hi => ?_⟩
  rw [loopClose_inLine (fun e he => hi e (by rwa [← hl]))] at hu
  cases hu
  exact retire_pc ..

/-- Where nothing keeps a word from issuing, its effect is performed on the state after its pops. -/
theorem runWith_of_ready {pops pu : Pops} {w : Bool} {reads : List (State → List RegRef)} {s : State}
    (effect : State → Res) (h1 : s.popsReady pops = true) (h2 : s.parityBad reads = false)
    (h3 : s.creditFull pops = false) {t : State} (he : effect (s.doPops pops) = .done t) :
    runWith pops pu w reads s effect = finish pu none w s.pc (s.pc + 4) s t := by
  simp [runWith, h1, h2, h3, he]

theorem parityBad_of_nil {s : State} (h : s.crew.badRegs = []) (reads : List (State → List RegRef)) :
    s.parityBad reads = false := by
  simp [State.parityBad, h]

/-- A word whose effect completes reaches its state, apart from issue (R59). -/
theorem runWord_done {tk : Tok} {reads : List (State → List RegRef)} {s t : State} {effect : State → Res}
    (h : s.Clear tk) (he : effect (s.doPops (popsOf tk)) = .done t)
    (hl : t.seq.loops = (s.doPops (popsOf tk)).seq.loops) : Reaches (runWord tk reads s effect) s t := by
  unfold runWord
  rw [runWith_of_ready effect h.tokens (parityBad_of_nil h.parity _) h.credits he]
  exact finish_reaches (hl.trans (s.doPops_place _).1) h.rows

end Sys2Proof.Machine
end

