-- ==== Sys2Proof/Laws/Pool.lean ====
section
/-! SUPPORT. Laws of canonical memory: every operation keeps the form, a read after a write gives the value written, and a
write leaves every other address alone. -/

namespace Sys2Proof.Machine

/-! ### The canonical form -/

theorem memWfFrom_mono {m : Memory} {a b : Nat} (h : memWfFrom b m = true) (hab : a ≤ b) : memWfFrom a m = true := by
  cases m with
  | nil => rfl
  | cons c rest =>
    obtain ⟨k, v⟩ := c
    simp only [memWfFrom, Bool.and_eq_true, decide_eq_true_eq] at h ⊢
    exact ⟨⟨by omega, h.1.2⟩, h.2⟩

/-- An address below every entry reads as an unlisted one. -/
theorem memGet_below {m : Memory} {lo a : Nat} (h : memWfFrom lo m = true) (ha : a < lo) :
    memGet m a = Config.freshByte := by
  cases m with
  | nil => rfl
  | cons c rest =>
    obtain ⟨k, v⟩ := c
    simp only [memWfFrom, Bool.and_eq_true, decide_eq_true_eq] at h
    have hk : a < k := by omega
    simp [memGet, hk, Nat.ne_of_lt hk]

theorem memWfFrom_memSet {m : Memory} {lo a : Nat} (v : Byte) (h : memWfFrom lo m = true) (ha : lo ≤ a) :
    memWfFrom lo (memSet m a v) = true := by
  induction m generalizing lo with
  | nil =>
    unfold memSet
    split <;> simp_all [memWfFrom]
  | cons c rest ih =>
    obtain ⟨k, b⟩ := c
    simp only [memWfFrom, Bool.and_eq_true, decide_eq_true_eq] at h
    unfold memSet
    split
    · split
      · simp [memWfFrom, h]
      · simp_all [memWfFrom]
    · split
      · split
        · exact memWfFrom_mono h.2 (by omega)
        · simp_all [memWfFrom]
      · simp only [memWfFrom, Bool.and_eq_true, decide_eq_true_eq]
        exact ⟨h.1, ih h.2 (by omega)⟩

/-- Writing a byte keeps the canonical form. -/
theorem memWf_memSet {m : Memory} (a : Nat) (v : Byte) (h : memWf m = true) : memWf (memSet m a v) = true :=
  memWfFrom_memSet v h (Nat.zero_le a)

/-- Writing bytes keeps the canonical form. -/
theorem memWf_memSets {m : Memory} (a : Nat) (l : List Byte) (h : memWf m = true) : memWf (memSets m a l) = true := by
  induction l generalizing m a with
  | nil => exact h
  | cons b rest ih => exact ih _ (memWf_memSet a b h)

theorem memWfFrom_filter {m : Memory} {lo : Nat} (p : Host.Cell → Bool) (h : memWfFrom lo m = true) :
    memWfFrom lo (m.filter p) = true := by
  induction m generalizing lo with
  | nil => rfl
  | cons c rest ih =>
    obtain ⟨k, b⟩ := c
    simp only [memWfFrom, Bool.and_eq_true, decide_eq_true_eq] at h
    rw [List.filter_cons]
    split
    · simp only [memWfFrom, Bool.and_eq_true, decide_eq_true_eq]
      exact ⟨h.1, ih h.2⟩
    · exact memWfFrom_mono (ih h.2) (by omega)

/-- Taking entries away keeps the canonical form. -/
theorem memWf_filter {m : Memory} (p : Host.Cell → Bool) (h : memWf m = true) : memWf (m.filter p) = true :=
  memWfFrom_filter p h

/-- Clearing a range keeps the canonical form. -/
theorem memWf_memClear {m : Memory} (a n : Nat) (h : memWf m = true) : memWf (memClear m a n) = true := memWf_filter _ h

/-! ### Reads and writes -/

/-- A byte read after a byte written: the value there, and nothing else changed. -/
theorem memGet_memSet {m : Memory} {lo a x : Nat} (v : Byte) (h : memWfFrom lo m = true) :
    memGet (memSet m a v) x = if x = a then v else memGet m x := by
  induction m generalizing lo with
  | nil =>
    unfold memSet
    by_cases hx : x = a <;> by_cases hv : v = Config.freshByte <;> simp [memGet, hx, hv]
  | cons c rest ih =>
    obtain ⟨k, b⟩ := c
    simp only [memWfFrom, Bool.and_eq_true, decide_eq_true_eq] at h
    have hr := ih h.2
    unfold memSet
    by_cases hak : a < k
    · by_cases hv : v = Config.freshByte
      · by_cases hx : x = a
        · simp [hak, hv, hx, memGet, Nat.ne_of_lt hak]
        · simp [hak, hv, hx, memGet]
      · by_cases hx : x = a
        · simp [hak, hv, hx, memGet]
        · by_cases hxa : x < a
          · have : x < k := by omega
            simp [hak, hv, hx, hxa, memGet, this, Nat.ne_of_lt this]
          · simp [hak, hv, hx, hxa, memGet]
    · by_cases hk : a = k
      · subst hk
        by_cases hv : v = Config.freshByte
        · by_cases hx : x = a
          · subst hx
            simp [hv, memGet_below h.2 (Nat.lt_succ_self x)]
          · by_cases hxa : x < a
            · simp [hv, hx, hxa, memGet, memGet_below h.2 (by omega : x < a + 1)]
            · simp [hv, hx, hxa, memGet]
        · by_cases hx : x = a <;> simp [hv, hx, memGet]
      · simp only [hak, hk, if_false, memGet]
        rw [hr]
        by_cases hx : x = a
        · subst hx
          simp [hk, hak]
        · simp [hx]

/-- A byte outside the bytes written reads as before. -/
theorem memGet_memSets_other {m : Memory} {a x : Nat} (l : List Byte) (h : memWf m = true)
    (hx : x < a ∨ a + l.length ≤ x) : memGet (memSets m a l) x = memGet m x := by
  induction l generalizing m a with
  | nil => rfl
  | cons b rest ih =>
    simp only [List.length_cons] at hx
    rw [memSets, ih (memWf_memSet a b h) (by omega), memGet_memSet b h, if_neg (by omega)]

/-- A byte among the bytes written reads as written. -/
theorem memGet_memSets_same {m : Memory} {a i : Nat} (l : List Byte) (h : memWf m = true) (hi : i < l.length) :
    memGet (memSets m a l) (a + i) = l[i] := by
  induction l generalizing m a i with
  | nil => simp at hi
  | cons b rest ih =>
    rw [memSets]
    cases i with
    | zero =>
      rw [memGet_memSets_other rest (memWf_memSet a b h) (by omega), memGet_memSet b h]
      simp
    | succ j =>
      have := ih (a := a + 1) (i := j) (memWf_memSet a b h) (by simpa using hi)
      rw [show a + (j + 1) = a + 1 + j by omega, this]
      rfl

@[simp] theorem length_memGets (m : Memory) (a n : Nat) : (memGets m a n).length = n := by
  induction n generalizing a with
  | zero => rfl
  | succ n ih => simp [memGets, ih]

theorem memGets_eq_of_forall {m m2 : Memory} {a n : Nat} (h : ∀ x, a ≤ x → x < a + n → memGet m x = memGet m2 x) :
    memGets m a n = memGets m2 a n := by
  induction n generalizing a with
  | zero => rfl
  | succ n ih =>
    rw [memGets, memGets, h a (by omega) (by omega), ih fun x hx hy => h x (by omega) (by omega)]

/-- Bytes read from where they were written are those written. -/
theorem memGets_memSets_same {m : Memory} {a : Nat} (l : List Byte) (h : memWf m = true) :
    memGets (memSets m a l) a l.length = l := by
  induction l generalizing m a with
  | nil => rfl
  | cons b rest ih =>
    simp only [List.length_cons, memGets, memSets]
    rw [ih (memWf_memSet a b h), memGet_memSets_other rest (memWf_memSet a b h) (by omega), memGet_memSet b h]
    simp

/-- Bytes read from a range that a write does not meet are as before. -/
theorem memGets_memSets_other {m : Memory} {a b n : Nat} (l : List Byte) (h : memWf m = true)
    (hx : a + n ≤ b ∨ b + l.length ≤ a) : memGets (memSets m b l) a n = memGets m a n :=
  memGets_eq_of_forall fun x h1 h2 => memGet_memSets_other l h (by omega)

/-! ### Little-endian numbers -/

@[simp] theorem length_natLe (n v : Nat) : (natLe n v).length = n := by
  induction n generalizing v with
  | zero => rfl
  | succ n ih => simp [natLe, ih]

/-- The number that the bytes of a number hold is that number modulo 256^n. -/
theorem leNat_natLe (n v : Nat) : leNat (natLe n v) = v % 256 ^ n := by
  induction n generalizing v with
  | zero => simp [natLe, leNat, Nat.mod_one]
  | succ n ih =>
    have h8 : (2 : Nat) ^ 8 = 256 := rfl
    have hn : 256 ^ (n + 1) = 256 * 256 ^ n := Nat.pow_succ'
    rw [natLe, leNat, ih, BitVec.toNat_ofNat, h8, hn, Nat.mod_mul]

theorem leNat_lt (l : List Byte) : leNat l < 256 ^ l.length := by
  induction l with
  | nil => simp [leNat]
  | cons b rest ih =>
    have := b.isLt
    simp only [leNat, List.length_cons, Nat.pow_succ]
    omega

end Sys2Proof.Machine
end

