-- ==== Sys2Proof/Laws/Registers.lean ====
section
/-! SUPPORT. Registers and the pool through pops and retirement: the updates that effects make commute with setting issue
apart, and what effects read is not changed by pops. -/

namespace Sys2Proof.Machine

/-! ### Updates of the crew -/

/-- An update of the crew that leaves its sequencers, tokens and rotation bases alone. -/
structure Crew.Inner (f : Crew → Crew) : Prop where
  loose : ∀ c, (f c).loose = f c.loose
  set : ∀ c st q, (f c).setSeq st q = f (c.setSeq st q)
  seq : ∀ c st, (f c).seq st = c.seq st

theorem State.apart_inner {f : Crew → Crew} (hf : Crew.Inner f) (s : State) : (s.modCrew f).apart = s.apart.modCrew f := by
  by_cases h : s.cur.role = .fw
  · rw [State.apart_fw (by simpa using h), State.apart_fw h, State.modCrew_modHere, State.modCrew_modHere,
      State.modHere_modHere, State.modHere_modHere]
    simp only [State.modHere_eq, State.setCore_cur, Core.crew_setCrew]
    congr 1
    simp [Core.setCrew, Core.setFwSeq, hf.loose, Core.crew, vget_set_same]
  · rw [State.apart_crew (by simpa using h), State.apart_crew h, State.modCrew_modCrew, State.modCrew_modCrew]
    simp only [State.modCrew_eq, State.setCrew_cur, hf.loose, hf.seq, hf.set]

theorem State.seq_inner {f : Crew → Crew} (hf : Crew.Inner f) (s : State) : (s.modCrew f).seq = s.seq :=
  State.seq_modCrew fun st => hf.seq _ st

/-- Pops before an inner update of the crew make no difference apart from issue. -/
theorem State.doPops_inner {f : Crew → Crew} (hf : Crew.Inner f) (s : State) (k : Pops) :
    ((s.doPops k).modCrew f).apart = (s.modCrew f).apart := by
  rw [State.apart_inner hf, State.apart_inner hf, State.apart_doPops]

/-! ### Updates of the core -/

/-- An update of the core that leaves its crews and the firmware context's sequencer alone. -/
structure Core.Inner (f : Core → Core) : Prop where
  set : ∀ c k v, (f c).setCrew k v = f (c.setCrew k v)
  crew : ∀ c k, (f c).crew k = c.crew k
  seq : ∀ c, (f c).fw.seq = c.fw.seq
  fw : ∀ c q, (f c).setFwSeq q = f (c.setFwSeq q)

theorem State.apart_innerCore {f : Core → Core} (hf : Core.Inner f) (s : State) :
    (s.modHere f).apart = s.apart.modHere f := by
  by_cases h : s.cur.role = .fw
  · rw [State.apart_fw (by simpa using h), State.apart_fw h, State.modHere_modHere, State.modHere_modHere]
    simp only [State.modHere_eq, State.setCore_cur, hf.crew, hf.set, hf.fw, hf.seq]
  · rw [State.apart_crew (by simpa using h), State.apart_crew h, State.modCrew_modHere, State.modCrew_modHere,
      State.modHere_modHere, State.modHere_modHere]
    simp only [State.modHere_eq, State.setCore_cur, hf.crew, hf.set]

theorem State.seq_innerCore {f : Core → Core} (hf : Core.Inner f) (s : State) : (s.modHere f).seq = s.seq := by
  by_cases h : s.cur.role = .fw
  · rw [State.seq_fw (by simpa using h), State.seq_fw h, State.here_modHere, hf.seq]
  · rw [State.seq_crew (by simpa using h), State.seq_crew h, State.crew_here, State.crew_here, State.here_modHere]
    simp [hf.crew]

theorem State.doPops_innerCore {f : Core → Core} (hf : Core.Inner f) (s : State) (k : Pops) :
    ((s.doPops k).modHere f).apart = (s.modHere f).apart := by
  rw [State.apart_innerCore hf, State.apart_innerCore hf, State.apart_doPops]

/-! ### The register files -/

theorem Crew.inner_x (r : XReg) (v : XWord) : Crew.Inner fun c => { c with x := c.x.set r v }.clearBad (0, r.val) :=
  ⟨fun _ => rfl, fun _ st _ => by cases st <;> rfl, fun _ st => by cases st <;> rfl⟩

theorem Crew.inner_f (r : FReg) (v : W32) : Crew.Inner fun c => { c with f := c.f.set r v }.clearBad (1, r.val) :=
  ⟨fun _ => rfl, fun _ st _ => by cases st <;> rfl, fun _ st => by cases st <;> rfl⟩

theorem Crew.inner_a (g : Stream) (r : AReg) (v : AWord) :
    Crew.Inner fun c => (c.setAFile g ((c.aFile g).set r v)).clearBad (aFileNo g, r.val) :=
  ⟨fun _ => by cases g <;> rfl, fun _ st _ => by cases g <;> cases st <;> rfl,
    fun _ st => by cases g <;> cases st <;> rfl⟩

theorem Crew.inner_v (i : Fin 56) (v : VWord) : Crew.Inner fun c => { c with v := c.v.set i v }.clearBad (5, i.val) :=
  ⟨fun _ => rfl, fun _ st _ => by cases st <;> rfl, fun _ st => by cases st <;> rfl⟩

theorem Crew.inner_p (i : Fin 8) (v : PWord) : Crew.Inner fun c => { c with p := c.p.set i v }.clearBad (6, i.val) :=
  ⟨fun _ => rfl, fun _ st _ => by cases st <;> rfl, fun _ st => by cases st <;> rfl⟩

theorem Core.inner_fwx (r : XReg) (v : XWord) : Core.Inner fun c => { c with fw := { c.fw with x := c.fw.x.set r v } } :=
  ⟨fun _ _ _ => rfl, fun _ _ => rfl, fun _ => rfl, fun _ _ => rfl⟩

theorem Core.inner_fwf (r : FReg) (v : W32) : Core.Inner fun c => { c with fw := { c.fw with f := c.fw.f.set r v } } :=
  ⟨fun _ _ _ => rfl, fun _ _ => rfl, fun _ => rfl, fun _ _ => rfl⟩

theorem Core.inner_pool (place : Nat) (b : List Byte) : Core.Inner fun c => c.poolWrite place b :=
  ⟨fun _ _ _ => rfl, fun _ _ => rfl, fun _ => rfl, fun _ _ => rfl⟩

/-- The physical vector written by a name is one of a fixed number. -/
theorem State.setV_eq (s : State) (n : VReg) (v : VWord) :
    s.setV n v = s.modCrew fun c =>
      { c with v := c.v.set (vPhys s.crew.vbase n) v }.clearBad (5, (vPhys s.crew.vbase n).val) := rfl

theorem State.seq_setX (s : State) (r : XReg) (v : XWord) : (s.setX r v).seq = s.seq := by
  unfold State.setX
  split
  · rfl
  · split
    · exact State.seq_innerCore (Core.inner_fwx r v) s
    · exact State.seq_inner (Crew.inner_x r v) s

theorem State.seq_setF (s : State) (r : FReg) (v : W32) : (s.setF r v).seq = s.seq := by
  unfold State.setF
  split
  · exact State.seq_innerCore (Core.inner_fwf r v) s
  · exact State.seq_inner (Crew.inner_f r v) s

theorem State.seq_setA (s : State) (r : AReg) (v : AWord) : (s.setA r v).seq = s.seq := by
  unfold State.setA
  split
  · rfl
  · exact State.seq_inner (Crew.inner_a _ r v) s

theorem State.seq_setV (s : State) (n : VReg) (v : VWord) : (s.setV n v).seq = s.seq := by
  rw [State.setV_eq]
  exact State.seq_inner (Crew.inner_v _ v) s

theorem State.seq_setP (s : State) (n : PReg) (v : PWord) : (s.setP n v).seq = s.seq := by
  unfold State.setP
  split
  · rfl
  · exact State.seq_modCrew fun st => by cases st <;> rfl

theorem State.seq_poolStore (s : State) (off : Nat) (b : List Byte) : (s.poolStore off b).seq = s.seq :=
  State.seq_innerCore (Core.inner_pool _ b) s

/-! ### Writes after pops -/

theorem State.doPops_setX (s : State) (k : Pops) (r : XReg) (v : XWord) :
    ((s.doPops k).setX r v).apart = (s.setX r v).apart := by
  unfold State.setX
  rw [State.doPops_cur]
  split
  · exact State.apart_doPops s k
  · split
    · exact State.doPops_innerCore (Core.inner_fwx r v) s k
    · exact State.doPops_inner (Crew.inner_x r v) s k

theorem State.doPops_setF (s : State) (k : Pops) (r : FReg) (v : W32) :
    ((s.doPops k).setF r v).apart = (s.setF r v).apart := by
  unfold State.setF
  rw [State.doPops_cur]
  split
  · exact State.doPops_innerCore (Core.inner_fwf r v) s k
  · exact State.doPops_inner (Crew.inner_f r v) s k

theorem State.doPops_setA (s : State) (k : Pops) (r : AReg) (v : AWord) :
    ((s.doPops k).setA r v).apart = (s.setA r v).apart := by
  unfold State.setA
  rw [State.doPops_cur]
  split
  · exact State.apart_doPops s k
  · exact State.doPops_inner (Crew.inner_a _ r v) s k

/-! ### Reads after pops: what effects read factors through setting issue apart -/

theorem State.here_apart_crew {s : State} (h : s.cur.role ≠ .fw) :
    s.apart.here = s.here.setCrew s.cur.crew (s.crew.loose.setSeq s.cur.role.stream (s.crew.seq s.cur.role.stream).bare) := by
  rw [State.apart_crew h, State.modCrew_modHere, State.here_modHere]
  rfl

theorem State.here_apart_fw {s : State} (h : s.cur.role = .fw) :
    s.apart.here = (s.here.setCrew s.cur.crew s.crew.loose).setFwSeq s.here.fw.seq.bare := by
  rw [State.apart_fw h, State.here_modHere]
  rfl

/-- The crew apart from issue. -/
theorem State.crew_apart (s : State) :
    s.apart.crew = if s.cur.role = .fw then s.crew.loose
      else s.crew.loose.setSeq s.cur.role.stream (s.crew.seq s.cur.role.stream).bare := by
  rw [State.crew_here, State.apart_cur]
  split
  · rename_i h
    rw [State.here_apart_fw h]
    exact Core.crew_setCrew s.here s.cur.crew s.crew.loose
  · rename_i h
    rw [State.here_apart_crew h]
    simp

theorem State.fw_apart (s : State) : s.apart.here.fw.x = s.here.fw.x ∧ s.apart.here.fw.f = s.here.fw.f := by
  by_cases h : s.cur.role = .fw
  · rw [State.here_apart_fw h]
    exact ⟨rfl, rfl⟩
  · rw [State.here_apart_crew h]
    exact ⟨rfl, rfl⟩

/-- What the crew holds besides sequencers, tokens and rotation, read through a function that does not look at those. -/
theorem State.read_apart {α : Type} (g : Crew → α) (h1 : ∀ c, g c.loose = g c) (h2 : ∀ c st q, g (c.setSeq st q) = g c)
    (s : State) : g s.apart.crew = g s.crew := by
  rw [State.crew_apart]
  split
  · exact h1 _
  · rw [h2, h1]

theorem State.read_doPops {α : Type} (g : Crew → α) (h1 : ∀ c, g c.loose = g c)
    (h2 : ∀ c st q, g (c.setSeq st q) = g c) (s : State) (k : Pops) : g (s.doPops k).crew = g s.crew := by
  rw [← State.read_apart g h1 h2, State.apart_doPops, State.read_apart g h1 h2]

@[simp] theorem State.getX_doPops (s : State) (k : Pops) (r : XReg) : (s.doPops k).getX r = s.getX r := by
  unfold State.getX
  rw [State.doPops_cur, State.read_doPops Crew.x (fun _ => rfl) (fun _ st _ => by cases st <;> rfl)]
  have : (s.doPops k).here.fw.x = s.here.fw.x := by
    rw [← (State.fw_apart _).1, State.apart_doPops, (State.fw_apart _).1]
  rw [this]

@[simp] theorem State.getF_doPops (s : State) (k : Pops) (r : FReg) : (s.doPops k).getF r = s.getF r := by
  unfold State.getF
  rw [State.doPops_cur, State.read_doPops Crew.f (fun _ => rfl) (fun _ st _ => by cases st <;> rfl)]
  have : (s.doPops k).here.fw.f = s.here.fw.f := by
    rw [← (State.fw_apart _).2, State.apart_doPops, (State.fw_apart _).2]
  rw [this]

@[simp] theorem State.getA_doPops (s : State) (k : Pops) (r : AReg) : (s.doPops k).getA r = s.getA r := by
  unfold State.getA
  rw [State.doPops_cur, State.read_doPops (fun c => c.aFile s.cur.role.stream) (fun _ => by cases s.cur.role.stream <;> rfl)
    (fun _ st _ => by cases s.cur.role.stream <;> cases st <;> rfl)]

end Sys2Proof.Machine
end

