-- ==== Sys2Proof/Laws/Words.lean ====
section
/-! SUPPORT. What the frame of an instruction and the shared operations over registers can do, said once: a word that runs,
a word that traps, a word that waits, and the register words of X and of the a-register group. -/

namespace Sys2Proof.Machine

/-! ### The frame -/

/-- A word with no effect of its own reaches its own state. -/
theorem runWord_self {tk : Tok} {reads : List (State → List RegRef)} {s : State} (h : s.Clear tk) :
    Reaches (runWord tk reads s fun s => .done s) s s := by
  obtain ⟨u, hu, ha, hp⟩ := runWord_done (reads := reads) (effect := fun s => .done s) h rfl rfl
  exact ⟨u, hu, ha.trans (State.apart_doPops ..), hp⟩

/-- A word whose effect traps leaves the state before it, with the trap raised (R59). -/
theorem runWord_trap {tk : Tok} {reads : List (State → List RegRef)} {s : State} {effect : State → Res} {t : TrapReq}
    (h : s.Issues tk) (he : effect (s.doPops (popsOf tk)) = .trap t) :
    runWord tk reads s effect = .next (raise t s) := by
  unfold runWord runWith
  simp [h.tokens, parityBad_of_nil h.parity, h.credits, he]

/-- A word whose pops are not there waits (R178). -/
theorem runWord_pops {tk : Tok} {reads : List (State → List RegRef)} {s : State} {effect : State → Res}
    (h : s.popsReady (popsOf tk) = false) : runWord tk reads s effect = .next (waitOn .pops s) := by
  unfold runWord runWith
  simp [h]

/-- A word whose effect blocks waits. -/
theorem runWord_block {tk : Tok} {reads : List (State → List RegRef)} {s : State} {effect : State → Res} {k : WaitKind}
    {note : State → State} (h : s.Issues tk) (he : effect (s.doPops (popsOf tk)) = .block k note) :
    runWord tk reads s effect = .next (waitOn k (note s)) := by
  unfold runWord runWith
  simp [h.tokens, parityBad_of_nil h.parity, h.credits, he]

/-- A taken transfer goes to its target (R60). -/
theorem runWord_taken {tk : Tok} {reads : List (State → List RegRef)} {s t : State} {effect : State → Res} {target : XWord}
    (h : s.Issues tk) (he : effect (s.doPops (popsOf tk)) = .taken t target) :
    runWord tk reads s effect =
      .next (retire (pushesOf tk) none false target (t.modSeq fun q => { q with loops := leaveLoops target q.loops })) := by
  unfold runWord runWith
  simp [h.tokens, parityBad_of_nil h.parity, h.credits, he]

/-- Waiting changes nothing but the sequencer's record of it. -/
theorem waitOn_apart (k : WaitKind) (s : State) : (waitOn k s).apart = s.apart := by
  unfold waitOn
  rw [State.apart_modSeq rfl, State.apart_setWait]

theorem waitOn_pc (k : WaitKind) (s : State) : (waitOn k s).pc = s.pc := by
  have := State.setWait_pc s k
  simpa [waitOn, State.pc] using this

/-! ### Register words -/

/-- A word that writes one x-register reaches the state with that register written. -/
theorem setX_reaches {tk : Tok} {reads : List (State → List RegRef)} {s : State} {rd : XReg} {f : State → XWord}
    (h : s.Clear tk) (hf : f (s.doPops (popsOf tk)) = f s) :
    Reaches (runWord tk reads s fun s => .done (s.setX rd (f s))) s (s.setX rd (f s)) := by
  obtain ⟨u, hu, ha, hp⟩ := runWord_done (reads := reads) (effect := fun s => .done (s.setX rd (f s))) h rfl
    (by rw [State.seq_setX])
  exact ⟨u, hu, ha.trans (by rw [hf, State.doPops_setX]), hp⟩

theorem setF_reaches {tk : Tok} {reads : List (State → List RegRef)} {s : State} {rd : FReg} {f : State → W32}
    (h : s.Clear tk) (hf : f (s.doPops (popsOf tk)) = f s) :
    Reaches (runWord tk reads s fun s => .done (s.setF rd (f s))) s (s.setF rd (f s)) := by
  obtain ⟨u, hu, ha, hp⟩ := runWord_done (reads := reads) (effect := fun s => .done (s.setF rd (f s))) h rfl
    (by rw [State.seq_setF])
  exact ⟨u, hu, ha.trans (by rw [hf, State.doPops_setF]), hp⟩

theorem setA_reaches {tk : Tok} {reads : List (State → List RegRef)} {s : State} {rd : AReg} {f : State → AWord}
    (h : s.Clear tk) (hf : f (s.doPops (popsOf tk)) = f s) :
    Reaches (runWord tk reads s fun s => .done (s.setA rd (f s))) s (s.setA rd (f s)) := by
  obtain ⟨u, hu, ha, hp⟩ := runWord_done (reads := reads) (effect := fun s => .done (s.setA rd (f s))) h rfl
    (by rw [State.seq_setA])
  exact ⟨u, hu, ha.trans (by rw [hf, State.doPops_setA]), hp⟩

theorem aluRR_runs {tk : Tok} {rd ra rb : XReg} {s : State} {f : XWord → XWord → XWord} {v : XWord} (h : s.Clear tk)
    (hv : f (s.getX ra) (s.getX rb) = v) : Reaches (aluRR tk rd ra rb s f) s (s.setX rd v) := by
  subst hv
  exact setX_reaches (f := fun s => f (s.getX ra) (s.getX rb)) h (by simp only [State.getX_doPops])

theorem aluR_runs {tk : Tok} {rd ra : XReg} {s : State} {f : XWord → XWord} {v : XWord} (h : s.Clear tk)
    (hv : f (s.getX ra) = v) : Reaches (aluR tk rd ra s f) s (s.setX rd v) := by
  subst hv
  exact setX_reaches (f := fun s => f (s.getX ra)) h (by simp only [State.getX_doPops])

theorem aopRR_runs {tk : Tok} {rd ra rb : AReg} {s : State} {f : AWord → AWord → AWord} {v : AWord} (h : s.Clear tk)
    (hv : f (s.getA ra) (s.getA rb) = v) : Reaches (aopRR tk rd ra rb s f) s (s.setA rd v) := by
  subst hv
  exact setA_reaches (f := fun s => f (s.getA ra) (s.getA rb)) h (by simp only [State.getA_doPops])

theorem fopRR_runs {tk : Tok} {fd fa fb : FReg} {s : State} {f : W32 → W32 → W32} {v : W32} (h : s.Clear tk)
    (hv : f (s.getF fa) (s.getF fb) = v) : Reaches (fopRR tk fd fa fb s f) s (s.setF fd v) := by
  subst hv
  exact setF_reaches (f := fun s => f (s.getF fa) (s.getF fb)) h (by simp only [State.getF_doPops])

theorem fopR_runs {tk : Tok} {fd fa : FReg} {s : State} {f : W32 → W32} {v : W32} (h : s.Clear tk)
    (hv : f (s.getF fa) = v) : Reaches (fopR tk fd fa s f) s (s.setF fd v) := by
  subst hv
  exact setF_reaches (f := fun s => f (s.getF fa)) h (by simp only [State.getF_doPops])

end Sys2Proof.Machine
end

