-- ==== Sys2Proof/Tests/Slice0.lean ====
section
/-! SUPPORT. Tests of the model by hand calculation from the spec, and witnesses that the hypotheses of the statements can be
met. Each word below is written out from the tables of spec/03_encodings.md. -/

namespace Sys2Proof.Tests

open Sys2Proof Sys2Proof.Machine

-- One theorem after another: each kernel evaluation below takes a thread of its own.
set_option Elab.async false

/-! ### Decoding: words written out bit by bit -/

/-- Token bits of a word that pops from its predecessor and pushes to its successor: 1001 (Table 3.1). -/
def tkPN : Tok := { Tok.zero with popP := true, pushN := true }

/-- R43, Table 3.2: major 0x00 with no token bit is `nop`, with one it is `tok`. -/
theorem test_decode_nop : decode .x 0x00000000 = some .nop ∧ decode .s 0x90000000 = some (.tok tkPN) := by decide
/-- Table 3.2: `jmp -1`, major 0x01, off22 = 0x3FFFFF. -/
theorem test_decode_jmp : decode .l 0x007FFFFF = some (.jmp Tok.zero (-1)) := by decide
/-- Table 3.2: `loop 16, 3`, major 0x02, count [20:11] = 16, len 3. -/
theorem test_decode_loop : decode .x 0x00808003 = some (.loop Tok.zero 16 3) := by decide
/-- Table 3.2: `loopx a4, a5, 6`, major 0x04, aC [21:18] = 4, aN [17:14] = 5, len 6; X has no such word. -/
theorem test_decode_loopx : decode .c 0x01114006 = some (.loopx Tok.zero 4 5 6) ∧ decode .x 0x01114006 = none := by decide
/-- Table 3.2: `brc x9, -4`, major 0x05, r [21:16] = 9, off16 = 0xFFFC. -/
theorem test_decode_brc : decode .x 0x0149FFFC = some (.brc Tok.zero 9 (-4)) := by decide
/-- `rstp 0x0003 >n`: major 0x07, mask [21:6] = 3, function 1, push to the successor. -/
theorem test_decode_rstp : decode .c 0x11C000C1 = some (.rstp { Tok.zero with pushN := true } 3) := by decide
/-- `mul x4, x5, x6`: major 0x08, rd [21:16] = 4, ra [15:10] = 5, rb [9:4] = 6, function 14. -/
theorem test_decode_mul : decode .x 0x0204146E = some (.mul Tok.zero 4 5 6) := by decide
/-- `div x4, x5, x6`: major 0x09, function 1. -/
theorem test_decode_div : decode .x 0x02441461 = some (.div Tok.zero 4 5 6) := by decide
/-- `addi x5, x7, -3`: major 0x0A, imm10 = 0x3FD. -/
theorem test_decode_addi : decode .x 0x02851FFD = some (.addi Tok.zero 5 7 (-3)) := by decide
/-- `shi.sra x3, x3, 12`: major 0x0E, kind [9:8] = 2, count 12. -/
theorem test_decode_shi : decode .x 0x03830E0C = some (.shiSra Tok.zero 3 3 12) := by decide
/-- `lim x7, 0x0123`: major 0x11. -/
theorem test_decode_lim : decode .x 0x04470123 = some (.lim Tok.zero 7 0x0123) := by decide
/-- `fadd f1, f2, f3` and `ffma f1, f2, f3, f4`: majors 0x13 and 0x14. -/
theorem test_decode_float :
    decode .x 0x04C22180 = some (.fadd Tok.zero 1 2 3) ∧ decode .x 0x05022190 = some (.ffma Tok.zero 1 2 3 4) := by decide
/-- `fcvtxf x3, f1`: major 0x15. -/
theorem test_decode_fcvt : decode .x 0x05430400 = some (.fcvtxf Tok.zero 3 1) := by decide
/-- `gadv x3, x4, x5`, `sdraw x3, x4`, `hrun x4`: majors 0x31, 0x32 and 0x33. -/
theorem test_decode_units :
    decode .x 0x0C431052 = some (.gadv Tok.zero 3 4 5) ∧ decode .x 0x0C831000 = some (.sdraw Tok.zero 3 4)
      ∧ decode .x 0x0CC01001 = some (.hrun Tok.zero 4) := by decide
/-- `add a3, a1, a2`, `aaddi a3, a3, 64`, `ali a2, 0x1234`: majors 0x08, 0x09 and 0x0A of the a-register group. -/
theorem test_decode_areg :
    decode .l 0x020C4800 = some (.aAdd Tok.zero 3 1 2) ∧ decode .c 0x024CC040 = some (.aaddi Tok.zero 3 3 64)
      ∧ decode .s 0x02881234 = some (.ali Tok.zero 2 0x1234) := by decide
/-- `vmaxi v10, v11, v12`: major 0x23, guard p0. -/
theorem test_decode_vmaxi :
    decode .c 0x08C14598 = some (.vmaxi Tok.zero 0 (.reg 10) (.reg 11) (.reg 12)) := by decide
/-- `mset ring, 3, image, a5` and `mzero 3`: majors 0x32 and 0x33. -/
theorem test_decode_mset :
    decode .c 0x0C80FD40 = some (.msetImage Tok.zero .ring 3 5) ∧ decode .c 0x0CC000C0 = some (.mzero Tok.zero 3) := by decide
/-- `mma t3, rg0, rg1, 16 ov ck` and `mmag t2, rg4, rg5, 4`: majors 0x34 and 0x35, n8 = chunks − 1. -/
theorem test_decode_mma :
    decode .c 0x0D0C043F = some (.mma Tok.zero 3 0 1 15 true true)
      ∧ decode .c 0x0D49140C = some (.mmag Tok.zero 2 4 5 3 false false) := by decide
/-- `mhad rg6, rg2, 3, 1`, `mdrain t1, dd2`, `mtag t1, a6`: majors 0x36, 0x37 and 0x38. -/
theorem test_decode_matrix :
    decode .c 0x0D98B400 = some (.mhad Tok.zero 6 2 3 1) ∧ decode .c 0x0DC48000 = some (.mdrain Tok.zero 1 2)
      ∧ decode .c 0x0E058000 = some (.mtag Tok.zero 1 6) := by decide
/-- `mreplay.chk t1`, `mchk t1`, `mring.pop rg1`, `mring.read rg1, a7`: majors 0x39, 0x3A and 0x3B. -/
theorem test_decode_ring :
    decode .c 0x0E442000 = some (.mreplayChk Tok.zero 1) ∧ decode .c 0x0E840000 = some (.mchk Tok.zero 1)
      ∧ decode .c 0x0EC50000 = some (.mringPop Tok.zero 1) ∧ decode .c 0x0EC67000 = some (.mringRead Tok.zero 1 7) := by
  decide
/-- R57, the worked example of spec/03_encodings.md: `tld td5, a2, a3 cv ck rg <p >n` is 0x9305_2338. -/
theorem test_decode_tld : decode .l 0x93052338 = some (.tld tkPN 5 2 3 false false true true true) := by decide
/-- R58: `eli e7, 1`, `eadd e6, e1, e7`, `ecmp.lt e8, e3, e9`, `emsg e6`, `efin e8`. -/
theorem test_decode_edge :
    decode .hinge 0x13800001 = some (.eli 7 1) ∧ decode .hinge 0x1B0B8000 = some (.eadd 6 1 7)
      ∧ decode .hinge 0x641C8002 = some (.ecmp 8 3 9 2) ∧ decode .hinge 0x70300000 = some (.emsg 6)
      ∧ decode .hinge 0x78400000 = some (.efin 8) := by decide
/-- R44: reserved majors, nonzero must-be-zero bits and field values that a table leaves out fail decoding. -/
theorem test_decode_refuses :
    decode .x 0x0D0C043F = none ∧ decode .x 0x00000001 = none ∧ decode .l 0x02C00000 ≠ none ∧ decode .l 0x03000000 = some (.tld
      Tok.zero 0 0 0 false false false false false) ∧ decode .l 0x03000040 = none := by decide
/-- R42 and the table's numbering: bit 0 is the lowest bit of the word. -/
theorem test_table_word : decodeTableWord 32 0x0204146E = some (.mul Tok.zero 4 5 6) := by decide

/-! ### WellFormed: an ill-formed term for each check -/

theorem wf_stream : (Instr.mul Tok.zero 1 2 3).wf .x = true ∧ (Instr.mul Tok.zero 1 2 3).wf .l = false := by decide
theorem wf_c_only : (Instr.mzero Tok.zero 1).wf .c = true ∧ (Instr.mzero Tok.zero 1).wf .s = false := by decide
theorem wf_transfer_stream : (Instr.ttouch Tok.zero 1).wf .l = true ∧ (Instr.ttouch Tok.zero 1).wf .c = false := by decide
theorem wf_firmware : (Instr.eret Tok.zero).wf .fw = true ∧ (Instr.eret Tok.zero).wf .x = false := by decide
theorem wf_tok : (Instr.tok tkPN).wf .x = true ∧ (Instr.tok Tok.zero).wf .x = false := by decide
theorem wf_loop_len : (Instr.loop Tok.zero 1 1).wf .l = true ∧ (Instr.loop Tok.zero 1 0).wf .l = false := by decide
theorem wf_loop_x : (Instr.loopRegX Tok.zero 1 1).wf .x = true ∧ (Instr.loopRegX Tok.zero 1 0).wf .x = false := by decide
theorem wf_loop_a : (Instr.loopReg Tok.zero 1 1).wf .s = true ∧ (Instr.loopReg Tok.zero 1 0).wf .s = false := by decide
theorem wf_loopr : (Instr.loopr Tok.zero 1 1).wf .c = true ∧ (Instr.looprReg Tok.zero 1 0).wf .c = false := by decide
theorem wf_loopx : (Instr.loopx Tok.zero 1 0 1).wf .l = true ∧ (Instr.loopx Tok.zero 0 0 1).wf .l = false := by decide
theorem wf_brc : (Instr.brc Tok.zero 16 1).wf .x = true ∧ (Instr.brc Tok.zero 16 1).wf .c = false := by decide
theorem wf_brc_zero : (Instr.brc Tok.zero 0 1).wf .x = false := by decide
theorem wf_csr_read : (Instr.csrr Tok.zero 1 .trappc).wf .fw = true ∧ (Instr.csrr Tok.zero 1 .trappc).wf .x = false := by decide
theorem wf_csr_write : (Instr.csrw Tok.zero .trappc 1).wf .fw = true ∧ (Instr.csrw Tok.zero .cycle 1).wf .fw = false := by decide
theorem wf_csr_own_row : (Instr.csrw Tok.zero .waitlim 1).wf .x = false := by decide
theorem wf_vsetsh : (Instr.vsetsh Tok.zero 0 2 1).wf .c = true ∧ (Instr.vsetsh Tok.zero 0 3 1).wf .c = false := by decide
theorem wf_vsetsh_reg : (Instr.vsetshReg Tok.zero 0 0 1).wf .c = true ∧ (Instr.vsetshReg Tok.zero 0 0 0).wf .c = false := by decide
theorem wf_vrep_reg : (Instr.vrepReg Tok.zero 1 1 1 1).wf .c = true ∧ (Instr.vrepReg Tok.zero 0 1 1 1).wf .c = false := by decide
theorem wf_mset : (Instr.msetField Tok.zero .tile 1 3 1).wf .c = true ∧ (Instr.msetField Tok.zero .tile 1 4 1).wf .c = false := by
  decide
theorem wf_tld : (Instr.tld Tok.zero 1 1 1 true true false false false).wf .l = true
    ∧ (Instr.tld Tok.zero 1 1 1 false true false false false).wf .l = false := by decide
theorem wf_edge_dest : (Instr.eadd 6 1 2).wf .hinge = true ∧ (Instr.eadd 5 1 2).wf .hinge = false := by decide
theorem wf_edge_cond : (Instr.ecmp 6 1 2 5).wf .hinge = true ∧ (Instr.ecmp 6 1 2 6).wf .hinge = false := by decide
theorem wf_event : (Instr.bootStart).wf .fw = false := by decide

/-! ### Steps: what one word or one event does, computed by hand -/

/-- One bank of V, one of S and six of A: offsets from 0x20000 are the S-partition, from 0x40000 the A-partition (R16). -/
def part0 : XWord := 0x00060101

/-- A started block of context 0 on crew 0 of core 0, which a stream of the crew is about to serve. -/
def crew0 (role : Role) (f : Crew → Crew) : State :=
  (State.reset.modCrewAt 0 0 fun c => f { c with part := part0, block := some placedBlock }).actAs 0 0 role

/-- The crew of `crew0`. -/
def crewOf0 (s : State) : Crew := s.crewAt 0 0

/-- X registers with values. -/
def xs (l : List (XReg × XWord)) (c : Crew) : Crew := { c with x := l.foldl (fun v p => v.set p.1 p.2) c.x }
/-- a-registers of L, C and S with values. -/
def as_ (l : List (AReg × AWord)) (c : Crew) : Crew :=
  let set (v : Vector AWord 16) : Vector AWord 16 := l.foldl (fun v p => v.set p.1 p.2) v
  { c with aL := set c.aL, aC := set c.aC, aS := set c.aS }
/-- Vector registers with values. -/
def vs (l : List (VReg × VWord)) (c : Crew) : Crew := { c with v := l.foldl (fun v p => v.set p.1 p.2) c.v }

/-- What is read of the state after an instruction, if it answers a next state. -/
def run {α : Type} (i : Instr) (s : State) (read : State → α) : Option α :=
  match exec i s with
  | .next u => some (read u)
  | .fault _ | .refused _ => none

/-- The same of a step. -/
def stepped {α : Type} (s : State) (read : State → α) : Option α :=
  match step s with
  | .next u => some (read u)
  | .fault _ | .refused _ => none

/-- The codes of the traps that wait on core 0. -/
def codes (s : State) : List (BitVec 8) := (s.core 0).traps.map fun t => t.code

/-- X with register values. -/
def x0 (l : List (XReg × XWord)) : State := crew0 .x (xs l)
/-- C with register values. -/
def c0 (l : List (AReg × AWord)) : State := crew0 .c (as_ l)
/-- L with register values. -/
def l0 (l : List (AReg × AWord)) : State := crew0 .l (as_ l)
/-- A token word that does nothing to tokens. -/
abbrev tz : Tok := Tok.zero

/-- A step fetches the word at the pc, decodes and executes it, and the pc moves on: 2^63 · 3 mod 2^64 = 2^63. -/
theorem test_step_mul :
    stepped ((State.reset.placeSeq .x 0x0204146E).modCrewAt 0 0 (xs [(5, 2 ^ 63), (6, 3)]))
      (fun u => ((u.crewAt 0 0).x.get 4, (u.crewAt 0 0).seqX.pc)) = some (2 ^ 63, placeAt + 4) := by decide +kernel
/-- R44: a word that fails decoding raises ILLEGAL_OP (0x01) at its pc. -/
theorem test_step_illegal : stepped (State.reset.placeSeq .x 0x0D0C043F) codes = some [0x01] := by decide +kernel
/-- R71: addition wraps mod 2^64. -/
theorem test_add : run (.add tz 4 5 6) (x0 [(5, 2 ^ 64 - 1), (6, 2)]) (fun u => u.getX 4) = some 1 := by decide +kernel
/-- R59: a write to x0 is discarded. -/
theorem test_add_zero : run (.add tz 0 5 6) (x0 [(5, 7), (6, 2)]) (fun u => u.getX 0) = some 0 := by decide +kernel
/-- R71: the high half of a signed product: −1 · 1 has −1 above. -/
theorem test_mulh : run (.mulh tz 4 5 6) (x0 [(5, 2 ^ 64 - 1), (6, 1)]) (fun u => u.getX 4) = some (2 ^ 64 - 1) := by decide +kernel
/-- R72: −7 / 2 = −3 with remainder −1. -/
theorem test_div : run (.div tz 4 5 6) (x0 [(5, -7), (6, 2)]) (fun u => u.getX 4) = some (-3)
    ∧ run (.rem tz 4 5 6) (x0 [(5, -7), (6, 2)]) (fun u => u.getX 4) = some (-1) := by decide +kernel
/-- R72: by zero the quotient is all ones and the remainder the dividend. -/
theorem test_div_zero : run (.divn tz 4 5 6) (x0 [(5, 9)]) (fun u => u.getX 4) = some (2 ^ 64 - 1)
    ∧ run (.remn tz 4 5 6) (x0 [(5, 9)]) (fun u => u.getX 4) = some 9 := by decide +kernel
/-- R71: an arithmetic shift uses the low 6 bits of its count. -/
theorem test_sra : run (.sra tz 4 5 6) (x0 [(5, -8), (6, 65)]) (fun u => u.getX 4) = some (-4) := by decide +kernel
/-- R71: a signed and an unsigned compare of −1 and 1. -/
theorem test_slt : run (.slt tz 4 5 6) (x0 [(5, -1), (6, 1)]) (fun u => u.getX 4) = some 1
    ∧ run (.sltn tz 4 5 6) (x0 [(5, -1), (6, 1)]) (fun u => u.getX 4) = some 0 := by decide +kernel
/-- R73: the zero bits above the highest set bit of 1, and 64 of 0. -/
theorem test_clz : run (.clz tz 4 5) (x0 [(5, 1)]) (fun u => u.getX 4) = some 63
    ∧ run (.ctz tz 4 0) (x0 []) (fun u => u.getX 4) = some 64 := by decide +kernel
/-- R73: the bytes reversed. -/
theorem test_bswap : run (.bswap tz 4 5) (x0 [(5, 0x0102030405060708)]) (fun u => u.getX 4) = some 0x0807060504030201 := by
  decide +kernel
/-- R74: the immediate is sign-extended also for the bitwise words. -/
theorem test_andi : run (.andi tz 4 5 (-2)) (x0 [(5, 0xFFFF000000000003)]) (fun u => u.getX 4) = some 0xFFFF000000000002 := by
  decide +kernel
/-- R75: `lims` shifts 16 bits in. -/
theorem test_lims : run (.lims tz 4 0xBEEF) (x0 [(4, -1)]) (fun u => u.getX 4) = some 0xFFFFFFFFFFFFBEEF := by decide +kernel
/-- R70: 48-bit subtraction wraps. -/
theorem test_asub : run (.aSub tz 3 1 2) (c0 [(2, 1)]) (fun u => u.getA 3) = some (2 ^ 48 - 1) := by decide +kernel
/-- R70: −2 shifted right by 1 keeps its sign. -/
theorem test_asra : run (.aSra tz 3 1 2) (c0 [(1, -2), (2, 1)]) (fun u => u.getA 3) = some (-1) := by decide +kernel
/-- R76: 1.0 + 2.0 = 3.0 and 1.0 / 3.0 rounded to the nearest. -/
theorem test_fadd :
    run (.fadd tz 1 2 3) (crew0 .x fun c => { c with f := (c.f.set 2 0x3F800000).set 3 0x40000000 }) (fun u => u.getF 1)
      = some 0x40400000 := by decide +kernel
theorem test_fdiv :
    run (.fdiv tz 1 2 3) (crew0 .x fun c => { c with f := (c.f.set 2 0x3F800000).set 3 0x40400000 }) (fun u => u.getF 1)
      = some 0x3EAAAAAB := by decide +kernel
/-- R76: one NaN gives the other operand. -/
theorem test_fmin :
    run (.fmin tz 1 2 3) (crew0 .x fun c => { c with f := (c.f.set 2 0x7FC00000).set 3 0xBF800000 }) (fun u => u.getF 1)
      = some 0xBF800000 := by decide +kernel
/-- R78: 2.5 rounds to the even 2, and 2^63 saturates. -/
theorem test_fcvtxf :
    run (.fcvtxf tz 3 1) (crew0 .x fun c => { c with f := c.f.set 1 0x40200000 }) (fun u => u.getX 3) = some 2
    ∧ run (.fcvtxf tz 3 1) (crew0 .x fun c => { c with f := c.f.set 1 0x5F000000 }) (fun u => u.getX 3)
      = some 0x7FFFFFFFFFFFFFFF := by decide +kernel
/-- R81: a store of two bytes at x[ra] + 2·off, little-endian, in the S-partition. -/
theorem test_pst :
    run (.pst tz 1 5 6 3) (x0 [(5, 0x1234), (6, 0x20000)]) (fun u => memGets (u.core 0).pool 0x20005 4) = some [0, 0x34, 0x12, 0] := by
  decide +kernel
/-- R79: a signed load of a byte. -/
theorem test_pld :
    run (.pld tz 0 4 6 0) ((x0 [(6, 0x20000)]).modCore 0 fun c => { c with pool := [(0x20000, 0x80)] }) (fun u => u.getX 4)
      = some (-128) := by decide +kernel
/-- R80: a misaligned pool access traps ALIGN (0x08), one of the V-partition POOL_PART (0x05). -/
theorem test_pld_checks : run (.pld tz 3 4 6 0) (x0 [(6, 0x20004)]) codes = some [0x08]
    ∧ run (.pld tz 3 4 6 0) (x0 [(6, 0x1FFF8)]) codes = some [0x05] := by decide +kernel
/-- R82: `brc` decrements, and branches while the result is nonzero. -/
theorem test_brc : run (.brc tz 9 (-4)) (x0 [(9, 2)]) (fun u => (u.getX 9, u.pc)) = some (1, -16)
    ∧ run (.brc tz 9 (-4)) (x0 [(9, 1)]) (fun u => (u.getX 9, u.pc)) = some (0, 4) := by decide +kernel
/-- R66: `call` writes the next address to x63. -/
theorem test_call : run (.call tz 5) (x0 []) (fun u => (u.getX 63, u.pc)) = some (4, 20) := by decide +kernel
/-- R83: `bltn` compares unsigned. -/
theorem test_bltn : run (.bltn tz 5 6 3) (x0 [(5, 1), (6, -1)]) (fun u => u.pc) = some 12 := by decide +kernel
/-- R62: `loop 2, 1` enters its body with 2 iterations left. -/
theorem test_loop : run (.loop tz 2 1) (x0 []) (fun u => (u.pc, u.seq.loops.map fun e => (e.first, e.last, e.left)))
    = some (4, [(4, 4, 2)]) := by decide +kernel
/-- R63: a loop of count 0 skips its body. -/
theorem test_loop_zero : run (.loop tz 0 3) (x0 []) (fun u => (u.pc, u.seq.loops.length)) = some (16, 0) := by decide +kernel
/-- R68: `halt` with nothing outstanding. -/
theorem test_halt : run (.halt tz) (x0 []) (fun u => u.seq.status) = some .halted := by decide +kernel
/-- R178: a word that pops from an empty queue waits at its pc. -/
theorem test_pop_waits : run (.tok tkPN) (x0 []) (fun u => (u.pc, u.seq.wait.isSome)) = some (0, true) := by decide +kernel
/-- Table 5.2: `desctab` and `part` as a program reads them. -/
theorem test_csrr : run (.csrr tz 4 .part) (x0 []) (fun u => u.getX 4) = some part0 := by decide +kernel
/-- R87: `waitlim` takes at least 1,024. -/
theorem test_waitlim : run (.waitlimWrite tz 5) (x0 [(5, 7)]) (fun u => (crewOf0 u).waitlim) = some 1024 := by decide +kernel
/-- R88: a table that crosses into the A-partition is POOL_PART. -/
theorem test_desctab : run (.desctabWrite tz 5) (x0 [(5, 0x3F040)]) codes = some [0x05]
    ∧ run (.desctabWrite tz 5) (x0 [(5, 0x3F000)]) (fun u => (crewOf0 u).desctab) = some 0x3F000 := by decide +kernel
/-- R90: `trap` stops its sequencer at the next word with TRAP_INSN and its immediate. -/
theorem test_trap : run (.trap tz 0x55) (x0 []) (fun u => (u.seq.status, (u.core 0).traps.map fun t => (t.code, t.info, t.pc)))
    = some (.trapped, [(0x40, 0x55, 4)]) := by decide +kernel
/-- R101: `pamo.add` in the A-partition returns the old value and stores the sum; in the S-partition it is ATOM_PLACE. -/
theorem test_pamo :
    run (.pamoAdd tz 4 5 6) ((x0 [(5, 0x40000), (6, 5)]).modCore 0 fun c => { c with pool := [(0x40000, 9)] })
      (fun u => (u.getX 4, memGet (u.core 0).pool 0x40000)) = some (9, 14)
    ∧ run (.pamoAdd tz 4 5 6) (x0 [(5, 0x20000)]) codes = some [0x07] := by decide +kernel
/-- R98: a mailbox index of 8 is REG_RANGE. -/
theorem test_mbput : run (.mbput tz 5 6) (x0 [(5, 8)]) codes = some [0x03]
    ∧ run (.mbput tz 5 6) (x0 [(5, 7), (6, 33)]) (fun u => ((u.core 0).boxes.get 7).entries.map fun e => e.value) = some [33] := by
  decide +kernel
/-- R94: `binit` of one arrival and no bytes, then one arrival, completes the phase (R96): bit 96 is 1 and pending is 1 again. -/
theorem test_barrier :
    run (.combineUpdate 0)
      ((x0 []).modCore 0 fun c => { c with comb := [{ addr := 0x40000, kind := .init 1 0 }] })
      (fun u => (u.core 0).barObj 0x40000) = some (2 ^ 32 + 1)
    ∧ run (.combineUpdate 0)
      ((x0 []).modCore 0 fun c => { c with pool := [(0x40000, 1), (0x40004, 1)], comb := [{ addr := 0x40000, kind := .arrive }] })
      (fun u => (u.core 0).barObj 0x40000) = some (2 ^ 96 + 2 ^ 32 + 1) := by decide +kernel

/-- The lanes of a vector, lane 0 first. -/
def lanes (l : List Nat) : VWord := BitVec.ofNat 2048 (l.foldr (fun x acc => x % 2 ^ 32 + 2 ^ 32 * acc) 0)
/-- The first lanes of a vector register. -/
def first (n : Nat) (r : VReg) (u : State) : List Nat := (List.range n).map fun j => (u.getV r).toNat / 2 ^ (32 * j) % 2 ^ 32
/-- C with a shape and vectors. -/
def v0 (vsh : W32) (l : List (VReg × VWord)) : State := crew0 .c fun c => { vs l c with vsh := vsh }

/-- R112: INT32 lanes wrap (type 8, count 2), and an inactive lane keeps its value. -/
theorem test_vadd :
    run (.vadd tz 0 (.reg 1) (.reg 2) (.reg 3)) (v0 0x8002 [(1, lanes [7, 7, 7]), (2, lanes [0xFFFFFFFF, 1, 1]), (3, lanes [2, 2, 2])])
      (first 3 1) = some [1, 3, 7] := by decide +kernel
/-- R113: `vmax` of FP32 lanes, −1 and 1. -/
theorem test_vmax :
    run (.vmax tz 0 (.reg 1) (.reg 2) (.reg 3)) (v0 0x0001 [(2, lanes [0xBF800000]), (3, lanes [0x3F800000])]) (first 1 1)
      = some [0x3F800000] := by decide +kernel
/-- R118, its example: `vrsq` of 2 is 0x3F350000. -/
theorem test_vrsq :
    run (.vrsq tz 0 (.reg 1) (.reg 2)) (v0 0x0002 [(2, lanes [0x40000000, 0x00000000])]) (first 2 1)
      = some [0x3F350000, 0x7F800000] := by decide +kernel
/-- R118, its example: `vrcp` of 2^−149 overflows to +inf; Table 6.6: log2(1) is +0. -/
theorem test_vrcp :
    run (.vrcp tz 0 (.reg 1) (.reg 2)) (v0 0x0001 [(2, lanes [1])]) (first 1 1) = some [0x7F800000]
    ∧ run (.vlog2 tz 0 (.reg 1) (.reg 2)) (v0 0x0001 [(2, lanes [0x3F800000])]) (first 1 1) = some [0]
    ∧ run (.vexp2 tz 0 (.reg 1) (.reg 2)) (v0 0x0001 [(2, lanes [0x40400000])]) (first 1 1) = some [0x41000000] := by
  decide +kernel
/-- R119: an index at or above the count gives 0. -/
theorem test_vperm :
    run (.vperm tz 0 (.reg 1) (.reg 2) (.reg 3)) (v0 0x8003 [(2, lanes [10, 11, 12, 13]), (3, lanes [2, 0, 3])]) (first 3 1)
      = some [12, 10, 0] := by decide +kernel
/-- R122: the sum of 1, 2 and 3; of no lane it is −0. -/
theorem test_vsum :
    run (.vsum tz 0 (.reg 1) (.reg 2)) (v0 0x0003 [(1, lanes [5, 5]), (2, lanes [0x3F800000, 0x40000000, 0x40400000])]) (first 2 1)
      = some [0x40C00000, 0]
    ∧ run (.vsum tz 0 (.reg 1) (.reg 2)) (v0 0 []) (first 1 1) = some [0x80000000] := by decide +kernel
/-- R123, Table 6.7: both of its words. -/
theorem test_vmaxi :
    run (.vmaxi tz 0 (.reg 1) (.reg 2) (.reg 3)) (v0 5 [(2, lanes [0x3FC00000, 0x7FC00000, 0x40000000, 0x40000000, 0xFF800000]),
        (3, lanes [0x7FC00000, 0xFFFFFFFF, 0])]) (first 3 1) = some [0x40000000, 2, 5]
    ∧ run (.vmaxi tz 0 (.reg 1) (.reg 2) (.reg 3)) (v0 3 [(2, lanes [0x40000000, 0x7FC00000, 0x3F000000]),
        (3, lanes [0x40000000, 2, 5])]) (first 3 1) = some [0x40000000, 2, 8] := by decide +kernel
/-- R124, its example: H(5, 7, 5) = 7. -/
theorem test_vrng :
    run (.vrng tz 0 (.reg 1) (.reg 2) (.reg 3)) (v0 1 [(2, lanes [5]), (3, lanes [5, 7])]) (first 1 1) = some [7] := by
  decide +kernel
/-- R125, its example: an INT8 (type 10) result −3 is the lane value 0x000000FD; a shift of 32 is REG_RANGE. -/
theorem test_vrqnt :
    run (.vrqnt tz 0 (.reg 1) (.reg 2) (.reg 3)) (v0 0xA001 [(2, lanes [2 ^ 32 - 6]), (3, lanes [1, 1])]) (first 1 1) = some [0xFD]
    ∧ run (.vrqnt tz 0 (.reg 1) (.reg 2) (.reg 3)) (v0 0xA001 [(3, lanes [1, 32])]) codes = some [0x03] := by decide +kernel
/-- R112: a shift of FP32 elements is ILLEGAL_TYPE (0x02). -/
theorem test_vshl : run (.vshl tz 0 (.reg 1) (.reg 2) (.reg 3)) (v0 1 []) codes = some [0x02] := by decide +kernel
/-- R114: NaN compares false, and −0 equals +0; lanes outside the count are cleared. -/
theorem test_vcmpeq :
    run (.vcmpeq tz 0 3 (.reg 2) (.reg 4)) ((v0 3 [(2, lanes [0x7FC00000, 0x80000000, 1]), (4, lanes [0x7FC00000, 0, 2])]).setP 3 4)
      (fun u => u.getP 3) = some 2 := by decide +kernel
/-- R117: `vcvts.i8` saturates 200.0 to 127. -/
theorem test_vcvts :
    run (.vcvts tz 0 (.reg 1) (.reg 2) 10) (v0 1 [(2, lanes [0x43480000])]) (fun u => (u.getV 1).toNat % 256) = some 127 := by
  decide +kernel
/-- R111: `vsetsh bf16, 1, 128`; a 32-bit type with pack 1 is ILLEGAL_TYPE. -/
theorem test_vsetsh : run (.vsetsh tz 1 1 127) (v0 0 []) (fun u => u.crew.vsh) = some 0x1480
    ∧ run (.vsetsh tz 0 1 3) (v0 0 []) codes = some [0x02] := by decide +kernel
/-- R116: `plog.andn`, and a write to p0 is discarded. -/
theorem test_plog : run (.plogAndn tz 5 6 1) (((v0 0 []).setP 6 7).setP 1 2) (fun u => u.getP 5) = some 5
    ∧ run (.plogNot tz 0 6) (v0 0 []) (fun u => u.getP 0) = some (2 ^ 64 - 1) := by decide +kernel
/-- R121: a raw lane, zero-extended. -/
theorem test_vmva : run (.vmvaLane tz 5 (.reg 3) 1) (v0 0 [(3, lanes [1, 0xFFFFFFFF])]) (fun u => u.getA 5) = some 0xFFFFFFFF := by
  decide +kernel
/-- R128: `vst` at a[B] − 256 writes the active lanes only. -/
theorem test_vst :
    run (.vst tz 0 (.reg 2) 3 (-1)) ((v0 0x8001 [(2, lanes [0x11223344, 5])]).setA 3 0x20100)
      (fun u => memGets (u.core 0).pool 0x20000 5) = some [0x44, 0x33, 0x22, 0x11, 0] := by decide +kernel

/-! ### Matrix, transfers, edges -/

/-- R142: a field of an unset descriptor is ILLEGAL_TYPE; R143: a mask of zero does nothing, an unset tile is ILLEGAL_TYPE. -/
theorem test_mset_unset : run (.msetField tz .tile 1 0 2) (c0 []) codes = some [0x02] ∧ run (.mzero tz 2) (c0 []) codes = some [0x02]
    ∧ run (.mzero tz 0) (c0 []) (fun u => (codes u, u.pc)) = some ([], 4) := by decide +kernel
/-- R141: with less than six A-partition banks `mlease` is POOL_PART; `mfree` without a lease retires. -/
theorem test_mlease : run (.mlease tz) (crew0 .c fun c => c) codes = some []
    ∧ run (.mlease tz) ((crew0 .c fun c => c).modCrewAt 0 0 fun c => { c with part := 0x00050101 }) codes = some [0x05]
    ∧ run (.mfree tz) (c0 []) (fun u => u.pc) = some 4 := by decide +kernel
/-- R155: a pool offset that is no multiple of 64 is ALIGN (0x08). -/
theorem test_tld : run (.tld tz 0 1 0 false false false false false)
    ((l0 [(1, 0x20020)]).modCrew fun c => { c with desctab := 0x20000 }) codes = some [0x08] := by decide +kernel
/-- Table 12.3: `ecmp.lt` is signed; `eshr` keeps the sign. -/
theorem test_edge :
    let v : HingeEval :=
      { finished := false, target := 0, index := 3, e := ((Vector.replicate 16 0).set 1 (-8)).set 2 1, result := none, counted := false }
    let s := crew0 .hinge fun c => { c with hinge := { HingeRun.idle with eval := some v } }
    run (.ecmp 6 1 2 2) s (fun u => u.crew.hinge.eval.map fun v => (v.e.get 6, v.index)) = some (some (1, 4))
    ∧ run (.eshr 6 1 2) s (fun u => u.crew.hinge.eval.map fun v => v.e.get 6) = some (some (-4)) := by decide +kernel

/-! ### Events -/

/-- A device that is ready, at clock 1,024. -/
def dev : State := { State.reset with boot := { Boot.reset with stage := .ready }, cycle := 1024 }

/-- R225: an admitted contract is in force from the boundary on, but not one of this very clock. -/
theorem test_epoch :
    run .epochBoundary (dev.modCtx 3 fun c => { c with pending := [(5, 7)] }) (fun u => (u.ctx 3).contract) = some 5
    ∧ run .epochBoundary (dev.modCtx 3 fun c => { c with pending := [(5, 1024)] }) (fun u => (u.ctx 3).contract) = some 0 := by
  decide +kernel
/-- R89, Table 5.2: TRAP_ENTRY of the oldest trap. -/
theorem test_trap_entry :
    let t : Trap := { crew := 2, ctx := 5, stream := .c, code := 0x40, info := 9, addr := 0, pc := 0x40, clock := 1,
                      restored := false, back := none }
    run (.trapEntry 0) { ((crew0 .x fun c => c).modCore 0 fun c => { c with traps := [t] }) with cycle := 2 }
      (fun u => let w := (u.core 0).fw; (w.cause, w.tpc, w.tseq, w.tcrew)) = some (0x000940, 0x40, 2, 0x0502) := by decide +kernel
/-- R305, R319: a dropped frame is counted at its port. -/
theorem test_frame_drop : run (.frameDrop 7) dev (fun u => (u.npu.dropped.get 7, u.npu.dropped.get 6)) = some (1, 0) := by decide +kernel
/-- R182: a wait above the limit times out with TOKEN_TIMEOUT (0x20); at the limit it does not. -/
theorem test_timeout :
    let w (since : Nat) : State := { (crew0 .x fun c => { c with waitlim := 1024, seqX := { c.seqX with
      wait := some { kind := .pops, since := since, held0 := 0 } } }) with cycle := 1025 }
    run .tokenTimeout (w 0) codes = some [0x20] ∧ run .tokenTimeout (w 1) codes = some [] := by decide +kernel
/-- R325, R331: a start with no bank that verifies fails with reason 1, and is the third one counted. -/
theorem test_failed_start : run .bootStart { State.reset with boot := { Boot.reset with record := 0x20001 } }
    (fun u => (u.boot.stage, u.boot.fails, u.boot.get 47 40)) = some (.powered, 3, 1) := by decide +kernel
/-- Every event but these words of memory needs a module that is ready: on one that is not, nothing changes (R331). -/
theorem test_not_ready : run (.hostRmaRead 0 0 0 8) State.reset (fun u => u.npu.out.length) = some 0 := by decide +kernel

/-! ### Witnesses: hypotheses of the statements that a state meets -/

/-- A word issues where its queues have tokens, no register is bad and no loop is active. -/
theorem clear_of {s : State} {tk : Tok} (h1 : s.popsReady (popsOf tk) = true) (h2 : s.crew.badRegs = [])
    (h3 : s.creditFull (popsOf tk) = false) (h4 : s.seq.loops = []) : s.Clear tk :=
  ⟨⟨h1, h2, h3⟩, by intro e he; rw [h4] at he; exact absurd he (List.not_mem_nil)⟩

/-- Tables that map the first GiB of context 0 on itself for every access, through key 0 (R283). -/
def tables : Memory := [(0x1000, 1), (0x1001, 0x20), (0x2000, 0x1F), (0x3000, 1), (0x3001, 0x40), (0x4000, 0x1F)]
/-- A state with those tables and some bytes of HBM. -/
def mapped (s : State) (l : List (Nat × List Byte)) : State :=
  let s := (s.modCtx 0 fun c => { c with root1 := some 0x3000, root2 := some 0x1000 }).modNpu fun n => { n with keys := [(0, 0)] }
  { s with mem := { s.mem with hbm := l.foldl (fun m p => memSets m p.1 p.2) tables } }

/-- What a value of `Except` is, if it is one. -/
def okOf {ε α : Type} (e : Except ε α) : Option α :=
  match e with
  | .ok a => some a
  | .error _ => none
/-- The trap of an `Except`, if it is one. -/
def trapIn {α : Type} (e : Except TrapReq α) : Option (BitVec 8) :=
  match e with
  | .ok _ => none
  | .error t => some t.code

/-- X, the firmware context, L and C, each with nothing to wait for. -/
theorem wit_clear : (x0 []).Clear tz ∧ (crew0 .fw fun c => c).Clear tz ∧ (l0 []).Clear tz ∧ (c0 []).Clear tz :=
  ⟨clear_of (by decide +kernel) (by decide +kernel) (by decide +kernel) (by decide +kernel),
   clear_of (by decide +kernel) (by decide +kernel) (by decide +kernel) (by decide +kernel),
   clear_of (by decide +kernel) (by decide +kernel) (by decide +kernel) (by decide +kernel),
   clear_of (by decide +kernel) (by decide +kernel) (by decide +kernel) (by decide +kernel)⟩

/-- ControlWords: with nothing outstanding, and with an `hrun`. -/
theorem wit_ControlWords : (x0 []).Clear tz ∧ (x0 []).crew.outstanding .x = []
    ∧ (crew0 .x fun c => { c with xcmds := [1] }).Clear tz ∧ (crew0 .x fun c => { c with xcmds := [1] }).crew.outstanding .x ≠ [] :=
  ⟨wit_clear.1, by decide +kernel, clear_of (by decide +kernel) (by decide +kernel) (by decide +kernel) (by decide +kernel),
   by decide +kernel⟩
/-- PopWaits: an empty queue, and that of a `vrep` whose target is `vadd v24, v30, v0`, which has no token bits itself. -/
def atRep (f : Crew → Crew) : State :=
  ((State.reset.placeSeq .c 0).modCrewAt 0 0 fun c => f { c with
    part := part0, seqC := { c.seqC with
      line := some (placeAt, wordBytes 0x0AC0D400 ++ wordBytes 0x03030F00 ++ List.replicate 56 0) } }).actAs 0 0 .c
def repTarget : Instr := .vadd tz 0 (.reg 24) (.reg 30) (.reg 0)
def targetOf (t : Target) : Option Instr :=
  match t with
  | .v3 i => some i
  | .other | .perm _ | .ecc _ | .stop _ => none
theorem wit_PopWaits : (x0 []).popsReady (popsOf tkPN) = false ∧ (Instr.tok tkPN).tokens = some tkPN
    ∧ (atRep id).cur.role = .c ∧ (atRep id).crew.badRegs = [] ∧ (atRep id).crew.repRun = none
    ∧ targetOf (atRep id).vrepTarget = some repTarget ∧ (v3At 0 0 0 repTarget).isSome = true ∧ repTarget.tokens = some tz
    ∧ (atRep id).repCheck 3 { d := 1, a := 1, b := 1 } repTarget = none
    ∧ (atRep id).popsReady { p := tkPN.popP.toNat + tz.popP.toNat, n := tkPN.popN.toNat + tz.popN.toNat } = false := by
  decide +kernel
/-- LoopWords: an empty stack, and a full one. -/
def entry (last : XWord) (kind : LoopKind) (left : Nat) : LoopEntry :=
  { first := 0, last := last, left := left, kind := kind, outer := 0, cur := 0 }
theorem wit_LoopWords : (x0 []).Clear tz ∧ (x0 []).seq.loops.length < 4
    ∧ (crew0 .x fun c => { c with seqX := { c.seqX with loops := List.replicate 4 (entry 8 .plain 1) } }).Issues tz
    ∧ (crew0 .x fun c => { c with seqX := { c.seqX with loops := List.replicate 4 (entry 8 .plain 1) } }).seq.loops.length = 4 :=
  ⟨wit_clear.1, by decide +kernel, ⟨by decide +kernel, by decide +kernel, by decide +kernel⟩, by decide +kernel⟩
/-- LoopWords, `loopx`: two row pointers 0 and 2 in the S-partition. -/
def rows : State := (l0 [(4, 0x20000), (5, 1)]).modCore 0 fun c => { c with pool := [(0x20004, 2)] }
theorem wit_LoopWords_rows : rows.Clear tz ∧ rows.cur.role ≠ .fw ∧ 0 < (rows.getA 5).toNat
    ∧ poolCheck rows.part (rows.getA 4).toNat (4 * ((rows.getA 5).toNat + 1)) 4 = none
    ∧ rows.PoolFree (rows.getA 4).toNat 4 ∧ rows.PoolFree ((rows.getA 4).toNat + 4) 4
    ∧ leNat (rows.poolBytes (poolPlace rows.part (rows.getA 4).toNat) 4)
        < leNat (rows.poolBytes (poolPlace rows.part ((rows.getA 4).toNat + 4)) 4) :=
  ⟨clear_of (by decide +kernel) (by decide +kernel) (by decide +kernel) (by decide +kernel), by decide +kernel, by decide +kernel,
   by decide +kernel, ⟨⟨by decide +kernel, by decide +kernel⟩, by decide +kernel⟩,
   ⟨⟨by decide +kernel, by decide +kernel⟩, by decide +kernel⟩, by decide +kernel⟩
/-- LoopWords: a body that would end past the innermost loop's; two rows, the first and both of them with no iteration. -/
theorem wit_LoopWords_ends : ((l0 []).modSeq fun q => { q with loops := [entry 0 .plain 1] }).Issues tz :=
  ⟨by decide +kernel, by decide +kernel, by decide +kernel⟩
theorem wit_LoopWords_past : (∀ top ∈ [entry 0 .plain 1].head?, top.last.toNat < ((l0 []).pc + 4 * (1 : BitVec 11).zeroExtend 64).toNat)
    ∧ (l0 [(4, 0x20002)]).getA 4 % 4 ≠ 0
    ∧ (poolCheck (l0 []).part 0xFFFFC (4 * (1 + 1)) 4).isSome = true ∧ poolCheck (l0 []).part 0x20000 (4 * (2 + 1)) 4 = none
    ∧ ∀ p ∈ [([] : Memory), [(0x20008, 2)]], ∀ i ∈ [0, 1, 2],
        ((l0 []).modCore 0 fun c => { c with pool := p }).here.lockedFor none (0x20000 + 4 * i) 4 = false
        ∧ (i < 2 → leNat (((l0 []).modCore 0 fun c => { c with pool := p }).poolBytes (0x20000 + 4 * i) 4) = 0) := by decide +kernel
/-- LoopClose: the pc at the last word of a plain and of a rotating loop, the last iteration and one before it. -/
def closing (kind : LoopKind) (left : Nat) : State :=
  crew0 .c fun c => { c with seqC := { c.seqC with loops := [entry 0 kind left] } }
theorem wit_LoopClose : ∀ k ∈ [LoopKind.plain, .rotating], ∀ n ∈ [1, 2], (closing k n).Issues tz
    ∧ (closing k n).seq.loops = [entry 0 k n] ∧ (entry 0 k n).last = (closing k n).pc ∧ (entry 0 k n).kind ≠ .cursor := by
  intro k hk n hn
  simp only [List.mem_cons, List.not_mem_nil, or_false] at hk hn
  rcases hk with rfl | rfl <;> rcases hn with rfl | rfl <;>
    exact ⟨⟨by decide +kernel, by decide +kernel, by decide +kernel⟩, by decide +kernel, by decide +kernel, by decide +kernel⟩
/-- Transfers: an aligned and a misaligned target, and registers of each order. -/
theorem wit_Transfers : (x0 [(1, 8), (2, 6), (3, -1)]).Clear tz ∧ ((x0 [(1, 8)]).getX 1).toNat % 4 = 0
    ∧ ((x0 [(2, 6)]).getX 2).toNat % 4 ≠ 0 ∧ (x0 [(9, 2)]).getX 9 - 1 ≠ 0 ∧ (x0 [(9, 1)]).getX 9 - 1 = 0
    ∧ (c0 [(9, 2)]).getA 9 - 1 ≠ 0 ∧ (c0 [(9, 1)]).getA 9 - 1 = 0 ∧ (c0 []).cur.role.isX = false :=
  ⟨clear_of (by decide +kernel) (by decide +kernel) (by decide +kernel) (by decide +kernel), by decide +kernel, by decide +kernel,
   by decide +kernel, by decide +kernel, by decide +kernel, by decide +kernel, by decide +kernel⟩
/-- IntegerArithmetic: −2^63 by −1, and by zero. -/
theorem wit_IntegerArithmetic : (x0 [(1, 2 ^ 63), (2, -1)]).Clear tz ∧ ((x0 [(1, 2 ^ 63)]).getX 1).toInt = -(2 ^ 63)
    ∧ ((x0 [(2, -1)]).getX 2).toInt = -1 ∧ (x0 []).getX 3 = 0 :=
  ⟨clear_of (by decide +kernel) (by decide +kernel) (by decide +kernel) (by decide +kernel), by decide +kernel, by decide +kernel,
   by decide +kernel⟩
/-- OneOperandWords and ARegisterWords ask only for `Clear`. -/
theorem wit_OneOperandWords : (x0 [(5, 2 ^ 63)]).Clear tz :=
  clear_of (by decide +kernel) (by decide +kernel) (by decide +kernel) (by decide +kernel)
theorem wit_ARegisterWords : (c0 [(5, 2 ^ 47)]).Clear tz :=
  clear_of (by decide +kernel) (by decide +kernel) (by decide +kernel) (by decide +kernel)
/-- FloatWords: NaN, both infinities and a number. -/
theorem wit_FloatWords : (x0 []).Clear tz ∧ (f32 0x7FC00000).isNan = true ∧ f32 0x7F800000 = .inf false ∧ f32 0xFF800000 = .inf true
    ∧ (f32 0x3F800000).isFinite = true := ⟨wit_clear.1, by decide +kernel, by decide +kernel, by decide +kernel, by decide +kernel⟩
/-- FloatSelections: an order of numbers, and the two zeros. -/
theorem wit_FloatSelections : (x0 []).Clear tz ∧ (f32 0xBF800000).lt (f32 0x3F800000) = true ∧ (f32 0x80000000).isNan = false
    ∧ (f32 0x7FC00001).isNan = true := ⟨wit_clear.1, by decide +kernel, by decide +kernel, by decide +kernel⟩
/-- RoundingKeepsValues: a number, and a NaN that is not canonical. -/
theorem wit_RoundingKeepsValues : (f32 0x00000001).isNan = false ∧ (f32 0xFFFFFFFF).isNan = true := by decide +kernel
/-- PoolLoads and PoolStores: the last 8 bytes of the allotment. -/
theorem wit_PoolLoads : (x0 [(1, 0xFFFF8)]).Clear tz ∧ (x0 [(1, 0xFFFF8)]).PoolFree 0xFFFF8 8 ∧ (x0 [(1, 0xFFFF8)]).PoolFree 0xFFFF8 4 :=
  ⟨clear_of (by decide +kernel) (by decide +kernel) (by decide +kernel) (by decide +kernel),
   ⟨⟨by decide +kernel, by decide +kernel⟩, by decide +kernel⟩, ⟨⟨by decide +kernel, by decide +kernel⟩, by decide +kernel⟩⟩
theorem wit_PoolStores : (x0 []).Clear tz ∧ memWf (x0 []).here.pool = true ∧ (x0 []).PoolOpen 0x20000 8 ∧ (x0 []).PoolOpen 0x20000 4 :=
  ⟨wit_clear.1, by decide +kernel, ⟨by decide +kernel, by decide +kernel⟩, ⟨by decide +kernel, by decide +kernel⟩⟩
/-- AccessChecks: the partition's edges, the end of the pool, and an address that nothing maps. -/
theorem wit_AccessChecks : (x0 []).Issues tz ∧ (0x1FFF8 : Nat) < sBegin (x0 []).part ∧ allotEnd (x0 []).part < 0x100000 + 8
    ∧ allotEnd (x0 []).part < 0x100000 + 4 ∧ 2 ^ 23 < 0x7FFFF8 + 16 ∧ (x0 []).translateHere 0 .read = .fault 0x10 ∧ (x0 []).translateHere 0 .write = .fault 0x10 :=
  ⟨wit_clear.1.toIssues, by decide +kernel, by decide +kernel, by decide +kernel, by decide +kernel, by decide +kernel, by decide +kernel⟩
/-- PoolAtomics: the first place of the A-partition, and the last of the S-partition. -/
theorem wit_PoolAtomics : (x0 []).Clear tz ∧ (x0 []).PoolFree 0x40000 8 ∧ aBegin (x0 []).part ≤ 0x40000
    ∧ (x0 []).PoolOpen 0x3FFF8 8 ∧ 0x3FFF8 < aBegin (x0 []).part :=
  ⟨wit_clear.1, ⟨⟨by decide +kernel, by decide +kernel⟩, by decide +kernel⟩, by decide +kernel,
   ⟨by decide +kernel, by decide +kernel⟩, by decide +kernel⟩
/-- GlobalLoads, GlobalStores and Discard: a page that context 0 maps. -/
def page (va : Nat) : Xlat :=
  { pa := va, size := 0x40000000, leaf1 := 0x1F, leaf2 := { entry := 0x1F, at_ := 0x2000, level := 2 }, key := some 0,
    places := [0x1000, 0x2000, 0x3000, 0x1000, 0x2000, 0x4000, 0x1000, 0x2000] }
theorem wit_GlobalLoads : (mapped (x0 []) []).Clear tz ∧ (mapped (x0 []) []).translateHere 0x20000008 .read = .ok (page 0x20000008)
    ∧ entryRem (page 0).leaf2.entry = false ∧ 0x20000008 + 8 ≤ Config.hbmBytes ∧ (mapped (x0 []) []).mem.bad 0x20000008 8 = false :=
  ⟨clear_of (by decide +kernel) (by decide +kernel) (by decide +kernel) (by decide +kernel), by decide +kernel, by decide +kernel,
   by decide +kernel, by decide +kernel⟩
theorem wit_GlobalStores : (mapped (x0 []) []).Clear tz ∧ (mapped (x0 []) []).translateHere 0x20000008 .write = .ok (page 0x20000008)
    ∧ entryDead (page 0).leaf2.entry = false := ⟨wit_GlobalLoads.1, by decide +kernel, by decide +kernel⟩
/-- LoadReturnsLatest: a block that nothing has written under a second key, and one written under key 5 that is read under key 6. -/
def keyedTo (key : Option MemKey) : Global := { Global.reset with
  keyed := [(0x200000, 65536, 5)]
  stores := [{ id := 8, pa := 0x200000, bytes := [some 1], key := key, writer := .peer, pubs := [], under := none }] }
theorem wit_LoadReturnsLatest : (keyedTo none).mixed (fun _ => true) (some 5) 0x20000 = false
    ∧ (keyedTo (some 5)).mixed (fun _ => true) (some 6) 0x20000 = true ∧ (keyedTo (some 5)).keyAt (16 * 0x20000) = some 5
    ∧ ∀ g ∈ (keyedTo (some 5)).stores, g.meets 0x20000 = true → g.key = some 5 := by decide +kernel
/-- A remote store of X of crew 0, held or sent as put 3. -/
def aFar (put : Option Nat) (refused : Bool) (acked : Option Nat) : RemoteStore :=
  { id := 9, peer := 1, pa := 0x200000, va := 0x200000, bytes := [some 1], size := 1, writer := .seq 0 0 .x, ctx := 0, pubs := [],
    under := none, put := put, refused := refused, acked := acked, shown := none }
/-- X in a block that dom scope is granted to, with one remote store and one store of its own. -/
def domX (r : RemoteStore) : State :=
  let s := crew0 .x fun c => { c with block := some { placedBlock with scopes := 0x3F } }
  let p : Pub := { scope := .dev, core := 0, crew := 0, ctx := 0, launch := 1, team := 0, clock := 3 }
  { s with cycle := 1024, mem := { s.mem with remote := [r], stores :=
    [{ id := 8, pa := 0x200000, bytes := [some 1], key := none, writer := .seq 0 0 .x, pubs := [], under := none },
     { id := 7, pa := 0x200000, bytes := [some 1], key := none, writer := .host 0, pubs := [p], under := none }] } }
theorem clear_domX : (domX (aFar (some 3) false (some 5))).Clear tz ∧ (domX (aFar (some 3) false none)).Clear tz
    ∧ (domX (aFar (some 3) true none)).Clear tz :=
  ⟨clear_of (by decide +kernel) (by decide +kernel) (by decide +kernel) (by decide +kernel),
   clear_of (by decide +kernel) (by decide +kernel) (by decide +kernel) (by decide +kernel),
   clear_of (by decide +kernel) (by decide +kernel) (by decide +kernel) (by decide +kernel)⟩
/-- Publication: scope crew is always admitted, dom scope not here; with it, everything delivered, a put unanswered, one refused;
a publication of an earlier clock within reach of an `acq` at every scope from dev on. -/
theorem wit_Publication : (x0 []).Clear tz ∧ (x0 []).admits .crew = true ∧ (x0 []).admits .dom = false
    ∧ (∀ b ∈ [false, true], (domX (aFar (some 3) false none)).reviveBad b = false) ∧ (domX (aFar none false none)).deadLeaves = []
    ∧ (domX (aFar (some 3) false none)).admits .dom = true
    ∧ (domX (aFar (some 3) false (some 5))).delivery (domX (aFar (some 3) false (some 5))).remoteMine = .delivered
    ∧ (domX (aFar (some 3) false none)).delivery (domX (aFar (some 3) false none)).remoteMine = .waiting
    ∧ (domX (aFar (some 3) true none)).delivery (domX (aFar (some 3) true none)).remoteMine = .refused 0x200000
    ∧ ∀ sc ∈ [Scope.dev, .dom], within sc (domX (aFar none false none)).spotHere (domX (aFar none false none)).spotHere = true
        ∧ (domX (aFar none false none)).admits sc = true :=
  ⟨wit_clear.1, by decide +kernel, by decide +kernel, by decide +kernel, by decide +kernel, by decide +kernel, by decide +kernel, by decide +kernel, by decide +kernel,
   by decide +kernel⟩
/-- CsrReads and CsrWriteRules: a block's sequencer and the firmware context; the boundaries of `desctab`. -/
theorem wit_CsrReads : (x0 []).Clear tz ∧ (x0 []).cur.role ≠ .fw ∧ (x0 []).crew.block = some placedBlock
    ∧ (crew0 .fw fun c => c).Clear tz ∧ (crew0 .fw fun c => c).cur.role = .fw :=
  ⟨wit_clear.1, by decide +kernel, by decide +kernel, wit_clear.2.1, by decide +kernel⟩
theorem wit_CsrWriteRules : (x0 [(1, 0x3F000)]).Clear tz ∧ (x0 []).cur.role ≠ .fw ∧ sBegin (x0 []).part ≤ 0x3F000 ∧ 0x3F000 + 4096 ≤ aBegin (x0 []).part
    ∧ aBegin (x0 []).part < 0x3F040 + 4096 ∧ 2 ^ 23 < 0x7FF040 + 4096 ∧ 0x7FF040 % 64 = 0 :=
  ⟨clear_of (by decide +kernel) (by decide +kernel) (by decide +kernel) (by decide +kernel), by decide +kernel, by decide +kernel,
   by decide +kernel, by decide +kernel, by decide +kernel, by decide +kernel⟩
/-- TakingATrap: both roles; a `trap` that pushes to a full queue holds its push first. -/
def fullQueue : State :=
  let q : Queue := { toks := List.replicate 16 [], popped := 0, incoming := [] }
  crew0 .x fun c => { c with queues := c.queues.set (queueToSucc .x) q }
theorem wit_TakingATrap : (x0 []).Clear tz ∧ (x0 []).cur.role ≠ .fw ∧ (crew0 .fw fun c => c).cur.role = .fw
    ∧ fullQueue.Clear { tz with pushN := true }
    ∧ run (.trap { tz with pushN := true } 9) fullQueue (fun u => (u.seq.held.length, u.seq.trapDue.map fun t => t.code, codes u))
      = some (1, some 0x40, []) :=
  ⟨wit_clear.1, by decide +kernel, by decide +kernel,
   clear_of (by decide +kernel) (by decide +kernel) (by decide +kernel) (by decide +kernel), by decide +kernel⟩
/-- ServingATrap: a trap of crew 2's C that waits, and a handler that serves it. -/
def aTrap : Trap :=
  { crew := 0, ctx := 0, stream := .c, code := 0x40, info := 9, addr := 0, pc := 0x40, clock := 1, restored := false, back := none }
def aTrapBack : Trap := { aTrap with back := some 0x20 }
def aTrapAcc : Trap := { aTrap with code := 0x30 }
def handled (t : Trap) : State :=
  let s := (crew0 .fw fun c => { c with seqC := { c.seqC with status := .trapped } }).modCore 0 fun c => { c with traps := [t] }
  { s with cycle := 2 }
/-- What `eret` reads of a handler that has taken the trap: it serves it, its crew and stream, its code, and the sequencer. -/
def servesAs (entry : Instr) (t : Trap) : Option (Serving × Nat × Nat × Nat × SeqStatus) :=
  run entry (handled t) fun u =>
    (u.here.fw.serving, u.here.fw.tcrew.toNat, u.here.fw.tseq.toNat, u.here.fw.cause.toNat % 256, (u.here.crew 0).seqC.status)
theorem wit_ServingATrap : (handled aTrap).here.fw.idle = true ∧ (handled aTrap).here.fw.retries = []
    ∧ (handled aTrap).here.traps = [aTrap] ∧ aTrap.clock < (handled aTrap).cycle ∧ ((handled aTrap).ctx aTrap.ctx).frozen = false
    ∧ (((handled aTrap).modCtx 0 fun c => { c with halting := .halted }).ctx 0).frozen = true
    ∧ (x0 []).cur.role.isX = true := by decide +kernel
theorem wit_ServingATrap_eret : servesAs (.trapEntry 0) aTrap = some (.trap none, 0, 2, 0x40, .trapped)
    ∧ servesAs (.trapEntry 0) aTrapBack = some (.trap (some 0x20), 0, 2, 0x40, .trapped)
    ∧ servesAs (.trapEntry 0) aTrapAcc = some (.trap none, 0, 2, 0x30, .trapped) :=
  ⟨by decide +kernel, by decide +kernel, by decide +kernel⟩
/-- Mailboxes: unclaimed, held by this launch with 0, 1 and 16 values, and held by another. -/
def boxed (claim : CtxId × Nat) (n : Nat) : State := (x0 [(1, 7)]).modCore 0 fun c => { c with
  boxes := c.boxes.set 7 { claim := some claim, entries := List.replicate n { value := 1, at_ := 0 } } }
theorem wit_Mailboxes : (boxed (0, 1) 16).Clear tz ∧ ((boxed (0, 1) 16).here.boxes.get 7).claim = (boxed (0, 1) 16).claimant
    ∧ ((boxed (0, 1) 16).here.boxes.get 7).entries.length = 16 ∧ ((boxed (0, 1) 0).here.boxes.get 7).entries = []
    ∧ ((boxed (0, 2) 0).here.boxes.get 7).claim ≠ (boxed (0, 2) 0).claimant ∧ (x0 [(1, 8)]).getX 1 = 8 :=
  ⟨clear_of (by decide +kernel) (by decide +kernel) (by decide +kernel) (by decide +kernel), by decide +kernel, by decide +kernel,
   by decide +kernel, by decide +kernel, by decide +kernel⟩
/-- Discard: no byte, no multiple, past the end, unmapped, a page only in part, a whole one. -/
theorem wit_Discard : (mapped (x0 []) []).Clear tz ∧ ((mapped (x0 []) []).crew.outstanding .x).length < 16
    ∧ (mapped (x0 []) []).translateHere 0x80000000 .write = .fault 0x10
    ∧ (mapped (x0 []) []).translateHere 0x10000 .write = .ok (page 0x10000) ∧ 65536 < (page 0).leaf2.size
    ∧ okOf ((mapped (x0 []) []).discardLeaves 0x10000 0x20000) = none ∧ (mapped (x0 []) []).mem.bad (page 0).leaf2.at_ 8 = false
    ∧ (mapped (x0 []) []).discardLeaves 0 0x40000000 = .ok [{ leaf := (page 0).leaf2, key := some 0, pa := 0, size := 0x40000000 }] :=
  ⟨wit_GlobalLoads.1, by decide +kernel, by decide +kernel, by decide +kernel, by decide +kernel, by decide +kernel, by decide +kernel,
   by decide +kernel⟩
/-- A page of 65,536 bytes at 2^30, local at 2^20 or at peer 1, with one store there that nobody has published. -/
def small (far : Bool) (r : RemoteStore) : State :=
  let s := mapped (x0 [(1, 0x40000000), (2, 65536)]) [(0x2008, [1, 0x50]), (0x4008, [0x1F, 0, 0, 0x40]), (0x5000, [1, 0x60]),
    (0x6000, natLe 8 (0x10001F + if far then 2 ^ 52 + 2 ^ 53 else 0))]
  let s := s.modNpu fun n => { n with peers := [(1, 1)] }
  { s with mem := { s.mem with remote := [r], stores :=
    [{ id := 8, pa := 0x10FFF8, bytes := List.replicate 8 (some 1), key := none, writer := .seq 0 1 .x, pubs := [], under := none }] } }
/-- What the translation of the page gives: its level, its entry's place, where it lies, whether at a peer and at which. -/
def pageOf (t : Tr) : Option (Nat × Nat × Nat × Bool × Nat) :=
  match t with
  | .ok x => some (x.leaf2.level, x.leaf2.at_, x.pa, entryRem x.leaf2.entry, entryKey x.leaf2.entry)
  | .fault _ => none
def aLine : RemoteStore := { aFar (some 3) false (some 5) with pa := 0x100000 }
/-- GlobalLoads and GlobalStores of a page at peer 1: its line held, asked for by nobody, and refused; X's own store held. -/
def farPage (lines : List RemoteLine) (refusals : List GetRefusal) : State :=
  let s := small true { aFar none false none with pa := 0x100000 }
  { s with mem := { s.mem with refusals := refusals } }.modCore 0 fun c => { c with lines := lines }
def aView : RemoteLine := { peer := 1, pa := 0x100000, bytes := List.replicate 64 9, at_ := 0, has := [] }
def aRefusal : GetRefusal := { core := 0, crew := 0, role := .x, peer := 1, pa := 0x100000 }
theorem wit_GlobalLoads_far : (farPage [aView] []).Clear tz
    ∧ (∀ a ∈ [Access.read, .write], pageOf ((farPage [] []).translateHere 0x40000000 a) = some (4, 0x6000, 0x100000, true, 1))
    ∧ (farPage [aView] []).here.lines.find? (fun l => l.peer == 1 && l.pa == 0x100000) = some aView
    ∧ (farPage [] []).here.lines = [] ∧ (farPage [] []).mem.refusals = [] ∧ (farPage [] [aRefusal]).mem.refusals = [aRefusal] :=
  ⟨clear_of (by decide +kernel) (by decide +kernel) (by decide +kernel) (by decide +kernel), by decide +kernel, by decide +kernel, by decide +kernel,
   by decide +kernel, by decide +kernel⟩
/-- R189, R202: a load of a line that is held takes the line's bytes under X's own store. -/
theorem test_far_load : run (.ldn tz 3 5 1 0) (farPage [aView] []) (fun u => u.getX 5) = some 0x0909090909090901
    ∧ run (.ldn tz 3 5 1 0) (farPage [] []) (fun u => (u.pc, u.mem.gets.length)) = some (0, 1) := by decide +kernel
/-- Publication, Mailboxes and BarrierWords: a leaf's word that is uncorrectable, over a store of X's that a `discard` has taken. -/
theorem wit_Publication_bad : ∀ b ∈ [false, true],
    let s : State := x0 []
    ({ s with mem := { s.mem with badHbm := [0x2000 / 8], stores :=
      [{ id := 8, pa := 0x200000, bytes := [some 1], key := none, writer := .seq 0 0 .x, pubs := [], under := some (0x2000, 65536) }] } }
      : State).reviveBad b = true ∧ s.reviveBad b = false := by decide +kernel
theorem wit_GlobalStores_pub : (domX (aFar none false none)).Clear tz
    ∧ (domX (aFar none false none)).delivery (domX (aFar none false none)).remoteMine = .unsent
    ∧ (domX (aFar none false none)).mem.zerosOpen 1 0x200000 = false ∧ (aFar none false none).under = none
    ∧ (domX (aFar none false none)).admits .dom = true ∧ (domX (aFar none false none)).reviveBad true = false
    ∧ (domX (aFar none false none)).deadLeaves = [] :=
  ⟨clear_of (by decide +kernel) (by decide +kernel) (by decide +kernel) (by decide +kernel), by decide +kernel, by decide +kernel, by decide +kernel⟩
theorem wit_Discard_page : (small false aLine).Clear tz
    ∧ pageOf ((small false aLine).translateHere 0x40000000 .write) = some (4, 0x6000, 0x100000, false, 0)
    ∧ pageOf ((small true aLine).translateHere 0x40000000 .write) = some (4, 0x6000, 0x100000, true, 1)
    ∧ memWf (small false aLine).mem.hbm = true ∧ ((small true aLine).getX 2).toNat = 65536
    ∧ aLine.acked ≠ none ∧ (okOf ((small true aLine).discardLeaves 0x40000000 0x40010000)).map
        (fun l => l.any (small true aLine).putsOpen) = some false
    ∧ (okOf ((small true { aLine with acked := none }).discardLeaves 0x40000000 0x40010000)).map
        (fun l => l.any (small true { aLine with acked := none }).putsOpen) = some true :=
  ⟨clear_of (by decide +kernel) (by decide +kernel) (by decide +kernel) (by decide +kernel), by decide +kernel, by decide +kernel,
   by decide +kernel, by decide +kernel, by decide +kernel, by decide +kernel, by decide +kernel⟩
/-- BarrierWords: an object in the A-partition, its phase bit 1. -/
def barred : State := (x0 [(1, 0x40000), (2, 0), (3, 1), (4, 5)]).modCore 0 fun c => { c with pool := [(0x4000C, 1)] }
def aBar : BarRef := { core := 0, place := 0x40000, off := 0x40000 }
theorem wit_BarrierWords : barred.Clear tz ∧ (∀ b ∈ [false, true], barred.barRef (barred.getX 1) b = .ok aBar)
    ∧ (barred.core 0).bankLocked none 0x40000 16 = false ∧ (barred.core 0).poolBad 0x40000 16 = false
    ∧ (barred.core 0).barScope 0x40000 ≠ .dom ∧ scopeOf (5 / 2 ^ 24) = some .crew ∧ barred.admits .crew = true
    ∧ barred.here.barPending 0x40000 = false ∧ barred.here.barObj 0x40000 / 2 ^ 96 % 2 = 1 :=
  ⟨clear_of (by decide +kernel) (by decide +kernel) (by decide +kernel) (by decide +kernel), by decide +kernel, by decide +kernel,
   by decide +kernel, by decide +kernel, by decide +kernel, by decide +kernel, by decide +kernel, by decide +kernel⟩
/-- BarrierWords, the ways an object is not reached: a reserved bit, a place outside the A-partition, the first one inside it of a
peer that is not in the team; its bank locked; a word of it uncorrectable. -/
theorem wit_BarrierWords_checks : field (BitVec.ofNat 64 (2 ^ 56 + 0x40000) : XWord).toNat 62 56 ≠ 0
    ∧ trapIn (barred.barRef 0x3FFF0 false) = some 0x07 ∧ trapIn (barred.barRef (BitVec.ofNat 64 (2 ^ 63 + 2 ^ 48 + 0x40000)) false) = some 0x03
    ∧ trapIn (barred.barRef (BitVec.ofNat 64 (2 ^ 63 + 0x40000)) true) = some 0x03
    ∧ ((barred.modCore 0 fun c => { c with locks := (banksOf 0x40000 16).map fun b => (b, 5) }).core 0).bankLocked none 0x40000 16 = true
    ∧ ((barred.modCore 0 fun c => { c with badPool := [0x8001] }).core 0).poolBad 0x40000 16 = true
    ∧ (atomCheck barred.part 0x40008 16 16).isSome = true ∧ scopeOf (2 ^ 26 / 2 ^ 24) ≠ none ∧ barred.admits .dom = false := by decide +kernel
/-- BarrierWords at dom scope: everything delivered, a put unanswered, one refused; and a phase that completed at clock 3, no
earlier than a publication that its scope reaches. -/
def barX (r : RemoteStore) : State :=
  ((domX r).modCrew (xs [(1, 0x40000), (2, 0), (3, 1)])).modCore 0 fun c => { c with
    pool := [(0x4000C, 11)], bars := [{ BarSide.fresh 0x40000 with doneAt := some 3, cmdsDone := [4] }] }
theorem wit_BarrierWords_dom : (barX (aFar (some 3) false (some 5))).Clear tz ∧ (∀ r ∈ [aFar (some 3) false (some 5), aFar (some 3) false none, aFar (some 3) true none],
      okOf ((barX r).barRef 0x40000 false) = some aBar ∧ (barX r).here.barScope 0x40000 = .dom)
    ∧ (barX (aFar (some 3) false (some 5))).delivery (barX (aFar (some 3) false (some 5))).remoteMine = .delivered
    ∧ (barX (aFar (some 3) false none)).delivery (barX (aFar (some 3) false none)).remoteMine = .waiting
    ∧ (barX (aFar (some 3) true none)).delivery (barX (aFar (some 3) true none)).remoteMine = .refused 0x200000
    ∧ ((barX (aFar none false none)).here.barSide 0x40000).doneAt = some 3
    ∧ (barX (aFar none false none)).mem.stores.any (fun g => g.pubs.any fun p =>
        p.clock ≤ 3 && within p.scope p.spot (barX (aFar none false none)).spotHere
          && within .dom (barX (aFar none false none)).spotHere p.spot) = true :=
  ⟨clear_of (by decide +kernel) (by decide +kernel) (by decide +kernel) (by decide +kernel), by decide +kernel, by decide +kernel,
   by decide +kernel, by decide +kernel, by decide +kernel, by decide +kernel⟩
/-- BarrierUpdate: an update that completes its phase, and one that does not. -/
theorem wit_BarrierUpdate :
    (barUpdate 0 0 (2 ^ 32 + 1, BarSide.fresh 0) [.arrive]).1
      = 2 ^ 96 + 2 ^ 32 + 1
    ∧ (barUpdate 0 0 (2 ^ 33 + 2, BarSide.fresh 0) [.arrive]).1
      = 2 ^ 33 + 1 := by decide +kernel
/-- PushesAndTimeouts: a wait one clock above and at the limit; a push that is ready and fits. -/
def waiting (k : WaitKind) (clock : Nat) : State := { (crew0 .x fun c => { c with waitlim := 1024, seqX := { c.seqX with
  wait := some { kind := k, since := 0, held0 := 0 } } }) with cycle := clock }
def aPush : HeldPush := { at_ := 1, cmd := none, whole := false, toP := 0, toN := 1 }
theorem wit_PushesAndTimeouts :
    (∀ k ∈ [WaitKind.pops, .push, .barrier 5, .mailbox 3], (waiting k 1025).waitlim < (waiting k 1025).waited ⟨k, 0, 0⟩
      ∧ (waiting k 1024).waited ⟨k, 0, 0⟩ ≤ (waiting k 1024).waitlim ∧ (waiting k 0).seq.wait = some ⟨k, 0, 0⟩)
    ∧ (∀ clock ∈ [1024, 1025], ({ (crew0 .x fun c => { c with waitlim := 1024, seqX := { c.seqX with
        pushWait := some ⟨.push, 0, 0⟩ } }) with cycle := clock } : State).waited ⟨.push, 0, 0⟩ = clock)
    ∧ (crew0 .x fun c => { c with seqX := { c.seqX with held := [aPush] } }).crew.pushReady .x aPush = true
    ∧ (crew0 .x fun c => { c with seqX := { c.seqX with held := [aPush] } }).crew.pushFits .x aPush = true
    ∧ (fullQueue.modSeq fun q => { q with held := [aPush] }).crew.pushReady .x aPush = true
    ∧ (fullQueue.modSeq fun q => { q with held := [aPush] }).crew.pushFits .x aPush = false := by decide +kernel

/-! #### Casement, sampler, Hinge -/

/-- A grammar of one token and one state: its tables follow the header (Table 11.1). -/
def gramHdr : Nat := 0x47534D31 + 2 ^ 32 + 2 ^ 64 + 2 ^ 96 + 0xFFFFFFFF * 2 ^ 128 + 2 ^ 160 + 64 * 2 ^ 192 + 1088 * 2 ^ 224
  + 1152 * 2 ^ 256 + 1216 * 2 ^ 288 + 1280 * 2 ^ 320 + 1344 * 2 ^ 352
def aSgr : Sgr := { handle := 5, ctx := 0, gaddr := 0x100000, hdr := BitVec.ofNat 512 gramHdr, state := 0, top := 0, depth := 0,
                    fin := false, fail := false, ckpts := [], ckhead := 0, view := [] }
/-- The grammar in memory at 0x100000 and a sequence of it, its token spelled by the byte 0. -/
def gram (g : Sgr) : State :=
  (mapped (x0 [(1, 5), (2, 0), (3, 0x100000), (4, 0x200000), (6, 0x20000 + 0x40000 * 2 ^ 32)])
    [(0x100000, natLe 64 gramHdr), (0x100503, [1])]).modDie 0 fun d => { d with sgrs := [g] }
theorem clear_gram : (gram aSgr).Clear tz :=
  clear_of (by decide +kernel) (by decide +kernel) (by decide +kernel) (by decide +kernel)
theorem wit_SequenceWords : (gram aSgr).cur.role ≠ .fw ∧ (gram aSgr).dieHere.sgr? 5 = some aSgr ∧ aSgr.ctx = (gram aSgr).crew.ctx
    ∧ (gram aSgr).dieHere.masks = [] ∧ okOf ((gram aSgr).casAccepts aSgr) = some false
    ∧ (okOf ((gram aSgr).casAdvance (gram aSgr).dieHere aSgr 0)).map (fun p => p.1) = some 0
    ∧ 0 < ghV aSgr.hdr ∧ (gram aSgr).recRoom (gram aSgr).dieHere 0 = true ∧ (gram aSgr).dieHere.sgr? 6 = none
    ∧ poolCheck (gram aSgr).part 0x20000 (maskBytes aSgr.hdr) 64 = none ∧ atomCheck (gram aSgr).part 0x40000 16 16 = none := by
  decide +kernel
/-- A sequence at its end, and a context that may have no record. -/
theorem wit_SequenceWords_ends : (gram { aSgr with fin := true }).dieHere.sgr? 5 = some { aSgr with fin := true }
    ∧ ((gram aSgr).modCtx 0 fun c => { c with params := 0 }).recRoom (gram aSgr).dieHere 0 = false
    ∧ ((gram aSgr).dieHere.sgr? 5).map (fun g => g.ctx) ≠ some 1 := by decide +kernel
/-- Words that wait: behind a word of crew 1, and on a mask of the handle; a crew that waits is not behind itself. The firmware
context has no sequence. -/
theorem wit_SequenceWords_waits :
    let behind (k : CrewIx) : State := (gram aSgr).modDie 0 fun d => { d with waits := [{ core := 0, crew := k }] }
    (behind 1).gBehind (behind 1).dieHere = true ∧ (gram aSgr).gBehind (gram aSgr).dieHere = false
    ∧ (behind 0).gBehind (behind 0).dieHere = false ∧ (behind 0).dropGWait.dieHere.waits = []
    ∧ (behind 1).dropGWait.dieHere.sgr? 5 = some aSgr ∧ (crew0 .fw fun c => c).cur.role = .fw := by decide +kernel
/-- `gnew`: the header in memory is good, that of empty memory bad. -/
theorem wit_SequenceWords_new :
    okOf ((gram aSgr).casBytes .walk 0 [] 0x100000 64) = some (natLe 64 gramHdr) ∧ headerBad (BitVec.ofNat 512 gramHdr) = false
    ∧ okOf ((gram aSgr).casBytes .walk 0 [] 0x200000 64) = some (List.replicate 64 0) ∧ headerBad 0 = true := by decide +kernel
/-- MaskCompletion: a mask of the sequence that completes, one of an image that nothing maps, and one after `fin`. -/
def aMask : GMask := { core := 0, crew := 0, handle := 5, off := 0x20000, bar := 0x40000 }
def masked (g : Sgr) : State := (gram g).modDie 0 fun d => { d with masks := [aMask] }
theorem wit_MaskCompletion : ((masked aSgr).dies.get 0).masks.find? (fun q => q.handle == 5) = some aMask
    ∧ ((masked aSgr).core 0).lockedFor none 0x20000 (maskBytes aSgr.hdr) = false ∧ memWf ((masked aSgr).core 0).pool = true
    ∧ ((masked aSgr).casMask ((masked aSgr).dies.get 0) aSgr).map okOf = some (some 0)
    ∧ ((masked aSgr).casMask ((masked aSgr).dies.get 0) { aSgr with gaddr := 2 ^ 40 }).map okOf = some none
    ∧ ((masked aSgr).casMask ((masked aSgr).dies.get 0) { aSgr with fin := true }).map okOf = some (some 0) := by decide +kernel
/-- SamplerWords: a request of one draw stage over one logit, and one of no stage. -/
def request : Nat := 0x20080 * 2 ^ 160 + 2 ^ 128 + 0x20040 * 2 ^ 192 + 2 ^ 224
def aDraw : Draw := { id := 7, rd := 3, off := 0x20000, tokP := [], tokN := [], toP := 0, toN := 0 }
def drawing (r : Nat) : State :=
  ((crew0 .x fun c => { c with draw := some aDraw }).modCore 0 fun c => { c with
    pool := memSets (memSets [] 0x20000 (natLe 32 r)) 0x20040 [6] }).modDie 0 fun d => { d with
    draws := [{ core := 0, crew := 0, id := 7 }] }
def servedAs (o : Served) : Option (Nat × Nat) :=
  match o with
  | .token t st => some (t, st)
  | .refused n => some (n, 99)
  | _ => none
theorem wit_SamplerWords : poolCheck (x0 []).part 0x20000 32 32 = none ∧ (x0 []).crew.draw = none
    ∧ (drawing request).crew.draw = some aDraw ∧ (drawing request).seq.loops = []
    ∧ servedAs (serve ((drawing request).core 0) part0 0x20000 fun t => leNat ((List.range 4).map fun i =>
        Config.freeByte (drawing request).tick (4 * t + i))) = some (0, 0)
    ∧ servedAs (serve ((drawing 0).core 0) part0 0x20000 fun t => leNat ((List.range 4).map fun i =>
        Config.freeByte (drawing 0).tick (4 * t + i))) = some (2, 99) := by decide +kernel
/-- A core whose pool holds a request with the stage block of kind `kind` and the logits −1, 2 and 2. -/
def askedOf (r block : Nat) : Served :=
  let logits := natLe 4 0xBF800000 ++ natLe 4 0x40000000 ++ natLe 4 0x40000000
  let pool := memSets (memSets (memSets [] 0x20000 (natLe 32 r)) 0x20040 (natLe 32 block)) 0x20080 logits
  serve { Core.reset with pool := pool } part0 0x20000 fun _ => 0
/-- The draw of Table 11.9, each reason at its boundary: V 0 and 262,145, no stage and nine, a reserved bit in the request and in
the block, one in bits [63:32] of a kind of 7 or above, misaligned logits, logits that end one element past the allotment, a kind after
which no draw comes; and the draw:
the lower token of the two greatest scores, and V with status 1 where every logit is −inf or a NaN. -/
def asked (v logits stages : Nat) : Nat := v * 2 ^ 128 + logits * 2 ^ 160 + 0x20040 * 2 ^ 192 + stages * 2 ^ 224
theorem wit_SamplerWords_serve :
    ([(asked 3 0x20080 1 + 2 ^ 232, 6), (asked 3 0x20080 0, 6), (asked 3 0x20080 9, 6), (asked 3 0x20080 1, 22),
      (asked 0 0x20080 1, 6), (asked 262145 0x20080 1, 6), (asked 3 0x20084 1, 6), (asked 3 0x20080 1, 7),
      (asked 3 0x20080 1, 7 + 2 ^ 32),
      (asked 0xE0001 0x20080 1, 6), (asked 3 0xFFFC0 1, 6), (asked 17 0xFFFC0 1, 6), (asked 3 0x20080 1, 6)].map
      fun q => servedAs (askedOf q.1 q.2))
    = [some (1, 99), some (2, 99), some (2, 99), some (1, 99), some (3, 99), some (3, 99), some (4, 99), some (5, 99), some (1, 99),
       some (3, 99), some (0, 0), some (6, 99), some (1, 0)]
    ∧ drawToken false 0 0 [0xFF800000, 0x7FC00000] = (2, 1) := by decide +kernel
/-- EdgeOps: an evaluation. -/
def anEval : HingeEval := { finished := false, target := 0, index := 0, e := Vector.replicate 16 0, result := none, counted := false }
theorem wit_EdgeOps : (crew0 .hinge fun c => { c with hinge := { HingeRun.idle with eval := some anEval } }).crew.hinge.eval
    = some anEval := by decide +kernel
/-- HingeWords: a graph of one vertex, a run of one superstep, and the program of Table 12.5. -/
def graph : Nat := 2 ^ 336 + 2 ^ 368 + 0x40000 * 2 ^ 389 + 0x20200 * 2 ^ 412
def runD : Nat := 0x20100 + 2 ^ 40 + 2 ^ 56 + 2 ^ 72
def program : List W32 := [0x13800001, 0x1B0B8000, 0x70300000, 0x14803FFF, 0x641C8002, 0x78400000, 0x00000000]
def hingePool : Memory :=
  memSets (memSets (memSets [] 0x20000 (natLe 64 graph)) 0x20040 (natLe 64 runD)) 0x20100 (program.flatMap wordBytes)
def hinged (st : HingeState) : State :=
  (crew0 .x fun c => { (xs [(1, 0x20000), (2, 0x20040), (3, 0x40100)] c) with
    pair := some (0x20000, 0x20040), hinge := { HingeRun.idle with state := st } }).modCore 0 fun c => { c with pool := hingePool }
def bytesOf (r : PoolRead) : Option (List Byte) :=
  match r with
  | .bytes b => some b
  | .locked | .trap _ => none
theorem wit_HingeWords : (hinged .idle).crew.hinge.state = .idle ∧ (hinged .running).crew.hinge.state = .running
    ∧ okOf ((hinged .idle).barRef 0x40100 false) = some { core := 0, place := 0x40100, off := 0x40100 }
    ∧ bytesOf ((hinged .idle).poolRead 0x20000 64 64) = some (natLe 64 graph)
    ∧ bytesOf ((hinged .idle).poolRead 0x20040 64 64) = some (natLe 64 runD)
    ∧ graphBad part0 (BitVec.ofNat 512 graph) (BitVec.ofNat 512 runD) (hinged .idle).hgPos (hinged .idle).teamSize = false
    ∧ runBad part0 (BitVec.ofNat 512 runD) = false ∧ (hinged .idle).here.lockedFor none 0x20100 256 = false
    ∧ (hinged .idle).here.poolBad 0x20100 256 = false
    ∧ scanProgram .message 0 ((List.range 64).map fun i => bytesWord (memGets (hinged .idle).here.pool (0x20100 + 4 * i) 4)) = none := by
  decide +kernel
/-- HingeWords, `hstat` 4: the sums of the last superstep, the first one's frontier, and no run. -/
theorem wit_HingeWords_nf : ({ HingeRun.idle with nf := some 3 } : HingeRun).nf = some 3
    ∧ ({ HingeRun.idle with first := some 2 } : HingeRun).nf = none ∧ HingeRun.idle.nf = none ∧ HingeRun.idle.first = none
    ∧ HingeRun.idle.state = .idle := by decide
theorem clear_hinged : (hinged .idle).Clear tz ∧ (hinged .running).Clear tz :=
  ⟨clear_of (by decide +kernel) (by decide +kernel) (by decide +kernel) (by decide +kernel),
   clear_of (by decide +kernel) (by decide +kernel) (by decide +kernel) (by decide +kernel)⟩
/-- HingeRuns: a run at each of its phases, its barrier at 0x40100. -/
def runAt (p : HingePhase) (fault : Bool) (obj : Nat) : State :=
  (mapped (crew0 .hinge fun c => { c with pair := some (0x20000, 0x20040), hinge := { HingeRun.idle with
    state := .running, phase := p, fault := fault, gd := BitVec.ofNat 512 graph, rd := BitVec.ofNat 512 runD, bar := 0x40100 } })
    []).modCore 0 fun c => { c with hingeCur := some 0, pool := memSets [] 0x40100 (natLe 16 obj) }
def valOf (r : HgRead) : Option Nat :=
  match r with
  | .val v | .loaded v _ _ => some v
  | .fault | .waits _ | .stop => none
theorem wit_HingeRuns : okOf ((runAt .ready false 0).barRef 0x40100 false) = some { core := 0, place := 0x40100, off := 0x40100 }
    ∧ (runAt .ready false 0).hgTakes = true ∧ (runAt .ready false 0).hgLocked = false ∧ (runAt (.edges 1 0) false 0).hgV ≤ 1
    ∧ (runAt (.edges 1 0) false 0).hgTakes = true ∧ (runAt (.finalize 0) true 0).hgFinalizes = true
    ∧ (runAt (.finalize 2) false 0).hgFinalizes = true ∧ (runAt (.finalize 2) false 0).hgV = 1
    ∧ valOf ((runAt (.finalize 2) false 0).hgBitmap true) = some 0 ∧ memWf (runAt (.finalize 2) false 0).here.pool = true
    ∧ (runAt (.finalize 2) false 0).here.lockedFor none 0x20200 128 = false := by decide +kernel
theorem wit_HingeRuns_ends : (runAt .phase false (2 ^ 96)).hgActive = true ∧ (runAt .phase false (2 ^ 96)).hgLocked = false
    ∧ ((runAt .phase false (2 ^ 96)).core 0).barPending 0x40100 = false
    ∧ field (((runAt .phase false (2 ^ 96)).core 0).barObj 0x40100) 96 96 = 1
    ∧ (runAt .phase false (2 ^ 96)).crew.hinge.ended = none
    ∧ (∀ fail ∈ [false, true], ((runAt .phase false 0).modCrew fun c => { c with
        hinge := { c.hinge with ended := some (7, fail, .dev) } }).crew.hinge.ended = some (7, fail, .dev))
    ∧ ∀ k ∈ [0, 8, 16], valOf ((runAt .phase false (2 ^ 96)).hgLoad k 8) = some 0 := by decide +kernel
/-- A graph of one vertex with its arrays 64 bytes apart from 0x200000 on: csro, csrt, csco, csci, oval, oact, tstat; no weights. -/
def graph2 : Nat := graph + 0x8000 + 0x8001 * 2 ^ 42 + 0x8002 * 2 ^ 126 + 0x8003 * 2 ^ 168 + 0x8004 * 2 ^ 252 + 0x8005 * 2 ^ 294
  + 0x8006 * 2 ^ 435
/-- A run on it: its mode, its phase and evaluation, the row pointers' second words, the edge's other end, `fcur`, `fnext`, `oact`. -/
def edgeRun (pull : Bool) (p : HingePhase) (v : Option HingeEval) (row : Byte × Byte) (other fcur fnext act : Byte) : State :=
  (mapped (crew0 .hinge fun c => { c with pair := some (0x20000, 0x20040), hinge := { HingeRun.idle with
    state := .running, pull := pull, phase := p, eval := v, gd := BitVec.ofNat 512 graph2, rd := BitVec.ofNat 512 runD, bar := 0x40100 } })
    [(0x200000, [row.1, 0, 0, 0, row.2]), (0x200040, [other]), (0x200080, [row.1, 0, 0, 0, row.2]), (0x2000C0, [other]),
     (0x200140, [act])]).modCore 0 fun c => { c with hingeCur := some 0, pool := memSets (memSets [] 0x20200 [fcur]) 0x20240 [fnext] }
/-- A graph word that is loaded from memory. -/
def loadedOf (r : HgRead) : Option Nat :=
  match r with
  | .loaded v _ _ => some v
  | .val _ | .fault | .waits _ | .stop => none
/-- A range that is neither locked nor bad, and its little-endian value. -/
def heldOf (s : State) (off n : Nat) : Option Nat :=
  let place := poolPlace s.crew.part off
  if s.here.lockedFor none place n || s.here.poolBad place n then none else some (leNat (memGets s.here.pool place n))
def rowOf (pull : Bool) (va : Nat) (r : Byte × Byte) : Option Nat × Option Nat :=
  let s := edgeRun pull (.edges 0 1) none r 0 1 0 1
  (loadedOf (s.hgLoad va 4), loadedOf (s.hgLoad (va + 4) 4))
def edgesOf (s : State) : Option HingePhase × Bool × Bool × Nat := (some s.hgRun.phase, s.hgRun.mode, s.hgTakes, s.hgV)
/-- HingeRuns, push: the vertex in and out of the frontier; its row falling, ended, and with an edge; the edge's target past and
within the graph; its origin's value. -/
theorem wit_HingeRuns_push :
    edgesOf (edgeRun false (.edges 0 0) none (0, 1) 0 1 0 0) = (some (.edges 0 0), false, true, 1)
    ∧ heldOf (edgeRun false (.edges 0 0) none (0, 1) 0 1 0 0) 0x20200 1 = some 1
    ∧ heldOf (edgeRun false (.edges 0 0) none (0, 1) 0 0 0 0) 0x20200 1 = some 0
    ∧ ((edgeRun false (.edges 0 0) none (0, 1) 0 0 0 0).modCore 0 fun c => { c with badPool := [0x20200 / 8] }).here.poolBad 0x20200 1
      = true
    ∧ ([(0, 1), (0, 0), (1, 0)].map (rowOf false 0x200000)) = [(some 0, some 1), (some 0, some 0), (some 1, some 0)]
    ∧ (∀ t ∈ [(0 : Byte), 1], loadedOf ((edgeRun false (.edges 0 0) none (0, 1) t 1 0 0).hgLoad 0x200040 4) = some t.toNat)
    ∧ gdNtot (BitVec.ofNat 512 graph2) = 1 ∧ gdCsrw (BitVec.ofNat 512 graph2) = 0
    ∧ loadedOf ((edgeRun false (.edges 0 0) none (0, 1) 0 1 0 0).hgLoad 0x200100 4) = some 0 :=
  ⟨by decide +kernel, by decide +kernel, by decide +kernel, by decide +kernel, by decide +kernel, by decide +kernel, by decide +kernel, by decide +kernel, by decide +kernel⟩
/-- HingeRuns, pull: the finished part's entry, the in-edges of the vertex and whether their origin is active. -/
theorem wit_HingeRuns_pull :
    edgesOf (edgeRun true (.edges 0 0) none (0, 1) 0 0 0 1) = (some (.edges 0 0), true, true, 1)
    ∧ heldOf (edgeRun true (.edges 0 0) none (0, 1) 0 0 0 1) 0x40000 4 = some 0
    ∧ ([(0, 1), (0, 0), (1, 0)].map (rowOf true 0x200080)) = [(some 0, some 1), (some 0, some 0), (some 1, some 0)]
    ∧ (∀ t ∈ [(0 : Byte), 1], loadedOf ((edgeRun true (.edges 0 1) none (0, 1) t 0 0 1).hgLoad 0x2000C0 4) = some t.toNat)
    ∧ ∀ t ∈ [(0 : Byte), 1], loadedOf ((edgeRun true (.edges 0 1) none (0, 1) 0 0 0 t).hgLoad 0x200140 1) = some t.toNat :=
  ⟨by decide +kernel, by decide +kernel, by decide +kernel, by decide +kernel, by decide +kernel⟩
/-- HingeRuns, combines: a message uncounted and counted for vertex 0, in push and in pull; and a finished part's end. -/
theorem wit_HingeRuns_combine : ∀ pull ∈ [false, true], ∀ v ∈ [{ anEval with result := some 7, counted := true },
      { anEval with result := some 7 }, { anEval with result := some 0, finished := true }],
    let s := edgeRun pull (.edges 0 1) (some v) (0, 1) 0 1 0 1
    s.hgTakes = true ∧ s.hgLocked = false ∧ s.hgOwner v.target = some (0, 0, 0, 0) ∧ memWf s.here.pool = true
    ∧ heldOf s 0x40000 4 = some 0 ∧ (s.hgFrontOf 0 0 0).map (poolPlace s.crew.part) = some 0x20240 ∧ heldOf s 0x20240 1 = some 0 := by
  decide +kernel
/-- HingeRuns: the end of a finished part between a pull's combine and its next edge, and an owner whose graph nobody knows. -/
theorem wit_HingeRuns_check :
    (∀ v ∈ [none, some { anEval with result := some 0, finished := true }],
      let s := edgeRun true (.check 0 0) v (0, 1) 0 1 0 1
      s.hgTakes = true ∧ s.hgRun.mode = true ∧ s.hgRun.phase = .check 0 0 ∧ heldOf s 0x40000 4 = some 0)
    ∧ ((edgeRun false (.edges 0 1) none (0, 1) 0 1 0 1).modCrewAt 0 0 fun c =>
        { c with hinge := { c.hinge with state := .idle }, pair := none }).hgFrontOf 0 0 0 = none := by decide +kernel
/-- HingeRuns, the finalize: a changed and an unchanged vertex, the activity byte, the frontier, the statistics of the vertex before
and after its finished part, the four words of the record and the end; a page that takes a store, and none. -/
theorem wit_HingeRuns_finalize :
    (∀ i ∈ [0, 1, 2, 3, 4, 7, 8], (edgeRun false (.finalize i) none (0, 1) 0 1 1 0).hgFinalizes = true)
    ∧ (∀ f ∈ [(0 : Byte), 1], heldOf (edgeRun false (.finalize 0) none (0, 1) 0 1 f 0) 0x20240 1 = some f.toNat)
    ∧ heldOf (edgeRun false (.finalize 0) none (0, 1) 0 1 1 0) 0x40000 4 = some 0
    ∧ heldOf (edgeRun false (.finalize 1) none (0, 1) 0 1 1 0) 0x20240 1 = some 1
    ∧ (heldOf (edgeRun false (.finalize 2) none (0, 1) 0 1 1 0) 0x20200 128).isSome = true
    ∧ (edgeRun false (.finalize 2) none (0, 1) 0 1 1 0).hgF = 64
    ∧ ((edgeRun false (.finalize 3) (some { anEval with result := some 1, finished := true }) (0, 1) 0 1 1 0).hgRun.eval.map
        HingeEval.result) = some (some 1)
    ∧ (∀ va ∈ [0x200100, 0x200140, 0x200180, 0x200198],
        (edgeRun false (.finalize 0) none (0, 1) 0 1 1 0).translate (.tlb 5) 0 va .write = .ok (page va))
    ∧ ((edgeRun false (.finalize 0) none (0, 1) 0 1 1 0).modCtx 0 fun c => { c with root1 := none }).translate (.tlb 5) 0 0x200100 .write
      = .fault 0x10
    ∧ (edgeRun false (.finalize 8) none (0, 1) 0 1 1 0).mem.remote = [] := by decide +kernel

/-! #### Vector words -/

/-- C with a shape whose count is its capacity, in each packing, and one of FP32. -/
theorem wit_VectorElements : (v0 0x8040 []).Clear tz ∧ (v0 0x8040 []).crew.mq.length < 16 ∧ typeInt (v0 0x8040 []).shape.ty = true
    ∧ typeInt (v0 0x0040 []).shape.ty = false ∧ (v0 0x0040 []).shape.pack = 0 ∧ (v0 0xA900 []).shape.pack = 2
    ∧ (v0 0xA900 []).shape.cnt = (v0 0xA900 []).shape.cap :=
  ⟨clear_of (by decide +kernel) (by decide +kernel) (by decide +kernel) (by decide +kernel), by decide +kernel, by decide +kernel,
   by decide +kernel, by decide +kernel, by decide +kernel, by decide +kernel⟩
theorem wit_VectorSelections : (v0 0x0040 []).Clear tz ∧ cvtTarget 10 = true ∧ cvtTarget 11 = false
    ∧ (v0 0x0040 []).shape.cnt ≤ 2048 / typeWidth 10 ∧ sumType (v0 0x0040 []).shape = true :=
  ⟨clear_of (by decide +kernel) (by decide +kernel) (by decide +kernel) (by decide +kernel), by decide +kernel, by decide +kernel,
   by decide +kernel, by decide +kernel⟩
/-- VectorSettings and VectorMemory: a port of 64 FP32 elements, one apart, at 0x20100. -/
def record : BitVec 128 := BitVec.ofNat 128 (4 + 64 * 2 ^ 72 + 2 ^ 88 + 2 ^ 104)
def ported : State :=
  let port : Port := { active := true, base := 0x20100, record := record, pos := 0 }
  (crew0 .c fun c => { (as_ [(1, 0x20100), (2, 0x20000)] c) with ports := c.ports.set 0 port }).modCore 0
    fun c => { c with pool := memSets [] 0x20000 (natLe 16 record.toNat) }
theorem wit_VectorSettings : ported.Clear tz ∧ bytesOf (ported.poolRead 0x20000 16 16) = some (natLe 16 record.toNat)
    ∧ portConfig ported.part 0x20100 record = none :=
  ⟨clear_of (by decide +kernel) (by decide +kernel) (by decide +kernel) (by decide +kernel), by decide +kernel, by decide +kernel⟩
theorem wit_VectorMemory : ported.shape.pack ≤ 2 ∧ ported.shape.cnt ≤ ported.shape.cap ∧ vmCheck ported.part 0x20100 = none
    ∧ vmCheck ported.part (0x100000 - 256) = none ∧ memWf ported.here.pool = true
    ∧ (∀ k < 64, poolCheck ported.part (0x20100 + 4 * k) 4 4 = none ∧ ported.here.lockedFor none (0x20100 + 4 * k) 4 = false
        ∧ ported.here.poolBad (0x20100 + 4 * k) 4 = false)
    ∧ (ported.crew.ports.get 1).active = false ∧ (ported.crew.ports.get 0).active = true
    ∧ recEsz (ported.crew.ports.get 0).record = ported.shape.pack ∧ ported.shape.cnt ≤ (ported.crew.ports.get 0).left
    ∧ ∀ k < 64, (ported.crew.ports.get 0).addr k = 0x20100 + 4 * k := by decide +kernel
/-- VectorMemory, a write port: idle, of another element size, with one element too few, and with room for all. -/
def writePort (esz n : Nat) : Port :=
  { active := true, base := 0x20400, record := BitVec.ofNat 128 (4 + n * 2 ^ 72 + 2 ^ 88 + 2 ^ 104 + esz * 2 ^ 120), pos := 0 }
def written (esz n : Nat) : State := ported.modCrew fun c => { c with ports := c.ports.set 4 (writePort esz n) }
theorem wit_VectorMemory_write : (ported.crew.ports.get 4).active = false ∧ ((written 1 64).crew.ports.get 4).active = true := by
  decide +kernel
theorem wit_VectorMemory_write_room : recEsz ((written 1 64).crew.ports.get 4).record ≠ ported.shape.pack
    ∧ recEsz ((written 0 63).crew.ports.get 4).record = ported.shape.pack ∧ ((written 0 63).crew.ports.get 4).left < ported.shape.cnt
    ∧ ported.shape.cnt ≤ ((written 0 64).crew.ports.get 4).left
    ∧ ∀ k < 64, ((written 0 64).crew.ports.get 4).addr k = 0x20400 + 4 * k ∧ poolCheck ported.part (0x20400 + 4 * k) 4 1 = none
        ∧ (written 0 64).here.lockedFor none (0x20400 + 4 * k) 4 = false := by decide +kernel

/-- Repetition: what follows the `vrep` at the pc. -/
def repOn (target : Instr) (f : Crew → Crew) : State :=
  (State.reset.placeSeq .c 0).modCrewAt 0 0 (fun c => f { c with
    part := part0, seqC := { c.seqC with
      line := some (placeAt, wordBytes 0x0AC0D400 ++ wordBytes (encode target) ++ List.replicate 56 0) } }) |>.actAs 0 0 .c
def repeating (next : Nat) : State :=
  repOn repTarget fun c => { c with repRun := some { next := next, total := 3, target := repTarget, toksP := [], toksN := [] } }
/-- How a repetition ends: done, or in a trap of which code. -/
def endOf (v : Option V3) (s : State) : Option (BitVec 8) :=
  match v with
  | some v => (match v s with
    | .done _ => some 0
    | .trap t => some t.code
    | _ => none)
  | none => none
/-- The first repetition: of 26, which bring the name v30 to v55, and of 27, one too many; resumed with all, one and none of three
left, and with four of three; a target that is no V3 word, one past the code, and one that traps. -/
theorem wit_Repetition : (repOn repTarget id).cur.role = .c ∧ (repOn repTarget id).crew.badRegs = []
    ∧ targetOf (repOn repTarget id).vrepTarget = some repTarget
    ∧ (repOn repTarget id).repCheck 26 { d := 1, a := 1, b := 1 } repTarget = none
    ∧ ((repOn repTarget id).repCheck 27 { d := 1, a := 1, b := 1 } repTarget).isSome = true
    ∧ (∀ q ∈ [(3, true), (1, true), (0, true), (4, false)],
        ((repOn repTarget fun c => { c with rep := BitVec.ofNat 32 (2 ^ 31 + q.1) }).repCheck 3 { d := 1, a := 1, b := 1 } repTarget).isNone
          = q.2)
    ∧ (repOn repTarget id).popsReady { p := 0, n := 0 } = true ∧ (repOn repTarget id).creditFull { p := 0, n := 0 } = false
    ∧ (repOn repTarget id).seq.loops = [] ∧ endOf (v3At 0 0 0 repTarget) (repOn repTarget id) = some 0
    ∧ endOf (v3At 0 0 0 (.vshl tz 0 (.reg 1) (.reg 2) (.reg 3))) (repOn (.vshl tz 0 (.reg 1) (.reg 2) (.reg 3)) id) = some 0x02 := by
  decide +kernel
def otherOf (t : Target) : Option XWord :=
  match t with
  | .other => some 0
  | .perm a => some a
  | .v3 _ | .ecc _ | .stop _ => none
theorem wit_Repetition_target : otherOf (repOn .nop id).vrepTarget = some 0
    ∧ otherOf (repOn repTarget fun c => { c with seqC := { c.seqC with pc := placeAt + 60 } }).vrepTarget = some (placeAt + 64) := by
  decide +kernel
/-- Repetition: the first and the last of three in progress, and what each is. -/
theorem wit_Repetition_run : ∀ n ∈ [0, 2], (repeating n).cur.role = .c ∧ (repeating n).crew.creditL.length ≤ 255
    ∧ (repeating n).crew.badRegs = [] ∧ (v3At n n 0 repTarget).isSome = true ∧ (repeating n).shape.ty = 0
    ∧ (repeating n).seq.loops = [] := by decide +kernel

/-- Repetition, its completion: none of the count in the prefix, one and two of `vadd v24, v30, v0`, and the last names that fit. -/
theorem wit_Repetition_completes : (repOn repTarget id).crew.mq.length < 16 ∧ (repOn repTarget id).crew.repRun = none
    ∧ (repOn repTarget id).shape.ty = 0 ∧ (repOn repTarget id).crew.rep.getLsbD 31 = false ∧ 24 + (26 - 1) * 1 ≤ 55 ∧ 30 + (26 - 1) * 1 = 55
    ∧ ∀ n ∈ [(0 : BitVec 8), 1, 2], run (.vrep tz n 1 1 0) (repOn repTarget id) (fun u => (u.pc, u.crew.repRun.map fun r => (r.next, r.total)))
      = some (if n = 2 then (placeAt, some (1, 2)) else (placeAt + 8, none)) := by decide +kernel

/-! #### Matrix words and transfers -/

/-- A BF16 ring of two slots of one row by 32 columns, an FP32 tile of one element, a drain of it to FP32. -/
def ringImg (base : Nat) : Image := BitVec.ofNat 512 (base + 64 * 2 ^ 24 + 2 * 2 ^ 48 + 2 ^ 56 + 0x20000 * 2 ^ 104)
def tileImg : Image := BitVec.ofNat 512 0x40000
def drainImg : Image := BitVec.ofNat 512 (0x20040 + 0x3F800000 * 2 ^ 64)
/-- C with rings 0 and 1, tile 0 and drain 0 set, a lease held, and what a test sets besides. -/
def mat (f : Crew → Crew) : State :=
  mapped (crew0 .c fun c =>
    let ring (k : Nat) : Ring := { Ring.unset with img := ringImg k, set := true, tail := 1, resv := 1 }
    let c := as_ [(1, 0x40000), (2, 0x20080), (3, 0x200000), (4, 0x200010)] c
    f { c with rings := (c.rings.set 0 (ring 0x30000)).set 1 (ring 0x30100)
               tiles := c.tiles.set 0 { Tile.unset with img := tileImg, set := true }
               drains := c.drains.set 0 { img := drainImg, set := true }
               lease := { Lease.idle with held := true } }) [(0x200000, natLe 64 drainImg.toNat)]
def mat0 : State := mat id
theorem clear_mat : mat0.Clear tz :=
  clear_of (by decide +kernel) (by decide +kernel) (by decide +kernel) (by decide +kernel)
/-- A matrix word in flight. -/
def aMma : MatCmd := { id := 9, op := .mma false 0 0 1 1 true false, pc := 0, before := mat0.cPoint, addr := 0, glist := [], slot := none, stocked := true, done := 0,
                       chunk := none, wants := false, start := 0, ends := 0, clean := true }
theorem wit_RestartPoint : mat0.cur.role = .c ∧ mat0.crew.mq = [] ∧ (mat fun c => { c with mq := [aMma] }).crew.mq ≠ []
    ∧ (mat fun c => { c with mq := [aMma] }).popsReady (popsOf tz) = true := by decide +kernel
/-- MatrixSettings: each clause's state. -/
theorem wit_MatrixSettings : mat0.descriptor .tile 0 = some tileImg ∧ fieldValue .tile 0 0x40000 = some (22, 0, 0x40000)
    ∧ descCheck .tile mat0.part (BitVec.ofNat 512 (setField tileImg.toNat 22 0 0x40000)) = none
    ∧ mat0.descriptor .tile 1 = none ∧ mat0.crew.ringNamed 0 = false ∧ descCheck .ring mat0.part (ringImg 0x30000) = none
    ∧ mat0.translateHere 0x200000 .read = .ok (page 0x200000)
    ∧ mat0.mem.loads (mat0.doPops (popsOf tz)).seesHere (some 0) 0x200000 64 = natLe 64 drainImg.toNat
    ∧ reservedBits .drain drainImg.toNat = false ∧ descCheck .drain mat0.part drainImg = none ∧ (0x200010 : Nat) % 64 ≠ 0
    ∧ mat0.mem.bad 0x200000 64 = false := by decide +kernel
theorem wit_MatrixSettings_rest : bytesOf (mat0.poolRead 0x20080 64 64) = some (List.replicate 64 0)
    ∧ trailAllowed (mat0.ctx 0).contract false 0 = true ∧ trailAllowed (mat0.ctx 0).contract false (BitVec.ofNat 512 (2 ^ 131)) = false
    ∧ mat0.crew.check.valid = false ∧ (mat0.ring 0).head < (mat0.ring 0).tail ∧ (mat0.ring 2).set = false
    ∧ (mat fun c => { c with check := { img := 0, valid := true, tile := 0, used := false } }).crew.check.tile = 0
    ∧ 6 ≤ partNa mat0.part ∧ partNa (0x00050101 : XWord) < 6 ∧ mat0.crew.lease.held = true ∧ mat0.crew.lease.ending = none
    ∧ (c0 []).crew.lease.held = false := by decide +kernel
/-- MatrixSettings: check tags that are allowed and that are not, in force for tile 0. -/
def checking (img : Image) : State := mat fun c => { c with check := { img := img, valid := true, tile := 0, used := false } }
theorem wit_MatrixSettings_chk : (checking 0).crew.check.valid = true ∧ ((checking 0).tile 0).set = true
    ∧ (checking 0).crew.bestEffort ((checking 0).ctx 0).contract = true ∧ trailAllowed ((checking 0).ctx 0).contract true 0 = true
    ∧ trailAllowed ((checking 0).ctx 0).contract true (BitVec.ofNat 512 (2 ^ 131)) = false := by decide +kernel
/-- MatrixWords: words whose checks pass, one whose checks fail, and a tile whose checksums do not hold. -/
def badSum : State := mat0.modCore 0 fun c => { c with pool := memSets [] 0x40000 (natLe 4 0x3F800000) }
theorem wit_MatrixWords : mat0.mmaCheck false 0 0 1 1 true = none ∧ mat0.leaseCheck = none ∧ (mat0.mmaCheck false 1 0 1 1 true).isSome
    ∧ (mat0.tile 1).set = false ∧ mat0.mmaCheck true 0 0 1 1 true = none
    ∧ bytesOf (mat0.poolRead (rgGlist (mat0.ring 0).img) (2 * tlM (mat0.tile 0).img) 2) = some [0, 0]
    ∧ mat0.mhadCheck 0 1 0 = none ∧ (mat0.ring 0).full = false ∧ mat0.mdrainCheck 0 0 = none
    ∧ ddToring (mat0.drain 0).img = false ∧ maskTiles 1 = [0] ∧ mat0.here.banksFree 0 (mat0.tileBanks 0) = true
    ∧ poolCheck mat0.part 0x20080 64 64 = none ∧ mat0.here.banksFree 0 (banksOf 0x20080 64) = true := by decide +kernel
theorem wit_MatrixWords_checks : (mat0.tile 0).complete = true
    ∧ checksumsOk (tlAcc (mat0.tile 0).img) 1 1 (mat0.tileWords (mat0.tile 0)) = true
    ∧ checksumsOk (tlAcc (badSum.tile 0).img) 1 1 (badSum.tileWords (badSum.tile 0)) = false
    ∧ ((mat fun c => { c with tiles := c.tiles.set 0 { c.tiles.get 0 with complete := false } }).tile 0).complete = false
    ∧ typeBx (ddFmt (mat0.drain 0).img) = false := by decide +kernel
/-- MatrixWords and MatrixChunks: a tile one of whose words is uncorrectable. -/
def spoiled (f : Crew → Crew) : State := (mat f).modCore 0 fun c => { c with badPool := [0x40000 / 8] }
theorem wit_MatrixWords_bad : (spoiled id).tileBad ((spoiled id).tile 0) true = some 0x40000 ∧ ((spoiled id).tile 0).complete = true
    ∧ (spoiled id).here.banksFree 0 ((spoiled id).tileBanks 0) = true ∧ mat0.tileBad (mat0.tile 0) true = none := by decide +kernel
/-- MatrixWords: a full ring, an `mhad` whose order does not divide its columns or whose two rings are one, a drain to a ring with
room, to a full one and to one of another format, a shift of 32, an unset descriptor, a crew with no lease and five banks, and the
formats that a trail entry and a contracted rung give. -/
def ringDrain (f : Crew → Crew) : State := mat fun c => f { c with
  tiles := c.tiles.set 0 { c.tiles.get 0 with img := BitVec.ofNat 512 (0x40000 + 31 * 2 ^ 40) }
  drains := c.drains.set 0 { img := BitVec.ofNat 512 (2 ^ 28 + 2 ^ 32 + 0x3F800000 * 2 ^ 64), set := true } }
def fullRing : State := ringDrain fun c => { c with rings := c.rings.set 0 { c.rings.get 0 with resv := 2 } }
theorem wit_MatrixWords_more : (fullRing.ring 0).full = true ∧ fullRing.mdrainCheck 0 0 = none
    ∧ (ringDrain id).mdrainCheck 0 0 = none ∧ ddToring ((ringDrain id).drain 0).img = true ∧ ((ringDrain id).ring 0).full = false
    ∧ ((ringDrain id).ring 0).tail = ((ringDrain id).ring 0).resv
    ∧ (mat0.mhadCheck 0 1 1).isSome = true ∧ (mat0.mhadCheck 0 0 0).isSome = true
    ∧ (mat0.mdrainCheck 0 1).isSome = true ∧ (mat0.mdrainCheck 1 0).isSome = true
    ∧ maskTiles 3 = [0, 1] ∧ (mat0.tile 1).set = false ∧ mat0.testFormats 0 true 1 1 = (1, 1) := by decide +kernel
def shifted (n : Nat) : State :=
  mat fun c => { c with drains := c.drains.set 0 { img := BitVec.ofNat 512 (0x20040 + n * 2 ^ 128 + 0x3F800000 * 2 ^ 64), set := true } }
theorem wit_MatrixWords_shift : (shifted 31).mdrainCheck 0 0 = none ∧ ((shifted 32).mdrainCheck 0 0).map (fun t => t.code) = some 0x03
    ∧ ((mat fun c => { c with part := 0x00050101, lease := Lease.idle }).leaseCheck).map (fun t => t.code) = some 0x05 := by
  decide +kernel
/-- MatrixChunks: a chunk to run, and a word whose chunks have run; its lease contracted or best-effort. -/
def chunky (contracted : Bool) (done : Nat) : State := mat fun c => { c with
  mq := [{ aMma with done := done }], lease := { c.lease with contracted := contracted, share := 5 } }
theorem wit_MatrixChunks : ∀ k ∈ [false, true], ∀ n ∈ [0, 1], (chunky k n).crew.mq = [{ aMma with done := n }]
    ∧ (chunky k n).crew.lease.contracted = k ∧ memWf (chunky k n).here.pool = true ∧ (chunky k n).mayChunk = true
    ∧ ((chunky k n).ring 0).ready (32 * 1 / rgCols ((chunky k n).ring 0).img) = true
    ∧ ((chunky k n).ring 1).ready (32 * 1 / rgCols ((chunky k n).ring 1).img) = true
    ∧ (chunky k n).here.banksFree 9 ((chunky k n).tileBanks 0) = true
    ∧ (chunky k n).spansLocked 9 [(0x30000, 64), (0x30100, 64)] = false
    ∧ (chunky k n).spansBad [(0x30000, 64), (0x30100, 64)] = none := by decide +kernel
/-- MatrixChunks, a clock: a chunk in progress, alone on its core, at its share and above it, and best-effort. -/
def working (h : Chunk) : State := mat fun c => { c with mq := [{ aMma with chunk := some h }] }
theorem wit_MatrixChunks_clock : (∀ h ∈ [Chunk.mk 5 (some 5), ⟨6, some 5⟩, ⟨262144, none⟩], (working h).crew.mq = [{ aMma with chunk := some h }]
      ∧ ∀ k : CrewIx, k ≠ 0 → ((working h).here.crew k).mq = [])
    ∧ (working ⟨5, none⟩).npu.withheldQuanta = false ∧ (working ⟨5, none⟩).crew.lease.share ≤ 262144
    ∧ ((working ⟨5, none⟩).modNpu fun n => { n with withheldQuanta := true }).npu.withheldQuanta = true := by decide +kernel
/-- MatrixChunks: two chunks of a contracted word that consumes its tile, which is sound or not; the second of them with an operand's bank
locked. -/
def reading (done : Nat) : MatCmd := { aMma with op := .mma false 0 0 1 2 false false, done := done }
def twoRows (c : Crew) : Crew := { c with
  lease := { c.lease with contracted := true, share := 5 }
  rings := (c.rings.set 0 { c.rings.get 0 with tail := 2, resv := 2 }).set 1 { c.rings.get 1 with tail := 2, resv := 2 } }
def promised (m : MatCmd) : State := ((mat fun c => { twoRows c with mq := [m] }).modCore 0 fun c =>
  { c with locks := (banksOf 0x30000 64).map fun b => (b, 5) }).modCtx 0 fun c =>
    { c with contract := BitVec.ofNat 128 (1 + 2 ^ 32 + 2 ^ 96 + 2 ^ 104) }
theorem wit_MatrixChunks_promised : (promised (reading 1)).mayChunk = true
    ∧ (promised (reading 1)).promised (reading 1) 0 2 = true ∧ (promised (reading 1)).promised { reading 1 with stocked := false } 0 2 = false
    ∧ (promised (reading 1)).spansLocked 9 [(0x30000, 64), (0x30100, 64)] = true ∧ (reading 1).clean = true
    ∧ (promised (reading 1)).here.banksFree 9 ((promised (reading 1)).tileBanks 0) = true
    ∧ (promised (reading 1)).tileBad ((promised (reading 1)).tile 0) false = none
    ∧ (promised (reading 1)).spansBad [(0x30000, 64), (0x30100, 64)] = none := by decide +kernel
theorem wit_MatrixChunks_bad : let s := spoiled fun c => { twoRows c with mq := [reading 0] }
    s.mayChunk = true ∧ s.tileBad (s.tile 0) false = some 0x40000 ∧ s.seq.status ≠ .trapped
    ∧ s.spansLocked 9 [(0x30000, 64), (0x30100, 64)] = false := by decide +kernel
/-- MatrixChunks, a clock: the word is of the reference shape, whose two chunks of 103 clocks would pass an L of 1. -/
theorem wit_MatrixChunks_runs : ((mat fun c => { twoRows c with mq := [{ reading 1 with chunk := some ⟨3, some 5⟩ }] }).modCtx 0 fun c =>
    { c with contract := BitVec.ofNat 128 (1 + 2 ^ 32 + 2 ^ 96 + 2 ^ 104) }).runsOn { reading 1 with chunk := some ⟨3, some 5⟩ } = true := by
  decide +kernel
/-- One FP32 element at 0x200000, and a table whose entries 0, 1 and 2 describe it, a pool tile, and an unmapped place. -/
def element (base : Nat) : Nat := base + 2 ^ 64 + 4 * 2 ^ 192
def lx : State :=
  (mapped (crew0 .l fun c => { (as_ [(1, 0x20000), (2, 0x20000 + 0x20100 * 2 ^ 23), (3, 0x200000), (4, 0x30000), (5, 0x40000)] c) with
    desctab := 0x22000 }) []).modCore 0
    fun c => { c with pool := memSets (memSets [] 0x22000 (natLe 64 (element 0x200000))) 0x22040 (natLe 64 (element 0x20000)) }
theorem clear_lx : lx.Clear tz := clear_of (by decide +kernel) (by decide +kernel) (by decide +kernel) (by decide +kernel)
def opOf (k : XferKind) : XferOp := { kind := k, tr := false, tg := false, cv := false, ck := false, rg := false }
theorem wit_TransferWords : lx.cur.role = .l ∧ lx.xq.length < 16 ∧ partNs lx.part ≠ 0
    ∧ bytesOf (lx.poolRead 0x22000 64 64) = some (natLe 64 (element 0x200000))
    ∧ bytesOf (lx.poolRead 0x22040 64 64) = some (natLe 64 (element 0x20000))
    ∧ (∀ k ∈ [XferKind.tld, .tst, .tcrc], (okOf (lx.xferChecks (opOf k) (BitVec.ofNat 512 (element 0x200000)) 0x20000 none)).isSome)
    ∧ (∀ k ∈ [XferKind.tcpy, .tsend], (okOf (lx.xferChecks (opOf k) (BitVec.ofNat 512 (element 0x20000)) 0x30000 none)).isSome)
    ∧ (okOf (lx.xferChecks (opOf .tadd) (BitVec.ofNat 512 (element 0x20000)) 0x40000 none)).isSome
    ∧ (∀ k ∈ [XferKind.tgat, .tsct], (okOf (lx.xferChecks (opOf k) (BitVec.ofNat 512 (element 0x200000))
        (0x20000 + 0x20100 * 2 ^ 23) none)).isSome)
    ∧ bytesOf (lx.poolRead 0x20100 4 4) = some [0, 0, 0, 0]
    ∧ ((lx.takeSlot none).map fun p => p.1) = some none ∧ farAhead lx.xq 0 (banksOf 0x20000 4) = false := by decide +kernel
theorem wit_TransferWords_tdesc : lx.translateHere 0x200000 .read = .ok (page 0x200000) ∧ lx.mem.bad 0x200000 64 = false
    ∧ poolCheck lx.part 0x22000 64 64 = none ∧ lx.here.lockedFor none 0x22000 64 = false ∧ memWf lx.here.pool = true := by
  decide +kernel
/-- The checks of a transfer word in their order (R155): a type that does not exist, a reserved bit, a misaligned base, an offset that
is misaligned, ends past the pool, past the allotment and begins before it, the last one that fits; a barrier past the pool and one
in the S-partition; and of `tsend` a member past the team and a `tadd` outside the A-partition. -/
theorem test_xfer_checks :
    let check (k : XferKind) (d : Nat) (p : Nat) (bar : Option Nat) : Option (BitVec 8) :=
      trapIn (lx.xferChecks (opOf k) (BitVec.ofNat 512 d) p bar)
    let g := element 0x200000
    [check .tld (g + 15 * 2 ^ 48) 0x20000 none, check .tld (g + 2 ^ 62) 0x20000 none, check .tld (g + 2) 0x20000 none,
     check .tld g 0x20020 none, check .tld g 0x800000 none, check .tld g 0x100000 none, check .tld g 0x1FFC0 none,
     check .tld g 0xFFFC0 none, check .tld g 0x20000 (some 0x800000), check .tld g 0x20000 (some 0x3FFF0)]
      = [some 0x02, some 0x03, some 0x08, some 0x08, some 0x06, some 0x05, some 0x05, none, some 0x03, some 0x07]
    ∧ [check .tsend (element 0x20000) 0x830000 none, check .tadd (element 0x20000) 0x3FFC0 none, check .tadd (element 0x20000) 0x40000 none]
      = [some 0x03, some 0x07, none] := by decide +kernel
/-- TransferSteps: a transfer at the head of L's queue. -/
def xfer (k : XferKind) (base : Nat) (dst : Nat) : Xfer :=
  { id := 8, op := opOf k, desc := BitVec.ofNat 512 (element base), table := 0x22000, src := 0x20000, dstCore := 0, dst := dst,
    hdr := dst + 64, team := if k = .tadd then some 0 else none, bar := some (0, 0x40100), list := [], slot := none, pc := 0,
    a := Vector.replicate 16 0, loops := [], pops0 := 0, combined := 0, got := [], put := [], moved := none }
/-- TransferWords: a full ring, one with room, a slot held for the ring, and a queue that is full. -/
theorem wit_TransferWords_slots :
    let r (resv : Nat) : State := (crew0 .l fun c => { c with rings := c.rings.set 0 { Ring.unset with img := ringImg 0x30000, set := true, resv := resv } })
    ((r 2).ring 0).full = true ∧ ((r 1).ring 0).full = false ∧ (r 1).crew.heldOf .l = []
    ∧ ((r 2).modCrew fun c => { c with heldL := [{ ring := 0, slot := 1 }] }).crew.heldOf .l = [{ ring := 0, slot := 1 }]
    ∧ (lx.modCrew fun c => { c with lq := List.replicate 16 (xfer .tld 0x200000 0x20000) }).xq.length = 16
    ∧ partNs (0x00060001 : XWord) = 0 := by decide +kernel
def moving (x : Xfer) : State := lx.modCrew fun c => { c with lq := [x] }
/-- What an engine's work gives: the bytes written and the conversions, or a trap's code. -/
def workOf (w : EngStep) : Option (Nat ⊕ BitVec 8) :=
  match w with
  | .did _ y => some (.inl y.outcome.1)
  | .fault t => some (.inr t.code)
  | _ => none
/-- TransferSteps: a `tld` of one FP32 element, its first unit's page unmapped, and a `tadd` of one element. -/
theorem wit_TransferSteps : (moving (xfer .tld 0x200000 0x20000)).xq = [xfer .tld 0x200000 0x20000]
    ∧ workOf ((moving (xfer .tld 0x200000 0x20000)).finishWork (xfer .tld 0x200000 0x20000)) = some (.inl 4)
    ∧ (moving (xfer .tld 0x200000 0x20000)).cmdPuts 8 = [] ∧ memWf (moving (xfer .tld 0x200000 0x20000)).here.pool = true
    ∧ ((moving (xfer .tld (2 ^ 40) 0x20000)).xferFault (xfer .tld (2 ^ 40) 0x20000) true).map (fun t => t.code) = some 0x10
    ∧ (xfer .tld (2 ^ 40) 0x20000).sources = [2 ^ 37] ∧ (xfer .tld (2 ^ 40) 0x20000).hasRead (2 ^ 37) = false
    ∧ (moving (xfer .tld (2 ^ 40) 0x20000)).translate (.tlb 3) 0 (2 ^ 40) .read = .fault 0x10
    ∧ (moving (xfer .tadd 0x20000 0x40000)).targetGone (xfer .tadd 0x20000 0x40000) = false
    ∧ (moving (xfer .tadd 0x20000 0x40000)).here.poolBad 0x40000 4 = false := by decide +kernel
/-- TransferSteps: a `tld` before its work and after it, its barrier's bank free and locked by another; a `tadd` that has read its source
and whose target's bank is free, its own, and another's. -/
def locked (id : Nat) (banks : List Nat) (x : Xfer) : State :=
  (moving x).modCore 0 fun c => { c with locks := banks.map fun b => (b, id) }
def moved (x : Xfer) : Xfer := { x with moved := some x.outcome }
def readAdd : Xfer := { xfer .tadd 0x20000 0x40000 with got := [(0x4000, List.replicate 8 0)] }
/-- TransferSteps: a `tld` whose ring slot is not the next to be filled; a bank that an earlier `tadd` has still to write to. -/
def slotted0 : Xfer := { xfer .tld 0x200000 0x20000 with slot := some (0, 1) }
theorem wit_TransferSteps_turn : (moving slotted0).slotTurn slotted0 = false ∧ (moving slotted0).farDue slotted0 = false
    ∧ workOf ((moving slotted0).finishWork slotted0) = some (.inl 4)
    ∧ farAhead [readAdd] 0 readAdd.farBanks = true ∧ farAhead [{ readAdd with combined := 1 }] 0 readAdd.farBanks = false := by decide +kernel
/-- R193: the second of two `tadd`s to one bank waits for the first, be the bank free. -/
theorem test_far_order : let second : Xfer := { readAdd with id := 9 }
    let s := lx.modCrew fun c => { c with lq := [readAdd, second] }
    ((s.lockFar second).core 0).locks = [] ∧ ((s.lockFar readAdd).core 0).locks.map Prod.snd = [8] := by decide +kernel
theorem wit_TransferSteps_locks : (moving (xfer .tld 0x200000 0x20000)).farDue (xfer .tld 0x200000 0x20000) = false
    ∧ (∀ q ∈ [(([] : List Nat), false), (banksOf 0x40100 16, true)], (locked 5 q.1 (moved (xfer .tld 0x200000 0x20000))).retireLocked
        (moved (xfer .tld 0x200000 0x20000)) (xfer .tld 0x200000 0x20000).outcome = q.2
      ∧ (locked 5 q.1 (moved (xfer .tld 0x200000 0x20000))).retireFault (moved (xfer .tld 0x200000 0x20000))
        (xfer .tld 0x200000 0x20000).outcome = none)
    ∧ (moving readAdd).farDue readAdd = true ∧ ((moving readAdd).core 0).banksFree 8 readAdd.farBanks = true
    ∧ (locked 5 readAdd.farBanks readAdd).farDue readAdd = true
    ∧ ((locked 5 readAdd.farBanks readAdd).core 0).banksFree 8 readAdd.farBanks = false
    ∧ (locked 8 readAdd.farBanks readAdd).farHeld readAdd = true := by decide +kernel

/-! #### Clocks, contexts, starts, the network and the host -/

/-- Periods: each period due, one lease asked for, and traffic that waits. -/
theorem wit_Periods : dev.due 0 1024 = true ∧ dev.due 1 512 = true ∧ { dev with cycle := 3800 }.due 2 1900 = true
    ∧ dev.due 3 64 = true
    ∧ ((crew0 .x fun c => { c with lease := { Lease.idle with request := some 7 } }).crewAt 0 0).lease.held = false
    ∧ ([] : List Own).length ≤ 4 ∧ ((dev.modCore 0 fun c => { c with comb := [{ addr := 0x40000, kind := .arrive }] }).core 0).comb
        = [CombKind.arrive].map (fun k => { addr := 0x40000, kind := k })
    ∧ ((dev.modNpu fun n => { n with waiting := [{ port := 3, ctx := 0, left := 200001, what := .put 3 true }] }).npu.waiting.map
        Waiting.left) = [200001] ∧ Min.min 200000 (field (dev.ctx 0).params.toNat 121 104) = 200000 := by decide +kernel
/-- Periods: rungs that are decided with quanta that a lease lost in the boundary clock: two leases whose floor fits beside them. -/
theorem wit_Periods_gone : let ct : BitVec 128 := BitVec.ofNat 128 (1 + 2 ^ 32 + 4 * 2 ^ 36 + 2 ^ 48)
    ([{ ctx := 0, rung := 0, n := 2 }] : List Own).all (fun o => o.rung ≤ ctNrung ct) = true
    ∧ 2 * demand ct (ctNrung ct) + 1000 ≤ arrayQuanta := by decide +kernel
/-- BlocksAndContexts: a launch of context 0 with one team of one block. -/
def aHeader : Image := BitVec.ofNat 512 (0x00060101 * 2 ^ 192 + 2 ^ 256 + 2 ^ 272 + 2 ^ 288 + 2 ^ 304 + 0x10000 * 2 ^ 320)
def aLaunch : Launch := { num := 1, slot := 0, hdr := aHeader, loader := 0, prio := 0, b := Vector.replicate 16 0, deps := [],
                          cookie := 0, dom := none, gen := 1, revoked := false, placed := 0, done := 0 }
def launching : State := dev.modCtx 0 fun c => { c with launches := [aLaunch] }
theorem wit_BlocksAndContexts : launching.quiet = true ∧ launching.boot.stage = .ready ∧ launching.npu.lastTurn = none
    ∧ launching.nextCtx = some 0 ∧ (launching.ctx 0).turn = some aLaunch
    ∧ launching.placedBlocks 0 + hdTeamsz aHeader ≤ (launching.ctx 0).crewQuota
    ∧ launching.placeTeam (hdBanks aHeader) (hdTeamsz aHeader) = some [(0, 0, 0)] := by decide +kernel
/-- A team that is placed and has not started. -/
def placedTeam : State :=
  (launching.modNpu fun n => { n with placed := [{ ctx := 0, launch := 1, team := 0, clock := 7 }] }).modCrewAt 0 0 fun c =>
    { c with part := part0, block := some { placedBlock with started := false } }
theorem wit_BlocksAndContexts_start :
    (placedTeam.ctx 0).launches.find? (fun l => l.num == 1) = some aLaunch
    ∧ placedTeam.npu.placed.any (fun p => p.ctx == 0 && p.launch == 1 && p.team == 0) = true
    ∧ (placedTeam.crewAt 0 0).block = some { placedBlock with started := false } := by decide +kernel
/-- A context that is being pre-empted, at each stage: its last clock to halt and the one before, halted, entered with bytes that do
not pass and with none left, a mask that has not completed; one that may be restored; and a stopped firmware context. -/
def preempting (h : Halting) (clock bud : Nat) : State :=
  { ((crew0 .x id).modCtx 0 fun c => { c with state := .preempting, halting := h, bud := bud }) with cycle := clock }
theorem wit_BlocksAndContexts_preempt :
    (preempting (.due 0) 1900 0).crewsOf 0 = [(0, 0)] ∧ ((preempting (.due 0) 1899 0).core 0).comb = []
    ∧ (preempting (.due 0) 1899 0).npu.placed = [] ∧ ((preempting .halted 0 0).core 0).fw.idle = true
    ∧ ((preempting (.entered 9) 0 8).carrySave 0 97).1 = 1 ∧ ((preempting (.entered 9) 0 8).carrySave 0 96).1 = 0
    ∧ ((preempting (.entered 0) 0 0).core 0).badPool = []
    ∧ ((preempting (.entered 0) 0 0).modDie 0 fun d => { d with masks := [aMask] }).dieHere.masks.any (fun m => m.core == 0 && m.crew == 0)
      = true := by decide +kernel
/-- BlocksAndContexts: a PREEMPT that still waits at its bound and a clock before it, and a crew that has begun and issued nothing. -/
def latePreempt (at_ : Nat) : State :=
  ((crew0 .x id).modCtx 0 fun c => { c with state := .running }).modNpu fun n => { n with
    cmds := [{ msg := { conn := 1, hdr := BitVec.ofNat 256 (0x0B * 2 ^ 48), len := 33, payload := [0], accepted := true }, ctx := 0, status := 0, begun := false, at_ := at_ }] }
theorem wit_BlocksAndContexts_late :
    ({ latePreempt 0 with cycle := 1900 } : State).preemptLate 0 = true ∧ ({ latePreempt 1 with cycle := 1900 } : State).preemptLate 0 = false
    ∧ ((latePreempt 0).ctx 0).halting = .no ∧ ((({ latePreempt 0 with cycle := 1900 } : State).haltLate.ctx 0).halting = .halted)
    ∧ ((preempting .halted 0 0).ctx 0).state = .preempting
    ∧ ((crew0 .x fun c => { c with entry := true }).crewAt 0 0).entry = true := by decide +kernel
theorem wit_BlocksAndContexts_rest : (dev.modCtx 0 fun c => { c with state := .resuming }).mayRestore 0 = true
    ∧ ((dev.modCore 0 fun c => { c with fw := { c.fw with fault := some aTrap } }).core 0).fw.fault = some aTrap := by decide +kernel
/-- Starts: what does not depend on what the spec leaves open. -/
def booted (st : Stage) (fails : Nat) : State :=
  { State.reset with boot := { Boot.reset with stage := st, record := BitVec.ofNat 128 (1 + fails * 2 ^ 16) } }
theorem wit_Starts : (booted .powered 3).boot.fails = 3 ∧ (booted .powered 0).boot.fails ≠ 3
    ∧ (∀ k, bankVerifies (booted .powered 0).boot.minSvn ((booted .powered 0).boot.bank k) = false)
    ∧ (booted .starting 1).boot.stage = .starting
    ∧ ∀ c, ((booted .starting 1).core c).fw.stopped = false ∧ ((booted .starting 1).core c).fw.serving = .nothing
        ∧ ((booted .starting 1).core c).fw.seq.status ≠ .running := by decide +kernel
theorem wit_Starts_power : ({ dev with npu := { NDie.reset with withheldSlots := true, withheldQuanta := true, overSince := some 1 } }
    : State).npu.overSince = some 1 ∧ 1 + 19000000 ≤ ({ dev with cycle := 19000001 } : State).cycle := by decide +kernel
/-- Network: a host's page, an unmapped one, a peer's line. -/
def net : State := mapped dev []
theorem wit_Network : net.boot.stage = .ready ∧ net.portLeft 0 0 = 200000 ∧ net.translate .walk 0 0x200000 .write = .ok (page 0x200000)
    ∧ net.translate .walk 0 (2 ^ 40) .write = .fault 0x10 ∧ net.translate .walk 0 0x200000 .read = .ok (page 0x200000)
    ∧ net.mem.bad 0x200000 8 = false ∧ net.peerMay 0x200000 64 = true ∧ (0x20FFF8 : Nat) % 65536 + 8 = 65536 := by decide +kernel
/-- Network: what passes and what waits at the last byte of a budget, an unanswered put, and a line that a core asked for. -/
def aGet : Get := { num := 4, stale := false, core := 0, crew := 0, role := .x, ctx := 0, peer := 1, pa := 64 }
/-- Network: a page with a key and one whose leaf names an empty slot; a get that an acquisition has made stale. -/
theorem wit_Network_keys : net.peerKey 0x200000 = some 0 ∧ (net.modNpu fun n => { n with keys := [] }).peerKey 0x200000 = none
    ∧ dev.peerMay 0x200000 64 = true ∧ ({ dev with mem := { dev.mem with gets := [{ aGet with stale := true }] } } :
        State).getChosen 0 1 64 = some { aGet with stale := true } := by decide +kernel
def far (bud : Nat) : State :=
  ({ dev with mem := { dev.mem with remote := [aFar (some 3) false none], gets := [aGet] } } : State).modCtx 0 fun c => { c with bud := bud }
theorem wit_Network_peers : (far 64).mem.remote.find? (fun r => r.put == some 3 && r.open_) = some (aFar (some 3) false none)
    ∧ (far 1).portLeft 0 0 = 1 ∧ (aFar (some 3) false none).size = 1 ∧ (far 7).portLeft 0 0 < 8
    ∧ (far 64).getChosen 0 1 64 = some aGet ∧ (far 64).portLeft 0 0 = 64 := by
  decide +kernel
/-- Network: a page at peer 1 that host RMA reaches, with no leaf dead and with one; a read's line there. -/
def farNet (dead : Nat) : State :=
  { (mapped dev [(0x2008, [1, 0x50]), (0x4008, [0x1F, 0, 0, 0x40]), (0x5000, [1, 0x60]),
    (0x6000, natLe 8 (0x10001F + 2 ^ 52 + 2 ^ 53 + dead * 2 ^ 63))]).modNpu fun n => { n with peers := [(1, 1)] } with quiet := true }
theorem wit_Network_far : (farNet 0).boot.stage = .ready ∧ (farNet 0).npu.rmas = []
    ∧ pageOf ((farNet 0).translate .walk 0 0x40000000 .write) = some (4, 0x6000, 0x100000, true, 1)
    ∧ pageOf ((farNet 0).translate .walk 0 0x40000000 .read) = some (4, 0x6000, 0x100000, true, 1)
    ∧ (farNet 0).deadLeaves = [] ∧ (farNet 1).deadLeaves.length = 1 ∧ (farNet 1).deadLost 0x100000 8 = false := by decide +kernel
/-- R287, R316: a host's read of a page at a peer is answered when the peer has sent the line. -/
theorem test_far_rma : run (.hostRmaRead 0 0 0x40000008 8) (farNet 0) (fun u => (u.npu.out.length, (u.npu.rmas.flatMap fun r => r.asks.map Prod.snd)))
      = some (0, [(1, 0x100000)])
    ∧ ((run (.hostRmaRead 0 0 0x40000008 8) (farNet 0) id).bind fun u =>
        run (.getResponse 0 3 1 0x100000 (.line (List.replicate 64 5))) u fun v => (v.npu.rmas.length, v.npu.out.map OutMsg.payload))
      = some (0, [List.replicate 8 5]) := by decide +kernel
/-- Network: a dead page of this device whose leaf is uncorrectable. -/
theorem wit_Network_lost : let s := mapped dev [(0x2000, natLe 8 (0x1F + 2 ^ 63))]
    s.deadLost 0x100000 8 = false ∧ ({ s with mem := { s.mem with badHbm := [0x2000 / 8] } } : State).deadLost 0x100000 8 = true := by
  decide +kernel
/-- A message on session 1 of context 0: opcode, sequence number, payload (Table 19.2). -/
def msg (op seq : Nat) (p : List Byte) (acc : Bool) : ScpMsg :=
  { conn := 1, hdr := BitVec.ofNat 256 (0x5343 + 2 ^ 16 + op * 2 ^ 48 + seq * 2 ^ 64 + p.length * 2 ^ 160), len := p.length + 32,
    payload := p, accepted := acc }
def aSession (k : CtxId) : Session := { id := 1, ctx := k, expected := 5 }
def host (k : CtxId) : State := dev.modNpu fun n => { n with sessions := [aSession k] }
theorem wit_MessageChecks : (host 0).session 1 = some (aSession 0) ∧ (host 0).serves = true ∧ (host 0).mayCheck 1 = true
    ∧ (host 0).npu.cmds = [] ∧ (msg 0x11 5 [3] false).headerOk = true ∧ field (msg 0x11 5 [3] false).hdr.toNat 37 32 = 0
    ∧ (msg 0x11 5 [3] false).opcode = 0x11 ∧ (msg 0x11 4 [3] false).seq < 5 ∧ 5 < (msg 0x11 6 [3] false).seq
    ∧ ((host 3).modCtx 3 fun c => { c with barred := true }).session 1 = some (aSession 3) := by decide +kernel
/-- MessageChecks: 63 and 64 commands of the session accepted and not completed, in effect and still waiting. -/
def busy (n : Nat) (begun : Bool) : State := (host 0).modNpu fun p => { p with
  cmds := List.replicate n { msg := msg 0x0B 4 [0] true, ctx := 0, status := 0, begun := begun, at_ := 7 } }
theorem wit_MessageChecks_window : (∀ b ∈ [false, true], (busy 64 b).outstandingScp 1 = 64 ∧ (busy 63 b).outstandingScp 1 = 63
      ∧ (busy 64 b).mayCheck 1 = true ∧ (busy 64 b).barredAhead 0 = false)
    ∧ (∀ c ∈ (busy 64 true).npu.cmds, c.begun = true) ∧ ((busy 64 false).npu.cmds.find? fun c => !c.begun).isSome = true
    ∧ (msg 0x11 5 [0] false).headerOk = true ∧ (msg 0x11 5 [0] false).seq = 5 := by decide +kernel
/-- SlotCommands, RecordCommands and ContextCommands: an accepted command, the only one waiting. -/
def doing (m : ScpMsg) (s : State) : State := s.modNpu fun n => { n with cmds := [{ msg := m, ctx := 0, status := 0, begun := false, at_ := 7 }] }
theorem wit_commands : ∀ op ∈ List.range 0x12, (msg op 5 [0, 0] true).accepted = true ∧ (msg op 5 [0, 0] true).opcode = op
    ∧ (doing (msg op 5 [0, 0] true) (host 0)).npu.cmds = [{ msg := msg op 5 [0, 0] true, ctx := 0, status := 0, begun := false, at_ := 7 }]
    ∧ (doing (msg op 5 [0, 0] true) (host 0)).boot.stage = .ready := by decide +kernel
/-- A slot of context 0 that is loaded and one that is not, with the header of `aHeader`. -/
def slotted (res : Bool) : State := (mapped (host 0) []).modNpu fun n => { n with
  slots := [{ num := 0, owner := 0, hdr := BitVec.ofNat 512 (aHeader.toNat + 2 ^ 448), got := [], resident := res, gen := 1 }] }
theorem wit_SlotCommands : ((slotted true).slot 0).map (fun q => (q.owner, q.resident)) = some (0, true) ∧ (host 0).slot 0 = none
    ∧ ((slotted true).slotPages 0 aHeader).isSome = true ∧ (host 0).slotPages 0 aHeader = none
    ∧ ((slotted true).loadPages 0 [.read] (pagesOf 0x10000 0x10000)).isSome = true
    ∧ (field (aHeader.toNat + 2 ^ 448) 511 448).testBit 0 = true ∧ hdTeamsz aHeader ≤ ((slotted true).ctx 0).crewQuota
    ∧ ((slotted true).ctx 0).doomed = none ∧ depsOf (msg 5 5 (List.replicate 200 0) true) = [] := by decide +kernel
/-- RecordCommands: a record admitted and one refused, tables that change and that do not. -/
theorem wit_RecordCommands_puts : (far 64).putsOut 0 = true ∧ (far 64).putsOut 1 = false ∧ (host 0).putsOut 0 = false := by decide +kernel
theorem wit_RecordCommands : (host 0).admits_ 3 0 = true ∧ (host 0).admits_ 3 2 = false ∧ (host 0).keyNamed 4 = false
    ∧ (mapped (host 0) []).keyNamed 0 = true
    ∧ (okOf ((mapped (host 0) []).map .one 0 0 4 0 1)).isSome = false ∧ (okOf ((host 0).unmap .one 0 0 4 1)).isSome = true
    ∧ (okOf ((host 0).migrate 0 0 0)).isSome = false ∧ bankVerifies 0 [] = false ∧ calMerge [] { kind := 0, index := 0, owners := [] }
      = [{ kind := 0, index := 0, owners := [] }] := by decide +kernel
/-- RecordCommands: an uncorrectable word in a table that is searched; a sequence that its owner exports, with a mask and without. -/
theorem wit_RecordCommands_waits : (mapped (host 0) []).treesBad = false
    ∧ ({ mapped (host 0) [] with mem := { (mapped (host 0) []).mem with badHbm := [0x1000 / 8] } } : State).treesBad = true
    ∧ (masked aSgr).dieHere.masks.any (fun w => w.handle == 5) = true ∧ (gram aSgr).dieHere.masks = []
    ∧ ((gram aSgr).dieHere.exported aSgr).length ≤ 8172 := by decide +kernel
/-- ContextCommands: each state of a context that a clause names, and a notice. -/
def aNotice : Notice := { num := 4, core := 0, trap := aTrap, holds := true }
def noticed : State := (crew0 .x id).modCtx 0 fun c => { c with notices := [aNotice] }
theorem wit_ContextCommands : (dev.modCtx 0 fun c => { c with state := .running, params := c.params + 2 ^ 192 }).placedBlocks 0 = 0
    ∧ ((dev.modCtx 0 fun c => { c with state := .running, params := c.params + 2 ^ 192 }).ctx 0).saveArea ≠ 0
    ∧ (dev.ctx 0).saveArea = 0 ∧ (dev.ctx 0).state ≠ .running ∧ (dev.ctx 0).state ≠ .preempted ∧ (dev.ctx 0).notice 0 = none
    ∧ (noticed.ctx 0).notice 4 = some aNotice ∧ noticed.noticeBlock 0 aNotice = some placedBlock := by decide +kernel

/-- ContextCommands: a save area whose directory holds an uncorrectable word, and one that does not. -/
def saved (bad : List Nat) : State :=
  let s := (mapped dev []).modCtx 0 fun c => { c with state := .preempted, params := c.params + 2 ^ 208 }
  { s with mem := { s.mem with badHbm := bad } }
theorem wit_ContextCommands_bad : ((saved []).ctx 0).state = .preempted ∧ ((saved []).ctx 0).saveArea = 65536
    ∧ (saved []).directoryLost 0 = false ∧ (saved [0x2000 / 8]).directoryLost 0 = true
    ∧ (saved [65536 / 8 + 511]).saveBad 65536 4096 = true ∧ (saved [65536 / 8 + 512]).saveBad 65536 4096 = false := by decide +kernel

/-! #### Encodings, steps and the whole machine -/

/-- DecodeEncode: an instruction of each role. -/
theorem wit_DecodeEncode : (Instr.mul tz 4 5 6).wf .x = true ∧ (Instr.mma tz 3 0 1 15 true true).wf .c = true
    ∧ (Instr.tsend tz 3 4 5).wf .l = true ∧ (Instr.tadd tz 3 4 5).wf .s = true ∧ (Instr.eret tz).wf .fw = true
    ∧ (Instr.efin 8).wf .hinge = true := by decide
/-- StepRunsDecoded: a sequencer's, the firmware context's and Hinge's turn with a word that decodes. -/
def wordOf (f : Fetched) : Option W32 :=
  match f with
  | .word w _ _ => some w
  | .perm | .ecc | .stop _ => none
def seqTurn : State := let s := State.reset.placeSeq .x 0x0204146E; (s.forTurn s.nextTurn).actAs 0 0 .x
theorem wit_StepRunsDecoded : (State.reset.placeSeq .x 0x0204146E).nextTurn = .seq 0 0 .x ∧ seqTurn.crewLive = true
    ∧ seqTurn.seq.status = .running ∧ seqTurn.timedOut = none ∧ seqTurn.pushDue = false ∧ seqTurn.pushStuck = false
    ∧ seqTurn.seq.issued = false ∧ wordOf (seqTurn.fetch seqTurn.pc) = some 0x0204146E
    ∧ decode .x 0x0204146E = some (.mul tz 4 5 6) := by decide +kernel
def fwTurn (s : State) : State := let s := s.placeFw 0x00000000; (s.forTurn s.nextTurn).actAs 0 0 .fw
theorem wit_StepRunsDecoded_fw : (State.reset.placeFw 0).nextTurn = .fw 0 ∧ (fwTurn State.reset).here.fw.stopped = false
    ∧ (fwTurn State.reset).here.fw.eretDue = false ∧ (fwTurn State.reset).here.fw.seq.status = .running
    ∧ (fwTurn State.reset).timedOut = none ∧ wordOf ((fwTurn State.reset).fetch placeAt) = some 0
    ∧ (fwTurn dev).here.slotFor = some 0 ∧ (fwTurn dev).boot.stage = .ready := by decide +kernel
theorem wit_StepRunsDecoded_hinge : let s := State.reset.placeHinge 0x70300000
    s.nextTurn = .hinge 0 ∧ (s.core 0).hingeCur = some 0 ∧ (s.crewAt 0 0).edgeWord = some 0x70300000
    ∧ decode .hinge 0x70300000 = some (.emsg 6) ∧ isEvent .bootStart = true := by decide +kernel
/-- StepRunsDecoded: a word in its place in the clock, and one that comes too late in it. -/
theorem wit_StepRunsDecoded_order : seqTurn.pos ≤ seqTurn.cur.wordPlace 0x0204146E (.mul tz 4 5 6)
    ∧ seqTurn.cur.wordPlace 0x0204146E (.mul tz 4 5 6) < seqTurn.cur.wordPlace 0 (.bwait tz 1 2)
    ∧ stepped { State.reset.placeSeq .x 0x0204146E with pos := seqTurn.cur.wordPlace 0 (.bwait tz 1 2) } (fun u => (u.crewAt 0 0).seqX.pc)
      = some placeAt
    ∧ (seqTurn.turnPlace (.hinge 0)).isSome = true ∧ (seqTurn.turnPlace (.event .bootStart)).isNone = true
    ∧ (seqTurn.turnPlace (.event (.combineUpdate 0))).isSome = true := by decide +kernel
/-- StepRunsDecoded: a mailbox word, and a word of the firmware context that comes too late in the clock. -/
theorem wit_StepRunsDecoded_box : decode .x (encode (.mbpoll tz 4 5)) = some (.mbpoll tz 4 5)
    ∧ (fwTurn dev).wordInOrder = true ∧ ({ fwTurn dev with pos := place 5 0 } : State).wordInOrder = false := by decide +kernel
/-- AntiRollback: a state with the invariant in which a step answers a next state. -/
theorem wit_AntiRollback : State.reset.SvnOk ∧ stepped (State.reset.placeSeq .x 0) (fun u => u.boot.stage) = some .powered := by
  refine ⟨?_, by decide +kernel⟩
  intro h
  rcases h with h | h <;> exact absurd h (by decide +kernel)

end Sys2Proof.Tests
end

section
/-! PROOFS. Fields of numbers, the boot record, and what a start, a shutdown and a loss of power leave (R4, R18, R324 to R326, R331,
R335). -/

namespace Sys2Proof.Machine

/-! ### Fields of numbers (R18) -/

theorem testBit_field (v hi lo i : Nat) : (field v hi lo).testBit i = (decide (i < hi + 1 - lo) && v.testBit (lo + i)) := by
  rw [field, Nat.testBit_mod_two_pow, Nat.testBit_div_two_pow, Nat.add_comm i lo]

/-- Bit by bit: a replaced field holds the new value's bits, and every other bit stays. -/
theorem testBit_setField {v hi lo x : Nat} (h : lo ≤ hi + 1) (i : Nat) :
    (setField v hi lo x).testBit i = if lo ≤ i ∧ i ≤ hi then x.testBit (i - lo) else v.testBit i := by
  have hw : 2 ^ (hi + 1) = 2 ^ lo * 2 ^ (hi + 1 - lo) := by rw [← Nat.pow_add, Nat.add_sub_cancel' h]
  have hv : setField v hi lo x
      = 2 ^ lo * (2 ^ (hi + 1 - lo) * (v / 2 ^ (hi + 1)) + x % 2 ^ (hi + 1 - lo)) + v % 2 ^ lo := by
    rw [setField, hw]; ring
  rw [hv, Nat.testBit_two_pow_mul_add _ (Nat.mod_lt _ (Nat.two_pow_pos _)),
    Nat.testBit_two_pow_mul_add _ (Nat.mod_lt _ (Nat.two_pow_pos _)), Nat.testBit_mod_two_pow, Nat.testBit_mod_two_pow,
    Nat.testBit_div_two_pow]
  by_cases hl : i < lo
  · simp [hl, show ¬ lo ≤ i by omega]
  · by_cases hh : i ≤ hi
    · simp [hl, hh, show lo ≤ i by omega, show i - lo < hi + 1 - lo by omega]
    · simp [hl, hh, show ¬ i - lo < hi + 1 - lo by omega, show i - lo - (hi + 1 - lo) + (hi + 1) = i by omega]

theorem field_setField_same {hi lo : Nat} (h : lo ≤ hi + 1) (v x : Nat) :
    field (setField v hi lo x) hi lo = x % 2 ^ (hi + 1 - lo) := by
  refine Nat.eq_of_testBit_eq fun i => ?_
  rw [testBit_field, testBit_setField h, Nat.testBit_mod_two_pow]
  by_cases hi' : i < hi + 1 - lo
  · simp [hi', show lo + i ≤ hi by omega]
  · simp [hi']

theorem field_setField_other {hi lo hi' lo' : Nat} (h : lo ≤ hi + 1) (hd : hi' < lo ∨ hi < lo') (v x : Nat) :
    field (setField v hi lo x) hi' lo' = field v hi' lo' := by
  refine Nat.eq_of_testBit_eq fun i => ?_
  rw [testBit_field, testBit_field, testBit_setField h]
  by_cases hi : i < hi' + 1 - lo'
  · rw [if_neg (by omega)]
  · simp [hi]

/-- A field within the low `n` bits is that of the number cut to them. -/
theorem field_mod_two_pow {hi lo n : Nat} (h : hi < n) (v : Nat) : field (v % 2 ^ n) hi lo = field v hi lo := by
  refine Nat.eq_of_testBit_eq fun i => ?_
  rw [testBit_field, testBit_field, Nat.testBit_mod_two_pow]
  by_cases hi' : i < hi + 1 - lo
  · simp [show lo + i < n by omega]
  · simp [hi']

theorem field_lt (v hi lo : Nat) : field v hi lo < 2 ^ (hi + 1 - lo) := Nat.mod_lt _ (Nat.two_pow_pos _)

/-- What stands between bits `lo` and `hi` of a sum of three aligned parts. -/
theorem field_of_parts {a x c hi lo : Nat} (h : lo ≤ hi + 1) (hx : x < 2 ^ (hi + 1 - lo)) (hc : c < 2 ^ lo) :
    field (a * 2 ^ (hi + 1) + x * 2 ^ lo + c) hi lo = x := by
  have hw : 2 ^ (hi + 1) = 2 ^ lo * 2 ^ (hi + 1 - lo) := by rw [← Nat.pow_add, Nat.add_sub_cancel' h]
  have hv : a * 2 ^ (hi + 1) + x * 2 ^ lo + c = 2 ^ lo * (2 ^ (hi + 1 - lo) * a + x) + c := by rw [hw]; ring
  rw [field, hv, Nat.mul_add_div (Nat.two_pow_pos _), Nat.div_eq_of_lt hc, Nat.add_zero, Nat.mul_add_mod,
    Nat.mod_eq_of_lt hx]

/-! ### The boot record (Table 20.3)

The field lemmas of records are proved by rewriting, not by `rfl`: `simp` then cites them, where the kernel would otherwise
unfold the arithmetic of the record's bits. -/

theorem Boot.get_put_same {hi lo : Nat} (hw : hi < 128) (h : lo ≤ hi + 1) (b : Boot) (v : Nat) :
    (b.put hi lo v).get hi lo = v % 2 ^ (hi + 1 - lo) := by
  rw [Boot.get, Boot.put, BitVec.toNat_ofNat, field_mod_two_pow hw, field_setField_same h]

theorem Boot.get_put_other {hi lo hi' lo' : Nat} (hw : hi' < 128) (h : lo ≤ hi + 1) (hd : hi' < lo ∨ hi < lo') (b : Boot)
    (v : Nat) : (b.put hi lo v).get hi' lo' = b.get hi' lo' := by
  rw [Boot.get, Boot.put, BitVec.toNat_ofNat, field_mod_two_pow hw, field_setField_other h hd, Boot.get]

theorem Boot.get_congr {a b : Boot} (h : a.record = b.record) (hi lo : Nat) : a.get hi lo = b.get hi lo := by
  rw [Boot.get, h, Boot.get]

@[simp] theorem Boot.put_bankA (b : Boot) (hi lo v : Nat) : (b.put hi lo v).bankA = b.bankA := by rw [Boot.put]
@[simp] theorem Boot.put_bankB (b : Boot) (hi lo v : Nat) : (b.put hi lo v).bankB = b.bankB := by rw [Boot.put]
@[simp] theorem Boot.put_minSvn (b : Boot) (hi lo v : Nat) : (b.put hi lo v).minSvn = b.minSvn := by rw [Boot.put]
@[simp] theorem Boot.put_stage (b : Boot) (hi lo v : Nat) : (b.put hi lo v).stage = b.stage := by rw [Boot.put]
@[simp] theorem Boot.put_running (b : Boot) (hi lo v : Nat) : (b.put hi lo v).running = b.running := by rw [Boot.put]
@[simp] theorem Boot.put_bank (b : Boot) (hi lo v : Nat) (k : Bool) : (b.put hi lo v).bank k = b.bank k := by
  rw [Boot.bank, Boot.put_bankA, Boot.put_bankB, Boot.bank]

/-- The record with the start counted under reason 6 (R325 step 2). -/
def Boot.counted (b : Boot) : Boot := (b.put 23 16 (b.fails + 1)).push 6

@[simp] theorem Boot.counted_bankA (b : Boot) : b.counted.bankA = b.bankA := by
  simp [Boot.counted, Boot.push]
@[simp] theorem Boot.counted_bankB (b : Boot) : b.counted.bankB = b.bankB := by
  simp [Boot.counted, Boot.push]
@[simp] theorem Boot.counted_minSvn (b : Boot) : b.counted.minSvn = b.minSvn := by
  simp [Boot.counted, Boot.push]
@[simp] theorem Boot.counted_bank (b : Boot) (k : Bool) : b.counted.bank k = b.bank k := by
  simp [Boot.counted, Boot.push]

/-- The count is of 8 bits. -/
theorem Boot.counted_fails (b : Boot) : b.counted.fails = (b.fails + 1) % 256 := by
  simp [Boot.counted, Boot.push, Boot.fails, Boot.get_put_other, Boot.get_put_same]

theorem Boot.counted_newest (b : Boot) : b.counted.get 47 40 = 6 := by
  simp [Boot.counted, Boot.push, Boot.get_put_same]

/-- Replacing the newest reason leaves the count (R325 step 7). -/
theorem Boot.fails_put_newest (b : Boot) (r : Nat) : (b.put 47 40 r).fails = b.fails := by
  simp [Boot.fails, Boot.get_put_other]

theorem Boot.newest_put_newest (b : Boot) {r : Nat} (h : r < 256) : (b.put 47 40 r).get 47 40 = r := by
  simp [Boot.get_put_same, Nat.mod_eq_of_lt h]

/-- The record of a start that has become ready: the newest reason popped, the count cleared, the bank preferred (R325 step 6). -/
def Boot.succeeded (b : Boot) : Boot := (b.pop.put 23 16 0).put 8 8 b.running.toNat

@[simp] theorem Boot.succeeded_minSvn (b : Boot) : b.succeeded.minSvn = b.minSvn := by simp [Boot.succeeded, Boot.pop]
@[simp] theorem Boot.succeeded_runningHeader (b : Boot) : b.succeeded.runningHeader = b.runningHeader := by
  simp [Boot.succeeded, Boot.pop, Boot.runningHeader]

theorem Boot.succeeded_fails (b : Boot) : b.succeeded.fails = 0 := by
  simp [Boot.succeeded, Boot.fails, Boot.get_put_other, Boot.get_put_same]

theorem Boot.succeeded_pref (b : Boot) : b.succeeded.pref = b.running := by
  cases h : b.running <;> simp [Boot.succeeded, Boot.pref, Boot.get_put_same, h]

theorem Boot.succeeded_newest (b : Boot) : b.succeeded.get 47 40 = b.get 55 48 := by
  have hlt : b.get 55 48 < 2 ^ 8 := field_lt _ 55 48
  simpa [Boot.succeeded, Boot.pop, Boot.get_put_other, Boot.get_put_same] using hlt

/-! ### Fault records (R335) -/

/-- The kind of a fault record is read back from its bits (Table 21.4). -/
theorem FaultRec.kind_pack (r : FaultRec) (num when_ : Nat) : field (r.pack num when_).toNat 63 56 = r.kind % 256 := by
  have hcode := r.code.isLt
  have hctx := r.ctx.isLt
  have hcore := r.core.isLt
  have hcrew := r.crew.isLt
  have hstream := r.stream.num.isLt
  rw [FaultRec.pack, BitVec.toNat_ofNat, field_mod_two_pow (by decide)]
  refine (congrArg (field · 63 56) ?_).trans (field_of_parts (a := r.addr.toNat * 2 ^ 128 + r.pc.toNat * 2 ^ 64 + when_ % 2 ^ 64)
    (c := r.code.toNat * 2 ^ 48 + r.ctx.val * 2 ^ 42 + r.core.val / 16 * 2 ^ 40 + r.core.val % 16 * 2 ^ 36
      + r.crew.val * 2 ^ 34 + r.stream.num.val * 2 ^ 32 + num % 2 ^ 32) (by decide) (Nat.mod_lt _ (by decide)) (by omega))
  ring

@[simp] theorem State.faultRecord_cores (s : State) (r : FaultRec) : (s.faultRecord r).cores = s.cores := by
  simp only [State.faultRecord]
@[simp] theorem State.faultRecord_mem (s : State) (r : FaultRec) : (s.faultRecord r).mem = s.mem := by
  simp only [State.faultRecord]
@[simp] theorem State.faultRecord_npu (s : State) (r : FaultRec) : (s.faultRecord r).npu = s.npu := by
  simp only [State.faultRecord]
@[simp] theorem State.faultRecord_bankA (s : State) (r : FaultRec) : (s.faultRecord r).boot.bankA = s.boot.bankA := by
  simp only [State.faultRecord]
@[simp] theorem State.faultRecord_bankB (s : State) (r : FaultRec) : (s.faultRecord r).boot.bankB = s.boot.bankB := by
  simp only [State.faultRecord]
@[simp] theorem State.faultRecord_record (s : State) (r : FaultRec) : (s.faultRecord r).boot.record = s.boot.record := by
  simp only [State.faultRecord]
@[simp] theorem State.faultRecord_stage (s : State) (r : FaultRec) : (s.faultRecord r).boot.stage = s.boot.stage := by
  simp only [State.faultRecord]

/-- The newest fault record in flash is of a kind. -/
def State.Recorded (s : State) (kind : Nat) : Prop :=
  ∃ r, s.boot.faults.getLast? = some r ∧ field r.toNat 63 56 = kind

/-- A record just written is the newest of the ring. -/
theorem State.faultRecord_recorded (s : State) {r : FaultRec} (h : r.kind < 256) : (s.faultRecord r).Recorded r.kind := by
  refine ⟨r.pack s.boot.nextFault (if r.kind = 6 || r.kind = 7 then s.cycle % 2 ^ 48 + s.boot.starts % 2 ^ 16 * 2 ^ 48
    else s.cycle), ?_, (r.kind_pack _ _).trans (Nat.mod_eq_of_lt h)⟩
  simp only [State.faultRecord, List.getLast?_drop]
  simp

/-! ### Nothing but flash and fuses (R325, R4) -/

/-- Memory, contexts and pools are as at power-on, and the banks are those of `b`. -/
def State.OnlyFlash (b : Boot) (u : State) : Prop :=
  u.mem = Global.reset ∧ u.npu.ctxs = NDie.reset.ctxs ∧ (∀ c, (u.core c).pool = [])
    ∧ u.boot.bankA = b.bankA ∧ u.boot.bankB = b.bankB

theorem State.OnlyFlash.of_banks {b b' : Boot} {u : State} (h : State.OnlyFlash b u) (hA : b.bankA = b'.bankA)
    (hB : b.bankB = b'.bankB) : State.OnlyFlash b' u := by
  obtain ⟨hmem, hctxs, hpools, hbankA, hbankB⟩ := h
  exact ⟨hmem, hctxs, hpools, hbankA.trans hA, hbankB.trans hB⟩

theorem State.core_of_cores {s : State} {x : Core} (h : s.cores = Vector.replicate 64 x) (c : CoreId) : s.core c = x := by
  rw [State.core, h, Vector.get_eq_getElem, Vector.getElem_replicate]

@[simp] theorem State.core_reset (c : CoreId) : State.reset.core c = Core.reset := State.core_of_cores rfl c

@[simp] theorem State.clear_stage (s : State) (g : Stage) : (s.clear g).boot.stage = g := by rw [State.clear]
@[simp] theorem State.clear_bankA (s : State) (g : Stage) : (s.clear g).boot.bankA = s.boot.bankA := by rw [State.clear]
@[simp] theorem State.clear_bankB (s : State) (g : Stage) : (s.clear g).boot.bankB = s.boot.bankB := by rw [State.clear]
@[simp] theorem State.clear_record (s : State) (g : Stage) : (s.clear g).boot.record = s.boot.record := by rw [State.clear]
@[simp] theorem State.clear_minSvn (s : State) (g : Stage) : (s.clear g).boot.minSvn = s.boot.minSvn := by rw [State.clear]
@[simp] theorem State.clear_faults (s : State) (g : Stage) : (s.clear g).boot.faults = s.boot.faults := by rw [State.clear]
@[simp] theorem State.clear_bank (s : State) (g : Stage) (k : Bool) : (s.clear g).boot.bank k = s.boot.bank k := by
  rw [Boot.bank, State.clear_bankA, State.clear_bankB, Boot.bank]
@[simp] theorem State.clear_core (s : State) (g : Stage) (c : CoreId) : (s.clear g).core c = Core.reset := State.core_of_cores rfl c

theorem State.clear_onlyFlash (s : State) (g : Stage) : State.OnlyFlash s.boot (s.clear g) :=
  ⟨rfl, rfl, fun c => by rw [State.clear_core]; rfl, rfl, rfl⟩

@[simp] theorem State.clear_get (s : State) (g : Stage) (hi lo : Nat) : (s.clear g).boot.get hi lo = s.boot.get hi lo :=
  Boot.get_congr (s.clear_record g) hi lo
@[simp] theorem State.clear_fails (s : State) (g : Stage) : (s.clear g).boot.fails = s.boot.fails := s.clear_get g 23 16

theorem State.failStart_boot (s : State) (r : Nat) : (s.failStart r).boot = (s.clear .powered).boot.put 47 40 r := rfl

@[simp] theorem State.failStart_core (s : State) (r : Nat) (c : CoreId) : (s.failStart r).core c = Core.reset :=
  State.core_of_cores rfl c

theorem State.failStart_onlyFlash (s : State) (r : Nat) : State.OnlyFlash s.boot (s.failStart r) := by
  refine ⟨rfl, rfl, fun c => ?_, by simp [State.failStart_boot], by simp [State.failStart_boot]⟩
  rw [State.failStart_core]; rfl

@[simp] theorem State.failStart_stage (s : State) (r : Nat) : (s.failStart r).boot.stage = .powered := by
  simp [State.failStart_boot]
@[simp] theorem State.failStart_minSvn (s : State) (r : Nat) : (s.failStart r).boot.minSvn = s.boot.minSvn := by
  simp [State.failStart_boot]
@[simp] theorem State.failStart_fails (s : State) (r : Nat) : (s.failStart r).boot.fails = s.boot.fails := by
  simp [State.failStart_boot, Boot.fails_put_newest]

theorem State.failStart_newest (s : State) {r : Nat} (h : r < 256) : (s.failStart r).boot.get 47 40 = r := by
  rw [State.failStart_boot, Boot.newest_put_newest _ h]

/-! ### The word of an entry (R42) -/

theorem wordStart_toNat (a : XWord) : (wordStart a).toNat = a.toNat / 4 * 4 := by
  have hmask : (0xFFFFFFFFFFFFFFFC : XWord) = BitVec.allOnes 64 <<< 2 := by decide
  have hshift : wordStart a = (a >>> 2) <<< 2 := by
    rw [wordStart, hmask]
    ext i hi
    by_cases h : i < 2
    · simp [h, -BitVec.reduceAllOnes, -BitVec.reduceShiftLeft]
    · simp [h, -BitVec.reduceAllOnes, -BitVec.reduceShiftLeft, show 2 + (i - 2) = i by omega, BitVec.getLsbD_eq_getElem hi]
  have hlt := a.isLt
  rw [hshift, BitVec.toNat_shiftLeft, BitVec.toNat_ushiftRight, Nat.shiftLeft_eq, Nat.shiftRight_eq_div_pow]
  omega

theorem wordStart_ofNat (n : Nat) : wordStart (BitVec.ofNat 64 n) = BitVec.ofNat 64 (n / 4 * 4) := by
  refine BitVec.eq_of_toNat_eq ?_
  rw [wordStart_toNat, BitVec.toNat_ofNat, BitVec.toNat_ofNat]
  omega

/-! ### The body in every carve-out (R325 step 5) -/

theorem length_bankBody_of_verifies {m : Nat} {bank : List Byte} (h : bankVerifies m bank = true) :
    (bankBody bank).length ≤ 2 ^ 24 := by
  have hlen : imLen (bankHeader bank) ≤ 2 ^ 24 := by
    simp only [bankVerifies, Bool.and_eq_true, decide_eq_true_eq] at h
    tauto
  exact (List.length_take_le _ _).trans hlen

/-- A body written at the places of several dies is read back at each: the places are 2^28 bytes apart. -/
theorem memGets_fwBodies {body : List Byte} (hlen : body.length ≤ 2 ^ 28) (d : Nat) (ds : List Nat) {m : Memory}
    (hm : memWf m = true) (h : d ∈ ds ∨ memGets m (Config.fwBody d) body.length = body) :
    memGets (ds.foldl (fun m d => memSets m (Config.fwBody d) body) m) (Config.fwBody d) body.length = body := by
  induction ds generalizing m with
  | nil => simpa using h
  | cons e ds ih =>
    refine ih (memWf_memSets _ _ hm) ?_
    by_cases he : d = e
    · exact .inr (he ▸ memGets_memSets_same body hm)
    · refine h.imp (fun hd => (List.mem_cons.1 hd).resolve_left he) fun hd => ?_
      rw [memGets_memSets_other body hm (by unfold Config.fwBody; omega), hd]

/-! ### The steps of a start (R325) -/

/-- The bank that a start tries first (R325 step 3). -/
def Boot.first (b : Boot) : Bool := if b.fails % 2 = 0 then b.pref else !b.pref

/-- The start counted in the boot record (R325 step 2). -/
def State.counting (s : State) : State := { s with boot := s.boot.counted }

theorem State.start_of_noBank {s : State} (h : ∀ k, bankVerifies s.boot.minSvn (s.boot.bank k) = false) :
    s.start = s.counting.failStart 1 := by
  simp only [State.start]
  rw [← Boot.counted]
  simp [h, State.counting]

theorem State.start_of_first {s : State} (ht : Config.selfTestOk s.tick = true)
    (h : bankVerifies s.boot.minSvn (s.boot.bank s.boot.first) = true) : s.start = s.counting.release s.boot.first := by
  simp only [State.start]
  rw [← Boot.counted, ← Boot.first]
  simp [h, ht, State.counting]

/-! ### Release (R325 step 5) -/

@[simp] theorem State.counting_boot (s : State) : s.counting.boot = s.boot.counted := by rw [State.counting]

theorem State.release_boot (s : State) (k : Bool) : (s.release k).boot =
    { (s.clear .starting).boot with running := k, startKey := (s.clear .starting).free 256 } := rfl

@[simp] theorem State.release_stage (s : State) (k : Bool) : (s.release k).boot.stage = .starting := by simp [State.release_boot]
@[simp] theorem State.release_running (s : State) (k : Bool) : (s.release k).boot.running = k := by simp [State.release_boot]
@[simp] theorem State.release_minSvn (s : State) (k : Bool) : (s.release k).boot.minSvn = s.boot.minSvn := by
  simp [State.release_boot]
@[simp] theorem State.release_bankA (s : State) (k : Bool) : (s.release k).boot.bankA = s.boot.bankA := by simp [State.release_boot]
@[simp] theorem State.release_bankB (s : State) (k : Bool) : (s.release k).boot.bankB = s.boot.bankB := by simp [State.release_boot]
@[simp] theorem State.release_record (s : State) (k : Bool) : (s.release k).boot.record = s.boot.record := by
  simp [State.release_boot]
@[simp] theorem State.release_get (s : State) (k : Bool) (hi lo : Nat) : (s.release k).boot.get hi lo = s.boot.get hi lo :=
  Boot.get_congr (s.release_record k) hi lo
@[simp] theorem State.release_fails (s : State) (k : Bool) : (s.release k).boot.fails = s.boot.fails := s.release_get k 23 16

/-- Every firmware context is released at the entry of the bank's image. -/
theorem State.release_core (s : State) (k : Bool) (c : CoreId) :
    (s.release k).core c = { Core.reset with fw := Fw.released (imEntry (bankHeader (s.boot.bank k))) } := by
  refine State.core_of_cores ?_ c
  simp [State.release, State.clear, State.reset, Boot.bank]

theorem State.release_hbm (s : State) (k : Bool) : (s.release k).mem.hbm =
    ([0, 1, 2, 3] : List Nat).foldl (fun m d => memSets m (Config.fwBody d) (bankBody (s.boot.bank k))) [] := rfl

/-- The body of a bank that verifies lies in every C-die's carve-out. -/
theorem State.release_bodies {s : State} {k : Bool} {m : Nat} (h : bankVerifies m (s.boot.bank k) = true) {d : Nat} (hd : d < 4) :
    memGets (s.release k).mem.hbm (Config.fwBody d) (bankBody (s.boot.bank k)).length = bankBody (s.boot.bank k) := by
  have hlen : (bankBody (s.boot.bank k)).length ≤ 2 ^ 28 := (length_bankBody_of_verifies h).trans (by decide)
  rw [State.release_hbm]
  exact memGets_fwBodies hlen d _ rfl (.inl (by simp; omega))

/-! ### Sage mode (R326) -/

/-- What Sage mode has left of the module whose flash was `b`, before and between its fault records. -/
def State.InSage (b : Boot) (u : State) : Prop :=
  u.boot.stage = .sage ∧ u.boot.record = b.record ∧ State.OnlyFlash b u

theorem State.clear_inSage (s : State) : State.InSage s.boot (s.clear .sage) := ⟨rfl, rfl, s.clear_onlyFlash .sage⟩

theorem State.faultRecord_inSage {b : Boot} {u : State} (h : State.InSage b u) (r : FaultRec) :
    State.InSage b (u.faultRecord r) := by
  obtain ⟨hstage, hrec, hmem, hctxs, hpools, hA, hB⟩ := h
  exact ⟨by simpa, by simpa, by simpa, by simpa, fun c => by simpa [State.core] using hpools c, by simpa, by simpa⟩

theorem State.enterSage_inSage (s : State) : State.InSage s.boot s.enterSage ∧ s.enterSage.Recorded 7 := by
  have hrec (u : State) (code : Nat) (c : CoreId) (h : State.InSage s.boot u) :
      State.InSage s.boot (u.faultRecord (sageRecord code c)) ∧ (u.faultRecord (sageRecord code c)).Recorded 7 :=
    ⟨State.faultRecord_inSage h _, u.faultRecord_recorded (r := sageRecord code c) (show 7 < 256 by decide)⟩
  unfold State.enterSage
  refine List.foldlRecOn (motive := fun u => State.InSage s.boot u ∧ u.Recorded 7) coreIds _ (hrec _ _ _ s.clear_inSage) ?_
  intro u hu c _
  split
  · exact hu
  · exact hrec _ _ _ hu.1

/-! ### The events (R325, R326, R331) -/

/-- The module whose starts have been counted in the fault log's number (R335). -/
def State.numbered (s : State) : State := { s with boot := { s.boot with starts := s.boot.starts + 1 } }

@[simp] theorem State.numbered_bankA (s : State) : s.numbered.boot.bankA = s.boot.bankA := by rw [State.numbered]
@[simp] theorem State.numbered_bankB (s : State) : s.numbered.boot.bankB = s.boot.bankB := by rw [State.numbered]
@[simp] theorem State.numbered_bank (s : State) (k : Bool) : s.numbered.boot.bank k = s.boot.bank k := by
  rw [Boot.bank, State.numbered_bankA, State.numbered_bankB, Boot.bank]
@[simp] theorem State.numbered_minSvn (s : State) : s.numbered.boot.minSvn = s.boot.minSvn := by rw [State.numbered]
@[simp] theorem State.numbered_record (s : State) : s.numbered.boot.record = s.boot.record := by rw [State.numbered]
@[simp] theorem State.numbered_fails (s : State) : s.numbered.boot.fails = s.boot.fails := Boot.get_congr s.numbered_record 23 16
@[simp] theorem State.numbered_tick (s : State) : s.numbered.tick = s.tick := by rw [State.numbered]

/-- Which bank is tried first is a matter of the record. -/
@[simp] theorem State.numbered_first (s : State) : s.numbered.boot.first = s.boot.first := by
  simp [Boot.first, Boot.pref, Boot.get_congr s.numbered_record]

section BootStart
variable {s : State} (hstage : s.boot.stage = .off ∨ s.boot.stage = .powered)
include hstage

theorem exec_bootStart : exec .bootStart s = .next (if s.boot.fails = 3 then s.numbered.enterSage else s.numbered.start) := by
  show execBootStart s = _
  have h : ¬ (decide (s.boot.stage ≠ .off) && decide (s.boot.stage ≠ .powered)) = true := by
    rcases hstage with h | h <;> simp [h]
  rw [execBootStart, if_neg h]
  rfl

/-- R326: the fourth start after three that failed enters Sage mode. -/
theorem bootStart_sage (h3 : s.boot.fails = 3) : Answers .bootStart s fun u =>
    u.boot.stage = .sage ∧ u.boot.fails = 3 ∧ State.OnlyFlash s.boot u ∧ u.Recorded 7 := by
  obtain ⟨⟨hst, hrec, hflash⟩, hlog⟩ := s.numbered.enterSage_inSage
  refine ⟨_, (exec_bootStart hstage).trans (by rw [if_pos h3]), hst, ?_, hflash, hlog⟩
  rw [← h3, Boot.fails, Boot.get, hrec]
  rfl

/-- R325 step 7: a start with no bank that verifies fails with reason 1. -/
theorem bootStart_noBank (h3 : s.boot.fails ≠ 3) (hbank : ∀ k, bankVerifies s.boot.minSvn (s.boot.bank k) = false) :
    Answers .bootStart s fun u => u.boot.stage = .powered
      ∧ (u.boot.fails = (s.boot.fails + 1) % 256 ∧ u.boot.minSvn = s.boot.minSvn)
      ∧ u.boot.get 47 40 = 1 ∧ State.OnlyFlash s.boot u := by
  have hstart : s.numbered.start = s.numbered.counting.failStart 1 := State.start_of_noBank (by simpa using hbank)
  refine ⟨_, (exec_bootStart hstage).trans (by rw [if_neg h3, hstart]), by simp, ⟨?_, by simp⟩, ?_, ?_⟩
  · simp [Boot.counted_fails]
  · exact State.failStart_newest _ (by decide)
  · exact (s.numbered.counting.failStart_onlyFlash 1).of_banks (by simp) (by simp)

/-- R325 steps 2 to 5: the bank that is tried first verifies and is released. -/
theorem bootStart_release (h3 : s.boot.fails ≠ 3) (ht : Config.selfTestOk s.tick = true)
    (hbank : bankVerifies s.boot.minSvn (s.boot.bank s.boot.first) = true) :
    Answers .bootStart s fun u => u.boot.stage = .starting ∧ u.boot.running = s.boot.first
      ∧ (u.boot.fails = (s.boot.fails + 1) % 256 ∧ u.boot.minSvn = s.boot.minSvn) ∧ u.boot.get 47 40 = 6
      ∧ (u.boot.bankA = s.boot.bankA ∧ u.boot.bankB = s.boot.bankB)
      ∧ (∀ c, (u.core c).fw.seq.status = .running
          ∧ (u.core c).fw.seq.pc = BitVec.ofNat 64 (imEntry (bankHeader (s.boot.bank s.boot.first)) / 4 * 4))
      ∧ ∀ d, d < 4 → memGets u.mem.hbm (Config.fwBody d) (bankBody (s.boot.bank s.boot.first)).length
          = bankBody (s.boot.bank s.boot.first) := by
  have hstart : s.numbered.start = s.numbered.counting.release s.boot.first := by
    rw [State.start_of_first (by simpa) (by simpa), State.numbered_first]
  have hsame : s.numbered.counting.boot.bank s.boot.first = s.boot.bank s.boot.first := by simp
  refine ⟨_, (exec_bootStart hstage).trans (by rw [if_neg h3, hstart]), by simp, by simp, ⟨?_, by simp⟩, ?_, ?_,
    fun c => ?_, fun d hd => ?_⟩
  · simp [Boot.counted_fails]
  · simp [Boot.counted_newest]
  · simp
  · rw [State.release_core, hsame]
    exact ⟨rfl, wordStart_ofNat _⟩
  · have hbodies := State.release_bodies (s := s.numbered.counting) (by rw [hsame]; exact hbank) hd
    rwa [hsame] at hbodies

end BootStart

/-- The module made ready (R325 step 6, R320). -/
def State.madeReady (s : State) : State :=
  let h := s.boot.succeeded.runningHeader
  { s with
    boot := { s.boot.succeeded with stage := .ready, minSvn := if imBurn h then imSvn h else s.boot.succeeded.minSvn }
    cores := s.cores.map fun c => { c with fw := { c.fw with share := 4 } }
    cycle := 0, marks := #v[0, 1, 1, 1] }

@[simp] theorem State.madeReady_stage (s : State) : s.madeReady.boot.stage = .ready := rfl
@[simp] theorem State.madeReady_cycle (s : State) : s.madeReady.cycle = 0 := rfl
@[simp] theorem State.madeReady_record (s : State) : s.madeReady.boot.record = s.boot.succeeded.record := by rw [State.madeReady]
@[simp] theorem State.madeReady_get (s : State) (hi lo : Nat) : s.madeReady.boot.get hi lo = s.boot.succeeded.get hi lo :=
  Boot.get_congr s.madeReady_record hi lo
theorem State.madeReady_minSvn (s : State) : s.madeReady.boot.minSvn =
    if imBurn s.boot.runningHeader then imSvn s.boot.runningHeader else s.boot.minSvn := by
  simp only [State.madeReady, Boot.succeeded_runningHeader, Boot.succeeded_minSvn]
theorem State.madeReady_share (s : State) (c : CoreId) : (s.madeReady.core c).fw.share = 4 := by
  simp [State.core, State.madeReady, Vector.get_eq_getElem]

section Ready
variable {s : State} (hstage : s.boot.stage = .starting)
  (hidle : ∀ c, (s.core c).fw.stopped = false ∧ (s.core c).fw.serving = .nothing ∧ (s.core c).fw.seq.status ≠ .running)
include hstage hidle

theorem exec_ready : exec .ready s = .next s.madeReady := by
  have hall : (s.cores.all fun c =>
      !c.fw.stopped && decide (c.fw.serving = .nothing) && decide (c.fw.seq.status ≠ .running)) = true := by
    rw [Vector.all_eq_true]
    intro i hi
    simpa [State.core, Vector.get_eq_getElem, and_assoc] using hidle ⟨i, hi⟩
  show execReady s = _
  rw [execReady, if_neg (by rw [hall]; simp [hstage])]
  rfl

/-- R325 step 6: READY with every firmware context idle. -/
theorem ready_madeReady : Answers .ready s fun u => u.boot.stage = .ready ∧ u.cycle = 0 ∧ u.boot.fails = 0
    ∧ u.boot.pref = s.boot.running ∧ u.boot.get 47 40 = s.boot.get 55 48
    ∧ u.boot.minSvn = (if imBurn s.boot.runningHeader then imSvn s.boot.runningHeader else s.boot.minSvn)
    ∧ ∀ c, (u.core c).fw.share = 4 := by
  refine ⟨_, exec_ready hstage hidle, s.madeReady_stage, s.madeReady_cycle, ?_, ?_, ?_, s.madeReady_minSvn, s.madeReady_share⟩
  · exact (s.madeReady_get 23 16).trans s.boot.succeeded_fails
  · rw [Boot.pref, State.madeReady_get, ← Boot.pref, Boot.succeeded_pref]
  · rw [State.madeReady_get, Boot.succeeded_newest]

end Ready

/-- R325 step 7: a start that fails before ready replaces the newest reason. -/
theorem failStart_answers {s : State} {i : Instr} {r : Nat} (hr : r < 256) (h : exec i s = .next (s.failStart r)) :
    Answers i s fun u => u.boot.stage = .powered ∧ u.boot.get 47 40 = r ∧ State.OnlyFlash s.boot u :=
  ⟨_, h, s.failStart_stage r, s.failStart_newest hr, s.failStart_onlyFlash r⟩

theorem exec_readyTimeout {s : State} (hstage : s.boot.stage = .starting) : exec .readyTimeout s = .next (s.failStart 3) := by
  show execReadyTimeout s = _
  rw [execReadyTimeout, if_pos hstage]

theorem exec_fatalCondition {s : State} (hstage : s.boot.stage = .starting) : exec .fatalCondition s = .next (s.failStart 5) := by
  show execFatalCondition s = _
  rw [execFatalCondition, if_pos hstage]

theorem powerLoss_onlyFlash (s : State) : Answers .powerLoss s fun u =>
    u.boot.stage = .off ∧ State.OnlyFlash s.boot u ∧ u.boot.record = s.boot.record ∧ u.boot.faults = s.boot.faults :=
  ⟨_, rfl, rfl, s.clear_onlyFlash .off, rfl, rfl⟩

/-- R331: above the limit slots and quanta are withheld and the time of the crossing is kept; at or below it nothing is. -/
theorem powerCheck_withholds {s : State} (hstage : s.boot.stage = .ready) (w : Nat) : Answers (.powerCheck w) s fun u =>
    u.npu.power = w ∧ (w ≤ 2800 → u.npu.withheldSlots = false ∧ u.npu.withheldQuanta = false ∧ u.npu.overSince = none)
      ∧ (2800 < w → u.npu.withheldSlots = true ∧ u.npu.withheldQuanta = true
          ∧ u.npu.overSince = some (s.npu.overSince.getD s.cycle)) := by
  refine ⟨_, by show execPowerCheck w s = _; rw [execPowerCheck, if_neg (by simp [hstage])], ?_⟩
  by_cases hw : 2800 < w
  · cases h : s.npu.overSince <;> simp [State.modNpu, powerLimit, hw, h]
  · simp [State.modNpu, powerLimit, hw]

/-- The record of a shutdown (Table 21.4). -/
def shutdownRecord : FaultRec := { kind := 5, code := 0, ctx := 0, core := 0, crew := 0, stream := .x, pc := 0, addr := 0 }

section PowerShutdown
variable {s : State} {t : Nat} (hstage : s.boot.stage = .ready) (hslots : s.npu.withheldSlots = true)
  (hquanta : s.npu.withheldQuanta = true) (hover : s.npu.overSince = some t) (ht : t + 19000000 ≤ s.cycle)
include hstage hslots hquanta hover ht

theorem exec_powerShutdown : exec .powerShutdown s = .next ((s.faultRecord shutdownRecord).clear .off) := by
  have hlong : (s.npu.overSince.any fun t => decide (t + shutdownClocks ≤ s.cycle)) = true := by
    have hclocks : t + shutdownClocks ≤ s.cycle := by rw [shutdownClocks]; exact ht
    rw [hover, Option.any_some, decide_eq_true hclocks]
  show execPowerShutdown s = _
  rw [execPowerShutdown, if_pos (by simp [hstage, hslots, hquanta, hlong]), shutdownRecord]

/-- R331: 10 ms above the limit with both withheld, power is taken away under a record of kind 5. -/
theorem powerShutdown_off :
    Answers .powerShutdown s fun u => u.boot.stage = .off ∧ State.OnlyFlash s.boot u ∧ u.Recorded 5 := by
  obtain ⟨r, hr, hkind⟩ := State.faultRecord_recorded s (r := shutdownRecord) (by decide)
  refine ⟨_, exec_powerShutdown hstage hslots hquanta hover ht, State.clear_stage .., ?_, r, ?_, hkind⟩
  · exact (State.clear_onlyFlash _ .off).of_banks (State.faultRecord_bankA ..) (State.faultRecord_bankB ..)
  · rw [State.clear_faults, hr]

end PowerShutdown

/-- Settles O49: each event of a start, of its end and of the module's power, by the lemma about it. -/
theorem starts : Obligations.Starts := by
  unfold Obligations.Starts
  intro s
  refine ⟨fun hstage => ⟨bootStart_sage hstage, bootStart_noBank hstage, bootStart_release hstage⟩,
    fun hstage => ⟨ready_madeReady hstage, failStart_answers (by decide) (exec_readyTimeout hstage),
      failStart_answers (by decide) (exec_fatalCondition hstage)⟩,
    powerLoss_onlyFlash s, powerCheck_withholds, fun _ => powerShutdown_off⟩

/-! ### The module at power-on (R4, R8, R170, R210, R230, R320) -/

@[simp] theorem State.crewAt_reset (c : CoreId) (k : CrewIx) : State.reset.crewAt c k = Crew.idle := by
  rw [State.crewAt, State.core_reset, Core.crew, Core.reset, Vector.get_eq_getElem, Vector.getElem_replicate]

@[simp] theorem State.die_reset (d : DieId) : State.reset.dies.get d = Die.reset := by
  rw [State.reset, Vector.get_eq_getElem, Vector.getElem_replicate]

/-- Context 0 is reset as the owner's, every other as no owner's (Table 19.4). -/
theorem State.ctx_reset (k : CtxId) : State.reset.ctx k = Ctx.reset (k = 0) := by
  have hval : (k = 0) ↔ (0 : Nat) = k.val := by rw [Fin.ext_iff]; exact eq_comm
  simp only [State.ctx, State.reset, NDie.reset, Vector.get_eq_getElem, Vector.getElem_set, Vector.getElem_replicate, hval]
  split <;> simp_all

theorem Ctx.reset_crewQuota (owner : Bool) : (Ctx.reset owner).crewQuota = if owner then 256 else 0 := by
  cases owner <;> decide
theorem Ctx.reset_scopesGranted (owner : Bool) : (Ctx.reset owner).scopesGranted = if owner then 0x3F else 0x03 := by
  cases owner <;> decide
theorem Ctx.reset_portBudget (owner : Bool) : (Ctx.reset owner).portBudget = 200000 := by cases owner <;> decide
theorem Ctx.reset_guiltLimit (owner : Bool) : (Ctx.reset owner).guiltLimit = 64 := by cases owner <;> decide

/-- No image runs before the first start (R324). -/
theorem State.reset_svnOk : State.reset.SvnOk := by
  rintro (h | h) <;> cases h

/-- Settles O60, part by part of the module at power-on. -/
theorem atReset : Obligations.AtReset := by
  unfold Obligations.AtReset
  refine ⟨State.reset_svnOk, rfl, rfl, rfl, rfl, fun c k => ?_, fun c => ?_, fun d => ?_, fun k => ?_⟩
  · rw [State.crewAt_reset]
    exact ⟨rfl, rfl, rfl, rfl, rfl⟩
  · rw [State.core_reset]
    exact ⟨rfl, rfl⟩
  · rw [State.die_reset]
    exact ⟨rfl, rfl⟩
  · rw [State.ctx_reset]
    exact ⟨rfl, rfl, rfl, rfl, rfl, rfl, by simp [Ctx.reset_crewQuota], by simp [Ctx.reset_scopesGranted],
      Ctx.reset_portBudget _, Ctx.reset_guiltLimit _⟩

end Sys2Proof.Machine
end

section
/-! PROOFS. The float words of X, conversion to INT64, and rounding to FP32 of the values that FP32 holds (R22, R29, R30, R76 to R78). -/

namespace Sys2Proof.Machine

/-! ### The float words of X (R76 to R78) -/

/-- A word of two operands writes the rounding of an exact operation on their values. -/
theorem fopRR_rounds (op : FV → FV → FV) {tk : Tok} {fd fa fb : FReg} {s : State} (h : s.Clear tk) :
    Reaches (fopRR tk fd fa fb s fun a b => toF32 (op (f32 a) (f32 b))) s
      (s.setF fd (toF32 (op (f32 (s.getF fa)) (f32 (s.getF fb))))) := fopRR_runs h rfl

theorem fToX_runs {tk : Tok} {rd : XReg} {fa : FReg} {s : State} {f : W32 → XWord} (h : s.Clear tk) :
    Reaches (fToX tk rd fa s f) s (s.setX rd (f (s.getF fa))) :=
  setX_reaches (f := fun s => f (s.getF fa)) h (by simp only [State.getF_doPops])

theorem xToF_runs {tk : Tok} {fd : FReg} {ra : XReg} {s : State} {f : XWord → W32} (h : s.Clear tk) :
    Reaches (xToF tk fd ra s f) s (s.setF fd (f (s.getX ra))) :=
  setF_reaches (f := fun s => f (s.getX ra)) h (by simp only [State.getX_doPops])

theorem fcmp_runs {tk : Tok} {rd : XReg} {fa fb : FReg} {s : State} {c : FV → FV → Bool} (h : s.Clear tk) :
    Reaches (fcmp tk rd fa fb s c) s (s.setX rd (if c (f32 (s.getF fa)) (f32 (s.getF fb)) then 1 else 0)) :=
  setX_reaches (f := fun s => boolX (c (f32 (s.getF fa)) (f32 (s.getF fb)))) h (by simp only [State.getF_doPops])

theorem ffmaWord_runs {negP negC : Bool} {tk : Tok} {fd fa fb fc : FReg} {s : State} (h : s.Clear tk) :
    Reaches (ffmaWord negP negC tk fd fa fb fc s) s (s.setF fd (fused negP negC (s.getF fa) (s.getF fb) (s.getF fc))) :=
  setF_reaches (f := fun s => fused negP negC (s.getF fa) (s.getF fb) (s.getF fc)) h (by simp only [State.getF_doPops])

/-! ### Conversion to INT64 (R30) -/

theorem fcvtxf_runs {tk : Tok} {rd : XReg} {fa : FReg} {s : State} {v : XWord} (h : s.Clear tk)
    (hv : toInt64 false (s.getF fa) = v) : Runs (.fcvtxf tk rd fa) s (s.setX rd v) := hv ▸ fToX_runs (f := toInt64 false) h

theorem fcvtxfz_runs {tk : Tok} {rd : XReg} {fa : FReg} {s : State} {v : XWord} (h : s.Clear tk)
    (hv : toInt64 true (s.getF fa) = v) : Runs (.fcvtxfz tk rd fa) s (s.setX rd v) := hv ▸ fToX_runs (f := toInt64 true) h

theorem toInt64_of_nan {w : W32} (h : (f32 w).isNan = true) (rz : Bool) : toInt64 rz w = 0 := by
  rw [toInt64]
  cases hv : f32 w with
  | nan => rfl
  | inf s => rw [hv] at h; cases h
  | num s n d e => rw [hv] at h; cases h

theorem toInt64_of_inf {w : W32} {s : Bool} (h : f32 w = .inf s) (rz : Bool) :
    toInt64 rz w = if s then 0x8000000000000000 else 0x7FFFFFFFFFFFFFFF := by
  rw [toInt64, h]
  cases s <;> rfl

/-- A finite value is rounded, then saturated. -/
theorem toInt64_of_finite {w : W32} (h : (f32 w).isFinite = true) (rz : Bool) :
    toInt64 rz w = BitVec.ofInt 64 (Max.max (-(2 ^ 63)) (Min.min (2 ^ 63 - 1) ((f32 w).roundInt rz))) := by
  rw [toInt64]
  cases hv : f32 w with
  | nan => rw [hv] at h; cases h
  | inf s => rw [hv] at h; cases h
  | num s n d e =>
    rw [toIntRange]
    generalize FV.roundInt rz (.num s n d e) = x
    congr 1
    split
    · omega
    · split <;> omega

/-- Settles O10: each word by the rule of its operand form, and the conversions to INT64 by the kind of the value. -/
theorem floatWords : Obligations.FloatWords := by
  unfold Obligations.FloatWords
  refine ⟨fun s tk fd fa fb fc rd ra h => ?_, fun s tk rd fa h => ?_⟩
  · exact ⟨fopRR_rounds FV.add h, fopRR_rounds FV.sub h, fopRR_rounds FV.mul h, fopRR_rounds FV.div h,
      fopR_runs (f := fun a => toF32 (f32 a).sqrt) h rfl,
      ffmaWord_runs h, ffmaWord_runs h, ffmaWord_runs h, ffmaWord_runs h,
      xToF_runs (f := fun a => toF32 (FV.ofInt a.toInt)) h, xToF_runs (f := fun a => a.setWidth 32) h,
      fToX_runs (f := fun a => a.zeroExtend 64) h, fcmp_runs (c := FV.eqv) h, fcmp_runs (c := FV.lt) h, fcmp_runs (c := FV.le) h⟩
  · have both {v : XWord} (hv : ∀ rz, toInt64 rz (s.getF fa) = v) :
        Runs (.fcvtxf tk rd fa) s (s.setX rd v) ∧ Runs (.fcvtxfz tk rd fa) s (s.setX rd v) :=
      ⟨fcvtxf_runs h (hv false), fcvtxfz_runs h (hv true)⟩
    exact ⟨fun hnan => both (toInt64_of_nan hnan), fun hinf => both (toInt64_of_inf hinf),
      fun hinf => both (toInt64_of_inf hinf),
      fun hfin => ⟨fcvtxf_runs h (toInt64_of_finite hfin false), fcvtxfz_runs h (toInt64_of_finite hfin true)⟩⟩

/-! ### Rounding to FP32 (R22, R29) -/

/-- The exponent of an integer's leading bit. -/
theorem flog2_one {n : Nat} (hn : n ≠ 0) (e : Int) : flog2 n 1 e = n.log2 + e := by
  have hle : 2 ^ n.log2 ≤ n := Nat.log2_self_le hn
  have hl : ((n.log2 : Int) - ((Nat.log2 1 : Nat) : Int)) = (n.log2 : Int) := by
    rw [show Nat.log2 1 = 0 by decide]; rfl
  simp only [flog2, hl, pow2]
  rw [if_pos]
  simpa using hle

/-- An integer is not rounded. -/
theorem roundNat_integer (n : Nat) : roundNat n 1 0 = n := by
  simp [roundNat, pow2, Nat.mod_one]

/-- What FP32 writes for a sign. -/
def sign32 (s : Bool) : Nat := if s then 2 ^ 31 else 0

/-- A value on the grid of FP32 keeps its significand: a subnormal one at the least exponent, a normal one with its leading bit. -/
theorem roundTo_of_grid {s : Bool} {n : Nat} {e : Int} (hn : n < 2 ^ 24) (he : -149 ≤ e) (hmax : e ≤ 104)
    (hgrid : e = -149 ∨ 2 ^ 23 ≤ n) :
    roundTo 0 (.num s n 1 e) = sign32 s + if n < 2 ^ 23 then n else (e + 150).toNat * 2 ^ 23 + n - 2 ^ 23 := by
  by_cases h0 : n = 0
  · subst h0
    simp [roundTo, encodeFloat, sign32, ffmt]
  · have hlog : n.log2 < 24 := (Nat.log2_lt h0).2 hn
    have hq : (if flog2 n 1 e - 23 < -149 then (-149 : Int) else flog2 n 1 e - 23) = e := by
      rw [flog2_one h0]
      rcases hgrid with rfl | hb
      · split <;> omega
      · have : 23 ≤ n.log2 := (Nat.le_log2 h0).2 hb
        rw [if_neg] <;> omega
    have hmag : ¬ 0x7F7FFFFF < (if n < 2 ^ 23 then n else (e + 150).toNat * 2 ^ 23 + n - 2 ^ 23) := by split <;> omega
    have he' : (e + 23 + 127).toNat = (e + 150).toNat := by congr 1; omega
    simp only [roundTo, encodeFloat, ffmt, h0]
    norm_num [hq, roundNat_integer, h0, he'] at hmag ⊢
    rw [if_neg (by omega)]
    rfl

/-- The sign of a code, as FP32 writes it. -/
theorem sign32_of_code {c : Nat} (hc : c < 2 ^ 32) : sign32 (c / 2 ^ 31 % 2 = 1) = c / 2 ^ 31 * 2 ^ 31 := by
  unfold sign32
  split <;> simp_all <;> omega

/-- The value of a finite code: on the grid of subnormals, or with its leading bit. -/
theorem decodeFloat_of_finite {c : Nat} (hfin : c / 2 ^ 23 % 2 ^ 8 ≠ 255) :
    decodeFloat 0 c = if c / 2 ^ 23 % 2 ^ 8 = 0 then .num (c / 2 ^ 31 % 2 = 1) (c % 2 ^ 23) 1 (-149)
      else .num (c / 2 ^ 31 % 2 = 1) (c % 2 ^ 23 + 2 ^ 23) 1 ((c / 2 ^ 23 % 2 ^ 8 : Nat) - 150) := by
  simp only [decodeFloat, ffmt]
  norm_num at hfin ⊢
  rw [if_neg hfin]
  split
  · rfl
  · congr 1; omega

theorem decodeFloat_of_special {c : Nat} (hfin : c / 2 ^ 23 % 2 ^ 8 = 255) :
    decodeFloat 0 c = if c % 2 ^ 23 = 0 then .inf (c / 2 ^ 31 % 2 = 1) else .nan := by
  simp only [decodeFloat, ffmt]
  norm_num at hfin ⊢
  exact fun h => absurd hfin h

/-- A finite code is what its value rounds to. -/
theorem roundTo_decodeFloat {c : Nat} (hc : c < 2 ^ 32) (hfin : c / 2 ^ 23 % 2 ^ 8 ≠ 255) :
    roundTo 0 (decodeFloat 0 c) = c := by
  have hs := sign32_of_code hc
  rw [decodeFloat_of_finite hfin]
  split
  · rw [roundTo_of_grid (by omega) (by omega) (by omega) (.inl rfl), if_pos (by omega), hs]
    omega
  · rw [roundTo_of_grid (by omega) (by omega) (by omega) (.inr (by omega)), if_neg (by omega), hs]
    omega

theorem roundTo_inf (s : Bool) : roundTo 0 (.inf s) = sign32 s + 255 * 2 ^ 23 := by cases s <;> rfl

/-- Settles O12: a code is that of a value on the grid, of an infinity, or of a NaN. -/
theorem roundingKeepsValues : Obligations.RoundingKeepsValues := by
  unfold Obligations.RoundingKeepsValues
  intro w
  have hw : w.toNat < 2 ^ 32 := w.isLt
  have keeps {v : FV} (h : roundTo 0 v = w.toNat) : toF32 v = w := by rw [toF32, h, BitVec.ofNat_toNat, BitVec.setWidth_eq]
  by_cases hfin : w.toNat / 2 ^ 23 % 2 ^ 8 = 255
  · have hv : f32 w = _ := decodeFloat_of_special hfin
    by_cases hman : w.toNat % 2 ^ 23 = 0
    · rw [if_pos hman] at hv
      rw [hv]
      refine ⟨fun _ => keeps ?_, fun h => by cases h⟩
      rw [roundTo_inf, sign32_of_code hw]
      omega
    · rw [if_neg hman] at hv
      rw [hv]
      exact ⟨fun h => (by cases h), fun _ => rfl⟩
  · refine ⟨fun _ => keeps (roundTo_decodeFloat hw hfin), fun h => ?_⟩
    rw [f32, decodeFloat_of_finite hfin] at h
    split at h <;> cases h

end Sys2Proof.Machine
end

section
/-! PROOFS. What the matrix array's work for a crew touches, what abandoning its words and trapping at one leave, and the turn, the
chunks and the clock of the array (R32, R34, R144, R215, R219, R303). -/

namespace Sys2Proof.Machine

/-! ### One crew and its core -/

theorem Core.crew_setCrew_ne (c : Core) {j k : CrewIx} (v : Crew) (h : k ≠ j) : (c.setCrew j v).crew k = c.crew k :=
  vget_set_ne _ _ _ _ (Ne.symm h)

/-- From `s` to `u` nothing moved but the executing crew and what its core keeps beside its crews. -/
structure State.Within (s u : State) : Prop where
  cur : u.cur = s.cur
  cycle : u.cycle = s.cycle
  mem : u.mem = s.mem
  core : ∀ o, o ≠ s.cur.core → u.core o = s.core o
  crew : ∀ k, k ≠ s.cur.crew → u.here.crew k = s.here.crew k

theorem State.Within.refl (s : State) : s.Within s := ⟨rfl, rfl, rfl, fun _ _ => rfl, fun _ _ => rfl⟩

theorem State.Within.trans {s t u : State} (h : s.Within t) (k : t.Within u) : s.Within u where
  cur := k.cur.trans h.cur
  cycle := k.cycle.trans h.cycle
  mem := k.mem.trans h.mem
  core o ho := (k.core o (by rwa [h.cur])).trans (h.core o ho)
  crew j hj := (k.crew j (by rwa [h.cur])).trans (h.crew j hj)

/-- An update of the core that leaves its crews. -/
theorem State.Within.modHere {s t : State} (h : s.Within t) {f : Core → Core} (hf : ∀ c k, (f c).crew k = c.crew k) :
    s.Within (t.modHere f) := by
  refine h.trans ⟨rfl, rfl, rfl, fun o ho => State.core_setCore_ne _ _ (Ne.symm ho), fun k _ => ?_⟩
  rw [State.here_modHere, hf]

theorem State.Within.modCrew {s t : State} (h : s.Within t) (f : Crew → Crew) : s.Within (t.modCrew f) := by
  refine h.trans ⟨rfl, rfl, rfl, fun o ho => State.core_setCore_ne _ _ (Ne.symm ho), fun k hk => ?_⟩
  rw [State.modCrew_eq, State.here_setCrew, Core.crew_setCrew_ne _ _ hk]

/-- The crew that the step runs for, found from outside. -/
theorem State.Within.crewAt {s u : State} (h : s.Within u) : u.crewAt s.cur.core s.cur.crew = u.crew := by
  rw [State.crew, h.cur]

theorem State.Within.here {s u : State} (h : s.Within u) : u.core s.cur.core = u.here := by rw [State.here, h.cur]

/-! ### Words abandoned -/

/-- From `s` to `u` nothing moved but queues, rings, locks, traps and sequencers of the executing crew and its core: the pool, the
lease, the tiles and the check tag stay. -/
structure State.Abandons (s u : State) : Prop extends s.Within u where
  pool : u.here.pool = s.here.pool
  lease : u.crew.lease = s.crew.lease
  tiles : u.crew.tiles = s.crew.tiles
  check : u.crew.check = s.crew.check

theorem State.Abandons.refl (s : State) : s.Abandons s := ⟨.refl s, rfl, rfl, rfl, rfl⟩

theorem State.Abandons.trans {s t u : State} (h : s.Abandons t) (k : t.Abandons u) : s.Abandons u :=
  ⟨h.toWithin.trans k.toWithin, k.pool.trans h.pool, k.lease.trans h.lease, k.tiles.trans h.tiles, k.check.trans h.check⟩

theorem State.pool_modCrew (s : State) (f : Crew → Crew) : (s.modCrew f).here.pool = s.here.pool := by
  rw [State.modCrew_eq, State.here_setCrew]; rfl

theorem State.crew_modHere {s : State} {f : Core → Core} (hf : ∀ c k, (f c).crew k = c.crew k) : (s.modHere f).crew = s.crew := by
  rw [State.crew_here, State.here_modHere, hf]; rfl

theorem State.Abandons.modHere {s t : State} (h : s.Abandons t) {f : Core → Core} (hf : ∀ c k, (f c).crew k = c.crew k)
    (hpool : ∀ c, (f c).pool = c.pool) : s.Abandons (t.modHere f) := by
  have hcrew : (t.modHere f).crew = t.crew := State.crew_modHere hf
  exact ⟨h.toWithin.modHere hf, by rw [State.here_modHere, hpool, h.pool], by rw [hcrew, h.lease], by rw [hcrew, h.tiles],
    by rw [hcrew, h.check]⟩

theorem State.Abandons.modCrew {s t : State} (h : s.Abandons t) {f : Crew → Crew} (hl : ∀ c, (f c).lease = c.lease)
    (ht : ∀ c, (f c).tiles = c.tiles) (hc : ∀ c, (f c).check = c.check) : s.Abandons (t.modCrew f) :=
  ⟨h.toWithin.modCrew f, by rw [State.pool_modCrew, h.pool], by rw [State.crew_modCrew, hl, h.lease],
    by rw [State.crew_modCrew, ht, h.tiles], by rw [State.crew_modCrew, hc, h.check]⟩

theorem Core.unlock_crew (c : Core) (id : Nat) (k : CrewIx) : (c.unlock id).crew k = c.crew k := rfl
theorem Core.lock_crew (c : Core) (id : Nat) (banks : List Nat) (k : CrewIx) : (c.lock id banks).crew k = c.crew k := rfl
theorem Core.poolWrite_crew (c : Core) (place : Nat) (b : List Byte) (k : CrewIx) : (c.poolWrite place b).crew k = c.crew k := rfl

/-- A reservation given back moves slots and locks (log 26). -/
theorem State.withdraw_abandons (s : State) (q : Fin 16 × Nat) : s.Abandons (s.withdraw q) := by
  unfold State.withdraw
  refine ((List.foldlRecOn (motive := fun u => s.Abandons u) _ _ (.refl s) fun u hu x _ => ?_).modCrew ?_ ?_ ?_).modCrew ?_ ?_ ?_
  · exact hu.modHere (fun _ _ => rfl) fun _ => rfl
  all_goals exact fun _ => rfl

theorem State.dropMatrix_abandons (s : State) : s.Abandons s.dropMatrix := by
  have hunlock (c : Core) (ms : List MatCmd) : (∀ k, (ms.foldl (fun c m => c.unlock m.id) c).crew k = c.crew k)
      ∧ (ms.foldl (fun c m => c.unlock m.id) c).pool = c.pool :=
    List.foldlRecOn (motive := fun d : Core => (∀ k, d.crew k = c.crew k) ∧ d.pool = c.pool) ms _ ⟨fun _ => rfl, rfl⟩
      fun _ h _ _ => h
  unfold State.dropMatrix
  refine ((List.foldlRecOn (motive := fun u => s.Abandons u) _ _ (.refl s) fun u hu m _ => ?_).modHere
    (fun c => (hunlock c _).1) fun c => (hunlock c _).2).modCrew ?_ ?_ ?_
  · split
    · exact hu.trans (u.withdraw_abandons _)
    · exact hu
  all_goals exact fun _ => rfl

theorem State.dropMatrix_mq (s : State) : s.dropMatrix.crew.mq = [] := by
  unfold State.dropMatrix
  rw [State.crew_modCrew]

theorem State.atWord_abandons (s : State) (m : MatCmd) : s.Abandons (s.atWord m) :=
  (State.Abandons.refl s).modCrew (fun _ => rfl) (fun _ => rfl) fun _ => rfl

/-! ### A trap at a matrix word -/

/-- The record of a trap that C raises. -/
def State.trapOfC (s : State) (t : TrapReq) : Trap :=
  { crew := s.cur.crew, ctx := s.crew.ctx, stream := .c, code := t.code, info := t.info, addr := t.addr, pc := s.crew.seqC.pc,
    clock := s.cycle, restored := false, back := none }

/-- C stopped at its word by a trap. -/
def Crew.stopC (c : Crew) : Crew :=
  { c with seqC := { c.seqC with status := .trapped, wait := none, pushWait := none, issued := true } }

/-- A trap joins those that wait for the core's firmware context. -/
def Core.await (t : Trap) (c : Core) : Core := { c with traps := insertTrap t c.traps }

theorem Core.await_crew (t : Trap) (c : Core) (k : CrewIx) : (c.await t).crew k = c.crew k := rfl

theorem raise_of_c {s : State} (h : s.cur.role = .c) (t : TrapReq) :
    raise t s = (s.modCrew Crew.stopC).modHere (Core.await (s.trapOfC t)) := by
  have hfw : s.cur.role ≠ .fw := by rw [h]; decide
  rw [raise, if_neg hfw, State.modSeq_crew _ hfw, State.pc, State.seq_crew hfw, h]
  rfl

theorem mem_insertTrap (t : Trap) (l : List Trap) : t ∈ insertTrap t l := by
  induction l with
  | nil => exact List.mem_singleton.2 rfl
  | cons u rest ih =>
    rw [insertTrap]
    split
    · exact List.mem_cons_self ..
    · exact List.mem_cons_of_mem _ ih

theorem raise_abandons {s : State} (h : s.cur.role = .c) (t : TrapReq) : s.Abandons (raise t s) := by
  rw [raise_of_c h]
  exact ((State.Abandons.refl s).modCrew (f := Crew.stopC) (fun _ => rfl) (fun _ => rfl) fun _ => rfl).modHere
    (Core.await_crew _) fun _ => rfl

theorem raise_crew {s : State} (h : s.cur.role = .c) (t : TrapReq) : (raise t s).crew = s.crew.stopC := by
  rw [raise_of_c h, State.crew_modHere (Core.await_crew _), State.crew_modCrew]

theorem raise_traps {s : State} (h : s.cur.role = .c) (t : TrapReq) : s.trapOfC t ∈ (raise t s).here.traps := by
  rw [raise_of_c h, State.here_modHere]
  exact mem_insertTrap ..

/-- C stands at a matrix word `m` whose trap the array has raised, none of its words in flight (R19, R59, R89). -/
structure State.TrappedAt (u : State) (m : MatCmd) (t : TrapReq) : Prop where
  status : u.crew.seqC.status = .trapped
  pc : u.crew.seqC.pc = m.pc
  a : u.crew.aC = m.before.a
  mq : u.crew.mq = []
  trap : ∃ q ∈ u.here.traps, q.code = t.code ∧ q.addr = t.addr ∧ q.pc = m.pc

theorem State.atWord_pc (u : State) (m : MatCmd) : (u.atWord m).crew.seqC.pc = m.pc := by
  rw [State.atWord, State.crew_modCrew]

theorem raise_atWord_trapped {u : State} (h : u.cur.role = .c) (hmq : u.crew.mq = []) (m : MatCmd) (t : TrapReq) :
    (raise t (u.atWord m)).TrappedAt m t := by
  have hc : (u.atWord m).cur.role = .c := h
  have hcrew : (raise t (u.atWord m)).crew = (u.atWord m).crew.stopC := raise_crew hc t
  have htrap : (u.atWord m).trapOfC t ∈ (raise t (u.atWord m)).here.traps := raise_traps hc t
  refine ⟨by rw [hcrew]; rfl, by rw [hcrew]; exact u.atWord_pc m, ?_, ?_, _, htrap, rfl, rfl, u.atWord_pc m⟩
  · rw [hcrew, State.atWord, State.crew_modCrew]; rfl
  · rw [hcrew, State.atWord, State.crew_modCrew]; exact hmq

/-! ### The turn of the array (R215) -/

theorem exec_matrixChunk (core : CoreId) (crew : CrewIx) (s : State) :
    exec (.matrixChunk core crew) s = .next (s.actAs core crew .c).arrayTurn := rfl

section Turn
variable {a : State} {m : MatCmd} {rest : List MatCmd} (hmq : a.crew.mq = m :: rest) (hchunk : m.chunk = none)
include hmq hchunk

theorem State.arrayTurn_starts (hdone : m.done < m.op.chunks) (hl : a.crew.lease.contracted = true) :
    a.arrayTurn = a.startChunk m := by
  simp [State.arrayTurn, hmq, hchunk, hdone, hl]

/-- A best-effort chunk is made ready for the quanta that are left. -/
theorem State.arrayTurn_wants (hdone : m.done < m.op.chunks) (hu : a.crew.lease.usable = true)
    (hl : a.crew.lease.contracted = false) : a.arrayTurn = a.setHead { m with wants := true } := by
  simp [State.arrayTurn, hmq, hchunk, hdone, hl, hu]

theorem State.arrayTurn_retires {gather ov ck : Bool} {t ra rb : Fin 16} {n : Nat} (hop : m.op = .mma gather t ra rb n ov ck)
    (hdone : n ≤ m.done) : a.arrayTurn = (a.retireMma m t ra rb n).drainQueue 16 := by
  simp [State.arrayTurn, hmq, hchunk, hop, MatOp.chunks, hdone]

end Turn

/-! ### The accumulators of a chunk (R32, R34, R144) -/

/-- Row by row, the entry of row `i` and column `j` of a product of two lists. -/
theorem getElem?_flatMap_map {α β γ : Type} (g : α → β → γ) {rows : List α} {cols : List β} {i j : Nat} {r : α} {c : β}
    (hr : rows[i]? = some r) (hc : cols[j]? = some c) :
    (rows.flatMap fun x => cols.map (g x))[i * cols.length + j]? = some (g r c) := by
  have hj : j < cols.length := (List.getElem?_eq_some_iff.1 hc).1
  induction rows generalizing i with
  | nil => simp at hr
  | cons x rows ih =>
    rw [List.flatMap_cons]
    cases i with
    | zero =>
      rw [List.getElem?_append_left (by simpa using hj)]
      simp_all
    | succ i =>
      rw [List.getElem?_append_right (by rw [List.length_map, Nat.succ_mul]; omega), List.length_map, ← ih (by simpa using hr)]
      congr 1
      rw [Nat.succ_mul]; omega

theorem length_indexed {α β : Type} (f : Nat → α → β) (i : Nat) (l : List α) : (indexed f i l).length = l.length := by
  induction l generalizing i with
  | nil => rfl
  | cons x l ih => rw [indexed, List.length_cons, ih, List.length_cons]

/-- A chunk writes no more words than the tile holds. -/
theorem length_chunkWords_le (k : ChunkKind) (ow ck : Bool) (a : List (Option (List FV))) (b : List (List FV)) (old : List Nat)
    (fresh : Nat → Nat) : (chunkWords k ow ck a b old fresh).1.length ≤ old.length := by
  have htail (x : List Nat) : (if ck then List.zipWith (accStep k ow) (old.drop (a.length * b.length)) x
      else old.drop (a.length * b.length)).length ≤ old.length - a.length * b.length := by
    split <;> simp
  cases k <;>
    · simp only [chunkWords, length_indexed, List.length_append, List.length_zipWith, List.length_take]
      refine (Nat.add_le_add (Nat.min_le_left _ _) (htail _)).trans ?_
      omega

/-- One accumulator of a chunk whose kind a rule states: the product of its row and its column, taken or added once. -/
theorem getD_chunkWords {k : ChunkKind} (hk : k ≠ .open_) (ow ck : Bool) {rows cols : List (List FV)} {old : List Nat}
    (other : Nat → Nat) {i j : Nat} {ri cj : List FV} (hi : rows[i]? = some ri) (hj : cols[j]? = some cj)
    (hold : rows.length * cols.length ≤ old.length) :
    (chunkWords k ow ck (rows.map some) cols old other).1.getD (i * cols.length + j) 0 =
      accStep k ow (old.getD (i * cols.length + j) 0) (chunkDot k ri cj) := by
  have hin : i * cols.length + j < rows.length * cols.length := by
    have hi' := (List.getElem?_eq_some_iff.1 hi).1
    have hj' := (List.getElem?_eq_some_iff.1 hj).1
    calc i * cols.length + j < (i + 1) * cols.length := by rw [Nat.succ_mul]; omega
      _ ≤ _ := Nat.mul_le_mul_right _ hi'
  have hsum : ((rows.map some).flatMap fun x => cols.map fun y => rowDot k x y)[i * cols.length + j]? = some (chunkDot k ri cj) := by
    rw [getElem?_flatMap_map (rowDot k) (r := some ri) (by simp [hi]) hj]; rfl
  have hacc : old[i * cols.length + j]? = some (old.getD (i * cols.length + j) 0) := by
    rw [List.getD_eq_getElem?_getD, List.getElem?_eq_getElem (by omega)]; rfl
  have hhead : (List.zipWith (accStep k ow) (old.take ((rows.map some).length * cols.length))
      ((rows.map some).flatMap fun x => cols.map fun y => rowDot k x y))[i * cols.length + j]? =
        some (accStep k ow (old.getD (i * cols.length + j) 0) (chunkDot k ri cj)) := by
    rw [List.getElem?_zipWith, hsum, List.getElem?_take_of_lt (by rw [List.length_map]; exact hin), hacc]
  have hwords (tail : List Nat) := List.getElem?_append_left (l₂ := tail) (List.getElem?_eq_some_iff.1 hhead).1
  cases k with
  | open_ => exact absurd rfl hk
  | int => simp only [chunkWords]; rw [List.getD_eq_getElem?_getD, hwords, hhead]; rfl
  | float => simp only [chunkWords]; rw [List.getD_eq_getElem?_getD, hwords, hhead]; rfl

/-! ### A chunk of `mma` (R144, R215, R217) -/

theorem length_flatMap_natLe (n : Nat) (l : List Nat) : (l.flatMap (natLe n)).length = n * l.length := by
  induction l with
  | nil => rfl
  | cons x l ih => rw [List.flatMap_cons, List.length_append, length_natLe, ih, List.length_cons, Nat.mul_succ, Nat.add_comm]

theorem State.length_tileWords (s : State) (t : Tile) : (s.tileWords t).length = tlBytes t.img / 4 := by
  rw [State.tileWords, List.length_map, List.length_range]

theorem four_mul_tlBytes (i : Image) : 4 * (tlBytes i / 4) = tlBytes i := by
  rw [tlBytes, Nat.mul_div_cancel_left _ (by decide)]

/-- The word at the head of the queue with a chunk of `work` quanta under way. -/
def State.chunked (s : State) (m : MatCmd) (work : Nat) (clean : Bool) : MatCmd :=
  { m with
    done := m.done + 1, start := if m.done = 0 then s.cycle else m.start, chunk := some (s.crew.lease.chunk work), clean := clean }

/-- The tile as a chunk of `m` finds it: a run begins at the first chunk of an overwriting word. -/
def State.entered (s : State) (m : MatCmd) (t : Fin 16) (ov : Bool) : Tile :=
  if m.done = 0 && ov then (s.tile t).begin_ s.crew.ctx (s.cycle / 1024) false else { s.tile t with fresh := false }

/-- The tile's trail as a chunk of `m` follows it. -/
def State.followed (s : State) (m : MatCmd) (t : Fin 16) (ov : Bool) : Replay :=
  (s.entered m t ov).replay.enter (m.done = 0 && (ov || (s.tile t).fresh))

/-- What a chunk of `m` runs at. -/
def State.planOf (s : State) (m : MatCmd) (t ra rb : Fin 16) (ov : Bool) : ChunkPlan :=
  let r := s.followed m t ov
  s.chunkPlan (if r.armed && r.begun then governing r.trail r.count else none) (rgFmt (s.ring ra).img) (rgFmt (s.ring rb).img)

@[simp] theorem Tile.img_begin_ (c : CtxId) (e : Nat) (f : Bool) (t : Tile) : (t.begin_ c e f).img = t.img := by rw [Tile.begin_]
@[simp] theorem Tile.replay_begin_ (c : CtxId) (e : Nat) (f : Bool) (t : Tile) : (t.begin_ c e f).replay = t.replay := by
  rw [Tile.begin_]

theorem State.entered_img (s : State) (m : MatCmd) (t : Fin 16) (ov : Bool) : (s.entered m t ov).img = (s.tile t).img := by
  rw [State.entered]
  split
  · rw [Tile.img_begin_]
  · rfl

theorem State.entered_replay (s : State) (m : MatCmd) (t : Fin 16) (ov : Bool) :
    (s.entered m t ov).replay = (s.tile t).replay := by
  rw [State.entered]
  split
  · rw [Tile.replay_begin_]
  · rfl

/-- With no trail armed a chunk runs at the rung of its lease, or as stored. -/
theorem State.planOf_unarmed {s : State} {t : Fin 16} (h : (s.tile t).replay.armed = false) (m : MatCmd) (ra rb : Fin 16) (ov : Bool) :
    s.planOf m t ra rb ov = s.chunkPlan none (rgFmt (s.ring ra).img) (rgFmt (s.ring rb).img) := by
  have hr : s.followed m t ov = (s.tile t).replay := by
    rw [State.followed, s.entered_replay, Replay.enter, h]; rfl
  rw [State.planOf, hr, h]
  rfl

/-- A chunk writes the first words of its tile, replaces the tile's record, and is under way at the head of the queue with the quanta
of its operands. -/
theorem State.runChunk_eq (s : State) (m : MatCmd) (gather : Bool) (t ra rb : Fin 16) (ov ck : Bool) :
    ∃ (ws : List Nat) (T : Tile) (clean : Bool), ws.length ≤ tlBytes (s.tile t).img / 4 ∧ s.runChunk m gather t ra rb ov ck =
      ((s.modHere fun c => c.poolWrite (s.crew.org + tlBase (s.tile t).img) (ws.flatMap (natLe 4))).modTile t fun _ => T).setHead
        (s.chunked m (tlM (s.tile t).img * tlN (s.tile t).img * 32
          * chunkQuanta (s.planOf m t ra rb ov).fa (s.planOf m t ra rb ov).fb) clean) := by
  have himg := s.entered_img m t ov
  have hlen (k : ChunkKind) (ow : Bool) (a : List (Option (List FV))) (b : List (List FV)) (f : Nat → Nat) :
      (chunkWords k ow ck a b (s.tileWords (s.entered m t ov)) f).1.length ≤ tlBytes (s.tile t).img / 4 :=
    (length_chunkWords_le ..).trans_eq (by rw [s.length_tileWords, himg])
  simp only [State.runChunk]
  simp only [← State.entered.eq_1]
  simp only [← State.followed.eq_1]
  simp only [← State.planOf.eq_1]
  simp only [himg]
  refine ⟨_, _, _, ?_, rfl⟩
  split
  · exact hlen ..
  · exact (List.length_take_le' _ _).trans (hlen ..)

theorem State.runChunk_within (s : State) (m : MatCmd) (gather : Bool) (t ra rb : Fin 16) (ov ck : Bool) :
    s.Within (s.runChunk m gather t ra rb ov ck) := by
  obtain ⟨ws, T, clean, -, h⟩ := s.runChunk_eq m gather t ra rb ov ck
  rw [h]
  exact (((State.Within.refl s).modHere fun c => c.poolWrite_crew _ _).modCrew _).modCrew _

/-- What a chunk leaves of the crew: its queue, whose head is under way, and its tiles are all that moves. -/
theorem State.runChunk_crew (s : State) (m : MatCmd) (gather : Bool) (t ra rb : Fin 16) (ov ck : Bool) :
    ∃ tiles clean, (s.runChunk m gather t ra rb ov ck).crew = { s.crew with
      tiles := tiles
      mq := s.chunked m (tlM (s.tile t).img * tlN (s.tile t).img * 32
        * chunkQuanta (s.planOf m t ra rb ov).fa (s.planOf m t ra rb ov).fb) clean :: s.crew.mq.tail } := by
  obtain ⟨ws, T, clean, -, h⟩ := s.runChunk_eq m gather t ra rb ov ck
  refine ⟨s.crew.tiles.set t T, clean, ?_⟩
  rw [h, State.setHead, State.crew_modCrew, State.modTile, State.crew_modCrew, State.crew_modHere fun c => c.poolWrite_crew _ _]

/-- A chunk leaves the pool outside its tile's storage. -/
theorem State.runChunk_pool {s : State} (hwf : memWf s.here.pool = true) (m : MatCmd) (gather : Bool) (t ra rb : Fin 16)
    (ov ck : Bool) {q : Nat} (hq : q < s.crew.org + tlBase (s.tile t).img
      ∨ s.crew.org + tlBase (s.tile t).img + tlBytes (s.tile t).img ≤ q) :
    memGet (s.runChunk m gather t ra rb ov ck).here.pool q = memGet s.here.pool q := by
  obtain ⟨ws, T, clean, hws, h⟩ := s.runChunk_eq m gather t ra rb ov ck
  have h4 := four_mul_tlBytes (s.tile t).img
  rw [h, State.setHead, State.pool_modCrew, State.modTile, State.pool_modCrew, State.here_modHere]
  refine memGet_memSets_other _ hwf (hq.imp_right fun hq => ?_)
  rw [length_flatMap_natLe]
  omega

/-! ### How a chunk of `mma` starts (R144, R303) -/

/-- The word's locks, taken with its first chunk (R138). -/
def State.hold (s : State) (m : MatCmd) (t : Fin 16) : State :=
  if m.done = 0 then s.modHere (fun c => c.lock m.id (s.tileBanks t)) else s

theorem State.hold_abandons (s : State) (m : MatCmd) (t : Fin 16) : s.Abandons (s.hold m t) := by
  rw [State.hold]
  split
  · exact (State.Abandons.refl s).modHere (fun c => c.lock_crew _ _) fun _ => rfl
  · exact .refl s

@[simp] theorem State.hold_crew (s : State) (m : MatCmd) (t : Fin 16) : (s.hold m t).crew = s.crew := by
  rw [State.hold]
  split
  · exact State.crew_modHere fun c => c.lock_crew _ _
  · rfl

@[simp] theorem State.hold_npu (s : State) (m : MatCmd) (t : Fin 16) : (s.hold m t).npu = s.npu := by
  rw [State.hold]
  split <;> rfl

theorem State.chunkPlan_congr {s u : State} (hl : u.crew.lease = s.crew.lease) (hc : u.crew.ctx = s.crew.ctx) (hn : u.npu = s.npu)
    (e : Option Nat) (sa sb : Nat) : u.chunkPlan e sa sb = s.chunkPlan e sa sb := by
  simp only [State.chunkPlan, State.ctx, hl, hc, hn]

/-- The pool ranges of both operands of a chunk. -/
def State.spans (s : State) (m : MatCmd) (gather : Bool) (t ra rb : Fin 16) : List (Nat × Nat) :=
  let g := 32 * m.done
  operandSpans (s.ring ra).img ((s.ring ra).head + g / rgCols (s.ring ra).img) (g % rgCols (s.ring ra).img)
      (if gather then m.glist else List.range (tlM (s.tile t).img))
    ++ operandSpans (s.ring rb).img ((s.ring rb).head + g / rgCols (s.ring rb).img) (g % rgCols (s.ring rb).img)
      (List.range (tlN (s.tile t).img))

theorem State.chunkMma_eq (s : State) (m : MatCmd) (gather : Bool) (t ra rb : Fin 16) (n : Nat) (ov ck : Bool) :
    s.chunkMma m gather t ra rb n ov ck =
      if !s.mayChunk || !(s.ring ra).ready (32 * n / rgCols (s.ring ra).img)
        || !(s.ring rb).ready (32 * n / rgCols (s.ring rb).img) || !s.here.banksFree m.id (s.tileBanks t)
        || (!s.promised m t n && s.spansLocked m.id (s.spans m gather t ra rb)) then s.requestLease
      else match (s.spansBad (s.spans m gather t ra rb)).orElse fun _ =>
          if ov && m.done = 0 then none else s.tileBad (s.tile t) ck with
        | some off => s.arrayTrap m (trapAt codePoolEcc off) s.dropMatrix
        | none => (s.hold m t).runChunk m gather t ra rb ov ck := rfl

/-- All that an attempt at a chunk of `mma` can come to. -/
theorem State.chunkMma_cases (s : State) (m : MatCmd) (gather : Bool) (t ra rb : Fin 16) (n : Nat) (ov ck : Bool) :
    s.chunkMma m gather t ra rb n ov ck = s.requestLease
    ∨ (∃ off, s.chunkMma m gather t ra rb n ov ck = s.arrayTrap m (trapAt codePoolEcc off) s.dropMatrix)
    ∨ s.chunkMma m gather t ra rb n ov ck = (s.hold m t).runChunk m gather t ra rb ov ck := by
  rw [s.chunkMma_eq]
  split
  · exact .inl rfl
  · cases h : (s.spansBad (s.spans m gather t ra rb)).orElse fun _ =>
        if ov && m.done = 0 then none else s.tileBad (s.tile t) ck with
    | some off => exact .inr (.inl ⟨off, rfl⟩)
    | none => exact .inr (.inr rfl)

/-- What a chunk of `mma` waits for: its lease, its slots, its banks, and correctable operands (R140, R144, R219). -/
structure State.ChunkReady (s : State) (m : MatCmd) (gather : Bool) (t ra rb : Fin 16) (n : Nat) : Prop where
  may : s.mayChunk = true
  slotsA : (s.ring ra).ready (32 * n / rgCols (s.ring ra).img) = true
  slotsB : (s.ring rb).ready (32 * n / rgCols (s.ring rb).img) = true
  banks : s.here.banksFree m.id (s.tileBanks t) = true
  spans : s.spansLocked m.id (s.spans m gather t ra rb) = true → s.promised m t n = true
  sound : s.spansBad (s.spans m gather t ra rb) = none

section ChunkReady
variable {s : State} {m : MatCmd} {gather : Bool} {t ra rb : Fin 16} {n : Nat} (h : s.ChunkReady m gather t ra rb n)
include h

theorem State.ChunkReady.goes : (!s.mayChunk || !(s.ring ra).ready (32 * n / rgCols (s.ring ra).img)
    || !(s.ring rb).ready (32 * n / rgCols (s.ring rb).img) || !s.here.banksFree m.id (s.tileBanks t)
    || (!s.promised m t n && s.spansLocked m.id (s.spans m gather t ra rb))) = false := by
  obtain ⟨hmay, hA, hB, hbanks, hspans, -⟩ := h
  rw [hmay, hA, hB, hbanks]
  cases hl : s.spansLocked m.id (s.spans m gather t ra rb)
  · simp
  · simp [hspans hl]

/-- An uncorrectable accumulator that the chunk consumes traps (R303). -/
theorem State.ChunkReady.traps {ov ck : Bool} {off : Nat} (hov : ov = false ∨ 0 < m.done) (hbad : s.tileBad (s.tile t) ck = some off) :
    s.chunkMma m gather t ra rb n ov ck = s.arrayTrap m (trapAt codePoolEcc off) s.dropMatrix := by
  have hconsumes : (ov && decide (m.done = 0)) = false := by
    rcases hov with rfl | h0
    · rfl
    · rw [decide_eq_false (by omega), Bool.and_false]
  simp [s.chunkMma_eq, h.goes, h.sound, hconsumes, hbad]

theorem State.ChunkReady.runs {ov ck : Bool} (hok : (ov = true ∧ m.done = 0) ∨ s.tileBad (s.tile t) ck = none) :
    s.chunkMma m gather t ra rb n ov ck = (s.hold m t).runChunk m gather t ra rb ov ck := by
  have hsound : (if ov && m.done = 0 then none else s.tileBad (s.tile t) ck) = none := by
    rcases hok with ⟨rfl, h0⟩ | hok
    · rw [if_pos (by rw [h0]; rfl)]
    · rw [hok, ite_self]
  simp [s.chunkMma_eq, h.goes, h.sound, -Bool.and_eq_true, hsound]

end ChunkReady

/-! ### Rings and tiles through updates of the crew -/

theorem State.ring_modRing_same (s : State) (i : Fin 16) (f : Ring → Ring) : (s.modRing i f).ring i = f (s.ring i) := by
  rw [State.ring, State.modRing, State.crew_modCrew]
  exact vget_set_same _ _ _

theorem State.ring_modRing_ne (s : State) {i j : Fin 16} (f : Ring → Ring) (h : i ≠ j) : (s.modRing i f).ring j = s.ring j := by
  rw [State.ring, State.modRing, State.crew_modCrew]
  exact vget_set_ne _ _ _ _ h

theorem State.ring_modTile (s : State) (t i : Fin 16) (f : Tile → Tile) : (s.modTile t f).ring i = s.ring i := by
  rw [State.ring, State.modTile, State.crew_modCrew]; rfl

/-! ### Retirement of `mma` (R144, R220) -/

@[simp] theorem State.measure_cores (s : State) (m : MatCmd) (t : Fin 16) (n lat : Nat) : (s.measure m t n lat).cores = s.cores := by
  rw [State.measure]
  split
  · dsimp only
    split
    · rw [State.faultRecord_cores, State.modNpu_cores]
    · rfl
  · rfl

@[simp] theorem State.measure_mem (s : State) (m : MatCmd) (t : Fin 16) (n lat : Nat) : (s.measure m t n lat).mem = s.mem := by
  rw [State.measure]
  split
  · dsimp only
    split
    · rw [State.faultRecord_mem, State.modNpu_mem]
    · rfl
  · rfl

@[simp] theorem State.measure_cur (s : State) (m : MatCmd) (t : Fin 16) (n lat : Nat) : (s.measure m t n lat).cur = s.cur := by
  rw [State.measure]
  split
  · dsimp only
    split <;> rfl
  · rfl

@[simp] theorem State.measure_cycle (s : State) (m : MatCmd) (t : Fin 16) (n lat : Nat) : (s.measure m t n lat).cycle = s.cycle := by
  rw [State.measure]
  split
  · dsimp only
    split <;> rfl
  · rfl

theorem State.measure_here (s : State) (m : MatCmd) (t : Fin 16) (n lat : Nat) : (s.measure m t n lat).here = s.here := by
  rw [State.here, State.core, State.measure_cores, State.measure_cur]; rfl

theorem State.measure_crew (s : State) (m : MatCmd) (t : Fin 16) (n lat : Nat) : (s.measure m t n lat).crew = s.crew := by
  rw [State.crew_here, State.measure_here, State.measure_cur]; rfl

theorem State.measure_within (s : State) (m : MatCmd) (t : Fin 16) (n lat : Nat) : s.Within (s.measure m t n lat) :=
  ⟨s.measure_cur .., s.measure_cycle .., s.measure_mem .., fun o _ => by rw [State.core, State.measure_cores]; rfl,
    fun k _ => by rw [State.measure_here]⟩

theorem State.retireHead_crew (s : State) (m : MatCmd) : (s.retireHead m).crew = { s.crew with mq := s.crew.mq.tail } := by
  rw [State.retireHead, State.crew_modCrew, State.crew_modHere fun c => c.unlock_crew _]

theorem State.retireHead_pool (s : State) (m : MatCmd) : (s.retireHead m).here.pool = s.here.pool := by
  rw [State.retireHead, State.pool_modCrew, State.here_modHere]; rfl

theorem State.retireHead_within (s : State) (m : MatCmd) : s.Within (s.retireHead m) :=
  ((State.Within.refl s).modHere fun c => c.unlock_crew _).modCrew _

/-- The heads of a word's rings past the slots that it has consumed, each ring once. -/
def State.popSlots (s : State) (ra rb : Fin 16) (sa sb : Nat) : State :=
  let u := s.modRing ra (Ring.consume sa)
  if rb = ra then u else u.modRing rb (Ring.consume sb)

theorem State.popSlots_within (s : State) (ra rb : Fin 16) (sa sb : Nat) : s.Within (s.popSlots ra rb sa sb) := by
  rw [State.popSlots]
  split
  · exact (State.Within.refl s).modCrew _
  · exact ((State.Within.refl s).modCrew _).modCrew _

theorem State.popSlots_mq (s : State) (ra rb : Fin 16) (sa sb : Nat) : (s.popSlots ra rb sa sb).crew.mq = s.crew.mq := by
  rw [State.popSlots]
  split
  · rw [State.modRing, State.crew_modCrew]
  · rw [State.modRing, State.modRing, State.crew_modCrew, State.crew_modCrew]

theorem State.popSlots_pool (s : State) (ra rb : Fin 16) (sa sb : Nat) : (s.popSlots ra rb sa sb).here.pool = s.here.pool := by
  rw [State.popSlots]
  split
  · exact State.pool_modCrew ..
  · exact (State.pool_modCrew ..).trans (State.pool_modCrew ..)

theorem State.popSlots_ringA (s : State) (ra rb : Fin 16) (sa sb : Nat) :
    ((s.popSlots ra rb sa sb).ring ra).head = (s.ring ra).head + sa := by
  rw [State.popSlots]
  split
  · rw [State.ring_modRing_same]; rfl
  · rename_i h
    rw [State.ring_modRing_ne _ _ h, State.ring_modRing_same]; rfl

theorem State.popSlots_ringB (s : State) {ra rb : Fin 16} (sa sb : Nat) (h : rb ≠ ra) :
    ((s.popSlots ra rb sa sb).ring rb).head = (s.ring rb).head + sb := by
  rw [State.popSlots]
  rw [if_neg h, State.ring_modRing_same, State.ring_modRing_ne _ _ h.symm]; rfl

/-- Retirement: the tag takes its latency and the records, the heads move, and the head of the queue goes. -/
theorem State.retireMma_eq (s : State) (m : MatCmd) (t ra rb : Fin 16) (n : Nat) :
    ∃ (T : Tile → Tile) (lat : Nat), s.retireMma m t ra rb n = ((((s.modTile t T).popSlots ra rb
      (32 * n / rgCols (s.ring ra).img) (32 * n / rgCols (s.ring rb).img)).measure m t n lat).retireHead m) := ⟨_, _, rfl⟩

theorem State.drainQueue_of_nil {s : State} (h : s.crew.mq = []) (n : Nat) : s.drainQueue n = s := by
  cases n with
  | zero => rfl
  | succ n => rw [State.drainQueue]; simp [h]

/-- The last word of the queue retires: nothing follows it, and the heads of its rings have moved on. -/
structure State.RetiredAlone (s u : State) (ra rb : Fin 16) (n : Nat) : Prop extends s.Within u where
  mq : u.crew.mq = []
  headA : (u.ring ra).head = (s.ring ra).head + 32 * n / rgCols (s.ring ra).img
  headB : rb ≠ ra → (u.ring rb).head = (s.ring rb).head + 32 * n / rgCols (s.ring rb).img
  pool : u.here.pool = s.here.pool

theorem State.retireMma_alone {s : State} {m : MatCmd} (hmq : s.crew.mq = [m]) (t ra rb : Fin 16) (n : Nat) :
    s.RetiredAlone ((s.retireMma m t ra rb n).drainQueue 16) ra rb n := by
  obtain ⟨T, lat, h⟩ := s.retireMma_eq m t ra rb n
  generalize hsa : 32 * n / rgCols (s.ring ra).img = sa at h ⊢
  generalize hsb : 32 * n / rgCols (s.ring rb).img = sb at h ⊢
  have hcrew : (s.retireMma m t ra rb n).crew =
      { ((s.modTile t T).popSlots ra rb sa sb).crew with mq := [] } := by
    rw [h, State.retireHead_crew, State.measure_crew, State.popSlots_mq, State.modTile, State.crew_modCrew]
    dsimp only
    rw [hmq]
    rfl
  have hring (i : Fin 16) : (s.retireMma m t ra rb n).ring i = ((s.modTile t T).popSlots ra rb sa sb).ring i := by
    rw [State.ring, hcrew]; rfl
  have hnil : (s.retireMma m t ra rb n).crew.mq = [] := by rw [hcrew]
  rw [State.drainQueue_of_nil hnil]
  refine ⟨?_, hnil, ?_, fun hne => ?_, ?_⟩
  · rw [h]
    exact ((((State.Within.refl s).modCrew _).trans (State.popSlots_within ..)).trans (State.measure_within ..)).trans
      (State.retireHead_within ..)
  · rw [hring, State.popSlots_ringA, State.ring_modTile, hsa]
  · rw [hring, State.popSlots_ringB _ _ _ hne, State.ring_modTile, hsb]
  · rw [h, State.retireHead_pool, State.measure_here, State.popSlots_pool]
    exact State.pool_modCrew ..

/-! ### The array's turn at an `mma` -/

theorem State.arrayTrap_of_untrapped {s : State} (h : s.seq.status ≠ .trapped) (m : MatCmd) (t : TrapReq) (u : State) :
    s.arrayTrap m t u = raise t (u.atWord m) := by
  rw [State.arrayTrap, if_neg h]

/-- A trap in the array abandons C's words and leaves C at the word that trapped. -/
theorem State.arrayTrap_leaves {s : State} (hr : s.cur.role = .c) (h : s.seq.status ≠ .trapped) (m : MatCmd) (t : TrapReq) :
    s.Abandons (s.arrayTrap m t s.dropMatrix) ∧ (s.arrayTrap m t s.dropMatrix).TrappedAt m t := by
  have hdrop := s.dropMatrix_abandons
  have hrole : s.dropMatrix.cur.role = .c := by rw [hdrop.cur, hr]
  rw [State.arrayTrap_of_untrapped h]
  exact ⟨(hdrop.trans (State.atWord_abandons ..)).trans (raise_abandons (s := s.dropMatrix.atWord m) hrole t),
    raise_atWord_trapped hrole s.dropMatrix_mq m t⟩

/-- A chunk of a contracted word starts: its command is under way at its lease's share, and of the crew and the pool nothing else moves
but its tiles and their storage. -/
structure State.Starts (s u : State) (m : MatCmd) (t ra rb : Fin 16) : Prop extends s.Within u where
  mq : ∃ m2 h, u.crew.mq = m2 :: s.crew.mq.tail ∧ m2.done = m.done + 1 ∧ m2.id = m.id ∧ m2.op = m.op ∧ m2.chunk = some h
    ∧ h.share = some s.crew.lease.share
    ∧ ((s.tile t).replay.armed = false →
        h.left = tlM (s.tile t).img * tlN (s.tile t).img * 32
          * chunkQuanta (s.chunkPlan none (rgFmt (s.ring ra).img) (rgFmt (s.ring rb).img)).fa
              (s.chunkPlan none (rgFmt (s.ring ra).img) (rgFmt (s.ring rb).img)).fb)
  rings : u.crew.rings = s.crew.rings
  v : u.crew.v = s.crew.v
  a : u.crew.aC = s.crew.aC
  pool : ∀ q, q < s.crew.org + tlBase (s.tile t).img ∨ s.crew.org + tlBase (s.tile t).img + tlBytes (s.tile t).img ≤ q →
    memGet u.here.pool q = memGet s.here.pool q

theorem State.runChunk_starts {s : State} (hwf : memWf s.here.pool = true) (hl : s.crew.lease.contracted = true) (m : MatCmd)
    (gather : Bool) (t ra rb : Fin 16) (ov ck : Bool) : s.Starts ((s.hold m t).runChunk m gather t ra rb ov ck) m t ra rb := by
  have hhold := s.hold_abandons m t
  have htile : (s.hold m t).tile t = s.tile t := by rw [State.tile, State.hold_crew]; rfl
  have hring (i : Fin 16) : (s.hold m t).ring i = s.ring i := by rw [State.ring, State.hold_crew]; rfl
  obtain ⟨tiles, clean, hcrew⟩ := (s.hold m t).runChunk_crew m gather t ra rb ov ck
  rw [State.hold_crew] at hcrew
  refine ⟨hhold.toWithin.trans (State.runChunk_within ..), ?_, by rw [hcrew], by rw [hcrew], by rw [hcrew], fun q hq => ?_⟩
  · refine ⟨(s.hold m t).chunked m _ clean, _, congrArg Crew.mq hcrew, rfl, rfl, rfl, rfl, ?_, fun hunarmed => ?_⟩
    · rw [State.hold_crew, Lease.chunk, hl]; rfl
    · rw [Lease.chunk, htile, State.planOf_unarmed (by rw [htile]; exact hunarmed), hring, hring,
        State.chunkPlan_congr (by rw [State.hold_crew]) (by rw [State.hold_crew]) (State.hold_npu ..)]
  · rw [State.runChunk_pool (by rw [hhold.pool]; exact hwf) _ _ _ _ _ _ _ (by rw [State.hold_crew, htile]; exact hq), hhold.pool]

theorem State.Within.crewAt_actAs {s u : State} {core : CoreId} {crew : CrewIx} {r : Role} (h : (s.actAs core crew r).Within u) :
    u.crewAt core crew = u.crew := h.crewAt

theorem State.Within.core_actAs {s u : State} {core : CoreId} {crew : CrewIx} {r : Role} (h : (s.actAs core crew r).Within u) :
    u.core core = u.here := h.here

theorem State.setHead_within (s : State) (m : MatCmd) : s.Within (s.setHead m) := (State.Within.refl s).modCrew _

theorem State.setHead_crew (s : State) (m : MatCmd) : (s.setHead m).crew = { s.crew with mq := m :: s.crew.mq.tail } := by
  rw [State.setHead, State.crew_modCrew]

theorem State.setHead_pool (s : State) (m : MatCmd) : (s.setHead m).here.pool = s.here.pool := State.pool_modCrew ..

section Chunk
variable {s : State} {core : CoreId} {crew : CrewIx} {m : MatCmd} {rest : List MatCmd} {t ra rb : Fin 16} {n : Nat} {gather ov ck : Bool}
  (hmq : (s.actAs core crew .c).crew.mq = m :: rest) (hchunk : m.chunk = none) (hop : m.op = .mma gather t ra rb n ov ck)
include hmq hchunk hop

/-- The turn of the array at a contracted word is an attempt at its next chunk. -/
theorem exec_matrixChunk_contracted (hdone : m.done < n) (hl : (s.actAs core crew .c).crew.lease.contracted = true) :
    exec (.matrixChunk core crew) s = .next ((s.actAs core crew .c).chunkMma m gather t ra rb n ov ck) := by
  rw [exec_matrixChunk, State.arrayTurn_starts hmq hchunk (by rw [hop]; exact hdone) hl, State.startChunk, hop]

theorem matrixChunk_traps {off : Nat} (hdone : m.done < n) (hl : (s.actAs core crew .c).crew.lease.contracted = true)
    (hready : (s.actAs core crew .c).ChunkReady m gather t ra rb n) (hov : ov = false ∨ 0 < m.done)
    (hbad : (s.actAs core crew .c).tileBad ((s.actAs core crew .c).tile t) ck = some off)
    (hst : (s.actAs core crew .c).seq.status ≠ .trapped) :
    ∃ u, exec (.matrixChunk core crew) s = .next u ∧ (s.actAs core crew .c).Abandons u ∧ u.TrappedAt m (trapAt codePoolEcc off) :=
  ⟨_, exec_matrixChunk_contracted hmq hchunk hop hdone hl, by
    rw [hready.traps hov hbad]; exact State.arrayTrap_leaves rfl hst m _⟩

theorem matrixChunk_starts (hwf : memWf (s.actAs core crew .c).here.pool = true) (hdone : m.done < n)
    (hl : (s.actAs core crew .c).crew.lease.contracted = true)
    (hready : (s.actAs core crew .c).ChunkReady m gather t ra rb n)
    (hok : (ov = true ∧ m.done = 0) ∨ (s.actAs core crew .c).tileBad ((s.actAs core crew .c).tile t) ck = none) :
    ∃ u, exec (.matrixChunk core crew) s = .next u ∧ (s.actAs core crew .c).Starts u m t ra rb :=
  ⟨_, exec_matrixChunk_contracted hmq hchunk hop hdone hl, by rw [hready.runs hok]; exact State.runChunk_starts hwf hl ..⟩

theorem matrixChunk_wants (hdone : m.done < n) (hu : (s.actAs core crew .c).crew.lease.usable = true)
    (hl : (s.actAs core crew .c).crew.lease.contracted = false) :
    exec (.matrixChunk core crew) s = .next ((s.actAs core crew .c).setHead { m with wants := true }) := by
  rw [exec_matrixChunk, State.arrayTurn_wants hmq hchunk (by rw [hop]; exact hdone) hu hl]

theorem matrixChunk_retires (hdone : n ≤ m.done) (hrest : rest = []) :
    ∃ u, exec (.matrixChunk core crew) s = .next u ∧ (s.actAs core crew .c).RetiredAlone u ra rb n :=
  ⟨_, by rw [exec_matrixChunk, State.arrayTurn_retires hmq hchunk hop hdone], State.retireMma_alone (hrest ▸ hmq) ..⟩

end Chunk

/-! ### The quanta of a clock (R215, R217) -/

/-- A fold in which one member of the list alone does anything. -/
theorem foldl_eq_of_one {α β : Type} {f : α → β → α} {P : α → Prop} {b : β} (hskip : ∀ a c, P a → c ≠ b → f a c = a) (hP : ∀ a, P a → P (f a b))
    {l : List β} (hnodup : l.Nodup) (hb : b ∈ l) {a : α} (ha : P a) : l.foldl f a = f a b := by
  have hnone (l : List β) (hl : b ∉ l) {a : α} (ha : P a) : l.foldl f a = a := by
    induction l with
    | nil => rfl
    | cons c l ih =>
      rw [List.foldl_cons, hskip a c ha fun h => hl (h ▸ List.mem_cons_self ..)]
      exact ih fun h => hl (List.mem_cons_of_mem _ h)
  induction l with
  | nil => cases hb
  | cons c l ih =>
    rw [List.nodup_cons] at hnodup
    rw [List.foldl_cons]
    by_cases hc : c = b
    · rw [hc] at hnodup ⊢
      exact hnone l hnodup.1 (hP a ha)
    · rw [hskip a c ha hc]
      exact ih hnodup.2 ((List.mem_cons.1 hb).resolve_left (Ne.symm hc))

theorem mem_crewIxs (k : CrewIx) : k ∈ crewIxs := by revert k; decide
theorem nodup_crewIxs : crewIxs.Nodup := by decide

/-- No crew of the core but one has matrix words in flight. -/
def State.Alone (s : State) (core : CoreId) (crew : CrewIx) : Prop := ∀ k, k ≠ crew → (s.crewAt core k).mq = []

/-- What happens for a crew of the array keeps the clock and leaves the other crews of its core. -/
structure State.OnlyCrew (s u : State) (core : CoreId) (crew : CrewIx) : Prop where
  cycle : u.cycle = s.cycle
  crews : ∀ k, k ≠ crew → u.crewAt core k = s.crewAt core k

theorem State.OnlyCrew.alone {s u : State} {core : CoreId} {crew : CrewIx} (h : s.OnlyCrew u core crew) (hs : s.Alone core crew) :
    u.Alone core crew := fun k hk => by rw [h.crews k hk]; exact hs k hk

section AtCrew
variable {core : CoreId} {crew : CrewIx} {f : State → State} (hf : ∀ t : State, t.cur.role = .c → t.Within (f t))
include hf

theorem State.atCrew_onlyCrew (s : State) : s.OnlyCrew (s.atCrew core crew f) core crew := by
  have h := hf (s.actAs core crew .c) rfl
  refine ⟨h.cycle, fun k hk => ?_⟩
  have hcrew := h.crew k hk
  rw [← h.core_actAs] at hcrew
  exact hcrew

/-- What the array has done for a crew is what its turn there has. -/
theorem State.crewAt_atCrew (s : State) : (s.atCrew core crew f).crewAt core crew = (f (s.actAs core crew .c)).crew :=
  (hf (s.actAs core crew .c) rfl).crewAt_actAs

end AtCrew

/-! #### Attempts at a chunk under a contracted lease -/

theorem State.requestLease_within (s : State) : s.Within s.requestLease := (State.Within.refl s).modCrew _

theorem State.requestLease_crew (s : State) : ∃ r, s.requestLease.crew = { s.crew with lease := { s.crew.lease with request := r } } := by
  rw [State.requestLease, State.crew_modCrew]
  split
  · exact ⟨s.crew.lease.request, rfl⟩
  · exact ⟨_, rfl⟩

/-- The lease of the crew is contracted, and its chunk in progress, if there is one, has a share of its own. -/
structure State.Shares (s : State) : Prop where
  contracted : s.crew.lease.contracted = true
  share : ∀ h, s.crew.chunkNow = some h → h.share.isSome = true

theorem State.arrayTrap_within {s : State} (hr : s.cur.role = .c) (m : MatCmd) (t : TrapReq) :
    s.Within (s.arrayTrap m t s.dropMatrix) := by
  by_cases h : s.seq.status = .trapped
  · rw [State.arrayTrap, if_pos h]; exact .refl s
  · exact (State.arrayTrap_leaves hr h m t).1.toWithin

theorem State.arrayTrap_shares {s : State} (hr : s.cur.role = .c) (hs : s.Shares) (m : MatCmd) (t : TrapReq) :
    (s.arrayTrap m t s.dropMatrix).Shares := by
  by_cases h : s.seq.status = .trapped
  · rw [State.arrayTrap, if_pos h]; exact hs
  · obtain ⟨hkeeps, htrapped⟩ := State.arrayTrap_leaves hr h m t
    refine ⟨by rw [hkeeps.lease, hs.contracted], fun c hc => ?_⟩
    rw [Crew.chunkNow, htrapped.mq] at hc
    cases hc

theorem State.chunkMma_within {s : State} (hr : s.cur.role = .c) (m : MatCmd) (gather : Bool) (t ra rb : Fin 16) (n : Nat)
    (ov ck : Bool) : s.Within (s.chunkMma m gather t ra rb n ov ck) := by
  rcases s.chunkMma_cases m gather t ra rb n ov ck with h | ⟨off, h⟩ | h
  · rw [h]; exact s.requestLease_within
  · rw [h]; exact State.arrayTrap_within hr _ _
  · rw [h]; exact (s.hold_abandons m t).toWithin.trans (State.runChunk_within ..)

theorem State.chunkMma_shares {s : State} (hr : s.cur.role = .c) (hs : s.Shares) (m : MatCmd) (gather : Bool) (t ra rb : Fin 16)
    (n : Nat) (ov ck : Bool) : (s.chunkMma m gather t ra rb n ov ck).Shares := by
  rcases s.chunkMma_cases m gather t ra rb n ov ck with h | ⟨off, h⟩ | h
  · obtain ⟨r, hcrew⟩ := s.requestLease_crew
    rw [h]
    exact ⟨by rw [hcrew]; exact hs.contracted, by rw [hcrew]; exact hs.share⟩
  · rw [h]; exact State.arrayTrap_shares hr hs _ _
  · obtain ⟨tiles, clean, hcrew⟩ := (s.hold m t).runChunk_crew m gather t ra rb ov ck
    rw [State.hold_crew] at hcrew
    rw [h]
    refine ⟨by rw [hcrew]; exact hs.contracted, fun c hc => ?_⟩
    rw [Crew.chunkNow, hcrew] at hc
    cases hc
    rw [State.hold_crew, Lease.chunk, hs.contracted]
    rfl

/-! #### Giving quanta to a word -/

theorem Crew.chunkNow_of_mq {c : Crew} {m : MatCmd} {rest : List MatCmd} (h : c.mq = m :: rest) : c.chunkNow = m.chunk := by
  rw [Crew.chunkNow, h]

theorem Crew.give_mq {c : Crew} {m : MatCmd} {rest : List MatCmd} (h : c.mq = m :: rest) (n : Nat) :
    (c.give n).mq = { m with chunk := m.chunk.map fun h => { h with left := h.left - n } } :: rest := by
  rw [Crew.give, h]

theorem Crew.give_chunkNow (c : Crew) (n : Nat) : (c.give n).chunkNow = c.chunkNow.map fun h => { h with left := h.left - n } := by
  cases h : c.mq with
  | nil => rw [Crew.chunkNow, Crew.chunkNow, Crew.give, h]; rfl
  | cons m rest => rw [Crew.chunkNow_of_mq h, Crew.chunkNow_of_mq (Crew.give_mq h n)]

theorem State.give_shares {s : State} (hs : s.Shares) (n : Nat) : (s.modCrew fun c => c.give n).Shares := by
  refine ⟨by rw [State.crew_modCrew]; exact hs.contracted, fun c hc => ?_⟩
  rw [State.crew_modCrew, Crew.give_chunkNow, Option.map_eq_some_iff] at hc
  obtain ⟨h, hh, rfl⟩ := hc
  exact hs.share h hh

/-- A word whose chunks are counted together is an `mma` under a contracted lease (R219). -/
theorem State.runsOn_mma {s : State} {m : MatCmd} (h : s.runsOn m = true) :
    s.crew.lease.contracted = true ∧ ∃ gather t ra rb n ov ck, m.op = .mma gather t ra rb n ov ck := by
  rw [State.runsOn] at h
  cases hop : m.op with
  | mma gather t ra rb n ov ck =>
    rw [hop] at h
    simp only [Bool.and_eq_true] at h
    obtain ⟨⟨⟨⟨-, -⟩, hc⟩, -⟩, -⟩ := h
    exact ⟨hc, gather, t, ra, rb, n, ov, ck, rfl⟩
  | _ => rw [hop] at h; cases h

/-- A word whose chunk in progress ends with this clock. -/
def State.ended (s : State) (m : MatCmd) : MatCmd := { m with chunk := none, ends := s.cycle + 1 }

section GiveOwn
variable {s : State} {m : MatCmd} {rest : List MatCmd} {h : Chunk}

theorem State.giveOwn_of_none (hs : s.crew.chunkNow = none) (k n : Nat) : s.giveOwn (k + 1) n = s := by
  rw [State.giveOwn, hs]
  cases s.crew.mq <;> rfl

variable (hmq : s.crew.mq = m :: rest) (hchunk : m.chunk = some h)
include hmq hchunk

/-- Quanta that a chunk needs, or that its word does not take on, are given to it. -/
theorem State.giveOwn_gives {n : Nat} (hn : n ≤ h.left ∨ s.runsOn m = false) (k : Nat) :
    s.giveOwn (k + 1) n = s.modCrew fun c => c.give n := by
  rw [State.giveOwn, Crew.chunkNow_of_mq hmq, hmq, hchunk]
  exact if_pos (by rcases hn with hn | hn <;> simp [hn])

/-- What is over goes on to the word's next chunk. -/
theorem State.giveOwn_goesOn {n : Nat} (hn : h.left < n) (hruns : s.runsOn m = true) (k : Nat) :
    s.giveOwn (k + 1) n = ((s.setHead (s.ended m)).startChunk (s.ended m)).giveOwn k
      (ceilDiv ((n - h.left) * s.crew.lease.share) (h.share.getD 1)) := by
  rw [State.giveOwn, Crew.chunkNow_of_mq hmq, hmq, hchunk]
  exact if_neg (by simp [hruns, hn])

end GiveOwn

/-- The next chunk of a word whose chunks are counted together. -/
theorem State.startChunk_of_runsOn {s : State} (hr : s.cur.role = .c) {m : MatCmd} (hruns : s.runsOn m = true) :
    s.Within ((s.setHead (s.ended m)).startChunk (s.ended m)) ∧ ((s.setHead (s.ended m)).startChunk (s.ended m)).Shares := by
  obtain ⟨hc, gather, t, ra, rb, n, ov, ck, hop⟩ := State.runsOn_mma hruns
  have hshares : (s.setHead (s.ended m)).Shares := by
    refine ⟨by rw [State.setHead_crew]; exact hc, fun c hc => ?_⟩
    rw [State.setHead_crew, Crew.chunkNow_of_mq rfl] at hc
    cases hc
  have hstart : (s.setHead (s.ended m)).startChunk (s.ended m) =
      (s.setHead (s.ended m)).chunkMma (s.ended m) gather t ra rb n ov ck := by
    rw [State.startChunk, show (s.ended m).op = _ from hop]
  rw [hstart]
  exact ⟨(s.setHead_within _).trans (State.chunkMma_within (s := s.setHead (s.ended m)) hr ..),
    State.chunkMma_shares (s := s.setHead (s.ended m)) hr hshares ..⟩

theorem State.giveOwn_keeps (k : Nat) {s : State} (hr : s.cur.role = .c) (n : Nat) :
    s.Within (s.giveOwn k n) ∧ (s.Shares → (s.giveOwn k n).Shares) := by
  induction k generalizing s n with
  | zero => exact ⟨(State.Within.refl s).modCrew _, fun hs => State.give_shares hs n⟩
  | succ k ih =>
    cases hmq : s.crew.mq with
    | nil =>
      rw [State.giveOwn_of_none (by rw [Crew.chunkNow, hmq])]
      exact ⟨.refl s, id⟩
    | cons m rest =>
      cases hchunk : m.chunk with
      | none =>
        rw [State.giveOwn_of_none (by rw [Crew.chunkNow_of_mq hmq, hchunk])]
        exact ⟨.refl s, id⟩
      | some h =>
        by_cases hn : n ≤ h.left ∨ s.runsOn m = false
        · rw [State.giveOwn_gives hmq hchunk hn]
          exact ⟨(State.Within.refl s).modCrew _, fun hs => State.give_shares hs n⟩
        · rw [not_or, Nat.not_le, Bool.not_eq_false] at hn
          obtain ⟨hwithin, hshares⟩ := State.startChunk_of_runsOn hr hn.2
          rw [State.giveOwn_goesOn hmq hchunk hn.1 hn.2]
          obtain ⟨hw, hsh⟩ := ih (by rw [hwithin.cur]; exact hr)
            (ceilDiv ((n - h.left) * s.crew.lease.share) (h.share.getD 1))
          exact ⟨hwithin.trans hw, fun _ => hsh hshares⟩

theorem State.giveOwn_within (k n : Nat) (t : State) (hr : t.cur.role = .c) : t.Within (t.giveOwn k n) :=
  (State.giveOwn_keeps k hr n).1

theorem State.Within.ite {s x y : State} {p : Prop} [Decidable p] (hx : s.Within x) (hy : s.Within y) : s.Within (if p then x else y) := by
  split
  · exact hx
  · exact hy

theorem State.chunkHad_within {s : State} (hr : s.cur.role = .c) (m : MatCmd) (rd rs : Fin 16) (order sign : BitVec 2) (slot : Nat) :
    s.Within (s.chunkHad m rd rs order sign slot) := by
  rw [State.chunkHad]
  refine State.Within.ite s.requestLease_within ?_
  split
  · exact State.arrayTrap_within hr _ _
  · refine State.Within.trans (State.Within.modCrew (State.Within.modHere (.refl s) ?_) _) (State.setHead_within ..)
    exact fun c k => ((c.poolWrite _ _).poolWrite_crew _ _ k).trans (c.poolWrite_crew _ _ k)

/-- The start of a chunk of any word is the work of one crew. -/
theorem State.startChunk_within {s : State} (hr : s.cur.role = .c) (m : MatCmd) : s.Within (s.startChunk m) := by
  rw [State.startChunk]
  split
  · exact State.chunkMma_within hr ..
  · exact State.chunkHad_within hr ..
  all_goals exact .refl s

/-! #### The clock of a core's array (R215) -/

section OwnQuanta
variable {s : State} {core : CoreId} {fixed : Bool} {crew : CrewIx}

theorem State.ownQuanta_none (h : (s.crewAt core crew).chunkNow = none) (part rest : Nat) :
    s.ownQuanta core fixed part rest crew = (s, rest) := by
  rw [State.ownQuanta, h]

theorem State.ownQuanta_other {h : Chunk} (hc : (s.crewAt core crew).chunkNow = some h) (hs : h.share.isSome ≠ fixed) (part rest : Nat) :
    s.ownQuanta core fixed part rest crew = (s, rest) := by
  rw [State.ownQuanta, hc]
  exact if_pos hs

/-- The quanta of its own that a chunk gets in a clock. -/
def State.ownPart (s : State) (core : CoreId) (part rest : Nat) (crew : CrewIx) (h : Chunk) : Nat :=
  h.share.getD (Min.min (Min.min (s.crewAt core crew).lease.share part) rest)

theorem State.ownQuanta_gives {h : Chunk} (hc : (s.crewAt core crew).chunkNow = some h) (hs : h.share.isSome = fixed) (part rest : Nat) :
    s.ownQuanta core fixed part rest crew =
      (s.atCrew core crew fun s' => s'.giveOwn 256 (s.ownPart core part rest crew h), rest - s.ownPart core part rest crew h) := by
  rw [State.ownQuanta, hc]
  exact if_neg (by simp [hs])

theorem State.OnlyCrew.refl (s : State) (core : CoreId) (crew : CrewIx) : s.OnlyCrew s core crew := ⟨rfl, fun _ _ => rfl⟩

theorem State.OnlyCrew.trans {t u : State} (h : s.OnlyCrew t core crew) (k : t.OnlyCrew u core crew) : s.OnlyCrew u core crew :=
  ⟨k.cycle.trans h.cycle, fun j hj => (k.crews j hj).trans (h.crews j hj)⟩

theorem State.ownQuanta_onlyCrew (s : State) (core : CoreId) (fixed : Bool) (part rest : Nat) (crew : CrewIx) :
    s.OnlyCrew (s.ownQuanta core fixed part rest crew).1 core crew := by
  cases hc : (s.crewAt core crew).chunkNow with
  | none => rw [State.ownQuanta_none hc]; exact .refl ..
  | some h =>
    by_cases hs : h.share.isSome = fixed
    · rw [State.ownQuanta_gives hc hs]
      exact State.atCrew_onlyCrew (State.giveOwn_within _ _) s
    · rw [State.ownQuanta_other hc hs]; exact .refl ..

end OwnQuanta

theorem Crew.chunkNow_of_nil {c : Crew} (h : c.mq = []) : c.chunkNow = none := by rw [Crew.chunkNow, h]

theorem Crew.readyBest_of_nil {c : Crew} (h : c.mq = []) : c.readyBest = false := by rw [Crew.readyBest, h]

theorem Crew.readyBest_of_chunk {c : Crew} {h : Chunk} (hc : c.chunkNow = some h) : c.readyBest = false := by
  cases hmq : c.mq with
  | nil => exact Crew.readyBest_of_nil hmq
  | cons m rest =>
    rw [Crew.chunkNow_of_mq hmq] at hc
    simp [Crew.readyBest, hmq, hc]

theorem Crew.readyBest_of_contracted {c : Crew} (h : c.lease.contracted = true) : c.readyBest = false := by
  rw [Crew.readyBest]
  split
  · rw [h, Bool.not_true, Bool.and_false]
  · rfl

/-- A crew that takes no part in the quanta that are left: no best-effort chunk of its is in progress or ready. -/
structure Crew.NoExcess (c : Crew) : Prop where
  ready : c.readyBest = false
  share : ∀ h, c.chunkNow = some h → h.share.isSome = true

theorem Crew.noExcess_of_nil {c : Crew} (h : c.mq = []) : c.NoExcess :=
  ⟨Crew.readyBest_of_nil h, fun k hk => by rw [Crew.chunkNow_of_nil h] at hk; cases hk⟩

/-- The next chunk of the word at the head of the queue. -/
def State.startFirst (s : State) : State :=
  match s.crew.mq with
  | m :: _ => s.startChunk m
  | [] => s

theorem State.startFirst_within (s : State) (hr : s.cur.role = .c) : s.Within s.startFirst := by
  rw [State.startFirst]
  split
  · exact State.startChunk_within hr _
  · exact .refl s

/-- A best-effort chunk that is ready starts where quanta are left. -/
def State.startBest (core : CoreId) (acc : State × Nat) (k : CrewIx) : State :=
  if 0 < acc.2 && (acc.1.crewAt core k).readyBest then acc.1.atCrew core k State.startFirst else acc.1

/-- A best-effort chunk takes what it needs of the quanta that are left. -/
def State.giveBest (core : CoreId) (s : State) (left : Nat) (k : CrewIx) : State × Nat :=
  match (s.crewAt core k).chunkNow with
  | some h =>
    if h.share.isSome then (s, left)
    else (s.modCrewAt core k fun c => c.give (Min.min h.left left), left - Min.min h.left left)
  | none => (s, left)

theorem State.takeExcess_eq (core : CoreId) (acc : State × Nat) (k : CrewIx) :
    State.takeExcess core acc k = State.giveBest core (State.startBest core acc k) acc.2 k := rfl

theorem State.modCrewAt_onlyCrew (s : State) (core : CoreId) (crew : CrewIx) (f : Crew → Crew) :
    s.OnlyCrew (s.modCrewAt core crew f) core crew := by
  refine ⟨rfl, fun k hk => ?_⟩
  rw [State.modCrewAt, State.setCrewAt, State.crewAt, State.core_setCore, Core.crew_setCrew_ne _ _ hk]; rfl

section TakeExcess
variable {acc : State × Nat} {core : CoreId} {crew : CrewIx}

theorem State.startBest_of_unready (h : (acc.1.crewAt core crew).readyBest = false) : State.startBest core acc crew = acc.1 := by
  rw [State.startBest, h, Bool.and_false]
  rfl

theorem State.takeExcess_of_noExcess (h : (acc.1.crewAt core crew).NoExcess) : State.takeExcess core acc crew = acc := by
  rw [State.takeExcess_eq, State.startBest_of_unready h.ready, State.giveBest]
  cases hc : (acc.1.crewAt core crew).chunkNow with
  | none => rfl
  | some k => exact if_pos (h.share k hc)

theorem State.takeExcess_gives {h : Chunk} (hc : (acc.1.crewAt core crew).chunkNow = some h) (hs : h.share = none) :
    State.takeExcess core acc crew =
      (acc.1.modCrewAt core crew fun c => c.give (Min.min h.left acc.2), acc.2 - Min.min h.left acc.2) := by
  rw [State.takeExcess_eq, State.startBest_of_unready (Crew.readyBest_of_chunk hc), State.giveBest, hc]
  exact if_neg (by rw [hs]; decide)

theorem State.takeExcess_onlyCrew (core : CoreId) (acc : State × Nat) (crew : CrewIx) :
    acc.1.OnlyCrew (State.takeExcess core acc crew).1 core crew := by
  have hstart : acc.1.OnlyCrew (State.startBest core acc crew) core crew := by
    rw [State.startBest]
    split
    · exact State.atCrew_onlyCrew State.startFirst_within _
    · exact .refl ..
  refine hstart.trans ?_
  rw [State.takeExcess_eq, State.giveBest]
  split
  · split
    · exact .refl ..
    · dsimp only
      exact State.modCrewAt_onlyCrew ..
  · exact .refl ..

end TakeExcess

theorem State.crewAt_modCrewAt (s : State) (core : CoreId) (k : CrewIx) (f : Crew → Crew) :
    (s.modCrewAt core k f).crewAt core k = f (s.crewAt core k) := by
  rw [State.modCrewAt, State.setCrewAt, State.crewAt, State.core_setCore, Core.crew_setCrew]

theorem State.crewAt_modCore_map (s : State) (core : CoreId) (k : CrewIx) (g : Core → Crew → Crew) :
    ((s.modCore core fun c => { c with crews := c.crews.map (g c) }).crewAt core k) = g (s.core core) (s.crewAt core k) := by
  rw [State.crewAt, State.modCore, State.core_setCore, Core.crew]
  simp [State.crewAt, Core.crew, Vector.get_eq_getElem]

/-- The end of an array's clock: chunks that have their quanta end, and gates open. -/
def State.endClock (s : State) (core : CoreId) : State :=
  (s.modCore core fun c => { c with crews := c.crews.map (Crew.endChunk s.cycle) }).modCore core fun c =>
    { c with crews := c.crews.map fun w =>
      { w with lease := { w.lease with gate := w.lease.gate.filter fun k => (c.crew k).chunking } } }

theorem State.endClock_mq (s : State) (core : CoreId) (k : CrewIx) :
    ((s.endClock core).crewAt core k).mq = (Crew.endChunk s.cycle (s.crewAt core k)).mq := by
  rw [State.endClock, State.crewAt_modCore_map _ _ _ fun c w =>
    { w with lease := { w.lease with gate := w.lease.gate.filter fun k => (c.crew k).chunking } },
    State.crewAt_modCore_map _ _ _ fun _ => Crew.endChunk s.cycle]

/-- With one crew alone on its core's array, its chunk in progress gets quanta of its own. -/
theorem State.foldl_ownQuanta {acc : State × Nat} {core : CoreId} {crew : CrewIx} (h : acc.1.Alone core crew) (fixed : Bool) (part : Nat) :
    crewIxs.foldl (fun a k => a.1.ownQuanta core fixed part a.2 k) acc = acc.1.ownQuanta core fixed part acc.2 crew :=
  foldl_eq_of_one (P := fun a => a.1.Alone core crew)
    (fun a _ ha hk => State.ownQuanta_none (Crew.chunkNow_of_nil (ha _ hk)) part a.2)
    (fun a ha => (a.1.ownQuanta_onlyCrew core fixed part a.2 crew).alone ha) nodup_crewIxs (mem_crewIxs crew) h

theorem State.foldl_takeExcess {acc : State × Nat} {core : CoreId} {crew : CrewIx} (h : acc.1.Alone core crew) :
    crewIxs.foldl (State.takeExcess core) acc = State.takeExcess core acc crew :=
  foldl_eq_of_one (P := fun a => a.1.Alone core crew)
    (fun _ k ha hk => State.takeExcess_of_noExcess (Crew.noExcess_of_nil (ha k hk)))
    (fun a ha => (State.takeExcess_onlyCrew core a crew).alone ha) nodup_crewIxs (mem_crewIxs crew) h

/-- The quanta of a clock of a core's array where one crew is alone on it: as a contracted chunk, as a best-effort one with the equal
part `part`, and what is left. -/
def State.quantaOf (s : State) (core : CoreId) (crew : CrewIx) (part : Nat) : State :=
  let own := s.ownQuanta core true 0 arrayQuanta crew
  if s.npu.withheldQuanta then own.1 else (State.takeExcess core (own.1.ownQuanta core false part own.2 crew) crew).1

theorem State.quantaOf_cycle (s : State) (core : CoreId) (crew : CrewIx) (part : Nat) : (s.quantaOf core crew part).cycle = s.cycle := by
  have hown := s.ownQuanta_onlyCrew core true 0 arrayQuanta crew
  rw [State.quantaOf]
  split
  · exact hown.cycle
  · exact ((hown.trans (State.ownQuanta_onlyCrew ..)).trans (State.takeExcess_onlyCrew ..)).cycle

/-- The clock of an array that one crew is alone on, with a chunk in progress: its quanta, then the chunk's end. -/
theorem State.arrayClock_alone {s : State} {core : CoreId} {crew : CrewIx} (halone : s.Alone core crew) {m : MatCmd} {rest : List MatCmd}
    {h : Chunk} (hmq : (s.crewAt core crew).mq = m :: rest) (hchunk : m.chunk = some h) :
    ∃ part, s.arrayClock core = (s.quantaOf core crew part).endClock core := by
  have hall : ¬ (crewIxs.all fun k => (s.crewAt core k).mq.isEmpty) = true := by
    rw [List.all_eq_true]
    intro h
    have := h crew (mem_crewIxs crew)
    rw [hmq] at this
    cases this
  have hgo (k : CrewIx) : (s.crewAt core k).mustGoOn s.cycle = false := by
    by_cases hk : k = crew
    · simp [hk, Crew.mustGoOn, hmq, hchunk]
    · simp [Crew.mustGoOn, halone k hk]
  have hturns : crewIxs.foldl (fun s k =>
      if (s.crewAt core k).mustGoOn s.cycle then s.atCrew core k State.arrayTurn else s) s = s :=
    List.foldl_fixed' (fun k => if_neg (by rw [hgo k]; decide)) _
  have hown : (s.ownQuanta core true 0 arrayQuanta crew).1.Alone core crew := (s.ownQuanta_onlyCrew ..).alone halone
  have hbest (part : Nat) : ((s.ownQuanta core true 0 arrayQuanta crew).1.ownQuanta core false part
      (s.ownQuanta core true 0 arrayQuanta crew).2 crew).1.Alone core crew := (State.ownQuanta_onlyCrew ..).alone hown
  rw [State.arrayClock, if_neg hall]
  simp only [hturns, State.foldl_ownQuanta (acc := (s, arrayQuanta)) halone, State.foldl_ownQuanta hown,
    State.foldl_takeExcess (hbest _)]
  exact ⟨_, rfl⟩

theorem Crew.endChunk_mq {c : Crew} {m : MatCmd} {rest : List MatCmd} {h : Chunk} (hmq : c.mq = m :: rest) (hchunk : m.chunk = some h)
    (cycle : Nat) : (c.endChunk cycle).mq = (if h.left = 0 then { m with chunk := none, ends := cycle + 1 } else m) :: rest := by
  rw [Crew.endChunk, hmq]
  dsimp only
  rw [hchunk]
  simp

theorem State.Shares.noExcess {s : State} (h : s.Shares) : s.crew.NoExcess := ⟨Crew.readyBest_of_contracted h.contracted, h.share⟩

section AloneClock
variable {s : State} {core : CoreId} {crew : CrewIx}

theorem State.ownQuanta_of_noExcess (h : (s.crewAt core crew).NoExcess) (part rest : Nat) :
    s.ownQuanta core false part rest crew = (s, rest) := by
  cases hc : (s.crewAt core crew).chunkNow with
  | none => exact State.ownQuanta_none hc ..
  | some k => exact State.ownQuanta_other hc (by rw [h.share k hc]; decide) ..

variable {m : MatCmd} {rest : List MatCmd} {h : Chunk}

/-- A chunk with a share of its own gets that share and nothing else. -/
theorem State.quantaOf_share {share : Nat} (hc : (s.crewAt core crew).chunkNow = some h) (hs : h.share = some share)
    (hno : ((s.actAs core crew .c).giveOwn 256 share).crew.NoExcess) (part : Nat) :
    s.quantaOf core crew part = s.atCrew core crew fun t => t.giveOwn 256 share := by
  have hown : s.ownQuanta core true 0 arrayQuanta crew = (s.atCrew core crew fun t => t.giveOwn 256 share, arrayQuanta - share) := by
    rw [State.ownQuanta_gives hc (by rw [hs]; rfl), State.ownPart, hs]; rfl
  rw [← State.crewAt_atCrew (State.giveOwn_within 256 share)] at hno
  rw [State.quantaOf, hown]
  simp only [State.ownQuanta_of_noExcess hno, State.takeExcess_of_noExcess
    (acc := (s.atCrew core crew fun t => t.giveOwn 256 share, arrayQuanta - share)) hno, ite_self]

/-- A best-effort chunk alone on its core gets all that it needs of the array's quanta. -/
theorem State.quantaOf_best (hmq : (s.crewAt core crew).mq = m :: rest) (hchunk : m.chunk = some h) (hs : h.share = none)
    (hw : s.npu.withheldQuanta = false) (hruns : (s.actAs core crew .c).runsOn m = false) (part : Nat) :
    ∃ n, n ≤ arrayQuanta ∧ (s.quantaOf core crew part).crewAt core crew =
      ((s.crewAt core crew).give n).give (Min.min (h.left - n) (arrayQuanta - n)) := by
  have hc : (s.crewAt core crew).chunkNow = some h := (Crew.chunkNow_of_mq hmq).trans hchunk
  generalize hn : s.ownPart core part arrayQuanta crew h = n
  have hle : n ≤ arrayQuanta := by
    rw [← hn, State.ownPart, hs]
    exact Nat.min_le_right ..
  have hgive : (s.atCrew core crew fun t => t.giveOwn 256 n).crewAt core crew = (s.crewAt core crew).give n := by
    rw [State.crewAt_atCrew (State.giveOwn_within 256 n), State.giveOwn_gives (s := s.actAs core crew .c) hmq hchunk (.inr hruns),
      State.crew_modCrew]
    rfl
  have hleft : ((s.atCrew core crew fun t => t.giveOwn 256 n).crewAt core crew).chunkNow = some { h with left := h.left - n } := by
    rw [hgive, Crew.give_chunkNow, hc]; rfl
  refine ⟨n, hle, ?_⟩
  rw [State.quantaOf, State.ownQuanta_other hc (by rw [hs]; decide), hw]
  dsimp only
  rw [if_neg Bool.false_ne_true, State.ownQuanta_gives hc (by rw [hs]; rfl), hn,
    State.takeExcess_gives (acc := (s.atCrew core crew fun t => t.giveOwn 256 n, arrayQuanta - n)) hleft hs]
  dsimp only
  rw [State.crewAt_modCrewAt, hgive]

theorem State.quantaOf_withheld (hc : (s.crewAt core crew).chunkNow = some h) (hs : h.share = none)
    (hw : s.npu.withheldQuanta = true) (part : Nat) : s.quantaOf core crew part = s := by
  rw [State.quantaOf, State.ownQuanta_other hc (by rw [hs]; decide), hw]
  rfl

variable (halone : s.Alone core crew) (hmq : (s.crewAt core crew).mq = m :: rest) (hchunk : m.chunk = some h)
include halone hmq hchunk

theorem State.arrayClock_mq : ∃ part, ((s.arrayClock core).crewAt core crew).mq =
    (Crew.endChunk s.cycle ((s.quantaOf core crew part).crewAt core crew)).mq := by
  obtain ⟨part, hclock⟩ := State.arrayClock_alone halone hmq hchunk
  exact ⟨part, by rw [hclock, State.endClock_mq, State.quantaOf_cycle]⟩

/-- The word of the reference shape goes on to its next chunk in the clock in which one ends (R219; log 16). -/
theorem State.arrayClock_goesOn {share : Nat} (hs : h.share = some share) (hlt : h.left < share)
    (hruns : (s.actAs core crew .c).runsOn m = true) :
    let a := s.actAs core crew .c
    ((s.arrayClock core).crewAt core crew).mq = ((((a.setHead (a.ended m)).startChunk (a.ended m)).giveOwn 255
      (ceilDiv ((share - h.left) * a.crew.lease.share) share)).crew.endChunk s.cycle).mq := by
  intro a
  have hgoes : a.giveOwn 256 share = ((a.setHead (a.ended m)).startChunk (a.ended m)).giveOwn 255
      (ceilDiv ((share - h.left) * a.crew.lease.share) share) := by
    rw [State.giveOwn_goesOn (s := a) hmq hchunk hlt hruns, hs]; rfl
  obtain ⟨hwithin, hshares⟩ := State.startChunk_of_runsOn (s := a) rfl hruns
  have hno : (a.giveOwn 256 share).crew.NoExcess := by
    rw [hgoes]
    exact ((State.giveOwn_keeps 255 (by rw [hwithin.cur]; rfl) _).2 hshares).noExcess
  obtain ⟨part, hclock⟩ := State.arrayClock_mq halone hmq hchunk
  rw [hclock, State.quantaOf_share ((Crew.chunkNow_of_mq hmq).trans hchunk) hs hno,
    State.crewAt_atCrew (State.giveOwn_within 256 share), hgoes]

/-- A contracted chunk gets its whole share, and ends with the clock in which it has what it needs. -/
theorem State.arrayClock_share {share : Nat} (hs : h.share = some share)
    (hruns : h.left < share → (s.actAs core crew .c).runsOn m = false) :
    ((s.arrayClock core).crewAt core crew).mq = (if h.left ≤ share then { m with chunk := none, ends := s.cycle + 1 }
      else { m with chunk := some { h with left := h.left - share } }) :: rest := by
  have hgives : (s.actAs core crew .c).giveOwn 256 share = (s.actAs core crew .c).modCrew fun c => c.give share :=
    State.giveOwn_gives (s := s.actAs core crew .c) hmq hchunk ((Nat.lt_or_ge h.left share).symm.imp id hruns) 255
  have hcrew : ((s.actAs core crew .c).giveOwn 256 share).crew = (s.crewAt core crew).give share := by
    rw [hgives, State.crew_modCrew]; rfl
  have hnow : ((s.crewAt core crew).give share).chunkNow = some { h with left := h.left - share } := by
    rw [Crew.give_chunkNow, Crew.chunkNow_of_mq hmq, hchunk]; rfl
  have hno : ((s.actAs core crew .c).giveOwn 256 share).crew.NoExcess := by
    rw [hcrew]
    refine ⟨Crew.readyBest_of_chunk hnow, fun k hk => ?_⟩
    rw [hnow] at hk
    cases hk
    rw [hs]; rfl
  obtain ⟨part, hclock⟩ := State.arrayClock_mq halone hmq hchunk
  rw [hclock, State.quantaOf_share ((Crew.chunkNow_of_mq hmq).trans hchunk) hs hno,
    State.crewAt_atCrew (State.giveOwn_within 256 share), hcrew,
    Crew.endChunk_mq (Crew.give_mq hmq share) (h := { h with left := h.left - share }) (by rw [hchunk]; rfl), hchunk]
  by_cases hle : h.left ≤ share
  · rw [if_pos (by simpa using Nat.sub_eq_zero_of_le hle), if_pos hle]
  · rw [if_neg (by simpa using Nat.sub_ne_zero_of_lt (Nat.not_le.1 hle)), if_neg hle]; rfl

theorem State.arrayClock_best (hs : h.share = none) (hw : s.npu.withheldQuanta = false)
    (hruns : (s.actAs core crew .c).runsOn m = false) (hle : h.left ≤ 262144) :
    ((s.arrayClock core).crewAt core crew).mq = { m with chunk := none, ends := s.cycle + 1 } :: rest := by
  obtain ⟨part, hclock⟩ := State.arrayClock_mq halone hmq hchunk
  obtain ⟨n, hn, hcrew⟩ := State.quantaOf_best hmq hchunk hs hw hruns part
  rw [arrayQuanta] at hn hcrew
  rw [hclock, hcrew, Crew.endChunk_mq (Crew.give_mq (Crew.give_mq hmq n) _)
    (h := { h with left := h.left - n - Min.min (h.left - n) (262144 - n) }) (by rw [hchunk]; rfl)]
  rw [if_pos (by simp only []; omega)]

theorem State.arrayClock_withheld (hs : h.share = none) (hw : s.npu.withheldQuanta = true) (hpos : 0 < h.left) :
    ((s.arrayClock core).crewAt core crew).mq = m :: rest := by
  obtain ⟨part, hclock⟩ := State.arrayClock_mq halone hmq hchunk
  rw [hclock, State.quantaOf_withheld ((Crew.chunkNow_of_mq hmq).trans hchunk) hs hw, Crew.endChunk_mq hmq hchunk,
    if_neg (Nat.ne_of_gt hpos)]

end AloneClock

/-- Settles O44: an accumulator's update by `getD_chunkWords`, the array's turn by what an attempt at a chunk comes to, and a clock by
the quanta that the one crew's chunk gets. -/
theorem matrixChunks : Obligations.MatrixChunks := by
  unfold Obligations.MatrixChunks
  refine ⟨?_, ?_, ?_⟩
  · intro k ow ck rows cols old other i j ri cj hk hi hj hold acc
    rw [getD_chunkWords hk ow ck other hi hj hold]
    cases k with
    | open_ => exact absurd rfl hk
    | int => rfl
    | float =>
      rw [accStep, chunkDot, accAdd, BitVec.ofNat_toNat, BitVec.setWidth_eq]
  · intro s core crew m rest t ra rb n gather ov ck a A B T l g spans hmq hchunk hop hwf
    refine ⟨fun hdone hl hmay hA hB hbanks hspans hsound => ?_, fun hdone hu hl => ?_, fun hdone hrest => ?_⟩
    · have hready : a.ChunkReady m gather t ra rb n := ⟨hmay, hA, hB, hbanks, hspans, hsound⟩
      refine ⟨fun off hov hbad hst => ?_, fun hok => ?_⟩
      · obtain ⟨u, hu, hkeeps, hstatus, hpc, ha, hnil, htrap⟩ := matrixChunk_traps hmq hchunk hop hdone hl hready hov hbad hst
        refine ⟨u, hu, ?_⟩
        dsimp only
        rw [hkeeps.crewAt_actAs, hkeeps.core_actAs]
        exact ⟨hstatus, hpc, ha, hnil, hkeeps.pool, hkeeps.mem, htrap⟩
      · obtain ⟨u, hu, hstarts⟩ := matrixChunk_starts hmq hchunk hop hwf hdone hl hready hok
        refine ⟨u, hu, ?_⟩
        have hhead := hstarts.mq
        rw [hmq, List.tail_cons] at hhead
        dsimp only
        rw [hstarts.crewAt_actAs, hstarts.core_actAs]
        exact ⟨hhead, hstarts.rings, hstarts.v, hstarts.a, hstarts.mem, hstarts.core, hstarts.pool⟩
    · refine ⟨_, matrixChunk_wants hmq hchunk hop hdone hu hl, ?_⟩
      have hwithin := (s.actAs core crew .c).setHead_within { m with wants := true }
      dsimp only
      rw [hwithin.crewAt_actAs, hwithin.core_actAs, State.setHead_crew, State.setHead_pool]
      exact ⟨by rw [hmq]; rfl, rfl, rfl, rfl⟩
    · obtain ⟨u, hu, halone⟩ := matrixChunk_retires hmq hchunk hop hdone hrest
      refine ⟨u, hu, ?_⟩
      dsimp only
      rw [halone.crewAt_actAs, halone.core_actAs]
      exact ⟨halone.mq, halone.headA, halone.headB, halone.pool, halone.mem⟩
  · intro s core crew m rest h ended after a hmq hchunk halone
    exact ⟨fun share hs hlt hruns => State.arrayClock_goesOn halone hmq hchunk hs hlt hruns,
      fun share hs hruns => State.arrayClock_share halone hmq hchunk hs hruns,
      fun hs hw hruns hle => State.arrayClock_best halone hmq hchunk hs hw hruns hle,
      fun hs hw hpos => State.arrayClock_withheld halone hmq hchunk hs hw hpos⟩

end Sys2Proof.Machine
end

section
/-! PROOFS. The matrix words of C: states that agree apart from issue, the array's queue, the checks of each word, and what a word
does with nothing of C's before it (R36, R137, R140 to R151, R218, R223). -/

namespace Sys2Proof.Machine

/-! ### States that agree apart from issue -/

/-- What a core holds besides its crews and the firmware context's sequencer, read through a function that does not look at those. -/
theorem State.read_here_apart {α : Type} (g : Core → α) (hcrew : ∀ c k v, g (c.setCrew k v) = g c)
    (hseq : ∀ c q, g (c.setFwSeq q) = g c) (s : State) : g s.apart.here = g s.here := by
  by_cases h : s.cur.role = .fw
  · rw [State.here_apart_fw h, hseq, hcrew]
  · rw [State.here_apart_crew h, hcrew]

section Agree
variable {u s : State} (h : u.apart = s.apart)
include h

theorem State.cur_of_apart : u.cur = s.cur := by rw [← State.apart_cur, h, State.apart_cur]
theorem State.mem_of_apart : u.mem = s.mem := by simpa [State.apart] using congrArg State.mem h
theorem State.npu_of_apart : u.npu = s.npu := by simpa [State.apart] using congrArg State.npu h
theorem State.serial_of_apart : u.serial = s.serial := by simpa [State.apart] using congrArg State.serial h
theorem State.cycle_of_apart : u.cycle = s.cycle := by simpa [State.apart] using congrArg State.cycle h

theorem State.read_of_apart {α : Type} (g : Crew → α) (hloose : ∀ c, g c.loose = g c) (hseq : ∀ c st q, g (c.setSeq st q) = g c) :
    g u.crew = g s.crew := by
  rw [← State.read_apart g hloose hseq, h, State.read_apart g hloose hseq]

theorem State.mq_of_apart : u.crew.mq = s.crew.mq := State.read_of_apart h Crew.mq (fun _ => rfl) fun _ st _ => by cases st <;> rfl
theorem State.rings_of_apart : u.crew.rings = s.crew.rings :=
  State.read_of_apart h Crew.rings (fun _ => rfl) fun _ st _ => by cases st <;> rfl
theorem State.tiles_of_apart : u.crew.tiles = s.crew.tiles :=
  State.read_of_apart h Crew.tiles (fun _ => rfl) fun _ st _ => by cases st <;> rfl
theorem State.drains_of_apart : u.crew.drains = s.crew.drains :=
  State.read_of_apart h Crew.drains (fun _ => rfl) fun _ st _ => by cases st <;> rfl
theorem State.lease_of_apart : u.crew.lease = s.crew.lease :=
  State.read_of_apart h Crew.lease (fun _ => rfl) fun _ st _ => by cases st <;> rfl
theorem State.crewPart_of_apart : u.crew.part = s.crew.part :=
  State.read_of_apart h Crew.part (fun _ => rfl) fun _ st _ => by cases st <;> rfl
theorem State.block_of_apart : u.crew.block = s.crew.block :=
  State.read_of_apart h Crew.block (fun _ => rfl) fun _ st _ => by cases st <;> rfl
theorem State.check_of_apart : u.crew.check = s.crew.check :=
  State.read_of_apart h Crew.check (fun _ => rfl) fun _ st _ => by cases st <;> rfl

theorem State.pool_of_apart : u.here.pool = s.here.pool := by
  rw [← State.read_here_apart Core.pool (fun _ _ _ => rfl) fun _ _ => rfl, h,
    State.read_here_apart Core.pool (fun _ _ _ => rfl) fun _ _ => rfl]
theorem State.locks_of_apart : u.here.locks = s.here.locks := by
  rw [← State.read_here_apart Core.locks (fun _ _ _ => rfl) fun _ _ => rfl, h,
    State.read_here_apart Core.locks (fun _ _ _ => rfl) fun _ _ => rfl]
theorem State.settled_of_apart : u.here.settled = s.here.settled := by
  rw [← State.read_here_apart Core.settled (fun _ _ _ => rfl) fun _ _ => rfl, h,
    State.read_here_apart Core.settled (fun _ _ _ => rfl) fun _ _ => rfl]
theorem State.badPool_of_apart : u.here.badPool = s.here.badPool := by
  rw [← State.read_here_apart Core.badPool (fun _ _ _ => rfl) fun _ _ => rfl, h,
    State.read_here_apart Core.badPool (fun _ _ _ => rfl) fun _ _ => rfl]

theorem State.ring_of_apart (i : Fin 16) : u.ring i = s.ring i := by rw [State.ring, State.rings_of_apart h]; rfl
theorem State.tile_of_apart (i : Fin 16) : u.tile i = s.tile i := by rw [State.tile, State.tiles_of_apart h]; rfl
theorem State.drain_of_apart (i : Fin 16) : u.drain i = s.drain i := by rw [State.drain, State.drains_of_apart h]; rfl
theorem State.part_of_apart : u.part = s.part := by
  rw [State.part, State.cur_of_apart h, State.crewPart_of_apart h]; rfl
theorem State.org_of_apart : u.crew.org = s.crew.org := by rw [Crew.org, State.crewPart_of_apart h]; rfl
theorem State.crewCtx_of_apart : u.crew.ctx = s.crew.ctx := by rw [Crew.ctx, State.block_of_apart h]; rfl

theorem State.banksFree_of_apart (id : Nat) (l : List Nat) : u.here.banksFree id l = s.here.banksFree id l := by
  rw [Core.banksFree, State.locks_of_apart h]; rfl
theorem State.poolBad_of_apart (place n : Nat) : u.here.poolBad place n = s.here.poolBad place n := by
  rw [Core.poolBad, State.badPool_of_apart h]; rfl
theorem State.lockedFor_of_apart (id : Option Nat) (place n : Nat) : u.here.lockedFor id place n = s.here.lockedFor id place n := by
  rw [Core.lockedFor, Core.bankLocked, State.locks_of_apart h, State.settled_of_apart h]; rfl
theorem State.poolRead_of_apart (off n align : Nat) : u.poolRead off n align = s.poolRead off n align := by
  simp only [State.poolRead, State.part_of_apart h, State.lockedFor_of_apart h, State.poolBad_of_apart h, State.pool_of_apart h]

theorem State.tileBanks_of_apart (i : Fin 16) : u.tileBanks i = s.tileBanks i := by
  rw [State.tileBanks, State.org_of_apart h, State.tile_of_apart h]; rfl
theorem State.tileBad_of_apart (t : Tile) (sums : Bool) : u.tileBad t sums = s.tileBad t sums := by
  simp only [State.tileBad, State.org_of_apart h, State.poolBad_of_apart h]
theorem State.tileWords_of_apart (t : Tile) : u.tileWords t = s.tileWords t := by
  simp only [State.tileWords, State.org_of_apart h, State.pool_of_apart h]
theorem State.stocked_of_apart (op : MatOp) : u.stocked op = s.stocked op := by
  have htakes (op : MatOp) (i : Fin 16) : op.takes u i = op.takes s i := by
    cases op <;> simp only [MatOp.takes, State.ring_of_apart h]
  simp only [State.stocked, htakes, State.ring_of_apart h, State.mq_of_apart h]
theorem State.leaseCheck_of_apart : u.leaseCheck = s.leaseCheck := by
  rw [State.leaseCheck, State.lease_of_apart h, State.part_of_apart h]; rfl
theorem State.testFormats_of_apart (t : Fin 16) (ov : Bool) (sa sb : Nat) : u.testFormats t ov sa sb = s.testFormats t ov sa sb := by
  simp only [State.testFormats, State.mq_of_apart h, State.tile_of_apart h,
    State.chunkPlan_congr (State.lease_of_apart h) (State.crewCtx_of_apart h) (State.npu_of_apart h)]
theorem State.mmaCheck_of_apart (g : Bool) (t ra rb : Fin 16) (n : Nat) (ov : Bool) :
    u.mmaCheck g t ra rb n ov = s.mmaCheck g t ra rb n ov := by
  simp only [State.mmaCheck, State.tile_of_apart h, State.ring_of_apart h, State.testFormats_of_apart h]
theorem State.mhadCheck_of_apart (rd rs : Fin 16) (order : BitVec 2) : u.mhadCheck rd rs order = s.mhadCheck rd rs order := by
  simp only [State.mhadCheck, State.ring_of_apart h, State.leaseCheck_of_apart h]
theorem State.mdrainCheck_of_apart (t dd : Fin 16) : u.mdrainCheck t dd = s.mdrainCheck t dd := by
  simp only [State.mdrainCheck, State.tile_of_apart h, State.drain_of_apart h, State.ring_of_apart h, State.part_of_apart h]

end Agree

/-! ### The array's queue (R140, R179) -/

theorem State.apart_serial (s : State) (n : Nat) : ({ s with serial := n } : State).apart = { s.apart with serial := n } := by
  by_cases h : s.cur.role = .fw
  · rw [State.apart_fw h, State.apart_fw (s := { s with serial := n }) h]; rfl
  · rw [State.apart_crew h, State.apart_crew (s := { s with serial := n }) h]; rfl

/-- A matrix word as it joins the queue in the state `s`, with where C stood before it. -/
def State.command (s : State) (before : CPoint) (op : MatOp) (addr : Nat) (glist : List Nat) (slot : Option (Fin 16 × Nat)) : MatCmd :=
  { id := s.serial, op := op, pc := s.pc, before := before, addr := addr, glist := glist, slot := slot, stocked := s.stocked op,
    done := 0, chunk := none, wants := false, start := 0, ends := 0, clean := true }

def Crew.append (m : MatCmd) (c : Crew) : Crew := { c with mq := c.mq ++ [m] }

theorem Crew.inner_append (m : MatCmd) : Crew.Inner (Crew.append m) :=
  ⟨fun _ => rfl, fun _ st _ => by cases st <;> rfl, fun _ st => by cases st <;> rfl⟩

/-- The state with a number taken and a matrix word at the end of the queue. -/
def State.joined (s : State) (m : MatCmd) : State := ({ s with serial := s.serial + 1 } : State).modCrew (Crew.append m)

theorem State.enqueue_eq (s : State) (before : CPoint) (op : MatOp) (addr : Nat) (glist : List Nat) (slot : Option (Fin 16 × Nat)) :
    s.enqueue before op addr glist slot = .issued (s.joined (s.command before op addr glist slot)) s.serial := rfl

theorem State.joined_apart (s : State) (m : MatCmd) :
    (s.joined m).apart = ({ s.apart with serial := s.serial + 1 } : State).modCrew (Crew.append m) := by
  rw [State.joined, State.apart_inner (Crew.inner_append m), State.apart_serial]

theorem State.seq_joined (s : State) (m : MatCmd) : (s.joined m).seq = s.seq := State.seq_inner (Crew.inner_append m) _

/-- What the rules about a word of C share: it issues, and its sequencer is C. -/
structure State.Issuing (s : State) (tk : Tok) : Prop extends s.Clear tk where
  role : s.cur.role = .c
  room : s.crew.mq.length < 16

/-- `u` is the state `pre`, which an effect has reached from `s`, with the pops of the word's tokens made. -/
structure State.Popped (s : State) (tk : Tok) (pre u : State) : Prop where
  apart : u.apart = pre.apart
  serial : pre.serial = s.serial
  seq : u.seq = (s.doPops (popsOf tk)).seq

theorem State.popped (s : State) (tk : Tok) : s.Popped tk s (s.doPops (popsOf tk)) := ⟨s.apart_doPops _, rfl, rfl⟩

section Popped
variable {s pre u : State} {tk : Tok} (h : s.Popped tk pre u)
include h

theorem State.Popped.serial_eq : u.serial = s.serial := (State.serial_of_apart h.apart).trans h.serial

theorem State.Popped.pc : u.pc = s.pc := by
  rw [State.pc, h.seq]
  exact s.doPops_pc _

theorem State.Popped.modCrew {f : Crew → Crew} (hf : Crew.Inner f) : s.Popped tk (pre.modCrew f) (u.modCrew f) :=
  ⟨by rw [State.apart_inner hf, State.apart_inner hf, h.apart], h.serial, (State.seq_inner hf u).trans h.seq⟩

end Popped

section Word
variable {s : State} {tk : Tok} {reads : List (State → List RegRef)} {effect : State → Res}

/-- A word that issues a command reaches the state that its effect gives, apart from issue. -/
theorem runWord_issued {t : State} {cmd : Nat} (h : s.Clear tk) (he : effect (s.doPops (popsOf tk)) = .issued t cmd)
    (hl : t.seq.loops = (s.doPops (popsOf tk)).seq.loops) : Reaches (runWord tk reads s effect) s t := by
  have hrun : runWord tk reads s effect = finish (pushesOf tk) (some cmd) false s.pc (s.pc + 4) s t := by
    simp [runWord, runWith, h.tokens, parityBad_of_nil h.parity, h.credits, he]
  rw [hrun]
  exact finish_reaches (hl.trans (s.doPops_place _).1) h.rows

/-- A word whose effect completes answers a state that agrees with it apart from issue. -/
theorem runWord_answers {t : State} (h : s.Clear tk) (he : effect (s.doPops (popsOf tk)) = .done t)
    (hl : t.seq.loops = (s.doPops (popsOf tk)).seq.loops) :
    ∃ u, runWord tk reads s effect = .next u ∧ u.apart = t.apart ∧ (s.inLine → u.pc = s.pc + 4) := runWord_done h he hl

/-- A word whose effect traps with a state that it leaves behind. -/
theorem runWord_trapLeaving {t : TrapReq} {u : State} (h : s.Issues tk) (he : effect (s.doPops (popsOf tk)) = .trapLeaving t u) :
    runWord tk reads s effect = .next (raise t u) := by
  simp [runWord, runWith, h.tokens, parityBad_of_nil h.parity, h.credits, he]

theorem runWord_waits {note : State → State} {k : WaitKind} (h : s.Issues tk) (he : effect (s.doPops (popsOf tk)) = .block k note)
    (hnote : note s = s) : ∃ u, runWord tk reads s effect = .next u ∧ u.apart = s.apart ∧ u.pc = s.pc :=
  ⟨_, by rw [runWord_block h he, hnote], waitOn_apart .., waitOn_pc ..⟩

/-- A word joins the array's queue in the state `pre`: a number is taken, and with its operands the word keeps its place and where C
stood before it. -/
def Queued (i : Instr) (s pre : State) (op : MatOp) (addr : Nat) (glist : List Nat) (slot : Option (Fin 16 × Nat)) : Prop :=
  Runs i s (({ pre with serial := s.serial + 1 } : State).modCrew fun c => { c with mq := c.mq ++
    [{ id := s.serial, op := op, pc := s.pc, before := s.cPoint, addr := addr, glist := glist, slot := slot, stocked := pre.stocked op,
       done := 0, chunk := none, wants := false, start := 0, ends := 0, clean := true }] })

/-- A word whose effect enqueues joins the queue, in the state that its effect had reached. -/
theorem queued_of_enqueue {i : Instr} {pre u : State} (hi : exec i s = runWord tk reads s effect) (h : s.Clear tk)
    (hu : s.Popped tk pre u) {op : MatOp} {addr : Nat} {glist : List Nat} {slot : Option (Fin 16 × Nat)}
    (he : effect (s.doPops (popsOf tk)) = u.enqueue s.cPoint op addr glist slot) : Queued i s pre op addr glist slot := by
  rw [State.enqueue_eq] at he
  obtain ⟨v, hv, ha, hp⟩ := runWord_issued (reads := reads) h he (by rw [State.seq_joined, hu.seq])
  refine ⟨v, hi.trans hv, ha.trans ?_, hp⟩
  have hjoin := State.joined_apart pre (u.command s.cPoint op addr glist slot)
  rw [State.joined, hu.serial, State.command, hu.serial_eq, hu.pc, State.stocked_of_apart hu.apart] at hjoin
  rw [State.joined_apart, hu.apart, hu.serial_eq, State.command, hu.serial_eq, hu.pc, State.stocked_of_apart hu.apart]
  exact hjoin.symm

theorem State.cEntry_of_room {u : State} (h : u.crew.mq.length < 16) (k : Res) : u.cEntry k = k := by
  rw [State.cEntry, if_neg (by omega)]

end Word

/-! ### Updates of the crew before a word joins the queue -/

theorem Crew.inner_lease (g : Lease → Lease) : Crew.Inner fun c => { c with lease := g c.lease } :=
  ⟨fun _ => rfl, fun _ st _ => by cases st <;> rfl, fun _ st => by cases st <;> rfl⟩

theorem Crew.inner_rings (g : Vector Ring 16 → Vector Ring 16) : Crew.Inner fun c => { c with rings := g c.rings } :=
  ⟨fun _ => rfl, fun _ st _ => by cases st <;> rfl, fun _ st => by cases st <;> rfl⟩

/-- A lease asked for in a clock, unless one stands or one has been asked for (R140). -/
def Lease.requested (cycle : Nat) (l : Lease) : Lease := if l.usable || l.request.isSome then l else { l with request := some cycle }

/-- A step word counted toward re-arbitration (R214). -/
def Lease.counted (cycle : Nat) (l : Lease) : Lease :=
  if l.held then { l with steps := l.steps + 1, due := if l.steps + 1 = 64 then some cycle else l.due } else l

theorem State.requestLease_eq (s : State) :
    s.requestLease = s.modCrew fun c => { c with lease := c.lease.requested s.cycle } := by
  rw [State.requestLease]
  congr 1
  funext c
  rw [Lease.requested]
  split <;> rfl

theorem State.stepWord_eq (s : State) :
    s.stepWord = s.modCrew fun c => { c with lease := (c.lease.counted s.cycle).requested s.cycle } := by
  have hcount : (s.modCrew fun c => if c.lease.held then { c with lease := { c.lease with
      steps := c.lease.steps + 1, due := if c.lease.steps + 1 = 64 then some s.cycle else c.lease.due } } else c)
      = s.modCrew fun c => { c with lease := c.lease.counted s.cycle } := by
    congr 1
    funext c
    rw [Lease.counted]
    split <;> rfl
  rw [State.stepWord]
  dsimp only
  rw [hcount, State.requestLease_eq, State.modCrew_modCrew]
  rfl

/-- The next slot of a ring reserved. -/
def Crew.reserve (r : Fin 16) (c : Crew) : Crew := { c with rings := c.rings.set r (c.rings.get r).reserve }

theorem Crew.inner_reserve (r : Fin 16) : Crew.Inner (Crew.reserve r) :=
  Crew.inner_rings fun v => v.set r (v.get r).reserve

section Popped
variable {s pre u : State} {tk : Tok} (h : s.Popped tk pre u)
include h

theorem State.Popped.requestLease : s.Popped tk pre.requestLease u.requestLease := by
  rw [State.requestLease_eq, State.requestLease_eq, State.cycle_of_apart h.apart]
  exact h.modCrew (Crew.inner_lease fun l => l.requested pre.cycle)

theorem State.Popped.stepWord : s.Popped tk pre.stepWord u.stepWord := by
  rw [State.stepWord_eq, State.stepWord_eq, State.cycle_of_apart h.apart]
  exact h.modCrew (Crew.inner_lease fun l => (l.counted pre.cycle).requested pre.cycle)

theorem State.Popped.reserve (r : Fin 16) : s.Popped tk (pre.modRing r Ring.reserve) (u.modRing r Ring.reserve) :=
  h.modCrew (Crew.inner_reserve r)

end Popped

/-! ### The checks of `mma` and `mmag` (R36, R140, R144, R145) -/

/-- The tile and both rings are set, of formats that the array takes. -/
def State.MmaFormed (s : State) (t ra rb : Fin 16) : Prop :=
  (s.tile t).set = true ∧ (s.ring ra).set = true ∧ (s.ring rb).set = true
    ∧ matrixType (rgFmt (s.ring ra).img) = true ∧ matrixType (rgFmt (s.ring rb).img) = true

/-- The formats pair, for the tile's accumulators. -/
def State.MmaPaired (s : State) (t ra rb : Fin 16) (ov : Bool) : Prop :=
  pairing (s.testFormats t ov (rgFmt (s.ring ra).img) (rgFmt (s.ring rb).img)).1
    (s.testFormats t ov (rgFmt (s.ring ra).img) (rgFmt (s.ring rb).img)).2 = some (tlAcc (s.tile t).img == 8)

/-- Rows, columns and chunks fit. -/
def State.MmaShaped (s : State) (gather : Bool) (t ra rb : Fin 16) (n : Nat) : Prop :=
  (gather = true ∨ rgRows (s.ring ra).img = tlM (s.tile t).img) ∧ rgRows (s.ring rb).img = tlN (s.tile t).img
    ∧ 32 * n % rgCols (s.ring ra).img = 0 ∧ 32 * n % rgCols (s.ring rb).img = 0

section MmaCheck
variable {s : State} {gather ov : Bool} {t ra rb : Fin 16} {n : Nat}

theorem State.mmaCheck_unformed (h : ¬ s.MmaFormed t ra rb) : s.mmaCheck gather t ra rb n ov = some (trapOf codeIllegalType) := by
  rw [State.mmaCheck]
  refine if_pos ?_
  simp only [State.MmaFormed, not_and_or, Bool.not_eq_true] at h
  simp only [Bool.or_eq_true, Bool.not_eq_true']
  tauto

theorem State.mmaCheck_formed (h : s.MmaFormed t ra rb) : s.mmaCheck gather t ra rb n ov =
    if pairing (s.testFormats t ov (rgFmt (s.ring ra).img) (rgFmt (s.ring rb).img)).1
        (s.testFormats t ov (rgFmt (s.ring ra).img) (rgFmt (s.ring rb).img)).2 ≠ some (tlAcc (s.tile t).img == 8) then
      some (trapOf codeMmaCombo)
    else if (!gather && rgRows (s.ring ra).img ≠ tlM (s.tile t).img) || rgRows (s.ring rb).img ≠ tlN (s.tile t).img
        || 32 * n % rgCols (s.ring ra).img ≠ 0 || 32 * n % rgCols (s.ring rb).img ≠ 0 then some (trapOf codeRegRange)
    else none := by
  obtain ⟨hT, hA, hB, hfa, hfb⟩ := h
  rw [State.mmaCheck]
  exact if_neg (by simp [hT, hA, hB, hfa, hfb])

theorem State.mmaCheck_unpaired (h : s.MmaFormed t ra rb) (hp : ¬ s.MmaPaired t ra rb ov) :
    s.mmaCheck gather t ra rb n ov = some (trapOf codeMmaCombo) := by
  rw [State.mmaCheck_formed h]
  exact if_pos hp

theorem State.mmaCheck_unshaped (h : s.MmaFormed t ra rb) (hp : s.MmaPaired t ra rb ov) (hs : ¬ s.MmaShaped gather t ra rb n) :
    s.mmaCheck gather t ra rb n ov = some (trapOf codeRegRange) := by
  refine (State.mmaCheck_formed h).trans ((if_neg (not_not.2 hp)).trans (if_pos ?_))
  simp only [State.MmaShaped, not_and_or, not_or] at hs
  simp only [Bool.or_eq_true, Bool.and_eq_true, Bool.not_eq_true', decide_eq_true_eq]
  simp only [Bool.not_eq_true] at hs
  tauto

theorem State.mmaCheck_passes (h : s.MmaFormed t ra rb) (hp : s.MmaPaired t ra rb ov) (hs : s.MmaShaped gather t ra rb n) :
    s.mmaCheck gather t ra rb n ov = none := by
  obtain ⟨hrows, hcols, ha, hb⟩ := hs
  refine (State.mmaCheck_formed h).trans ((if_neg (not_not.2 hp)).trans (if_neg ?_))
  simp only [Bool.or_eq_true, Bool.and_eq_true, Bool.not_eq_true', decide_eq_true_eq]
  rcases hrows with rfl | hrows
  · simp [hcols, ha, hb]
  · simp [hrows, hcols, ha, hb]

end MmaCheck

/-- A lease is held, or can be asked for (R140 step 5). -/
def State.Leased (s : State) : Prop := s.crew.lease.usable = true ∨ 6 ≤ partNa s.part

theorem State.leaseCheck_leased {s : State} (h : s.Leased) : s.leaseCheck = none := by
  rw [State.leaseCheck]
  exact if_pos (by simpa [State.Leased] using h)

theorem State.leaseCheck_unleased {s : State} (h : ¬ s.Leased) : s.leaseCheck = some (trapOf codePoolPart) := by
  rw [State.leaseCheck]
  exact if_neg (by simpa [State.Leased] using h)

/-! ### The issue of `mma` and `mmag` (R140, R145) -/

section Mma
variable {s : State} {tk : Tok} {gather ov ck : Bool} {t ra rb : Fin 16} {n : Nat} {i : Instr} {reads : List (State → List RegRef)}
  (hi : exec i s = runWord tk reads s (mmaIssue s.cPoint gather t ra rb n ov ck)) (h : s.Issuing tk)
include hi h

omit hi in
/-- The word's effect after its pops: its checks, then the list of `mmag`, then its lease and the queue. -/
theorem mmaIssue_doPops : mmaIssue s.cPoint gather t ra rb n ov ck (s.doPops (popsOf tk)) =
    .ofTrap (s.mmaCheck gather t ra rb n ov) (
      let go (gl : List Nat) : Res := .ofTrap s.leaseCheck
        ((s.doPops (popsOf tk)).stepWord.enqueue s.cPoint (.mma gather t ra rb n ov ck) 0 gl none)
      if gather then
        match s.poolRead (rgGlist (s.ring ra).img) (2 * tlM (s.tile t).img) 2 with
        | .bytes b => go (halfWords b)
        | .locked => .block .other id
        | .trap t => .trap t
      else go []) := by
  have hpops := s.apart_doPops (popsOf tk)
  rw [mmaIssue, State.cEntry_of_room (by rw [State.mq_of_apart hpops]; exact h.room), State.mmaCheck_of_apart hpops,
    State.leaseCheck_of_apart hpops, State.poolRead_of_apart hpops, State.ring_of_apart hpops, State.tile_of_apart hpops] <;> rfl

theorem mma_traps_check {x : TrapReq} (hx : s.mmaCheck gather t ra rb n ov = some x) : Traps i s x :=
  hi.trans (runWord_trap h.toIssues (by rw [mmaIssue_doPops h, hx]; rfl))

variable (hcheck : s.mmaCheck gather t ra rb n ov = none)
include hcheck

theorem mma_traps_list {x : TrapReq} (hg : gather = true)
    (hx : poolCheck s.part (rgGlist (s.ring ra).img) (2 * tlM (s.tile t).img) 2 = some x) : Traps i s x := by
  refine hi.trans (runWord_trap h.toIssues ?_)
  rw [mmaIssue_doPops h, hcheck, Res.ofTrap, if_pos hg, State.poolRead, hx]

variable {b : List Byte}
  (hlist : gather = true → s.poolRead (rgGlist (s.ring ra).img) (2 * tlM (s.tile t).img) 2 = .bytes b)
include hlist

omit hi in
/-- With its checks passed and its list read, the word asks for its lease and joins the queue. -/
theorem mmaIssue_listed : mmaIssue s.cPoint gather t ra rb n ov ck (s.doPops (popsOf tk)) = .ofTrap s.leaseCheck
    ((s.doPops (popsOf tk)).stepWord.enqueue s.cPoint (.mma gather t ra rb n ov ck) 0 (if gather then halfWords b else []) none) := by
  rw [mmaIssue_doPops h, hcheck]
  cases hg : gather with
  | true =>
    have hb := hlist hg
    rw [Res.ofTrap, if_pos rfl, hb]
    rfl
  | false => rfl

theorem mma_traps_lease (hl : ¬ s.Leased) : Traps i s (trapOf codePoolPart) :=
  hi.trans (runWord_trap h.toIssues (by rw [mmaIssue_listed h hcheck hlist, State.leaseCheck_unleased hl]; rfl))

theorem mma_queued (hl : s.Leased) :
    Queued i s s.stepWord (.mma gather t ra rb n ov ck) 0 (if gather then halfWords b else []) none :=
  queued_of_enqueue hi h.toClear (s.popped tk).stepWord
    (by rw [mmaIssue_listed h hcheck hlist, State.leaseCheck_leased hl]; rfl)

end Mma

/-! ### `mhad` (R146) -/

/-- Both rings are set, of formats that a Hadamard pass takes. -/
def State.MhadFormed (s : State) (ra rb : Fin 16) : Prop :=
  (s.ring ra).set = true ∧ (s.ring rb).set = true
    ∧ (typeFloat (rgFmt (s.ring ra).img) = true ∨ typeBx (rgFmt (s.ring ra).img) = true)
    ∧ (typeFloat (rgFmt (s.ring rb).img) = true ∨ typeBx (rgFmt (s.ring rb).img) = true)

/-- Two rings of the same slots, of whole groups, and for a BX destination a scale to divide by. -/
def State.MhadShaped (s : State) (ra rb : Fin 16) (order : BitVec 2) : Prop :=
  ra ≠ rb ∧ rgRows (s.ring ra).img = rgRows (s.ring rb).img ∧ rgCols (s.ring ra).img = rgCols (s.ring rb).img
    ∧ rgCols (s.ring ra).img % (32 * 2 ^ order.toNat) = 0
    ∧ (typeBx (rgFmt (s.ring ra).img) = true →
      (rgTscale (s.ring ra).img).isFinite = true ∧ (rgTscale (s.ring ra).img).isZero = false)

section MhadCheck
variable {s : State} {ra rb : Fin 16} {order : BitVec 2}

theorem State.mhadCheck_unformed (h : ¬ s.MhadFormed ra rb) : s.mhadCheck ra rb order = some (trapOf codeIllegalType) := by
  rw [State.mhadCheck]
  refine if_pos ?_
  simp only [State.MhadFormed, not_and_or, not_or, Bool.not_eq_true] at h
  simp only [Bool.or_eq_true, Bool.not_eq_true', Bool.or_eq_false_iff]
  tauto

theorem State.mhadCheck_formed (h : s.MhadFormed ra rb) : s.mhadCheck ra rb order =
    if ra = rb || rgRows (s.ring ra).img ≠ rgRows (s.ring rb).img || rgCols (s.ring ra).img ≠ rgCols (s.ring rb).img
        || rgCols (s.ring ra).img % (32 * 2 ^ order.toNat) ≠ 0
        || (typeBx (rgFmt (s.ring ra).img) && (!(rgTscale (s.ring ra).img).isFinite || (rgTscale (s.ring ra).img).isZero)) then
      some (trapOf codeRegRange)
    else s.leaseCheck := by
  obtain ⟨hA, hB, ha, hb⟩ := h
  rw [State.mhadCheck]
  refine if_neg ?_
  simp only [Bool.or_eq_true, Bool.not_eq_true', Bool.or_eq_false_iff, hA, hB]
  rintro (h | h)
  · rcases ha with ha | ha <;> simp [ha] at h
  · rcases hb with hb | hb <;> simp [hb] at h

theorem State.mhadCheck_unshaped (h : s.MhadFormed ra rb) (hs : ¬ s.MhadShaped ra rb order) :
    s.mhadCheck ra rb order = some (trapOf codeRegRange) := by
  refine (State.mhadCheck_formed h).trans (if_pos ?_)
  simp only [State.MhadShaped, not_and_or, Classical.not_imp, not_not, Bool.not_eq_true, Bool.not_eq_false] at hs
  simp only [Bool.or_eq_true, Bool.and_eq_true, Bool.not_eq_true', decide_eq_true_eq]
  tauto

theorem State.mhadCheck_shaped (h : s.MhadFormed ra rb) (hs : s.MhadShaped ra rb order) : s.mhadCheck ra rb order = s.leaseCheck := by
  obtain ⟨hne, hrows, hcols, hwhole, hscale⟩ := hs
  refine (State.mhadCheck_formed h).trans (if_neg ?_)
  rw [hcols] at hwhole
  cases hbx : typeBx (rgFmt (s.ring ra).img) with
  | true => simp [hne, hrows, hcols, hwhole, hscale hbx]
  | false => simp [hne, hrows, hcols, hwhole]

end MhadCheck

section Mhad
variable {s : State} {tk : Tok} {ra rb : Fin 16} {order sign : BitVec 2} (h : s.Issuing tk)
include h

/-- The effect of `mhad` after its pops: its checks, then a free slot, which it reserves. -/
theorem mhadIssue_doPops : mhadIssue s.cPoint ra rb order sign (s.doPops (popsOf tk)) = .ofTrap (s.mhadCheck ra rb order)
    (if (s.ring ra).full then .block .other id
     else (((s.doPops (popsOf tk)).modRing ra Ring.reserve).stepWord).enqueue s.cPoint (.mhad ra rb order sign) 0 []
      (some (ra, (s.ring ra).resv))) := by
  have hpops := s.apart_doPops (popsOf tk)
  rw [mhadIssue, State.cEntry_of_room (by rw [State.mq_of_apart hpops]; exact h.room), State.mhadCheck_of_apart hpops,
    State.ring_of_apart hpops]

theorem mhad_traps {x : TrapReq} (hx : s.mhadCheck ra rb order = some x) : Traps (.mhad tk ra rb order sign) s x :=
  runWord_trap h.toIssues (by rw [mhadIssue_doPops h, hx]; rfl)

variable (hcheck : s.mhadCheck ra rb order = none)
include hcheck

theorem mhad_waits (hfull : (s.ring ra).full = true) : Waits (.mhad tk ra rb order sign) s :=
  runWord_waits (k := .other) h.toIssues (by rw [mhadIssue_doPops h, hcheck, Res.ofTrap, if_pos hfull]) rfl

theorem mhad_queued (hfull : (s.ring ra).full = false) : Queued (.mhad tk ra rb order sign) s
    (s.modRing ra Ring.reserve).stepWord (.mhad ra rb order sign) 0 [] (some (ra, (s.ring ra).resv)) :=
  queued_of_enqueue (rfl : exec (.mhad tk ra rb order sign) s = runWord tk [] s _) h.toClear ((s.popped tk).reserve ra).stepWord
    (by rw [mhadIssue_doPops h, hcheck, Res.ofTrap, if_neg (by rw [hfull]; decide)])

end Mhad

/-! ### Words that run no chunk (R143, R147, R148, R150, R151) -/

section IssueAct
variable {s : State} {before : CPoint} {op : MatOp} {addr : Nat} {slot : Option (Fin 16 × Nat)}

theorem State.issueAct_busy (h : s.crew.mq ≠ []) : s.issueAct before op addr slot = s.enqueue before op addr [] slot := by
  rw [State.issueAct]
  exact if_neg (by simpa using h)

/-- With nothing of C's before it, the word answers as its action does. -/
theorem State.issueAct_idle (h : s.crew.mq = []) : s.issueAct before op addr slot =
    match s.act (s.command before op addr [] slot) with
    | .did u => .done u
    | .waits u => u.enqueue before op addr [] slot
    | .trap t u => .trapLeaving t ((match slot with
      | some q => u.withdraw q
      | none => u).atWord (s.command before op addr [] slot)) := by
  rw [State.issueAct, h]
  exact if_pos rfl

end IssueAct

/-- A word comes, its checks made, to the issue of `op` in the state `u`. -/
def IssuesAct (i : Instr) (s : State) (tk : Tok) (u : State) (op : MatOp) (addr : Nat) (slot : Option (Fin 16 × Nat)) : Prop :=
  ∃ reads effect, exec i s = runWord tk reads s effect ∧ effect (s.doPops (popsOf tk)) = u.issueAct s.cPoint op addr slot

section Immediate
variable {s pre u : State} {tk : Tok} {i : Instr} {op : MatOp} {addr : Nat} {slot : Option (Fin 16 × Nat)}
  (hi : IssuesAct i s tk u op addr slot) (h : s.Issuing tk) (hu : s.Popped tk pre u)
include hi h hu

/-- A word with others of C's before it joins the queue. -/
theorem immediate_queued (hmq : pre.crew.mq ≠ []) : Queued i s pre op addr [] slot := by
  obtain ⟨reads, effect, hi, he⟩ := hi
  exact queued_of_enqueue hi h.toClear hu (he.trans (State.issueAct_busy (by rwa [State.mq_of_apart hu.apart])))

variable (hmq : pre.crew.mq = [])
include hmq

/-- A word that cannot act yet joins the queue, in the state that its action leaves. -/
theorem immediate_waits {pre2 v : State} (hv : s.Popped tk pre2 v) (hact : u.act (u.command s.cPoint op addr [] slot) = .waits v) :
    Queued i s pre2 op addr [] slot := by
  obtain ⟨reads, effect, hi, he⟩ := hi
  exact queued_of_enqueue hi h.toClear hv (he.trans (by rw [State.issueAct_idle (by rwa [State.mq_of_apart hu.apart]), hact]))

/-- A word that acts answers a state that agrees with its action's apart from issue. -/
theorem immediate_did {v : State} (hact : u.act (u.command s.cPoint op addr [] slot) = .did v) (hseq : v.seq = u.seq) :
    Answers i s fun w => w.apart = v.apart ∧ (s.inLine → w.pc = s.pc + 4) := by
  obtain ⟨reads, effect, hi, he⟩ := hi
  rw [Answers, hi]
  exact runWord_answers h.toClear (he.trans (by rw [State.issueAct_idle (by rwa [State.mq_of_apart hu.apart]), hact]))
    (by rw [hseq, hu.seq])

/-- A word of no ring slot whose action traps, abandoning C's words, stops C there. -/
theorem immediate_traps {x : TrapReq} {v : State} (hslot : slot = none)
    (hact : u.act (u.command s.cPoint op addr [] slot) = .trap x v) (hrole : v.cur.role = .c) (hmqv : v.crew.mq = []) :
    Answers i s fun w => v.Abandons w ∧ w.seq.status = .trapped ∧ w.pc = s.pc
      ∧ ∃ q ∈ w.here.traps, q.code = x.code ∧ q.addr = x.addr ∧ q.pc = s.pc := by
  obtain ⟨reads, effect, hi, he⟩ := hi
  subst hslot
  have hrun := runWord_trapLeaving (reads := reads) h.toIssues
    (he.trans (by rw [State.issueAct_idle (by rwa [State.mq_of_apart hu.apart]), hact]))
  have hat := raise_atWord_trapped hrole hmqv (u.command s.cPoint op addr [] none) x
  have habandons : v.Abandons (raise x (v.atWord (u.command s.cPoint op addr [] none))) :=
    (v.atWord_abandons _).trans (raise_abandons (s := v.atWord _) hrole x)
  have hseq : (raise x (v.atWord (u.command s.cPoint op addr [] none))).seq
      = (raise x (v.atWord (u.command s.cPoint op addr [] none))).crew.seqC := by
    rw [State.seq_crew (by rw [habandons.cur, hrole]; decide), habandons.cur, hrole]
    rfl
  refine ⟨_, hi.trans hrun, habandons, by rw [hseq, hat.status], by rw [State.pc, hseq, hat.pc]; exact hu.pc, ?_⟩
  rw [← hu.pc]
  exact hat.trap

end Immediate

theorem Lease.requested_requested (cycle : Nat) (l : Lease) : (l.requested cycle).requested cycle = l.requested cycle := by
  by_cases h : (l.usable || l.request.isSome) = true
  · rw [Lease.requested, Lease.requested, if_pos h, if_pos h]
  · have hset (l : Lease) (h : l.request.isSome = true) : l.requested cycle = l := by
      rw [Lease.requested, if_pos (by rw [h, Bool.or_true])]
    exact hset _ (by rw [Lease.requested, if_neg h]; rfl)

theorem Lease.requested_usable (cycle : Nat) (l : Lease) : (l.requested cycle).usable = l.usable := by
  rw [Lease.requested]
  split <;> rfl

/-- A lease asked for twice in a clock is asked for once. -/
theorem State.requestLease_requestLease (s : State) : s.requestLease.requestLease = s.requestLease := by
  rw [State.requestLease_eq s, State.requestLease_eq, State.modCrew_modCrew]
  congr 1
  funext c
  exact congrArg (fun l => { c with lease := l }) (Lease.requested_requested s.cycle c.lease)

theorem State.mq_requestLease (s : State) : s.requestLease.crew.mq = s.crew.mq := by
  rw [State.requestLease_eq, State.crew_modCrew]

theorem State.usable_requestLease (s : State) : s.requestLease.crew.lease.usable = s.crew.lease.usable := by
  rw [State.requestLease_eq, State.crew_modCrew]
  exact Lease.requested_usable ..

section Words
variable {s : State} {tk : Tok} (h : s.Issuing tk)
include h

/-- There is room in the queue after the pops. -/
theorem State.Issuing.cEntry (k : Res) : (s.doPops (popsOf tk)).cEntry k = k :=
  State.cEntry_of_room (by rw [State.mq_of_apart (s.apart_doPops _)]; exact h.room) k

/-! ### `mzero` (R143) -/

section Mzero
variable {mask : BitVec 16}

theorem mzero_runs_none : Runs (.mzero tk 0) s s := by
  obtain ⟨u, hu, ha, hp⟩ := runWord_answers (reads := []) (effect := fun s => .done s) h.toClear rfl rfl
  exact ⟨u, hu, ha.trans (s.apart_doPops _), hp⟩

variable (hmask : mask ≠ 0)
include hmask

theorem mzero_traps_unset (hset : ∃ i ∈ maskTiles mask, (s.tile i).set = false) :
    Traps (.mzero tk mask) s (trapOf codeIllegalType) := by
  have hany : ((maskTiles mask).any fun i => !((s.doPops (popsOf tk)).tile i).set) = true := by
    simpa [State.tile_of_apart (s.apart_doPops _)] using hset
  refine runWord_trap (effect := fun _ => _) h.toIssues ?_
  exact (if_neg hmask).trans ((h.cEntry _).trans (if_pos hany))

variable (hset : ∀ i ∈ maskTiles mask, (s.tile i).set = true)
include hset

theorem mzero_issues :
    IssuesAct (.mzero tk mask) s tk (s.doPops (popsOf tk)) (.mzero mask) 0 none := by
  have hany : ¬ ((maskTiles mask).any fun i => !((s.doPops (popsOf tk)).tile i).set) = true := by
    simpa [State.tile_of_apart (s.apart_doPops _)] using hset
  refine ⟨_, fun _ => _, rfl, ?_⟩
  exact (if_neg hmask).trans ((h.cEntry _).trans (if_neg hany))

theorem mzero_queued (hmq : s.crew.mq ≠ []) : Queued (.mzero tk mask) s s (.mzero mask) 0 [] none :=
  immediate_queued (mzero_issues h hmask hset) h (s.popped tk) hmq

end Mzero

/-! ### `mtag` and `mtag.chk` (R148) -/

section Mtag
variable {t : Fin 16} {a : AReg}

theorem mtag_traps (hset : (s.tile t).set = true) {x : TrapReq} (hx : poolCheck s.part (s.getA a).toNat 64 64 = some x) :
    Traps (.mtag tk t a) s x := by
  refine runWord_trap (effect := fun _ => _) h.toIssues ?_
  refine (h.cEntry _).trans ?_
  rw [State.tile_of_apart (s.apart_doPops _), hset, if_neg (by decide), State.part_of_apart (s.apart_doPops _), State.getA_doPops, hx]
  rfl

theorem mtagChk_traps {x : TrapReq} (hx : poolCheck s.part (s.getA a).toNat 64 64 = some x) : Traps (.mtagChk tk a) s x := by
  refine runWord_trap (effect := fun _ => _) h.toIssues ?_
  refine (h.cEntry _).trans ?_
  rw [State.part_of_apart (s.apart_doPops _), State.getA_doPops, hx]
  rfl

variable (hpool : poolCheck s.part (s.getA a).toNat 64 64 = none)
include hpool

theorem mtag_issues (hset : (s.tile t).set = true) :
    IssuesAct (.mtag tk t a) s tk (s.doPops (popsOf tk)) (.mtag t) (s.getA a).toNat none := by
  refine ⟨_, fun _ => _, rfl, ?_⟩
  refine (h.cEntry _).trans ?_
  rw [State.tile_of_apart (s.apart_doPops _), hset, if_neg (by decide), State.part_of_apart (s.apart_doPops _), State.getA_doPops, hpool]
  rfl

theorem mtagChk_issues :
    IssuesAct (.mtagChk tk a) s tk (s.doPops (popsOf tk)) .mtagChk (s.getA a).toNat none := by
  refine ⟨_, fun _ => _, rfl, ?_⟩
  refine (h.cEntry _).trans ?_
  rw [State.part_of_apart (s.apart_doPops _), State.getA_doPops, hpool]
  rfl

theorem mtag_queued (hset : (s.tile t).set = true) (hmq : s.crew.mq ≠ []) :
    Queued (.mtag tk t a) s s (.mtag t) (s.getA a).toNat [] none :=
  immediate_queued (mtag_issues h hpool hset) h (s.popped tk) hmq

theorem mtagChk_queued (hmq : s.crew.mq ≠ []) : Queued (.mtagChk tk a) s s .mtagChk (s.getA a).toNat [] none :=
  immediate_queued (mtagChk_issues h hpool) h (s.popped tk) hmq

end Mtag

/-! ### `mchk`, `mring.pop`, `mlease` and `mfree` (R141, R148, R151) -/

theorem mchk_issues {t : Fin 16} (hset : (s.tile t).set = true) :
    IssuesAct (.mchk tk t) s tk (s.doPops (popsOf tk)) (.mchk t) 0 none := by
  refine ⟨_, fun _ => _, rfl, ?_⟩
  refine (h.cEntry _).trans (if_neg ?_)
  rw [State.tile_of_apart (s.apart_doPops _), hset]
  decide

theorem mchk_queued {t : Fin 16} (hset : (s.tile t).set = true) (hmq : s.crew.mq ≠ []) : Queued (.mchk tk t) s s (.mchk t) 0 [] none :=
  immediate_queued (mchk_issues h hset) h (s.popped tk) hmq

theorem mfree_issues : IssuesAct (.mfree tk) s tk (s.doPops (popsOf tk)) .mfree 0 none := by
  refine ⟨_, fun _ => _, rfl, ?_⟩
  exact h.cEntry _

theorem mfree_queued (hmq : s.crew.mq ≠ []) : Queued (.mfree tk) s s .mfree 0 [] none :=
  immediate_queued (mfree_issues h) h (s.popped tk) hmq

/-- A pop joins the queue behind other words, or where its ring holds no slot to consume. -/
theorem mringPop_queued {r : Fin 16} (hset : (s.ring r).set = true) (hor : s.crew.mq ≠ [] ∨ (s.ring r).tail ≤ (s.ring r).head) :
    Queued (.mringPop tk r) s s (.pop r) 0 [] none := by
  have hissues : IssuesAct (.mringPop tk r) s tk (s.doPops (popsOf tk)) (.pop r) 0 none := by
    refine ⟨_, fun _ => _, rfl, ?_⟩
    refine (h.cEntry _).trans (if_neg ?_)
    rw [State.ring_of_apart (s.apart_doPops _), hset]
    decide
  by_cases hmq : s.crew.mq = []
  · have hready : ((s.doPops (popsOf tk)).ring r).ready 1 = false := by
      have htail := hor.resolve_left (not_not.2 hmq)
      rw [State.ring_of_apart (s.apart_doPops _), Ring.ready]
      exact decide_eq_false (by omega)
    exact immediate_waits hissues h (s.popped tk) hmq (s.popped tk) (if_neg (by rw [hready]; decide))
  · exact immediate_queued hissues h (s.popped tk) hmq

/-- `mlease` asks at once, and joins the queue behind other words or until it holds a lease. -/
theorem mlease_queued (hpart : 6 ≤ partNa s.part) (hor : s.crew.mq ≠ [] ∨ s.crew.lease.usable = false) :
    Queued (.mlease tk) s s.requestLease .mlease 0 [] none := by
  have hu := (s.popped tk).requestLease
  have hissues : IssuesAct (.mlease tk) s tk (s.doPops (popsOf tk)).requestLease .mlease 0 none := by
    refine ⟨_, fun _ => _, rfl, ?_⟩
    refine (h.cEntry _).trans (if_neg ?_)
    rw [State.part_of_apart (s.apart_doPops _)]
    omega
  by_cases hmq : s.crew.mq = []
  · have husable : (s.doPops (popsOf tk)).requestLease.crew.lease.usable = false := by
      rw [State.lease_of_apart hu.apart, State.usable_requestLease]
      exact hor.resolve_left (not_not.2 hmq)
    refine immediate_waits hissues h hu (by rwa [State.mq_requestLease]) hu ((if_neg (by rw [husable]; decide)).trans ?_)
    rw [State.requestLease_requestLease]
  · exact immediate_queued hissues h hu (by rwa [State.mq_requestLease])

end Words

/-! ### Zeroing of tiles (R143) -/

/-- The place where the storage of tile `i` begins in the core's pool. -/
def State.tilePlace (s : State) (i : Fin 16) : Nat := s.crew.org + tlBase (s.tile i).img

/-- From `s` to `v` the storage of the tiles `ts` became zeros and their runs began; rings, memory and sequencers stay. -/
structure State.Zeroed (s v : State) (ts : List (Fin 16)) : Prop where
  mem : v.mem = s.mem
  rings : v.crew.rings = s.crew.rings
  seq : v.seq = s.seq
  org : v.crew.org = s.crew.org
  img : ∀ i, (v.tile i).img = (s.tile i).img
  wf : memWf v.here.pool = true
  zero : ∀ i ∈ ts, ∀ j, j < tlBytes (s.tile i).img → memGet v.here.pool (s.tilePlace i + j) = 0
  kept : ∀ q, (∀ i ∈ ts, q < s.tilePlace i ∨ s.tilePlace i + tlBytes (s.tile i).img ≤ q) →
    memGet v.here.pool q = memGet s.here.pool q

theorem Crew.inner_modTile (i : Fin 16) (f : Tile → Tile) : Crew.Inner fun c => { c with tiles := c.tiles.set i (f (c.tiles.get i)) } :=
  ⟨fun _ => rfl, fun _ st _ => by cases st <;> rfl, fun _ st => by cases st <;> rfl⟩

theorem State.seq_modTile (s : State) (i : Fin 16) (f : Tile → Tile) : (s.modTile i f).seq = s.seq :=
  State.seq_inner (Crew.inner_modTile i f) s

theorem State.tile_modTile_same (s : State) (i : Fin 16) (f : Tile → Tile) : (s.modTile i f).tile i = f (s.tile i) := by
  rw [State.tile, State.modTile, State.crew_modCrew]
  exact vget_set_same _ _ _

theorem State.tile_modTile_ne (s : State) {i j : Fin 16} (f : Tile → Tile) (h : i ≠ j) : (s.modTile i f).tile j = s.tile j := by
  rw [State.tile, State.modTile, State.crew_modCrew]
  exact vget_set_ne _ _ _ _ h

theorem State.rings_modTile (s : State) (i : Fin 16) (f : Tile → Tile) : (s.modTile i f).crew.rings = s.crew.rings := by
  rw [State.modTile, State.crew_modCrew]

theorem State.org_modTile (s : State) (i : Fin 16) (f : Tile → Tile) : (s.modTile i f).crew.org = s.crew.org := by
  rw [State.modTile, State.crew_modCrew]; rfl

/-- An update that keeps descriptors keeps every tile's. -/
theorem State.img_modTile (s : State) (i j : Fin 16) {f : Tile → Tile} (hf : ∀ t, (f t).img = t.img) :
    ((s.modTile i f).tile j).img = (s.tile j).img := by
  by_cases h : i = j
  · rw [h, State.tile_modTile_same, hf]
  · rw [State.tile_modTile_ne _ _ h]

theorem State.crew_poolWrite (s : State) (place : Nat) (b : List Byte) : (s.modHere fun c => c.poolWrite place b).crew = s.crew :=
  State.crew_modHere fun c => c.poolWrite_crew place b

theorem State.pool_poolWrite (s : State) (place : Nat) (b : List Byte) :
    (s.modHere fun c => c.poolWrite place b).here.pool = memSets s.here.pool place b := by
  rw [State.here_modHere]; rfl

theorem State.zeroTile_zeroed (s : State) (i : Fin 16) (h : memWf s.here.pool = true) : s.Zeroed (s.zeroTile i) [i] := by
  have hpool : (s.zeroTile i).here.pool = memSets s.here.pool (s.tilePlace i) (List.replicate (tlBytes (s.tile i).img) 0) := by
    rw [State.zeroTile, State.modTile, State.pool_modCrew, State.pool_poolWrite]; rfl
  have htile (j : Fin 16) : (s.modHere fun c => c.poolWrite (s.crew.org + tlBase (s.tile i).img)
      (List.replicate (tlBytes (s.tile i).img) 0)).tile j = s.tile j := by
    rw [State.tile, State.crew_poolWrite]; rfl
  refine ⟨rfl, ?_, ?_, ?_, fun j => ?_, by rw [hpool]; exact memWf_memSets _ _ h, fun k hk j hj => ?_, fun q hq => ?_⟩
  · rw [State.zeroTile, State.rings_modTile, State.crew_poolWrite]
  · rw [State.zeroTile, State.seq_modTile]; exact State.seq_innerCore (Core.inner_pool _ _) s
  · rw [State.zeroTile, State.org_modTile, State.crew_poolWrite]
  · rw [State.zeroTile, State.img_modTile _ _ _ fun t => t.img_begin_ _ _ _, htile]
  · obtain rfl := List.mem_singleton.1 hk
    rw [hpool, memGet_memSets_same _ h (by simpa using hj), List.getElem_replicate]
  · rw [hpool, memGet_memSets_other _ h (by simpa using hq i (List.mem_singleton.2 rfl))]

theorem State.Zeroed.trans {s u v : State} {ts rest : List (Fin 16)} (h : s.Zeroed u ts) (k : u.Zeroed v rest) :
    s.Zeroed v (ts ++ rest) := by
  have hplace (i : Fin 16) : u.tilePlace i = s.tilePlace i := by rw [State.tilePlace, h.org, h.img]; rfl
  have hkept (q : Nat) (hq : ∀ i ∈ rest, q < s.tilePlace i ∨ s.tilePlace i + tlBytes (s.tile i).img ≤ q) :
      memGet v.here.pool q = memGet u.here.pool q := k.kept q fun i hi => by rw [hplace, h.img]; exact hq i hi
  refine ⟨k.mem.trans h.mem, k.rings.trans h.rings, k.seq.trans h.seq, k.org.trans h.org, fun i => (k.img i).trans (h.img i), k.wf,
    fun i hi j hj => ?_, fun q hq => ?_⟩
  · by_cases hin : ∀ i' ∈ rest, s.tilePlace i + j < s.tilePlace i' ∨ s.tilePlace i' + tlBytes (s.tile i').img ≤ s.tilePlace i + j
    · rcases List.mem_append.1 hi with hi | hi
      · rw [hkept _ hin, h.zero i hi j hj]
      · have := hin i hi
        omega
    · simp only [not_forall, not_or, not_lt, not_le] at hin
      obtain ⟨i', hi', hlo, hhi⟩ := hin
      have hz := k.zero i' hi' (s.tilePlace i + j - s.tilePlace i') (by rw [h.img]; omega)
      rwa [hplace, Nat.add_sub_cancel' hlo] at hz
  · rw [hkept q fun i hi => hq i (List.mem_append_right _ hi), h.kept q fun i hi => hq i (List.mem_append_left _ hi)]

/-- Zeroing the tiles of a list one after the other zeroes all of them. -/
theorem State.zeroTiles_zeroed (ts : List (Fin 16)) (s : State) (h : memWf s.here.pool = true) :
    s.Zeroed (ts.foldl State.zeroTile s) ts := by
  induction ts generalizing s with
  | nil => exact ⟨rfl, rfl, rfl, rfl, fun _ => rfl, h, by simp, fun _ _ => rfl⟩
  | cons i ts ih => exact (s.zeroTile_zeroed i h).trans (ih _ (s.zeroTile_zeroed i h).wf)

theorem Answers.imp {i : Instr} {s : State} {p q : State → Prop} (h : Answers i s p) (hpq : ∀ w, p w → q w) : Answers i s q := by
  obtain ⟨w, hw, hp⟩ := h
  exact ⟨w, hw, hpq w hp⟩

theorem natLe_zero (n : Nat) : natLe n 0 = List.replicate n 0 := by
  induction n with
  | zero => rfl
  | succ n ih => rw [natLe, Nat.zero_div, ih]; rfl

/-- The bytes of a tag where it is valid, and zeros where it is not. -/
theorem natLe_ite (valid : Bool) (img : Image) :
    natLe 64 (if valid then img else (0 : Image)).toNat = if valid then natLe 64 img.toNat else List.replicate 64 0 := by
  cases valid with
  | true => rw [if_pos rfl, if_pos rfl]
  | false => exact (congrArg (natLe 64) BitVec.toNat_zero).trans (natLe_zero 64)

/-! ### Actions (R143, R147, R148) -/

section Act
variable {s : State} {m : MatCmd} {t : Fin 16}

theorem State.act_mzero {mask : BitVec 16} (hop : m.op = .mzero mask)
    (hfree : s.here.banksFree m.id ((maskTiles mask).flatMap s.tileBanks) = true) :
    s.act m = .did ((maskTiles mask).foldl State.zeroTile s) := by
  rw [State.act, hop]
  exact if_neg (by rw [hfree]; decide)

theorem State.act_mtag (hop : m.op = .mtag t) : s.act m = s.actTag m (s.tileBanks t) (s.tile t).tag := by rw [State.act, hop]

theorem State.act_mtagChk (hop : m.op = .mtagChk) :
    s.act m = s.actTag m [] (if s.crew.check.valid then s.crew.check.img else 0) := by rw [State.act, hop]

theorem State.actTag_did {banks : List Nat} {img : Image}
    (hfree : s.here.banksFree m.id (banks ++ banksOf (s.crew.org + m.addr) 64) = true) :
    s.actTag m banks img = .did (s.modHere fun c => c.poolWrite (s.crew.org + m.addr) (natLe 64 img.toNat)) := by
  rw [State.actTag]
  exact if_neg (by rw [hfree]; decide)

theorem State.act_mchk (hop : m.op = .mchk t) (hfree : s.here.banksFree m.id (s.tileBanks t) = true) :
    s.act m = s.compare t .did := by
  rw [State.act, hop]
  exact if_neg (by rw [hfree]; decide)

theorem State.act_mdrain {dd : Fin 16} (hop : m.op = .mdrain t dd) : s.act m = s.actDrain m t dd := by rw [State.act, hop]

end Act

/-! ### `mzero` with nothing before it (R143) -/

section Idle
variable {s : State} {tk : Tok} (h : s.Issuing tk) (hmq : s.crew.mq = []) (hwf : memWf s.here.pool = true)
include h hmq hwf

theorem mzero_answers {mask : BitVec 16} (hmask : mask ≠ 0) (hset : ∀ i ∈ maskTiles mask, (s.tile i).set = true)
    (hfree : s.here.banksFree s.serial ((maskTiles mask).flatMap s.tileBanks) = true) :
    Answers (.mzero tk mask) s fun w => (s.inLine → w.pc = s.pc + 4) ∧ w.mem = s.mem ∧ w.crew.rings = s.crew.rings
      ∧ (∀ i ∈ maskTiles mask, ∀ j, j < tlBytes (s.tile i).img → memGet w.here.pool (s.tilePlace i + j) = 0)
      ∧ ∀ q, (∀ i ∈ maskTiles mask, q < s.tilePlace i ∨ s.tilePlace i + tlBytes (s.tile i).img ≤ q) →
          memGet w.here.pool q = memGet s.here.pool q := by
  have hpops := s.apart_doPops (popsOf tk)
  have hact : (s.doPops (popsOf tk)).act ((s.doPops (popsOf tk)).command s.cPoint (.mzero mask) 0 [] none)
      = .did ((maskTiles mask).foldl State.zeroTile (s.doPops (popsOf tk))) := by
    have hbanks : (s.doPops (popsOf tk)).tileBanks = s.tileBanks := funext fun i => State.tileBanks_of_apart hpops i
    refine State.act_mzero rfl ?_
    rw [State.command, hbanks, State.serial_of_apart hpops, State.banksFree_of_apart hpops, hfree]
  have hz := State.zeroTiles_zeroed (maskTiles mask) (s.doPops (popsOf tk)) (by rw [State.pool_of_apart hpops]; exact hwf)
  have hplace (i : Fin 16) : (s.doPops (popsOf tk)).tilePlace i = s.tilePlace i := by
    rw [State.tilePlace, State.org_of_apart hpops, State.tile_of_apart hpops]; rfl
  refine (immediate_did (mzero_issues h hmask hset) h (s.popped tk) hmq hact hz.seq).imp fun w ⟨ha, hp⟩ => ⟨hp, ?_, ?_, ?_, ?_⟩
  · rw [State.mem_of_apart ha, hz.mem, State.mem_of_apart hpops]
  · rw [State.rings_of_apart ha, hz.rings, State.rings_of_apart hpops]
  · intro i hi j hj
    rw [State.pool_of_apart ha, ← hplace]
    exact hz.zero i hi j (by rwa [State.tile_of_apart hpops])
  · intro q hq
    rw [State.pool_of_apart ha, ← State.pool_of_apart hpops]
    exact hz.kept q fun i hi => by rw [hplace, State.tile_of_apart hpops]; exact hq i hi

/-! ### `mtag` and `mtag.chk` with nothing before them (R148) -/

/-- A word whose action is to copy 64 bytes to `v` copies them, and tiles and memory stay. -/
theorem tag_answers {i : Instr} {op : MatOp} {v : Nat} {img : Image} {banks : List Nat}
    (hi : IssuesAct i s tk (s.doPops (popsOf tk)) op v none)
    (hact : ∀ u : State, u.apart = s.apart → ∀ m : MatCmd, m.op = op → u.act m = u.actTag m banks img)
    (hfree : s.here.banksFree s.serial (banks ++ banksOf (s.crew.org + v) 64) = true) :
    Answers i s fun w => memGets w.here.pool (s.crew.org + v) 64 = natLe 64 img.toNat ∧ w.mem = s.mem
      ∧ w.crew.tiles = s.crew.tiles := by
  have hpops := s.apart_doPops (popsOf tk)
  have hdid : (s.doPops (popsOf tk)).act ((s.doPops (popsOf tk)).command s.cPoint op v [] none)
      = .did ((s.doPops (popsOf tk)).modHere fun c => c.poolWrite ((s.doPops (popsOf tk)).crew.org + v) (natLe 64 img.toNat)) :=
    (hact _ hpops _ rfl).trans (State.actTag_did (by
      rw [State.command, State.org_of_apart hpops, State.serial_of_apart hpops, State.banksFree_of_apart hpops, hfree]))
  refine (immediate_did hi h (s.popped tk) hmq hdid (State.seq_innerCore (Core.inner_pool _ _) _)).imp fun w ⟨ha, _⟩ => ⟨?_, ?_, ?_⟩
  · have hread := memGets_memSets_same (a := s.crew.org + v) (natLe 64 img.toNat) hwf
    rw [length_natLe] at hread
    rw [State.pool_of_apart ha, State.pool_poolWrite, State.org_of_apart hpops, State.pool_of_apart hpops, hread]
  · exact (State.mem_of_apart ha).trans (State.mem_of_apart (u := s.doPops _) hpops)
  · rw [State.tiles_of_apart ha, State.crew_poolWrite, State.tiles_of_apart hpops]

theorem mtag_answers {t : Fin 16} {a : AReg} (hset : (s.tile t).set = true) (hpool : poolCheck s.part (s.getA a).toNat 64 64 = none)
    (hfree : s.here.banksFree s.serial (s.tileBanks t ++ banksOf (s.crew.org + (s.getA a).toNat) 64) = true) :
    Answers (.mtag tk t a) s fun w => memGets w.here.pool (s.crew.org + (s.getA a).toNat) 64 = natLe 64 (s.tile t).tag.toNat
      ∧ w.mem = s.mem ∧ w.crew.tiles = s.crew.tiles :=
  tag_answers h hmq hwf (mtag_issues h hpool hset)
    (fun u hu m hop => by rw [State.act_mtag hop, State.tileBanks_of_apart hu, State.tile_of_apart hu]) hfree

/-- `mtag.chk` copies the check tag, zeros where it is not valid. -/
theorem mtagChk_answers {a : AReg} (hpool : poolCheck s.part (s.getA a).toNat 64 64 = none)
    (hfree : s.here.banksFree s.serial (banksOf (s.crew.org + (s.getA a).toNat) 64) = true) :
    Answers (.mtagChk tk a) s fun w => w.mem = s.mem ∧ w.crew.tiles = s.crew.tiles
      ∧ memGets w.here.pool (s.crew.org + (s.getA a).toNat) 64 =
        if s.crew.check.valid then natLe 64 s.crew.check.img.toNat else List.replicate 64 0 :=
  (tag_answers h hmq hwf (mtagChk_issues h hpool) (fun u hu m hop => by rw [State.act_mtagChk hop, State.check_of_apart hu])
    hfree).imp fun _ ⟨hread, hmem, htiles⟩ => ⟨hmem, htiles, hread.trans (natLe_ite _ _)⟩

end Idle

/-! ### The status of a tag (Table 10.3) -/

theorem field_ofNat {hi lo n : Nat} (h : hi < n) (v : Nat) : field (BitVec.ofNat n v).toNat hi lo = field v hi lo := by
  rw [BitVec.toNat_ofNat, field_mod_two_pow h]

theorem field_tagSet_same (t : Image) {hi lo : Nat} (hlo : lo ≤ hi + 1) (hhi : hi < 512) (v : Nat) :
    field (tagSet t hi lo v).toNat hi lo = v % 2 ^ (hi + 1 - lo) := by
  rw [tagSet, field_ofNat hhi, field_setField_same hlo]

theorem field_tagSet_other (t : Image) {hi lo hi' lo' : Nat} (hlo : lo ≤ hi + 1) (hd : hi' < lo ∨ hi < lo') (hhi' : hi' < 512)
    (v : Nat) : field (tagSet t hi lo v).toNat hi' lo' = field t.toNat hi' lo' := by
  rw [tagSet, field_ofNat hhi', field_setField_other hlo hd]

/-- The counts of conversions stand above the status. -/
theorem field_tagCount (t : Image) (c : ConvRec) : field (tagCount t c).toNat 130 129 = field t.toNat 130 129 := by
  simp only [tagCount]
  rw [field_tagSet_other _ (by omega) (by omega) (by omega), field_tagSet_other _ (by omega) (by omega) (by omega),
    field_tagSet_other _ (by omega) (by omega) (by omega)]

/-- What the tag of tile `t` says of its checks. -/
def State.tagStatus (s : State) (t : Fin 16) : Nat := field (s.crew.tiles.get t).tag.toNat 130 129

/-- The tile with the outcome of its comparison in its tag. -/
def Tile.judged (n : Nat) (T : Tile) : Tile := { T with tag := tagSet T.tag 130 129 n }

theorem Tile.judged_status {n : Nat} (h : n < 4) (T : Tile) : field (T.judged n).tag.toNat 130 129 = n := by
  rw [Tile.judged, field_tagSet_same _ (by omega) (by omega)]
  exact Nat.mod_eq_of_lt h

theorem State.tagStatus_judged {n : Nat} (h : n < 4) (s : State) (t : Fin 16) : (s.modTile t (Tile.judged n)).tagStatus t = n := by
  have htile := s.tile_modTile_same t (Tile.judged n)
  rw [State.tile] at htile
  rw [State.tagStatus, htile, Tile.judged_status h]

theorem State.tagStatus_of_apart {u s : State} (h : u.apart = s.apart) (t : Fin 16) : u.tagStatus t = s.tagStatus t := by
  rw [State.tagStatus, State.tiles_of_apart h]; rfl

/-! ### The comparison (R148, R223, R224) -/

/-- The tag of tile `t` kept as the check tag. -/
def Crew.keepTag (t : Fin 16) (c : Crew) : Crew :=
  { c with check := { img := (c.tiles.get t).tag, valid := true, tile := t, used := false } }

/-- The checksums of tile `t` hold (R223). -/
def State.sumsAgree (s : State) (t : Fin 16) : Prop :=
  checksumsOk (tlAcc (s.tile t).img) (tlM (s.tile t).img) (tlN (s.tile t).img) (s.tileWords (s.tile t)) = true

theorem State.sumsAgree_of_apart {u s : State} (h : u.apart = s.apart) (t : Fin 16) : u.sumsAgree t ↔ s.sumsAgree t := by
  rw [State.sumsAgree, State.tile_of_apart h, State.tileWords_of_apart h]; rfl

section Compare
variable {s : State} {t : Fin 16} {k : State → Acted}

theorem State.compare_incomplete (hc : (s.tile t).complete = false) : s.compare t k = k (s.modTile t (Tile.judged 3)) := by
  rw [State.compare]
  exact if_pos (by rw [hc]; rfl)

theorem State.compare_bad (hc : (s.tile t).complete = true) {off : Nat} (hbad : s.tileBad (s.tile t) true = some off) :
    s.compare t k = .trap (trapAt codePoolEcc off) s.dropMatrix := by
  rw [State.compare, hbad]
  exact if_neg (by rw [hc]; decide)

variable (hc : (s.tile t).complete = true) (hsound : s.tileBad (s.tile t) true = none)
include hc hsound

theorem State.compare_agrees (hsums : s.sumsAgree t) : s.compare t k = k (s.modTile t (Tile.judged 1)) := by
  rw [State.compare, hsound]
  exact (if_neg (by rw [hc]; decide)).trans (if_pos hsums)

theorem State.compare_differs (hsums : ¬ s.sumsAgree t) : s.compare t k = .trap (trapOf codeAccCheck)
    ((s.modTile t (Tile.judged 2)).modCrew (Crew.keepTag t)).dropMatrix := by
  have hkeep (u : State) : (u.modCrew fun c => { c with check := { img := (u.tile t).tag, valid := true, tile := t, used := false } })
      = u.modCrew (Crew.keepTag t) := by rw [State.modCrew_eq, State.modCrew_eq]; rfl
  rw [State.compare, hsound, ← hkeep]
  exact (if_neg (by rw [hc]; decide)).trans (if_neg hsums)

end Compare

/-! ### `mchk` with nothing before it (R148) -/

theorem mchk_act {s : State} {tk : Tok} {t : Fin 16} (hfree : s.here.banksFree s.serial (s.tileBanks t) = true) :
    (s.doPops (popsOf tk)).act ((s.doPops (popsOf tk)).command s.cPoint (.mchk t) 0 [] none)
    = (s.doPops (popsOf tk)).compare t .did := by
  have hpops := s.apart_doPops (popsOf tk)
  refine State.act_mchk rfl ?_
  rw [State.command, State.tileBanks_of_apart hpops, State.serial_of_apart hpops, State.banksFree_of_apart hpops, hfree]

section Mchk
variable {s : State} {tk : Tok} (h : s.Issuing tk) (hmq : s.crew.mq = []) {t : Fin 16} (hset : (s.tile t).set = true)
  (hfree : s.here.banksFree s.serial (s.tileBanks t) = true)
include h hmq hset hfree

/-- A comparison that goes on leaves its outcome in the tag and no byte changed. -/
theorem mchk_answers {n : Nat} (hn : n < 4)
    (hcompare : (s.doPops (popsOf tk)).compare t .did = .did ((s.doPops (popsOf tk)).modTile t (Tile.judged n))) :
    Answers (.mchk tk t) s fun w => w.tagStatus t = n ∧ w.here.pool = s.here.pool := by
  refine (immediate_did (mchk_issues h hset) h (s.popped tk) hmq ((mchk_act hfree).trans hcompare)
    (State.seq_modTile ..)).imp fun w ⟨ha, _⟩ => ⟨?_, ?_⟩
  · rw [State.tagStatus_of_apart ha, State.tagStatus_judged hn]
  · rw [State.pool_of_apart ha, State.modTile, State.pool_modCrew, State.pool_of_apart (s.apart_doPops _)]

theorem mchk_incomplete (hc : (s.tile t).complete = false) :
    Answers (.mchk tk t) s fun w => w.tagStatus t = 3 ∧ w.here.pool = s.here.pool :=
  mchk_answers h hmq hset hfree (by decide) (State.compare_incomplete (by rw [State.tile_of_apart (s.apart_doPops _), hc]))

variable (hc : (s.tile t).complete = true)
include hc

/-- An uncorrectable word that the comparison reads stops C at the word. -/
theorem mchk_traps_bad {off : Nat} (hbad : s.tileBad (s.tile t) true = some off) :
    Answers (.mchk tk t) s fun w => w.seq.status = .trapped ∧ w.pc = s.pc ∧ w.here.pool = s.here.pool
      ∧ ∃ r ∈ w.here.traps, r.code = 0x32 ∧ r.addr = BitVec.ofNat 64 off ∧ r.pc = s.pc := by
  have hpops := s.apart_doPops (popsOf tk)
  have hact := (mchk_act hfree).trans (State.compare_bad (by rw [State.tile_of_apart hpops, hc])
    (by rw [State.tile_of_apart hpops, State.tileBad_of_apart hpops, hbad]))
  have hdrop := (s.doPops (popsOf tk)).dropMatrix_abandons
  refine (immediate_traps (mchk_issues h hset) h (s.popped tk) hmq rfl hact ?_ (State.dropMatrix_mq _)).imp
    fun w ⟨hab, hst, hpc, htrap⟩ => ⟨hst, hpc, ?_, htrap⟩
  · rw [hdrop.cur, State.cur_of_apart hpops, h.role]
  · rw [hab.pool, hdrop.pool, State.pool_of_apart hpops]

variable (hsound : s.tileBad (s.tile t) true = none)
include hsound

theorem mchk_agrees (hsums : s.sumsAgree t) : Answers (.mchk tk t) s fun w => w.tagStatus t = 1 ∧ w.here.pool = s.here.pool := by
  have hpops := s.apart_doPops (popsOf tk)
  exact mchk_answers h hmq hset hfree (by decide) (State.compare_agrees (by rw [State.tile_of_apart hpops, hc])
    (by rw [State.tile_of_apart hpops, State.tileBad_of_apart hpops, hsound]) ((State.sumsAgree_of_apart hpops t).2 hsums))

/-- A comparison that fails stops C at the word and keeps the failing tag. -/
theorem mchk_differs (hsums : ¬ s.sumsAgree t) :
    Answers (.mchk tk t) s fun w => w.tagStatus t = 2 ∧ w.here.pool = s.here.pool ∧ w.seq.status = .trapped ∧ w.pc = s.pc
      ∧ w.crew.check.valid = true ∧ w.crew.check.tile = t ∧ w.crew.check.img = (w.crew.tiles.get t).tag
      ∧ ∃ r ∈ w.here.traps, r.code = 0x30 ∧ r.pc = s.pc := by
  have hpops := s.apart_doPops (popsOf tk)
  have hact := (mchk_act hfree).trans (State.compare_differs (by rw [State.tile_of_apart hpops, hc])
    (by rw [State.tile_of_apart hpops, State.tileBad_of_apart hpops, hsound]) (mt (State.sumsAgree_of_apart hpops t).1 hsums))
  generalize hv : (s.doPops (popsOf tk)).modTile t (Tile.judged 2) = v at hact
  have hstatus : v.tagStatus t = 2 := by rw [← hv]; exact State.tagStatus_judged (by decide) _ t
  have hpool : v.here.pool = s.here.pool := by rw [← hv, State.modTile, State.pool_modCrew, State.pool_of_apart hpops]
  have hcur : v.cur = s.cur := by rw [← hv]; exact State.cur_of_apart (u := s.doPops _) hpops
  have hdrop := (v.modCrew (Crew.keepTag t)).dropMatrix_abandons
  refine (immediate_traps (mchk_issues h hset) h (s.popped tk) hmq rfl hact ?_ (State.dropMatrix_mq _)).imp
    fun w ⟨hab, hst, hpc, q, hq, hcode, _, hqpc⟩ => ?_
  · rw [hdrop.cur]
    exact (congrArg (·.role) hcur).trans h.role
  · have htiles : w.crew.tiles = v.crew.tiles := by rw [hab.tiles, hdrop.tiles, State.crew_modCrew]; rfl
    have hcheck : w.crew.check = (v.crew.keepTag t).check := by rw [hab.check, hdrop.check, State.crew_modCrew]
    refine ⟨?_, ?_, hst, hpc, by rw [hcheck]; rfl, by rw [hcheck]; rfl, by rw [hcheck, htiles]; rfl, q, hq, hcode, hqpc⟩
    · rw [State.tagStatus, htiles]; exact hstatus
    · rw [hab.pool, hdrop.pool, State.pool_modCrew, hpool]

end Mchk

/-! ### The checks of `mdrain` (R140, R147) -/

/-- The ring that the drain descriptor `dd` names. -/
def State.drainRing (s : State) (dd : Fin 16) : Fin 16 := ddRing (s.drain dd).img

/-- The tile, the drain descriptor and the ring that it drains to are set. -/
def State.DrainFormed (s : State) (t dd : Fin 16) : Prop :=
  (s.tile t).set = true ∧ (s.drain dd).set = true ∧ (ddToring (s.drain dd).img = true → (s.ring (s.drainRing dd)).set = true)

/-- The result's type is one, and its rows fill blocks and bytes. -/
def State.DrainTyped (s : State) (t dd : Fin 16) : Prop :=
  ddFmt (s.drain dd).img ≠ 15 ∧ (typeBx (ddFmt (s.drain dd).img) = true → tlN (s.tile t).img % 32 = 0)
    ∧ (ddFmt (s.drain dd).img = 11 → tlN (s.tile t).img % 2 = 0)

/-- A slot of the ring has the tile's shape. -/
def State.DrainFits (s : State) (t dd : Fin 16) : Prop :=
  rgRows (s.ring (s.drainRing dd)).img = tlM (s.tile t).img ∧ rgCols (s.ring (s.drainRing dd)).img = tlN (s.tile t).img

section DrainCheck
variable {s : State} {t dd : Fin 16}

theorem State.mdrainCheck_unformed (h : ¬ s.DrainFormed t dd) : s.mdrainCheck t dd = some (trapOf codeIllegalType) := by
  rw [State.mdrainCheck]
  refine if_pos ?_
  simp only [State.DrainFormed, State.drainRing, not_and_or, Classical.not_imp, Bool.not_eq_true] at h
  simp only [Bool.or_eq_true, Bool.and_eq_true, Bool.not_eq_true']
  tauto

variable (h : s.DrainFormed t dd)
include h

/-- The checks of a drain whose descriptors are set. -/
theorem State.mdrainCheck_formed : s.mdrainCheck t dd =
    if 31 < ddShift (s.drain dd).img then some (trapOf codeRegRange)
    else if ddFmt (s.drain dd).img = 15 || (typeBx (ddFmt (s.drain dd).img) && tlN (s.tile t).img % 32 ≠ 0)
        || (ddFmt (s.drain dd).img = 11 && tlN (s.tile t).img % 2 ≠ 0) then some (trapOf codeIllegalType)
    else if ddToring (s.drain dd).img then
      if rgFmt (s.ring (s.drainRing dd)).img ≠ ddFmt (s.drain dd).img then some (trapOf codeIllegalType)
      else if rgRows (s.ring (s.drainRing dd)).img ≠ tlM (s.tile t).img
          || rgCols (s.ring (s.drainRing dd)).img ≠ tlN (s.tile t).img then
        some (trapOf codeRegRange)
      else none
    else (poolCheck s.part (ddDst (s.drain dd).img) (drainSizes (s.tile t).img (s.drain dd).img).1 64).orElse fun _ =>
      if typeBx (ddFmt (s.drain dd).img) then poolCheck s.part (ddDsbase (s.drain dd).img) (drainSizes (s.tile t).img (s.drain dd).img).2 2
      else none := by
  obtain ⟨ht, hd, hr⟩ := h
  rw [State.mdrainCheck]
  refine if_neg ?_
  simp only [Bool.or_eq_true, Bool.and_eq_true, Bool.not_eq_true', ht, hd]
  rintro ((h | h) | ⟨hring, h⟩)
  · cases h
  · cases h
  · exact Bool.false_ne_true (h.symm.trans (hr hring))

theorem State.mdrainCheck_shift (hshift : 31 < ddShift (s.drain dd).img) : s.mdrainCheck t dd = some (trapOf codeRegRange) :=
  (State.mdrainCheck_formed h).trans (if_pos hshift)

variable (hshift : ddShift (s.drain dd).img ≤ 31)
include hshift

theorem State.mdrainCheck_untyped (ht : ¬ s.DrainTyped t dd) : s.mdrainCheck t dd = some (trapOf codeIllegalType) := by
  refine (State.mdrainCheck_formed h).trans ((if_neg (Nat.not_lt.2 hshift)).trans (if_pos ?_))
  simp only [State.DrainTyped, not_and_or, Classical.not_imp, not_not] at ht
  simp only [Bool.or_eq_true, Bool.and_eq_true, decide_eq_true_eq]
  tauto

variable (ht : s.DrainTyped t dd)
include ht

theorem State.mdrainCheck_typed : s.mdrainCheck t dd =
    if ddToring (s.drain dd).img then
      if rgFmt (s.ring (s.drainRing dd)).img ≠ ddFmt (s.drain dd).img then some (trapOf codeIllegalType)
      else if rgRows (s.ring (s.drainRing dd)).img ≠ tlM (s.tile t).img
          || rgCols (s.ring (s.drainRing dd)).img ≠ tlN (s.tile t).img then
        some (trapOf codeRegRange)
      else none
    else (poolCheck s.part (ddDst (s.drain dd).img) (drainSizes (s.tile t).img (s.drain dd).img).1 64).orElse fun _ =>
      if typeBx (ddFmt (s.drain dd).img) then poolCheck s.part (ddDsbase (s.drain dd).img) (drainSizes (s.tile t).img (s.drain dd).img).2 2
      else none := by
  obtain ⟨hreal, hblocks, hbytes⟩ := ht
  refine (State.mdrainCheck_formed h).trans ((if_neg (Nat.not_lt.2 hshift)).trans (if_neg ?_))
  simp only [Bool.or_eq_true, Bool.and_eq_true, decide_eq_true_eq]
  tauto

/-- The checks of a drain to its offset. -/
theorem State.mdrainCheck_offset (hto : ddToring (s.drain dd).img = false) : s.mdrainCheck t dd =
    (poolCheck s.part (ddDst (s.drain dd).img) (drainSizes (s.tile t).img (s.drain dd).img).1 64).orElse fun _ =>
      if typeBx (ddFmt (s.drain dd).img) then poolCheck s.part (ddDsbase (s.drain dd).img) (drainSizes (s.tile t).img (s.drain dd).img).2 2
      else none :=
  (State.mdrainCheck_typed h hshift ht).trans (if_neg (by rw [hto]; decide))

variable (hto : ddToring (s.drain dd).img = true)
include hto

theorem State.mdrainCheck_ring_format (hf : rgFmt (s.ring (s.drainRing dd)).img ≠ ddFmt (s.drain dd).img) :
    s.mdrainCheck t dd = some (trapOf codeIllegalType) :=
  (State.mdrainCheck_typed h hshift ht).trans ((if_pos hto).trans (if_pos hf))

variable (hf : rgFmt (s.ring (s.drainRing dd)).img = ddFmt (s.drain dd).img)
include hf

theorem State.mdrainCheck_ring_unfit (hs : ¬ s.DrainFits t dd) : s.mdrainCheck t dd = some (trapOf codeRegRange) := by
  refine (State.mdrainCheck_typed h hshift ht).trans ((if_pos hto).trans ((if_neg (not_not.2 hf)).trans (if_pos ?_)))
  simpa only [State.DrainFits, not_and_or, Bool.or_eq_true, decide_eq_true_eq] using hs

theorem State.mdrainCheck_ring_fits (hs : s.DrainFits t dd) : s.mdrainCheck t dd = none := by
  refine (State.mdrainCheck_typed h hshift ht).trans ((if_pos hto).trans ((if_neg (not_not.2 hf)).trans (if_neg ?_)))
  simpa only [State.DrainFits, Bool.or_eq_true, decide_eq_true_eq, not_or, not_not, ne_eq] using hs

end DrainCheck

/-! ### The issue of `mdrain` (R137, R147) -/

section Drain
variable {s : State} {tk : Tok} (h : s.Issuing tk) {t dd : Fin 16}
include h

theorem mdrain_traps {x : TrapReq} (hx : s.mdrainCheck t dd = some x) : Traps (.mdrain tk t dd) s x := by
  refine runWord_trap (effect := fun _ => _) h.toIssues ?_
  refine (h.cEntry _).trans ?_
  rw [State.mdrainCheck_of_apart (s.apart_doPops _), hx]
  rfl

variable (hcheck : s.mdrainCheck t dd = none)
include hcheck

theorem mdrain_waits (hto : ddToring (s.drain dd).img = true) (hfull : (s.ring (s.drainRing dd)).full = true) :
    Waits (.mdrain tk t dd) s := by
  refine runWord_waits (k := .other) (note := id) (effect := fun _ => _) h.toIssues ?_ rfl
  refine (h.cEntry _).trans ?_
  rw [State.mdrainCheck_of_apart (s.apart_doPops _), hcheck, State.drain_of_apart (s.apart_doPops _)]
  rw [← State.ring_of_apart (s.apart_doPops (popsOf tk))] at hfull
  exact (if_pos hto).trans (if_pos hfull)

theorem mdrain_issues_ring (hto : ddToring (s.drain dd).img = true) (hfull : (s.ring (s.drainRing dd)).full = false) :
    IssuesAct (.mdrain tk t dd) s tk ((s.doPops (popsOf tk)).modRing (s.drainRing dd) Ring.reserve) (.mdrain t dd) 0
      (some (s.drainRing dd, (s.ring (s.drainRing dd)).resv)) := by
  refine ⟨_, fun _ => _, rfl, ?_⟩
  refine (h.cEntry _).trans ?_
  rw [State.mdrainCheck_of_apart (s.apart_doPops _), hcheck, State.drain_of_apart (s.apart_doPops _)]
  rw [← State.ring_of_apart (s.apart_doPops (popsOf tk))] at hfull ⊢
  exact (if_pos hto).trans (if_neg (Bool.not_eq_true _ ▸ hfull))

theorem mdrain_issues_offset (hto : ddToring (s.drain dd).img = false) :
    IssuesAct (.mdrain tk t dd) s tk (s.doPops (popsOf tk)) (.mdrain t dd) 0 none := by
  refine ⟨_, fun _ => _, rfl, ?_⟩
  refine (h.cEntry _).trans ?_
  rw [State.mdrainCheck_of_apart (s.apart_doPops _), hcheck, State.drain_of_apart (s.apart_doPops _)]
  exact if_neg (by rw [hto]; decide)

theorem mdrain_queued_offset (hto : ddToring (s.drain dd).img = false) (hmq : s.crew.mq ≠ []) :
    Queued (.mdrain tk t dd) s s (.mdrain t dd) 0 [] none :=
  immediate_queued (mdrain_issues_offset h hcheck hto) h (s.popped tk) hmq

end Drain

/-! ### The drain of a tile (R37 to R39, R147) -/

/-- Where the result and its headers go, in the crew's allotment: to a ring's slot, or to the descriptor's offsets. -/
def State.drainPlace (s : State) (slot : Option (Fin 16 × Nat)) (dd : Fin 16) : Nat × Nat :=
  match slot with
  | some q => (slotOff (s.ring q.1).img q.2, slotHdr (s.ring q.1).img q.2)
  | none => (ddDst (s.drain dd).img, ddDsbase (s.drain dd).img)

/-- The bytes of the result of tile `t`, and of its headers. -/
def State.drainOut (s : State) (t dd : Fin 16) : List Byte × List Byte × ConvRec :=
  drainBytes (s.drain dd).img (tlAcc (s.tile t).img)
    ((s.tileWords (s.tile t)).take (tlM (s.tile t).img * tlN (s.tile t).img))

/-- The banks that a drain reads and writes. -/
def State.drainBanks (s : State) (slot : Option (Fin 16 × Nat)) (t dd : Fin 16) : List Nat :=
  s.tileBanks t
    ++ banksOf (s.crew.org + (s.drainPlace slot dd).1) (drainSizes (s.tile t).img (s.drain dd).img).1
    ++ banksOf (s.crew.org + (s.drainPlace slot dd).2) (drainSizes (s.tile t).img (s.drain dd).img).2

/-- The drained tile: its conversions counted, its largest magnitude kept, and the run of its trail ended. -/
def Tile.drained (ws : List Nat) (counts : ConvRec) (T : Tile) : Tile :=
  let old := decodeFloat 0 (field T.tag.toNat 407 376)
  let new := drainAmax (tlAcc T.img) ws
  { T with tag := tagSet (tagCount T.tag counts) 407 376 (roundTo 0 (if old.lt new then new else old)), replay := T.replay.finish }

theorem Tile.drained_status (ws : List Nat) (counts : ConvRec) (T : Tile) :
    field (T.drained ws counts).tag.toNat 130 129 = field T.tag.toNat 130 129 := by
  simp only [Tile.drained]
  rw [field_tagSet_other _ (by omega) (by omega) (by omega), field_tagCount]

/-- The slot of a drain to a ring filled. -/
def State.fillSlot (s : State) : Option (Fin 16 × Nat) → State
  | some q => s.modRing q.1 Ring.fill
  | none => s

/-- The state that a drain leaves once its comparison, of outcome `n`, has let it go on. -/
def State.drainDone (s : State) (n : Nat) (slot : Option (Fin 16 × Nat)) (t dd : Fin 16) : State :=
  (((s.modTile t (Tile.judged n)).modHere fun c =>
      (c.poolWrite (s.crew.org + (s.drainPlace slot dd).1) (s.drainOut t dd).1).poolWrite (s.crew.org + (s.drainPlace slot dd).2)
        (s.drainOut t dd).2.1).modTile t fun T =>
      T.drained ((s.tileWords (s.tile t)).take (tlM (s.tile t).img * tlN (s.tile t).img)) (s.drainOut t dd).2.2).fillSlot slot

theorem State.tileWords_modTile (s : State) (t : Fin 16) (f : Tile → Tile) (T : Tile) : (s.modTile t f).tileWords T = s.tileWords T := by
  rw [State.tileWords, State.org_modTile, State.modTile, State.pool_modCrew]; rfl

/-- A drain to a ring waits behind the producers of earlier slots. -/
theorem State.actDrain_waits {s : State} {m : MatCmd} {q : Fin 16 × Nat} (t dd : Fin 16) (hslot : m.slot = some q)
    (hturn : (s.ring q.1).tail ≠ q.2) : s.actDrain m t dd = .waits s := by
  simp only [State.actDrain, hslot, hturn, decide_false, Bool.not_false, Bool.true_or, if_true]

/-- A drain at its turn, its banks free and its tile sound, that its comparison lets go on. -/
theorem State.actDrain_did {s : State} {m : MatCmd} {t dd : Fin 16} {n : Nat}
    (hturn : ∀ q, m.slot = some q → (s.ring q.1).tail = q.2) (hfree : s.here.banksFree m.id (s.drainBanks m.slot t dd) = true)
    (hsound : s.tileBad (s.tile t) false = none) (hcompare : ∀ k, s.compare t k = k (s.modTile t (Tile.judged n))) :
    s.actDrain m t dd = .did (s.drainDone n m.slot t dd) := by
  simp only [State.drainBanks, State.drainPlace] at hfree
  rw [State.actDrain, hsound, hcompare]
  simp only [State.tileWords_modTile, State.drainDone, State.drainPlace, State.drainOut, Tile.drained, State.fillSlot]
  cases hslot : m.slot with
  | none =>
    simp only [hslot] at hfree
    simp only [hfree, Bool.not_true, Bool.or_self, Bool.false_eq_true, if_false]
  | some q =>
    simp only [hslot] at hfree
    simp only [hfree, hturn q hslot, decide_true, Bool.not_true, Bool.or_self, Bool.false_eq_true, if_false]

/-! What a drain leaves. -/

section DrainDone
variable (s : State) (n : Nat) (slot : Option (Fin 16 × Nat)) (t dd : Fin 16)

theorem State.fillSlot_mem : (s.fillSlot slot).mem = s.mem := by cases slot <;> rfl

theorem State.fillSlot_pool : (s.fillSlot slot).here.pool = s.here.pool := by
  cases slot with
  | none => rfl
  | some q => exact State.pool_modCrew ..

theorem State.fillSlot_tiles : (s.fillSlot slot).crew.tiles = s.crew.tiles := by
  cases slot with
  | none => rfl
  | some q => rw [State.fillSlot, State.modRing, State.crew_modCrew]

theorem State.fillSlot_seq : (s.fillSlot slot).seq = s.seq := by
  cases slot with
  | none => rfl
  | some q => exact State.seq_inner (Crew.inner_rings fun v => v.set q.1 (v.get q.1).fill) s

theorem State.fillSlot_rings {u : State} (h : u.crew.rings = s.crew.rings) :
    (u.fillSlot slot).crew.rings = (s.fillSlot slot).crew.rings := by
  cases slot with
  | none => exact h
  | some q => simp only [State.fillSlot, State.modRing, State.crew_modCrew, h]

theorem State.drainDone_mem : (s.drainDone n slot t dd).mem = s.mem := by rw [State.drainDone, State.fillSlot_mem]; rfl

theorem State.drainDone_pool : (s.drainDone n slot t dd).here.pool =
    memSets (memSets s.here.pool (s.crew.org + (s.drainPlace slot dd).1) (s.drainOut t dd).1) (s.crew.org + (s.drainPlace slot dd).2)
      (s.drainOut t dd).2.1 := by
  rw [State.drainDone, State.fillSlot_pool, State.modTile, State.pool_modCrew, State.here_modHere, State.modTile, State.modCrew_eq,
    State.here_setCrew]
  rfl

/-- An update of two ranges of the pool leaves the crew. -/
theorem State.crew_poolWrite_poolWrite (p q : Nat) (b c : List Byte) :
    (s.modHere fun k => (k.poolWrite p b).poolWrite q c).crew = s.crew :=
  State.crew_modHere fun k j => ((k.poolWrite p b).poolWrite_crew q c j).trans (k.poolWrite_crew p b j)

theorem Core.inner_pool_pool (p q : Nat) (b c : List Byte) : Core.Inner fun k => (k.poolWrite p b).poolWrite q c :=
  ⟨fun _ _ _ => rfl, fun _ _ => rfl, fun _ => rfl, fun _ _ => rfl⟩

theorem State.drainDone_rings : (s.drainDone n slot t dd).crew.rings = (s.fillSlot slot).crew.rings := by
  refine State.fillSlot_rings s slot ?_
  rw [State.rings_modTile, State.crew_poolWrite_poolWrite, State.rings_modTile]

theorem State.drainDone_seq : (s.drainDone n slot t dd).seq = s.seq := by
  rw [State.drainDone, State.fillSlot_seq, State.seq_modTile,
    State.seq_innerCore (Core.inner_pool_pool ..), State.seq_modTile]

theorem State.drainDone_status (hn : n < 4) : (s.drainDone n slot t dd).tagStatus t = n := by
  rw [State.tagStatus, State.drainDone, State.fillSlot_tiles, ← State.tile, State.tile_modTile_same, Tile.drained_status, State.tile,
    State.crew_poolWrite_poolWrite]
  exact State.tagStatus_judged hn s t

end DrainDone

/-! ### `mdrain` at its turn (R147) -/

/-- A drain has written its result: the outcome of its comparison is in the tag, its bytes in the pool, and nothing else moved but
the rings, which are `rings`. -/
structure State.DrainWrote (s w : State) (t : Fin 16) (place : Nat × Nat) (out : List Byte × List Byte)
    (rings : Vector Ring 16) : Prop where
  status : w.tagStatus t = if (s.tile t).complete then 1 else 3
  mem : w.mem = s.mem
  rings : w.crew.rings = rings
  kept : ∀ p, p < place.1 ∨ place.1 + out.1.length ≤ p → p < place.2 ∨ place.2 + out.2.length ≤ p →
    memGet w.here.pool p = memGet s.here.pool p
  written : out.2 = [] → memGets w.here.pool place.1 out.1.length = out.1

section Answers
variable {s pre u : State} {tk : Tok} {i : Instr} {t dd : Fin 16} {slot : Option (Fin 16 × Nat)}
  (hi : IssuesAct i s tk u (.mdrain t dd) 0 slot) (h : s.Issuing tk) (hu : s.Popped tk pre u) (hmq : pre.crew.mq = [])
include hi h hu hmq

/-- A drain at its turn, its banks free and its tile sound, writes its result. -/
theorem drain_answers (hwf : memWf pre.here.pool = true) (hturn : ∀ q, slot = some q → (pre.ring q.1).tail = q.2)
    (hfree : pre.here.banksFree s.serial (pre.drainBanks slot t dd) = true) (hsound : pre.tileBad (pre.tile t) false = none)
    (hsums : (pre.tile t).complete = true → pre.tileBad (pre.tile t) true = none ∧ pre.sumsAgree t) :
    Answers i s fun w => (s.inLine → w.pc = s.pc + 4)
      ∧ pre.DrainWrote w t (pre.crew.org + (pre.drainPlace slot dd).1, pre.crew.org + (pre.drainPlace slot dd).2)
        ((pre.drainOut t dd).1, (pre.drainOut t dd).2.1) (pre.fillSlot slot).crew.rings := by
  have hap := hu.apart
  have hplace : u.drainPlace slot dd = pre.drainPlace slot dd := by
    cases slot with
    | none => simp only [State.drainPlace, State.drain_of_apart hap]
    | some q => simp only [State.drainPlace, State.ring_of_apart hap]
  have hout : u.drainOut t dd = pre.drainOut t dd := by
    simp only [State.drainOut, State.drain_of_apart hap, State.tile_of_apart hap, State.tileWords_of_apart hap]
  have hcompare : ∃ n, n < 4 ∧ n = (if (pre.tile t).complete then 1 else 3)
      ∧ ∀ k, u.compare t k = k (u.modTile t (Tile.judged n)) := by
    cases hc : (pre.tile t).complete with
    | false => exact ⟨3, by decide, rfl, fun k => State.compare_incomplete (by rw [State.tile_of_apart hap, hc])⟩
    | true =>
      obtain ⟨hbad, hagree⟩ := hsums hc
      exact ⟨1, by decide, rfl, fun k => State.compare_agrees (by rw [State.tile_of_apart hap, hc])
        (by rw [State.tile_of_apart hap, State.tileBad_of_apart hap, hbad]) ((State.sumsAgree_of_apart hap t).2 hagree)⟩
  obtain ⟨n, hn, hstatus, hcompare⟩ := hcompare
  have hact : u.act (u.command s.cPoint (.mdrain t dd) 0 [] slot) = .did (u.drainDone n slot t dd) := by
    refine (State.act_mdrain rfl).trans
      (State.actDrain_did (m := u.command s.cPoint (.mdrain t dd) 0 [] slot) (fun q hq => ?_) ?_ ?_ hcompare)
    · rw [State.ring_of_apart hap]; exact hturn q hq
    · have hbanks : u.drainBanks slot t dd = pre.drainBanks slot t dd := by
        simp only [State.drainBanks, hplace, State.tileBanks_of_apart hap, State.org_of_apart hap, State.tile_of_apart hap,
          State.drain_of_apart hap]
      rw [State.command, hbanks, hu.serial_eq, State.banksFree_of_apart hap, hfree]
    · rw [State.tile_of_apart hap, State.tileBad_of_apart hap, hsound]
  have hpool : (u.drainDone n slot t dd).here.pool = memSets (memSets pre.here.pool (pre.crew.org + (pre.drainPlace slot dd).1)
      (pre.drainOut t dd).1) (pre.crew.org + (pre.drainPlace slot dd).2) (pre.drainOut t dd).2.1 := by
    rw [State.drainDone_pool, hplace, hout, State.pool_of_apart hap, State.org_of_apart hap]
  refine (immediate_did hi h hu hmq hact (State.drainDone_seq ..)).imp
    fun w ⟨ha, hp⟩ => ⟨hp, ?_, ?_, ?_, fun p h1 h2 => ?_, fun hnone => ?_⟩
  · rw [State.tagStatus_of_apart ha, State.drainDone_status _ _ _ _ _ hn, hstatus]
  · rw [State.mem_of_apart ha, State.drainDone_mem, State.mem_of_apart hap]
  · rw [State.rings_of_apart ha, State.drainDone_rings]
    exact State.fillSlot_rings pre slot (State.rings_of_apart hap)
  · rw [State.pool_of_apart ha, hpool, memGet_memSets_other _ (memWf_memSets _ _ hwf) h2, memGet_memSets_other _ hwf h1]
  · simp only at hnone
    rw [State.pool_of_apart ha, hpool, hnone, memSets]
    exact memGets_memSets_same _ hwf

end Answers

theorem drainBytes_headers {d : Image} (h : typeBx (ddFmt d) = false) (acc : Nat) (ws : List Nat) : (drainBytes d acc ws).2.1 = [] := by
  simp only [drainBytes, h, Bool.false_eq_true, if_false]

/-! ### A drain to a ring (R137, R147) -/

section ModRing
variable (s : State) (g : Fin 16) (f : Ring → Ring)

theorem State.tile_modRing (t : Fin 16) : (s.modRing g f).tile t = s.tile t := by
  rw [State.tile, State.modRing, State.crew_modCrew]; rfl

theorem State.drain_modRing (dd : Fin 16) : (s.modRing g f).drain dd = s.drain dd := by
  rw [State.drain, State.modRing, State.crew_modCrew]; rfl

theorem State.org_modRing : (s.modRing g f).crew.org = s.crew.org := by rw [State.modRing, State.crew_modCrew]; rfl

theorem State.mq_modRing : (s.modRing g f).crew.mq = s.crew.mq := by rw [State.modRing, State.crew_modCrew]

theorem State.pool_modRing : (s.modRing g f).here.pool = s.here.pool := State.pool_modCrew ..

theorem State.banksFree_modRing (id : Nat) (l : List Nat) : (s.modRing g f).here.banksFree id l = s.here.banksFree id l := by
  rw [State.modRing, State.modCrew_eq, State.here_setCrew]; rfl

theorem State.poolBad_modRing (place n : Nat) : (s.modRing g f).here.poolBad place n = s.here.poolBad place n := by
  rw [State.modRing, State.modCrew_eq, State.here_setCrew]; rfl

theorem State.tileBanks_modRing (t : Fin 16) : (s.modRing g f).tileBanks t = s.tileBanks t := by
  rw [State.tileBanks, State.org_modRing, State.tile_modRing]; rfl

theorem State.tileBad_modRing (T : Tile) (sums : Bool) : (s.modRing g f).tileBad T sums = s.tileBad T sums := by
  simp only [State.tileBad, State.org_modRing, State.poolBad_modRing]

theorem State.tileWords_modRing (T : Tile) : (s.modRing g f).tileWords T = s.tileWords T := by
  simp only [State.tileWords, State.org_modRing, State.pool_modRing]

theorem State.sumsAgree_modRing (t : Fin 16) : (s.modRing g f).sumsAgree t ↔ s.sumsAgree t := by
  rw [State.sumsAgree, State.tile_modRing, State.tileWords_modRing]; rfl

theorem State.drainOut_modRing (t dd : Fin 16) : (s.modRing g f).drainOut t dd = s.drainOut t dd := by
  rw [State.drainOut, State.drain_modRing, State.tile_modRing, State.tileWords_modRing]; rfl

end ModRing

/-- The slot of a ring that a drain reserves. -/
def State.drainSlot (s : State) (dd : Fin 16) : Option (Fin 16 × Nat) := some (s.drainRing dd, (s.ring (s.drainRing dd)).resv)

section ToRing
variable {s : State} {tk : Tok} (h : s.Issuing tk) {t dd : Fin 16} (hcheck : s.mdrainCheck t dd = none)
  (hto : ddToring (s.drain dd).img = true) (hfull : (s.ring (s.drainRing dd)).full = false)
include h hcheck hto hfull

/-- A drain to a ring joins the queue behind other words, or where another producer's slot stands before its own. -/
theorem mdrain_queued_ring (hor : s.crew.mq ≠ [] ∨ (s.ring (s.drainRing dd)).tail ≠ (s.ring (s.drainRing dd)).resv) :
    Queued (.mdrain tk t dd) s (s.modRing (s.drainRing dd) Ring.reserve) (.mdrain t dd) 0 [] (s.drainSlot dd) := by
  have hu := (s.popped tk).reserve (s.drainRing dd)
  have hissues := mdrain_issues_ring h hcheck hto hfull
  by_cases hmq : s.crew.mq = []
  · refine immediate_waits hissues h hu (by rwa [State.mq_modRing]) hu ((State.act_mdrain rfl).trans (State.actDrain_waits _ _ rfl ?_))
    rw [State.ring_of_apart hu.apart, State.ring_modRing_same]
    exact hor.resolve_left (not_not.2 hmq)
  · exact immediate_queued hissues h hu (by rwa [State.mq_modRing])

/-- A drain to a ring at its turn writes to its slot and fills it. -/
theorem mdrain_answers_ring (hmq : s.crew.mq = []) (hwf : memWf s.here.pool = true)
    (hturn : (s.ring (s.drainRing dd)).tail = (s.ring (s.drainRing dd)).resv)
    (hfree : s.here.banksFree s.serial (s.drainBanks (s.drainSlot dd) t dd) = true) (hsound : s.tileBad (s.tile t) false = none)
    (hsums : (s.tile t).complete = true → s.tileBad (s.tile t) true = none ∧ s.sumsAgree t) :
    Answers (.mdrain tk t dd) s fun w => (s.inLine → w.pc = s.pc + 4)
      ∧ s.DrainWrote w t (s.crew.org + (s.drainPlace (s.drainSlot dd) dd).1, s.crew.org + (s.drainPlace (s.drainSlot dd) dd).2)
        ((s.drainOut t dd).1, (s.drainOut t dd).2.1) ((s.modRing (s.drainRing dd) Ring.reserve).fillSlot (s.drainSlot dd)).crew.rings := by
  have hu := (s.popped tk).reserve (s.drainRing dd)
  have hring := s.ring_modRing_same (s.drainRing dd) Ring.reserve
  have hplace : (s.modRing (s.drainRing dd) Ring.reserve).drainPlace (s.drainSlot dd) dd = s.drainPlace (s.drainSlot dd) dd := by
    simp only [State.drainPlace, State.drainSlot, hring]; rfl
  have hbanks : (s.modRing (s.drainRing dd) Ring.reserve).drainBanks (s.drainSlot dd) t dd = s.drainBanks (s.drainSlot dd) t dd := by
    simp only [State.drainBanks, hplace, State.tileBanks_modRing, State.org_modRing, State.tile_modRing, State.drain_modRing]
  refine (drain_answers (slot := s.drainSlot dd) (mdrain_issues_ring h hcheck hto hfull) h hu (by rwa [State.mq_modRing])
    (by rwa [State.pool_modRing]) (fun q hq => ?_) ?_ ?_ fun hc => ?_).imp fun w ⟨hp, hw⟩ => ⟨hp, ?_⟩
  · obtain rfl := Option.some.inj hq
    rw [hring]
    exact hturn
  · rw [State.banksFree_modRing, hbanks, hfree]
  · rw [State.tile_modRing, State.tileBad_modRing, hsound]
  · rw [State.tile_modRing] at hc ⊢
    rw [State.tileBad_modRing, State.sumsAgree_modRing]
    exact hsums hc
  · rw [hplace, State.drainOut_modRing, State.org_modRing] at hw
    exact ⟨by rw [hw.status, State.tile_modRing], hw.mem, hw.rings,
      fun p h1 h2 => by rw [hw.kept p h1 h2, State.pool_modRing], hw.written⟩

end ToRing

/-! ### The formats of the pairing test (R36, R218) -/

section Formats
variable {s : State} (hmq : s.crew.mq = []) (t : Fin 16) (ov : Bool) (sa sb : Nat)
include hmq

/-- With nothing of C's in flight the trail is the tile's own. -/
theorem State.testFormats_idle : s.testFormats t ov sa sb =
    let r := (s.tile t).replay.enter (ov || (s.tile t).fresh)
    match (if r.armed && r.begun then governing r.trail r.count else none) with
    | some e => if field e 16 16 = 1 then (sa, sb) else (field e 23 20, field e 23 20)
    | none => ((s.chunkPlan none sa sb).fa, (s.chunkPlan none sa sb).fb) := by
  rw [State.testFormats, hmq] <;> rfl

/-- Without an armed trail the plan of the lease gives the formats. -/
theorem State.testFormats_unarmed (ha : (s.tile t).replay.armed = false) :
    s.testFormats t ov sa sb = ((s.chunkPlan none sa sb).fa, (s.chunkPlan none sa sb).fb) := by
  rw [State.testFormats_idle hmq, Replay.enter]
  simp only [ha, Bool.false_and, Bool.false_eq_true, if_false]

/-- At the first chunk of a replayed run the trail's first governing entry gives them. -/
theorem State.testFormats_replayed (ha : (s.tile t).replay.armed = true) (hb : (s.tile t).replay.begun = false)
    (hbegins : ov = true ∨ (s.tile t).fresh = true) {e : Nat} (he : governing (s.tile t).replay.trail 0 = some e) :
    s.testFormats t ov sa sb = if field e 16 16 = 1 then (sa, sb) else (field e 23 20, field e 23 20) := by
  have hnew : (ov || (s.tile t).fresh) = true := by simpa using hbegins
  rw [State.testFormats_idle hmq, Replay.enter, hnew]
  simp only [ha, hb, Bool.not_false, Bool.and_self, if_true, he]

end Formats

theorem State.chunkPlan_contracted (s : State) (sa sb : Nat) (hu : s.crew.lease.usable = true) (hc : s.crew.lease.contracted = true) :
    ((s.chunkPlan none sa sb).fa, (s.chunkPlan none sa sb).fb)
      = rungFormats (ctRung (s.ctx s.crew.ctx).contract s.crew.lease.rung) sa sb := by
  simp only [State.chunkPlan, hu, hc, Bool.and_self, if_true]

theorem State.chunkPlan_stored (s : State) (sa sb : Nat) (h : s.crew.lease.usable = false ∨ s.crew.lease.contracted = false) :
    ((s.chunkPlan none sa sb).fa, (s.chunkPlan none sa sb).fb) = (sa, sb) := by
  have hno : (s.crew.lease.usable && s.crew.lease.contracted) = false := by rcases h with h | h <;> simp [h]
  simp only [State.chunkPlan, hno, Bool.false_eq_true, if_false]

/-! ### The words together -/

/-- `mma` and `mmag`: the checks in their order, then the queue. -/
theorem mma_checked {s : State} {tk : Tok} {gather ov ck : Bool} {t ra rb : Fin 16} {n : Nat} {i : Instr}
    {reads : List (State → List RegRef)} {b : List Byte} (h : s.Issuing tk)
    (hi : exec i s = runWord tk reads s (mmaIssue s.cPoint gather t ra rb n ov ck)) :
    (¬ s.MmaFormed t ra rb → Traps i s (trapOf codeIllegalType))
    ∧ (s.MmaFormed t ra rb → ¬ s.MmaPaired t ra rb ov → Traps i s (trapOf codeMmaCombo))
    ∧ (s.MmaFormed t ra rb → s.MmaPaired t ra rb ov → ¬ s.MmaShaped gather t ra rb n → Traps i s (trapOf codeRegRange))
    ∧ (s.MmaFormed t ra rb → s.MmaPaired t ra rb ov → s.MmaShaped gather t ra rb n →
      (∀ x, gather = true → poolCheck s.part (rgGlist (s.ring ra).img) (2 * tlM (s.tile t).img) 2 = some x → Traps i s x)
      ∧ ((gather = true → s.poolRead (rgGlist (s.ring ra).img) (2 * tlM (s.tile t).img) 2 = .bytes b) → ¬ s.Leased →
        Traps i s (trapOf codePoolPart))
      ∧ ((gather = true → s.poolRead (rgGlist (s.ring ra).img) (2 * tlM (s.tile t).img) 2 = .bytes b) → s.Leased →
        Queued i s s.stepWord (.mma gather t ra rb n ov ck) 0 (if gather then halfWords b else []) none)) :=
  ⟨fun hf => mma_traps_check hi h (State.mmaCheck_unformed hf), fun hf hp => mma_traps_check hi h (State.mmaCheck_unpaired hf hp),
    fun hf hp hs => mma_traps_check hi h (State.mmaCheck_unshaped hf hp hs), fun hf hp hs =>
      have hcheck := State.mmaCheck_passes hf hp hs
      ⟨fun _ => mma_traps_list hi h hcheck, mma_traps_lease hi h hcheck, mma_queued hi h hcheck⟩⟩

/-- `mhad`: the checks in their order, a free slot, then the queue. -/
theorem mhad_checked {s : State} {tk : Tok} (h : s.Issuing tk) (ra rb : Fin 16) (order sign : BitVec 2) :
    (¬ s.MhadFormed ra rb → Traps (.mhad tk ra rb order sign) s (trapOf codeIllegalType))
    ∧ (s.MhadFormed ra rb → ¬ s.MhadShaped ra rb order → Traps (.mhad tk ra rb order sign) s (trapOf codeRegRange))
    ∧ (s.MhadFormed ra rb → s.MhadShaped ra rb order → ¬ s.Leased → Traps (.mhad tk ra rb order sign) s (trapOf codePoolPart))
    ∧ (s.MhadFormed ra rb → s.MhadShaped ra rb order → s.Leased → (s.ring ra).full = true → Waits (.mhad tk ra rb order sign) s)
    ∧ (s.MhadFormed ra rb → s.MhadShaped ra rb order → s.Leased → (s.ring ra).full = false →
      Queued (.mhad tk ra rb order sign) s (s.modRing ra Ring.reserve).stepWord (.mhad ra rb order sign) 0 []
        (some (ra, (s.ring ra).resv))) :=
  have hcheck (hf : s.MhadFormed ra rb) (hs : s.MhadShaped ra rb order) (hl : s.Leased) : s.mhadCheck ra rb order = none :=
    (State.mhadCheck_shaped hf hs).trans (State.leaseCheck_leased hl)
  ⟨fun hf => mhad_traps h (State.mhadCheck_unformed hf), fun hf hs => mhad_traps h (State.mhadCheck_unshaped hf hs),
    fun hf hs hl => mhad_traps h ((State.mhadCheck_shaped hf hs).trans (State.leaseCheck_unleased hl)),
    fun hf hs hl => mhad_waits h (hcheck hf hs hl), fun hf hs hl => mhad_queued h (hcheck hf hs hl)⟩

/-- `mdrain`: the checks in their order, a free slot of the ring or the descriptor's offsets, then the queue. -/
theorem mdrain_checked {s : State} {tk : Tok} (h : s.Issuing tk) (t dd : Fin 16) :
    (¬ s.DrainFormed t dd → Traps (.mdrain tk t dd) s (trapOf codeIllegalType))
    ∧ (s.DrainFormed t dd → 31 < ddShift (s.drain dd).img → Traps (.mdrain tk t dd) s (trapOf codeRegRange))
    ∧ (s.DrainFormed t dd → ddShift (s.drain dd).img ≤ 31 → ¬ s.DrainTyped t dd →
      Traps (.mdrain tk t dd) s (trapOf codeIllegalType)) :=
  ⟨fun hf => mdrain_traps h (State.mdrainCheck_unformed hf), fun hf hs => mdrain_traps h (State.mdrainCheck_shift hf hs),
    fun hf hs ht => mdrain_traps h (State.mdrainCheck_untyped hf hs ht)⟩

/-- A finished drain says what it wrote, in the words of the obligation. -/
theorem drain_spelled {i : Instr} {s : State} {t dd : Fin 16} {place : Nat × Nat} {rings : Vector Ring 16}
    (h : Answers i s fun w => (s.inLine → w.pc = s.pc + 4)
      ∧ s.DrainWrote w t place ((s.drainOut t dd).1, (s.drainOut t dd).2.1) rings) :
    Answers i s fun w => w.tagStatus t = (if (s.tile t).complete then 1 else 3) ∧ w.mem = s.mem ∧ w.crew.rings = rings
      ∧ (s.inLine → w.pc = s.pc + 4)
      ∧ (∀ p, p < place.1 ∨ place.1 + (s.drainOut t dd).1.length ≤ p →
          p < place.2 ∨ place.2 + (s.drainOut t dd).2.1.length ≤ p → memGet w.here.pool p = memGet s.here.pool p)
      ∧ (typeBx (ddFmt (s.drain dd).img) = false → memGets w.here.pool place.1 (s.drainOut t dd).1.length = (s.drainOut t dd).1) :=
  h.imp fun _ ⟨hp, hw⟩ => ⟨hw.status, hw.mem, hw.rings, hp, hw.kept, fun hbx => hw.written (drainBytes_headers hbx _ _)⟩

theorem State.rings_modRing (s : State) (g : Fin 16) (f : Ring → Ring) :
    (s.modRing g f).crew.rings = s.crew.rings.set g (f (s.ring g)) := by
  rw [State.modRing, State.crew_modCrew]
  rfl

/-- The slot that a drain at its turn has reserved and filled. -/
theorem State.rings_reserve_fill {s : State} {dd : Fin 16} (h : (s.ring (s.drainRing dd)).tail = (s.ring (s.drainRing dd)).resv) :
    ((s.modRing (s.drainRing dd) Ring.reserve).fillSlot (s.drainSlot dd)).crew.rings
      = ((s.modRing (s.drainRing dd) Ring.reserve).modRing (s.drainRing dd) fun g =>
          { g with tail := (s.ring (s.drainRing dd)).resv + 1 }).crew.rings := by
  rw [State.drainSlot, State.fillSlot, State.rings_modRing (s.modRing _ _), State.rings_modRing (s.modRing _ _), State.ring_modRing_same,
    Ring.fill, ← h]
  rfl

/-- Settles O43: the checks of each word are read off in R140's order, a word that passes them either joins the queue in the state that
its lease and its slot leave, or, with nothing of C's before it, acts at once. -/
theorem matrixWords : Obligations.MatrixWords := by
  unfold Obligations.MatrixWords
  intro s tk t ra rb n ov ck order sign mask a b hclear hrole hroom
  have h : s.Issuing tk := ⟨hclear, hrole, hroom⟩
  obtain ⟨hunformed, hshift, huntyped⟩ := mdrain_checked h t ra
  refine ⟨mma_checked h rfl, mma_checked h rfl, mhad_checked h ra rb order sign, ⟨hunformed, hshift, huntyped, ?ring, ?offset⟩,
    ?formats, mzero_runs_none h, mzero_traps_unset h, fun x hset => mtag_traps h hset, fun x => mtagChk_traps h, fun hmq => ?queue,
    mringPop_queued h, mlease_queued h, fun hmq hwf => ?acts⟩
  case ring =>
    intro hf hs ht hto
    refine ⟨fun hfmt => mdrain_traps h (State.mdrainCheck_ring_format hf hs ht hto hfmt),
      fun hfmt hfit => mdrain_traps h (State.mdrainCheck_ring_unfit hf hs ht hto hfmt hfit), fun hfmt hfit => ?_⟩
    have hcheck := State.mdrainCheck_ring_fits hf hs ht hto hfmt hfit
    refine ⟨mdrain_waits h hcheck hto, mdrain_queued_ring h hcheck hto, fun hfull hmq hturn hwf hfree ⟨hsound, hsums⟩ => ?_⟩
    have hanswers := drain_spelled (mdrain_answers_ring h hcheck hto hfull hmq hwf hturn hfree hsound hsums)
    rw [State.rings_reserve_fill hturn] at hanswers
    exact hanswers
  case offset =>
    intro hf hs ht hto
    have hchecks := State.mdrainCheck_offset hf hs ht hto
    refine ⟨fun x hx => mdrain_traps h (hchecks.trans (by rw [hx]; rfl)),
      fun x hp hx => mdrain_traps h (hchecks.trans (by rw [hp]; exact hx)), fun hp hh => ?_⟩
    have hcheck : s.mdrainCheck t ra = none := hchecks.trans (by rw [hp]; exact hh)
    exact ⟨mdrain_queued_offset h hcheck hto, fun hmq hwf hfree ⟨hsound, hsums⟩ => drain_spelled
      (drain_answers (mdrain_issues_offset h hcheck hto) h (s.popped tk) hmq hwf (fun q hq => nomatch hq) hfree hsound hsums)⟩
  case formats =>
    intro f l hmq
    refine ⟨fun ha hl => ?_, fun ha hu hc => ?_, fun e ha hb hnew he => State.testFormats_replayed hmq t ov _ _ ha hb hnew he⟩
    · exact (State.testFormats_unarmed hmq t ov _ _ ha).trans (s.chunkPlan_stored _ _ hl)
    · exact (State.testFormats_unarmed hmq t ov _ _ ha).trans (s.chunkPlan_contracted _ _ hu hc)
  case queue =>
    exact ⟨fun hm hset => mzero_queued h hm hset hmq, fun hset hp => mtag_queued h hp hset hmq, fun hp => mtagChk_queued h hp hmq,
      fun hset => mchk_queued h hset hmq, mfree_queued h hmq⟩
  case acts =>
    refine ⟨fun hm hset hfree => mzero_answers h hmq hwf hm hset hfree, fun hset hp hfree => mtag_answers h hmq hwf hset hp hfree,
      fun hp hfree => mtagChk_answers h hmq hwf hp hfree, fun off hset hc hfree hbad => mchk_traps_bad h hmq hset hfree hc hbad,
      fun hset hfree hsound => ?_⟩
    exact ⟨mchk_incomplete h hmq hset hfree, fun hc => mchk_agrees h hmq hset hfree hc (hsound hc),
      fun hc hsums => mchk_differs h hmq hset hfree hc (hsound hc) (by rw [State.sumsAgree, Bool.not_eq_true]; exact hsums)⟩

end Sys2Proof.Machine
end

/-! ## No instruction is refused (O58)

Every word ends in the frame of R59, and every other row in a next state or in the stop of the model. -/

namespace Sys2Proof.Machine

/-- An outcome with a meaning: a next state or a stop of the model. -/
inductive Meant : Host.Outcome State Fault Refusal → Prop where
  | next (s : State) : Meant (.next s)
  | fault (f : Fault) : Meant (.fault f)

theorem Meant.ne_refused {o : Host.Outcome State Fault Refusal} (h : Meant o) (r : Refusal) : o ≠ .refused r := by
  rintro rfl
  cases h

theorem meant_ite {c : Prop} [Decidable c] {a b : Host.Outcome State Fault Refusal} (ha : Meant a) (hb : Meant b) :
    Meant (if c then a else b) := by
  split
  · exact ha
  · exact hb

/-! ### Words (R59) -/

theorem meant_finish (pu : Pops) (cmd : Option Nat) (w : Bool) (a npc : XWord) (s t : State) :
    Meant (finish pu cmd w a npc s t) := by
  unfold finish
  split <;> exact .next _

/-- The frame of an instruction gives each answer of an effect a meaning. -/
theorem meant_runWith (pops pu : Pops) (w : Bool) (reads : List (State → List RegRef)) (s : State) (effect : State → Res) :
    Meant (runWith pops pu w reads s effect) := by
  unfold runWith
  refine meant_ite (.next _) (meant_ite (.next _) (meant_ite (.next _) ?_))
  cases effect (s.doPops pops) with
  | done | skip | issued => exact meant_finish ..
  | stop => exact .fault _
  | closing t last u =>
    dsimp only
    split <;> exact .next _
  | thenTrap u t =>
    dsimp only
    split <;> exact .next _
  | taken | held | block | trap | trapLeaving | trapNoting | halted => exact .next _

theorem meant_runWord (tk : Tok) (reads : List (State → List RegRef)) (s : State) (effect : State → Res) :
    Meant (runWord tk reads s effect) := meant_runWith ..

/-! ### The words that share an effect -/

theorem meant_aluRR (tk : Tok) (rd ra rb : XReg) (s : State) (f : XWord → XWord → XWord) :
    Meant (aluRR tk rd ra rb s f) := meant_runWord ..

theorem meant_aluR (tk : Tok) (rd ra : XReg) (s : State) (f : XWord → XWord) :
    Meant (aluR tk rd ra s f) := meant_runWord ..

theorem meant_fopRR (tk : Tok) (fd fa fb : FReg) (s : State) (f : W32 → W32 → W32) :
    Meant (fopRR tk fd fa fb s f) := meant_runWord ..

theorem meant_fopR (tk : Tok) (fd fa : FReg) (s : State) (f : W32 → W32) :
    Meant (fopR tk fd fa s f) := meant_runWord ..

theorem meant_ffmaWord (negP negC : Bool) (tk : Tok) (fd fa fb fc : FReg) (s : State) :
    Meant (ffmaWord negP negC tk fd fa fb fc s) := meant_runWord ..

theorem meant_fToX (tk : Tok) (rd : XReg) (fa : FReg) (s : State) (f : W32 → XWord) :
    Meant (fToX tk rd fa s f) := meant_runWord ..

theorem meant_xToF (tk : Tok) (fd : FReg) (ra : XReg) (s : State) (f : XWord → W32) :
    Meant (xToF tk fd ra s f) := meant_runWord ..

theorem meant_fcmp (tk : Tok) (rd : XReg) (fa fb : FReg) (s : State) (c : FV → FV → Bool) :
    Meant (fcmp tk rd fa fb s c) := meant_runWord ..

theorem meant_loadX (tk : Tok) (signed : Bool) (sz : BitVec 2) (rd ra : XReg) (off : BitVec 8) (s : State) :
    Meant (loadX tk signed sz rd ra off s) := meant_runWord ..

theorem meant_poolLoadX (tk : Tok) (signed : Bool) (sz : BitVec 2) (rd ra : XReg) (off : BitVec 8) (s : State) :
    Meant (poolLoadX tk signed sz rd ra off s) := meant_runWord ..

theorem meant_condBranch (tk : Tok) (ra rb : XReg) (off : BitVec 10) (s : State) (c : XWord → XWord → Bool) :
    Meant (condBranch tk ra rb off s c) := meant_runWord ..

theorem meant_arrival (tk : Tok) (ra : XReg) (reads : List (State → List RegRef)) (s : State) (kind : State → CombKind) :
    Meant (arrival tk ra reads s kind) := meant_runWord ..

theorem meant_pamo (tk : Tok) (n : Nat) (more : List (State → List RegRef)) (rd ra rb : XReg) (s : State)
    (f : XWord → XWord → XWord → XWord) : Meant (pamo tk n more rd ra rb s f) := meant_runWord ..

theorem meant_aopRR (tk : Tok) (ad aa ab : AReg) (s : State) (f : AWord → AWord → AWord) :
    Meant (aopRR tk ad aa ab s f) := meant_runWord ..

theorem meant_runV (tk : Tok) (v : V3) (s : State) : Meant (runV tk v s) := meant_runWord ..

theorem meant_plog (tk : Tok) (pd pa pb : PReg) (s : State) (f : PWord → PWord → PWord) :
    Meant (plog tk pd pa pb s f) := meant_runWord ..

theorem meant_xferIssue (tk : Tok) (op : XferOp) (td : Fin 64) (aP aB : AReg) (s : State) :
    Meant (xferIssue tk op td aP aB s) := meant_runWord ..

theorem meant_vrepWord (tk : Tok) (count : State → Nat) (reads : List (State → List RegRef)) (st : Strides) (s : State) :
    Meant (vrepWord tk count reads st s) := by
  unfold vrepWord
  cases s.crew.repRun with
  | some r => exact meant_runWith ..
  | none =>
    cases s.vrepTarget with
    | other | perm | ecc => exact .next _
    | stop => exact .fault _
    | v3 i =>
      refine meant_ite (.next _) ?_
      cases s.repCheck (count s) st i with
      | some t => exact .next _
      | none => exact meant_runWith ..

/-! ### Hinge (R250 to R257) -/

section Hinge

variable {s t : State}

theorem meant_andThen (r : HgRead) {k : State → Nat → Host.Outcome State Fault Refusal} (hk : ∀ u v, Meant (k u v)) :
    Meant (r.andThen s t k) := by
  cases r with
  | val | loaded => exact hk ..
  | fault | waits => exact .next _
  | stop => exact .fault _

theorem meant_hgRow (array i : Nat) {k : State → Nat → Nat → Host.Outcome State Fault Refusal}
    (hk : ∀ u lo hi, Meant (k u lo hi)) : Meant (s.hgRow t array i k) :=
  meant_andThen _ fun _ _ => meant_andThen _ fun _ _ => meant_ite (.next _) (hk ..)

theorem meant_hgMessage (weights edge origin target : Nat) : Meant (s.hgMessage t weights edge origin target) :=
  meant_ite (meant_andThen _ fun _ _ => .next _) (meant_andThen _ fun _ _ => meant_andThen _ fun _ _ => .next _)

theorem meant_hgFinishedPart (i : Nat) : Meant (s.hgFinishedPart t i) := by
  unfold State.hgFinishedPart
  exact meant_andThen _ fun _ _ => .next _

theorem meant_hgCombine (v : Nat) (m : XWord) (k : State → State) : Meant (s.hgCombine v m k) := by
  unfold State.hgCombine
  dsimp only
  split
  · exact .next _
  · split
    · exact .next _
    · exact meant_andThen _ fun _ _ => meant_andThen _ fun _ _ => .next _

theorem meant_pushStep (i j : Nat) : Meant (s.pushStep i j) := by
  unfold State.pushStep
  dsimp only
  split
  · split
    · exact meant_ite (meant_hgCombine ..) (.next _)
    · exact .next _
  · exact meant_ite (.next _) (meant_andThen _ fun _ _ => meant_ite (.next _) (meant_hgRow _ _ fun _ _ _ =>
      meant_ite (.next _) (meant_andThen _ fun _ _ => meant_ite (.next _) (meant_hgMessage ..))))

theorem meant_checkStep (i j : Nat) : Meant (s.checkStep i j) := by
  unfold State.checkStep
  split
  · exact meant_hgFinishedPart _
  · split <;> exact .next _

theorem meant_pullStep (i j : Nat) : Meant (s.pullStep i j) := by
  unfold State.pullStep
  dsimp only
  split
  · split
    · exact .next _
    · exact meant_ite (.next _) (meant_ite (.next _) (meant_hgCombine ..))
  · exact meant_ite (.next _) (meant_ite (meant_hgFinishedPart _) (meant_hgRow _ _ fun _ _ _ =>
      meant_ite (.next _) (meant_andThen _ fun _ _ => meant_ite (.next _) (meant_andThen _ fun _ _ =>
        meant_ite (.next _) (meant_hgMessage ..)))))

theorem meant_hingeTurn (pull : Bool) (core : CoreId) (crew : CrewIx) (s : State)
    {k : State → Nat → Nat → Host.Outcome State Fault Refusal} (hk : ∀ u i j, Meant (k u i j)) :
    Meant (hingeTurn pull core crew s k) := by
  unfold hingeTurn
  refine meant_ite (.next _) ?_
  split
  · exact .next _
  · exact hk ..
  · exact meant_checkStep ..
  · exact .next _
  · exact .next _
  · exact .next _

theorem meant_hgStore (va : Nat) (b : List Byte) (k : State → State) : Meant (s.hgStore t va b k) := by
  unfold State.hgStore
  split
  · exact .next _
  · exact meant_ite (.fault _) (meant_ite (meant_ite (.next _) (.next _)) (.next _))

theorem meant_hgStat (i n : Nat) : Meant (s.hgStat i n) := by
  unfold State.hgStat
  dsimp only
  split
  · exact meant_hgFinishedPart _
  · split
    · exact .next _
    · exact meant_hgRow _ _ fun _ _ _ => meant_andThen _ fun _ _ => .next _

theorem meant_hgSwap (i : Nat) : Meant (s.hgSwap i) := meant_ite (.next _) (meant_andThen _ fun _ _ => .next _)

theorem meant_finalStep (i : Nat) : Meant (s.finalStep i) := by
  unfold State.finalStep
  refine meant_ite (.next _) (meant_ite ?_ (meant_ite ?_ ?_))
  · exact meant_andThen _ fun _ _ => meant_ite (.next _) (meant_andThen _ fun _ _ => meant_hgStore ..)
  · exact meant_andThen _ fun _ _ => meant_hgStore ..
  · exact meant_ite (meant_hgSwap _) (meant_ite (meant_hgStat ..) (meant_ite (meant_hgStore ..) (.next _)))

theorem meant_hgSums {k : State → Nat × Nat × Nat → Host.Outcome State Fault Refusal} (hk : ∀ u a, Meant (k u a)) (n : Nat)
    (s : State) (acc : Nat × Nat × Nat) : Meant (s.hgSums t acc k n) := by
  induction n generalizing s acc with
  | zero => exact hk ..
  | succ n ih =>
    unfold State.hgSums
    exact meant_andThen _ fun _ _ => meant_andThen _ fun _ _ => meant_andThen _ fun _ _ => ih ..

end Hinge

theorem meant_hingeFinalize (core : CoreId) (crew : CrewIx) (s : State) : Meant (execHingeFinalize core crew s) := by
  unfold execHingeFinalize
  refine meant_ite (.next _) ?_
  split
  · exact meant_finalStep _
  all_goals exact .next _

theorem meant_hingeCompletion (core : CoreId) (crew : CrewIx) (s : State) : Meant (execHingeCompletion core crew s) := by
  unfold execHingeCompletion
  refine meant_ite (.next _) ?_
  split
  · exact .next _
  · exact meant_hgSums (fun _ _ => .next _) ..

/-! ### Engines of the core and of the die -/

theorem meant_xferTurn (s : State) : Meant s.xferTurn := by
  unfold State.xferTurn
  split
  · exact .next _
  · split
    · exact .next _
    · refine meant_ite (.next _) ?_
      split
      · exact meant_ite (.next _) (.next _)
      · exact .next _
      · exact .next _
      · exact .fault _

theorem meant_gmaskComplete (die : DieId) (h : Fin 16384) (s : State) : Meant (execGmaskComplete die h s) := by
  unfold execGmaskComplete
  dsimp only
  split
  · exact .next _
  · split
    · exact .next _
    · refine meant_ite (.next _) ?_
      split
      · exact .next _
      · exact .fault _
      · exact .next _
      · exact .next _

theorem meant_samplerServe (die : DieId) (s : State) : Meant (execSamplerServe die s) := by
  unfold execSamplerServe
  split
  · exact .next _
  · dsimp only
    split
    · exact .next _
    · refine meant_ite (.next _) ?_
      split
      · exact .next _
      · exact .next _
      · exact meant_finish ..

/-- Each row of the opcode table has a meaning. -/
theorem meant_exec (i : Instr) (s : State) : Meant (exec i s) := by
  cases i <;> dsimp only [exec]
  -- the words: the frame of R59 around an effect
  case nop | tok | jmp | loop | loopRegX | loopReg | loopr | looprReg | loopx | brc | halt | rstp | lim | st | pst |
      fld | fst | pfld | pfst | call | jr | csrr | csrw | waitlimWrite | desctabWrite | fwshareWrite | trap | binit |
      bwait | btest | pub | acq | mbput | mbget | mbpoll | discard | gnew | gfork | gadv | gmask | groll | gfree |
      gstat | sstat | hset | hrun | hstat | hforce | aaddi | ali | alis | vld | vst | vmvaLane | vmvaVsh | vsetsh |
      vsetshReg | vport | vportIdle | mlease | mfree | msetImage | msetField | mzero | mma | mmag | mhad | mdrain |
      mtag | mtagChk | mreplay | mreplayChk | mchk | mringReset | mringPop | mringRead | tdesc | ttouch =>
    exact meant_runWord ..
  case wait => exact meant_runWith ..
  case add | sub | and | or | xor | shl | shr | sra | slt | sltn | min | max | minn | maxn | mul | mulh | mulhn | div
      | divn | rem | remn | andn | orn =>
    exact meant_aluRR ..
  case clz | ctz | popc | bswap | sextb | sexth | sextw | zextw | addi | andi | ori | xori | shiShl | shiShr | shiSra
      | slti | sltni | lims =>
    exact meant_aluR ..
  case fadd | fsub | fmul | fdiv | fmin | fmax | fsgnj => exact meant_fopRR ..
  case fsqrt | fabs | fneg => exact meant_fopR ..
  case ffma | ffms | ffnma | ffnms => exact meant_ffmaWord ..
  case fcvtxf | fcvtxfz | fmvxf => exact meant_fToX ..
  case fcvtfx | fmvfx => exact meant_xToF ..
  case feq | flt | fle => exact meant_fcmp ..
  case ld | ldn => exact meant_loadX ..
  case pld | pldn => exact meant_poolLoadX ..
  case beq | bne | blt | bge | bltn | bgen => exact meant_condBranch ..
  case barv | bard | bart => exact meant_arrival ..
  case pamoAdd | pamoAddd | pamoMin | pamoMax | pamoMinn | pamoMaxn | pamoSwp | pamoCas => exact meant_pamo ..
  case aAdd | aSub | aShl | aShr | aSra | aMul | aMin | aMax | aAnd | aOr | aXor => exact meant_aopRR ..
  case vadd | vsub | vmul | vfma | vmin | vmax | vabs | vneg | vand | vor | vxor | vshl | vshr | vsra | vcmpeq |
      vcmplt | vcmple | vsel | vcvt | vcvts | vrsq | vrcp | vlog2 | vexp2 | vperm | vbcA | vbcLane | vmaxi | vsum |
      vrng | vrqnt | vclamp | vpopc =>
    exact meant_runV ..
  case plogAnd | plogOr | plogXor | plogAndn | plogNot => exact meant_plog ..
  case tld | tst | tcpy | tsend | tadd | tgat | tsct | tcrc => exact meant_xferIssue ..
  case vrep | vrepReg => exact meant_vrepWord ..
  case sdraw => exact meant_ite (.next _) (meant_runWord ..)
  case eret => exact meant_ite (.next _) (.next _)
  -- the edge ops, the commands of SCP and the other rows that always go on
  case eend | emov | eli | eadd | esub | emul | emin | emax | eand | eor | eshl | eshr | ecmp | esel | emsg | efin =>
    exact .next _
  case scpUnknownOpcode | slotLoad | slotPin | slotRevoke | invoke | contractSet | contractSetParams | contractSetPeer
      | contractSetDevid | contractSetKey | map | unmap | migratePage | migrateExport | migrateImport | keyLoad |
      keyErase | preempt | resume | resumeRetry | resumeRefuse | ctxReset | resync | telemetryPower | telemetryShutter
      | telemetryFaults | telemetryPorts | fwUpdate | guiltClear | calendarSet =>
    exact .next _
  case tokenPush | tokenTimeout | barTimeout | mboxTimeout | combineUpdate | transferFault | matrixChunk |
      epochBoundary | calendarFrame | portbudPeriod | fwshareWindow | dispatchTeam | blockStart | trapEntry |
      firmwareStop | contextSave | resumeRestore | bootStart | ready | readyTimeout | fatalCondition | powerCheck |
      powerShutdown | frameDrop | hostRmaWrite | hostRmaRead | remotePut | putAck | remoteGet | sessionOpen |
      illegalOp | instPerm | powerLoss | getResponse =>
    exact .next _
  -- the engines that read memory, which may end where there is none
  case transferRetire => exact meant_xferTurn _
  case gmaskComplete => exact meant_gmaskComplete ..
  case samplerServe => exact meant_samplerServe ..
  case hingePushSuperstep => exact meant_hingeTurn _ _ _ _ fun _ => meant_pushStep
  case hingePullSuperstep => exact meant_hingeTurn _ _ _ _ fun _ => meant_pullStep
  case hingeFinalize => exact meant_hingeFinalize ..
  case hingeCompletion => exact meant_hingeCompletion ..

end Sys2Proof.Machine

section
open Sys2Proof Sys2Proof.Machine

/-- Settles O58: every row's outcome is a next state or a stop of the model. -/
theorem neverRefused : Obligations.NeverRefused := fun i s => (meant_exec i s).ne_refused

end

/-! ## Steps (O57) -/

namespace Sys2Proof.Machine

/-! ### What comes before a word of the clock -/

@[simp] theorem State.tlbFill_cur (s : State) (core : CoreId) (n : Nat) (k : Option CtxId) (va : Nat) (x : Xlat) :
    (s.tlbFill core n k va x).cur = s.cur := rfl

@[simp] theorem State.holdLine_cur (s : State) (pc : XWord) (line : XWord × List Byte) (x : Option Xlat) :
    (s.holdLine pc line x).cur = s.cur := by
  cases x <;> simp [State.holdLine]

/-- A retry of a mailbox word leaves the turn with its agent. -/
@[simp] theorem State.retryBox_cur (s : State) (core : CoreId) (k : CrewIx) : (s.retryBox core k).cur = s.cur := by
  unfold State.retryBox
  dsimp only
  split <;> rfl

/-- The retries of a list of crews run on the core that the turn began with. -/
theorem State.retryBoxes_core (l : List CrewIx) (s : State) :
    l.foldl (fun t k => t.retryBox t.cur.core k) s = l.foldl (fun t k => t.retryBox s.cur.core k) s := by
  induction l generalizing s with
  | nil => rfl
  | cons k l ih => simpa using ih (s.retryBox s.cur.core k)

/-- What comes before a word, said of the agent whose turn it is (R99, R197). -/
theorem exec_beforeWord (i : Instr) {s : State} {cur : Cur} (h : s.cur = cur) :
    exec i (s.beforeWord i) = match i with
      | .bwait .. | .btest .. => exec i s.combineAll
      | .mbput .. | .mbget .. | .mbpoll .. =>
        exec i ((crewIxs.filter fun k => k.val < cur.crew.val).foldl (fun t k => t.retryBox cur.core k) s)
      | _ => exec i s := by
  subst h
  cases i
  case mbput | mbget | mbpoll => exact congrArg (exec _) (State.retryBoxes_core ..)
  all_goals rfl

/-! ### The word at an agent's pc -/

/-- A fetched word that decodes is executed in its place of the clock (R44, R59). -/
theorem State.runNext_decoded {s : State} {w : W32} {line : XWord × List Byte} {x : Option Xlat} {i : Instr}
    (hf : s.fetch s.pc = .word w line x) (hi : decode s.cur.role w = some i) :
    s.runNext = s.inOrder (s.cur.wordPlace w i) fun t => exec i ((t.holdLine t.pc line x).beforeWord i) := by
  simp only [State.runNext, State.runAfter, hf, hi]

/-- A fetched word that does not decode is illegal (R44). -/
theorem State.runNext_undecoded {s : State} {w : W32} {line : XWord × List Byte} {x : Option Xlat}
    (hf : s.fetch s.pc = .word w line x) (hi : decode s.cur.role w = none) :
    s.runNext = exec .illegalOp (s.holdLine s.pc line x) := by
  simp only [State.runNext, State.runAfter, hf, hi]
  rfl

theorem State.inOrder_before {s : State} {p : Nat} (k : State → Host.Outcome State Fault Refusal) (h : p < s.pos) :
    s.inOrder p k = .next s := if_pos h

theorem State.inOrder_after {s : State} {p : Nat} (k : State → Host.Outcome State Fault Refusal) (h : s.pos ≤ p) :
    s.inOrder p k = k { s with pos := p } := if_neg (Nat.not_lt.mpr h)

/-! ### Turns -/

theorem State.orTimeout_none {s : State} (k : Host.Outcome State Fault Refusal) (h : s.timedOut = none) :
    s.orTimeout k = k := by
  simp only [State.orTimeout, h]

/-- A sequencer with nothing before its next word runs it (R177, R180, R300). -/
theorem State.seqTurn_runs {s : State} (hl : s.crewLive = true) (hr : s.seq.status = .running) (ht : s.timedOut = none)
    (hd : s.pushDue = false) (hs : s.pushStuck = false) (hn : s.seq.trapDue = none) (hi : s.seq.issued = false) :
    s.seqTurn = s.runNext := by
  simp [State.seqTurn, State.issueNext, State.orTimeout_none, hl, hr, ht, hd, hs, hn, hi]

/-- In its slot the firmware context runs its next word where no `eret` is due and no wait has run out. -/
theorem State.fwWord_runs {s : State} (he : s.here.fw.eretDue = false) (ht : s.timedOut = none) : s.fwWord = s.runNext := by
  simp [State.fwWord, he, State.orTimeout_none _ ht]

section FirmwareTurn

variable {s : State} (hs : s.here.fw.stopped = false) (he : s.here.fw.eretDue = false)
  (hr : s.here.fw.seq.status = .running) (hi : s.here.fw.seq.issued = false)
include hs he hr hi

/-- Before ready every slot is the firmware context's (log 18). -/
theorem State.fwTurn_unready (hb : s.boot.stage ≠ .ready) : s.fwTurn = s.fwWord := by
  simp [State.fwTurn, hs, he, hr, hi, hb]

/-- It takes no slot while its word's place has passed, or no crew has one left (R184). -/
theorem State.fwTurn_noSlot (hb : s.boot.stage = .ready) (ht : s.timedOut = none)
    (hn : s.wordInOrder = false ∨ s.here.slotFor = none) : s.fwTurn = .next s := by
  cases ho : s.wordInOrder with
  | false => simp [State.fwTurn, hs, he, hr, hi, hb, ht, ho]
  | true =>
    have hn : s.here.slotFor = none := hn.resolve_left (by simp [ho])
    simp [State.fwTurn, hs, he, hr, hi, hb, ho, hn]

/-- It takes the slot of a crew and does its work there (R184). -/
theorem State.fwTurn_slot {k : CrewIx} (hb : s.boot.stage = .ready) (ho : s.wordInOrder = true)
    (hk : s.here.slotFor = some k) : s.fwTurn = (s.modHere fun c => c.takeSlot k).fwWord := by
  simp [State.fwTurn, hs, he, hr, hi, hb, ho, hk]

end FirmwareTurn

/-- A turn with no place in the order of its clock runs as it comes. -/
theorem step_unplaced {s : State} {t : Turn} (ht : s.nextTurn = t) (hp : (s.forTurn s.nextTurn).turnPlace t = none) :
    step s = (s.forTurn s.nextTurn).turn t := by
  subst ht
  simp only [step, State.runTurn, hp]

theorem step_placed {s : State} {t : Turn} {p : Nat} (ht : s.nextTurn = t)
    (hp : (s.forTurn s.nextTurn).turnPlace t = some p) :
    step s = (s.forTurn s.nextTurn).inOrder p fun u => u.turn t := by
  subst ht
  simp only [step, State.runTurn, hp]

/-- Hinge's turn runs the edge word that its core evaluates next (R250). -/
theorem State.hingeTurn_runs {s : State} {core : CoreId} {k : CrewIx} {w : W32} {i : Instr}
    (hk : (s.core core).hingeCur = some k) (hw : (s.actAs core k .hinge).crew.edgeWord = some w)
    (hi : decode .hinge w = some i) : s.hingeTurn core = exec i (s.actAs core k .hinge) := by
  simp only [State.hingeTurn, hk, hw, hi]

theorem State.eventTurn_runs (s : State) {i : Instr} (hi : isEvent i = true) : s.turn (.event i) = exec i s := if_pos hi

end Sys2Proof.Machine

section
open Sys2Proof Sys2Proof.Machine

/-- Settles O57: each kind of turn is reduced to the word it fetches, which runs in its place of the clock. -/
theorem stepRunsDecoded : Obligations.StepRunsDecoded := by
  unfold Obligations.StepRunsDecoded
  intro s f inPlace runs
  have placed {a : State} {p : Nat} {k : State → Host.Outcome State Fault Refusal} (h : step s = a.inOrder p k) :
      inPlace a p k := ⟨fun hp => h.trans (State.inOrder_before k hp), fun hp => h.trans (State.inOrder_after k hp)⟩
  have word {a : State} {w : W32} {line : XWord × List Byte} {x : Option Xlat} (hr : step s = a.runNext)
      (hf : a.fetch a.pc = .word w line x) : runs a a.cur.role w line x := by
    refine ⟨fun i hi => ?_, fun hi => hr.trans (State.runNext_undecoded hf hi)⟩
    have hstep := hr.trans (State.runNext_decoded hf hi)
    refine ⟨fun hp => hstep.trans (State.inOrder_before _ hp), fun hp => ?_⟩
    rw [hstep, State.inOrder_after _ hp]
    exact exec_beforeWord i (State.holdLine_cur ..)
  refine ⟨?_, ?_, ?_, ?_⟩
  · intro core crew st w line x ht a hl hq hto hd hst hn hi hf
    have hs : step s = a.seqTurn := step_unplaced ht rfl
    exact word (hs.trans (State.seqTurn_runs hl hq hto hd hst hn hi)) hf
  · intro core w line x ht a q hs he hq hi
    have hfw : step s = a.fwTurn := step_unplaced ht rfl
    refine ⟨fun hb hto hf => ?_, fun hb hto hn => ?_, fun k hb hto ho hk => ?_⟩
    · exact word (hfw.trans ((State.fwTurn_unready hs he hq hi hb).trans (State.fwWord_runs he hto))) hf
    · exact hfw.trans (State.fwTurn_noSlot hs he hq hi hb hto hn)
    · intro b hto' hf
      have heb : b.here.fw.eretDue = false := by simpa [b, Core.takeSlot] using he
      exact word (hfw.trans ((State.fwTurn_slot hs he hq hi hb ho hk).trans (State.fwWord_runs heb hto'))) hf
  · intro core k w i p ht hp a hk hw hi
    have hs : step s = f.inOrder p fun u => u.turn (.hinge core) := step_placed ht hp
    refine ⟨fun h => hs.trans (State.inOrder_before _ h), fun h => ?_⟩
    rw [hs, State.inOrder_after _ h]
    exact State.hingeTurn_runs (s := { f with pos := p }) hk hw hi
  · intro i ht hi
    refine ⟨fun hp => (step_unplaced ht hp).trans (State.eventTurn_runs _ hi), fun p hp => ?_⟩
    have hs : step s = f.inOrder p fun u => u.turn (.event i) := step_placed ht hp
    exact placed (hs.trans (congrArg (f.inOrder p) (funext fun u => u.eventTurn_runs hi)))

end

section
/-! PROOFS. The transfer words of L and S: what their checks read, the place a word takes in its engine's queue, and the words
together (R155 to R157, R162, R163, R166, R167, R193). -/

namespace Sys2Proof.Machine

/-! ### What the checks of a transfer read, in states that agree apart from issue -/

/-- Issue concerns the executing core alone. -/
theorem State.core_apart_ne (s : State) {core : CoreId} (hc : s.cur.core ≠ core) : s.apart.core core = s.core core := by
  by_cases h : s.cur.role = .fw
  · rw [State.apart_fw h, State.modHere_eq, State.core_setCore_ne _ _ hc]
  · rw [State.apart_crew h, State.modCrew_modHere, State.modHere_eq, State.core_setCore_ne _ _ hc]

/-- What a core holds besides its crews and the firmware context's sequencer, of any core. -/
theorem State.read_core_apart {α : Type} (g : Core → α) (hcrew : ∀ c k v, g (c.setCrew k v) = g c)
    (hseq : ∀ c q, g (c.setFwSeq q) = g c) (s : State) (core : CoreId) : g (s.apart.core core) = g (s.core core) := by
  by_cases hc : s.cur.core = core
  · subst hc
    have h := State.read_here_apart g hcrew hseq s
    rwa [State.here, State.apart_cur] at h
  · rw [State.core_apart_ne s hc]

/-- What any crew holds besides sequencers, tokens and rotation. -/
theorem State.read_crewAt_apart {α : Type} (g : Crew → α) (hloose : ∀ c, g c.loose = g c) (hseq : ∀ c st q, g (c.setSeq st q) = g c)
    (s : State) (core : CoreId) (k : CrewIx) : g (s.apart.crewAt core k) = g (s.crewAt core k) := by
  by_cases hc : s.cur.core = core
  · subst hc
    by_cases hk : k = s.cur.crew
    · subst hk
      have h := State.read_apart g hloose hseq s
      rwa [State.crew, State.apart_cur] at h
    · refine congrArg g ?_
      by_cases h : s.cur.role = .fw
      · rw [State.crewAt, State.apart_fw h, State.modHere_eq, State.core_setCore]
        exact Core.crew_setCrew_ne _ _ hk
      · rw [State.crewAt, State.apart_crew h, State.modCrew_modHere, State.modHere_eq, State.core_setCore]
        exact Core.crew_setCrew_ne _ _ hk
  · rw [State.crewAt, State.core_apart_ne s hc]
    rfl

section Agree
variable {u s : State} (h : u.apart = s.apart)
include h

theorem State.tick_of_apart : u.tick = s.tick := by simpa [State.apart] using congrArg State.tick h

theorem State.readCrewAt_of_apart {α : Type} (g : Crew → α) (hloose : ∀ c, g c.loose = g c)
    (hseq : ∀ c st q, g (c.setSeq st q) = g c) (core : CoreId) (k : CrewIx) : g (u.crewAt core k) = g (s.crewAt core k) := by
  rw [← State.read_crewAt_apart g hloose hseq, h, State.read_crewAt_apart g hloose hseq]

theorem State.poolOf_of_apart (core : CoreId) : (u.core core).pool = (s.core core).pool := by
  rw [← State.read_core_apart Core.pool (fun _ _ _ => rfl) fun _ _ => rfl, h,
    State.read_core_apart Core.pool (fun _ _ _ => rfl) fun _ _ => rfl]
theorem State.tlb_of_apart : u.here.tlb = s.here.tlb := by
  rw [← State.read_here_apart Core.tlb (fun _ _ _ => rfl) fun _ _ => rfl, h,
    State.read_here_apart Core.tlb (fun _ _ _ => rfl) fun _ _ => rfl]
theorem State.walks_of_apart : u.here.walks = s.here.walks := by
  rw [← State.read_here_apart Core.walks (fun _ _ _ => rfl) fun _ _ => rfl, h,
    State.read_here_apart Core.walks (fun _ _ _ => rfl) fun _ _ => rfl]

theorem State.aFile_of_apart (st : Stream) : u.crew.aFile st = s.crew.aFile st :=
  State.read_of_apart h (fun c => c.aFile st) (fun _ => by cases st <;> rfl) fun _ r _ => by cases st <;> cases r <;> rfl
theorem State.heldOf_of_apart (st : Stream) : u.crew.heldOf st = s.crew.heldOf st :=
  State.read_of_apart h (fun c => c.heldOf st) (fun _ => by cases st <;> rfl) fun _ r _ => by cases st <;> cases r <;> rfl
theorem State.taddDone_of_apart (st : Stream) : u.crew.taddDone st = s.crew.taddDone st :=
  State.read_of_apart h (fun c => c.taddDone st) (fun _ => by cases st <;> rfl) fun _ r _ => by cases st <;> cases r <;> rfl
theorem State.desctab_of_apart : u.crew.desctab = s.crew.desctab :=
  State.read_of_apart h Crew.desctab (fun _ => rfl) fun _ st _ => by cases st <;> rfl
theorem State.xq_of_apart : u.xq = s.xq := by
  rw [State.xq, State.xq, State.cur_of_apart h]
  exact State.read_of_apart h (fun c => c.xq s.cur.role.stream) (fun _ => by cases s.cur.role.stream <;> rfl)
    fun _ r _ => by cases s.cur.role.stream <;> cases r <;> rfl

theorem State.getA_of_apart (r : AReg) : u.getA r = s.getA r := by
  rw [State.getA, State.cur_of_apart h, State.aFile_of_apart h]; rfl

theorem State.findBlock_of_apart (ctx : CtxId) (launch blockid : Nat) :
    u.findBlock ctx launch blockid = s.findBlock ctx launch blockid := by
  have hb (q : CoreId × CrewIx) : (u.crewAt q.1 q.2).block = (s.crewAt q.1 q.2).block :=
    State.readCrewAt_of_apart h Crew.block (fun _ => rfl) (fun _ st _ => by cases st <;> rfl) q.1 q.2
  simp only [State.findBlock, hb]

theorem State.teamMember_of_apart (pos : Nat) : u.teamMember pos = s.teamMember pos := by
  simp only [State.teamMember, State.block_of_apart h, State.findBlock_of_apart h]
theorem State.teamSize_of_apart : u.teamSize = s.teamSize := by
  simp only [State.teamSize, State.block_of_apart h, State.cur_of_apart h]
theorem State.partAt_of_apart (core : CoreId) (k : CrewIx) : (u.crewAt core k).part = (s.crewAt core k).part :=
  State.readCrewAt_of_apart h Crew.part (fun _ => rfl) (fun _ st _ => by cases st <;> rfl) core k

theorem State.xferRing_of_apart (op : XferOp) (d : Image) (a : Nat) : u.xferRing op d a = s.xferRing op d a := by
  simp only [State.xferRing, State.ring_of_apart h]
theorem State.localSide_of_apart (op : XferOp) (d : Image) (a : Nat) (bar : Option Nat) (ring : Option (Fin 16)) :
    u.localSide op d a bar ring = s.localSide op d a bar ring := by
  simp only [State.localSide, State.part_of_apart h, State.cur_of_apart h, State.org_of_apart h]
theorem State.remoteSide_of_apart (op : XferOp) (d : Image) (a : Nat) (bar : Option Nat) :
    u.remoteSide op d a bar = s.remoteSide op d a bar := by
  simp only [State.remoteSide, State.part_of_apart h, State.teamMember_of_apart h, State.partAt_of_apart h]
theorem State.xferChecks_of_apart (op : XferOp) (d : Image) (a : Nat) (bar : Option Nat) :
    u.xferChecks op d a bar = s.xferChecks op d a bar := by
  simp only [State.xferChecks, State.xferRing_of_apart h, State.localSide_of_apart h, State.remoteSide_of_apart h,
    State.teamSize_of_apart h]

theorem State.withDesc_of_apart (td : Fin 64) (k : Image → Nat → Res) : u.withDesc td k = s.withDesc td k := by
  simp only [State.withDesc, State.part_of_apart h, State.desctab_of_apart h, State.poolRead_of_apart h]

theorem State.tableEntry_of_apart : u.tableEntry = s.tableEntry := by
  funext l a
  simp only [State.tableEntry, State.keyOf, State.npu_of_apart h, State.mem_of_apart h]
theorem State.walk1_of_apart (ctx : CtxId) (va : Nat) : u.walk1 ctx va = s.walk1 ctx va := by
  simp only [State.walk1, State.ctx, State.tableEntry_of_apart h, State.npu_of_apart h, State.mem_of_apart h]
theorem State.walkBad_of_apart (via : Via) (ctx : CtxId) (va : Nat) (places : List Nat) :
    u.walkBad via ctx va places = s.walkBad via ctx va places := by
  simp only [State.walkBad, State.tlb_of_apart h, State.walks_of_apart h, State.mem_of_apart h]
theorem State.breaking_of_apart (ctx : CtxId) (va : Nat) : u.breaking ctx va = s.breaking ctx va := by
  simp only [State.breaking, State.npu_of_apart h, State.tick_of_apart h]
theorem State.keyOf_of_apart (e : Nat) : u.keyOf e = s.keyOf e := by rw [State.keyOf, State.npu_of_apart h]; rfl
theorem State.peerValid_of_apart (i : Nat) : u.peerValid i = s.peerValid i := by rw [State.peerValid, State.npu_of_apart h]; rfl
theorem State.translate_of_apart (via : Via) (ctx : CtxId) (va : Nat) (acc : Access) :
    u.translate via ctx va acc = s.translate via ctx va acc := by
  simp only [State.translate, State.ctx, State.walk1_of_apart h, State.walkBad_of_apart h, State.breaking_of_apart h,
    State.keyOf_of_apart h, State.peerValid_of_apart h, State.npu_of_apart h, State.mem_of_apart h] <;> rfl
theorem State.translateHere_of_apart (hr : s.cur.role ≠ .fw) (va : Nat) (acc : Access) :
    u.translateHere va acc = s.translateHere va acc := by
  simp only [State.translateHere, State.cur_of_apart h, if_neg hr, State.translate_of_apart h, State.crewCtx_of_apart h]

end Agree

/-! ### The place in the queue (R137, R155 to R157, R193) -/

theorem Crew.inner_setHeld (st : Stream) (l : List HeldSlot) : Crew.Inner fun c => c.setHeld st l := by
  cases st <;> exact ⟨fun _ => rfl, fun _ st _ => by cases st <;> rfl, fun _ st => by cases st <;> rfl⟩

theorem Core.inner_lock (id : Nat) (banks : List Nat) : Core.Inner fun c => c.lock id banks :=
  ⟨fun _ _ _ => rfl, fun _ _ => rfl, fun _ => rfl, fun _ _ => rfl⟩

/-- A word that names no ring takes no slot. -/
theorem State.takeSlot_none (s : State) : s.takeSlot none = some (none, s) := rfl

/-- A ring that has no slot for the sequencer held gives the next, if it has one (R137). -/
theorem State.takeSlot_fresh {s : State} {r : Fin 16} (hheld : ∀ h ∈ (s.crew.heldOf s.cur.role.stream).head?, h.ring ≠ r) :
    s.takeSlot (some r) = if (s.ring r).full then none else some (some (r, (s.ring r).resv), s.modRing r Ring.reserve) := by
  unfold State.takeSlot
  dsimp only
  split
  · rename_i h rest heq
    exact if_neg (hheld h (by simp [heq]))
  · rfl

/-- The slot that is held for the word is its own (R157). -/
theorem State.takeSlot_held {s : State} {r : Fin 16} {slot : Nat} {rest : List HeldSlot}
    (hheld : s.crew.heldOf s.cur.role.stream = { ring := r, slot := slot } :: rest) :
    s.takeSlot (some r) = some (some (r, slot), s.modCrew fun c => c.setHeld s.cur.role.stream rest) := by
  simp only [State.takeSlot, hheld, if_true]

section Popped
variable {s pre u : State} {tk : Tok} (h : s.Popped tk pre u)
include h

theorem State.Popped.setHeld (l : List HeldSlot) :
    s.Popped tk (pre.modCrew fun c => c.setHeld pre.cur.role.stream l) (u.modCrew fun c => c.setHeld u.cur.role.stream l) := by
  rw [State.cur_of_apart h.apart]
  exact h.modCrew (Crew.inner_setHeld ..)

/-- Pops do not matter to the slot that a word takes. -/
theorem State.Popped.takeSlot (ring : Option (Fin 16)) :
    (pre.takeSlot ring = none → u.takeSlot ring = none)
    ∧ ∀ slot t, pre.takeSlot ring = some (slot, t) → ∃ v, u.takeSlot ring = some (slot, v) ∧ s.Popped tk t v := by
  have hcur := State.cur_of_apart h.apart
  have hheld := State.heldOf_of_apart h.apart pre.cur.role.stream
  cases ring with
  | none =>
    simp only [State.takeSlot_none, Option.some.injEq, Prod.mk.injEq, reduceCtorEq, false_implies, true_and]
    rintro slot t ⟨rfl, rfl⟩
    exact ⟨u, ⟨rfl, rfl⟩, h⟩
  | some r =>
    by_cases hr : ∀ q ∈ (pre.crew.heldOf pre.cur.role.stream).head?, q.ring ≠ r
    · rw [State.takeSlot_fresh hr, State.takeSlot_fresh (by rwa [hcur, hheld]), State.ring_of_apart h.apart]
      split
      · exact ⟨fun _ => rfl, fun _ _ ht => absurd ht (Option.some_ne_none _).symm⟩
      · refine ⟨fun hn => absurd hn (Option.some_ne_none _), fun slot t ht => ?_⟩
        obtain ⟨rfl, rfl⟩ := Prod.mk.inj (Option.some.inj ht)
        exact ⟨_, rfl, h.reserve r⟩
    · obtain ⟨q, rest, hq, hqr⟩ : ∃ q rest, pre.crew.heldOf pre.cur.role.stream = q :: rest ∧ q.ring = r := by
        cases hl : pre.crew.heldOf pre.cur.role.stream with
        | nil => simp [hl] at hr
        | cons q rest => exact ⟨q, rest, rfl, by simpa [hl] using hr⟩
      subst hqr
      rw [State.takeSlot_held hq, State.takeSlot_held (by rw [hcur, hheld, hq])]
      refine ⟨fun hn => absurd hn (Option.some_ne_none _), fun slot t ht => ?_⟩
      obtain ⟨rfl, rfl⟩ := Prod.mk.inj (Option.some.inj ht)
      exact ⟨_, rfl, h.setHeld rest⟩

end Popped

/-- Where a word's tile and its headers come to lie: in the slot that it takes, or where its checks have put them. -/
def State.slotPlace (s : State) (side : XferSide) (slot : Option (Fin 16 × Nat)) : Nat × Nat :=
  match slot with
  | some q => (s.crew.org + slotOff (s.ring q.1).img q.2, s.crew.org + slotHdr (s.ring q.1).img q.2)
  | none => (side.dst, side.hdr)

/-- The banks that the word writes in its own core. -/
def State.writtenBanks (s : State) (op : XferOp) (d : Image) (side : XferSide) (slot : Option (Fin 16 × Nat)) : List Nat :=
  xferBanks op d (s.slotPlace side slot).1 (s.slotPlace side slot).2

/-- The transfer that a word of the state `s` issues. -/
def State.transfer (s : State) (tk : Tok) (op : XferOp) (d : Image) (table : Nat) (side : XferSide) (list : List Nat)
    (slot : Option (Fin 16 × Nat)) : Xfer :=
  { id := s.serial, op := op, desc := d, table := table, src := side.src, dstCore := side.dstCore
    dst := (s.slotPlace side slot).1, hdr := (s.slotPlace side slot).2, team := side.team, bar := side.bar, list := list
    slot := slot, pc := s.pc, a := s.crew.aFile s.cur.role.stream, loops := s.seq.loops
    pops0 := s.seq.popLog.length - (popsOf tk).p - (popsOf tk).n
    combined := if op.kind = .tadd then s.crew.taddDone s.cur.role.stream else 0, got := [], put := [], moved := none }

/-- A transfer at the end of its stream's queue; a `tadd` has taken the progress that was saved for it (R157). -/
def Crew.enqueue (st : Stream) (x : Xfer) (c : Crew) : Crew :=
  (if x.op.kind = .tadd then c.setTadd st 0 else c).setXq st (c.xq st ++ [x])

theorem Crew.inner_enqueue (st : Stream) (x : Xfer) : Crew.Inner (Crew.enqueue st x) := by
  unfold Crew.enqueue
  split <;> cases st <;> exact ⟨fun _ => rfl, fun _ st _ => by cases st <;> rfl, fun _ st => by cases st <;> rfl⟩

/-- The state with a number taken, the banks of a transfer locked and the transfer in its queue. -/
def State.withXfer (t : State) (st : Stream) (x : Xfer) (banks : List Nat) : State :=
  (({ t with serial := x.id + 1 } : State).modHere fun c => c.lock x.id banks).modCrew (Crew.enqueue st x)

theorem State.withXfer_apart (t : State) (st : Stream) (x : Xfer) (banks : List Nat) :
    (t.withXfer st x banks).apart =
      (({ t.apart with serial := x.id + 1 } : State).modHere fun c => c.lock x.id banks).modCrew (Crew.enqueue st x) := by
  rw [State.withXfer, State.apart_inner (Crew.inner_enqueue st x), State.apart_innerCore (Core.inner_lock ..), State.apart_serial]

theorem State.seq_withXfer (t : State) (st : Stream) (x : Xfer) (banks : List Nat) : (t.withXfer st x banks).seq = t.seq := by
  rw [State.withXfer, State.seq_inner (Crew.inner_enqueue st x), State.seq_innerCore (Core.inner_lock ..)]
  rfl

section Queue
variable {s : State} {tk : Tok} {op : XferOp} {d : Image} {table : Nat} {side : XferSide} {list : List Nat}

theorem State.xferQueue_noSlot (h : s.takeSlot side.ring = none) : s.xferQueue tk op d table side list = .block .other id := by
  simp only [State.xferQueue, h]

theorem State.xferQueue_slot {slot : Option (Fin 16 × Nat)} {t : State} (h : s.takeSlot side.ring = some (slot, t))
    (hs : t.serial = s.serial) :
    s.xferQueue tk op d table side list =
      if !s.here.banksFree s.serial (s.writtenBanks op d side slot)
        || farAhead s.xq s.cur.core (s.writtenBanks op d side slot) then .block .other id
      else .issued (t.withXfer s.cur.role.stream (s.transfer tk op d table side list slot) (s.writtenBanks op d side slot))
        s.serial := by
  have hadd (v : State) (st : Stream) (x : Xfer) (hx : x.op = op) :
      (if op.kind = .tadd then v.modCrew fun c => c.setTadd st 0 else v).modCrew (fun c => c.setXq st (c.xq st ++ [x]))
        = v.modCrew (Crew.enqueue st x) := by
    subst hx
    unfold Crew.enqueue
    split
    · rw [State.modCrew_modCrew]
      cases st <;> rfl
    · rfl
  simp only [State.xferQueue, h, State.fresh, hs]
  rw [hadd _ _ _ rfl] <;> rfl

variable {slot : Option (Fin 16 × Nat)} {t : State} (h : s.takeSlot side.ring = some (slot, t)) (hs : t.serial = s.serial)
include h hs

/-- With its slot taken the word waits for the banks that it writes (R156, R193). -/
theorem State.xferQueue_busy (hb : s.here.banksFree s.serial (s.writtenBanks op d side slot) = false
    ∨ farAhead s.xq s.cur.core (s.writtenBanks op d side slot) = true) :
    s.xferQueue tk op d table side list = .block .other id := by
  rw [State.xferQueue_slot h hs, if_pos]
  rcases hb with hb | hb <;> simp [hb]

/-- With its slot taken and its banks free it joins the queue. -/
theorem State.xferQueue_free (hb : s.here.banksFree s.serial (s.writtenBanks op d side slot) = true)
    (ha : farAhead s.xq s.cur.core (s.writtenBanks op d side slot) = false) :
    s.xferQueue tk op d table side list =
      .issued (t.withXfer s.cur.role.stream (s.transfer tk op d table side list slot) (s.writtenBanks op d side slot))
        s.serial := by
  rw [State.xferQueue_slot h hs, if_neg]
  simp [hb, ha]

end Queue

/-- A word that has passed its checks waits for its slot, for the banks that it writes or for an earlier transfer to write its last
byte there, and else joins its engine's queue: `x` is the transfer (R137, R156, R193). -/
def Joins (i : Instr) (s : State) (op : XferOp) (d : Image) (table : Nat) (side : XferSide) (list : List Nat) : Prop :=
  (s.takeSlot side.ring = none → Waits i s)
  ∧ ∀ slot t, s.takeSlot side.ring = some (slot, t) →
    let place := s.slotPlace side slot
    let banks := xferBanks op d place.1 place.2
    let st := s.cur.role.stream
    (s.here.banksFree s.serial banks = false ∨ farAhead s.xq s.cur.core banks = true → Waits i s)
    ∧ (s.here.banksFree s.serial banks = true → farAhead s.xq s.cur.core banks = false →
      ∃ x : Xfer, x.id = s.serial ∧ x.op = op ∧ x.desc = d ∧ x.table = table ∧ x.src = side.src
        ∧ x.dstCore = side.dstCore ∧ x.dst = place.1 ∧ x.hdr = place.2 ∧ x.team = side.team ∧ x.bar = side.bar
        ∧ x.list = list ∧ x.slot = slot ∧ x.pc = s.pc ∧ x.loops = s.seq.loops ∧ x.a = s.crew.aFile st
        ∧ x.combined = (if op.kind = .tadd then s.crew.taddDone st else 0)
        ∧ x.got = [] ∧ x.put = [] ∧ x.moved = none
        ∧ Runs i s ((({ t with serial := s.serial + 1 } : State).modHere fun c => c.lock s.serial banks).modCrew fun c =>
            (if op.kind = .tadd then c.setTadd st 0 else c).setXq st (c.xq st ++ [x])))

section Popped
variable {s pre u : State} {tk : Tok} (h : s.Popped tk pre u)
include h

theorem State.Popped.loops : u.seq.loops = s.seq.loops := by
  rw [h.seq]
  exact (s.doPops_place _).1

theorem State.Popped.withXfer (st : Stream) (x : Xfer) (banks : List Nat) :
    (u.withXfer st x banks).apart = (pre.withXfer st x banks).apart := by
  rw [State.withXfer_apart, State.withXfer_apart, h.apart]

end Popped

theorem State.slotPlace_of_apart {u s : State} (h : u.apart = s.apart) (side : XferSide) (slot : Option (Fin 16 × Nat)) :
    u.slotPlace side slot = s.slotPlace side slot := by
  cases slot with
  | none => rfl
  | some q => rw [State.slotPlace, State.org_of_apart h, State.ring_of_apart h]; rfl

theorem State.writtenBanks_of_apart {u s : State} (h : u.apart = s.apart) (op : XferOp) (d : Image) (side : XferSide)
    (slot : Option (Fin 16 × Nat)) : u.writtenBanks op d side slot = s.writtenBanks op d side slot := by
  rw [State.writtenBanks, State.slotPlace_of_apart h]; rfl

/-- A word whose effect comes to the queue joins it. -/
theorem joins_of_xferQueue {i : Instr} {s : State} {tk : Tok} {reads : List (State → List RegRef)} {effect : State → Res}
    (hi : exec i s = runWord tk reads s effect) (h : s.Clear tk) {op : XferOp} {d : Image} {table : Nat} {side : XferSide}
    {list : List Nat} (he : effect (s.doPops (popsOf tk)) = (s.doPops (popsOf tk)).xferQueue tk op d table side list) :
    Joins i s op d table side list := by
  obtain ⟨u, hpops⟩ : ∃ u, s.doPops (popsOf tk) = u := ⟨_, rfl⟩
  have hu : s.Popped tk s u := hpops ▸ s.popped tk
  have ha := hu.apart
  obtain ⟨hnone, hsome⟩ := hu.takeSlot side.ring
  have waits (hb : effect (s.doPops (popsOf tk)) = .block .other id) : Waits i s := by
    obtain ⟨v, hv, hva, hvp⟩ := runWord_waits (reads := reads) h.toIssues hb rfl
    exact ⟨v, hi.trans hv, hva, hvp⟩
  rw [hpops] at he waits
  refine ⟨fun hn => waits (he.trans (State.xferQueue_noSlot (hnone hn))), fun slot t ht => ?_⟩
  obtain ⟨v, hv, hvp⟩ := hsome slot t ht
  have hserial : v.serial = u.serial := hvp.serial_eq.trans hu.serial_eq.symm
  refine ⟨fun hbusy => waits (he.trans (State.xferQueue_busy hv hserial ?_)), fun hfree hahead => ?_⟩
  · rwa [State.writtenBanks_of_apart ha, State.banksFree_of_apart ha, State.xq_of_apart ha, State.cur_of_apart ha, hu.serial_eq]
  · have hissue := he.trans (State.xferQueue_free (tk := tk) (table := table) (list := list) hv hserial
      (by rwa [State.writtenBanks_of_apart ha, State.banksFree_of_apart ha, hu.serial_eq])
      (by rwa [State.writtenBanks_of_apart ha, State.xq_of_apart ha, State.cur_of_apart ha]))
    rw [← hpops] at hissue
    have hx : (u.transfer tk op d table side list slot).id = s.serial := hu.serial_eq
    obtain ⟨w, hw, hwa, hwp⟩ := runWord_issued (reads := reads) h hissue (by rw [State.seq_withXfer, hpops, hvp.seq, hu.seq])
    rw [hpops] at hwa
    refine ⟨u.transfer tk op d table side list slot, hx, rfl, rfl, rfl, rfl, rfl,
      congrArg Prod.fst (State.slotPlace_of_apart ha side slot), congrArg Prod.snd (State.slotPlace_of_apart ha side slot),
      rfl, rfl, rfl, rfl, hu.pc, hu.loops, ?_, ?_,
      rfl, rfl, rfl, w, hi.trans hw, hwa.trans ?_, hwp⟩
    · rw [State.transfer, State.aFile_of_apart ha, State.cur_of_apart ha]
    · rw [State.transfer, State.taddDone_of_apart ha, State.cur_of_apart ha]
    · rw [hvp.withXfer, State.withXfer, hx, State.cur_of_apart ha, State.writtenBanks_of_apart ha]
      rfl

/-! ### A transfer word (R155) -/

/-- The barrier that a word names, if it names one (R57). -/
def State.barOperand (s : State) (aB : AReg) : Option Nat := if aB = 0 then none else some (s.getA aB).toNat

/-- What a transfer word does with its descriptor. -/
def State.xferWith (s : State) (tk : Tok) (op : XferOp) (aP aB : AReg) (d : Image) (table : Nat) : Res :=
  let p := (s.getA aP).toNat
  match s.xferChecks op d p (s.barOperand aB) with
  | .error t => .trap t
  | .ok side =>
    if usesList op.kind then
      match s.poolRead (p / 2 ^ 23) (4 * tdRows d) 4 with
      | .bytes b =>
        let l := fullWords b (tdRows d)
        if tdNdim d = 0 && l.any fun i => i ≠ 0 then .trap (trapOf codeRegRange)
        else s.xferQueue tk op d table side l
      | .locked => .block .other id
      | .trap t => .trap t
    else s.xferQueue tk op d table side []

theorem xferIssue_eq (tk : Tok) (op : XferOp) (td : Fin 64) (aP aB : AReg) (s : State) :
    xferIssue tk op td aP aB s = runWord tk [refA aP, refA aB] s fun s =>
      if 16 ≤ s.xq.length then .block .other id else s.withDesc td (s.xferWith tk op aP aB) := rfl

section Checked
variable {s : State} {tk : Tok} {op : XferOp} {aP aB : AReg} {d : Image} {table : Nat}

theorem State.xferWith_error {t : TrapReq} (h : s.xferChecks op d (s.getA aP).toNat (s.barOperand aB) = .error t) :
    s.xferWith tk op aP aB d table = .trap t := by
  simp only [State.xferWith, h]

variable {side : XferSide} (h : s.xferChecks op d (s.getA aP).toNat (s.barOperand aB) = .ok side)
include h

theorem State.xferWith_plain (hk : usesList op.kind = false) : s.xferWith tk op aP aB d table = s.xferQueue tk op d table side [] := by
  simp [State.xferWith, h, hk]

/-- `tgat` and `tsct` read their list; with no row dimension every index must be 0 (R164). -/
theorem State.xferWith_list (hk : usesList op.kind = true) {l : List Byte}
    (hl : s.poolRead ((s.getA aP).toNat / 2 ^ 23) (4 * tdRows d) 4 = .bytes l)
    (hz : tdNdim d = 0 → ∀ i ∈ fullWords l (tdRows d), i = 0) :
    s.xferWith tk op aP aB d table = s.xferQueue tk op d table side (fullWords l (tdRows d)) := by
  have hno : (decide (tdNdim d = 0) && (fullWords l (tdRows d)).any fun i => decide (i ≠ 0)) = false := by
    simpa using hz
  simp only [State.xferWith, h, hk, hl, if_true]
  exact if_neg (by rw [hno]; exact Bool.false_ne_true)

end Checked

theorem State.barOperand_of_apart {u s : State} (h : u.apart = s.apart) (aB : AReg) : u.barOperand aB = s.barOperand aB := by
  rw [State.barOperand, State.getA_of_apart h]; rfl

theorem State.withDesc_bytes {s : State} {td : Fin 64} {b : List Byte} (k : Image → Nat → Res) (hns : partNs s.part ≠ 0)
    (hb : s.poolRead (s.crew.desctab.toNat + 64 * td.val) 64 64 = .bytes b) :
    s.withDesc td k = k (BitVec.ofNat 512 (leNat b)) (poolPlace s.part (s.crew.desctab.toNat + 64 * td.val)) := by
  simp [State.withDesc, hns, hb]

section Word
variable {i : Instr} {s : State} {tk : Tok} {op : XferOp} {td : Fin 64} {aP aB : AReg}
  (hi : exec i s = xferIssue tk op td aP aB s) (h : s.Clear tk)
include hi h

/-- A word whose queue is full waits (R155). -/
theorem xfer_full (hq : 16 ≤ s.xq.length) : Waits i s := by
  obtain ⟨v, hv, ha, hp⟩ := runWord_waits (reads := [refA aP, refA aB]) (k := .other) (note := id) h.toIssues
    (effect := fun s => if 16 ≤ s.xq.length then .block .other id else s.withDesc td (s.xferWith tk op aP aB))
    (if_pos (by rwa [State.xq_of_apart (s.apart_doPops _)])) rfl
  exact ⟨v, hi.trans hv, ha, hp⟩

variable (hq : s.xq.length < 16)
include hq

omit hi h in
/-- With room in its queue the word reads its descriptor. -/
theorem xferEffect_room : (if 16 ≤ (s.doPops (popsOf tk)).xq.length then Res.block .other id
      else (s.doPops (popsOf tk)).withDesc td ((s.doPops (popsOf tk)).xferWith tk op aP aB))
    = s.withDesc td ((s.doPops (popsOf tk)).xferWith tk op aP aB) := by
  rw [State.xq_of_apart (s.apart_doPops _), if_neg (by omega), State.withDesc_of_apart (s.apart_doPops _)]

/-- A crew with no S-partition has no descriptor table (R170). -/
theorem xfer_noTable (hns : partNs s.part = 0) : Traps i s (trapAt codePoolPart s.crew.desctab.toNat) :=
  hi.trans (runWord_trap h.toIssues ((xferEffect_room hq).trans (if_pos hns)))

theorem xfer_entryTrap (hns : partNs s.part ≠ 0) {t : TrapReq}
    (ht : s.poolRead (s.crew.desctab.toNat + 64 * td.val) 64 64 = .trap t) : Traps i s t :=
  hi.trans (runWord_trap h.toIssues ((xferEffect_room hq).trans (by simp [State.withDesc, hns, ht])))

variable (hns : partNs s.part ≠ 0) {b : List Byte} (hb : s.poolRead (s.crew.desctab.toNat + 64 * td.val) 64 64 = .bytes b)
include hns hb

/-- The first check that fails traps (R155). -/
theorem xfer_trap {t : TrapReq}
    (ht : s.xferChecks op (BitVec.ofNat 512 (leNat b)) (s.getA aP).toNat (s.barOperand aB) = .error t) : Traps i s t := by
  refine hi.trans (runWord_trap h.toIssues ((xferEffect_room hq).trans ((State.withDesc_bytes _ hns hb).trans
    (State.xferWith_error ?_))))
  rwa [State.xferChecks_of_apart (s.apart_doPops _), State.getA_doPops, State.barOperand_of_apart (s.apart_doPops _)]

variable {side : XferSide}
  (hok : s.xferChecks op (BitVec.ofNat 512 (leNat b)) (s.getA aP).toNat (s.barOperand aB) = .ok side)
include hok

omit hi h hq hns hb in
theorem State.xferChecks_doPops : (s.doPops (popsOf tk)).xferChecks op (BitVec.ofNat 512 (leNat b))
    ((s.doPops (popsOf tk)).getA aP).toNat ((s.doPops (popsOf tk)).barOperand aB) = .ok side := by
  rwa [State.xferChecks_of_apart (s.apart_doPops _), State.getA_doPops, State.barOperand_of_apart (s.apart_doPops _)]

theorem xfer_joins (hk : usesList op.kind = false) :
    Joins i s op (BitVec.ofNat 512 (leNat b)) (poolPlace s.part (s.crew.desctab.toNat + 64 * td.val)) side [] :=
  joins_of_xferQueue (hi.trans (xferIssue_eq ..)) h ((xferEffect_room hq).trans ((State.withDesc_bytes _ hns hb).trans
    (State.xferWith_plain (State.xferChecks_doPops hok) hk)))

theorem xfer_joins_list (hk : usesList op.kind = true) {l : List Byte}
    (hl : s.poolRead ((s.getA aP).toNat / 2 ^ 23) (4 * tdRows (BitVec.ofNat 512 (leNat b))) 4 = .bytes l)
    (hz : tdNdim (BitVec.ofNat 512 (leNat b)) = 0 → ∀ i ∈ fullWords l (tdRows (BitVec.ofNat 512 (leNat b))), i = 0) :
    Joins i s op (BitVec.ofNat 512 (leNat b)) (poolPlace s.part (s.crew.desctab.toNat + 64 * td.val)) side
      (fullWords l (tdRows (BitVec.ofNat 512 (leNat b)))) := by
  refine joins_of_xferQueue (hi.trans (xferIssue_eq ..)) h ((xferEffect_room hq).trans ((State.withDesc_bytes _ hns hb).trans
    (State.xferWith_list (State.xferChecks_doPops hok) hk ?_ hz)))
  rwa [State.poolRead_of_apart (s.apart_doPops _), State.getA_doPops]

end Word

/-! ### The checks of R155, one by one -/

/-- Step 1 passes: the type codes exist and are equal or converted, a transposition suits them, and a `tadd` can combine them. -/
theorem typeFault_eq_false_iff (op : XferOp) (d : Image) : typeFault op d = false ↔
    tdMfmt d ≠ 15 ∧ tdPfmt d ≠ 15 ∧ (tdMfmt d ≠ tdPfmt d → op.cv = true)
    ∧ (op.tr = true → typeBx (tdMfmt d) = false ∧ typeBx (tdPfmt d) = false
      ∧ typeWidth (if op.kind = .tst then tdPfmt d else tdMfmt d) = if op.tg then 16 else 8)
    ∧ (op.kind = .tadd → tdPfmt d = 0 ∨ tdPfmt d = 8 ∨ tdPfmt d = 12 ∧ tdCop d ≠ 0) := by
  grind [typeFault]

/-- Step 2 passes for `tld` and `tst`: the fields keep their limits. -/
theorem limitFault_box_iff {op : XferOp} (hk : op.kind = .tld ∨ op.kind = .tst) (d : Image) (a n : Nat) :
    limitFault op d a n = false ↔
      tdReserved d = false ∧ tdCop d ≠ 3 ∧ (tdNdim d < 1 → tdO1 d = 0 ∧ tdRows d ≤ 1) ∧ (tdNdim d < 2 → tdO2 d = 0)
      ∧ (tdNdim d < 3 → tdO3 d = 0)
      ∧ (typeBx (tdMfmt d) = true → tdO0 d % 32 = 0 ∧ tdCols d % 32 = 0 ∧ tdSize d 0 % 32 = 0)
      ∧ (typeBx (tdPfmt d) = true → (if op.tr then tdRows d else tdCols d) % 32 = 0) := by
  have hbox : usesBox op.kind = true := by rcases hk with hk | hk <;> rw [hk] <;> rfl
  have hlist : usesList op.kind = false := by rcases hk with hk | hk <;> rw [hk] <;> rfl
  grind [limitFault, tileDims]

/-- Step 2 passes for `tsend` and `tadd`. -/
theorem limitFault_sent_iff {op : XferOp} (hk : op.kind = .tsend ∨ op.kind = .tadd) (htr : op.tr = false) (d : Image) (a n : Nat) :
    limitFault op d a n = false ↔
      tdReserved d = false ∧ tdCop d ≠ 3 ∧ (typeBx (tdPfmt d) = true → tdCols d % 32 = 0) ∧ tdBase d < 2 ^ 23
      ∧ a < 2 ^ 31 ∧ a / 2 ^ 23 < n ∧ (op.kind = .tadd → tdRows d * tdCols d ≤ 16384) := by
  have hbox : usesBox op.kind = false := by rcases hk with hk | hk <;> rw [hk] <;> rfl
  have hlist : usesList op.kind = false := by rcases hk with hk | hk <;> rw [hk] <;> rfl
  grind [limitFault, tileDims]

theorem tdNdim_lt (d : Image) : tdNdim d < 4 := by
  rw [tdNdim, field]
  omega

/-- Step 3 for a format: the base, and where the box is walked the strides in use, are multiples of its unit. -/
def Aligned (d : Image) (ty : Nat) (strides : Bool) : Prop :=
  tdBase d % addrUnit ty = 0
  ∧ (strides = true → ∀ k, k ≤ tdNdim d → ¬ (k = 0 ∧ typeBx (tdMfmt d) = true) → tdStride d k % (addrUnit ty : Int) = 0)

/-- The test of step 3 that names the base. -/
theorem alignTest_eq_false_iff (d : Image) (ty : Nat) (box : Bool) :
    (tdBase d % addrUnit ty ≠ 0 || (box && (List.range 4).any fun i =>
      i ≤ tdNdim d && !(i = 0 && typeBx (tdMfmt d)) && tdStride d i % (addrUnit ty : Int) ≠ 0)) = false ↔ Aligned d ty box := by
  have hd := tdNdim_lt d
  simp only [Aligned, Bool.or_eq_false_iff, Bool.and_eq_false_iff, List.any_eq_false, List.mem_range]
  grind

theorem alignFault_misaligned {op : XferOp} {d : Image} (a : Nat)
    (h : ¬ Aligned d (if usesBox op.kind then tdMfmt d else tdPfmt d) (usesBox op.kind)) : alignFault op d a = some (tdBase d) := by
  rw [← alignTest_eq_false_iff, Bool.not_eq_false] at h
  exact if_pos h

theorem alignFault_aligned {op : XferOp} {d : Image} (a : Nat)
    (h : Aligned d (if usesBox op.kind then tdMfmt d else tdPfmt d) (usesBox op.kind)) : alignFault op d a =
      if op.kind = .tcrc || op.rg then none
      else if a % 2 ^ 23 % 64 ≠ 0 then some (if usesList op.kind || op.kind = .tsend || op.kind = .tadd then a % 2 ^ 23 else a)
      else if usesList op.kind && a / 2 ^ 23 % 4 ≠ 0 then some (a / 2 ^ 23)
      else none := by
  rw [← alignTest_eq_false_iff] at h
  exact if_neg (by rw [h]; exact Bool.false_ne_true)

/-! ### Step 4 and step 5: places and barriers (R80, R94) -/

theorem poolCheck_aligned (part : XWord) {a align : Nat} (n : Nat) (h : a % align = 0) : poolCheck part a n align =
    if 2 ^ 23 < a + n then some (trapAt codePoolRange a)
    else if a < sBegin part ∨ allotEnd part < a + n then some (trapAt codePoolPart a) else none := by
  simp [poolCheck, h]

theorem atomCheck_of_pool {part : XWord} {a n align : Nat} (h : poolCheck part a n align = none) :
    atomCheck part a n align = if a < aBegin part then some (trapAt codeAtomPlace a) else none := by
  rw [atomCheck, h]
  rfl

theorem atomCheck_of_trap {part : XWord} {a n align : Nat} {t : TrapReq} (h : poolCheck part a n align = some t) :
    atomCheck part a n align = some t := by
  rw [atomCheck, h]
  rfl

/-- A barrier's place passes its checks. -/
def BarOk (part : XWord) (v : Nat) : Prop := v < 2 ^ 23 ∧ atomCheck part v 16 16 = none

theorem barAt_range {part : XWord} {core : CoreId} {v : Nat} (h : 2 ^ 23 ≤ v) :
    barAt part core v = .error (trapOf codeRegRange) := if_pos h

theorem barAt_trap {part : XWord} {core : CoreId} {v : Nat} {t : TrapReq} (h : v < 2 ^ 23) (ht : atomCheck part v 16 16 = some t) :
    barAt part core v = .error t := by
  rw [barAt, if_neg (by omega), ht]

theorem barAt_ok {part : XWord} {core : CoreId} {v : Nat} (h : BarOk part v) :
    barAt part core v = .ok (some (core, poolPlace part v)) := by
  rw [barAt, if_neg (by have := h.1; omega), h.2]

/-- A barrier that is named and passes its checks is the transfer's. -/
theorem barOf_ok {part : XWord} {core : CoreId} {zeroIsNone : Bool} {bar : Option Nat}
    (h : ∀ v, bar = some v → (zeroIsNone = true → v ≠ 0) → BarOk part v) :
    barOf part core zeroIsNone bar =
      .ok ((bar.filter fun v => !zeroIsNone || v ≠ 0).map fun v => (core, poolPlace part v)) := by
  cases bar with
  | none => rfl
  | some v =>
    by_cases hz : zeroIsNone = true ∧ v = 0
    · obtain ⟨rfl, rfl⟩ := hz
      rfl
    · have hno : (zeroIsNone && decide (v = 0)) = false := by simpa using hz
      have hyes : (!zeroIsNone || decide (v ≠ 0)) = true := by simpa [Decidable.imp_iff_not_or] using hz
      rw [barOf, if_neg (by rw [hno]; exact Bool.false_ne_true), barAt_ok (h v rfl fun hzero hv => hz ⟨hzero, hv⟩),
        Option.filter_some, if_pos hyes]
      rfl

/-- A barrier that is named is checked. -/
theorem barOf_named (part : XWord) (core : CoreId) {zeroIsNone : Bool} {v : Nat} (h : zeroIsNone = true → v ≠ 0) :
    barOf part core zeroIsNone (some v) = barAt part core v := by
  rw [barOf, if_neg (by simpa using h)]

/-! ### The checks in their order -/

section Checks
variable {s : State} {op : XferOp} {d : Image} {a : Nat} {bar : Option Nat}

/-- A word with no ring begins with step 1. -/
theorem State.xferChecks_noRing (hrg : op.rg = false) : s.xferChecks op d a bar =
    if typeFault op d then .error (trapOf codeIllegalType)
    else if limitFault op d a s.teamSize then .error (trapOf codeRegRange)
    else match alignFault op d a with
      | some v => .error (trapAt codeAlign v)
      | none => if usesBox op.kind then s.localSide op d a bar none else s.remoteSide op d a bar := by
  simp only [State.xferChecks, State.xferRing, hrg] <;> rfl

variable (hrg : op.rg = false)
include hrg

theorem State.xferChecks_type (ht : typeFault op d = true) :
    s.xferChecks op d a bar = .error (trapOf codeIllegalType) := by
  rw [State.xferChecks_noRing hrg, if_pos ht]

variable (ht : typeFault op d = false)
include ht

theorem State.xferChecks_limit (hl : limitFault op d a s.teamSize = true) :
    s.xferChecks op d a bar = .error (trapOf codeRegRange) := by
  rw [State.xferChecks_noRing hrg, if_neg (by simp [ht]), if_pos hl]

variable (hl : limitFault op d a s.teamSize = false)
include hl

theorem State.xferChecks_align {v : Nat} (hv : alignFault op d a = some v) :
    s.xferChecks op d a bar = .error (trapAt codeAlign v) := by
  rw [State.xferChecks_noRing hrg, if_neg (by simp [ht]), if_neg (by simp [hl]), hv]

theorem State.xferChecks_aligned (hv : alignFault op d a = none) : s.xferChecks op d a bar =
    if usesBox op.kind then s.localSide op d a bar none else s.remoteSide op d a bar := by
  rw [State.xferChecks_noRing hrg, if_neg (by simp [ht]), if_neg (by simp [hl]), hv]

end Checks

/-! ### A transfer within the crew: `tld` and `tst` (R155 step 4 and 5) -/

section Local
variable {s : State} {op : XferOp} {d : Image} {a : Nat} {bar : Option Nat} (hk : op.kind = .tld ∨ op.kind = .tst) (hrg : op.rg = false)
  (h48 : a < 2 ^ 48)
include hk hrg h48

theorem State.localSide_eq : s.localSide op d a bar none =
    match poolCheck s.part a (tileSpan (tdPfmt d) (tdRows d * tdCols d)) 64 with
    | some t => .error t
    | none => match barOf s.part s.cur.core false bar with
      | .error t => .error t
      | .ok b =>
        .ok { src := poolPlace s.part a, dstCore := s.cur.core, dst := poolPlace s.part a,
              hdr := poolPlace s.part (a + headerOff (tdPfmt d) (tdRows d * tdCols d)), team := none, bar := b, ring := none } := by
  have hlist : usesList op.kind = false := by rcases hk with hk | hk <;> rw [hk] <;> rfl
  have hcrc : op.kind ≠ .tcrc := by rcases hk with hk | hk <;> rw [hk] <;> decide
  have hcpy : op.kind ≠ .tcpy := by rcases hk with hk | hk <;> rw [hk] <;> decide
  have hoff : a % 2 ^ 48 = a := Nat.mod_eq_of_lt h48
  simp only [State.localSide, hlist, hcrc, hcpy, hrg, hoff, if_false, Bool.false_eq_true, decide_false, Bool.or_false]
  cases poolCheck s.part a (tileSpan (tdPfmt d) (tdRows d * tdCols d)) 64 <;> rfl

omit h48 in
/-- Step 3 for the tile: its offset. -/
theorem alignFault_box (hal : Aligned d (tdMfmt d) true) : alignFault op d a = if a % 64 ≠ 0 then some a else none := by
  have hbox : usesBox op.kind = true := by rcases hk with hk | hk <;> rw [hk] <;> rfl
  have hlist : usesList op.kind = false := by rcases hk with hk | hk <;> rw [hk] <;> rfl
  have hcrc : op.kind ≠ .tcrc := by rcases hk with hk | hk <;> rw [hk] <;> decide
  have hsent : op.kind ≠ .tsend ∧ op.kind ≠ .tadd := by rcases hk with hk | hk <;> rw [hk] <;> decide
  rw [alignFault_aligned a (by rw [hbox]; exact hal)]
  simp [hlist, hcrc, hrg, hsent.1, hsent.2, show a % 8388608 % 64 = a % 64 by omega]

variable (ht : typeFault op d = false) (hl : limitFault op d a s.teamSize = false) (hal : Aligned d (tdMfmt d) true)
include ht hl hal

omit h48 in
theorem State.xferChecks_box_misaligned (hp : a % 64 ≠ 0) : s.xferChecks op d a bar = .error (trapAt codeAlign a) :=
  State.xferChecks_align hrg ht hl ((alignFault_box hk hrg hal).trans (if_pos hp))

variable (hp : a % 64 = 0)
include hp

omit h48 in
theorem State.xferChecks_local : s.xferChecks op d a bar = s.localSide op d a bar none := by
  rw [State.xferChecks_aligned hrg ht hl ((alignFault_box hk hrg hal).trans (if_neg (not_not.2 hp))), if_pos]
  rcases hk with hk | hk <;> rw [hk] <;> rfl

theorem State.xferChecks_local_pool {t : TrapReq} (h : poolCheck s.part a (tileSpan (tdPfmt d) (tdRows d * tdCols d)) 64 = some t) :
    s.xferChecks op d a bar = .error t := by
  rw [State.xferChecks_local hk hrg ht hl hal hp, State.localSide_eq hk hrg h48, h]

variable (hpool : poolCheck s.part a (tileSpan (tdPfmt d) (tdRows d * tdCols d)) 64 = none)
include hpool

theorem State.xferChecks_local_bar {t : TrapReq} (h : barOf s.part s.cur.core false bar = .error t) :
    s.xferChecks op d a bar = .error t := by
  rw [State.xferChecks_local hk hrg ht hl hal hp, State.localSide_eq hk hrg h48, hpool, h]

theorem State.xferChecks_local_ok (h : ∀ v, bar = some v → BarOk s.part v) : s.xferChecks op d a bar =
    .ok { src := poolPlace s.part a, dstCore := s.cur.core, dst := poolPlace s.part a,
          hdr := poolPlace s.part (a + headerOff (tdPfmt d) (tdRows d * tdCols d)), team := none,
          bar := bar.map fun v => (s.cur.core, poolPlace s.part v), ring := none } := by
  have hbar := barOf_ok (core := s.cur.core) (zeroIsNone := false) fun v hv _ => h v hv
  rw [State.xferChecks_local hk hrg ht hl hal hp, State.localSide_eq hk hrg h48, hpool, hbar]
  cases bar <;> rfl

end Local

/-! ### A transfer to a crew of the team: `tsend` and `tadd` (R162, R163) -/

section Remote
variable {s : State} {op : XferOp} {d : Image} {a : Nat} {bar : Option Nat} (hk : op.kind = .tsend ∨ op.kind = .tadd)
  (hrg : op.rg = false)

/-- The check of the place at the destination. -/
def farCheck (k : XferKind) (part : XWord) (off span : Nat) : Option TrapReq :=
  if k = .tadd then atomCheck part off span 64 else poolCheck part off span 64

theorem farCheck_pool {part : XWord} {off span : Nat} {t : TrapReq} (k : XferKind) (h : poolCheck part off span 64 = some t) :
    farCheck k part off span = some t := by
  rw [farCheck, atomCheck_of_trap h, h, ite_self]

theorem farCheck_place {part : XWord} {off span : Nat} {k : XferKind} (h : poolCheck part off span 64 = none) :
    farCheck k part off span = if k = .tadd ∧ off < aBegin part then some (trapAt codeAtomPlace off) else none := by
  rw [farCheck, atomCheck_of_pool h, h]
  by_cases hk : k = .tadd <;> simp [hk]

include hk hrg

/-- Step 3 for the tile: its offset in the far pool. -/
theorem alignFault_sent (hal : Aligned d (tdPfmt d) false) :
    alignFault op d a = if a % 2 ^ 23 % 64 ≠ 0 then some (a % 2 ^ 23) else none := by
  have hbox : usesBox op.kind = false := by rcases hk with hk | hk <;> rw [hk] <;> rfl
  have hlist : usesList op.kind = false := by rcases hk with hk | hk <;> rw [hk] <;> rfl
  have hcrc : op.kind ≠ .tcrc := by rcases hk with hk | hk <;> rw [hk] <;> decide
  rw [alignFault_aligned a (by rw [hbox]; exact hal)]
  simp [hlist, hcrc, hrg, hk]

variable (ht : typeFault op d = false) (hl : limitFault op d a s.teamSize = false) (hal : Aligned d (tdPfmt d) false)
include ht hl hal

theorem State.xferChecks_sent_misaligned (hp : a % 2 ^ 23 % 64 ≠ 0) :
    s.xferChecks op d a bar = .error (trapAt codeAlign (a % 2 ^ 23)) :=
  State.xferChecks_align hrg ht hl ((alignFault_sent hk hrg hal).trans (if_pos hp))

variable (hp : a % 2 ^ 23 % 64 = 0)
include hp

theorem State.xferChecks_remote : s.xferChecks op d a bar = s.remoteSide op d a bar := by
  rw [State.xferChecks_aligned hrg ht hl ((alignFault_sent hk hrg hal).trans (if_neg (not_not.2 hp))), if_neg]
  rcases hk with hk | hk <;> rw [hk] <;> exact Bool.false_ne_true

/-- The tile that is sent lies in the pool. -/
theorem State.xferChecks_remote_pool {t : TrapReq}
    (h : poolCheck s.part (tdBase d) (tileSpan (tdPfmt d) (tdRows d * tdCols d)) 1 = some t) :
    s.xferChecks op d a bar = .error t := by
  rw [State.xferChecks_remote hk hrg ht hl hal hp, State.remoteSide, h]

variable (hpool : poolCheck s.part (tdBase d) (tileSpan (tdPfmt d) (tdRows d * tdCols d)) 1 = none)
include hpool

/-- The member of the team that is named has left it. -/
theorem State.xferChecks_remote_gone (h : s.teamMember (a / 2 ^ 23) = none) :
    s.xferChecks op d a bar = .error (trapOf codeScope) := by
  rw [State.xferChecks_remote hk hrg ht hl hal hp, State.remoteSide, hpool, h]

variable {q : CoreId × CrewIx} (hq : s.teamMember (a / 2 ^ 23) = some q)
include hq

theorem State.xferChecks_member : s.xferChecks op d a bar =
    match farCheck op.kind (s.crewAt q.1 q.2).part (a % 2 ^ 23) (tileSpan (tdPfmt d) (tdRows d * tdCols d)) with
    | some t => .error t
    | none => match barOf (s.crewAt q.1 q.2).part q.1 true bar with
      | .error t => .error t
      | .ok b =>
        .ok { src := poolPlace s.part (tdBase d), dstCore := q.1, dst := poolPlace (s.crewAt q.1 q.2).part (a % 2 ^ 23),
              hdr := poolPlace (s.crewAt q.1 q.2).part (a % 2 ^ 23 + headerOff (tdPfmt d) (tdRows d * tdCols d)),
              team := some (a / 2 ^ 23), bar := b, ring := none } := by
  rw [State.xferChecks_remote hk hrg ht hl hal hp, State.remoteSide, hpool, hq]
  rfl

theorem State.xferChecks_far {t : TrapReq}
    (h : farCheck op.kind (s.crewAt q.1 q.2).part (a % 2 ^ 23) (tileSpan (tdPfmt d) (tdRows d * tdCols d)) = some t) :
    s.xferChecks op d a bar = .error t := by
  rw [State.xferChecks_member hk hrg ht hl hal hp hpool hq, h]

variable (hfar : farCheck op.kind (s.crewAt q.1 q.2).part (a % 2 ^ 23) (tileSpan (tdPfmt d) (tdRows d * tdCols d)) = none)
include hfar

theorem State.xferChecks_far_bar {t : TrapReq} (h : barOf (s.crewAt q.1 q.2).part q.1 true bar = .error t) :
    s.xferChecks op d a bar = .error t := by
  rw [State.xferChecks_member hk hrg ht hl hal hp hpool hq, hfar, h]

theorem State.xferChecks_far_ok (h : ∀ v, bar = some v → v ≠ 0 → BarOk (s.crewAt q.1 q.2).part v) : s.xferChecks op d a bar =
    .ok { src := poolPlace s.part (tdBase d), dstCore := q.1, dst := poolPlace (s.crewAt q.1 q.2).part (a % 2 ^ 23),
          hdr := poolPlace (s.crewAt q.1 q.2).part (a % 2 ^ 23 + headerOff (tdPfmt d) (tdRows d * tdCols d)),
          team := some (a / 2 ^ 23),
          bar := (bar.filter fun v => v ≠ 0).map fun v => (q.1, poolPlace (s.crewAt q.1 q.2).part v), ring := none } := by
  have hbar := barOf_ok (core := q.1) (zeroIsNone := true) fun v hv hz => h v hv (hz rfl)
  rw [State.xferChecks_member hk hrg ht hl hal hp hpool hq, hfar, hbar]
  rfl

end Remote

/-! ### The words that check a box, and the words that send a tile -/

/-- The word traps with a code and a place. -/
def TrapsAt (i : Instr) (s : State) (code : BitVec 8) (a : Nat) : Prop :=
  Traps i s { code := code, info := 0, addr := BitVec.ofNat 64 a }

/-- A barrier that does not pass traps: beyond 23 bits, or as an atomic place. -/
def BarTraps (i : Instr) (s : State) (part : XWord) (v : Nat) : Prop :=
  (2 ^ 23 ≤ v → TrapsAt i s 0x03 0) ∧ ∀ x, v < 2 ^ 23 → atomCheck part v 16 16 = some x → Traps i s x

/-- A word that any error of a barrier traps has the barrier checked. -/
theorem barTraps_of {i : Instr} {s : State} {part : XWord} {core : CoreId} {v : Nat}
    (h : ∀ t, barAt part core v = .error t → Traps i s t) : BarTraps i s part v :=
  ⟨fun hv => h _ (barAt_range hv), fun _ hv hx => h _ (barAt_trap hv hx)⟩

/-- Step 1 for a box: `readFrom` is the format that a transposition reads. -/
def BoxTyped (op : XferOp) (d : Image) (readFrom : Nat) : Prop :=
  tdMfmt d ≠ 15 ∧ tdPfmt d ≠ 15 ∧ (tdMfmt d ≠ tdPfmt d → op.cv = true)
    ∧ (op.tr = true → typeBx (tdMfmt d) = false ∧ typeBx (tdPfmt d) = false ∧ typeWidth readFrom = if op.tg then 16 else 8)

/-- Step 2 for a box. -/
def BoxLimited (op : XferOp) (d : Image) : Prop :=
  tdReserved d = false ∧ tdCop d ≠ 3 ∧ (tdNdim d < 1 → tdO1 d = 0 ∧ tdRows d ≤ 1) ∧ (tdNdim d < 2 → tdO2 d = 0)
    ∧ (tdNdim d < 3 → tdO3 d = 0)
    ∧ (typeBx (tdMfmt d) = true → tdO0 d % 32 = 0 ∧ tdCols d % 32 = 0 ∧ tdSize d 0 % 32 = 0)
    ∧ (typeBx (tdPfmt d) = true → (if op.tr then tdRows d else tdCols d) % 32 = 0)

/-- `tld` and `tst` with no ring. -/
def BoxWord (i : Instr) (s : State) (op : XferOp) (d : Image) (table p : Nat) (bar : Option Nat) (readFrom : Nat) : Prop :=
  let span := tileSpan (tdPfmt d) (tdRows d * tdCols d)
  (¬ BoxTyped op d readFrom → TrapsAt i s 0x02 0) ∧ (BoxTyped op d readFrom → ¬ BoxLimited op d → TrapsAt i s 0x03 0)
  ∧ (BoxTyped op d readFrom → BoxLimited op d →
    (¬ Aligned d (tdMfmt d) true → TrapsAt i s 0x08 (tdBase d)) ∧ (Aligned d (tdMfmt d) true →
    (p % 64 ≠ 0 → TrapsAt i s 0x08 p)
    ∧ (p % 64 = 0 → 2 ^ 23 < p + span → TrapsAt i s 0x06 p)
    ∧ (p % 64 = 0 → p + span ≤ 2 ^ 23 → (p < sBegin s.part ∨ allotEnd s.part < p + span) → TrapsAt i s 0x05 p)
    ∧ (p % 64 = 0 → p + span ≤ 2 ^ 23 → sBegin s.part ≤ p → p + span ≤ allotEnd s.part →
      (∀ v, bar = some v → BarTraps i s s.part v)
      ∧ ((∀ v, bar = some v → BarOk s.part v) →
          Joins i s op d table
            { src := poolPlace s.part p, dstCore := s.cur.core, dst := poolPlace s.part p,
              hdr := poolPlace s.part (p + headerOff (tdPfmt d) (tdRows d * tdCols d)), team := none,
              bar := bar.map (fun v => (s.cur.core, poolPlace s.part v)), ring := none } []))))

/-- Step 1 for a tile that is sent. -/
def SentTyped (k : XferKind) (d : Image) : Prop :=
  tdMfmt d ≠ 15 ∧ tdPfmt d ≠ 15 ∧ tdMfmt d = tdPfmt d
    ∧ (k = .tadd → tdPfmt d = 0 ∨ tdPfmt d = 8 ∨ (tdPfmt d = 12 ∧ tdCop d ≠ 0))

/-- Step 2 for a tile that is sent. -/
def SentLimited (k : XferKind) (d : Image) (p teamsz : Nat) : Prop :=
  tdReserved d = false ∧ tdCop d ≠ 3 ∧ (typeBx (tdPfmt d) = true → tdCols d % 32 = 0) ∧ tdBase d < 2 ^ 23
    ∧ p < 2 ^ 31 ∧ p / 2 ^ 23 < teamsz ∧ (k = .tadd → tdRows d * tdCols d ≤ 16384)

/-- `tsend` and `tadd`: the place and the barrier at the destination crew. -/
def SentWord (i : Instr) (s : State) (k : XferKind) (d : Image) (table p : Nat) (bar : Option Nat) : Prop :=
  let off := p % 2 ^ 23
  let span := tileSpan (tdPfmt d) (tdRows d * tdCols d)
  (¬ SentTyped k d → TrapsAt i s 0x02 0) ∧ (SentTyped k d → ¬ SentLimited k d p s.teamSize → TrapsAt i s 0x03 0)
  ∧ (SentTyped k d → SentLimited k d p s.teamSize →
    (¬ Aligned d (tdPfmt d) false → TrapsAt i s 0x08 (tdBase d)) ∧ (Aligned d (tdPfmt d) false →
    (off % 64 ≠ 0 → TrapsAt i s 0x08 off)
    ∧ (off % 64 = 0 → (∀ x, poolCheck s.part (tdBase d) span 1 = some x → Traps i s x)
      ∧ (poolCheck s.part (tdBase d) span 1 = none →
        (s.teamMember (p / 2 ^ 23) = none → TrapsAt i s 0x42 0)
        ∧ ∀ q, s.teamMember (p / 2 ^ 23) = some q →
          let part := (s.crewAt q.1 q.2).part
          (∀ x, poolCheck part off span 64 = some x → Traps i s x)
          ∧ (poolCheck part off span 64 = none →
            (k = .tadd → off < aBegin part → TrapsAt i s 0x07 off)
            ∧ ((k = .tadd → aBegin part ≤ off) →
              (∀ v, bar = some v → v ≠ 0 → BarTraps i s part v)
              ∧ ((∀ v, bar = some v → v ≠ 0 → BarOk part v) →
                  Joins i s { kind := k, tr := false, tg := false, cv := false, ck := false, rg := false } d table
                   { src := poolPlace s.part (tdBase d), dstCore := q.1, dst := poolPlace part off,
                     hdr := poolPlace part (off + headerOff (tdPfmt d) (tdRows d * tdCols d)), team := some (p / 2 ^ 23),
                     bar := (bar.filter fun v => v ≠ 0).map (fun v => (q.1, poolPlace part v)), ring := none } [])))))))

section Word
variable {i : Instr} {s : State} {op : XferOp} {d : Image} {table p : Nat} {bar : Option Nat}
  (herr : ∀ t, s.xferChecks op d p bar = .error t → Traps i s t)
  (hok : ∀ side, s.xferChecks op d p bar = .ok side → Joins i s op d table side [])
include herr hok

/-- The outcomes of `tld` and `tst`, check by check. -/
theorem boxWord (hk : op.kind = .tld ∨ op.kind = .tst) (hrg : op.rg = false) (h48 : p < 2 ^ 48) {readFrom : Nat}
    (hread : readFrom = if op.kind = .tst then tdPfmt d else tdMfmt d) : BoxWord i s op d table p bar readFrom := by
  have hbox : usesBox op.kind = true := by rcases hk with hk | hk <;> rw [hk] <;> rfl
  have htype : typeFault op d = false ↔ BoxTyped op d readFrom := by
    have hadd : op.kind ≠ .tadd := by rcases hk with hk | hk <;> rw [hk] <;> decide
    rw [typeFault_eq_false_iff, hread]
    simp [hadd, BoxTyped]
  have hlimit : limitFault op d p s.teamSize = false ↔ BoxLimited op d := limitFault_box_iff hk d p s.teamSize
  refine ⟨fun ht => herr _ (State.xferChecks_type hrg (by simpa using mt htype.1 ht)), fun ht hl =>
    herr _ (State.xferChecks_limit hrg (htype.2 ht) (by simpa using mt hlimit.1 hl)), fun ht hl => ?_⟩
  replace ht := htype.2 ht
  replace hl := hlimit.2 hl
  refine ⟨fun hal => herr _ (State.xferChecks_align hrg ht hl (alignFault_misaligned p (by rwa [hbox]))), fun hal => ?_⟩
  refine ⟨fun hp => herr _ (State.xferChecks_box_misaligned hk hrg ht hl hal hp), fun hp hfar =>
    herr _ (State.xferChecks_local_pool hk hrg h48 ht hl hal hp ((poolCheck_aligned s.part _ hp).trans (if_pos hfar))),
    fun hp hnear hout => herr _ (State.xferChecks_local_pool hk hrg h48 ht hl hal hp ((poolCheck_aligned s.part _ hp).trans
      ((if_neg (not_lt.2 hnear)).trans (if_pos hout)))), fun hp hnear hlo hhi => ?_⟩
  have hpool : poolCheck s.part p (tileSpan (tdPfmt d) (tdRows d * tdCols d)) 64 = none :=
    (poolCheck_aligned s.part _ hp).trans ((if_neg (not_lt.2 hnear)).trans (if_neg (by omega)))
  refine ⟨fun v hv => barTraps_of (core := s.cur.core) fun t ht' =>
    herr _ (State.xferChecks_local_bar hk hrg h48 ht hl hal hp hpool ?_), fun hbar =>
    hok _ (State.xferChecks_local_ok hk hrg h48 ht hl hal hp hpool hbar)⟩
  rw [hv]
  exact ht'

/-- The outcomes of `tsend` and `tadd`, check by check. -/
theorem sentWord {k : XferKind} (hk : k = .tsend ∨ k = .tadd)
    (hop : op = { kind := k, tr := false, tg := false, cv := false, ck := false, rg := false }) : SentWord i s k d table p bar := by
  have hkind : op.kind = k := by rw [hop]
  have hrg : op.rg = false := by rw [hop]
  have htr : op.tr = false := by rw [hop]
  have hko : op.kind = .tsend ∨ op.kind = .tadd := by rwa [hkind]
  have hbox : usesBox op.kind = false := by rcases hko with hk | hk <;> rw [hk] <;> rfl
  have htype : typeFault op d = false ↔ SentTyped k d := by
    have hcv : op.cv = false := by rw [hop]
    rw [typeFault_eq_false_iff, hkind]
    simp [SentTyped, hcv, htr]
  have hlimit : limitFault op d p s.teamSize = false ↔ SentLimited k d p s.teamSize := by
    rw [limitFault_sent_iff hko htr, hkind]
    rfl
  refine ⟨fun ht => herr _ (State.xferChecks_type hrg (by simpa using mt htype.1 ht)), fun ht hl =>
    herr _ (State.xferChecks_limit hrg (htype.2 ht) (by simpa using mt hlimit.1 hl)), fun ht hl => ?_⟩
  replace ht := htype.2 ht
  replace hl := hlimit.2 hl
  refine ⟨fun hal => herr _ (State.xferChecks_align hrg ht hl (alignFault_misaligned p (by rwa [hbox]))), fun hal => ?_⟩
  refine ⟨fun hp => herr _ (State.xferChecks_sent_misaligned hko hrg ht hl hal hp), fun hp =>
    ⟨fun x hx => herr _ (State.xferChecks_remote_pool hko hrg ht hl hal hp hx), fun hpool =>
    ⟨fun hq => herr _ (State.xferChecks_remote_gone hko hrg ht hl hal hp hpool hq), fun q hq => ?_⟩⟩⟩
  refine ⟨fun x hx => herr _ (State.xferChecks_far hko hrg ht hl hal hp hpool hq (farCheck_pool _ hx)), fun hfar =>
    ⟨fun hadd hlt => herr _ (State.xferChecks_far hko hrg ht hl hal hp hpool hq
      ((farCheck_place hfar).trans (if_pos ⟨hkind.trans hadd, hlt⟩))), fun hplace => ?_⟩⟩
  have hnone := (farCheck_place (k := op.kind) hfar).trans (if_neg fun hx => absurd (hplace (hkind ▸ hx.1)) (not_le.2 hx.2))
  refine ⟨fun v hv hz => barTraps_of (core := q.1) fun t ht' =>
    herr _ (State.xferChecks_far_bar hko hrg ht hl hal hp hpool hq hnone ?_), fun hbar =>
    hop ▸ hok _ (State.xferChecks_far_ok hko hrg ht hl hal hp hpool hq hnone hbar)⟩
  rw [hv, barOf_named _ _ fun _ => hz]
  exact ht'

end Word

/-! ### A load into a ring's slot: the ring's checks come first (R155) -/

section Ring
variable {s : State} {op : XferOp} {d : Image} {a : Nat} {bar : Option Nat} (hrg : op.rg = true)
include hrg

theorem State.xferChecks_noSuchRing (ha : 16 ≤ a) : s.xferChecks op d a bar = .error (trapOf codeRegRange) := by
  have hring : s.xferRing op d a = .error (trapOf codeRegRange) := by
    rw [State.xferRing, hrg]
    exact dif_neg (by omega)
  rw [State.xferChecks, hring]

theorem State.xferRing_eq (h : a < 16) : s.xferRing op d a =
    if !(s.ring ⟨a, h⟩).set || rgFmt (s.ring ⟨a, h⟩).img ≠ tdPfmt d then .error (trapOf codeIllegalType)
    else if (tileDims op.tr d).1 ≠ rgRows (s.ring ⟨a, h⟩).img || (tileDims op.tr d).2 ≠ rgCols (s.ring ⟨a, h⟩).img then
      .error (trapOf codeRegRange)
    else .ok (some ⟨a, h⟩) := by
  rw [State.xferRing, hrg]
  exact dif_pos h

theorem State.xferChecks_ring_format (h : a < 16) (hr : (s.ring ⟨a, h⟩).set = false ∨ rgFmt (s.ring ⟨a, h⟩).img ≠ tdPfmt d) :
    s.xferChecks op d a bar = .error (trapOf codeIllegalType) := by
  rw [State.xferChecks, State.xferRing_eq hrg h, if_pos (by simpa using hr)]

theorem State.xferChecks_ring_shape (h : a < 16) (hset : (s.ring ⟨a, h⟩).set = true) (hf : rgFmt (s.ring ⟨a, h⟩).img = tdPfmt d)
    (hd : (if op.tr then (tdCols d, tdRows d) else (tdRows d, tdCols d)) ≠
      (rgRows (s.ring ⟨a, h⟩).img, rgCols (s.ring ⟨a, h⟩).img)) :
    s.xferChecks op d a bar = .error (trapOf codeRegRange) := by
  have hdims : (tileDims op.tr d).1 ≠ rgRows (s.ring ⟨a, h⟩).img ∨ (tileDims op.tr d).2 ≠ rgCols (s.ring ⟨a, h⟩).img := by
    rw [← not_and_or]
    exact fun heq => hd (Prod.ext heq.1 heq.2)
  rw [State.xferChecks, State.xferRing_eq hrg h, if_neg (by simp [hset, hf]), if_pos (by simpa using hdims)]

end Ring

/-! ### Translations entering a TLB (R290, R291) -/

/-- `u` is `s` but for the TLBs and the walk caches. -/
structure State.TlbOnly (s u : State) : Prop where
  cur : u.cur = s.cur
  mem : u.mem = s.mem
  crew : u.crew = s.crew
  seq : u.seq = s.seq
  pool : ∀ c, (u.core c).pool = (s.core c).pool
  locked : ∀ holder place n, u.here.lockedFor holder place n = s.here.lockedFor holder place n

theorem State.TlbOnly.refl (s : State) : s.TlbOnly s := ⟨rfl, rfl, rfl, rfl, fun _ => rfl, fun _ _ _ => rfl⟩

theorem State.TlbOnly.trans {s t u : State} (h : s.TlbOnly t) (k : t.TlbOnly u) : s.TlbOnly u :=
  ⟨k.cur.trans h.cur, k.mem.trans h.mem, k.crew.trans h.crew, k.seq.trans h.seq, fun c => (k.pool c).trans (h.pool c),
    fun a b c => (k.locked a b c).trans (h.locked a b c)⟩

theorem Core.inner_tlb (f : Core → List TlbEntry) (g : Core → List WalkEntry) (hf : ∀ c k v, f (c.setCrew k v) = f c)
    (hg : ∀ c k v, g (c.setCrew k v) = g c)
    (hf' : ∀ c q, f (c.setFwSeq q) = f c) (hg' : ∀ c q, g (c.setFwSeq q) = g c) :
    Core.Inner fun c => { c with tlb := f c, walks := g c } :=
  ⟨fun c k v => by rw [hf, hg]; rfl, fun _ _ => rfl, fun _ => rfl, fun c q => by rw [hf', hg']; rfl⟩

theorem State.tlbOnly_modHere (s : State) (f : Core → List TlbEntry) (g : Core → List WalkEntry)
    (hf : ∀ c k v, f (c.setCrew k v) = f c) (hg : ∀ c k v, g (c.setCrew k v) = g c)
    (hf' : ∀ c q, f (c.setFwSeq q) = f c) (hg' : ∀ c q, g (c.setFwSeq q) = g c) :
    s.TlbOnly (s.modHere fun c => { c with tlb := f c, walks := g c }) where
  cur := rfl
  mem := rfl
  crew := State.crew_modHere fun _ _ => rfl
  seq := State.seq_innerCore (Core.inner_tlb f g hf hg hf' hg') s
  pool c := by
    rw [State.modHere_eq]
    by_cases hc : s.cur.core = c
    · subst hc
      rw [State.core_setCore]
      rfl
    · rw [State.core_setCore_ne _ _ hc]
  locked holder place n := by
    rw [State.here_modHere]
    rfl

theorem State.tlbFill_tlbOnly (s : State) (unit : Nat) (tag : Option CtxId) (va : Nat) (x : Xlat) :
    s.TlbOnly (s.tlbFill s.cur.core unit tag va x) :=
  s.tlbOnly_modHere _ _ (fun _ _ _ => rfl) (fun _ _ _ => rfl) (fun _ _ => rfl) fun _ _ => rfl

theorem State.tlbNext_tlbOnly (s : State) (ctx : CtxId) (unit va : Nat) (x : Xlat) (acc : Access) (down : Bool) :
    s.TlbOnly (s.tlbNext ctx unit va x acc down) := by
  unfold State.tlbNext
  dsimp only
  split
  · exact .refl s
  · split
    · exact s.tlbFill_tlbOnly ..
    · exact .refl s

theorem State.tlbWalk_tlbOnly (s : State) (ctx : CtxId) (unit va : Nat) (x : Xlat) (acc : Access) (down : Bool) :
    s.TlbOnly (s.tlbWalk ctx unit va x acc down) :=
  (s.tlbFill_tlbOnly unit (some ctx) va x).trans (State.tlbNext_tlbOnly ..)

theorem State.tlbHere_tlbOnly (s : State) (va : Nat) (x : Xlat) (acc : Access) : s.TlbOnly (s.tlbHere va x acc) := by
  rw [State.tlbHere]
  cases s.cur.role with
  | l | c | s | hinge => exact s.tlbWalk_tlbOnly ..
  | x | fw => exact s.tlbFill_tlbOnly ..

/-! ### `ttouch` (R167) -/

section TlbOnly
variable {s t u : State} (h : s.TlbOnly t) (hu : u.apart = t.apart)
include h hu

theorem State.TlbOnly.getA_apart (r : AReg) : u.getA r = s.getA r := by
  rw [State.getA_of_apart hu, State.getA, h.crew, h.cur]
  rfl

theorem State.TlbOnly.xq_apart : u.xq = s.xq := by
  rw [State.xq_of_apart hu, State.xq, h.crew, h.cur]
  rfl

end TlbOnly

/-- A word that reads its descriptor and then changes only TLBs leaves the registers, the memories and the queue. -/
theorem tlbWord_answers {i : Instr} {s : State} {tk : Tok} {td : Fin 64} {fill : State → Image → Nat → State}
    (hi : exec i s = runWord tk [] s fun s => s.withDesc td fun d table => .done (fill s d table))
    (hfill : ∀ (s : State) d table, s.TlbOnly (fill s d table)) (h : s.Clear tk) {b : List Byte} (hns : partNs s.part ≠ 0)
    (hb : s.poolRead (s.crew.desctab.toNat + 64 * td.val) 64 64 = .bytes b) :
    Answers i s fun u => (s.inLine → u.pc = s.pc + 4) ∧ (∀ r, u.getA r = s.getA r) ∧ u.mem = s.mem
      ∧ (∀ c, (u.core c).pool = (s.core c).pool) ∧ u.xq = s.xq := by
  have hpops := s.apart_doPops (popsOf tk)
  have htlb := hfill (s.doPops (popsOf tk)) (BitVec.ofNat 512 (leNat b)) (poolPlace s.part (s.crew.desctab.toNat + 64 * td.val))
  obtain ⟨u, hrun, ha, hpc⟩ := runWord_answers (reads := []) (effect := fun s => s.withDesc td fun d table => .done (fill s d table)) h
    ((State.withDesc_of_apart hpops ..).trans (State.withDesc_bytes _ hns hb)) (congrArg Seq.loops htlb.seq)
  refine ⟨u, hi.trans hrun, hpc, fun r => ?_, ?_, fun c => ?_, ?_⟩
  · rw [htlb.getA_apart ha, State.getA_doPops]
  · rw [State.mem_of_apart ha, htlb.mem, State.mem_of_apart hpops]
  · rw [State.poolOf_of_apart ha, htlb.pool, State.poolOf_of_apart hpops]
  · rw [htlb.xq_apart ha, State.xq_of_apart hpops]

/-- `ttouch` changes nothing but a TLB. -/
theorem ttouch_answers {s : State} {tk : Tok} {td : Fin 64} {b : List Byte} (h : s.Clear tk) (hns : partNs s.part ≠ 0)
    (hb : s.poolRead (s.crew.desctab.toNat + 64 * td.val) 64 64 = .bytes b) :
    Answers (.ttouch tk td) s fun u => (s.inLine → u.pc = s.pc + 4) ∧ (∀ r, u.getA r = s.getA r) ∧ u.mem = s.mem
      ∧ (∀ c, (u.core c).pool = (s.core c).pool) ∧ u.xq = s.xq := by
  refine tlbWord_answers (show exec (.ttouch tk td) s = execTtouch tk td s from rfl) (fun t d _ => ?_) h hns hb
  split
  · exact t.tlbWalk_tlbOnly ..
  · split
    · exact t.tlbFill_tlbOnly ..
    · exact .refl t

/-! ### `tdesc` (R155, R166, R193) -/

/-- The effect of `tdesc`. -/
def State.copyDesc (s : State) (td : Fin 64) (aP : AReg) : Res :=
  let va := (s.getA aP).toNat
  if !s.xq.isEmpty then .block .other id
  else if partNs s.part = 0 then .trap (trapAt codePoolPart s.crew.desctab.toNat)
  else if va % 64 ≠ 0 then .trap (trapAt codeAlign va)
  else match s.memLoadBy s.seesCmd s.seesFarCmd va 64 with
    | .bytes b s => s.poolWriteAt (BitVec.ofNat 64 (s.crew.desctab.toNat + 64 * td.val)) b
    | .stored s => .done s
    | .trap t => .trap t
    | .wait note => .block .other note
    | .stop f => .stop f

theorem tdesc_eq (tk : Tok) (td : Fin 64) (aP : AReg) (s : State) :
    exec (.tdesc tk td aP) s = runWord tk [refA aP] s fun s => s.copyDesc td aP := rfl

@[simp] theorem length_loads (m : Global) (sees : GStore → Bool) (key : Option MemKey) (pa n : Nat) :
    (m.loads sees key pa n).length = n := by
  induction n generalizing pa with
  | zero => rfl
  | succ n ih => rw [Global.loads, List.length_cons, ih]

section Tdesc
variable {s : State} {tk : Tok} {td : Fin 64} {aP : AReg} (h : s.Clear tk)
include h

/-- `tdesc` waits for the transfers before it. -/
theorem tdesc_waits (hq : s.xq ≠ []) : Waits (.tdesc tk td aP) s := by
  obtain ⟨v, hv, ha, hp⟩ := runWord_waits (reads := [refA aP]) (k := .other) (note := id) h.toIssues
    (effect := fun s => s.copyDesc td aP)
    (if_pos (by rw [State.xq_of_apart (s.apart_doPops _)]; simpa using hq)) rfl
  exact ⟨v, (tdesc_eq ..).trans hv, ha, hp⟩

variable (hq : s.xq = []) (hns : partNs s.part ≠ 0)
include hq hns

omit h in
/-- With no transfer before it, and a table, it is the copy. -/
theorem State.copyDesc_doPops : (s.doPops (popsOf tk)).copyDesc td aP =
    if (s.getA aP).toNat % 64 ≠ 0 then .trap (trapAt codeAlign (s.getA aP).toNat)
    else match (s.doPops (popsOf tk)).memLoadBy (s.doPops (popsOf tk)).seesCmd (s.doPops (popsOf tk)).seesFarCmd (s.getA aP).toNat 64 with
      | .bytes b s => s.poolWriteAt (BitVec.ofNat 64 (s.crew.desctab.toNat + 64 * td.val)) b
      | .stored s => .done s
      | .trap t => .trap t
      | .wait note => .block .other note
      | .stop f => .stop f := by
  simp only [State.copyDesc, State.getA_doPops]
  rw [if_neg (by simp [State.xq_of_apart (s.apart_doPops _), hq]), if_neg (by rwa [State.part_of_apart (s.apart_doPops _)])]

theorem tdesc_misaligned (hp : (s.getA aP).toNat % 64 ≠ 0) : Traps (.tdesc tk td aP) s (trapAt codeAlign (s.getA aP).toNat) :=
  (tdesc_eq ..).trans (runWord_trap h.toIssues ((State.copyDesc_doPops hq hns).trans (if_pos hp)))

omit h hq hns in
/-- A load of local memory that translates, with its bytes: zeros of a dead page. -/
theorem State.memLoadBy_local {sees : GStore → Bool} {far : RemoteStore → Bool} {va n : Nat} {x : Xlat}
    (hx : s.translateHere va .read = .ok x)
    (hlocal : entryDead x.leaf2.entry = true
      ∨ entryRem x.leaf2.entry = false ∧ x.pa + n ≤ Config.hbmBytes ∧ s.mem.bad x.pa n = false) :
    s.memLoadBy sees far va n =
      .bytes (if entryDead x.leaf2.entry then List.replicate n 0 else s.mem.loads sees x.key x.pa n) (s.tlbHere va x .read) := by
  have hmem := (s.tlbHere_tlbOnly va x .read).mem
  simp only [State.memLoadBy, hx, hmem]
  by_cases hdead : entryDead x.leaf2.entry = true
  · rw [if_pos hdead, if_pos hdead]
  · obtain ⟨hrem, hpa, hbad⟩ := hlocal.resolve_left hdead
    rw [if_neg hdead, if_neg hdead, if_neg (by simp [hrem]), if_neg (by omega), if_neg (by simp [hbad])]

omit h hq hns in
/-- A write of the pool at an open place. -/
theorem State.poolWriteAt_open {off : Nat} {b : List Byte} (ho : s.PoolOpen off b.length) (hb : 0 < b.length) :
    s.poolWriteAt (BitVec.ofNat 64 off) b = .done (s.poolStore off b) := by
  have hoff : off + b.length ≤ 2 ^ 23 := by
    by_contra hfar
    have hchecked := ho.checked
    unfold poolCheck at hchecked
    split at hchecked
    · exact absurd hchecked (Option.some_ne_none _)
    · rw [if_pos (by omega)] at hchecked
      exact absurd hchecked (Option.some_ne_none _)
  have hnat : (BitVec.ofNat 64 off).toNat = off := by
    rw [BitVec.toNat_ofNat]
    omega
  rw [State.poolWriteAt, hnat, ho.checked]
  exact if_neg (by simp [ho.unlocked])

omit h hq hns in
theorem State.PoolOpen.of_apart_tlbOnly {t u : State} {off n : Nat} (ho : s.PoolOpen off n) (ht : t.apart = s.apart) (hu : t.TlbOnly u) :
    u.PoolOpen off n := by
  have hpart : u.part = s.part := by rw [State.part, hu.cur, hu.crew, ← State.part_of_apart ht]; rfl
  refine ⟨by rw [hpart, ho.checked], ?_⟩
  rw [hpart, hu.locked, State.lockedFor_of_apart ht, ho.unlocked]

/-- `tdesc` copies the bytes that its load gives into the table's entry. -/
theorem tdesc_answers (hr : s.cur.role ≠ .fw) (hp : (s.getA aP).toNat % 64 = 0) {x : Xlat}
    (hx : s.translateHere (s.getA aP).toNat .read = .ok x) (ho : s.PoolOpen (s.crew.desctab.toNat + 64 * td.val) 64)
    (hwf : memWf s.here.pool = true)
    (hlocal : entryDead x.leaf2.entry = true
      ∨ entryRem x.leaf2.entry = false ∧ x.pa + 64 ≤ Config.hbmBytes ∧ s.mem.bad x.pa 64 = false) :
    Answers (.tdesc tk td aP) s fun u =>
      let place := poolPlace s.part (s.crew.desctab.toNat + 64 * td.val)
      memGets u.here.pool place 64 = (if entryDead x.leaf2.entry then List.replicate 64 0
        else s.mem.loads (s.doPops (popsOf tk)).seesCmd x.key x.pa 64)
      ∧ (∀ q, q < place ∨ place + 64 ≤ q → memGet u.here.pool q = memGet s.here.pool q)
      ∧ (∀ r, u.getA r = s.getA r) ∧ u.mem = s.mem ∧ u.xq = s.xq ∧ (s.inLine → u.pc = s.pc + 4) := by
  have hpops := s.apart_doPops (popsOf tk)
  have hload := State.memLoadBy_local (s := s.doPops (popsOf tk)) (sees := (s.doPops (popsOf tk)).seesCmd)
    (far := (s.doPops (popsOf tk)).seesFarCmd) (n := 64) ((State.translateHere_of_apart hpops hr _ _).trans hx)
    (by rwa [State.mem_of_apart hpops])
  rw [State.mem_of_apart hpops] at hload
  obtain ⟨bytes, hbytes⟩ : ∃ bytes, (if entryDead x.leaf2.entry then List.replicate 64 0
    else s.mem.loads (s.doPops (popsOf tk)).seesCmd x.key x.pa 64) = bytes := ⟨_, rfl⟩
  have hlen : bytes.length = 64 := by
    rw [← hbytes]
    split
    · rfl
    · exact length_loads ..
  rw [hbytes] at hload ⊢
  obtain ⟨t, ht⟩ : ∃ t, (s.doPops (popsOf tk)).tlbHere (s.getA aP).toNat x .read = t := ⟨_, rfl⟩
  have htlb := (s.doPops (popsOf tk)).tlbHere_tlbOnly (s.getA aP).toNat x .read
  rw [ht] at hload htlb
  have hdesc : t.crew.desctab = s.crew.desctab := by rw [htlb.crew, State.desctab_of_apart hpops]
  have hpart : t.part = s.part := by rw [State.part, htlb.cur, htlb.crew, ← State.part_of_apart hpops]; rfl
  have hpool : t.here.pool = s.here.pool := by
    rw [State.here, htlb.pool, htlb.cur, State.poolOf_of_apart hpops, State.cur_of_apart hpops]; rfl
  have hdone : (s.doPops (popsOf tk)).copyDesc td aP = .done (t.poolStore (s.crew.desctab.toNat + 64 * td.val) bytes) := by
    rw [State.copyDesc_doPops hq hns, if_neg (not_not.2 hp), hload]
    dsimp only
    rw [hdesc]
    exact State.poolWriteAt_open (by rw [hlen]; exact ho.of_apart_tlbOnly hpops htlb) (by omega)
  obtain ⟨u, hrun, ha, hpc⟩ := runWord_answers (reads := [refA aP]) (effect := fun s => s.copyDesc td aP) h hdone
    (by rw [State.seq_poolStore, htlb.seq])
  have hmem : u.here.pool = memSets s.here.pool (poolPlace s.part (s.crew.desctab.toNat + 64 * td.val)) bytes := by
    rw [State.pool_of_apart ha, State.poolStore, State.pool_poolWrite, hpool, hpart]
  refine ⟨u, (tdesc_eq ..).trans hrun, ?_, fun q hq' => ?_, fun r => ?_, ?_, ?_, hpc⟩
  · have hread := memGets_memSets_same (a := poolPlace s.part (s.crew.desctab.toNat + 64 * td.val)) bytes hwf
    rwa [← hmem, hlen] at hread
  · rw [hmem]
    exact memGet_memSets_other bytes hwf (by omega)
  · rw [State.getA_of_apart ha, State.getA, State.poolStore, State.crew_poolWrite]
    exact (htlb.getA_apart rfl r).trans (State.getA_doPops ..)
  · rw [State.mem_of_apart ha]
    exact htlb.mem.trans (State.mem_of_apart hpops)
  · rw [State.xq_of_apart ha, State.xq, State.poolStore, State.crew_poolWrite]
    exact (htlb.xq_apart rfl).trans (State.xq_of_apart hpops)

end Tdesc

/-! ### The transfer words together -/

/-- The words that join a transfer queue. -/
def transferWordList (tk : Tok) (td : Fin 64) (aP aB : AReg) (tr tg cv ck rg : Bool) : List Instr :=
  [.tld tk td aP aB tr tg cv ck rg, .tst tk td aP aB tr tg cv ck, .tcpy tk td aP aB tr tg rg, .tsend tk td aP aB, .tadd tk td aP aB,
    .tgat tk td aP aB cv, .tsct tk td aP aB cv, .tcrc tk td aB]

theorem exec_transferWord {i : Instr} {tk : Tok} {td : Fin 64} {aP aB : AReg} {tr tg cv ck rg : Bool}
    (hi : i ∈ transferWordList tk td aP aB tr tg cv ck rg) (s : State) :
    ∃ op aQ, exec i s = xferIssue tk op td aQ aB s := by
  simp only [transferWordList, List.mem_cons, List.not_mem_nil, or_false] at hi
  rcases hi with rfl | rfl | rfl | rfl | rfl | rfl | rfl | rfl <;> exact ⟨_, _, rfl⟩

/-- Whatever its kind, a transfer word waits for room in its queue and traps for a table entry that it cannot read. -/
theorem transferWord_begins {i : Instr} {s : State} {tk : Tok} {op : XferOp} {td : Fin 64} {aP aB : AReg}
    (hi : exec i s = xferIssue tk op td aP aB s) (h : s.Clear tk) :
    (16 ≤ s.xq.length → Waits i s)
    ∧ (s.xq.length < 16 → partNs s.part = 0 → TrapsAt i s 0x05 s.crew.desctab.toNat)
    ∧ ∀ x, s.xq.length < 16 → partNs s.part ≠ 0 → s.poolRead (s.crew.desctab.toNat + 64 * td.val) 64 64 = .trap x →
        Traps i s x :=
  ⟨xfer_full hi h, fun hq hns => xfer_noTable hi h hq hns, fun _ hq hns => xfer_entryTrap hi h hq hns⟩

/-- A word that its checks let join the queue, or that they trap. -/
def Queues (i : Instr) (s : State) (op : XferOp) (d : Image) (table p : Nat) (bar : Option Nat) (list : List Nat) : Prop :=
  (∀ t, s.xferChecks op d p bar = .error t → Traps i s t)
  ∧ ∀ side, s.xferChecks op d p bar = .ok side → Joins i s op d table side list

section Descriptor
variable {i : Instr} {s : State} {tk : Tok} {op : XferOp} {td : Fin 64} {aP aB : AReg} {b : List Byte}
  (hi : exec i s = xferIssue tk op td aP aB s) (h : s.Clear tk) (hq : s.xq.length < 16) (hns : partNs s.part ≠ 0)
  (hb : s.poolRead (s.crew.desctab.toNat + 64 * td.val) 64 64 = .bytes b)
include hi h hq hns hb

theorem queues_plain (hk : usesList op.kind = false) : Queues i s op (BitVec.ofNat 512 (leNat b))
    (poolPlace s.part (s.crew.desctab.toNat + 64 * td.val)) (s.getA aP).toNat (s.barOperand aB) [] :=
  ⟨fun _ ht => xfer_trap hi h hq hns hb ht, fun _ hok => xfer_joins hi h hq hns hb hok hk⟩

theorem queues_list (hk : usesList op.kind = true) {l : List Byte}
    (hl : s.poolRead ((s.getA aP).toNat / 2 ^ 23) (4 * tdRows (BitVec.ofNat 512 (leNat b))) 4 = .bytes l)
    (hz : tdNdim (BitVec.ofNat 512 (leNat b)) = 0 → ∀ i ∈ fullWords l (tdRows (BitVec.ofNat 512 (leNat b))), i = 0) :
    Queues i s op (BitVec.ofNat 512 (leNat b)) (poolPlace s.part (s.crew.desctab.toNat + 64 * td.val)) (s.getA aP).toNat
      (s.barOperand aB) (fullWords l (tdRows (BitVec.ofNat 512 (leNat b)))) :=
  ⟨fun _ ht => xfer_trap hi h hq hns hb ht, fun _ hok => xfer_joins_list hi h hq hns hb hok hk hl hz⟩

end Descriptor
end Sys2Proof.Machine

open Sys2Proof Sys2Proof.Machine

/-- Settles O45: the checks of R155 one by one, each with its trap; the word that passes them takes its slot, locks its banks and
joins its queue. -/
theorem transferWords : Obligations.TransferWords := by
  unfold Obligations.TransferWords
  intro s tk td aP aB tr tg cv ck rg b h hrole
  have hr : s.cur.role ≠ .fw := by rcases hrole with hr | hr <;> rw [hr] <;> decide
  have h48 : (s.getA aP).toNat < 2 ^ 48 := (s.getA aP).isLt
  refine ⟨fun i hi => ?_, fun r rest slot hheld => ⟨fun hf => ?_, fun hf => ?_, fun u hu => ?_⟩, fun hq hns hb => ?_,
    fun hq => tdesc_waits h hq, fun hq hns => ⟨fun hp => tdesc_misaligned h hq hns hp, fun x hp hx ho hwf hlocal =>
      tdesc_answers h hq hns hr hp hx ho hwf hlocal⟩⟩
  · obtain ⟨op, aQ, hi⟩ := exec_transferWord hi s
    exact transferWord_begins hi h
  · rw [State.takeSlot_fresh (by simp [hheld]), if_pos hf]
  · rw [State.takeSlot_fresh (by simp [hheld]), if_neg (by simp [hf])]
  · exact State.takeSlot_held hu
  · have queue {i : Instr} {op : XferOp} {aQ : AReg} (hi : exec i s = xferIssue tk op td aQ aB s) (hk : usesList op.kind = false) :=
      queues_plain hi h hq hns hb hk
    have hload := queue (i := .tld tk td aP aB tr tg cv ck rg) rfl rfl
    have hstore := queue (i := .tst tk td aP aB tr tg cv ck) rfl rfl
    have hsend := queue (i := .tsend tk td aP aB) rfl rfl
    have hadd := queue (i := .tadd tk td aP aB) rfl rfl
    refine ⟨fun hrg => boxWord hload.1 hload.2 (.inl rfl) hrg h48 rfl, boxWord hstore.1 hstore.2 (.inr rfl) rfl h48 rfl,
      sentWord hsend.1 hsend.2 (.inl rfl) rfl, sentWord hadd.1 hadd.2 (.inr rfl) rfl, fun hrg => ⟨fun hp =>
      hload.1 _ (State.xferChecks_noSuchRing hrg hp), fun hp => ⟨fun hbad => hload.1 _ (State.xferChecks_ring_format hrg hp hbad),
      fun hset hf hd => hload.1 _ (State.xferChecks_ring_shape hrg hp hset hf hd)⟩⟩, hload, hstore, queue rfl rfl, hsend, hadd,
      queue (i := .tcrc tk td aB) rfl rfl, fun l hl hz =>
      ⟨queues_list rfl h hq hns hb rfl hl hz, queues_list rfl h hq hns hb rfl hl hz⟩,
      ttouch_answers h hns hb⟩
end

section
/-! PROOFS. What pops, pushes and retirement leave of a sequencer and of its crew's credits; registers and TLBs through setting issue
apart; and the words by what their effects answer (R59, R60, R62, R178, R180). -/

namespace Sys2Proof.Machine

/-! ### Updates through setting issue apart -/

/-- An update of the sequencer beside its sequencing. -/
theorem State.apart_modSeq_beside (s : State) {f : Seq → Seq} (hf : ∀ q, (f q).bare = f q.bare) :
    (s.modSeq f).apart = s.apart.modSeq f := by
  by_cases h : s.cur.role = .fw
  · rw [State.modSeq_fw f h, State.apart_fw (by simpa using h), State.apart_fw h, State.modSeq_fw f (by simpa using h),
      State.modHere_modHere, State.modHere_modHere]
    exact congrArg s.modHere (funext fun c => congrArg _ (hf c.fw.seq))
  · rw [State.modSeq_crew f h, State.apart_crew (by simpa using h), State.apart_crew h, State.modSeq_crew f (by simpa using h),
      State.modCrew_modCrew, State.modCrew_modCrew]
    simp [hf]

theorem State.apart_setX (s : State) (r : XReg) (v : XWord) : (s.setX r v).apart = s.apart.setX r v := by
  unfold State.setX
  rw [State.apart_cur]
  split
  · rfl
  · split
    · exact State.apart_innerCore (Core.inner_fwx r v) s
    · exact State.apart_inner (Crew.inner_x r v) s

theorem State.apart_setF (s : State) (r : FReg) (v : W32) : (s.setF r v).apart = s.apart.setF r v := by
  unfold State.setF
  rw [State.apart_cur]
  split
  · exact State.apart_innerCore (Core.inner_fwf r v) s
  · exact State.apart_inner (Crew.inner_f r v) s

theorem State.apart_setA (s : State) (r : AReg) (v : AWord) : (s.setA r v).apart = s.apart.setA r v := by
  unfold State.setA
  rw [State.apart_cur]
  split
  · rfl
  · exact State.apart_inner (Crew.inner_a _ r v) s

theorem State.apart_poolStore (s : State) (off : Nat) (b : List Byte) : (s.poolStore off b).apart = s.apart.poolStore off b := by
  have hpart : s.apart.part = s.part := by
    rw [State.part, State.apart_cur, State.read_apart Crew.part (fun _ => rfl) fun _ st _ => by cases st <;> rfl]
    rfl
  rw [State.poolStore, State.poolStore, hpart]
  exact State.apart_innerCore (Core.inner_pool _ b) s

section Agree
variable {u s : State} (h : u.apart = s.apart)
include h

theorem State.getX_of_apart (r : XReg) : u.getX r = s.getX r := by
  have hx : u.crew.x = s.crew.x := State.read_of_apart h Crew.x (fun _ => rfl) fun _ st _ => by cases st <;> rfl
  rw [State.getX, State.cur_of_apart h, hx, ← (State.fw_apart u).1, h, (State.fw_apart s).1]
  rfl

theorem State.getF_of_apart (r : FReg) : u.getF r = s.getF r := by
  have hf : u.crew.f = s.crew.f := State.read_of_apart h Crew.f (fun _ => rfl) fun _ st _ => by cases st <;> rfl
  rw [State.getF, State.cur_of_apart h, hf, ← (State.fw_apart u).2, h, (State.fw_apart s).2]
  rfl

theorem State.core_of_apart {c : CoreId} (hc : c ≠ s.cur.core) : u.core c = s.core c := by
  rw [← State.core_apart_ne s hc.symm, ← h, State.core_apart_ne u (by rw [State.cur_of_apart h]; exact hc.symm)]

theorem State.boot_of_apart : u.boot = s.boot := by simpa [State.apart] using congrArg State.boot h

theorem State.outstanding_of_apart (st : Stream) : u.crew.outstanding st = s.crew.outstanding st :=
  State.read_of_apart h (fun c => c.outstanding st) (fun _ => by cases st <;> rfl) fun _ r _ => by cases st <;> cases r <;> rfl

theorem State.badRegs_of_apart : u.crew.badRegs = s.crew.badRegs :=
  State.read_of_apart h Crew.badRegs (fun _ => rfl) fun _ st _ => by cases st <;> rfl

theorem State.ctxHere_of_apart : u.ctxHere = s.ctxHere := by
  rw [State.ctxHere, State.cur_of_apart h, State.crewCtx_of_apart h]; rfl

/-- What an address translates to does not depend on issue, the firmware context's tables included. -/
theorem State.access_of_apart (va : Nat) (acc : Access) : u.translateHere va acc = s.translateHere va acc := by
  by_cases hr : s.cur.role = .fw
  · simp only [State.translateHere, State.cur_of_apart h, hr, if_true, State.fwTranslate, State.startKey, State.boot_of_apart h]
  · exact State.translateHere_of_apart h hr va acc

end Agree

/-! ### Translations entering a TLB -/

theorem State.apart_tlbFill (s : State) (unit : Nat) (tag : Option CtxId) (va : Nat) (x : Xlat) :
    (s.tlbFill s.cur.core unit tag va x).apart = s.apart.tlbFill s.cur.core unit tag va x := by
  have hmem : s.apart.mem = s.mem := by simp [State.apart]
  have hhere (t : State) (f : Core → Core) (hc : t.cur = s.cur) : t.modCore s.cur.core f = t.modHere f := by rw [← hc]; rfl
  unfold State.tlbFill
  rw [hmem, hhere _ _ rfl, hhere _ _ s.apart_cur]
  exact State.apart_innerCore (Core.inner_tlb _ _ (fun _ _ _ => rfl) (fun _ _ _ => rfl) (fun _ _ => rfl) fun _ _ => rfl) s

section Agree
variable {u s : State} (h : u.apart = s.apart)
include h

theorem State.tlbFill_of_apart (unit : Nat) (tag : Option CtxId) (va : Nat) (x : Xlat) :
    (u.tlbFill u.cur.core unit tag va x).apart = (s.tlbFill s.cur.core unit tag va x).apart := by
  rw [State.apart_tlbFill, State.apart_tlbFill, h, State.cur_of_apart h]

theorem State.tlbNext_of_apart (ctx : CtxId) (unit va : Nat) (x : Xlat) (acc : Access) (down : Bool) :
    (u.tlbNext ctx unit va x acc down).apart = (s.tlbNext ctx unit va x acc down).apart := by
  unfold State.tlbNext
  dsimp only
  rw [State.translate_of_apart h]
  split
  · exact h
  · split
    · exact State.tlbFill_of_apart h ..
    · exact h

theorem State.tlbHere_of_apart (va : Nat) (x : Xlat) (acc : Access) : (u.tlbHere va x acc).apart = (s.tlbHere va x acc).apart := by
  have hwalk : (u.tlbWalk u.crew.ctx (tlbOf u.cur.role) va x acc false).apart
      = (s.tlbWalk s.crew.ctx (tlbOf s.cur.role) va x acc false).apart := by
    rw [State.crewCtx_of_apart h, congrArg Cur.role (State.cur_of_apart h)]
    exact State.tlbNext_of_apart (State.tlbFill_of_apart h ..) ..
  have htag : u.tlbTag = s.tlbTag := by rw [State.tlbTag, State.cur_of_apart h, State.crewCtx_of_apart h]; rfl
  have hfill : (u.tlbFill u.cur.core (tlbOf u.cur.role) u.tlbTag va x).apart
      = (s.tlbFill s.cur.core (tlbOf s.cur.role) s.tlbTag va x).apart := by
    rw [State.tlbFill_of_apart h, htag, State.cur_of_apart h]
  unfold State.tlbHere
  rw [State.cur_of_apart h] at hwalk hfill ⊢
  cases hr : s.cur.role with
  | l | c | s | hinge => rwa [hr] at hwalk
  | x | fw => rwa [hr] at hfill

end Agree

/-! ### The sequencer through pops -/

/-- What a sequencer holds beside what pops change is read as before. -/
theorem State.readSeq_doPops {α : Type} (g : Seq → α) (hg : ∀ q a l, g { q with acq := a, popLog := l } = g q)
    (s : State) (k : Pops) : g (s.doPops k).seq = g s.seq := by
  have hone (t : State) (b : Bool) : g (t.popOne b).seq = g t.seq := by
    unfold State.popOne
    simp only []
    have hpop : ∀ (t : State) (i : Fin 8), (t.modCrew fun c => c.modQueue i Queue.pop).seq = t.seq :=
      fun t i => State.seq_modCrew fun st => by simp
    have hcredit : ∀ (t : State) (a : Token), (t.modCrew fun c =>
        if b then { c with creditL := c.creditL ++ [a] } else { c with creditS := c.creditS ++ [a] }).seq = t.seq :=
      fun t a => State.seq_modCrew fun st => by cases b <;> cases st <;> rfl
    have hacq (q : Seq) (a : List Nat) : g { q with acq := a } = g q := hg q a q.popLog
    split <;> split <;> simp [hpop, hcredit, hacq, hg]
  have hn (b : Bool) (n : Nat) (t : State) : g (t.popN b n).seq = g t.seq := by
    induction n generalizing t with
    | zero => rfl
    | succ n ih => rw [State.popN, ih, hone]
  unfold State.doPops
  split
  · rfl
  · rw [hn, hn, State.trimPopLog]
    split
    · rw [State.seq_modSeq]; exact hg _ _ []
    · rfl

/-- What an update of the executing sequencer leaves of its crew. -/
theorem State.readCrew_modSeq {α : Type} (g : Crew → α) (hg : ∀ c st q, g (c.setSeq st q) = g c) (s : State) (f : Seq → Seq) :
    g (s.modSeq f).crew = g s.crew := by
  by_cases h : s.cur.role = .fw
  · rw [State.modSeq_fw f h]
    exact congrArg g (State.crew_modHere fun _ _ => rfl)
  · rw [State.modSeq_crew f h, State.crew_modCrew, hg]

/-- A crew with other queues and credits. -/
def Crew.withTokens (c : Crew) (qs : Vector Queue 8) (l r : List Token) : Crew := { c with queues := qs, creditL := l, creditS := r }

/-- What a crew holds beside its sequencers and its tokens is read as before pops. -/
theorem State.readCrew_doPops {α : Type} (g : Crew → α) (hseq : ∀ c st q, g (c.setSeq st q) = g c)
    (htok : ∀ c qs l r, g (c.withTokens qs l r) = g c) (s : State) (k : Pops) : g (s.doPops k).crew = g s.crew := by
  have hone (t : State) (b : Bool) : g (t.popOne b).crew = g t.crew := by
    have hpop (t : State) (i : Fin 8) : g (t.modCrew fun c => c.modQueue i Queue.pop).crew = g t.crew := by
      rw [State.crew_modCrew]
      exact htok t.crew _ t.crew.creditL t.crew.creditS
    have hcredit (t : State) (a : Token) : g (t.modCrew fun c =>
        if b then { c with creditL := c.creditL ++ [a] } else { c with creditS := c.creditS ++ [a] }).crew = g t.crew := by
      rw [State.crew_modCrew]
      cases b
      · exact htok t.crew t.crew.queues t.crew.creditL _
      · exact htok t.crew t.crew.queues _ t.crew.creditS
    unfold State.popOne
    simp only []
    split <;> split <;> simp only [hpop, hcredit, State.readCrew_modSeq g hseq]
  have hn (b : Bool) (n : Nat) (t : State) : g (t.popN b n).crew = g t.crew := by
    induction n generalizing t with
    | zero => rfl
    | succ n ih => rw [State.popN, ih, hone]
  unfold State.doPops
  split
  · rfl
  · rw [hn, hn, State.trimPopLog]
    split
    · exact State.readCrew_modSeq g hseq ..
    · rfl

theorem State.vbase_doPops (s : State) (k : Pops) : (s.doPops k).crew.vbase = s.crew.vbase :=
  State.readCrew_doPops Crew.vbase (fun _ st _ => by cases st <;> rfl) (fun _ _ _ _ => rfl) s k

theorem State.pbase_doPops (s : State) (k : Pops) : (s.doPops k).crew.pbase = s.crew.pbase :=
  State.readCrew_doPops Crew.pbase (fun _ st _ => by cases st <;> rfl) (fun _ _ _ _ => rfl) s k

/-- A pop of C from its predecessor raises that credit by one, and only such a pop does (R69). -/
theorem State.popOne_creditL {s : State} (hc : s.cur.role.stream = .c) (b : Bool) :
    (s.popOne b).crew.creditL.length = s.crew.creditL.length + b.toNat := by
  have hread (t : State) (f : Seq → Seq) : (t.modSeq f).crew.creditL = t.crew.creditL :=
    State.readCrew_modSeq Crew.creditL (fun _ st _ => by cases st <;> rfl) t f
  cases b <;> simp [State.popOne, hc, hread, Crew.modQueue]

theorem State.popOne_creditS {s : State} (hc : s.cur.role.stream = .c) (b : Bool) :
    (s.popOne b).crew.creditS.length = s.crew.creditS.length + (!b).toNat := by
  have hread (t : State) (f : Seq → Seq) : (t.modSeq f).crew.creditS = t.crew.creditS :=
    State.readCrew_modSeq Crew.creditS (fun _ st _ => by cases st <;> rfl) t f
  cases b <;> simp [State.popOne, hc, hread, Crew.modQueue]

theorem State.popN_credits {s : State} (hc : s.cur.role.stream = .c) (b : Bool) (n : Nat) :
    (s.popN b n).crew.creditL.length = s.crew.creditL.length + n * b.toNat
    ∧ (s.popN b n).crew.creditS.length = s.crew.creditS.length + n * (!b).toNat := by
  induction n generalizing s with
  | zero => simp [State.popN]
  | succ n ih =>
    obtain ⟨hl, hs⟩ := ih (s := s.popOne b) (by rwa [State.popOne_cur])
    rw [State.popN, hl, hs, State.popOne_creditL hc, State.popOne_creditS hc]
    constructor <;> ring

/-- The pops of a word of C raise its credits by what they take. -/
theorem State.doPops_credits {s : State} (hc : s.cur.role = .c) (k : Pops) :
    (s.doPops k).crew.creditL.length = s.crew.creditL.length + k.p ∧ (s.doPops k).crew.creditS.length = s.crew.creditS.length + k.n := by
  have hst (t : State) (ht : t.cur = s.cur) : t.cur.role.stream = .c := by rw [ht, hc]; rfl
  have htrim : s.trimPopLog = s := by simp [State.trimPopLog, hc]
  rw [State.doPops, if_neg (by simp [hc]), htrim]
  obtain ⟨hl, hs⟩ := State.popN_credits (hst (s.popN true k.p) (s.popN_cur true k.p)) false k.n
  obtain ⟨hl', hs'⟩ := State.popN_credits (hst s rfl) true k.p
  rw [hl, hs, hl', hs']
  simp

/-! ### Acquired stores and credits through retirement -/

/-- From `s` to `u` the sequencer has acquired nothing and its crew's credits are the same. -/
structure State.SameTokens (s u : State) : Prop where
  acq : u.seq.acq = s.seq.acq
  creditL : u.crew.creditL = s.crew.creditL
  creditS : u.crew.creditS = s.crew.creditS

theorem State.SameTokens.refl (s : State) : s.SameTokens s := ⟨rfl, rfl, rfl⟩

theorem State.SameTokens.trans {s t u : State} (h : s.SameTokens t) (k : t.SameTokens u) : s.SameTokens u :=
  ⟨k.acq.trans h.acq, k.creditL.trans h.creditL, k.creditS.trans h.creditS⟩

theorem State.sameTokens_modSeq (s : State) {f : Seq → Seq} (hf : ∀ q, (f q).acq = q.acq) : s.SameTokens (s.modSeq f) where
  acq := by rw [State.seq_modSeq, hf]
  creditL := State.readCrew_modSeq Crew.creditL (fun _ st _ => by cases st <;> rfl) s f
  creditS := State.readCrew_modSeq Crew.creditS (fun _ st _ => by cases st <;> rfl) s f

theorem State.sameTokens_modCrew (s : State) {f : Crew → Crew} (hseq : ∀ c st, (f c).seq st = c.seq st)
    (hl : ∀ c, (f c).creditL = c.creditL) (hs : ∀ c, (f c).creditS = c.creditS) : s.SameTokens (s.modCrew f) where
  acq := by rw [State.seq_modCrew fun st => hseq _ st]
  creditL := by rw [State.crew_modCrew, hl]
  creditS := by rw [State.crew_modCrew, hs]

/-- `u` is `s` with pushes made or held: the sequencer stands where it stood, and the rotation is the same. -/
structure State.Pushed (s u : State) : Prop extends s.SameTokens u where
  place : u.seq.SamePlace s.seq
  vbase : u.crew.vbase = s.crew.vbase
  pbase : u.crew.pbase = s.crew.pbase

theorem State.Pushed.refl (s : State) : s.Pushed s := ⟨.refl s, ⟨rfl, rfl⟩, rfl, rfl⟩

theorem State.Pushed.trans {s t u : State} (h : s.Pushed t) (k : t.Pushed u) : s.Pushed u :=
  ⟨h.toSameTokens.trans k.toSameTokens, ⟨k.place.1.trans h.place.1, k.place.2.trans h.place.2⟩, k.vbase.trans h.vbase,
    k.pbase.trans h.pbase⟩

theorem State.pushed_modSeq (s : State) {f : Seq → Seq} (hacq : ∀ q, (f q).acq = q.acq) (hplace : ∀ q, (f q).SamePlace q) :
    s.Pushed (s.modSeq f) where
  toSameTokens := s.sameTokens_modSeq hacq
  place := by rw [State.seq_modSeq]; exact hplace _
  vbase := State.readCrew_modSeq Crew.vbase (fun _ st _ => by cases st <;> rfl) s f
  pbase := State.readCrew_modSeq Crew.pbase (fun _ st _ => by cases st <;> rfl) s f

theorem State.pushHead_pushed (s : State) (h : HeldPush) (rest : List HeldPush) : s.Pushed (s.pushHead h rest) := by
  have hland (t : State) (i j : Fin 8) (f g : Queue → Queue) : t.Pushed (t.modCrew fun c => (c.modQueue i f).modQueue j g) :=
    ⟨t.sameTokens_modCrew (fun c st => by simp) (fun _ => rfl) fun _ => rfl,
      by rw [State.seq_modCrew fun st => by simp]; exact ⟨rfl, rfl⟩, by rw [State.crew_modCrew]; rfl, by rw [State.crew_modCrew]; rfl⟩
  unfold State.pushHead
  dsimp only
  refine State.Pushed.trans (s.pushed_modSeq ?_ ?_) (hland ..)
  · exact fun _ => rfl
  · exact fun _ => ⟨rfl, rfl⟩

theorem State.pushAll_pushed (s : State) (n : Nat) : s.Pushed (s.pushAll n) := by
  induction n generalizing s with
  | zero => exact .refl s
  | succ n ih =>
    unfold State.pushAll
    split
    · exact .refl s
    · split
      · exact (s.pushHead_pushed ..).trans (ih _)
      · exact .refl s

theorem State.notePushWait_pushed (s : State) : s.Pushed s.notePushWait := by
  unfold State.notePushWait
  split
  · exact s.pushed_modSeq (fun _ => rfl) fun _ => ⟨rfl, rfl⟩
  · exact .refl s

theorem State.pushes_pushed (s : State) (pu : Pops) (cmd : Option Nat) (w : Bool) : s.Pushed (s.pushes pu cmd w) := by
  unfold State.pushes
  split
  · exact .refl s
  · dsimp only
    split
    · refine ((s.pushed_modSeq ?_ ?_).trans (State.pushAll_pushed ..)).trans (State.notePushWait_pushed _)
      · exact fun _ => rfl
      · exact fun _ => ⟨rfl, rfl⟩
    · exact (s.pushAll_pushed _).trans (State.notePushWait_pushed _)

/-- Retirement leaves the loops and the rotation. -/
theorem retire_pushed (pu : Pops) (cmd : Option Nat) (w : Bool) (npc : XWord) (s : State) :
    (s.modSeq fun q => { q with pc := npc, wait := none, issued := true }).Pushed (retire pu cmd w npc s) :=
  State.pushes_pushed ..

theorem retire_loops (pu : Pops) (cmd : Option Nat) (w : Bool) (npc : XWord) (s : State) :
    (retire pu cmd w npc s).seq.loops = s.seq.loops := by
  rw [(retire_pushed ..).place.1, State.seq_modSeq]

theorem retire_vbase (pu : Pops) (cmd : Option Nat) (w : Bool) (npc : XWord) (s : State) :
    (retire pu cmd w npc s).crew.vbase = s.crew.vbase :=
  (retire_pushed pu cmd w npc s).vbase.trans (State.readCrew_modSeq Crew.vbase (fun _ st _ => by cases st <;> rfl) ..)

theorem retire_pbase (pu : Pops) (cmd : Option Nat) (w : Bool) (npc : XWord) (s : State) :
    (retire pu cmd w npc s).crew.pbase = s.crew.pbase :=
  (retire_pushed pu cmd w npc s).pbase.trans (State.readCrew_modSeq Crew.pbase (fun _ st _ => by cases st <;> rfl) ..)

theorem retire_sameTokens (pu : Pops) (cmd : Option Nat) (w : Bool) (npc : XWord) (s : State) :
    s.SameTokens (retire pu cmd w npc s) := by
  refine (s.sameTokens_modSeq ?_).trans (retire_pushed ..).toSameTokens
  exact fun _ => rfl

/-! ### Closing loops -/

theorem nextRow_sameTokens {fuel : Nat} {e f : LoopEntry} {s u : State} (h : nextRow e s fuel = .ok (f, u)) : s.SameTokens u := by
  induction fuel generalizing e s with
  | zero =>
    obtain ⟨-, rfl⟩ := Prod.mk.inj (Except.ok.inj h)
    exact .refl _
  | succ n ih =>
    have hset (v : AWord) : s.SameTokens (s.setA e.cur v) := by
      unfold State.setA
      split
      · exact .refl s
      · exact s.sameTokens_modCrew (fun c st => (Crew.inner_a _ e.cur v).seq c st) (fun c => by cases s.cur.role.stream <;> rfl)
          fun c => by cases s.cur.role.stream <;> rfl
    unfold nextRow at h
    split at h
    · dsimp only at h
      split at h
      · exact (hset _).trans (ih h)
      · obtain ⟨-, rfl⟩ := Prod.mk.inj (Except.ok.inj h)
        exact hset _
    · exact absurd h (by simp)

/-- Closing loops acquires nothing and leaves the credits. -/
theorem loopClose_sameTokens {a npc npc' : XWord} {n : Nat} {s u : State} (h : loopClose a npc s n = .next u npc') : s.SameTokens u := by
  induction n generalizing s with
  | zero =>
    obtain ⟨rfl, -⟩ := Closed.next.inj h
    exact .refl _
  | succ n ih =>
    have hloops (t : State) (l : List LoopEntry) : t.SameTokens (t.modSeq fun q => { q with loops := l }) :=
      t.sameTokens_modSeq fun _ => rfl
    unfold loopClose at h
    split at h
    · obtain ⟨rfl, -⟩ := Closed.next.inj h
      exact .refl _
    · rename_i top rest hl
      split at h
      · obtain ⟨rfl, -⟩ := Closed.next.inj h
        exact .refl _
      · dsimp only at h
        generalize ht : (if top.kind = .rotating then
          s.modCrew fun c => { c with vbase := c.vbase - 1, pbase := c.pbase - 1 } else s) = t at h
        have hrot : s.SameTokens t := by
          rw [← ht]
          split
          · exact s.sameTokens_modCrew (fun c st => by cases st <;> rfl) (fun _ => rfl) fun _ => rfl
          · exact .refl s
        refine hrot.trans ?_
        split at h
        · obtain ⟨rfl, -⟩ := Closed.next.inj h
          exact hloops ..
        · split at h
          · split at h
            · rename_i e v hrow
              refine (nextRow_sameTokens hrow).trans ?_
              split at h
              · obtain ⟨rfl, -⟩ := Closed.next.inj h
                exact hloops ..
              · exact (hloops ..).trans (ih h)
            · cases h
            · cases h
          · exact (hloops ..).trans (ih h)

/-! ### Words by what their effects answer -/

section Word
variable {s t : State} {tk : Tok} {reads : List (State → List RegRef)} {effect : State → Res}

/-- A word that completes reaches the state that its effect gives, apart from issue, and acquires nothing more. -/
theorem runWord_keeps (h : s.Clear tk) (he : effect (s.doPops (popsOf tk)) = .done t)
    (hl : t.seq.loops = (s.doPops (popsOf tk)).seq.loops) :
    ∃ u, runWord tk reads s effect = .next u ∧ u.apart = t.apart ∧ (s.inLine → u.pc = s.pc + 4) ∧ t.SameTokens u := by
  have hloops : t.seq.loops = s.seq.loops := hl.trans (s.doPops_place _).1
  obtain ⟨v, npc, hv, ha, -⟩ := loopClose_noRow (npc := s.pc + 4) (t.seq.loops.length + 1) (s := t) (a := s.pc)
    (fun e he => h.rows e (by rwa [← hloops]))
  obtain ⟨u, hu, hua, hup⟩ := runWord_done (reads := reads) h he hl
  refine ⟨u, hu, hua, hup, ?_⟩
  rw [runWord, runWith_of_ready effect h.tokens (parityBad_of_nil h.parity _) h.credits he, finish, hv] at hu
  cases hu
  exact (loopClose_sameTokens hv).trans (retire_sameTokens ..)

/-- A word that completes in a state that agrees with `v` apart from issue reaches `v`. -/
theorem runWord_reaches {v : State} (h : s.Clear tk) (he : effect (s.doPops (popsOf tk)) = .done t)
    (hl : t.seq.loops = (s.doPops (popsOf tk)).seq.loops) (ha : t.apart = v.apart) :
    Reaches (runWord tk reads s effect) s v := by
  obtain ⟨u, hu, hua, hup⟩ := runWord_done (reads := reads) h he hl
  exact ⟨u, hu, hua.trans ha, hup⟩

/-- A word whose effect waits, noting what it waits for. -/
theorem runWord_blocks {k : WaitKind} {note : State → State} (h : s.Issues tk)
    (he : effect (s.doPops (popsOf tk)) = .block k note) :
    ∃ u, runWord tk reads s effect = .next u ∧ u.apart = (note s).apart ∧ u.pc = (note s).pc :=
  ⟨_, runWord_block h he, waitOn_apart .., waitOn_pc ..⟩

end Word

end Sys2Proof.Machine
end

section
/-! PROOFS. The control words of the streams: the hard-wired registers, `nop`, `tok`, `halt`, `wait`, the closing of a loop, transfers
of control, and `rstp` (R8, R59 to R62, R64, R66 to R69, R82, R83). -/

namespace Sys2Proof.Machine

/-- Settles O1: each access of a hard-wired register takes the branch of its number. -/
theorem hardWiredRegisters : Obligations.HardWiredRegisters := by
  unfold Obligations.HardWiredRegisters
  exact fun s v w p => ⟨if_pos rfl, if_pos rfl, if_pos rfl, if_pos rfl, if_pos rfl, if_pos rfl⟩

/-! ### `halt` and `wait` (R67, R68) -/

theorem State.allRetired_iff (s : State) :
    s.allRetired = true ↔ s.cur.role = .fw ∨ s.crew.outstanding s.cur.role.stream = [] := by
  simp [State.allRetired]

theorem State.allRetired_of_apart {u s : State} (h : u.apart = s.apart) : u.allRetired = s.allRetired := by
  rw [State.allRetired, State.cur_of_apart h, State.outstanding_of_apart h]
  rfl

theorem exec_halt (tk : Tok) (s : State) :
    exec (.halt tk) s = runWord tk [] s fun s => if s.allRetired then .halted s else .block .other id := rfl

theorem exec_wait (tk : Tok) (s : State) :
    exec (.wait tk) s = runWith (popsOf tk) (pushesOf tk) true [] s fun s => if s.allRetired then .done s else .block .other id := rfl

/-- `halt` after every command retires in place and stops its sequencer. -/
theorem halt_stops {s : State} {tk : Tok} (h : s.Issues tk) (hr : s.allRetired = true) :
    Answers (.halt tk) s fun u =>
      u.apart = (s.modSeq fun q => { q with status := .halted }).apart ∧ u.seq.status = .halted := by
  have hpops := s.apart_doPops (popsOf tk)
  have hrun : exec (.halt tk) s = .next ((retire (pushesOf tk) none true s.pc (s.doPops (popsOf tk))).modSeq
      fun q => { q with status := .halted }) := by
    simp [exec_halt, runWord, runWith, h.tokens, parityBad_of_nil h.parity, h.credits, State.allRetired_of_apart hpops, hr]
  refine ⟨_, hrun, ?_, by rw [State.seq_modSeq]⟩
  have hstop (t : State) : (t.modSeq fun q => { q with status := .halted }).apart
      = t.apart.modSeq fun q => { q with status := .halted } := t.apart_modSeq_beside fun _ => rfl
  rw [hstop, hstop, apart_retire, hpops]

theorem wait_goesOn {s : State} {tk : Tok} (h : s.Clear tk) (hr : s.allRetired = true) : Runs (.wait tk) s s := by
  have hpops := s.apart_doPops (popsOf tk)
  obtain ⟨u, hu, ha, hp⟩ := finish_reaches (pu := pushesOf tk) (cmd := none) (w := true) (s0 := s) (s.doPops_place (popsOf tk)).1 h.rows
  refine ⟨u, ?_, ha.trans hpops, hp⟩
  rw [← hu, exec_wait]
  refine runWith_of_ready _ h.tokens (parityBad_of_nil h.parity _) h.credits ?_
  exact if_pos ((State.allRetired_of_apart hpops).trans hr)

/-- Both wait while a command is outstanding. -/
theorem halt_wait_wait {s : State} {tk : Tok} (h : s.Issues tk) (hr : s.allRetired = false) :
    Waits (.halt tk) s ∧ Waits (.wait tk) s := by
  have hwait : (s.doPops (popsOf tk)).allRetired = false := (State.allRetired_of_apart (s.apart_doPops _)).trans hr
  refine ⟨⟨_, ?_, waitOn_apart .other s, waitOn_pc .other s⟩, _, ?_, waitOn_apart .other s, waitOn_pc .other s⟩
  · simp [exec_halt, runWord, runWith, h.tokens, parityBad_of_nil h.parity, h.credits, hwait]
  · simp [exec_wait, runWith, h.tokens, parityBad_of_nil h.parity, h.credits, hwait]

/-- Settles O2: `nop` and `tok` have no effect, and `halt` and `wait` go by whether every command has retired. -/
theorem controlWords : Obligations.ControlWords := by
  unfold Obligations.ControlWords
  refine ⟨fun s tk => ⟨fun h => runWord_self h, fun h => runWord_self h⟩, fun s tk h => ⟨fun hr => ?_, fun hfw hout => ?_⟩⟩
  · have hall := (State.allRetired_iff s).2 hr
    exact ⟨halt_stops h.toIssues hall, wait_goesOn h hall⟩
  · refine halt_wait_wait h.toIssues ?_
    rw [← Bool.not_eq_true, State.allRetired_iff]
    exact not_or_intro hfw hout

/-! ### Closing a loop (R62, R64) -/

/-- A closing of a rotating loop. -/
def Crew.rotate (c : Crew) : Crew := { c with vbase := c.vbase - 1, pbase := c.pbase - 1 }

/-- What closing the innermost loop does to rotation. -/
def State.turned (s : State) (k : LoopKind) : State := if k = .rotating then s.modCrew Crew.rotate else s

theorem State.turned_apart (s : State) (k : LoopKind) : (s.turned k).apart = s.apart := by
  unfold State.turned
  split
  · exact State.apart_modCrew rfl
  · rfl

theorem State.turned_seq (s : State) (k : LoopKind) : (s.turned k).seq = s.seq := by
  unfold State.turned
  split
  · exact State.seq_modCrew fun st => by cases st <;> rfl
  · rfl

/-- At the last word of a loop with more iterations the body comes again. -/
theorem loopClose_again {npc : XWord} {s : State} {top : LoopEntry} {rest : List LoopEntry} (hl : s.seq.loops = top :: rest)
    (hleft : 1 < top.left) (n : Nat) :
    loopClose top.last npc s (n + 1) =
      .next ((s.turned top.kind).modSeq fun q => { q with loops := { top with left := top.left - 1 } :: rest }) top.first := by
  rw [loopClose, hl]
  simp only [ne_eq, not_true, if_false, show 0 < top.left - 1 by omega, if_true]
  rfl

/-- At the last word of its last iteration a loop that is no cursor loop ends, and those around it go on. -/
theorem loopClose_ends {npc : XWord} {s : State} {top : LoopEntry} {rest : List LoopEntry} (hl : s.seq.loops = top :: rest)
    (hleft : top.left ≤ 1) (hkind : top.kind = .cursor → top.outer = 0) (hrest : ∀ e ∈ rest, e.last ≠ top.last) (n : Nat) :
    loopClose top.last npc s (n + 1) = .next ((s.turned top.kind).modSeq fun q => { q with loops := rest }) npc := by
  have hcur : (decide (top.kind = .cursor) && decide (0 < top.outer)) = false := by
    by_cases hk : top.kind = .cursor
    · simp [hkind hk]
    · simp [hk]
  rw [loopClose, hl]
  simp only [ne_eq, not_true, if_false, show ¬ 0 < top.left - 1 by omega, hcur, Bool.false_eq_true]
  exact loopClose_inLine (by rw [State.seq_modSeq]; exact hrest) n

/-- A token word is its frame. -/
theorem exec_tok (tk : Tok) {s : State} (h : s.Issues tk) :
    exec (.tok tk) s = finish (pushesOf tk) none false s.pc (s.pc + 4) s (s.doPops (popsOf tk)) :=
  runWith_of_ready _ h.tokens (parityBad_of_nil h.parity _) h.credits rfl

/-- Where one loop ends at a token word, its closing is what the word does. -/
theorem tok_closes {tk : Tok} {s u : State} {npc : XWord} {top : LoopEntry} {rest : List LoopEntry} (h : s.Issues tk)
    (hl : s.seq.loops = top :: rest) (hlast : top.last = s.pc)
    (hu : Machine.loopClose top.last (s.pc + 4) (s.doPops (popsOf tk)) (rest.length + 2) = .next u npc) :
    exec (.tok tk) s = .next (retire (pushesOf tk) none false npc u) := by
  have hlen : (s.doPops (popsOf tk)).seq.loops.length + 1 = rest.length + 2 := by
    rw [(s.doPops_place _).1, hl, List.length_cons]
  rw [hlast] at hu
  rw [exec_tok tk h, finish, hlen, hu]

/-- What a closing leaves that goes on at `npc` with the loops `l`. -/
theorem retire_turned (s : State) (tk : Tok) (k : LoopKind) (l : List LoopEntry) (npc : XWord) :
    let u := retire (pushesOf tk) none false npc (((s.doPops (popsOf tk)).turned k).modSeq fun q => { q with loops := l })
    u.apart = s.apart ∧ u.pc = npc ∧ u.seq.loops = l
      ∧ (k = .rotating → u.crew.vbase = s.crew.vbase - 1 ∧ u.crew.pbase = s.crew.pbase - 1)
      ∧ (k = .plain → u.crew.vbase = s.crew.vbase ∧ u.crew.pbase = s.crew.pbase) := by
  have hv : ∀ u : State, (u.modSeq fun q => { q with loops := l }).crew.vbase = u.crew.vbase := fun u =>
    State.readCrew_modSeq Crew.vbase (fun _ st _ => by cases st <;> rfl) u _
  have hp : ∀ u : State, (u.modSeq fun q => { q with loops := l }).crew.pbase = u.crew.pbase := fun u =>
    State.readCrew_modSeq Crew.pbase (fun _ st _ => by cases st <;> rfl) u _
  have ha : ∀ u : State, (u.modSeq fun q => { q with loops := l }).apart = u.apart := fun u => State.apart_modSeq rfl
  dsimp only
  rw [apart_retire, ha, State.turned_apart, State.apart_doPops, retire_pc, retire_loops, State.seq_modSeq,
    retire_vbase, retire_pbase, hv, hp]
  refine ⟨rfl, rfl, rfl, fun hk => ?_, fun hk => ?_⟩
  · rw [State.turned, if_pos hk, State.crew_modCrew, Crew.rotate, State.vbase_doPops, State.pbase_doPops]
    exact ⟨rfl, rfl⟩
  · rw [State.turned, if_neg (by simp [hk]), State.vbase_doPops, State.pbase_doPops]
    exact ⟨rfl, rfl⟩

end Sys2Proof.Machine
end

section
open Sys2Proof Sys2Proof.Machine

/-- Settles O5: the two closings of the innermost loop, and what retirement leaves of the loops and the rotation. -/
theorem loopClose : Obligations.LoopClose := by
  unfold Obligations.LoopClose
  intro s tk top rest h hl hlast hkind hrest
  have hloops : (s.doPops (popsOf tk)).seq.loops = top :: rest := (s.doPops_place _).1.trans hl
  by_cases hleft : 1 < top.left
  · have hclose := loopClose_again (npc := s.pc + 4) hloops hleft (rest.length + 1)
    obtain ⟨ha, hpc, hl', hrot, hplain⟩ :=
      retire_turned s tk top.kind ({ top with left := top.left - 1 } :: rest) top.first
    exact ⟨_, tok_closes h hl hlast hclose, ha, fun _ => ⟨hpc, hl'⟩, fun hle => absurd hleft (by omega), hrot, hplain⟩
  · have hclose := loopClose_ends (npc := s.pc + 4) hloops (by omega) (fun hk => absurd hk hkind) (by rwa [hlast]) (rest.length + 1)
    obtain ⟨ha, hpc, hl', hrot, hplain⟩ := retire_turned s tk top.kind rest (s.pc + 4)
    exact ⟨_, tok_closes h hl hlast hclose, ha, fun hlt => absurd hlt hleft, fun _ => ⟨hpc, hl'⟩, hrot, hplain⟩
end

section
/-! PROOFS. Transfers of control and `rstp` (R60, R66, R69, R82, R83). -/

namespace Sys2Proof.Machine

/-! ### Loops that a transfer ends (R60) -/

theorem leaveLoops_left (target : XWord) (loops : List LoopEntry) : LoopsLeft target loops (leaveLoops target loops) := by
  induction loops with
  | nil => exact ⟨by simp [leaveLoops], [], rfl, by simp⟩
  | cons top rest ih =>
    obtain ⟨hnew, ended, hsplit, hlast⟩ := ih
    rw [leaveLoops]
    split
    · rename_i hall
      exact ⟨fun e he => List.all_eq_true.1 hall e he, [], rfl, by simp⟩
    · rename_i hall
      refine ⟨hnew, top :: ended, by rw [List.cons_append, ← hsplit], fun e he => ?_⟩
      rw [List.getLast?_cons] at he
      cases hend : ended.getLast? with
      | some last =>
        rw [hend] at he
        exact hlast e (by rw [hend]; simpa using he)
      | none =>
        have he : top = e := by simpa [hend] using he
        have hrest : leaveLoops target rest = rest := by
          rw [List.getLast?_eq_none_iff.1 hend, List.nil_append] at hsplit
          exact hsplit.symm
        rw [hrest] at hnew
        by_contra hholds
        exact hall (List.all_eq_true.2 (List.forall_mem_cons.2 ⟨by simpa [he] using hholds, hnew⟩))

/-! ### Words that transfer control -/

section Word
variable {i : Instr} {s t v : State} {tk : Tok} {reads : List (State → List RegRef)} {effect : State → Res} {target : XWord}

/-- A taken transfer of a word whose effect reaches `t`. -/
theorem jumps_of_taken (hi : exec i s = runWord tk reads s effect) (h : s.Issues tk)
    (he : effect (s.doPops (popsOf tk)) = .taken t target) (hseq : t.seq = (s.doPops (popsOf tk)).seq) (ha : t.apart = v.apart) :
    Jumps i s v target := by
  refine ⟨_, hi.trans (runWord_taken h he), ?_, retire_pc .., ?_⟩
  · rw [apart_retire]
    exact (State.apart_modSeq rfl).trans ha
  · rw [retire_loops, State.seq_modSeq, hseq, (s.doPops_place _).1]
    exact leaveLoops_left ..

/-- A transfer that is not taken goes on. -/
theorem runs_of_done (hi : exec i s = runWord tk reads s effect) (h : s.Clear tk)
    (he : effect (s.doPops (popsOf tk)) = .done t) (hseq : t.seq = (s.doPops (popsOf tk)).seq) (ha : t.apart = v.apart) :
    Runs i s v := by
  rw [Runs, hi]
  exact runWord_reaches h he (congrArg Seq.loops hseq) ha

end Word

/-! ### Branches (R82) -/

/-- A conditional branch goes by its condition on the two registers. -/
theorem branch_goes {i : Instr} {s : State} {tk : Tok} {ra rb : XReg} {off : BitVec 10} {c : XWord → XWord → Bool}
    (hi : exec i s = condBranch tk ra rb off s c) (h : s.Clear tk) {p : Prop} (hc : c (s.getX ra) (s.getX rb) = true ↔ p) :
    (p → Jumps i s s (s.pc + 4 * off.signExtend 64)) ∧ (¬p → Runs i s s) := by
  have hpops := s.apart_doPops (popsOf tk)
  have heffect : branchIf (c ((s.doPops (popsOf tk)).getX ra) ((s.doPops (popsOf tk)).getX rb)) (s.doPops (popsOf tk))
      (branchTarget (s.doPops (popsOf tk)).pc off)
      = if c (s.getX ra) (s.getX rb) then .taken (s.doPops (popsOf tk)) (s.pc + 4 * off.signExtend 64)
        else .done (s.doPops (popsOf tk)) := by
    rw [State.getX_doPops, State.getX_doPops, State.doPops_pc]
    rfl
  exact ⟨fun hp => jumps_of_taken hi h.toIssues (heffect.trans (if_pos (hc.2 hp))) rfl hpops,
    fun hp => runs_of_done hi h (heffect.trans (if_neg fun ht => hp (hc.1 ht))) rfl hpops⟩

/-! ### `brc` (R66) -/

/-- What `brc` leaves in its register, of X or of an a-register. -/
def State.brcLeft (s : State) (r : XReg) : XWord :=
  if s.cur.role.isX then s.getR r - 1 else (((s.getR r).setWidth 48 - 1 : AWord)).zeroExtend 64

theorem State.brcLeft_x {s : State} (hx : s.cur.role.isX = true) (r : XReg) : s.brcLeft r = s.getX r - 1 := by
  simp only [State.brcLeft, State.getR, hx, if_true]

theorem AReg.ofX {r : XReg} {ar : AReg} (h : r.val = ar.val) : (⟨r.val % 16, by omega⟩ : AReg) = ar :=
  Fin.ext (by simp only; omega)

theorem State.brcLeft_a {s : State} (hx : s.cur.role.isX = false) {r : XReg} {ar : AReg} (h : r.val = ar.val) :
    s.brcLeft r = (s.getA ar - 1).zeroExtend 64 := by
  simp only [State.brcLeft, State.getR, hx, Bool.false_eq_true, if_false, AReg.ofX h]
  congr 2
  exact BitVec.setWidth_setWidth_of_le _ (by omega)

theorem State.brcLeft_of_apart {u s : State} (h : u.apart = s.apart) (r : XReg) : u.brcLeft r = s.brcLeft r := by
  simp only [State.brcLeft, State.getR, State.cur_of_apart h, State.getX_of_apart h, State.getA_of_apart h]

theorem State.apart_setR (s : State) (r : XReg) (v : XWord) : (s.setR r v).apart = s.apart.setR r v := by
  unfold State.setR
  rw [State.apart_cur]
  split
  · exact s.apart_setX ..
  · exact s.apart_setA ..

theorem State.seq_setR (s : State) (r : XReg) (v : XWord) : (s.setR r v).seq = s.seq := by
  unfold State.setR
  split
  · exact s.seq_setX ..
  · exact s.seq_setA ..

theorem exec_brc (tk : Tok) (r : XReg) (off : BitVec 16) (s : State) :
    exec (.brc tk r off) s = runWord tk [refR r] s fun s =>
      branchIf (s.brcLeft r ≠ 0) (s.setR r (s.brcLeft r)) (branchTarget s.pc off) := rfl

/-- `brc` writes its register and branches while it is not zero. -/
theorem brc_goes {s : State} {tk : Tok} {r : XReg} {off : BitVec 16} (h : s.Clear tk) :
    (s.brcLeft r ≠ 0 → Jumps (.brc tk r off) s (s.setR r (s.brcLeft r)) (s.pc + 4 * off.signExtend 64))
    ∧ (s.brcLeft r = 0 → Runs (.brc tk r off) s (s.setR r (s.brcLeft r))) := by
  have hpops := s.apart_doPops (popsOf tk)
  have hset (v : XWord) : ((s.doPops (popsOf tk)).setR r v).apart = (s.setR r v).apart := by
    rw [State.apart_setR, State.apart_setR, hpops]
  have heffect : branchIf ((s.doPops (popsOf tk)).brcLeft r ≠ 0)
        ((s.doPops (popsOf tk)).setR r ((s.doPops (popsOf tk)).brcLeft r)) (branchTarget (s.doPops (popsOf tk)).pc off)
      = if decide (s.brcLeft r ≠ 0) then .taken ((s.doPops (popsOf tk)).setR r (s.brcLeft r)) (s.pc + 4 * off.signExtend 64)
        else .done ((s.doPops (popsOf tk)).setR r (s.brcLeft r)) := by
    rw [State.brcLeft_of_apart hpops, State.doPops_pc]
    rfl
  exact ⟨fun hne => jumps_of_taken (exec_brc ..) h.toIssues (heffect.trans (if_pos (decide_eq_true hne))) (State.seq_setR ..) (hset _),
    fun he => runs_of_done (exec_brc ..) h (heffect.trans (if_neg (by simp [he]))) (State.seq_setR ..) (hset _)⟩

theorem brc_goes_x {s : State} {tk : Tok} {r : XReg} {off : BitVec 16} (h : s.Clear tk) (hx : s.cur.role.isX = true) :
    (s.getX r - 1 ≠ 0 → Jumps (.brc tk r off) s (s.setX r (s.getX r - 1)) (s.pc + 4 * off.signExtend 64))
    ∧ (s.getX r - 1 = 0 → Runs (.brc tk r off) s (s.setX r 0)) := by
  have hgoes := brc_goes (r := r) (off := off) h
  have hset (v : XWord) : s.setR r v = s.setX r v := by rw [State.setR, if_pos hx]
  rw [State.brcLeft_x hx, hset] at hgoes
  exact ⟨hgoes.1, fun he => by simpa only [he] using hgoes.2 he⟩

theorem brc_goes_a {s : State} {tk : Tok} {r : XReg} {off : BitVec 16} (h : s.Clear tk) (hx : s.cur.role.isX = false) {ar : AReg}
    (hr : r.val = ar.val) :
    (s.getA ar - 1 ≠ 0 → Jumps (.brc tk r off) s (s.setA ar (s.getA ar - 1)) (s.pc + 4 * off.signExtend 64))
    ∧ (s.getA ar - 1 = 0 → Runs (.brc tk r off) s (s.setA ar 0)) := by
  have hgoes := brc_goes (r := r) (off := off) h
  have hset (v : AWord) : s.setR r (v.zeroExtend 64) = s.setA ar v := by
    rw [State.setR, if_neg (by simp [hx]), AReg.ofX hr]
    exact congrArg _ (BitVec.setWidth_setWidth_of_le _ (by omega))
  have hzero (v : AWord) : v.zeroExtend 64 = 0 ↔ v = 0 := by
    rw [← BitVec.toNat_inj, ← BitVec.toNat_inj, BitVec.toNat_setWidth]
    have := v.isLt
    simp only [BitVec.ofNat_eq_ofNat, BitVec.toNat_ofNat]
    omega
  rw [State.brcLeft_a hx hr, hset, ne_eq, hzero] at hgoes
  exact ⟨hgoes.1, fun he => by simpa only [he] using hgoes.2 he⟩

/-! ### `jr` (R42, R83) -/

theorem exec_jr (tk : Tok) (ra : XReg) (s : State) :
    exec (.jr tk ra) s = runWord tk [refX ra] s fun s =>
      if (s.getX ra).toNat % 4 ≠ 0 then .trap (trapAt codeAlign (s.getX ra).toNat) else .taken s (s.getX ra) := rfl

/-- A trap that names a register's value. -/
theorem trapAt_toNat (code : BitVec 8) (a : XWord) : trapAt code a.toNat = { code := code, info := 0, addr := a } := by
  rw [trapAt, BitVec.ofNat_toNat, BitVec.setWidth_eq]

theorem jr_goes {s : State} {tk : Tok} {ra : XReg} (h : s.Issues tk) :
    ((s.getX ra).toNat % 4 = 0 → Jumps (.jr tk ra) s s (s.getX ra))
    ∧ ((s.getX ra).toNat % 4 ≠ 0 → Traps (.jr tk ra) s { code := 0x08, info := 0, addr := s.getX ra }) := by
  refine ⟨fun hal => jumps_of_taken (exec_jr ..) h (t := s.doPops (popsOf tk)) ?_ rfl (s.apart_doPops _), fun hal => ?_⟩
  · rw [State.getX_doPops, if_neg (not_not.2 hal)]
  · rw [Traps, exec_jr]
    refine runWord_trap h ?_
    rw [State.getX_doPops, if_pos hal, trapAt_toNat]
    rfl

/-- Settles O6: each transfer by whether it is taken. -/
theorem transfers : Obligations.Transfers := by
  unfold Obligations.Transfers
  intro s tk ra rb r off10 off16 off22 h
  have hpops := s.apart_doPops (popsOf tk)
  have hjr := jr_goes (ra := ra) h.toIssues
  refine ⟨jumps_of_taken (i := .jmp tk off22) (reads := []) (effect := fun s => .taken s (branchTarget s.pc off22)) rfl h.toIssues
      (t := s.doPops (popsOf tk)) ?_ rfl hpops,
    jumps_of_taken (i := .call tk off22) (reads := []) (effect := fun s => .taken (s.setX 63 (s.pc + 4)) (branchTarget s.pc off22)) rfl
      h.toIssues (t := (s.doPops (popsOf tk)).setX 63 (s.pc + 4)) ?_ (State.seq_setX ..) ?_,
    hjr.1, hjr.2, branch_goes (c := fun a b => a == b) rfl h beq_iff_eq, branch_goes (c := fun a b => a != b) rfl h bne_iff_ne,
    branch_goes (c := fun a b => a.slt b) rfl h BitVec.slt_iff_toInt_lt,
    branch_goes (c := fun a b => !a.slt b) rfl h ?_, branch_goes (c := fun a b => a.ult b) rfl h BitVec.ult_iff_toNat_lt,
    branch_goes (c := fun a b => !a.ult b) rfl h ?_, fun hx => (brc_goes_x h hx).1, fun hx => (brc_goes_x h hx).2,
    fun ar hx hr => brc_goes_a h hx hr⟩
  · rw [State.doPops_pc]; rfl
  · rw [State.doPops_pc]; rfl
  · exact s.doPops_setX ..
  · rw [Bool.not_eq_true', ← Bool.not_eq_true, BitVec.slt_iff_toInt_lt, not_lt]
  · rw [Bool.not_eq_true', ← Bool.not_eq_true, BitVec.ult_iff_toNat_lt, not_lt]

/-! ### `rstp` (R69) -/

/-- What `rstp` makes of a crew whose C stands at `pc`. -/
def Crew.restartAt (tk : Tok) (mask : BitVec 16) (pc : XWord) (c : Crew) : Crew :=
  { c with
    snap := { pc := pc, a := c.aC, vsh := c.vsh, vbase := c.vbase, pbase := c.pbase, rep := c.rep,
              loops := c.seqC.loops, ports := c.ports, mask := mask }
    creditL := if tk.popP then c.creditL.drop (c.creditL.length - 1) else []
    creditS := if tk.popN then c.creditS.drop (c.creditS.length - 1) else []
    rings := c.rings.map fun r =>
      if r.set then { r with rhead := r.head, recs := r.recs.filter fun q => r.head ≤ q.1 } else r
    tiles := c.tiles.map fun t => { t with replay := t.replay.mark }
    check := { c.check with used := false }
    restarted := false
    accFails := if c.restarted && c.snap.pc == pc then c.accFails else 0 }

theorem restartPoint_retired {s : State} (h : s.allRetired = true) (tk : Tok) (mask : BitVec 16) :
    restartPoint tk mask s = .done (s.modCrew (Crew.restartAt tk mask s.pc)) := by
  rw [restartPoint, h]
  rfl

theorem exec_rstp (tk : Tok) (mask : BitVec 16) (s : State) :
    exec (.rstp tk mask) s = runWord tk [] s fun s => restartPoint tk mask s := rfl

theorem Crew.seq_restartAt (tk : Tok) (mask : BitVec 16) (pc : XWord) (c : Crew) (st : Stream) :
    (c.restartAt tk mask pc).seq st = c.seq st := by cases st <;> rfl

/-- The last of a list's elements, one if it has any. -/
theorem length_drop_pred {α : Type} {l : List α} {n : Nat} (b : Bool) (h : l.length = n + b.toNat) :
    (if b then l.drop (l.length - 1) else []).length = b.toNat := by
  cases b with
  | false => rfl
  | true =>
    rw [if_pos rfl, List.length_drop, h, Bool.toNat_true]
    omega

/-- C's loops through the pops of its word. -/
theorem State.seqC_loops_doPops {s : State} (hc : s.cur.role = .c) (k : Pops) :
    (s.doPops k).crew.seqC.loops = s.crew.seqC.loops := by
  have hseq (t : State) (ht : t.cur = s.cur) : t.seq = t.crew.seqC := by
    rw [State.seq_crew (by rw [ht, hc]; decide), ht, hc]
    rfl
  rw [← hseq _ (s.doPops_cur k), (s.doPops_place k).1, hseq s rfl]

/-- `rstp` at a time when every earlier command has retired. -/
theorem rstp_answers {s : State} {tk : Tok} (h : s.Clear tk) (hr : s.allRetired = true) (mask : BitVec 16) :
    ∃ t u : State, t.crew = (s.doPops (popsOf tk)).crew.restartAt tk mask s.pc ∧ t.mem = s.mem ∧ t.here.pool = s.here.pool
      ∧ exec (.rstp tk mask) s = .next u ∧ u.apart = t.apart ∧ (s.inLine → u.pc = s.pc + 4) ∧ t.SameTokens u := by
  have hpops := s.apart_doPops (popsOf tk)
  obtain ⟨u, hu, hkeeps⟩ := runWord_keeps (reads := []) (effect := fun s => restartPoint tk mask s) h
    (restartPoint_retired ((State.allRetired_of_apart hpops).trans hr) tk mask)
    (by rw [State.seq_modCrew fun st => Crew.seq_restartAt ..])
  refine ⟨_, u, ?_, ?_, ?_, (exec_rstp ..).trans hu, hkeeps⟩
  · rw [State.crew_modCrew, State.doPops_pc]
  · rw [State.modCrew_mem, State.mem_of_apart hpops]
  · rw [State.pool_modCrew, State.pool_of_apart hpops]

/-- The snapshot of C is of the state before its pops. -/
theorem Crew.snap_restartAt {s : State} (hc : s.cur.role = .c) (tk : Tok) (mask : BitVec 16) :
    ((s.doPops (popsOf tk)).crew.restartAt tk mask s.pc).snap =
      { pc := s.pc, a := s.crew.aC, vsh := s.crew.vsh, vbase := s.crew.vbase, pbase := s.crew.pbase, rep := s.crew.rep,
        loops := s.crew.seqC.loops, ports := s.crew.ports, mask := mask } := by
  have hread := State.readCrew_doPops (fun c => (c.aC, c.vsh, c.vbase, c.pbase, c.rep, c.ports))
    (fun _ st _ => by cases st <;> rfl) (fun _ _ _ _ => rfl) s (popsOf tk)
  simp only [Prod.mk.injEq] at hread
  obtain ⟨ha, hvsh, hvbase, hpbase, hrep, hports⟩ := hread
  rw [Crew.restartAt, State.seqC_loops_doPops hc, ha, hvsh, hvbase, hpbase, hrep, hports]

/-- A ring's heads at a restart point. -/
theorem Crew.rings_restartAt (tk : Tok) (mask : BitVec 16) (pc : XWord) (c : Crew) (i : Fin 16) :
    (((c.restartAt tk mask pc).rings.get i).head = (c.rings.get i).head)
    ∧ ((c.restartAt tk mask pc).rings.get i).rhead = if (c.rings.get i).set then (c.rings.get i).head else (c.rings.get i).rhead := by
  have hget : (c.restartAt tk mask pc).rings.get i = if (c.rings.get i).set then
      { c.rings.get i with rhead := (c.rings.get i).head, recs := (c.rings.get i).recs.filter fun q => (c.rings.get i).head ≤ q.1 }
      else c.rings.get i := by
    simp [Crew.restartAt, Vector.get_eq_getElem]
  rw [hget]
  split <;> exact ⟨rfl, rfl⟩

end Sys2Proof.Machine
end

section
open Sys2Proof Sys2Proof.Machine

/-- Settles O41: `rstp` by whether an earlier command of C is in flight. -/
theorem restartPoint : Obligations.RestartPoint := by
  unfold Obligations.RestartPoint
  intro s tk mask h hc
  have hout : s.allRetired = s.crew.mq.isEmpty := by simp [State.allRetired, hc, Role.stream, Crew.outstanding]
  have hpops := s.apart_doPops (popsOf tk)
  refine ⟨fun hmq => ?_, fun hmq => ?_⟩
  · obtain ⟨t, u, hcrew, hmem, hpool, hu, ha, hpc, htok⟩ := rstp_answers h (by simp [hout, hmq]) mask
    obtain ⟨hl, hs⟩ := State.doPops_credits hc (popsOf tk)
    have hsnap : u.crew.snap = t.crew.snap := State.read_of_apart ha Crew.snap (fun _ => rfl) fun _ st _ => by cases st <;> rfl
    have haC : u.crew.aC = s.crew.aC := by
      rw [State.read_of_apart ha Crew.aC (fun _ => rfl) fun _ st _ => by cases st <;> rfl, hcrew]
      exact State.read_of_apart hpops Crew.aC (fun _ => rfl) fun _ st _ => by cases st <;> rfl
    have hv : u.crew.v = s.crew.v := by
      rw [State.read_of_apart ha Crew.v (fun _ => rfl) fun _ st _ => by cases st <;> rfl, hcrew]
      exact State.read_of_apart hpops Crew.v (fun _ => rfl) fun _ st _ => by cases st <;> rfl
    refine ⟨u, hu, ?_, ?_, ?_, fun i => ?_, hpc, haC, hv, (State.mem_of_apart ha).trans hmem, (State.pool_of_apart ha).trans hpool⟩
    · rw [hsnap, hcrew, Crew.snap_restartAt hc]
    · rw [htok.creditL, hcrew]
      exact length_drop_pred tk.popP hl
    · rw [htok.creditS, hcrew]
      exact length_drop_pred tk.popN hs
    · rw [State.rings_of_apart ha, hcrew, ← State.rings_of_apart hpops]
      exact Crew.rings_restartAt ..
  · have hwait : (s.doPops (popsOf tk)).allRetired = false := by rw [State.allRetired_of_apart hpops, hout]; simpa using hmq
    obtain ⟨u, hu, ha, hpc⟩ := runWord_waits (reads := []) (effect := fun s => Machine.restartPoint tk mask s) (k := .other) (note := id)
      h.toIssues (if_pos (by simp [hwait])) rfl
    exact ⟨u, (exec_rstp ..).trans hu, ha, hpc⟩
end

section
/-! PROOFS. The loop words (R60, R62 to R65): what a loop word pushes or skips, and the rows that `loopx` reads. -/

namespace Sys2Proof.Machine

/-! ### Loop words (R62 to R64) -/

theorem loopRefused_iff {s : State} {last : XWord} :
    loopRefused s last = true ↔ s.seq.loops.length = 4 ∨ ∃ top ∈ s.seq.loops.head?, top.last.toNat < last.toNat := by
  unfold loopRefused
  cases s.seq.loops with
  | nil => simp
  | cons top rest => simp

/-- PushLoop lets a loop in: there is room on the stack, and its body ends within the innermost active one's. -/
structure State.LoopFits (s : State) (last : XWord) : Prop where
  room : s.seq.loops.length < 4
  within : ∀ top ∈ s.seq.loops.head?, last.toNat ≤ top.last.toNat

theorem State.LoopFits.notRefused {s : State} {last : XWord} (h : s.LoopFits last) : loopRefused s last = false := by
  rw [← Bool.not_eq_true, loopRefused_iff]
  rintro (hfull | ⟨top, htop, hlt⟩)
  · exact absurd h.room (by omega)
  · exact absurd (h.within top htop) (by omega)

theorem loopRefused_doPops (s : State) (k : Pops) (last : XWord) : loopRefused (s.doPops k) last = loopRefused s last := by
  rw [loopRefused, (s.doPops_place k).1]
  rfl

/-- The last word of a body is not the loop word. -/
theorem bodyLast_ne (pc : XWord) {len : BitVec 11} (h : len ≠ 0) : bodyLast pc len ≠ pc := by
  intro he
  have hlen : len.toNat ≠ 0 := fun h0 => h (BitVec.eq_of_toNat_eq h0)
  have hnat := congrArg BitVec.toNat he
  have hpc := pc.isLt
  have hlt := len.isLt
  rw [bodyLast, BitVec.toNat_add, BitVec.toNat_mul, BitVec.toNat_setWidth, show (4 : BitVec 64).toNat = 4 from rfl] at hnat
  omega

/-- The entry that a counted loop pushes. -/
def State.loopEntry (s : State) (len : BitVec 11) (kind : LoopKind) (n : Nat) : LoopEntry :=
  { first := s.pc + 4, last := bodyLast s.pc len, left := n, kind := kind, outer := 0, cur := 0 }

theorem pushLoop_doPops (s : State) (tk : Tok) (kind : LoopKind) (n : Nat) (len : BitVec 11) :
    pushLoop kind n len (s.doPops (popsOf tk)) =
      if loopRefused s (bodyLast s.pc len) then .trap (trapOf codeRegRange)
      else if n = 0 then .skip (s.doPops (popsOf tk)) (bodyLast s.pc len)
      else .done ((s.doPops (popsOf tk)).modSeq fun q => { q with loops := s.loopEntry len kind n :: q.loops }) := by
  rw [pushLoop, State.doPops_pc, loopRefused_doPops]
  rfl

/-- Where the innermost loop ends elsewhere, closing goes on to the next address. -/
theorem loopClose_elsewhere {a npc : XWord} {s : State} {top : LoopEntry} {rest : List LoopEntry} (hl : s.seq.loops = top :: rest)
    (htop : top.last ≠ a) (n : Nat) : loopClose a npc s n = .next s npc := by
  cases n with
  | zero => rfl
  | succ n =>
    rw [loopClose, hl]
    exact if_pos htop.symm

section Word
variable {i : Instr} {s t : State} {tk : Tok} {reads : List (State → List RegRef)} {effect : State → Res} {last : XWord}
  (hi : exec i s = runWord tk reads s effect) (h : s.Issues tk)
include hi h

/-- A word that enters a body goes on at its first word. -/
theorem enters_body {top : LoopEntry} {rest : List LoopEntry} (he : effect (s.doPops (popsOf tk)) = .done t)
    (hl : t.seq.loops = top :: rest) (htop : top.last ≠ s.pc) :
    Answers i s fun u => u.apart = t.apart ∧ u.pc = s.pc + 4 ∧ u.seq.loops = top :: rest := by
  refine ⟨retire (pushesOf tk) none false (s.pc + 4) t, ?_, apart_retire .., retire_pc .., (retire_loops ..).trans hl⟩
  rw [hi, runWord, runWith_of_ready effect h.tokens (parityBad_of_nil h.parity _) h.credits he, finish, loopClose_elsewhere hl htop]

/-- A word that skips a body closes the loops that end with it. -/
theorem skips_body (he : effect (s.doPops (popsOf tk)) = .skip t last) {v : State} {npc : XWord}
    (hclose : Machine.loopClose last (last + 4) t (t.seq.loops.length + 1) = .next v npc) :
    Answers i s fun u => u.apart = v.apart ∧ u.pc = npc ∧ u.seq.loops = v.seq.loops := by
  refine ⟨retire (pushesOf tk) none false npc v, ?_, apart_retire .., retire_pc .., retire_loops ..⟩
  rw [hi, runWord, runWith]
  simp only [h.tokens, parityBad_of_nil h.parity, h.credits, he, finish, hclose]
  rfl

/-- A loop word that PushLoop refuses traps. -/
theorem loopWord_traps {kind : LoopKind} {n : Nat} {len : BitVec 11}
    (he : effect (s.doPops (popsOf tk)) = pushLoop kind n len (s.doPops (popsOf tk)))
    (hr : s.seq.loops.length = 4 ∨ ∃ top ∈ s.seq.loops.head?, top.last.toNat < (s.pc + 4 * len.zeroExtend 64).toNat) :
    Traps i s { code := 0x03, info := 0, addr := 0 } := by
  rw [Traps, hi]
  refine runWord_trap h ?_
  rw [he, pushLoop_doPops]
  exact if_pos (loopRefused_iff.2 hr)

/-- A loop word that PushLoop lets in enters its body, or skips it with count 0. -/
theorem loopWord_answers {kind : LoopKind} {n : Nat} {len : BitVec 11}
    (he : effect (s.doPops (popsOf tk)) = pushLoop kind n len (s.doPops (popsOf tk))) (hlen : len ≠ 0)
    (hfit : s.LoopFits (bodyLast s.pc len)) (hrow : ∀ e ∈ s.seq.loops, e.kind = .cursor → e.last ≠ bodyLast s.pc len) :
    Answers i s fun u => u.apart = s.apart
      ∧ (0 < n → u.pc = s.pc + 4 ∧ u.seq.loops = s.loopEntry len kind n :: s.seq.loops)
      ∧ (n = 0 → (∀ e ∈ s.seq.loops, e.last ≠ bodyLast s.pc len) → u.pc = bodyLast s.pc len + 4 ∧ u.seq.loops = s.seq.loops) := by
  have hpops := s.apart_doPops (popsOf tk)
  have hloops := (s.doPops_place (popsOf tk)).1
  rw [pushLoop_doPops, if_neg (by simp [hfit.notRefused])] at he
  by_cases hn : n = 0
  · rw [if_pos hn] at he
    obtain ⟨v, npc, hclose, ha, -⟩ := loopClose_noRow (npc := bodyLast s.pc len + 4)
      ((s.doPops (popsOf tk)).seq.loops.length + 1) (s := s.doPops (popsOf tk)) (a := bodyLast s.pc len) (by rwa [hloops])
    obtain ⟨u, hu, hua, hpc, hul⟩ := skips_body hi h he hclose
    refine ⟨u, hu, (hua.trans ha).trans hpops, fun hpos => absurd hn (by omega), fun _ hline => ?_⟩
    rw [loopClose_inLine (by rwa [hloops])] at hclose
    obtain ⟨rfl, rfl⟩ := Closed.next.inj hclose
    exact ⟨hpc, hul.trans hloops⟩
  · rw [if_neg hn] at he
    obtain ⟨u, hu, hua, hpc, hul⟩ := enters_body hi h he (by rw [State.seq_modSeq]) (bodyLast_ne s.pc hlen)
    refine ⟨u, hu, ?_, fun _ => ⟨hpc, by rw [hul, hloops]⟩, fun h0 => absurd h0 hn⟩
    exact (hua.trans (State.apart_modSeq rfl)).trans hpops

end Word

/-! ### Rows of `loopx` (R65) -/

theorem State.getA_setA {r : AReg} (h : r ≠ 0) (s : State) (v : AWord) : (s.setA r v).getA r = v := by
  rw [State.getA, if_neg h, State.setA, if_neg h, State.crew_modCrew, State.modCrew_cur]
  cases s.cur.role.stream <;> exact vget_set_same _ _ _

theorem State.setA_setA {r : AReg} (h : r ≠ 0) (s : State) (v w : AWord) : (s.setA r v).setA r w = s.setA r w := by
  simp only [State.setA, if_neg h, State.modCrew_modCrew, State.modCrew_cur]
  congr 1
  funext c
  cases s.cur.role.stream <;>
    simp [Crew.clearBad, Crew.setAFile, Crew.aFile, List.filter_filter]

theorem State.badRegs_setA {s : State} (h : s.crew.badRegs = []) (r : AReg) (v : AWord) : (s.setA r v).crew.badRegs = [] := by
  unfold State.setA
  split
  · exact h
  · rw [State.crew_modCrew]
    have hset (c : Crew) (st : Stream) (a : Vector AWord 16) : (c.setAFile st a).badRegs = c.badRegs := by cases st <;> rfl
    rw [Crew.clearBad, hset, h]
    rfl

theorem State.poolRead_setA (s : State) (r : AReg) (v : AWord) (off n align : Nat) :
    (s.setA r v).poolRead off n align = s.poolRead off n align := by
  unfold State.setA
  split
  · rfl
  · have hpart (f : Crew → Crew) (hf : ∀ c, (f c).part = c.part) : (s.modCrew f).part = s.part := by
      rw [State.part, State.modCrew_cur, State.crew_modCrew, hf]
      rfl
    rw [State.poolRead, hpart _ fun c => by cases s.cur.role.stream <;> rfl, State.modCrew_modHere, State.here_modHere]
    rfl

/-- An aligned place passes the same checks as bytes. -/
theorem poolCheck_bytes {part : XWord} {off n align : Nat} (h : poolCheck part off n align = none) : poolCheck part off n 1 = none := by
  unfold poolCheck at h ⊢
  rw [if_neg (by simp [Nat.mod_one])]
  split at h
  · cases h
  · exact h

theorem State.PoolFree.poolRead {s : State} {off n align : Nat} (h : s.PoolFree off n) (hc : poolCheck s.part off n align = none) :
    s.poolRead off n align = .bytes (s.poolBytes (poolPlace s.part off) n) := by
  rw [State.poolRead, hc]
  simp only [h.unlocked, h.sound, Bool.false_eq_true, if_false]
  rfl

theorem poolCheck_le {part : XWord} {off n align : Nat} (h : poolCheck part off n align = none) : off + n ≤ 2 ^ 23 := by
  unfold poolCheck at h
  split at h
  · cases h
  · split at h
    · cases h
    · omega

/-- The cursor of a loop stands at `a`, and its row pointers from there read as `rows`. -/
structure State.CursorAt (s : State) (cur : AReg) (a n : Nat) (rows : Nat → List Byte) : Prop where
  named : cur ≠ 0
  sound : s.crew.badRegs = []
  stands : (s.getA cur).toNat = a
  reads : ∀ i, i ≤ n → s.poolRead (a + 4 * i) 4 1 = .bytes (rows i)
  length : ∀ i, i ≤ n → (rows i).length = 4
  bound : a + 4 * n < 2 ^ 48

theorem State.CursorAt.step {s : State} {cur : AReg} {a n : Nat} {rows : Nat → List Byte} (h : s.CursorAt cur a n rows) :
    s.getA cur + 4 = BitVec.ofNat 48 (a + 4) := by
  have hcur : s.getA cur = BitVec.ofNat 48 a := by rw [← h.stands, BitVec.ofNat_toNat, BitVec.setWidth_eq]
  rw [hcur, BitVec.ofNat_add]
  rfl

/-- After a row the cursor stands at the next. -/
theorem State.CursorAt.next {s : State} {cur : AReg} {a n : Nat} {rows : Nat → List Byte} (h : s.CursorAt cur a (n + 1) rows) :
    (s.setA cur (BitVec.ofNat 48 (a + 4))).CursorAt cur (a + 4) n fun i => rows (i + 1) where
  named := h.named
  sound := State.badRegs_setA h.sound ..
  stands := by
    have hb := h.bound
    rw [State.getA_setA h.named, BitVec.toNat_ofNat]
    omega
  reads i hi := by
    rw [State.poolRead_setA, ← h.reads (i + 1) (by omega)]
    congr 1
    omega
  length i hi := h.length _ (by omega)
  bound := by have hb := h.bound; omega

theorem State.CursorAt.mono {s : State} {cur : AReg} {a n m : Nat} {rows : Nat → List Byte} (h : s.CursorAt cur a n rows) (hm : m ≤ n) :
    s.CursorAt cur a m rows where
  named := h.named
  sound := h.sound
  stands := h.stands
  reads i hi := h.reads i (by omega)
  length i hi := h.length i (by omega)
  bound := by have hb := h.bound; omega

/-- The row that the cursor stands at: its iterations are taken, or the next row is looked at. -/
theorem nextRow_row {s : State} {e : LoopEntry} {a : Nat} {rows : Nat → List Byte} (h : s.CursorAt e.cur a 1 rows) (n : Nat) :
    nextRow e s (n + 1) =
      if leNat (rows 1) - leNat (rows 0) = 0 then
        nextRow { e with outer := n, left := 0 } (s.setA e.cur (BitVec.ofNat 48 (a + 4))) n
      else .ok ({ e with outer := n, left := leNat (rows 1) - leNat (rows 0) }, s.setA e.cur (BitVec.ofNat 48 (a + 4))) := by
  have hrow : s.rowRead e.cur = .bytes (rows 0 ++ rows 1) := by
    have h0 := h.reads 0 (by omega)
    have h1 := h.reads 1 (by omega)
    rw [State.rowRead, if_neg (by simp [parityBad_of_nil h.sound]), h.stands, h1]
    rw [Nat.mul_zero, Nat.add_zero] at h0
    rw [h0]
  have hlen := h.length 0 (by omega)
  rw [nextRow, hrow]
  simp only [h.step, List.take_left' hlen, List.drop_left' hlen]
  split
  · rename_i h0
    rw [h0]
  · rfl

/-- The first row with iterations is taken. -/
theorem nextRow_finds {k n : Nat} {s : State} {e : LoopEntry} {a : Nat} {rows : Nat → List Byte} (hk : k < n)
    (h : s.CursorAt e.cur a (k + 1) rows) (hempty : ∀ i, i < k → leNat (rows (i + 1)) ≤ leNat (rows i))
    (hrow : leNat (rows k) < leNat (rows (k + 1))) :
    nextRow e s n = .ok ({ e with outer := n - 1 - k, left := leNat (rows (k + 1)) - leNat (rows k) },
      s.setA e.cur (BitVec.ofNat 48 (a + 4 * (k + 1)))) := by
  induction k generalizing s e a rows n with
  | zero =>
    obtain ⟨m, rfl⟩ : ∃ m, n = m + 1 := ⟨n - 1, by omega⟩
    rw [nextRow_row h, if_neg (by simp only [Nat.zero_add] at hrow; omega)]
    rfl
  | succ k ih =>
    obtain ⟨m, rfl⟩ : ∃ m, n = m + 1 := ⟨n - 1, by omega⟩
    have hfirst : leNat (rows 1) ≤ leNat (rows 0) := hempty 0 (by omega)
    rw [nextRow_row (h.mono (by omega)), if_pos (by omega),
      ih (e := { e with outer := m, left := 0 }) (n := m) (by omega) h.next (fun i hi => hempty (i + 1) (by omega)) hrow,
      State.setA_setA h.named, show a + 4 + 4 * (k + 1) = a + 4 * (k + 1 + 1) by ring, show m - 1 - k = m + 1 - 1 - (k + 1) by omega]

/-- No row has iterations: the cursor goes past them all. -/
theorem nextRow_none {n : Nat} {s : State} {e : LoopEntry} {a : Nat} {rows : Nat → List Byte} (hn : 0 < n)
    (h : s.CursorAt e.cur a n rows) (hempty : ∀ i, i < n → leNat (rows (i + 1)) ≤ leNat (rows i)) :
    nextRow e s n = .ok ({ e with outer := 0, left := 0 }, s.setA e.cur (BitVec.ofNat 48 (a + 4 * n))) := by
  induction n generalizing s e a rows with
  | zero => omega
  | succ n ih =>
    have hfirst : leNat (rows 1) ≤ leNat (rows 0) := hempty 0 (by omega)
    rw [nextRow_row (h.mono (by omega)), if_pos (by omega)]
    rcases Nat.eq_zero_or_pos n with rfl | hpos
    · rfl
    · rw [ih (e := { e with outer := n, left := 0 }) hpos h.next fun i hi => hempty (i + 1) (by omega), State.setA_setA h.named,
        show a + 4 + 4 * n = a + 4 * (n + 1) by ring]

/-! ### `loopx` (R65) -/

/-- The entry that `loopx` pushes, before its first row. -/
def State.cursorEntry (s : State) (aC : AReg) (len : BitVec 11) (n : Nat) : LoopEntry :=
  { first := s.pc + 4, last := bodyLast s.pc len, left := 0, kind := .cursor, outer := n, cur := aC }

/-- NextRow for a loop that is pushed with what it gives. -/
def State.rowLoop (s : State) (e : LoopEntry) (n : Nat) : Res :=
  match nextRow e s n with
  | .ok (f, s) =>
    let s := s.modSeq fun q => { q with loops := f :: q.loops }
    if 0 < f.left then .done s else .skip s e.last
  | .error (.trap t) => .trap t
  | .error _ => .block .other id

theorem exec_loopx (tk : Tok) (aC aN : AReg) (len : BitVec 11) (s : State) :
    exec (.loopx tk aC aN len) s = runWord tk [refA aC, refA aN] s fun s => cursorLoop aC aN len s := rfl

/-- The checks of `loopx` in the order of R65, then its rows. -/
theorem cursorLoop_doPops {s : State} (hr : s.cur.role ≠ .fw) (tk : Tok) (aC aN : AReg) (len : BitVec 11) :
    cursorLoop aC aN len (s.doPops (popsOf tk)) =
      if (s.getA aN).toNat = 0 then .skip (s.doPops (popsOf tk)) (bodyLast s.pc len)
      else if (s.getA aC).toNat % 4 ≠ 0 then .trap (trapAt codeAlign (s.getA aC).toNat)
      else .ofTrap (poolCheck s.part (s.getA aC).toNat (4 * ((s.getA aN).toNat + 1)) 4)
        (if loopRefused s (bodyLast s.pc len) then .trap (trapOf codeRegRange)
          else (s.doPops (popsOf tk)).rowLoop (s.cursorEntry aC len (s.getA aN).toNat) (s.getA aN).toNat) := by
  have hpart : (s.doPops (popsOf tk)).crew.part = s.part := by
    rw [State.crewPart_of_apart (s.apart_doPops _), State.part, if_neg hr]
  rw [cursorLoop]
  simp only [State.getA_doPops, State.doPops_pc, loopRefused_doPops, hpart]
  rfl

section Loopx
variable {s : State} {tk : Tok} {aC aN : AReg} {len : BitVec 11} (hr : s.cur.role ≠ .fw)
include hr

section Traps
variable (h : s.Issues tk) (hn : 0 < (s.getA aN).toNat)
include h hn

/-- A misaligned cursor traps before its row pointers are looked for. -/
theorem loopx_misaligned (ha : (s.getA aC).toNat % 4 ≠ 0) :
    Traps (.loopx tk aC aN len) s { code := 0x08, info := 0, addr := BitVec.ofNat 64 (s.getA aC).toNat } := by
  refine (exec_loopx ..).trans (runWord_trap h ?_)
  rw [cursorLoop_doPops hr, if_neg (by omega), if_pos ha]
  rfl

theorem loopx_unplaced (ha : (s.getA aC).toNat % 4 = 0) {t : TrapReq}
    (ht : poolCheck s.part (s.getA aC).toNat (4 * ((s.getA aN).toNat + 1)) 4 = some t) : Traps (.loopx tk aC aN len) s t := by
  refine (exec_loopx ..).trans (runWord_trap h ?_)
  rw [cursorLoop_doPops hr, if_neg (by omega), if_neg (not_not.2 ha), ht]
  rfl

theorem loopx_refused (ha : (s.getA aC).toNat % 4 = 0)
    (hok : poolCheck s.part (s.getA aC).toNat (4 * ((s.getA aN).toNat + 1)) 4 = none)
    (hfull : s.seq.loops.length = 4 ∨ ∃ top ∈ s.seq.loops.head?, top.last.toNat < (s.pc + 4 * len.zeroExtend 64).toNat) :
    Traps (.loopx tk aC aN len) s { code := 0x03, info := 0, addr := 0 } := by
  refine (exec_loopx ..).trans (runWord_trap h ?_)
  rw [cursorLoop_doPops hr, if_neg (by omega), if_neg (not_not.2 ha), hok]
  exact if_pos (loopRefused_iff.2 hfull)

end Traps

/-- With no rows it skips its body. -/
theorem loopx_empty (h : s.Issues tk) (hn : (s.getA aN).toNat = 0) (hline : ∀ e ∈ s.seq.loops, e.last ≠ bodyLast s.pc len) :
    Answers (.loopx tk aC aN len) s fun u =>
      u.apart = s.apart ∧ u.pc = bodyLast s.pc len + 4 ∧ u.seq.loops = s.seq.loops := by
  have hloops := (s.doPops_place (popsOf tk)).1
  obtain ⟨u, hu, ha, hpc, hl⟩ := skips_body (exec_loopx tk aC aN len s) h ((cursorLoop_doPops hr ..).trans (if_pos hn))
    (loopClose_inLine (by rwa [hloops]) _)
  exact ⟨u, hu, ha.trans (s.apart_doPops _), hpc, hl.trans hloops⟩

section Rows
variable (h : s.Issues tk) (hC : aC ≠ 0) (hlen : len ≠ 0) (hn : 0 < (s.getA aN).toNat) (ha : (s.getA aC).toNat % 4 = 0)
  (hok : poolCheck s.part (s.getA aC).toNat (4 * ((s.getA aN).toNat + 1)) 4 = none) (hfit : s.LoopFits (bodyLast s.pc len))

/-- The bytes of row pointer `i` of a cursor. -/
def State.rowBytes (s : State) (aC : AReg) (i : Nat) : List Byte := s.poolBytes (poolPlace s.part ((s.getA aC).toNat + 4 * i)) 4

include h hC in
omit hr in
theorem State.cursorAt_doPops {n : Nat} (hfree : ∀ i, i ≤ n → s.PoolFree ((s.getA aC).toNat + 4 * i) 4) :
    (s.doPops (popsOf tk)).CursorAt aC (s.getA aC).toNat n (s.rowBytes aC) where
  named := hC
  sound := (State.badRegs_of_apart (s.apart_doPops _)).trans h.parity
  stands := by rw [State.getA_doPops]
  reads i hi := (State.poolRead_of_apart (s.apart_doPops _) ..).trans ((hfree i hi).poolRead (poolCheck_bytes (hfree i hi).checked))
  length _ _ := length_memGets ..
  bound := by
    have hle := poolCheck_le (hfree n le_rfl).checked
    omega

include hn ha hok hfit in
/-- A loop that passes its checks goes to its rows. -/
theorem cursorLoop_rows : cursorLoop aC aN len (s.doPops (popsOf tk)) =
    (s.doPops (popsOf tk)).rowLoop (s.cursorEntry aC len (s.getA aN).toNat) (s.getA aN).toNat := by
  rw [cursorLoop_doPops hr, if_neg (by omega), if_neg (not_not.2 ha), hok]
  exact if_neg (by simp [hfit.notRefused])

include h hC hlen hn ha hok hfit in
/-- The body runs for the first row that has iterations. -/
theorem loopx_enters {k : Nat} (hk : k < (s.getA aN).toNat) (hfree : ∀ i, i ≤ k + 1 → s.PoolFree ((s.getA aC).toNat + 4 * i) 4)
    (hempty : ∀ i, i < k → leNat (s.rowBytes aC (i + 1)) ≤ leNat (s.rowBytes aC i))
    (hrow : leNat (s.rowBytes aC k) < leNat (s.rowBytes aC (k + 1))) :
    Answers (.loopx tk aC aN len) s fun u =>
      u.apart = (s.setA aC (BitVec.ofNat 48 ((s.getA aC).toNat + 4 * (k + 1)))).apart ∧ u.pc = s.pc + 4 ∧ u.seq.loops =
        { first := s.pc + 4, last := bodyLast s.pc len, left := leNat (s.rowBytes aC (k + 1)) - leNat (s.rowBytes aC k),
          kind := .cursor, outer := (s.getA aN).toNat - 1 - k, cur := aC } :: s.seq.loops := by
  have he := cursorLoop_rows (tk := tk) hr hn ha hok hfit
  have hfind := nextRow_finds (e := s.cursorEntry aC len (s.getA aN).toNat) hk (State.cursorAt_doPops h hC hfree) hempty hrow
  rw [State.rowLoop, hfind] at he
  simp only [show 0 < leNat (s.rowBytes aC (k + 1)) - leNat (s.rowBytes aC k) by omega, if_true] at he
  obtain ⟨u, hu, hua, hpc, hul⟩ := enters_body (exec_loopx tk aC aN len s) h he (by rw [State.seq_modSeq]) (bodyLast_ne s.pc hlen)
  refine ⟨u, hu, ?_, hpc, ?_⟩
  · rw [hua, ← s.doPops_setA (popsOf tk)]
    exact State.apart_modSeq rfl
  · rw [hul, State.seq_setA, (s.doPops_place _).1]
    rfl

include h hC hn ha hok hfit in
/-- With no such row it skips its body. -/
theorem loopx_passes (hfree : ∀ i, i ≤ (s.getA aN).toNat → s.PoolFree ((s.getA aC).toNat + 4 * i) 4)
    (hempty : ∀ i, i < (s.getA aN).toNat → leNat (s.rowBytes aC (i + 1)) ≤ leNat (s.rowBytes aC i))
    (hline : ∀ e ∈ s.seq.loops, e.last ≠ bodyLast s.pc len) :
    Answers (.loopx tk aC aN len) s fun u =>
      u.apart = (s.setA aC (BitVec.ofNat 48 ((s.getA aC).toNat + 4 * (s.getA aN).toNat))).apart ∧ u.pc = bodyLast s.pc len + 4
        ∧ u.seq.loops = s.seq.loops := by
  have he := cursorLoop_rows (tk := tk) hr hn ha hok hfit
  have hnone := nextRow_none (e := s.cursorEntry aC len (s.getA aN).toNat) hn (State.cursorAt_doPops h hC hfree) hempty
  rw [State.rowLoop, hnone] at he
  have hloops : ((s.doPops (popsOf tk)).setA aC (BitVec.ofNat 48 ((s.getA aC).toNat + 4 * (s.getA aN).toNat))).seq.loops
      = s.seq.loops := by rw [State.seq_setA, (s.doPops_place _).1]
  obtain ⟨u, hu, hua, hpc, hul⟩ := skips_body (exec_loopx tk aC aN len s) h he
    (loopClose_ends (top := { s.cursorEntry aC len (s.getA aN).toNat with outer := 0, left := 0 })
      ((congrArg Seq.loops (State.seq_modSeq ..)).trans (congrArg (_ :: ·) hloops)) (Nat.zero_le 1) (fun _ => rfl) hline _)
  refine ⟨u, hu, ?_, hpc, hul.trans (by rw [State.seq_modSeq])⟩
  rw [hua, ← s.doPops_setA (popsOf tk)]
  exact (State.apart_modSeq rfl).trans ((State.turned_apart ..).trans (State.apart_modSeq rfl))

end Rows
end Loopx

/-- Settles O4: counted loops by PushLoop, `loopx` by its checks and the rows at its cursor. -/
theorem loopWords : Obligations.LoopWords := by
  unfold Obligations.LoopWords
  refine ⟨fun s tk count r ra len h hlen hroom hwithin hrow => ?_, fun s tk count len h hr => ?_, fun s tk r ra len h hr => ?_,
    fun s tk aC aN len h hr hC hn => ⟨fun ha => loopx_misaligned hr h hn ha, fun ha t ht => loopx_unplaced hr h hn ha ht,
      fun ha hok hfull => loopx_refused hr h hn ha hok hfull⟩,
    fun s tk aC aN len h hr hC hlen => ⟨fun hn hline => loopx_empty hr h.toIssues hn hline,
      fun hn ha hok hroom hwithin hfree0 hfree1 hb hrow => ?_, fun hn ha hok hroom hwithin =>
      ⟨fun k hk hfree hempty hrow => loopx_enters hr h.toIssues hC hlen hn ha hok ⟨hroom, hwithin⟩ hk hfree hempty hrow,
        fun hfree hempty hline => loopx_passes hr h.toIssues hC hn ha hok ⟨hroom, hwithin⟩ hfree hempty hline⟩⟩⟩
  · have hfit : s.LoopFits (bodyLast s.pc len) := ⟨hroom, hwithin⟩
    exact ⟨loopWord_answers (effect := fun s => pushLoop .plain count.toNat len s) (reads := []) rfl h.toIssues rfl hlen hfit hrow,
      loopWord_answers (effect := fun s => pushLoop .rotating count.toNat len s) (reads := []) rfl h.toIssues rfl hlen hfit hrow,
      loopWord_answers (effect := fun s => pushLoop .plain (s.getX r).toNat len s) (reads := [refX r]) rfl h.toIssues
        (by rw [State.getX_doPops]) hlen hfit hrow,
      loopWord_answers (effect := fun s => pushLoop .plain (s.getA ra).toNat len s) (reads := [refA ra]) rfl h.toIssues
        (by rw [State.getA_doPops]) hlen hfit hrow,
      loopWord_answers (effect := fun s => pushLoop .rotating (s.getA ra).toNat len s) (reads := [refA ra]) rfl h.toIssues
        (by rw [State.getA_doPops]) hlen hfit hrow⟩
  · exact ⟨loopWord_traps (effect := fun s => pushLoop .plain count.toNat len s) (reads := []) rfl h rfl hr,
      loopWord_traps (effect := fun s => pushLoop .rotating count.toNat len s) (reads := []) rfl h rfl hr⟩
  · exact ⟨loopWord_traps (effect := fun s => pushLoop .plain (s.getA ra).toNat len s) (reads := [refA ra]) rfl h rfl hr,
      loopWord_traps (effect := fun s => pushLoop .rotating (s.getA ra).toNat len s) (reads := [refA ra]) rfl h rfl hr,
      loopWord_traps (effect := fun s => pushLoop .plain (s.getX r).toNat len s) (reads := [refX r]) rfl h rfl hr⟩
  · have hfree (i : Nat) (hi : i ≤ 0 + 1) : s.PoolFree ((s.getA aC).toNat + 4 * i) 4 := by
      rcases Nat.le_one_iff_eq_zero_or_eq_one.1 hi with rfl | rfl
      · exact hfree0
      · exact hfree1
    have hstep : s.getA aC + 4 = BitVec.ofNat 48 ((s.getA aC).toNat + 4 * (0 + 1)) := by
      rw [BitVec.ofNat_add, BitVec.ofNat_toNat, BitVec.setWidth_eq]
      rfl
    rw [hstep]
    exact loopx_enters hr h.toIssues hC hlen hn ha hok ⟨hroom, hwithin⟩ hn hfree (fun i hi => absurd hi (by omega)) hrow

end Sys2Proof.Machine
end

section
/-! PROOFS. The integer words of X and the a-register words: what shifts, comparisons, counts, extensions and immediates come to as
numbers and bits (R70 to R75). -/

namespace Sys2Proof.Machine

/-! ### Word operations as arithmetic (Tables 4.3 and 4.4) -/

section Word
variable {w : Nat} (a b : BitVec w) (n : Nat)

theorem mul_eq_ofNat : a * b = BitVec.ofNat w (a.toNat * b.toNat) := BitVec.eq_of_toNat_eq (by simp)

theorem add_eq_ofInt : a + b = BitVec.ofInt w (a.toInt + b.toInt) := by
  rw [BitVec.ofInt_add, BitVec.ofInt_toInt, BitVec.ofInt_toInt]

theorem sub_eq_ofInt : a - b = BitVec.ofInt w (a.toInt - b.toInt) := BitVec.eq_of_toInt_eq (by simp [BitVec.toInt_sub])

theorem shl_eq_ofNat : a <<< n = BitVec.ofNat w (a.toNat * 2 ^ n) := BitVec.eq_of_toNat_eq (by simp [Nat.shiftLeft_eq])

theorem shr_eq_ofNat : a >>> n = BitVec.ofNat w (a.toNat / 2 ^ n) := by
  refine BitVec.eq_of_toNat_eq ?_
  rw [BitVec.toNat_ushiftRight, BitVec.toNat_ofNat, Nat.shiftRight_eq_div_pow,
    Nat.mod_eq_of_lt ((Nat.div_le_self ..).trans_lt a.isLt)]

theorem sra_eq_ofInt : a.sshiftRight n = BitVec.ofInt w (a.toInt / 2 ^ n) := by
  rw [BitVec.sshiftRight, Int.shiftRight_eq_div_pow]
  norm_cast

theorem min_eq_ofInt : (if a.slt b then a else b) = BitVec.ofInt w (Min.min a.toInt b.toInt) := by
  by_cases h : a.toInt < b.toInt
  · rw [if_pos (BitVec.slt_iff_toInt_lt.2 h), min_eq_left h.le, BitVec.ofInt_toInt]
  · rw [if_neg (mt BitVec.slt_iff_toInt_lt.1 h), min_eq_right (not_lt.1 h), BitVec.ofInt_toInt]

theorem max_eq_ofInt : (if a.slt b then b else a) = BitVec.ofInt w (Max.max a.toInt b.toInt) := by
  by_cases h : a.toInt < b.toInt
  · rw [if_pos (BitVec.slt_iff_toInt_lt.2 h), max_eq_right h.le, BitVec.ofInt_toInt]
  · rw [if_neg (mt BitVec.slt_iff_toInt_lt.1 h), max_eq_left (not_lt.1 h), BitVec.ofInt_toInt]

theorem minn_eq_ofNat : (if a.ult b then a else b) = BitVec.ofNat w (Min.min a.toNat b.toNat) := by
  by_cases h : a.toNat < b.toNat
  · rw [if_pos (BitVec.ult_iff_toNat_lt.2 h), min_eq_left h.le, BitVec.ofNat_toNat, BitVec.setWidth_eq]
  · rw [if_neg (mt BitVec.ult_iff_toNat_lt.1 h), min_eq_right (not_lt.1 h), BitVec.ofNat_toNat, BitVec.setWidth_eq]

theorem maxn_eq_ofNat : (if a.ult b then b else a) = BitVec.ofNat w (Max.max a.toNat b.toNat) := by
  by_cases h : a.toNat < b.toNat
  · rw [if_pos (BitVec.ult_iff_toNat_lt.2 h), max_eq_right h.le, BitVec.ofNat_toNat, BitVec.setWidth_eq]
  · rw [if_neg (mt BitVec.ult_iff_toNat_lt.1 h), max_eq_left (not_lt.1 h), BitVec.ofNat_toNat, BitVec.setWidth_eq]

/-- An immediate is the signed value of its bits (R73). -/
theorem add_signExtend_eq_ofInt {k : Nat} (hk : k ≤ w) (imm : BitVec k) :
    a + imm.signExtend w = BitVec.ofInt w (a.toInt + imm.toInt) := by
  rw [add_eq_ofInt, BitVec.toInt_signExtend_of_le hk]

/-- Sixteen bits shifted in (R75). -/
theorem shiftIn_eq_ofNat (hw : 16 ≤ w) (imm : BitVec 16) :
    a <<< 16 ||| imm.zeroExtend w = BitVec.ofNat w (a.toNat * 2 ^ 16 + imm.toNat) := by
  have himm : imm.toNat < 2 ^ w := imm.isLt.trans_le (Nat.pow_le_pow_right (by omega) hw)
  have hdisjoint : a <<< 16 &&& imm.zeroExtend w = 0#w := by
    ext i hi
    by_cases h16 : i < 16
    · simp [h16]
    · simp [h16, BitVec.getLsbD_of_ge imm i (by omega)]
  rw [← BitVec.add_eq_or_of_and_eq_zero _ _ hdisjoint, shl_eq_ofNat, BitVec.ofNat_add]
  congr 1
  exact BitVec.eq_of_toNat_eq (by simp)

end Word

/-! ### Comparisons -/

theorem boolX_slt (a b : XWord) : boolX (a.slt b) = if a.toInt < b.toInt then 1 else 0 := by
  simp only [boolX, BitVec.slt_iff_toInt_lt]

theorem boolX_ult (a b : XWord) : boolX (a.ult b) = if a.toNat < b.toNat then 1 else 0 := by
  simp only [boolX, BitVec.ult_iff_toNat_lt]

/-! ### Division (R72) -/

theorem divS_pos {a b : XWord} (h : b ≠ 0) : divS a b = BitVec.ofInt 64 (a.toInt.tdiv b.toInt) := if_neg h
theorem remS_pos {a b : XWord} (h : b ≠ 0) : remS a b = BitVec.ofInt 64 (a.toInt.tmod b.toInt) := if_neg h

theorem XWord.toInt_ne_zero {b : XWord} (h : b ≠ 0) : b.toInt ≠ 0 := fun h0 => h (BitVec.eq_of_toInt_eq (by simpa using h0))

theorem XWord.ne_zero_of_toInt {b : XWord} (h : b.toInt = -1) : b ≠ 0 := by
  rintro rfl
  simp at h

/-- The remainder is smaller than the divisor and takes the sign of the dividend. -/
theorem tmod_of_ne {a b : Int} (h : b ≠ 0) :
    (a.tmod b).natAbs < b.natAbs ∧ (a.tmod b = 0 ∨ (0 < a.tmod b ↔ 0 < a)) := by
  refine ⟨?_, ?_⟩
  · rw [Int.natAbs_tmod]
    exact Nat.mod_lt _ (Int.natAbs_pos.2 h)
  · rcases le_or_gt 0 a with ha | ha
    · have := Int.tmod_nonneg b ha
      rcases eq_or_lt_of_le ha with rfl | hpos
      · exact .inl (Int.zero_tmod b)
      · by_cases h0 : a.tmod b = 0
        · exact .inl h0
        · exact .inr ⟨fun _ => hpos, fun _ => by omega⟩
    · have hneg : a.tmod b ≤ 0 := by
        have := Int.tmod_nonneg b (a := -a) (by omega)
        rw [Int.neg_tmod] at this
        omega
      exact .inr ⟨fun hp => by omega, fun hp => by omega⟩

/-- Settles O7: each word's value as its row gives it; division by whether the divisor is zero. -/
theorem integerArithmetic : Obligations.IntegerArithmetic := by
  unfold Obligations.IntegerArithmetic
  refine ⟨fun s tk rd ra rb h => ?_, fun s tk rd ra rb h => ⟨fun hb => ?_, fun ha hb => ?_, fun hb => ?_, fun hb => ?_⟩⟩
  · exact ⟨aluRR_runs h (BitVec.add_def ..), aluRR_runs h (sub_eq_ofInt ..), aluRR_runs (f := fun a b => a &&& b) h rfl,
      aluRR_runs (f := fun a b => a ||| b) h rfl, aluRR_runs (f := fun a b => a ^^^ b) h rfl,
      aluRR_runs (f := fun a b => a &&& ~~~b) h rfl, aluRR_runs (f := fun a b => a ||| ~~~b) h rfl,
      aluRR_runs (f := fun a b => a <<< shiftCount b) h (shl_eq_ofNat ..),
      aluRR_runs (f := fun a b => a >>> shiftCount b) h (shr_eq_ofNat ..),
      aluRR_runs (f := fun a b => a.sshiftRight (shiftCount b)) h (sra_eq_ofInt ..),
      aluRR_runs (f := fun a b => boolX (a.slt b)) h (boolX_slt ..), aluRR_runs (f := fun a b => boolX (a.ult b)) h (boolX_ult ..),
      aluRR_runs (f := fun a b => if a.slt b then a else b) h (min_eq_ofInt ..),
      aluRR_runs (f := fun a b => if a.slt b then b else a) h (max_eq_ofInt ..),
      aluRR_runs (f := fun a b => if a.ult b then a else b) h (minn_eq_ofNat ..),
      aluRR_runs (f := fun a b => if a.ult b then b else a) h (maxn_eq_ofNat ..),
      aluRR_runs h (mul_eq_ofNat ..), aluRR_runs (f := mulHigh) h rfl, aluRR_runs (f := mulHighN) h rfl⟩
  · exact ⟨aluRR_runs (f := divS) h (if_pos hb), aluRR_runs (f := divU) h (if_pos hb), aluRR_runs (f := remS) h (if_pos hb),
      aluRR_runs (f := remU) h (if_pos hb)⟩
  · have hne := XWord.ne_zero_of_toInt hb
    refine ⟨aluRR_runs (f := divS) h ?_, aluRR_runs (f := remS) h ?_⟩
    · rw [divS_pos hne, ha, hb, ← BitVec.ofInt_toInt (x := s.getX ra), ha]
      rfl
    · rw [remS_pos hne, ha, hb]
      rfl
  · exact ⟨aluRR_runs (f := divU) h (if_neg hb), aluRR_runs (f := remU) h (if_neg hb)⟩
  · obtain ⟨hlt, hsign⟩ := tmod_of_ne (a := (s.getX ra).toInt) (XWord.toInt_ne_zero hb)
    exact ⟨_, _, (Int.tdiv_mul_add_tmod ..).symm, hlt, hsign, aluRR_runs (f := divS) h (divS_pos hb),
      aluRR_runs (f := remS) h (remS_pos hb)⟩

/-! ### Counts of bits (Table 4.4) -/

/-- The leading zeros of the `n` low bits. -/
theorem clzFrom_spec (v n : Nat) : clzFrom v n ≤ n ∧ (∀ j, n - clzFrom v n ≤ j → j < n → v.testBit j = false)
    ∧ (clzFrom v n < n → v.testBit (n - 1 - clzFrom v n) = true) := by
  induction n with
  | zero => exact ⟨le_rfl, fun j _ hj => absurd hj (by omega), fun h => absurd h (by omega)⟩
  | succ n ih =>
    obtain ⟨hle, hzero, hone⟩ := ih
    rw [clzFrom]
    split
    · rename_i hbit
      exact ⟨by omega, fun j hlo hhi => absurd hlo (by omega), fun _ => by simpa [Nat.testBit_eq_decide_div_mod_eq] using hbit⟩
    · rename_i hbit
      refine ⟨by omega, fun j hlo hhi => ?_, fun hlt => ?_⟩
      · rcases Nat.lt_succ_iff_lt_or_eq.1 hhi with hj | rfl
        · exact hzero j (by omega) hj
        · simpa [Nat.testBit_eq_decide_div_mod_eq] using hbit
      · rw [show n + 1 - 1 - (1 + clzFrom v n) = n - 1 - clzFrom v n by omega]
        exact hone (by omega)

/-- The trailing zeros of the `n` low bits. -/
theorem ctzFrom_spec (v n : Nat) : ctzFrom v n ≤ n ∧ (∀ j, j < ctzFrom v n → v.testBit j = false)
    ∧ (ctzFrom v n < n → v.testBit (ctzFrom v n) = true) := by
  induction n generalizing v with
  | zero => exact ⟨le_rfl, fun j hj => absurd hj (by simp [ctzFrom]), fun h => absurd h (by omega)⟩
  | succ n ih =>
    obtain ⟨hle, hzero, hone⟩ := ih (v / 2)
    rw [ctzFrom]
    split
    · rename_i hbit
      exact ⟨by omega, fun j hj => absurd hj (by omega), fun _ => by simpa [Nat.testBit_zero] using hbit⟩
    · rename_i hbit
      refine ⟨by omega, fun j hj => ?_, fun hlt => ?_⟩
      · cases j with
        | zero => simpa [Nat.testBit_zero] using hbit
        | succ j => rw [Nat.testBit_succ]; exact hzero j (by omega)
      · rw [Nat.add_comm 1, Nat.testBit_succ]
        exact hone (by omega)

/-- The set bits among the `n` low ones. -/
theorem popcFrom_eq_countP (v n : Nat) : popcFrom v n = (List.range n).countP fun j => v.testBit j := by
  induction n generalizing v with
  | zero => rfl
  | succ n ih =>
    rw [popcFrom, ih, List.range_succ_eq_map, List.countP_cons, List.countP_map, Nat.add_comm]
    congr 1
    · refine List.countP_congr fun j _ => ?_
      rw [Function.comp, Nat.testBit_succ]
    · rcases Nat.mod_two_eq_zero_or_one v with h | h <;> simp [Nat.testBit_zero, h]

/-! ### Bytes reversed and values extended (R18, R24) -/

theorem testBit_leNat (l : List Byte) (j : Nat) : (leNat l).testBit j = (l.getD (j / 8) 0).getLsbD (j % 8) := by
  induction l generalizing j with
  | nil => simp [leNat]
  | cons b rest ih =>
    have hb : b.toNat < 2 ^ 8 := b.isLt
    rw [leNat, Nat.add_comm, show (256 : Nat) = 2 ^ 8 from rfl, Nat.testBit_two_pow_mul_add _ hb]
    by_cases hj : j < 8
    · rw [if_pos hj, Nat.div_eq_of_lt hj, Nat.mod_eq_of_lt hj]
      rfl
    · rw [if_neg hj, ih, show j / 8 = (j - 8) / 8 + 1 by omega, show j % 8 = (j - 8) % 8 by omega]
      rfl

theorem getElem_natLe {n i : Nat} (v : Nat) (h : i < (natLe n v).length) : (natLe n v)[i] = BitVec.ofNat 8 (v / 256 ^ i) := by
  induction n generalizing v i with
  | zero => simp [natLe] at h
  | succ n ih =>
    cases i with
    | zero => simp [natLe]
    | succ i =>
      simp only [natLe, List.getElem_cons_succ]
      rw [ih, Nat.div_div_eq_div_mul, Nat.pow_succ, Nat.mul_comm]

theorem getLsbD_byteSwap (a : XWord) {j : Nat} (h : j < 64) : (byteSwap a).getLsbD j = a.getLsbD (56 - j / 8 * 8 + j % 8) := by
  have hlen : j / 8 < (natLe 8 a.toNat).reverse.length := by rw [List.length_reverse, length_natLe]; omega
  rw [byteSwap, BitVec.getLsbD_ofNat, testBit_leNat, List.getD_eq_getElem _ _ hlen, List.getElem_reverse, getElem_natLe,
    BitVec.getLsbD_ofNat, length_natLe, show (256 : Nat) = 2 ^ 8 from rfl, ← Nat.pow_mul, Nat.testBit_div_two_pow,
    BitVec.testBit_toNat, show j % 8 + 8 * (8 - 1 - j / 8) = 56 - j / 8 * 8 + j % 8 by omega]
  simp [h, Nat.mod_lt]

theorem sext_eq_toInt (v w : Nat) : sext v w = (BitVec.ofNat w v).toInt := by
  rw [sext, BitVec.toInt_eq_toNat_cond, BitVec.toNat_ofNat]

theorem getLsbD_sextLow {w : Nat} (hw : 0 < w) (a : XWord) {j : Nat} (h : j < 64) :
    (sextLow w a).getLsbD j = if j < w then a.getLsbD j else a.getLsbD (w - 1) := by
  have hs : sextLow w a = (a.setWidth w).signExtend 64 := by
    rw [sextLow, sext_eq_toInt, BitVec.ofNat_toNat]
    rfl
  rw [hs, BitVec.getLsbD_signExtend, BitVec.msb_eq_getLsbD_last]
  by_cases hj : j < w
  · simp [h, hj]
  · simp [h, hj, hw]

/-- A word that writes a sign extension of the low bits. -/
theorem sext_runs {i : Instr} {s : State} {tk : Tok} {rd ra : XReg} {w : Nat} (hi : exec i s = aluR tk rd ra s (sextLow w))
    (hw : 0 < w) (h : s.Clear tk) : ∃ v : XWord, Runs i s (s.setX rd v) ∧
      (∀ j, j < w → v.getLsbD j = (s.getX ra).getLsbD j) ∧ ∀ j, w ≤ j → j < 64 → v.getLsbD j = (s.getX ra).getLsbD (w - 1) := by
  refine ⟨sextLow w (s.getX ra), ?_, fun j hj => ?_, fun j hlo hhi => ?_⟩
  · rw [Runs, hi]
    exact aluR_runs h rfl
  · by_cases h64 : j < 64
    · rw [getLsbD_sextLow hw _ h64, if_pos hj]
    · rw [BitVec.getLsbD_of_ge _ _ (by omega), BitVec.getLsbD_of_ge _ _ (by omega)]
  · rw [getLsbD_sextLow hw _ hhi, if_neg (by omega)]

theorem imm10_eq_ofInt (imm : BitVec 10) : imm10 imm = BitVec.ofInt 64 imm.toInt := rfl

theorem toInt_imm10 (imm : BitVec 10) : (imm10 imm).toInt = imm.toInt := BitVec.toInt_signExtend_of_le (by omega)

/-- Settles O8: the counts and extensions by their bits, the immediates by their signed value. -/
theorem oneOperandWords : Obligations.OneOperandWords := by
  unfold Obligations.OneOperandWords
  refine ⟨fun s tk rd ra h => ⟨?_, ?_, ?_, ?_, sext_runs rfl (by omega) h, sext_runs rfl (by omega) h, sext_runs rfl (by omega) h,
    aluR_runs (f := fun a => BitVec.ofNat 64 (a.toNat % 2 ^ 32)) h rfl⟩, fun s tk rd ra imm n imm16 h => ?_⟩
  · obtain ⟨hle, hzero, hone⟩ := clzFrom_spec (s.getX ra).toNat 64
    refine ⟨_, hle, fun j hj => ?_, fun hlt => ?_, aluR_runs (f := fun a => BitVec.ofNat 64 (clzFrom a.toNat 64)) h rfl⟩
    · by_cases h64 : j < 64
      · rw [← BitVec.testBit_toNat, hzero j hj h64]
      · exact BitVec.getLsbD_of_ge _ _ (by omega)
    · rw [← BitVec.testBit_toNat]
      exact hone hlt
  · obtain ⟨hle, hzero, hone⟩ := ctzFrom_spec (s.getX ra).toNat 64
    refine ⟨_, hle, fun j hj => ?_, fun hlt => ?_, aluR_runs (f := fun a => BitVec.ofNat 64 (ctzFrom a.toNat 64)) h rfl⟩
    · rw [← BitVec.testBit_toNat, hzero j hj]
    · rw [← BitVec.testBit_toNat]
      exact hone hlt
  · exact aluR_runs (f := fun a => BitVec.ofNat 64 (popcFrom a.toNat 64)) h (by rw [popcFrom_eq_countP]; rfl)
  · exact ⟨_, aluR_runs (f := byteSwap) h rfl, fun j hj => getLsbD_byteSwap _ hj⟩
  · exact ⟨aluR_runs (f := fun a => a + imm10 imm) h (add_signExtend_eq_ofInt _ (by omega) imm),
      aluR_runs (f := fun a => a &&& imm10 imm) h rfl, aluR_runs (f := fun a => a ||| imm10 imm) h rfl,
      aluR_runs (f := fun a => a ^^^ imm10 imm) h rfl,
      aluR_runs (f := fun a => boolX (a.slt (imm10 imm))) h (by rw [boolX_slt, toInt_imm10]),
      aluR_runs (f := fun a => boolX (a.ult (imm10 imm))) h (boolX_ult ..),
      aluR_runs (f := fun a => a <<< n.toNat) h (shl_eq_ofNat ..), aluR_runs (f := fun a => a >>> n.toNat) h (shr_eq_ofNat ..),
      aluR_runs (f := fun a => a.sshiftRight n.toNat) h (sra_eq_ofInt ..),
      setX_reaches (f := fun _ => imm16.signExtend 64) h rfl,
      aluR_runs (f := fun a => a <<< 16 ||| imm16.zeroExtend 64) h (shiftIn_eq_ofNat _ (by omega) _)⟩

/-- A word that writes an a-register with a function of one. -/
theorem aopR_runs {tk : Tok} {reads : List (State → List RegRef)} {ad aa : AReg} {s : State} {f : AWord → AWord} {v : AWord}
    (h : s.Clear tk) (hv : f (s.getA aa) = v) :
    Reaches (runWord tk reads s fun s => .done (s.setA ad (f (s.getA aa)))) s (s.setA ad v) := by
  subst hv
  exact setA_reaches (f := fun s => f (s.getA aa)) h (by simp only [State.getA_doPops])

/-- Settles O9: each word's value on 48 bits. -/
theorem aRegisterWords : Obligations.ARegisterWords := by
  unfold Obligations.ARegisterWords
  intro s tk ad aa ab imm14 imm16 h
  exact ⟨aopRR_runs h (BitVec.add_def ..), aopRR_runs h (sub_eq_ofInt ..),
    aopRR_runs (f := fun a b => a <<< aShift b) h (shl_eq_ofNat ..), aopRR_runs (f := fun a b => a >>> aShift b) h (shr_eq_ofNat ..),
    aopRR_runs (f := fun a b => a.sshiftRight (aShift b)) h (sra_eq_ofInt ..), aopRR_runs h (mul_eq_ofNat ..),
    aopRR_runs (f := fun a b => if a.slt b then a else b) h (min_eq_ofInt ..),
    aopRR_runs (f := fun a b => if a.slt b then b else a) h (max_eq_ofInt ..), aopRR_runs (f := fun a b => a &&& b) h rfl,
    aopRR_runs (f := fun a b => a ||| b) h rfl, aopRR_runs (f := fun a b => a ^^^ b) h rfl,
    aopR_runs (f := fun a => a + imm14.signExtend 48) h (add_signExtend_eq_ofInt _ (by omega) _),
    setA_reaches (f := fun _ => imm16.signExtend 48) h rfl,
    aopR_runs (f := fun a => a <<< 16 ||| imm16.zeroExtend 48) h (shiftIn_eq_ofNat _ (by omega) _)⟩

end Sys2Proof.Machine
end

section
/-! PROOFS. The words of X that select or sign an FP32 pattern without rounding (R76). -/

namespace Sys2Proof.Machine

/-- The order of values is strict. -/
theorem FV.lt_asymm {a b : FV} (h : a.lt b = true) : b.lt a = false := by
  cases a with
  | nan => cases h
  | inf s =>
    cases b with
    | nan => cases h
    | inf s' => cases s <;> cases s' <;> simp_all [FV.lt]
    | num => simp_all [FV.lt]
  | num s n d e =>
    cases b with
    | nan => cases h
    | inf s' => simp_all [FV.lt]
    | num s' n' d' e' =>
      have hm : (if e ≤ e' then e else e') = if e' ≤ e then e' else e := by split <;> split <;> omega
      simp only [FV.lt, decide_eq_true_eq, decide_eq_false_iff_not, hm] at h ⊢
      omega

/-- Of two values in order the order with signed zeros holds, and not the other way. -/
theorem ltSigned_of_lt {a b : W32} (h : (f32 a).lt (f32 b) = true) : ltSigned a b = true ∧ ltSigned b a = false := by
  have hasymm := FV.lt_asymm h
  simp [ltSigned, FV.eqv, h, hasymm]

section Select
variable {a b : W32}

theorem fminBits_nan_nan (ha : isNan32 a = true) (hb : isNan32 b = true) : fminBits a b = nan32 := by
  rw [fminBits, if_pos ha, if_pos hb]
theorem fmaxBits_nan_nan (ha : isNan32 a = true) (hb : isNan32 b = true) : fmaxBits a b = nan32 := by
  rw [fmaxBits, if_pos ha, if_pos hb]

theorem fminBits_nan_left (ha : isNan32 a = true) (hb : isNan32 b = false) : fminBits a b = b := by
  rw [fminBits, if_pos ha, if_neg (by simp [hb])]
theorem fmaxBits_nan_left (ha : isNan32 a = true) (hb : isNan32 b = false) : fmaxBits a b = b := by
  rw [fmaxBits, if_pos ha, if_neg (by simp [hb])]

theorem fminBits_nan_right (ha : isNan32 a = false) (hb : isNan32 b = true) : fminBits a b = a := by
  rw [fminBits, if_neg (by simp [ha]), if_pos hb]
theorem fmaxBits_nan_right (ha : isNan32 a = false) (hb : isNan32 b = true) : fmaxBits a b = a := by
  rw [fmaxBits, if_neg (by simp [ha]), if_pos hb]

section Ordered
variable (ha : isNan32 a = false) (hb : isNan32 b = false)
include ha hb

theorem fminBits_ordered : fminBits a b = if ltSigned b a then b else a := by
  rw [fminBits, if_neg (by simp [ha]), if_neg (by simp [hb])]
theorem fmaxBits_ordered : fmaxBits a b = if ltSigned a b then b else a := by
  rw [fmaxBits, if_neg (by simp [ha]), if_neg (by simp [hb])]

/-- The lesser of two values, and the greater. -/
theorem select_of_lt (h : (f32 a).lt (f32 b) = true) : fminBits a b = a ∧ fmaxBits a b = b := by
  obtain ⟨hlt, hge⟩ := ltSigned_of_lt h
  rw [fminBits_ordered ha hb, fmaxBits_ordered ha hb, if_pos hlt, if_neg (by simp [hge])]
  exact ⟨rfl, rfl⟩

theorem select_of_gt (h : (f32 b).lt (f32 a) = true) : fminBits a b = b ∧ fmaxBits a b = a := by
  obtain ⟨hlt, hge⟩ := ltSigned_of_lt h
  rw [fminBits_ordered ha hb, fmaxBits_ordered ha hb, if_pos hlt, if_neg (by simp [hge])]
  exact ⟨rfl, rfl⟩

end Ordered
end Select

/-- The zeros in their order. -/
theorem select_zeros : fminBits 0x80000000 0 = 0x80000000 ∧ fmaxBits 0x80000000 0 = 0 ∧ fminBits 0 0x80000000 = 0x80000000
    ∧ fmaxBits 0 0x80000000 = 0 := by decide

section Words
variable {s : State} {tk : Tok} (fd fa fb : FReg) (h : s.Clear tk)
include h

theorem fmin_runs {v : W32} (hv : fminBits (s.getF fa) (s.getF fb) = v) : Runs (.fmin tk fd fa fb) s (s.setF fd v) :=
  fopRR_runs (f := fminBits) h hv

theorem fmax_runs {v : W32} (hv : fmaxBits (s.getF fa) (s.getF fb) = v) : Runs (.fmax tk fd fa fb) s (s.setF fd v) :=
  fopRR_runs (f := fmaxBits) h hv

theorem select_runs {v w : W32} (hv : fminBits (s.getF fa) (s.getF fb) = v ∧ fmaxBits (s.getF fa) (s.getF fb) = w) :
    Runs (.fmin tk fd fa fb) s (s.setF fd v) ∧ Runs (.fmax tk fd fa fb) s (s.setF fd w) :=
  ⟨fmin_runs fd fa fb h hv.1, fmax_runs fd fa fb h hv.2⟩

theorem fabs_runs {v : W32} (hv : signOp (s.getF fa) (magBits32 (s.getF fa)) = v) : Runs (.fabs tk fd fa) s (s.setF fd v) :=
  fopR_runs (f := fun a => signOp a (magBits32 a)) h hv

theorem fneg_runs {v : W32} (hv : signOp (s.getF fa) (s.getF fa ^^^ 0x80000000) = v) : Runs (.fneg tk fd fa) s (s.setF fd v) :=
  fopR_runs (f := fun a => signOp a (a ^^^ 0x80000000)) h hv

theorem fsgnj_runs {v : W32} (hv : signOp (s.getF fa) (signBit32 (s.getF fb) ||| magBits32 (s.getF fa)) = v) :
    Runs (.fsgnj tk fd fa fb) s (s.setF fd v) :=
  fopRR_runs (f := fun a b => signOp a (signBit32 b ||| magBits32 a)) h hv

end Words

/-- Settles O11: each word by which of its operands are NaNs, and by their order. -/
theorem floatSelections : Obligations.FloatSelections := by
  unfold Obligations.FloatSelections
  intro s tk fd fa fb h
  refine ⟨fun ha => ?_, fun ha => ?_, fun ha hb => select_runs fd fa fb h ⟨fminBits_nan_nan ha hb, fmaxBits_nan_nan ha hb⟩,
    fun ha hb => select_runs fd fa fb h ⟨fminBits_nan_left ha hb, fmaxBits_nan_left ha hb⟩,
    fun ha hb => select_runs fd fa fb h ⟨fminBits_nan_right ha hb, fmaxBits_nan_right ha hb⟩,
    fun ha hb hlt => select_runs fd fa fb h (select_of_lt ha hb hlt), fun ha hb hlt => select_runs fd fa fb h (select_of_gt ha hb hlt),
    fun ha hb => ?_, fun ha hb => ?_⟩
  · have hnan (r : W32) : signOp (s.getF fa) r = nan32 := if_pos ha
    exact ⟨fabs_runs fd fa h (hnan _), fneg_runs fd fa h (hnan _), fsgnj_runs fd fa fb h (hnan _)⟩
  · have hnum (r : W32) : signOp (s.getF fa) r = r := if_neg (by simp [isNan32, ha])
    exact ⟨fabs_runs fd fa h (hnum _), fneg_runs fd fa h (hnum _), fsgnj_runs fd fa fb h ((hnum _).trans (BitVec.or_comm ..))⟩
  · obtain ⟨hmin, hmax, -, -⟩ := select_zeros
    rw [ha, hb]
    exact select_runs fd fa fb h (by rw [ha, hb]; exact ⟨hmin, hmax⟩)
  · obtain ⟨-, -, hmin, hmax⟩ := select_zeros
    rw [ha, hb]
    exact select_runs fd fa fb h (by rw [ha, hb]; exact ⟨hmin, hmax⟩)

end Sys2Proof.Machine
end

section
/-! PROOFS. The memory words of X in the pool: addresses and loaded values as numbers, the checks of a pool access one by one, and what
a load and a store do (R79 to R81). -/

namespace Sys2Proof.Machine

/-! ### Addresses and values (R79) -/

theorem xmAddr_eq_ofInt (base : XWord) (off : BitVec 8) (k : Nat) :
    xmAddr base off k = BitVec.ofInt 64 (base.toInt + off.toInt * (2 ^ k : Nat)) := by
  rw [BitVec.ofInt_add, BitVec.ofInt_mul, BitVec.ofInt_toInt, BitVec.ofInt_natCast]
  rfl

/-- A float word's address: units of 4 bytes. -/
theorem xmAddr_four (base : XWord) (off : BitVec 8) : xmAddr base off 2 = BitVec.ofInt 64 (base.toInt + off.toInt * 4) :=
  xmAddr_eq_ofInt base off 2

theorem extend_unsigned (b : List Byte) : extend false b = BitVec.ofNat 64 (leNat b) := rfl

theorem extend_signed {b : List Byte} {n : Nat} (hb : b.length = n) (hn : 0 < n) : extend true b =
    BitVec.ofInt 64 (if leNat b < 2 ^ (8 * n - 1) then (leNat b : Int) else (leNat b : Int) - (2 ^ (8 * n) : Nat)) := by
  have hlt : leNat b < 2 ^ (8 * n) := by
    have h := leNat_lt b
    rwa [hb, show (256 : Nat) = 2 ^ 8 from rfl, ← Nat.pow_mul] at h
  have hpow : 2 ^ (8 * n) = 2 * 2 ^ (8 * n - 1) := by rw [← Nat.pow_succ', Nat.succ_eq_add_one, Nat.sub_add_cancel (by omega)]
  rw [extend, if_pos rfl, sext, hb, Nat.mod_eq_of_lt hlt]
  congr 1
  exact if_congr (by omega) rfl rfl

theorem State.length_poolBytes (s : State) (place n : Nat) : (s.poolBytes place n).length = n := length_memGets ..

/-! ### Writing what a load gives -/

/-- An update that setting issue apart passes over, and that leaves the sequencer. -/
structure State.Lands (put : State → State) : Prop where
  seq : ∀ s, (put s).seq = s.seq
  apart : ∀ s, (put s).apart = put s.apart

theorem State.lands_setX (r : XReg) (v : XWord) : State.Lands fun s => s.setX r v :=
  ⟨fun s => s.seq_setX r v, fun s => s.apart_setX r v⟩

theorem State.lands_setF (r : FReg) (v : W32) : State.Lands fun s => s.setF r v :=
  ⟨fun s => s.seq_setF r v, fun s => s.apart_setF r v⟩

theorem State.Lands.of_apart {put : State → State} (h : State.Lands put) {u s : State} (hu : u.apart = s.apart) :
    (put u).apart = (put s).apart := by rw [h.apart, h.apart, hu]

/-! ### The checks of a pool access (R80) -/

theorem poolCheck_misaligned {part : XWord} {off n : Nat} (h : off % n ≠ 0) : poolCheck part off n n = some (trapAt codeAlign off) :=
  if_pos h

theorem poolCheck_beyond {part : XWord} {off n : Nat} (h : off % n = 0) (hfar : 2 ^ 23 < off + n) :
    poolCheck part off n n = some (trapAt codePoolRange off) := by
  rw [poolCheck, if_neg (not_not.2 h), if_pos hfar]

theorem poolCheck_outside {part : XWord} {off n : Nat} (h : off % n = 0) (hnear : off + n ≤ 2 ^ 23)
    (hout : off < sBegin part ∨ allotEnd part < off + n) : poolCheck part off n n = some (trapAt codePoolPart off) := by
  rw [poolCheck, if_neg (not_not.2 h), if_neg (by omega), if_pos (by simpa using hout)]

theorem State.poolLoad_trap {s : State} {a : XWord} {n : Nat} {t : TrapReq} (h : poolCheck s.part a.toNat n n = some t)
    (k : List Byte → Res) : s.poolLoad a n k = .trap t := by
  simp only [State.poolLoad, State.poolRead, h]

theorem State.poolWriteAt_trap {s : State} {a : XWord} {b : List Byte} {t : TrapReq}
    (h : poolCheck s.part a.toNat b.length b.length = some t) : s.poolWriteAt a b = .trap t := by
  simp only [State.poolWriteAt, h]

/-! ### Pool loads and stores as words -/

section PoolWord
variable {i : Instr} {s : State} {tk : Tok} {reads : List (State → List RegRef)} {ra : XReg} {off : BitVec 8} {k n : Nat} {a : XWord}
  (ha : xmAddr (s.getX ra) off k = a)

section Load
variable {put : List Byte → State → State}
  (hi : exec i s = runWord tk reads s fun s => s.poolLoad (xmAddr (s.getX ra) off k) n fun b => .done (put b s))
include hi ha

theorem poolLoad_traps (h : s.Issues tk) {t : TrapReq} (ht : poolCheck s.part a.toNat n n = some t) : Traps i s t := by
  subst ha
  refine hi.trans (runWord_trap h ?_)
  rw [State.getX_doPops]
  exact State.poolLoad_trap (by rwa [State.part_of_apart (s.apart_doPops _)]) _

/-- A load of free bytes writes what it gives. -/
theorem poolLoad_runs (h : s.Clear tk) (hput : ∀ b, State.Lands (put b)) (hfree : s.PoolFree a.toNat n) :
    Runs i s (put (s.poolBytes (poolPlace s.part a.toNat) n) s) := by
  subst ha
  have hpops := s.apart_doPops (popsOf tk)
  rw [Runs, hi]
  refine runWord_reaches h (t := put (s.poolBytes (poolPlace s.part (xmAddr (s.getX ra) off k).toNat) n) (s.doPops (popsOf tk))) ?_
    (by rw [(hput _).seq]) ((hput _).of_apart hpops)
  rw [State.getX_doPops, State.poolLoad, State.poolRead_of_apart hpops, hfree.poolRead hfree.checked]

end Load

section Store
variable {v : State → Nat} (hv : v (s.doPops (popsOf tk)) = v s)
  (hi : exec i s = runWord tk reads s fun s => s.poolWriteAt (xmAddr (s.getX ra) off k) (natLe n (v s)))
include hi ha

theorem poolStore_traps (h : s.Issues tk) {t : TrapReq} (ht : poolCheck s.part a.toNat n n = some t) : Traps i s t := by
  subst ha
  refine hi.trans (runWord_trap h ?_)
  rw [State.getX_doPops]
  refine State.poolWriteAt_trap ?_
  rwa [length_natLe, State.part_of_apart (s.apart_doPops _)]

/-- What a store of `n` bytes of a number does: the bytes stand where it wrote them, and everything else is as it was. -/
def State.StoredAt (s : State) (off n v : Nat) (u : State) : Prop :=
  let place := poolPlace s.part off
  u.apart = (s.poolStore off (natLe n v)).apart
  ∧ (∀ x, x < place ∨ place + n ≤ x → memGet u.here.pool x = memGet s.here.pool x)
  ∧ leNat (memGets u.here.pool place n) = v % 2 ^ (8 * n)
  ∧ (∀ r, u.getX r = s.getX r) ∧ (∀ r, u.getF r = s.getF r) ∧ u.mem = s.mem
  ∧ ∀ c, c ≠ s.cur.core → u.core c = s.core c

omit ha hi in
/-- A state that is the stored one apart from issue is as it was but for the bytes. -/
theorem State.storedAt_of_apart {u : State} {off v : Nat} (hwf : memWf s.here.pool = true)
    (hu : u.apart = (s.poolStore off (natLe n v)).apart) : s.StoredAt off n v u := by
  have hpool : u.here.pool = memSets s.here.pool (poolPlace s.part off) (natLe n v) :=
    (State.pool_of_apart hu).trans (State.pool_poolWrite ..)
  have hcrew : (s.poolStore off (natLe n v)).crew = s.crew := State.crew_poolWrite ..
  have hfw : (s.poolStore off (natLe n v)).here.fw = s.here.fw := by rw [State.poolStore, State.here_modHere]; rfl
  refine ⟨hu, fun x hx => ?_, ?_, fun r => ?_, fun r => ?_, (State.mem_of_apart hu).trans rfl, fun c hc => ?_⟩
  · rw [hpool]
    exact memGet_memSets_other _ hwf (by rwa [length_natLe])
  · have hread := memGets_memSets_same (a := poolPlace s.part off) (natLe n v) hwf
    rw [length_natLe] at hread
    rw [hpool, hread, leNat_natLe, show (256 : Nat) = 2 ^ 8 from rfl, ← Nat.pow_mul]
  · rw [State.getX_of_apart hu, State.getX, hcrew, hfw]
    rfl
  · rw [State.getF_of_apart hu, State.getF, hcrew, hfw]
    rfl
  · rw [State.core_of_apart hu hc]
    exact State.core_setCore_ne _ _ hc.symm

include hv in
/-- A store at an open place is performed. -/
theorem poolStore_answers (h : s.Clear tk) (hn : 0 < n) (hwf : memWf s.here.pool = true) (hopen : s.PoolOpen a.toNat n) :
    Answers i s (s.StoredAt a.toNat n (v s)) := by
  subst ha
  have hpops := s.apart_doPops (popsOf tk)
  have hstore : (s.doPops (popsOf tk)).poolWriteAt (xmAddr (s.getX ra) off k) (natLe n (v s))
      = .done ((s.doPops (popsOf tk)).poolStore (xmAddr (s.getX ra) off k).toNat (natLe n (v s))) := by
    have hwrite := State.poolWriteAt_open (b := natLe n (v s)) (s := s.doPops (popsOf tk)) (off := (xmAddr (s.getX ra) off k).toNat)
      (by rw [length_natLe]; exact hopen.of_apart_tlbOnly hpops (.refl _)) (by rwa [length_natLe])
    rwa [BitVec.ofNat_toNat, BitVec.setWidth_eq] at hwrite
  obtain ⟨u, hu, hua, -⟩ := runWord_answers (reads := reads) h
    (effect := fun s => s.poolWriteAt (xmAddr (s.getX ra) off k) (natLe n (v s)))
    (by rw [State.getX_doPops, hv]; exact hstore) (by rw [State.seq_poolStore])
  refine ⟨u, hi.trans hu, State.storedAt_of_apart hwf (hua.trans ?_)⟩
  rw [State.apart_poolStore, State.apart_poolStore, hpops]

end Store
end PoolWord

/-! ### The words (Table 4.9) -/

section Words
variable (tk : Tok) (sz : BitVec 2) (rd rs ra : XReg) (fd fs : FReg) (off : BitVec 8) (s : State)

theorem pld_eq : exec (.pld tk sz rd ra off) s = runWord tk [refX ra] s fun s =>
    s.poolLoad (xmAddr (s.getX ra) off sz.toNat) (2 ^ sz.toNat) fun b => .done (s.setX rd (extend true b)) := rfl

theorem pldn_eq : exec (.pldn tk sz rd ra off) s = runWord tk [refX ra] s fun s =>
    s.poolLoad (xmAddr (s.getX ra) off sz.toNat) (2 ^ sz.toNat) fun b => .done (s.setX rd (extend false b)) := rfl

theorem pfld_eq : exec (.pfld tk fd ra off) s = runWord tk [refX ra] s fun s =>
    s.poolLoad (xmAddr (s.getX ra) off 2) 4 fun b => .done (s.setF fd (BitVec.ofNat 32 (leNat b))) := rfl

theorem pst_eq : exec (.pst tk sz rs ra off) s = runWord tk [refX rs, refX ra] s fun s =>
    s.poolWriteAt (xmAddr (s.getX ra) off sz.toNat) (natLe (2 ^ sz.toNat) (s.getX rs).toNat) := rfl

theorem pfst_eq : exec (.pfst tk fs ra off) s = runWord tk [refF fs, refX ra] s fun s =>
    s.poolWriteAt (xmAddr (s.getX ra) off 2) (natLe 4 (s.getF fs).toNat) := rfl

end Words

/-- Settles O13: each load writes the bytes it reads, extended as it is named. -/
theorem poolLoads : Obligations.PoolLoads := by
  unfold Obligations.PoolLoads
  intro s tk sz rd ra fd off h
  refine ⟨fun hfree => ⟨?_, ?_⟩, fun hfree => ?_⟩
  · exact poolLoad_runs (xmAddr_eq_ofInt ..) (pldn_eq ..) h (fun b => State.lands_setX rd (extend false b)) hfree
  · have hrun := poolLoad_runs (xmAddr_eq_ofInt ..) (pld_eq ..) h (fun b => State.lands_setX rd (extend true b)) hfree
    rwa [extend_signed (State.length_poolBytes ..) (Nat.two_pow_pos _)] at hrun
  · exact poolLoad_runs (xmAddr_four ..) (pfld_eq ..) h (fun b => State.lands_setF fd (BitVec.ofNat 32 (leNat b))) hfree

/-- Settles O14: each store writes the bytes of its source, and they read back. -/
theorem poolStores : Obligations.PoolStores := by
  unfold Obligations.PoolStores
  intro s tk sz rs ra fs off h hwf
  refine ⟨fun hopen => ?_, fun hopen => ?_⟩
  · exact poolStore_answers (v := fun s => (s.getX rs).toNat) (xmAddr_eq_ofInt ..) (by simp only [State.getX_doPops]) (pst_eq ..) h
      (Nat.two_pow_pos _) hwf hopen
  · exact poolStore_answers (v := fun s => (s.getF fs).toNat) (xmAddr_four ..) (by simp only [State.getF_doPops]) (pfst_eq ..) h
      (by omega) hwf hopen

end Sys2Proof.Machine
end

section
/-! PROOFS. The checks of the memory words of X, in the pool and of global memory (R80). -/

namespace Sys2Proof.Machine

/-! ### The checks of a global access -/

theorem xlatTrap_toNat (code : BitVec 8) (a : XWord) (acc : Access) :
    xlatTrap code a.toNat acc = { code := code, info := acc.num, addr := a } := by
  rw [xlatTrap, BitVec.ofNat_toNat, BitVec.setWidth_eq]

theorem State.globalLoad_misaligned {s : State} {a : XWord} {n : Nat} (h : a.toNat % n ≠ 0) (k : List Byte → State → Res) :
    s.globalLoad a n k = .trap { code := codeAlign, info := 0, addr := a } := by
  rw [State.globalLoad, if_pos h, trapAt_toNat]

theorem State.globalLoad_aligned {s : State} {a : XWord} {n : Nat} (h : a.toNat % n = 0) (k : List Byte → State → Res) :
    s.globalLoad a n k = match s.memLoad a.toNat n with
      | .bytes b s => k b s
      | .stored s => .done s
      | .trap t => .trap t
      | .wait note => .block .other note
      | .stop f => .stop f := if_neg (not_not.2 h)

theorem State.globalLoad_fault {s : State} {a : XWord} {n : Nat} {c : BitVec 8} (h : a.toNat % n = 0)
    (hx : s.translateHere a.toNat .read = .fault c) (k : List Byte → State → Res) :
    s.globalLoad a n k = .trap { code := c, info := 0, addr := a } := by
  rw [State.globalLoad_aligned h, State.memLoad, State.memLoadBy, hx]
  exact congrArg Res.trap (xlatTrap_toNat ..)

theorem State.globalStore_misaligned {s : State} {a : XWord} {b : List Byte} (h : a.toNat % b.length ≠ 0) :
    s.globalStore a b = .trap { code := codeAlign, info := 0, addr := a } := by
  rw [State.globalStore, if_pos h, trapAt_toNat]

theorem State.globalStore_aligned {s : State} {a : XWord} {b : List Byte} (h : a.toNat % b.length = 0) :
    s.globalStore a b = match s.memStore a.toNat b with
      | .bytes _ s => .done s
      | .stored s => .done s
      | .trap t => .trap t
      | .wait note => .block .other note
      | .stop f => .stop f := if_neg (not_not.2 h)

theorem State.globalStore_fault {s : State} {a : XWord} {b : List Byte} {c : BitVec 8} (h : a.toNat % b.length = 0)
    (hx : s.translateHere a.toNat .write = .fault c) : s.globalStore a b = .trap { code := c, info := 1, addr := a } := by
  rw [State.globalStore_aligned h, State.memStore, hx]
  exact congrArg Res.trap (xlatTrap_toNat ..)

/-! ### Words that load or store global memory -/

section GlobalWord
variable {i : Instr} {s : State} {tk : Tok} {reads : List (State → List RegRef)} {ra : XReg} {off : BitVec 8} {k n : Nat} {a : XWord}
  (ha : xmAddr (s.getX ra) off k = a)

section Load
variable {put : List Byte → State → State}
  (hi : exec i s = runWord tk reads s fun s => s.globalLoad (xmAddr (s.getX ra) off k) n fun b s => .done (put b s))
include hi ha

theorem globalLoad_misaligned_traps (h : s.Issues tk) (hn : a.toNat % n ≠ 0) : Traps i s { code := 0x08, info := 0, addr := a } := by
  subst ha
  refine hi.trans (runWord_trap h ?_)
  rw [State.getX_doPops]
  exact State.globalLoad_misaligned hn _

theorem globalLoad_fault_traps (h : s.Issues tk) (hn : a.toNat % n = 0) {c : BitVec 8} (hx : s.translateHere a.toNat .read = .fault c) :
    Traps i s { code := c, info := 0, addr := a } := by
  subst ha
  refine hi.trans (runWord_trap h ?_)
  rw [State.getX_doPops]
  exact State.globalLoad_fault hn ((State.access_of_apart (s.apart_doPops _) ..).trans hx) _

end Load

section Store
variable {v : State → Nat}
  (hi : exec i s = runWord tk reads s fun s => s.globalStore (xmAddr (s.getX ra) off k) (natLe n (v s)))
include hi ha

theorem globalStore_misaligned_traps (h : s.Issues tk) (hn : a.toNat % n ≠ 0) : Traps i s { code := 0x08, info := 0, addr := a } := by
  subst ha
  refine hi.trans (runWord_trap h ?_)
  rw [State.getX_doPops]
  exact State.globalStore_misaligned (by rwa [length_natLe])

theorem globalStore_fault_traps (h : s.Issues tk) (hn : a.toNat % n = 0) {c : BitVec 8} (hx : s.translateHere a.toNat .write = .fault c) :
    Traps i s { code := c, info := 1, addr := a } := by
  subst ha
  refine hi.trans (runWord_trap h ?_)
  rw [State.getX_doPops]
  exact State.globalStore_fault (by rwa [length_natLe]) ((State.access_of_apart (s.apart_doPops _) ..).trans hx)

end Store
end GlobalWord

/-! ### The pool's checks as traps of a word -/

/-- The word traps by the first check of an access to the pool that fails. -/
def PoolChecked (i : Instr) (s : State) (n : Nat) (a : XWord) : Prop :=
  (a.toNat % n ≠ 0 → Traps i s { code := 0x08, info := 0, addr := a })
  ∧ (a.toNat % n = 0 → 2 ^ 23 < a.toNat + n → Traps i s { code := 0x06, info := 0, addr := a })
  ∧ (a.toNat % n = 0 → a.toNat + n ≤ 2 ^ 23 → (a.toNat < sBegin s.part ∨ allotEnd s.part < a.toNat + n) →
    Traps i s { code := 0x05, info := 0, addr := a })

theorem poolChecked_of_traps {i : Instr} {s : State} {n : Nat} {a : XWord}
    (h : ∀ t, poolCheck s.part a.toNat n n = some t → Traps i s t) : PoolChecked i s n a := by
  refine ⟨fun hn => h _ ?_, fun hn hfar => h _ ?_, fun hn hnear hout => h _ ?_⟩
  · rw [poolCheck_misaligned hn, trapAt_toNat]
    rfl
  · rw [poolCheck_beyond hn hfar, trapAt_toNat]
    rfl
  · rw [poolCheck_outside hn hnear hout, trapAt_toNat]
    rfl

section PoolWord
variable {i : Instr} {s : State} {tk : Tok} {reads : List (State → List RegRef)} {ra : XReg} {off : BitVec 8} {k n : Nat} {a : XWord}
  (ha : xmAddr (s.getX ra) off k = a)
include ha

theorem poolLoad_checked {put : List Byte → State → State}
    (hi : exec i s = runWord tk reads s fun s => s.poolLoad (xmAddr (s.getX ra) off k) n fun b => .done (put b s))
    (h : s.Issues tk) : PoolChecked i s n a := poolChecked_of_traps fun _ => poolLoad_traps ha hi h

theorem poolStore_checked {v : State → Nat}
    (hi : exec i s = runWord tk reads s fun s => s.poolWriteAt (xmAddr (s.getX ra) off k) (natLe n (v s)))
    (h : s.Issues tk) : PoolChecked i s n a := poolChecked_of_traps fun _ => poolStore_traps ha hi h

end PoolWord

/-! ### The words (Table 4.9) -/

section Words
variable (tk : Tok) (sz : BitVec 2) (rd rs ra : XReg) (fd fs : FReg) (off : BitVec 8) (s : State)

theorem ld_eq : exec (.ld tk sz rd ra off) s = runWord tk [refX ra] s fun s =>
    s.globalLoad (xmAddr (s.getX ra) off sz.toNat) (2 ^ sz.toNat) fun b s => .done (s.setX rd (extend true b)) := rfl

theorem ldn_eq : exec (.ldn tk sz rd ra off) s = runWord tk [refX ra] s fun s =>
    s.globalLoad (xmAddr (s.getX ra) off sz.toNat) (2 ^ sz.toNat) fun b s => .done (s.setX rd (extend false b)) := rfl

theorem fld_eq : exec (.fld tk fd ra off) s = runWord tk [refX ra] s fun s =>
    s.globalLoad (xmAddr (s.getX ra) off 2) 4 fun b s => .done (s.setF fd (BitVec.ofNat 32 (leNat b))) := rfl

theorem st_eq : exec (.st tk sz rs ra off) s = runWord tk [refX rs, refX ra] s fun s =>
    s.globalStore (xmAddr (s.getX ra) off sz.toNat) (natLe (2 ^ sz.toNat) (s.getX rs).toNat) := rfl

theorem fst_eq : exec (.fst tk fs ra off) s = runWord tk [refF fs, refX ra] s fun s =>
    s.globalStore (xmAddr (s.getX ra) off 2) (natLe 4 (s.getF fs).toNat) := rfl

end Words

/-- Settles O15: each word's checks are those of its access. -/
theorem accessChecks : Obligations.AccessChecks := by
  unfold Obligations.AccessChecks
  refine ⟨fun s tk sz rd ra off h => ?_, fun s tk sz rd ra off code h => ?_, fun s tk sz rd ra off code h => ?_,
    fun s tk fd ra off code h => ?_⟩
  · obtain ⟨ld1, ld2, ld3⟩ := poolLoad_checked (xmAddr_eq_ofInt ..) (pld_eq ..) h
    obtain ⟨ldn1, ldn2, ldn3⟩ := poolLoad_checked (xmAddr_eq_ofInt ..) (pldn_eq ..) h
    obtain ⟨st1, st2, st3⟩ := poolStore_checked (xmAddr_eq_ofInt ..) (pst_eq ..) h
    exact ⟨fun hn => ⟨ld1 hn, ldn1 hn, st1 hn⟩, fun hn hfar => ⟨ld2 hn hfar, ldn2 hn hfar, st2 hn hfar⟩,
      fun hn hnear hout => ⟨ld3 hn hnear hout, ldn3 hn hnear hout, st3 hn hnear hout⟩⟩
  · exact ⟨fun hn => ⟨globalLoad_misaligned_traps (xmAddr_eq_ofInt ..) (ld_eq ..) h hn,
        globalStore_misaligned_traps (xmAddr_eq_ofInt ..) (st_eq ..) h hn⟩,
      fun hn => globalLoad_fault_traps (xmAddr_eq_ofInt ..) (ld_eq ..) h hn,
      fun hn => globalStore_fault_traps (xmAddr_eq_ofInt ..) (st_eq ..) h hn⟩
  · exact ⟨globalLoad_misaligned_traps (xmAddr_eq_ofInt ..) (ldn_eq ..) h,
      fun hn => globalLoad_fault_traps (xmAddr_eq_ofInt ..) (ldn_eq ..) h hn⟩
  · obtain ⟨ld1, ld2, ld3⟩ := poolLoad_checked (xmAddr_four ..) (pfld_eq ..) h
    obtain ⟨st1, st2, st3⟩ := poolStore_checked (xmAddr_four ..) (pfst_eq ..) h
    exact ⟨fun hn => ⟨⟨ld1 hn, st1 hn⟩, globalLoad_misaligned_traps (xmAddr_four ..) (fld_eq ..) h hn,
        globalStore_misaligned_traps (xmAddr_four ..) (fst_eq ..) h hn⟩,
      fun hn hfar => ⟨ld2 hn hfar, st2 hn hfar⟩, fun hn hnear hout => ⟨ld3 hn hnear hout, st3 hn hnear hout⟩,
      fun hn => globalLoad_fault_traps (xmAddr_four ..) (fld_eq ..) h hn,
      fun hn => globalStore_fault_traps (xmAddr_four ..) (fst_eq ..) h hn⟩

end Sys2Proof.Machine
end

section
/-! PROOFS. The global loads of X: of local memory, of a dead page, and of a page at a peer (R79, R80, R189, R202, R287, R289). -/

namespace Sys2Proof.Machine

/-! ### States that agree on what their cores hold beside TLBs and views -/

/-- A core without what translations leave in it. -/
def Core.untagged (c : Core) : Core := { c with tlb := [], walks := [] }

/-- A core without that and without what it has acquired. -/
def Core.unviewed (c : Core) : Core := { c with tlb := [], walks := [], view := [] }

/-- Two states have one agent, and their cores agree on what `g` keeps. -/
structure State.AgreesOn (g : Core → Core) (s u : State) : Prop where
  cur : u.cur = s.cur
  core : ∀ c, g (u.core c) = g (s.core c)

theorem State.AgreesOn.refl (g : Core → Core) (s : State) : s.AgreesOn g s := ⟨rfl, fun _ => rfl⟩

theorem State.AgreesOn.trans {g : Core → Core} {s t u : State} (h : s.AgreesOn g t) (k : t.AgreesOn g u) : s.AgreesOn g u :=
  ⟨k.cur.trans h.cur, fun c => (k.core c).trans (h.core c)⟩

theorem State.agreesOn_of_cores (g : Core → Core) {s u : State} (hcores : u.cores = s.cores) (hcur : u.cur = s.cur) :
    s.AgreesOn g u :=
  ⟨hcur, fun c => by rw [State.core, hcores]; rfl⟩

theorem State.AgreesOn.unviewed {s u : State} (h : s.AgreesOn Core.untagged u) : s.AgreesOn Core.unviewed u :=
  ⟨h.cur, fun c => congrArg (fun k : Core => { k with view := [] }) (h.core c)⟩

theorem State.agreesOn_modHere {g : Core → Core} (s : State) {f : Core → Core} (hf : ∀ c, g (f c) = g c) :
    s.AgreesOn g (s.modHere f) := by
  refine ⟨rfl, fun c => ?_⟩
  rw [State.modHere_eq]
  by_cases hc : s.cur.core = c
  · subst hc
    rw [State.core_setCore]
    exact hf _
  · rw [State.core_setCore_ne _ _ hc]

section Agrees
variable {s u : State} (h : s.AgreesOn Core.unviewed u)
include h

/-- What a core holds besides is read alike. -/
theorem State.AgreesOn.read {α : Type} (r : Core → α) (hr : ∀ c, r c.unviewed = r c) (c : CoreId) : r (u.core c) = r (s.core c) := by
  rw [← hr, h.core, hr]

theorem State.AgreesOn.crew : u.crew = s.crew := by
  rw [State.crew, State.crewAt, h.cur]
  exact h.read (fun c => c.crew s.cur.crew) (fun _ => rfl) s.cur.core

theorem State.AgreesOn.fw : u.here.fw = s.here.fw := by
  rw [State.here, h.cur]
  exact h.read Core.fw (fun _ => rfl) s.cur.core

theorem State.AgreesOn.lines : u.here.lines = s.here.lines := by
  rw [State.here, h.cur]
  exact h.read Core.lines (fun _ => rfl) s.cur.core

theorem State.AgreesOn.seq : u.seq = s.seq := by
  rw [State.seq, h.cur, h.fw, h.crew]
  rfl

theorem State.AgreesOn.pc : u.pc = s.pc := congrArg Seq.pc h.seq

theorem State.AgreesOn.getX (r : XReg) : u.getX r = s.getX r := by
  rw [State.getX, h.cur, h.fw, h.crew]
  rfl

theorem State.AgreesOn.getF (r : FReg) : u.getF r = s.getF r := by
  rw [State.getF, h.cur, h.fw, h.crew]
  rfl

theorem State.AgreesOn.pool (c : CoreId) : (u.core c).pool = (s.core c).pool := 
  h.read Core.pool (fun _ => rfl) c

end Agrees

theorem State.tlbFill_agrees (s : State) (unit : Nat) (tag : Option CtxId) (va : Nat) (x : Xlat) :
    s.AgreesOn Core.untagged (s.tlbFill s.cur.core unit tag va x) := s.agreesOn_modHere fun _ => rfl

theorem State.tlbNext_agrees (s : State) (ctx : CtxId) (unit va : Nat) (x : Xlat) (acc : Access) (down : Bool) :
    s.AgreesOn Core.untagged (s.tlbNext ctx unit va x acc down) := by
  unfold State.tlbNext
  dsimp only
  split
  · exact .refl _ s
  · split
    · exact s.tlbFill_agrees ..
    · exact .refl _ s

/-- A translation that enters its TLB leaves the rest of the cores. -/
theorem State.tlbHere_agrees (s : State) (va : Nat) (x : Xlat) (acc : Access) : s.AgreesOn Core.untagged (s.tlbHere va x acc) := by
  rw [State.tlbHere]
  cases s.cur.role with
  | l | c | s | hinge => exact (s.tlbFill_agrees ..).trans (State.tlbNext_agrees ..)
  | x | fw => exact s.tlbFill_agrees ..

theorem State.lines_of_apart {u s : State} (h : u.apart = s.apart) : u.here.lines = s.here.lines := by
  rw [← State.read_here_apart Core.lines (fun _ _ _ => rfl) fun _ _ => rfl, h,
    State.read_here_apart Core.lines (fun _ _ _ => rfl) fun _ _ => rfl]

/-! ### A load from a peer (R202, R287) -/

/-- What a peer's line holds depends on the stores to remote memory alone. -/
theorem State.remoteByte_of_mem {u s : State} (h : u.mem = s.mem) : u.remoteByte = s.remoteByte := by
  funext sees l pa
  rw [State.remoteByte, h]
  rfl

theorem length_bytesFrom (f : Nat → Byte) (a n : Nat) : (bytesFrom f a n).length = n := by
  induction n generalizing a with
  | zero => rfl
  | succ n ih => rw [bytesFrom, List.length_cons, ih]

/-- The executing agent asks a peer for a line, unless its get for it is under way. -/
def State.askPeer (peer base : Nat) (s : State) : State :=
  if s.mem.gets.any fun g =>
      !g.stale && g.core == s.cur.core && g.crew == s.cur.crew && g.role == s.cur.role && g.peer == peer && g.pa == base then s
  else { s with
    serial := s.serial + 1
    mem := { s.mem with gets := s.mem.gets ++
      [{ num := s.serial, stale := false, core := s.cur.core, crew := s.cur.crew, role := s.cur.role, ctx := s.ctxHere,
         peer := peer, pa := base }] } }

/-- A peer has refused the executing agent a line. -/
def State.RefusedLine (s : State) (peer base : Nat) : Prop :=
  ∃ r ∈ s.mem.refusals, r.core = s.cur.core ∧ r.crew = s.cur.crew ∧ r.role = s.cur.role ∧ r.peer = peer ∧ r.pa = base

/-- The line of a peer that the executing core holds. -/
def State.lineOf (s : State) (peer base : Nat) : Option RemoteLine := s.here.lines.find? fun l => l.peer == peer && l.pa == base

section RemoteLoad
variable {s : State} {sees : RemoteStore → Bool} {va peer pa n : Nat}

theorem State.remoteLoad_held {l : RemoteLine} (h : s.lineOf peer (pa / 64 * 64) = some l) :
    s.remoteLoad sees va peer pa n = .bytes (bytesFrom (s.remoteByte sees l) pa n) s := by
  rw [State.lineOf] at h
  simp only [State.remoteLoad, h]

variable (hnone : s.lineOf peer (pa / 64 * 64) = none)
include hnone

theorem State.remoteLoad_refused (h : s.RefusedLine peer (pa / 64 * 64)) :
    s.remoteLoad sees va peer pa n = .trap (xlatTrap codeStage2 va .read) := by
  rw [State.lineOf] at hnone
  simp only [State.remoteLoad, hnone]
  refine if_pos (List.any_eq_true.2 ?_)
  obtain ⟨r, hr, h⟩ := h
  exact ⟨r, hr, by simpa [and_assoc] using h⟩

theorem State.remoteLoad_asks (h : ¬ s.RefusedLine peer (pa / 64 * 64)) :
    s.remoteLoad sees va peer pa n = .wait (State.askPeer peer (pa / 64 * 64)) := by
  rw [State.lineOf] at hnone
  simp only [State.remoteLoad, hnone]
  refine if_neg fun hany => h ?_
  obtain ⟨r, hr, hmine⟩ := List.any_eq_true.1 hany
  exact ⟨r, hr, by simpa [and_assoc] using hmine⟩

end RemoteLoad

/-- What asking a peer leaves and adds. -/
theorem State.askPeer_spec (peer base : Nat) (s : State) :
    (s.askPeer peer base).cores = s.cores ∧ (s.askPeer peer base).cur = s.cur
      ∧ (s.askPeer peer base).mem.stores = s.mem.stores ∧ (s.askPeer peer base).mem.remote = s.mem.remote
      ∧ ∃ g ∈ (s.askPeer peer base).mem.gets, (g.core = s.cur.core ∧ g.crew = s.cur.crew ∧ g.role = s.cur.role ∧ g.peer = peer
        ∧ g.pa = base) ∧ g.stale = false := by
  rw [State.askPeer]
  split
  next hany =>
    obtain ⟨g, hg, hmine⟩ := List.any_eq_true.1 hany
    refine ⟨rfl, rfl, rfl, rfl, g, hg, ?_⟩
    simp only [Bool.and_eq_true, Bool.not_eq_true', beq_iff_eq] at hmine
    obtain ⟨⟨⟨⟨⟨hstale, hcore⟩, hcrew⟩, hrole⟩, hpeer⟩, hpa⟩ := hmine
    exact ⟨⟨hcore, hcrew, hrole, hpeer, hpa⟩, hstale⟩
  next => exact ⟨rfl, rfl, rfl, rfl, _, List.mem_append_right _ (List.mem_singleton.2 rfl), ⟨rfl, rfl, rfl, rfl, rfl⟩, rfl⟩

/-! ### Loads as words -/

/-- A load of a page at a peer. -/
theorem State.memLoadBy_far {s : State} {sees : GStore → Bool} {far : RemoteStore → Bool} {va n : Nat} {x : Xlat}
    (hx : s.translateHere va .read = .ok x) (hdead : entryDead x.leaf2.entry = false) (hrem : entryRem x.leaf2.entry = true) :
    s.memLoadBy sees far va n = (s.tlbHere va x .read).remoteLoad far va (entryKey x.leaf2.entry) x.pa n := by
  simp only [State.memLoadBy, hx, hdead, hrem]
  rfl

/-- The state that a load is asked of: the word's pops are made, and its translation has entered its TLB. -/
def State.translated (s : State) (tk : Tok) (a : XWord) (x : Xlat) : State := (s.doPops (popsOf tk)).tlbHere a.toNat x .read

section Translated
variable (s : State) (tk : Tok) (a : XWord) (x : Xlat)

theorem State.mem_translated : (s.translated tk a x).mem = s.mem :=
  (State.tlbHere_tlbOnly ..).mem.trans (State.mem_of_apart (s.apart_doPops _))

theorem State.cur_translated : (s.translated tk a x).cur = s.cur :=
  (State.tlbHere_tlbOnly ..).cur.trans (State.cur_of_apart (s.apart_doPops _))

theorem State.lineOf_translated (peer base : Nat) : (s.translated tk a x).lineOf peer base = s.lineOf peer base := by
  rw [State.lineOf, State.translated, (State.tlbHere_agrees ..).unviewed.lines, State.lines_of_apart (s.apart_doPops _)]
  rfl

theorem State.refusedLine_translated {peer base : Nat} :
    (s.translated tk a x).RefusedLine peer base ↔ s.RefusedLine peer base := by
  rw [State.RefusedLine, State.mem_translated, State.cur_translated]
  rfl

end Translated

section GlobalWord
variable {i : Instr} {s : State} {tk : Tok} {reads : List (State → List RegRef)} {ra : XReg} {off : BitVec 8} {k n : Nat} {a : XWord}
  {put : List Byte → State → State} {x : Xlat}
  (ha : xmAddr (s.getX ra) off k = a)
  (hi : exec i s = runWord tk reads s fun s => s.globalLoad (xmAddr (s.getX ra) off k) n fun b s => .done (put b s))
  (h : s.Clear tk) (hn : a.toNat % n = 0) (hx : s.translateHere a.toNat .read = .ok x)

include hx in
/-- The pops leave the translation of an address. -/
theorem translateHere_doPops : (s.doPops (popsOf tk)).translateHere a.toNat .read = .ok x :=
  (State.access_of_apart (s.apart_doPops _) ..).trans hx

include ha hi h hn

/-- A load that its memory answers with bytes writes what they give; its translation enters its TLB. -/
theorem globalLoad_runs (hput : ∀ b, State.Lands (put b)) {b : List Byte}
    (hload : (s.doPops (popsOf tk)).memLoad a.toNat n = .bytes b ((s.doPops (popsOf tk)).tlbHere a.toNat x .read)) :
    Runs i s (put b (s.tlbHere a.toNat x .read)) := by
  subst ha
  have hpops := s.apart_doPops (popsOf tk)
  rw [Runs, hi]
  refine runWord_reaches h (t := put b ((s.doPops (popsOf tk)).tlbHere (xmAddr (s.getX ra) off k).toNat x .read)) ?_ ?_
    ((hput b).of_apart (State.tlbHere_of_apart hpops ..))
  · rw [State.getX_doPops, State.globalLoad_aligned hn, hload]
  · rw [(hput b).seq, (State.tlbHere_tlbOnly ..).seq]

include hx

/-- A load of local memory, or of a dead page. -/
theorem globalLoad_local_runs (hput : ∀ b, State.Lands (put b))
    (hlocal : entryDead x.leaf2.entry = true
      ∨ entryRem x.leaf2.entry = false ∧ x.pa + n ≤ Config.hbmBytes ∧ s.mem.bad x.pa n = false) :
    Runs i s (put (if entryDead x.leaf2.entry then List.replicate n 0
      else s.mem.loads (s.doPops (popsOf tk)).seesHere x.key x.pa n) (s.tlbHere a.toNat x .read)) := by
  have hmem := State.mem_of_apart (s.apart_doPops (popsOf tk))
  refine globalLoad_runs ha hi h hn hput ?_
  rw [← hmem]
  exact State.memLoadBy_local (translateHere_doPops hx) (by rwa [hmem])

variable (hdead : entryDead x.leaf2.entry = false) (hrem : entryRem x.leaf2.entry = true)
include hdead hrem

omit ha hi h hn in
/-- A load of a peer's page is asked of the state whose TLB has the translation. -/
theorem memLoad_far : (s.doPops (popsOf tk)).memLoad a.toNat n = (s.translated tk a x).remoteLoad
    (s.doPops (popsOf tk)).seesFar a.toNat (entryKey x.leaf2.entry) x.pa n :=
  State.memLoadBy_far (translateHere_doPops hx) hdead hrem

theorem globalLoad_line_runs (hput : ∀ b, State.Lands (put b)) {l : RemoteLine}
    (hl : s.lineOf (entryKey x.leaf2.entry) (x.pa / 64 * 64) = some l) :
    Runs i s (put (bytesFrom (s.remoteByte (s.doPops (popsOf tk)).seesFar l) x.pa n) (s.tlbHere a.toNat x .read)) := by
  refine globalLoad_runs ha hi h hn hput ((memLoad_far hx hdead hrem).trans ?_)
  rw [State.remoteLoad_held ((State.lineOf_translated ..).trans hl), State.remoteByte_of_mem (State.mem_translated ..)]
  rfl

variable (hnone : s.lineOf (entryKey x.leaf2.entry) (x.pa / 64 * 64) = none)
include hnone

theorem globalLoad_refused_traps (hr : s.RefusedLine (entryKey x.leaf2.entry) (x.pa / 64 * 64)) :
    Traps i s { code := 0x14, info := 0, addr := a } := by
  subst ha
  refine hi.trans (runWord_trap h.toIssues ?_)
  rw [State.getX_doPops, State.globalLoad_aligned hn, memLoad_far hx hdead hrem,
    State.remoteLoad_refused ((State.lineOf_translated ..).trans hnone) ((State.refusedLine_translated ..).2 hr)]
  exact congrArg Res.trap (xlatTrap_toNat ..)

/-- A load without its line waits, and asks for it. -/
theorem globalLoad_asks (hr : ¬ s.RefusedLine (entryKey x.leaf2.entry) (x.pa / 64 * 64)) :
    Answers i s fun u => u.pc = s.pc ∧ (∀ r, u.getX r = s.getX r) ∧ (∀ r, u.getF r = s.getF r)
      ∧ u.mem.stores = s.mem.stores ∧ u.mem.remote = s.mem.remote ∧ (∀ c, (u.core c).pool = (s.core c).pool)
      ∧ ∃ g ∈ u.mem.gets, (g.core = s.cur.core ∧ g.crew = s.cur.crew ∧ g.role = s.cur.role ∧ g.peer = entryKey x.leaf2.entry
        ∧ g.pa = x.pa / 64 * 64) ∧ g.stale = false := by
  subst ha
  obtain ⟨u, hu, hua, hup⟩ := runWord_blocks (reads := reads) h.toIssues (k := .other)
    (note := State.askPeer (entryKey x.leaf2.entry) (x.pa / 64 * 64))
    (effect := fun s => s.globalLoad (xmAddr (s.getX ra) off k) n fun b s => .done (put b s)) (by
      rw [State.getX_doPops, State.globalLoad_aligned hn, memLoad_far hx hdead hrem,
        State.remoteLoad_asks ((State.lineOf_translated ..).trans hnone) ((State.refusedLine_translated ..).not.2 hr)])
  obtain ⟨hcores, hcur, hstores, hremote, hget⟩ := State.askPeer_spec (entryKey x.leaf2.entry) (x.pa / 64 * 64) s
  have hagrees := State.agreesOn_of_cores Core.unviewed hcores hcur
  refine ⟨u, hi.trans hu, hup.trans hagrees.pc, fun r => (State.getX_of_apart hua r).trans (hagrees.getX r),
    fun r => (State.getF_of_apart hua r).trans (hagrees.getF r), ?_, ?_, fun c => ?_, ?_⟩
  · rw [State.mem_of_apart hua, hstores]
  · rw [State.mem_of_apart hua, hremote]
  · rw [State.poolOf_of_apart hua, hagrees.pool]
  · rwa [State.mem_of_apart hua]

end GlobalWord

/-- Settles O18: each load gives what its memory answers, and one of a peer's page its line, its refusal or its get. -/
theorem globalLoads : Obligations.GlobalLoads := by
  unfold Obligations.GlobalLoads
  intro s tk sz rd ra fd off x h
  have ldn (b : List Byte) := State.lands_setX rd (extend false b)
  have ld (b : List Byte) := State.lands_setX rd (extend true b)
  have fld (b : List Byte) := State.lands_setF fd (BitVec.ofNat 32 (leNat b))
  have hpos : 0 < 2 ^ sz.toNat := Nat.two_pow_pos _
  refine ⟨fun ⟨hn, hx, hlocal⟩ => ⟨?_, ?_⟩, fun ⟨hn, hx, hlocal⟩ => ?_, fun ⟨hn, hx, hdead, hrem⟩ => ⟨fun l hl => ⟨?_, ?_⟩,
    fun hnone hr => ⟨?_, ?_⟩, fun hnone hr => ⟨?_, ?_⟩⟩, fun ⟨hn, hx, hdead, hrem⟩ => ⟨fun l hl => ?_, fun hnone hr => ?_,
    fun hnone hr => ?_⟩⟩
  · exact globalLoad_local_runs (xmAddr_eq_ofInt ..) (ldn_eq ..) h hn hx ldn hlocal
  · have hrun := globalLoad_local_runs (xmAddr_eq_ofInt ..) (ld_eq ..) h hn hx ld hlocal
    rwa [extend_signed (n := 2 ^ sz.toNat) (by split <;> simp) hpos] at hrun
  · exact globalLoad_local_runs (xmAddr_four ..) (fld_eq ..) h hn hx fld hlocal
  · exact globalLoad_line_runs (xmAddr_eq_ofInt ..) (ldn_eq ..) h hn hx hdead hrem ldn hl
  · have hrun := globalLoad_line_runs (xmAddr_eq_ofInt ..) (ld_eq ..) h hn hx hdead hrem ld hl
    rwa [extend_signed (length_bytesFrom ..) hpos] at hrun
  · exact globalLoad_refused_traps (xmAddr_eq_ofInt ..) (ld_eq ..) h hn hx hdead hrem hnone hr
  · exact globalLoad_refused_traps (xmAddr_eq_ofInt ..) (ldn_eq ..) h hn hx hdead hrem hnone hr
  · exact globalLoad_asks (xmAddr_eq_ofInt ..) (ld_eq ..) h hn hx hdead hrem hnone hr
  · exact globalLoad_asks (xmAddr_eq_ofInt ..) (ldn_eq ..) h hn hx hdead hrem hnone hr
  · exact globalLoad_line_runs (xmAddr_four ..) (fld_eq ..) h hn hx hdead hrem fld hl
  · exact globalLoad_refused_traps (xmAddr_four ..) (fld_eq ..) h hn hx hdead hrem hnone hr
  · exact globalLoad_asks (xmAddr_four ..) (fld_eq ..) h hn hx hdead hrem hnone hr

end Sys2Proof.Machine
end

section
/-! PROOFS. `pub` at dom scope sends the held stores of its sequencer (R97, R201). -/

namespace Sys2Proof.Machine

/-! ### What a publication reads -/

section SameModule
variable {u s : State} (hmem : u.mem = s.mem) (hnpu : u.npu = s.npu)
include hmem hnpu

theorem State.leaves2_of_mem (ctx : CtxId) : u.leaves2 ctx = s.leaves2 ctx := by
  rw [State.leaves2, State.ctx, hmem, hnpu]
  rfl

theorem State.deadLeaves_of_mem : u.deadLeaves = s.deadLeaves := by
  simp only [State.deadLeaves, State.leaves2_of_mem hmem hnpu]

theorem State.leafBad_of_mem (l : Leaf) : u.leafBad l = s.leafBad l := by
  simp only [State.leafBad, State.leaves2_of_mem hmem hnpu, State.ctx, hmem, hnpu]

/-- The pages that a publication revives depend on the memory, the tables and what the sequencer has retired. -/
theorem State.reviveBad_of_mem (hcur : u.cur = s.cur) (hret : u.seq.retired = s.seq.retired) (dom : Bool) :
    u.reviveBad dom = s.reviveBad dom := by
  simp only [State.reviveBad, State.coversMine, State.remoteMine, State.deadLeaves_of_mem hmem hnpu, State.leafBad_of_mem hmem hnpu,
    hmem, hcur, hret]

end SameModule

theorem State.remoteMine_of_cur {u s : State} (h : u.cur = s.cur) : u.remoteMine = s.remoteMine := by
  funext r
  rw [State.remoteMine, h]
  rfl

theorem State.delivery_of_mem {u s : State} (h : u.mem = s.mem) (mine : RemoteStore → Bool) : u.delivery mine = s.delivery mine := by
  rw [State.delivery, h]
  rfl

theorem State.scopes_of_apart {u s : State} (h : u.apart = s.apart) : u.scopes = s.scopes := by
  rw [State.scopes, State.cur_of_apart h, State.read_of_apart h Crew.block (fun _ => rfl) fun _ st _ => by cases st <;> rfl]
  rfl

/-- A publication at dom scope with stores to send sends them and waits. -/
theorem State.publishing_unsent {s : State} (hbad : s.reviveBad true = false) (hd : s.delivery s.remoteMine = .unsent) (k : State → Res) :
    s.publishing .dom k = .block .other State.sendPuts := by
  rw [State.publishing, if_neg (by simp [hbad]), if_pos rfl, hd]

/-! ### Sending (R201) -/

theorem RemoteStore.length_place (r : RemoteStore) (passes : RemoteStore → Bool) (l : List RemoteStore) :
    (r.place passes l).length = l.length + 1 := by
  induction l with
  | nil => rfl
  | cons h l ih =>
    rw [RemoteStore.place]
    split
    · rw [List.length_cons, ih, List.length_cons]
    · rfl

theorem RemoteStore.mem_place {r q : RemoteStore} {passes : RemoteStore → Bool} {l : List RemoteStore} :
    q ∈ r.place passes l ↔ q = r ∨ q ∈ l := by
  induction l with
  | nil => simp [RemoteStore.place]
  | cons h l ih =>
    rw [RemoteStore.place]
    split
    · rw [List.mem_cons, ih, List.mem_cons]
      tauto
    · rw [List.mem_cons]

/-- A store as it was, sent. -/
def RemoteStore.SentAs (r q : RemoteStore) : Prop :=
  q.put.isSome = true ∧ q.id = r.id ∧ q.peer = r.peer ∧ q.pa = r.pa ∧ q.bytes = r.bytes ∧ q.writer = r.writer

/-- One store's turn in `State.sendOwn`. -/
def State.sendStep (s : State) (mine : RemoteStore → Bool) (sees : RemoteStore → RemoteStore → Bool)
    (acc : List RemoteStore × Nat) (r : RemoteStore) : List RemoteStore × Nat :=
  if mine r && r.put.isNone && !s.mem.zerosOpen r.peer r.pa then
    (({ r with put := some acc.2 } : RemoteStore).place (s.passes (sees r) r) acc.1, acc.2 + 1)
  else (r :: acc.1, acc.2)

section Send
variable (s : State) (mine : RemoteStore → Bool) (sees : RemoteStore → RemoteStore → Bool)

theorem State.remote_sendOwn : (s.sendOwn mine sees).mem.remote
    = (s.mem.remote.foldl (s.sendStep mine sees) ([], s.serial)).1.reverse := rfl

theorem State.length_sendStep (acc : List RemoteStore × Nat) (r : RemoteStore) :
    (s.sendStep mine sees acc r).1.length = acc.1.length + 1 := by
  rw [State.sendStep]
  split
  · exact RemoteStore.length_place ..
  · rfl

theorem State.mem_sendStep {acc : List RemoteStore × Nat} {q : RemoteStore} (r : RemoteStore) (hq : q ∈ acc.1) :
    q ∈ (s.sendStep mine sees acc r).1 := by
  rw [State.sendStep]
  split
  · exact RemoteStore.mem_place.2 (.inr hq)
  · exact List.mem_cons_of_mem _ hq

/-- A store's turn sends it, if it may be sent and is not sent already. -/
theorem State.sendStep_sends (acc : List RemoteStore × Nat) {r : RemoteStore} (hm : mine r = true)
    (hz : s.mem.zerosOpen r.peer r.pa = false) : ∃ q ∈ (s.sendStep mine sees acc r).1, r.SentAs q := by
  rw [State.sendStep]
  split
  next => exact ⟨_, RemoteStore.mem_place.2 (.inl rfl), rfl, rfl, rfl, rfl, rfl, rfl⟩
  next hsent =>
    refine ⟨r, List.mem_cons_self, ?_, rfl, rfl, rfl, rfl, rfl⟩
    simpa [hm, hz, Option.isSome_iff_ne_none] using hsent

theorem State.sendSteps_spec (l : List RemoteStore) (acc : List RemoteStore × Nat) :
    (l.foldl (s.sendStep mine sees) acc).1.length = acc.1.length + l.length
      ∧ (∀ q ∈ acc.1, q ∈ (l.foldl (s.sendStep mine sees) acc).1)
      ∧ ∀ r ∈ l, mine r = true → s.mem.zerosOpen r.peer r.pa = false →
        ∃ q ∈ (l.foldl (s.sendStep mine sees) acc).1, r.SentAs q := by
  induction l generalizing acc with
  | nil => exact ⟨rfl, fun _ hq => hq, fun _ hr => absurd hr List.not_mem_nil⟩
  | cons r l ih =>
    rw [List.foldl_cons]
    obtain ⟨hlen, hkeep, hsent⟩ := ih (s.sendStep mine sees acc r)
    refine ⟨?_, fun q hq => hkeep q (s.mem_sendStep mine sees r hq), fun h hh hm hz => ?_⟩
    · rw [hlen, State.length_sendStep, List.length_cons]
      omega
    · rcases List.mem_cons.1 hh with rfl | hl
      · obtain ⟨q, hq, hqr⟩ := s.sendStep_sends mine sees acc hm hz
        exact ⟨q, hkeep q hq, hqr⟩
      · exact hsent h hl hm hz

theorem State.length_sendOwn : (s.sendOwn mine sees).mem.remote.length = s.mem.remote.length := by
  rw [State.remote_sendOwn, List.length_reverse, (s.sendSteps_spec mine sees _ _).1]
  exact Nat.zero_add _

theorem State.sendOwn_sends {r : RemoteStore} (hr : r ∈ s.mem.remote) (hm : mine r = true)
    (hz : s.mem.zerosOpen r.peer r.pa = false) : ∃ q ∈ (s.sendOwn mine sees).mem.remote, r.SentAs q := by
  obtain ⟨q, hq, hqr⟩ := (s.sendSteps_spec mine sees s.mem.remote ([], s.serial)).2.2 r hr hm hz
  exact ⟨q, List.mem_reverse.2 hq, hqr⟩

end Send

/-- Where no leaf is dead, and no store of the agent lies on a discarded page, nothing is revived. -/
theorem State.reviveHeld_alive {s : State} {mine : RemoteStore → Bool} (h : s.deadLeaves = [])
    (hu : ∀ r ∈ s.mem.remote, mine r = true → r.under = none) : s.reviveHeld mine = s := by
  have hfold (l : List RemoteStore) : l.foldl (fun s r => s.reviveFor r.ctx (some r.peer) r.pa r.size) s = s := by
    induction l with
    | nil => rfl
    | cons r l ih => rw [List.foldl_cons, State.reviveFor_alive h, ih]
  have hnone (r : RemoteStore) (hr : r ∈ s.mem.remote) : (mine r && r.under.isSome) = false := by
    by_cases hm : mine r = true
    · simp [hu r hr hm]
    · simp [hm]
  have hheld : s.mem.remote.filter (fun r => mine r && r.under.isSome) = [] :=
    List.filter_eq_nil_iff.2 fun r hr => by simp [hnone r hr]
  have hothers : s.mem.remote.filter (fun r => !(mine r && r.under.isSome)) = s.mem.remote :=
    List.filter_eq_self.2 fun r hr => by rw [hnone r hr]; rfl
  simp only [State.reviveHeld, hfold, hheld, hothers, List.foldl_nil, List.map_nil, List.append_nil]

/-- The effect of `pub`. -/
def State.pubEffect (sc : Scope) (s : State) : Res := if s.admits sc then s.publishing sc .done else .trap (trapOf codeScope)

theorem pub_eq (tk : Tok) (sc : Scope) (s : State) : exec (.pub tk sc) s = runWord tk [] s (State.pubEffect sc) := rfl

/-- `pub` at dom scope sends the held stores of its sequencer, and waits. -/
theorem pub_sends {s : State} {tk : Tok} (h : s.Clear tk) (had : s.admits .dom = true) (hd : s.delivery s.remoteMine = .unsent)
    (hbad : s.reviveBad true = false) (hdead : s.deadLeaves = [])
    (hu : ∀ r ∈ s.mem.remote, s.remoteMine r = true → r.under = none) :
    ∃ u, exec (.pub tk .dom) s = .next u ∧ u.apart = (s.sendOwn s.remoteMine fun _ => s.seesFar).apart ∧ u.pc = s.pc := by
  have hpops := s.apart_doPops (popsOf tk)
  have hblock : State.pubEffect .dom (s.doPops (popsOf tk)) = .block .other State.sendPuts := by
    refine (if_pos ?_).trans (State.publishing_unsent ?_ ?_ _)
    · rwa [State.admits, State.scopes_of_apart hpops]
    · rwa [State.reviveBad_of_mem (State.mem_of_apart hpops) (State.npu_of_apart hpops) (State.cur_of_apart hpops)
        (State.readSeq_doPops Seq.retired (fun _ _ _ => rfl) ..)]
    · rwa [State.remoteMine_of_cur (State.cur_of_apart hpops), State.delivery_of_mem (State.mem_of_apart hpops)]
  obtain ⟨u, hrun, hua, hpc⟩ := runWord_blocks (reads := []) h.toIssues hblock
  rw [State.sendPuts, State.reviveHeld_alive hdead hu] at hua hpc
  exact ⟨u, (pub_eq ..).trans hrun, hua, hpc⟩

end Sys2Proof.Machine
end

section
/-! PROOFS. A store in coherence order and what its agent then reads (R188, R189). -/

namespace Sys2Proof.Machine

/-! ### A place in coherence order (R188) -/

theorem insertNth_eq (g : GStore) (l : List GStore) (n : Nat) : insertNth g l n = l.take n ++ g :: l.drop n := by
  induction n generalizing l with
  | zero => rw [insertNth, List.take_zero, List.drop_zero, List.nil_append]
  | succ n ih =>
    cases l with
    | nil => rfl
    | cons h l =>
      rw [insertNth, ih]
      rfl

/-- A store and a range have bytes in common. -/
def GStore.Over (h : GStore) (pa n : Nat) : Prop := h.pa < pa + n ∧ pa < h.pa + h.bytes.length

theorem GStore.byteAt_of_not_over {h : GStore} {pa n a : Nat} (hover : ¬ h.Over pa n) (hlo : pa ≤ a) (hhi : a < pa + n) :
    h.byteAt a = none := by
  rw [GStore.byteAt]
  split
  next hle =>
    have hpast : h.bytes.length ≤ a - h.pa := by
      by_contra hin
      exact hover ⟨by omega, by omega⟩
    rw [List.getElem?_eq_none hpast]
    rfl
  next => rfl

/-- A store that its agent sees in the range stands before the floor. -/
theorem lt_coherenceFloor {sees : GStore → Bool} {pa n i : Nat} {l : List GStore} {h : GStore} (hi : l[i]? = some h)
    (hs : sees h = true) (hover : h.Over pa n) : i < coherenceFloor sees pa n l := by
  have hmem : (h, i) ∈ l.zipIdx.filter fun x => sees x.1 && x.1.pa < pa + n && pa < x.1.pa + x.1.bytes.length :=
    List.mem_filter.2 ⟨List.mem_zipIdx_iff_getElem?.2 hi, by simpa [hs, GStore.Over] using hover⟩
  have hle := List.le_max?_getD_of_mem (k := 0) (List.mem_map_of_mem (f := fun x : GStore × Nat => x.2 + 1) hmem)
  rw [coherenceFloor, ← List.foldl_map (f := fun x : GStore × Nat => x.2 + 1) (g := Max.max), List.foldl_max]
  exact Nat.lt_of_lt_of_le hle (Nat.le_max_right ..)

/-- The store that an agent performs now. -/
def State.storeNow (s : State) (writer : Writer) (pubs : List Pub) (key : Option MemKey) (pa : Nat) (b : List (Option Byte)) : GStore :=
  { id := s.serial, pa := pa, bytes := b, key := key, writer := writer, pubs := pubs, under := none }

/-- A store takes its place: after it stands no store of the range that its agent sees, or has made. -/
theorem State.gStore_stores (s : State) (writer : Writer) (sees : GStore → Bool) (pubs : List Pub) (key : Option MemKey) (pa : Nat)
    (b : List (Option Byte)) : ∃ pre post, s.mem.stores = pre ++ post
      ∧ (s.gStore writer sees pubs key pa b).mem.stores = pre ++ s.storeNow writer pubs key pa b :: post
      ∧ ∀ h ∈ post, (sees h || h.writer == writer) = true → ¬ h.Over pa b.length := by
  let lo := coherenceFloor (fun g => sees g || g.writer == writer) pa b.length s.mem.stores
  obtain ⟨at_, hat, hlo⟩ : ∃ at_, (s.gStore writer sees pubs key pa b).mem.stores
      = insertNth (s.storeNow writer pubs key pa b) s.mem.stores at_ ∧ lo ≤ at_ :=
    ⟨_, rfl, by split <;> omega⟩
  refine ⟨s.mem.stores.take at_, s.mem.stores.drop at_, (List.take_append_drop ..).symm, hat.trans (insertNth_eq ..), ?_⟩
  intro h hh hs hover
  obtain ⟨j, hj⟩ := List.mem_iff_getElem?.1 hh
  rw [List.getElem?_drop] at hj
  exact absurd (lt_coherenceFloor (sees := fun g => sees g || g.writer == writer) hj hs hover) (by omega)

/-! ### What an agent reads (R189) -/

/-- Stores that hold no visible byte for an address leave what it reads. -/
theorem foldl_held_of_none {sees : GStore → Bool} {a : Nat} {l : List GStore} (h : ∀ g ∈ l, sees g = true → g.byteAt a = none)
    (b : Byte) : l.foldl (fun b g => if sees g then (g.byteAt a).getD b else b) b = b := by
  induction l with
  | nil => rfl
  | cons g l ih =>
    obtain ⟨hhead, htail⟩ := List.forall_mem_cons.1 h
    have hstep : (if sees g then (g.byteAt a).getD b else b) = b := by
      split
      next hs => rw [hhead hs]; rfl
      next => rfl
    rw [List.foldl_cons, hstep, ih htail]

/-- The byte of a visible store after which no visible store has one. -/
theorem Global.held_of_last {m : Global} {sees : GStore → Bool} {a : Nat} {v : Byte} {pre post : List GStore} {g : GStore}
    (hm : m.stores = pre ++ g :: post) (hg : sees g = true) (hv : g.byteAt a = some v)
    (hpost : ∀ h ∈ post, sees h = true → h.byteAt a = none) : m.held sees a = v := by
  rw [Global.held, hm, List.foldl_append, List.foldl_cons, foldl_held_of_none hpost, if_pos hg, hv]
  rfl

theorem Global.getElem_loads (m : Global) (sees : GStore → Bool) (key : Option MemKey) (pa n i : Nat)
    (h : i < (m.loads sees key pa n).length) : (m.loads sees key pa n)[i] = m.load sees key (pa + i) := by
  induction n generalizing pa i with
  | zero => exact absurd h (Nat.not_lt_zero i)
  | succ n ih =>
    cases i with
    | zero => rfl
    | succ i =>
      simp only [Global.loads, List.getElem_cons_succ]
      rw [ih, Nat.add_right_comm]
      rfl

theorem sameKey_refl (k : Option MemKey) : sameKey k k = true := by simp [sameKey]

/-- One more store under the key that a block is read under leaves the block under one key. -/
theorem Global.mixed_insert {m m' : Global} {sees : GStore → Bool} {k : Nat} {g : GStore} {pre post : List GStore}
    (hm : m.stores = pre ++ post) (hm' : m'.stores = pre ++ g :: post) (hk : m'.keyed = m.keyed)
    (h : m.mixed sees g.key k = false) : m'.mixed sees g.key k = false := by
  rw [Global.mixed, Global.keyAt, hm] at h
  rw [Global.mixed, Global.keyAt, hm', hk]
  simpa [sameKey_refl] using h

theorem State.byteAt_storeNow (s : State) (writer : Writer) (pubs : List Pub) (key : Option MemKey) (pa : Nat) (b : List Byte) {i : Nat}
    (hi : i < b.length) : (s.storeNow writer pubs key pa (b.map some)).byteAt (pa + i) = some b[i] := by
  simp [GStore.byteAt, State.storeNow, hi]

/-- A store of bytes by an agent that sees it reads back, where the blocks it lies in are under its key. -/
theorem State.loads_gStore (s : State) {writer : Writer} {sees : GStore → Bool} (pubs : List Pub) (key : Option MemKey) {pa : Nat}
    {b : List Byte} (hown : sees (s.storeNow writer pubs key pa (b.map some)) = true)
    (hmixed : ∀ k, pa < 16 * k + 16 → 16 * k < pa + b.length → s.mem.mixed sees key k = false) :
    (s.gStore writer sees pubs key pa (b.map some)).mem.loads sees key pa b.length = b := by
  obtain ⟨pre, post, hpre, hpost, hlast⟩ := s.gStore_stores writer sees pubs key pa (b.map some)
  rw [List.length_map] at hlast
  refine List.ext_getElem (length_loads ..) fun i hl hb => ?_
  have hkey : (s.gStore writer sees pubs key pa (b.map some)).mem.mixed sees key ((pa + i) / 16) = false :=
    Global.mixed_insert (g := s.storeNow writer pubs key pa (b.map some)) hpre hpost rfl (hmixed _ (by omega) (by omega))
  rw [Global.getElem_loads, Global.load, hkey, if_neg Bool.false_ne_true]
  refine Global.held_of_last hpost hown (s.byteAt_storeNow writer pubs key pa b hb) fun h hh hs => ?_
  exact GStore.byteAt_of_not_over (hlast h hh (by simp [hs])) (by omega) (by omega)

end Sys2Proof.Machine
end

section
/-! PROOFS. The global stores of X: to local memory, to a dead page, and to a page at a peer (R81, R188, R189, R201, R289). -/

namespace Sys2Proof.Machine

/-! ### The leaf that a translation ends at -/

theorem walk2From_entry {hbm : Memory} {table a level fuel : Nat} {l : Leaf} (h : walk2From hbm table a level fuel = some l) :
    l.entry = readEntry hbm l.at_ := by
  induction fuel generalizing table level with
  | zero => cases h
  | succ fuel ih =>
    rw [walk2From] at h
    split at h
    · cases h
    · split at h
      · cases h
        rfl
      · exact ih h

theorem walk2_entry {hbm : Memory} {root : Option Nat} {cpa : Nat} {l : Leaf} (h : walk2 hbm root cpa = some l) :
    l.entry = readEntry hbm l.at_ := by
  cases root with
  | none => cases h
  | some t => exact walk2From_entry h

theorem Tr.ok_of_ite {p : Prop} [Decidable p] {c : BitVec 8} {t : Tr} {x : Xlat} (h : (if p then Tr.fault c else t) = .ok x) :
    t = .ok x := by
  by_cases hp : p
  · rw [if_pos hp] at h
    cases h
  · rwa [if_neg hp] at h

/-- A translation through a context's tables ends at a leaf that memory holds. -/
theorem State.translate_leaf {s : State} {via : Via} {ctx : CtxId} {va : Nat} {acc : Access} {x : Xlat}
    (h : s.translate via ctx va acc = .ok x) : x.leaf2.entry = readEntry s.mem.hbm x.leaf2.at_ := by
  have hwalk := Tr.ok_of_ite (Tr.ok_of_ite h)
  generalize (s.walk1 ctx va).1 = w at hwalk
  cases w with
  | fault1 => cases hwalk
  | fault2 => cases hwalk
  | leaf l1 =>
    have hleaf := Tr.ok_of_ite (Tr.ok_of_ite hwalk)
    dsimp only at hleaf
    split at hleaf
    · cases hleaf
    next l2 hl2 =>
      have hx := Tr.ok_of_ite (Tr.ok_of_ite (Tr.ok_of_ite (Tr.ok_of_ite (Tr.ok_of_ite (Tr.ok_of_ite hleaf)))))
      obtain rfl := Tr.ok.inj hx
      exact walk2_entry hl2

/-- The firmware's own tables have no leaf in memory. -/
theorem State.fwTranslate_leaf {s : State} {core : CoreId} {va : Nat} {acc : Access} {x : Xlat}
    (h : s.fwTranslate core va acc = .ok x) : x.leaf2.entry = 0 := by
  unfold State.fwTranslate at h
  dsimp only at h
  split at h
  · rw [← Tr.ok.inj h]
  · split at h
    · cases acc with
      | read => rw [← Tr.ok.inj h]
      | write => cases h
      | fetch => cases h
    · cases h

/-- A dead leaf that an access is translated through is the one that memory holds: the firmware's tables have none. -/
theorem State.translateHere_dead_leaf {s : State} {va : Nat} {acc : Access} {x : Xlat} (h : s.translateHere va acc = .ok x)
    (hdead : entryDead x.leaf2.entry = true) : x.leaf2.entry = readEntry s.mem.hbm x.leaf2.at_ := by
  rw [State.translateHere] at h
  split at h
  · rw [State.fwTranslate_leaf h] at hdead
    exact absurd hdead (by decide)
  · exact State.translate_leaf h

/-! ### Reviving a page (R289) -/

theorem State.setDead_agrees (s : State) (at_ v : Nat) : s.AgreesOn Core.untagged (s.setDead at_ v) :=
  ⟨rfl, fun c => by rw [State.core, State.setDead, Vector.get_map]; rfl⟩

theorem State.zeroPeer_agrees (s : State) (ctx : CtxId) (peer pa size : Nat) :
    s.AgreesOn Core.unviewed (s.zeroPeer ctx peer pa size) :=
  ⟨rfl, fun c => by rw [State.core, State.zeroPeer, Vector.get_map]; rfl⟩

theorem State.reviveAt_agrees (s : State) (ctx : CtxId) (at_ size : Nat) : s.AgreesOn Core.unviewed (s.reviveAt ctx at_ size) := by
  have hset := (s.setDead_agrees at_ 0).unviewed
  rw [State.reviveAt]
  dsimp only
  split
  · exact .refl _ s
  · split
    · exact hset.trans (State.zeroPeer_agrees ..)
    · exact hset.trans (State.agreesOn_of_cores _ rfl rfl)

/-- A page of local memory that is revived leaves what every core has acquired. -/
theorem State.reviveAt_agrees_local {s : State} {at_ : Nat} (hrem : entryRem (readEntry s.mem.hbm at_) = false) (ctx : CtxId)
    (size : Nat) : s.AgreesOn Core.untagged (s.reviveAt ctx at_ size) := by
  rw [State.reviveAt]
  dsimp only
  split
  · exact .refl _ s
  · rw [if_neg (by simp [hrem])]
    exact (s.setDead_agrees at_ 0).trans (State.agreesOn_of_cores _ rfl rfl)

theorem State.revive_alive {l : Leaf} (h : entryDead l.entry = false) (s : State) (ctx : CtxId) : s.revive ctx l = s :=
  if_neg (by simp [h])

theorem State.revive_agrees (s : State) (ctx : CtxId) (l : Leaf) : s.AgreesOn Core.unviewed (s.revive ctx l) := by
  rw [State.revive]
  split
  · exact s.reviveAt_agrees ..
  · exact .refl _ s

theorem State.revive_agrees_local {s : State} {l : Leaf} (hrem : entryRem l.entry = false)
    (hl : entryDead l.entry = true → l.entry = readEntry s.mem.hbm l.at_) (ctx : CtxId) :
    s.AgreesOn Core.untagged (s.revive ctx l) := by
  rw [State.revive]
  split
  next hdead => exact State.reviveAt_agrees_local (by rw [← hl hdead, hrem]) ..
  next => exact .refl _ s

section SameMemory
variable {u s : State} (hmem : u.mem = s.mem)
include hmem

theorem State.mem_setDead (at_ v : Nat) : (u.setDead at_ v).mem = (s.setDead at_ v).mem := by
  rw [State.setDead, hmem]
  rfl

theorem State.mem_zeroPeer (hserial : u.serial = s.serial) (ctx : CtxId) (peer pa size : Nat) :
    (u.zeroPeer ctx peer pa size).mem = (s.zeroPeer ctx peer pa size).mem := by
  rw [State.zeroPeer, hmem, hserial]
  rfl

omit hmem in
theorem State.keyOf_of_npu (hnpu : u.npu = s.npu) (e : Nat) : u.keyOf e = s.keyOf e := by rw [State.keyOf, hnpu]; rfl

/-- What reviving a page leaves in memory depends on memory, the keys and the next store's number. -/
theorem State.mem_revive (hnpu : u.npu = s.npu) (hserial : u.serial = s.serial) (ctx : CtxId) (l : Leaf) :
    (u.revive ctx l).mem = (s.revive ctx l).mem := by
  have hset := State.mem_setDead hmem l.at_ 0
  have hkey (e : Nat) : (u.setDead l.at_ 0).keyOf e = (s.setDead l.at_ 0).keyOf e := State.keyOf_of_npu hnpu e
  simp only [State.revive, State.reviveAt, hmem]
  split
  · split
    · exact hmem
    · split
      · exact State.mem_zeroPeer hset hserial ..
      · simp only [hset, hkey]
  · exact hmem

end SameMemory

/-- A translation that enters its TLB leaves the N-die and the numbering of stores. -/
theorem State.tlbHere_npu_serial (s : State) (va : Nat) (x : Xlat) (acc : Access) :
    (s.tlbHere va x acc).npu = s.npu ∧ (s.tlbHere va x acc).serial = s.serial := by
  have hnext (t : State) (ctx : CtxId) (unit : Nat) : (t.tlbNext ctx unit va x acc false).npu = t.npu
      ∧ (t.tlbNext ctx unit va x acc false).serial = t.serial := by
    unfold State.tlbNext
    dsimp only
    split
    · exact ⟨rfl, rfl⟩
    · split
      · exact ⟨rfl, rfl⟩
      · exact ⟨rfl, rfl⟩
  rw [State.tlbHere]
  cases s.cur.role with
  | l | c | s | hinge => exact hnext ..
  | x | fw => exact ⟨rfl, rfl⟩

/-! ### What a store leaves -/

/-- The registers and the pools are as they were. -/
def State.Keeps (s u : State) : Prop :=
  (∀ r, u.getX r = s.getX r) ∧ (∀ r, u.getF r = s.getF r) ∧ ∀ c, (u.core c).pool = (s.core c).pool

theorem State.Keeps.trans {s t u : State} (h : s.Keeps t) (k : t.Keeps u) : s.Keeps u := by
  obtain ⟨hx, hf, hp⟩ := h
  obtain ⟨kx, kf, kp⟩ := k
  exact ⟨fun r => (kx r).trans (hx r), fun r => (kf r).trans (hf r), fun c => (kp c).trans (hp c)⟩

theorem State.keeps_of_apart {u s : State} (h : u.apart = s.apart) : s.Keeps u :=
  ⟨State.getX_of_apart h, State.getF_of_apart h, State.poolOf_of_apart h⟩

theorem State.AgreesOn.keeps {u s : State} (h : s.AgreesOn Core.unviewed u) : s.Keeps u := ⟨h.getX, h.getF, h.pool⟩

/-! ### What an agent sees (R189) -/

theorem State.seesHere_eq (s : State) (g : GStore) : s.seesHere g = (g.under.isNone
    && (g.writer == .seq s.cur.core s.cur.crew s.cur.role || s.here.view.contains g.id || s.seq.acq.contains g.id)) := by
  unfold State.seesHere State.sees State.seesBy State.seq
  cases s.cur.role <;> rfl

theorem State.seesHere_of {u s : State} (hcur : u.cur = s.cur) (hview : u.here.view = s.here.view) (hacq : u.seq.acq = s.seq.acq) :
    u.seesHere = s.seesHere := by
  funext g
  rw [State.seesHere_eq, State.seesHere_eq, hcur, hview, hacq]

theorem State.AgreesOn.seesHere {u s : State} (h : s.AgreesOn Core.untagged u) : u.seesHere = s.seesHere := by
  refine State.seesHere_of h.cur ?_ (congrArg Seq.acq h.unviewed.seq)
  have hview := congrArg Core.view (h.core s.cur.core)
  rw [State.here, h.cur]
  exact hview

theorem State.view_of_apart {u s : State} (h : u.apart = s.apart) : u.here.view = s.here.view := by
  rw [← State.read_here_apart Core.view (fun _ _ _ => rfl) fun _ _ => rfl, h,
    State.read_here_apart Core.view (fun _ _ _ => rfl) fun _ _ => rfl]

theorem State.seesHere_own (s : State) (pubs : List Pub) (key : Option MemKey) (pa : Nat) (b : List (Option Byte)) (t : State) :
    s.seesHere (t.storeNow (.seq s.cur.core s.cur.crew s.cur.role) pubs key pa b) = true := by
  simp [State.seesHere_eq, State.storeNow]

end Sys2Proof.Machine
end

section
/-! PROOFS. The global stores of X as words, and what they leave (R81, R188, R189, R201, R289). -/

namespace Sys2Proof.Machine

/-! ### The state that a store is performed in -/

/-- The state that a store is performed in: its translation has entered its TLB, and its page is revived. -/
def State.opened (s : State) (va : Nat) (x : Xlat) : State := (s.tlbHere va x .write).revive s.ctxHere x.leaf2

/-- The state whose page, if it was dead, is zeros (R289). -/
def State.pageOpened (s : State) (x : Xlat) : State := s.revive s.ctxHere x.leaf2

section Opened
variable {s : State} {va : Nat} {x : Xlat}

theorem State.opened_agrees : s.AgreesOn Core.unviewed (s.opened va x) :=
  (s.tlbHere_agrees ..).unviewed.trans (State.revive_agrees ..)

theorem State.opened_agrees_local (hx : s.translateHere va .write = .ok x) (hrem : entryRem x.leaf2.entry = false) :
    s.AgreesOn Core.untagged (s.opened va x) :=
  (s.tlbHere_agrees ..).trans <| State.revive_agrees_local hrem
    (fun hdead => by rw [(s.tlbHere_tlbOnly ..).mem]; exact State.translateHere_dead_leaf hx hdead) _

/-- Its memory is that of the state before the word, with the page revived. -/
theorem State.mem_opened {p : State} (hp : p.apart = s.apart) : (p.opened va x).mem = (s.pageOpened x).mem := by
  obtain ⟨hnpu, hserial⟩ := p.tlbHere_npu_serial va x .write
  rw [State.opened, State.pageOpened, State.ctxHere_of_apart hp]
  exact State.mem_revive ((p.tlbHere_tlbOnly ..).mem.trans (State.mem_of_apart hp)) (hnpu.trans (State.npu_of_apart hp))
    (hserial.trans (State.serial_of_apart hp)) ..

variable (hx : s.translateHere va .write = .ok x)
include hx

theorem State.memStore_local {b : List Byte} (hrem : entryRem x.leaf2.entry = false) (hpa : x.pa + b.length ≤ Config.hbmBytes) :
    s.memStore va b = .stored ((s.opened va x).gStore (.seq s.cur.core s.cur.crew s.cur.role) (s.opened va x).seesHere [] x.key x.pa
      (b.map some)) := by
  simp only [State.memStore, hx, hrem]
  exact (if_neg Bool.false_ne_true).trans (if_neg (by omega))

theorem State.memStore_far {b : List Byte} (hrem : entryRem x.leaf2.entry = true) :
    s.memStore va b = .stored ((s.opened va x).farStore (.seq s.cur.core s.cur.crew s.cur.role) s.ctxHere x va (b.map some)) := by
  simp only [State.memStore, hx, hrem]
  rfl

end Opened

/-! ### Stores as words -/

/-- What a store of the low `n` bytes of `v` in local memory leaves; `sees` is what its agent saw. -/
def State.StoredLocal (s : State) (sees : GStore → Bool) (x : Xlat) (n v : Nat) (u : State) : Prop :=
  ((∀ k, x.pa < 16 * k + 16 → 16 * k < x.pa + n → (s.pageOpened x).mem.mixed sees x.key k = false) →
    u.mem.loads u.seesHere x.key x.pa n = natLe n v)
  ∧ s.Keeps u
  ∧ (∃ g pre post, (s.pageOpened x).mem.stores = pre ++ post ∧ u.mem.stores = pre ++ g :: post ∧ g.pa = x.pa
    ∧ g.bytes = (natLe n v).map some ∧ g.key = x.key ∧ g.pubs = [] ∧ g.under = none
    ∧ g.writer = .seq s.cur.core s.cur.crew s.cur.role)
  ∧ u.mem.hbm = (s.pageOpened x).mem.hbm
  ∧ (entryDead x.leaf2.entry = false → (s.pageOpened x).mem = s.mem)

/-- What a store of the low `n` bytes of `v` to a page at a peer leaves: it is held, last in the order. -/
def State.StoredFar (s : State) (x : Xlat) (a : XWord) (n v : Nat) (u : State) : Prop :=
  s.Keeps u ∧ (s.inLine → u.pc = s.pc + 4) ∧ u.mem.stores = (s.pageOpened x).mem.stores ∧ u.mem.hbm = (s.pageOpened x).mem.hbm
  ∧ ∃ r, u.mem.remote = (s.pageOpened x).mem.remote ++ [r] ∧ r.peer = entryKey x.leaf2.entry ∧ r.pa = x.pa ∧ r.va = a
    ∧ r.bytes = (natLe n v).map some ∧ r.size = n ∧ r.put = none ∧ r.acked = none ∧ r.pubs = [] ∧ r.under = none
    ∧ r.writer = .seq s.cur.core s.cur.crew s.cur.role

/-- A store performed in the opened state `f`, as a state `u` of its memory and its visible set shows it. -/
theorem State.storedLocal_of_gStore {s f u : State} {x : Xlat} {n v : Nat} (hmem : f.mem = (s.pageOpened x).mem) (hcur : f.cur = s.cur)
    (humem : u.mem = (f.gStore (.seq s.cur.core s.cur.crew s.cur.role) f.seesHere [] x.key x.pa ((natLe n v).map some)).mem)
    (husees : u.seesHere = f.seesHere) (hkeeps : s.Keeps u) : s.StoredLocal f.seesHere x n v u := by
  obtain ⟨pre, post, hpre, hpost, -⟩ :=
    f.gStore_stores (.seq s.cur.core s.cur.crew s.cur.role) f.seesHere [] x.key x.pa ((natLe n v).map some)
  refine ⟨fun hmixed => ?_, hkeeps, ⟨_, pre, post, hmem ▸ hpre, humem ▸ hpost, rfl, rfl, rfl, rfl, rfl, rfl⟩, ?_,
    fun hdead => by rw [State.pageOpened, State.revive_alive hdead]⟩
  · have hown := f.seesHere_own [] x.key x.pa ((natLe n v).map some) f
    rw [hcur] at hown
    have hread := f.loads_gStore [] x.key hown fun k hlo hhi => by
      rw [length_natLe] at hhi
      rw [hmem, hmixed k hlo hhi]
    rwa [length_natLe, ← humem, ← husees] at hread
  · rw [humem, ← hmem]
    rfl

section GlobalStore
variable {i : Instr} {s : State} {tk : Tok} {reads : List (State → List RegRef)} {ra : XReg} {off : BitVec 8} {k n : Nat} {a : XWord}
  {v : State → Nat} {x : Xlat}
  (ha : xmAddr (s.getX ra) off k = a) (hv : v (s.doPops (popsOf tk)) = v s)
  (hi : exec i s = runWord tk reads s fun s => s.globalStore (xmAddr (s.getX ra) off k) (natLe n (v s)))
  (h : s.Clear tk) (hn : a.toNat % n = 0) (hx : s.translateHere a.toNat .write = .ok x)
include ha hv hi h hn

/-- A store that its memory takes. -/
theorem globalStore_answers {t : State} (ht : (s.doPops (popsOf tk)).memStore a.toNat (natLe n (v s)) = .stored t)
    (hagrees : (s.doPops (popsOf tk)).AgreesOn Core.unviewed t) :
    ∃ u, exec i s = .next u ∧ u.apart = t.apart ∧ (s.inLine → u.pc = s.pc + 4) ∧ t.SameTokens u ∧ s.Keeps u := by
  subst ha
  obtain ⟨u, hu, hua, hpc, htok⟩ := runWord_keeps (t := t) (reads := reads) h
    (effect := fun s => s.globalStore (xmAddr (s.getX ra) off k) (natLe n (v s)))
    (by rw [State.getX_doPops, hv, State.globalStore_aligned (by rwa [length_natLe]), ht]) (congrArg Seq.loops hagrees.seq)
  exact ⟨u, hi.trans hu, hua, hpc, htok,
    ((State.keeps_of_apart (s.apart_doPops _)).trans hagrees.keeps).trans (State.keeps_of_apart hua)⟩

include hx

theorem globalStore_local_answers (hrem : entryRem x.leaf2.entry = false) (hpa : x.pa + n ≤ Config.hbmBytes) :
    Answers i s (s.StoredLocal (s.doPops (popsOf tk)).seesHere x n (v s)) := by
  have hpops := s.apart_doPops (popsOf tk)
  have hx' := (State.access_of_apart hpops ..).trans hx
  have hagrees := State.opened_agrees_local hx' hrem
  obtain ⟨u, hu, hua, -, htok, hkeeps⟩ := globalStore_answers ha hv hi h hn
    (State.memStore_local hx' hrem (by rwa [length_natLe])) (State.opened_agrees.trans (State.agreesOn_of_cores _ rfl rfl))
  rw [State.cur_of_apart hpops] at hua
  rw [← hagrees.seesHere]
  have hsees := (State.seesHere_of (State.cur_of_apart hua) (State.view_of_apart hua) htok.acq).trans
    (State.agreesOn_of_cores _ rfl rfl).seesHere
  exact ⟨u, hu, State.storedLocal_of_gStore (State.mem_opened hpops) (hagrees.cur.trans (State.cur_of_apart hpops))
    (State.mem_of_apart hua) hsees hkeeps⟩

theorem globalStore_far_answers (hrem : entryRem x.leaf2.entry = true) : Answers i s (s.StoredFar x a n (v s)) := by
  have hpops := s.apart_doPops (popsOf tk)
  obtain ⟨u, hu, hua, hpc, -, hkeeps⟩ := globalStore_answers ha hv hi h hn
    (State.memStore_far ((State.access_of_apart hpops ..).trans hx) hrem)
    (State.opened_agrees.trans (State.agreesOn_of_cores _ rfl rfl))
  refine ⟨u, hu, hkeeps, hpc, ?_⟩
  rw [State.mem_of_apart hua, ← State.mem_opened (va := a.toNat) hpops, ← State.cur_of_apart hpops]
  refine ⟨rfl, rfl, _, rfl, rfl, rfl, ?_, rfl, ?_, rfl, rfl, rfl, rfl, rfl⟩
  · exact (BitVec.ofNat_toNat ..).trans (BitVec.setWidth_eq a)
  · exact (List.length_map ..).trans (length_natLe ..)

end GlobalStore

/-- Settles O19: a store of local memory stands after all that its agent sees of its bytes, one of a peer's page is held, and `pub`
sends what is held. -/
theorem globalStores : Obligations.GlobalStores := by
  unfold Obligations.GlobalStores
  intro s tk sz rs ra fs off x h
  have hst : (s.doPops (popsOf tk)).getX rs = s.getX rs := State.getX_doPops ..
  have hfst : (s.doPops (popsOf tk)).getF fs = s.getF fs := State.getF_doPops ..
  refine ⟨fun hn hx => ?_, fun hn hx => ?_, fun had hd hbad hdead hu => ?_⟩
  · exact ⟨globalStore_local_answers (xmAddr_eq_ofInt ..) (congrArg BitVec.toNat hst) (st_eq ..) h hn hx,
      globalStore_far_answers (xmAddr_eq_ofInt ..) (congrArg BitVec.toNat hst) (st_eq ..) h hn hx⟩
  · exact ⟨globalStore_local_answers (xmAddr_four ..) (congrArg BitVec.toNat hfst) (fst_eq ..) h hn hx,
      globalStore_far_answers (xmAddr_four ..) (congrArg BitVec.toNat hfst) (fst_eq ..) h hn hx⟩
  · obtain ⟨u, hrun, hua, hpc⟩ := pub_sends h had hd hbad hdead hu
    have hsend : s.AgreesOn Core.unviewed (s.sendOwn s.remoteMine fun _ => s.seesFar) := State.agreesOn_of_cores _ rfl rfl
    refine ⟨u, hrun, hpc, hsend.keeps.trans (State.keeps_of_apart hua), ?_⟩
    rw [State.mem_of_apart hua]
    exact ⟨rfl, s.length_sendOwn .., fun r => s.sendOwn_sends _ _⟩

end Sys2Proof.Machine
end

section
/-! PROOFS. Pool atomics (R101), and words whose effect is an update that setting issue apart passes over. -/

namespace Sys2Proof.Machine

/-! ### Updates that setting issue apart passes over -/

theorem State.Lands.comp {f g : State → State} (hf : State.Lands f) (hg : State.Lands g) : State.Lands fun s => f (g s) :=
  ⟨fun s => (hf.seq _).trans (hg.seq s), fun s => (hf.apart _).trans (congrArg f (hg.apart s))⟩

theorem State.lands_modCrew {f : Crew → Crew} (hf : Crew.Inner f) : State.Lands fun s => s.modCrew f :=
  ⟨State.seq_inner hf, State.apart_inner hf⟩

theorem State.lands_modHere {f : Core → Core} (hf : Core.Inner f) : State.Lands fun s => s.modHere f :=
  ⟨State.seq_innerCore hf, State.apart_innerCore hf⟩

theorem State.lands_poolStore (off : Nat) (b : List Byte) : State.Lands fun s => s.poolStore off b :=
  ⟨fun s => s.seq_poolStore off b, fun s => s.apart_poolStore off b⟩

/-- A word whose effect is such an update of the state after its pops. -/
theorem lands_reaches {s : State} {tk : Tok} {reads : List (State → List RegRef)} {effect : State → Res} {put : State → State}
    (h : s.Clear tk) (hput : State.Lands put) (he : effect (s.doPops (popsOf tk)) = .done (put (s.doPops (popsOf tk)))) :
    Reaches (runWord tk reads s effect) s (put s) :=
  runWord_reaches h he (congrArg Seq.loops (hput.seq _)) (hput.of_apart (s.apart_doPops _))

theorem lands_runs {i : Instr} {s : State} {tk : Tok} {reads : List (State → List RegRef)} {effect : State → Res} {put : State → State}
    (hi : exec i s = runWord tk reads s effect) (h : s.Clear tk) (hput : State.Lands put)
    (he : effect (s.doPops (popsOf tk)) = .done (put (s.doPops (popsOf tk)))) : Runs i s (put s) := by
  rw [Runs, hi]
  exact lands_reaches h hput he

/-! ### Pool atomics (R101) -/

theorem atomCheck_free {part : XWord} {off n align : Nat} (h : poolCheck part off n align = none) (ha : aBegin part ≤ off) :
    atomCheck part off n align = none := (atomCheck_of_pool h).trans (if_neg (by omega))

theorem atomCheck_place {part : XWord} {off n align : Nat} (h : poolCheck part off n align = none) (ha : off < aBegin part) :
    atomCheck part off n align = some (trapAt codeAtomPlace off) := (atomCheck_of_pool h).trans (if_pos ha)

section Pamo
variable {s : State} {tk : Tok} {n : Nat} {more : List (State → List RegRef)} {rd ra rb : XReg} {f : XWord → XWord → XWord → XWord}
  (h : s.Clear tk)
include h

/-- An atomic at a free place returns what stood there and stores what its operation makes of it. -/
theorem pamo_reaches (hfree : s.PoolFree (s.getX ra).toNat n) (ha : aBegin s.part ≤ (s.getX ra).toNat) {old new : XWord}
    (hold : BitVec.ofNat 64 (leNat (s.poolBytes (poolPlace s.part (s.getX ra).toNat) n)) = old)
    (hnew : f old (s.getX rb) (s.getX rd) = new) :
    Reaches (pamo tk n more rd ra rb s f) s ((s.poolStore (s.getX ra).toNat (natLe n new.toNat)).setX rd old) := by
  have hpops := s.apart_doPops (popsOf tk)
  refine lands_reaches h ((State.lands_setX rd old).comp (State.lands_poolStore _ _)) ?_
  simp only [State.getX_doPops, State.part_of_apart hpops, State.lockedFor_of_apart hpops, State.poolBad_of_apart hpops,
    State.pool_of_apart hpops, atomCheck_free hfree.checked ha, hfree.unlocked, hfree.sound]
  rw [State.poolBytes] at hold
  rw [hold, hnew]
  rfl

theorem pamo_place_traps {t : TrapReq} (ht : atomCheck s.part (s.getX ra).toNat n n = some t) :
    pamo tk n more rd ra rb s f = .next (raise t s) := by
  refine runWord_trap h.toIssues ?_
  simp only [State.getX_doPops, State.part_of_apart (s.apart_doPops _), ht]

end Pamo

/-! ### The operations as arithmetic (Table 5.7) -/

theorem min_toInt (a b : XWord) : (if b.slt a then b else a) = BitVec.ofInt 64 (Min.min a.toInt b.toInt) := by
  rw [min_eq_ofInt, min_comm]

theorem min_toNat (a b : XWord) : (if b.ult a then b else a) = BitVec.ofNat 64 (Min.min a.toNat b.toNat) := by
  rw [minn_eq_ofNat, min_comm]

/-- Settles O16: each atomic by its operation on the old value and its operand. -/
theorem poolAtomics : Obligations.PoolAtomics := by
  unfold Obligations.PoolAtomics
  intro s tk rd ra rb h off b old free does
  have runs {i : Instr} {n : Nat} {more : List (State → List RegRef)} {f : XWord → XWord → XWord → XWord} {new : XWord}
      (hi : exec i s = pamo tk n more rd ra rb s f) (hnew : f (old n) b (s.getX rd) = new) : does i n new := by
    intro ⟨hfree, ha⟩
    rw [Runs, hi]
    exact pamo_reaches h hfree ha rfl hnew
  refine ⟨runs (f := fun old b _ => old + b) rfl (BitVec.add_def ..), runs (f := fun old b _ => if b.slt old then b else old) rfl (min_toInt ..),
    runs (f := fun old b _ => if old.slt b then b else old) rfl (max_eq_ofInt ..),
    runs (f := fun old b _ => if b.ult old then b else old) rfl (min_toNat ..),
    runs (f := fun old b _ => if old.ult b then b else old) rfl (maxn_eq_ofNat ..), runs (f := fun _ b _ => b) rfl rfl,
    runs (f := fun old b e => if old = e then b else old) rfl rfl,
    runs (f := fun old b _ => (accAdd (old.setWidth 32) (b.setWidth 32)).zeroExtend 64) rfl rfl, fun ⟨hopen, ha⟩ => ?_⟩
  rw [Traps, show exec (.pamoAdd tk rd ra rb) s = pamo tk 8 [] rd ra rb s fun old b _ => old + b from rfl]
  exact (pamo_place_traps h (atomCheck_place hopen.checked ha)).trans (by rw [trapAt_toNat]; rfl)

end Sys2Proof.Machine
end

section
/-! PROOFS. One update of a barrier object (R96). -/

namespace Sys2Proof.Machine

/-! ### Counts modulo 2^w -/

theorem sumInt_eq_sum (l : List Int) : sumInt l = l.sum := by
  rw [sumInt, List.sum_eq_foldl]

/-- A sum of counts that are not negative is the sum of the counts as numbers. -/
theorem sum_toNat {α : Type} (l : List α) {f : α → Int} (h : ∀ x ∈ l, 0 ≤ f x) :
    (l.map f).sum = ((l.map fun x => (f x).toNat).sum : Nat) := by
  induction l with
  | nil => rfl
  | cons x l ih =>
    obtain ⟨hx, hl⟩ := List.forall_mem_cons.1 h
    rw [List.map_cons, List.sum_cons, List.map_cons, List.sum_cons, ih hl, Nat.cast_add, Int.toNat_of_nonneg hx]

theorem sext_emod (v w : Nat) : sext v w % (2 ^ w : Nat) = (v : Int) % (2 ^ w : Nat) := by
  simp only [sext]
  split
  · simp
  · rw [Int.sub_emod_right]
    simp

/-- A count down from a field of 32 bits wraps as the field does. -/
theorem intCode_sub {v n k : Nat} (h : n ≤ k) : intCode 32 (sext v 32 - (n : Int)) = (v + 2 ^ 32 * k - n) % 2 ^ 32 := by
  have hv := sext_emod v 32
  rw [intCode]
  omega

theorem intCode_add (v : Nat) (x : Int) : intCode 32 (sext v 32 + x) = (((v : Int) + x) % 2 ^ 32).toNat := by
  have hv := sext_emod v 32
  rw [intCode]
  omega

theorem intCode_lt (w : Nat) (x : Int) : intCode w x < 2 ^ w := by
  have hpos : 0 < 2 ^ w := Nat.two_pow_pos w
  have := Int.emod_lt_of_pos x (Int.natCast_pos.2 hpos)
  have := Int.emod_nonneg x (Int.natCast_ne_zero.2 hpos.ne')
  rw [intCode]
  omega

/-! ### The operations of a clock -/

theorem CombKind.arrivals_range (k : CombKind) : 0 ≤ k.arrivals ∧ k.arrivals.toNat ≤ 1 := by
  cases k <;> simp [CombKind.arrivals]

theorem CombKind.drops_range (k : CombKind) : 0 ≤ k.drops ∧ k.drops.toNat ≤ 1 := by
  cases k <;> simp [CombKind.drops]

theorem sum_map_le_length {α : Type} (l : List α) {f : α → Nat} (h : ∀ x, f x ≤ 1) : (l.map f).sum ≤ l.length := by
  induction l with
  | nil => exact Nat.le_refl 0
  | cons x l ih =>
    have := h x
    rw [List.map_cons, List.sum_cons, List.length_cons]
    omega

/-- A count of a clock's operations, each of which counts at most once, taken from a field. -/
theorem intCode_sub_counts (v : Nat) (ops : List CombKind) {f : CombKind → Int} (h : ∀ k, 0 ≤ f k ∧ (f k).toNat ≤ 1) :
    intCode 32 (sext v 32 - sumInt (ops.map f)) = (v + 2 ^ 32 * ops.length - (ops.map fun k => (f k).toNat).sum) % 2 ^ 32 := by
  rw [sumInt_eq_sum, sum_toNat ops fun k _ => (h k).1]
  exact intCode_sub (sum_map_le_length ops fun k => (h k).2)

/-- Without a `binit` the operations of a clock are applied to the object as it stands. -/
theorem foldl_afterInit {place : Nat} {ops : List CombKind} (h : ∀ k ∈ ops, k.isInit = false) (o : Nat × BarSide) :
    ops.foldl (afterInit place) o = o := by
  induction ops with
  | nil => rfl
  | cons k ops ih =>
    obtain ⟨hk, hops⟩ := List.forall_mem_cons.1 h
    have hstep : afterInit place o k = o := by
      cases k with
      | init => cases hk
      | arrive | drop | bytes | copy | mask | hingeArrive | hingeFinal => rfl
    rw [List.foldl_cons, hstep, ih hops]

/-! ### The object after an update (Table 5.4) -/

/-- An object of given fields. -/
def barWord (pending reset bytes phase scope conv : Nat) (fail : Bool) : Nat :=
  pending + reset * 2 ^ 32 + bytes * 2 ^ 64 + phase * 2 ^ 96 + scope * 2 ^ 97 + (if fail then 2 ^ 104 else 0) + conv * 2 ^ 112

theorem fields_barWord {pending reset bytes phase scope : Nat} (hp : pending < 2 ^ 32) (hr : reset < 2 ^ 32) (hb : bytes < 2 ^ 32)
    (hphase : phase < 2) (hscope : scope < 2 ^ 7) (conv : Nat) (fail : Bool) :
    let o := barWord pending reset bytes phase scope conv fail
    field o 31 0 = pending ∧ field o 63 32 = reset ∧ field o 95 64 = bytes ∧ field o 96 96 = phase ∧ field o 103 97 = scope := by
  simp only [field, barWord]
  cases fail <;> simp only [if_true, if_false, Bool.false_eq_true] <;> omega

/-- The completion of a phase: nothing is pending, and `reset` is above 0. -/
theorem sext_pos_iff {v : Nat} (h : v < 2 ^ 32) : 0 < sext v 32 ↔ 0 < v ∧ v < 2 ^ 31 := by
  simp only [sext]
  split <;> omega

/-- The object after an update without a `binit`, with the one test of completion. -/
theorem barUpdate_object (clock place obj : Nat) (side : BarSide) {ops : List CombKind} (h : ∀ k ∈ ops, k.isInit = false) :
    let pending := intCode 32 (sext (field obj 31 0) 32 - sumInt (ops.map CombKind.arrivals))
    let reset := intCode 32 (sext (field obj 63 32) 32 - sumInt (ops.map CombKind.drops))
    let bytes := intCode 32 (sext (field obj 95 64) 32 + sumInt (ops.map CombKind.byteSum))
    let completes := pending = 0 ∧ bytes = 0 ∧ 0 < reset ∧ reset < 2 ^ 31
    ∃ conv fail, (barUpdate clock place (obj, side) ops).1 =
      barWord (if completes then reset else pending) reset bytes (if completes then 1 - field obj 96 96 else field obj 96 96)
        (field obj 103 97) conv fail := by
  intro pending reset bytes completes
  have htest : pending = 0 ∧ bytes = 0 ∧ 0 < sext reset 32 ↔ completes := by rw [sext_pos_iff (intCode_lt ..)]
  refine ⟨Min.min (field obj 127 112 + (ops.map CombKind.convs).foldl (fun a x => a + x) 0) 65535,
    field obj 104 104 = 1 || ops.any CombKind.fails, ?_⟩
  rw [barUpdate, foldl_afterInit h]
  by_cases hc : completes
  · rw [if_pos hc, if_pos hc]
    exact congrArg Prod.fst (if_pos (by simpa [and_assoc] using htest.2 hc))
  · rw [if_neg hc, if_neg hc]
    refine (congrArg Prod.fst (if_neg fun hd => hc (htest.1 (by simpa [and_assoc] using hd)))).trans ?_
    split <;> rfl

/-- Settles O28: the object's fields after an update, by whether its phase completes. -/
theorem barrierUpdate : Obligations.BarrierUpdate := by
  unfold Obligations.BarrierUpdate
  intro clock place obj side ops hops r pending reset bytes completes
  have hinit : ∀ k ∈ ops, k.isInit = false := fun k hk => by
    have := hops k hk
    cases k with
    | init => exact this.elim
    | arrive | drop | bytes | copy | mask | hingeArrive | hingeFinal => rfl
  obtain ⟨conv, fail, hr⟩ := barUpdate_object clock place obj side hinit
  rw [intCode_sub_counts _ ops CombKind.arrivals_range, intCode_sub_counts _ ops CombKind.drops_range, intCode_add] at hr
  have hreset : reset < 2 ^ 32 := Nat.mod_lt _ (by decide)
  have hpending : pending < 2 ^ 32 := Nat.mod_lt _ (by decide)
  have hbytes : bytes < 2 ^ 32 := by omega
  have hphase : field obj 96 96 < 2 := field_lt obj 96 96
  have hword : r = barWord (if completes then reset else pending) reset bytes
      (if completes then 1 - field obj 96 96 else field obj 96 96) (field obj 103 97) conv fail := hr
  obtain ⟨h1, h2, h3, h4, h5⟩ := fields_barWord (pending := if completes then reset else pending) (by split <;> assumption) hreset hbytes
    (phase := if completes then 1 - field obj 96 96 else field obj 96 96) (by split <;> omega) (field_lt obj 103 97) conv fail
  rw [← hword] at h1 h2 h3 h4 h5
  exact ⟨fun hc => ⟨by rw [h4, if_pos hc], by rw [h1, if_pos hc]⟩, fun hc => ⟨by rw [h4, if_neg hc], by rw [h1, if_neg hc]⟩, h2, h3, h5⟩

end Sys2Proof.Machine
end

section
/-! PROOFS. Control and status registers: what `csrr` reads, and the write rules of `csrw` (R84 to R88). -/

namespace Sys2Proof.Machine

/-! ### What the CSRs hold -/

/-- What the executing core holds besides its crews and the firmware context's sequencer, in states that agree apart from issue. -/
theorem State.readHere_of_apart {α : Type} (g : Core → α) (hcrew : ∀ c k v, g (c.setCrew k v) = g c)
    (hseq : ∀ c q, g (c.setFwSeq q) = g c) {u s : State} (h : u.apart = s.apart) : g u.here = g s.here := by
  rw [← State.read_here_apart g hcrew hseq, h, State.read_here_apart g hcrew hseq]

section Agree
variable {u s : State} (h : u.apart = s.apart)
include h

theorem State.readFw_of_apart {α : Type} (g : Fw → α) (hseq : ∀ w q, g { w with seq := q } = g w) : g u.here.fw = g s.here.fw :=
  State.readHere_of_apart (fun c => g c.fw) (fun _ _ _ => rfl) (fun _ _ => hseq _ _) h

theorem State.ofBlock_of_apart (f : Block → XWord) : u.ofBlock f = s.ofBlock f := by
  rw [State.ofBlock, State.cur_of_apart h, State.block_of_apart h]
  rfl

theorem State.rungCsr_of_apart : u.rungCsr = s.rungCsr := by
  rw [State.rungCsr, State.lease_of_apart h, State.ctx, State.npu_of_apart h, State.crewCtx_of_apart h]
  rfl

theorem State.waitlim_of_apart : u.waitlim = s.waitlim := by
  rw [State.waitlim, State.cur_of_apart h, State.readFw_of_apart h Fw.waitlim fun _ _ => rfl,
    State.read_of_apart h Crew.waitlim (fun _ => rfl) fun _ st _ => by cases st <;> rfl]
  rfl

/-- A CSR's value does not depend on issue. -/
theorem State.csr_of_apart (c : Csr) : u.csr c = s.csr c := by
  have hcur := State.cur_of_apart h
  cases c with
  | blockid | teamid | teamsz | nblocks | ctxid | b i => exact State.ofBlock_of_apart h _
  | crewid => simp only [State.csr, hcur, State.ofBlock_of_apart h]
  | coreid | dieid => simp only [State.csr, hcur]
  | devid => simp only [State.csr, State.npu_of_apart h]
  | dom => simp only [State.csr, State.ofBlock_of_apart h, State.scopes_of_apart h]
  | part => exact State.part_of_apart h
  | desctab => simp only [State.csr, hcur, State.desctab_of_apart h]
  | cycle | epoch => simp only [State.csr, State.cycle_of_apart h]
  | rep =>
    simp only [State.csr, hcur, State.read_of_apart h Crew.rep (fun _ => rfl) fun _ st _ => by cases st <;> rfl]
  | rung => simp only [State.csr, hcur, State.rungCsr_of_apart h]
  | waitlim => simp only [State.csr, State.waitlim_of_apart h]
  | trapcause => simp only [State.csr, State.readFw_of_apart h Fw.cause fun _ _ => rfl]
  | trapaddr => exact State.readFw_of_apart h Fw.addr fun _ _ => rfl
  | trappc => exact State.readFw_of_apart h Fw.tpc fun _ _ => rfl
  | trapseq => simp only [State.csr, State.readFw_of_apart h Fw.tseq fun _ _ => rfl]
  | trapcrew => simp only [State.csr, State.readFw_of_apart h Fw.tcrew fun _ _ => rfl]
  | fwshare => simp only [State.csr, State.readFw_of_apart h Fw.share fun _ _ => rfl]

end Agree

theorem State.ofBlock_some {s : State} {b : Block} (hr : s.cur.role ≠ .fw) (hb : s.crew.block = some b) (f : Block → XWord) :
    s.ofBlock f = f b := by
  rw [State.ofBlock, if_neg hr, hb]

theorem State.scopes_some {s : State} {b : Block} (hr : s.cur.role ≠ .fw) (hb : s.crew.block = some b) : s.scopes = b.scopes ||| 3 := by
  rw [State.scopes, if_neg hr, hb]

/-- `dom`: the domain above the admitted scopes (Table 5.2). -/
theorem domCsr_eq_ofNat (id : W32) (scopes : BitVec 6) :
    (id ++ (0 : BitVec 32)) ||| scopes.zeroExtend 64 = BitVec.ofNat 64 (id.toNat * 2 ^ 32 + scopes.toNat) := by
  have hid := id.isLt
  have hscopes : scopes.toNat < 2 ^ 32 := scopes.isLt.trans (by decide)
  have hwide : scopes.toNat % 2 ^ 64 = scopes.toNat := Nat.mod_eq_of_lt (scopes.isLt.trans (by decide))
  refine BitVec.eq_of_toNat_eq ?_
  rw [BitVec.toNat_or, BitVec.toNat_append, BitVec.toNat_ofNat, Nat.mul_comm, Nat.two_pow_add_eq_or_of_lt hscopes,
    ← Nat.two_pow_add_eq_or_of_lt hscopes, Nat.mod_eq_of_lt (by omega), Nat.two_pow_add_eq_or_of_lt hscopes]
  rw [BitVec.toNat_setWidth, hwide]
  simp [Nat.shiftLeft_eq, Nat.mul_comm]

/-! ### `csrr` (R84) -/

theorem csrr_runs {s : State} {tk : Tok} {rd : XReg} {csr : Csr} {v : Nat} (h : s.Clear tk) (hv : s.csr csr = BitVec.ofNat 64 v) :
    Runs (.csrr tk rd csr) s (s.setX rd (BitVec.ofNat 64 v)) := by
  rw [← hv]
  exact setX_reaches (f := fun s => s.csr csr) h (State.csr_of_apart (s.apart_doPops _) csr)

theorem zeroExtend_eq_ofNat {n : Nat} (v : BitVec n) : v.zeroExtend 64 = BitVec.ofNat 64 v.toNat := (BitVec.ofNat_toNat ..).symm

theorem eq_ofNat_toNat (v : XWord) : v = BitVec.ofNat 64 v.toNat := by rw [BitVec.ofNat_toNat, BitVec.setWidth_eq]

/-! ### `csrw` of the firmware context (R85, Table 5.2) -/

/-- The firmware context pops no token. -/
theorem State.doPops_fw {s : State} (hr : s.cur.role = .fw) (k : Pops) : s.doPops k = s := if_pos hr

theorem State.seq_modFw {s : State} (hr : s.cur.role = .fw) {f : Fw → Fw} (hf : (f s.here.fw).seq = s.here.fw.seq) :
    (s.modFw f).seq = s.seq := by
  rw [State.seq_fw (by exact hr), State.seq_fw hr, State.modFw, State.here_modHere]
  exact hf

/-- A word of the firmware context that changes its record beside its sequencer. -/
theorem modFw_reaches {s : State} {tk : Tok} {reads : List (State → List RegRef)} {effect : State → Res} {f : Fw → Fw} (h : s.Clear tk)
    (hr : s.cur.role = .fw) (hf : (f s.here.fw).seq = s.here.fw.seq) (he : effect s = .done (s.modFw f)) :
    Reaches (runWord tk reads s effect) s (s.modFw f) := by
  have hpops := State.doPops_fw hr (popsOf tk)
  exact runWord_reaches h (by rw [hpops, he]) (by rw [hpops, State.seq_modFw hr hf]) rfl

theorem csrw_runs {s : State} {tk : Tok} {csr : Csr} {r : XReg} {f : Fw → Fw} (h : s.Clear tk) (hr : s.cur.role = .fw)
    (hf : (f s.here.fw).seq = s.here.fw.seq) (hw : s.writeCsr csr (s.getX r) = s.modFw f) :
    Runs (.csrw tk csr r) s (s.modHere fun c => { c with fw := f s.here.fw }) :=
  modFw_reaches (reads := [refX r]) (effect := fun s => .done (s.writeCsr csr (s.getX r))) h hr hf (congrArg Res.done hw)

/-- `trapcrew`: the crew in bits [1:0], the context in bits [13:8] (Table 5.2). -/
theorem trapcrewMask_eq_ofNat (v : XWord) :
    (v.setWidth 14 &&& 0x3F03 : BitVec 14) = BitVec.ofNat 14 (v.toNat % 4 + v.toNat / 256 % 64 * 256) := by
  have hlow : v.toNat % 2 ^ 2 < 2 ^ 8 := by omega
  have hbits (i : Nat) : (2 ^ 8 * (v.toNat / 2 ^ 8 % 2 ^ 6) + v.toNat % 2 ^ 2).testBit i =
      if i < 8 then decide (i < 2) && v.getLsbD i else decide (i - 8 < 6) && v.getLsbD (i - 8 + 8) := by
    rw [Nat.testBit_two_pow_mul_add _ hlow, Nat.testBit_mod_two_pow, Nat.testBit_mod_two_pow, Nat.testBit_div_two_pow,
      BitVec.testBit_toNat, BitVec.testBit_toNat]
  ext i hi
  rw [Nat.add_comm, Nat.mul_comm, ← BitVec.getLsbD_eq_getElem, ← BitVec.getLsbD_eq_getElem, BitVec.getLsbD_ofNat]
  rw [show 256 * (v.toNat / 256 % 64) + v.toNat % 4 = 2 ^ 8 * (v.toNat / 2 ^ 8 % 2 ^ 6) + v.toNat % 2 ^ 2 from rfl, hbits]
  interval_cases i <;> simp

/-- Settles O21: each CSR by what it holds, and each trap CSR by its write rule. -/
theorem csrReads : Obligations.CsrReads := by
  unfold Obligations.CsrReads
  refine ⟨fun s tk rd b i h hr hb => ?_, fun s tk r h hr => ?_⟩
  · have hblock (f : Block → XWord) : s.ofBlock f = f b := State.ofBlock_some hr hb f
    have hcrew {α : Type} (v w : α) : (if s.cur.role = .fw then v else w) = w := if_neg hr
    have hdom : s.csr .dom = BitVec.ofNat 64 (b.domid.toNat * 2 ^ 32 + (b.scopes ||| 3).toNat) := by
      rw [State.csr, hblock, State.scopes_some hr hb, domCsr_eq_ofNat]
    refine ⟨csrr_runs h (hblock _), csrr_runs h (hblock _), csrr_runs h (hblock _), csrr_runs h (hblock _), csrr_runs h (hblock _),
      csrr_runs h rfl, csrr_runs h rfl, csrr_runs h (zeroExtend_eq_ofNat _), csrr_runs h (hblock _), csrr_runs h hdom,
      csrr_runs h ((hblock _).trans (eq_ofNat_toNat _)), csrr_runs h ((hcrew ..).trans (eq_ofNat_toNat _)),
      csrr_runs h ((hcrew ..).trans (zeroExtend_eq_ofNat _)), csrr_runs h rfl, csrr_runs h rfl,
      csrr_runs h ((hcrew ..).trans (zeroExtend_eq_ofNat _)), csrr_runs h (congrArg (BitVec.ofNat 64) (hcrew ..)),
      csrr_runs h ((hcrew ..).trans (zeroExtend_eq_ofNat _))⟩
  · refine ⟨csrr_runs h (zeroExtend_eq_ofNat _), csrr_runs h (eq_ofNat_toNat _), csrr_runs h (eq_ofNat_toNat _),
      csrr_runs h (zeroExtend_eq_ofNat _), csrr_runs h (zeroExtend_eq_ofNat _), csrr_runs h (zeroExtend_eq_ofNat _),
      csrw_runs (f := fun w => { w with cause := (s.getX r).setWidth 24 }) h hr rfl rfl,
      csrw_runs (f := fun w => { w with addr := s.getX r }) h hr rfl rfl,
      csrw_runs (f := fun w => { w with tpc := s.getX r }) h hr rfl rfl,
      csrw_runs (f := fun w => { w with tseq := (s.getX r).setWidth 2 }) h hr rfl rfl, ?_⟩
    rw [← trapcrewMask_eq_ofNat]
    exact csrw_runs (f := fun w => { w with tcrew := (s.getX r).setWidth 14 &&& 0x3F03 }) h hr rfl rfl

/-! ### The words of `waitlim`, `desctab` and `fwshare` (R86 to R88) -/

theorem waitlimValue_eq (v : XWord) : waitlimValue v = BitVec.ofNat 48 (Max.max 1024 (v.toNat % 2 ^ 48)) := by
  rw [waitlimValue]
  split
  · rw [max_eq_left (by omega)]
    rfl
  · rw [max_eq_right (by omega)]
    exact BitVec.eq_of_toNat_eq (by simp)

theorem fwshareValue_eq (v : XWord) : fwshareValue v = BitVec.ofNat 5 (Max.max 1 (Min.min 16 (v.toNat % 32))) := by
  rw [fwshareValue]
  split
  · rw [show Max.max 1 (Min.min 16 (v.toNat % 32)) = 1 by omega]
    rfl
  · split
    · rw [show Max.max 1 (Min.min 16 (v.toNat % 32)) = 16 by omega]
      rfl
    · rw [show Max.max 1 (Min.min 16 (v.toNat % 32)) = v.toNat % 32 by omega]
      exact BitVec.eq_of_toNat_eq (by simp)

theorem Crew.inner_waitlim (v : BitVec 48) : Crew.Inner fun c => { c with waitlim := v } :=
  ⟨fun _ => rfl, fun _ st _ => by cases st <;> rfl, fun _ st => by cases st <;> rfl⟩

theorem Crew.inner_desctab (v : BitVec 23) : Crew.Inner fun c => { c with desctab := v } :=
  ⟨fun _ => rfl, fun _ st _ => by cases st <;> rfl, fun _ st => by cases st <;> rfl⟩

theorem Core.inner_share (v : BitVec 5) : Core.Inner fun c => { c with fw := { c.fw with share := v } } :=
  ⟨fun _ _ _ => rfl, fun _ _ => rfl, fun _ => rfl, fun _ _ => rfl⟩

section Words
variable {s : State} {tk : Tok} {rs : XReg}

theorem waitlimWrite_eq : exec (.waitlimWrite tk rs) s = runWord tk [refX rs] s fun s =>
    .done (if s.cur.role = .fw then s.modFw fun w => { w with waitlim := waitlimValue (s.getX rs) }
      else s.modCrew fun c => { c with waitlim := waitlimValue (s.getX rs) }) := rfl

theorem desctabWrite_eq : exec (.desctabWrite tk rs) s = runWord tk [refX rs] s fun s =>
    .ofTrap (desctabCheck s.part (s.getX rs)) (.done (s.modCrew fun c => { c with desctab := (s.getX rs).setWidth 23 })) := rfl

theorem fwshareWrite_eq : exec (.fwshareWrite tk rs) s = runWord tk [refX rs] s fun s =>
    .done (s.modFw fun w => { w with share := fwshareValue (s.getX rs) }) := rfl

variable (h : s.Clear tk)
include h

theorem waitlimWrite_crew_runs (hr : s.cur.role ≠ .fw) :
    Runs (.waitlimWrite tk rs) s (s.modCrew fun c => { c with waitlim := waitlimValue (s.getX rs) }) := by
  refine lands_runs waitlimWrite_eq h (State.lands_modCrew (Crew.inner_waitlim _)) ?_
  rw [State.getX_doPops, State.doPops_cur, if_neg hr]

theorem waitlimWrite_fw_runs (hr : s.cur.role = .fw) : Runs (.waitlimWrite tk rs) s
    (s.modHere fun c => { c with fw := { c.fw with waitlim := waitlimValue (s.getX rs) } }) := by
  rw [Runs, waitlimWrite_eq]
  exact modFw_reaches (f := fun w => { w with waitlim := waitlimValue (s.getX rs) }) h hr rfl (congrArg Res.done (if_pos hr))

theorem fwshareWrite_runs : Runs (.fwshareWrite tk rs) s
    (s.modHere fun c => { c with fw := { c.fw with share := fwshareValue (s.getX rs) } }) := by
  refine lands_runs fwshareWrite_eq h (State.lands_modHere (Core.inner_share _)) ?_
  rw [State.getX_doPops]
  rfl

theorem desctabWrite_traps {t : TrapReq} (ht : desctabCheck s.part (s.getX rs) = some t) : Traps (.desctabWrite tk rs) s t := by
  refine desctabWrite_eq.trans (runWord_trap h.toIssues ?_)
  rw [State.getX_doPops, State.part_of_apart (s.apart_doPops _), ht]
  rfl

theorem desctabWrite_runs (ht : desctabCheck s.part (s.getX rs) = none) :
    Runs (.desctabWrite tk rs) s (s.modCrew fun c => { c with desctab := (s.getX rs).setWidth 23 }) := by
  refine lands_runs desctabWrite_eq h (State.lands_modCrew (Crew.inner_desctab _)) ?_
  rw [State.getX_doPops, State.part_of_apart (s.apart_doPops _), ht]
  rfl

end Words

/-- Settles O22: the values that the three words take, and the checks of `desctab` in their order. -/
theorem csrWriteRules : Obligations.CsrWriteRules := by
  unfold Obligations.CsrWriteRules
  intro s tk rs h
  dsimp only
  rw [← waitlimValue_eq, ← fwshareValue_eq]
  refine ⟨waitlimWrite_crew_runs h, waitlimWrite_fw_runs h, fun _ hal hnear hlo hhi => ?_, fun hal => ?_, fun hal hfar => ?_,
    fun hal hnear hout => ?_, fwshareWrite_runs h⟩
  · rw [BitVec.ofNat_toNat]
    refine desctabWrite_runs h ?_
    rw [desctabCheck, if_neg (not_not.2 hal), if_neg (by omega), if_neg (by simp; omega)]
  · exact desctabWrite_traps h ((if_pos hal).trans (by rw [trapAt_toNat]; rfl))
  · refine desctabWrite_traps h ?_
    rw [desctabCheck, if_neg (not_not.2 hal), if_pos hfar, trapAt_toNat]
    rfl
  · refine desctabWrite_traps h ?_
    rw [desctabCheck, if_neg (not_not.2 hal), if_neg (by omega), if_pos (by simpa using hout), trapAt_toNat]
    rfl

end Sys2Proof.Machine
end

section
/-! PROOFS. Taking a trap, and the word `trap` (R19, R59, R89, R90, R322). -/

namespace Sys2Proof.Machine

/-! ### Registers and pools through updates of a core -/

theorem State.Keeps.refl (s : State) : s.Keeps s := ⟨fun _ => rfl, fun _ => rfl, fun _ => rfl⟩

theorem State.pool_modHere (s : State) {f : Core → Core} (hf : ∀ c, (f c).pool = c.pool) (c : CoreId) :
    ((s.modHere f).core c).pool = (s.core c).pool := by
  rw [State.modHere_eq]
  by_cases hc : s.cur.core = c
  · subst hc
    rw [State.core_setCore]
    exact hf _
  · rw [State.core_setCore_ne _ _ hc]

theorem State.keeps_modHere (s : State) {f : Core → Core} (hcrew : ∀ c k, ((f c).crew k).x = (c.crew k).x ∧ ((f c).crew k).f = (c.crew k).f)
    (hfw : ∀ c, (f c).fw.x = c.fw.x ∧ (f c).fw.f = c.fw.f) (hpool : ∀ c, (f c).pool = c.pool) : s.Keeps (s.modHere f) := by
  obtain ⟨hcx, hcf⟩ := hcrew s.here s.cur.crew
  obtain ⟨hwx, hwf⟩ := hfw s.here
  refine ⟨fun r => ?_, fun r => ?_, s.pool_modHere hpool⟩
  · rw [State.getX, State.here_modHere, State.crew_here, State.here_modHere, hwx]
    exact congrArg (fun x : Vector XWord 64 => if r = 0 then 0 else if s.cur.role = .fw then s.here.fw.x.get r else x.get r) hcx
  · rw [State.getF, State.here_modHere, State.crew_here, State.here_modHere, hwf]
    exact congrArg (fun x : Vector W32 32 => if s.cur.role = .fw then s.here.fw.f.get r else x.get r) hcf

theorem State.keeps_modCrew (s : State) {f : Crew → Crew} (hx : ∀ c, (f c).x = c.x) (hf : ∀ c, (f c).f = c.f) :
    s.Keeps (s.modCrew f) := by
  rw [State.modCrew_modHere]
  refine s.keeps_modHere (fun c k => ?_) (fun _ => ⟨rfl, rfl⟩) fun _ => rfl
  by_cases hk : s.cur.crew = k
  · subst hk
    rw [Core.crew_setCrew]
    exact ⟨hx _, hf _⟩
  · rw [Core.crew_setCrew_ne _ _ (Ne.symm hk)]
    exact ⟨rfl, rfl⟩

theorem State.keeps_modSeq (s : State) (f : Seq → Seq) : s.Keeps (s.modSeq f) := by
  by_cases hr : s.cur.role = .fw
  · rw [State.modSeq_fw f hr]
    exact s.keeps_modHere (fun _ _ => ⟨rfl, rfl⟩) (fun _ => ⟨rfl, rfl⟩) fun _ => rfl
  · rw [State.modSeq_crew f hr]
    exact s.keeps_modCrew (fun _ => by cases s.cur.role.stream <;> rfl) fun _ => by cases s.cur.role.stream <;> rfl

/-! ### A trap among those that wait (R89) -/

theorem insertTrap_perm (t : Trap) (l : List Trap) : (insertTrap t l).Perm (t :: l) := by
  induction l with
  | nil => exact .refl _
  | cons u l ih =>
    rw [insertTrap]
    split
    · exact .refl _
    · exact (ih.cons u).trans (.swap t u l)

/-- The record of a trap that the executing agent raises. -/
def State.trapRec (s : State) (t : TrapReq) : Trap :=
  { crew := s.cur.crew, ctx := s.crew.ctx, stream := s.cur.role.stream, code := t.code, info := t.info, addr := t.addr, pc := s.pc,
    clock := s.cycle, restored := false, back := none }

/-- A sequencer that a trap stops. -/
def Seq.stopAt (q : Seq) : Seq := { q with status := .trapped, wait := none, pushWait := none, issued := true }

/-- The traps that wait on a core. -/
def Core.setTraps (l : List Trap) (c : Core) : Core := { c with traps := l }

theorem Core.inner_setTraps (l : List Trap) : Core.Inner (Core.setTraps l) :=
  ⟨fun _ _ _ => rfl, fun _ _ => rfl, fun _ => rfl, fun _ _ => rfl⟩

/-- The firmware context that a trap of its own stops (R322). -/
def Fw.stopAt (t : Trap) (w : Fw) : Fw :=
  { w with fault := some t, stopped := true, seq := { w.seq with status := .trapped, wait := none } }

section Raise
variable {s : State} (t : TrapReq)

theorem raise_fw (hr : s.cur.role = .fw) : raise t s = s.modFw (Fw.stopAt (s.trapRec t)) := if_pos hr

section Crew
variable (hr : s.cur.role ≠ .fw)
include hr

theorem State.traps_modSeq (f : Seq → Seq) : (s.modSeq f).here.traps = s.here.traps := by
  rw [State.modSeq_crew _ hr, State.modCrew_modHere, State.here_modHere]
  rfl

theorem raise_eq : raise t s = (s.modSeq Seq.stopAt).modHere (Core.setTraps (insertTrap (s.trapRec t) s.here.traps)) := by
  rw [← State.traps_modSeq hr Seq.stopAt]
  exact if_neg hr

theorem raise_here_traps : (raise t s).here.traps = insertTrap (s.trapRec t) s.here.traps := by
  rw [raise_eq t hr, State.here_modHere]
  rfl

/-- Apart from issue a trap stops its sequencer, and its record waits. -/
theorem raise_apart : (raise t s).apart =
    ((s.modSeq fun q => { q with status := .trapped }).modHere (Core.setTraps (raise t s).here.traps)).apart := by
  have hstop : s.modSeq Seq.stopAt = (s.modSeq fun q => { q with status := .trapped }).modSeq fun q =>
      { q with wait := none, pushWait := none, issued := true } := by rw [State.modSeq_modSeq]; rfl
  rw [raise_here_traps t hr, raise_eq t hr, State.apart_innerCore (Core.inner_setTraps _), State.apart_innerCore (Core.inner_setTraps _),
    hstop, State.apart_modSeq rfl]

end Crew

/-- A trap leaves the registers and the pools. -/
theorem raise_keeps : s.Keeps (raise t s) := by
  by_cases hr : s.cur.role = .fw
  · rw [raise_fw t hr]
    exact s.keeps_modHere (fun _ _ => ⟨rfl, rfl⟩) (fun _ => ⟨rfl, rfl⟩) fun _ => rfl
  · rw [raise_eq t hr]
    exact (s.keeps_modSeq _).trans (State.keeps_modHere _ (fun _ _ => ⟨rfl, rfl⟩) (fun _ => ⟨rfl, rfl⟩) fun _ => rfl)

theorem raise_cur : (raise t s).cur = s.cur := by
  by_cases hr : s.cur.role = .fw
  · rw [raise_fw t hr]
    rfl
  · rw [raise_eq t hr, State.modHere_cur, State.modSeq_cur]

theorem raise_mem : (raise t s).mem = s.mem := by
  by_cases hr : s.cur.role = .fw
  · rw [raise_fw t hr]
    rfl
  · rw [raise_eq t hr, State.modHere_mem, State.modSeq_mem]

/-- Of the sequencer that it stops a trap changes no more than its status and its waits. -/
theorem raise_readSeq {α : Type} (g : Seq → α) (hg : ∀ q w p i, g { q with status := .trapped, wait := w, pushWait := p, issued := i } = g q) :
    g (raise t s).seq = g s.seq := by
  by_cases hr : s.cur.role = .fw
  · rw [raise_fw t hr, State.seq_fw (by exact hr), State.seq_fw hr, State.modFw, State.here_modHere]
    exact hg s.here.fw.seq none s.here.fw.seq.pushWait s.here.fw.seq.issued
  · rw [raise_eq t hr, State.seq_innerCore (Core.inner_setTraps _), State.seq_modSeq]
    exact hg s.seq none none true

theorem raise_pc : (raise t s).pc = s.pc := raise_readSeq t Seq.pc fun _ _ _ _ => rfl

theorem raise_status : (raise t s).seq.status = .trapped := by
  by_cases hr : s.cur.role = .fw
  · rw [raise_fw t hr, State.seq_fw (by exact hr), State.modFw, State.here_modHere]
    rfl
  · rw [raise_eq t hr, State.seq_innerCore (Core.inner_setTraps _), State.seq_modSeq]
    rfl

end Raise

/-! ### The sequencer through the closing of loops and retirement -/

/-- What the closing of loops leaves of the sequencer. -/
theorem loopClose_readSeq {α : Type} (g : Seq → α) (hg : ∀ q l, g { q with loops := l } = g q) {a npc npc' : XWord} {n : Nat}
    {s u : State} (hrows : ∀ e ∈ s.seq.loops, e.kind = .cursor → e.last ≠ a) (h : loopClose a npc s n = .next u npc') :
    g u.seq = g s.seq := by
  induction n generalizing s with
  | zero =>
    obtain ⟨rfl, -⟩ := Closed.next.inj h
    rfl
  | succ n ih =>
    unfold loopClose at h
    split at h
    · obtain ⟨rfl, -⟩ := Closed.next.inj h
      rfl
    · rename_i top rest hl
      split at h
      · obtain ⟨rfl, -⟩ := Closed.next.inj h
        rfl
      · rename_i hat
        have hkind : top.kind ≠ .cursor := fun hk => hrows top (by simp [hl]) hk (not_not.1 hat).symm
        dsimp only at h
        generalize ht : (if top.kind = .rotating then
          s.modCrew fun c => { c with vbase := c.vbase - 1, pbase := c.pbase - 1 } else s) = t at h
        have hseq : t.seq = s.seq := by
          rw [← ht]
          split
          · exact State.seq_modCrew fun st => by cases st <;> rfl
          · rfl
        split at h
        · obtain ⟨rfl, -⟩ := Closed.next.inj h
          rw [State.seq_modSeq, hg, hseq]
        · rw [if_neg (by simp [hkind])] at h
          rw [ih (fun e he => hrows e (by rw [State.seq_modSeq] at he; simp [hl, he])) h, State.seq_modSeq, hg, hseq]

/-- With nothing held there is nothing to push. -/
theorem State.pushes_nothing {s : State} {pu : Pops} {cmd : Option Nat} {w : Bool} (hheld : s.seq.held = []) (hp : pu.p = 0)
    (hn : pu.n = 0) : s.pushes pu cmd w = s := by
  have hstuck : s.pushStuck = false := by simp only [State.pushStuck, hheld]
  simp [State.pushes, hp, hn, hheld, State.pushAll, State.notePushWait, hstuck]

theorem retire_held_nil {pu : Pops} {cmd : Option Nat} {w : Bool} {npc : XWord} {s : State} (hheld : s.seq.held = [])
    (hp : pu.p = 0) (hn : pu.n = 0) : (retire pu cmd w npc s).seq.held = [] := by
  have hnil : (s.modSeq fun q => { q with pc := npc, wait := none, issued := true }).seq.held = [] := by rw [State.seq_modSeq, hheld]
  rw [retire, State.pushes_nothing hnil hp hn, hnil]

/-! ### The word `trap` (R90) -/

/-- What a trap that follows a word's retirement leaves: it is raised once no push is held, and due before that (R19). -/
structure TrapsAfter (s : State) (t : TrapReq) (u : State) : Prop where
  keeps : s.Keeps u
  cur : u.cur = s.cur
  mem : u.mem = s.mem
  pc : u.pc = s.pc
  held : u.seq.held = s.seq.held
  raised : s.seq.held = [] → u.seq.status = .trapped ∧ s.trapRec t ∈ u.here.traps
  due : s.seq.held ≠ [] → u.here.traps = s.here.traps ∧ u.seq.trapDue = some t

theorem raiseWhenPushed_spec {s : State} (hr : s.cur.role ≠ .fw) (t : TrapReq) : TrapsAfter s t (raiseWhenPushed t s) := by
  rw [raiseWhenPushed]
  split
  next hheld =>
    rw [List.isEmpty_iff] at hheld
    exact ⟨raise_keeps t, raise_cur t, raise_mem t, raise_pc t, raise_readSeq t Seq.held fun _ _ _ _ => rfl,
      fun _ => ⟨raise_status t, by rw [raise_here_traps t hr]; exact mem_insertTrap ..⟩, fun hne => absurd hheld hne⟩
  next hheld =>
    rw [List.isEmpty_iff] at hheld
    exact ⟨s.keeps_modSeq _, State.modSeq_cur .., State.modSeq_mem .., by rw [State.pc, State.seq_modSeq]; rfl, by rw [State.seq_modSeq],
      fun he => absurd he hheld, fun _ => ⟨State.traps_modSeq hr _, by rw [State.seq_modSeq]⟩⟩

/-- `trap` retires to the next word, and its trap follows. -/
theorem trap_answers {s : State} {tk : Tok} (imm : BitVec 16) (h : s.Clear tk) (hr : s.cur.role ≠ .fw) :
    ∃ w u, exec (.trap tk imm) s = .next u ∧ TrapsAfter w { code := 0x40, info := imm, addr := 0 } u ∧ w.apart = s.apart
      ∧ (s.inLine → w.pc = s.pc + 4) ∧ (s.seq.held = [] → tk.pushP = false → tk.pushN = false → w.seq.held = []) := by
  have hloops := (s.doPops_place (popsOf tk)).1
  have hrows : ∀ e ∈ (s.doPops (popsOf tk)).seq.loops, e.kind = .cursor → e.last ≠ s.pc := fun e he => h.rows e (by rwa [← hloops])
  obtain ⟨v, npc, hv, hva, hvc⟩ := loopClose_noRow (npc := s.pc + 4) ((s.doPops (popsOf tk)).seq.loops.length + 1) hrows
  have hrun : exec (.trap tk imm) s = .next (raiseWhenPushed { code := 0x40, info := imm, addr := 0 } (retire (pushesOf tk) none false npc v)) := by
    rw [show exec (.trap tk imm) s = runWord tk [] s fun s => .thenTrap s { code := 0x40, info := imm, addr := 0 } from rfl]
    simp only [runWord, runWith, h.tokens, parityBad_of_nil h.parity, h.credits, hv]
    rfl
  have hapart : (retire (pushesOf tk) none false npc v).apart = s.apart := (apart_retire ..).trans (hva.trans (s.apart_doPops _))
  refine ⟨_, _, hrun, raiseWhenPushed_spec (by rwa [State.cur_of_apart hapart]) _, hapart, fun hin => ?_, fun hheld hp hn => ?_⟩
  · rw [loopClose_inLine fun e he => hin e (by rwa [← hloops])] at hv
    cases hv
    exact retire_pc ..
  · refine retire_held_nil ?_ (by simp [pushesOf, hp]) (by simp [pushesOf, hn])
    rw [loopClose_readSeq Seq.held (fun _ _ => rfl) hrows hv, State.readSeq_doPops Seq.held (fun _ _ _ => rfl), hheld]

/-- Settles O23: a trap by whose it is, and `trap` by whether a push is held once it has retired. -/
theorem takingATrap : Obligations.TakingATrap := by
  unfold Obligations.TakingATrap
  refine ⟨fun s t => ⟨fun hr => ?_, fun hr => ?_⟩, fun s tk imm h hr => ?_⟩
  · have htraps := raise_here_traps t hr
    have hperm := insertTrap_perm (s.trapRec t) s.here.traps
    refine ⟨raise_status t, raise_pc t, ⟨s.trapRec t, by rw [htraps]; exact mem_insertTrap .., rfl, rfl, rfl, rfl, rfl, rfl, rfl, rfl⟩, ?_,
      fun r hmem => ?_, raise_apart t hr⟩
    · rw [htraps, hperm.length_eq, List.length_cons]
    · rw [htraps]
      exact hperm.mem_iff.2 (List.mem_cons_of_mem _ hmem)
  · refine ⟨?_, raise_status t, ⟨s.trapRec t, ?_, rfl, rfl⟩, raise_mem t, ?_, ?_⟩ <;>
      rw [raise_fw t hr, State.modFw, State.here_modHere] <;> rfl
  · obtain ⟨w, u, hrun, hu, hapart, hpc, hheld⟩ := trap_answers imm h hr
    obtain ⟨hx, hf, hpool⟩ := (State.keeps_of_apart hapart).trans hu.keeps
    refine ⟨u, hrun, fun hin => hu.pc.trans (hpc hin), hx, hu.mem.trans (State.mem_of_apart hapart), ?_, fun h1 h2 h3 =>
      hu.held.trans (hheld h1 h2 h3), fun hnil => ?_, fun hne => ?_⟩
    · rw [State.here, State.here, hu.cur, State.cur_of_apart hapart]
      exact hpool _
    · rw [hu.held] at hnil
      obtain ⟨hstatus, hmem⟩ := hu.raised hnil
      exact ⟨hstatus, _, hmem, rfl, rfl, rfl, hu.pc.symm, congrArg Cur.crew (State.cur_of_apart hapart)⟩
    · rw [hu.held] at hne
      obtain ⟨htraps, hdue⟩ := hu.due hne
      refine ⟨htraps.trans ?_, hdue⟩
      exact State.readHere_of_apart Core.traps (fun _ _ _ => rfl) (fun _ _ => rfl) hapart

end Sys2Proof.Machine
end

section
/-! PROOFS. What an update of the cores leaves of each, and serving a trap and returning from it (R69, R89, R91, R157, R298). -/

namespace Sys2Proof.Machine

/-! ### A part of every core that stays -/

/-- From `s` to `u` the part `g` of every core stays. -/
structure State.CoresAgree {α : Type} (g : Core → α) (s u : State) : Prop where
  core : ∀ c, g (u.core c) = g (s.core c)

section CoresAgree
variable {α : Type} {g : Core → α} {s t u : State}

theorem State.CoresAgree.refl (g : Core → α) (s : State) : s.CoresAgree g s := ⟨fun _ => rfl⟩

theorem State.CoresAgree.trans (h : s.CoresAgree g t) (k : t.CoresAgree g u) : s.CoresAgree g u :=
  ⟨fun c => (k.core c).trans (h.core c)⟩

theorem State.CoresAgree.of_cores (h : s.CoresAgree g t) (hu : u.cores = t.cores) : s.CoresAgree g u :=
  h.trans ⟨fun c => congrArg (fun l : Vector Core 64 => g (l.get c)) hu⟩

theorem State.CoresAgree.modCore (h : s.CoresAgree g t) {core : CoreId} {f : Core → Core} (hf : ∀ c, g (f c) = g c) :
    s.CoresAgree g (t.modCore core f) := by
  refine h.trans ⟨fun c => ?_⟩
  by_cases hc : core = c
  · rw [← hc, State.modCore, State.core_setCore]
    exact hf _
  · rw [State.modCore, State.core_setCore_ne _ _ hc]

theorem State.CoresAgree.modHere (h : s.CoresAgree g t) {f : Core → Core} (hf : ∀ c, g (f c) = g c) :
    s.CoresAgree g (t.modHere f) := h.modCore hf

theorem State.CoresAgree.modCrewAt (h : s.CoresAgree g t) {core : CoreId} {k : CrewIx} {f : Crew → Crew}
    (hg : ∀ c k v, g (Core.setCrew c k v) = g c) : s.CoresAgree g (t.modCrewAt core k f) :=
  h.modCore (f := fun c => c.setCrew k (f (c.crew k))) fun c => hg c k _

theorem State.CoresAgree.modCrew (h : s.CoresAgree g t) {f : Crew → Crew} (hg : ∀ c k v, g (Core.setCrew c k v) = g c) :
    s.CoresAgree g (t.modCrew f) := h.modCrewAt hg

theorem State.CoresAgree.map (h : s.CoresAgree g t) {f : Core → Core} (hf : ∀ c, g (f c) = g c) :
    s.CoresAgree g { t with cores := t.cores.map f } := by
  refine h.trans ⟨fun c => ?_⟩
  have hcore : ({ t with cores := t.cores.map f } : State).core c = f (t.core c) := by
    simp [State.core, Vector.get_eq_getElem]
  rw [hcore, hf]

theorem State.CoresAgree.foldl {β : Type} (h : s.CoresAgree g t) {l : List β} {f : State → β → State}
    (hf : ∀ (v : State) (b : β), s.CoresAgree g v → s.CoresAgree g (f v b)) : s.CoresAgree g (l.foldl f t) :=
  List.foldlRecOn (motive := fun v => s.CoresAgree g v) l f h fun v hv b _ => hf v b hv

end CoresAgree

/-! ### The trap CSRs while a trap is disposed of -/

/-- The trap CSRs of a core's firmware context (Table 5.2). -/
def Core.csrs (c : Core) : BitVec 24 × XWord × XWord × BitVec 2 × BitVec 14 := (c.fw.cause, c.fw.addr, c.fw.tpc, c.fw.tseq, c.fw.tcrew)

section TrapCsrs
variable {s t : State} (h : s.CoresAgree Core.csrs t)
include h

theorem State.CoresAgree.unlockAll (xs : List Xfer) : s.CoresAgree Core.csrs (t.unlockAll xs) := by
  refine h.foldl fun v x hv => ?_
  unfold State.unlockDone
  refine .modCore (.modHere hv ?_) ?_ <;> exact fun _ => rfl

theorem State.CoresAgree.anyCrew (f : Crew → Crew) : s.CoresAgree Core.csrs (t.modCrew f) := h.modCrew fun _ _ _ => rfl

theorem State.CoresAgree.dropTransfers (core : CoreId) (crew : CrewIx) (st : XferStream) : s.CoresAgree Core.csrs (t.dropTransfers core crew st) := by
  unfold State.dropTransfers State.setXq
  have hact : s.CoresAgree Core.csrs (t.actAs core crew (xferRole st)) := .of_cores h rfl
  refine .anyCrew ?_ _
  exact (hact.unlockAll _).of_cores rfl

theorem State.CoresAgree.withdraw (q : Fin 16 × Nat) : s.CoresAgree Core.csrs (t.withdraw q) := by
  unfold State.withdraw
  refine .anyCrew (.anyCrew (.foldl h fun v x hv => .modHere hv ?_) _) _
  exact fun _ => rfl

theorem State.CoresAgree.dropMatrix : s.CoresAgree Core.csrs t.dropMatrix := by
  have hunlocks (c : Core) (ms : List MatCmd) : (ms.foldl (fun c m => c.unlock m.id) c).csrs = c.csrs :=
    List.foldlRecOn (motive := fun d : Core => d.csrs = c.csrs) ms _ rfl fun _ h _ _ => h
  unfold State.dropMatrix
  refine .anyCrew (.modHere (.foldl h fun v m hv => ?_) fun c => hunlocks c _) _
  split
  · exact hv.withdraw _
  · exact hv

end TrapCsrs

theorem Core.csrs_releaseBoxes (c : Core) (ctx : CtxId) (launch : Nat) (away : Bool) : (c.releaseBoxes ctx launch away).csrs = c.csrs := by
  unfold Core.releaseBoxes
  split <;> rfl

theorem Core.csrs_leave (c : Core) (k : CrewIx) (cycle : Nat) : (c.leave k cycle).csrs = c.csrs := by
  unfold Core.leave
  dsimp only
  split <;> rfl

theorem State.CoresAgree.releaseCrew {s t : State} (h : s.CoresAgree Core.csrs t) (core : CoreId) (crew : CrewIx) :
    s.CoresAgree Core.csrs (t.releaseCrew core crew) := by
  have hleft : s.CoresAgree Core.csrs ((t.modCore core fun c => c.leave crew t.cycle).modCrewAt core crew Crew.released) :=
    .modCrewAt (.modCore h fun c => c.csrs_leave _ _) fun _ _ _ => rfl
  unfold State.releaseCrew
  dsimp only
  split
  · exact h
  · refine .modCore ?_ fun c => ?_
    · exact hleft.of_cores rfl
    · rw [Core.csrs_releaseBoxes]
      rfl

theorem State.CoresAgree.cancelCrew {s t : State} (h : s.CoresAgree Core.csrs t) (core : CoreId) (crew : CrewIx) :
    s.CoresAgree Core.csrs (t.cancelCrew core crew) := by
  have hl := h.dropTransfers core crew .l
  have hs := hl.dropTransfers core crew .s
  have hm := CoresAgree.dropMatrix (hs.of_cores (State.actAs_cores _ core crew .c))
  unfold State.cancelCrew
  refine .releaseCrew ?_ core crew
  exact hm.of_cores rfl

/-! ### What leaves the cores alone -/

theorem State.send_cores (s : State) (m : OutMsg) : (s.send m).cores = s.cores := by
  unfold State.send
  cases m.frame <;> rfl

theorem State.post_cores (s : State) (ctx : CtxId) (kind opcode status : Nat) (cookie : XWord) (payload : List Byte) :
    (s.post ctx kind opcode status cookie payload).cores = s.cores := by
  unfold State.post
  split
  · rfl
  · exact s.send_cores _

theorem State.closeLaunch_cores (s : State) (ctx : CtxId) (l : Launch) (status : Nat) (i : EndInfo) :
    (s.closeLaunch ctx l status i).cores = s.cores := State.post_cores ..

theorem State.cancelDoomed_cores (s : State) (ctx : CtxId) (n : Nat) : (s.cancelDoomed ctx n).cores = s.cores := by
  induction n generalizing s with
  | zero => rfl
  | succ n ih =>
    rw [State.cancelDoomed]
    split
    · rfl
    · rw [ih, State.closeLaunch_cores]

theorem State.finishLaunch_cores (s : State) (ctx : CtxId) (num status : Nat) (i : EndInfo) :
    (s.finishLaunch ctx num status i).cores = s.cores := by
  unfold State.finishLaunch
  split
  · rfl
  · exact (State.cancelDoomed_cores _ _ _).trans (State.closeLaunch_cores _ _ _ _ _)

theorem State.notice_cores (s : State) (core : CoreId) (t : Trap) (holds : Bool) : (s.notice core t holds).cores = s.cores :=
  State.post_cores ..

/-! ### A disposition keeps the trap CSRs -/

theorem State.CoresAgree.endLaunch {s t : State} (h : s.CoresAgree Core.csrs t) (ctx : CtxId) (num status : Nat) (i : EndInfo) :
    s.CoresAgree Core.csrs (t.endLaunch ctx num status i) := by
  let v := t.modNpu fun n => { n with saves := n.saves.filter fun v => !(v.ctx == ctx && v.rec_.runs ctx num) }
  let w := (crewIds.filter fun q => (v.crewAt q.1 q.2).runs ctx num).foldl (fun s q => s.cancelCrew q.1 q.2) v
  have hv : s.CoresAgree Core.csrs v := .of_cores h rfl
  have hw : s.CoresAgree Core.csrs w := .foldl hv fun u q hu => CoresAgree.cancelCrew hu q.1 q.2
  have hboxes : s.CoresAgree Core.csrs { w with cores := w.cores.map fun c => c.releaseBoxes ctx num false } :=
    hw.map fun c => c.csrs_releaseBoxes _ _ _
  unfold State.endLaunch
  exact hboxes.of_cores (State.finishLaunch_cores _ _ _ _ _)

theorem State.CoresAgree.endByTrap {s t : State} (h : s.CoresAgree Core.csrs t) (r : FaultRec) (core : CoreId) (x : Trap) :
    s.CoresAgree Core.csrs ((t.faultRecord r).endByTrap core x) := by
  have hr : s.CoresAgree Core.csrs (t.faultRecord r) := h.of_cores (t.faultRecord_cores r)
  unfold State.endByTrap
  split
  · exact hr
  · exact hr.endLaunch _ _ _ _

theorem State.dispose_keepsCsrs (s : State) (core : CoreId) (t : Trap) : s.CoresAgree Core.csrs (s.dispose core t) := by
  have hs : s.CoresAgree Core.csrs s := .refl _ s
  have hnotice (holds : Bool) : s.CoresAgree Core.csrs (s.notice core t holds) := hs.of_cores (s.notice_cores _ _ _)
  have hcount : s.CoresAgree Core.csrs
      (s.modCrewAt core t.crew fun c => { c with accFails := (s.crewAt core t.crew).accFails + 1 }) :=
    hs.modCrewAt fun _ _ _ => rfl
  have hleave {v : State} (h : s.CoresAgree Core.csrs v) : s.CoresAgree Core.csrs (v.modFwAt core fun w => { w with serving := .nothing }) :=
    h.modCore fun _ => rfl
  have hback {v : State} (h : s.CoresAgree Core.csrs v) : s.CoresAgree Core.csrs (v.modFwAt core fun w => { w with eretDue := true }) :=
    h.modCore fun _ => rfl
  unfold State.dispose
  dsimp only
  split
  · exact hleave (hnotice _)
  split
  · exact hback (hnotice _)
  split
  · split
    · exact hback hcount
    · refine hleave (.endByTrap ?_ _ _ _)
      exact hcount.of_cores rfl
  split
  · exact hleave (hs.endByTrap _ _ _)
  · exact hleave (hs.endByTrap _ _ _)

/-! ### TRAP_ENTRY (R89, R300) -/

theorem enterTrap_csrs (core : CoreId) (t : Trap) (s : State) :
    ((enterTrap core t s).core core).csrs
      = (t.info ++ t.code, t.addr, t.pc, BitVec.ofNat 2 t.stream.num.val, BitVec.ofNat 14 (t.ctx.val * 256 + t.crew.val)) := by
  rw [enterTrap, State.modCore, State.core_setCore]
  rfl

theorem trapEntry_takes (s : State) (core : CoreId) (t : Trap) (rest : List Trap) (hidle : (s.core core).fw.idle = true)
    (hretries : (s.core core).fw.retries = []) (htraps : (s.core core).traps = t :: rest) (hclock : t.clock < s.cycle)
    (hfrozen : (s.ctx t.ctx).frozen = false) :
    exec (.trapEntry core) s
      = .next ((enterTrap core t (s.modCore core fun c => { c with traps := c.traps.erase t })).dispose core t) := by
  have hfind : (s.core core).traps.find? (fun t => !(s.ctx t.ctx).frozen) = some t := by
    rw [htraps, List.find?_cons_of_pos (by simp [hfrozen])]
  change execTrapEntry core s = _
  simp only [execTrapEntry, hidle, hretries, hfind, Bool.not_true, Bool.false_eq_true, if_false, Nat.not_le.mpr hclock]

theorem trapEntry_none (s : State) (core : CoreId) (hretries : (s.core core).fw.retries = [])
    (hfrozen : ∀ t ∈ (s.core core).traps, (s.ctx t.ctx).frozen = true) : exec (.trapEntry core) s = .next s := by
  have hfind : (s.core core).traps.find? (fun t => !(s.ctx t.ctx).frozen) = none :=
    List.find?_eq_none.mpr fun t ht => by simp [hfrozen t ht]
  change execTrapEntry core s = _
  simp only [execTrapEntry, hretries, hfind, ite_self]

/-! ### A part of the executing crew that stays -/

/-- From `s` to `u` the agent is the same, and the part `g` of its crew stays. -/
structure State.CrewAgrees {α : Type} (g : Crew → α) (s u : State) : Prop where
  cur : u.cur = s.cur
  crew : g u.crew = g s.crew

section CrewAgrees
variable {α : Type} {g : Crew → α} {s t : State} (h : s.CrewAgrees g t)
include h

theorem State.CrewAgrees.modHere {f : Core → Core} (hf : ∀ c k, (f c).crew k = c.crew k) : s.CrewAgrees g (t.modHere f) :=
  ⟨h.cur, (congrArg g (State.crew_modHere hf)).trans h.crew⟩

theorem State.CrewAgrees.modCrew {f : Crew → Crew} (hf : ∀ c, g (f c) = g c) : s.CrewAgrees g (t.modCrew f) :=
  ⟨h.cur, by rw [State.crew_modCrew, hf, h.crew]⟩

end CrewAgrees

theorem State.CrewAgrees.snap_withdraw {s t : State} (h : s.CrewAgrees Crew.snap t) (q : Fin 16 × Nat) :
    s.CrewAgrees Crew.snap (t.withdraw q) := by
  unfold State.withdraw
  refine .modCrew (.modCrew (List.foldlRecOn (motive := s.CrewAgrees Crew.snap) _ _ h fun u hu x _ => .modHere hu ?_) ?_) ?_
  all_goals exact fun _ => by intros; rfl

theorem State.snap_dropMatrix (s : State) : s.CrewAgrees Crew.snap s.dropMatrix := by
  have hunlock (c : Core) (ms : List MatCmd) (k : CrewIx) : (ms.foldl (fun c m => c.unlock m.id) c).crew k = c.crew k :=
    List.foldlRecOn (motive := fun d : Core => d.crew k = c.crew k) ms _ rfl fun _ h _ _ => h
  unfold State.dropMatrix
  refine .modCrew (.modHere (List.foldlRecOn (motive := s.CrewAgrees Crew.snap) _ _ ⟨rfl, rfl⟩ fun u hu m _ => ?_)
    fun c => hunlock c _) fun _ => rfl
  split
  · exact hu.snap_withdraw _
  · exact hu

theorem State.CrewAgrees.zeroTile {α : Type} {g : Crew → α} {s t : State} (h : s.CrewAgrees g t)
    (hg : ∀ (c : Crew) (l : Vector Tile 16), g { c with tiles := l } = g c) (i : Fin 16) : s.CrewAgrees g (t.zeroTile i) := by
  unfold State.zeroTile State.modTile
  refine .modCrew (.modHere h ?_) fun c => hg c _
  exact fun _ _ => rfl

/-- C abandoned stands at its restart point with no matrix word left (R69). -/
theorem State.abandonC_crew (s : State) :
    ∃ c : Crew, c.snap = s.crew.snap ∧ c.mq = [] ∧ s.abandonC.cur = s.cur ∧ s.abandonC.crew = c.restart := by
  have hzero : s.dropMatrix.CrewAgrees (fun c => (c.snap, c.mq)) ((maskTiles s.crew.snap.mask).foldl
      (fun s i => if (s.tile i).set then s.zeroTile i else s) s.dropMatrix) := by
    refine List.foldlRecOn _ _ ⟨rfl, rfl⟩ fun v hv i _ => ?_
    split
    · exact hv.zeroTile (fun _ _ => rfl) i
    · exact hv
  obtain ⟨hcur, hsnap⟩ := s.snap_dropMatrix
  have hparts := Prod.ext_iff.mp hzero.crew
  exact ⟨_, hparts.1.trans hsnap, hparts.2.trans s.dropMatrix_mq, hzero.cur.trans hcur, State.crew_modCrew ..⟩

/-! ### `eret` (R91) -/

/-- A firmware context that a handler has left. -/
def Fw.left (w : Fw) : Fw :=
  { w with serving := .nothing, eretDue := false, seq := { w.seq with status := .idle, wait := none, issued := true } }

theorem Stream.ofNum_num (st : Stream) : Stream.ofNum st.num.val = st := by cases st <;> rfl

/-- Where the work of the trap in service begins again, if a pre-emption has abandoned it (R157). -/
def Serving.back : Serving → Option XWord
  | .trap b => b
  | .nothing | .boot | .preempt _ => none

/-- The sequencer of a stream of a crew resumes, unless it is no longer held in a trap of the context that `trapcrew` names. -/
def State.returnTo (s : State) (core : CoreId) (crew : CrewIx) (st : Stream) (back : Option XWord) : State :=
  let w := (s.core core).fw
  let c := s.crewAt core crew
  if c.block.isNone || (c.seq st).status ≠ .trapped || c.ctx.val ≠ field w.tcrew.toNat 13 8 then s
  else if st = .c && back.isNone && w.cause.toNat % 256 = 0x30 then { (s.actAs core crew .c).abandonC with cur := s.cur }
  else resumeSeq core crew st (some (wordStart (back.getD w.tpc))) { s with mem := s.mem.forgetGets core crew fun r => r == st.role }

theorem State.returnTrap_eq (s : State) (core : CoreId) : s.returnTrap core =
    s.returnTo core ⟨(s.core core).fw.tcrew.toNat % 4, by omega⟩ (Stream.ofNum (s.core core).fw.tseq.toNat) (s.core core).fw.serving.back :=
  rfl

theorem eret_elsewhere (s : State) (tk : Tok) (hr : s.cur.role ≠ .fw) : Traps (.eret tk) s { code := 0x01, info := 0, addr := 0 } :=
  if_pos hr

theorem State.returnTrap_cur (s : State) (core : CoreId) : (s.returnTrap core).cur = s.cur := by
  rw [State.returnTrap_eq, State.returnTo]
  dsimp only
  split
  · rfl
  split <;> rfl

section Eret
variable {s : State} {tk : Tok} {crew : CrewIx} {st : Stream} {ctx : CtxId} {back : Option XWord}

theorem eret_returns (hr : s.cur.role = .fw) (hserving : s.here.fw.serving = .trap back) :
    exec (.eret tk) s = .next ((s.returnTrap s.cur.core).modFwAt s.cur.core Fw.left) := by
  change execEret tk s = _
  simp only [execEret, hr, ne_eq, not_true_eq_false, if_false, hserving, State.returnTrap_cur]
  rfl

variable (hserving : s.here.fw.serving = .trap back) (htcrew : s.here.fw.tcrew.toNat = ctx.val * 256 + crew.val)
  (htseq : s.here.fw.tseq.toNat = st.num.val) (hblock : ∃ b, (s.here.crew crew).block = some b ∧ b.ctx = ctx)
  (hstatus : ((s.here.crew crew).seq st).status = .trapped)
include hserving htcrew htseq hblock hstatus

/-- The sequencer that the trap CSRs name is the trapped one. -/
theorem State.returnTrap_named : s.returnTrap s.cur.core =
    if st = .c && back.isNone && s.here.fw.cause.toNat % 256 = 0x30 then
      { (s.actAs s.cur.core crew .c).abandonC with cur := s.cur }
    else resumeSeq s.cur.core crew st (some (wordStart (back.getD s.here.fw.tpc)))
      { s with mem := s.mem.forgetGets s.cur.core crew fun r => r == st.role } := by
  obtain ⟨b, hb, hctx⟩ := hblock
  have hcrew : (⟨s.here.fw.tcrew.toNat % 4, by omega⟩ : CrewIx) = crew := Fin.ext (by dsimp only; omega)
  have hc : (s.crewAt s.cur.core crew).ctx.val = field (s.core s.cur.core).fw.tcrew.toNat 13 8 := by
    have hk : (s.crewAt s.cur.core crew).ctx = ctx := by rw [Crew.ctx, show (s.crewAt s.cur.core crew).block = some b from hb]; exact hctx
    rw [hk, show (s.core s.cur.core).fw.tcrew.toNat = _ from htcrew, field]
    omega
  rw [State.returnTrap_eq]
  change s.returnTo s.cur.core ⟨s.here.fw.tcrew.toNat % 4, _⟩ (Stream.ofNum s.here.fw.tseq.toNat) s.here.fw.serving.back = _
  rw [hcrew, htseq, Stream.ofNum_num, hserving, State.returnTo]
  dsimp only
  refine if_neg ?_
  rw [hc, show (s.crewAt s.cur.core crew).block = some b from hb,
    show ((s.crewAt s.cur.core crew).seq st).status = .trapped from hstatus]
  simp

/-- `eret` to a word: the sequencer runs there again, and the firmware context is idle. -/
theorem eret_resumes (hr : s.cur.role = .fw) (hback : back ≠ none ∨ st ≠ .c ∨ s.here.fw.cause.toNat % 256 ≠ 0x30) :
    Answers (.eret tk) s fun u =>
      ((u.here.crew crew).seq st).status = .running ∧ ((u.here.crew crew).seq st).pc.toNat % 4 = 0
      ∧ ((back.getD s.here.fw.tpc).toNat % 4 = 0 → ((u.here.crew crew).seq st).pc = back.getD s.here.fw.tpc)
      ∧ u.here.fw.serving = .nothing ∧ u.here.fw.seq.status = .idle
      ∧ (∀ r, (u.here.crew crew).x.get r = (s.here.crew crew).x.get r) ∧ u.here.pool = s.here.pool := by
  have hno : ¬(st = .c && back.isNone && s.here.fw.cause.toNat % 256 = 0x30 : Bool) := by
    cases back <;> simp_all [imp_iff_not_or]
  refine ⟨_, eret_returns hr hserving, ?_⟩
  rw [State.returnTrap_named hserving htcrew htseq hblock hstatus, if_neg hno]
  let q : Seq := { (s.here.crew crew).seq st with
    status := .running, wait := none, pushWait := none, pc := wordStart (back.getD s.here.fw.tpc) }
  let v : Core := s.here.setCrew crew ((s.here.crew crew).setSeq st q)
  have hhere : ((resumeSeq s.cur.core crew st (some (wordStart (back.getD s.here.fw.tpc)))
      { s with mem := s.mem.forgetGets s.cur.core crew fun r => r == st.role }).modFwAt s.cur.core Fw.left).here
        = { v with fw := s.here.fw.left } := by
    change (State.modCore (State.setCore _ s.cur.core v) s.cur.core fun c => { c with fw := c.fw.left }).core s.cur.core = _
    rw [State.modCore, State.core_setCore, State.core_setCore]
    rfl
  dsimp only
  rw [hhere]
  have hcrew : ({ v with fw := s.here.fw.left } : Core).crew crew = (s.here.crew crew).setSeq st q := Core.crew_setCrew ..
  rw [hcrew, Crew.seq_setSeq]
  exact ⟨rfl, wordStart_mod _, fun h => wordStart_of_aligned h, rfl, rfl, fun r => by cases st <;> rfl, rfl⟩

/-- `eret` after ACC_CHECK: C runs again at its restart point (R69). -/
theorem eret_restarts (hr : s.cur.role = .fw) (hback : back = none) (hst : st = .c) (hcause : s.here.fw.cause.toNat % 256 = 0x30) :
    Answers (.eret tk) s fun u =>
      (u.here.crew crew).seqC.status = .running ∧ (u.here.crew crew).seqC.pc = (s.here.crew crew).snap.pc
      ∧ (u.here.crew crew).aC = (s.here.crew crew).snap.a
      ∧ (u.here.crew crew).mq = [] ∧ u.here.fw.serving = .nothing ∧ u.here.fw.seq.status = .idle := by
  refine ⟨_, eret_returns hr hserving, ?_⟩
  rw [State.returnTrap_named hserving htcrew htseq hblock hstatus, if_pos (by simp [hback, hst, hcause])]
  let a := s.actAs s.cur.core crew .c
  obtain ⟨c, hsnap, hmq, hcur, hcrew⟩ := a.abandonC_crew
  have hat : (a.abandonC.core s.cur.core).crew crew = c.restart := by
    have : a.abandonC.crew = (a.abandonC.core a.abandonC.cur.core).crew a.abandonC.cur.crew := rfl
    rw [← hcrew, this, hcur]
    rfl
  have hhere : (({ a.abandonC with cur := s.cur } : State).modFwAt s.cur.core Fw.left).here
        = { a.abandonC.core s.cur.core with fw := (a.abandonC.core s.cur.core).fw.left } := State.core_setCore ..
  dsimp only
  rw [hhere]
  change ((a.abandonC.core s.cur.core).crew crew).seqC.status = _ ∧ ((a.abandonC.core s.cur.core).crew crew).seqC.pc = _
    ∧ ((a.abandonC.core s.cur.core).crew crew).aC = _ ∧ ((a.abandonC.core s.cur.core).crew crew).mq = _ ∧ _ ∧ _
  rw [hat]
  refine ⟨rfl, ?_, ?_, hmq, rfl, rfl⟩
  · exact congrArg Snapshot.pc hsnap
  · exact congrArg Snapshot.a hsnap

end Eret

/-- Settles O24: TRAP_ENTRY writes the trap CSRs and its disposition keeps them; `eret` resumes what they name, C after ACC_CHECK at its
restart point. -/
theorem servingATrap : Obligations.ServingATrap := by
  unfold Obligations.ServingATrap
  refine ⟨fun s core t rest hidle hretries htraps hclock hfrozen => ?_, fun s core => trapEntry_none s core,
    fun s tk crew st ctx back => ⟨fun hr hserving htcrew htseq hblock hstatus => ⟨fun hback => ?_, fun hback hst hcause => ?_⟩,
      eret_elsewhere s tk⟩⟩
  · let v := s.modCore core fun c => { c with traps := c.traps.erase t }
    refine ⟨_, trapEntry_takes s core t rest hidle hretries htraps hclock hfrozen, ?_⟩
    have hcsrs := ((State.dispose_keepsCsrs _ core t).core core).trans (enterTrap_csrs core t v)
    simp only [Core.csrs, Prod.mk.injEq] at hcsrs
    obtain ⟨hcause, haddr, htpc, htseq, htcrew⟩ := hcsrs
    refine ⟨hcause, haddr, htpc, ?_, ?_⟩
    · rw [htseq, BitVec.toNat_ofNat]
      have := t.stream.num.isLt
      omega
    · rw [htcrew, BitVec.toNat_ofNat]
      have := t.ctx.isLt
      have := t.crew.isLt
      omega
  · exact eret_resumes hserving htcrew htseq hblock hstatus hr hback
  · exact eret_restarts hserving htcrew htseq hblock hstatus hr hback hst hcause

end Sys2Proof.Machine
end

section
/-! PROOFS. Memory, numbers and every core through setting issue apart; and publication and acquisition (R97, R100, R190, R191, R201). -/

namespace Sys2Proof.Machine

/-! ### Memory and every core through setting issue apart -/

/-- The state with another memory. -/
def State.withMem (s : State) (m : Global) : State := { s with mem := m }

/-- The state with every core changed. -/
def State.mapCores (s : State) (f : Core → Core) : State := { s with cores := s.cores.map f }

/-- The state with another next number. -/
def State.withSerial (s : State) (n : Nat) : State := { s with serial := n }

theorem State.core_mapCores (s : State) (f : Core → Core) (c : CoreId) : (s.mapCores f).core c = f (s.core c) := by
  simp [State.core, State.mapCores, Vector.get_eq_getElem]

theorem State.mapCores_setCore (s : State) {f : Core → Core} (core : CoreId) (c : Core) :
    (s.setCore core c).mapCores f = (s.mapCores f).setCore core (f c) := by
  simp [State.setCore, State.mapCores, Vector.map_set]

theorem State.apart_withMem (s : State) (m : Global) : (s.withMem m).apart = s.apart.withMem m := by
  by_cases h : s.cur.role = .fw
  · rw [State.apart_fw h, State.apart_fw (s := s.withMem m) h]; rfl
  · rw [State.apart_crew h, State.apart_crew (s := s.withMem m) h]; rfl

/-- An update of every core that leaves crews and firmware sequencers alone. -/
theorem State.apart_mapCores {f : Core → Core} (hf : Core.Inner f) (s : State) : (s.mapCores f).apart = s.apart.mapCores f := by
  have hhere : (s.mapCores f).here = f s.here := s.core_mapCores f _
  by_cases h : s.cur.role = .fw
  · rw [State.apart_fw (s := s.mapCores f) h, State.apart_fw h, State.modHere_eq, State.modHere_eq, hhere, State.mapCores_setCore,
      hf.crew, hf.set, hf.seq, hf.fw]
    rfl
  · rw [State.apart_crew (s := s.mapCores f) h, State.apart_crew h, State.modCrew_modHere, State.modCrew_modHere,
      State.modHere_eq, State.modHere_eq, hhere, State.mapCores_setCore, hf.crew, hf.set]
    rfl

section Agree
variable {u s : State} (h : u.apart = s.apart)
include h

theorem State.withMem_of_apart (m : Global) : (u.withMem m).apart = (s.withMem m).apart := by
  rw [State.apart_withMem, State.apart_withMem, h]

theorem State.mapCores_of_apart {f : Core → Core} (hf : Core.Inner f) : (u.mapCores f).apart = (s.mapCores f).apart := by
  rw [State.apart_mapCores hf, State.apart_mapCores hf, h]

theorem State.withSerial_of_apart (n : Nat) : (u.withSerial n).apart = (s.withSerial n).apart := by
  unfold State.withSerial
  rw [State.apart_serial, h, ← State.apart_serial]

end Agree

theorem foldl_of_apart {β : Type} {f : State → β → State} (hf : ∀ u s b, u.apart = s.apart → (f u b).apart = (f s b).apart)
    (l : List β) {u s : State} (h : u.apart = s.apart) : (l.foldl f u).apart = (l.foldl f s).apart := by
  induction l generalizing u s with
  | nil => exact h
  | cons b l ih => exact ih (hf _ _ b h)

/-! ### What an agent has published and where it stands -/

section Agree
variable {u s : State} (h : u.apart = s.apart)
include h

theorem State.readSeq_of_apart {α : Type} (g : Seq → α) (hg : ∀ q, g q.bare = g q) : g u.seq = g s.seq := by
  have hapart (v : State) : g v.apart.seq = g v.seq := by
    rw [State.apart, State.seq_modCrew fun st => by cases st <;> rfl, State.seq_modSeq, hg]
  rw [← hapart, h, hapart]

theorem State.retired_of_apart : u.seq.retired = s.seq.retired := State.readSeq_of_apart h Seq.retired fun _ => rfl

theorem State.coversMine_of_apart : u.coversMine = s.coversMine := by
  funext w
  rw [State.coversMine, State.cur_of_apart h, State.retired_of_apart h]
  rfl

theorem State.spotHere_of_apart : u.spotHere = s.spotHere := by
  have hspot (c : CoreId) (k : CrewIx) : u.spot c k = s.spot c k := by
    rw [State.spot, State.readCrewAt_of_apart h Crew.block (fun _ => rfl) fun _ st _ => by cases st <;> rfl]
    rfl
  rw [State.spotHere, State.cur_of_apart h, hspot]
  rfl

theorem State.admits_of_apart (sc : Scope) : u.admits sc = s.admits sc := by
  rw [State.admits, State.scopes_of_apart h]
  rfl

theorem State.reviveBad_of_apart (dom : Bool) : u.reviveBad dom = s.reviveBad dom :=
  State.reviveBad_of_mem (State.mem_of_apart h) (State.npu_of_apart h) (State.cur_of_apart h) (State.retired_of_apart h) dom

theorem State.delivery_of_apart : u.delivery u.remoteMine = s.delivery s.remoteMine := by
  rw [State.remoteMine_of_cur (State.cur_of_apart h), State.delivery_of_mem (State.mem_of_apart h)]

theorem State.deadLeaves_of_apart : u.deadLeaves = s.deadLeaves :=
  State.deadLeaves_of_mem (State.mem_of_apart h) (State.npu_of_apart h)

/-! ### Reviving pages and publishing, apart from issue -/

omit h in
theorem State.setDead_eq (s : State) (at_ v : Nat) : s.setDead at_ v
    = (s.withMem { s.mem with hbm := memSets s.mem.hbm at_ (natLe 8 (setField (readEntry s.mem.hbm at_) 63 63 v)) }).mapCores
      fun c => { c with
        tlb := c.tlb.map fun t => if t.at2 = at_ then { t with leaf2 := BitVec.ofNat 64 (setField t.leaf2.toNat 63 63 v) } else t } :=
  rfl

theorem State.setDead_of_apart (at_ v : Nat) : (u.setDead at_ v).apart = (s.setDead at_ v).apart := by
  rw [State.setDead_eq, State.setDead_eq, State.mem_of_apart h]
  exact State.mapCores_of_apart (State.withMem_of_apart h _) ⟨fun _ _ _ => rfl, fun _ _ => rfl, fun _ => rfl, fun _ _ => rfl⟩

/-- The zeros of a page, as they stand among the stores to a peer (R289). -/
def State.zeros (s : State) (ctx : CtxId) (peer pa size : Nat) : RemoteStore :=
  { id := s.serial, peer := peer, pa := pa, va := 0, bytes := [], size := size, writer := .npu, ctx := ctx, pubs := [],
    under := none, put := some s.serial, refused := false, acked := none, shown := none }

omit h in
theorem State.zeroPeer_eq (s : State) (ctx : CtxId) (peer pa size : Nat) : s.zeroPeer ctx peer pa size
    = ((s.withSerial (s.serial + 1)).withMem { s.mem with remote := s.mem.remote ++ [s.zeros ctx peer pa size] }).mapCores
      fun c => { c with view := s.serial :: c.view } := rfl

theorem State.zeroPeer_of_apart (ctx : CtxId) (peer pa size : Nat) :
    (u.zeroPeer ctx peer pa size).apart = (s.zeroPeer ctx peer pa size).apart := by
  rw [State.zeroPeer_eq, State.zeroPeer_eq, State.zeros, State.zeros, State.mem_of_apart h, State.serial_of_apart h]
  exact State.mapCores_of_apart (State.withMem_of_apart (State.withSerial_of_apart h _) _)
    ⟨fun _ _ _ => rfl, fun _ _ => rfl, fun _ => rfl, fun _ _ => rfl⟩

omit h in
theorem State.reviveAt_eq (s : State) (ctx : CtxId) (at_ size : Nat) : s.reviveAt ctx at_ size =
    let e := readEntry s.mem.hbm at_
    let v := s.setDead at_ 0
    if !entryDead e || s.mem.bad at_ 8 then s
    else if entryRem e then v.zeroPeer ctx (entryKey e) (entryAddr e) size
    else v.withMem (v.mem.zeroPage (fun g => !g.pubs.isEmpty || g.writer == .peer) (v.keyOf e) (entryAddr e) size) := rfl

theorem State.reviveAt_of_apart (ctx : CtxId) (at_ size : Nat) : (u.reviveAt ctx at_ size).apart = (s.reviveAt ctx at_ size).apart := by
  have hset := State.setDead_of_apart h at_ 0
  rw [State.reviveAt_eq, State.reviveAt_eq, State.mem_of_apart h]
  dsimp only
  split
  · exact h
  · split
    · exact State.zeroPeer_of_apart hset ..
    · rw [State.mem_of_apart hset, State.keyOf_of_apart hset]
      exact State.withMem_of_apart hset _

theorem State.reviveFor_of_apart (ctx : CtxId) (peer : Option Nat) (pa n : Nat) :
    (u.reviveFor ctx peer pa n).apart = (s.reviveFor ctx peer pa n).apart := by
  rw [State.reviveFor, State.deadLeaves_of_apart h]
  refine foldl_of_apart (fun _ _ l hl => ?_) _ h
  exact State.reviveAt_of_apart hl ctx l.at_ l.size

theorem State.reviveStored_of_apart (ctx : CtxId) (mine : Writer → Bool) :
    (u.reviveStored ctx mine).apart = (s.reviveStored ctx mine).apart := by
  rw [State.reviveStored, State.mem_of_apart h]
  refine foldl_of_apart (fun _ _ g hg => ?_) _ h
  exact State.reviveFor_of_apart hg ctx none g.pa g.bytes.length

/-- The state with the pages revived that a publication finds discarded (R100, R194). -/
def State.revived (s : State) (ctx : CtxId) (mine : Writer → Bool) : State :=
  ((((s.mem.stores.filter fun g => mine g.writer).filterMap fun g => g.under)
    ++ (s.mem.remote.filter fun r => mine r.writer).filterMap fun r => r.under).foldl (fun s l => s.reviveAt ctx l.1 l.2) s).reviveStored
      ctx mine

omit h in
theorem State.publishAs_eq (s : State) (ctx : CtxId) (mine : Writer → Bool) (p : Pub) :
    s.publishAs ctx mine p = (s.revived ctx mine).withMem ((s.revived ctx mine).mem.publish mine p) := rfl

theorem State.revived_of_apart (ctx : CtxId) (mine : Writer → Bool) : (u.revived ctx mine).apart = (s.revived ctx mine).apart := by
  rw [State.revived, State.revived, State.mem_of_apart h]
  refine State.reviveStored_of_apart (foldl_of_apart (fun _ _ l hl => ?_) _ h) ctx mine
  exact State.reviveAt_of_apart hl ctx l.1 l.2

theorem State.publishAs_of_apart (ctx : CtxId) (mine : Writer → Bool) (p : Pub) :
    (u.publishAs ctx mine p).apart = (s.publishAs ctx mine p).apart := by
  have hrevived := State.revived_of_apart h ctx mine
  rw [State.publishAs_eq, State.publishAs_eq, State.mem_of_apart hrevived]
  exact State.withMem_of_apart hrevived _

theorem State.publish_of_apart (sc : Scope) : (u.publish sc).apart = (s.publish sc).apart := by
  rw [State.publish, State.publish, State.apart_modSeq rfl, State.apart_modSeq rfl, State.coversMine_of_apart h,
    State.ctxHere_of_apart h, State.pubNow, State.cycle_of_apart h, State.spotHere_of_apart h]
  exact State.publishAs_of_apart h ..

end Agree

/-! ### What a publication leaves of the stores -/

/-- From `s` to `u` only TLBs, views and dead pages moved: what nobody has published of this device's own is there, and so is all that
lies at peers. -/
structure State.Revives (s u : State) : Prop extends s.AgreesOn Core.unviewed u where
  cycle : u.cycle = s.cycle
  unpublished : ∀ g ∈ s.mem.stores, g.pubs = [] → g.writer ≠ .peer → g ∈ u.mem.stores
  remote : ∀ r ∈ s.mem.remote, r ∈ u.mem.remote

theorem State.Revives.refl (s : State) : s.Revives s := ⟨.refl _ s, rfl, fun _ hg _ _ => hg, fun _ hr => hr⟩

theorem State.Revives.trans {s t u : State} (h : s.Revives t) (k : t.Revives u) : s.Revives u :=
  ⟨h.toAgreesOn.trans k.toAgreesOn, k.cycle.trans h.cycle, fun g hg hp hw => k.unpublished g (h.unpublished g hg hp hw) hp hw,
    fun r hr => k.remote r (h.remote r hr)⟩

theorem State.Revives.foldl {β : Type} {f : State → β → State} (hf : ∀ (s : State) (b : β), s.Revives (f s b)) (l : List β) (s : State) :
    s.Revives (l.foldl f s) :=
  List.foldlRecOn (motive := s.Revives) l f (.refl s) fun v hv b _ => hv.trans (hf v b)

theorem State.reviveAt_revives (s : State) (ctx : CtxId) (at_ size : Nat) : s.Revives (s.reviveAt ctx at_ size) := by
  refine ⟨s.reviveAt_agrees ctx at_ size, ?_, fun g hg hp hw => ?_, fun r hr => ?_⟩
  all_goals
    rw [State.reviveAt_eq]
    dsimp only
    split
  · rfl
  · split <;> rfl
  · exact hg
  · split
    · exact hg
    · refine List.mem_filter.mpr ⟨hg, ?_⟩
      cases hg' : g.writer <;> simp_all
  · exact hr
  · split
    · exact List.mem_append_left _ hr
    · exact hr

theorem State.reviveStored_revives (s : State) (ctx : CtxId) (mine : Writer → Bool) : s.Revives (s.reviveStored ctx mine) := by
  refine .foldl (fun v g => ?_) _ s
  rw [State.reviveFor]
  refine .foldl (fun w l => ?_) _ v
  exact w.reviveAt_revives ctx l.at_ l.size

theorem State.revived_revives (s : State) (ctx : CtxId) (mine : Writer → Bool) : s.Revives (s.revived ctx mine) := by
  refine .trans (.foldl (fun v l => ?_) _ s) (State.reviveStored_revives _ ctx mine)
  exact v.reviveAt_revives ctx l.1 l.2

/-- With no page dead, and no store over one, nothing is revived. -/
theorem State.revived_alive {s : State} {mine : Writer → Bool} (h : s.deadLeaves = [])
    (hs : ∀ g ∈ s.mem.stores, mine g.writer = true → g.under = none) (hr : ∀ r ∈ s.mem.remote, mine r.writer = true → r.under = none)
    (ctx : CtxId) : s.revived ctx mine = s := by
  have hstores : (s.mem.stores.filter fun g => mine g.writer).filterMap (fun g => g.under) = [] :=
    List.filterMap_eq_nil_iff.mpr fun g hg => hs g (List.mem_filter.mp hg).1 (List.mem_filter.mp hg).2
  have hremote : (s.mem.remote.filter fun r => mine r.writer).filterMap (fun r => r.under) = [] :=
    List.filterMap_eq_nil_iff.mpr fun r hr' => hr r (List.mem_filter.mp hr').1 (List.mem_filter.mp hr').2
  rw [State.revived, hstores, hremote]
  exact State.reviveStored_alive h ctx mine

theorem addPub_nil (p : Pub) : addPub p [] = [p] := rfl

theorem addPub_wide (p : Pub) (pubs : List Pub) : ∃ q ∈ addPub p pubs, scopeRank p.scope ≤ scopeRank q.scope := by
  rw [addPub]
  split
  next h =>
    obtain ⟨q, hq, hcovers⟩ := List.any_eq_true.mp h
    exact ⟨q, hq, by simp_all [Pub.covers]⟩
  next => exact ⟨p, List.mem_cons_self, Nat.le_refl _⟩

section Publish
variable {m : Global} {mine : Writer → Bool} {p : Pub}

theorem Global.publish_store {g : GStore} (hg : g ∈ m.stores) (hm : mine g.writer = true) :
    { g with pubs := addPub p g.pubs, under := none } ∈ (m.publish mine p).stores :=
  List.mem_map.mpr ⟨g, hg, if_pos hm⟩

theorem Global.publish_remote {r : RemoteStore} (hr : r ∈ m.remote) (hm : mine r.writer = true) :
    { r with pubs := addPub p r.pubs, under := none } ∈ (m.publish mine p).remote := by
  refine List.mem_append.mpr ?_
  cases hu : r.under with
  | none => exact .inl (List.mem_map.mpr ⟨r, List.mem_filter.mpr ⟨hr, by simp [hu]⟩, by rw [if_pos hm, ← hu]⟩)
  | some l => exact .inr (List.mem_map.mpr ⟨r, List.mem_filter.mpr ⟨hr, by simp [hm, hu]⟩, rfl⟩)

end Publish

section PublishHere
variable (s : State) (sc : Scope)

theorem State.mem_publish : (s.publish sc).mem
    = (s.revived s.ctxHere s.coversMine).mem.publish s.coversMine (s.pubNow sc s.spotHere) := State.modSeq_mem ..

theorem State.coversMine_ne_peer {w : Writer} (h : s.coversMine w = true) : w ≠ .peer := by
  rintro rfl
  cases h

theorem State.publish_seq : (s.publish sc).seq = { s.seq with reported := addIds s.seq.reported s.seq.retired } := by
  rw [State.publish, State.seq_modSeq]
  have hseq : (s.publishAs s.ctxHere s.coversMine (s.pubNow sc s.spotHere)).seq = s.seq :=
    ((s.revived_revives s.ctxHere s.coversMine).toAgreesOn.trans (State.agreesOn_of_cores _ rfl rfl)).seq
  rw [hseq]

/-- A store of the sequencer that nothing has published is published at the scope, now. -/
theorem State.publish_unpublished {g : GStore} (hg : g ∈ s.mem.stores) (hm : s.coversMine g.writer = true) (hp : g.pubs = []) :
    ∃ h ∈ (s.publish sc).mem.stores, h.id = g.id ∧ h.pa = g.pa ∧ h.bytes = g.bytes ∧ h.writer = g.writer ∧ h.under = none
      ∧ ∃ p ∈ h.pubs, p.scope = sc ∧ p.clock = s.cycle := by
  have hstay := (s.revived_revives s.ctxHere s.coversMine).unpublished g hg hp (s.coversMine_ne_peer hm)
  rw [State.mem_publish]
  refine ⟨_, Global.publish_store hstay hm, rfl, rfl, rfl, rfl, rfl, s.pubNow sc s.spotHere, ?_, rfl, rfl⟩
  rw [hp, addPub_nil]
  exact List.mem_singleton_self _

theorem State.publish_far {r : RemoteStore} (hr : r ∈ s.mem.remote) (hm : s.coversMine r.writer = true) :
    ∃ q ∈ (s.publish sc).mem.remote, q.id = r.id ∧ q.bytes = r.bytes ∧ q.under = none
      ∧ ∃ p ∈ q.pubs, scopeRank sc ≤ scopeRank p.scope := by
  have hstay := (s.revived_revives s.ctxHere s.coversMine).remote r hr
  rw [State.mem_publish]
  exact ⟨_, Global.publish_remote hstay hm, rfl, rfl, rfl, addPub_wide _ _⟩

/-- With no page dead a publication changes the publications of its stores alone. -/
theorem State.publish_alive (h : s.deadLeaves = []) (hs : ∀ g ∈ s.mem.stores, s.coversMine g.writer = true → g.under = none)
    (hr : ∀ r ∈ s.mem.remote, s.coversMine r.writer = true → r.under = none) :
    (s.publish sc).mem.stores = s.mem.stores.map fun g =>
      if s.coversMine g.writer then { g with pubs := addPub (s.pubNow sc s.spotHere) g.pubs, under := none } else g := by
  rw [State.mem_publish, State.revived_alive h hs hr]
  rfl

end PublishHere

/-! ### Publishing as an effect -/

section Publishing
variable {s : State} {sc : Scope}

theorem State.publishing_traps (h : s.reviveBad (sc = .dom) = true) (k : State → Res) :
    s.publishing sc k = .trap { code := 0x33, info := 1, addr := 0 } := if_pos h

theorem State.publishing_waits (h : s.reviveBad true = false) (hd : s.delivery s.remoteMine = .waiting) (k : State → Res) :
    s.publishing .dom k = .block .other id := by
  rw [State.publishing, if_neg (by simp [h]), if_pos rfl, hd]

theorem State.publishing_refused {va : XWord} (h : s.reviveBad true = false) (hd : s.delivery s.remoteMine = .refused va)
    (k : State → Res) : s.publishing .dom k = .trapNoting { code := 0x14, info := 1, addr := va } State.holdRefused := by
  rw [State.publishing, if_neg (by simp [h]), if_pos rfl, hd]
  simp [xlatTrap, codeStage2, Access.num]

theorem State.publishing_publishes (h : s.reviveBad (sc = .dom) = false) (hd : sc = .dom → s.delivery s.remoteMine = .delivered)
    (k : State → Res) : s.publishing sc k = k (s.publish sc) := by
  rw [State.publishing, if_neg (by simp [h])]
  split
  next hsc => rw [hd hsc]
  next => rfl

end Publishing

/-! ### Acquisition (R191, R202) -/

theorem mem_addIds {a b : List Nat} {i : Nat} : i ∈ addIds a b ↔ i ∈ a ∨ i ∈ b := by
  induction b generalizing a with
  | nil => simp [addIds]
  | cons j b ih =>
    rw [addIds, List.foldl_cons, ← addIds, ih]
    split
    next hc =>
      have hj : j ∈ a := by simpa using hc
      rw [List.mem_cons]
      constructor
      · tauto
      · rintro (h | rfl | h)
        · exact .inl h
        · exact .inl hj
        · exact .inr h
    next => simp only [List.mem_cons]; tauto

/-- Pops acquire, and forget nothing (R196). -/
theorem State.acq_doPops {s : State} {i : Nat} (h : i ∈ s.seq.acq) (k : Pops) : i ∈ (s.doPops k).seq.acq := by
  have hone (t : State) (b : Bool) (ht : i ∈ t.seq.acq) : i ∈ (t.popOne b).seq.acq := by
    have hpop (t : State) (j : Fin 8) : (t.modCrew fun c => c.modQueue j Queue.pop).seq = t.seq :=
      State.seq_modCrew fun st => by simp
    have hcredit (t : State) (a : Token) : (t.modCrew fun c =>
        if b then { c with creditL := c.creditL ++ [a] } else { c with creditS := c.creditS ++ [a] }).seq = t.seq :=
      State.seq_modCrew fun st => by cases b <;> cases st <;> rfl
    unfold State.popOne
    simp only []
    split <;> split <;> simp [hpop, hcredit, mem_addIds, ht]
  have hn (b : Bool) (n : Nat) (t : State) (ht : i ∈ t.seq.acq) : i ∈ (t.popN b n).seq.acq := by
    induction n generalizing t with
    | zero => exact ht
    | succ n ih => exact ih _ (hone t b ht)
  have htrim : i ∈ s.trimPopLog.seq.acq := by
    rw [State.trimPopLog]
    split
    · rw [State.seq_modSeq]; exact h
    · exact h
  rw [State.doPops]
  split
  · exact h
  · exact hn _ _ _ (hn _ _ _ htrim)

section Acquire
variable (s : State) (a : Spot) (sc : Scope) (ok : Nat → Bool)

/-- The memory that an acquisition leaves. -/
def State.memAcquired (s : State) (sc : Scope) : Global := if sc = .dom then s.mem.dropGets s.cur.core else s.mem

/-- A core that has acquired some stores. -/
def Core.acquired (sc : Scope) (ids : List Nat) (c : Core) : Core :=
  { c with view := addIds c.view ids, lines := if sc = .dom then [] else c.lines }

theorem Core.inner_acquired (ids : List Nat) : Core.Inner (Core.acquired sc ids) :=
  ⟨fun _ _ _ => rfl, fun _ _ => rfl, fun _ => rfl, fun _ _ => rfl⟩

theorem State.acquire_eq : s.acquire s.cur.core a sc ok
    = (s.withMem (s.memAcquired sc)).modHere (Core.acquired sc (s.mem.acquired sc a ok)) := by
  unfold State.acquire State.memAcquired Core.acquired
  by_cases hsc : sc = .dom
  · simp only [hsc, if_true]; rfl
  · simp only [hsc, if_false]; rfl

theorem State.acquire_seq : (s.acquire s.cur.core a sc ok).seq = s.seq := by
  rw [State.acquire_eq, State.seq_innerCore (Core.inner_acquired sc _)]
  rfl

theorem State.acquire_of_apart {u : State} (h : u.apart = s.apart) :
    (u.acquire u.cur.core a sc ok).apart = (s.acquire s.cur.core a sc ok).apart := by
  rw [State.acquire_eq, State.acquire_eq, State.apart_innerCore (Core.inner_acquired sc _),
    State.apart_innerCore (Core.inner_acquired sc _), State.memAcquired, State.mem_of_apart h, State.cur_of_apart h,
    State.withMem_of_apart h]
  rfl

theorem State.acquire_here : (s.acquire s.cur.core a sc ok).here = s.here.acquired sc (s.mem.acquired sc a ok) := by
  rw [State.acquire_eq, State.here_modHere]
  rfl

theorem State.acquire_stores : (s.acquire s.cur.core a sc ok).mem.stores = s.mem.stores := by
  rw [State.acquire_eq, State.modHere_mem]
  unfold State.memAcquired
  split <;> rfl

/-- The publication of a store brings it into an acquisition. -/
theorem pubsReach_of {pubs : List Pub} {p : Pub} (hp : p ∈ pubs) (hclock : ok p.clock = true) (hout : within p.scope p.spot a = true)
    (hin : within sc a p.spot = true) : pubsReach sc a ok pubs = true := by
  refine List.any_eq_true.mpr ⟨p, hp, ?_⟩
  have hreaches : p.reaches a = true := by
    rw [Pub.reaches, Bool.and_eq_true]
    refine ⟨List.any_eq_true.mpr ⟨p.scope, by cases p.scope <;> simp, by simp [hout]⟩, ?_⟩
    cases hs : p.scope <;> simp_all
  simp [hclock, hreaches, hin]

variable {s a sc ok}

theorem Global.acquired_store {m : Global} {g : GStore} (hg : g ∈ m.stores) (hpeer : g.writer = .peer → sc = .dom)
    (h : pubsReach sc a ok g.pubs = true) : g.id ∈ m.acquired sc a ok := by
  refine List.mem_append_left _ (List.mem_map.mpr ⟨g, List.mem_filter.mpr ⟨hg, ?_⟩, rfl⟩)
  by_cases hw : g.writer = .peer
  · rw [h, hpeer hw]
    rfl
  · simp [hw, h]

theorem Global.acquired_far {m : Global} {r : RemoteStore} (hr : r ∈ m.remote) (h : pubsReach sc a ok r.pubs = true) :
    r.id ∈ m.acquired sc a ok :=
  List.mem_append_right _ (List.mem_map.mpr ⟨r, List.mem_filter.mpr ⟨hr, h⟩, rfl⟩)

end Acquire

/-- What is in the view of the agent's core is seen. -/
theorem State.seesHere_of_view {u : State} {g : GStore} (h : g.id ∈ u.here.view) (hu : g.under = none) : u.seesHere g = true := by
  simp [State.seesHere_eq, hu, h]

theorem State.seesFar_of_view {u : State} {r : RemoteStore} (h : r.id ∈ u.here.view) (hu : r.under = none) : u.seesFar r = true := by
  have hview : (u.core u.cur.core).view.contains r.id = true := List.contains_iff_mem.mpr h
  unfold State.seesFar State.seesBy
  rw [hview, hu, Bool.or_true, Bool.true_or]
  rfl

/-- An agent that has acquired more sees no less. -/
theorem State.seesHere_mono {s u : State} (hcur : u.cur = s.cur) (hview : ∀ i ∈ s.here.view, i ∈ u.here.view)
    (hacq : ∀ i ∈ s.seq.acq, i ∈ u.seq.acq) {g : GStore} (h : s.seesHere g = true) : u.seesHere g = true := by
  rw [State.seesHere_eq] at h ⊢
  rw [hcur]
  simp only [Bool.and_eq_true, Bool.or_eq_true, List.contains_iff_mem] at h ⊢
  obtain ⟨hu, (hw | hv) | ha⟩ := h
  · exact ⟨hu, .inl (.inl hw)⟩
  · exact ⟨hu, .inl (.inr (hview _ hv))⟩
  · exact ⟨hu, .inr (hacq _ ha)⟩

end Sys2Proof.Machine
end

section
/-! PROOFS. `pub` publishes and `acq` acquires (R97, R172, R190, R191, R201, R202). -/

namespace Sys2Proof.Machine

/-- A word whose effect traps and notes something in the state before it (R287). -/
theorem runWord_trapNoting {tk : Tok} {reads : List (State → List RegRef)} {s : State} {effect : State → Res} {t : TrapReq}
    {note : State → State} (h : s.Issues tk) (he : effect (s.doPops (popsOf tk)) = .trapNoting t note) :
    runWord tk reads s effect = .next (raise t (note s)) := by
  simp [runWord, runWith, h.tokens, parityBad_of_nil h.parity, h.credits, he]

/-! ### The words -/

/-- The effect of `acq`. -/
def State.acqEffect (sc : Scope) (s : State) : Res :=
  if s.admits sc then .done (s.acquire s.cur.core s.spotHere sc fun c => c < s.cycle) else .trap (trapOf codeScope)

theorem acq_eq (tk : Tok) (sc : Scope) (s : State) : exec (.acq tk sc) s = runWord tk [] s (State.acqEffect sc) := rfl

section Words
variable {s : State} {tk : Tok} {sc : Scope} (h : s.Clear tk)
include h

theorem pub_unadmitted_traps (had : s.admits sc = false) : Traps (.pub tk sc) s { code := 0x42, info := 0, addr := 0 } :=
  (pub_eq ..).trans <| runWord_trap h.toIssues <| if_neg <| by
    rw [State.admits_of_apart (s.apart_doPops _), had]
    exact Bool.false_ne_true

theorem acq_unadmitted_traps (had : s.admits sc = false) : Traps (.acq tk sc) s { code := 0x42, info := 0, addr := 0 } :=
  (acq_eq ..).trans <| runWord_trap h.toIssues <| if_neg <| by
    rw [State.admits_of_apart (s.apart_doPops _), had]
    exact Bool.false_ne_true

theorem acq_acquires (had : s.admits sc = true) : ∃ u, exec (.acq tk sc) s = .next u
    ∧ u.apart = (s.acquire s.cur.core s.spotHere sc fun c => c < s.cycle).apart ∧ ∀ i ∈ s.seq.acq, i ∈ u.seq.acq := by
  have hpops := s.apart_doPops (popsOf tk)
  let p := s.doPops (popsOf tk)
  have heffect : State.acqEffect sc p = .done (p.acquire p.cur.core s.spotHere sc fun c => c < s.cycle) := by
    rw [State.acqEffect, State.admits_of_apart hpops, if_pos had, State.spotHere_of_apart hpops, State.cycle_of_apart hpops]
  obtain ⟨u, hu, hua, -, htok⟩ := runWord_keeps (reads := []) h heffect (congrArg Seq.loops (p.acquire_seq ..))
  refine ⟨u, (acq_eq ..).trans hu, hua.trans (s.acquire_of_apart _ _ _ hpops), fun i hi => ?_⟩
  rw [htok.acq, State.acquire_seq]
  exact State.acq_doPops hi _

variable (had : s.admits sc = true)
include had

omit h in
theorem pubEffect_admitted : State.pubEffect sc (s.doPops (popsOf tk)) = (s.doPops (popsOf tk)).publishing sc .done :=
  if_pos (by rwa [State.admits_of_apart (s.apart_doPops _)])

theorem pub_bad_traps (hbad : s.reviveBad (sc = .dom) = true) : Traps (.pub tk sc) s { code := 0x33, info := 1, addr := 0 } := by
  refine (pub_eq ..).trans (runWord_trap h.toIssues ?_)
  rw [pubEffect_admitted had]
  exact State.publishing_traps (by rwa [State.reviveBad_of_apart (s.apart_doPops _)]) _

theorem pub_publishes (hbad : s.reviveBad (sc = .dom) = false) (hd : sc = .dom → s.delivery s.remoteMine = .delivered) :
    ∃ u, exec (.pub tk sc) s = .next u ∧ u.apart = (s.publish sc).apart := by
  have hpops := s.apart_doPops (popsOf tk)
  have heffect : State.pubEffect sc (s.doPops (popsOf tk)) = .done ((s.doPops (popsOf tk)).publish sc) := by
    rw [pubEffect_admitted had]
    exact State.publishing_publishes (by rwa [State.reviveBad_of_apart hpops]) (by rwa [State.delivery_of_apart hpops]) _
  obtain ⟨u, hu, hua, -⟩ := runWord_answers (reads := []) h heffect (by rw [State.publish_seq])
  exact ⟨u, (pub_eq ..).trans hu, hua.trans (State.publish_of_apart hpops sc)⟩

end Words

section Dom
variable {s : State} {tk : Tok} (h : s.Clear tk) (had : s.admits .dom = true) (hbad : s.reviveBad true = false)
include h had hbad

theorem pub_undelivered_waits (hd : s.delivery s.remoteMine = .waiting) : Waits (.pub tk .dom) s := by
  have hpops := s.apart_doPops (popsOf tk)
  have heffect : State.pubEffect .dom (s.doPops (popsOf tk)) = .block .other id := by
    rw [pubEffect_admitted had]
    exact State.publishing_waits (by rwa [State.reviveBad_of_apart hpops]) (by rwa [State.delivery_of_apart hpops]) _
  obtain ⟨u, hu, hua, hpc⟩ := runWord_waits (reads := []) h.toIssues heffect rfl
  exact ⟨u, (pub_eq ..).trans hu, hua, hpc⟩

theorem pub_refused_traps {va : XWord} (hd : s.delivery s.remoteMine = .refused va) :
    exec (.pub tk .dom) s = .next (raise { code := 0x14, info := 1, addr := va } s.holdRefused) := by
  have hpops := s.apart_doPops (popsOf tk)
  have heffect : State.pubEffect .dom (s.doPops (popsOf tk)) = .trapNoting { code := 0x14, info := 1, addr := va } State.holdRefused := by
    rw [pubEffect_admitted had]
    exact State.publishing_refused (by rwa [State.reviveBad_of_apart hpops]) (by rwa [State.delivery_of_apart hpops]) _
  rw [pub_eq]
  exact runWord_trapNoting h.toIssues heffect

end Dom

/-! ### What they leave -/

/-- What `pub` leaves of the stores of the sequencer, and of the others while no page is dead. -/
theorem publish_leaves (s : State) (sc : Scope) {u : State} (hua : u.apart = (s.publish sc).apart) :
    (∀ g ∈ s.mem.stores, s.coversMine g.writer = true → g.pubs = [] → ∃ h ∈ u.mem.stores, h.id = g.id ∧ h.pa = g.pa
        ∧ h.bytes = g.bytes ∧ h.writer = g.writer ∧ h.under = none ∧ ∃ p ∈ h.pubs, p.scope = sc ∧ p.clock = s.cycle)
    ∧ (∀ r ∈ s.mem.remote, s.coversMine r.writer = true → ∃ q ∈ u.mem.remote, q.id = r.id ∧ q.bytes = r.bytes ∧ q.under = none
        ∧ ∃ p ∈ q.pubs, scopeRank sc ≤ scopeRank p.scope)
    ∧ (s.deadLeaves = [] → (∀ g ∈ s.mem.stores, s.coversMine g.writer = true → g.under = none) →
      (∀ r ∈ s.mem.remote, s.coversMine r.writer = true → r.under = none) →
      u.mem.stores.length = s.mem.stores.length
      ∧ ∀ (i : Nat) (g : GStore), s.mem.stores[i]? = some g → ∃ h, u.mem.stores[i]? = some h ∧ h.pa = g.pa ∧ h.bytes = g.bytes
        ∧ h.id = g.id ∧ h.writer = g.writer
        ∧ (s.coversMine g.writer = true → ∃ p ∈ h.pubs, scopeRank sc ≤ scopeRank p.scope)
        ∧ (s.coversMine g.writer = false → h = g)) := by
  rw [State.mem_of_apart hua]
  refine ⟨fun g => s.publish_unpublished sc, fun r => s.publish_far sc, fun hdead hs hr => ?_⟩
  rw [s.publish_alive sc hdead hs hr]
  refine ⟨List.length_map .., fun i g hg => ?_⟩
  rw [List.getElem?_map, hg]
  refine ⟨_, rfl, ?_⟩
  dsimp only
  cases hm : s.coversMine g.writer with
  | true => exact ⟨rfl, rfl, rfl, rfl, fun _ => addPub_wide (s.pubNow sc s.spotHere) g.pubs, fun h => by cases h⟩
  | false => exact ⟨rfl, rfl, rfl, rfl, fun h => (by cases h), fun _ => rfl⟩

/-- What an acquisition brings in: the stores whose publication reaches it, at clocks that count. -/
theorem acquire_brings (s : State) {a : Spot} (sc : Scope) {ok : Nat → Bool} {u : State}
    (hua : u.apart = (s.acquire s.cur.core a sc ok).apart) {pubs : List Pub} {p : Pub} (hp : p ∈ pubs)
    (hclock : ok p.clock = true) (hout : within p.scope p.spot a = true) (hin : within sc a p.spot = true) :
    (∀ g ∈ s.mem.stores, g.pubs = pubs → g.under = none → (g.writer = .peer → sc = .dom) → u.seesHere g = true)
    ∧ ∀ r ∈ s.mem.remote, r.pubs = pubs → r.under = none → u.seesFar r = true := by
  have hreach := pubsReach_of a sc ok hp hclock hout hin
  have hview : u.here.view = addIds s.here.view (s.mem.acquired sc a ok) := by
    rw [State.view_of_apart hua, State.acquire_here]
    rfl
  refine ⟨fun g hg hpubs hu hpeer => State.seesHere_of_view ?_ hu, fun r hr hpubs hu => State.seesFar_of_view ?_ hu⟩
  · rw [hview, mem_addIds]
    exact .inr (Global.acquired_store hg hpeer (by rwa [hpubs]))
  · rw [hview, mem_addIds]
    exact .inr (Global.acquired_far hr (by rwa [hpubs]))

/-- Stores seen before an acquisition stay seen. -/
theorem acquire_keeps (s : State) {a : Spot} (sc : Scope) {ok : Nat → Bool} {u : State}
    (hua : u.apart = (s.acquire s.cur.core a sc ok).apart) (hacq : ∀ i ∈ s.seq.acq, i ∈ u.seq.acq) {g : GStore}
    (h : s.seesHere g = true) : u.seesHere g = true := by
  refine State.seesHere_mono ?_ (fun i hi => ?_) hacq h
  · rw [State.cur_of_apart hua, State.acquire_eq]
    rfl
  · rw [State.view_of_apart hua, State.acquire_here]
    exact mem_addIds.mpr (.inl hi)

/-- Settles O20: a publication revives pages, and then marks the stores of its writers; an acquisition adds to the core's view. -/
theorem publication : Obligations.Publication := by
  unfold Obligations.Publication
  refine ⟨fun s tk sc h => ⟨pub_bad_traps h, fun had hbad hd => ?_, fun had hbad => ⟨pub_undelivered_waits h had hbad,
    fun va => pub_refused_traps h had hbad⟩, fun had => ⟨pub_unadmitted_traps h had, acq_unadmitted_traps h had⟩⟩,
    fun s tk sc h had => ?_⟩
  · obtain ⟨u, hu, hua⟩ := pub_publishes h had hbad hd
    exact ⟨u, hu, hua, publish_leaves s sc hua⟩
  · obtain ⟨u, hu, hua, hacq⟩ := acq_acquires h had
    refine ⟨u, hu, hua, ?_, ⟨fun g hg hunder hpeer ⟨p, hp, hclock, hout, hin⟩ => ?_, fun r hr hunder ⟨p, hp, hclock, hout, hin⟩ => ?_⟩,
      fun hsc => ?_, fun g => acquire_keeps s sc hua hacq⟩
    · rw [State.mem_of_apart hua, State.acquire_stores]
    · exact (acquire_brings s sc hua hp (decide_eq_true hclock) hout hin).1 g hg rfl hunder hpeer
    · exact (acquire_brings s sc hua hp (decide_eq_true hclock) hout hin).2 r hr rfl hunder
    · rw [State.lines_of_apart hua, State.acquire_here]
      exact if_pos hsc

end Sys2Proof.Machine
end

section
/-! PROOFS. Mailboxes (R98, R99, R190, R191). -/

namespace Sys2Proof.Machine

/-! ### A register written -/

theorem State.getX_setX_same (s : State) (rd : XReg) (v : XWord) : (s.setX rd v).getX rd = if rd = 0 then 0 else v := by
  by_cases h0 : rd = 0
  · rw [if_pos h0, State.getX, if_pos h0]
  · rw [if_neg h0, State.getX, if_neg h0, State.setX, if_neg h0]
    by_cases hr : s.cur.role = .fw
    · rw [if_pos hr, if_pos (show (s.modHere _).cur.role = .fw from hr), State.here_modHere]
      exact vget_set_same _ _ _
    · rw [if_neg hr, if_neg (show (s.modCrew _).cur.role ≠ .fw from hr), State.crew_modCrew]
      exact vget_set_same _ _ _

theorem State.getX_setX_ne (s : State) {rd r : XReg} (v : XWord) (h : r ≠ rd) : (s.setX rd v).getX r = s.getX r := by
  by_cases h0 : rd = 0
  · rw [State.setX, if_pos h0]
  · rw [State.getX, State.getX, State.setX_cur, State.setX, if_neg h0]
    by_cases hr : s.cur.role = .fw
    · simp only [if_pos hr, State.here_modHere]
      rw [vget_set_ne _ _ _ _ (Ne.symm h)]
    · simp only [if_neg hr, State.crew_modCrew]
      exact congrArg (fun x => if r = 0 then 0 else x) (vget_set_ne s.crew.x rd r v (Ne.symm h))

/-- What the executing core holds besides crews and firmware context is not a register. -/
theorem State.readHere_setX {α : Type} (g : Core → α) (hcrew : ∀ c k v, g (Core.setCrew c k v) = g c)
    (hfw : ∀ (c : Core) w, g { c with fw := w } = g c) (s : State) (rd : XReg) (v : XWord) : g (s.setX rd v).here = g s.here := by
  rw [State.setX]
  split
  · rfl
  · split
    · rw [State.here_modHere]
      exact hfw _ _
    · rw [State.modCrew_modHere, State.here_modHere]
      exact hcrew _ _ _

theorem State.block_setX (s : State) (rd : XReg) (v : XWord) : (s.setX rd v).crew.block = s.crew.block := by
  rw [State.setX]
  split
  · rfl
  · split
    · refine congrArg Crew.block (State.crew_modHere ?_)
      exact fun _ _ => rfl
    · rw [State.crew_modCrew]
      rfl

theorem State.spotHere_of_block {u s : State} (hcur : u.cur = s.cur) (hblock : u.crew.block = s.crew.block) : u.spotHere = s.spotHere := by
  have hat : (u.crewAt s.cur.core s.cur.crew).block = (s.crewAt s.cur.core s.cur.crew).block := by
    rw [State.crew, hcur] at hblock
    exact hblock
  rw [State.spotHere, State.spot, hcur, hat]
  rfl

/-! ### One mailbox changes -/

theorem Core.inner_modBox (i : Fin 8) (f : Mailbox → Mailbox) : Core.Inner fun c => c.modBox i f :=
  ⟨fun _ _ _ => rfl, fun _ _ => rfl, fun _ => rfl, fun _ _ => rfl⟩

theorem Core.box_modBox_same (c : Core) (i : Fin 8) (f : Mailbox → Mailbox) : (c.modBox i f).boxes.get i = f (c.boxes.get i) :=
  vget_set_same _ _ _

theorem Core.box_modBox_ne (c : Core) {i j : Fin 8} (f : Mailbox → Mailbox) (h : j ≠ i) : (c.modBox i f).boxes.get j = c.boxes.get j :=
  vget_set_ne _ _ _ _ (Ne.symm h)

theorem Core.modBox_modBox (c : Core) (i : Fin 8) (f g : Mailbox → Mailbox) : (c.modBox i f).modBox i g = c.modBox i (g ∘ f) := by
  simp [Core.modBox, vget_set_same]

/-- The claim of a mailbox that a launch names. -/
def Mailbox.claimBy (claimant : Option (CtxId × Nat)) (m : Mailbox) : Option (CtxId × Nat) := if m.claim.isNone then claimant else m.claim

/-- A mailbox named by a launch, with its entries changed. -/
def Mailbox.update (claimant : Option (CtxId × Nat)) (f : List MailEntry → List MailEntry) (m : Mailbox) : Mailbox :=
  { claim := m.claimBy claimant, entries := f m.entries }

/-- A mailbox of the core that the agent names, with its entries changed. -/
def State.updateBox (s : State) (i : Fin 8) (f : List MailEntry → List MailEntry) : State :=
  s.modHere fun c => c.modBox i (Mailbox.update s.claimant f)

theorem State.claimBox_eq (s : State) (i : Fin 8) : s.claimBox i = s.updateBox i id := by
  have hsame : (fun m : Mailbox => if m.claim.isNone then { m with claim := s.claimant } else m) = Mailbox.update s.claimant id := by
    funext m
    unfold Mailbox.update Mailbox.claimBy
    split <;> rfl
  rw [State.claimBox, hsame]
  rfl

theorem State.claimBox_entries (s : State) (i : Fin 8) (f : List MailEntry → List MailEntry) :
    ((s.claimBox i).modHere fun c => c.modBox i fun m => { m with entries := f m.entries }) = s.updateBox i f := by
  rw [State.claimBox_eq, State.updateBox, State.modHere_modHere]
  simp only [Core.modBox_modBox]
  rfl

section Update
variable (s : State) (i : Fin 8) (f : List MailEntry → List MailEntry)

theorem State.updateBox_here : (s.updateBox i f).here = s.here.modBox i (Mailbox.update s.claimant f) := State.here_modHere ..

theorem State.updateBox_cur : (s.updateBox i f).cur = s.cur := rfl

theorem State.updateBox_mem : (s.updateBox i f).mem = s.mem := rfl

theorem State.updateBox_seq : (s.updateBox i f).seq = s.seq := State.seq_innerCore (Core.inner_modBox i _) s

theorem State.updateBox_keeps : s.Keeps (s.updateBox i f) := s.keeps_modHere (fun _ _ => ⟨rfl, rfl⟩) (fun _ => ⟨rfl, rfl⟩) fun _ => rfl

theorem State.updateBox_block : (s.updateBox i f).crew.block = s.crew.block :=
  congrArg Crew.block (State.crew_modHere (f := fun c => c.modBox i (Mailbox.update s.claimant f)) fun _ _ => rfl)

theorem State.updateBox_spotHere : (s.updateBox i f).spotHere = s.spotHere := State.spotHere_of_block rfl (s.updateBox_block i f)

end Update

section Agree
variable {u s : State} (h : u.apart = s.apart)
include h

theorem State.claimant_of_apart : u.claimant = s.claimant := by
  rw [State.claimant, State.cur_of_apart h, State.block_of_apart h]
  rfl

theorem State.boxes_of_apart : u.here.boxes = s.here.boxes := State.readHere_of_apart Core.boxes (fun _ _ _ => rfl) (fun _ _ => rfl) h

theorem State.updateBox_of_apart (i : Fin 8) (f : List MailEntry → List MailEntry) :
    (u.updateBox i f).apart = (s.updateBox i f).apart := by
  rw [State.updateBox, State.updateBox, State.claimant_of_apart h, State.apart_innerCore (Core.inner_modBox i _),
    State.apart_innerCore (Core.inner_modBox i _), h]

end Agree

/-! ### What a publication leaves of the core -/

section PublishLeaves
variable (s : State) (sc : Scope)

/-- The publication apart from what the sequencer's tokens will carry. -/
def State.published (s : State) (sc : Scope) : State := s.publishAs s.ctxHere s.coversMine (s.pubNow sc s.spotHere)

theorem State.publish_apart : (s.publish sc).apart = (s.published sc).apart := State.apart_modSeq rfl

theorem State.published_agrees : s.AgreesOn Core.unviewed (s.published sc) :=
  (s.revived_revives s.ctxHere s.coversMine).toAgreesOn.trans (State.agreesOn_of_cores _ rfl rfl)

theorem State.publish_cur : (s.publish sc).cur = s.cur :=
  (State.cur_of_apart (s.publish_apart sc)).trans (s.published_agrees sc).cur

theorem State.publish_cycle : (s.publish sc).cycle = s.cycle :=
  (State.cycle_of_apart (s.publish_apart sc)).trans (s.revived_revives s.ctxHere s.coversMine).cycle

theorem State.publish_keeps : s.Keeps (s.publish sc) :=
  (s.published_agrees sc).keeps.trans (State.keeps_of_apart (s.publish_apart sc))

theorem State.publish_boxes : (s.publish sc).here.boxes = s.here.boxes := by
  rw [State.boxes_of_apart (s.publish_apart sc), State.here, (s.published_agrees sc).cur]
  exact (s.published_agrees sc).read Core.boxes (fun _ => rfl) s.cur.core

theorem State.publish_claimant : (s.publish sc).claimant = s.claimant := by
  rw [State.claimant_of_apart (s.publish_apart sc), State.claimant, (s.published_agrees sc).cur, (s.published_agrees sc).crew]
  rfl

end PublishLeaves

/-- The state with the oldest value of a mailbox taken. -/
def State.took (s : State) (i : Fin 8) (rd : XReg) (e : MailEntry) (rest : List MailEntry) : State :=
  (s.updateBox i fun _ => rest).setX rd e.value

section Took
variable (s : State) (i : Fin 8) (rd : XReg) (e : MailEntry) (rest : List MailEntry)

theorem State.took_cur : (s.took i rd e rest).cur = s.cur := State.setX_cur ..

theorem State.took_mem : (s.took i rd e rest).mem = s.mem := State.setX_mem ..

theorem State.took_seq : (s.took i rd e rest).seq = s.seq := (State.seq_setX ..).trans (s.updateBox_seq ..)

theorem State.took_spotHere : (s.took i rd e rest).spotHere = s.spotHere :=
  State.spotHere_of_block (s.took_cur ..) ((State.block_setX ..).trans (s.updateBox_block ..))

theorem State.took_boxes : (s.took i rd e rest).here.boxes = (s.here.modBox i (Mailbox.update s.claimant fun _ => rest)).boxes := by
  rw [State.took, State.readHere_setX Core.boxes (fun _ _ _ => rfl) fun _ _ => rfl, State.updateBox_here]

theorem State.took_view : (s.took i rd e rest).here.view = s.here.view := by
  rw [State.took, State.readHere_setX Core.view (fun _ _ _ => rfl) fun _ _ => rfl, State.updateBox_here]
  rfl

theorem State.took_pool : (s.took i rd e rest).here.pool = s.here.pool := by
  rw [State.took, State.readHere_setX Core.pool (fun _ _ _ => rfl) fun _ _ => rfl, State.updateBox_here]
  rfl

theorem State.took_of_apart {u : State} (h : u.apart = s.apart) : (u.took i rd e rest).apart = (s.took i rd e rest).apart :=
  (State.lands_setX rd e.value).of_apart (State.updateBox_of_apart h i fun _ => rest)

end Took

theorem State.acquire_keeps_regs (s : State) (a : Spot) (sc : Scope) (ok : Nat → Bool) : s.Keeps (s.acquire s.cur.core a sc ok) := by
  rw [State.acquire_eq]
  exact (State.agreesOn_of_cores Core.unviewed (u := s.withMem (s.memAcquired sc)) rfl rfl).keeps.trans
    (State.keeps_modHere _ (fun _ _ => ⟨rfl, rfl⟩) (fun _ => ⟨rfl, rfl⟩) fun _ => rfl)

/-! ### The checks of a mailbox word -/

/-- The mailbox `i` is named, and the agent's launch may use it. -/
structure State.NamesBox (s : State) (idx : XWord) (i : Fin 8) : Prop where
  index : idx.toNat = i.val
  claim : (s.here.boxes.get i).claim = none ∨ (s.here.boxes.get i).claim = s.claimant

section Checks
variable {s : State} {idx : XWord} {i : Fin 8} {k : Fin 8 → Res}

theorem State.box_of_index (hi : idx.toNat = i.val) : (⟨idx.toNat % 8, by omega⟩ : Fin 8) = i :=
  Fin.ext (by have := i.isLt; dsimp only; omega)

theorem State.NamesBox.withBox (h : s.NamesBox idx i) : s.withBox idx k = k i := by
  have hlt := i.isLt
  unfold State.withBox
  rw [if_neg (by rw [h.index]; omega), State.box_of_index h.index]
  refine if_neg ?_
  rcases h.claim with hn | hm
  · simp [hn]
  · simp [hm]

theorem State.withBox_beyond (h : 7 < idx.toNat) : s.withBox idx k = .trap { code := 0x03, info := 0, addr := 0 } := if_pos h

theorem State.withBox_foreign (hi : idx.toNat = i.val) (hsome : (s.here.boxes.get i).claim.isSome = true)
    (hne : (s.here.boxes.get i).claim ≠ s.claimant) : s.withBox idx k = .trap { code := 0x42, info := 0, addr := 0 } := by
  have hlt := i.isLt
  unfold State.withBox
  rw [if_neg (by rw [hi]; omega), State.box_of_index hi]
  exact if_pos (by simp [hsome, hne])

theorem State.NamesBox.of_apart {u : State} (h : s.NamesBox idx i) (ha : u.apart = s.apart) : u.NamesBox idx i :=
  ⟨h.index, by rw [State.boxes_of_apart ha, State.claimant_of_apart ha]; exact h.claim⟩

end Checks

/-! ### The effects of mailbox words -/

def State.putEffect (ra rb : XReg) (s : State) : Res :=
  s.withBox (s.getX ra) fun i =>
    if 16 ≤ (s.here.boxes.get i).entries.length then .block (.mailbox i.val) fun s => s.claimBox i
    else
      let v := s.getX rb
      s.publishing .core fun s =>
        .done ((s.claimBox i).modHere fun c => c.modBox i fun m => { m with entries := m.entries ++ [{ value := v, at_ := s.cycle }] })

def State.getEffect (rd ra : XReg) (s : State) : Res :=
  s.withBox (s.getX ra) fun i =>
    match (s.here.boxes.get i).entries with
    | [] => .block (.mailbox i.val) fun s => s.claimBox i
    | e :: rest =>
      let s := (s.claimBox i).modHere fun c => c.modBox i fun m => { m with entries := rest }
      .done ((s.setX rd e.value).acquire s.cur.core s.spotHere .core fun c => c ≤ e.at_)

def State.pollEffect (rd ra : XReg) (s : State) : Res :=
  s.withBox (s.getX ra) fun i => .done ((s.claimBox i).setX rd (BitVec.ofNat 64 (s.here.boxes.get i).entries.length))

section Words
variable {s : State} {tk : Tok} {rd ra rb : XReg} {i : Fin 8}

theorem mbput_eq : exec (.mbput tk ra rb) s = runWord tk [refX ra, refX rb] s (State.putEffect ra rb) := rfl
theorem mbget_eq : exec (.mbget tk rd ra) s = runWord tk [refX ra] s (State.getEffect rd ra) := rfl
theorem mbpoll_eq : exec (.mbpoll tk rd ra) s = runWord tk [refX ra] s (State.pollEffect rd ra) := rfl

/-- The words trap where the check of their operand does. -/
theorem mailbox_traps (h : s.Clear tk) {t : TrapReq} (ht : ∀ k, (s.doPops (popsOf tk)).withBox (s.getX ra) k = .trap t) :
    Traps (.mbput tk ra rb) s t ∧ Traps (.mbget tk rd ra) s t ∧ Traps (.mbpoll tk rd ra) s t := by
  refine ⟨mbput_eq.trans (runWord_trap h.toIssues ?_), mbget_eq.trans (runWord_trap h.toIssues ?_),
    mbpoll_eq.trans (runWord_trap h.toIssues ?_)⟩
  · rw [State.putEffect, State.getX_doPops, ht]
  · rw [State.getEffect, State.getX_doPops, ht]
  · rw [State.pollEffect, State.getX_doPops, ht]

variable (h : s.Clear tk)
include h

/-- The state after a word that waits at the mailbox it has named. -/
theorem mailbox_waits {ins : Instr} {reads : List (State → List RegRef)} {effect : State → Res} (hi : exec ins s = runWord tk reads s effect)
    (he : effect (s.doPops (popsOf tk)) = .block (.mailbox i.val) fun s => s.claimBox i) : Answers ins s fun u =>
      u.pc = s.pc ∧ (u.here.boxes.get i).entries = (s.here.boxes.get i).entries ∧ u.seq.issued = true ∧ ∀ r, u.getX r = s.getX r := by
  refine ⟨_, hi.trans (runWord_block h.toIssues he), ?_⟩
  have hua := waitOn_apart (.mailbox i.val) (s.claimBox i)
  rw [State.claimBox_eq] at hua ⊢
  refine ⟨?_, ?_, ?_, fun r => ?_⟩
  · rw [waitOn_pc, State.pc, State.updateBox_seq]
    rfl
  · rw [State.boxes_of_apart hua, State.updateBox_here, Core.box_modBox_same]
    rfl
  · rw [waitOn, State.seq_modSeq]
  · rw [State.getX_of_apart hua]
    exact (s.updateBox_keeps i id).1 r

variable (hbox : s.NamesBox (s.getX ra) i)
include hbox

theorem mbput_full_waits (hfull : 16 ≤ (s.here.boxes.get i).entries.length) : Answers (.mbput tk ra rb) s fun u =>
    u.pc = s.pc ∧ (u.here.boxes.get i).entries = (s.here.boxes.get i).entries ∧ u.seq.issued = true ∧ ∀ r, u.getX r = s.getX r := by
  have hpops := s.apart_doPops (popsOf tk)
  refine mailbox_waits h mbput_eq ?_
  rw [State.putEffect, State.getX_doPops, (hbox.of_apart hpops).withBox, State.boxes_of_apart hpops]
  exact if_pos hfull

theorem mbget_empty_waits (hempty : (s.here.boxes.get i).entries = []) : Answers (.mbget tk rd ra) s fun u =>
    u.pc = s.pc ∧ (u.here.boxes.get i).entries = (s.here.boxes.get i).entries ∧ u.seq.issued = true ∧ ∀ r, u.getX r = s.getX r := by
  have hpops := s.apart_doPops (popsOf tk)
  refine mailbox_waits h mbget_eq ?_
  rw [State.getEffect, State.getX_doPops, (hbox.of_apart hpops).withBox, State.boxes_of_apart hpops, hempty]

/-- `mbput` publishes, and then appends. -/
theorem mbput_puts (hroom : (s.here.boxes.get i).entries.length < 16) (hbad : s.reviveBad false = false) :
    ∃ u, exec (.mbput tk ra rb) s = .next u
      ∧ u.apart = ((s.publish .core).updateBox i fun l => l ++ [{ value := s.getX rb, at_ := s.cycle }]).apart := by
  have hpops := s.apart_doPops (popsOf tk)
  let p := s.doPops (popsOf tk)
  have heffect : State.putEffect ra rb p
      = .done ((p.publish .core).updateBox i fun l => l ++ [{ value := s.getX rb, at_ := s.cycle }]) := by
    rw [State.putEffect, State.getX_doPops, (hbox.of_apart hpops).withBox, State.boxes_of_apart hpops, if_neg (by omega)]
    rw [State.publishing_publishes (sc := .core) (by rwa [State.reviveBad_of_apart hpops]) fun hsc => by cases hsc]
    rw [State.claimBox_entries _ i fun l => l ++ _, State.getX_doPops, State.publish_cycle, State.cycle_of_apart hpops]
  obtain ⟨u, hu, hua, -⟩ := runWord_answers (reads := [refX ra, refX rb]) h heffect
    (by rw [State.updateBox_seq, State.publish_seq])
  exact ⟨u, mbput_eq.trans hu, hua.trans (State.updateBox_of_apart (State.publish_of_apart hpops .core) i _)⟩

theorem mbpoll_polls : Runs (.mbpoll tk rd ra) s
    ((s.updateBox i id).setX rd (BitVec.ofNat 64 (s.here.boxes.get i).entries.length)) := by
  have hpops := s.apart_doPops (popsOf tk)
  let p := s.doPops (popsOf tk)
  let n := BitVec.ofNat 64 (s.here.boxes.get i).entries.length
  have heffect : State.pollEffect rd ra p = .done ((p.updateBox i id).setX rd n) := by
    rw [State.pollEffect, State.getX_doPops, (hbox.of_apart hpops).withBox, State.boxes_of_apart hpops, State.claimBox_eq]
  obtain ⟨u, hu, hua, hpc⟩ := runWord_answers (reads := [refX ra]) h heffect (by rw [State.seq_setX, State.updateBox_seq])
  exact ⟨u, mbpoll_eq.trans hu, hua.trans ((State.lands_setX rd n).of_apart (State.updateBox_of_apart hpops i id)), hpc⟩

/-- `mbget` takes the oldest value, and acquires. -/
theorem mbget_gets {e : MailEntry} {rest : List MailEntry} (hentries : (s.here.boxes.get i).entries = e :: rest) :
    ∃ u, exec (.mbget tk rd ra) s = .next u
      ∧ u.apart = ((s.took i rd e rest).acquire s.cur.core s.spotHere .core fun c => c ≤ e.at_).apart
      ∧ ∀ j ∈ s.seq.acq, j ∈ u.seq.acq := by
  have hpops := s.apart_doPops (popsOf tk)
  let p := s.doPops (popsOf tk)
  let v := p.took i rd e rest
  have heffect : State.getEffect rd ra p = .done (v.acquire v.cur.core s.spotHere .core fun c => c ≤ e.at_) := by
    have htaken := p.claimBox_entries i fun _ => rest
    have hspot : (p.updateBox i fun _ => rest).spotHere = s.spotHere :=
      (p.updateBox_spotHere i fun _ => rest).trans (State.spotHere_of_apart hpops)
    rw [State.getEffect, State.getX_doPops, (hbox.of_apart hpops).withBox, State.boxes_of_apart hpops, hentries]
    dsimp only
    rw [htaken, hspot, show v.cur = (p.updateBox i fun _ => rest).cur from State.setX_cur ..]
    rfl
  obtain ⟨u, hu, hua, -, htok⟩ := runWord_keeps (reads := [refX ra]) h heffect
    (by rw [State.acquire_seq, State.took_seq])
  refine ⟨u, mbget_eq.trans hu, ?_, fun j hj => ?_⟩
  · have htook := (s.took i rd e rest).acquire_of_apart s.spotHere .core (fun c => c ≤ e.at_) (s.took_of_apart i rd e rest hpops)
    rw [State.took_cur s] at htook
    exact hua.trans htook
  · rw [htok.acq, State.acquire_seq, State.took_seq]
    exact State.acq_doPops hj _

end Words

/-! ### What mailbox words leave -/

/-- The mailboxes of a core of which one was changed. -/
theorem boxes_modBox {i : Fin 8} {f : List MailEntry → List MailEntry} {claimant : Option (CtxId × Nat)} {u : State} {c : Core}
    (hu : u.here.boxes = (c.modBox i (Mailbox.update claimant f)).boxes) :
    u.here.boxes.get i = { claim := (c.boxes.get i).claimBy claimant, entries := f (c.boxes.get i).entries }
    ∧ ∀ j, j ≠ i → u.here.boxes.get j = c.boxes.get j := by
  rw [hu]
  exact ⟨Core.box_modBox_same .., fun j hj => Core.box_modBox_ne c _ hj⟩

theorem State.Keeps.here {s u : State} (h : s.Keeps u) (hcur : u.cur = s.cur) : u.here.pool = s.here.pool := by
  obtain ⟨-, -, hpool⟩ := h
  rw [State.here, hcur]
  exact hpool s.cur.core

section Leaves
variable {s u : State} {i : Fin 8} {rd : XReg} {rb : XReg}

theorem mbput_leaves (hua : u.apart = ((s.publish .core).updateBox i fun l => l ++ [{ value := s.getX rb, at_ := s.cycle }]).apart) :
    u.here.boxes.get i = { claim := (s.here.boxes.get i).claimBy s.claimant,
                           entries := (s.here.boxes.get i).entries ++ [{ value := s.getX rb, at_ := s.cycle }] }
    ∧ u.mem = (s.publish .core).mem
    ∧ (∀ g ∈ s.mem.stores, s.coversMine g.writer = true → g.pubs = [] →
        ∃ h ∈ u.mem.stores, h.id = g.id ∧ h.bytes = g.bytes ∧ ∃ p ∈ h.pubs, p.scope = .core ∧ p.clock = s.cycle)
    ∧ (∀ j, j ≠ i → u.here.boxes.get j = s.here.boxes.get j) ∧ (∀ r, u.getX r = s.getX r) ∧ u.here.pool = s.here.pool := by
  have hboxes : u.here.boxes = ((s.publish .core).here.modBox i
      (Mailbox.update s.claimant fun l => l ++ [{ value := s.getX rb, at_ := s.cycle }])).boxes := by
    rw [State.boxes_of_apart hua, State.updateBox_here, State.publish_claimant]
  have hbox := boxes_modBox hboxes
  rw [State.publish_boxes] at hbox
  have hput : s.Keeps ((s.publish .core).updateBox i fun l => l ++ [{ value := s.getX rb, at_ := s.cycle }]) :=
    (s.publish_keeps .core).trans (State.updateBox_keeps ..)
  have hkeeps : s.Keeps u := hput.trans (State.keeps_of_apart hua)
  have hmem : u.mem = (s.publish .core).mem := by rw [State.mem_of_apart hua, State.updateBox_mem]
  have hcur : u.cur = s.cur := by rw [State.cur_of_apart hua, State.updateBox_cur, State.publish_cur]
  refine ⟨hbox.1, hmem, fun g hg hm hp => ?_, hbox.2, hkeeps.1, hkeeps.here hcur⟩
  obtain ⟨h, hh, hid, -, hbytes, -, -, hpub⟩ := s.publish_unpublished .core hg hm hp
  exact ⟨h, hmem ▸ hh, hid, hbytes, hpub⟩

/-- What a word leaves that changes one mailbox and writes a register. -/
theorem took_leaves {e : MailEntry} {rest : List MailEntry}
    (hua : u.apart = ((s.took i rd e rest).acquire s.cur.core s.spotHere .core fun c => c ≤ e.at_).apart)
    (hacq : ∀ j ∈ s.seq.acq, j ∈ u.seq.acq) :
    u.here.boxes.get i = { claim := (s.here.boxes.get i).claimBy s.claimant, entries := rest }
    ∧ u.getX rd = (if rd = 0 then 0 else e.value)
    ∧ (let reached (pubs : List Pub) : Prop :=
        ∃ p ∈ pubs, p.clock ≤ e.at_ ∧ within p.scope p.spot s.spotHere = true ∧ within .core s.spotHere p.spot = true
      (∀ g ∈ s.mem.stores, g.under = none → g.writer ≠ .peer → reached g.pubs → u.seesHere g = true)
      ∧ (∀ q ∈ s.mem.remote, q.under = none → reached q.pubs → u.seesFar q = true)
      ∧ (∀ g, s.seesHere g = true → u.seesHere g = true))
    ∧ (∀ j, j ≠ i → u.here.boxes.get j = s.here.boxes.get j) ∧ (∀ r, r ≠ rd → u.getX r = s.getX r)
    ∧ u.here.pool = s.here.pool := by
  let v := s.took i rd e rest
  have hcur : v.cur = s.cur := s.took_cur i rd e rest
  have hmem : v.mem = s.mem := s.took_mem i rd e rest
  have hv : u.apart = (v.acquire v.cur.core s.spotHere .core fun c => c ≤ e.at_).apart := by rw [hua, hcur]
  have hboxes : u.here.boxes = (s.here.modBox i (Mailbox.update s.claimant fun _ => rest)).boxes := by
    rw [State.boxes_of_apart hv, State.acquire_here, ← s.took_boxes i rd e rest]
    rfl
  have hpool : u.here.pool = s.here.pool := by
    rw [State.pool_of_apart hv, State.acquire_here]
    exact s.took_pool i rd e rest
  have hx (r : XReg) : u.getX r = v.getX r := by
    rw [State.getX_of_apart hv]
    exact (v.acquire_keeps_regs ..).1 r
  have hseen {pubs : List Pub} {p : Pub} (hp : p ∈ pubs) (hclock : p.clock ≤ e.at_) (hout : within p.scope p.spot s.spotHere = true)
      (hin : within .core s.spotHere p.spot = true) := acquire_brings v .core hv hp (decide_eq_true hclock) hout hin
  rw [hmem] at hseen
  refine ⟨(boxes_modBox hboxes).1, ?_, ⟨fun g hg hu hw ⟨p, hp, hclock, hout, hin⟩ => ?_, fun q hq hu ⟨p, hp, hclock, hout, hin⟩ => ?_,
    fun g hg => ?_⟩, (boxes_modBox hboxes).2, fun r hr => ?_, hpool⟩
  · rw [hx]
    exact State.getX_setX_same ..
  · exact (hseen hp hclock hout hin).1 g hg rfl hu fun h => absurd h hw
  · exact (hseen hp hclock hout hin).2 q hq rfl hu
  · have hsees : v.seesHere g = true := by
      rwa [State.seesHere_of hcur (s.took_view i rd e rest) (congrArg Seq.acq (s.took_seq i rd e rest))]
    refine acquire_keeps v .core hv ?_ hsees
    rw [s.took_seq i rd e rest]
    exact hacq
  · rw [hx]
    exact (State.getX_setX_ne _ _ hr).trans ((s.updateBox_keeps i fun _ => rest).1 r)

theorem polled_leaves {n : XWord} (hua : u.apart = ((s.updateBox i id).setX rd n).apart) :
    u.here.boxes.get i = { claim := (s.here.boxes.get i).claimBy s.claimant, entries := (s.here.boxes.get i).entries }
    ∧ u.getX rd = (if rd = 0 then 0 else n) ∧ (∀ r, r ≠ rd → u.getX r = s.getX r) ∧ u.here.pool = s.here.pool := by
  have hboxes : u.here.boxes = (s.here.modBox i (Mailbox.update s.claimant id)).boxes := by
    rw [State.boxes_of_apart hua, State.readHere_setX Core.boxes (fun _ _ _ => rfl) fun _ _ => rfl, State.updateBox_here]
  have hpool : u.here.pool = s.here.pool := by
    rw [State.pool_of_apart hua, State.readHere_setX Core.pool (fun _ _ _ => rfl) fun _ _ => rfl, State.updateBox_here]
    rfl
  refine ⟨(boxes_modBox hboxes).1, ?_, fun r hr => ?_, hpool⟩
  · rw [State.getX_of_apart hua, State.getX_setX_same]
  · rw [State.getX_of_apart hua, State.getX_setX_ne _ _ hr]
    exact (s.updateBox_keeps i id).1 r

end Leaves

/-- Settles O25: a mailbox word's checks, then one change of its mailbox, after the publication of `mbput` and before the acquisition of
`mbget`. -/
theorem mailboxes : Obligations.Mailboxes := by
  unfold Obligations.Mailboxes
  intro s tk rd ra rb i h
  refine ⟨fun ⟨hi, hm⟩ hroom hbad => ?_, fun ⟨hi, hm⟩ hfull => ?_, fun e rest ⟨hi, hm⟩ hentries => ?_, fun ⟨hi, hm⟩ hempty => ?_,
    fun ⟨hi, hm⟩ => ?_, fun hfar => mailbox_traps h fun k => State.withBox_beyond hfar, fun hi hsome hne => mailbox_traps h fun k => ?_⟩
  · obtain ⟨u, hu, hua⟩ := mbput_puts h ⟨hi, hm⟩ hroom hbad (rb := rb)
    exact ⟨u, hu, mbput_leaves hua⟩
  · obtain ⟨u, hu, hpc, hentries, hissued, -⟩ := mbput_full_waits h ⟨hi, hm⟩ hfull (rb := rb)
    exact ⟨u, hu, hpc, hentries, hissued⟩
  · obtain ⟨u, hu, hua, hacq⟩ := mbget_gets h ⟨hi, hm⟩ hentries (rd := rd)
    exact ⟨u, hu, took_leaves hua hacq⟩
  · obtain ⟨u, hu, hpc, hentries, -, hx⟩ := mbget_empty_waits h ⟨hi, hm⟩ hempty (rd := rd)
    exact ⟨u, hu, hpc, hentries.trans hempty, hx⟩
  · obtain ⟨u, hu, hua, -⟩ := mbpoll_polls h ⟨hi, hm⟩ (rd := rd)
    exact ⟨u, hu, polled_leaves hua⟩
  · have hpops := s.apart_doPops (popsOf tk)
    exact State.withBox_foreign (i := i) hi (by rwa [State.boxes_of_apart hpops])
      (by rwa [State.boxes_of_apart hpops, State.claimant_of_apart hpops])

end Sys2Proof.Machine
end

section
/-! PROOFS. Barrier words (R94, R95, R191, R197). -/

namespace Sys2Proof.Machine

/-! ### An update of any one core through setting issue apart -/

theorem State.setCore_comm (s : State) {c d : CoreId} (v w : Core) (h : c ≠ d) :
    (s.setCore c v).setCore d w = (s.setCore d w).setCore c v := by
  simp only [State.setCore]
  rw [Vector.set_comm _ _ (Fin.val_ne_of_ne h)]

/-- Setting issue apart changes the executing core, as its agent says. -/
theorem State.apart_eq_setCore (s : State) : s.apart = s.setCore s.cur.core s.apart.here := by
  by_cases h : s.cur.role = .fw
  · rw [State.here_apart_fw h, State.apart_fw h]
    rfl
  · rw [State.here_apart_crew h, State.apart_crew h]
    rfl

theorem State.here_apart_congr {s u : State} (hcur : u.cur = s.cur) (hhere : u.here = s.here) : u.apart.here = s.apart.here := by
  have hcrew : u.crew = s.crew := by rw [State.crew_here, State.crew_here, hcur, hhere]
  by_cases h : s.cur.role = .fw
  · rw [State.here_apart_fw h, State.here_apart_fw (by rwa [hcur]), hhere, hcur, hcrew]
  · rw [State.here_apart_crew h, State.here_apart_crew (by rwa [hcur]), hhere, hcur, hcrew]

section ModCore
variable {f : Core → Core} (hf : Core.Inner f) (s : State) (core : CoreId)
include hf

theorem State.apart_modCore : (s.modCore core f).apart = s.apart.modCore core f := by
  by_cases hc : s.cur.core = core
  · subst hc
    have hhere := State.apart_innerCore hf s
    rwa [State.modHere, State.modHere, State.apart_cur] at hhere
  · have hhere : (s.modCore core f).apart.here = s.apart.here :=
      State.here_apart_congr rfl (State.core_setCore_ne _ _ (Ne.symm hc))
    calc (s.modCore core f).apart
      _ = (s.setCore core (f (s.core core))).setCore s.cur.core s.apart.here := by rw [State.apart_eq_setCore, hhere]; rfl
      _ = (s.setCore s.cur.core s.apart.here).setCore core (f (s.core core)) := State.setCore_comm _ _ _ (Ne.symm hc)
      _ = s.apart.modCore core f := by rw [← State.apart_eq_setCore, State.modCore, State.core_apart_ne s hc]

theorem State.seq_modCore : (s.modCore core f).seq = s.seq := by
  by_cases hc : s.cur.core = core
  · subst hc
    exact State.seq_innerCore hf s
  · have hhere : (s.modCore core f).here = s.here := State.core_setCore_ne _ _ (Ne.symm hc)
    have hcrew : (s.modCore core f).crew = s.crew := by
      rw [State.crew_here, hhere]
      rfl
    rw [State.seq, hhere, hcrew]
    rfl

theorem State.lands_modCore : State.Lands fun s => s.modCore core f :=
  ⟨fun s => State.seq_modCore hf s core, fun s => State.apart_modCore hf s core⟩

end ModCore

theorem State.readCore_of_apart {α : Type} (g : Core → α) (hcrew : ∀ c k v, g (c.setCrew k v) = g c)
    (hseq : ∀ c q, g (c.setFwSeq q) = g c) {u s : State} (h : u.apart = s.apart) (core : CoreId) : g (u.core core) = g (s.core core) := by
  rw [← State.read_core_apart g hcrew hseq, h, State.read_core_apart g hcrew hseq]

/-! ### What a barrier word reads -/

section Agree
variable {u s : State} (h : u.apart = s.apart)
include h

theorem State.barRef_of_apart (v : XWord) (onlyHere : Bool) : u.barRef v onlyHere = s.barRef v onlyHere := by
  simp only [State.barRef, State.teamSize_of_apart h, State.teamMember_of_apart h, State.partAt_of_apart h, State.part_of_apart h,
    State.cur_of_apart h]

variable (core : CoreId) (place n : Nat)

theorem State.coreComb_of_apart : (u.core core).comb = (s.core core).comb :=
  State.readCore_of_apart Core.comb (fun _ _ _ => rfl) (fun _ _ => rfl) h core

theorem State.bankLocked_of_apart (holder : Option Nat) : (u.core core).bankLocked holder place n = (s.core core).bankLocked holder place n :=
  State.readCore_of_apart (fun c => c.bankLocked holder place n) (fun _ _ _ => rfl) (fun _ _ => rfl) h core

theorem State.corePoolBad_of_apart : (u.core core).poolBad place n = (s.core core).poolBad place n :=
  State.readCore_of_apart (fun c => c.poolBad place n) (fun _ _ _ => rfl) (fun _ _ => rfl) h core

theorem State.barScope_of_apart : (u.core core).barScope place = (s.core core).barScope place :=
  State.readCore_of_apart (fun c => c.barScope place) (fun _ _ _ => rfl) (fun _ _ => rfl) h core

theorem State.barSide_of_apart : (u.core core).barSide place = (s.core core).barSide place :=
  State.readCore_of_apart (fun c => c.barSide place) (fun _ _ _ => rfl) (fun _ _ => rfl) h core

theorem State.barObj_of_apart : (u.core core).barObj place = (s.core core).barObj place :=
  State.readCore_of_apart (fun c => c.barObj place) (fun _ _ _ => rfl) (fun _ _ => rfl) h core

theorem State.barPending_of_apart : (u.core core).barPending place = (s.core core).barPending place :=
  State.readCore_of_apart (fun c => c.barPending place) (fun _ _ _ => rfl) (fun _ _ => rfl) h core

end Agree

/-! ### The checks of a barrier word -/

theorem Core.inner_combine (place : Nat) (k : CombKind) : Core.Inner fun c => { c with comb := c.comb ++ [{ addr := place, kind := k }] } :=
  ⟨fun _ _ _ => rfl, fun _ _ => rfl, fun _ => rfl, fun _ _ => rfl⟩

theorem State.lands_combine (core : CoreId) (place : Nat) (k : CombKind) : State.Lands fun s => s.combine core place k :=
  State.lands_modCore (Core.inner_combine place k) core

section WithBar
variable {s : State} {v : XWord} {onlyHere reads : Bool} {wait : Nat → WaitKind} {k : BarRef → Res} {b : BarRef}

theorem State.withBar_error {t : TrapReq} (h : s.barRef v onlyHere = .error t) : s.withBar v onlyHere reads wait k = .trap t := by
  simp only [State.withBar, h]

variable (h : s.barRef v onlyHere = .ok b)
include h

theorem State.withBar_locked (hl : (s.core b.core).bankLocked none b.place 16 = true) :
    s.withBar v onlyHere reads wait k = .block (wait b.off) id := by
  simp only [State.withBar, h, hl, if_true]

variable (hl : (s.core b.core).bankLocked none b.place 16 = false)
include hl

theorem State.withBar_bad (hr : reads = true) (hbad : (s.core b.core).poolBad b.place 16 = true) :
    s.withBar v onlyHere reads wait k = .trap { code := 0x32, info := 0, addr := BitVec.ofNat 64 b.off } := by
  simp only [State.withBar, h, hl, hr, hbad]
  rfl

theorem State.withBar_ok (hbad : reads = true → (s.core b.core).poolBad b.place 16 = false) :
    s.withBar v onlyHere reads wait k = k b := by
  have hno : (reads && (s.core b.core).poolBad b.place 16) = false := by
    cases reads with
    | false => rfl
    | true => exact hbad rfl
  simp only [State.withBar, h, hl, hno]
  rfl

end WithBar

theorem State.barRef_reserved {s : State} {v : XWord} {onlyHere : Bool}
    (h : field v.toNat 62 56 ≠ 0 ∨ field v.toNat 47 23 ≠ 0) : s.barRef v onlyHere = .error { code := 0x03, info := 0, addr := 0 } :=
  if_pos (by simpa using h)

/-- An address of the executing core alone names no other (R95). -/
theorem State.barRef_far {s : State} {v : XWord} (h : field v.toNat 63 63 = 1) : s.barRef v true = .error { code := 0x03, info := 0, addr := 0 } := by
  unfold State.barRef
  dsimp only
  split
  · rfl
  · exact if_pos (by simp [h])

section Near
variable {s : State} {v : XWord} (h56 : field v.toNat 62 56 = 0) (h23 : field v.toNat 47 23 = 0) (h63 : field v.toNat 63 63 = 0)
include h56 h23 h63

theorem State.barRef_near (onlyHere : Bool) : s.barRef v onlyHere = match atomCheck s.part (field v.toNat 22 0) 16 16 with
    | some t => .error t
    | none => .ok { core := s.cur.core, place := poolPlace s.part (field v.toNat 22 0), off := field v.toNat 22 0 } := by
  unfold State.barRef
  simp only [h56, h23, h63]
  rfl

end Near

/-- What an address of the executing core alone names lies there. -/
theorem State.barRef_here {s : State} {v : XWord} {b : BarRef} (h : s.barRef v true = .ok b) : b.core = s.cur.core := by
  by_cases h1 : field v.toNat 62 56 ≠ 0 ∨ field v.toNat 47 23 ≠ 0
  · rw [State.barRef_reserved h1] at h
    cases h
  · by_cases h63 : field v.toNat 63 63 = 1
    · rw [State.barRef_far h63] at h
      cases h
    · have hlt : field v.toNat 63 63 < 2 := field_lt ..
      rw [State.barRef_near (by omega) (by omega) (by omega)] at h
      split at h
      · cases h
      · cases h
        rfl

end Sys2Proof.Machine
end

section
/-! PROOFS. Arrivals, `binit`, `bwait` and `btest` as words (R94, R95, R191, R197). -/

namespace Sys2Proof.Machine

/-! ### Arrivals -/

/-- The effect of an arrival. -/
def State.arriveEffect (ra : XReg) (kind : State → CombKind) (s : State) : Res :=
  s.withBar (s.getX ra) false true (fun _ => .other) fun b =>
    s.publishing ((s.core b.core).barScope b.place) fun s => .done (s.combine b.core b.place (kind s))

section Arrival
variable {i : Instr} {s : State} {tk : Tok} {ra : XReg} {reads : List (State → List RegRef)} {kind : State → CombKind} {b : BarRef}
  (hi : exec i s = runWord tk (refX ra :: reads) s (State.arriveEffect ra kind)) (h : s.Clear tk)
include hi h

theorem arrival_error_traps {t : TrapReq} (ht : s.barRef (s.getX ra) false = .error t) : Traps i s t := by
  refine hi.trans (runWord_trap h.toIssues ?_)
  rw [State.arriveEffect, State.getX_doPops]
  exact State.withBar_error (by rwa [State.barRef_of_apart (s.apart_doPops _)])

variable (hb : s.barRef (s.getX ra) false = .ok b)
include hb

theorem arrival_locked_waits (hl : (s.core b.core).bankLocked none b.place 16 = true) : Waits i s := by
  have hpops := s.apart_doPops (popsOf tk)
  obtain ⟨u, hu, hua, hpc⟩ := runWord_waits (reads := refX ra :: reads) (k := .other) (note := id) (effect := State.arriveEffect ra kind)
    h.toIssues (by
      rw [State.arriveEffect, State.getX_doPops]
      exact State.withBar_locked (by rwa [State.barRef_of_apart hpops]) (by rwa [State.bankLocked_of_apart hpops])) rfl
  exact ⟨u, hi.trans hu, hua, hpc⟩

variable (hl : (s.core b.core).bankLocked none b.place 16 = false)
include hl

theorem arrival_bad_traps (hbad : (s.core b.core).poolBad b.place 16 = true) :
    Traps i s { code := 0x32, info := 0, addr := BitVec.ofNat 64 b.off } := by
  have hpops := s.apart_doPops (popsOf tk)
  refine hi.trans (runWord_trap h.toIssues ?_)
  rw [State.arriveEffect, State.getX_doPops]
  exact State.withBar_bad (by rwa [State.barRef_of_apart hpops]) (by rwa [State.bankLocked_of_apart hpops]) rfl
    (by rwa [State.corePoolBad_of_apart hpops])

variable (hbad : (s.core b.core).poolBad b.place 16 = false)
include hbad

omit hi h in
theorem arriveEffect_ok : State.arriveEffect ra kind (s.doPops (popsOf tk))
    = (s.doPops (popsOf tk)).publishing ((s.core b.core).barScope b.place) fun s => .done (s.combine b.core b.place (kind s)) := by
  have hpops := s.apart_doPops (popsOf tk)
  rw [State.arriveEffect, State.getX_doPops, State.withBar_ok (by rwa [State.barRef_of_apart hpops])
    (by rwa [State.bankLocked_of_apart hpops]) fun _ => by rwa [State.corePoolBad_of_apart hpops], State.barScope_of_apart hpops]

variable (hrev : s.reviveBad ((s.core b.core).barScope b.place = .dom) = false)
include hrev

theorem arrival_sends {k : CombKind} (hk : ∀ u : State, (∀ r, u.getX r = s.getX r) → kind u = k)
    (hd : (s.core b.core).barScope b.place = .dom → s.delivery s.remoteMine = .delivered) :
    Answers i s fun u => u.apart = ((s.publish ((s.core b.core).barScope b.place)).combine b.core b.place k).apart
      ∧ (u.core b.core).pool = (s.core b.core).pool := by
  have hpops := s.apart_doPops (popsOf tk)
  let sc := (s.core b.core).barScope b.place
  have hput := State.lands_combine b.core b.place k
  have hkeeps : s.Keeps ((s.doPops (popsOf tk)).publish sc) := (State.keeps_of_apart hpops).trans (State.publish_keeps _ sc)
  have heffect : State.arriveEffect ra kind (s.doPops (popsOf tk))
      = .done (((s.doPops (popsOf tk)).publish sc).combine b.core b.place k) := by
    rw [arriveEffect_ok hb hl hbad, State.publishing_publishes (by rwa [State.reviveBad_of_apart hpops])
      (by rwa [State.delivery_of_apart hpops]), hk _ hkeeps.1]
  obtain ⟨u, hu, hua, -⟩ := runWord_answers (reads := refX ra :: reads) h heffect (by rw [hput.seq, State.publish_seq])
  have hua' : u.apart = ((s.publish sc).combine b.core b.place k).apart := hua.trans (hput.of_apart (State.publish_of_apart hpops sc))
  refine ⟨u, hi.trans hu, hua', ?_⟩
  rw [State.poolOf_of_apart hua]
  have hcomb : (((s.doPops (popsOf tk)).publish sc).combine b.core b.place k).core b.core
      = { ((s.doPops (popsOf tk)).publish sc).core b.core with
          comb := (((s.doPops (popsOf tk)).publish sc).core b.core).comb ++ [{ addr := b.place, kind := k }] } := State.core_setCore ..
  rw [hcomb]
  exact hkeeps.2.2 b.core

theorem arrival_undelivered_waits (hdom : (s.core b.core).barScope b.place = .dom) (hd : s.delivery s.remoteMine = .waiting) :
    Waits i s := by
  have hpops := s.apart_doPops (popsOf tk)
  have heffect : State.arriveEffect ra kind (s.doPops (popsOf tk)) = .block .other id := by
    rw [arriveEffect_ok hb hl hbad, hdom]
    rw [hdom] at hrev
    exact State.publishing_waits (by rwa [State.reviveBad_of_apart hpops]) (by rwa [State.delivery_of_apart hpops]) _
  obtain ⟨u, hu, hua, hpc⟩ := runWord_waits (reads := refX ra :: reads) h.toIssues heffect rfl
  exact ⟨u, hi.trans hu, hua, hpc⟩

theorem arrival_refused_traps {va : XWord} (hdom : (s.core b.core).barScope b.place = .dom) (hd : s.delivery s.remoteMine = .refused va) :
    exec i s = .next (raise { code := 0x14, info := 1, addr := va } s.holdRefused) := by
  have hpops := s.apart_doPops (popsOf tk)
  have heffect : State.arriveEffect ra kind (s.doPops (popsOf tk))
      = .trapNoting { code := 0x14, info := 1, addr := va } State.holdRefused := by
    rw [arriveEffect_ok hb hl hbad, hdom]
    rw [hdom] at hrev
    exact State.publishing_refused (by rwa [State.reviveBad_of_apart hpops]) (by rwa [State.delivery_of_apart hpops]) _
  exact hi.trans (runWord_trapNoting h.toIssues heffect)

end Arrival

theorem barv_eq (tk : Tok) (ra : XReg) (s : State) :
    exec (.barv tk ra) s = runWord tk [refX ra] s (State.arriveEffect ra fun _ => .arrive) := rfl
theorem bard_eq (tk : Tok) (ra : XReg) (s : State) :
    exec (.bard tk ra) s = runWord tk [refX ra] s (State.arriveEffect ra fun _ => .drop) := rfl
theorem bart_eq (tk : Tok) (ra rb : XReg) (s : State) : exec (.bart tk ra rb) s
    = runWord tk [refX ra, refX rb] s (State.arriveEffect ra fun s => .bytes (sext (s.getX rb).toNat 32)) := rfl

/-! ### `binit` -/

def State.initEffect (ra rb : XReg) (s : State) : Res :=
  s.withBar (s.getX ra) true false (fun _ => .other) fun b =>
    let v := (s.getX rb).toNat
    if field v 63 27 ≠ 0 || field v 23 0 = 0 then .trap (trapOf codeRegRange)
    else match scopeOf (field v 26 24) with
      | none => .trap (trapOf codeScope)
      | some sc =>
        if s.admits sc then
          .done (s.combine b.core b.place (.init (BitVec.ofNat 24 (field v 23 0)) (BitVec.ofNat 3 (field v 26 24))))
        else .trap (trapOf codeScope)

theorem binit_eq (tk : Tok) (ra rb : XReg) (s : State) :
    exec (.binit tk ra rb) s = runWord tk [refX ra, refX rb] s (State.initEffect ra rb) := rfl

section Init
variable {s : State} {tk : Tok} {ra rb : XReg} {b : BarRef} (h : s.Clear tk)
include h

theorem binit_error_traps {t : TrapReq} (ht : s.barRef (s.getX ra) true = .error t) : Traps (.binit tk ra rb) s t := by
  refine (binit_eq ..).trans (runWord_trap h.toIssues ?_)
  rw [State.initEffect, State.getX_doPops]
  exact State.withBar_error (by rwa [State.barRef_of_apart (s.apart_doPops _)])

variable (hb : s.barRef (s.getX ra) true = .ok b)
include hb

theorem binit_locked_waits (hl : (s.core b.core).bankLocked none b.place 16 = true) : Waits (.binit tk ra rb) s := by
  have hpops := s.apart_doPops (popsOf tk)
  obtain ⟨u, hu, hua, hpc⟩ := runWord_waits (reads := [refX ra, refX rb]) (k := .other) (note := id) (effect := State.initEffect ra rb)
    h.toIssues (by
      rw [State.initEffect, State.getX_doPops]
      exact State.withBar_locked (by rwa [State.barRef_of_apart hpops]) (by rwa [State.bankLocked_of_apart hpops])) rfl
  exact ⟨u, (binit_eq ..).trans hu, hua, hpc⟩

variable (hl : (s.core b.core).bankLocked none b.place 16 = false)
include hl

omit h in
theorem initEffect_ok : State.initEffect ra rb (s.doPops (popsOf tk)) =
    if field (s.getX rb).toNat 63 27 ≠ 0 || field (s.getX rb).toNat 23 0 = 0 then .trap (trapOf codeRegRange)
    else match scopeOf (field (s.getX rb).toNat 26 24) with
      | none => .trap (trapOf codeScope)
      | some sc =>
        if s.admits sc then .done ((s.doPops (popsOf tk)).combine b.core b.place
          (.init (BitVec.ofNat 24 (field (s.getX rb).toNat 23 0)) (BitVec.ofNat 3 (field (s.getX rb).toNat 26 24))))
        else .trap (trapOf codeScope) := by
  have hpops := s.apart_doPops (popsOf tk)
  rw [State.initEffect, State.getX_doPops, State.getX_doPops, State.withBar_ok (by rwa [State.barRef_of_apart hpops])
    (by rwa [State.bankLocked_of_apart hpops]) fun hno => by cases hno]
  simp only [State.admits_of_apart hpops]

theorem binit_range_traps (hv : 2 ^ 27 ≤ (s.getX rb).toNat ∨ (s.getX rb).toNat % 2 ^ 24 = 0) :
    Traps (.binit tk ra rb) s { code := 0x03, info := 0, addr := 0 } := by
  have hlt := (s.getX rb).isLt
  refine (binit_eq ..).trans (runWord_trap h.toIssues ?_)
  rw [initEffect_ok hb hl]
  refine if_pos ?_
  have hrange : field (s.getX rb).toNat 63 27 ≠ 0 ∨ field (s.getX rb).toNat 23 0 = 0 := by
    unfold field
    omega
  simpa using hrange

section InRange
variable (hv : (s.getX rb).toNat < 2 ^ 27) (hcount : (s.getX rb).toNat % 2 ^ 24 ≠ 0)
include hv hcount

omit h in
theorem initEffect_inRange : State.initEffect ra rb (s.doPops (popsOf tk)) =
    match scopeOf ((s.getX rb).toNat / 2 ^ 24) with
      | none => .trap (trapOf codeScope)
      | some sc =>
        if s.admits sc then .done ((s.doPops (popsOf tk)).combine b.core b.place
          (.init (BitVec.ofNat 24 ((s.getX rb).toNat % 2 ^ 24)) (BitVec.ofNat 3 ((s.getX rb).toNat / 2 ^ 24))))
        else .trap (trapOf codeScope) := by
  have h27 : field (s.getX rb).toNat 63 27 = 0 := by unfold field; omega
  have h24 : field (s.getX rb).toNat 26 24 = (s.getX rb).toNat / 2 ^ 24 := by unfold field; omega
  have h0 : field (s.getX rb).toNat 23 0 = (s.getX rb).toNat % 2 ^ 24 := by unfold field; omega
  rw [initEffect_ok hb hl, h27, h24, h0]
  exact if_neg (by simpa using hcount)

theorem binit_noScope_traps (hsc : scopeOf ((s.getX rb).toNat / 2 ^ 24) = none) :
    Traps (.binit tk ra rb) s { code := 0x42, info := 0, addr := 0 } := by
  refine (binit_eq ..).trans (runWord_trap h.toIssues ?_)
  rw [initEffect_inRange hb hl hv hcount, hsc]
  rfl

theorem binit_unadmitted_traps {sc : Scope} (hsc : scopeOf ((s.getX rb).toNat / 2 ^ 24) = some sc) (had : s.admits sc = false) :
    Traps (.binit tk ra rb) s { code := 0x42, info := 0, addr := 0 } := by
  refine (binit_eq ..).trans (runWord_trap h.toIssues ?_)
  rw [initEffect_inRange hb hl hv hcount, hsc]
  exact if_neg (by simp [had])

theorem binit_sends {sc : Scope} (hsc : scopeOf ((s.getX rb).toNat / 2 ^ 24) = some sc) (had : s.admits sc = true) :
    Runs (.binit tk ra rb) s (s.combine b.core b.place
      (.init (BitVec.ofNat 24 ((s.getX rb).toNat % 2 ^ 24)) (BitVec.ofNat 3 ((s.getX rb).toNat / 2 ^ 24)))) := by
  refine lands_runs (binit_eq ..) h (State.lands_combine b.core b.place _) ?_
  rw [initEffect_inRange hb hl hv hcount, hsc]
  exact if_pos had

end InRange

end Init

end Sys2Proof.Machine
end

section
/-! PROOFS. `bwait` and `btest`, and all barrier words together (R94, R95, R191, R197). -/

namespace Sys2Proof.Machine

/-! ### `bwait` and `btest` -/

def State.waitEffect (ra rb : XReg) (s : State) : Res :=
  s.withBar (s.getX ra) true true .barrier fun b =>
    if !s.here.barPending b.place && field (s.here.barObj b.place) 96 96 ≠ (s.getX rb).toNat % 2 then .done (s.acquireBar b)
    else .block (.barrier b.off) id

def State.testEffect (rd ra : XReg) (s : State) : Res :=
  s.withBar (s.getX ra) true true (fun _ => .other) fun b =>
    if s.here.barPending b.place then .block .other id
    else .done (s.setX rd (BitVec.ofNat 64 (field (s.here.barObj b.place) 103 96)))

theorem bwait_eq (tk : Tok) (ra rb : XReg) (s : State) :
    exec (.bwait tk ra rb) s = runWord tk [refX ra, refX rb] s (State.waitEffect ra rb) := rfl

theorem btest_eq (tk : Tok) (rd ra : XReg) (s : State) : exec (.btest tk rd ra) s = runWord tk [refX ra] s (State.testEffect rd ra) := rfl

/-- What a returning `bwait` acquires, as an acquisition of a core and one of a sequencer. -/
theorem State.acquireBar_done {s : State} {b : BarRef} {t : Nat} (h : ((s.core b.core).barSide b.place).doneAt = some t) :
    s.acquireBar b = (s.acquire s.cur.core s.spotHere ((s.core b.core).barScope b.place) fun c => c ≤ t).acquireCmds
      ((s.core b.core).barSide b.place).cmdsDone := by
  simp only [State.acquireBar, h]

theorem State.acquireBar_never {s : State} {b : BarRef} (h : ((s.core b.core).barSide b.place).doneAt = none) : s.acquireBar b = s := by
  simp only [State.acquireBar, h]

theorem State.acquireCmds_apart (s : State) (cmds : List Nat) : (s.acquireCmds cmds).apart = s.apart := State.apart_modSeq rfl

theorem State.acquireBar_of_apart {u s : State} (h : u.apart = s.apart) (b : BarRef) : (u.acquireBar b).apart = (s.acquireBar b).apart := by
  have hside := State.barSide_of_apart h b.core b.place
  cases hd : ((s.core b.core).barSide b.place).doneAt with
  | none => rw [State.acquireBar_never hd, State.acquireBar_never (by rw [hside, hd]), h]
  | some t =>
    rw [State.acquireBar_done hd, State.acquireBar_done (by rw [hside, hd]), State.acquireCmds_apart, State.acquireCmds_apart,
      State.barScope_of_apart h, State.spotHere_of_apart h]
    exact s.acquire_of_apart _ _ _ h

theorem State.acquireBar_loops (s : State) (b : BarRef) : (s.acquireBar b).seq.loops = s.seq.loops := by
  cases hd : ((s.core b.core).barSide b.place).doneAt with
  | none => rw [State.acquireBar_never hd]
  | some t => rw [State.acquireBar_done hd, State.acquireCmds, State.seq_modSeq, State.acquire_seq]

section Words
variable {s : State} {tk : Tok} {rd ra rb : XReg} {b : BarRef} (h : s.Clear tk)
include h

/-- A word of the executing core's own barriers traps, or waits, where the check of its operand does. -/
theorem waits_traps {t : TrapReq} (ht : ∀ wait k, (s.doPops (popsOf tk)).withBar (s.getX ra) true true wait k = .trap t) :
    Traps (.bwait tk ra rb) s t ∧ Traps (.btest tk rd ra) s t := by
  refine ⟨(bwait_eq ..).trans (runWord_trap h.toIssues ?_), (btest_eq ..).trans (runWord_trap h.toIssues ?_)⟩
  · rw [State.waitEffect, State.getX_doPops, ht]
  · rw [State.testEffect, State.getX_doPops, ht]

theorem waits_error_traps {t : TrapReq} (ht : s.barRef (s.getX ra) true = .error t) :
    Traps (.bwait tk ra rb) s t ∧ Traps (.btest tk rd ra) s t :=
  waits_traps h fun _ _ => State.withBar_error (by rwa [State.barRef_of_apart (s.apart_doPops _)])

variable (hb : s.barRef (s.getX ra) true = .ok b)
include hb

theorem waits_locked_waits (hl : (s.core b.core).bankLocked none b.place 16 = true) :
    Waits (.bwait tk ra rb) s ∧ Waits (.btest tk rd ra) s := by
  have hpops := s.apart_doPops (popsOf tk)
  have hblock (wait : Nat → WaitKind) (k : BarRef → Res) :
      (s.doPops (popsOf tk)).withBar (s.getX ra) true true wait k = .block (wait b.off) id :=
    State.withBar_locked (by rwa [State.barRef_of_apart hpops]) (by rwa [State.bankLocked_of_apart hpops])
  obtain ⟨u, hu, hua, hpc⟩ := runWord_waits (reads := [refX ra, refX rb]) (k := .barrier b.off) (note := id)
    (effect := State.waitEffect ra rb) h.toIssues (by rw [State.waitEffect, State.getX_doPops, hblock]) rfl
  obtain ⟨w, hw, hwa, hwpc⟩ := runWord_waits (reads := [refX ra]) (k := .other) (note := id)
    (effect := State.testEffect rd ra) h.toIssues (by rw [State.testEffect, State.getX_doPops, hblock]) rfl
  exact ⟨⟨u, (bwait_eq ..).trans hu, hua, hpc⟩, ⟨w, (btest_eq ..).trans hw, hwa, hwpc⟩⟩

variable (hl : (s.core b.core).bankLocked none b.place 16 = false)
include hl

theorem waits_bad_traps (hbad : (s.core b.core).poolBad b.place 16 = true) :
    Traps (.bwait tk ra rb) s { code := 0x32, info := 0, addr := BitVec.ofNat 64 b.off }
      ∧ Traps (.btest tk rd ra) s { code := 0x32, info := 0, addr := BitVec.ofNat 64 b.off } := by
  have hpops := s.apart_doPops (popsOf tk)
  exact waits_traps h fun _ _ => State.withBar_bad (by rwa [State.barRef_of_apart hpops]) (by rwa [State.bankLocked_of_apart hpops]) rfl
    (by rwa [State.corePoolBad_of_apart hpops])

variable (hbad : (s.core b.core).poolBad b.place 16 = false) (hpend : s.here.barPending b.place = false)
include hbad hpend

omit h hpend in
theorem withBar_popped {wait : Nat → WaitKind} {k : BarRef → Res} :
    (s.doPops (popsOf tk)).withBar (s.getX ra) true true wait k = k b := by
  have hpops := s.apart_doPops (popsOf tk)
  exact State.withBar_ok (by rwa [State.barRef_of_apart hpops]) (by rwa [State.bankLocked_of_apart hpops])
    fun _ => by rwa [State.corePoolBad_of_apart hpops]

omit h hb hl hbad in
theorem hereBar_popped : (s.doPops (popsOf tk)).here.barPending b.place = false
    ∧ (s.doPops (popsOf tk)).here.barObj b.place = s.here.barObj b.place := by
  have hpops := s.apart_doPops (popsOf tk)
  rw [State.here, State.doPops_cur, State.barPending_of_apart hpops, State.barObj_of_apart hpops]
  exact ⟨hpend, rfl⟩

theorem bwait_same_waits (hphase : s.here.barObj b.place / 2 ^ 96 % 2 = (s.getX rb).toNat % 2) : Waits (.bwait tk ra rb) s := by
  obtain ⟨hp, hobj⟩ := hereBar_popped (tk := tk) hpend
  obtain ⟨u, hu, hua, hpc⟩ := runWord_waits (reads := [refX ra, refX rb]) (k := .barrier b.off) (note := id)
    (effect := State.waitEffect ra rb) h.toIssues (by
      rw [State.waitEffect, State.getX_doPops, withBar_popped hb hl hbad, hp, hobj, State.getX_doPops]
      exact if_neg (by simpa [field] using hphase)) rfl
  exact ⟨u, (bwait_eq ..).trans hu, hua, hpc⟩

theorem btest_reads : Runs (.btest tk rd ra) s (s.setX rd (BitVec.ofNat 64 (s.here.barObj b.place / 2 ^ 96 % 2 ^ 8))) := by
  obtain ⟨hp, hobj⟩ := hereBar_popped (tk := tk) hpend
  refine lands_runs (btest_eq ..) h (State.lands_setX rd _) ?_
  rw [State.testEffect, State.getX_doPops, withBar_popped hb hl hbad, hp, hobj]
  rfl

theorem bwait_acquires (hphase : s.here.barObj b.place / 2 ^ 96 % 2 ≠ (s.getX rb).toNat % 2) :
    ∃ u, exec (.bwait tk ra rb) s = .next u ∧ u.apart = (s.acquireBar b).apart ∧ (s.inLine → u.pc = s.pc + 4)
      ∧ ((s.doPops (popsOf tk)).acquireBar b).SameTokens u := by
  obtain ⟨hp, hobj⟩ := hereBar_popped (tk := tk) hpend
  have heffect : State.waitEffect ra rb (s.doPops (popsOf tk)) = .done ((s.doPops (popsOf tk)).acquireBar b) := by
    rw [State.waitEffect, State.getX_doPops, withBar_popped hb hl hbad, hp, hobj, State.getX_doPops]
    exact if_pos (by simpa [field] using hphase)
  obtain ⟨u, hu, hua, hpc, htok⟩ := runWord_keeps (reads := [refX ra, refX rb]) h heffect (State.acquireBar_loops _ b)
  exact ⟨u, (bwait_eq ..).trans hu, hua.trans (State.acquireBar_of_apart (s.apart_doPops _) b), hpc, htok⟩

end Words

/-! ### What a returning `bwait` leaves -/

theorem State.seesHere_of_acq {u : State} {g : GStore} (h : g.id ∈ u.seq.acq) (hu : g.under = none) : u.seesHere g = true := by
  simp [State.seesHere_eq, hu, h]

section AcquireBar
variable (s : State) (b : BarRef)

theorem State.acquireBar_acq {i : Nat} (hi : i ∈ s.seq.acq) : i ∈ (s.acquireBar b).seq.acq := by
  cases hd : ((s.core b.core).barSide b.place).doneAt with
  | none => rwa [State.acquireBar_never hd]
  | some t =>
    rw [State.acquireBar_done hd, State.acquireCmds, State.seq_modSeq, State.acquire_seq]
    exact mem_addIds.mpr (.inl hi)

theorem State.acquireBar_cmds {t id : Nat} (hd : ((s.core b.core).barSide b.place).doneAt = some t) {g : GStore} (hg : g ∈ s.mem.stores)
    (hid : id ∈ ((s.core b.core).barSide b.place).cmdsDone) (hw : g.writer = .cmd id) : g.id ∈ (s.acquireBar b).seq.acq := by
  rw [State.acquireBar_done hd, State.acquireCmds, State.seq_modSeq]
  refine mem_addIds.mpr (.inr (List.mem_append_left _ (List.mem_map.mpr ⟨g, List.mem_filter.mpr ⟨?_, ?_⟩, rfl⟩)))
  · rwa [State.acquire_stores]
  · rw [hw, Writer.isCmd]
    exact List.contains_iff_mem.mpr hid

theorem State.acquireBar_keeps : s.Keeps (s.acquireBar b) ∧ (s.acquireBar b).cur = s.cur ∧ (s.acquireBar b).mem.stores = s.mem.stores := by
  cases hd : ((s.core b.core).barSide b.place).doneAt with
  | none => rw [State.acquireBar_never hd]; exact ⟨.refl s, rfl, rfl⟩
  | some t =>
    rw [State.acquireBar_done hd]
    refine ⟨(s.acquire_keeps_regs ..).trans (State.keeps_modSeq _ _), ?_, ?_⟩
    · rw [State.acquireCmds, State.modSeq_cur, State.acquire_eq]
      rfl
    · rw [State.acquireCmds, State.modSeq_mem, State.acquire_stores]

end AcquireBar

section Leaves
variable {s u : State} {tk : Tok} {b : BarRef} (hua : u.apart = (s.acquireBar b).apart)
  (htok : ((s.doPops (popsOf tk)).acquireBar b).SameTokens u)
include hua htok

theorem bwait_sees {g : GStore} (hg : s.seesHere g = true) : u.seesHere g = true := by
  have hacq (i : Nat) (hi : i ∈ s.seq.acq) : i ∈ u.seq.acq := by
    rw [htok.acq]
    exact State.acquireBar_acq _ b (State.acq_doPops hi _)
  cases hd : ((s.core b.core).barSide b.place).doneAt with
  | none =>
    rw [State.acquireBar_never hd] at hua
    exact State.seesHere_mono (State.cur_of_apart hua) (fun i hi => by rwa [State.view_of_apart hua]) hacq hg
  | some t =>
    rw [State.acquireBar_done hd, State.acquireCmds_apart] at hua
    exact acquire_keeps s _ hua hacq hg

theorem bwait_brings {t : Nat} (hd : ((s.core b.core).barSide b.place).doneAt = some t) {g : GStore} (hg : g ∈ s.mem.stores)
    (hu : g.under = none) :
    ((g.writer = .peer → (s.core b.core).barScope b.place = .dom) →
      (∃ p ∈ g.pubs, p.clock ≤ t ∧ within p.scope p.spot s.spotHere = true
        ∧ within ((s.core b.core).barScope b.place) s.spotHere p.spot = true) → u.seesHere g = true)
    ∧ ∀ id ∈ ((s.core b.core).barSide b.place).cmdsDone, g.writer = .cmd id → u.seesHere g = true := by
  have hpops := s.apart_doPops (popsOf tk)
  refine ⟨fun hpeer ⟨p, hp, hclock, hout, hin⟩ => ?_, fun id hid hw => State.seesHere_of_acq ?_ hu⟩
  · rw [State.acquireBar_done hd, State.acquireCmds_apart] at hua
    exact (acquire_brings s _ hua hp (decide_eq_true hclock) hout hin).1 g hg rfl hu hpeer
  · have hside := State.barSide_of_apart hpops b.core b.place
    rw [htok.acq]
    exact State.acquireBar_cmds _ b (hside ▸ hd) (by rwa [State.mem_of_apart hpops]) (by rwa [hside]) hw

end Leaves

theorem scopeOf_none {n : Nat} (h : 6 ≤ n) : scopeOf n = none := by
  obtain ⟨k, rfl⟩ := Nat.exists_eq_add_of_le' h
  rfl

/-- Settles O27: the checks of a barrier word's address, then a publication and an operation for the port, an acquisition, or a read. -/
theorem barrierWords : Obligations.BarrierWords := by
  unfold Obligations.BarrierWords
  refine ⟨fun s tk ra rb b h => ?_, fun s tk rd ra rb b h => ?_⟩
  · have harrive (u : State) (_ : ∀ r, u.getX r = s.getX r) : (fun _ => CombKind.arrive : State → CombKind) u = .arrive := rfl
    have hdrop (u : State) (_ : ∀ r, u.getX r = s.getX r) : (fun _ => CombKind.drop : State → CombKind) u = .drop := rfl
    have hbytes (u : State) (hu : ∀ r, u.getX r = s.getX r) :
        (fun s => .bytes (sext (s.getX rb).toNat 32) : State → CombKind) u = .bytes (sext (s.getX rb).toNat 32) := by
      dsimp only
      rw [hu]
    have herror {t : TrapReq} (ht : s.barRef (s.getX ra) false = .error t) :
        Traps (.barv tk ra) s t ∧ Traps (.bard tk ra) s t ∧ Traps (.bart tk ra rb) s t :=
      ⟨arrival_error_traps (barv_eq ..) h ht, arrival_error_traps (bard_eq ..) h ht, arrival_error_traps (bart_eq ..) h ht⟩
    refine ⟨fun hres => herror (State.barRef_reserved (.inl hres)), fun t => herror, fun hb => ⟨fun hl => ?_, fun hl => ⟨fun hbad => ?_,
      fun hbad hrev => ⟨fun hd => ?_, fun hdom hd => ?_, fun va hdom hd => ?_⟩⟩⟩, fun t => binit_error_traps h, binit_locked_waits h,
      ⟨fun hres => binit_error_traps h ?_, fun h56 h23 h63 t ht => binit_error_traps h ?_⟩, fun hb hl => ⟨binit_range_traps h hb hl,
        fun hv hcount => ⟨fun hsix => ?_, fun sc hsc => ⟨binit_unadmitted_traps h hb hl hv hcount hsc, binit_sends h hb hl hv hcount hsc⟩⟩⟩⟩
    · exact ⟨arrival_locked_waits (barv_eq ..) h hb hl, arrival_locked_waits (bard_eq ..) h hb hl, arrival_locked_waits (bart_eq ..) h hb hl⟩
    · exact ⟨arrival_bad_traps (barv_eq ..) h hb hl hbad, arrival_bad_traps (bard_eq ..) h hb hl hbad,
        arrival_bad_traps (bart_eq ..) h hb hl hbad⟩
    · exact ⟨arrival_sends (barv_eq ..) h hb hl hbad hrev harrive hd, arrival_sends (bard_eq ..) h hb hl hbad hrev hdrop hd,
        arrival_sends (bart_eq ..) h hb hl hbad hrev hbytes hd⟩
    · exact ⟨arrival_undelivered_waits (barv_eq ..) h hb hl hbad hrev hdom hd, arrival_undelivered_waits (bard_eq ..) h hb hl hbad hrev hdom hd,
        arrival_undelivered_waits (bart_eq ..) h hb hl hbad hrev hdom hd⟩
    · exact ⟨arrival_refused_traps (barv_eq ..) h hb hl hbad hrev hdom hd, arrival_refused_traps (bard_eq ..) h hb hl hbad hrev hdom hd,
        arrival_refused_traps (bart_eq ..) h hb hl hbad hrev hdom hd⟩
    · rcases hres with h56 | h23 | h63
      · exact State.barRef_reserved (.inl h56)
      · exact State.barRef_reserved (.inr h23)
      · exact State.barRef_far h63
    · rw [State.barRef_near h56 h23 h63, ht]
    · exact binit_noScope_traps h hb hl hv hcount (scopeOf_none hsix)
  · refine ⟨fun t => waits_error_traps h, fun hb => ?_⟩
    have hcore := State.barRef_here hb
    have hhere : s.here = s.core b.core := by rw [hcore]; rfl
    refine ⟨fun hl => waits_locked_waits h hb (by rwa [← hhere]), fun hl hbad => waits_bad_traps h hb (by rwa [← hhere]) (by rwa [← hhere]),
      fun hl hbad hpend => ?_⟩
    rw [hhere] at hl hbad
    refine ⟨fun hphase => ?_, bwait_same_waits h hb hl hbad hpend, btest_reads h hb hl hbad hpend⟩
    obtain ⟨u, hu, hua, hpc, htok⟩ := bwait_acquires h hb hl hbad hpend hphase
    obtain ⟨hkeeps, hcur, hstores⟩ := s.acquireBar_keeps b
    have hkept := hkeeps.trans (State.keeps_of_apart hua)
    rw [hhere]
    exact ⟨u, hu, hpc, hua, hkept.1, by rw [← hhere]; exact hkept.here ((State.cur_of_apart hua).trans hcur),
      by rw [State.mem_of_apart hua, hstores], fun g => bwait_sees hua htok, fun t hd g hg hunder => bwait_brings hua htok hd hg hunder⟩

end Sys2Proof.Machine
end

section
/-! PROOFS. The words of X on Hinge's runs (R105, R248). -/

namespace Sys2Proof.Machine

/-! ### Updates of the crew's run -/

theorem Crew.inner_pair (p : Nat × Nat) : Crew.Inner fun c => { c with pair := some p } :=
  ⟨fun _ => rfl, fun _ st _ => by cases st <;> rfl, fun _ st => by cases st <;> rfl⟩

theorem Crew.inner_setting (n : Nat) : Crew.Inner fun c => { c with hinge := { c.hinge with setting := n } } :=
  ⟨fun _ => rfl, fun _ st _ => by cases st <;> rfl, fun _ st => by cases st <;> rfl⟩

theorem Crew.inner_queueRun (r : HingeRun) (id : Nat) : Crew.Inner fun c => { c with hinge := r, xcmds := c.xcmds ++ [id] } :=
  ⟨fun _ => rfl, fun _ st _ => by cases st <;> rfl, fun _ st => by cases st <;> rfl⟩

section Agree
variable {u s : State} (h : u.apart = s.apart)
include h

theorem State.hinge_of_apart : u.crew.hinge = s.crew.hinge :=
  State.read_of_apart h Crew.hinge (fun _ => rfl) fun _ st _ => by cases st <;> rfl

theorem State.runHere_of_apart : u.runHere = s.runHere := by rw [State.runHere, State.cur_of_apart h, State.hinge_of_apart h]; rfl

theorem State.pairHere_of_apart : u.pairHere = s.pairHere := by
  rw [State.pairHere, State.cur_of_apart h, State.read_of_apart h Crew.pair (fun _ => rfl) fun _ st _ => by cases st <;> rfl]
  rfl

theorem State.hgPos_of_apart : u.hgPos = s.hgPos := by rw [State.hgPos, State.block_of_apart h]; rfl

theorem State.hrunChecks_of_apart (gOff rOff : Nat) (g r : Image) (k : List W32 → Res) :
    u.hrunChecks gOff rOff g r k = s.hrunChecks gOff rOff g r k := by
  simp only [State.hrunChecks, State.part_of_apart h, State.teamSize_of_apart h, State.hgPos_of_apart h, State.lockedFor_of_apart h,
    State.poolBad_of_apart h, State.pool_of_apart h]

end Agree

theorem State.runHere_crew {s : State} (hr : s.cur.role ≠ .fw) : s.runHere = s.crew.hinge := if_neg hr

theorem State.pairHere_crew {s : State} (hr : s.cur.role ≠ .fw) : s.pairHere = s.crew.pair := if_neg hr

theorem HingeRun.live_iff (r : HingeRun) : r.live = true ↔ r.state = .queued ∨ r.state = .running := by
  simp [HingeRun.live]

theorem HingeRun.boolX_mode (r : HingeRun) :
    boolX r.mode = BitVec.ofNat 64 (if r.state = .queued then (if r.setting = 2 then 1 else 0) else r.pull.toNat) := by
  rw [HingeRun.mode]
  by_cases hq : r.state = .queued
  · rw [if_pos hq, if_pos hq]
    by_cases h2 : r.setting = 2 <;> simp [h2, boolX]
  · rw [if_neg hq, if_neg hq]
    cases r.pull <;> rfl

/-! ### The words -/

def State.hsetEffect (ra rb : XReg) (s : State) : Res :=
  if s.runHere.live then .trap (trapAt codeHingeFault (s.getX ra).toNat)
  else match (poolCheck s.part (s.getX ra).toNat 64 64).orElse fun _ => poolCheck s.part (s.getX rb).toNat 64 64 with
    | some t => .trap t
    | none => .done (s.modCrew fun c => { c with pair := some ((s.getX ra).toNat, (s.getX rb).toNat) })

/-- The run that `hrun` queues. -/
def State.queuedRun (s : State) (ra : XReg) (g r : Image) (prog : List W32) : HingeRun :=
  { HingeRun.idle with
    state := .queued, gd := g, rd := r, prog := prog, cmd := some s.serial, order := 4 * s.cycle + s.cur.crew.val, bar := s.getX ra,
    setting := rdForce r }

/-- The state with a run queued and its command issued. -/
def State.queueRun (s : State) (ra : XReg) (g r : Image) (prog : List W32) : State :=
  (s.withSerial (s.serial + 1)).modCrew fun c => { c with hinge := s.queuedRun ra g r prog, xcmds := c.xcmds ++ [s.serial] }

def State.hrunEffect (ra : XReg) (s : State) : Res :=
  match s.pairHere with
  | none => .trap (trapOf codeHingeFault)
  | some (gOff, rOff) =>
    if s.runHere.live then .trap (trapAt codeHingeFault gOff)
    else match s.barRef (s.getX ra) false with
      | .error t => .trap t
      | .ok _ =>
        match s.poolRead gOff 64 64 with
        | .locked => .block .other id
        | .trap t => .trap t
        | .bytes gb => match s.poolRead rOff 64 64 with
          | .locked => .block .other id
          | .trap t => .trap t
          | .bytes rb =>
            s.hrunChecks gOff rOff (BitVec.ofNat 512 (leNat gb)) (BitVec.ofNat 512 (leNat rb)) fun prog =>
              .issued (s.queueRun ra (BitVec.ofNat 512 (leNat gb)) (BitVec.ofNat 512 (leNat rb)) prog) s.serial

def State.hforceEffect (ra : XReg) (s : State) : Res :=
  if 2 < (s.getX ra).toNat then .trap (trapOf codeRegRange)
  else .done (if s.runHere.live then s.modRun fun r => { r with setting := (s.getX ra).toNat } else s)

theorem hset_eq (tk : Tok) (ra rb : XReg) (s : State) :
    exec (.hset tk ra rb) s = runWord tk [refX ra, refX rb] s (State.hsetEffect ra rb) := rfl

theorem hrun_eq (tk : Tok) (ra : XReg) (s : State) : exec (.hrun tk ra) s = runWord tk [refX ra] s (State.hrunEffect ra) := rfl

theorem hforce_eq (tk : Tok) (ra : XReg) (s : State) : exec (.hforce tk ra) s = runWord tk [refX ra] s (State.hforceEffect ra) := rfl

/-- The effect of `hstat`. -/
def State.hstatEffect (rd ra : XReg) (s : State) : Res :=
  let r := s.runHere
  match (s.getX ra).toNat with
  | 0 => .done (s.setX rd (BitVec.ofNat 64 r.state.code))
  | 1 => .done (s.setX rd (BitVec.ofNat 64 r.nss))
  | 2 => .done (s.setX rd (boolX r.mode))
  | 3 => .done (s.setX rd (BitVec.ofNat 64 r.nsw))
  | 4 =>
    (match r.nf.orElse fun _ => r.first with
    | some n => .done (s.setX rd (BitVec.ofNat 64 n))
    | none =>
      if r.state = .idle then .done (s.setX rd 0)
      else match s.hgBitmap false with
        | .val f | .loaded f _ _ => .done (s.setX rd (BitVec.ofNat 64 (popBits f s.hgV)))
        | .waits _ => .block .other id
        | .fault | .stop => .trap (trapAt codePoolEcc (gdFront r.gd)))
  | 5 => .done (s.setX rd (BitVec.ofNat 64 r.nedge))
  | _ => .trap (trapOf codeRegRange)

theorem hstat_eq (tk : Tok) (rd ra : XReg) (s : State) : exec (.hstat tk rd ra) s = runWord tk [refX ra] s (State.hstatEffect rd ra) := rfl

theorem State.hstatEffect_range {rd ra : XReg} {s : State} {n : Nat} (hn : (s.getX ra).toNat = n + 6) :
    State.hstatEffect rd ra s = .trap { code := 0x03, info := 0, addr := 0 } := by
  rw [State.hstatEffect, hn]
  rfl

section Words
variable {s : State} {tk : Tok} {rd ra rb : XReg} (h : s.Clear tk) (hr : s.cur.role ≠ .fw)
include h hr

omit h in
theorem runHere_popped : (s.doPops (popsOf tk)).runHere = s.crew.hinge := by
  rw [State.runHere_of_apart (s.apart_doPops _), State.runHere_crew hr]

theorem hset_live_traps (hlive : s.crew.hinge.live = true) : Traps (.hset tk ra rb) s { code := 0x52, info := 0, addr := s.getX ra } := by
  refine (hset_eq ..).trans (runWord_trap h.toIssues ?_)
  rw [State.hsetEffect, runHere_popped hr, if_pos hlive, State.getX_doPops, trapAt_toNat]
  rfl

theorem hset_sets (hlive : s.crew.hinge.live = false) (hg : poolCheck s.part (s.getX ra).toNat 64 64 = none)
    (hd : poolCheck s.part (s.getX rb).toNat 64 64 = none) :
    Runs (.hset tk ra rb) s (s.modCrew fun c => { c with pair := some ((s.getX ra).toNat, (s.getX rb).toNat) }) := by
  refine lands_runs (hset_eq ..) h (State.lands_modCrew (Crew.inner_pair _)) ?_
  rw [State.hsetEffect, runHere_popped hr, if_neg (by simp [hlive]), State.part_of_apart (s.apart_doPops _), State.getX_doPops,
    State.getX_doPops, hg, hd]
  rfl

theorem hrun_unpaired_traps (hp : s.crew.pair = none) : Traps (.hrun tk ra) s { code := 0x52, info := 0, addr := 0 } := by
  refine (hrun_eq ..).trans (runWord_trap h.toIssues ?_)
  rw [State.hrunEffect, State.pairHere_of_apart (s.apart_doPops _), State.pairHere_crew hr, hp]
  rfl

theorem hforce_live_sets (ha : (s.getX ra).toNat ≤ 2) (hlive : s.crew.hinge.live = true) : Runs (.hforce tk ra) s
    (s.modCrew fun c => { c with hinge := { c.hinge with setting := (s.getX ra).toNat } }) := by
  refine lands_runs (hforce_eq ..) h (State.lands_modCrew (Crew.inner_setting _)) ?_
  rw [State.hforceEffect, runHere_popped hr, State.getX_doPops, if_neg (by omega), if_pos hlive]
  rfl

theorem hforce_idle_runs (ha : (s.getX ra).toNat ≤ 2) (hlive : s.crew.hinge.live = false) : Runs (.hforce tk ra) s s := by
  refine lands_runs (put := fun s => s) (hforce_eq ..) h ⟨fun _ => rfl, fun _ => rfl⟩ ?_
  rw [State.hforceEffect, runHere_popped hr, State.getX_doPops, if_neg (by omega), if_neg (by simp [hlive])]

omit hr in
theorem hforce_range_traps (ha : 2 < (s.getX ra).toNat) : Traps (.hforce tk ra) s { code := 0x03, info := 0, addr := 0 } := by
  refine (hforce_eq ..).trans (runWord_trap h.toIssues ?_)
  rw [State.hforceEffect, State.getX_doPops, if_pos ha]
  rfl

/-- A selector of `hstat` whose value is known reads it. -/
theorem hstat_reads {v : XWord}
    (hv : ∀ p : State, p.getX ra = s.getX ra → p.runHere = s.crew.hinge → State.hstatEffect rd ra p = .done (p.setX rd v)) :
    Runs (.hstat tk rd ra) s (s.setX rd v) :=
  lands_runs (hstat_eq ..) h (State.lands_setX rd v) (hv _ (State.getX_doPops ..) (runHere_popped hr))

omit hr h in
theorem hstatEffect_beyond (ha : 5 < (s.getX ra).toNat) :
    State.hstatEffect rd ra (s.doPops (popsOf tk)) = .trap { code := 0x03, info := 0, addr := 0 } := by
  obtain ⟨n, hn⟩ := Nat.exists_eq_add_of_le' (show 6 ≤ (s.getX ra).toNat from ha)
  exact State.hstatEffect_range (n := n) (by rw [State.getX_doPops, hn])

omit hr in
theorem hstat_range_traps (ha : 5 < (s.getX ra).toNat) : Traps (.hstat tk rd ra) s { code := 0x03, info := 0, addr := 0 } :=
  (hstat_eq tk rd ra s).trans (runWord_trap h.toIssues (hstatEffect_beyond ha))

section Run
variable {g d : Nat} {b : BarRef} {gb db : List Byte} (hp : s.crew.pair = some (g, d)) (hlive : s.crew.hinge.live = false)
  (hb : s.barRef (s.getX ra) false = .ok b) (hg : s.poolRead g 64 64 = .bytes gb) (hd : s.poolRead d 64 64 = .bytes db)
include hp hlive hb hg hd

omit h in
theorem hrunEffect_read : State.hrunEffect ra (s.doPops (popsOf tk))
    = s.hrunChecks g d (BitVec.ofNat 512 (leNat gb)) (BitVec.ofNat 512 (leNat db)) fun prog =>
      .issued ((s.doPops (popsOf tk)).queueRun ra (BitVec.ofNat 512 (leNat gb)) (BitVec.ofNat 512 (leNat db)) prog) s.serial := by
  have hpops := s.apart_doPops (popsOf tk)
  rw [State.hrunEffect, State.pairHere_of_apart hpops, State.pairHere_crew hr, hp]
  simp only [runHere_popped hr, hlive, State.getX_doPops, State.barRef_of_apart hpops, hb, State.poolRead_of_apart hpops, hg, hd,
    State.hrunChecks_of_apart hpops, State.serial_of_apart hpops]
  exact if_neg Bool.false_ne_true

theorem hrun_queues {prog : List W32}
    (hk : ∀ k, s.hrunChecks g d (BitVec.ofNat 512 (leNat gb)) (BitVec.ofNat 512 (leNat db)) k = k prog) :
    Runs (.hrun tk ra) s (s.queueRun ra (BitVec.ofNat 512 (leNat gb)) (BitVec.ofNat 512 (leNat db)) prog) := by
  have hpops := s.apart_doPops (popsOf tk)
  have heffect := (hrunEffect_read (tk := tk) hr hp hlive hb hg hd).trans (hk _)
  have hland (p : State) (hpa : p.apart = s.apart) (gi di : Image) : (p.queueRun ra gi di prog).apart = (s.queueRun ra gi di prog).apart := by
    rw [State.queueRun, State.queueRun, State.apart_inner (Crew.inner_queueRun _ _), State.apart_inner (Crew.inner_queueRun _ _),
      State.queuedRun, State.queuedRun, State.serial_of_apart hpa, State.cycle_of_apart hpa, State.cur_of_apart hpa, State.getX_of_apart hpa,
      State.withSerial_of_apart hpa]
  rw [Runs, hrun_eq]
  obtain ⟨u, hu, hua, hpc⟩ := runWord_issued (reads := [refX ra]) h heffect (by
    rw [State.queueRun, State.seq_inner (Crew.inner_queueRun _ _)]
    rfl)
  exact ⟨u, hu, hua.trans (hland _ hpops _ _), hpc⟩

end Run

end Words

/-- The checks of `hrun` passed. -/
theorem State.hrunChecks_pass {s : State} {gOff rOff : Nat} {g r : Image} (hg : graphBad s.part g r s.hgPos s.teamSize = false)
    (hr : runBad s.part r = false) (hl : s.here.lockedFor none (poolPlace s.part (rdProg r)) 256 = false)
    (hb : s.here.poolBad (poolPlace s.part (rdProg r)) 256 = false) {prog : List W32}
    (hprog : prog = (List.range 64).map fun i => bytesWord (memGets s.here.pool (poolPlace s.part (rdProg r) + 4 * i) 4))
    (hscan : scanProgram .message 0 prog = none) (k : List W32 → Res) : s.hrunChecks gOff rOff g r k = k prog := by
  subst hprog
  simp only [State.hrunChecks, hg, hr, hl, hb, hscan]
  rfl

/-- Settles O34: each word's checks and its change of the crew's pair, run or register. -/
theorem hingeWords : Obligations.HingeWords := by
  unfold Obligations.HingeWords
  intro s tk rd ra rb h hr
  have hlive : s.crew.hinge.state = .queued ∨ s.crew.hinge.state = .running ↔ s.crew.hinge.live = true := (HingeRun.live_iff _).symm
  have hidle : ¬(s.crew.hinge.state = .queued ∨ s.crew.hinge.state = .running) ↔ s.crew.hinge.live = false := by rw [hlive]; simp
  dsimp only
  rw [hidle, hlive]
  refine ⟨hset_sets h hr, hset_live_traps h hr, hrun_unpaired_traps h hr,
    fun g d b gb db hp hno hb hg hd hgraph hrun hl hbad hscan => ?_, fun ha => hforce_live_sets h hr ha, fun ha => hforce_idle_runs h hr ha,
    hforce_range_traps h, fun ha => ?_, fun ha => ?_, fun ha => ?_, fun ha => ?_, fun n hn ha => ?_, fun n hn hf ha => ?_,
    fun hn hf hs ha => ?_, fun ha => ?_, hstat_range_traps h⟩
  · exact hrun_queues h hr hp hno hb hg hd fun k => State.hrunChecks_pass hgraph hrun hl hbad rfl hscan k
  all_goals
    refine hstat_reads h hr fun p hp hrun => ?_
    simp only [State.hstatEffect, hp, hrun, ha]
  · cases s.crew.hinge.state <;> rfl
  · exact congrArg (fun v => Res.done (p.setX rd v)) (HingeRun.boolX_mode _)
  · rw [hn]
    rfl
  · rw [hn, hf]
    rfl
  · rw [hn, hf, hs]
    rfl

end Sys2Proof.Machine
end

section
/-! PROOFS. The completion of a mask of Casement (R103, R234). -/

namespace Sys2Proof.Machine

/-! ### Sequences of a die -/

theorem State.die_modDie (s : State) (d : DieId) (f : Die → Die) : (s.modDie d f).dies.get d = f (s.dies.get d) :=
  vget_set_same _ _ _

theorem Die.sgr?_handle {d : Die} {h : Nat} {g : Sgr} (hg : d.sgr? h = some g) : g.handle = h := by
  simpa using List.find?_some hg

/-- A sequence written is the one that its handle names. -/
theorem Die.sgr?_setSgr {d : Die} {h : Nat} {g : Sgr} (hg : d.sgr? h = some g) {u : Sgr} (hu : u.handle = h) :
    (d.setSgr u).sgr? h = some u := by
  have hgh := Die.sgr?_handle hg
  rw [Die.sgr?, Die.setSgr, List.find?_map]
  have hfind : d.sgrs.find? ((fun q : Sgr => q.handle == h) ∘ fun q => if q.handle = u.handle then u else q) = some g := by
    rw [← hg, Die.sgr?]
    congr 1
    funext q
    by_cases hq : q.handle = h <;> simp [hu, hq]
  rw [hfind, Option.map_some, if_pos (by rw [hgh, hu])]

/-- The oldest mask of a handle goes: one fewer waits. -/
theorem length_eraseIdx_findIdx {l : List GMask} {h : Nat} {m : GMask} (hm : l.find? (fun q => q.handle == h) = some m) :
    (l.eraseIdx (l.findIdx fun q => q.handle == m.handle)).length + 1 = l.length := by
  have hlt : (l.findIdx fun q => q.handle == m.handle) < l.length :=
    List.findIdx_lt_length_of_exists ⟨m, List.mem_of_find?_eq_some hm, by simp⟩
  rw [List.length_eraseIdx_of_lt hlt]
  omega

/-! ### The completion -/

section Finish
variable {s : State} {die : DieId} {h : Nat} {m : GMask} {g : Sgr} {bits : Option Nat}

theorem State.finishMask_mem : (s.finishMask die m g bits).mem = s.mem := by cases bits <;> rfl

theorem State.finishMask_die : (s.finishMask die m g bits).dies.get die =
    { (s.dies.get die).setSgr { g with fail := bits.isNone } with
      masks := (s.dies.get die).masks.eraseIdx ((s.dies.get die).masks.findIdx fun q => q.handle == m.handle) } := by
  cases bits <;> exact vget_set_same _ _ _

theorem State.finishMask_sgr (hg : (s.dies.get die).sgr? h = some g) :
    ((s.finishMask die m g bits).dies.get die).sgr? h = some { g with fail := bits.isNone } := by
  have hgh := Die.sgr?_handle hg
  rw [State.finishMask_die]
  exact Die.sgr?_setSgr (u := { g with fail := bits.isNone }) hg hgh

theorem State.finishMask_masks (hm : (s.dies.get die).masks.find? (fun q => q.handle == h) = some m) :
    ((s.finishMask die m g bits).dies.get die).masks.length + 1 = (s.dies.get die).masks.length := by
  rw [State.finishMask_die]
  exact length_eraseIdx_findIdx hm

theorem State.finishMask_core_ok (v : Nat) : (s.finishMask die m g (some v)).core m.core =
    { (s.core m.core).poolWrite m.off (natLe (maskBytes g.hdr) v) with
      comb := (s.core m.core).comb ++ [{ addr := m.bar, kind := .mask false }] } := by
  simp only [State.finishMask, State.combine, State.modCore, State.core_setCore]
  rfl

theorem State.finishMask_core_fail : (s.finishMask die m g none).core m.core =
    { s.core m.core with comb := (s.core m.core).comb ++ [{ addr := m.bar, kind := .mask true }] } := by
  simp only [State.finishMask, State.combine, State.modCore, State.core_setCore]
  rfl

end Finish

/-- A mask whose sequence and banks are at hand ends as its bits say. -/
theorem gmaskComplete_eq {s : State} {die : DieId} {h : Fin 16384} {m : GMask} {g : Sgr}
    (hm : (s.dies.get die).masks.find? (fun q => q.handle == h.val) = some m) (hg : (s.dies.get die).sgr? h.val = some g)
    (hopen : (s.core m.core).lockedFor none m.off (maskBytes g.hdr) = false) :
    exec (.gmaskComplete die h) s = match s.casMask (s.dies.get die) g with
      | none => .next s
      | some (.error .stop) => .fault .noSuchPhysical
      | some (.error (.fault _)) => .next (s.finishMask die m g none)
      | some (.ok v) => .next (s.finishMask die m g (some v)) := by
  change execGmaskComplete die h s = _
  simp only [execGmaskComplete, hm, hg, hopen]
  rfl

/-- Settles O31: both ends go through `finishMask`, and only a complete mask writes the pool. -/
theorem maskCompletion : Obligations.MaskCompletion := by
  unfold Obligations.MaskCompletion
  intro s die h m g d hm hg hopen hwf
  dsimp only
  have hexec := gmaskComplete_eq hm hg hopen
  refine ⟨fun v hv => ⟨s.finishMask die m g (some v), by rw [hexec, hv], ?_, ?_, ?_⟩,
    fun va hva => ⟨s.finishMask die m g none, by rw [hexec, hva], ?_, ?_⟩, fun hfin => if_pos hfin⟩
  · exact ⟨⟨_, State.finishMask_sgr hg, rfl, rfl, rfl⟩, by rw [State.finishMask_core_ok], State.finishMask_masks hm, State.finishMask_mem⟩
  · rw [State.finishMask_core_ok]
    simpa [Core.poolWrite] using memGets_memSets_same (a := m.off) (natLe (maskBytes g.hdr) v) hwf
  · intro x hx
    rw [State.finishMask_core_ok]
    exact memGet_memSets_other _ hwf (by rwa [length_natLe])
  · exact ⟨⟨_, State.finishMask_sgr hg, rfl, rfl, rfl⟩, by rw [State.finishMask_core_fail], State.finishMask_masks hm,
      State.finishMask_mem⟩
  · rw [State.finishMask_core_fail]

end Sys2Proof.Machine
end

section
/-! PROOFS. Discard of pages (R100, R194). -/

namespace Sys2Proof.Machine

/-! ### Memory of which a range is cleared -/

theorem memGet_filter {m : Memory} {lo : Nat} (p : Nat → Bool) (h : memWfFrom lo m = true) (x : Nat) :
    memGet (m.filter fun c => p c.1) x = if p x then memGet m x else Config.freshByte := by
  induction m generalizing lo with
  | nil => simp [memGet]
  | cons c rest ih =>
    obtain ⟨k, b⟩ := c
    have hrest : memWfFrom (k + 1) rest = true := by
      simp only [memWfFrom, Bool.and_eq_true] at h
      exact h.2
    have htail := ih hrest
    rw [List.filter_cons]
    rcases Nat.lt_trichotomy x k with hx | rfl | hx
    · have hbelow : memGet rest x = Config.freshByte := memGet_below hrest (by omega)
      by_cases hpk : p k <;> simp [memGet, hpk, hx, Nat.ne_of_lt hx, htail, hbelow]
    · have hbelow : memGet rest x = Config.freshByte := memGet_below hrest (by omega)
      by_cases hpx : p x <;> simp [memGet, hpx, htail]
    · by_cases hpk : p k <;> simp [memGet, hpk, Nat.ne_of_gt hx, Nat.not_lt.2 (Nat.le_of_lt hx), htail]

theorem memGet_memClear_inside {m : Memory} {a n x : Nat} (h : memWf m = true) (hx : a ≤ x ∧ x < a + n) : memGet (memClear m a n) x = 0 :=
  (memGet_filter (fun k => k < a || a + n ≤ k) h x).trans (if_neg (by simp; omega))

theorem memGet_memClear_outside {m : Memory} {a n x : Nat} (h : memWf m = true) (hx : ¬(a ≤ x ∧ x < a + n)) :
    memGet (memClear m a n) x = memGet m x :=
  (memGet_filter (fun k => k < a || a + n ≤ k) h x).trans (if_pos (by simp; omega))

/-- Where no store that an agent sees has a byte of a block, and its initial bytes are of no other key, the initial byte is read. -/
theorem Global.load_initial {m : Global} {sees : GStore → Bool} {key : Option MemKey} {q : Nat}
    (hkey : sameKey (m.keyAt (16 * (q / 16))) key = true) (hstores : ∀ g ∈ m.stores, sees g = true → g.meets (q / 16) = false) :
    m.load sees key q = memGet m.hbm q := by
  have hmixed : m.mixed sees key (q / 16) = false := by
    simp only [Global.mixed, hkey, Bool.not_true, Bool.false_or, List.any_eq_false]
    intro g hg
    by_cases hs : sees g = true
    · simp [hstores g hg hs]
    · simp [hs]
  have hbyte (g : GStore) (hg : g ∈ m.stores) (hs : sees g = true) : g.byteAt q = none := by
    have hmeets := hstores g hg hs
    rw [GStore.meets, List.any_eq_false] at hmeets
    have := hmeets (q % 16) (List.mem_range.2 (Nat.mod_lt _ (by decide)))
    rwa [Nat.div_add_mod, Bool.not_eq_true, Option.isSome_eq_false_iff, Option.isNone_iff_eq_none] at this
  have hheld (l : List GStore) (hl : ∀ g ∈ l, g ∈ m.stores) (b : Byte) :
      l.foldl (fun b g => if sees g then (g.byteAt q).getD b else b) b = b := by
    induction l with
    | nil => rfl
    | cons g l ih =>
      have hstep : (if sees g then (g.byteAt q).getD b else b) = b := by
        split
        · rw [hbyte g (hl g (by simp)) ‹_›, Option.getD_none]
        · rfl
      rw [List.foldl_cons, hstep]
      exact ih fun g hg => hl g (by simp [hg])
  rw [Global.load, hmixed, if_neg (by simp), Global.held, hheld _ fun _ h => h]

/-! ### The dead bit of a leaf -/

theorem readEntry_written {m : Memory} (h : memWf m = true) (at_ v : Nat) : readEntry (memSets m at_ (natLe 8 v)) at_ = v % 2 ^ 64 := by
  have hread := memGets_memSets_same (a := at_) (natLe 8 v) h
  rw [length_natLe] at hread
  rw [readEntry, hread, leNat_natLe, show 256 ^ 8 = 2 ^ 64 by norm_num]

/-- An entry whose dead bit is set says so. -/
theorem entryDead_set {m : Memory} (h : memWf m = true) (at_ : Nat) :
    entryDead (readEntry (memSets m at_ (natLe 8 (setField (readEntry m at_) 63 63 1))) at_) = true := by
  have hfield : field (setField (readEntry m at_) 63 63 1 % 2 ^ 64) 63 63 = 1 := by
    rw [field_mod_two_pow (by omega), field_setField_same (by omega)]
    rfl
  rw [readEntry_written h, entryDead, ebit]
  simpa [field] using hfield

/-! ### One page dead -/

/-- What the memory becomes where a page at a peer is emptied. -/
def State.memFarEmptied (s : State) (p : DeadPage) (peer : Nat) : Global :=
  { s.mem with
    remote := s.mem.remote.filter fun r => !(p.holds r && s.discards r.writer r.pubs)
    gets := s.mem.gets.map fun g => if g.peer = peer && p.pa ≤ g.pa && g.pa < p.pa + p.size then { g with stale := true } else g
    refusals := s.mem.refusals.filter fun r => !(r.peer == peer && p.pa ≤ r.pa && r.pa < p.pa + p.size) }

/-- A core without the lines of a page at a peer. -/
def Core.dropLines (peer pa size : Nat) (c : Core) : Core :=
  { c with lines := c.lines.filter fun l => !(l.peer == peer && pa ≤ l.pa && l.pa < pa + size) }

theorem Core.inner_dropLines (peer pa size : Nat) : Core.Inner (Core.dropLines peer pa size) :=
  ⟨fun _ _ _ => rfl, fun _ _ => rfl, fun _ => rfl, fun _ _ => rfl⟩

/-- A page emptied: its lines and stores, but for those that others have not published. -/
def State.emptied (s : State) (p : DeadPage) : State :=
  match p.peer with
  | some peer => (s.withMem (s.memFarEmptied p peer)).mapCores (Core.dropLines peer p.pa p.size)
  | none => s.withMem (s.mem.zeroPage (fun g => s.discards g.writer g.pubs) p.key p.pa p.size)

theorem State.killPage_eq (s : State) (p : DeadPage) : s.killPage p = if s.cur.role = .fw then s.emptied p
    else ((s.emptied p).withMem (p.keep (s.emptied p).mem)).setDead p.leaf.at_ 1 := by
  rw [State.killPage, State.emptied]
  cases p.peer <;> rfl

section Agree
variable {u s : State} (h : u.apart = s.apart)
include h

theorem State.discards_of_apart : u.discards = s.discards := by
  funext w pubs
  rw [State.discards.eq_def, State.discards.eq_def, State.coversMine_of_apart h]

theorem State.emptied_of_apart (p : DeadPage) : (u.emptied p).apart = (s.emptied p).apart := by
  rw [State.emptied, State.emptied]
  cases p.peer with
  | some peer =>
    dsimp only
    rw [State.memFarEmptied, State.discards_of_apart h, State.mem_of_apart h]
    exact State.mapCores_of_apart (State.withMem_of_apart h _) (Core.inner_dropLines ..)
  | none =>
    dsimp only
    rw [State.discards_of_apart h, State.mem_of_apart h]
    exact State.withMem_of_apart h _

theorem State.killPage_of_apart (p : DeadPage) : (u.killPage p).apart = (s.killPage p).apart := by
  have hempty := State.emptied_of_apart h p
  rw [State.killPage_eq, State.killPage_eq, State.cur_of_apart h, State.mem_of_apart hempty]
  split
  · exact hempty
  · exact State.setDead_of_apart (State.withMem_of_apart hempty _) ..

theorem State.discardPages_of_apart (lo hi va fuel : Nat) : u.discardPages lo hi va fuel = s.discardPages lo hi va fuel := by
  induction fuel generalizing va with
  | zero => rfl
  | succ fuel ih =>
    simp only [State.discardPages, State.access_of_apart h, State.cur_of_apart h, State.mem_of_apart h, ih]

theorem State.discardLeaves_of_apart (lo hi : Nat) : u.discardLeaves lo hi = s.discardLeaves lo hi := by
  rw [State.discardLeaves, State.discardPages_of_apart h]
  rfl

theorem State.putsOpen_of_apart : u.putsOpen = s.putsOpen := by
  funext p
  rw [State.putsOpen, State.mem_of_apart h]
  rfl

end Agree

/-! ### What a dead page leaves -/

section Leaves
variable {f : Core → Core}

theorem State.crew_mapCores (hcrew : ∀ c k, (f c).crew k = c.crew k) (s : State) : (s.mapCores f).crew = s.crew := by
  rw [State.crew, State.crewAt, State.core_mapCores]
  exact hcrew ..

theorem State.fw_mapCores (hfw : ∀ c, (f c).fw = c.fw) (s : State) : (s.mapCores f).here.fw = s.here.fw := by
  rw [State.here, State.core_mapCores]
  exact hfw _

theorem State.seq_mapCores (hcrew : ∀ c k, (f c).crew k = c.crew k) (hfw : ∀ c, (f c).fw = c.fw) (s : State) :
    (s.mapCores f).seq = s.seq := by
  rw [State.seq, State.crew_mapCores hcrew, State.fw_mapCores hfw]
  rfl

theorem State.keeps_mapCores (hcrew : ∀ c k, (f c).crew k = c.crew k) (hfw : ∀ c, (f c).fw = c.fw) (hpool : ∀ c, (f c).pool = c.pool)
    (s : State) : s.Keeps (s.mapCores f) := by
  refine ⟨fun r => ?_, fun r => ?_, fun c => by rw [State.core_mapCores, hpool]⟩
  · rw [State.getX, State.crew_mapCores hcrew, State.fw_mapCores hfw]
    rfl
  · rw [State.getF, State.crew_mapCores hcrew, State.fw_mapCores hfw]
    rfl

theorem State.emptied_keeps (s : State) (p : DeadPage) : s.Keeps (s.emptied p) := by
  rw [State.emptied]
  cases p.peer with
  | some peer =>
    exact State.keeps_mapCores (f := Core.dropLines peer p.pa p.size) (fun _ _ => rfl) (fun _ => rfl) (fun _ => rfl)
      (s.withMem (s.memFarEmptied p peer))
  | none => exact ⟨fun _ => rfl, fun _ => rfl, fun _ => rfl⟩

theorem State.emptied_seq (s : State) (p : DeadPage) : (s.emptied p).seq = s.seq := by
  rw [State.emptied]
  cases p.peer with
  | some peer =>
    exact State.seq_mapCores (f := Core.dropLines peer p.pa p.size) (fun _ _ => rfl) (fun _ => rfl)
      (s.withMem (s.memFarEmptied p peer))
  | none => rfl

theorem State.killPage_keeps (s : State) (p : DeadPage) : s.Keeps (s.killPage p) := by
  rw [State.killPage_eq]
  split
  · exact s.emptied_keeps p
  · exact (s.emptied_keeps p).trans (((s.emptied p).withMem _).setDead_agrees ..).unviewed.keeps

theorem State.killPage_seq (s : State) (p : DeadPage) : (s.killPage p).seq = s.seq := by
  rw [State.killPage_eq]
  split
  · exact s.emptied_seq p
  · exact (((s.emptied p).withMem _).setDead_agrees ..).unviewed.seq.trans (s.emptied_seq p)

theorem State.killPages_keep (l : List DeadPage) (s : State) :
    s.Keeps (l.foldl State.killPage s) ∧ (l.foldl State.killPage s).seq = s.seq := by
  induction l generalizing s with
  | nil => exact ⟨.refl s, rfl⟩
  | cons p l ih =>
    obtain ⟨hkeeps, hseq⟩ := ih (s.killPage p)
    exact ⟨(s.killPage_keeps p).trans hkeeps, hseq.trans (s.killPage_seq p)⟩

end Leaves

end Sys2Proof.Machine
end

section
/-! PROOFS. The word `discard` (R100, R194). -/

namespace Sys2Proof.Machine

/-! ### The pages of a range -/

section Pages
variable {s : State} {lo hi fuel : Nat} (hne : lo < hi)
include hne

theorem State.discardPages_fault {c : BitVec 8} (ht : s.translateHere lo .write = .fault c) :
    s.discardPages lo hi lo (fuel + 1) = .error (xlatTrap c lo .write) := by
  simp only [State.discardPages, if_neg (Nat.not_le.2 hne), ht]

variable {x : Xlat} (ht : s.translateHere lo .write = .ok x) (hgood : s.mem.bad x.leaf2.at_ 8 = false)
include ht hgood

theorem State.discardPages_partly (hsize : hi < lo + x.size) :
    s.discardPages lo hi lo (fuel + 1) = .error (trapAt codeAlign lo) := by
  have hout : lo / x.size * x.size < lo ∨ hi < lo / x.size * x.size + x.size := by
    have := Nat.div_mul_le_self lo x.size
    omega
  simp only [State.discardPages, if_neg (Nat.not_le.2 hne), ht, hgood]
  simp [hout]

/-- A range of one whole page. -/
theorem State.discardPages_one (hsize : lo + x.size = hi) (hlo : lo % x.size = 0) :
    s.discardPages lo hi lo 1 = .ok [{ x with pa := x.pa / x.size * x.size }] := by
  have hfirst : lo / x.size * x.size = lo := Nat.div_mul_cancel (Nat.dvd_of_mod_eq_zero hlo)
  simp only [State.discardPages, if_neg (Nat.not_le.2 hne), ht, hgood, hfirst, hsize]
  simp

end Pages

/-- The dead page that one translated page of 65,536 bytes is. -/
def Xlat.deadPage (x : Xlat) : DeadPage := { leaf := x.leaf2, key := x.key, pa := x.pa, size := 65536 }

theorem Leaf.size_last {l : Leaf} (h : l.level = 4) : l.size = 65536 := by simp [Leaf.size, h, levelShift]

theorem State.discardLeaves_error {s : State} {lo hi : Nat} {t : TrapReq} (h : s.discardPages lo hi lo ((hi - lo) / 65536) = .error t) :
    s.discardLeaves lo hi = .error t := by
  rw [State.discardLeaves, h]

theorem State.discardLeaves_one {s : State} {lo : Nat} {x : Xlat} (ht : s.translateHere lo .write = .ok x)
    (hgood : s.mem.bad x.leaf2.at_ 8 = false) (hlevel : x.leaf2.level = 4) (hsize : x.size = 65536) (hpa : x.pa % 65536 = 0)
    (hlo : lo % 65536 = 0) : s.discardLeaves lo (lo + 65536) = .ok [x.deadPage] := by
  have hone := State.discardPages_one (s := s) (lo := lo) (hi := lo + 65536) (by omega) ht hgood (by rw [hsize]) (by rwa [hsize])
  have hfirst : x.pa / 65536 * 65536 = x.pa := Nat.div_mul_cancel (Nat.dvd_of_mod_eq_zero hpa)
  rw [State.discardLeaves, show (lo + 65536 - lo) / 65536 = 1 by omega, hone]
  simp [Leaf.size_last hlevel, hsize, hfirst, Xlat.deadPage]

/-! ### The word -/

/-- The effect of `discard`. -/
def State.discardEffect (ra rb : XReg) (s : State) : Res :=
  let a := (s.getX ra).toNat
  let n := (s.getX rb).toNat
  if 16 ≤ (s.crew.outstanding .x).length && !(s.cur.role = .fw) then .block .other id
  else if n = 0 then .done s
  else if a % 65536 ≠ 0 then .trap (trapAt codeAlign a)
  else if n % 65536 ≠ 0 then .trap (trapAt codeAlign a)
  else if 2 ^ 48 < a + n then .trap (xlatTrap codePageNp a .write)
  else match s.discardLeaves a (a + n) with
    | .error t => .trap t
    | .ok l => if l.any s.putsOpen then .block .other id else .done (l.foldl State.killPage s)

theorem discard_eq (tk : Tok) (ra rb : XReg) (s : State) :
    exec (.discard tk ra rb) s = runWord tk [refX ra, refX rb] s (State.discardEffect ra rb) := rfl

/-- A word's effect as the state before it gives it, apart from issue. -/
theorem State.discardEffect_popped {s : State} (ra rb : XReg) (k : Pops) (hroom : (s.crew.outstanding .x).length < 16) :
    State.discardEffect ra rb (s.doPops k) =
      if (s.getX rb).toNat = 0 then .done (s.doPops k)
      else if (s.getX ra).toNat % 65536 ≠ 0 then .trap (trapAt codeAlign (s.getX ra).toNat)
      else if (s.getX rb).toNat % 65536 ≠ 0 then .trap (trapAt codeAlign (s.getX ra).toNat)
      else if 2 ^ 48 < (s.getX ra).toNat + (s.getX rb).toNat then .trap (xlatTrap codePageNp (s.getX ra).toNat .write)
      else match s.discardLeaves (s.getX ra).toNat ((s.getX ra).toNat + (s.getX rb).toNat) with
        | .error t => .trap t
        | .ok l => if l.any s.putsOpen then .block .other id else .done (l.foldl State.killPage (s.doPops k)) := by
  have hpops := s.apart_doPops k
  rw [State.discardEffect]
  simp only [State.getX_doPops, State.outstanding_of_apart hpops, State.discardLeaves_of_apart hpops, State.putsOpen_of_apart hpops]
  rw [if_neg (by simp; omega)]

section Word
variable {s : State} {tk : Tok} {ra rb : XReg} (h : s.Clear tk) (hroom : (s.crew.outstanding .x).length < 16)
include h hroom

theorem discard_none (hn : (s.getX rb).toNat = 0) : Runs (.discard tk ra rb) s s := by
  rw [Runs, discard_eq]
  refine runWord_reaches h ?_ rfl (s.apart_doPops _)
  rw [State.discardEffect_popped ra rb _ hroom, if_pos hn]

variable (hn : 0 < (s.getX rb).toNat)
include hn

theorem discard_misaligned (ha : (s.getX ra).toNat % 65536 ≠ 0) :
    Traps (.discard tk ra rb) s { code := 0x08, info := 0, addr := s.getX ra } := by
  refine (discard_eq ..).trans (runWord_trap h.toIssues ?_)
  rw [State.discardEffect_popped ra rb _ hroom, if_neg (by omega), if_pos ha, trapAt, BitVec.ofNat_toNat]
  simp [codeAlign]

variable (ha : (s.getX ra).toNat % 65536 = 0)
include ha

theorem discard_partly (hm : (s.getX rb).toNat % 65536 ≠ 0) :
    Traps (.discard tk ra rb) s { code := 0x08, info := 0, addr := s.getX ra } := by
  refine (discard_eq ..).trans (runWord_trap h.toIssues ?_)
  rw [State.discardEffect_popped ra rb _ hroom, if_neg (by omega), if_neg (by omega), if_pos hm, trapAt, BitVec.ofNat_toNat]
  simp [codeAlign]

variable (hm : (s.getX rb).toNat % 65536 = 0)
include hm

theorem discard_beyond (hend : 2 ^ 48 < (s.getX ra).toNat + (s.getX rb).toNat) :
    Traps (.discard tk ra rb) s { code := 0x10, info := 1, addr := s.getX ra } := by
  refine (discard_eq ..).trans (runWord_trap h.toIssues ?_)
  rw [State.discardEffect_popped ra rb _ hroom, if_neg (by omega), if_neg (by omega), if_neg (by omega), if_pos hend, xlatTrap,
    BitVec.ofNat_toNat]
  simp [codePageNp, Access.num]

variable (hend : (s.getX ra).toNat + (s.getX rb).toNat ≤ 2 ^ 48)
include hend

theorem discard_pageTraps {t : TrapReq} (hl : s.discardLeaves (s.getX ra).toNat ((s.getX ra).toNat + (s.getX rb).toNat) = .error t) :
    Traps (.discard tk ra rb) s t := by
  refine (discard_eq ..).trans (runWord_trap h.toIssues ?_)
  rw [State.discardEffect_popped ra rb _ hroom, if_neg (by omega), if_neg (by omega), if_neg (by omega), if_neg (by omega), hl]

/-- The pages of a range of bytes are not none. -/
theorem discard_firstTraps {t : TrapReq} (hp : ∀ fuel, s.discardPages (s.getX ra).toNat ((s.getX ra).toNat + (s.getX rb).toNat)
    (s.getX ra).toNat (fuel + 1) = .error t) : Traps (.discard tk ra rb) s t := by
  obtain ⟨k, hk⟩ := Nat.exists_eq_add_of_lt (show 0 < (s.getX rb).toNat / 65536 by omega)
  refine discard_pageTraps h hroom hn ha hm hend (State.discardLeaves_error ?_)
  rw [Nat.add_sub_cancel_left, hk, Nat.zero_add]
  exact hp k

theorem discard_faults {c : BitVec 8} (ht : s.translateHere (s.getX ra).toNat .write = .fault c) :
    Traps (.discard tk ra rb) s { code := c, info := 1, addr := s.getX ra } := by
  refine discard_firstTraps h hroom hn ha hm hend fun fuel => ?_
  rw [State.discardPages_fault (by omega) ht, xlatTrap, BitVec.ofNat_toNat]
  simp [Access.num]

theorem discard_larger {x : Xlat} (ht : s.translateHere (s.getX ra).toNat .write = .ok x) (hgood : s.mem.bad x.leaf2.at_ 8 = false)
    (hsize : (s.getX rb).toNat < x.size) : Traps (.discard tk ra rb) s { code := 0x08, info := 0, addr := s.getX ra } := by
  refine discard_firstTraps h hroom hn ha hm hend fun fuel => ?_
  rw [State.discardPages_partly (by omega) ht hgood (by omega), trapAt, BitVec.ofNat_toNat]
  simp [codeAlign]

variable {l : List DeadPage} (hl : s.discardLeaves (s.getX ra).toNat ((s.getX ra).toNat + (s.getX rb).toNat) = .ok l)
include hl

theorem discard_waits (hopen : l.any s.putsOpen = true) : Waits (.discard tk ra rb) s := by
  rw [Waits, Answers, discard_eq]
  refine runWord_waits (note := id) (k := .other) h.toIssues ?_ rfl
  rw [State.discardEffect_popped ra rb _ hroom, if_neg (by omega), if_neg (by omega), if_neg (by omega), if_neg (by omega), hl]
  exact if_pos hopen

/-- Once no put is unanswered every page is dead, with registers and pools as they were. -/
theorem discard_kills (hopen : l.any s.putsOpen = false) : Answers (.discard tk ra rb) s fun u =>
    u.apart = (l.foldl State.killPage s).apart ∧ (∀ r, u.getX r = s.getX r) ∧ (∀ c, (u.core c).pool = (s.core c).pool)
      ∧ (s.inLine → u.pc = s.pc + 4) := by
  obtain ⟨hkeeps, hseq⟩ := State.killPages_keep l (s.doPops (popsOf tk))
  have heffect : State.discardEffect ra rb (s.doPops (popsOf tk)) = .done (l.foldl State.killPage (s.doPops (popsOf tk))) := by
    rw [State.discardEffect_popped ra rb _ hroom, if_neg (by omega), if_neg (by omega), if_neg (by omega), if_neg (by omega), hl]
    exact if_neg (by simp [hopen])
  obtain ⟨u, hu, hua, hpc⟩ := runWord_done (reads := [refX ra, refX rb]) h heffect (congrArg Seq.loops hseq)
  obtain ⟨hregs, -, hpool⟩ := ((State.keeps_of_apart (s.apart_doPops (popsOf tk))).trans hkeeps).trans (State.keeps_of_apart hua)
  refine ⟨u, by rw [discard_eq, hu], hua.trans ?_, hregs, hpool, hpc⟩
  exact foldl_of_apart (fun _ _ p hp => State.killPage_of_apart hp p) l (s.apart_doPops _)

end Word

/-! ### One page of a crew's context -/

section One
variable {s : State} {x : Xlat}

theorem Xlat.deadPage_peer_local (hrem : entryRem x.leaf2.entry = false) : x.deadPage.peer = none := by
  simp [Xlat.deadPage, DeadPage.peer, hrem]

theorem Xlat.deadPage_peer_far (hrem : entryRem x.leaf2.entry = true) : x.deadPage.peer = some (entryKey x.leaf2.entry) := by
  simp [Xlat.deadPage, DeadPage.peer, hrem]

theorem Xlat.deadPage_holds_far (hrem : entryRem x.leaf2.entry = true) (r : RemoteStore) :
    x.deadPage.holds r = true ↔ r.peer = entryKey x.leaf2.entry ∧ x.pa ≤ r.pa ∧ r.pa < x.pa + 65536 := by
  rw [DeadPage.holds, Xlat.deadPage_peer_far hrem]
  simp only [Xlat.deadPage, Bool.and_eq_true, beq_iff_eq, Option.some.injEq, and_assoc]
  exact and_congr eq_comm (and_congr decide_eq_true_iff decide_eq_true_iff)

theorem State.putsOpen_local (hrem : entryRem x.leaf2.entry = false) : s.putsOpen x.deadPage = false := by
  simp [State.putsOpen, DeadPage.holds, Xlat.deadPage_peer_local hrem]

theorem State.putsOpen_answered (hrem : entryRem x.leaf2.entry = true)
    (hdone : ∀ r ∈ s.mem.remote, r.peer = entryKey x.leaf2.entry ∧ (x.pa ≤ r.pa ∧ r.pa < x.pa + 65536) →
      r.put = none ∨ r.acked ≠ none ∨ r.refused = true) : s.putsOpen x.deadPage = false := by
  rw [State.putsOpen, List.any_eq_false]
  intro r hr hopen
  simp only [Bool.and_eq_true, Xlat.deadPage_holds_far hrem, RemoteStore.open_] at hopen
  obtain ⟨⟨⟨hholds, hput⟩, hack⟩, href⟩ := hopen
  rcases hdone r hr hholds with h | h | h <;> simp_all

/-- What the memory is once one page of a crew's context is dead. -/
theorem State.killPage_mem (hr : s.cur.role ≠ .fw) (p : DeadPage) : (s.killPage p).mem =
    { p.keep (s.emptied p).mem with
      hbm := memSets (s.emptied p).mem.hbm p.leaf.at_ (natLe 8 (setField (readEntry (s.emptied p).mem.hbm p.leaf.at_) 63 63 1)) } := by
  rw [State.killPage_eq, if_neg hr]
  rfl

theorem State.emptied_mem_local {p : DeadPage} (hp : p.peer = none) :
    (s.emptied p).mem = s.mem.zeroPage (fun g => s.discards g.writer g.pubs) p.key p.pa p.size := by
  rw [State.emptied, hp]
  rfl

theorem State.emptied_mem_far {p : DeadPage} {peer : Nat} (hp : p.peer = some peer) : (s.emptied p).mem = s.memFarEmptied p peer := by
  rw [State.emptied, hp]
  rfl

theorem State.killPage_lines (hr : s.cur.role ≠ .fw) {p : DeadPage} {peer : Nat} (hp : p.peer = some peer) (c : CoreId) :
    ((s.killPage p).core c).lines = (s.core c).lines.filter fun l => !(l.peer == peer && p.pa ≤ l.pa && l.pa < p.pa + p.size) := by
  have hset := (((s.emptied p).withMem (p.keep (s.emptied p).mem)).setDead_agrees p.leaf.at_ 1).unviewed.read Core.lines (fun _ => rfl) c
  have hempty : ((s.emptied p).core c).lines = (Core.dropLines peer p.pa p.size (s.core c)).lines := by
    rw [State.emptied, hp]
    exact congrArg Core.lines (State.core_mapCores (s.withMem (s.memFarEmptied p peer)) _ c)
  rw [State.killPage_eq, if_neg hr, hset]
  exact hempty

end One

/-! ### What a dead local page reads -/

section Local
variable {s : State} {p : DeadPage} (hr : s.cur.role ≠ .fw) (hp : p.peer = none) (hwf : memWf s.mem.hbm = true)
include hr hp

theorem State.killPage_dead (hwf : memWf s.mem.hbm = true) : entryDead (readEntry (s.killPage p).mem.hbm p.leaf.at_) = true := by
  rw [State.killPage_mem hr, State.emptied_mem_local hp]
  exact entryDead_set (memWf_memClear _ _ hwf) _

theorem State.killPage_stores : (s.killPage p).mem.stores =
    (s.mem.stores.filter fun g => !(p.pa ≤ g.pa && g.pa < p.pa + p.size && s.discards g.writer g.pubs)).map fun g =>
      if p.pa ≤ g.pa && g.pa < p.pa + p.size then { g with under := some (p.leaf.at_, p.size) } else g := by
  rw [State.killPage_mem hr, State.emptied_mem_local hp]
  simp only [DeadPage.keep, hp, Option.isNone_none, Bool.true_and]
  rfl

/-- What is on the page is under it, and what is not is as it was. -/
theorem State.mem_killPage_stores {g : GStore} (hg : g ∈ (s.killPage p).mem.stores) :
    (p.pa ≤ g.pa ∧ g.pa < p.pa + p.size ∧ g.under ≠ none) ∨ (¬(p.pa ≤ g.pa ∧ g.pa < p.pa + p.size) ∧ g ∈ s.mem.stores) := by
  rw [State.killPage_stores hr hp, List.mem_map] at hg
  obtain ⟨k, hk, rfl⟩ := hg
  by_cases hin : p.pa ≤ k.pa ∧ k.pa < p.pa + p.size
  · left
    simp [hin]
  · right
    simp [hin, (List.mem_filter.1 hk).1]

theorem State.killPage_elsewhere {g : GStore} (hout : ¬(p.pa ≤ g.pa ∧ g.pa < p.pa + p.size)) :
    g ∈ (s.killPage p).mem.stores ↔ g ∈ s.mem.stores := by
  refine ⟨fun hg => ?_, fun hg => ?_⟩
  · rcases State.mem_killPage_stores hr hp hg with ⟨hlo, hhi, -⟩ | ⟨-, hs⟩
    · exact absurd ⟨hlo, hhi⟩ hout
    · exact hs
  · rw [State.killPage_stores hr hp, List.mem_map]
    exact ⟨g, List.mem_filter.2 ⟨hg, by simp; grind⟩, if_neg (by simpa using hout)⟩

include hwf

theorem State.killPage_hbm {q : Nat} (hentry : ¬(p.leaf.at_ ≤ q ∧ q < p.leaf.at_ + 8)) :
    memGet (s.killPage p).mem.hbm q = memGet (memClear s.mem.hbm p.pa p.size) q := by
  rw [State.killPage_mem hr, State.emptied_mem_local hp]
  exact memGet_memSets_other _ (memWf_memClear _ _ hwf) (by rw [length_natLe]; omega)

/-- Every agent reads zeros of the page: what was stored there is under it, and what is stored elsewhere has no byte there. -/
theorem State.killPage_reads {q : Nat} (hdead : p.pa ≤ q ∧ q < p.pa + p.size) (hentry : ∀ q, p.pa ≤ q ∧ q < p.pa + p.size →
    ¬(p.leaf.at_ ≤ q ∧ q < p.leaf.at_ + 8)) (hlo : p.pa % 16 = 0) (hhi : p.size % 16 = 0)
    (hwithin : ∀ g ∈ s.mem.stores, ∀ q, g.byteAt q ≠ none → p.pa ≤ q ∧ q < p.pa + p.size → p.pa ≤ g.pa ∧ g.pa < p.pa + p.size)
    {sees : GStore → Bool} (hsees : ∀ g, sees g = true → g.under = none) : (s.killPage p).mem.load sees p.key q = 0 := by
  have hkeyed : (s.killPage p).mem.keyed = (s.mem.setKey p.pa p.size p.key).keyed := by
    rw [State.killPage_mem hr, State.emptied_mem_local hp]
    rfl
  rw [Global.load_initial, State.killPage_hbm hr hp hwf (hentry q hdead), memGet_memClear_inside hwf hdead]
  · rw [Global.keyAt, hkeyed, Global.setKey.eq_def]
    have hblock : p.pa ≤ 16 * (q / 16) ∧ 16 * (q / 16) < p.pa + p.size := by omega
    cases p.key with
    | none => simp [sameKey]
    | some k => simp [sameKey, hblock]
  · intro g hg hs
    rcases State.mem_killPage_stores hr hp hg with ⟨-, -, hunder⟩ | ⟨hout, hold⟩
    · exact absurd (hsees g hs) hunder
    · rw [GStore.meets, List.any_eq_false]
      intro i hi hbyte
      have hlt := List.mem_range.1 hi
      refine hout (hwithin g hold (16 * (q / 16) + i) (fun hno => by simp [hno] at hbyte) ?_)
      omega

end Local

/-! ### What a dead page at a peer leaves -/

section Far
variable {s : State} {p : DeadPage} {peer : Nat} (hr : s.cur.role ≠ .fw) (hp : p.peer = some peer)
include hr hp

theorem State.killPage_far_hbm : (s.killPage p).mem.hbm =
    memSets s.mem.hbm p.leaf.at_ (natLe 8 (setField (readEntry s.mem.hbm p.leaf.at_) 63 63 1)) := by
  rw [State.killPage_mem hr, State.emptied_mem_far hp]
  rfl

theorem State.killPage_far_stores : (s.killPage p).mem.stores = s.mem.stores := by
  rw [State.killPage_mem hr, State.emptied_mem_far hp]
  simp only [DeadPage.keep, hp]
  exact List.map_id' _

/-- What is left of the stores to the page is under it, and another's. -/
theorem State.killPage_far_remote {r : RemoteStore} (hmem : r ∈ (s.killPage p).mem.remote) (hon : p.holds r = true) :
    r.under ≠ none ∧ s.coversMine r.writer = false := by
  rw [State.killPage_mem hr, State.emptied_mem_far hp] at hmem
  obtain ⟨k, hk, rfl⟩ := List.mem_map.1 hmem
  have hk2 := (List.mem_filter.1 hk).2
  by_cases hold : p.holds k = true
  · have hno : s.discards k.writer k.pubs = false := by simpa [hold] using hk2
    rw [State.discards.eq_def, Bool.or_assoc, Bool.or_eq_false_iff] at hno
    rw [if_pos hold]
    exact ⟨by simp, hno.1⟩
  · rw [if_neg hold] at hon
    exact absurd hon hold

end Far

/-- Settles O26: the word's checks in order, and what `killPage` leaves of the memory of a page here and at a peer. -/
theorem discard : Obligations.Discard := by
  unfold Obligations.Discard
  intro s tk ra rb h hroom
  dsimp only
  refine ⟨discard_none h hroom, fun hn ha => discard_misaligned h hroom hn ha, fun hn ha hm => discard_partly h hroom hn ha hm,
    fun hn ha hm => ⟨fun hend => discard_beyond h hroom hn ha hm hend, fun hend =>
      ⟨fun c ht => discard_faults h hroom hn ha hm hend ht, fun x ht hgood hsize => discard_larger h hroom hn ha hm hend ht hgood hsize,
        fun t hl => discard_pageTraps h hroom hn ha hm hend hl, fun l hl =>
          ⟨discard_waits h hroom hn ha hm hend hl, discard_kills h hroom hn ha hm hend hl⟩⟩⟩, ?_⟩
  intro x hr ha hn hend ht hlevel hsize hpa hgood
  have hleaves : s.discardLeaves (s.getX ra).toNat ((s.getX ra).toNat + (s.getX rb).toNat) = .ok [x.deadPage] := by
    rw [hn]
    exact State.discardLeaves_one ht hgood hlevel hsize hpa ha
  have hkills (hopen : s.putsOpen x.deadPage = false) :=
    discard_kills h hroom (by omega) ha (by omega) hend hleaves (by simp [hopen])
  refine ⟨fun hrem hwf hentry hwithin => (hkills (State.putsOpen_local hrem)).imp ?_,
    fun hrem hwf hdone => (hkills (State.putsOpen_answered hrem hdone)).imp ?_⟩
  · rintro u ⟨hu, hrest⟩
    have hp := Xlat.deadPage_peer_local hrem
    rw [List.foldl_cons, List.foldl_nil] at hu
    rw [State.mem_of_apart hu]
    refine ⟨⟨State.killPage_dead hr hp hwf, fun core crew role q hq => ?_, fun g => State.killPage_elsewhere hr hp,
      fun q hq hqe => (State.killPage_hbm hr hp hwf hqe).trans (memGet_memClear_outside hwf hq)⟩, hrest⟩
    exact State.killPage_reads hr hp hwf hq hentry (by simp only [Xlat.deadPage]; omega) (by simp [Xlat.deadPage])
      (fun g hg q hb hin => (hwithin g hg q hb).1 hin)
      fun g hs => by simpa using (Bool.and_eq_true_iff.1 hs).1
  · rintro u ⟨hu, hrest⟩
    have hp := Xlat.deadPage_peer_far hrem
    rw [List.foldl_cons, List.foldl_nil] at hu
    rw [State.mem_of_apart hu]
    refine ⟨⟨?_, fun r hmem hon => State.killPage_far_remote hr hp hmem ((Xlat.deadPage_holds_far hrem r).2 hon), fun c l hl hthere => ?_,
      State.killPage_far_stores hr hp, fun q hq => ?_⟩, hrest⟩
    · rw [State.killPage_far_hbm hr hp]
      exact entryDead_set hwf _
    · rw [State.readCore_of_apart Core.lines (fun _ _ _ => rfl) (fun _ _ => rfl) hu, State.killPage_lines hr hp] at hl
      have hgone := (List.mem_filter.1 hl).2
      simp [hthere, Xlat.deadPage] at hgone
    · rw [State.killPage_far_hbm hr hp]
      exact memGet_memSets_other _ hwf (by rw [length_natLe]; simp only [Xlat.deadPage]; omega)

end Sys2Proof.Machine
end

section
/-! PROOFS. What the periods do, where an object is uncorrectable (R96, R303). -/

namespace Sys2Proof.Machine

/-- An object that became uncorrectable after its operations had reached it is not updated, unless a `binit` is among them (log 57). -/
theorem Core.updateObject_bad {c : Core} {place : Nat} (hbad : c.poolBad place 16 = true)
    (hinit : (c.comb.filter fun o => o.addr == place).all (fun o => !o.kind.isInit) = true) (clock : Nat) (news : List BarNews) :
    Core.updateObject clock (c, news) place =
      ({ c with comb := c.comb.filter fun o => !(o.addr == place), settled := place :: c.settled }, news) := by
  have hnone : ((c.comb.filter fun o => o.addr == place).map fun o => o.kind).any CombKind.isInit = false := by
    rw [List.any_map, List.any_eq_false]
    exact fun o ho => by simpa using List.all_eq_true.1 hinit o ho
  exact if_pos (by rw [hbad, hnone]; rfl)

/-- A state in which one arrival has reached the object at 0 of core 0, whose first word has become uncorrectable since. -/
def spoiledArrival : State :=
  State.reset.modCore 0 fun c => { c with comb := [{ addr := 0, kind := .arrive }], badPool := [0] }

theorem spoiledArrival_core : spoiledArrival.core 0 = { Core.reset with comb := [{ addr := 0, kind := .arrive }], badPool := [0] } :=
  (State.core_setCore ..).trans (by rw [State.core_reset])

/-- The combine port takes the arrival and leaves the object as it was. -/
theorem spoiledArrival_combined : (spoiledArrival.combineCore 0).core 0 = { Core.reset with settled := [0], badPool := [0] } := by
  have hdue : (spoiledArrival.core 0).dueObjects = [0] := by rw [spoiledArrival_core]; rfl
  have hupdate := Core.updateObject_bad (c := spoiledArrival.core 0) (place := 0) (by rw [spoiledArrival_core]; rfl)
    (by rw [spoiledArrival_core]; rfl) spoiledArrival.cycle []
  rw [State.combineCore, hdue, List.foldl_cons, List.foldl_nil, hupdate, List.foldl_nil, State.core_setCore, spoiledArrival_core]
  rfl

/-- Refutes O47: the combine port's update of an object that is uncorrectable does not happen (log 57), which the statement's first
clause does not except. In `spoiledArrival` the object stays 0, and the update would make its `pending` 2^32 - 1. -/
theorem not_periods : ¬ Obligations.Periods := by
  unfold Obligations.Periods
  rintro ⟨hcombine, -⟩
  have hcore := spoiledArrival_core
  obtain ⟨u, hu, -, hobj, -⟩ := hcombine spoiledArrival 0 0 [.arrive] (by rw [hcore]; rfl) (by simp) (by rw [hcore]; simp [Core.reset])
    (by rw [hcore]; rfl)
  obtain rfl : spoiledArrival.combineCore 0 = u := Host.Outcome.next.inj hu
  rw [spoiledArrival_combined, hcore] at hobj
  exact absurd hobj (by decide)

end Sys2Proof.Machine
end

section
/-! PROOFS. The order of floating values, and the sampler's draw (R123, R241). -/

namespace Sys2Proof.Machine

/-! ### The order of floating values (R23) -/

/-- Neither NaN nor of denominator 0. -/
def FV.Proper : FV → Prop
  | .nan => False
  | .inf _ => True
  | .num _ _ d _ => 0 < d

/-- A value's place in the order, the infinities at its ends. -/
def FV.rank : FV → WithBot (WithTop ℚ)
  | .nan | .inf true => ⊥
  | .inf false => ((⊤ : WithTop ℚ) : WithBot (WithTop ℚ))
  | .num s n d e => (((if s then -(n / d * 2 ^ e) else n / d * 2 ^ e : ℚ) : WithTop ℚ) : WithBot (WithTop ℚ))

/-- A factor of the common scale that `FV.lt` compares at. -/
theorem pow2_mul_zpow {e m : Int} (h : m ≤ e) : (pow2 (e - m) : ℚ) * 2 ^ m = 2 ^ e := by
  obtain ⟨k, hk⟩ := Int.eq_ofNat_of_zero_le (Int.sub_nonneg.2 h)
  rw [pow2, hk, Int.toNat_natCast, Nat.cast_pow, ← zpow_natCast, Nat.cast_ofNat, ← zpow_add₀ (by norm_num)]
  congr 1
  omega

theorem FV.lt_num_iff {s s' : Bool} {n d n' d' : Nat} {e e' : Int} (hd : 0 < d) (hd' : 0 < d') :
    FV.lt (.num s n d e) (.num s' n' d' e') = true ↔
      (if s then -(n / d * 2 ^ e) else n / d * 2 ^ e : ℚ) < (if s' then -(n' / d' * 2 ^ e') else n' / d' * 2 ^ e' : ℚ) := by
  have hd0 : (0 : ℚ) < d := by exact_mod_cast hd
  have hd0' : (0 : ℚ) < d' := by exact_mod_cast hd'
  generalize hm : (if e ≤ e' then e else e') = m
  have hle : m ≤ e ∧ m ≤ e' := by split at hm <;> omega
  have hscale : (0 : ℚ) < 2 ^ m / (d * d') := by positivity
  have hleft : (n : ℚ) / d * 2 ^ e = ((n * d' * pow2 (e - m) : Nat) : ℚ) * (2 ^ m / (d * d')) := by
    push_cast
    rw [← pow2_mul_zpow hle.1]
    field_simp
  have hright : (n' : ℚ) / d' * 2 ^ e' = ((n' * d * pow2 (e' - m) : Nat) : ℚ) * (2 ^ m / (d * d')) := by
    push_cast
    rw [← pow2_mul_zpow hle.2]
    field_simp
  have hsigned (b : Bool) (k : Nat) : (if b then -((k : ℚ) * (2 ^ m / (d * d'))) else (k : ℚ) * (2 ^ m / (d * d')))
      = ((if b then -(k : Int) else (k : Int) : Int) : ℚ) * (2 ^ m / (d * d')) := by
    cases b <;> simp
  rw [hleft, hright, hsigned, hsigned, mul_lt_mul_iff_left₀ hscale, Int.cast_lt]
  simp only [FV.lt, hm, decide_eq_true_eq]

/-- On proper values `FV.lt` is the order of ranks. -/
theorem FV.lt_iff_rank {x y : FV} (hx : x.Proper) (hy : y.Proper) : x.lt y = true ↔ x.rank < y.rank := by
  match x, y, hx, hy with
  | .inf a, .inf b, _, _ => cases a <;> cases b <;> simp [FV.lt, FV.rank]
  | .inf a, .num .., _, _ => cases a <;> simp [FV.lt, FV.rank]
  | .num .., .inf true, _, _ => simp [FV.lt, FV.rank]
  | .num .., .inf false, _, _ => exact ⟨fun _ => WithBot.coe_lt_coe.2 (WithTop.coe_lt_top _), fun _ => rfl⟩
  | .num .., .num .., hd, hd' => rw [FV.lt_num_iff hd hd', FV.rank, FV.rank, WithBot.coe_lt_coe, WithTop.coe_lt_coe]

theorem FV.proper_inf (s : Bool) : (FV.inf s).Proper := trivial

theorem FV.Proper.not_nan {x : FV} (h : x.Proper) : x.isNan = false :=
  match x, h with
  | .inf _, _ | .num .., _ => rfl

theorem FV.eqv_iff_rank {x y : FV} (hx : x.Proper) (hy : y.Proper) : x.eqv y = true ↔ x.rank = y.rank := by
  have hxy := FV.lt_iff_rank hx hy
  have hyx := FV.lt_iff_rank hy hx
  simp only [FV.eqv, hx.not_nan, hy.not_nan, Bool.not_false, Bool.true_and, Bool.and_eq_true, Bool.not_eq_true', ← Bool.not_eq_true,
    hxy, hyx, not_lt]
  exact ⟨fun h => le_antisymm h.2 h.1, fun h => ⟨h.ge, h.le⟩⟩

/-- A code decodes to a proper value, or to NaN. -/
theorem decodeFloat_proper {t c : Nat} (h : (decodeFloat t c).isNan = false) : (decodeFloat t c).Proper := by
  unfold decodeFloat at h ⊢
  dsimp only at h ⊢
  split_ifs at h ⊢ <;> simp_all [FV.Proper, FV.isNan]

/-! ### The greatest of a list of candidates (R123) -/

/-- The value of a candidate. -/
def candValue (c : Nat × Nat) : FV := decodeFloat 0 c.1

/-- No candidate that is no NaN is above `b`, and of those equal to it `b` is the lowest. -/
def Tops (b c : Nat × Nat) : Prop :=
  (candValue c).isNan = false → (candValue b).lt (candValue c) = false ∧ ((candValue b).eqv (candValue c) = true → b.2 ≤ c.2)

theorem tops_iff {b c : Nat × Nat} (hb : (candValue b).isNan = false) : Tops b c ↔
    ((candValue c).isNan = false → (candValue c).rank ≤ (candValue b).rank ∧ ((candValue b).rank = (candValue c).rank → b.2 ≤ c.2)) := by
  refine forall_congr' fun hc => ?_
  have hpb := decodeFloat_proper hb
  have hpc := decodeFloat_proper hc
  rw [← Bool.not_eq_true, candValue, candValue, FV.lt_iff_rank hpb hpc, FV.eqv_iff_rank hpb hpc, not_lt]

/-- A candidate above one that is no NaN is no NaN, and greater or of a lower token. -/
theorem aboveCand_iff {b c : Nat × Nat} (hb : (candValue b).isNan = false) : aboveCand c b = true ↔ (candValue c).isNan = false
    ∧ ((candValue b).rank < (candValue c).rank ∨ ((candValue c).rank = (candValue b).rank ∧ c.2 < b.2)) := by
  have hb' : (decodeFloat 0 b.1).isNan = false := hb
  by_cases hc : (decodeFloat 0 c.1).isNan = true
  · have hlt : (decodeFloat 0 b.1).lt (decodeFloat 0 c.1) = false := by
      cases hx : decodeFloat 0 c.1 with
      | nan => cases decodeFloat 0 b.1 <;> rfl
      | inf s => simp [hx, FV.isNan] at hc
      | num s n d e => simp [hx, FV.isNan] at hc
    simp [aboveCand, candValue, hb', hc, hlt, FV.eqv]
  · rw [Bool.not_eq_true] at hc
    have hpb := decodeFloat_proper hb'
    have hpc := decodeFloat_proper hc
    simp only [aboveCand, candValue, hb', hc, Bool.not_false, Bool.and_false, Bool.false_or, Bool.or_eq_true, Bool.and_eq_true,
      decide_eq_true_eq, FV.lt_iff_rank hpb hpc, FV.eqv_iff_rank hpc hpb, true_and]

/-- The running pair is never a NaN, is one of those seen, and tops them all. -/
theorem foldMax_tops (cands : List (Nat × Nat)) {seen : List (Nat × Nat)} {best : Nat × Nat} (hb : (candValue best).isNan = false)
    (hmem : best ∈ seen) (hall : ∀ c ∈ seen, Tops best c) : (candValue (foldMax best cands)).isNan = false
      ∧ foldMax best cands ∈ seen ++ cands ∧ ∀ c ∈ seen ++ cands, Tops (foldMax best cands) c := by
  induction cands generalizing seen best with
  | nil => exact ⟨hb, by simpa [foldMax] using hmem, by simpa [foldMax] using hall⟩
  | cons c cands ih =>
    rw [foldMax, List.foldl_cons, ← foldMax, List.append_cons]
    by_cases habove : aboveCand c best = true
    · obtain ⟨hc, hgreater⟩ := (aboveCand_iff hb).1 habove
      rw [if_pos habove]
      refine ih hc (by simp) fun k hk => (tops_iff hc).2 fun hkn => ?_
      rcases List.mem_append.1 hk with hk | hk
      · obtain ⟨hle, htie⟩ := (tops_iff hb).1 (hall k hk) hkn
        rcases hgreater with hlt | ⟨heq, hidx⟩
        · exact ⟨hle.trans hlt.le, fun h => absurd (h ▸ hlt) (not_lt.2 hle)⟩
        · exact ⟨heq ▸ hle, fun h => hidx.le.trans (htie (heq ▸ h))⟩
      · obtain rfl := List.mem_singleton.1 hk
        exact ⟨le_rfl, fun _ => le_rfl⟩
    · rw [if_neg habove]
      refine ih hb (by simp [hmem]) fun k hk => ?_
      rcases List.mem_append.1 hk with hk | hk
      · exact hall k hk
      · obtain rfl := List.mem_singleton.1 hk
        refine (tops_iff hb).2 fun hkn => ?_
        have hno : ¬((candValue best).rank < (candValue k).rank ∨ ((candValue k).rank = (candValue best).rank ∧ k.2 < best.2)) :=
          fun h => habove ((aboveCand_iff hb).2 ⟨hkn, h⟩)
        rw [not_or, not_lt, not_and, not_lt] at hno
        exact ⟨hno.1, fun h => hno.2 h.symm⟩

/-! ### The draw (R241) -/

section Draw
variable (gum : Bool) (key step : Nat) (l : List Nat)

/-- The score of a token (R241). -/
def drawScore (t : Nat) : Nat := if gum then elemAdd 0 (l.getD t 0) (gumbel key step t) else l.getD t 0

/-- The scores of all tokens. -/
def drawScores : List (Nat × Nat) := (List.range l.length).map fun t => (drawScore gum key step l t, t)

theorem drawScores_eq : ((withTokens l).map fun c => (if gum then elemAdd 0 c.1 (gumbel key step c.2) else c.1, c.2))
    = drawScores gum key step l := by
  refine List.ext_getElem (by simp [withTokens, drawScores]) fun t h _ => ?_
  have ht : t < l.length := by simpa [withTokens] using h
  simp [withTokens, drawScores, drawScore, ht]

/-- A token has a score above −inf. -/
def drawLive : Bool :=
  (drawScores gum key step l).any fun c => !(candValue c).isNan && !(candValue c).eqv (.inf true)

theorem drawToken_eq : drawToken gum key step l =
    if drawLive gum key step l then ((foldMax (negInf32, l.length) (drawScores gum key step l)).2, 0) else (l.length, 1) := by
  rw [drawToken, drawScores_eq]
  rfl

theorem drawLive_iff : drawLive gum key step l = true ↔ ∃ t, t < l.length ∧ (decodeFloat 0 (drawScore gum key step l t)).isNan = false
    ∧ (decodeFloat 0 (drawScore gum key step l t)).eqv (.inf true) = false := by
  simp [drawLive, drawScores, candValue]

theorem candValue_negInf (n : Nat) : candValue (negInf32, n) = .inf true :=
  show decodeFloat 0 negInf32 = .inf true by decide

/-- With a score above −inf the token drawn is that of the greatest score, the lowest of equal ones. -/
theorem drawToken_greatest (hlive : drawLive gum key step l = true) :
    let r := (drawToken gum key step l).1
    r < l.length ∧ (decodeFloat 0 (drawScore gum key step l r)).isNan = false
      ∧ (decodeFloat 0 (drawScore gum key step l r)).eqv (.inf true) = false
      ∧ ∀ t, t < l.length → Tops (drawScore gum key step l r, r) (drawScore gum key step l t, t) := by
  obtain ⟨t0, ht0, hnan0, hinf0⟩ := (drawLive_iff ..).1 hlive
  have hstart := candValue_negInf l.length
  have hstartNan : (candValue (negInf32, l.length)).isNan = false := by rw [hstart]; rfl
  obtain ⟨hnan, hmem, htops⟩ := foldMax_tops (drawScores gum key step l) (seen := [(negInf32, l.length)]) hstartNan (by simp) (by
    intro c hc
    obtain rfl := List.mem_singleton.1 hc
    exact (tops_iff hstartNan).2 fun _ => ⟨le_rfl, fun _ => le_rfl⟩)
  have hscore (t : Nat) (ht : t < l.length) : (drawScore gum key step l t, t) ∈ [(negInf32, l.length)] ++ drawScores gum key step l :=
    List.mem_append_right _ (List.mem_map.2 ⟨t, List.mem_range.2 ht, rfl⟩)
  have hinf : (candValue (foldMax (negInf32, l.length) (drawScores gum key step l))).eqv (.inf true) = false := by
    have hproper : (candValue (foldMax (negInf32, l.length) (drawScores gum key step l))).Proper := decodeFloat_proper hnan
    rw [← Bool.not_eq_true, FV.eqv_iff_rank hproper (FV.proper_inf true)]
    intro hbot
    have hle := ((tops_iff hnan).1 (htops _ (hscore t0 ht0)) hnan0).1
    rw [hbot] at hle
    rw [← Bool.not_eq_true, FV.eqv_iff_rank (decodeFloat_proper hnan0) (FV.proper_inf true)] at hinf0
    exact hinf0 (le_bot_iff.1 hle)
  have hr : (drawToken gum key step l).1 = (foldMax (negInf32, l.length) (drawScores gum key step l)).2 := by
    rw [drawToken_eq, if_pos hlive]
  generalize hbest : foldMax (negInf32, l.length) (drawScores gum key step l) = best at *
  have hne : best ≠ (negInf32, l.length) := by
    rintro rfl
    rw [hstart] at hinf
    exact absurd hinf (by decide)
  obtain ⟨t, ht, rfl⟩ := List.mem_map.1 ((List.mem_append.1 hmem).resolve_left (by simpa using hne))
  dsimp only
  rw [hr]
  exact ⟨List.mem_range.1 ht, hnan, hinf, fun t ht => htops _ (hscore t ht)⟩

end Draw

end Sys2Proof.Machine
end

section
/-! PROOFS. Serving a sampler's request (R239, Table 11.9). -/

namespace Sys2Proof.Machine

/-! ### Words of a run of bytes -/

theorem memGets_add (m : Memory) (a n k : Nat) : memGets m a (n + k) = memGets m a n ++ memGets m (a + n) k := by
  induction n generalizing a with
  | zero => simp [memGets]
  | succ n ih => rw [Nat.succ_add, memGets, memGets, ih, List.cons_append, Nat.add_right_comm a 1 n, Nat.add_assoc a n 1]

theorem leNat_append (l m : List Byte) : leNat (l ++ m) = leNat l + 256 ^ l.length * leNat m := by
  induction l with
  | nil => simp [leNat]
  | cons b l ih => rw [List.cons_append, leNat, ih, leNat, List.length_cons]; ring

/-- The 32-bit parts of a run of bytes are its words in turn. -/
theorem unpack_memGets (m : Memory) (a n : Nat) :
    unpack 32 (leNat (memGets m a (4 * n))) n = (List.range n).map fun t => leNat (memGets m (a + 4 * t) 4) := by
  induction n generalizing a with
  | zero => rfl
  | succ n ih =>
    have hlt : leNat (memGets m a 4) < 2 ^ 32 := by
      have := leNat_lt (memGets m a 4)
      rwa [length_memGets, show 256 ^ 4 = 2 ^ 32 by norm_num] at this
    rw [show 4 * (n + 1) = 4 + 4 * n by ring, memGets_add, leNat_append, length_memGets, show 256 ^ 4 = 2 ^ 32 by norm_num, unpack,
      Nat.add_mul_mod_self_left, Nat.mod_eq_of_lt hlt, Nat.add_mul_div_left _ _ (Nat.two_pow_pos 32), Nat.div_eq_of_lt hlt, Nat.zero_add,
      ih, List.range_succ_eq_map, List.map_cons, List.map_map]
    refine congrArg₂ List.cons (by simp) (List.map_congr_left fun t _ => ?_)
    rw [Function.comp_apply, Nat.succ_eq_add_one, show a + 4 + 4 * t = a + 4 * (t + 1) by ring]

/-! ### A request with nothing locked or uncorrectable -/

/-- The request at an offset. -/
def Core.requestAt (c : Core) (part : XWord) (off : Nat) : Request := requestOf (leNat (memGets c.pool (poolPlace part off) 32))

/-- The stage blocks of a request are examined. -/
def Request.seen (part : XWord) (r : Request) : Bool := r.stagesOk && r.chain % 32 = 0 && rangeIn part (r.chain, 32 * r.stages)

/-- The stage blocks that are examined. -/
def Core.stageBlocks (c : Core) (part : XWord) (r : Request) : List Nat :=
  if r.seen part then (List.range r.stages).map fun i => leNat (memGets c.pool (poolPlace part (r.chain + 32 * i)) 32) else []

/-- The ranges that blocks name. -/
def blockLists (r : Request) (blocks : List Nat) : List (Nat × Nat) :=
  blocks.map fun b => if sbOutside b then (0, 0) else sbRange (if r.vOk then r.v else 0) b

/-- The blocks with the bytes of their ranges. -/
def Core.blockData (c : Core) (part : XWord) (r : Request) (blocks : List Nat) : List (Nat × List Byte) :=
  (blocks.zip (blockLists r blocks)).map fun p => (p.1, if rangeIn part p.2 then memGets c.pool (poolPlace part p.2.1) p.2.2 else [])

/-- The range of a request's logits. -/
def Request.logitsRange (r : Request) : Nat × Nat := (r.logits, if r.vOk then 4 * r.v else 0)

/-- Table 11.9 but for uncorrectable words. -/
def Core.reasons (c : Core) (part : XWord) (r : Request) (blocks : List Nat) : List (Bool × Nat) :=
  [(!r.clean || blocks.any sbDirty, 1),
   (!r.stagesOk, 2),
   (!r.vOk, 3),
   (r.chain % 32 ≠ 0 || r.logits % 64 ≠ 0 || blocks.any sbMisaligned, 4),
   ((r.seen part && !chainOrdered blocks) || blocks.any sbOutside, 5),
   ((r.stagesOk && !rangeIn part (r.chain, 32 * r.stages)) || !rangeIn part r.logitsRange
     || (blockLists r blocks).any fun q => !rangeIn part q, 6),
   ((c.blockData part r blocks).any fun p => (sbTokens p.1 p.2).any fun t => (if r.vOk then r.v else 0) ≤ t, 7),
   (false, 8)]

/-- What a request without a reason draws. -/
def Core.drawn (c : Core) (part : XWord) (other : Nat → Nat) (r : Request) (blocks : List Nat) : Nat × Nat :=
  drawToken (blocks.getLastD 0 / 2 ^ 32 % 2 = 1) r.key r.step ((c.blockData part r blocks).foldl (stage other)
    (unpack 32 (leNat (memGets c.pool (poolPlace part r.logits) (4 * r.v))) r.v))

/-! ### The last two kinds of stage blocks -/

theorem sbKind_eq (b : Nat) : sbKind b = b % 16 := by simp [sbKind, field]

section Draw
variable {b : Nat} (h : b % 16 = 6)
include h

theorem sbDirty_draw : sbDirty b = (decide (field b 31 4 ≠ 0) || decide (field b 255 33 ≠ 0)) := by
  simp only [sbDirty, sbEnd, sbKind_eq, h]

theorem sbMisaligned_draw : sbMisaligned b = false := by simp only [sbMisaligned, sbKind_eq, h]

theorem sbOutside_draw : sbOutside b = false := by simp only [sbOutside, sbKind_eq, h]

theorem sbRange_draw (v : Nat) : sbRange v b = (0, 0) := by simp only [sbRange, sbKind_eq, h]

theorem sbTokens_draw (bytes : List Byte) : sbTokens b bytes = [] := by simp only [sbTokens, sbKind_eq, h]

theorem stage_draw (other : Nat → Nat) (l : List Nat) (bytes : List Byte) : stage other l (b, bytes) = l := by
  simp only [stage, sbKind_eq, h]

end Draw

section Unknown
variable {b : Nat} (h : 7 ≤ b % 16)
include h

theorem sbDirty_unknown : sbDirty b = (decide (field b 31 4 ≠ 0) || decide (field b 255 32 ≠ 0)) := by
  obtain ⟨k, hk⟩ := Nat.exists_eq_add_of_le' h
  simp only [sbDirty, sbEnd, sbKind_eq, hk]

theorem sbMisaligned_unknown : sbMisaligned b = false := by
  obtain ⟨k, hk⟩ := Nat.exists_eq_add_of_le' h
  simp only [sbMisaligned, sbKind_eq, hk]

theorem sbOutside_unknown : sbOutside b = true := by
  obtain ⟨k, hk⟩ := Nat.exists_eq_add_of_le' h
  simp only [sbOutside, sbKind_eq, hk]

end Unknown

section Open
variable {c : Core} {part : XWord} {off : Nat} {other : Nat → Nat} (hlocks : c.locks = []) (hsettled : c.settled = [])
  (hbad : c.badPool = [])
include hlocks hsettled hbad

theorem serve_open : serve c part off other = match lowestReason
      (c.reasons part (c.requestAt part off) (c.stageBlocks part (c.requestAt part off))) with
    | some n => .refused n
    | none => .token (c.drawn part other (c.requestAt part off) (c.stageBlocks part (c.requestAt part off))).1
        (c.drawn part other (c.requestAt part off) (c.stageBlocks part (c.requestAt part off))).2 := by
  have hlocked (place n : Nat) : c.lockedFor none place n = false := by simp [Core.lockedFor, Core.bankLocked, hlocks, hsettled]
  have hpool (place n : Nat) : c.poolBad place n = false := by simp [Core.poolBad, hbad]
  have hnone (l : List (Nat × Nat)) : (l.any fun _ => false) = false := by simp
  simp only [serve, hlocked, hpool, Bool.and_false, Bool.or_false, Bool.false_eq_true, if_false, hnone]
  rfl

/-- The first condition of Table 11.9 that holds decides. -/
theorem serve_refused {n : Nat} (h : lowestReason (c.reasons part (c.requestAt part off) (c.stageBlocks part (c.requestAt part off))) = some n) :
    serve c part off other = .refused n := by
  rw [serve_open hlocks hsettled hbad, h]

theorem serve_unclean (h : (c.requestAt part off).clean = false) : serve c part off other = .refused 1 :=
  serve_refused hlocks hsettled hbad (by simp [Core.reasons, lowestReason, h])

theorem serve_badStages (hclean : (c.requestAt part off).clean = true)
    (h : (c.requestAt part off).stages = 0 ∨ 8 < (c.requestAt part off).stages) : serve c part off other = .refused 2 := by
  have hstages : (c.requestAt part off).stagesOk = false := by
    simp only [Request.stagesOk, Bool.and_eq_false_iff, decide_eq_false_iff_not]
    omega
  refine serve_refused hlocks hsettled hbad ?_
  simp [Core.reasons, lowestReason, hclean, hstages, Core.stageBlocks, Request.seen]

section OneStage
variable (hclean : (c.requestAt part off).clean = true) (hstages : (c.requestAt part off).stages = 1)
  (haligned : (c.requestAt part off).chain % 32 = 0) (hin : rangeIn part ((c.requestAt part off).chain, 32) = true)
include hstages haligned hin

omit hlocks hsettled hbad

theorem Core.seen_one : (c.requestAt part off).seen part = true := by
  simp [Request.seen, Request.stagesOk, hstages, haligned, hin]

/-- The one stage block of a request is examined. -/
theorem Core.stageBlocks_one : c.stageBlocks part (c.requestAt part off)
    = [leNat (memGets c.pool (poolPlace part (c.requestAt part off).chain) 32)] := by
  rw [Core.stageBlocks, if_pos (Core.seen_one hstages haligned hin), hstages]
  rfl

/-- The block that the request at an offset names. -/
def Core.blockAt (c : Core) (part : XWord) (off : Nat) : Nat :=
  leNat (memGets c.pool (poolPlace part (c.requestAt part off).chain) 32)

include hclean

theorem Core.lowestReason_one : lowestReason (c.reasons part (c.requestAt part off) (c.stageBlocks part (c.requestAt part off))) =
    let r := c.requestAt part off
    let b := c.blockAt part off
    lowestReason [(sbDirty b, 1), (false, 2), (!r.vOk, 3), (r.logits % 64 ≠ 0 || sbMisaligned b, 4), (sbKind b ≠ 6 || sbOutside b, 5),
      (!rangeIn part r.logitsRange || !rangeIn part (if sbOutside b then (0, 0) else sbRange (if r.vOk then r.v else 0) b), 6),
      ((c.blockData part r [b]).any fun p => (sbTokens p.1 p.2).any fun t => (if r.vOk then r.v else 0) ≤ t, 7), (false, 8)] := by
  have hstagesOk : (c.requestAt part off).stagesOk = true := by simp [Request.stagesOk, hstages]
  rw [Core.stageBlocks_one hstages haligned hin, ← Core.blockAt]
  simp [Core.reasons, lowestReason, hclean, hstagesOk, Core.seen_one hstages haligned hin, hstages, haligned, hin, blockLists, chainOrdered]

include hlocks hsettled hbad

theorem serve_dirtyBlock (hd : sbDirty (c.blockAt part off) = true) : serve c part off other = .refused 1 := by
  refine serve_refused hlocks hsettled hbad ?_
  rw [Core.lowestReason_one hclean hstages haligned hin]
  simp [lowestReason, hd]

theorem serve_unknownKind (hkind : 7 ≤ c.blockAt part off % 16) (hd : sbDirty (c.blockAt part off) = false)
    (hv : (c.requestAt part off).vOk = true) (hl : (c.requestAt part off).logits % 64 = 0) : serve c part off other = .refused 5 := by
  refine serve_refused hlocks hsettled hbad ?_
  rw [Core.lowestReason_one hclean hstages haligned hin]
  simp [lowestReason, hd, hv, hl, sbMisaligned_unknown hkind, sbOutside_unknown hkind]

section Draw
variable (hkind : c.blockAt part off % 16 = 6) (hd : sbDirty (c.blockAt part off) = false)
include hkind hd

omit hlocks hsettled hbad in
/-- The reasons that are left to a request whose chain is one clean draw. -/
theorem Core.lowestReason_draw : lowestReason (c.reasons part (c.requestAt part off) (c.stageBlocks part (c.requestAt part off))) =
    let r := c.requestAt part off
    lowestReason [(false, 1), (false, 2), (!r.vOk, 3), (r.logits % 64 ≠ 0, 4), (false, 5), (!rangeIn part r.logitsRange, 6), (false, 7),
      (false, 8)] := by
  have hzero : rangeIn part (0, 0) = true := by simp [rangeIn]
  rw [Core.lowestReason_one hclean hstages haligned hin]
  simp only [hd, sbMisaligned_draw hkind, sbOutside_draw hkind, sbRange_draw hkind, sbKind_eq, hkind, hzero, ite_self, Bool.not_true,
    Bool.or_false, ne_eq, not_true_eq_false, decide_false, Core.blockData, blockLists, List.map_cons, List.map_nil, List.zip_cons_cons,
    List.zip_nil_left, List.any_cons, List.any_nil, sbTokens_draw hkind]

theorem serve_badV (hv : (c.requestAt part off).vOk = false) : serve c part off other = .refused 3 := by
  refine serve_refused hlocks hsettled hbad ?_
  rw [Core.lowestReason_draw hclean hstages haligned hin hkind hd]
  simp [lowestReason, hv]

variable (hv : (c.requestAt part off).vOk = true)
include hv

theorem serve_misalignedLogits (hl : (c.requestAt part off).logits % 64 ≠ 0) : serve c part off other = .refused 4 := by
  refine serve_refused hlocks hsettled hbad ?_
  rw [Core.lowestReason_draw hclean hstages haligned hin hkind hd]
  simp [lowestReason, hv, hl]

variable (hl : (c.requestAt part off).logits % 64 = 0)
include hl

theorem serve_outsideLogits (hr : rangeIn part ((c.requestAt part off).logits, 4 * (c.requestAt part off).v) = false) :
    serve c part off other = .refused 6 := by
  refine serve_refused hlocks hsettled hbad ?_
  rw [Core.lowestReason_draw hclean hstages haligned hin hkind hd]
  simp [lowestReason, hv, hl, Request.logitsRange, hr]

theorem serve_draws (hr : rangeIn part ((c.requestAt part off).logits, 4 * (c.requestAt part off).v) = true) :
    let r := c.requestAt part off
    let d := drawToken (field (c.blockAt part off) 32 32 = 1) r.key r.step
      ((List.range r.v).map fun t => leNat (memGets c.pool (poolPlace part r.logits + 4 * t) 4))
    serve c part off other = .token d.1 d.2 := by
  have hnone : lowestReason (c.reasons part (c.requestAt part off) (c.stageBlocks part (c.requestAt part off))) = none := by
    rw [Core.lowestReason_draw hclean hstages haligned hin hkind hd]
    simp [lowestReason, hv, hl, Request.logitsRange, hr]
  have hdrawn : c.drawn part other (c.requestAt part off) (c.stageBlocks part (c.requestAt part off))
      = drawToken (field (c.blockAt part off) 32 32 = 1) (c.requestAt part off).key (c.requestAt part off).step
        ((List.range (c.requestAt part off).v).map fun t =>
          leNat (memGets c.pool (poolPlace part (c.requestAt part off).logits + 4 * t) 4)) := by
    rw [Core.drawn, Core.stageBlocks_one hstages haligned hin, ← Core.blockAt, unpack_memGets]
    simp only [Core.blockData, blockLists, List.map_cons, List.map_nil, List.zip_cons_cons, List.zip_nil_left, List.foldl_cons,
      List.foldl_nil, stage_draw hkind, List.getLastD_cons, List.getLastD_nil, field]
    rfl
  dsimp only
  rw [serve_open hlocks hsettled hbad, hnone, hdrawn]

end Draw

end OneStage

end Open

end Sys2Proof.Machine
end

section
/-! PROOFS. The words `sdraw` and `sstat`, and the end of a request (R104, R239). -/

namespace Sys2Proof.Machine

/-! ### Updates of the crew's request -/

theorem Crew.inner_draw (d : Option Draw) : Crew.Inner fun c => { c with draw := d } :=
  ⟨fun _ => rfl, fun _ st _ => by cases st <;> rfl, fun _ st => by cases st <;> rfl⟩

theorem State.apart_modDie (s : State) (d : DieId) (f : Die → Die) : (s.modDie d f).apart = s.apart.modDie d f := by
  by_cases h : s.cur.role = .fw
  · rw [State.apart_fw h, State.apart_fw (s := s.modDie d f) h]; rfl
  · rw [State.apart_crew h, State.apart_crew (s := s.modDie d f) h]; rfl

theorem State.dies_of_apart {u s : State} (h : u.apart = s.apart) : u.dies = s.dies := by
  simpa [State.apart] using congrArg State.dies h

theorem State.draw_of_apart {u s : State} (h : u.apart = s.apart) : u.crew.draw = s.crew.draw :=
  State.read_of_apart h Crew.draw (fun _ => rfl) fun _ st _ => by cases st <;> rfl

theorem State.modDie_of_apart {u s : State} (h : u.apart = s.apart) (d : DieId) (f : Die → Die) :
    (u.modDie d f).apart = (s.modDie d f).apart := by
  rw [State.apart_modDie, State.apart_modDie, h]

/-! ### `sdraw` -/

/-- The request that an `sdraw` in the state `before` its pops makes. -/
def State.drawOf (before s : State) (tk : Tok) (rd ra : XReg) : Draw :=
  { id := s.serial, rd := rd, off := (s.getX ra).toNat,
    tokP := before.tokensAt (popQueueP .x) (popsOf tk).p, tokN := before.tokensAt (popQueueN .x) (popsOf tk).n,
    toP := (pushesOf tk).p, toN := (pushesOf tk).n }

/-- A request joins its die's queue. -/
def State.queueDraw (s : State) (d : Draw) : State :=
  ((s.withSerial (s.serial + 1)).modCrew fun c => { c with draw := some d }).modDie (dieOf s.cur.core) fun k =>
    { k with draws := k.draws ++ [{ core := s.cur.core, crew := s.cur.crew, id := s.serial }] }

/-- The effect of `sdraw`, its tokens taken in the state `before` its pops. -/
def State.sdrawEffect (before : State) (tk : Tok) (rd ra : XReg) (s : State) : Res :=
  match poolCheck s.part (s.getX ra).toNat 32 32 with
  | some t => .trap t
  | none => .held (s.queueDraw (before.drawOf s tk rd ra))

theorem sdraw_eq {s : State} (tk : Tok) (rd ra : XReg) (h : s.crew.draw = none) :
    exec (.sdraw tk rd ra) s = runWord tk [refX ra] s (s.sdrawEffect tk rd ra) := by
  refine if_neg ?_
  rw [h]
  exact Bool.false_ne_true

/-- A word that holds its sequencer at its place once its effect is performed. -/
theorem runWord_held {tk : Tok} {reads : List (State → List RegRef)} {s t : State} {effect : State → Res} (h : s.Issues tk)
    (he : effect (s.doPops (popsOf tk)) = .held t) :
    runWord tk reads s effect = .next (t.modSeq fun q => { q with wait := none, issued := true }) := by
  simp [runWord, runWith, h.tokens, parityBad_of_nil h.parity, h.credits, he]

theorem State.queueDraw_seq (s : State) (d : Draw) : (s.queueDraw d).seq = s.seq :=
  State.seq_inner (Crew.inner_draw (some d)) (s.withSerial (s.serial + 1))

theorem State.queueDraw_keeps (s : State) (d : Draw) : s.Keeps (s.queueDraw d) :=
  State.keeps_modCrew (s.withSerial (s.serial + 1)) (f := fun c => { c with draw := some d }) (fun _ => rfl) fun _ => rfl

theorem State.queueDraw_draw (s : State) (d : Draw) : (s.queueDraw d).crew.draw = some d :=
  congrArg Crew.draw (State.crew_modCrew (s.withSerial (s.serial + 1)) fun c => { c with draw := some d })

theorem State.queueDraw_draws (s : State) (d : Draw) : (s.queueDraw d).dieHere.draws =
    s.dieHere.draws ++ [{ core := s.cur.core, crew := s.cur.crew, id := s.serial }] :=
  congrArg Die.draws (State.die_modDie ((s.withSerial (s.serial + 1)).modCrew fun c => { c with draw := some d }) (dieOf s.cur.core) _)

/-! ### `sstat` -/

/-- The effect of `sstat`. -/
def State.sstatEffect (rd ra : XReg) (s : State) : Res :=
  let d := s.dieHere
  match (s.getX ra).toNat with
  | 0 => .done (s.setX rd (BitVec.ofNat 64 (Min.min (d.draws.length - 1) 256)))
  | 1 => .done (s.setX rd (BitVec.ofNat 64 (valueFor s.ctxHere d.drawn)))
  | 2 => .done (s.setX rd (BitVec.ofNat 64 (valueFor s.ctxHere d.reason)))
  | _ => .trap (trapOf codeRegRange)

theorem sstat_eq (tk : Tok) (rd ra : XReg) (s : State) : exec (.sstat tk rd ra) s = runWord tk [refX ra] s (State.sstatEffect rd ra) := rfl

theorem State.dieHere_popped (s : State) (k : Pops) : (s.doPops k).dieHere = s.dieHere := by
  rw [State.dieHere, State.dies_of_apart (s.apart_doPops k), State.cur_of_apart (s.apart_doPops k)]
  rfl

/-! ### Both words run and trap -/

section Words
variable {s : State} {tk : Tok} {rd ra : XReg} (h : s.Clear tk)
include h

theorem sdraw_queues (hdraw : s.crew.draw = none) (hcheck : poolCheck s.part (s.getX ra).toNat 32 32 = none) :
    Answers (.sdraw tk rd ra) s fun u => u.pc = s.pc
      ∧ (∃ q, u.crew.draw = some q ∧ q.rd = rd ∧ q.off = (s.getX ra).toNat ∧ q.id = s.serial)
      ∧ u.dieHere.draws = s.dieHere.draws ++ [{ core := s.cur.core, crew := s.cur.crew, id := s.serial }]
      ∧ (∀ r, u.getX r = s.getX r) ∧ u.mem = s.mem ∧ u.here.pool = s.here.pool := by
  have hpops := s.apart_doPops (popsOf tk)
  let p := s.doPops (popsOf tk)
  let d := s.drawOf p tk rd ra
  have heffect : s.sdrawEffect tk rd ra p = .held (p.queueDraw d) := by
    rw [State.sdrawEffect, State.part_of_apart hpops, State.getX_doPops, hcheck]
  let u := (p.queueDraw d).modSeq fun q => { q with wait := none, issued := true }
  have hua : u.apart = (p.queueDraw d).apart := State.apart_modSeq rfl
  have hkeeps : s.Keeps u := (State.keeps_of_apart hpops).trans ((p.queueDraw_keeps d).trans (State.keeps_of_apart hua))
  refine ⟨u, (sdraw_eq tk rd ra hdraw).trans (runWord_held h.toIssues heffect), ?_, ⟨d, ?_, rfl, ?_, ?_⟩, ?_, hkeeps.1, ?_, ?_⟩
  · rw [State.pc, State.seq_modSeq, State.queueDraw_seq]
    exact s.doPops_pc _
  · rw [State.draw_of_apart hua, State.queueDraw_draw]
  · exact congrArg BitVec.toNat (State.getX_doPops ..)
  · exact State.serial_of_apart hpops
  · rw [State.dieHere, State.dies_of_apart hua, State.cur_of_apart hua]
    refine (p.queueDraw_draws d).trans ?_
    rw [State.dieHere, State.dies_of_apart hpops, State.cur_of_apart hpops, State.serial_of_apart hpops]
    rfl
  · rw [State.mem_of_apart hua]
    exact (State.mem_of_apart hpops : p.mem = s.mem)
  · exact hkeeps.here ((State.cur_of_apart hua).trans (State.cur_of_apart hpops : p.cur = s.cur))

theorem sdraw_traps {t : TrapReq} (hdraw : s.crew.draw = none) (hcheck : poolCheck s.part (s.getX ra).toNat 32 32 = some t) :
    Traps (.sdraw tk rd ra) s t := by
  refine (sdraw_eq tk rd ra hdraw).trans (runWord_trap h.toIssues ?_)
  rw [State.sdrawEffect, State.part_of_apart (s.apart_doPops _), State.getX_doPops, hcheck]

theorem sstat_waiting (hv : (s.getX ra).toNat = 0) :
    Runs (.sstat tk rd ra) s (s.setX rd (BitVec.ofNat 64 (Min.min (s.dieHere.draws.length - 1) 256))) := by
  refine lands_runs (sstat_eq ..) h (State.lands_setX rd _) ?_
  simp only [State.sstatEffect, State.getX_doPops, hv, State.dieHere_popped]

theorem sstat_drawn (hv : (s.getX ra).toNat = 1) :
    Runs (.sstat tk rd ra) s (s.setX rd (BitVec.ofNat 64 (valueFor s.ctxHere s.dieHere.drawn))) := by
  refine lands_runs (sstat_eq ..) h (State.lands_setX rd _) ?_
  simp only [State.sstatEffect, State.getX_doPops, hv, State.dieHere_popped, State.ctxHere_of_apart (s.apart_doPops _)]

theorem sstat_reason (hv : (s.getX ra).toNat = 2) :
    Runs (.sstat tk rd ra) s (s.setX rd (BitVec.ofNat 64 (valueFor s.ctxHere s.dieHere.reason))) := by
  refine lands_runs (sstat_eq ..) h (State.lands_setX rd _) ?_
  simp only [State.sstatEffect, State.getX_doPops, hv, State.dieHere_popped, State.ctxHere_of_apart (s.apart_doPops _)]

theorem sstat_beyond (hv : 2 < (s.getX ra).toNat) : Traps (.sstat tk rd ra) s { code := 0x03, info := 0, addr := 0 } := by
  obtain ⟨n, hn⟩ := Nat.exists_eq_add_of_le' (show 3 ≤ (s.getX ra).toNat from hv)
  refine (sstat_eq tk rd ra s).trans (runWord_trap h.toIssues ?_)
  simp only [State.sstatEffect, State.getX_doPops, hn]
  rfl

end Words

/-! ### SAMPLER_SERVE -/

/-- A token drawn: the request goes, the context's draws count. -/
def State.drewToken (s : State) (die : DieId) (w : Draw) (t st : Nat) : State :=
  (((s.dropRequest die).modDie die fun k => { k with drawn := bump s.crew.ctx k.drawn }).modCrew fun c => { c with draw := none }).setX w.rd
    (BitVec.ofNat 64 (t + st * 2 ^ 32))

/-- A request refused: it goes, its reason is the context's last, and its tokens return. -/
def State.refusedDraw (s : State) (die : DieId) (n : Nat) : State :=
  ((s.dropRequest die).modDie die fun k => { k with reason := putFor s.crew.ctx n k.reason }).modCrew Crew.withdrawDraw

theorem Crew.withdrawDraw_draw (c : Crew) : c.withdrawDraw.draw = none := by
  rw [Crew.withdrawDraw]
  cases h : c.draw with
  | none => exact h
  | some d => rfl

theorem Crew.withdrawDraw_regs (c : Crew) : c.withdrawDraw.x = c.x ∧ c.withdrawDraw.f = c.f ∧ c.withdrawDraw.ctx = c.ctx
    ∧ ∀ st, c.withdrawDraw.seq st = c.seq st := by
  rw [Crew.withdrawDraw]
  cases c.draw with
  | none => exact ⟨rfl, rfl, rfl, fun _ => rfl⟩
  | some d => exact ⟨rfl, rfl, rfl, fun st => by cases st <;> rfl⟩

theorem valueFor_putFor (k : CtxId) (v : Nat) (l : List (CtxId × Nat)) : valueFor k (putFor k v l) = v := by
  simp [valueFor, putFor]

section Serve
variable {s : State} {die : DieId} {q : DrawReq} {rest : List DrawReq} {w : Draw} {other : Nat → Nat}
  (hq : (s.dies.get die).draws = q :: rest) (hw : (s.actAs q.core q.crew .x).crew.draw = some w) (hid : w.id = q.id)
  (hother : other = fun t => leNat ((List.range 4).map fun i => Config.freeByte s.tick (4 * t + i)))
include hq hw hid hother

/-- The oldest request of a die is served in its crew's X. -/
theorem samplerServe_eq : exec (.samplerServe die) s =
    let a := s.actAs q.core q.crew .x
    match serve a.here a.crew.part w.off other with
    | .locked => .next a
    | .refused n => .next (raise (trapAt codeSamplerFault w.off) (a.refusedDraw die n))
    | .token t st => finish { p := w.toP, n := w.toN } none false a.pc (a.pc + 4) a (a.drewToken die w t st) := by
  subst hother
  change execSamplerServe die s = _
  simp only [execSamplerServe, hq, hw, hid, ne_eq, not_true_eq_false, if_false]
  rfl

end Serve

theorem State.draw_setX (s : State) (rd : XReg) (v : XWord) : (s.setX rd v).crew.draw = s.crew.draw := by
  rw [State.setX]
  split
  · rfl
  · split
    · refine congrArg Crew.draw (State.crew_modHere ?_)
      exact fun _ _ => rfl
    · rw [State.crew_modCrew]
      rfl

theorem raise_draw {s : State} (t : TrapReq) (hr : s.cur.role ≠ .fw) : (raise t s).crew.draw = s.crew.draw := by
  rw [raise_eq t hr, State.crew_modHere (f := Core.setTraps _) (fun _ _ => rfl), State.modSeq_crew _ hr, State.crew_modCrew]
  cases s.cur.role.stream <;> rfl

section Serve
variable {a : State} {die : DieId} {w : Draw}

/-! A token drawn. -/

theorem State.drewToken_seq (t st : Nat) : (a.drewToken die w t st).seq = a.seq := by
  rw [State.drewToken, State.seq_setX]
  exact State.seq_inner (Crew.inner_draw none) _

theorem State.drewToken_draw (t st : Nat) : (a.drewToken die w t st).crew.draw = none := by
  rw [State.drewToken, State.draw_setX, State.crew_modCrew]

theorem State.drewToken_draws (t st : Nat) : ((a.drewToken die w t st).dies.get die).draws = (a.dies.get die).draws.tail := by
  rw [State.drewToken, State.setX_dies, State.modCrew_dies, State.die_modDie, State.dropRequest, State.die_modDie]

theorem State.drewToken_pool (t st : Nat) : (a.drewToken die w t st).here.pool = a.here.pool := by
  rw [State.drewToken, State.readHere_setX Core.pool (fun _ _ _ => rfl) (fun _ _ => rfl), State.modCrew_modHere, State.here_modHere]
  rfl

theorem State.drewToken_same (t st : Nat) :
    (a.drewToken die w t st).getX w.rd = if w.rd = 0 then 0 else BitVec.ofNat 64 (t + st * 2 ^ 32) := State.getX_setX_same ..

theorem State.drewToken_others (t st : Nat) {r : XReg} (hr : r ≠ w.rd) : (a.drewToken die w t st).getX r = a.getX r :=
  (State.getX_setX_ne _ _ hr).trans ((State.keeps_modCrew ((a.dropRequest die).modDie die _) (f := fun c => { c with draw := none })
    (fun _ => rfl) fun _ => rfl).1 r)

/-! A request refused. -/

theorem State.refusedDraw_keeps (n : Nat) : a.Keeps (a.refusedDraw die n) :=
  State.keeps_modCrew ((a.dropRequest die).modDie die _) (fun c => c.withdrawDraw_regs.1) fun c => c.withdrawDraw_regs.2.1

theorem State.refusedDraw_seq (n : Nat) : (a.refusedDraw die n).seq = a.seq :=
  State.seq_modCrew fun st => (Crew.withdrawDraw_regs _).2.2.2 st

theorem State.refusedDraw_draw (n : Nat) : (a.refusedDraw die n).crew.draw = none := by
  rw [State.refusedDraw, State.crew_modCrew, Crew.withdrawDraw_draw]

theorem State.refusedDraw_reason (n : Nat) : valueFor a.crew.ctx ((a.refusedDraw die n).dies.get die).reason = n := by
  rw [State.refusedDraw, State.modCrew_dies, State.die_modDie, valueFor_putFor]

end Serve

section End
variable {s : State} {die : DieId} {q : DrawReq} {rest : List DrawReq} {w : Draw} {other : Nat → Nat}
  (hq : (s.dies.get die).draws = q :: rest) (hw : (s.actAs q.core q.crew .x).crew.draw = some w) (hid : w.id = q.id)
  (hother : other = fun t => leNat ((List.range 4).map fun i => Config.freeByte s.tick (4 * t + i)))
include hq hw hid hother

theorem samplerServe_token (hrows : (s.actAs q.core q.crew .x).noRowClose) {t st : Nat}
    (hserve : serve (s.actAs q.core q.crew .x).here (s.actAs q.core q.crew .x).crew.part w.off other = .token t st) :
    let a := s.actAs q.core q.crew .x
    Answers (.samplerServe die) s fun u =>
      u.crew.draw = none ∧ u.getX w.rd = (if w.rd = 0 then 0 else BitVec.ofNat 64 (t + st * 2 ^ 32))
      ∧ (∀ r, r ≠ w.rd → u.getX r = a.getX r) ∧ (a.inLine → u.pc = a.pc + 4)
      ∧ (u.dies.get die).draws = rest ∧ u.here.pool = a.here.pool := by
  have hexec := samplerServe_eq hq hw hid hother
  simp only [hserve] at hexec
  obtain ⟨u, hu, hua, hpc⟩ := finish_reaches (pu := { p := w.toP, n := w.toN }) (cmd := none) (w := false)
    (s0 := s.actAs q.core q.crew .x) (congrArg Seq.loops (State.drewToken_seq (a := s.actAs q.core q.crew .x) (die := die) (w := w) t st)) hrows
  refine ⟨u, hexec.trans hu, ?_, ?_, fun r hr => ?_, hpc, ?_, ?_⟩
  · rw [State.draw_of_apart hua, State.drewToken_draw]
  · rw [State.getX_of_apart hua, State.drewToken_same]
  · rw [State.getX_of_apart hua, State.drewToken_others t st hr]
  · rw [State.dies_of_apart hua, State.drewToken_draws, State.actAs_dies, hq, List.tail_cons]
  · rw [State.pool_of_apart hua, State.drewToken_pool]

theorem samplerServe_refused {n : Nat}
    (hserve : serve (s.actAs q.core q.crew .x).here (s.actAs q.core q.crew .x).crew.part w.off other = .refused n) :
    let a := s.actAs q.core q.crew .x
    Answers (.samplerServe die) s fun u =>
      u.seq.status = .trapped ∧ u.pc = a.pc ∧ u.crew.draw = none ∧ (∀ r, u.getX r = a.getX r)
      ∧ (∃ r ∈ u.here.traps, r.code = 0x51 ∧ r.addr = BitVec.ofNat 64 w.off)
      ∧ valueFor a.crew.ctx (u.dies.get die).reason = n := by
  have hexec := samplerServe_eq hq hw hid hother
  simp only [hserve] at hexec
  have hr : ((s.actAs q.core q.crew .x).refusedDraw die n).cur.role ≠ .fw := show Role.x ≠ Role.fw by decide
  have hraise := raise_eq (trapAt codeSamplerFault w.off) hr
  have htraps := raise_here_traps (trapAt codeSamplerFault w.off) hr
  refine ⟨_, hexec, raise_status _, ?_, ?_, ?_, ?_, ?_⟩
  · rw [raise_pc, State.pc, State.refusedDraw_seq]
    rfl
  · rw [raise_draw _ hr, State.refusedDraw_draw]
  · exact (State.refusedDraw_keeps n).trans (raise_keeps _) |>.1
  · rw [htraps]
    exact ⟨_, (insertTrap_perm _ _).mem_iff.2 List.mem_cons_self, rfl, rfl⟩
  · rw [hraise, State.modHere_dies, State.modSeq_dies, State.refusedDraw_reason]

theorem samplerServe_locked (hserve : serve (s.actAs q.core q.crew .x).here (s.actAs q.core q.crew .x).crew.part w.off other = .locked) :
    Answers (.samplerServe die) s fun u => u = s.actAs q.core q.crew .x := by
  have hexec := samplerServe_eq hq hw hid hother
  simp only [hserve] at hexec
  exact ⟨_, hexec, rfl⟩

end End

/-! ### The obligation -/

/-- The range check in the statement's words. -/
theorem rangeIn_iff {part : XWord} {o n : Nat} : rangeIn part (o, n) = true ↔
    n = 0 ∨ (sBegin part ≤ o ∧ o + n ≤ allotEnd part ∧ o + n ≤ 2 ^ 23) := by
  simp only [rangeIn, Bool.or_eq_true, Bool.and_eq_true, decide_eq_true_eq, and_assoc]

theorem Request.vOk_iff (r : Request) : r.vOk = true ↔ 1 ≤ r.v ∧ r.v ≤ 262144 := by
  simp only [Request.vOk, Bool.and_eq_true, decide_eq_true_eq]

/-- What the draw takes, in the statement's words (R241). -/
theorem drawToken_spec (gum : Bool) (key step : Nat) (l : List Nat) :
    let value (t : Nat) : FV := decodeFloat 0 (drawScore gum key step l t)
    let r := drawToken gum key step l
    (r.2 = 0 → r.1 < l.length ∧ (value r.1).isNan = false ∧ (value r.1).eqv (.inf true) = false
      ∧ ∀ t, t < l.length → (value t).isNan = false →
          (value r.1).lt (value t) = false ∧ ((value r.1).eqv (value t) = true → r.1 ≤ t))
    ∧ (r.2 = 1 ↔ ∀ t, t < l.length → (value t).isNan = true ∨ (value t).eqv (.inf true) = true)
    ∧ (r.2 = 1 → r.1 = l.length) ∧ r.2 ≤ 1 := by
  dsimp only
  by_cases hlive : drawLive gum key step l = true
  · have hstatus : (drawToken gum key step l).2 = 0 := by rw [drawToken_eq, if_pos hlive]
    obtain ⟨t, ht, hnan, hinf⟩ := (drawLive_iff ..).1 hlive
    refine ⟨fun _ => drawToken_greatest gum key step l hlive, ⟨fun h => absurd h (by omega), fun h => ?_⟩, fun h => absurd h (by omega), by omega⟩
    rcases h t ht with h | h <;> simp_all
  · have htoken : drawToken gum key step l = (l.length, 1) := by rw [drawToken_eq, if_neg hlive]
    rw [htoken]
    refine ⟨fun h => absurd h Nat.one_ne_zero, ⟨fun _ t ht => ?_, fun _ => rfl⟩, fun _ => rfl, le_rfl⟩
    by_contra hno
    rw [not_or, Bool.not_eq_true, Bool.not_eq_true] at hno
    exact hlive ((drawLive_iff ..).2 ⟨t, ht, hno⟩)

/-- Settles O32: the words by their effects, the draw by the order of its scores, and the reasons of a one-stage chain in the order of
Table 11.9. -/
theorem samplerWords : Obligations.SamplerWords := by
  unfold Obligations.SamplerWords
  refine ⟨fun s tk rd ra h => ?_, fun gum key step l => drawToken_spec gum key step l, fun _ _ _ => rfl,
    fun c part off other hlocks hsettled hbad => ?_⟩
  · dsimp only
    refine ⟨sdraw_queues h, fun t => sdraw_traps h, sstat_waiting h, sstat_drawn h, sstat_reason h, sstat_beyond h, ?_⟩
    intro die q rest w other hq hw hid hrows hother
    exact ⟨fun t st => samplerServe_token hq hw hid hother hrows, fun n => samplerServe_refused hq hw hid hother,
      samplerServe_locked hq hw hid hother⟩
  · dsimp only
    refine ⟨serve_unclean hlocks hsettled hbad, serve_badStages hlocks hsettled hbad, fun hclean hstages haligned hin => ?_⟩
    have hin := rangeIn_iff.2 hin
    have hkind6 {b : Nat} (h6 : b % 16 = 6) (h31 : field b 31 4 = 0) (h255 : field b 255 33 = 0) : sbDirty b = false := by
      simp [sbDirty_draw h6, h31, h255]
    rw [← Request.vOk_iff, ← rangeIn_iff]
    refine ⟨fun hd => ?_, fun h6 h31 h255 => ⟨fun hv => ?_, fun hv hl => ?_, fun hv hl hr => ?_, fun hv hl hr => ?_⟩, fun h7 h31 hd => ?_,
      fun h7 h31 h255 hv hl => ?_⟩
    · exact serve_dirtyBlock hlocks hsettled hbad hclean hstages haligned hin (by simp [sbDirty, Core.blockAt, Core.requestAt, hd])
    · exact serve_badV hlocks hsettled hbad hclean hstages haligned hin h6 (hkind6 h6 h31 h255) ((Bool.not_eq_true _).mp hv)
    · exact serve_misalignedLogits hlocks hsettled hbad hclean hstages haligned hin h6 (hkind6 h6 h31 h255) hv hl
    · exact serve_outsideLogits hlocks hsettled hbad hclean hstages haligned hin h6 (hkind6 h6 h31 h255) hv hl ((Bool.not_eq_true _).mp hr)
    · exact serve_draws hlocks hsettled hbad hclean hstages haligned hin h6 (hkind6 h6 h31 h255) hv hl hr
    · exact serve_dirtyBlock hlocks hsettled hbad hclean hstages haligned hin
        ((sbDirty_unknown h7).trans (by simp [hd]))
    · exact serve_unknownKind hlocks hsettled hbad hclean hstages haligned hin h7
        ((sbDirty_unknown h7).trans (by simp [h31, h255])) hv hl

end Sys2Proof.Machine
end

section
/-! PROOFS. Casement's records and nodes, and what its reads of an image depend on (R229 to R233). -/

namespace Sys2Proof.Machine

/-! ### Counts of references (R231) -/

/-- The nodes that one round of settling leaves. -/
def Die.counted (d : Die) : List Node := (d.nodes.map fun m => { m with rc := d.refs m.num }).filter fun m => m.rc ≠ 0

theorem Die.settle_succ (d : Die) (n : Nat) : d.settle (n + 1) =
    if d.counted.length = d.nodes.length then { d with nodes := d.counted } else ({ d with nodes := d.counted } : Die).settle n := rfl

theorem Die.mem_counted {d : Die} {m : Node} (hm : m ∈ d.counted) : m.rc = d.refs m.num ∧ 0 < m.rc ∧ ∃ k ∈ d.nodes, k.num = m.num := by
  obtain ⟨hmem, hpos⟩ := List.mem_filter.1 hm
  obtain ⟨k, hk, rfl⟩ := List.mem_map.1 hmem
  exact ⟨rfl, Nat.pos_of_ne_zero (by simpa using hpos), k, hk, rfl⟩

theorem Die.length_counted_le (d : Die) : d.counted.length ≤ d.nodes.length := by
  simpa [Die.counted] using List.length_filter_le (fun m : Node => decide (m.rc ≠ 0)) (d.nodes.map fun m => { m with rc := d.refs m.num })

theorem Die.length_children_recounted (d : Die) (n : Nat) :
    ((d.nodes.map fun m => { m with rc := d.refs m.num }).filter fun m => m.parent == n).length
      = (d.nodes.filter fun m => m.parent == n).length := by
  rw [List.filter_map, List.length_map]
  rfl

/-- Nodes that go hold no references. -/
theorem Die.refs_counted_le (d : Die) (n : Nat) : ({ d with nodes := d.counted } : Die).refs n ≤ d.refs n := by
  have hsub : (d.counted.filter fun m => m.parent == n).length ≤ (d.nodes.filter fun m => m.parent == n).length :=
    (List.filter_sublist.filter (fun m : Node => m.parent == n)).length_le.trans (d.length_children_recounted n).le
  exact Nat.add_le_add_right hsub _

/-- With no node gone every count is as it was. -/
theorem Die.refs_counted_eq {d : Die} (h : d.counted.length = d.nodes.length) (n : Nat) :
    ({ d with nodes := d.counted } : Die).refs n = d.refs n := by
  have hall : d.counted = d.nodes.map fun m => { m with rc := d.refs m.num } :=
    List.filter_sublist.eq_of_length (by rw [List.length_map]; exact h)
  have hlen : (d.counted.filter fun m => m.parent == n).length = (d.nodes.filter fun m => m.parent == n).length := by
    rw [hall, d.length_children_recounted]
  exact congrArg (· + _) hlen

theorem Die.settle_sgrs (d : Die) (n : Nat) : (d.settle n).sgrs = d.sgrs := by
  induction n generalizing d with
  | zero => rfl
  | succ n ih =>
    rw [Die.settle_succ]
    split
    · rfl
    · exact ih _

/-- Settled, every node is counted and held. -/
theorem Die.settle_counts {d : Die} {n : Nat} (hn : d.nodes.length < n) {m : Node} (hm : m ∈ (d.settle n).nodes) :
    0 < m.rc ∧ m.rc = (d.settle n).refs m.num := by
  induction n generalizing d with
  | zero => exact absurd hn (Nat.not_lt_zero _)
  | succ n ih =>
    rw [Die.settle_succ] at hm ⊢
    by_cases hall : d.counted.length = d.nodes.length
    · rw [if_pos hall] at hm ⊢
      obtain ⟨hrc, hpos, -⟩ := Die.mem_counted hm
      exact ⟨hpos, hrc.trans (Die.refs_counted_eq hall _).symm⟩
    · rw [if_neg hall] at hm ⊢
      have hle := d.length_counted_le
      exact ih (show d.counted.length < n by omega) hm

/-- A node that settling leaves is one of before, with no more references. -/
theorem Die.settle_rc_le {d : Die} {n : Nat} {m : Node} (hm : m ∈ (d.settle (n + 1)).nodes) :
    m.rc ≤ d.refs m.num ∧ ∃ k ∈ d.nodes, k.num = m.num := by
  induction n generalizing d with
  | zero =>
    rw [Die.settle_succ, Die.settle, ite_self] at hm
    obtain ⟨hrc, -, hold⟩ := Die.mem_counted hm
    exact ⟨hrc.le, hold⟩
  | succ n ih =>
    rw [Die.settle_succ] at hm
    split at hm
    · obtain ⟨hrc, -, hold⟩ := Die.mem_counted hm
      exact ⟨hrc.le, hold⟩
    · obtain ⟨hle, k, hk, hnum⟩ := ih hm
      obtain ⟨-, -, j, hj, hjk⟩ := Die.mem_counted hk
      exact ⟨hle.trans (d.refs_counted_le _), j, hj, hjk.trans hnum⟩

theorem Die.settled_sgrs (d : Die) : d.settled.sgrs = d.sgrs := d.settle_sgrs _

theorem Die.settled_sgr? (d : Die) (h : Nat) : d.settled.sgr? h = d.sgr? h := by rw [Die.sgr?, Die.settled_sgrs]; rfl

theorem Die.push_sgrs (d : Die) (tick : Nat) (ctx : CtxId) (top : Nat) (l : List Nat) : (d.push tick ctx top l).1.sgrs = d.sgrs := by
  induction l generalizing d top with
  | nil => rfl
  | cons y l ih => exact ih _ _

theorem Die.push_sgr? (d : Die) (tick : Nat) (ctx : CtxId) (top : Nat) (l : List Nat) (h : Nat) :
    (d.push tick ctx top l).1.sgr? h = d.sgr? h := by rw [Die.sgr?, Die.push_sgrs]; rfl

/-- A sequence more on a die adds at most its top and its checkpoints to a node's references. -/
theorem Die.refs_cons_le (d : Die) (g : Sgr) (n : Nat) : ({ d with sgrs := g :: d.sgrs } : Die).refs n ≤ d.refs n + (1 + g.ckpts.length) := by
  have hone : (if g.top = n then 1 else 0) + (g.ckpts.filter fun k => k.top == n).length ≤ 1 + g.ckpts.length :=
    Nat.add_le_add (by split <;> omega) (List.length_filter_le ..)
  simp only [Die.refs, List.map_cons, List.sum_cons]
  omega

/-- A fork keeps every count within 65,535 where a node has room for it. -/
theorem Die.fork_fits {d : Die} {g : Sgr} (h : ∀ m ∈ d.nodes, d.refs m.num + 1 + g.ckpts.length ≤ 65535) :
    ({ d with sgrs := g :: d.sgrs } : Die).settled.tooMany = false := by
  rw [Die.tooMany, List.any_eq_false]
  intro m hm hbig
  obtain ⟨hle, k, hk, hnum⟩ := Die.settle_rc_le hm
  have hk := h k hk
  have hadd := hle.trans (d.refs_cons_le g m.num)
  rw [← hnum] at hadd
  simp only [decide_eq_true_eq] at hbig
  omega

/-! ### A free handle (R230) -/

theorem freeHandle_lt (d : Die) (h n : Nat) : freeHandle d h n < 16384 := by
  induction n generalizing h with
  | zero => exact Nat.mod_lt _ (by decide)
  | succ n ih =>
    rw [freeHandle]
    split
    · exact ih _
    · exact Nat.mod_lt _ (by decide)

/-- The handle found is free, unless every one tried is taken. -/
theorem freeHandle_free (d : Die) (h n : Nat) : d.sgr? (freeHandle d h n) = none ∨ ∀ i < n, (d.sgr? ((h + i) % 16384)).isSome = true := by
  induction n generalizing h with
  | zero => exact .inr fun i hi => absurd hi (Nat.not_lt_zero i)
  | succ n ih =>
    rw [freeHandle]
    by_cases htaken : (d.sgr? (h % 16384)).isSome = true
    · rw [if_pos htaken]
      refine (ih (h + 1)).imp_right fun hall i hi => ?_
      cases i with
      | zero => exact htaken
      | succ i => rw [show h + (i + 1) = h + 1 + i by omega]; exact hall i (by omega)
    · rw [if_neg htaken]
      exact .inl (by simpa using htaken)

/-- With a record free some handle is. -/
theorem freeHandle_none {d : Die} (hroom : d.sgrs.length < 16384) (h : Nat) : d.sgr? (freeHandle d h 16384) = none := by
  refine (freeHandle_free d h 16384).resolve_right fun hall => ?_
  have hsub : List.range 16384 ⊆ d.sgrs.map Sgr.handle := by
    intro k hk
    have hk := List.mem_range.1 hk
    have hi := hall ((k + 16384 - h % 16384) % 16384) (Nat.mod_lt _ (by decide))
    rw [show (h + (k + 16384 - h % 16384) % 16384) % 16384 = k by omega] at hi
    obtain ⟨g, hg⟩ := Option.isSome_iff_exists.1 hi
    exact List.mem_map.2 ⟨g, List.mem_of_find?_eq_some hg, Die.sgr?_handle hg⟩
  have hle := (List.nodup_range.subperm hsub).length_le
  rw [List.length_range, List.length_map] at hle
  omega

theorem State.recRoom_length {s : State} {d : Die} {ctx : CtxId} (h : s.recRoom d ctx = true) : d.sgrs.length < 16384 := by
  simpa using (Bool.and_eq_true_iff.1 h).1

/-! ### What reads of an image depend on -/

/-- Two states read images alike: one memory, one N-die, one clock. -/
structure State.SameImages (u s : State) : Prop where
  mem : u.mem = s.mem
  npu : u.npu = s.npu
  tick : u.tick = s.tick

section Same
variable {u s : State} (h : u.SameImages s)
include h

theorem State.SameImages.ctx (k : CtxId) : u.ctx k = s.ctx k := by
  rw [State.ctx, h.npu]
  rfl

theorem State.SameImages.translate (ctx : CtxId) (va : Nat) (acc : Access) : u.translate .walk ctx va acc = s.translate .walk ctx va acc := by
  have hentry : u.tableEntry = s.tableEntry := by
    funext l a
    simp only [State.tableEntry, State.keyOf, h.npu, h.mem]
  simp only [State.translate, State.ctx, State.walk1, State.walkBad, State.breaking, State.keyOf, State.peerValid, hentry, h.mem, h.npu, h.tick]
  rfl

theorem State.SameImages.casPage (ctx : CtxId) (view : List Nat) (va n : Nat) : u.casPage .walk ctx view va n = s.casPage .walk ctx view va n := by
  simp only [State.casPage, h.translate, h.mem]

theorem State.SameImages.casBytes (ctx : CtxId) (view : List Nat) (va n : Nat) : u.casBytes .walk ctx view va n = s.casBytes .walk ctx view va n := by
  simp only [State.casBytes, h.casPage]

theorem State.SameImages.casNum (g : Sgr) (off n : Nat) : u.casNum g off n = s.casNum g off n := by
  simp only [State.casNum, h.casBytes]

theorem State.SameImages.casAccepts (g : Sgr) : u.casAccepts g = s.casAccepts g := by simp only [State.casAccepts, h.casNum]

theorem State.SameImages.casStep (d : Die) (g : Sgr) (room : Cfg → Bool) (c : Cfg) (b : Nat) : u.casStep d g room c b = s.casStep d g room c b := by
  simp only [State.casStep, h.casNum]

theorem State.SameImages.casSpell (d : Die) (g : Sgr) (room : Cfg → Bool) (off i : Nat) (c : Cfg) (n : Nat) :
    u.casSpell d g room off i c n = s.casSpell d g room off i c n := by
  induction n generalizing i c with
  | zero => rfl
  | succ n ih => simp only [State.casSpell, h.casNum, h.casStep, ih]

theorem State.SameImages.nodeRoom (d : Die) (ctx : CtxId) : u.nodeRoom d ctx = s.nodeRoom d ctx := by
  funext c
  rw [State.nodeRoom, h.ctx]
  rfl

theorem State.SameImages.recRoom (d : Die) (ctx : CtxId) : u.recRoom d ctx = s.recRoom d ctx := by
  rw [State.recRoom, h.ctx]
  rfl

theorem State.SameImages.casAdvance (d : Die) (g : Sgr) (t : Nat) : u.casAdvance d g t = s.casAdvance d g t := by
  simp only [State.casAdvance, h.casAccepts, h.casNum, h.casSpell, h.nodeRoom, h.tick]

end Same

/-! ### `gadv` and `groll` on a sequence (R232, R233) -/

/-- What an advance commits: the sequence written, unless a count would pass 65,535. -/
def Die.commit (d : Die) (g : Sgr) (old : Die) : Nat × Die := if (d.setSgr g).settled.tooMany then (3, old) else (0, (d.setSgr g).settled)

/-- A status other than 0 leaves the die; status 0 has written the sequence. -/
def Advanced (d : Die) (h : Nat) (ckpts : List Ckpt) (r : Nat × Die) : Prop :=
  (r.1 ≠ 0 → r.2 = d) ∧ (r.1 = 0 → ∃ g2, r.2.sgr? h = some g2 ∧ g2.ckpts = ckpts)

theorem Advanced.kept (d : Die) (h : Nat) (ckpts : List Ckpt) {n : Nat} (hn : n ≠ 0) : Advanced d h ckpts (n, d) :=
  ⟨fun _ => rfl, fun h0 => absurd h0 hn⟩

theorem Advanced.commit {d e : Die} {h : Nat} {g u : Sgr} (hg : d.sgr? h = some g) (hu : u.handle = h) : Advanced e h u.ckpts (d.commit u e) := by
  rw [Die.commit]
  split
  · exact .kept e h _ (by decide)
  · exact ⟨fun h0 => absurd rfl h0, fun _ => ⟨u, by rw [Die.settled_sgr?, Die.sgr?_setSgr hg hu], rfl⟩⟩

theorem State.casAdvance_eq (s : State) (d : Die) (g : Sgr) (t : Nat) : s.casAdvance d g t =
    if ghV g.hdr ≤ t then .ok (2, d)
    else if g.fin then .ok (1, d)
    else if t = ghEndtok g.hdr then
      (match s.casAccepts g with
      | .error e => .error e
      | .ok a => .ok (if a && g.depth = 0 then d.commit { g.pushCkpt with fin := true } d else (1, d)))
    else match s.casNum g (ghSpell g.hdr + 4 * t) 4 with
      | .error e => .error e
      | .ok e =>
        if field e 31 24 = 0 then .ok (1, d)
        else match s.casSpell d g (s.nodeRoom d g.ctx) (field e 23 0) 0 g.cfg (field e 31 24) with
          | .err e => .error e
          | .reject => .ok (1, d)
          | .lack => .ok (3, d)
          | .ok c => .ok ((d.push s.tick g.ctx c.top c.pushed.reverse).1.commit
              { g.pushCkpt with state := c.state, top := (d.push s.tick g.ctx c.top c.pushed.reverse).2, depth := c.depth } d) := rfl

/-- An advance that ends leaves the die unless its status is 0, and then has pushed a checkpoint. -/
theorem State.casAdvance_advanced {s : State} {d : Die} {h : Nat} {g : Sgr} {t : Nat} {r : Nat × Die} (hg : d.sgr? h = some g)
    (hr : s.casAdvance d g t = .ok r) : Advanced d h g.pushCkpt.ckpts r := by
  have hh := Die.sgr?_handle hg
  rw [State.casAdvance_eq] at hr
  split at hr
  · cases hr
    exact .kept d h _ (by decide)
  · split at hr
    · cases hr
      exact .kept d h _ (by decide)
    · split at hr
      · split at hr
        · cases hr
        · cases hr
          split
          · exact Advanced.commit (u := { g.pushCkpt with fin := true }) hg hh
          · exact .kept d h _ (by decide)
      · split at hr
        · cases hr
        · split at hr
          · cases hr
            exact .kept d h _ (by decide)
          · split at hr
            · cases hr
            · cases hr
              exact .kept d h _ (by decide)
            · cases hr
              exact .kept d h _ (by decide)
            · rename_i c _
              cases hr
              exact Advanced.commit (u := { g.pushCkpt with
                state := c.state, top := (d.push s.tick g.ctx c.top c.pushed.reverse).2, depth := c.depth }) ((Die.push_sgr? ..).trans hg) hh

/-- What going back some checkpoints leaves. -/
theorem Sgr.roll_spec (g : Sgr) (v : Nat) :
    (g.roll (Min.min v g.ckpts.length)).handle = g.handle
    ∧ (g.roll (Min.min v g.ckpts.length)).ckpts = g.ckpts.drop v
    ∧ (Min.min v g.ckpts.length = 0 → g.roll (Min.min v g.ckpts.length) = g)
    ∧ ∀ k q, Min.min v g.ckpts.length = k + 1 → g.ckpts[k]? = some q →
        (g.roll (Min.min v g.ckpts.length)).state = q.state ∧ (g.roll (Min.min v g.ckpts.length)).top = q.top
        ∧ (g.roll (Min.min v g.ckpts.length)).depth = q.depth ∧ (g.roll (Min.min v g.ckpts.length)).fin = q.fin := by
  rcases Nat.eq_zero_or_pos (Min.min v g.ckpts.length) with h0 | hpos
  · have hroll : g.roll 0 = g := rfl
    rw [h0, hroll]
    refine ⟨rfl, ?_, fun _ => rfl, fun k q hk => absurd hk (by omega)⟩
    rcases Nat.min_eq_zero_iff.1 h0 with hv | hl
    · rw [hv, List.drop_zero]
    · rw [List.length_eq_zero_iff.1 hl, List.drop_nil]
  · obtain ⟨k, hk⟩ := Nat.exists_eq_add_of_lt hpos
    rw [Nat.zero_add] at hk
    have hlt : k < g.ckpts.length := by omega
    have hlast : (g.ckpts.take (k + 1)).getLast? = some g.ckpts[k] := by
      rw [List.getLast?_eq_getElem?, List.length_take, Nat.min_eq_left (by omega), Nat.add_sub_cancel, List.getElem?_take_of_lt (by omega),
        List.getElem?_eq_getElem hlt]
    have hroll : g.roll (k + 1) = { g with
        state := g.ckpts[k].state, top := g.ckpts[k].top, depth := g.ckpts[k].depth, fin := g.ckpts[k].fin, ckpts := g.ckpts.drop (k + 1),
        ckhead := (g.ckhead + 8 - (k + 1)) % 8 } := by
      rw [Sgr.roll, hlast]
    have hdrop : g.ckpts.drop (k + 1) = g.ckpts.drop v := by
      rcases Nat.le_total v g.ckpts.length with hle | hle
      · rw [show v = k + 1 by omega]
      · rw [List.drop_eq_nil_of_le (by omega), List.drop_eq_nil_of_le (by omega)]
    rw [hk, hroll]
    refine ⟨rfl, hdrop, fun h => absurd h (by omega), fun j q hj hq => ?_⟩
    obtain rfl : k = j := by omega
    rw [List.getElem?_eq_getElem hlt, Option.some.injEq] at hq
    subst hq
    exact ⟨rfl, rfl, rfl, rfl⟩

end Sys2Proof.Machine
end

section
/-! PROOFS. The words of X on Casement's sequences (R102, R103, R229, R232, R233, R235). -/

namespace Sys2Proof.Machine

/-! ### Updates of the executing core's die -/

theorem State.sameImages_of_apart {u s : State} (h : u.apart = s.apart) : u.SameImages s :=
  ⟨State.mem_of_apart h, State.npu_of_apart h, State.tick_of_apart h⟩

theorem State.SameImages.dropGWait {u s : State} (h : u.SameImages s) : u.dropGWait.SameImages s := ⟨h.mem, h.npu, h.tick⟩

theorem State.lands_setDieHere (d : Die) : State.Lands fun s => s.setDieHere d :=
  ⟨fun _ => rfl, fun s => by rw [State.setDieHere, State.setDieHere, State.apart_modDie, State.apart_cur]⟩

theorem State.lands_dropGWait : State.Lands State.dropGWait :=
  ⟨fun _ => rfl, fun s => by rw [State.dropGWait, State.dropGWait, State.apart_modDie, State.apart_cur]⟩

theorem State.lands_noteGWait : State.Lands State.noteGWait :=
  ⟨fun _ => rfl, fun s => by rw [State.noteGWait, State.noteGWait, State.apart_modDie, State.apart_cur]⟩

theorem State.setDieHere_dropGWait (s : State) (d : Die) : s.dropGWait.setDieHere d = s.setDieHere d := by
  simp [State.setDieHere, State.dropGWait, State.modDie]

theorem State.dieHere_of_apart {u s : State} (h : u.apart = s.apart) : u.dieHere = s.dieHere := by
  rw [State.dieHere, State.dies_of_apart h, State.cur_of_apart h]
  rfl

/-- The die with the executing crew's place given up. -/
def Die.unwait (c : CoreId) (k : CrewIx) (d : Die) : Die := { d with waits := d.waits.filter fun w => !(w.core == c && w.crew == k) }

theorem State.dieHere_dropGWait (s : State) : s.dropGWait.dieHere = s.dieHere.unwait s.cur.core s.cur.crew :=
  State.die_modDie ..

theorem State.gBehind_of_apart {u s : State} (h : u.apart = s.apart) : u.gBehind u.dieHere = s.gBehind s.dieHere := by
  rw [State.gBehind, State.dieHere_of_apart h, State.cur_of_apart h]
  rfl

/-! ### A word on a handle (R102, R235) -/

section Sgr
variable {s p : State} (hp : p.apart = s.apart) (hr : s.cur.role ≠ .fw) {h : XWord} {waits : Bool} {k : State → Die → Sgr → Res}
include hp hr

theorem State.withSgr_behind (hb : s.gBehind s.dieHere = true) : p.withSgr h waits k = .block .other State.noteGWait := by
  rw [State.withSgr, State.cur_of_apart hp, if_neg hr, State.gBehind_of_apart hp]
  exact if_pos hb

variable (hb : ¬s.gBehind s.dieHere = true)
include hb

theorem State.withSgr_turn : p.withSgr h waits k = Res.leaveGau (match s.dropGWait.dieHere.sgr? h.toNat with
    | none => .trap (trapOf codeGauFault)
    | some g =>
      if g.ctx ≠ s.crew.ctx then .trap (trapOf codeGauFault)
      else if waits && s.dropGWait.dieHere.masks.any fun m => m.handle == g.handle then .block .other State.noteGWait
      else k p.dropGWait s.dropGWait.dieHere g) := by
  have hdie : p.dropGWait.dieHere = s.dropGWait.dieHere := State.dieHere_of_apart (State.lands_dropGWait.of_apart hp)
  rw [State.withSgr, State.cur_of_apart hp, if_neg hr, State.gBehind_of_apart hp, if_neg hb, hdie, State.dieHere_of_apart hp,
    State.crewCtx_of_apart hp, State.dieHere_dropGWait]
  rfl

theorem State.withSgr_foreign (hg : s.dropGWait.dieHere.sgr? h.toNat = none
      ∨ ∃ q, s.dropGWait.dieHere.sgr? h.toNat = some q ∧ q.ctx ≠ s.crew.ctx) :
    p.withSgr h waits k = .trapNoting { code := 0x50, info := 0, addr := 0 } State.dropGWait := by
  rw [State.withSgr_turn hp hr hb]
  rcases hg with hg | ⟨q, hg, hctx⟩
  · rw [hg]
    rfl
  · rw [hg]
    simp only [hctx, ne_eq, not_false_eq_true, if_true]
    rfl

variable {g : Sgr} (hg : s.dropGWait.dieHere.sgr? h.toNat = some g) (hctx : g.ctx = s.crew.ctx)
include hg hctx

theorem State.withSgr_masked (hw : waits = true) (hm : ∃ m ∈ s.dropGWait.dieHere.masks, m.handle = g.handle) :
    p.withSgr h waits k = .block .other State.noteGWait := by
  have hany : (s.dropGWait.dieHere.masks.any fun m => m.handle == g.handle) = true := by simpa using hm
  rw [State.withSgr_turn hp hr hb, hg]
  simp only [hctx, hw, hany, ne_eq, not_true_eq_false, if_false, Bool.true_and, if_true]
  rfl

theorem State.withSgr_live (hm : waits = true → ∀ m ∈ s.dropGWait.dieHere.masks, m.handle ≠ g.handle) :
    p.withSgr h waits k = Res.leaveGau (k p.dropGWait s.dropGWait.dieHere g) := by
  have hno : (waits && s.dropGWait.dieHere.masks.any fun m => m.handle == g.handle) = false := by
    rw [Bool.and_eq_false_iff, List.any_eq_false]
    cases waits with
    | false => exact .inl rfl
    | true => exact .inr fun m hmem => by simpa using hm rfl m hmem
  rw [State.withSgr_turn hp hr hb, hg]
  simp only [hctx, hno, ne_eq, not_true_eq_false, if_false, Bool.false_eq_true]

end Sgr

/-- A word on the handle in `ra`. -/
def OnHandle (i : Instr) (s : State) (tk : Tok) (ra : XReg) (waits : Bool) (k : State → Die → Sgr → Res) : Prop :=
  ∃ reads, exec i s = runWord tk reads s fun p => p.withSgr (p.getX ra) waits k

section Word
variable {i : Instr} {s : State} {tk : Tok} {ra : XReg} {waits : Bool} {k : State → Die → Sgr → Res} (hi : OnHandle i s tk ra waits k)
  (h : s.Clear tk)
include hi h

theorem OnHandle.waits_of (hblock : (s.doPops (popsOf tk)).withSgr ((s.doPops (popsOf tk)).getX ra) waits k
    = .block .other State.noteGWait) : Answers i s fun u => u.apart = s.noteGWait.apart ∧ u.pc = s.pc := by
  obtain ⟨reads, hi⟩ := hi
  obtain ⟨u, hu, hua, hpc⟩ := runWord_blocks (reads := reads) (effect := fun p => p.withSgr (p.getX ra) waits k) h.toIssues hblock
  exact ⟨u, hi.trans hu, hua, hpc⟩

theorem OnHandle.traps_of {t : TrapReq} (htrap : (s.doPops (popsOf tk)).withSgr ((s.doPops (popsOf tk)).getX ra) waits k
    = .trapNoting t State.dropGWait) : exec i s = .next (raise t s.dropGWait) := by
  obtain ⟨reads, hi⟩ := hi
  exact hi.trans (runWord_trapNoting (effect := fun p => p.withSgr (p.getX ra) waits k) h.toIssues htrap)

variable (hr : s.cur.role ≠ .fw)
include hr

theorem OnHandle.behind (hb : s.gBehind s.dieHere = true) : Answers i s fun u => u.apart = s.noteGWait.apart ∧ u.pc = s.pc :=
  hi.waits_of h (State.withSgr_behind (s.apart_doPops _) hr hb)

variable (hb : ¬s.gBehind s.dieHere = true)
include hb

theorem OnHandle.foreign (hg : s.dropGWait.dieHere.sgr? (s.getX ra).toNat = none
      ∨ ∃ q, s.dropGWait.dieHere.sgr? (s.getX ra).toNat = some q ∧ q.ctx ≠ s.crew.ctx) :
    exec i s = .next (raise { code := 0x50, info := 0, addr := 0 } s.dropGWait) := by
  refine hi.traps_of h ?_
  rw [State.getX_doPops]
  exact State.withSgr_foreign (s.apart_doPops _) hr hb hg

variable {g : Sgr} (hg : s.dropGWait.dieHere.sgr? (s.getX ra).toNat = some g) (hctx : g.ctx = s.crew.ctx)
include hg hctx

theorem OnHandle.masked (hw : waits = true) (hm : ∃ m ∈ s.dropGWait.dieHere.masks, m.handle = g.handle) :
    Answers i s fun u => u.apart = s.noteGWait.apart ∧ u.pc = s.pc := by
  refine hi.waits_of h ?_
  rw [State.getX_doPops]
  exact State.withSgr_masked (s.apart_doPops _) hr hb hg hctx hw hm

variable (hm : waits = true → ∀ m ∈ s.dropGWait.dieHere.masks, m.handle ≠ g.handle)
include hm

/-- In its turn, on a live sequence, a word does what its continuation says. -/
theorem OnHandle.runs {put : State → State} (hput : State.Lands put)
    (hk : k (s.doPops (popsOf tk)).dropGWait s.dropGWait.dieHere g = .done (put (s.doPops (popsOf tk)))) : Runs i s (put s) := by
  obtain ⟨reads, hi⟩ := hi
  refine lands_runs (effect := fun p => p.withSgr (p.getX ra) waits k) hi h hput ?_
  simp only [State.getX_doPops, State.withSgr_live (s.apart_doPops _) hr hb hg hctx hm, hk]
  rfl

theorem OnHandle.traps {t : TrapReq} (hk : k (s.doPops (popsOf tk)).dropGWait s.dropGWait.dieHere g = .trap t) :
    exec i s = .next (raise t s.dropGWait) := by
  refine hi.traps_of h ?_
  rw [State.getX_doPops, State.withSgr_live (s.apart_doPops _) hr hb hg hctx hm, hk]
  rfl

end Word

/-! ### The words -/

def gstatOn (rd : XReg) (s : State) (_ : Die) (g : Sgr) : Res :=
  match s.casAccepts g with
  | .error e => e.res
  | .ok a => .done (s.setX rd (BitVec.ofNat 64 (g.status a)))

def gadvOn (rd rb : XReg) (s : State) (d : Die) (g : Sgr) : Res :=
  match s.casAdvance d g (s.getX rb).toNat with
  | .error e => e.res
  | .ok r => .done ((s.setDieHere r.2).setX rd (BitVec.ofNat 64 r.1))

/-- The die with a fork of a sequence under a handle. -/
def Die.forked (d : Die) (g : Sgr) (k : Nat) : Die := ({ d with sgrs := { g with handle := k, fail := false } :: d.sgrs } : Die).settled

def gforkOn (rd : XReg) (s : State) (d : Die) (g : Sgr) : Res :=
  let k := freeHandle d (s.free 14) 16384
  if !s.recRoom d g.ctx || (d.forked g k).tooMany then .done (s.setX rd (BitVec.allOnes 64))
  else .done ((s.setDieHere (d.forked g k)).setX rd (BitVec.ofNat 64 k))

def grollOn (rd rb : XReg) (s : State) (d : Die) (g : Sgr) : Res :=
  let n := (s.getX rb).toNat
  if 8 < n then .trap (trapOf codeRegRange)
  else .done ((s.setDieHere (d.setSgr (g.roll (Min.min n g.ckpts.length))).settled).setX rd (BitVec.ofNat 64 (Min.min n g.ckpts.length)))

def gfreeOn (s : State) (d : Die) (g : Sgr) : Res := .done (s.setDieHere (d.drop g.handle))

/-- The mask that a `gmask` with the operand `v` asks for. -/
def State.maskFor (s : State) (g : Sgr) (v : Nat) : GMask :=
  { core := s.cur.core, crew := s.cur.crew, handle := g.handle, off := poolPlace s.part (field v 22 0),
    bar := poolPlace s.part (field v 54 32) }

def gmaskOn (rb : XReg) (s : State) (d : Die) (g : Sgr) : Res :=
  let v := (s.getX rb).toNat
  if field v 31 23 ≠ 0 || field v 63 55 ≠ 0 then .trap (trapOf codeRegRange)
  else match (poolCheck s.part (field v 22 0) (maskBytes g.hdr) 64).orElse fun _ => atomCheck s.part (field v 54 32) 16 16 with
    | some t => .trap t
    | none => .done (s.setDieHere { d with masks := d.masks ++ [s.maskFor g v] })

section Eqs
variable (s : State) (tk : Tok) (rd ra rb : XReg)

theorem gstat_on : OnHandle (.gstat tk rd ra) s tk ra true (gstatOn rd) := ⟨_, rfl⟩
theorem gadv_on : OnHandle (.gadv tk rd ra rb) s tk ra true (gadvOn rd rb) := ⟨_, rfl⟩
theorem gfork_on : OnHandle (.gfork tk rd ra) s tk ra true (gforkOn rd) := ⟨_, rfl⟩
theorem groll_on : OnHandle (.groll tk rd ra rb) s tk ra true (grollOn rd rb) := ⟨_, rfl⟩
theorem gfree_on : OnHandle (.gfree tk ra) s tk ra true gfreeOn := ⟨_, rfl⟩
theorem gmask_on : OnHandle (.gmask tk ra rb) s tk ra false (gmaskOn rb) := ⟨_, rfl⟩

end Eqs

section Live
variable {s : State} {tk : Tok} {rd ra rb : XReg} {g : Sgr} (h : s.Clear tk) (hr : s.cur.role ≠ .fw)
  (hg : s.dropGWait.dieHere.sgr? (s.getX ra).toNat = some g) (hctx : g.ctx = s.crew.ctx) (hb : ¬s.gBehind s.dieHere = true)
  (hm : ∀ m ∈ s.dropGWait.dieHere.masks, m.handle ≠ g.handle)
include h hr hg hctx hb

omit h hr hg hctx hb in
theorem State.popped_images (k : Pops) : (s.doPops k).dropGWait.SameImages s := (State.sameImages_of_apart (s.apart_doPops k)).dropGWait

omit h hr hg hctx hb in
theorem State.getX_dropGWait (r : XReg) : s.dropGWait.getX r = s.getX r := rfl

include hm

theorem gstat_reads {acc : Bool} (ha : s.casAccepts g = .ok acc) :
    Runs (.gstat tk rd ra) s (s.dropGWait.setX rd (BitVec.ofNat 64 (g.status acc))) := by
  refine (gstat_on s tk rd ra).runs h hr hb hg hctx (fun _ => hm) ((State.lands_setX rd _).comp State.lands_dropGWait) ?_
  rw [gstatOn, (State.popped_images _).casAccepts, ha]

theorem gadv_ends {r : Nat × Die} (ha : s.casAdvance s.dropGWait.dieHere g (s.getX rb).toNat = .ok r) :
    Runs (.gadv tk rd ra rb) s ((s.setDieHere r.2).setX rd (BitVec.ofNat 64 r.1)) := by
  refine (gadv_on s tk rd ra rb).runs h hr hb hg hctx (fun _ => hm) ((State.lands_setX rd _).comp (State.lands_setDieHere r.2)) ?_
  rw [gadvOn, (State.popped_images _).casAdvance, State.getX_dropGWait, State.getX_doPops, ha]
  simp only [State.setDieHere_dropGWait]

theorem gfork_copies (hroom : s.recRoom s.dropGWait.dieHere g.ctx = true)
    (hfit : ∀ m ∈ s.dropGWait.dieHere.nodes, s.dropGWait.dieHere.refs m.num + 1 + g.ckpts.length ≤ 65535) :
    let k := freeHandle s.dropGWait.dieHere (s.free 14) 16384
    Runs (.gfork tk rd ra) s ((s.setDieHere (s.dropGWait.dieHere.forked g k)).setX rd (BitVec.ofNat 64 k)) := by
  intro k
  refine (gfork_on s tk rd ra).runs h hr hb hg hctx (fun _ => hm) ((State.lands_setX rd _).comp (State.lands_setDieHere _)) ?_
  have hfree : (s.doPops (popsOf tk)).dropGWait.free 14 = s.free 14 := congrArg (fun t => Config.freeNat 14 t % 2 ^ 14) (State.popped_images _).tick
  have hfits : (s.dropGWait.dieHere.forked g k).tooMany = false := Die.fork_fits (g := { g with handle := k, fail := false }) hfit
  rw [gforkOn, hfree, (State.popped_images _).recRoom, hroom, hfits]
  simp only [State.setDieHere_dropGWait]
  rfl

theorem gfork_lacks (hroom : s.recRoom s.dropGWait.dieHere g.ctx = false) :
    Runs (.gfork tk rd ra) s (s.dropGWait.setX rd (BitVec.allOnes 64)) := by
  refine (gfork_on s tk rd ra).runs h hr hb hg hctx (fun _ => hm) ((State.lands_setX rd _).comp State.lands_dropGWait) ?_
  rw [gforkOn, (State.popped_images _).recRoom, hroom]
  rfl

theorem groll_returns (hv : (s.getX rb).toNat ≤ 8) :
    let k := Min.min (s.getX rb).toNat g.ckpts.length
    Runs (.groll tk rd ra rb) s ((s.setDieHere (s.dropGWait.dieHere.setSgr (g.roll k)).settled).setX rd (BitVec.ofNat 64 k)) := by
  refine (groll_on s tk rd ra rb).runs h hr hb hg hctx (fun _ => hm) ((State.lands_setX rd _).comp (State.lands_setDieHere _)) ?_
  rw [grollOn, State.getX_dropGWait, State.getX_doPops, if_neg (by omega)]
  simp only [State.setDieHere_dropGWait]

theorem groll_traps (hv : 8 < (s.getX rb).toNat) :
    exec (.groll tk rd ra rb) s = .next (raise { code := 0x03, info := 0, addr := 0 } s.dropGWait) := by
  refine (groll_on s tk rd ra rb).traps h hr hb hg hctx (fun _ => hm) ?_
  rw [grollOn, State.getX_dropGWait, State.getX_doPops, if_pos hv]
  rfl

theorem gfree_ends : Runs (.gfree tk ra) s (s.setDieHere (s.dropGWait.dieHere.drop g.handle)) := by
  refine (gfree_on s tk ra).runs h hr hb hg hctx (fun _ => hm) (State.lands_setDieHere _) ?_
  rw [gfreeOn, State.setDieHere_dropGWait]

omit hm in
theorem gmask_queues (h31 : field (s.getX rb).toNat 31 23 = 0) (h63 : field (s.getX rb).toNat 63 55 = 0)
    (hpool : poolCheck s.part (field (s.getX rb).toNat 22 0) (maskBytes g.hdr) 64 = none)
    (hatom : atomCheck s.part (field (s.getX rb).toNat 54 32) 16 16 = none) :
    Runs (.gmask tk ra rb) s (s.setDieHere { s.dropGWait.dieHere with
      masks := s.dropGWait.dieHere.masks ++ [s.maskFor g (s.getX rb).toNat] }) := by
  refine (gmask_on s tk ra rb).runs h hr hb hg hctx (fun hw => absurd hw (by decide)) (State.lands_setDieHere _) ?_
  have hpart : (s.doPops (popsOf tk)).dropGWait.part = s.part := State.part_of_apart (u := s.doPops (popsOf tk)) (s.apart_doPops _)
  have hcur : (s.doPops (popsOf tk)).dropGWait.cur = s.cur := State.cur_of_apart (u := s.doPops (popsOf tk)) (s.apart_doPops _)
  rw [gmaskOn, State.getX_dropGWait, State.getX_doPops, hpart]
  simp only [h31, h63, hpool, hatom, State.maskFor, hpart, hcur, State.setDieHere_dropGWait]
  rfl

end Live

end Sys2Proof.Machine
end

section
/-! PROOFS. The word `gnew`, the words on sequences in the firmware context, and all of them together (R102, R103, R229, R232, R233). -/

namespace Sys2Proof.Machine

/-! ### `gnew` -/

/-- A sequence in the start state of its image (R229). -/
def State.startSgr (s : State) (k a : Nat) (hdr : Image) : Sgr :=
  { handle := k, ctx := s.crew.ctx, gaddr := a, hdr := hdr, state := ghStart hdr, top := 0, depth := 0, fin := false, fail := false,
    ckpts := [], ckhead := 0, view := s.casView }

/-- The effect of `gnew`. -/
def State.gnewEffect (rd ra : XReg) (s : State) : Res :=
  let a := (s.getX ra).toNat
  if s.cur.role = .fw || a % 64 ≠ 0 then .trap (trapAt codeGauFault a)
  else if s.gBehind s.dieHere then .block .other State.noteGWait
  else Res.leaveGau <| match s.casBytes .walk s.crew.ctx s.casView a 64 with
    | .error e => e.res
    | .ok b =>
      let s := s.dropGWait
      let h : Image := BitVec.ofNat 512 (leNat b)
      if headerBad h then .trap (trapAt codeGauFault a)
      else if !s.recRoom s.dieHere s.crew.ctx then .done (s.setX rd (BitVec.allOnes 64))
      else
        let k := freeHandle s.dieHere (s.free 14) 16384
        .done ((s.setDieHere { s.dieHere with sgrs := s.startSgr k a h :: s.dieHere.sgrs }).setX rd (BitVec.ofNat 64 k))

theorem gnew_eq (tk : Tok) (rd ra : XReg) (s : State) : exec (.gnew tk rd ra) s = runWord tk [refX ra] s (State.gnewEffect rd ra) := rfl

section Gnew
variable {s : State} {tk : Tok} {rd ra : XReg} (h : s.Clear tk) (hr : s.cur.role ≠ .fw)
include h hr

omit hr in
theorem gnew_misaligned (ha : (s.getX ra).toNat % 64 ≠ 0) : Traps (.gnew tk rd ra) s { code := 0x50, info := 0, addr := s.getX ra } := by
  refine (gnew_eq ..).trans (runWord_trap h.toIssues ?_)
  rw [State.gnewEffect, State.getX_doPops, if_pos (by simp [ha]), trapAt, BitVec.ofNat_toNat]
  simp [codeGauFault]

variable (ha : (s.getX ra).toNat % 64 = 0)
include ha

theorem gnew_behind (hb : s.gBehind s.dieHere = true) :
    Answers (.gnew tk rd ra) s fun u => u.apart = s.noteGWait.apart ∧ u.pc = s.pc := by
  rw [Answers, gnew_eq]
  refine runWord_blocks (k := .other) (note := State.noteGWait) h.toIssues ?_
  have hpops := s.apart_doPops (popsOf tk)
  rw [State.gnewEffect, State.getX_doPops, State.cur_of_apart hpops, if_neg (by simp [hr, ha]), State.gBehind_of_apart hpops, if_pos hb]

variable (hb : s.gBehind s.dieHere = false) {b : List Byte}
  (hbytes : (s.doPops (popsOf tk)).casBytes .walk s.crew.ctx (s.doPops (popsOf tk)).casView (s.getX ra).toNat 64 = .ok b)
include hb hbytes

omit h in
/-- In its turn, with the header read, `gnew` goes by the header and the record quota. -/
theorem State.gnewEffect_read : State.gnewEffect rd ra (s.doPops (popsOf tk)) =
    let p := (s.doPops (popsOf tk)).dropGWait
    let d := s.dropGWait.dieHere
    let hdr : Image := BitVec.ofNat 512 (leNat b)
    let k := freeHandle d (s.free 14) 16384
    Res.leaveGau (if headerBad hdr then .trap (trapAt codeGauFault (s.getX ra).toNat)
      else if !s.recRoom d s.crew.ctx then .done (p.setX rd (BitVec.allOnes 64))
      else .done ((s.doPops (popsOf tk)).setDieHere { d with sgrs := p.startSgr k (s.getX ra).toNat hdr :: d.sgrs } |>.setX rd
        (BitVec.ofNat 64 k))) := by
  have hpops := s.apart_doPops (popsOf tk)
  have hdie : (s.doPops (popsOf tk)).dropGWait.dieHere = s.dropGWait.dieHere := State.dieHere_of_apart (State.lands_dropGWait.of_apart hpops)
  have hctx : (s.doPops (popsOf tk)).dropGWait.crew.ctx = s.crew.ctx := State.crewCtx_of_apart (u := s.doPops (popsOf tk)) hpops
  have hfree : (s.doPops (popsOf tk)).dropGWait.free 14 = s.free 14 := congrArg (fun t => Config.freeNat 14 t % 2 ^ 14) (State.popped_images _).tick
  rw [State.gnewEffect, State.getX_doPops, State.cur_of_apart hpops, if_neg (by simp [hr, ha]), State.gBehind_of_apart hpops, hb,
    State.crewCtx_of_apart hpops, hbytes]
  simp only [hdie, hctx, hfree, (State.popped_images _).recRoom, State.setDieHere_dropGWait]
  rfl

theorem gnew_badHeader (hbad : headerBad (BitVec.ofNat 512 (leNat b)) = true) :
    exec (.gnew tk rd ra) s = .next (raise { code := 0x50, info := 0, addr := s.getX ra } s.dropGWait) := by
  refine (gnew_eq ..).trans (runWord_trapNoting (note := State.dropGWait) h.toIssues ?_)
  rw [State.gnewEffect_read hr ha hb hbytes]
  dsimp only
  rw [if_pos hbad, trapAt, BitVec.ofNat_toNat]
  simp [codeGauFault, Res.leaveGau]

variable (hgood : headerBad (BitVec.ofNat 512 (leNat b)) = false)
include hgood

theorem gnew_lacks (hroom : s.recRoom s.dropGWait.dieHere s.crew.ctx = false) :
    Runs (.gnew tk rd ra) s (s.dropGWait.setX rd (BitVec.allOnes 64)) := by
  refine lands_runs (gnew_eq ..) h ((State.lands_setX rd _).comp State.lands_dropGWait) ?_
  rw [State.gnewEffect_read hr ha hb hbytes]
  simp only [hgood, hroom]
  rfl

theorem gnew_starts (hroom : s.recRoom s.dropGWait.dieHere s.crew.ctx = true) :
    let k := freeHandle s.dropGWait.dieHere (s.free 14) 16384
    Runs (.gnew tk rd ra) s ((s.setDieHere { s.dropGWait.dieHere with
      sgrs := (s.doPops (popsOf tk)).dropGWait.startSgr k (s.getX ra).toNat (BitVec.ofNat 512 (leNat b)) :: s.dropGWait.dieHere.sgrs }).setX rd
        (BitVec.ofNat 64 k)) := by
  refine lands_runs (gnew_eq ..) h ((State.lands_setX rd _).comp (State.lands_setDieHere _)) ?_
  rw [State.gnewEffect_read hr ha hb hbytes]
  simp only [hgood, hroom]
  rfl

end Gnew

/-! ### The firmware context (log 21) -/

/-- The firmware context names no register of a crew and waits for no token. -/
theorem runWord_trap_fw {tk : Tok} {l : List XReg} {s : State} {effect : State → Res} {t : TrapReq} (hr : s.cur.role = .fw)
    (he : effect (s.doPops (popsOf tk)) = .trap t) : runWord tk (l.map refX) s effect = .next (raise t s) := by
  have hpops : s.popsReady (popsOf tk) = true := if_pos hr
  have hparity : s.parityBad (l.map refX) = false := by simp [State.parityBad, refX, hr]
  have hcredit : s.creditFull (popsOf tk) = false := by simp [State.creditFull, hr]
  simp [runWord, runWith, hpops, hparity, hcredit, he]

theorem OnHandle.fw_traps {i : Instr} {s : State} {tk : Tok} {ra : XReg} {l : List XReg} {waits : Bool} {k : State → Die → Sgr → Res}
    (hr : s.cur.role = .fw) (hi : exec i s = runWord tk (l.map refX) s fun p => p.withSgr (p.getX ra) waits k) :
    Traps i s { code := 0x50, info := 0, addr := 0 } := by
  refine hi.trans (runWord_trap_fw hr ?_)
  rw [State.withSgr, State.cur_of_apart (s.apart_doPops _), if_pos hr]
  rfl

/-! ### What the ends of sequences leave -/

/-- A sequence that ends is there no more, and the nodes left are those that others hold (R233). -/
theorem Die.drop_spec (d : Die) (h : Nat) : (d.drop h).sgr? h = none ∧ (∀ q ∈ (d.drop h).sgrs, q ∈ d.sgrs)
    ∧ ∀ m ∈ (d.drop h).nodes, 0 < m.rc ∧ m.rc = (d.drop h).refs m.num := by
  refine ⟨?_, fun q hq => ?_, fun m hm => Die.settle_counts (Nat.lt_succ_self _) hm⟩
  · rw [Die.drop, Die.settled_sgr?, Die.sgr?, List.find?_filter, List.find?_eq_none]
    intro q _ hq
    simp at hq
  · rw [Die.drop, Die.settled_sgrs] at hq
    exact List.mem_of_mem_filter hq

/-- Settles O30: every word through `withSgr`, its continuation, and what settling leaves of the nodes. -/
theorem sequenceWords : Obligations.SequenceWords := by
  unfold Obligations.SequenceWords
  refine ⟨fun s tk rd ra rb g h hr => ?_, fun s tk rd ra rb i hr hi => ?_, fun s tk rd ra h hr => ?_⟩
  · dsimp only
    refine ⟨fun i hi hwhy => ?_, (gmask_on s tk ra rb).behind h hr, fun hg hctx hb hm => ?_, fun hb hg i hi => ?_⟩
    · have hword : ∃ k, OnHandle i s tk ra true k := by
        rcases hi with rfl | rfl | rfl | rfl | rfl
        exacts [⟨_, gfork_on s tk rd ra⟩, ⟨_, gadv_on s tk rd ra rb⟩, ⟨_, groll_on s tk rd ra rb⟩, ⟨_, gfree_on s tk ra⟩,
          ⟨_, gstat_on s tk rd ra⟩]
      obtain ⟨k, hk⟩ := hword
      by_cases hb : s.gBehind s.dieHere = true
      · exact hk.behind h hr hb
      · obtain ⟨hg, hctx, hm⟩ := hwhy.resolve_left hb
        exact hk.masked h hr hb hg hctx rfl hm
    · have hh := Die.sgr?_handle hg
      refine ⟨fun acc ha => gstat_reads h hr hg hctx hb hm ha, fun hv => gadv_ends h hr hg hctx hb hm (r := (2, s.dropGWait.dieHere)) (if_pos hv),
        fun hv hfin => gadv_ends h hr hg hctx hb hm (r := (1, s.dropGWait.dieHere)) ?_, fun r hadv => ⟨gadv_ends h hr hg hctx hb hm hadv, ?_⟩, fun hroom hfit =>
          ⟨_, _, freeHandle_lt .., freeHandle_none (State.recRoom_length hroom) _, Die.settled_sgrs _, gfork_copies h hr hg hctx hb hm hroom hfit⟩,
        gfork_lacks h hr hg hctx hb hm, fun hv => ?_, groll_traps h hr hg hctx hb hm, ?_, fun h31 h63 hpool hatom => ?_⟩
      · rw [State.casAdvance_eq, if_neg (by omega), if_pos hfin]
      · exact State.casAdvance_advanced hg hadv
      · obtain ⟨hhandle, hckpts, hnone, hlast⟩ := g.roll_spec (s.getX rb).toNat
        exact ⟨_, _, groll_returns h hr hg hctx hb hm hv, (Die.settled_sgr? ..).trans (Die.sgr?_setSgr hg (hhandle.trans hh)), hckpts, hnone, hlast⟩
      · have hdrop := s.dropGWait.dieHere.drop_spec g.handle
        rw [hh] at hdrop
        exact ⟨_, hh ▸ gfree_ends h hr hg hctx hb hm, hdrop⟩
      · rw [← hh]
        exact gmask_queues h hr hg hctx hb h31 h63 hpool hatom
    · rcases hi with rfl | rfl | rfl | rfl | rfl | rfl
      exacts [(gfork_on ..).foreign h hr hb hg, (gadv_on s tk rd ra rb).foreign h hr hb hg, (gmask_on ..).foreign h hr hb hg,
        (groll_on s tk rd ra rb).foreign h hr hb hg, (gfree_on ..).foreign h hr hb hg, (gstat_on ..).foreign h hr hb hg]
  · rcases hi with rfl | rfl | rfl | rfl | rfl | rfl
    exacts [OnHandle.fw_traps (l := [ra]) hr rfl, OnHandle.fw_traps (l := [ra, rb]) hr rfl, OnHandle.fw_traps (l := [ra, rb]) hr rfl,
      OnHandle.fw_traps (l := [ra, rb]) hr rfl, OnHandle.fw_traps (l := [ra]) hr rfl, OnHandle.fw_traps (l := [ra]) hr rfl]
  · dsimp only
    refine ⟨gnew_misaligned h, gnew_behind h hr, fun b ha hb hbytes => ⟨gnew_badHeader h hr ha hb hbytes, gnew_lacks h hr ha hb hbytes,
      fun hgood hroom => ?_⟩⟩
    have hctx : (s.doPops (popsOf tk)).dropGWait.crew.ctx = s.crew.ctx :=
      State.crewCtx_of_apart (u := s.doPops (popsOf tk)) (s.apart_doPops _)
    exact ⟨_, _, freeHandle_lt .., freeHandle_none (State.recRoom_length hroom) _, rfl, hctx, rfl, rfl, rfl, rfl, rfl, rfl, rfl, rfl,
      gnew_starts h hr ha hb hbytes hgood hroom⟩

end Sys2Proof.Machine
end

section
/-! PROOFS. A turn of Hinge: what its reads leave in its core, and what they read (R247, R252, R290). -/

namespace Sys2Proof.Machine

/-! ### What a turn leaves as it was -/

/-- A core without what the reads of a turn of Hinge leave in it: translations, and the crew that Hinge is at. -/
def Core.idle (c : Core) : Core := { c.untagged with hingeCur := none }

/-- A state within a turn of Hinge that began in `a`: nothing has changed but TLBs, walk caches, which have grown, and the crew
that Hinge is at. -/
structure State.Turned (a u : State) : Prop where
  rest : { u with cores := a.cores } = a
  core : ∀ c, (u.core c).idle = (a.core c).idle
  walks : ∀ w ∈ a.here.walks, w ∈ u.here.walks

theorem State.Turned.refl (a : State) : a.Turned a := ⟨rfl, fun _ => rfl, fun _ h => h⟩

theorem State.Turned.with_cores {a u : State} (h : a.Turned u) : { a with cores := u.cores } = u := by
  rw [← h.rest]

theorem State.Turned.trans {a u w : State} (h : a.Turned u) (k : u.Turned w) : a.Turned w := by
  refine ⟨?_, fun c => (k.core c).trans (h.core c), fun e he => k.walks e (h.walks e he)⟩
  rw [← k.with_cores]
  exact h.rest

theorem State.turned_modHere (u : State) {f : Core → Core} (hf : ∀ c, (f c).idle = c.idle) (hw : ∀ c, ∀ w ∈ c.walks, w ∈ (f c).walks) :
    u.Turned (u.modHere f) := by
  refine ⟨rfl, fun c => ?_, fun w h => ?_⟩
  · rw [State.modHere_eq]
    by_cases hc : u.cur.core = c
    · subst hc
      rw [State.core_setCore]
      exact hf _
    · rw [State.core_setCore_ne _ _ hc]
  · rw [State.here_modHere]
    exact hw _ w h

/-- Hinge works for a crew of its core. -/
theorem State.turned_hingeCur (u : State) (k : Option CrewIx) : u.Turned (u.modHere fun c => { c with hingeCur := k }) :=
  u.turned_modHere (fun _ => rfl) fun _ _ h => h

theorem mem_foldl_walks {w : WalkEntry} (new l : List WalkEntry) (h : w ∈ l) :
    w ∈ new.foldl (fun l e => if l.contains e then l else e :: l) l := by
  induction new generalizing l with
  | nil => exact h
  | cons e new ih =>
    refine ih _ ?_
    dsimp only
    split
    · exact h
    · exact List.mem_cons_of_mem _ h

theorem State.turned_tlbFill (u : State) (unit : Nat) (tag : Option CtxId) (va : Nat) (x : Xlat) :
    u.Turned (u.tlbFill u.cur.core unit tag va x) :=
  u.turned_modHere (fun _ => rfl) fun _ _ h => mem_foldl_walks _ _ h

theorem State.turned_tlbNext (u : State) (ctx : CtxId) (unit va : Nat) (x : Xlat) (acc : Access) (down : Bool) :
    u.Turned (u.tlbNext ctx unit va x acc down) := by
  unfold State.tlbNext
  dsimp only
  split
  · exact .refl u
  · split
    · exact u.turned_tlbFill ..
    · exact .refl u

theorem State.turned_tlbWalk (u : State) (ctx : CtxId) (unit va : Nat) (x : Xlat) (acc : Access) (down : Bool) :
    u.Turned (u.tlbWalk ctx unit va x acc down) := (u.turned_tlbFill ..).trans (State.turned_tlbNext ..)

/-! ### What a turn reads alike -/

section Turned
variable {a u : State} (h : a.Turned u)
include h

theorem State.Turned.cur : u.cur = a.cur := by rw [← h.with_cores]

theorem State.Turned.mem : u.mem = a.mem := by rw [← h.with_cores]

theorem State.Turned.cycle : u.cycle = a.cycle := by rw [← h.with_cores]

theorem State.Turned.read {α : Type} (r : Core → α) (hr : ∀ c, r c.idle = r c) (c : CoreId) : r (u.core c) = r (a.core c) := by
  rw [← hr, h.core, hr]

theorem State.Turned.readHere {α : Type} (r : Core → α) (hr : ∀ c, r c.idle = r c) : r u.here = r a.here := by
  rw [State.here, h.cur]
  exact h.read r hr _

theorem State.Turned.pool (c : CoreId) : (u.core c).pool = (a.core c).pool := h.read Core.pool (fun _ => rfl) c

theorem State.Turned.crewAt : u.crewAt = a.crewAt := by
  funext c k
  exact h.read (fun q => q.crew k) (fun _ => rfl) c

theorem State.Turned.crew : u.crew = a.crew := by rw [State.crew, h.crewAt, h.cur]; rfl

theorem State.Turned.hgRun : u.hgRun = a.hgRun := congrArg Crew.hinge h.crew

theorem State.Turned.hgPos : u.hgPos = a.hgPos := by rw [State.hgPos, h.crew]; rfl

theorem State.Turned.hgV : u.hgV = a.hgV := by rw [State.hgV, h.hgRun, h.hgPos]; rfl

theorem State.Turned.hgBase : u.hgBase = a.hgBase := by rw [State.hgBase, h.hgRun, h.hgPos]; rfl

theorem State.Turned.hgF : u.hgF = a.hgF := by rw [State.hgF, h.hgRun, h.hgPos]; rfl

theorem State.Turned.hgPool : u.here.hgPool = a.here.hgPool := h.readHere Core.hgPool fun _ => rfl

theorem State.Turned.hgCounterPlace : u.hgCounterPlace = a.hgCounterPlace := by rw [State.hgCounterPlace, h.crew]; rfl

theorem State.Turned.hgLocked : u.hgLocked = a.hgLocked := by
  rw [State.hgLocked, h.hgCounterPlace]
  exact h.readHere (fun c => c.lockedFor none a.hgCounterPlace 14) fun _ => rfl

theorem State.Turned.teamSize : u.teamSize = a.teamSize := by rw [State.teamSize, h.cur, h.crew]; rfl

theorem State.Turned.teamMember (q : Nat) : u.teamMember q = a.teamMember q := by
  simp only [State.teamMember, State.findBlock, h.crew, h.crewAt]

theorem State.Turned.part : u.part = a.part := by rw [State.part, h.cur, h.crew]; rfl

theorem State.Turned.barRef (v : XWord) (onlyHere : Bool) : u.barRef v onlyHere = a.barRef v onlyHere := by
  simp only [State.barRef, h.teamSize, h.teamMember, h.crewAt, h.part, h.cur]

theorem State.Turned.hgOwner (t : Nat) : u.hgOwner t = a.hgOwner t := by
  simp only [State.hgOwner, h.hgRun, h.hgBase, h.hgV, h.cur, h.hgPos, h.teamMember]

theorem State.Turned.hgFrontOf (c : CoreId) (k : CrewIx) (q : Nat) : u.hgFrontOf c k q = a.hgFrontOf c k q := by
  simp only [State.hgFrontOf, h.crewAt, h.pool]

theorem State.Turned.seesBy (c : CoreId) (k : CrewIx) (role : Role) : u.seesBy c k role = a.seesBy c k role := by
  funext w id
  rw [State.seesBy.eq_def, State.seesBy.eq_def, h.crewAt, h.read Core.view (fun _ => rfl), h.read Core.fw (fun _ => rfl)]

theorem State.Turned.hgSeesBy : u.hgSeesBy = a.hgSeesBy := by
  funext w id
  rw [State.hgSeesBy, State.hgSeesBy, h.hgRun, h.crew, h.cur, h.seesBy]

theorem State.Turned.hgSees : u.hgSees = a.hgSees := by
  funext g
  rw [State.hgSees, State.hgSees, h.hgSeesBy]

theorem State.Turned.hgSeesFar : u.hgSeesFar = a.hgSeesFar := by
  funext g
  rw [State.hgSeesFar, State.hgSeesFar, h.hgSeesBy]

theorem State.Turned.lineOf (peer base : Nat) : u.lineOf peer base = a.lineOf peer base :=
  h.readHere (fun c => c.lines.find? fun l : RemoteLine => l.peer == peer && l.pa == base) fun _ => rfl

end Turned

/-! ### Translations of a turn -/

/-- A check that fails no more often lets through what passes. -/
theorem Tr.ok_of_ok_of_ite {p q : Prop} [Decidable p] [Decidable q] {c d : BitVec 8} {t u : Tr} {x : Xlat}
    (h : (if p then Tr.fault c else t) = .ok x) (hpq : ¬ p → ¬ q) (htu : t = .ok x → u = .ok x) :
    (if q then Tr.fault d else u) = .ok x := by
  by_cases hp : p
  · rw [if_pos hp] at h
    cases h
  · rw [if_neg hp] at h
    rw [if_neg (hpq hp), htu h]

section Translate
variable {s : State} {cs : Vector Core 64} {via : Via} {ctx : CtxId} {va : Nat} {acc : Access} {x : Xlat}

/-- A state whose TLBs and walk caches spare more translates what succeeds. -/
theorem State.translate_spared
    (hbad : ∀ places, s.walkBad via ctx va places = false → ({ s with cores := cs } : State).walkBad via ctx va places = false)
    (hx : s.translate via ctx va acc = .ok x) : ({ s with cores := cs } : State).translate via ctx va acc = .ok x := by
  have hspared (places : List Nat) (h : ¬ s.walkBad via ctx va places = true) :
      ¬ ({ s with cores := cs } : State).walkBad via ctx va places = true := ne_true_of_eq_false (hbad _ (eq_false_of_ne_true h))
  refine Tr.ok_of_ok_of_ite hx id fun hx => Tr.ok_of_ok_of_ite hx (hspared _) fun hx => ?_
  rw [show ({ s with cores := cs } : State).walk1 ctx va = s.walk1 ctx va from rfl]
  generalize (s.walk1 ctx va).1 = w at hx ⊢
  cases w with
  | fault1 => cases hx
  | fault2 => cases hx
  | leaf l1 => exact Tr.ok_of_ok_of_ite hx id fun hx => Tr.ok_of_ok_of_ite hx (hspared _) id

end Translate

end Sys2Proof.Machine
end

section
/-! PROOFS. The reads of a turn of Hinge (R247, R252, R287, R290). -/

namespace Sys2Proof.Machine

/-! ### Global reads -/

/-- No TLB entry of the executing core spares a walk of the tables. -/
def State.walked (q : State) : State := q.modHere fun c => { c with tlb := [] }

/-- Hinge reads a value from global memory, whatever its TLB holds. -/
def State.Loads (a : State) (va n v : Nat) : Prop := ∃ w x, a.walked.hgLoad va n = .loaded v w x

theorem State.turned_walked (a : State) : a.Turned a.walked := a.turned_modHere (fun _ => rfl) fun _ _ h => h

section RemoteLoad
variable {s : State} {sees : RemoteStore → Bool} {va peer pa n : Nat}

/-- A load from a peer that gives bytes gives those of a line held. -/
theorem State.remoteLoad_bytes {b : List Byte} {t : State} (h : s.remoteLoad sees va peer pa n = .bytes b t) :
    ∃ l, s.lineOf peer (pa / 64 * 64) = some l ∧ b = bytesFrom (s.remoteByte sees l) pa n := by
  cases hl : s.lineOf peer (pa / 64 * 64) with
  | some l =>
    rw [State.remoteLoad_held hl] at h
    exact ⟨l, rfl, (MemRes.bytes.inj h).1.symm⟩
  | none =>
    by_cases hr : s.RefusedLine peer (pa / 64 * 64)
    · rw [State.remoteLoad_refused hl hr] at h
      cases h
    · rw [State.remoteLoad_asks hl hr] at h
      cases h

end RemoteLoad

section Turned
variable {a u : State} (h : a.Turned u)
include h

theorem State.Turned.translate {ctx : CtxId} {unit va : Nat} {acc : Access} {x : Xlat}
    (hx : a.walked.translate (.tlb unit) ctx va acc = .ok x) : u.translate (.tlb unit) ctx va acc = .ok x := by
  have hu : ({ a.walked with cores := u.cores } : State) = u := h.with_cores
  have hwalks : a.walked.here.walks = a.here.walks := by rw [State.walked, State.here_modHere]
  have htlb : a.walked.here.tlb = [] := by rw [State.walked, State.here_modHere]
  rw [← hu]
  refine State.translate_spared (fun places hp => ?_) hx
  rw [hu]
  simp only [State.walkBad, htlb, hwalks, List.any_nil, Bool.not_false, Bool.true_and] at hp
  refine Bool.and_eq_false_imp.2 fun _ => List.any_eq_false.2 fun p hpl hbad => List.any_eq_false.1 hp p hpl ?_
  obtain ⟨hb, hno⟩ := Bool.and_eq_true_iff.1 hbad
  rw [h.mem] at hb
  rw [Bool.not_eq_true'] at hno
  have hless : (a.here.walks.any fun w => w.ctx == ctx && w.at_ == p) = false :=
    List.any_eq_false.2 fun w hw => List.any_eq_false.1 hno w (h.walks w hw)
  rw [hless]
  exact Bool.and_eq_true_iff.2 ⟨hb, rfl⟩

/-- What Hinge reads where no TLB entry helps it, it reads anywhere in its turn. -/
theorem State.Turned.hgLoad {va n v va' : Nat} {x : Xlat} (hl : a.walked.hgLoad va n = .loaded v va' x) :
    u.hgLoad va n = .loaded v va' x := by
  have hw := a.turned_walked
  rw [State.hgLoad, hw.crew] at hl
  rw [State.hgLoad, h.crew]
  cases ht : a.walked.translate (.tlb 5) a.crew.ctx va .read with
  | fault c =>
    rw [ht] at hl
    cases hl
  | ok y =>
    rw [ht] at hl
    rw [h.translate ht]
    dsimp only at hl ⊢
    split at hl
    next hdead => rwa [if_pos hdead]
    next hdead =>
      rw [if_neg hdead]
      split at hl
      next hrem =>
        rw [if_pos hrem]
        split at hl
        next b _ hb =>
          obtain ⟨l, hline, rfl⟩ := State.remoteLoad_bytes hb
          rw [hw.lineOf, ← h.lineOf] at hline
          rw [State.remoteLoad_held hline, State.remoteByte_of_mem h.mem, ← State.remoteByte_of_mem hw.mem, h.hgSeesFar, ← hw.hgSeesFar]
          exact hl
        all_goals cases hl
      next hrem =>
        rw [hw.mem, hw.hgSees] at hl
        rw [if_neg hrem, h.mem, h.hgSees]
        exact hl

/-- A read goes on with its value within the turn. -/
theorem State.Turned.load {va n v : Nat} (hl : a.Loads va n v) :
    ∃ w, a.Turned w ∧ ∀ onFault k, (u.hgLoad va n).andThen u onFault k = k w v := by
  obtain ⟨va', x, hl⟩ := hl
  exact ⟨_, h.trans (u.turned_tlbWalk u.crew.ctx 5 va' x .read false), fun onFault k => by rw [h.hgLoad hl]; rfl⟩

/-- The bounds of a row are read within the turn. -/
theorem State.Turned.row {array i lo hi : Nat} (hlo : a.Loads (array + 4 * i) 4 lo) (hhi : a.Loads (array + 4 * (i + 1)) 4 hi) :
    ∃ w, a.Turned w ∧ ∀ onFault k, u.hgRow onFault array i k = if hi < lo then .next onFault else k w lo hi := by
  obtain ⟨w1, h1, hk1⟩ := h.load hlo
  obtain ⟨w2, h2, hk2⟩ := h1.load hhi
  exact ⟨w2, h2, fun onFault k => by rw [State.hgRow, hk1, hk2]⟩

end Turned

/-! ### Pool reads -/

/-- Bytes of a pool that nothing keeps from a read. -/
def Core.Free (c : Core) (place n : Nat) : Prop := c.lockedFor none place n = false ∧ c.poolBad place n = false

theorem Core.hgPool_free {c : Core} {part : XWord} {off n : Nat} (h : c.Free (poolPlace part off) n) :
    c.hgPool part off n = .val (leNat (memGets c.pool (poolPlace part off) n)) := by
  obtain ⟨hl, hb⟩ := h
  simp [Core.hgPool, hl, hb]

theorem Core.hgPool_bad {c : Core} {part : XWord} {off n : Nat} (hl : c.lockedFor none (poolPlace part off) n = false)
    (hb : c.poolBad (poolPlace part off) n = true) : c.hgPool part off n = .fault := by
  simp [Core.hgPool, hl, hb]

/-- A field of an allotment that can be read, and its value. -/
def Core.Holds (c : Core) (part : XWord) (off n v : Nat) : Prop :=
  c.Free (poolPlace part off) n ∧ leNat (memGets c.pool (poolPlace part off) n) = v

theorem Core.Holds.hgPool {c : Core} {part : XWord} {off n v : Nat} (h : c.Holds part off n v) : c.hgPool part off n = .val v := by
  obtain ⟨hfree, rfl⟩ := h
  exact Core.hgPool_free hfree

theorem State.Turned.holds {a u : State} (h : a.Turned u) {off n v : Nat} (hv : a.here.Holds a.crew.part off n v) :
    u.here.hgPool u.crew.part off n = .val v := by
  rw [h.hgPool, h.crew]
  exact hv.hgPool

/-! ### Evaluations -/

section Evaluate
variable {a u : State} (h : a.Turned u) {onFault : State}
include h

theorem State.Turned.finishedPart {i e : Nat} (he : a.here.Holds a.crew.part (gdDval a.hgRun.gd + entrySize a.hgRun.rd * i)
    (entrySize a.hgRun.rd) e) :
    u.hgFinishedPart onFault i = .next (u.hgEval true i
      (finishedRegs (entryValue (rdVty a.hgRun.rd) e) (BitVec.ofNat 64 (a.hgBase + i)))) := by
  unfold State.hgFinishedPart
  dsimp only
  rw [h.hgRun, h.holds he, ← h.hgBase]
  rfl

/-- The weight that the message part has in `e2` (R252). -/
def State.Weighs (a : State) (weights edge : Nat) (w : XWord) : Prop :=
  (weights = 0 ∧ w = 0)
    ∨ (weights ≠ 0 ∧ ∃ v, a.Loads (weights + 4 * edge) 4 v ∧ w = hingeIn (rdXs a.hgRun.rd) (rdWty a.hgRun.rd) v)

theorem State.Turned.message {weights edge origin target ov : Nat} {m : XWord} (hov : a.Loads (gdOval a.hgRun.gd + 4 * origin) 4 ov)
    (hm : a.Weighs weights edge m) :
    ∃ w, a.Turned w ∧ u.hgMessage onFault weights edge origin target = .next (w.hgEval false target
      (messageRegs (hingeIn (rdXs a.hgRun.rd) (rdVty a.hgRun.rd) ov) m (BitVec.ofNat 64 origin))) := by
  unfold State.hgMessage
  dsimp only
  rw [h.hgRun]
  obtain ⟨rfl, rfl⟩ | ⟨hw, v, hv, rfl⟩ := hm
  · obtain ⟨w, hw, hk⟩ := h.load hov
    exact ⟨w, hw, by rw [if_pos rfl, hk]⟩
  · obtain ⟨u1, h1, hk1⟩ := h.load hv
    obtain ⟨w, h2, hk2⟩ := h1.load hov
    exact ⟨w, h2, by rw [if_neg hw, hk1, hk2]⟩

end Evaluate

/-! ### Results of a turn -/

/-- A turn changes the run of its crew alone. -/
def State.RunsTo (a u : State) (r : HingeRun) : Prop :=
  (u.crewAt a.cur.core a.cur.crew).hinge = r ∧ (∀ c, (u.core c).pool = (a.core c).pool) ∧ u.mem = a.mem

theorem State.crewAt_modCrew (s : State) (f : Crew → Crew) : (s.modCrew f).crewAt s.cur.core s.cur.crew = f s.crew := s.crew_modCrew f

theorem State.corePool_modCrew (s : State) (f : Crew → Crew) (c : CoreId) : ((s.modCrew f).core c).pool = (s.core c).pool := by
  by_cases hc : s.cur.core = c
  · subst hc
    exact s.pool_modCrew f
  · exact congrArg Core.pool (State.core_setCore_ne _ _ hc)

theorem State.Turned.runsTo {a u : State} (h : a.Turned u) : a.RunsTo u a.hgRun := by
  refine ⟨?_, h.pool, h.mem⟩
  rw [h.crewAt]
  rfl

theorem State.Turned.modRun {a u : State} (h : a.Turned u) (f : HingeRun → HingeRun) : a.RunsTo (u.modRun f) (f a.hgRun) := by
  refine ⟨?_, fun c => (State.corePool_modCrew ..).trans (h.pool c), h.mem⟩
  rw [← h.cur, State.modRun, State.crewAt_modCrew, h.crew]
  rfl

end Sys2Proof.Machine
end

section
/-! PROOFS. Hinge's steps and their ends (R105, R254 to R256). -/

namespace Sys2Proof.Machine

/-! ### Reading a core after an update of one -/

theorem State.read_modCore {α : Type} (g : Core → α) {f : Core → Core} (hf : ∀ c, g (f c) = g c) (s : State) (d c : CoreId) :
    g ((s.modCore d f).core c) = g (s.core c) := by
  by_cases hc : d = c
  · subst hc
    rw [State.modCore, State.core_setCore, hf]
  · rw [State.modCore, State.core_setCore_ne _ _ hc]

theorem State.core_modCore (s : State) (d : CoreId) (f : Core → Core) : (s.modCore d f).core d = f (s.core d) := State.core_setCore _ _ _

theorem State.read_modRun {α : Type} (g : Core → α) (hg : ∀ c k v, g (c.setCrew k v) = g c) (s : State) (f : HingeRun → HingeRun)
    (c : CoreId) : g ((s.modRun f).core c) = g (s.core c) :=
  State.read_modCore g (f := fun c => c.setCrew s.cur.crew { s.crew with hinge := f s.hgRun }) (fun _ => hg ..) s s.cur.core c

theorem State.hgRun_modRun (s : State) (f : HingeRun → HingeRun) : (s.modRun f).hgRun = f s.hgRun :=
  congrArg Crew.hinge (s.crew_modCrew _)

theorem State.hgRun_modCore {f : Core → Core} (hf : ∀ c k, (f c).crew k = c.crew k) (s : State) (d : CoreId) :
    (s.modCore d f).hgRun = s.hgRun :=
  congrArg Crew.hinge (State.read_modCore (fun c => c.crew s.cur.crew) (fun c => hf c _) s d s.cur.core)

/-! ### Hinge yields, and its crew's run says something to its barrier -/

/-- The run goes on to another phase, Hinge is free, and an operation joins those that reach the run's barrier. -/
def State.hgYield (s : State) (f : HingeRun → HingeRun) (b : BarRef) (k : CombKind) : State :=
  ((s.modRun f).modHere fun c => { c with hingeCur := none }).combine b.core b.place k

/-- An operation has joined those that reach an object in this clock, and Hinge is free. -/
def State.Sends (a u : State) (b : BarRef) (k : CombKind) : Prop :=
  (u.core b.core).comb = (a.core b.core).comb ++ [{ addr := b.place, kind := k }] ∧ (u.core a.cur.core).hingeCur = none

section Yield
variable (s : State) (f : HingeRun → HingeRun) (b : BarRef) (k : CombKind)

theorem State.hgRun_hgYield : (s.hgYield f b k).hgRun = f s.hgRun := by
  rw [State.hgYield, State.combine, State.hgRun_modCore fun _ _ => by rfl, State.modHere, State.hgRun_modCore fun _ _ => by rfl,
    State.hgRun_modRun]

theorem State.pool_hgYield (c : CoreId) : ((s.hgYield f b k).core c).pool = (s.core c).pool := by
  rw [State.hgYield, State.combine, State.read_modCore Core.pool fun _ => by rfl, State.modHere,
    State.read_modCore Core.pool fun _ => by rfl, State.read_modRun Core.pool fun _ _ _ => rfl]

theorem State.sends_hgYield : s.Sends (s.hgYield f b k) b k := by
  refine ⟨?_, ?_⟩
  · rw [State.hgYield, State.combine, State.core_modCore, State.modHere, State.read_modCore Core.comb fun _ => by rfl,
      State.read_modRun Core.comb fun _ _ _ => rfl]
  · rw [State.hgYield, State.combine, State.read_modCore Core.hingeCur fun _ => by rfl]
    exact congrArg Core.hingeCur (State.core_modCore (s.modRun f) s.cur.core fun c => { c with hingeCur := none })

end Yield

/-- A superstep of the run has ended. -/
def State.Arrives (a u : State) (b : BarRef) (fail : Bool) : Prop :=
  (u.crewAt a.cur.core a.cur.crew).hinge.phase = .arrived ∧ (u.crewAt a.cur.core a.cur.crew).hinge.fault = fail
    ∧ a.Sends u b (.hingeArrive a.hgRun.id fail) ∧ ∀ c, (u.core c).pool = (a.core c).pool

/-- A finalize of the run has ended. -/
def State.Finalizes (a u : State) (b : BarRef) (fail : Bool) : Prop :=
  (u.crewAt a.cur.core a.cur.crew).hinge.phase = .phase ∧ a.Sends u b (.hingeFinal fail) ∧ u.mem = a.mem
    ∧ ∀ c, (u.core c).pool = (a.core c).pool

theorem State.hgBar_ok {a : State} {b : BarRef} (hb : a.barRef a.hgRun.bar false = .ok b) (hgood : (a.core b.core).poolBad b.place 16 = false) :
    a.hgBar = some b := by
  rw [State.hgBar, hb]
  exact if_neg (by simp [hgood])

section Turned
variable {a u : State} (h : a.Turned u)
include h

theorem State.Turned.hgBar : u.hgBar = a.hgBar := by
  have hbad (b : BarRef) : (u.core b.core).poolBad b.place 16 = (a.core b.core).poolBad b.place 16 :=
    h.read (fun c => c.poolBad b.place 16) (fun _ => by rfl) b.core
  simp only [State.hgBar, h.hgRun, h.barRef, hbad]

theorem State.Turned.sends {w : State} {b : BarRef} {k : CombKind} (hw : u.Sends w b k) : a.Sends w b k := by
  obtain ⟨hcomb, hcur⟩ := hw
  exact ⟨by rw [hcomb, h.read Core.comb fun _ => rfl], by rwa [← h.cur]⟩

variable {b : BarRef} (hb : a.hgBar = some b)
include hb

theorem State.Turned.arrive (fail : Bool) : a.Arrives (u.hgArrive fail) b fail := by
  have harrive : u.hgArrive fail = u.hgYield (fun r => { r with phase := .arrived, fault := fail, eval := none, ended := none }) b
      (.hingeArrive a.hgRun.id fail) := by
    rw [State.hgArrive, h.hgBar, hb]
    dsimp only
    rw [State.hgRun_modRun, h.hgRun]
    rfl
  have hrun : ((u.hgArrive fail).crewAt a.cur.core a.cur.crew).hinge
      = { a.hgRun with phase := .arrived, fault := fail, eval := none, ended := none } := by
    rw [harrive, ← h.cur, ← h.hgRun]
    exact State.hgRun_hgYield ..
  refine ⟨by rw [hrun], by rw [hrun], ?_, fun c => ?_⟩
  · rw [harrive]
    exact h.sends (State.sends_hgYield ..)
  · rw [harrive, State.pool_hgYield, h.pool]

theorem State.Turned.final (fail : Bool) : a.Finalizes (u.hgUpdate fail) b fail := by
  have hupdate : u.hgUpdate fail = u.hgYield (fun r => { r with phase := .phase, eval := none }) b (.hingeFinal fail) := by
    rw [State.hgUpdate, h.hgBar, hb]
    rfl
  have hrun : ((u.hgUpdate fail).crewAt a.cur.core a.cur.crew).hinge = { a.hgRun with phase := .phase, eval := none } := by
    rw [hupdate, ← h.cur, ← h.hgRun]
    exact State.hgRun_hgYield ..
  refine ⟨by rw [hrun], ?_, ?_, fun c => ?_⟩
  · rw [hupdate]
    exact h.sends (State.sends_hgYield ..)
  · rw [hupdate]
    exact h.mem
  · rw [hupdate, State.pool_hgYield, h.pool]

end Turned

/-- What a fault forgets lies in global memory alone. -/
theorem State.Turned.fault {a u : State} (h : a.Turned u) {b : BarRef} (hb : a.hgBar = some b) : a.Arrives u.hgFault b true := by
  have hforget : u.Arrives u.hgFault b true := by
    refine (State.Turned.refl u.hgForget).arrive ?_ true
    exact h.hgBar.trans hb
  obtain ⟨hphase, hfault, hsends, hpool⟩ := hforget
  rw [h.cur] at hphase hfault
  rw [h.hgRun] at hsends
  exact ⟨hphase, hfault, h.sends hsends, fun c => (hpool c).trans (h.pool c)⟩

/-! ### The steps -/

/-- The superstep of the mode that the executing crew's run is in. -/
noncomputable def State.superstep (a : State) : Instr :=
  if a.hgRun.mode then .hingePullSuperstep a.cur.core a.cur.crew else .hingePushSuperstep a.cur.core a.cur.crew

/-- Hinge is at the executing crew's run. -/
def State.busy (a : State) : State := a.modHere fun c => { c with hingeCur := some a.cur.crew }

theorem State.turned_busy (a : State) : a.Turned a.busy := a.turned_hingeCur _

section Steps
variable {s : State} {core : CoreId} {crew : CrewIx}

theorem exec_superstep (ht : (s.actAs core crew .hinge).hgTakes = true) :
    exec (s.actAs core crew .hinge).superstep s = match (s.actAs core crew .hinge).hgRun.phase with
      | .ready => .next (if (s.actAs core crew .hinge).hgLocked then s else (s.actAs core crew .hinge).hgBegin)
      | .edges i j => if (s.actAs core crew .hinge).hgRun.mode then (s.actAs core crew .hinge).busy.pullStep i j
          else (s.actAs core crew .hinge).busy.pushStep i j
      | .check i j => (s.actAs core crew .hinge).busy.checkStep i j
      | .arrived | .finalize _ | .phase => .next s := by
  have hturn (pull : Bool) (step : State → Nat → Nat → Host.Outcome State Fault Refusal) (hm : (s.actAs core crew .hinge).hgRun.mode = pull) :
      hingeTurn pull core crew s step = match (s.actAs core crew .hinge).hgRun.phase with
        | .ready => .next (if (s.actAs core crew .hinge).hgLocked then s else (s.actAs core crew .hinge).hgBegin)
        | .edges i j => step (s.actAs core crew .hinge).busy i j
        | .check i j => (s.actAs core crew .hinge).busy.checkStep i j
        | .arrived | .finalize _ | .phase => .next s := if_neg (by simp [ht, hm])
  cases hm : (s.actAs core crew .hinge).hgRun.mode with
  | false =>
    rw [State.superstep, hm]
    exact hturn false State.pushStep hm
  | true =>
    rw [State.superstep, hm]
    exact hturn true State.pullStep hm

theorem exec_finalize (hf : (s.actAs core crew .hinge).hgFinalizes = true) {i : Nat}
    (hp : (s.actAs core crew .hinge).hgRun.phase = .finalize i) :
    exec (.hingeFinalize core crew) s = (s.actAs core crew .hinge).busy.finalStep i := by
  change execHingeFinalize core crew s = _
  rw [execHingeFinalize]
  refine (if_neg (by simp [hf])).trans ?_
  rw [hp]
  rfl

end Steps

/-! ### Counters, and a superstep that begins -/

theorem State.hgRun_hgCount (s : State) : s.hgCount.hgRun = s.hgRun := by
  rw [State.hgCount, State.modHere, State.hgRun_modCore fun _ _ => by rfl]

theorem State.hgRun_hgBegin (s : State) :
    s.hgBegin.hgRun = { s.hgRun with pull := s.hgRun.mode, state := .running, phase := .edges 0 0, eval := none } := by
  rw [State.hgBegin, State.modHere, State.hgRun_modCore fun _ _ => by rfl, State.hgRun_hgCount, State.hgRun_modRun]

theorem State.hingeCur_hgBegin (s : State) : (s.hgBegin.core s.cur.core).hingeCur = some s.cur.crew := 
  congrArg Core.hingeCur (State.core_modCore _ s.cur.core fun c => { c with hingeCur := some s.cur.crew })

end Sys2Proof.Machine
end

section
/-! PROOFS. The edges of a superstep, pushed and pulled (R252, R254, R255). -/

namespace Sys2Proof.Machine

/-! ### Ends of a step -/

/-- An outcome is a state of which something holds. -/
def Ends (o : Host.Outcome State Fault Refusal) (p : State → Prop) : Prop := ∃ u, o = .next u ∧ p u

theorem Ends.answers {i : Instr} {s : State} {o : Host.Outcome State Fault Refusal} {p : State → Prop} (h : Ends o p) (hi : exec i s = o) :
    Answers i s p := by
  obtain ⟨u, hu, hp⟩ := h
  exact ⟨u, hi.trans hu, hp⟩

/-- A step ends with its crew's run in another phase. -/
def State.Goes (a : State) (o : Host.Outcome State Fault Refusal) (p : HingePhase) : Prop :=
  Ends o fun u => a.RunsTo u { a.hgRun with phase := p, eval := none }

/-- A step ends with an evaluation that begins. -/
def State.Evaluates (a : State) (o : Host.Outcome State Fault Refusal) (finished : Bool) (target : Nat) (e : Vector XWord 16) : Prop :=
  Ends o fun u => a.RunsTo u { a.hgRun with
    eval := some { finished := finished, target := target, index := if finished then finishedStart a.hgRun.prog else 0, e := e,
                   result := none, counted := false } }

section Ends
variable {a u : State} (h : a.Turned u)
include h

theorem State.Turned.goes_edges (i j : Nat) : a.Goes (.next (u.hgAt i j)) (.edges i j) :=
  ⟨_, rfl, h.modRun fun r => { r with phase := .edges i j, eval := none }⟩

theorem State.Turned.goes_finalize (i : Nat) : a.Goes (.next (u.hgFinalAt i)) (.finalize i) :=
  ⟨_, rfl, h.modRun fun r => { r with phase := .finalize i, eval := none }⟩

theorem State.Turned.evaluates (finished : Bool) (target : Nat) (e : Vector XWord 16) :
    a.Evaluates (.next (u.hgEval finished target e)) finished target e :=
  ⟨_, rfl, h.modRun fun r => { r with
    eval := some { finished := finished, target := target, index := if finished then finishedStart r.prog else 0, e := e,
                   result := none, counted := false } }⟩

theorem State.Turned.arrives {b : BarRef} (hb : a.hgBar = some b) : Ends (.next u.hgFault) fun w => a.Arrives w b true :=
  ⟨_, rfl, h.fault hb⟩

variable (onFault : State)

theorem State.Turned.evaluates_finished {i e : Nat} (he : a.here.Holds a.crew.part (gdDval a.hgRun.gd + entrySize a.hgRun.rd * i)
    (entrySize a.hgRun.rd) e) :
    a.Evaluates (u.hgFinishedPart onFault i) true i
      (finishedRegs (entryValue (rdVty a.hgRun.rd) e) (BitVec.ofNat 64 (a.hgBase + i))) := by
  rw [h.finishedPart he]
  exact h.evaluates ..

theorem State.Turned.evaluates_message {weights edge origin target ov : Nat} {m : XWord} (hov : a.Loads (gdOval a.hgRun.gd + 4 * origin) 4 ov)
    (hm : a.Weighs weights edge m) :
    a.Evaluates (u.hgMessage onFault weights edge origin target) false target
      (messageRegs (hingeIn (rdXs a.hgRun.rd) (rdVty a.hgRun.rd) ov) m (BitVec.ofNat 64 origin)) := by
  obtain ⟨w, hw, hk⟩ := h.message (onFault := onFault) (target := target) hov hm
  rw [hk]
  exact hw.evaluates ..

end Ends

/-! ### Push (R254) -/

/-- A step of push at an edge whose row has been read. -/
def State.pushEdge (s : State) (g : Image) (i j lo hi : Nat) : Host.Outcome State Fault Refusal :=
  if hi ≤ lo + j then .next (s.hgAt (i + 1) 0)
  else (s.hgLoad (gdCsrt g + 4 * (lo + j)) 4).andThen s s.hgFault fun s t =>
    if gdNtot g ≤ t then .next s.hgFault
    else s.hgMessage s.hgFault (gdCsrw g) (lo + j) (s.hgBase + i) t

section Push
variable {a : State} {i j : Nat} (he : a.hgRun.eval = none)
include he

theorem State.pushStep_last (hi : a.hgV ≤ i) : a.busy.pushStep i j = .next (a.busy.hgArrive false) := by
  have hb := a.turned_busy
  rw [State.pushStep, hb.hgRun, he, hb.hgV]
  exact if_pos hi

variable (hiV : i < a.hgV)
include hiV

theorem State.pushStep_vertex : a.busy.pushStep i j =
    (a.busy.here.hgPool a.busy.crew.part (gdFront a.hgRun.gd + i / 8) 1).andThen a.busy a.busy.hgFault fun s f =>
      if f / 2 ^ (i % 8) % 2 = 0 then .next (s.hgAt (i + 1) 0)
      else s.hgRow s.hgFault (gdCsro a.hgRun.gd) i fun s lo hi => s.pushEdge a.hgRun.gd i j lo hi := by
  have hb := a.turned_busy
  rw [State.pushStep, hb.hgRun, he, hb.hgV]
  exact if_neg (Nat.not_le.2 hiV)

theorem State.pushStep_bad {b : BarRef} (hbar : a.hgBar = some b)
    (hl : a.here.lockedFor none (poolPlace a.crew.part (gdFront a.hgRun.gd + i / 8)) 1 = false)
    (hbad : a.here.poolBad (poolPlace a.crew.part (gdFront a.hgRun.gd + i / 8)) 1 = true) :
    Ends (a.busy.pushStep i j) fun u => a.Arrives u b true := by
  have hb := a.turned_busy
  rw [State.pushStep_vertex he hiV, hb.hgPool, hb.crew, Core.hgPool_bad hl hbad]
  exact hb.arrives hbar

variable {f : Nat} (hf : a.here.Holds a.crew.part (gdFront a.hgRun.gd + i / 8) 1 f)
include hf

theorem State.pushStep_inactive (hbit : f / 2 ^ (i % 8) % 2 = 0) : a.Goes (a.busy.pushStep i j) (.edges (i + 1) 0) := by
  rw [State.pushStep_vertex he hiV, a.turned_busy.holds hf]
  simp only [HgRead.andThen, if_pos hbit]
  exact a.turned_busy.goes_edges ..

theorem State.pushStep_row (hbit : f / 2 ^ (i % 8) % 2 = 1) {lo hi : Nat} (hlo : a.Loads (gdCsro a.hgRun.gd + 4 * i) 4 lo)
    (hhi : a.Loads (gdCsro a.hgRun.gd + 4 * (i + 1)) 4 hi) :
    ∃ w, a.Turned w ∧ a.busy.pushStep i j = if hi < lo then .next a.busy.hgFault else w.pushEdge a.hgRun.gd i j lo hi := by
  obtain ⟨w, hw, hk⟩ := a.turned_busy.row hlo hhi
  refine ⟨w, hw, ?_⟩
  rw [State.pushStep_vertex he hiV, a.turned_busy.holds hf]
  simp only [HgRead.andThen, hbit, one_ne_zero, if_false, hk]

end Push

section PushEdge
variable {a w : State} (hw : a.Turned w) {i j lo hi : Nat}
include hw

theorem State.Turned.pushEdge_last (hend : hi ≤ lo + j) : a.Goes (w.pushEdge a.hgRun.gd i j lo hi) (.edges (i + 1) 0) := by
  rw [State.pushEdge, if_pos hend]
  exact hw.goes_edges ..

variable (hend : lo + j < hi) {t : Nat} (ht : a.Loads (gdCsrt a.hgRun.gd + 4 * (lo + j)) 4 t)
include hend ht

theorem State.Turned.pushEdge_beyond {b : BarRef} (hbar : a.hgBar = some b) (hbeyond : gdNtot a.hgRun.gd ≤ t) :
    Ends (w.pushEdge a.hgRun.gd i j lo hi) fun u => a.Arrives u b true := by
  obtain ⟨w1, h1, hk⟩ := hw.load ht
  rw [State.pushEdge, if_neg (Nat.not_le.2 hend), hk, if_pos hbeyond]
  exact h1.arrives hbar

theorem State.Turned.pushEdge_message (hin : t < gdNtot a.hgRun.gd) {ov : Nat} {m : XWord}
    (hov : a.Loads (gdOval a.hgRun.gd + 4 * (a.hgBase + i)) 4 ov) (hm : a.Weighs (gdCsrw a.hgRun.gd) (lo + j) m) :
    a.Evaluates (w.pushEdge a.hgRun.gd i j lo hi) false t
      (messageRegs (hingeIn (rdXs a.hgRun.rd) (rdVty a.hgRun.rd) ov) m (BitVec.ofNat 64 (a.hgBase + i))) := by
  obtain ⟨w1, h1, hk⟩ := hw.load ht
  rw [State.pushEdge, if_neg (Nat.not_le.2 hend), hk, if_neg (Nat.not_le.2 hin), h1.hgBase]
  exact h1.evaluates_message _ hov hm

end PushEdge

/-! ### Pull (R255) -/

/-- A step of pull at an edge whose row has been read. -/
def State.pullEdge (s : State) (g : Image) (i j lo hi : Nat) : Host.Outcome State Fault Refusal :=
  if hi ≤ lo + (j - 1) then .next (s.hgAt (i + 1) 0)
  else (s.hgLoad (gdCsci g + 4 * (lo + (j - 1))) 4).andThen s s.hgFault fun s o =>
    if gdNtot g ≤ o then .next s.hgFault
    else (s.hgLoad (gdOact g + o / 8) 1).andThen s s.hgFault fun s act =>
      if act / 2 ^ (o % 8) % 2 = 0 then .next (s.hgAt i (j + 1))
      else s.hgMessage s.hgFault (gdCscw g) (lo + (j - 1)) o (s.hgBase + i)

section Pull
variable {a : State} {i j : Nat}

/-- What the finished part says of a vertex, before its edges and between them (R255). -/
theorem State.pullStep_finished {v : HingeEval} {m : XWord} (he : a.hgRun.eval = some v) (hm : v.result = some m) (hf : v.finished = true) :
    a.Goes (a.busy.pullStep i j) (if m ≠ 0 then .edges (i + 1) 0 else .edges i (j + 1)) := by
  have hb := a.turned_busy
  have hstep : a.busy.pullStep i j = .next (if m ≠ 0 then a.busy.hgAt (i + 1) 0 else a.busy.hgAt i (j + 1)) := by
    rw [State.pullStep, hb.hgRun, he]
    dsimp only
    rw [hm]
    exact if_pos hf
  rw [hstep]
  split
  · exact hb.goes_edges ..
  · exact hb.goes_edges ..

theorem State.checkStep_finished {v : HingeEval} {m : XWord} (he : a.hgRun.eval = some v) (hm : v.result = some m) :
    a.Goes (a.busy.checkStep i j) (if m ≠ 0 then .edges (i + 1) 0 else .edges i (j + 1)) := by
  have hb := a.turned_busy
  have hstep : a.busy.checkStep i j = .next (if m ≠ 0 then a.busy.hgAt (i + 1) 0 else a.busy.hgAt i (j + 1)) := by
    rw [State.checkStep, hb.hgRun, he]
    dsimp only
    rw [hm]
  rw [hstep]
  split
  · exact hb.goes_edges ..
  · exact hb.goes_edges ..

variable (he : a.hgRun.eval = none)
include he

theorem State.checkStep_fresh : a.busy.checkStep i j = a.busy.hgFinishedPart a.busy.hgFault i := by
  rw [State.checkStep, a.turned_busy.hgRun, he]

theorem State.pullStep_last (hi : a.hgV ≤ i) : a.busy.pullStep i j = .next (a.busy.hgArrive false) := by
  have hb := a.turned_busy
  rw [State.pullStep, hb.hgRun, he, hb.hgV]
  exact if_pos hi

variable (hiV : i < a.hgV)
include hiV

theorem State.pullStep_vertex (hj : j = 0) : a.busy.pullStep i j = a.busy.hgFinishedPart a.busy.hgFault i := by
  have hb := a.turned_busy
  rw [State.pullStep, hb.hgRun, he, hb.hgV]
  exact (if_neg (Nat.not_le.2 hiV)).trans (if_pos hj)

theorem State.pullStep_row (hj : j ≠ 0) {lo hi : Nat} (hlo : a.Loads (gdCsco a.hgRun.gd + 4 * i) 4 lo)
    (hhi : a.Loads (gdCsco a.hgRun.gd + 4 * (i + 1)) 4 hi) :
    ∃ w, a.Turned w ∧ a.busy.pullStep i j = if hi < lo then .next a.busy.hgFault else w.pullEdge a.hgRun.gd i j lo hi := by
  have hb := a.turned_busy
  obtain ⟨w, hw, hk⟩ := hb.row hlo hhi
  refine ⟨w, hw, ?_⟩
  have hstep : a.busy.pullStep i j = a.busy.hgRow a.busy.hgFault (gdCsco a.hgRun.gd) i fun s lo hi => s.pullEdge a.hgRun.gd i j lo hi := by
    rw [State.pullStep, hb.hgRun, he, hb.hgV]
    exact (if_neg (Nat.not_le.2 hiV)).trans (if_neg hj)
  rw [hstep, hk]

end Pull

section PullEdge
variable {a w : State} (hw : a.Turned w) {i j lo hi : Nat}
include hw

theorem State.Turned.pullEdge_last (hend : hi ≤ lo + (j - 1)) : a.Goes (w.pullEdge a.hgRun.gd i j lo hi) (.edges (i + 1) 0) := by
  rw [State.pullEdge, if_pos hend]
  exact hw.goes_edges ..

variable (hend : lo + (j - 1) < hi) {o : Nat} (ho : a.Loads (gdCsci a.hgRun.gd + 4 * (lo + (j - 1))) 4 o)
include hend ho

theorem State.Turned.pullEdge_beyond {b : BarRef} (hbar : a.hgBar = some b) (hbeyond : gdNtot a.hgRun.gd ≤ o) :
    Ends (w.pullEdge a.hgRun.gd i j lo hi) fun u => a.Arrives u b true := by
  obtain ⟨w1, h1, hk⟩ := hw.load ho
  rw [State.pullEdge, if_neg (Nat.not_le.2 hend), hk, if_pos hbeyond]
  exact h1.arrives hbar

variable (hin : o < gdNtot a.hgRun.gd) {act : Nat} (hact : a.Loads (gdOact a.hgRun.gd + o / 8) 1 act)
include hin hact

theorem State.Turned.pullEdge_inactive (hbit : act / 2 ^ (o % 8) % 2 = 0) :
    a.Goes (w.pullEdge a.hgRun.gd i j lo hi) (.edges i (j + 1)) := by
  obtain ⟨w1, h1, hk1⟩ := hw.load ho
  obtain ⟨w2, h2, hk2⟩ := h1.load hact
  rw [State.pullEdge, if_neg (Nat.not_le.2 hend), hk1, if_neg (Nat.not_le.2 hin), hk2, if_pos hbit]
  exact h2.goes_edges ..

theorem State.Turned.pullEdge_message (hbit : act / 2 ^ (o % 8) % 2 = 1) {ov : Nat} {m : XWord}
    (hov : a.Loads (gdOval a.hgRun.gd + 4 * o) 4 ov) (hm : a.Weighs (gdCscw a.hgRun.gd) (lo + (j - 1)) m) :
    a.Evaluates (w.pullEdge a.hgRun.gd i j lo hi) false (a.hgBase + i)
      (messageRegs (hingeIn (rdXs a.hgRun.rd) (rdVty a.hgRun.rd) ov) m (BitVec.ofNat 64 o)) := by
  obtain ⟨w1, h1, hk1⟩ := hw.load ho
  obtain ⟨w2, h2, hk2⟩ := h1.load hact
  rw [State.pullEdge, if_neg (Nat.not_le.2 hend), hk1, if_neg (Nat.not_le.2 hin), hk2, if_neg (by omega), h2.hgBase]
  exact h2.evaluates_message _ hov hm

end PullEdge

end Sys2Proof.Machine
end

section
/-! PROOFS. Messages of a superstep: counted, then combined into their entries (R253 to R255). -/

namespace Sys2Proof.Machine

/-! ### The counters in the pool (R248) -/

theorem HingeRun.length_counters (r : HingeRun) : r.counters.length = 14 := length_natLe ..

theorem State.hgCounterPlace_modRun (s : State) (f : HingeRun → HingeRun) : (s.modRun f).hgCounterPlace = s.hgCounterPlace := by
  rw [State.hgCounterPlace, State.modRun, State.crew_modCrew]
  rfl

theorem State.pool_hgCount (s : State) :
    (s.hgCount.core s.cur.core).pool = memSets (s.core s.cur.core).pool s.hgCounterPlace s.hgRun.counters := by
  rw [State.hgCount, State.modHere, State.core_modCore]
  rfl

/-- A step ends with the run changed and its counters written. -/
def State.Counts (a u : State) (r : HingeRun) : Prop :=
  (u.crewAt a.cur.core a.cur.crew).hinge = r ∧ memGets (u.core a.cur.core).pool a.hgCounterPlace 14 = r.counters
    ∧ (∀ x, x < a.hgCounterPlace ∨ a.hgCounterPlace + 14 ≤ x →
      memGet (u.core a.cur.core).pool x = memGet (a.core a.cur.core).pool x) ∧ u.mem = a.mem

theorem State.Turned.counts {a u : State} (h : a.Turned u) (hwf : memWf a.here.pool = true) (f : HingeRun → HingeRun) :
    a.Counts (u.modRun f).hgCount (f a.hgRun) := by
  have hcur : (u.modRun f).cur = a.cur := h.cur
  have hrun : (u.modRun f).hgRun = f a.hgRun := by rw [State.hgRun_modRun, h.hgRun]
  have hold : ((u.modRun f).core a.cur.core).pool = (a.core a.cur.core).pool := (State.corePool_modCrew ..).trans (h.pool _)
  have hpool : ((u.modRun f).hgCount.core a.cur.core).pool
      = memSets (a.core a.cur.core).pool a.hgCounterPlace (f a.hgRun).counters := by
    have hcount := (u.modRun f).pool_hgCount
    rwa [hcur, hold, hrun, State.hgCounterPlace_modRun, h.hgCounterPlace] at hcount
  refine ⟨?_, ?_, fun x hx => ?_, h.mem⟩
  · rw [← hrun, ← State.hgRun_hgCount, State.hgRun, State.crew, ← hcur]
    rfl
  · rw [hpool]
    have hsame := memGets_memSets_same (a := a.hgCounterPlace) (f a.hgRun).counters hwf
    rwa [HingeRun.length_counters] at hsame
  · rw [hpool]
    exact memGet_memSets_other _ hwf (by rwa [HingeRun.length_counters])

/-! ### One update of an entry and its frontier bit (R253) -/

theorem leNat_memGets_one (m : Memory) (p : Nat) : leNat (memGets m p 1) = (memGet m p).toNat := by simp [memGets, leNat]

/-- A pool after a combine: the entry where it changes, and then its frontier bit. -/
def combinedPool (m : Memory) (entry size front bit new : Nat) : Memory :=
  if new % 2 ^ (8 * size) = leNat (memGets m entry size) then m
  else memSets (memSets m entry (natLe size new)) front [BitVec.ofNat 8 (Nat.lor (leNat (memGets m front 1)) (2 ^ (bit % 8)))]

section Combined
variable {m : Memory} {entry size front bit new : Nat} (hwf : memWf m = true)
include hwf

theorem memGet_combinedPool_other {x : Nat} (hf : x ≠ front) (he : x < entry ∨ entry + size ≤ x) :
    memGet (combinedPool m entry size front bit new) x = memGet m x := by
  unfold combinedPool
  split
  · rfl
  · rw [memGet_memSets_other _ (memWf_memSets _ _ hwf) (by rw [List.length_singleton]; omega),
      memGet_memSets_other _ hwf (by rwa [length_natLe])]

theorem memGet_combinedPool_front : (memGet (combinedPool m entry size front bit new) front).toNat =
    if new % 2 ^ (8 * size) = leNat (memGets m entry size) then (memGet m front).toNat
    else Nat.lor (memGet m front).toNat (2 ^ (bit % 8)) := by
  unfold combinedPool
  split
  · rfl
  · have hfront := memGet_memSets_same (a := front) (i := 0)
      [BitVec.ofNat 8 (Nat.lor (leNat (memGets m front 1)) (2 ^ (bit % 8)))] (memWf_memSets entry (natLe size new) hwf) Nat.one_pos
    have hlt : Nat.lor (memGet m front).toNat (2 ^ (bit % 8)) < 2 ^ 8 :=
      Nat.or_lt_two_pow (memGet m front).isLt (Nat.pow_lt_pow_right (by decide) (Nat.mod_lt _ (by decide)))
    rw [Nat.add_zero] at hfront
    rw [hfront, List.getElem_cons_zero, leNat_memGets_one, BitVec.toNat_ofNat, Nat.mod_eq_of_lt hlt]

theorem leNat_combinedPool_entry (hapart : front < entry ∨ entry + size ≤ front) :
    leNat (memGets (combinedPool m entry size front bit new) entry size) = new % 2 ^ (8 * size) := by
  unfold combinedPool
  split
  next hsame => exact hsame.symm
  next =>
    have hentry := memGets_memSets_same (a := entry) (natLe size new) hwf
    rw [length_natLe] at hentry
    rw [memGets_memSets_other _ (memWf_memSets _ _ hwf) (by rw [List.length_singleton]; omega), hentry, leNat_natLe, Nat.pow_mul]

end Combined

/-- A combine's update of a core. -/
def Core.combined (entry size front bit new : Nat) (c : Core) : Core :=
  if new % 2 ^ (8 * size) = leNat (memGets c.pool entry size) then c
  else (c.poolWrite entry (natLe size new)).poolWrite front [BitVec.ofNat 8 (Nat.lor (leNat (memGets c.pool front 1)) (2 ^ (bit % 8)))]

theorem Core.pool_combined (entry size front bit new : Nat) (c : Core) :
    (c.combined entry size front bit new).pool = combinedPool c.pool entry size front bit new := by
  rw [Core.combined, combinedPool]
  split <;> rfl

theorem Core.crew_combined (entry size front bit new : Nat) (c : Core) (k : CrewIx) :
    (c.combined entry size front bit new).crew k = c.crew k := by
  rw [Core.combined]
  split <;> rfl

/-! ### A combine (R253, R254) -/

/-- A core with a crew as it is in a state: where a vertex's entry and its frontier bit lie there. -/
structure State.Combines (a : State) (t : Nat) (oc : CoreId) (ow : CrewIx) (q n fr : Nat) : Prop where
  owner : a.hgOwner t = some (oc, ow, q, n)
  front : a.hgFrontOf oc ow q = some fr
  entryFree : (a.core oc).Free (poolPlace (a.crewAt oc ow).part (gdDval a.hgRun.gd + entrySize a.hgRun.rd * n)) (entrySize a.hgRun.rd)
  frontFree : (a.core oc).Free (poolPlace (a.crewAt oc ow).part (fr + n / 8)) 1

/-- What a combine leaves: the entry, its frontier bit, the other bytes of that pool, the other pools, global memory, and the run. -/
def State.Combined (a u : State) (oc : CoreId) (entry front bit new : Nat) (r : HingeRun) : Prop :=
  let size := entrySize a.hgRun.rd
  let old := leNat (memGets (a.core oc).pool entry size)
  leNat (memGets (u.core oc).pool entry size) = new
    ∧ (memGet (u.core oc).pool front).toNat =
        (if new = old then (memGet (a.core oc).pool front).toNat else Nat.lor (memGet (a.core oc).pool front).toNat (2 ^ (bit % 8)))
    ∧ (∀ x, x ≠ front → x < entry ∨ entry + size ≤ x → memGet (u.core oc).pool x = memGet (a.core oc).pool x)
    ∧ (∀ c, c ≠ oc → (u.core c).pool = (a.core c).pool) ∧ u.mem = a.mem ∧ (u.crewAt a.cur.core a.cur.crew).hinge = r

section Combine
variable {a u : State} (h : a.Turned u) {t : Nat} {m : XWord} {oc : CoreId} {ow : CrewIx} {q n fr : Nat}
include h

/-- A combine waits until the frontier of the entry's block is known (R254). -/
theorem State.Turned.hgCombine_unknown (k : State → State) (ho : a.hgOwner t = some (oc, ow, q, n)) (hf : a.hgFrontOf oc ow q = none) :
    u.hgCombine t m k = .next u := by
  unfold State.hgCombine
  dsimp only
  rw [h.hgOwner, ho]
  dsimp only
  rw [h.hgFrontOf, hf]

theorem State.Turned.hgCombine (k : State → State) (hc : a.Combines t oc ow q n fr) :
    u.hgCombine t m k = .next (k (u.modCore oc (Core.combined (poolPlace (a.crewAt oc ow).part (gdDval a.hgRun.gd + entrySize a.hgRun.rd * n))
      (entrySize a.hgRun.rd) (poolPlace (a.crewAt oc ow).part (fr + n / 8)) n
      (combineEntry (rdVty a.hgRun.rd) (rdCop a.hgRun.rd) (entryValue (rdVty a.hgRun.rd) (leNat (memGets (a.core oc).pool
        (poolPlace (a.crewAt oc ow).part (gdDval a.hgRun.gd + entrySize a.hgRun.rd * n)) (entrySize a.hgRun.rd)))) m).toNat))) := by
  have hread (part : XWord) (off n : Nat) : (u.core oc).hgPool part off n = (a.core oc).hgPool part off n :=
    h.read (fun c => c.hgPool part off n) (fun _ => rfl) oc
  unfold State.hgCombine
  dsimp only
  rw [h.hgOwner, hc.owner]
  dsimp only
  rw [h.hgFrontOf, hc.front]
  dsimp only
  rw [h.crewAt, h.hgRun, hread, hread, Core.hgPool_free hc.entryFree, Core.hgPool_free hc.frontFree]
  rw [← h.pool oc]
  rfl

theorem State.Turned.combined (f : HingeRun → HingeRun) (hwf : memWf (a.core oc).pool = true) {entry front new : Nat}
    (hapart : front < entry ∨ entry + entrySize a.hgRun.rd ≤ front) :
    a.Combined ((u.modCore oc (Core.combined entry (entrySize a.hgRun.rd) front n new)).modRun f) oc entry front n
      (new % 2 ^ (8 * entrySize a.hgRun.rd)) (f a.hgRun) := by
  have hpool : (((u.modCore oc (Core.combined entry (entrySize a.hgRun.rd) front n new)).modRun f).core oc).pool
      = combinedPool (a.core oc).pool entry (entrySize a.hgRun.rd) front n new := by
    rw [State.modRun, State.corePool_modCrew, State.core_modCore, Core.pool_combined, h.pool]
  refine ⟨?_, ?_, fun x hf he => ?_, fun c hne => ?_, h.mem, ?_⟩
  · rw [hpool]
    exact leNat_combinedPool_entry hwf hapart
  · rw [hpool]
    exact memGet_combinedPool_front hwf
  · rw [hpool]
    exact memGet_combinedPool_other hwf hf he
  · rw [State.modRun, State.corePool_modCrew, State.modCore, State.core_setCore_ne _ _ (Ne.symm hne), h.pool]
  · have hrun : ((u.modCore oc (Core.combined entry (entrySize a.hgRun.rd) front n new)).modRun f).hgRun = f a.hgRun := by
      rw [State.hgRun_modRun, State.hgRun_modCore fun c k => Core.crew_combined .., h.hgRun]
    rw [← hrun, ← h.cur]
    rfl

end Combine

/-! ### The steps of an edge whose message part has run -/

section Edge
variable {a : State} {i j : Nat} {v : HingeEval} {m : XWord} (he : a.hgRun.eval = some v) (hm : v.result = some m)
include he hm

theorem State.pushStep_ran : a.busy.pushStep i j =
    if v.counted then a.busy.hgCombine v.target m fun s => s.hgAt i (j + 1) else a.busy.hgMessageRan := by
  rw [State.pushStep, a.turned_busy.hgRun, he]
  dsimp only
  rw [hm]

theorem State.pullStep_ran (hf : v.finished = false) : a.busy.pullStep i j =
    if v.counted then a.busy.hgCombine (a.hgBase + i) m fun s => s.hgCheck i j else a.busy.hgMessageRan := by
  rw [State.pullStep, a.turned_busy.hgRun, he]
  dsimp only
  rw [hm, hf, a.turned_busy.hgBase]
  cases v.counted <;> rfl

omit hm in
theorem State.hgMessageRan_counts (hwf : memWf a.here.pool = true) (hl : a.hgLocked = false) :
    Ends a.busy.hgMessageRan fun u => a.Counts u { a.hgRun with nedge := a.hgRun.nedge + 1, eval := some { v with counted := true } } := by
  have hb := a.turned_busy
  have hc := hb.counts hwf fun r => { r with nedge := r.nedge + 1, eval := r.eval.map fun v => { v with counted := true } }
  rw [he] at hc
  refine ⟨_, ?_, hc⟩
  rw [State.hgMessageRan, hb.hgLocked, hl]
  rfl

end Edge

end Sys2Proof.Machine
end

section
/-! PROOFS. The finalize of a superstep (R256). -/

namespace Sys2Proof.Machine

/-! ### Parts of a free range, and bytes as numbers -/

theorem Core.Free.part {c : Core} {place n p k : Nat} (h : c.Free place n) (hlo : place ≤ p) (hhi : p + k ≤ place + n) : c.Free p k := by
  obtain ⟨hlocked, hbad⟩ := h
  simp only [Core.lockedFor, Core.bankLocked, Core.poolBad, Bool.or_eq_false_iff, List.any_eq_false] at hlocked hbad
  obtain ⟨hbanks, hsettled⟩ := hlocked
  refine ⟨?_, List.any_eq_false.2 fun w hw hin => hbad w hw ?_⟩
  · refine Bool.or_eq_false_iff.2 ⟨List.any_eq_false.2 fun l hl hin => hbanks l hl ?_, List.any_eq_false.2 fun o ho hin => hsettled o ho ?_⟩
    · have hbank : place / bankBytes ≤ p / bankBytes := Nat.div_le_div_right hlo
      simp only [Bool.and_eq_true, decide_eq_true_eq] at hin ⊢
      obtain ⟨⟨hholder, h1⟩, h2⟩ := hin
      exact ⟨⟨hholder, hbank.trans h1⟩, h2.trans_le hhi⟩
    · simp only [Bool.and_eq_true, decide_eq_true_eq] at hin ⊢
      omega
  · simp only [Bool.and_eq_true, decide_eq_true_eq] at hin ⊢
    omega

theorem natLe_leNat (l : List Byte) : natLe l.length (leNat l) = l := by
  induction l with
  | nil => rfl
  | cons b l ih =>
    have hb := b.isLt
    have hdiv : (b.toNat + 256 * leNat l) / 256 = leNat l := by omega
    have hmod : BitVec.ofNat 8 (b.toNat + 256 * leNat l) = b := BitVec.eq_of_toNat_eq (by rw [BitVec.toNat_ofNat]; omega)
    rw [List.length_cons, natLe, leNat, hdiv, hmod, ih]

theorem natLe_mod (n v : Nat) : natLe n (v % 256 ^ n) = natLe n v := by
  rw [← leNat_natLe]
  have h := natLe_leNat (natLe n v)
  rwa [length_natLe] at h

/-- The words of the record of the statistics (Table 12.4). -/
theorem HingeRun.natLe_record (r : HingeRun) {k : Nat} (hk : k < 4) : natLe 8 (r.record / 2 ^ (64 * k))
    = natLe 8 ([r.nfs % 2 ^ 64, r.mf % 2 ^ 64, r.mu % 2 ^ 64, 0].getD k 0) := by
  have h0 := Nat.mod_lt r.nfs (show 0 < 2 ^ 64 by decide)
  have h1 := Nat.mod_lt r.mf (show 0 < 2 ^ 64 by decide)
  have h2 := Nat.mod_lt r.mu (show 0 < 2 ^ 64 by decide)
  rw [← natLe_mod 8 (r.record / 2 ^ (64 * k))]
  congr 1
  generalize hrec : r.record = v
  rw [HingeRun.record] at hrec
  generalize r.nfs % 2 ^ 64 = x at *
  generalize r.mf % 2 ^ 64 = y at *
  generalize r.mu % 2 ^ 64 = z at *
  match k, hk with
  | 0, _ => simp only [List.getD_cons_zero]; omega
  | 1, _ => simp only [List.getD_cons_succ, List.getD_cons_zero]; omega
  | 2, _ => simp only [List.getD_cons_succ, List.getD_cons_zero]; omega
  | 3, _ => simp only [List.getD_cons_succ, List.getD_cons_zero]; omega

/-! ### A store of the finalize (R201, R204) -/

theorem State.translate_busy (a : State) (unit : Nat) (ctx : CtxId) (va : Nat) (acc : Access) :
    a.busy.translate (.tlb unit) ctx va acc = a.translate (.tlb unit) ctx va acc := by
  have hbad (places : List Nat) : a.busy.walkBad (.tlb unit) ctx va places = a.walkBad (.tlb unit) ctx va places := by
    simp only [State.walkBad, State.busy, State.here_modHere]
    rfl
  simp only [State.translate, hbad]
  rfl

/-- What a store of the finalize leaves: the run at its next step, the pools, and the store, published at dev scope. -/
def State.Stores (a u : State) (x : Xlat) (bytes : List Byte) (n : Nat) : Prop :=
  (u.crewAt a.cur.core a.cur.crew).hinge = { a.hgRun with phase := .finalize n, eval := none }
    ∧ (∀ c, (u.core c).pool = (a.core c).pool)
    ∧ ∃ st ∈ u.mem.stores, st.pa = x.pa ∧ st.bytes = bytes.map some ∧ st.key = x.key ∧ st.writer = .cmd a.hgRun.id
      ∧ ∃ p ∈ st.pubs, p.scope = .dev ∧ p.clock = a.cycle

theorem State.reviveFor_revives (s : State) (ctx : CtxId) (peer : Option Nat) (pa n : Nat) : s.Revives (s.reviveFor ctx peer pa n) := by
  rw [State.reviveFor]
  refine .foldl (fun w l => ?_) _ s
  exact w.reviveAt_revives ctx l.at_ l.size

section Store
variable {a : State} {va n : Nat} {bytes : List Byte}

theorem State.hgStore_stores (onFault : State) {x : Xlat} (ht : a.translate (.tlb 5) a.crew.ctx va .write = .ok x)
    (hrem : entryRem x.leaf2.entry = false) (hfit : x.pa + bytes.length ≤ Config.hbmBytes) :
    Ends (a.busy.hgStore onFault va bytes fun s => s.hgFinalAt n) fun u => a.Stores u x bytes n := by
  have hb := a.turned_busy
  have hw := hb.trans (a.busy.turned_tlbWalk a.crew.ctx 5 va x .write false)
  generalize hwalk : a.busy.tlbWalk a.crew.ctx 5 va x .write false = w at hw
  have hrev := w.reviveFor_revives a.crew.ctx x.peer x.pa bytes.length
  generalize hrevived : w.reviveFor a.crew.ctx x.peer x.pa bytes.length = v at hrev
  have hstep : a.busy.hgStore onFault va bytes (fun s => s.hgFinalAt n) = .next ((v.gStore (.cmd a.hgRun.id) v.hgSees
      [v.pubNow .dev (v.spot v.cur.core v.cur.crew)] x.key x.pa (bytes.map some)).hgFinalAt n) := by
    unfold State.hgStore
    rw [hb.crew, hb.hgRun, State.translate_busy, ht]
    dsimp only
    rw [if_neg (by simp [hfit]), hwalk, hrevived, hrem]
    rfl
  have hcur : v.cur = a.cur := hrev.cur.trans hw.cur
  have hrun : v.hgRun = a.hgRun := (congrArg Crew.hinge hrev.toAgreesOn.crew).trans hw.hgRun
  refine ⟨_, hstep, ?_, fun c => ?_, ?_⟩
  · rw [← hcur, ← hrun]
    exact State.hgRun_modRun _ _
  · rw [State.hgFinalAt, State.modRun, State.corePool_modCrew]
    exact (hrev.toAgreesOn.pool c).trans (hw.pool c)
  · obtain ⟨pre, post, -, hstores, -⟩ := v.gStore_stores (.cmd a.hgRun.id) v.hgSees
      [v.pubNow .dev (v.spot v.cur.core v.cur.crew)] x.key x.pa (bytes.map some)
    have hmem := List.mem_append_right pre (List.mem_cons_self (l := post)
      (a := v.storeNow (.cmd a.hgRun.id) [v.pubNow .dev (v.spot v.cur.core v.cur.crew)] x.key x.pa (bytes.map some)))
    rw [← hstores] at hmem
    exact ⟨_, hmem, rfl, rfl, rfl, rfl, v.pubNow .dev (v.spot v.cur.core v.cur.crew), List.mem_singleton.2 rfl, rfl,
      hrev.cycle.trans hw.cycle⟩

theorem State.hgStore_faults {b : BarRef} (hbar : a.hgBar = some b) {c : BitVec 8} {k : State → State}
    (ht : a.translate (.tlb 5) a.crew.ctx va .write = .fault c) :
    Ends (a.busy.hgStore a.busy.hgFailFinal va bytes k) fun u => a.Finalizes u b true := by
  have hb := a.turned_busy
  refine ⟨_, ?_, hb.final hbar true⟩
  unfold State.hgStore
  rw [hb.crew, State.translate_busy, ht]
  rfl

end Store

end Sys2Proof.Machine
end

section
/-! PROOFS. The steps of the finalize (R256, Table 12.4). -/

namespace Sys2Proof.Machine

theorem State.RunsTo.modRun {a u : State} {r : HingeRun} (h : a.RunsTo u r) (hcur : u.cur = a.cur) (f : HingeRun → HingeRun) :
    a.RunsTo (u.modRun f) (f r) := by
  obtain ⟨hrun, hpool, hmem⟩ := h
  refine ⟨?_, fun c => (State.corePool_modCrew ..).trans (hpool c), hmem⟩
  rw [← hrun, ← hcur]
  exact State.hgRun_modRun u f

section Finalize
variable {a : State} {i : Nat}

theorem State.finalStep_fault (hf : a.hgRun.fault = true) : a.busy.finalStep i = .next (a.busy.hgUpdate false) := by
  rw [State.finalStep, a.turned_busy.hgRun]
  exact if_pos hf

variable (hf : a.hgRun.fault = false)
include hf

/-! ### Values and activity bits -/

section Values
variable (hi : i < a.hgV) {f : Nat} (hn : a.here.Holds a.crew.part (gdFront a.hgRun.gd + a.hgF + i / 8) 1 f)
include hi hn

theorem State.finalStep_value : a.busy.finalStep i = if f / 2 ^ (i % 8) % 2 = 0 then .next (a.busy.hgFinalAt (i + 1))
    else (a.busy.here.hgPool a.busy.crew.part (gdDval a.hgRun.gd + entrySize a.hgRun.rd * i) (entrySize a.hgRun.rd)).andThen a.busy
      a.busy.hgFailFinal fun s e => s.hgStore s.hgFailFinal (gdOval a.hgRun.gd + 4 * (s.hgBase + i))
        (natLe 4 (hingeOut (rdXs a.hgRun.rd) (rdVty a.hgRun.rd) (entryValue (rdVty a.hgRun.rd) e))) fun s => s.hgFinalAt (i + 1) := by
  have hb := a.turned_busy
  rw [State.finalStep, hb.hgRun, hf, hb.hgV, hb.hgF]
  refine (if_neg Bool.false_ne_true).trans ((if_pos hi).trans ?_)
  rw [hb.holds hn]
  rfl

theorem State.finalStep_unchanged (hbit : f / 2 ^ (i % 8) % 2 = 0) : a.Goes (a.busy.finalStep i) (.finalize (i + 1)) := by
  rw [State.finalStep_value hf hi hn, if_pos hbit]
  exact a.turned_busy.goes_finalize _

theorem State.finalStep_changed (hbit : f / 2 ^ (i % 8) % 2 = 1) {e : Nat}
    (he : a.here.Holds a.crew.part (gdDval a.hgRun.gd + entrySize a.hgRun.rd * i) (entrySize a.hgRun.rd) e) :
    a.busy.finalStep i = a.busy.hgStore a.busy.hgFailFinal (gdOval a.hgRun.gd + 4 * (a.hgBase + i))
      (natLe 4 (hingeOut (rdXs a.hgRun.rd) (rdVty a.hgRun.rd) (entryValue (rdVty a.hgRun.rd) e))) fun s => s.hgFinalAt (i + 1) := by
  rw [State.finalStep_value hf hi hn, if_neg (by omega), a.turned_busy.holds he, ← a.turned_busy.hgBase]
  rfl

end Values

theorem State.finalStep_active (hlo : a.hgV ≤ i) (hhi : i < a.hgV + ceilDiv a.hgV 8) {f : Nat}
    (hn : a.here.Holds a.crew.part (gdFront a.hgRun.gd + a.hgF + (i - a.hgV)) 1 f) :
    a.busy.finalStep i = a.busy.hgStore a.busy.hgFailFinal (gdOact a.hgRun.gd + a.hgBase / 8 + (i - a.hgV)) [BitVec.ofNat 8 f]
      fun s => s.hgFinalAt (i + 1) := by
  have hb := a.turned_busy
  rw [State.finalStep, hb.hgRun, hf, hb.hgV, hb.hgF]
  refine (if_neg Bool.false_ne_true).trans ((if_neg (Nat.not_lt.2 hlo)).trans ((if_pos hhi).trans ?_))
  rw [hb.holds hn, ← hb.hgBase]
  rfl

/-! ### After the stores of values and activity -/

/-- The later steps of the finalize, from the frontier's on. -/
theorem State.finalStep_later {j : Nat} (hi : i = a.hgV + ceilDiv a.hgV 8 + j) : a.busy.finalStep i =
    if j = 0 then a.busy.hgSwap i
    else if j ≤ a.hgV then a.busy.hgStat (j - 1) (i + 1)
    else if j ≤ a.hgV + 4 then
      a.busy.hgStore a.busy.hgFailFinal (gdTstat a.hgRun.gd + 32 * a.hgPos + 8 * (j - a.hgV - 1))
        (natLe 8 (a.hgRun.record / 2 ^ (64 * (j - a.hgV - 1)))) fun s => s.hgFinalAt (i + 1)
    else .next a.busy.hgPerformed := by
  have hb := a.turned_busy
  have hj : i - (a.hgV + ceilDiv a.hgV 8) = j := by omega
  rw [State.finalStep, hb.hgRun, hf, hb.hgV, hb.hgPos]
  refine (if_neg Bool.false_ne_true).trans ((if_neg (by omega)).trans ((if_neg (by omega)).trans ?_))
  rw [hj]

theorem State.finalStep_swap (hi : i = a.hgV + ceilDiv a.hgV 8) : a.busy.finalStep i = a.busy.hgSwap i := by
  rw [State.finalStep_later hf (j := 0) hi, if_pos rfl]

theorem State.finalStep_stat {k : Nat} (hi : i = a.hgV + ceilDiv a.hgV 8 + 1 + k) (hk : k < a.hgV) :
    a.busy.finalStep i = a.busy.hgStat k (i + 1) := by
  rw [State.finalStep_later hf (j := k + 1) (by omega), if_neg k.succ_ne_zero, if_pos (Nat.succ_le_of_lt hk), Nat.add_sub_cancel]

theorem State.finalStep_record {k : Nat} (hi : i = a.hgV + ceilDiv a.hgV 8 + 1 + a.hgV + k) (hk : k < 4) :
    a.busy.finalStep i = a.busy.hgStore a.busy.hgFailFinal (gdTstat a.hgRun.gd + 32 * a.hgPos + 8 * k)
      (natLe 8 ([a.hgRun.nfs % 2 ^ 64, a.hgRun.mf % 2 ^ 64, a.hgRun.mu % 2 ^ 64, 0].getD k 0)) fun s => s.hgFinalAt (i + 1) := by
  have hj : a.hgV + k + 1 - a.hgV - 1 = k := by omega
  rw [State.finalStep_later hf (j := a.hgV + k + 1) (by omega), if_neg (Nat.succ_ne_zero _), if_neg (by omega), if_pos (by omega), hj,
    HingeRun.natLe_record _ hk]

theorem State.finalStep_performed (hi : a.hgV + ceilDiv a.hgV 8 + 1 + a.hgV + 4 ≤ i)
    (hputs : ∀ q ∈ a.mem.remote, q.writer = .cmd a.hgRun.id → q.open_ = false) : a.busy.finalStep i = .next (a.busy.hgUpdate false) := by
  have hb := a.turned_busy
  have hnone : a.busy.mem.remote.filter (fun q => q.writer == .cmd a.hgRun.id && q.open_) = [] :=
    List.filter_eq_nil_iff.2 fun q hq hopen => by
      obtain ⟨hw, ho⟩ := Bool.and_eq_true_iff.1 hopen
      rw [hputs q (by rwa [← hb.mem]) (eq_of_beq hw)] at ho
      cases ho
  rw [State.finalStep_later hf (j := i - (a.hgV + ceilDiv a.hgV 8)) (by omega), if_neg (by omega), if_neg (by omega), if_neg (by omega),
    State.hgPerformed, hb.hgRun, hnone]
  rfl

end Finalize

/-! ### The statistics (Table 12.4) -/

section Stat
variable {a : State} {k at_ : Nat}

theorem State.hgStat_fresh (he : a.hgRun.eval = none) : a.busy.hgStat k at_ = a.busy.hgFinishedPart a.busy.hgFailFinal k := by
  rw [State.hgStat, a.turned_busy.hgRun, he]

theorem State.hgStat_counts {v : HingeEval} {done : XWord} (he : a.hgRun.eval = some v) (hd : v.result = some done) {lo hi f : Nat}
    (hlo : a.Loads (gdCsro a.hgRun.gd + 4 * k) 4 lo) (hhi : a.Loads (gdCsro a.hgRun.gd + 4 * (k + 1)) 4 hi) (hle : lo ≤ hi)
    (hf : a.here.Holds a.crew.part (gdFront a.hgRun.gd + k / 8) 1 f) :
    Ends (a.busy.hgStat k at_) fun u => a.RunsTo u { a.hgRun with
      phase := .finalize at_, eval := none, nfs := a.hgRun.nfs + f / 2 ^ (k % 8) % 2
      mf := a.hgRun.mf + f / 2 ^ (k % 8) % 2 * (hi - lo), mu := a.hgRun.mu + if done = 0 then hi - lo else 0 } := by
  obtain ⟨w, hw, hk⟩ := a.turned_busy.row hlo hhi
  refine ⟨_, ?_, (hw.modRun fun r => { r with
      nfs := r.nfs + f / 2 ^ (k % 8) % 2, mf := r.mf + f / 2 ^ (k % 8) % 2 * (hi - lo)
      mu := r.mu + if done = 0 then hi - lo else 0 }).modRun hw.cur fun r => { r with phase := .finalize at_, eval := none }⟩
  rw [State.hgStat, a.turned_busy.hgRun, he]
  dsimp only
  rw [hd]
  dsimp only
  rw [hk, if_neg (Nat.not_lt.2 hle), hw.holds hf]
  rfl

end Stat

/-! ### `fnext` over `fcur` -/

/-- A core whose frontier a finalize has moved on: `fnext` stands in `fcur`, and is cleared. -/
def Core.swapped (front size : Nat) (c : Core) : Core :=
  (c.poolWrite front (memGets c.pool (front + size) size)).poolWrite (front + size) (List.replicate size 0)

/-- What the exchange of the bitmaps leaves. -/
def State.Swaps (a u : State) (front : Nat) (r : HingeRun) : Prop :=
  (u.crewAt a.cur.core a.cur.crew).hinge = r
    ∧ memGets (u.core a.cur.core).pool front a.hgF = memGets (a.core a.cur.core).pool (front + a.hgF) a.hgF
    ∧ memGets (u.core a.cur.core).pool (front + a.hgF) a.hgF = List.replicate a.hgF 0
    ∧ (∀ x, x < front ∨ front + 2 * a.hgF ≤ x → memGet (u.core a.cur.core).pool x = memGet (a.core a.cur.core).pool x) ∧ u.mem = a.mem

theorem State.pool_swapped {a u : State} (h : a.Turned u) (front size : Nat) (f : HingeRun → HingeRun) :
    (((u.modHere (Core.swapped front size)).modRun f).core a.cur.core).pool
      = memSets (memSets (a.core a.cur.core).pool front (memGets (a.core a.cur.core).pool (front + size) size)) (front + size)
          (List.replicate size 0) := by
  rw [State.modRun, State.corePool_modCrew, State.modHere, h.cur, State.core_modCore, ← h.pool]
  rfl

theorem State.Turned.swaps {a u : State} (h : a.Turned u) (hwf : memWf (a.core a.cur.core).pool = true) (front : Nat)
    (f : HingeRun → HingeRun) : a.Swaps ((u.modHere (Core.swapped front a.hgF)).modRun f) front (f a.hgRun) := by
  have hlen : (memGets (a.core a.cur.core).pool (front + a.hgF) a.hgF).length = a.hgF := length_memGets _ _ _
  have hwf1 := memWf_memSets front (memGets (a.core a.cur.core).pool (front + a.hgF) a.hgF) hwf
  refine ⟨?_, ?_, ?_, fun x hx => ?_, h.mem⟩
  · rw [← h.hgRun, ← h.cur]
    exact (State.hgRun_modRun _ _).trans (congrArg f (State.hgRun_modCore (fun _ _ => by rfl) _ _))
  · have hsame := memGets_memSets_same (a := front) (memGets (a.core a.cur.core).pool (front + a.hgF) a.hgF) hwf
    rw [hlen] at hsame
    rw [State.pool_swapped h, memGets_memSets_other _ hwf1 (.inl (Nat.le_refl _)), hsame]
  · have hsame := memGets_memSets_same (a := front + a.hgF) (List.replicate a.hgF (0 : Byte)) hwf1
    rw [List.length_replicate] at hsame
    rw [State.pool_swapped h, hsame]
  · rw [State.pool_swapped h, memGet_memSets_other _ hwf1 (by rw [List.length_replicate]; omega),
      memGet_memSets_other _ hwf (by rw [hlen]; omega)]

/-- The frontier moves on: `fnext` is the new `fcur`, and the first superstep's count of the old one is kept. -/
theorem State.hgSwap_swaps {a : State} (hwf : memWf a.here.pool = true) {i front : Nat}
    (hplace : poolPlace a.crew.part (gdFront a.hgRun.gd) = front) (hfree : a.here.Free front (2 * a.hgF))
    (hnext : poolPlace a.crew.part (gdFront a.hgRun.gd + a.hgF) = front + a.hgF) :
    Ends (a.busy.hgSwap i) fun u => a.Swaps u front { a.hgRun with
      phase := .finalize (i + 1), eval := none, nfs := 0, mf := 0, mu := 0
      first := a.hgRun.first.orElse fun _ => some (popBits (leNat (memGets a.here.pool front a.hgF)) a.hgV) } := by
  have hb := a.turned_busy
  have hcur := hfree.part (p := front) (k := a.hgF) (by omega) (by omega)
  have hnew := hfree.part (p := front + a.hgF) (k := a.hgF) (by omega) (by omega)
  have hread : a.busy.hgBitmap true = .val (leNat (memGets a.here.pool (front + a.hgF) a.hgF)) := by
    rw [State.hgBitmap, hb.hgRun, hb.hgF, if_pos rfl, hb.hgPool, hb.crew, Core.hgPool_free (by rwa [hnext]), hnext]
  have hlocked : a.busy.here.lockedFor none front (2 * a.hgF) = false := by
    rw [hb.readHere (fun c => c.lockedFor none front (2 * a.hgF)) fun _ => rfl]
    exact hfree.1
  have hgood : a.busy.here.poolBad front a.hgF = false := by
    rw [hb.readHere (fun c => c.poolBad front a.hgF) fun _ => rfl]
    exact hcur.2
  have hbytes : natLe a.hgF (leNat (memGets a.here.pool (front + a.hgF) a.hgF)) = memGets a.here.pool (front + a.hgF) a.hgF := by
    have h := natLe_leNat (memGets a.here.pool (front + a.hgF) a.hgF)
    rwa [length_memGets] at h
  have hwrite : (a.busy.modHere fun c => (c.poolWrite front (natLe a.hgF (leNat (memGets a.here.pool (front + a.hgF) a.hgF)))).poolWrite
      (front + a.hgF) (List.replicate a.hgF 0)) = a.busy.modHere (Core.swapped front a.hgF) := by
    rw [State.modHere_eq, State.modHere_eq, hbytes, Core.swapped, hb.readHere Core.pool fun _ => rfl]
  have hstep : a.busy.hgSwap i = .next ((a.busy.modHere (Core.swapped front a.hgF)).modRun fun r => { r with
      phase := .finalize (i + 1), eval := none, nfs := 0, mf := 0, mu := 0
      first := r.first.orElse fun _ => some (popBits (leNat (memGets a.here.pool front a.hgF)) a.hgV) }) := by
    rw [State.hgSwap]
    dsimp only
    rw [hb.crew, hb.hgRun, hb.hgF, hplace, hnext, hlocked, hread]
    refine (if_neg Bool.false_ne_true).trans ?_
    simp only [HgRead.andThen, hgood, hb.hgV, hb.readHere Core.pool fun _ => rfl, hwrite, State.hgFinalAt, State.modRun,
      State.modCrew_modCrew, Bool.false_eq_true, if_false]
  exact ⟨_, hstep, hb.swaps hwf front fun r => { r with
      phase := .finalize (i + 1), eval := none, nfs := 0, mf := 0, mu := 0
      first := r.first.orElse fun _ => some (popBits (leNat (memGets a.here.pool front a.hgF)) a.hgV) }⟩

end Sys2Proof.Machine
end

section
/-! PROOFS. The completion of a superstep's phase, and the combine functions (R253, R256, R257). -/

namespace Sys2Proof.Machine

/-! ### The records of a team -/

/-- The sum of a field of the records of `n` blocks. -/
def sumTo (f : Nat → Nat) (n : Nat) : Nat := ((List.range n).map f).sum

theorem sumTo_succ (f : Nat → Nat) (n : Nat) : sumTo f (n + 1) = sumTo f n + f n := by
  rw [sumTo, List.range_succ, List.map_append, List.sum_append]
  rfl

/-- The three fields of the records that a team's Hinges read. -/
structure State.Records (a : State) (n : Nat) (nf mf mu : Nat → Nat) : Prop where
  nf : ∀ q < n, a.Loads (gdTstat a.hgRun.gd + 32 * q) 8 (nf q)
  mf : ∀ q < n, a.Loads (gdTstat a.hgRun.gd + 32 * q + 8) 8 (mf q)
  mu : ∀ q < n, a.Loads (gdTstat a.hgRun.gd + 32 * q + 16) 8 (mu q)

theorem State.Records.less {a : State} {n : Nat} {nf mf mu : Nat → Nat} (h : a.Records (n + 1) nf mf mu) : a.Records n nf mf mu :=
  ⟨fun q hq => h.nf q (by omega), fun q hq => h.mf q (by omega), fun q hq => h.mu q (by omega)⟩

theorem State.Turned.hgSums {a : State} {nf mf mu : Nat → Nat} (onFault : State)
    (k : State → Nat × Nat × Nat → Host.Outcome State Fault Refusal) (n : Nat) {u : State} (h : a.Turned u) (hr : a.Records n nf mf mu) (acc : Nat × Nat × Nat) :
    ∃ w, a.Turned w ∧ u.hgSums onFault acc k n = k w (acc.1 + sumTo nf n, acc.2.1 + sumTo mf n, acc.2.2 + sumTo mu n) := by
  induction n generalizing u acc with
  | zero => exact ⟨u, h, rfl⟩
  | succ n ih =>
    obtain ⟨w1, h1, hk1⟩ := h.load (hr.nf n (Nat.lt_succ_self n))
    obtain ⟨w2, h2, hk2⟩ := h1.load (hr.mf n (Nat.lt_succ_self n))
    obtain ⟨w3, h3, hk3⟩ := h2.load (hr.mu n (Nat.lt_succ_self n))
    obtain ⟨w, hw, hk⟩ := ih h3 hr.less (acc.1 + nf n, acc.2.1 + mf n, acc.2.2 + mu n)
    refine ⟨w, hw, ?_⟩
    rw [State.hgSums, h.hgRun]
    rw [hk1, hk2, hk3, hk]
    simp only [sumTo_succ, Nat.add_assoc, Nat.add_comm]

/-! ### Ends of a run -/

theorem State.crew_hgEnd (s : State) (st : HingeState) : (s.hgEnd st).crew = { s.crew with
    xcmds := s.crew.xcmds.filter fun n => n ≠ s.hgRun.id
    seqX := { s.crew.seqX with retired := s.hgRun.id :: s.crew.seqX.retired }
    hinge := { s.crew.hinge with state := st, phase := .ready, eval := none } } := by
  rw [State.hgEnd]
  dsimp only
  rw [State.crew_modHere fun _ _ => by rfl, State.crew_modCrew]
  rfl

/-- A run has ended, and its `hrun` is no longer outstanding. -/
def State.Stops (a u : State) (st : HingeState) : Prop :=
  (u.crewAt a.cur.core a.cur.crew).hinge.state = st ∧ ∀ id, a.hgRun.cmd = some id → id ∉ (u.crewAt a.cur.core a.cur.crew).xcmds

/-- What a completion leaves of a run that its team's records have the sums of (R257). -/
def State.Decides (a u : State) (fail : Bool) (nf mf mu : Nat) : Prop :=
  let r := a.hgRun
  let run := (u.crewAt a.cur.core a.cur.crew).hinge
  run.nss = r.nss + 1 ∧ run.nf = some nf
    ∧ (fail = true → a.Stops u .stopped)
    ∧ (fail = false → (nf = 0 ∨ r.nss + 1 = rdMaxss r.rd) → a.Stops u .done)
    ∧ (fail = false → nf ≠ 0 → r.nss + 1 ≠ rdMaxss r.rd →
        run.state = r.state ∧ run.phase = .ready ∧ run.pull = nextMode r nf mf mu
        ∧ (r.nsw < 65535 → run.nsw = if nextMode r nf mf mu ≠ r.pull then r.nsw + 1 else r.nsw))

section Decide
variable {a w : State} (hrun : w.hgRun = a.hgRun) (hcur : w.cur = a.cur)

/-- The run when its superstep counts among those completed. -/
def HingeRun.completed (r : HingeRun) (nf : Nat) : HingeRun := { r with nss := r.nss + 1, nf := some nf }

/-- The run that goes on in a mode (R257). -/
def HingeRun.turnTo (r : HingeRun) (m : Bool) : HingeRun :=
  { r with pull := m, nsw := if m ≠ r.pull then Min.min (r.nsw + 1) 65535 else r.nsw, phase := .ready }

theorem State.hgDecide_eq (s : State) (fail : Bool) (nf mf mu : Nat) : s.hgDecide fail (nf, mf, mu) =
    if fail then (s.modRun fun r => r.completed nf).hgCount.hgEnd .stopped
    else if nf = 0 ∨ s.hgRun.nss + 1 = rdMaxss s.hgRun.rd then (s.modRun fun r => r.completed nf).hgCount.hgEnd .done
    else ((s.modRun fun r => r.completed nf).modRun fun r => r.turnTo (nextMode (s.hgRun.completed nf) nf mf mu)).hgCount := by
  have hc : (s.modRun fun r => r.completed nf).hgRun = s.hgRun.completed nf := s.hgRun_modRun _
  change (if fail then (s.modRun fun r => r.completed nf).hgCount.hgEnd .stopped
    else if (nf = 0 || (s.modRun fun r => r.completed nf).hgRun.nss = rdMaxss (s.modRun fun r => r.completed nf).hgRun.rd) = true then
      (s.modRun fun r => r.completed nf).hgCount.hgEnd .done
    else ((s.modRun fun r => r.completed nf).modRun fun r =>
      { r with
        pull := nextMode (s.modRun fun r => r.completed nf).hgRun nf mf mu
        nsw := if nextMode (s.modRun fun r => r.completed nf).hgRun nf mf mu ≠ r.pull then Min.min (r.nsw + 1) 65535 else r.nsw
        phase := .ready }).hgCount) = _
  rw [hc]
  simp only [Bool.or_eq_true, decide_eq_true_eq]
  rfl

include hrun hcur

theorem State.hgEnd_completed (nf : Nat) (st : HingeState) :
    let u := (w.modRun fun r => r.completed nf).hgCount.hgEnd st
    a.Stops u st ∧ (u.crewAt a.cur.core a.cur.crew).hinge.nss = a.hgRun.nss + 1
      ∧ (u.crewAt a.cur.core a.cur.crew).hinge.nf = some nf := by
  intro u
  have hc : (w.modRun fun r => r.completed nf).hgCount.hgRun = a.hgRun.completed nf := by
    rw [State.hgRun_hgCount, State.hgRun_modRun, hrun]
  have hu : u.crewAt a.cur.core a.cur.crew = u.crew := by
    rw [← hcur]
    rfl
  have hinge : u.crew.hinge = { a.hgRun.completed nf with state := st, phase := .ready, eval := none } := by
    rw [State.crew_hgEnd, ← hc]
    rfl
  rw [State.Stops, hu, hinge]
  refine ⟨⟨rfl, fun id hid hin => ?_⟩, rfl, rfl⟩
  rw [State.crew_hgEnd, hc] at hin
  refine absurd (List.mem_filter.1 hin).2 ?_
  rw [HingeRun.id, HingeRun.completed, hid]
  simp

theorem State.hgDecide_decides (fail : Bool) (nf mf mu : Nat) : a.Decides (w.hgDecide fail (nf, mf, mu)) fail nf mf mu := by
  rw [State.hgDecide_eq]
  cases fail with
  | true =>
    obtain ⟨hstop, hnss, hnf⟩ := State.hgEnd_completed hrun hcur nf .stopped
    rw [if_pos rfl]
    exact ⟨hnss, hnf, fun _ => hstop, nofun, nofun⟩
  | false =>
    rw [if_neg Bool.false_ne_true, hrun]
    by_cases hlast : nf = 0 ∨ a.hgRun.nss + 1 = rdMaxss a.hgRun.rd
    · obtain ⟨hstop, hnss, hnf⟩ := State.hgEnd_completed hrun hcur nf .done
      rw [if_pos hlast]
      exact ⟨hnss, hnf, nofun, fun _ _ => hstop, fun _ h1 h2 => absurd hlast (by tauto)⟩
    · have hinge : ((((w.modRun fun r => r.completed nf).modRun fun r =>
          r.turnTo (nextMode (a.hgRun.completed nf) nf mf mu)).hgCount).crewAt a.cur.core a.cur.crew).hinge
          = (a.hgRun.completed nf).turnTo (nextMode a.hgRun nf mf mu) := by
        have hg : (((w.modRun fun r => r.completed nf).modRun fun r =>
            r.turnTo (nextMode (a.hgRun.completed nf) nf mf mu)).hgCount).hgRun = (a.hgRun.completed nf).turnTo (nextMode a.hgRun nf mf mu) := by
          rw [State.hgRun_hgCount, State.hgRun_modRun, State.hgRun_modRun, hrun]
          rfl
        rw [← hg, ← hcur]
        rfl
      rw [if_neg hlast, State.Decides]
      rw [hinge]
      refine ⟨rfl, rfl, nofun, fun _ h => absurd h hlast, fun _ _ _ => ⟨rfl, rfl, rfl, fun hn => ?_⟩⟩
      have hmin : Min.min (a.hgRun.nsw + 1) 65535 = a.hgRun.nsw + 1 := by omega
      simp only [HingeRun.turnTo, HingeRun.completed, hmin]

end Decide

/-! ### The completion -/

theorem State.hgRun_acquire (s : State) (core : CoreId) (q : Spot) (sc : Scope) (ok : Nat → Bool) :
    (s.acquire core q sc ok).hgRun = s.hgRun := by
  rw [State.acquire]
  rw [State.hgRun_modCore fun _ _ => by rfl]
  split <;> rfl

theorem State.cur_acquire (s : State) (core : CoreId) (q : Spot) (sc : Scope) (ok : Nat → Bool) : (s.acquire core q sc ok).cur = s.cur := by
  rw [State.acquire]
  split <;> rfl

section Completion
variable {s : State} {core : CoreId} {crew : CrewIx}

theorem exec_completion_ended (hact : (s.actAs core crew .hinge).hgActive = true) (hlive : (s.actAs core crew .hinge).hgRun.live = true)
    (hp : (s.actAs core crew .hinge).hgRun.phase = .phase) (hl : (s.actAs core crew .hinge).hgLocked = false) {t : Nat} {fail : Bool}
    {sc : Scope} (he : (s.actAs core crew .hinge).hgRun.ended = some (t, fail, sc)) :
    exec (.hingeCompletion core crew) s =
      ((s.actAs core crew .hinge).acquire core ((s.actAs core crew .hinge).spot core crew) sc fun c => c ≤ t).hgSums
        ((s.actAs core crew .hinge).hgDecide true (0, 0, 0))
        (0, 0, 0) (fun s q => .next (s.hgDecide fail q)) (runBlocks (s.actAs core crew .hinge).hgRun.gd) := by
  change execHingeCompletion core crew s = _
  rw [execHingeCompletion]
  rw [if_neg (by simp [hact, hlive, hp, hl]), he]

theorem exec_completion_waits {b : BarRef} (hb : (s.actAs core crew .hinge).hgBar = some b)
    (he : (s.actAs core crew .hinge).hgRun.ended = none) : exec (.hingeCompletion core crew) s = .next s := by
  change execHingeCompletion core crew s = _
  rw [execHingeCompletion]
  split
  · rfl
  · rw [he]
    dsimp only
    rw [if_neg (by simp [hb])]

end Completion

/-! ### What a run hears (R256) -/

theorem HingeRun.ended_hear_done {r : HingeRun} {id : Nat} (hid : r.cmd = some id) (runs : List Nat) (t : Nat) (fail : Bool) (sc : Scope) :
    (r.hear (.done runs t fail sc)).ended = if id ∈ runs then some (t, fail, sc) else r.ended := by
  rw [HingeRun.hear]
  simp only [hid, Option.any_some, List.contains_iff_mem]
  split <;> rfl

/-! ### Combines as arithmetic (R253) -/

theorem clampInt_eq {lo hi x : Int} (h : lo ≤ hi) : clampInt lo hi x = Max.max lo (Min.min hi x) := by
  rw [clampInt]
  split
  · omega
  · split <;> omega

theorem ofNat_low32 (m : XWord) : BitVec.ofNat 64 (m.toNat % 2 ^ 32) = m &&& 0xFFFFFFFF := by
  refine BitVec.eq_of_toNat_eq ?_
  have hand : m.toNat &&& 0xFFFFFFFF = m.toNat % 2 ^ 32 := Nat.and_two_pow_sub_one_eq_mod m.toNat 32
  rw [BitVec.toNat_ofNat, BitVec.toNat_and]
  change _ = m.toNat &&& 0xFFFFFFFF
  rw [hand]
  omega

/-- A message as it is combined (R253). -/
def narrowed (ty cop : Nat) (m : XWord) : XWord :=
  if ty = 2 then m else if 2 ≤ cop then m &&& 0xFFFFFFFF
  else if ty = 0 then BitVec.ofInt 64 (Max.max (-2147483648) (Min.min 2147483647 m.toInt))
  else BitVec.ofInt 64 (Max.max 0 (Min.min 4294967295 m.toInt))

/-- The order of a type's values (R253). -/
def entryBelow (ty : Nat) (x y : XWord) : Prop := if ty = 1 then x.toNat < y.toNat else x.toInt < y.toInt

theorem combineEntry_eq (ty cop : Nat) (e m : XWord) : combineEntry ty cop e m = match cop with
    | 0 => if (if ty = 1 then (narrowed ty cop m).ult e else (narrowed ty cop m).slt e) then narrowed ty cop m else e
    | 1 => if (if ty = 1 then e.ult (narrowed ty cop m) else e.slt (narrowed ty cop m)) then narrowed ty cop m else e
    | 2 => e ||| narrowed ty cop m
    | _ => e + narrowed ty cop m := by
  have hn : narrowed ty cop m = if ty = 2 then m
      else if 2 ≤ cop then BitVec.ofNat 64 (m.toNat % 2 ^ 32)
      else if ty = 0 then BitVec.ofInt 64 (clampInt (-(2 ^ 31 : Int)) (2 ^ 31 - 1 : Int) m.toInt)
      else BitVec.ofInt 64 (clampInt 0 (2 ^ 32 - 1 : Int) m.toInt) := by
    rw [ofNat_low32, clampInt_eq (by omega), clampInt_eq (by omega)]
    rfl
  rw [hn]
  rfl

theorem entryBelow_iff (ty : Nat) (x y : XWord) : (if ty = 1 then x.ult y else x.slt y) = true ↔ entryBelow ty x y := by
  rw [entryBelow]
  split
  · exact BitVec.ult_iff_lt
  · exact BitVec.slt_iff_toInt_lt

end Sys2Proof.Machine
end

section
/-! PROOFS. Runs of Hinge (R105, R252 to R257): supersteps, finalize and completion together. -/

namespace Sys2Proof.Machine

section Runs
variable {s a : State} {core : CoreId} {crew : CrewIx} {b : BarRef} (ha : s.actAs core crew .hinge = a) (hbar : a.hgBar = some b)

/-! ### Supersteps -/

section Superstep
variable (ht : a.hgTakes = true)
include ha ht

theorem superstep_begins (hp : a.hgRun.phase = .ready) (hl : a.hgLocked = false) : exec a.superstep s = .next a.hgBegin := by
  subst ha
  rw [exec_superstep ht, hp, hl]
  rfl

theorem exec_checkStep {i j : Nat} (hp : a.hgRun.phase = .check i j) : exec a.superstep s = a.busy.checkStep i j := by
  subst ha
  rw [exec_superstep ht, hp]

variable {i j : Nat} (hp : a.hgRun.phase = .edges i j)
include hp

theorem exec_pushStep (hm : a.hgRun.mode = false) : exec a.superstep s = a.busy.pushStep i j := by
  subst ha
  rw [exec_superstep ht, hp, hm]
  rfl

theorem exec_pullStep (hm : a.hgRun.mode = true) : exec a.superstep s = a.busy.pullStep i j := by
  subst ha
  rw [exec_superstep ht, hp, hm]
  rfl

include hbar in
/-- With no vertex left the superstep arrives on its barrier (R256). -/
theorem superstep_arrives (he : a.hgRun.eval = none) (hi : a.hgV ≤ i) : Answers a.superstep s fun u => a.Arrives u b false := by
  refine Ends.answers ⟨_, rfl, a.turned_busy.arrive hbar false⟩ ?_
  cases hm : a.hgRun.mode with
  | false => exact (exec_pushStep ha ht hp hm).trans (State.pushStep_last he hi)
  | true => exact (exec_pullStep ha ht hp hm).trans (State.pullStep_last he hi)

variable {v : HingeEval} {m : XWord} (he : a.hgRun.eval = some v) (hr : v.result = some m)
include he hr

/-- A message counts before it is combined (R254). -/
theorem superstep_counts (hf : v.finished = false) (hwf : memWf a.here.pool = true) (hc : v.counted = false) (hl : a.hgLocked = false) :
    Answers a.superstep s fun u => a.Counts u { a.hgRun with nedge := a.hgRun.nedge + 1, eval := some { v with counted := true } } := by
  refine (State.hgMessageRan_counts he hwf hl).answers ?_
  cases hm : a.hgRun.mode with
  | false => rw [exec_pushStep ha ht hp hm, State.pushStep_ran he hr, hc, if_neg Bool.false_ne_true]
  | true => rw [exec_pullStep ha ht hp hm, State.pullStep_ran he hr hf, hc, if_neg Bool.false_ne_true]

variable (hc : v.counted = true)
include hc

theorem exec_pushCombine (hm : a.hgRun.mode = false) :
    exec a.superstep s = a.busy.hgCombine v.target m fun s => s.hgAt i (j + 1) := by
  rw [exec_pushStep ha ht hp hm, State.pushStep_ran he hr, if_pos hc]

theorem exec_pullCombine (hm : a.hgRun.mode = true) (hf : v.finished = false) :
    exec a.superstep s = a.busy.hgCombine (a.hgBase + i) m fun s => s.hgCheck i j := by
  rw [exec_pullStep ha ht hp hm, State.pullStep_ran he hr hf, if_pos hc]

end Superstep

/-- A combine is one update of the entry and its frontier bit, and then the run goes on. -/
theorem State.ends_combined {t : Nat} {m : XWord} {oc : CoreId} {ow : CrewIx} {q n fr : Nat} (hc : a.Combines t oc ow q n fr)
    (hwf : memWf (a.core oc).pool = true)
    (hapart : poolPlace (a.crewAt oc ow).part (fr + n / 8) < poolPlace (a.crewAt oc ow).part (gdDval a.hgRun.gd + entrySize a.hgRun.rd * n)
      ∨ poolPlace (a.crewAt oc ow).part (gdDval a.hgRun.gd + entrySize a.hgRun.rd * n) + entrySize a.hgRun.rd
        ≤ poolPlace (a.crewAt oc ow).part (fr + n / 8))
    (f : HingeRun → HingeRun) :
    Ends (a.busy.hgCombine t m fun s => s.modRun f) fun u => a.Combined u oc
      (poolPlace (a.crewAt oc ow).part (gdDval a.hgRun.gd + entrySize a.hgRun.rd * n)) (poolPlace (a.crewAt oc ow).part (fr + n / 8)) n
      ((combineEntry (rdVty a.hgRun.rd) (rdCop a.hgRun.rd) (entryValue (rdVty a.hgRun.rd) (leNat (memGets (a.core oc).pool
        (poolPlace (a.crewAt oc ow).part (gdDval a.hgRun.gd + entrySize a.hgRun.rd * n)) (entrySize a.hgRun.rd)))) m).toNat
        % 2 ^ (8 * entrySize a.hgRun.rd)) (f a.hgRun) :=
  ⟨_, a.turned_busy.hgCombine _ hc, a.turned_busy.combined f hwf hapart⟩

/-! ### The finalize -/

/-- A store of the finalize ends in its next step, or in the update of a failed one. -/
theorem State.ends_store {va n : Nat} {bytes : List Byte} (hbar : a.hgBar = some b) :
    (∀ x, a.translate (.tlb 5) a.crew.ctx va .write = .ok x → entryRem x.leaf2.entry = false → x.pa + bytes.length ≤ Config.hbmBytes →
      Ends (a.busy.hgStore a.busy.hgFailFinal va bytes fun s => s.hgFinalAt n) fun u => a.Stores u x bytes n)
    ∧ ∀ c, a.translate (.tlb 5) a.crew.ctx va .write = .fault c →
      Ends (a.busy.hgStore a.busy.hgFailFinal va bytes fun s => s.hgFinalAt n) fun u => a.Finalizes u b true :=
  ⟨fun _ ht hrem hfit => State.hgStore_stores _ ht hrem hfit, fun _ ht => State.hgStore_faults hbar ht⟩

include ha hbar in
/-- The finalize ends in its update. -/
theorem finalize_ends (hf : a.hgFinalizes = true) {i : Nat} (hp : a.hgRun.phase = .finalize i)
    (hstep : a.busy.finalStep i = .next (a.busy.hgUpdate false)) :
    Answers (.hingeFinalize core crew) s fun u => (u.crewAt a.cur.core a.cur.crew).hinge.phase = .phase
      ∧ a.Sends u b (.hingeFinal false) := by
  subst ha
  obtain ⟨hphase, hsends, -, -⟩ := (State.turned_busy _).final hbar false
  exact ⟨_, (exec_finalize hf hp).trans hstep, hphase, hsends⟩

/-! ### Completion -/

include ha in
/-- A completed phase decides by the sums of the team's records (R257). -/
theorem completion_decides (hact : a.hgActive = true) (hlive : a.hgRun.live = true) (hp : a.hgRun.phase = .phase) (hl : a.hgLocked = false)
    {t : Nat} {fail : Bool} {sc : Scope} (he : a.hgRun.ended = some (t, fail, sc)) {nf mf mu : Nat → Nat}
    (hrec : (a.acquire core (a.spot core crew) sc fun c => c ≤ t).Records (runBlocks a.hgRun.gd) nf mf mu) :
    Answers (.hingeCompletion core crew) s fun u => a.Decides u fail (sumTo nf (runBlocks a.hgRun.gd)) (sumTo mf (runBlocks a.hgRun.gd))
      (sumTo mu (runBlocks a.hgRun.gd)) := by
  subst ha
  have hacq := State.hgRun_acquire (s.actAs core crew .hinge) core ((s.actAs core crew .hinge).spot core crew) sc fun c => c ≤ t
  have hcur := State.cur_acquire (s.actAs core crew .hinge) core ((s.actAs core crew .hinge).spot core crew) sc fun c => c ≤ t
  obtain ⟨w, hw, hk⟩ := (State.Turned.refl _).hgSums ((s.actAs core crew .hinge).hgDecide true (0, 0, 0))
    (fun s q => .next (s.hgDecide fail q)) _ hrec (0, 0, 0)
  rw [Nat.zero_add, Nat.zero_add, Nat.zero_add] at hk
  exact ⟨_, (exec_completion_ended hact hlive hp hl he).trans hk,
    State.hgDecide_decides (hw.hgRun.trans hacq) (hw.cur.trans hcur) ..⟩

end Runs

/-- Settles O35: each step by what its reads give within the turn, and each completion by the sums of the records. -/
theorem hingeRuns : Obligations.HingeRuns := by
  unfold Obligations.HingeRuns
  intro s core crew b a r g d V base es vty part pool run step sent pools free holds walked loads becomes goes arrives row regs value
    evaluates message finished combines stores hb hgood hwf
  have ha : s.actAs core crew .hinge = a := rfl
  have hbar : a.hgBar = some b := State.hgBar_ok hb hgood
  have hturn := a.turned_busy
  refine ⟨fun ht => ⟨fun hp hl => ⟨_, superstep_begins ha ht hp hl, a.hgRun_hgBegin, a.hingeCur_hgBegin⟩,
    fun i j hp hm => ⟨fun he e hv => ?_, fun v m he hr => (State.checkStep_finished he hr).answers (exec_checkStep ha ht hp)⟩, fun i j hp =>
    ⟨superstep_arrives ha hbar ht hp, fun v m he hr hf => ⟨superstep_counts ha ht hp he hr hf hwf,
      fun hc hm oc ow q n fr ho hfr hwfo => ?_, fun hc hm oc ow q n ho hfr => ?_, fun hc hm hv hi oc ow q n fr ho hfr hwfo => ?_⟩,
      fun hm he hi => ?_, fun hm he hi => ?_,
      fun v m hm he hr hf => (State.pullStep_finished he hr hf).answers (exec_pullStep ha ht hp hm)⟩⟩, ?_, ?_, ?_, ?_, ?_⟩
  · exact (hturn.evaluates_finished a.busy.hgFault hv).answers ((exec_checkStep ha ht hp).trans (State.checkStep_fresh he))
  · exact fun hce hcf hapart => (State.ends_combined ⟨ho, hfr, hce, hcf⟩ hwfo hapart
      fun r => { r with phase := .edges i (j + 1), eval := none }).answers (exec_pushCombine ha ht hp he hr hc hm)
  · exact Ends.answers ⟨_, hturn.hgCombine_unknown _ ho hfr, hturn.runsTo⟩ (exec_pushCombine ha ht hp he hr hc hm)
  · rw [hv] at ho
    exact fun hce hcf hapart => (State.ends_combined ⟨ho, hfr, hce, hcf⟩ hwfo hapart
      fun r => { r with phase := .check i j, eval := none }).answers (exec_pullCombine ha ht hp he hr hc hm hf)
  · have hexec := exec_pushStep ha ht hp hm
    refine ⟨fun hl hbad => (State.pushStep_bad he hi hbar hl hbad).answers hexec,
      fun f hf hbit => (State.pushStep_inactive he hi hf hbit).answers hexec, fun f lo hi' hf hbit hrow => ?_⟩
    obtain ⟨w, hw, hk⟩ := State.pushStep_row (j := j) he hi hf hbit hrow.1 hrow.2
    refine ⟨fun hlt => (hturn.arrives hbar).answers (hexec.trans (hk.trans (if_pos hlt))), fun hle hend => ?_, fun t hend hload => ?_⟩
    · exact (hw.pushEdge_last hend).answers (hexec.trans (hk.trans (if_neg (Nat.not_lt.2 hle))))
    · have hedge := hexec.trans (hk.trans (if_neg (by omega)))
      exact ⟨fun hbeyond => (hw.pushEdge_beyond hend hload hbar hbeyond).answers hedge,
        fun hin ov m hov hm => (hw.pushEdge_message hend hload hin hov hm).answers hedge⟩
  · have hexec := exec_pullStep ha ht hp hm
    refine ⟨fun hj e hv => ?_, fun lo hi' hj hrow => ?_⟩
    · exact (hturn.evaluates_finished a.busy.hgFault hv).answers (hexec.trans (State.pullStep_vertex he hi hj))
    obtain ⟨w, hw, hk⟩ := State.pullStep_row (j := j) he hi hj hrow.1 hrow.2
    refine ⟨fun hlt => (hturn.arrives hbar).answers (hexec.trans (hk.trans (if_pos hlt))), fun hle hend => ?_, fun o hend hload => ?_⟩
    · exact (hw.pullEdge_last hend).answers (hexec.trans (hk.trans (if_neg (Nat.not_lt.2 hle))))
    · have hedge := hexec.trans (hk.trans (if_neg (by omega)))
      exact ⟨fun hbeyond => (hw.pullEdge_beyond hend hload hbar hbeyond).answers hedge, fun act hin hact =>
        ⟨fun hbit => (hw.pullEdge_inactive hend hload hin hact hbit).answers hedge,
          fun hbit ov m hov hm => (hw.pullEdge_message hend hload hin hact hbit hov hm).answers hedge⟩⟩
  · intro hfin i hp fin F acts front ended
    have hexec : exec fin s = a.busy.finalStep i := exec_finalize hfin hp
    have hstores {va n : Nat} {bytes : List Byte}
        (hstep : a.busy.finalStep i = a.busy.hgStore a.busy.hgFailFinal va bytes fun s => s.hgFinalAt n) : stores fin va bytes n := by
      obtain ⟨hok, hfault⟩ := State.ends_store (va := va) (n := n) (bytes := bytes) hbar
      exact ⟨fun x ht hrem hfit => (hok x ht hrem hfit).answers (hexec.trans hstep),
        fun c ht => (hfault c ht).answers (hexec.trans hstep)⟩
    refine ⟨fun hf => finalize_ends ha hbar hfin hp (State.finalStep_fault hf), fun hf => ⟨
      fun f hi hn => ⟨fun hbit => ?_, fun e hbit he => ?_⟩,
      fun f hlo hhi hn => ?_, fun hi hfree hplace => ?_, fun k hi hk => ⟨fun he e hv => ?_, fun v done lo hi' f he hd hrow hle hf' => ?_⟩,
      fun k hi hk => ?_, fun hi hputs => ?_⟩⟩
    · exact (State.finalStep_unchanged hf hi hn hbit).answers hexec
    · exact hstores (State.finalStep_changed hf hi hn hbit he)
    · exact hstores (State.finalStep_active hf hlo hhi hn)
    · exact (State.hgSwap_swaps hwf rfl hfree hplace).answers (hexec.trans (State.finalStep_swap hf hi))
    · exact (hturn.evaluates_finished a.busy.hgFailFinal hv).answers
        (hexec.trans ((State.finalStep_stat hf hi hk).trans (State.hgStat_fresh he)))
    · exact (State.hgStat_counts he hd hrow.1 hrow.2 hle hf').answers (hexec.trans (State.finalStep_stat hf hi hk))
    · exact hstores (State.finalStep_record hf hi hk)
    · exact finalize_ends ha hbar hfin hp (State.finalStep_performed hf hi hputs)
  · intro t fail sc hact hlive hp hl he p nf mf mu hrec sum
    have hrun : p.hgRun = a.hgRun := a.hgRun_acquire ..
    refine completion_decides ha hact ((HingeRun.live_iff _).2 hlive) hp hl he ⟨fun q hq => ?_, fun q hq => ?_, fun q hq => ?_⟩
    all_goals rw [show (a.acquire core (a.spot core crew) sc fun c => c ≤ t).hgRun = a.hgRun from hrun]
    · exact hrec q hq 0 (by decide)
    · exact hrec q hq 1 (by decide)
    · exact hrec q hq 2 (by decide)
  · exact fun _ _ he => ⟨s, exec_completion_waits hbar he, rfl, fun _ => rfl, rfl⟩
  · exact fun h id runs t fail sc hid => HingeRun.ended_hear_done hid runs t fail sc
  · intro ty cop e m _ narrow below
    refine ⟨?_, ?_, ?_, ?_⟩
    · rintro rfl
      exact ⟨fun hlt => (combineEntry_eq ty 0 e m).trans (if_pos ((entryBelow_iff ..).2 hlt)),
        fun hno => (combineEntry_eq ty 0 e m).trans (if_neg fun h => hno ((entryBelow_iff ..).1 h))⟩
    · rintro rfl
      exact ⟨fun hlt => (combineEntry_eq ty 1 e m).trans (if_pos ((entryBelow_iff ..).2 hlt)),
        fun hno => (combineEntry_eq ty 1 e m).trans (if_neg fun h => hno ((entryBelow_iff ..).1 h))⟩
    · rintro rfl
      exact combineEntry_eq ty 2 e m
    · rintro rfl
      exact combineEntry_eq ty 3 e m

end Sys2Proof.Machine
end
